-- ==== Sys2Proof/Word.lean ====
section
/-! DEFINITION. The word types of the machine and their plainest arithmetic. -/
namespace Sys2Proof

abbrev Byte := BitVec 8
abbrev Half := BitVec 16
abbrev W32 := BitVec 32
abbrev W64 := BitVec 64
/-- One bit per lane of a group (01 R8: 64 lanes). -/
abbrev LaneMask := BitVec 64
/-- A 7-bit operand field of a lane instruction (04 R76). -/
abbrev Code := BitVec 7
/-- A hart register field (04 R86). -/
abbrev XReg := BitVec 5

/-- All bits set when `b`, else zero. -/
def ofFlag (w : Nat) (b : Bool) : BitVec w := if b then 1 else 0

end Sys2Proof
end

