-- ==== Sys2Proof/Syntax.lean ====
section
/-! DEFINITION. The instructions and device steps of the Ciuno Iglor, one constructor of `Instr` for each row of
the opcode table. Operand fields keep the manual's codes; modifier fields are decoded into names. -/
namespace Sys2Proof

/-- The type field of Table 4-3, codes 0-19 in order. -/
inductive Ty where
  | i8 | i16 | i32 | i64 | n8 | n16 | n32 | n64 | f64 | f32 | tf19 | bf16 | f16 | e4m3 | e5m2 | e3m2 | e2m3 | e2m1
  | bf16x2 | f16x2
  deriving DecidableEq, Repr

/-- The rm field of Table 4-3: code 0 selects fmode.rm, code 6 is stochastic. -/
inductive Rm where
  | mode | rne | rtz | rdn | rup | rmm | sr
  deriving DecidableEq, Repr

/-- cond of `cmp` (Table 4-3). -/
inductive Cond where
  | eq | ne | lt | le | gt | ge
  deriving DecidableEq, Repr

/-- fcond of `fcmp` (Table 4-3). -/
inductive FCond where
  | eq | ne | lt | le | gt | ge | un | or
  deriving DecidableEq, Repr

/-- op of layout G. -/
inductive RedOp where
  | add | min | max
  deriving DecidableEq, Repr

/-- space of Table 4-3. -/
inductive Space where
  | generic | scratch | vault | fabric
  deriving DecidableEq, Repr

/-- size of Table 4-3: 8 to 128 bits. -/
inductive Size where
  | b8 | b16 | b32 | b64 | b128
  deriving DecidableEq, Repr

/-- scope 1-5 of Table 4-3. -/
inductive Scope where
  | group | block | cluster | device | system
  deriving DecidableEq, Repr

/-- kind of a fence (Table 4-3). -/
inductive FenceKind where
  | acq | rel | acqrel
  deriving DecidableEq, Repr

/-- op of layout A but for `radd`, which has its own row. -/
inductive AtomOp where
  | add | min | max | and | or | xor | xchg | cas | fadd
  deriving DecidableEq, Repr

/-- op-type of layout A. -/
inductive AtomTy where
  | i32 | n32 | i64 | n64 | f32 | bf16x2
  deriving DecidableEq, Repr

/-- The order and scope an atomic carries in imm16 (09 R159): relaxed has no scope. -/
inductive Order where
  | relaxed | acquire (s : Scope) | release (s : Scope) | acqrel (s : Scope)
  deriving DecidableEq, Repr

/-- The element suffixes of `z.ldq` (Table 5-2). -/
inductive LdqTy where
  | n8 | n16 | n32 | n64 | i8 | i16 | pk8 | pk16
  deriving DecidableEq, Repr

/-- The element suffixes of `z.stq` (05 R99). -/
inductive StqTy where
  | n8 | n16 | n32
  deriving DecidableEq, Repr

inductive LoadKind where
  | lb | lh | lw | ld | lbu | lhu | lwu
  deriving DecidableEq, Repr

inductive StoreKind where
  | sb | sh | sw | sd
  deriving DecidableEq, Repr

inductive AmoOp where
  | swap | add | xor | and | or | min | max | minu | maxu
  deriving DecidableEq, Repr

inductive CsrOp where
  | rw | rs | rc
  deriving DecidableEq, Repr

/-- The source of a CSR instruction: a register field or the 5-bit immediate. -/
inductive CsrSrc where
  | reg (r : XReg) | imm (u : BitVec 5)
  deriving DecidableEq, Repr

inductive BrCond where
  | eq | ne | lt | ge | ltu | geu
  deriving DecidableEq, Repr

/-- Register-register operations of RV64I, M, Zba, Zbb and Zicond (04 R87). -/
inductive AluOp where
  | add | sub | sll | slt | sltu | xor | srl | sra | or | and
  | addw | subw | sllw | srlw | sraw
  | mul | mulh | mulhsu | mulhu | div | divu | rem | remu | mulw | divw | divuw | remw | remuw
  | adduw | sh1add | sh2add | sh3add | sh1adduw | sh2adduw | sh3adduw
  | andn | orn | xnor | max | maxu | min | minu | rol | ror | rolw | rorw
  | czeroeqz | czeronez
  deriving DecidableEq, Repr

/-- Register-immediate operations; a shift's amount is in the low bits of the immediate. -/
inductive AluImmOp where
  | addi | slti | sltiu | xori | ori | andi | slli | srli | srai | addiw | slliw | srliw | sraiw
  | slliuw | rori | roriw
  deriving DecidableEq, Repr

/-- One-operand operations of Zbb. -/
inductive UnOp where
  | clz | ctz | cpop | clzw | ctzw | cpopw | sextb | sexth | zexth | orcb | rev8
  deriving DecidableEq, Repr

/-- The standard hart instructions that have no row of their own (04 R87). -/
inductive HartOp where
  | lui (rd : XReg) (imm : BitVec 20)
  | auipc (rd : XReg) (imm : BitVec 20)
  | jal (rd : XReg) (off : BitVec 21)
  | jalr (rd rs1 : XReg) (imm : BitVec 12)
  | branch (c : BrCond) (rs1 rs2 : XReg) (off : BitVec 13)
  | alu (op : AluOp) (rd rs1 rs2 : XReg)
  | aluImm (op : AluImmOp) (rd rs1 : XReg) (imm : BitVec 12)
  | unary (op : UnOp) (rd rs1 : XReg)
  deriving DecidableEq, Repr

/-- One constructor per row of the opcode table: lane instructions, hart instructions (vendor and standard), and the
steps that the device's other agents take. A device step carries no operands here: what it acts on is the input that
`State.input` holds. -/
inductive Instr where
  | nop
  | addI32 (d a b : Code)
  | subI32 (d a b : Code)
  | mulLoI32 (d a b : Code)
  | andL32 (d a b : Code)
  | orL32 (d a b : Code)
  | xorL32 (d a b : Code)
  | andnL32 (d a b : Code)
  | shlL32 (d a b : Code)
  | shrL32 (d a b : Code)
  | sraL32 (d a b : Code)
  | rotlL32 (d a b : Code)
  | minI32 (d a b : Code)
  | minN32 (d a b : Code)
  | maxI32 (d a b : Code)
  | maxN32 (d a b : Code)
  | mov (d a : Code)
  | not (d a : Code)
  | negI32 (d a : Code)
  | absI32 (d a : Code)
  | popc (d a : Code)
  | clz (d a : Code)
  | ctz (d a : Code)
  | brev (d a : Code)
  | lwin (k : BitVec 4)
  | pb (m : Code) (n : BitVec 3) (pat : BitVec 8)
  | qmode (p : BitVec 4)
  | fsetm (a : Code)
  | fgetm (d : Code)
  | mcfg (a : Code)
  | mand (d a b : Code)
  | mor (d a b : Code)
  | mxor (d a b : Code)
  | mnot (d a : Code)
  | mpopc (d a : Code)
  | mfirst (d a : Code)
  | mpush (a : Code)
  | mpop (d : Code)
  | mset (d a : Code)
  | shfl (d a b : Code)
  | compress (d a : Code)
  | expand (d a : Code)
  | qswapH (d a : Code)
  | qswapV (d a : Code)
  | qswapD (d a : Code)
  | fbpush (a : Code)
  | fbany (a : Code)
  | fball (a : Code)
  | fbcnt (a : Code)
  | join
  | cret
  | cnext
  | cend
  | brk
  | mfence
  | mpoll (d : Code)
  | mdrain
  | bbar
  | cbarArv
  | cbarWt
  | add (t : Ty) (sat : Bool) (d a b : Code)
  | addImm (t : Ty) (sat : Bool) (d a : Code) (imm : Half)
  | sub (t : Ty) (sat : Bool) (d a b : Code)
  | subImm (t : Ty) (sat : Bool) (d a : Code) (imm : Half)
  | mulLo (t : Ty) (sat : Bool) (d a b : Code)
  | mulLoImm (t : Ty) (sat : Bool) (d a : Code) (imm : Half)
  | mulHi (t : Ty) (d a b : Code)
  | mulHiImm (t : Ty) (d a : Code) (imm : Half)
  | mad (t : Ty) (sat : Bool) (d a b c : Code)
  | madImm (t : Ty) (sat : Bool) (d a c : Code) (imm : Half)
  | madWide (t : Ty) (d a b c : Code)
  | div (t : Ty) (d a b : Code)
  | divImm (t : Ty) (d a : Code) (imm : Half)
  | rem (t : Ty) (d a b : Code)
  | remImm (t : Ty) (d a : Code) (imm : Half)
  | min (t : Ty) (d a b : Code)
  | minImm (t : Ty) (d a : Code) (imm : Half)
  | max (t : Ty) (d a b : Code)
  | maxImm (t : Ty) (d a : Code) (imm : Half)
  | and (t : Ty) (d a b : Code)
  | andImm (t : Ty) (d a : Code) (imm : Half)
  | or (t : Ty) (d a b : Code)
  | orImm (t : Ty) (d a : Code) (imm : Half)
  | xor (t : Ty) (d a b : Code)
  | xorImm (t : Ty) (d a : Code) (imm : Half)
  | andn (t : Ty) (d a b : Code)
  | andnImm (t : Ty) (d a : Code) (imm : Half)
  | shl (t : Ty) (d a b : Code)
  | shlImm (t : Ty) (d a : Code) (sh : BitVec 6)
  | shr (t : Ty) (d a b : Code)
  | shrImm (t : Ty) (d a : Code) (sh : BitVec 6)
  | sra (t : Ty) (d a b : Code)
  | sraImm (t : Ty) (d a : Code) (sh : BitVec 6)
  | rotl (t : Ty) (d a b : Code)
  | rotlImm (t : Ty) (d a : Code) (sh : BitVec 6)
  | addc (t : Ty) (d a b c : Code)
  | subb (t : Ty) (d a b c : Code)
  | bfx (t : Ty) (d a b c : Code)
  | bfxImm (t : Ty) (d a : Code) (pos len : BitVec 6)
  | bfi (t : Ty) (d a b c : Code)
  | bfiImm (t : Ty) (d a : Code) (pos len : BitVec 6)
  | cmp (k : Cond) (t : Ty) (d a b : Code)
  | cmpImm (k : Cond) (t : Ty) (d a : Code) (imm : Half)
  | sel (t : Ty) (d a b c : Code)
  | movi (t : Ty) (d : Code) (imm : Half)
  | li (t : Ty) (d : Code) (lit : W32)
  | fadd (t : Ty) (rm : Rm) (d a b : Code)
  | fsub (t : Ty) (rm : Rm) (d a b : Code)
  | fmul (t : Ty) (rm : Rm) (d a b : Code)
  | ffma (t : Ty) (rm : Rm) (d a b c : Code)
  | fmin (t : Ty) (d a b : Code)
  | fmax (t : Ty) (d a b : Code)
  | fminnum (t : Ty) (d a b : Code)
  | fmaxnum (t : Ty) (d a b : Code)
  | fmaxabs (t : Ty) (d a b : Code)
  | fcopysign (t : Ty) (d a b : Code)
  | fdiv (t : Ty) (rm : Rm) (d a b : Code)
  | fsqrt (t : Ty) (rm : Rm) (d a : Code)
  | fscale (t : Ty) (rm : Rm) (d a b : Code)
  | frnd (t : Ty) (rm : Rm) (d a : Code)
  | fcmp (k : FCond) (t : Ty) (d a b : Code)
  | fclass (t : Ty) (d a : Code)
  | fsel (t : Ty) (d a b c : Code)
  | frcp (d a : Code)
  | frsq (d a : Code)
  | fexp2 (d a : Code)
  | flog2 (d a : Code)
  | fsin (d a : Code)
  | fcos (d a : Code)
  | fdot2 (t : Ty) (rm : Rm) (d a b c : Code)
  | cvt (tgt src : Ty) (rm : Rm) (sat : Bool) (d a : Code) (e : Half)
  | bcast (d a b : Code)
  | bcastImm (d a : Code) (n : BitVec 6)
  | slideup (d a b : Code)
  | slideupImm (d a : Code) (n : BitVec 6)
  | slidedn (d a b : Code)
  | slidednImm (d a : Code) (n : BitVec 6)
  | qbcast (d a : Code) (p : BitVec 2)
  | gred (op : RedOp) (t : Ty) (a : Code)
  | gscan (t : Ty) (a : Code)
  | ld (sp : Space) (z : Size) (sext : Bool) (d a : Code) (off : Half)
  | ldAcq (scope : Scope) (sp : Space) (z : Size) (d a : Code) (off : Half)
  | st (sp : Space) (z : Size) (a b : Code) (off : Half)
  | stRel (scope : Scope) (sp : Space) (z : Size) (a b : Code) (off : Half)
  | atom (op : AtomOp) (t : AtomTy) (sp : Space) (ord : Order) (d a b c : Code)
  | atomRadd (sp : Space) (ord : Order) (d a b c : Code)
  | fence (k : FenceKind) (scope : Scope)
  | l1inv (scope : Scope)
  | prefetch (l2 : Bool) (sp : Space) (a : Code) (off : Half)
  | mspill (sp : Space) (a : Code) (off : Half)
  | mfill (sp : Space) (a : Code) (off : Half)
  | cbr (off : Half)
  | cjmp (off : Half)
  | ccall (off : Half)
  | cloop (off : Half)
  | trap (code : Half)
  | rsend (a : Code) (ch : BitVec 4)
  | rrecv (d : Code) (ch : BitVec 4)
  | mma (scl asrc : Bool) (a : Code) (pitch : Half)
  | mmaSp (scl asrc : Bool) (a : Code) (pitch : Half)
  | msc (a : Code)
  | mlut (tb : BitVec 5)
  | tbldSub (pm asrc : Bool) (tb : BitVec 5) (d a : Code)
  | tbldProd (asrc : Bool) (tb cb : BitVec 5) (d a : Code)
  | cbld (tb : BitVec 5) (d a : Code) (scale : Byte) (lenm1 : BitVec 4)
  | tbspill (tb : BitVec 5) (a : Code)
  | tbfill (tb : BitVec 5) (a : Code)
  | tbinv (tb : BitVec 5)
  | tbstat (tb : BitVec 5) (d : Code)
  | tsld (d a : Code) (nm1 : BitVec 7) (pitch : BitVec 9)
  | tsst (a b : Code) (nm1 : BitVec 7) (pitch : BitVec 9)
  | tszero
  | tscvt (d : Code) (tgt : BitVec 5)
  | mwait (n : Byte)
  | zLdq (t : LdqTy) (q : BitVec 2) (rs1 rs2 : XReg)
  | zLdqNf (t : LdqTy) (q : BitVec 2) (rs1 rs2 : XReg)
  | zLdqt (q : BitVec 2) (rs1 rs2 : XReg)
  | zLdqtNf (q : BitVec 2) (rs1 rs2 : XReg)
  | zStq (t : StqTy) (rs1 rs2 : XReg)
  | zStqt (rs1 rs2 : XReg)
  | zScq (rs1 : XReg)
  | zCtok (rs1 : XReg)
  | zFbpop (rd : XReg)
  | zJoin
  | zQdrop (q : BitVec 2) (n : BitVec 4)
  | zBfb (rs1 : XReg) (off : BitVec 13)
  | zCpyin (ch : BitVec 3) (rd rs1 rs2 : XReg)
  | zCpyout (ch : BitVec 3) (rd rs1 rs2 : XReg)
  | zCpyx (ch : BitVec 3) (rd rs1 rs2 : XReg)
  | zCpywb (ch : BitVec 3) (rd rs1 rs2 : XReg)
  | zCpywait (ch : BitVec 3) (rd rs1 : XReg)
  | zMbadd (rs1 rs2 : XReg)
  | zMbwait (rd rs1 rs2 : XReg)
  | zMbrd (rd rs1 : XReg)
  | zMbset (rs1 rs2 : XReg)
  | zSend (rd rs1 rs2 : XReg)
  | zRecv (rd rs1 : XReg)
  | zRdone (rs1 : XReg)
  | zBbar
  | zBbarArv
  | zBbarWt
  | zCbarArv
  | zCbarWt
  | zLaunch (rd rs1 : XReg)
  | zJwait (rd rs1 : XReg)
  | zExit (rs1 : XReg)
  | zTadr (rd rs1 rs2 : XReg)
  | zTadv (rd rs1 rs2 : XReg)
  | zFence (k : FenceKind) (scope : Scope)
  | zL1wb (rs1 rs2 : XReg)
  | zRank (rd rs1 rs2 : XReg)
  | zTide (rd : XReg)
  | zTidewait (rd rs1 : XReg)
  | zQuiesce (rd : XReg)
  | zCsave (rs1 rs2 : XReg)
  | zCrest (rs1 rs2 : XReg)
  | zPjrd (rd rs1 : XReg)
  | zSample (rd rs1 : XReg)
  | hartLoad (k : LoadKind) (rd rs1 : XReg) (imm : BitVec 12)
  | hartStore (k : StoreKind) (rs1 rs2 : XReg) (imm : BitVec 12)
  | hartAmo (op : AmoOp) (dbl aq rl : Bool) (rd rs1 rs2 : XReg)
  | hartLr (dbl aq rl : Bool) (rd rs1 : XReg)
  | hartSc (dbl aq rl : Bool) (rd rs1 rs2 : XReg)
  | hartFence (fm pred succ : BitVec 4) (rd rs1 : XReg)
  | fenceI (rd rs1 : XReg) (imm : BitVec 12)
  | ecall
  | ebreak
  | mret
  | wfi
  | csrAccess (csr : BitVec 12) (op : CsrOp) (rd : XReg) (src : CsrSrc)
  | hartInstruction (op : HartOp)
  | slipWrite (op : CsrOp) (rd : XReg) (src : CsrSrc)
  | mstatWrite (op : CsrOp) (rd : XReg) (src : CsrSrc)
  | mlpcWrite (op : CsrOp) (rd : XReg) (src : CsrSrc)
  | cedoneRead (ch : BitVec 3) (op : CsrOp) (rd : XReg) (src : CsrSrc)
  | unassignedLaneOpcode (w : W32)
  | blockPlacement
  | blockRetirement
  | matrixCompletion
  | copyStart
  | copyCompletion
  | queueLoadArrival
  | replayArrival
  | laneAccessComplete
  | hartAccessResponse
  | postedWriteArrival
  | journalAck
  | journalRefusal
  | mailboxIncrementArrival
  | ringMessageArrival
  | rankContributionArrival
  | reductionInputArrival
  | routerFold
  | reductionResultLanded
  | absenceTokenArrival
  | hartCacheEviction
  | asyncTrapTaken
  | externalInterrupt
  | decouplingDeadlock
  | watchdogExpiry
  | remoteWaitTimeout
  | tidewaitReached
  | gangStrike
  | gangSuspend
  | gangResume
  | noticeWrite
  | shootdownRequest
  | shootdownDone
  | breakwaterRefill
  | breakwaterPass
  | eccError
  | kilsetWrite
  | mondbClear
  | mbctrWrite
  | blkerrWrite
  | partdieWrite
  | bootstStageWrite
  | bstoreWrite
  | hqReset
  | registerWrite
  | coldReset
  | failoverTimer
  | ctxCreate
  | ctxDestroy
  | worldSuspend
  | worldResume
  | worldDestroy
  | handleSet
  | handleClear
  | vaultGrant
  | entropyRestart
  | badCall
  | hqDoorbell
  | hqCompletionHead
  | hostNop
  | hostLaunch
  | hostShootdown
  | pageTake
  | pageReturn
  | badCommand
  | hlreqRenew
  | hlreqClaim
  | leaseExpiry
  | linkTraining
  | linkDown
  | ideFailure
  | lockInterface
  | startInterface
  | stopInterface
  | snpData
  | snpInv
  | snpCur
  | cxlGo
  | bisnpResponse
  | hostCxlMemAccess
  | getVersion
  | getCapabilities
  | negotiateAlgorithms
  | getDigests
  | getCertificate
  | challenge
  | getMeasurements
  | spdmUnsupportedRequest
  | prefetchFill
  | entropyHealthTestFailure
  deriving DecidableEq, Repr

end Sys2Proof
end

