-- ==== Sys2Proof/WellFormed.lean ====
section
/-! DEFINITION. Which instructions have an encoding: the types, modifiers and immediates that the entries accept at
stage 2 of 04 R78. Operand codes are not judged here (stage 4 does that when the instruction runs). -/
namespace Sys2Proof

/-- All eight integer types (Table 6-1). -/
def Ty.isInt : Ty → Bool
  | .i8 | .i16 | .i32 | .i64 | .n8 | .n16 | .n32 | .n64 => true
  | _ => false

/-- .i32 .n32 .i64 .n64. -/
def Ty.isWord : Ty → Bool
  | .i32 | .n32 | .i64 | .n64 => true
  | _ => false

/-- .i32 .n32. -/
def Ty.is32 : Ty → Bool
  | .i32 | .n32 => true
  | _ => false

/-- .f64 .f32 .bf16 .f16 .bf16x2 .f16x2 (Table 7-1, `fadd`). -/
def Ty.isFArith : Ty → Bool
  | .f64 | .f32 | .bf16 | .f16 | .bf16x2 | .f16x2 => true
  | _ => false

/-- .f64 .f32 .bf16 .f16. -/
def Ty.isFScalar : Ty → Bool
  | .f64 | .f32 | .bf16 | .f16 => true
  | _ => false

/-- .f64 .f32. -/
def Ty.isFWide : Ty → Bool
  | .f64 | .f32 => true
  | _ => false

/-- Codes 18 and 19. -/
def Ty.isPacked : Ty → Bool
  | .bf16x2 | .f16x2 => true
  | _ => false

/-- Codes 8-17: the floating formats that stochastic rounding may target (07 R135). -/
def Ty.isFloatTarget (t : Ty) : Bool := !t.isInt && !t.isPacked

/-- Whether an operand of the type is a register pair. -/
def Ty.wide : Ty → Bool
  | .i64 | .n64 | .f64 => true
  | _ => false

/-- rm codes 0-5. -/
def Rm.notSr : Rm → Bool
  | .sr => false
  | _ => true

/-- The types `gred` takes (08 R144). -/
def Ty.isRed : Ty → Bool
  | .i32 | .n32 | .i64 | .n64 | .f32 | .f64 => true
  | _ => false

/-- The op and op-type pairs of Table 9-3. -/
def AtomOp.accepts : AtomOp → AtomTy → Bool
  | .fadd, .f32 | .fadd, .bf16x2 => true
  | .fadd, _ => false
  | _, .f32 | _, .bf16x2 => false
  | _, _ => true

/-- A scoped access is 32 or 64 bits (09 R152). -/
def Size.scoped : Size → Bool
  | .b32 | .b64 => true
  | _ => false

/-- `sext` only with 8 and 16 bits (Table 4-3). -/
def Size.mayExt : Size → Bool
  | .b8 | .b16 => true
  | _ => false

/-- Scopes 2-5, those `l1inv` takes (09 R163). -/
def Scope.notGroup : Scope → Bool
  | .group => false
  | _ => true

/-- The shift amounts of RV64I and Zbb that an immediate can hold. -/
def AluImmOp.immOk (op : AluImmOp) (imm : BitVec 12) : Bool :=
  match op with
  | .slli | .srli | .srai | .slliuw | .rori => imm.toNat < 64
  | .slliw | .srliw | .sraiw | .roriw => imm.toNat < 32
  | _ => true

/-- Even offsets: bit 0 of a B- or J-type offset has no place in the word. -/
def HartOp.wf : HartOp → Bool
  | .jal _ off => off.getLsbD 0 == false
  | .branch _ _ _ off => off.getLsbD 0 == false
  | .aluImm op _ _ imm => op.immOk imm
  | _ => true

/-- Whether a CSR instruction writes its CSR: always for csrrw, for the others when the field is not zero. -/
def CsrOp.writes (op : CsrOp) (src : CsrSrc) : Bool :=
  match op, src with
  | .rw, _ => true
  | _, .reg r => r != 0
  | _, .imm u => u != 0

/-- Which row of the opcode table a CSR number and form belongs to: the writes of slip, mstat and mlpc and every read
of cedone0-cedone7 have rows of their own. -/
inductive CsrRow where
  | slip | mstat | mlpc | cedone (ch : BitVec 3) | other
  deriving DecidableEq, Repr

def csrRow (csr : BitVec 12) (op : CsrOp) (src : CsrSrc) : CsrRow :=
  if csr == 0x800#12 && op.writes src then .slip
  else if csr == 0x801#12 && op.writes src then .mstat
  else if csr == 0x7C0#12 && op.writes src then .mlpc
  else if csr.toNat / 8 == 0x199 then .cedone (csr.setWidth 3)
  else .other

/-- The short opcodes that Table 4-4 assigns. -/
def shortAssigned (n : Nat) : Bool :=
  n ≤ 0x01D || (0x020 ≤ n && n ≤ 0x028) || (0x030 ≤ n && n ≤ 0x035) || (0x038 ≤ n && n ≤ 0x03B)
  || (0x040 ≤ n && n ≤ 0x044) || (0x048 ≤ n && n ≤ 0x04A) || (0x050 ≤ n && n ≤ 0x052)

/-- The L64 majors that Table 4-5 assigns. -/
def majorAssigned (n : Nat) : Bool :=
  n ≤ 0x00A || (0x00C ≤ n && n ≤ 0x024) || n == 0x026 || (0x028 ≤ n && n ≤ 0x02F) || (0x040 ≤ n && n ≤ 0x058)
  || (0x060 ≤ n && n ≤ 0x068) || (0x070 ≤ n && n ≤ 0x077) || (0x080 ≤ n && n ≤ 0x084) || n == 0x088 || n == 0x089
  || (0x0A0 ≤ n && n ≤ 0x0AF)

/-- First words that no entry claims: L32, L64 and L96 are told apart by the low bits (04 R74, R83-R85). -/
def laneUnassigned (w : W32) : Bool :=
  if w.getLsbD 0 == false then !shortAssigned (w.extractLsb' 1 10).toNat
  else if w.getLsbD 1 == false then !majorAssigned (w.extractLsb' 2 9).toNat
  else w.extractLsb' 2 9 != 0

/-- The modifier and immediate limits of each entry. Events have no encoding; they are well formed as they stand. -/
def Instr.wf : Instr → Bool
  | .add t _ _ _ _ | .sub t _ _ _ _ | .addImm t _ _ _ _ | .subImm t _ _ _ _ => t.isInt
  | .mulLo t _ _ _ _ | .mulLoImm t _ _ _ _ | .mad t _ _ _ _ _ | .madImm t _ _ _ _ _ => t.isWord
  | .mulHi t _ _ _ | .mulHiImm t _ _ _ => t.isWord
  | .madWide t _ _ _ _ => t.is32
  | .div t _ _ _ | .rem t _ _ _ | .divImm t _ _ _ | .remImm t _ _ _ => t.isWord
  | .min t _ _ _ | .max t _ _ _ | .minImm t _ _ _ | .maxImm t _ _ _ => t.isInt
  | .and t _ _ _ | .or t _ _ _ | .xor t _ _ _ | .andn t _ _ _ => t.isWord
  | .andImm t _ _ _ | .orImm t _ _ _ | .xorImm t _ _ _ | .andnImm t _ _ _ => t.isWord
  | .shl t _ _ _ | .shr t _ _ _ | .sra t _ _ _ | .rotl t _ _ _ => t.isWord
  | .shlImm t _ _ _ | .shrImm t _ _ _ | .sraImm t _ _ _ | .rotlImm t _ _ _ => t.isWord
  | .addc t _ _ _ _ | .subb t _ _ _ _ => t.is32
  | .bfx t _ _ _ _ | .bfi t _ _ _ _ | .bfxImm t _ _ _ _ | .bfiImm t _ _ _ _ => t.isWord
  | .cmp _ t _ _ _ | .cmpImm _ t _ _ _ => t.isInt
  | .sel t _ _ _ _ => t.isWord
  | .movi t _ _ => t.isWord
  | .li t _ _ => t.is32
  | .fadd t rm _ _ _ | .fsub t rm _ _ _ | .fmul t rm _ _ _ => t.isFArith && rm.notSr
  | .ffma t rm _ _ _ _ => t.isFArith && rm.notSr
  | .fmin t _ _ _ | .fmax t _ _ _ | .fminnum t _ _ _ | .fmaxnum t _ _ _ | .fmaxabs t _ _ _
  | .fcopysign t _ _ _ => t.isFArith
  | .fdiv t rm _ _ _ => t.isFWide && rm.notSr
  | .fsqrt t rm _ _ => t.isFWide && rm.notSr
  | .fscale t rm _ _ _ => t.isFScalar && rm.notSr
  | .frnd t rm _ _ => t.isFScalar && rm.notSr && rm != .mode && rm != .rmm
  | .fcmp _ t _ _ _ => t.isFScalar
  | .fclass t _ _ => t.isFScalar
  | .fsel t _ _ _ _ => t.isFWide
  | .fdot2 t rm _ _ _ _ => t.isPacked && rm.notSr
  | .cvt tgt src rm _ _ _ e =>
    !tgt.isPacked && !src.isPacked && tgt != src && (rm.notSr || tgt.isFloatTarget) && (rm == .sr || e == 0)
  | .gred _ t _ => t.isRed
  | .pb _ n pat => pat >>> (n.toNat + 1) == 0
  | .gscan t _ => t == .i32 || t == .n32 || t == .f32
  | .ld _ z sext _ _ _ => !sext || z.mayExt
  | .ldAcq _ _ z _ _ _ => z.scoped
  | .stRel _ _ z _ _ _ => z.scoped
  | .atom op t _ _ _ _ _ c => op.accepts t && (op == .cas || c == 119#7)
  | .l1inv scope => scope.notGroup
  | .mma _ asrc _ pitch | .mmaSp _ asrc _ pitch => asrc || pitch == 0
  | .zQdrop _ n => n.toNat ≤ 8
  | .zBfb _ off => off.getLsbD 0 == false
  | .hartInstruction op => op.wf
  | .csrAccess csr op _ src => csrRow csr op src == .other
  | .unassignedLaneOpcode w => laneUnassigned w
  | .slipWrite op _ src | .mstatWrite op _ src | .mlpcWrite op _ src => op.writes src
  | _ => true

/-- The steps of the device's other agents: they have no words in either stream. -/
def Instr.isEvent : Instr → Bool
  | .blockPlacement | .blockRetirement | .matrixCompletion | .copyStart | .copyCompletion | .queueLoadArrival
  | .replayArrival | .laneAccessComplete | .hartAccessResponse | .postedWriteArrival | .journalAck
  | .journalRefusal | .mailboxIncrementArrival | .ringMessageArrival | .rankContributionArrival
  | .reductionInputArrival | .routerFold | .reductionResultLanded | .absenceTokenArrival | .hartCacheEviction
  | .asyncTrapTaken | .externalInterrupt | .decouplingDeadlock | .watchdogExpiry | .remoteWaitTimeout
  | .tidewaitReached | .gangStrike | .gangSuspend | .gangResume | .noticeWrite | .shootdownRequest
  | .shootdownDone | .breakwaterRefill | .breakwaterPass | .eccError | .kilsetWrite | .mondbClear | .mbctrWrite
  | .blkerrWrite | .partdieWrite | .bootstStageWrite | .bstoreWrite | .hqReset | .registerWrite | .coldReset
  | .failoverTimer | .ctxCreate | .ctxDestroy | .worldSuspend | .worldResume | .worldDestroy | .handleSet
  | .handleClear | .vaultGrant | .entropyRestart | .badCall | .hqDoorbell | .hqCompletionHead | .hostNop
  | .hostLaunch | .hostShootdown | .pageTake | .pageReturn | .badCommand | .hlreqRenew | .hlreqClaim
  | .leaseExpiry | .linkTraining | .linkDown | .ideFailure | .lockInterface | .startInterface | .stopInterface
  | .snpData | .snpInv | .snpCur | .cxlGo | .bisnpResponse | .hostCxlMemAccess | .getVersion | .getCapabilities
  | .negotiateAlgorithms | .getDigests | .getCertificate | .challenge | .getMeasurements | .spdmUnsupportedRequest
  | .prefetchFill | .entropyHealthTestFailure => true
  | _ => false

end Sys2Proof
end

