-- ==== Sys2Proof/Decode.lean ====
section
/-! DEFINITION. The decoder of both streams (04 R74-R88), total on any words and rejecting by name, and the encoder
written from the same tables. -/
namespace Sys2Proof

/-- Why a word is not an instruction: each is the illegal-instruction fault (04 R78 stage 2, R86). -/
inductive DecodeError where
  /-- an unused 7-bit field does not hold 119 (04 R76) -/
  | unusedField
  /-- a modifier code that the instruction does not accept (04 R79) -/
  | modifier
  /-- a non-zero bit where the layout demands zero -/
  | mustBeZero
  /-- a type, immediate or combination that the entry does not accept -/
  | notAccepted
  /-- a hart encoding that 04 R86 and R87 do not assign -/
  | unassignedHart
  /-- a 16-bit parcel (04 R87) -/
  | compressed
  deriving DecidableEq, Repr

abbrev Decoded := Except DecodeError Instr

/-! ## Codes of Table 4-3 -/

def Ty.all : List Ty :=
  [.i8, .i16, .i32, .i64, .n8, .n16, .n32, .n64, .f64, .f32, .tf19, .bf16, .f16, .e4m3, .e5m2, .e3m2, .e2m3, .e2m1,
   .bf16x2, .f16x2]

def Ty.ofCode (c : BitVec 5) : Option Ty := Ty.all[c.toNat]?

def Ty.code : Ty → BitVec 5
  | .i8 => 0 | .i16 => 1 | .i32 => 2 | .i64 => 3 | .n8 => 4 | .n16 => 5 | .n32 => 6 | .n64 => 7 | .f64 => 8
  | .f32 => 9 | .tf19 => 10 | .bf16 => 11 | .f16 => 12 | .e4m3 => 13 | .e5m2 => 14 | .e3m2 => 15 | .e2m3 => 16
  | .e2m1 => 17 | .bf16x2 => 18 | .f16x2 => 19

def Rm.ofCode (c : BitVec 3) : Option Rm := [Rm.mode, .rne, .rtz, .rdn, .rup, .rmm, .sr][c.toNat]?

def Rm.code : Rm → BitVec 3
  | .mode => 0 | .rne => 1 | .rtz => 2 | .rdn => 3 | .rup => 4 | .rmm => 5 | .sr => 6

def Cond.ofCode (c : BitVec 3) : Option Cond := [Cond.eq, .ne, .lt, .le, .gt, .ge][c.toNat]?

def Cond.code : Cond → BitVec 3
  | .eq => 0 | .ne => 1 | .lt => 2 | .le => 3 | .gt => 4 | .ge => 5

def FCond.ofCode (c : BitVec 3) : Option FCond := [FCond.eq, .ne, .lt, .le, .gt, .ge, .un, .or][c.toNat]?

def FCond.code : FCond → BitVec 3
  | .eq => 0 | .ne => 1 | .lt => 2 | .le => 3 | .gt => 4 | .ge => 5 | .un => 6 | .or => 7

def RedOp.ofCode (c : BitVec 3) : Option RedOp := [RedOp.add, .min, .max][c.toNat]?

def RedOp.code : RedOp → BitVec 3
  | .add => 0 | .min => 1 | .max => 2

def Space.ofCode (c : BitVec 2) : Space :=
  if c == 0 then .generic else if c == 1 then .scratch else if c == 2 then .vault else .fabric

def Space.code : Space → BitVec 2
  | .generic => 0 | .scratch => 1 | .vault => 2 | .fabric => 3

def Size.ofCode (c : BitVec 3) : Option Size := [Size.b8, .b16, .b32, .b64, .b128][c.toNat]?

def Size.code : Size → BitVec 3
  | .b8 => 0 | .b16 => 1 | .b32 => 2 | .b64 => 3 | .b128 => 4

/-- Scope codes 1-5. -/
def Scope.ofCode (c : BitVec 3) : Option Scope :=
  [none, some Scope.group, some .block, some .cluster, some .device, some .system][c.toNat]?.join

def Scope.code : Scope → BitVec 3
  | .group => 1 | .block => 2 | .cluster => 3 | .device => 4 | .system => 5

def FenceKind.ofCode (c : BitVec 2) : Option FenceKind :=
  [none, some FenceKind.acq, some .rel, some .acqrel][c.toNat]?.join

def FenceKind.code : FenceKind → BitVec 2
  | .acq => 1 | .rel => 2 | .acqrel => 3

def AtomOp.ofCode (c : BitVec 4) : Option AtomOp :=
  [AtomOp.add, .min, .max, .and, .or, .xor, .xchg, .cas, .fadd][c.toNat]?

def AtomOp.code : AtomOp → BitVec 4
  | .add => 0 | .min => 1 | .max => 2 | .and => 3 | .or => 4 | .xor => 5 | .xchg => 6 | .cas => 7 | .fadd => 8

def AtomTy.ofCode (c : BitVec 3) : Option AtomTy := [AtomTy.i32, .n32, .i64, .n64, .f32, .bf16x2][c.toNat]?

def AtomTy.code : AtomTy → BitVec 3
  | .i32 => 0 | .n32 => 1 | .i64 => 2 | .n64 => 3 | .f32 => 4 | .bf16x2 => 5

/-- imm16 of an atomic: order in [4:3], scope in [2:0] (09 R159). -/
def Order.ofImm (i : Half) : Option Order :=
  if i.extractLsb' 5 11 != 0 then none
  else
    match (i.extractLsb' 3 2).toNat, Scope.ofCode (i.extractLsb' 0 3) with
    | 0, none => if i.extractLsb' 0 3 == 0 then some .relaxed else none
    | 1, some s => some (.acquire s)
    | 2, some s => some (.release s)
    | 3, some s => some (.acqrel s)
    | _, _ => none

def Order.imm : Order → Half
  | .relaxed => 0
  | .acquire s => 0#11 ++ 1#2 ++ s.code
  | .release s => 0#11 ++ 2#2 ++ s.code
  | .acqrel s => 0#11 ++ 3#2 ++ s.code

def LdqTy.ofCode (mode size : BitVec 2) : Option LdqTy :=
  match mode.toNat, size.toNat with
  | 0, 0 => some .n8 | 0, 1 => some .n16 | 0, 2 => some .n32 | 0, 3 => some .n64
  | 1, 0 => some .i8 | 1, 1 => some .i16 | 2, 0 => some .pk8 | 2, 1 => some .pk16
  | _, _ => none

/-- mode in the upper two bits, size in the lower two (Table 5-2). -/
def LdqTy.code : LdqTy → BitVec 4
  | .n8 => 0b0000 | .n16 => 0b0001 | .n32 => 0b0010 | .n64 => 0b0011 | .i8 => 0b0100 | .i16 => 0b0101
  | .pk8 => 0b1000 | .pk16 => 0b1001

def StqTy.ofCode (c : BitVec 2) : Option StqTy := [StqTy.n8, .n16, .n32][c.toNat]?

def StqTy.code : StqTy → BitVec 2
  | .n8 => 0 | .n16 => 1 | .n32 => 2

/-! ## Fields of the lane forms (Table 4-1) -/

/-- The code an unused field must hold (04 R76). -/
abbrev unusedCode : Code := 119#7

def fieldD (w : W32) : Code := w.extractLsb' 11 7
def fieldA (w : W32) : Code := w.extractLsb' 18 7
def fieldB (w : W32) : Code := w.extractLsb' 25 7
def fieldOp (w : W32) : BitVec 10 := w.extractLsb' 1 10
def fieldMajor (w : W32) : BitVec 9 := w.extractLsb' 2 9
def fieldC (w : W32) : Code := w.extractLsb' 0 7
def fieldMod (w : W32) : BitVec 9 := w.extractLsb' 7 9
def fieldImm (w : W32) : Half := w.extractLsb' 16 16

/-- Bytes of a lane instruction, read from the low bits of its first word (04 R74). -/
def laneLength (w : W32) : Nat :=
  if w.getLsbD 0 == false then 4 else if w.getLsbD 1 == false then 8 else 12

/-- The last check of a decode: the entry accepts the types and modifiers. -/
def accept (i : Instr) : Decoded := if i.wf then .ok i else .error .notAccepted

def unused1 (x : Code) (r : Decoded) : Decoded := if x == unusedCode then r else .error .unusedField
def unused2 (x y : Code) (r : Decoded) : Decoded := unused1 x (unused1 y r)
def unused3 (x y z : Code) (r : Decoded) : Decoded := unused1 x (unused2 y z r)
def zeroBits (p : Bool) (r : Decoded) : Decoded := if p then r else .error .mustBeZero

/-- A modifier field decoded by `f`, or the reserved-code rejection. -/
def withCode {α β : Type} (f : α → Option β) (x : α) (k : β → Decoded) : Decoded :=
  match f x with
  | some y => k y
  | none => .error .modifier

def modTy (m : BitVec 9) (k : Ty → Decoded) : Decoded := withCode Ty.ofCode (m.extractLsb' 0 5) k
def modHigh3 (m : BitVec 9) : BitVec 3 := m.extractLsb' 5 3
def modSat (m : BitVec 9) : Bool := m.getLsbD 8

/-- The L32 entry of an opcode (Table 4-4) on the fields of its word. Every opcode not listed is unassigned
(04 R83). -/
def decodeShort (w : W32) (op : Nat) (d a b : Code) : Decoded :=
  match op with
  | 0x000 => unused3 b a d (accept .nop)
  | 0x001 => accept (.addI32 d a b)
  | 0x002 => accept (.subI32 d a b)
  | 0x003 => accept (.mulLoI32 d a b)
  | 0x004 => accept (.andL32 d a b)
  | 0x005 => accept (.orL32 d a b)
  | 0x006 => accept (.xorL32 d a b)
  | 0x007 => accept (.andnL32 d a b)
  | 0x008 => accept (.shlL32 d a b)
  | 0x009 => accept (.shrL32 d a b)
  | 0x00A => accept (.sraL32 d a b)
  | 0x00B => accept (.rotlL32 d a b)
  | 0x00C => accept (.minI32 d a b)
  | 0x00D => accept (.minN32 d a b)
  | 0x00E => accept (.maxI32 d a b)
  | 0x00F => accept (.maxN32 d a b)
  | 0x010 => unused1 b (accept (.mov d a))
  | 0x011 => unused1 b (accept (.not d a))
  | 0x012 => unused1 b (accept (.negI32 d a))
  | 0x013 => unused1 b (accept (.absI32 d a))
  | 0x014 => unused1 b (accept (.popc d a))
  | 0x015 => unused1 b (accept (.clz d a))
  | 0x016 => unused1 b (accept (.ctz d a))
  | 0x017 => unused1 b (accept (.brev d a))
  | 0x018 => zeroBits (w.extractLsb' 15 17 == 0) (accept (.lwin (w.extractLsb' 11 4)))
  | 0x019 => zeroBits (w.extractLsb' 29 3 == 0 && (w.extractLsb' 21 8) >>> ((w.extractLsb' 18 3).toNat + 1) == 0)
      (accept (.pb d (w.extractLsb' 18 3) (w.extractLsb' 21 8)))
  | 0x01A => zeroBits (w.extractLsb' 15 17 == 0) (accept (.qmode (w.extractLsb' 11 4)))
  | 0x01B => unused2 b d (accept (.fsetm a))
  | 0x01C => unused2 b a (accept (.fgetm d))
  | 0x01D => unused2 b d (accept (.mcfg a))
  | 0x020 => accept (.mand d a b)
  | 0x021 => accept (.mor d a b)
  | 0x022 => accept (.mxor d a b)
  | 0x023 => unused1 b (accept (.mnot d a))
  | 0x024 => unused1 b (accept (.mpopc d a))
  | 0x025 => unused1 b (accept (.mfirst d a))
  | 0x026 => unused2 b d (accept (.mpush a))
  | 0x027 => unused2 b a (accept (.mpop d))
  | 0x028 => unused1 b (accept (.mset d a))
  | 0x030 => accept (.shfl d a b)
  | 0x031 => unused1 b (accept (.compress d a))
  | 0x032 => unused1 b (accept (.expand d a))
  | 0x033 => unused1 b (accept (.qswapH d a))
  | 0x034 => unused1 b (accept (.qswapV d a))
  | 0x035 => unused1 b (accept (.qswapD d a))
  | 0x038 => unused2 b d (accept (.fbpush a))
  | 0x039 => unused2 b d (accept (.fbany a))
  | 0x03A => unused2 b d (accept (.fball a))
  | 0x03B => unused2 b d (accept (.fbcnt a))
  | 0x040 => unused3 b a d (accept .join)
  | 0x041 => unused3 b a d (accept .cret)
  | 0x042 => unused3 b a d (accept .cnext)
  | 0x043 => unused3 b a d (accept .cend)
  | 0x044 => unused3 b a d (accept .brk)
  | 0x048 => unused3 b a d (accept .mfence)
  | 0x049 => unused2 b a (accept (.mpoll d))
  | 0x04A => unused3 b a d (accept .mdrain)
  | 0x050 => unused3 b a d (accept .bbar)
  | 0x051 => unused3 b a d (accept .cbarArv)
  | 0x052 => unused3 b a d (accept .cbarWt)
  | _ => .ok (.unassignedLaneOpcode w)

/-- L32: the opcode and the fields of layout L32 (Table 4-1). -/
def decodeL32 (w : W32) : Decoded := decodeShort w (fieldOp w).toNat (fieldD w) (fieldA w) (fieldB w)

/-- The memory majors 0x070-0x077 (layouts M and A). -/
def decodeL64Mem (maj : Nat) (d a b c : Code) (m : BitVec 9) (imm : Half) : Decoded :=
  let sp := Space.ofCode (m.extractLsb' 4 2)
  let sext := m.getLsbD 3
  let scope := m.extractLsb' 6 3
  let z := m.extractLsb' 0 3
  match maj with
  | 0x070 =>
    unused2 b c (withCode Size.ofCode z fun z =>
      if scope == 0 then accept (.ld sp z sext d a imm)
      else zeroBits (!sext) (withCode Scope.ofCode scope fun s => accept (.ldAcq s sp z d a imm)))
  | 0x071 =>
    unused2 d c (zeroBits (!sext) (withCode Size.ofCode z fun z =>
      if scope == 0 then accept (.st sp z a b imm)
      else withCode Scope.ofCode scope fun s => accept (.stRel s sp z a b imm)))
  | 0x072 =>
    let asp := Space.ofCode (m.extractLsb' 7 2)
    let op := m.extractLsb' 0 4
    withCode AtomTy.ofCode (m.extractLsb' 4 3) fun t =>
      withCode Order.ofImm imm fun ord =>
        if op == 9 then (if t == .f32 then accept (.atomRadd asp ord d a b c) else .error .notAccepted)
        else withCode AtomOp.ofCode op fun op =>
          if op == .cas then accept (.atom op t asp ord d a b c)
          else unused1 c (accept (.atom op t asp ord d a b c))
  | 0x073 =>
    unused3 b a d (unused1 c (zeroBits (imm == 0 && m.extractLsb' 2 4 == 0)
      (withCode FenceKind.ofCode (m.extractLsb' 0 2) fun k =>
        withCode Scope.ofCode scope fun s => accept (.fence k s))))
  | 0x074 =>
    unused3 b d c (zeroBits (scope == 0 && !sext && m.extractLsb' 1 2 == 0)
      (accept (.prefetch (m.getLsbD 0) sp a imm)))
  | 0x075 =>
    unused3 b a d (unused1 c (zeroBits (imm == 0 && m.extractLsb' 0 6 == 0)
      (withCode Scope.ofCode scope fun s => accept (.l1inv s))))
  | 0x076 => unused3 b d c (zeroBits (scope == 0 && !sext && z == 3) (accept (.mspill sp a imm)))
  | _ => unused3 b d c (zeroBits (scope == 0 && !sext && z == 3) (accept (.mfill sp a imm)))

/-- The matrix majors 0x0A0-0x0AF (Table 11-1, layout X). -/
def decodeL64Matrix (maj : Nat) (d a b c : Code) (m : BitVec 9) (imm : Half) : Decoded :=
  let tb := m.extractLsb' 0 5
  let asrc := m.getLsbD 5
  let scl := m.getLsbD 6
  let pat := m.getLsbD 7
  match maj with
  | 0x0A0 => unused3 b d c (zeroBits (m.extractLsb' 7 2 == 0 && tb == 0) (accept (.mma scl asrc a imm)))
  | 0x0A1 => unused3 b d c (zeroBits (m.extractLsb' 7 2 == 0 && tb == 0) (accept (.mmaSp scl asrc a imm)))
  | 0x0A2 => unused3 b d c (zeroBits (m == 0 && imm == 0) (accept (.msc a)))
  | 0x0A3 => unused3 b a d (unused1 c (zeroBits (m.extractLsb' 5 4 == 0 && imm == 0) (accept (.mlut tb))))
  | 0x0A4 => unused2 b c (zeroBits (!m.getLsbD 8 && !scl && imm == 0) (accept (.tbldSub pat asrc tb d a)))
  | 0x0A5 => unused2 b c (zeroBits (m.extractLsb' 6 3 == 0 && imm.extractLsb' 5 11 == 0)
      (accept (.tbldProd asrc tb (imm.extractLsb' 0 5) d a)))
  | 0x0A6 => unused2 b c (zeroBits (m.extractLsb' 5 4 == 0 && imm.extractLsb' 12 4 == 0)
      (accept (.cbld tb d a (imm.extractLsb' 0 8) (imm.extractLsb' 8 4))))
  | 0x0A7 => unused3 b d c (zeroBits (m.extractLsb' 5 4 == 0 && imm == 0) (accept (.tbspill tb a)))
  | 0x0A8 => unused3 b d c (zeroBits (m.extractLsb' 5 4 == 0 && imm == 0) (accept (.tbfill tb a)))
  | 0x0A9 => unused3 b a d (unused1 c (zeroBits (m.extractLsb' 5 4 == 0 && imm == 0) (accept (.tbinv tb))))
  | 0x0AA => unused3 b a c (zeroBits (m.extractLsb' 5 4 == 0 && imm == 0) (accept (.tbstat tb d)))
  | 0x0AB => unused2 b c (zeroBits (m == 0) (accept (.tsld d a (imm.extractLsb' 0 7) (imm.extractLsb' 7 9))))
  | 0x0AC => unused2 d c (zeroBits (m == 0) (accept (.tsst a b (imm.extractLsb' 0 7) (imm.extractLsb' 7 9))))
  | 0x0AD => unused3 b a d (unused1 c (zeroBits (m == 0 && imm == 0) (accept .tszero)))
  | 0x0AE => unused3 b a c (zeroBits (m == 0 && imm.extractLsb' 5 11 == 0) (accept (.tscvt d (imm.extractLsb' 0 5))))
  | _ => unused3 b a d (unused1 c (zeroBits (m == 0 && imm.extractLsb' 8 8 == 0)
      (accept (.mwait (imm.extractLsb' 0 8)))))

/-- The L64 entry of a major (Table 4-5) on the fields of its words. Every major not listed is unassigned (04 R84). -/
def decodeMajor (w0 : W32) (maj : Nat) (d a b c : Code) (m : BitVec 9) (imm : Half) : Decoded :=
  match maj with
  | 0x000 => unused1 c (zeroBits (imm == 0) (modTy m fun t => zeroBits (modHigh3 m == 0) (accept (.add t (modSat m) d a b))))
  | 0x001 => unused2 b c (modTy m fun t => zeroBits (modHigh3 m == 0) (accept (.addImm t (modSat m) d a imm)))
  | 0x002 => unused1 c (zeroBits (imm == 0) (modTy m fun t => zeroBits (modHigh3 m == 0) (accept (.sub t (modSat m) d a b))))
  | 0x003 => unused2 b c (modTy m fun t => zeroBits (modHigh3 m == 0) (accept (.subImm t (modSat m) d a imm)))
  | 0x004 => 
    unused1 c (zeroBits (imm == 0) (modTy m fun t =>
      zeroBits (modHigh3 m == 0) (accept (.mulLo t (modSat m) d a b))))
  | 0x005 => unused2 b c (modTy m fun t => zeroBits (modHigh3 m == 0) (accept (.mulLoImm t (modSat m) d a imm)))
  | 0x006 => unused1 c (zeroBits (imm == 0) (modTy m fun t => zeroBits (m.extractLsb' 5 4 == 0) (accept (.mulHi t d a b))))
  | 0x007 => unused2 b c (modTy m fun t => zeroBits (m.extractLsb' 5 4 == 0) (accept (.mulHiImm t d a imm)))
  | 0x008 => zeroBits (imm == 0) (modTy m fun t => zeroBits (modHigh3 m == 0) (accept (.mad t (modSat m) d a b c)))
  | 0x009 => unused1 b (modTy m fun t => zeroBits (modHigh3 m == 0) (accept (.madImm t (modSat m) d a c imm)))
  | 0x00A => zeroBits (imm == 0) (modTy m fun t => zeroBits (m.extractLsb' 5 4 == 0) (accept (.madWide t d a b c)))
  | 0x00C => unused1 c (zeroBits (imm == 0) (modTy m fun t => zeroBits (m.extractLsb' 5 4 == 0) (accept (.div t d a b))))
  | 0x00D => unused2 b c (modTy m fun t => zeroBits (m.extractLsb' 5 4 == 0) (accept (.divImm t d a imm)))
  | 0x00E => unused1 c (zeroBits (imm == 0) (modTy m fun t => zeroBits (m.extractLsb' 5 4 == 0) (accept (.rem t d a b))))
  | 0x00F => unused2 b c (modTy m fun t => zeroBits (m.extractLsb' 5 4 == 0) (accept (.remImm t d a imm)))
  | 0x010 => unused1 c (zeroBits (imm == 0) (modTy m fun t => zeroBits (m.extractLsb' 5 4 == 0) (accept (.min t d a b))))
  | 0x011 => unused2 b c (modTy m fun t => zeroBits (m.extractLsb' 5 4 == 0) (accept (.minImm t d a imm)))
  | 0x012 => unused1 c (zeroBits (imm == 0) (modTy m fun t => zeroBits (m.extractLsb' 5 4 == 0) (accept (.max t d a b))))
  | 0x013 => unused2 b c (modTy m fun t => zeroBits (m.extractLsb' 5 4 == 0) (accept (.maxImm t d a imm)))
  | 0x014 => unused1 c (zeroBits (imm == 0) (modTy m fun t => zeroBits (m.extractLsb' 5 4 == 0) (accept (.and t d a b))))
  | 0x015 => unused2 b c (modTy m fun t => zeroBits (m.extractLsb' 5 4 == 0) (accept (.andImm t d a imm)))
  | 0x016 => unused1 c (zeroBits (imm == 0) (modTy m fun t => zeroBits (m.extractLsb' 5 4 == 0) (accept (.or t d a b))))
  | 0x017 => unused2 b c (modTy m fun t => zeroBits (m.extractLsb' 5 4 == 0) (accept (.orImm t d a imm)))
  | 0x018 => unused1 c (zeroBits (imm == 0) (modTy m fun t => zeroBits (m.extractLsb' 5 4 == 0) (accept (.xor t d a b))))
  | 0x019 => unused2 b c (modTy m fun t => zeroBits (m.extractLsb' 5 4 == 0) (accept (.xorImm t d a imm)))
  | 0x01A => unused1 c (zeroBits (imm == 0) (modTy m fun t => zeroBits (m.extractLsb' 5 4 == 0) (accept (.andn t d a b))))
  | 0x01B => unused2 b c (modTy m fun t => zeroBits (m.extractLsb' 5 4 == 0) (accept (.andnImm t d a imm)))
  | 0x01C => unused1 c (zeroBits (imm == 0) (modTy m fun t => zeroBits (m.extractLsb' 5 4 == 0) (accept (.shl t d a b))))
  | 0x01D => 
    unused2 b c (zeroBits (imm.extractLsb' 6 10 == 0) (modTy m fun t =>
      zeroBits (m.extractLsb' 5 4 == 0) (accept (.shlImm t d a (imm.extractLsb' 0 6)))))
  | 0x01E => unused1 c (zeroBits (imm == 0) (modTy m fun t => zeroBits (m.extractLsb' 5 4 == 0) (accept (.shr t d a b))))
  | 0x01F => 
    unused2 b c (zeroBits (imm.extractLsb' 6 10 == 0) (modTy m fun t =>
      zeroBits (m.extractLsb' 5 4 == 0) (accept (.shrImm t d a (imm.extractLsb' 0 6)))))
  | 0x020 => unused1 c (zeroBits (imm == 0) (modTy m fun t => zeroBits (m.extractLsb' 5 4 == 0) (accept (.sra t d a b))))
  | 0x021 => 
    unused2 b c (zeroBits (imm.extractLsb' 6 10 == 0) (modTy m fun t =>
      zeroBits (m.extractLsb' 5 4 == 0) (accept (.sraImm t d a (imm.extractLsb' 0 6)))))
  | 0x022 => unused1 c (zeroBits (imm == 0) (modTy m fun t => zeroBits (m.extractLsb' 5 4 == 0) (accept (.rotl t d a b))))
  | 0x023 => 
    unused2 b c (zeroBits (imm.extractLsb' 6 10 == 0) (modTy m fun t =>
      zeroBits (m.extractLsb' 5 4 == 0) (accept (.rotlImm t d a (imm.extractLsb' 0 6)))))
  | 0x024 => zeroBits (imm == 0) (modTy m fun t => zeroBits (m.extractLsb' 5 4 == 0) (accept (.addc t d a b c)))
  | 0x026 => zeroBits (imm == 0) (modTy m fun t => zeroBits (m.extractLsb' 5 4 == 0) (accept (.subb t d a b c)))
  | 0x028 => zeroBits (imm == 0) (modTy m fun t => zeroBits (m.extractLsb' 5 4 == 0) (accept (.bfx t d a b c)))
  | 0x029 => 
    unused2 b c (zeroBits (imm.extractLsb' 6 2 == 0 && imm.extractLsb' 14 2 == 0) (modTy m fun t =>
      zeroBits (m.extractLsb' 5 4 == 0) (accept (.bfxImm t d a (imm.extractLsb' 0 6) (imm.extractLsb' 8 6)))))
  | 0x02A => zeroBits (imm == 0) (modTy m fun t => zeroBits (m.extractLsb' 5 4 == 0) (accept (.bfi t d a b c)))
  | 0x02B => 
    unused2 b c (zeroBits (imm.extractLsb' 6 2 == 0 && imm.extractLsb' 14 2 == 0) (modTy m fun t =>
      zeroBits (m.extractLsb' 5 4 == 0) (accept (.bfiImm t d a (imm.extractLsb' 0 6) (imm.extractLsb' 8 6)))))
  | 0x02C => 
    unused1 c (zeroBits (imm == 0) (modTy m fun t =>
      withCode Cond.ofCode (modHigh3 m) fun k => zeroBits (!modSat m) (accept (.cmp k t d a b))))
  | 0x02D => 
    unused2 b c (modTy m fun t =>
      withCode Cond.ofCode (modHigh3 m) fun k => zeroBits (!modSat m) (accept (.cmpImm k t d a imm)))
  | 0x02E => zeroBits (imm == 0) (modTy m fun t => zeroBits (m.extractLsb' 5 4 == 0) (accept (.sel t d a b c)))
  | 0x02F => unused3 b a c (modTy m fun t => zeroBits (m.extractLsb' 5 4 == 0) (accept (.movi t d imm)))
  | 0x040 => 
    unused1 c (zeroBits (imm == 0) (modTy m fun t =>
      withCode Rm.ofCode (modHigh3 m) fun rm => zeroBits (!modSat m) (accept (.fadd t rm d a b))))
  | 0x041 => 
    unused1 c (zeroBits (imm == 0) (modTy m fun t =>
      withCode Rm.ofCode (modHigh3 m) fun rm => zeroBits (!modSat m) (accept (.fsub t rm d a b))))
  | 0x042 => 
    unused1 c (zeroBits (imm == 0) (modTy m fun t =>
      withCode Rm.ofCode (modHigh3 m) fun rm => zeroBits (!modSat m) (accept (.fmul t rm d a b))))
  | 0x043 => 
    zeroBits (imm == 0) (modTy m fun t =>
      withCode Rm.ofCode (modHigh3 m) fun rm => zeroBits (!modSat m) (accept (.ffma t rm d a b c)))
  | 0x044 => unused1 c (zeroBits (imm == 0) (modTy m fun t => zeroBits (m.extractLsb' 5 4 == 0) (accept (.fmin t d a b))))
  | 0x045 => unused1 c (zeroBits (imm == 0) (modTy m fun t => zeroBits (m.extractLsb' 5 4 == 0) (accept (.fmax t d a b))))
  | 0x046 => unused1 c (zeroBits (imm == 0) (modTy m fun t => zeroBits (m.extractLsb' 5 4 == 0) (accept (.fminnum t d a b))))
  | 0x047 => unused1 c (zeroBits (imm == 0) (modTy m fun t => zeroBits (m.extractLsb' 5 4 == 0) (accept (.fmaxnum t d a b))))
  | 0x048 => 
    unused1 c (zeroBits (imm == 0) (modTy m fun t =>
      withCode FCond.ofCode (modHigh3 m) fun k => zeroBits (!modSat m) (accept (.fcmp k t d a b))))
  | 0x049 => unused2 b c (zeroBits (imm == 0) (modTy m fun t => zeroBits (m.extractLsb' 5 4 == 0) (accept (.fclass t d a))))
  | 0x04A => zeroBits (imm == 0) (modTy m fun t => zeroBits (m.extractLsb' 5 4 == 0) (accept (.fsel t d a b c)))
  | 0x04B => 
    unused1 c (zeroBits (imm == 0) (modTy m fun t =>
      withCode Rm.ofCode (modHigh3 m) fun rm => zeroBits (!modSat m) (accept (.fscale t rm d a b))))
  | 0x04C => 
    unused2 b c (zeroBits (imm == 0) (modTy m fun t =>
      withCode Rm.ofCode (modHigh3 m) fun rm => zeroBits (!modSat m) (accept (.frnd t rm d a))))
  | 0x04D => 
    unused1 c (zeroBits (imm == 0) (modTy m fun t =>
      withCode Rm.ofCode (modHigh3 m) fun rm => zeroBits (!modSat m) (accept (.fdiv t rm d a b))))
  | 0x04E => 
    unused2 b c (zeroBits (imm == 0) (modTy m fun t =>
      withCode Rm.ofCode (modHigh3 m) fun rm => zeroBits (!modSat m) (accept (.fsqrt t rm d a))))
  | 0x04F => 
    unused2 b c (zeroBits (imm == 0) (modTy m fun t =>
      zeroBits (m.extractLsb' 5 4 == 0)
      (if t == .f32 then accept (.frcp d a) else .error .notAccepted)))
  | 0x050 => 
    unused2 b c (zeroBits (imm == 0) (modTy m fun t =>
      zeroBits (m.extractLsb' 5 4 == 0)
      (if t == .f32 then accept (.frsq d a) else .error .notAccepted)))
  | 0x051 => 
    unused2 b c (zeroBits (imm == 0) (modTy m fun t =>
      zeroBits (m.extractLsb' 5 4 == 0)
      (if t == .f32 then accept (.fexp2 d a) else .error .notAccepted)))
  | 0x052 => 
    unused2 b c (zeroBits (imm == 0) (modTy m fun t =>
      zeroBits (m.extractLsb' 5 4 == 0)
      (if t == .f32 then accept (.flog2 d a) else .error .notAccepted)))
  | 0x053 => 
    unused2 b c (zeroBits (imm == 0) (modTy m fun t =>
      zeroBits (m.extractLsb' 5 4 == 0)
      (if t == .f32 then accept (.fsin d a) else .error .notAccepted)))
  | 0x054 => 
    unused2 b c (zeroBits (imm == 0) (modTy m fun t =>
      zeroBits (m.extractLsb' 5 4 == 0)
      (if t == .f32 then accept (.fcos d a) else .error .notAccepted)))
  | 0x055 => 
    zeroBits (imm == 0) (modTy m fun t =>
      withCode Rm.ofCode (modHigh3 m) fun rm => zeroBits (!modSat m) (accept (.fdot2 t rm d a b c)))
  | 0x056 => 
    unused1 b (modTy m fun tgt => withCode Ty.ofCode (c.extractLsb' 0 5) fun src => withCode Rm.ofCode (modHigh3 m) fun rm =>
      zeroBits (c.extractLsb' 5 2 == 0) (accept (.cvt tgt src rm (modSat m) d a imm)))
  | 0x057 => unused1 c (zeroBits (imm == 0) (modTy m fun t => zeroBits (m.extractLsb' 5 4 == 0) (accept (.fmaxabs t d a b))))
  | 0x058 => 
    unused1 c (zeroBits (imm == 0) (modTy m fun t =>
      zeroBits (m.extractLsb' 5 4 == 0) (accept (.fcopysign t d a b))))
  | 0x060 => unused1 c (zeroBits (imm == 0 && m == 0) (accept (.bcast d a b)))
  | 0x061 => unused2 b c (zeroBits (imm.extractLsb' 6 10 == 0 && m == 0) (accept (.bcastImm d a (imm.extractLsb' 0 6))))
  | 0x062 => unused1 c (zeroBits (imm == 0 && m == 0) (accept (.slideup d a b)))
  | 0x063 => unused2 b c (zeroBits (imm.extractLsb' 6 10 == 0 && m == 0) (accept (.slideupImm d a (imm.extractLsb' 0 6))))
  | 0x064 => unused1 c (zeroBits (imm == 0 && m == 0) (accept (.slidedn d a b)))
  | 0x065 => unused2 b c (zeroBits (imm.extractLsb' 6 10 == 0 && m == 0) (accept (.slidednImm d a (imm.extractLsb' 0 6))))
  | 0x066 => unused2 b c (zeroBits (imm.extractLsb' 2 14 == 0 && m == 0) (accept (.qbcast d a (imm.extractLsb' 0 2))))
  | 0x067 => 
    unused3 b d c (zeroBits (imm == 0) (modTy m fun t =>
      withCode RedOp.ofCode (modHigh3 m) fun op => zeroBits (!modSat m) (accept (.gred op t a))))
  | 0x068 => unused3 b d c (zeroBits (imm == 0) (modTy m fun t => zeroBits (m.extractLsb' 5 4 == 0) (accept (.gscan t a))))
  | 0x080 => unused1 b (unused3 a d c (zeroBits (m == 0) (accept (.cbr imm))))
  | 0x081 => unused1 b (unused3 a d c (zeroBits (m == 0) (accept (.cjmp imm))))
  | 0x082 => unused1 b (unused3 a d c (zeroBits (m == 0) (accept (.ccall imm))))
  | 0x083 => unused1 b (unused3 a d c (zeroBits (m == 0) (accept (.cloop imm))))
  | 0x084 => unused1 b (unused3 a d c (zeroBits (m == 0) (accept (.trap imm))))
  | 0x088 => unused3 b d c (zeroBits (imm.extractLsb' 4 12 == 0 && m == 0) (accept (.rsend a (imm.extractLsb' 0 4))))
  | 0x089 => unused3 b a c (zeroBits (imm.extractLsb' 4 12 == 0 && m == 0) (accept (.rrecv d (imm.extractLsb' 0 4))))
  | n =>
    if 0x070 ≤ n && n < 0x078 then decodeL64Mem n d a b c m imm
    else if 0x0A0 ≤ n && n < 0x0B0 then decodeL64Matrix n d a b c m imm
    else .ok (.unassignedLaneOpcode w0)

/-- L64: the major opcode and the fields of layout L64 (Table 4-1). -/
def decodeL64 (w0 w1 : W32) : Decoded :=
  decodeMajor w0 (fieldMajor w0).toNat (fieldD w0) (fieldA w0) (fieldB w0) (fieldC w1) (fieldMod w1) (fieldImm w1)

/-- L96: major 0 is `li` (04 R85). -/
def decodeL96 (w0 w1 w2 : W32) : Decoded :=
  if fieldMajor w0 == 0 then
    unused2 (fieldB w0) (fieldA w0) (unused1 (fieldC w1)
      (zeroBits (fieldImm w1 == 0 && (fieldMod w1).extractLsb' 5 4 == 0)
        (modTy (fieldMod w1) fun t => accept (.li t (fieldD w0) w2))))
  else .ok (.unassignedLaneOpcode w0)

/-- A lane instruction from its words; the later words are used only when the first word says so (04 R74, R75). -/
def decodeLane (w0 w1 w2 : W32) : Decoded :=
  if w0.getLsbD 0 == false then decodeL32 w0
  else if w0.getLsbD 1 == false then decodeL64 w0 w1
  else decodeL96 w0 w1 w2

/-! ## The hart's words (04 R86, R87) -/

def fRd (w : W32) : XReg := w.extractLsb' 7 5
def fRs1 (w : W32) : XReg := w.extractLsb' 15 5
def fRs2 (w : W32) : XReg := w.extractLsb' 20 5
def fF3 (w : W32) : Nat := (w.extractLsb' 12 3).toNat
def fF7 (w : W32) : Nat := (w.extractLsb' 25 7).toNat
def fImmI (w : W32) : BitVec 12 := w.extractLsb' 20 12
def fImmS (w : W32) : BitVec 12 := w.extractLsb' 25 7 ++ w.extractLsb' 7 5
def fImmB (w : W32) : BitVec 13 :=
  w.extractLsb' 31 1 ++ w.extractLsb' 7 1 ++ w.extractLsb' 25 6 ++ w.extractLsb' 8 4 ++ 0#1
def fImmJ (w : W32) : BitVec 21 :=
  w.extractLsb' 31 1 ++ w.extractLsb' 12 8 ++ w.extractLsb' 20 1 ++ w.extractLsb' 21 10 ++ 0#1

def bad : Decoded := .error .unassignedHart

/-- An unused register field must be zero (04 R86). -/
def zreg (r : XReg) (k : Decoded) : Decoded := if r == 0 then k else .error .mustBeZero

/-- Custom-0, opcode 0x0B (Table 5-1). -/
def decodeCustom0 (w : W32) : Decoded :=
  let rd := fRd w
  let rs1 := fRs1 w
  let rs2 := fRs2 w
  let q := w.extractLsb' 25 2
  match fF3 w with
  | 0 => zreg rd (withCode (fun x => LdqTy.ofCode x (w.extractLsb' 27 2)) (w.extractLsb' 29 2) fun t =>
      if w.getLsbD 31 then accept (.zLdqNf t q rs1 rs2) else accept (.zLdq t q rs1 rs2))
  | 1 => zreg rd (zeroBits (w.extractLsb' 28 4 == 0)
      (if w.getLsbD 27 then accept (.zLdqtNf q rs1 rs2) else accept (.zLdqt q rs1 rs2)))
  | 2 => zreg rd (zeroBits (w.extractLsb' 27 5 == 0) (withCode StqTy.ofCode q fun t => accept (.zStq t rs1 rs2)))
  | 3 => zreg rd (zeroBits (w.extractLsb' 25 7 == 0) (accept (.zStqt rs1 rs2)))
  | 4 =>
    match fF7 w with
    | 0 => zreg rd (zreg rs2 (accept (.zScq rs1)))
    | 1 => zreg rd (zreg rs2 (accept (.zCtok rs1)))
    | 2 => zreg rs1 (zreg rs2 (accept (.zFbpop rd)))
    | 3 => zreg rd (zreg rs1 (zreg rs2 (accept .zJoin)))
    | _ => bad
  | 5 => zreg rd (zreg rs1 (zeroBits (w.extractLsb' 27 5 == 0 && !w.getLsbD 22)
      (accept (.zQdrop (w.extractLsb' 20 2) (w.extractLsb' 23 4)))))
  | 6 => zreg rs2 (accept (.zBfb rs1 (fImmB w)))
  | _ => bad

/-- Custom-1, opcode 0x2B (Tables 10-2 to 10-6). -/
def decodeCustom1 (w : W32) : Decoded :=
  let rd := fRd w
  let rs1 := fRs1 w
  let rs2 := fRs2 w
  let ch := w.extractLsb' 25 3
  match fF3 w with
  | 0 =>
    match (w.extractLsb' 28 4).toNat with
    | 0 => accept (.zCpyin ch rd rs1 rs2)
    | 1 => accept (.zCpyout ch rd rs1 rs2)
    | 2 => accept (.zCpyx ch rd rs1 rs2)
    | 3 => accept (.zCpywb ch rd rs1 rs2)
    | _ => bad
  | 1 => zeroBits (w.extractLsb' 23 9 == 0) (accept (.zCpywait (w.extractLsb' 20 3) rd rs1))
  | 2 =>
    match fF7 w with
    | 0 => zreg rd (accept (.zMbadd rs1 rs2))
    | 1 => accept (.zMbwait rd rs1 rs2)
    | 2 => zreg rs2 (accept (.zMbrd rd rs1))
    | 3 => zreg rd (accept (.zMbset rs1 rs2))
    | _ => bad
  | 3 =>
    match fF7 w with
    | 0 => accept (.zSend rd rs1 rs2)
    | 1 => zreg rs2 (accept (.zRecv rd rs1))
    | 2 => zreg rd (zreg rs2 (accept (.zRdone rs1)))
    | _ => bad
  | 4 => zreg rd (zreg rs1 (zreg rs2
      (match fF7 w with
      | 0 => accept .zBbar
      | 1 => accept .zBbarArv
      | 2 => accept .zBbarWt
      | 3 => accept .zCbarArv
      | 4 => accept .zCbarWt
      | _ => bad)))
  | 5 =>
    match fF7 w with
    | 0 => zreg rs2 (accept (.zLaunch rd rs1))
    | 1 => zreg rs2 (accept (.zJwait rd rs1))
    | 2 => zreg rd (zreg rs2 (accept (.zExit rs1)))
    | _ => bad
  | _ => bad

/-- Custom-2, opcode 0x5B. -/
def decodeCustom2 (w : W32) : Decoded :=
  let rd := fRd w
  let rs1 := fRs1 w
  let rs2 := fRs2 w
  match fF3 w with
  | 0 =>
    match fF7 w with
    | 0 => accept (.zTadr rd rs1 rs2)
    | 1 => accept (.zTadv rd rs1 rs2)
    | _ => bad
  | 1 => zreg rd (zreg rs1 (zeroBits (w.extractLsb' 25 7 == 0)
      (withCode FenceKind.ofCode (w.extractLsb' 23 2) fun k =>
        withCode Scope.ofCode (w.extractLsb' 20 3) fun s => accept (.zFence k s))))
  | 2 =>
    match fF7 w with
    | 0 => zreg rd (accept (.zL1wb rs1 rs2))
    | 1 => accept (.zRank rd rs1 rs2)
    | _ => bad
  | 3 =>
    match fF7 w with
    | 0 => zreg rs1 (zreg rs2 (accept (.zTide rd)))
    | 1 => zreg rs2 (accept (.zTidewait rd rs1))
    | _ => bad
  | _ => bad

/-- Custom-3, opcode 0x7B (Table 12-4). -/
def decodeCustom3 (w : W32) : Decoded :=
  let rd := fRd w
  let rs1 := fRs1 w
  let rs2 := fRs2 w
  match fF3 w, fF7 w with
  | 0, 0 => zreg rs1 (zreg rs2 (accept (.zQuiesce rd)))
  | 0, 1 => zreg rd (accept (.zCsave rs1 rs2))
  | 0, 2 => zreg rd (accept (.zCrest rs1 rs2))
  | 0, 3 => zreg rs2 (accept (.zPjrd rd rs1))
  | 0, 4 => zreg rs2 (accept (.zSample rd rs1))
  | _, _ => bad

def LoadKind.ofF3 (n : Nat) : Option LoadKind :=
  [some LoadKind.lb, some .lh, some .lw, some .ld, some .lbu, some .lhu, some .lwu][n]?.join

def LoadKind.f3 : LoadKind → BitVec 3
  | .lb => 0 | .lh => 1 | .lw => 2 | .ld => 3 | .lbu => 4 | .lhu => 5 | .lwu => 6

def StoreKind.ofF3 (n : Nat) : Option StoreKind := [StoreKind.sb, .sh, .sw, .sd][n]?

def StoreKind.f3 : StoreKind → BitVec 3
  | .sb => 0 | .sh => 1 | .sw => 2 | .sd => 3

def AmoOp.ofF5 (c : BitVec 5) : Option AmoOp :=
  match c.toNat with
  | 0x00 => some .add | 0x01 => some .swap | 0x04 => some .xor | 0x08 => some .or | 0x0C => some .and
  | 0x10 => some .min | 0x14 => some .max | 0x18 => some .minu | 0x1C => some .maxu
  | _ => none

def AmoOp.f5 : AmoOp → BitVec 5
  | .add => 0x00 | .swap => 0x01 | .xor => 0x04 | .or => 0x08 | .and => 0x0C | .min => 0x10 | .max => 0x14
  | .minu => 0x18 | .maxu => 0x1C

def BrCond.ofF3 (n : Nat) : Option BrCond :=
  [some BrCond.eq, some .ne, none, none, some .lt, some .ge, some .ltu, some .geu][n]?.join

def BrCond.f3 : BrCond → BitVec 3
  | .eq => 0 | .ne => 1 | .lt => 4 | .ge => 5 | .ltu => 6 | .geu => 7

/-- The major opcode, funct3 and funct7 of each register-register operation. -/
def AluOp.funct : AluOp → BitVec 7 × BitVec 3 × BitVec 7
  | .add => (0x33, 0, 0x00) | .sub => (0x33, 0, 0x20) | .sll => (0x33, 1, 0x00) | .slt => (0x33, 2, 0x00)
  | .sltu => (0x33, 3, 0x00) | .xor => (0x33, 4, 0x00) | .srl => (0x33, 5, 0x00) | .sra => (0x33, 5, 0x20)
  | .or => (0x33, 6, 0x00) | .and => (0x33, 7, 0x00)
  | .addw => (0x3B, 0, 0x00) | .subw => (0x3B, 0, 0x20) | .sllw => (0x3B, 1, 0x00) | .srlw => (0x3B, 5, 0x00)
  | .sraw => (0x3B, 5, 0x20)
  | .mul => (0x33, 0, 0x01) | .mulh => (0x33, 1, 0x01) | .mulhsu => (0x33, 2, 0x01) | .mulhu => (0x33, 3, 0x01)
  | .div => (0x33, 4, 0x01) | .divu => (0x33, 5, 0x01) | .rem => (0x33, 6, 0x01) | .remu => (0x33, 7, 0x01)
  | .mulw => (0x3B, 0, 0x01) | .divw => (0x3B, 4, 0x01) | .divuw => (0x3B, 5, 0x01) | .remw => (0x3B, 6, 0x01)
  | .remuw => (0x3B, 7, 0x01)
  | .adduw => (0x3B, 0, 0x04) | .sh1add => (0x33, 2, 0x10) | .sh2add => (0x33, 4, 0x10) | .sh3add => (0x33, 6, 0x10)
  | .sh1adduw => (0x3B, 2, 0x10) | .sh2adduw => (0x3B, 4, 0x10) | .sh3adduw => (0x3B, 6, 0x10)
  | .andn => (0x33, 7, 0x20) | .orn => (0x33, 6, 0x20) | .xnor => (0x33, 4, 0x20) | .max => (0x33, 6, 0x05)
  | .maxu => (0x33, 7, 0x05) | .min => (0x33, 4, 0x05) | .minu => (0x33, 5, 0x05) | .rol => (0x33, 1, 0x30)
  | .ror => (0x33, 5, 0x30) | .rolw => (0x3B, 1, 0x30) | .rorw => (0x3B, 5, 0x30)
  | .czeroeqz => (0x33, 5, 0x07) | .czeronez => (0x33, 7, 0x07)

def AluOp.all : List AluOp :=
  [.add, .sub, .sll, .slt, .sltu, .xor, .srl, .sra, .or, .and, .addw, .subw, .sllw, .srlw, .sraw, .mul, .mulh,
   .mulhsu, .mulhu, .div, .divu, .rem, .remu, .mulw, .divw, .divuw, .remw, .remuw] ++
  [.adduw, .sh1add, .sh2add, .sh3add, .sh1adduw, .sh2adduw, .sh3adduw, .andn, .orn, .xnor, .max, .maxu, .min, .minu,
   .rol, .ror, .rolw, .rorw, .czeroeqz, .czeronez]

def AluOp.ofFunct (op : BitVec 7) (f3 : BitVec 3) (f7 : BitVec 7) : Option AluOp :=
  AluOp.all.find? fun o => o.funct == (op, f3, f7)

/-- The 12-bit immediates that name the one-operand operations under opcode 0x13 or 0x1B; zext.h is 0x3B. -/
def UnOp.funct : UnOp → BitVec 7 × BitVec 3 × BitVec 12
  | .clz => (0x13, 1, 0x600) | .ctz => (0x13, 1, 0x601) | .cpop => (0x13, 1, 0x602) | .sextb => (0x13, 1, 0x604)
  | .sexth => (0x13, 1, 0x605) | .orcb => (0x13, 5, 0x287) | .rev8 => (0x13, 5, 0x6B8)
  | .clzw => (0x1B, 1, 0x600) | .ctzw => (0x1B, 1, 0x601) | .cpopw => (0x1B, 1, 0x602) | .zexth => (0x3B, 4, 0x080)

def UnOp.all : List UnOp :=
  [.clz, .ctz, .cpop, .sextb, .sexth, .orcb, .rev8, .clzw, .ctzw, .cpopw, .zexth]

def UnOp.ofFunct (op : BitVec 7) (f3 : BitVec 3) (imm : BitVec 12) : Option UnOp :=
  UnOp.all.find? fun o => o.funct == (op, f3, imm)

/-- Opcode, funct3 and the bits above the shift amount (zero for the plain immediates). -/
def AluImmOp.funct : AluImmOp → BitVec 7 × BitVec 3 × BitVec 12
  | .addi => (0x13, 0, 0) | .slti => (0x13, 2, 0) | .sltiu => (0x13, 3, 0) | .xori => (0x13, 4, 0) | .ori => (0x13, 6, 0)
  | .andi => (0x13, 7, 0) | .slli => (0x13, 1, 0) | .srli => (0x13, 5, 0) | .srai => (0x13, 5, 0x400)
  | .addiw => (0x1B, 0, 0) | .slliw => (0x1B, 1, 0) | .srliw => (0x1B, 5, 0) | .sraiw => (0x1B, 5, 0x400)
  | .slliuw => (0x1B, 1, 0x080) | .rori => (0x13, 5, 0x600) | .roriw => (0x1B, 5, 0x600)

/-- An immediate operation from its word: the shifts are told apart by the bits above the amount. -/
def decodeAluImm (w : W32) : Decoded :=
  let rd := fRd w
  let rs1 := fRs1 w
  let imm := fImmI w
  let op : BitVec 7 := w.extractLsb' 0 7
  let f3 : BitVec 3 := w.extractLsb' 12 3
  match UnOp.ofFunct op f3 imm with
  | some u => accept (.hartInstruction (.unary u rd rs1))
  | none =>
    let plain (o : AluImmOp) : Decoded := accept (.hartInstruction (.aluImm o rd rs1 imm))
    let sh6 (o : AluImmOp) : Decoded := accept (.hartInstruction (.aluImm o rd rs1 (0#6 ++ imm.extractLsb' 0 6)))
    let sh5 (o : AluImmOp) : Decoded := accept (.hartInstruction (.aluImm o rd rs1 (0#7 ++ imm.extractLsb' 0 5)))
    let hi6 := (imm.extractLsb' 6 6).toNat
    let hi7 := (imm.extractLsb' 5 7).toNat
    if op == 0x13 then
      match f3.toNat with
      | 0 => plain .addi | 2 => plain .slti | 3 => plain .sltiu | 4 => plain .xori | 6 => plain .ori | 7 => plain .andi
      | 1 => if hi6 == 0 then sh6 .slli else bad
      | _ => if hi6 == 0 then sh6 .srli else if hi6 == 0x10 then sh6 .srai else if hi6 == 0x18 then sh6 .rori else bad
    else
      match f3.toNat with
      | 0 => plain .addiw
      | 1 => if hi7 == 0 then sh5 .slliw else if hi6 == 2 then sh6 .slliuw else bad
      | 5 => if hi7 == 0 then sh5 .srliw else if hi7 == 0x20 then sh5 .sraiw else if hi7 == 0x30 then sh5 .roriw else bad
      | _ => bad

/-- SYSTEM, opcode 0x73: the five fixed words and the CSR instructions. -/
def decodeSystem (w : W32) : Decoded :=
  let rd := fRd w
  let csr := fImmI w
  let go (op : CsrOp) (src : CsrSrc) : Decoded :=
    match csrRow csr op src with
    | .slip => accept (.slipWrite op rd src)
    | .mstat => accept (.mstatWrite op rd src)
    | .mlpc => accept (.mlpcWrite op rd src)
    | .cedone ch => accept (.cedoneRead ch op rd src)
    | .other => accept (.csrAccess csr op rd src)
  match fF3 w with
  | 0 =>
    if w == 0x00000073#32 then .ok .ecall
    else if w == 0x00100073#32 then .ok .ebreak
    else if w == 0x30200073#32 then .ok .mret
    else if w == 0x10500073#32 then .ok .wfi
    else bad
  | 1 => go .rw (.reg (fRs1 w))
  | 2 => go .rs (.reg (fRs1 w))
  | 3 => go .rc (.reg (fRs1 w))
  | 5 => go .rw (.imm (fRs1 w))
  | 6 => go .rs (.imm (fRs1 w))
  | 7 => go .rc (.imm (fRs1 w))
  | _ => bad

/-- AMO, LR and SC, opcode 0x2F. -/
def decodeAmo (w : W32) : Decoded :=
  let rd := fRd w
  let rs1 := fRs1 w
  let rs2 := fRs2 w
  let aq := w.getLsbD 26
  let rl := w.getLsbD 25
  let f5 := w.extractLsb' 27 5
  let dbl := fF3 w == 3
  if fF3 w != 2 && fF3 w != 3 then bad
  else if f5 == 0x02 then (if rs2 == 0 then accept (.hartLr dbl aq rl rd rs1) else bad)
  else if f5 == 0x03 then accept (.hartSc dbl aq rl rd rs1 rs2)
  else
    match AmoOp.ofF5 f5 with
    | some op => accept (.hartAmo op dbl aq rl rd rs1 rs2)
    | none => bad

/-- A hart instruction word. -/
def decodeHart (w : W32) : Decoded :=
  let rd := fRd w
  let rs1 := fRs1 w
  let rs2 := fRs2 w
  if w.extractLsb' 0 2 != 3#2 then .error .compressed
  else
    match (w.extractLsb' 0 7).toNat with
    | 0x0B => decodeCustom0 w
    | 0x2B => decodeCustom1 w
    | 0x5B => decodeCustom2 w
    | 0x7B => decodeCustom3 w
    | 0x03 =>
      match LoadKind.ofF3 (fF3 w) with
      | some k => accept (.hartLoad k rd rs1 (fImmI w))
      | none => bad
    | 0x23 =>
      match StoreKind.ofF3 (fF3 w) with
      | some k => accept (.hartStore k rs1 rs2 (fImmS w))
      | none => bad
    | 0x2F => decodeAmo w
    | 0x0F =>
      match fF3 w with
      | 0 => accept (.hartFence (w.extractLsb' 28 4) (w.extractLsb' 24 4) (w.extractLsb' 20 4) rd rs1)
      | 1 => accept (.fenceI rd rs1 (fImmI w))
      | _ => bad
    | 0x73 => decodeSystem w
    | 0x37 => accept (.hartInstruction (.lui rd (w.extractLsb' 12 20)))
    | 0x17 => accept (.hartInstruction (.auipc rd (w.extractLsb' 12 20)))
    | 0x6F => accept (.hartInstruction (.jal rd (fImmJ w)))
    | 0x67 => if fF3 w == 0 then accept (.hartInstruction (.jalr rd rs1 (fImmI w))) else bad
    | 0x63 =>
      match BrCond.ofF3 (fF3 w) with
      | some c => accept (.hartInstruction (.branch c rs1 rs2 (fImmB w)))
      | none => bad
    | 0x13 => decodeAluImm w
    | 0x1B => decodeAluImm w
    | 0x33 =>
      match AluOp.ofFunct 0x33 (w.extractLsb' 12 3) (w.extractLsb' 25 7) with
      | some o => accept (.hartInstruction (.alu o rd rs1 rs2))
      | none => bad
    | 0x3B =>
      match UnOp.ofFunct 0x3B (w.extractLsb' 12 3) (fImmI w) with
      | some u => accept (.hartInstruction (.unary u rd rs1))
      | none =>
        match AluOp.ofFunct 0x3B (w.extractLsb' 12 3) (w.extractLsb' 25 7) with
        | some o => accept (.hartInstruction (.alu o rd rs1 rs2))
        | none => bad
    | _ => bad

/-! ## The encoder -/

def l32 (op : BitVec 10) (b a d : Code) : List W32 := [b ++ a ++ d ++ op ++ 0#1]

def l64 (maj : BitVec 9) (b a d : Code) (imm : Half) (m : BitVec 9) (c : Code) : List W32 :=
  [b ++ a ++ d ++ maj ++ 1#2, imm ++ m ++ c]

def modM (scope : BitVec 3) (sp : Space) (sext : Bool) (z : BitVec 3) : BitVec 9 :=
  scope ++ sp.code ++ ofFlag 1 sext ++ z

def modX (pat scl asrc : Bool) (tb : BitVec 5) : BitVec 9 :=
  0#1 ++ ofFlag 1 pat ++ ofFlag 1 scl ++ ofFlag 1 asrc ++ tb

/-- XR (04 R86). -/
def xr (f7 : BitVec 7) (rs2 rs1 : XReg) (f3 : BitVec 3) (rd : XReg) (op : BitVec 7) : List W32 :=
  [f7 ++ rs2 ++ rs1 ++ f3 ++ rd ++ op]

/-- XI and the RISC-V I-type. -/
def xi (imm : BitVec 12) (rs1 : XReg) (f3 : BitVec 3) (rd : XReg) (op : BitVec 7) : List W32 :=
  [imm ++ rs1 ++ f3 ++ rd ++ op]

/-- The RISC-V S-type. -/
def xs (imm : BitVec 12) (rs2 rs1 : XReg) (f3 : BitVec 3) (op : BitVec 7) : List W32 :=
  [imm.extractLsb' 5 7 ++ rs2 ++ rs1 ++ f3 ++ imm.extractLsb' 0 5 ++ op]

/-- XB: the RISC-V B-type. -/
def xb (off : BitVec 13) (rs2 rs1 : XReg) (f3 : BitVec 3) (op : BitVec 7) : List W32 :=
  [off.extractLsb' 12 1 ++ off.extractLsb' 5 6 ++ rs2 ++ rs1 ++ f3 ++ off.extractLsb' 1 4 ++ off.extractLsb' 11 1 ++ op]

/-- The RISC-V J-type. -/
def xj (off : BitVec 21) (rd : XReg) (op : BitVec 7) : List W32 :=
  [off.extractLsb' 20 1 ++ off.extractLsb' 1 10 ++ off.extractLsb' 11 1 ++ off.extractLsb' 12 8 ++ rd ++ op]

def CsrOp.f3 : CsrOp → CsrSrc → BitVec 3
  | .rw, .reg _ => 1 | .rs, .reg _ => 2 | .rc, .reg _ => 3
  | .rw, .imm _ => 5 | .rs, .imm _ => 6 | .rc, .imm _ => 7

def CsrSrc.field : CsrSrc → BitVec 5
  | .reg r => r
  | .imm u => u

def csrWord (csr : BitVec 12) (op : CsrOp) (rd : XReg) (src : CsrSrc) : List W32 :=
  xi csr src.field (op.f3 src) rd 0x73

def HartOp.encode : HartOp → List W32
  | .lui rd imm => [imm ++ rd ++ 0x37#7]
  | .auipc rd imm => [imm ++ rd ++ 0x17#7]
  | .jal rd off => xj off rd 0x6F
  | .jalr rd rs1 imm => xi imm rs1 0 rd 0x67
  | .branch c rs1 rs2 off => xb off rs2 rs1 c.f3 0x63
  | .alu op rd rs1 rs2 => xr op.funct.2.2 rs2 rs1 op.funct.2.1 rd op.funct.1
  | .aluImm op rd rs1 imm => xi (op.funct.2.2 ||| imm) rs1 op.funct.2.1 rd op.funct.1
  | .unary op rd rs1 => xi op.funct.2.2 rs1 op.funct.2.1 rd op.funct.1

/-- The words of a well-formed instruction. A device event has no words. -/
def encode : Instr → List W32
  | .nop => l32 0x000 unusedCode unusedCode unusedCode
  | .addI32 d a b => l32 0x001 b a d
  | .subI32 d a b => l32 0x002 b a d
  | .mulLoI32 d a b => l32 0x003 b a d
  | .andL32 d a b => l32 0x004 b a d
  | .orL32 d a b => l32 0x005 b a d
  | .xorL32 d a b => l32 0x006 b a d
  | .andnL32 d a b => l32 0x007 b a d
  | .shlL32 d a b => l32 0x008 b a d
  | .shrL32 d a b => l32 0x009 b a d
  | .sraL32 d a b => l32 0x00A b a d
  | .rotlL32 d a b => l32 0x00B b a d
  | .minI32 d a b => l32 0x00C b a d
  | .minN32 d a b => l32 0x00D b a d
  | .maxI32 d a b => l32 0x00E b a d
  | .maxN32 d a b => l32 0x00F b a d
  | .mov d a => l32 0x010 unusedCode a d
  | .not d a => l32 0x011 unusedCode a d
  | .negI32 d a => l32 0x012 unusedCode a d
  | .absI32 d a => l32 0x013 unusedCode a d
  | .popc d a => l32 0x014 unusedCode a d
  | .clz d a => l32 0x015 unusedCode a d
  | .ctz d a => l32 0x016 unusedCode a d
  | .brev d a => l32 0x017 unusedCode a d
  | .lwin k => [0#17 ++ k ++ 0x018#10 ++ 0#1]
  | .pb m n pat => [0#3 ++ pat ++ n ++ m ++ 0x019#10 ++ 0#1]
  | .qmode p => [0#17 ++ p ++ 0x01A#10 ++ 0#1]
  | .fsetm a => l32 0x01B unusedCode a unusedCode
  | .fgetm d => l32 0x01C unusedCode unusedCode d
  | .mcfg a => l32 0x01D unusedCode a unusedCode
  | .mand d a b => l32 0x020 b a d
  | .mor d a b => l32 0x021 b a d
  | .mxor d a b => l32 0x022 b a d
  | .mnot d a => l32 0x023 unusedCode a d
  | .mpopc d a => l32 0x024 unusedCode a d
  | .mfirst d a => l32 0x025 unusedCode a d
  | .mpush a => l32 0x026 unusedCode a unusedCode
  | .mpop d => l32 0x027 unusedCode unusedCode d
  | .mset d a => l32 0x028 unusedCode a d
  | .shfl d a b => l32 0x030 b a d
  | .compress d a => l32 0x031 unusedCode a d
  | .expand d a => l32 0x032 unusedCode a d
  | .qswapH d a => l32 0x033 unusedCode a d
  | .qswapV d a => l32 0x034 unusedCode a d
  | .qswapD d a => l32 0x035 unusedCode a d
  | .fbpush a => l32 0x038 unusedCode a unusedCode
  | .fbany a => l32 0x039 unusedCode a unusedCode
  | .fball a => l32 0x03A unusedCode a unusedCode
  | .fbcnt a => l32 0x03B unusedCode a unusedCode
  | .join => l32 0x040 unusedCode unusedCode unusedCode
  | .cret => l32 0x041 unusedCode unusedCode unusedCode
  | .cnext => l32 0x042 unusedCode unusedCode unusedCode
  | .cend => l32 0x043 unusedCode unusedCode unusedCode
  | .brk => l32 0x044 unusedCode unusedCode unusedCode
  | .mfence => l32 0x048 unusedCode unusedCode unusedCode
  | .mpoll d => l32 0x049 unusedCode unusedCode d
  | .mdrain => l32 0x04A unusedCode unusedCode unusedCode
  | .bbar => l32 0x050 unusedCode unusedCode unusedCode
  | .cbarArv => l32 0x051 unusedCode unusedCode unusedCode
  | .cbarWt => l32 0x052 unusedCode unusedCode unusedCode
  | .add t sat d a b => l64 0x000 b a d 0 (ofFlag 1 sat ++ 0#3 ++ t.code) unusedCode
  | .addImm t sat d a imm => l64 0x001 unusedCode a d imm (ofFlag 1 sat ++ 0#3 ++ t.code) unusedCode
  | .sub t sat d a b => l64 0x002 b a d 0 (ofFlag 1 sat ++ 0#3 ++ t.code) unusedCode
  | .subImm t sat d a imm => l64 0x003 unusedCode a d imm (ofFlag 1 sat ++ 0#3 ++ t.code) unusedCode
  | .mulLo t sat d a b => l64 0x004 b a d 0 (ofFlag 1 sat ++ 0#3 ++ t.code) unusedCode
  | .mulLoImm t sat d a imm => l64 0x005 unusedCode a d imm (ofFlag 1 sat ++ 0#3 ++ t.code) unusedCode
  | .mulHi t d a b => l64 0x006 b a d 0 (0#4 ++ t.code) unusedCode
  | .mulHiImm t d a imm => l64 0x007 unusedCode a d imm (0#4 ++ t.code) unusedCode
  | .mad t sat d a b c => l64 0x008 b a d 0 (ofFlag 1 sat ++ 0#3 ++ t.code) c
  | .madImm t sat d a c imm => l64 0x009 unusedCode a d imm (ofFlag 1 sat ++ 0#3 ++ t.code) c
  | .madWide t d a b c => l64 0x00A b a d 0 (0#4 ++ t.code) c
  | .div t d a b => l64 0x00C b a d 0 (0#4 ++ t.code) unusedCode
  | .divImm t d a imm => l64 0x00D unusedCode a d imm (0#4 ++ t.code) unusedCode
  | .rem t d a b => l64 0x00E b a d 0 (0#4 ++ t.code) unusedCode
  | .remImm t d a imm => l64 0x00F unusedCode a d imm (0#4 ++ t.code) unusedCode
  | .min t d a b => l64 0x010 b a d 0 (0#4 ++ t.code) unusedCode
  | .minImm t d a imm => l64 0x011 unusedCode a d imm (0#4 ++ t.code) unusedCode
  | .max t d a b => l64 0x012 b a d 0 (0#4 ++ t.code) unusedCode
  | .maxImm t d a imm => l64 0x013 unusedCode a d imm (0#4 ++ t.code) unusedCode
  | .and t d a b => l64 0x014 b a d 0 (0#4 ++ t.code) unusedCode
  | .andImm t d a imm => l64 0x015 unusedCode a d imm (0#4 ++ t.code) unusedCode
  | .or t d a b => l64 0x016 b a d 0 (0#4 ++ t.code) unusedCode
  | .orImm t d a imm => l64 0x017 unusedCode a d imm (0#4 ++ t.code) unusedCode
  | .xor t d a b => l64 0x018 b a d 0 (0#4 ++ t.code) unusedCode
  | .xorImm t d a imm => l64 0x019 unusedCode a d imm (0#4 ++ t.code) unusedCode
  | .andn t d a b => l64 0x01A b a d 0 (0#4 ++ t.code) unusedCode
  | .andnImm t d a imm => l64 0x01B unusedCode a d imm (0#4 ++ t.code) unusedCode
  | .shl t d a b => l64 0x01C b a d 0 (0#4 ++ t.code) unusedCode
  | .shlImm t d a sh => l64 0x01D unusedCode a d (0#10 ++ sh) (0#4 ++ t.code) unusedCode
  | .shr t d a b => l64 0x01E b a d 0 (0#4 ++ t.code) unusedCode
  | .shrImm t d a sh => l64 0x01F unusedCode a d (0#10 ++ sh) (0#4 ++ t.code) unusedCode
  | .sra t d a b => l64 0x020 b a d 0 (0#4 ++ t.code) unusedCode
  | .sraImm t d a sh => l64 0x021 unusedCode a d (0#10 ++ sh) (0#4 ++ t.code) unusedCode
  | .rotl t d a b => l64 0x022 b a d 0 (0#4 ++ t.code) unusedCode
  | .rotlImm t d a sh => l64 0x023 unusedCode a d (0#10 ++ sh) (0#4 ++ t.code) unusedCode
  | .addc t d a b c => l64 0x024 b a d 0 (0#4 ++ t.code) c
  | .subb t d a b c => l64 0x026 b a d 0 (0#4 ++ t.code) c
  | .bfx t d a b c => l64 0x028 b a d 0 (0#4 ++ t.code) c
  | .bfxImm t d a pos len => l64 0x029 unusedCode a d (0#2 ++ len ++ 0#2 ++ pos) (0#4 ++ t.code) unusedCode
  | .bfi t d a b c => l64 0x02A b a d 0 (0#4 ++ t.code) c
  | .bfiImm t d a pos len => l64 0x02B unusedCode a d (0#2 ++ len ++ 0#2 ++ pos) (0#4 ++ t.code) unusedCode
  | .cmp k t d a b => l64 0x02C b a d 0 (0#1 ++ k.code ++ t.code) unusedCode
  | .cmpImm k t d a imm => l64 0x02D unusedCode a d imm (0#1 ++ k.code ++ t.code) unusedCode
  | .sel t d a b c => l64 0x02E b a d 0 (0#4 ++ t.code) c
  | .movi t d imm => l64 0x02F unusedCode unusedCode d imm (0#4 ++ t.code) unusedCode
  | .li t d lit => [unusedCode ++ unusedCode ++ d ++ 0#9 ++ 3#2, 0#16 ++ (0#4 ++ t.code) ++ unusedCode, lit]
  | .fadd t rm d a b => l64 0x040 b a d 0 (0#1 ++ rm.code ++ t.code) unusedCode
  | .fsub t rm d a b => l64 0x041 b a d 0 (0#1 ++ rm.code ++ t.code) unusedCode
  | .fmul t rm d a b => l64 0x042 b a d 0 (0#1 ++ rm.code ++ t.code) unusedCode
  | .ffma t rm d a b c => l64 0x043 b a d 0 (0#1 ++ rm.code ++ t.code) c
  | .fmin t d a b => l64 0x044 b a d 0 (0#4 ++ t.code) unusedCode
  | .fmax t d a b => l64 0x045 b a d 0 (0#4 ++ t.code) unusedCode
  | .fminnum t d a b => l64 0x046 b a d 0 (0#4 ++ t.code) unusedCode
  | .fmaxnum t d a b => l64 0x047 b a d 0 (0#4 ++ t.code) unusedCode
  | .fmaxabs t d a b => l64 0x057 b a d 0 (0#4 ++ t.code) unusedCode
  | .fcopysign t d a b => l64 0x058 b a d 0 (0#4 ++ t.code) unusedCode
  | .fdiv t rm d a b => l64 0x04D b a d 0 (0#1 ++ rm.code ++ t.code) unusedCode
  | .fsqrt t rm d a => l64 0x04E unusedCode a d 0 (0#1 ++ rm.code ++ t.code) unusedCode
  | .fscale t rm d a b => l64 0x04B b a d 0 (0#1 ++ rm.code ++ t.code) unusedCode
  | .frnd t rm d a => l64 0x04C unusedCode a d 0 (0#1 ++ rm.code ++ t.code) unusedCode
  | .fcmp k t d a b => l64 0x048 b a d 0 (0#1 ++ k.code ++ t.code) unusedCode
  | .fclass t d a => l64 0x049 unusedCode a d 0 (0#4 ++ t.code) unusedCode
  | .fsel t d a b c => l64 0x04A b a d 0 (0#4 ++ t.code) c
  | .frcp d a => l64 0x04F unusedCode a d 0 (0#4 ++ Ty.f32.code) unusedCode
  | .frsq d a => l64 0x050 unusedCode a d 0 (0#4 ++ Ty.f32.code) unusedCode
  | .fexp2 d a => l64 0x051 unusedCode a d 0 (0#4 ++ Ty.f32.code) unusedCode
  | .flog2 d a => l64 0x052 unusedCode a d 0 (0#4 ++ Ty.f32.code) unusedCode
  | .fsin d a => l64 0x053 unusedCode a d 0 (0#4 ++ Ty.f32.code) unusedCode
  | .fcos d a => l64 0x054 unusedCode a d 0 (0#4 ++ Ty.f32.code) unusedCode
  | .fdot2 t rm d a b c => l64 0x055 b a d 0 (0#1 ++ rm.code ++ t.code) c
  | .cvt tgt src rm sat d a e => l64 0x056 unusedCode a d e (ofFlag 1 sat ++ rm.code ++ tgt.code) (0#2 ++ src.code)
  | .bcast d a b => l64 0x060 b a d 0 0 unusedCode
  | .bcastImm d a n => l64 0x061 unusedCode a d (0#10 ++ n) 0 unusedCode
  | .slideup d a b => l64 0x062 b a d 0 0 unusedCode
  | .slideupImm d a n => l64 0x063 unusedCode a d (0#10 ++ n) 0 unusedCode
  | .slidedn d a b => l64 0x064 b a d 0 0 unusedCode
  | .slidednImm d a n => l64 0x065 unusedCode a d (0#10 ++ n) 0 unusedCode
  | .qbcast d a p => l64 0x066 unusedCode a d (0#14 ++ p) 0 unusedCode
  | .gred op t a => l64 0x067 unusedCode a unusedCode 0 (0#1 ++ op.code ++ t.code) unusedCode
  | .gscan t a => l64 0x068 unusedCode a unusedCode 0 (0#4 ++ t.code) unusedCode
  | .ld sp z sext d a off => l64 0x070 unusedCode a d off (modM 0 sp sext z.code) unusedCode
  | .ldAcq scope sp z d a off => l64 0x070 unusedCode a d off (modM scope.code sp false z.code) unusedCode
  | .st sp z a b off => l64 0x071 b a unusedCode off (modM 0 sp false z.code) unusedCode
  | .stRel scope sp z a b off => l64 0x071 b a unusedCode off (modM scope.code sp false z.code) unusedCode
  | .atom op t sp ord d a b c => l64 0x072 b a d ord.imm (sp.code ++ t.code ++ op.code) (if op = .cas then c else unusedCode)
  | .atomRadd sp ord d a b c => l64 0x072 b a d ord.imm (sp.code ++ AtomTy.f32.code ++ 9#4) c
  | .fence k scope => l64 0x073 unusedCode unusedCode unusedCode 0 (scope.code ++ 0#4 ++ k.code) unusedCode
  | .l1inv scope => l64 0x075 unusedCode unusedCode unusedCode 0 (scope.code ++ 0#6) unusedCode
  | .prefetch l2 sp a off => l64 0x074 unusedCode a unusedCode off (modM 0 sp false (0#2 ++ ofFlag 1 l2)) unusedCode
  | .mspill sp a off => l64 0x076 unusedCode a unusedCode off (modM 0 sp false 3) unusedCode
  | .mfill sp a off => l64 0x077 unusedCode a unusedCode off (modM 0 sp false 3) unusedCode
  | .cbr off => l64 0x080 unusedCode unusedCode unusedCode off 0 unusedCode
  | .cjmp off => l64 0x081 unusedCode unusedCode unusedCode off 0 unusedCode
  | .ccall off => l64 0x082 unusedCode unusedCode unusedCode off 0 unusedCode
  | .cloop off => l64 0x083 unusedCode unusedCode unusedCode off 0 unusedCode
  | .trap code => l64 0x084 unusedCode unusedCode unusedCode code 0 unusedCode
  | .rsend a ch => l64 0x088 unusedCode a unusedCode (0#12 ++ ch) 0 unusedCode
  | .rrecv d ch => l64 0x089 unusedCode unusedCode d (0#12 ++ ch) 0 unusedCode
  | .mma scl asrc a pitch => l64 0x0A0 unusedCode a unusedCode pitch (modX false scl asrc 0) unusedCode
  | .mmaSp scl asrc a pitch => l64 0x0A1 unusedCode a unusedCode pitch (modX false scl asrc 0) unusedCode
  | .msc a => l64 0x0A2 unusedCode a unusedCode 0 0 unusedCode
  | .mlut tb => l64 0x0A3 unusedCode unusedCode unusedCode 0 (modX false false false tb) unusedCode
  | .tbldSub pm asrc tb d a => l64 0x0A4 unusedCode a d 0 (modX pm false asrc tb) unusedCode
  | .tbldProd asrc tb cb d a => l64 0x0A5 unusedCode a d (0#11 ++ cb) (modX false false asrc tb) unusedCode
  | .cbld tb d a scale lenm1 => l64 0x0A6 unusedCode a d (0#4 ++ lenm1 ++ scale) (modX false false false tb) unusedCode
  | .tbspill tb a => l64 0x0A7 unusedCode a unusedCode 0 (modX false false false tb) unusedCode
  | .tbfill tb a => l64 0x0A8 unusedCode a unusedCode 0 (modX false false false tb) unusedCode
  | .tbinv tb => l64 0x0A9 unusedCode unusedCode unusedCode 0 (modX false false false tb) unusedCode
  | .tbstat tb d => l64 0x0AA unusedCode unusedCode d 0 (modX false false false tb) unusedCode
  | .tsld d a nm1 pitch => l64 0x0AB unusedCode a d (pitch ++ nm1) 0 unusedCode
  | .tsst a b nm1 pitch => l64 0x0AC b a unusedCode (pitch ++ nm1) 0 unusedCode
  | .tszero => l64 0x0AD unusedCode unusedCode unusedCode 0 0 unusedCode
  | .tscvt d tgt => l64 0x0AE unusedCode unusedCode d (0#11 ++ tgt) 0 unusedCode
  | .mwait n => l64 0x0AF unusedCode unusedCode unusedCode (0#8 ++ n) 0 unusedCode
  | .zLdq t q rs1 rs2 => xr (0#1 ++ t.code ++ q) rs2 rs1 0 0 0x0B
  | .zLdqNf t q rs1 rs2 => xr (1#1 ++ t.code ++ q) rs2 rs1 0 0 0x0B
  | .zLdqt q rs1 rs2 => xr (0#5 ++ q) rs2 rs1 1 0 0x0B
  | .zLdqtNf q rs1 rs2 => xr (1#5 ++ q) rs2 rs1 1 0 0x0B
  | .zStq t rs1 rs2 => xr (0#5 ++ t.code) rs2 rs1 2 0 0x0B
  | .zStqt rs1 rs2 => xr 0 rs2 rs1 3 0 0x0B
  | .zScq rs1 => xr 0 0 rs1 4 0 0x0B
  | .zCtok rs1 => xr 1 0 rs1 4 0 0x0B
  | .zFbpop rd => xr 2 0 0 4 rd 0x0B
  | .zJoin => xr 3 0 0 4 0 0x0B
  | .zQdrop q n => xi (0#5 ++ n ++ 0#1 ++ q) 0 5 0 0x0B
  | .zBfb rs1 off => xb off 0 rs1 6 0x0B
  | .zCpyin ch rd rs1 rs2 => xr (0#4 ++ ch) rs2 rs1 0 rd 0x2B
  | .zCpyout ch rd rs1 rs2 => xr (1#4 ++ ch) rs2 rs1 0 rd 0x2B
  | .zCpyx ch rd rs1 rs2 => xr (2#4 ++ ch) rs2 rs1 0 rd 0x2B
  | .zCpywb ch rd rs1 rs2 => xr (3#4 ++ ch) rs2 rs1 0 rd 0x2B
  | .zCpywait ch rd rs1 => xi (0#9 ++ ch) rs1 1 rd 0x2B
  | .zMbadd rs1 rs2 => xr 0 rs2 rs1 2 0 0x2B
  | .zMbwait rd rs1 rs2 => xr 1 rs2 rs1 2 rd 0x2B
  | .zMbrd rd rs1 => xr 2 0 rs1 2 rd 0x2B
  | .zMbset rs1 rs2 => xr 3 rs2 rs1 2 0 0x2B
  | .zSend rd rs1 rs2 => xr 0 rs2 rs1 3 rd 0x2B
  | .zRecv rd rs1 => xr 1 0 rs1 3 rd 0x2B
  | .zRdone rs1 => xr 2 0 rs1 3 0 0x2B
  | .zBbar => xr 0 0 0 4 0 0x2B
  | .zBbarArv => xr 1 0 0 4 0 0x2B
  | .zBbarWt => xr 2 0 0 4 0 0x2B
  | .zCbarArv => xr 3 0 0 4 0 0x2B
  | .zCbarWt => xr 4 0 0 4 0 0x2B
  | .zLaunch rd rs1 => xr 0 0 rs1 5 rd 0x2B
  | .zJwait rd rs1 => xr 1 0 rs1 5 rd 0x2B
  | .zExit rs1 => xr 2 0 rs1 5 0 0x2B
  | .zTadr rd rs1 rs2 => xr 0 rs2 rs1 0 rd 0x5B
  | .zTadv rd rs1 rs2 => xr 1 rs2 rs1 0 rd 0x5B
  | .zFence k scope => xi (0#7 ++ k.code ++ scope.code) 0 1 0 0x5B
  | .zL1wb rs1 rs2 => xr 0 rs2 rs1 2 0 0x5B
  | .zRank rd rs1 rs2 => xr 1 rs2 rs1 2 rd 0x5B
  | .zTide rd => xr 0 0 0 3 rd 0x5B
  | .zTidewait rd rs1 => xr 1 0 rs1 3 rd 0x5B
  | .zQuiesce rd => xr 0 0 0 0 rd 0x7B
  | .zCsave rs1 rs2 => xr 1 rs2 rs1 0 0 0x7B
  | .zCrest rs1 rs2 => xr 2 rs2 rs1 0 0 0x7B
  | .zPjrd rd rs1 => xr 3 0 rs1 0 rd 0x7B
  | .zSample rd rs1 => xr 4 0 rs1 0 rd 0x7B
  | .hartLoad k rd rs1 imm => xi imm rs1 k.f3 rd 0x03
  | .hartStore k rs1 rs2 imm => xs imm rs2 rs1 k.f3 0x23
  | .hartAmo op dbl aq rl rd rs1 rs2 => xr (op.f5 ++ ofFlag 1 aq ++ ofFlag 1 rl) rs2 rs1 (if dbl then 3 else 2) rd 0x2F
  | .hartLr dbl aq rl rd rs1 => xr (2#5 ++ ofFlag 1 aq ++ ofFlag 1 rl) 0 rs1 (if dbl then 3 else 2) rd 0x2F
  | .hartSc dbl aq rl rd rs1 rs2 => xr (3#5 ++ ofFlag 1 aq ++ ofFlag 1 rl) rs2 rs1 (if dbl then 3 else 2) rd 0x2F
  | .hartFence fm pred succ rd rs1 => xi (fm ++ pred ++ succ) rs1 0 rd 0x0F
  | .fenceI rd rs1 imm => xi imm rs1 1 rd 0x0F
  | .ecall => [0x00000073#32]
  | .ebreak => [0x00100073#32]
  | .mret => [0x30200073#32]
  | .wfi => [0x10500073#32]
  | .csrAccess csr op rd src => csrWord csr op rd src
  | .hartInstruction op => op.encode
  | .slipWrite op rd src => csrWord 0x800 op rd src
  | .mstatWrite op rd src => csrWord 0x801 op rd src
  | .mlpcWrite op rd src => csrWord 0x7C0 op rd src
  | .cedoneRead ch op rd src => csrWord (0x199#9 ++ ch) op rd src
  | .unassignedLaneOpcode w => [w]
  | _ => []

/-! ## The table's word -/

/-- Word `k` of an instruction numbered as the opcode table numbers it: bit 0 is the lowest bit of the first word. -/
def tableWord (w k : Nat) : W32 := BitVec.ofNat 32 (w >>> (32 * k))

/-- Whether a table word of `nbits` bits is a hart word: low bits 0b11 in 32 bits; the same low bits open an L96 lane
instruction, which the table gives 96 bits. -/
def tableIsHart (nbits w : Nat) : Bool := w % 4 == 3 && nbits ≤ 32

/-- The instruction that the decoder reads from a table word. -/
def decodeTableWord (nbits w : Nat) : Option Instr :=
  let r := if tableIsHart nbits w then decodeHart (tableWord w 0)
    else decodeLane (tableWord w 0) (tableWord w 1) (tableWord w 2)
  match r with
  | .ok i => some i
  | .error _ => none

end Sys2Proof
end

