-- ==== Sys2Proof/Config.lean ====
section
/-! DEFINITION. What the manual leaves open: free values with no body, so that nothing can be proved of the value they
take. Each is named in the assumption log. -/
namespace Sys2Proof.Config

/-- Whose move is next, as a number that the step reads modulo its choices (log 1). -/
opaque freeTurn : Nat → Nat
/-- The operands of a proposed device step: kind and index give one number (log 1). -/
opaque freeInput : Nat → Nat → Nat
/-- A 64-bit operand of a proposed device step (log 1). -/
opaque freeWord : Nat → Nat → W64
/-- The bytes of a message from outside (log 1). -/
opaque freeBytes : Nat → List Byte
/-- Ticks of the Tide and core cycles that pass at a step (log 4). -/
opaque freeTicks : Nat → Nat
opaque freeCycles : Nat → Nat
/-- A byte that a rule leaves open among several values (10 R173, R175; 28 R362): chosen afresh by move and place. -/
opaque freeByte : Nat → Nat → Byte
/-- The monitor entry that mtvec holds at group start, per core (12 Table 12-1). -/
opaque monitorEntry : Nat → W64
/-- The outcome of a cryptographic primitive of chapter 25: which primitive, and its input (log 9). -/
opaque crypto : Nat → List Byte → List Byte
/-- The host-memory range of a host port, first byte and limit, as Quayside sets it (23 Table 23-2; log 10). -/
opaque hostRange : Nat → Nat × Nat
/-- The private base of a launch, in units of 4 KiB, as Quayside sets it (20 R285). -/
opaque privateBase : Nat → Nat
/-- Which of several waiting or eligible parties acts (log 1). -/
opaque freeChoice : Nat → Nat → Nat

end Sys2Proof.Config
end

