-- ==== Sys2Proof/Machine/Num.lean ====
section
/-! DEFINITION. Number formats, exact values and their rounding (03 R54-R64). Every floating result is formed as an
exact magnitude `m * 2^e` (with a sticky bit below where it is not finite in binary) and rounded once. -/
namespace Sys2Proof.Machine

/-- What a format does with its top codes (Table 3-1). -/
inductive Special where
  | ieee | e4m3 | none
  deriving DecidableEq, Repr

/-- A floating format of Table 3-1: exponent bits, fraction bits, bias. -/
structure Fmt where
  exp : Nat
  frac : Nat
  bias : Nat
  special : Special
  deriving DecidableEq, Repr

def fp64 : Fmt := ⟨11, 52, 1023, .ieee⟩
def fp32 : Fmt := ⟨8, 23, 127, .ieee⟩
def tf19 : Fmt := ⟨8, 10, 127, .ieee⟩
def bf16 : Fmt := ⟨8, 7, 127, .ieee⟩
def fp16 : Fmt := ⟨5, 10, 15, .ieee⟩
def e4m3 : Fmt := ⟨4, 3, 7, .e4m3⟩
def e5m2 : Fmt := ⟨5, 2, 15, .ieee⟩
def e3m2 : Fmt := ⟨3, 2, 3, .none⟩
def e2m3 : Fmt := ⟨2, 3, 1, .none⟩
def e2m1 : Fmt := ⟨2, 1, 1, .none⟩

def Fmt.width (f : Fmt) : Nat := 1 + f.exp + f.frac
/-- The sign bit's weight. -/
def Fmt.signBit (f : Fmt) : Nat := 2 ^ (f.exp + f.frac)
/-- The code of the largest finite value. -/
def Fmt.maxCode (f : Fmt) : Nat :=
  match f.special with
  | .ieee => (2 ^ f.exp - 1) * 2 ^ f.frac - 1
  | .e4m3 => 2 ^ (f.exp + f.frac) - 2
  | .none => 2 ^ (f.exp + f.frac) - 1
/-- The code of +Inf of an IEEE-like format. -/
def Fmt.infCode (f : Fmt) : Nat := (2 ^ f.exp - 1) * 2 ^ f.frac
/-- The canonical NaN; a format without NaN gives its largest finite value (R55, R63). -/
def Fmt.nanCode (f : Fmt) : Nat :=
  match f.special with
  | .ieee => f.infCode + 2 ^ (f.frac - 1)
  | .e4m3 => 2 ^ (f.exp + f.frac) - 1
  | .none => f.maxCode
/-- R60: flushing applies to FP64, FP32, TF19, BF16 and FP16 only. -/
def Fmt.flushes (f : Fmt) : Bool := f == fp64 || f == fp32 || f == tf19 || f == bf16 || f == fp16
/-- R63: these targets always saturate. -/
def Fmt.saturates (f : Fmt) : Bool := f.special != .ieee
/-- The exponent of the least normal value. -/
def Fmt.emin (f : Fmt) : Int := 1 - (f.bias : Int)
/-- The weight of the last place of a subnormal. -/
def Fmt.qmin (f : Fmt) : Int := f.emin - (f.frac : Int)

/-- An exact value: `fin neg m e` is (-1)^neg * m * 2^e, with a signed zero when `m = 0`. -/
inductive FVal where
  | nan
  | inf (neg : Bool)
  | fin (neg : Bool) (m : Nat) (e : Int)
  deriving DecidableEq, Repr

/-- The value of a code (R54). With `fz`, a subnormal of a flushing format reads as zero of its sign (R60). -/
def Fmt.decode (f : Fmt) (fz : Bool) (bits : Nat) : FVal :=
  let neg := bits / f.signBit % 2 == 1
  let mag := bits % f.signBit
  let e := mag / 2 ^ f.frac
  let m := mag % 2 ^ f.frac
  if f.special == .ieee && e == 2 ^ f.exp - 1 then (if m == 0 then .inf neg else .nan)
  else if f.special == .e4m3 && mag == f.signBit - 1 then .nan
  else if e == 0 then (if fz && f.flushes then .fin neg 0 0 else .fin neg m f.qmin)
  else .fin neg (2 ^ f.frac + m) (f.qmin + (e : Int) - 1)

/-- A rounding direction after fmode has been consulted (R59, R61): `sr z` carries the 32-bit random value. -/
inductive Round where
  | rne | rtz | rdn | rup | rmm | sr (z : Nat)
  deriving DecidableEq, Repr

/-- The multiple of 2^q that `m * 2^e` rounds to (R59, R61), as that multiple. -/
def roundTo (r : Round) (neg : Bool) (m : Nat) (e q : Int) : Nat :=
  if q ≤ e then m * 2 ^ (e - q).toNat
  else
    let s := (q - e).toNat
    let lo := m / 2 ^ s
    let rem := m % 2 ^ s
    let up : Bool := match r with
      | .rne => 2 ^ s < 2 * rem || (2 * rem == 2 ^ s && lo % 2 == 1)
      | .rtz => false
      | .rdn => neg && rem != 0
      | .rup => !neg && rem != 0
      | .rmm => 2 ^ s ≤ 2 * rem
      | .sr z => 2 ^ 32 ≤ rem * 2 ^ 32 / 2 ^ s + z
    if up then lo + 1 else lo

/-- Whether overflow in this direction gives an infinity (R59); a stochastic result never does (R61). -/
def Round.toInf (r : Round) (neg : Bool) : Bool :=
  match r with
  | .rne | .rmm => true
  | .rtz | .sr _ => false
  | .rdn => neg
  | .rup => !neg

/-- How a rounding ends: flush tiny results, and saturate an overflow (the `.sat` of an E5M2 target, R62). -/
structure RoundOpts where
  r : Round
  fz : Bool := false
  sat : Bool := false
  deriving DecidableEq, Repr

/-- Sets the sign of a magnitude code. -/
def Fmt.sign (f : Fmt) (neg : Bool) (mag : Nat) : Nat := if neg then mag + f.signBit else mag

/-- One rounding of the exact value (-1)^neg * m * 2^e to a code (R59, R60, R63). -/
def Fmt.roundMag (f : Fmt) (o : RoundOpts) (neg : Bool) (m : Nat) (e : Int) : Nat :=
  if m == 0 then f.sign neg 0
  else
    let top : Int := (m.log2 : Int) + e
    let free := top - (f.frac : Int)
    let tiny := top < f.emin && !(top == f.emin - 1 && roundTo o.r neg m e free == 2 ^ (f.frac + 1))
    if o.fz && f.flushes && tiny then f.sign neg 0
    else
      let q := if free < f.qmin then f.qmin else free
      let mag := (q - f.qmin).toNat * 2 ^ f.frac + roundTo o.r neg m e q
      if mag ≤ f.maxCode then f.sign neg mag
      else if f.saturates || o.sat || !o.r.toInf neg then f.sign neg f.maxCode
      else f.sign neg f.infCode

/-- A value written in a format: NaN canonical, infinities saturating where R62 and R63 say so. -/
def Fmt.encode (f : Fmt) (o : RoundOpts) : FVal → Nat
  | .nan => f.nanCode
  | .inf neg => if f.saturates || o.sat then f.sign neg f.maxCode else f.sign neg f.infCode
  | .fin neg m e => f.roundMag o neg m e

/-- An exact finite value as an integer at the scale 2^q, for `q` at or below its exponent. -/
def scaled (neg : Bool) (m : Nat) (e q : Int) : Int :=
  let v : Int := ((m * 2 ^ (e - q).toNat : Nat) : Int)
  if neg then -v else v

/-- The sign of an exact sum of zero (R55): that of the terms where they agree, else minus under RDN only. -/
def zeroSign (r : Round) (a b : Bool) : Bool := if a == b then a else r == .rdn

def FVal.neg : FVal → FVal
  | .nan => .nan
  | .inf s => .inf (!s)
  | .fin s m e => .fin (!s) m e

def FVal.abs : FVal → FVal
  | .nan => .nan
  | .inf _ => .inf false
  | .fin _ m e => .fin false m e

/-- The exact sum; `r` decides the sign of a zero sum of terms of both signs. -/
def FVal.add (r : Round) : FVal → FVal → FVal
  | .nan, _ => .nan
  | _, .nan => .nan
  | .inf a, .inf b => if a == b then .inf a else .nan
  | .inf a, _ => .inf a
  | _, .inf b => .inf b
  | .fin a m e, .fin b n g =>
    let q := if e ≤ g then e else g
    let v := scaled a m e q + scaled b n g q
    if v == 0 then .fin (if m == 0 && n == 0 then zeroSign r a b else r == .rdn) 0 0
    else .fin (decide (v < 0)) v.natAbs q

/-- The exact product. -/
def FVal.mul : FVal → FVal → FVal
  | .nan, _ => .nan
  | _, .nan => .nan
  | .inf a, .inf b => .inf (a != b)
  | .inf a, .fin b n _ => if n == 0 then .nan else .inf (a != b)
  | .fin a m _, .inf b => if m == 0 then .nan else .inf (a != b)
  | .fin a m e, .fin b n g => .fin (a != b) (m * n) (e + g)

/-- The quotient to more bits than any format keeps, with a sticky last bit (R127 `fdiv`). -/
def FVal.div : FVal → FVal → FVal
  | .nan, _ => .nan
  | _, .nan => .nan
  | .inf _, .inf _ => .nan
  | .inf a, .fin b _ _ => .inf (a != b)
  | .fin a _ _, .inf b => .fin (a != b) 0 0
  | .fin a m e, .fin b n g =>
    if n == 0 then (if m == 0 then .nan else .inf (a != b))
    else if m == 0 then .fin (a != b) 0 0
    else
      let k := 128 + n.log2
      let num := m * 2 ^ k
      .fin (a != b) (2 * (num / n) + (if num % n == 0 then 0 else 1)) (e - g - (k : Int) - 1)

/-- floor of the square root, one bit at a time from `bits` down. -/
def isqrt : Nat → Nat → Nat → Nat
  | 0, _, acc => acc
  | bits + 1, n, acc =>
    let t := acc + 2 ^ bits
    if t * t ≤ n then isqrt bits n t else isqrt bits n acc

/-- The square root to more bits than any format keeps, with a sticky last bit (R127 `fsqrt`). -/
def FVal.sqrt : FVal → FVal
  | .nan => .nan
  | .inf neg => if neg then .nan else .inf false
  | .fin neg m e =>
    if m == 0 then .fin neg 0 0
    else if neg then .nan
    else
      let odd := e % 2 == 1
      let n := (if odd then 2 * m else m) * 2 ^ 160
      let g := if odd then e - 1 else e
      let k := isqrt (n.log2 / 2 + 1) n 0
      .fin false (2 * k + (if k * k == n then 0 else 1)) (g / 2 - 81)

/-- The numerical order used by comparisons: -0 equals +0 (R132). NaN is not passed. -/
def FVal.lt : FVal → FVal → Bool
  | .inf a, .inf b => a && !b
  | .inf a, _ => a
  | _, .inf b => !b
  | .fin a m e, .fin b n g =>
    let q := if e ≤ g then e else g
    decide (scaled a m e q < scaled b n g q)
  | _, _ => false

def FVal.isNan : FVal → Bool
  | .nan => true
  | _ => false

def FVal.isNeg : FVal → Bool
  | .nan => false
  | .inf s => s
  | .fin s _ _ => s

def FVal.isInf : FVal → Bool
  | .inf _ => true
  | _ => false

/-- Inf or NaN. -/
def FVal.isWild : FVal → Bool
  | .fin _ _ _ => false
  | _ => true

def FVal.isZero : FVal → Bool
  | .fin _ m _ => m == 0
  | _ => false

/-- The order of Table 7-2: as `lt`, with -0 below +0. -/
def FVal.below (x y : FVal) : Bool := x.lt y || (!y.lt x && x.isNeg && !y.isNeg)

/-- An integer as an exact value; a zero is +0. -/
def FVal.ofInt (v : Int) : FVal := .fin (decide (v < 0)) v.natAbs 0

/-- The value rounded to an integral value (R131, R64). -/
def roundIntegral (r : Round) (neg : Bool) (m : Nat) (e : Int) : Nat := roundTo r neg m e 0

/-- The stochastic hash (R61). -/
def mix (v : W32) : W32 :=
  let a := (v ^^^ (v >>> 16)) * 0x7FEB352D#32
  let b := (a ^^^ (a >>> 15)) * 0x846CA68B#32
  b ^^^ (b >>> 16)

/-- The random value of R61. -/
def srRandom (seed lid e : W32) : W32 := mix (mix (seed ^^^ lid) ^^^ e)

/-- E8M0 (R57): the scale 2^(e-127), or NaN. -/
def decodeE8M0 (b : Nat) : FVal := if b == 255 then .nan else .fin false 1 ((b : Int) - 127)

/-- NE4M3 (R57). -/
def decodeNE4M3 (b : Nat) : FVal := if 127 ≤ b then .nan else e4m3.decode false b

end Sys2Proof.Machine

namespace Sys2Proof

open Machine

/-- The floating format of a lane type, where it has one. -/
def Ty.fmt? : Ty → Option Fmt
  | .f64 => some Machine.fp64
  | .f32 => some Machine.fp32
  | .tf19 => some Machine.tf19
  | .bf16 | .bf16x2 => some Machine.bf16
  | .f16 | .f16x2 => some Machine.fp16
  | .e4m3 => some Machine.e4m3
  | .e5m2 => some Machine.e5m2
  | .e3m2 => some Machine.e3m2
  | .e2m3 => some Machine.e2m3
  | .e2m1 => some Machine.e2m1
  | _ => none

/-- The format of a floating lane type; the encodings admit no other type where this is asked. -/
def Ty.fmt (t : Ty) : Fmt := (Ty.fmt? t).getD fp32

/-- The width in bits of an integer type (R112). -/
def Ty.intWidth : Ty → Nat
  | .i8 | .n8 => 8
  | .i16 | .n16 => 16
  | .i64 | .n64 => 64
  | _ => 32

def Ty.signed : Ty → Bool
  | .i8 | .i16 | .i32 | .i64 => true
  | _ => false

/-- R112: the low bits of a register read as a value of the type. -/
def Ty.readInt (t : Ty) (v : Nat) : Int :=
  let w := t.intWidth
  let u := v % 2 ^ w
  if t.signed && 2 ^ (w - 1) ≤ u then (u : Int) - 2 ^ w else u

/-- Clamp to the range of a type (R112). -/
def Ty.clamp (t : Ty) (v : Int) : Int :=
  let w := t.intWidth
  let lo : Int := if t.signed then -(2 ^ (w - 1)) else 0
  let hi : Int := if t.signed then 2 ^ (w - 1) - 1 else 2 ^ w - 1
  if v < lo then lo else if hi < v then hi else v

/-- R112: an exact integer result, wrapped or clamped, as the bits of the type (zero above). -/
def Ty.writeInt (t : Ty) (sat : Bool) (v : Int) : Nat :=
  ((if sat then t.clamp v else v) % (2 ^ t.intWidth : Int)).toNat

end Sys2Proof
end

