-- ==== Sys2Proof/Machine/State.lean ====
section
/-! DEFINITION. The state of the machine as plain data, its reasons to stop, and the state after reset. -/
namespace Sys2Proof.Machine

/-- Reasons for which the machine itself would stop. No meaning raises one: every trap and compute fault the spec
describes is a next state, and every wait is a next state in which the waiting party has not moved. -/
inductive Fault where
  /-- Raised by nothing; kept so that the type has a name for a state outside the model. Safe. -/
  | stuck
  deriving DecidableEq, Repr

/-- Reasons for which an instruction has no meaning here. -/
inductive Refusal where
  /-- Raised by an arm of `exec` whose instruction has no meaning yet. Safe. -/
  | notModelled (mnemonic : String)
  deriving DecidableEq, Repr

/-- Keyed data with a default: a list of keys and values, a key at most once. -/
abbrev Map (α : Type) := List (Nat × α)

/-- The value at a key, or the default `d`. -/
def Map.get {α : Type} (d : α) : Map α → Nat → α
  | [], _ => d
  | (j, v) :: rest, k => if j == k then v else Map.get d rest k

/-- The value at a key, where the key is present. -/
def Map.find {α : Type} : Map α → Nat → Option α
  | [], _ => none
  | (j, v) :: rest, k => if j == k then some v else Map.find rest k

/-- Replaces the value at a key, or adds the key at the end. -/
def Map.set {α : Type} : Map α → Nat → α → Map α
  | [], k, v => [(k, v)]
  | (j, w) :: rest, k, v => if j == k then (k, v) :: rest else (j, w) :: Map.set rest k v

/-- Removes a key. -/
def Map.erase {α : Type} : Map α → Nat → Map α
  | [], _ => []
  | (j, w) :: rest, k => if j == k then Map.erase rest k else (j, w) :: Map.erase rest k

/-- Privilege modes of a compute hart (12 R215). -/
inductive Mode where
  | u | m
  deriving DecidableEq, Repr

/-- A group slot: nothing placed, a live group, or an ended group whose block still runs (01 R14, R15). -/
inductive SlotStatus where
  | idle | live | ended
  deriving DecidableEq, Repr

/-- Who makes a register access (26 R350). -/
inductive Agent where
  | sysCore (k : Nat) | jetty (j : Nat) | harbourmaster | hostPort (p : Nat) | hartM (g : Nat)
  deriving DecidableEq, Repr

/-- Where an error strikes (28 Table 28-1). -/
inductive EccSite where
  | memUnit (key : Nat) | laneL1 (core idx : Nat) | hartCache (idx : Nat) | code (core : Nat) (hart : Bool)
  | groupState (grp : Nat) (struct_ : Nat) | keyStore (slot : Nat) | handleTable (blk : Nat)
  deriving DecidableEq, Repr

/-- Link modes of Table 23-1, and the failure to train. -/
inductive LinkMode where
  | down | cxl31 | cxl20 | pcie6 | pcie5
  deriving DecidableEq, Repr

/-- MESI states of a host line (23 R318). -/
inductive Mesi where
  | m | e | s | i
  deriving DecidableEq, Repr

/-- How a poisoned queue load is made again (05 R94). -/
inductive LoadDesc where
  | plain (base stride : W64) (t : LdqTy)
  | tensor (record c01 c234 : W64)
  deriving DecidableEq, Repr

/-- An element of a queue load that a distant home still has to answer: its lane, its place in the lane value, its
address, its bytes, and whether it is sign-extended. -/
structure Want where
  lane : Nat
  shift : Nat
  addr : W64
  n : Nat
  sext : Bool
  deriving DecidableEq, Repr

/-- An entry of ldq0-ldq3 (02 R41, 05 R94). `arrived` is false while the load's data are in flight. -/
structure LdqEntry where
  wide : Bool
  arrived : Bool
  poison : Bool
  replay : Bool
  cause : Nat
  addr : W64
  lanes : LaneMask
  desc : LoadDesc
  data : List W64
  wants : List Want := []
  /-- The move at which the load was issued: distant elements are read in that order (13 R234). -/
  issued : Nat := 0
  /-- Lane and place in the lane of the element that `addr` names, as 64 times the lane plus the place. -/
  faultAt : Nat := 0
  deriving DecidableEq, Repr

/-- An entry of stq with the mask of its producer (06 R111). -/
structure StqEntry where
  data : List W32
  mask : LaneMask
  deriving DecidableEq, Repr

/-- A control-stack frame (02 R47). -/
inductive Frame where
  | call (ret : W64)
  | loop (head : W64) (count : W32)
  deriving DecidableEq, Repr

/-- A journal slot (10 Table 10-8). `held` is its being counted in pjhead.count (02 R40). -/
structure JEntry where
  held : Bool := false
  addr : W64 := 0
  seq : W32 := 0
  size : Nat := 0
  lane : Bool := false
  kind : Nat := 0
  state : Nat := 0
  why : Nat := 0
  cnt : Nat := 0
  deriving DecidableEq, Repr

/-- A copy token that a register waits for (02 R52). -/
structure Token where
  chan : Nat
  id : W32
  /-- The copy has completed and the register has not been read since (10 R174). -/
  ready : Bool := false
  deriving DecidableEq, Repr

/-- What a hart waits on (01 R23, 05 R110). -/
inductive HartWait where
  | fbqEmpty | stqEmpty | scqFull | ctqFull | queueLoad (q : Nat) | join | exit | journal | token | copies (ch : Nat)
  | copySlots (ch : Nat)
  /-- A counter, as 256 times its home's destination number plus its index, and the value waited for (10 R176). -/
  | mailbox (key : Nat) (target : W32)
  /-- The counter reached it, with this value. -/
  | woken (v : W32)
  | ring | jwait | tide | blockBarrier | clusterBarrier | wfi | dropArrival | drain
  | quiesce | saves | fence | hostLine (line : Nat) (own : Bool)
  deriving DecidableEq, Repr

/-- What a compute stream waits on (01 R23, 05 R110). -/
inductive LaneWait where
  | ldqEmpty (q : Nat) | replay (q : Nat) | scqEmpty | ctqEmpty | stqFull | fbqFull | join | cend | journal
  | blockBarrier | clusterBarrier | mwait | drain | arrayFull | rsend | rrecv | batch
  | hostLine (line : Nat) (own : Bool)
  deriving DecidableEq, Repr

/-- A hart access or request that waits for the answer of a distant home (09 R165, 10 R176, R178, 09 R160). -/
inductive HartReq where
  | load (k : LoadKind) (rd : XReg) (addr : W64)
  | amo (op : AmoOp) (dbl rl aq : Bool) (rd : XReg) (addr val : W64)
  | lr (dbl aq : Bool) (rd : XReg) (addr : W64)
  | sc (dbl aq : Bool) (rd : XReg) (addr val : W64)
  | send (rd : XReg) (handle : Nat) (bytes : List Byte)
  | mbread (rd : XReg) (addr : W64)
  | mbset (addr : W64) (val : W32)
  | rank (rd : XReg) (addr : W64) (base count : W32)
  deriving DecidableEq, Repr

/-- A pending asynchronous cause with its mtval (12 R216). -/
structure Pending where
  cause : Nat
  val : W64
  deriving DecidableEq, Repr

/-- What a sampled instruction's record holds before it is written (28 Table 28-4). -/
structure SampleRec where
  pc : W64
  t0 : W64
  since : Nat
  act : LaneMask
  requests : Nat
  conflicts : Nat
  hits : Nat
  op : Nat
  addr : W64
  posted : Bool
  fault : Bool
  deriving DecidableEq, Repr

/-- The sampler (12 R222, 28 R366): armed, its scratch offset, replays so far, the sampled access while it completes. -/
structure Sample where
  armed : Bool := false
  off : Nat := 0
  replays : Nat := 0
  pending : Option SampleRec := none
  deriving DecidableEq, Repr

/-- One request of a posted write that still has to take its journal entry (02 R40; 10 R187). -/
structure Posting where
  dst : Nat
  entry : JEntry
  handle : Nat
  writes : List (Nat × Byte)
  deriving DecidableEq, Repr

/-- The prefix state pbst (04 R81). -/
structure Prefix where
  mask : LaneMask := 0
  left : Nat := 0
  n : Nat := 0
  pat : Byte := 0
  deriving DecidableEq, Repr

/-- MONDB (21 Table 21-1) but for awa and awc, which are the holds. -/
structure Mondb where
  pre : Bool := false
  res : Bool := false
  kil : Bool := false
  fla : Bool := false
  flc : Bool := false
  sdn : Bool := false
  ecq : Nat := 0
  p1 : Bool := false
  deriving DecidableEq, Repr

/-- A lane source of a matrix operation or another engine value: 64 lanes. -/
abbrev LaneVec := List W64

/-- One group slot: its hart, its compute stream and its queues (02 R34-R48, R52; 12 R215-R217; 21 R300). -/
structure Group where
  status : SlotStatus := .idle
  blk : Nat := 0
  idx : Nat := 0
  -- the hart
  x : Map W64 := []
  pc : W64 := 0
  hword : W32 := 0
  mode : Mode := .u
  mstatus : W64 := 0
  mie : W64 := 0
  mtvec : W64 := 0
  mcounteren : W64 := 7
  mscratch : W64 := 0
  mepc : W64 := 0
  mcause : W64 := 0
  mtval : W64 := 0
  mcycle : W64 := 0
  minstret : W64 := 0
  slip : Nat := 32
  mstat : BitVec 4 := 0
  ldec : W64 := 0
  mlpc : W64 := 0
  mlcause : W64 := 0
  mlmask : W64 := 0
  mlval : W64 := 0
  journal : Map JEntry := []
  jseq : W32 := 0
  tokens : Map Token := []
  hartWait : Option HartWait := none
  hartReq : Option HartReq := none
  hartSend : Option (List Posting) := none
  asyncs : List Pending := []
  resv : Option (Nat × Nat) := none
  exitCode : W32 := 0
  wakeA : W32 := 0
  holdA : Bool := false
  -- the queues
  ldq : Map (List LdqEntry) := []
  stq : List StqEntry := []
  scq : List W64 := []
  ctq : List W32 := []
  fbq : List W64 := []
  runAhead : Nat := 0
  -- the compute stream
  nregs : Nat := 16
  win : Map (List W32) := []
  wbase : Nat := 0
  qmode : BitVec 4 := 0
  masks : Map LaneMask := []
  em : LaneMask := 0xFFFFFFFFFFFFFFFF
  mstack : Map LaneMask := []
  msp : Nat := 0
  fmode : W64 := 0
  mcfg : W64 := 0
  lpc : W64 := 0
  lword : W32 := 0
  frames : List Frame := []
  pb : Prefix := {}
  held : Bool := false
  cendDone : Bool := false
  laneWait : Option LaneWait := none
  laneBusy : Bool := false
  laneSend : Option (List Posting) := none
  wakeC : W32 := 0
  holdC : Option Bool := none
  batchOpen : Byte := 1
  batchOcc : Bool := false
  batchSeen : Byte := 0
  scaleQ : List (List W32) := []
  -- both streams
  hartArrived : Map Nat := []
  laneArrived : Map Nat := []
  hartBar : Bool := false
  laneBar : Bool := false
  sampler : Sample := {}
  mondb : Mondb := {}
  monsave : W64 := 0
  needCrest : Map W64 := []
  saved0 : Bool := false
  hartSince : Nat := 0
  hartTide : Nat := 0
  laneSince : Nat := 0
  progA : Half := 0
  progC : Half := 0
  stepped : Bool := false
  /-- The next instruction's issue has been shared with another group's (01 R28). -/
  rafted : Bool := false
  deriving DecidableEq, Repr

/-- A state of Table 1-3 that a placed block can be in. -/
inductive BlkState where
  | running | suspended | retiring
  deriving DecidableEq, Repr

/-- A table register (02 R50, 11 R202): state word fields, length, pattern, special bits, 64 rows of 16 entries. -/
structure Table where
  valid : Bool := false
  kind : Nat := 0
  tag : Nat := 0
  fmt : Nat := 0
  len : Nat := 0
  pm : Bool := false
  spec : BitVec 256 := 0
  entries : List W32 := []
  deriving DecidableEq, Repr

/-- What a tracking entry records (02 R51): a lane-register range of a slot, or a scratch range of a block. -/
structure Track where
  live : Bool := false
  scratch : Bool := false
  owner : Nat := 0
  lo : Nat := 0
  hi : Nat := 0
  gen : W32 := 0
  deriving DecidableEq, Repr

/-- A placed block, keyed by its core number times 16 plus its first slot (01 R17-R20; 16 R278; 21 R305). -/
structure Block where
  launch : Nat := 0
  lin : Nat := 0
  groups : Nat := 1
  slots : List Nat := []
  rank : Nat := 0
  nregs : Nat := 16
  scratch : Nat := 0
  tiles : Nat := 0
  wbuf : Nat := 0
  ntables : Nat := 0
  moored : Nat := 0
  state : BlkState := .running
  handles : Map W64 := []
  tables : Map Table := []
  counters : List Nat := []
  rings : List Nat := []
  saved1 : Bool := false
  needPart1 : Bool := false
  idleSince : Nat := 0
  deriving DecidableEq, Repr

/-- A phase barrier (10 R180): the number of completed phases and the streams that have arrived in this one. -/
structure Barrier where
  phase : Nat := 0
  arrived : List Nat := []
  deriving DecidableEq, Repr

/-- A receive ring (10 R177). -/
structure Ring where
  live : Bool := false
  owner : Nat := 0
  base : Nat := 0
  slots : Nat := 2
  head : W32 := 0
  tail : W32 := 0
  deriving DecidableEq, Repr

/-- A copy on a channel (10 R171-R173; 21 Table 21-5). -/
structure Copy where
  id : W32
  kind : Nat
  record : List Byte
  c01 : W64
  c234 : W64
  off : Nat
  grp : Nat
  blk : Nat
  token : Nat
  started : Bool := false
  ticket : Option W32 := none
  done : Nat := 0
  deriving DecidableEq, Repr

/-- A copy channel (10 R172; 20 R296): the next id, the copies not complete in id order, the wake counter. -/
structure Channel where
  next : W32 := 0
  copies : List Copy := []
  wake : W32 := 0
  deriving DecidableEq, Repr

/-- A sector of the lane L1 (09 R151; 13 R228) and the physical address it was filled from. -/
structure L1Sector where
  asid : Nat
  va : Nat
  glob : Bool
  bytes : List Byte
  pa : Nat := 0
  deriving DecidableEq, Repr

/-- What an accepted matrix operation holds until it completes (11 R189). A position of B that 2:4 compression removed
is `none`. For a lookup the terms' tables and weight codes; a build has written its table at acceptance (R203). -/
inductive MatWork where
  | dense (a : List (List Nat)) (b : List (List (Option Nat))) (scales : List (List W32)) (scaled : Bool)
  | lookup (tables : List Table) (codes : List (List Nat))
  | build
  deriving DecidableEq, Repr

/-- An accepted matrix operation (11 R189, R190, R199). -/
structure MatOp where
  grp : Nat
  blk : Nat
  batch : Byte
  lookupArray : Bool
  cfg : W64
  fmode : W64
  rows : LaneMask
  work : MatWork
  /-- Handshake cycles (14 R254). -/
  hand : Nat := 1
  /-- The elements of C that it has updated, by number (11 R192). -/
  written : List Nat := []
  flags : BitVec 4 := 0
  deriving DecidableEq, Repr

/-- A metered request of one sector at a core's network port (27 R354, R357): its source, a compute stream (its slot), a
hart (16 and its slot) or a channel (32 and its number), and its memory-channel group. -/
structure Metered where
  src : Nat
  die : Nat
  deriving DecidableEq, Repr

/-- One reduction channel at one core's router (10 R182, R183; 16 R280): contributions by round and port (port 8 is the
local one), each 64 optional FP32 values; the next local round; rounds folded, landed and consumed. -/
structure RedNode where
  inputs : List (Nat × Nat × List (Option W32)) := []
  sent : Nat := 0
  folded : Nat := 0
  landed : Nat := 0
  consumed : Nat := 0
  deriving DecidableEq, Repr

/-- A word held by an instruction cache (13 R242): of the hart's or the lanes', its ASID, its VA, its bits. -/
structure CodeLine where
  hart : Bool
  asid : Nat
  va : Nat
  word : W32
  deriving DecidableEq, Repr

/-- One core (02 R51-R53; 09 R151; 10; 11 R189; 27 R355; 28 R364, R365). -/
structure Core where
  counters : Map W32 := []
  rings : Map Ring := []
  chans : Map Channel := []
  l1 : List L1Sector := []
  code : List CodeLine := []
  fills : List (Nat × Nat × Nat × Bool) := []
  tracks : Map Track := []
  ops : List MatOp := []
  issue : Map W64 := []
  corrected : Map W32 := []
  uncorrected : Map Half := []
  latent : Map W32 := []
  blkErr : W32 := 0
  buckets : Map Nat := []
  bwSent : W64 := 0
  bwHeld : W64 := 0
  heldPort : List Metered := []
  heldSince : Nat := 0
  /-- The redirect cache of the network interface: ASID and 4 KiB page (20 R287). -/
  redirects : List (Nat × Nat) := []
  red : Map RedNode := []
  /-- The core-wide section of a part-1 image is still to be restored in this resume (21 R310). -/
  needWide : Bool := false
  deriving DecidableEq, Repr

/-- A reduction channel of a launch (16 Table 16-3): the tree by linear index holds member, root, parent and port. -/
structure RedChan where
  ch : Nat
  all : Bool
  width : Nat
  hc : Nat
  k : Nat
  off : Nat
  tree : List (Bool × Bool × Nat × Nat)
  deriving DecidableEq, Repr

/-- The fields of a kernel descriptor that placement and running use (15 Table 15-5). -/
structure Kernel where
  hart : W64 := 0
  lane : W64 := 0
  groups : Nat := 1
  regs : Nat := 16
  scratch : Nat := 0
  tiles : Nat := 0
  wbuf : Nat := 0
  tables : Nat := 0
  priv : Nat := 0
  moors : List W64 := []
  deriving DecidableEq, Repr

/-- An accepted launch (16 R272-R275): what its record, descriptor, grant table and reduction table gave. -/
structure Launch where
  part : Nat := 0
  asid : Nat := 0
  kernel : Kernel := {}
  args : W64 := 0
  join : Nat := 0
  gx : Nat := 1
  gy : Nat := 1
  gz : Nat := 1
  cx : Nat := 1
  cy : Nat := 1
  prio : Nat := 0
  queue : Nat := 0
  fmode : W64 := 0
  grants : List W64 := []
  coreMap : List Nat := []
  chans : List RedChan := []
  depth : Nat := 0
  pooled : Bool := false
  pbase : Nat := 0
  next : Nat := 0
  live : Nat := 0
  deriving DecidableEq, Repr

/-- A translation held by a memory-side unit (20 R285, R291): the leaf read for a page of an ASID, and the unit, as twice
its die plus its number. A line of an L2 slice holds the same of its 256 bytes, with the permissions copied at fill. -/
structure TlbEntry where
  asid : Nat
  va : Nat
  size : Nat
  pa : Nat
  rd : Bool
  wr : Bool
  ex : Bool
  die : Option Nat := none
  region : Nat := 0
  unit : Nat := 0
  /-- The line of the access that the translation served. -/
  line : Nat := 0
  deriving DecidableEq, Repr

/-- A dirty sector of a core's hart data cache (09 R166): the slot that last wrote it, the physical address of its home,
and the other slots, as 16 times the core plus the slot, whose stores it holds. -/
structure DirtySector where
  core : Nat
  slot : Nat
  asid : Nat
  va : Nat
  glob : Bool
  bytes : List Byte
  pa : Nat := 0
  also : List Nat := []
  deriving DecidableEq, Repr

/-- A rank window at its home (09 R160, R161): memory key, next rank, base, count, contributions held. -/
structure RankWindow where
  asid : Nat
  key : Nat
  home : Nat
  base : W32
  count : W32
  next : W32
  heldBy : List (W32 × W32 × Nat) := []
  /-- The VA of a location in global memory. -/
  va : Option Nat := none
  deriving DecidableEq, Repr

/-- A message on its way (09 R156; 10 R173, R176, R178, R182; 21 R308). -/
inductive MsgBody where
  | posted (slot : Nat) (writes : List (Nat × Byte)) (addr : W64) (handle : Nat)
  | increment (slot : Nat) (core idx : Nat) (amount : W32) (addr : W64)
  | copyIncrement (grp core idx : Nat) (addr : W64)
  | ack (slot : Nat)
  | refuse (slot : Nat) (why : Nat)
  | ring (handle : Nat) (bytes : List Byte) (rd : XReg)
  | ringAnswer (rd : XReg) (status : Nat)
  | rank (key : Nat) (rank val : W32)
  | redInput (core ch round port : Nat) (vals : List (Option W32))
  | redResult (core ch round : Nat) (vals : List W32)
  | absence (idx : Nat) (present : Bool)
  deriving DecidableEq, Repr

/-- A message with its source, the issuing group or copy channel, and its destination; messages of one pair keep their
order (13 R235). -/
structure Msg where
  src : Nat
  dst : Nat
  body : MsgBody
  deriving DecidableEq, Repr

/-- What a proposed device step acts on; chosen freely from outside at each move (log 1). -/
structure EventInput where
  who : Agent := .harbourmaster
  a : Nat := 0
  b : Nat := 0
  c : Nat := 0
  val : W64 := 0
  req : BitVec 256 := 0
  bytes : List Byte := []
  flag : Bool := false
  flag2 : Bool := false
  link : LinkMode := .down
  mesi : Mesi := .i
  site : EccSite := .memUnit 0
  data : Option (List Byte) := none
  deriving DecidableEq, Repr

/-- Whose move is next: a hart, a compute stream, or a step of another agent. -/
inductive Turn where
  | hart (g : Nat)
  | lanes (g : Nat)
  | event (i : Instr)
  deriving DecidableEq, Repr

/-- A pager queue of a partition (20 R294-R296; 26 Table 26-5): a ring of 64-byte records in memory, the records that
wait for room in it, and the notices held for suspended parties. -/
structure PagerQueue where
  base : Nat := 0
  log2 : Nat := 4
  head : W32 := 0
  tail : W32 := 0
  notice : W64 := 0
  stale : W64 := 0
  held : List W64 := []
  seq : W64 := 0
  waiting : List (List Byte) := []
  deriving DecidableEq, Repr

/-- A queue that Quayside serves (20 R294): the private-growth queue of a partition, or a context's error queue. -/
structure RecordQueue where
  seq : W64 := 0
  records : List (List Byte) := []
  deriving DecidableEq, Repr

/-- A host queue pair (23 R320; 26 Table 26-5): control, ring bases in memory, positions, and the phase bit. -/
structure HostQueue where
  ctl : W64 := 0
  broken : Bool := false
  sub : Nat := 0
  comp : Nat := 0
  subHead : Half := 0
  subTail : Half := 0
  compHead : Half := 0
  compTail : Half := 0
  deriving DecidableEq, Repr

/-- One partition (01 R21; 16 R274; 20 R294; 21 R304); whether requests are metered, as BWCTL stood at the last refill
(27 R360). -/
structure Part where
  queues : Map (List Nat) := []
  pointers : Map Nat := []
  pool : Nat := 0
  pqs : Map PagerQueue := []
  growth : RecordQueue := {}
  gangSt : Nat := 0
  hqs : Map HostQueue := []
  traceTail : W32 := 0
  traceDrop : W32 := 0
  period : Nat := 0
  metering : Bool := false
  demand : List (Nat × Nat) := []
  idle : Map Nat := []
  deriving DecidableEq, Repr

/-- The fuses of one bank (26 Table 26-4): the anti-rollback thermometer, the vendor key's revocation, the owner slots
programmed, and the digests of the vendor and owner keys. -/
structure Fuses where
  arb : W64 := 0
  vrev : Bool := false
  oprog : BitVec 2 := 0
  vendor : List Byte := []
  owner1 : List Byte := []
  owner2 : List Byte := []
  deriving DecidableEq, Repr

/-- The boot chain (26 R344-R349): BOOTST and BANKSEL, both fuse banks, whether PD1's Harbourmaster runs in PD0's place
and whether PD0's ROM reported a fuse read failure, and the security versions and digests of the five running images. -/
structure Boot where
  bootst : W64 := 0
  banksel : W64 := 0
  fuse0 : Fuses := {}
  fuse1 : Fuses := {}
  standby : Bool := false
  failed : Bool := false
  secvers : List Nat := []
  digests : List (List Byte) := []
  deriving DecidableEq, Repr

/-- A call slot of a system core (25 R329): HMCALL, HMRES, HMRES2, and whether its call is outstanding. -/
structure Call where
  record : List Byte := []
  res : W64 := 0
  res2 : W64 := 0
  busy : Bool := false
  deriving DecidableEq, Repr

/-- A world (25 R331-R334): its generation and, while it is active, its key slot. -/
structure World where
  gen : W32 := 0
  slot : Option Nat := none
  deriving DecidableEq, Repr

/-- The Harbourmaster's state (25): contexts with their worlds, worlds, key slots, the system and the blob-wrapping key,
calls in the order of their doorbells, the entropy state, worlds halted by a failed key store, and the health-test
failures raised on its hart (mcause 31); the packet flows, by their ids, whose receiver accepts nothing until a new key,
and the packets refused at each port and of each world (R337, R338). -/
structure Security where
  contexts : Map Nat := []
  worlds : Map World := []
  keys : Map (List Byte) := []
  sysKey : List Byte := []
  wrapKey : List Byte := []
  calls : Map Call := []
  order : List Nat := []
  drbg : List Byte := []
  locked : Bool := false
  halted : List Nat := []
  trap31 : Nat := 0
  flows : List Nat := []
  portErr : Map Nat := []
  worldErr : Map Nat := []
  deriving DecidableEq, Repr

/-- The lease (23 R321-R323; Tables 23-5, 23-6). -/
structure Lease where
  holder : Nat := 0
  st : Nat := 0
  epoch : Half := 0
  exp : W64 := 0
  res : Map Nat := []
  deriving DecidableEq, Repr

/-- A link of a port (23 R315), keyed by its port die times 8 plus its port, of which port 0 is the host port: its mode, its width, and the IDE protection in force. -/
structure Link where
  mode : LinkMode := .down
  x8 : Bool := false
  ideIo : Bool := false
  ideCxl : Bool := false
  deriving DecidableEq, Repr

/-- TDISP interface states (23 R326). -/
inductive Tdisp where
  | unlocked | locked | run | error
  deriving DecidableEq, Repr

/-- What an SPDM session of a port has reached (25 R343): the algorithms selected, and the last response. -/
structure Spdm where
  selected : Bool := false
  response : List Byte := []
  deriving DecidableEq, Repr

/-- The side of the module that faces the hosts (23): the lease, links, fenced ports, pending interrupts, lines of host
memory held here by line address, lines of HDM that hosts hold by line address, lines that copies have asked for (with
ownership or not), evictions of a core's lines without their GO_WritePull, TDISP with the guest's worlds and whether its last request was
accepted, attestation, and the data that hosts have read. -/
structure Attach where
  lease : Lease := {}
  links : Map Link := []
  fenced : List Nat := []
  irqs : List Nat := []
  sent : List Nat := []
  lines : Map Mesi := []
  filter : Map (Nat × Mesi) := []
  asked : List (Nat × Bool) := []
  evicts : List (Nat × Nat) := []
  /-- 4 KiB pages of HDM that Quayside has marked host-biased, in CXL 2.0 mode (23 R319). -/
  biased : List Nat := []
  /-- The device's domain id, which the fabric manager sets (23 R324). -/
  domain : Nat := 0
  dropped : Nat := 0
  discarded : Nat := 0
  port : Nat := 0
  tdisp : Tdisp := .unlocked
  spdm : Map Spdm := []
  tdispOk : Bool := true
  guest : List Nat := []
  reads : List (List Byte) := []
  deriving DecidableEq, Repr

/-- What waits for a shootdown: a completion word at a key, or a host command of a queue pair with its ring position,
SHOOTDOWN or PAGE_TAKE of a page of an ASID, and a PAGE_TAKE whose shootdown is done (20 R293, R298; 23 R320). -/
inductive ShootEnd where
  | word (key : Nat)
  | command (p h pos : Nat)
  | take (p h pos asid va : Nat)
  | taken (p h pos asid va : Nat)
  deriving DecidableEq, Repr

/-- A shootdown under way (20 R293): its range, and what waits for it. -/
structure Shoot where
  asid : Nat
  all : Bool
  glob : Bool
  va : Nat
  len : Nat
  ending : ShootEnd
  bad : Bool := false
  deriving DecidableEq, Repr

/-- A jetty core that serves host queue pairs (16 R273): its wake counter, the pair, as 32 times its partition plus its
number, whose launch waits for a page, and the pairs whose launch the pager refused one. -/
structure Jetty where
  wake : W32 := 0
  held : Option Nat := none
  failed : List Nat := []
  deriving DecidableEq, Repr

/-- The whole machine. `cipher` names the world under whose key a sector of HBM was last written (25 R339); `l2` holds the
lines of the L2 slices with the permissions of their fill (20 R285). -/
structure State where
  turn : Turn
  input : EventInput := {}
  cur : Nat := 0
  moves : Nat := 0
  cycles : Nat := 0
  tide : W64 := 0
  mem : List Host.Cell := []
  poison : List Nat := []
  cipher : Map Nat := []
  groups : Map Group := []
  blocks : Map Block := []
  cores : Map Core := []
  bars : Map Barrier := []
  launches : Map Launch := []
  nextLaunch : Nat := 0
  tlb : List TlbEntry := []
  l2 : List TlbEntry := []
  dirty : List DirtySector := []
  windows : List RankWindow := []
  parts : Map Part := []
  errors : Map RecordQueue := []
  regs : Map W64 := []
  vaultMask : Map W64 := []
  net : List Msg := []
  shoots : List Shoot := []
  absent : Map Nat := []
  dead : Map Nat := []
  boot : Boot := {}
  sec : Security := {}
  host : Attach := {}
  jetties : Map Jetty := []
  deriving DecidableEq, Repr

/-- The machine right after reset: nothing placed, every register at its reset value, memory with nothing listed. The
first move is the cold reset that runs the boot stages (26 R344). -/
def State.reset : State := { turn := .event .coldReset }

end Sys2Proof.Machine
end

