-- ==== Sys2Proof/Machine/Ops.lean ====
section
/-! DEFINITION. The named operations over memory, registers and records; taking a trap and returning from one; the
compute-stream fault. -/
namespace Sys2Proof.Machine

abbrev Out := Host.Outcome State Fault Refusal

-- Memory: one list of cells in canonical form; an unlisted byte reads 0 (log 2).

/-- The byte at a key. -/
def Memory.read : List Host.Cell → Nat → Byte
  | [], _ => 0
  | (a, b) :: rest, k => if k < a then 0 else if k == a then b else Memory.read rest k

/-- Puts a byte at the head of a rest that lies wholly above it, unless it is zero. -/
def Memory.put (k : Nat) (v : Byte) (rest : List Host.Cell) : List Host.Cell :=
  if v == 0 then rest else (k, v) :: rest

/-- Writes one byte, keeping the canonical form: writing 0 removes the entry. -/
def Memory.write : List Host.Cell → Nat → Byte → List Host.Cell
  | [], k, v => Memory.put k v []
  | (a, b) :: rest, k, v =>
    if k < a then Memory.put k v ((a, b) :: rest)
    else if k == a then Memory.put k v rest
    else (a, b) :: Memory.write rest k v

/-- Every cell of a list lies above `k`. -/
def Memory.above (k : Nat) : List Host.Cell → Bool
  | [] => true
  | (a, _) :: _ => decide (k < a)

/-- The canonical form: addresses strictly rising, no listed zero. -/
def Memory.wf : List Host.Cell → Bool
  | [] => true
  | (a, b) :: rest => b != 0 && Memory.above a rest && Memory.wf rest

/-- Writes consecutive bytes upward from a key. -/
def Memory.writeBytes : List Host.Cell → Nat → List Byte → List Host.Cell
  | m, _, [] => m
  | m, k, b :: bs => Memory.writeBytes (Memory.write m k b) (k + 1) bs

/-- Writes single bytes at their keys, in order. -/
def Memory.writeCells : List Host.Cell → List (Nat × Byte) → List Host.Cell
  | m, [] => m
  | m, (k, b) :: rest => Memory.writeCells (Memory.write m k b) rest

/-- `n` consecutive bytes upward from a key. -/
def Memory.bytes (m : List Host.Cell) (k n : Nat) : List Byte := (List.range n).map fun i => Memory.read m (k + i)

/-- Little-endian value of bytes (00 R3). -/
def leNat : List Byte → Nat
  | [] => 0
  | b :: bs => b.toNat + 256 * leNat bs

/-- The `n` little-endian bytes of a value. -/
def leBytes : Nat → Nat → List Byte
  | 0, _ => []
  | n + 1, v => BitVec.ofNat 8 (v % 256) :: leBytes n (v / 256)

/-- Bits [hi:lo] of a value. -/
def bits (v hi lo : Nat) : Nat := v / 2 ^ lo % 2 ^ (hi + 1 - lo)

/-- A two's-complement field of `w` bits. -/
def signedOf (w v : Nat) : Int :=
  let u := v % 2 ^ w
  if 2 ^ (w - 1) ≤ u then (u : Int) - 2 ^ w else u

-- Records by key.

def State.grpAt (s : State) (k : Nat) : Group := Map.get {} s.groups k
def State.setGrpAt (s : State) (k : Nat) (g : Group) : State := { s with groups := s.groups.set k g }
/-- Makes a group the acting one. -/
def State.focus (s : State) (k : Nat) : State := { s with cur := k }
/-- The acting group. -/
def State.grp (s : State) : Group := s.grpAt s.cur
def State.setGrp (s : State) (g : Group) : State := s.setGrpAt s.cur g
def State.coreAt (s : State) (c : Nat) : Core := Map.get {} s.cores c
def State.setCoreAt (s : State) (c : Nat) (v : Core) : State := { s with cores := s.cores.set c v }
/-- The core of the acting group. -/
def State.coreNo (s : State) : Nat := s.cur / 16
def State.core (s : State) : Core := s.coreAt s.coreNo
def State.setCore (s : State) (v : Core) : State := s.setCoreAt s.coreNo v
def State.blkAt (s : State) (k : Nat) : Block := Map.get {} s.blocks k
def State.setBlkAt (s : State) (k : Nat) (b : Block) : State := { s with blocks := s.blocks.set k b }
/-- The block of the acting group. -/
def State.blk (s : State) : Block := s.blkAt s.grp.blk
def State.setBlk (s : State) (b : Block) : State := s.setBlkAt s.grp.blk b
def State.launchAt (s : State) (l : Nat) : Launch := Map.get {} s.launches l
def State.launch (s : State) : Launch := s.launchAt s.blk.launch
/-- The running context's ASID. -/
def State.asid (s : State) : Nat := s.launch.asid

/-- Counts an ignored write in a core block's error counter (00 R5; 02 R36). -/
def State.countBlkErr (s : State) (c : Nat) : State :=
  let v := s.coreAt c
  s.setCoreAt c { v with blkErr := if v.blkErr == 0xFFFFFFFF then v.blkErr else v.blkErr + 1 }

-- Writes at homes: poison units, LR reservations (09 R165), dirty copies (28 R362; 13 R227).

/-- The first byte of the poison unit of a byte (28 Table 28-1): a sector of memory, a word of scratch or vault. -/
def unitOf (k : Nat) : Nat := if k < 2 ^ 52 then k / 128 * 128 else k / 4 * 4
def unitSize (u : Nat) : Nat := if u < 2 ^ 52 then 128 else 4

/-- Writes cells at their homes; a unit wholly covered by one write becomes clean (28 R362). -/
def State.storeCells (s : State) (cells : List (Nat × Byte)) : State :=
  let covered := fun u => (List.range (unitSize u)).all fun i => cells.any fun c => c.1 == u + i
  { s with mem := Memory.writeCells s.mem cells, poison := s.poison.filter fun u => !covered u }

/-- Consecutive cells from a key. -/
def cellsOf (key : Nat) (l : List Byte) : List (Nat × Byte) := (List.range l.length).zip l |>.map fun p => (key + p.1, p.2)

/-- Ends the reservations that cover a byte range of keys. -/
def State.breakResv (s : State) (key n : Nat) : State :=
  if s.groups.any fun p => match p.2.resv with
      | some (k, m) => k < key + n && key < k + m
      | none => false
  then { s with groups := s.groups.map fun p => match p.2.resv with
      | some (k, m) => (p.1, if k < key + n && key < k + m then { p.2 with resv := none } else p.2)
      | none => p }
  else s

/-- Drops the sector of a physical address from a core's lane L1. -/
def State.l1Forget (s : State) (core pa : Nat) : State :=
  let c := s.coreAt core
  if c.l1.isEmpty then s else s.setCoreAt core { c with l1 := c.l1.filter fun x => x.pa != pa }

/-- The sectors of HBM with the world under whose key each was last written, after a context of `asid` has written those
of `l` (25 R339). -/
def State.cipherAs (s : State) (asid : Nat) (l : List Nat) : Map Nat :=
  match s.sec.contexts.find asid with
  | none => s.cipher
  | some w => l.foldl (fun m k => if k < 2 ^ 48 then m.set k w else m) s.cipher

/-- A dirty sector's bytes go to a home, and the sector leaves the cache. The core's lane L1 drops it with them, so that
its lanes see their group's hart stores after a join (01 R33; 05 R109; log 38). -/
def State.sectorHome (s : State) (d : DirtySector) (pa : Nat) : State :=
  { (s.storeCells (cellsOf pa d.bytes)).l1Forget d.core pa with
    dirty := s.dirty.filter fun e => e != d, cipher := s.cipherAs d.asid [pa] }

/-- A write at a home first takes with it the dirty copy of its sector in any hart data cache (13 R227). -/
def State.flushHome (s : State) (key : Nat) : State :=
  if 2 ^ 52 ≤ key then s
  else match s.dirty.find? fun d => d.pa == key / 128 * 128 with
    | none => s
    | some d => s.sectorHome d d.pa

/-- The 128-byte sectors of a range of physical addresses. -/
def sectorsOf (key n : Nat) : List Nat :=
  if 2 ^ 52 ≤ key then [] else (List.range ((key % 128 + n + 127) / 128)).map fun i => key / 128 * 128 + 128 * i

/-- Bytes that the device writes at their homes: dirty copies go first, and LR reservations of the sectors end. -/
def State.homeWrite (s : State) (key : Nat) (l : List Byte) : State :=
  (((sectorsOf key l.length).foldl State.flushHome s).storeCells (cellsOf key l)).breakResv key l.length

-- The worlds' keys (25 R339; log 31).

/-- The sectors of a list that lie in HBM and were last written under the key of another world than a context's. -/
def State.foreign (s : State) (asid : Nat) (l : List Nat) : List Nat :=
  match s.sec.contexts.find asid with
  | none => []
  | some w => l.filter fun k => k < 2 ^ 48 && match s.cipher.find k with
      | some v => v != w
      | none => false

/-- Memory as a context's key decrypts the sectors of a list: those of another world hold free bytes. -/
def State.decrypt (s : State) (asid : Nat) (l : List Nat) : State :=
  match s.foreign asid l with
  | [] => s
  | f =>
    let cells := f.flatMap fun k => (List.range 128).map fun i => (k + i, Config.freeByte s.moves (k + i))
    { s with mem := Memory.writeCells s.mem cells }

/-- The bytes that a context reads at a home. -/
def State.worldBytes (s : State) (asid key n : Nat) : List Byte :=
  Memory.bytes (s.decrypt asid (sectorsOf key n)).mem key n

/-- Sectors as they stand when a context writes to them: decrypted under its key, with dirty copies gone first, and from
now on of its world. -/
def State.underKey (s : State) (asid : Nat) (l : List Nat) : State :=
  let t := (l.foldl State.flushHome s).decrypt asid l
  { t with cipher := t.cipherAs asid l }

-- Messages (13 R235).

/-- The group that a message is of. -/
def Msg.group (m : Msg) : Nat :=
  match m.body with
  | .copyIncrement k _ _ _ => k
  | _ => m.src

/-- The reduction channel of a message: a held result holds back that channel and no other (10 R182). -/
def Msg.channel (m : Msg) : Option Nat :=
  match m.body with
  | .redInput _ k _ _ _ | .redResult _ k _ _ => some k
  | _ => none

/-- Whether two messages are of one pair, so that the first must be performed first. -/
def Msg.pairs (m n : Msg) : Bool := m.src == n.src && m.dst == n.dst && m.channel == n.channel

/-- The source number of a copy channel: its pairs are its own (13 R235). -/
def copySource (core ch : Nat) : Nat := 2 ^ 22 + 8 * core + ch

-- Hart registers.

/-- x0 reads as zero (02 R34). -/
def Group.xr (g : Group) (r : XReg) : W64 := if r == 0 then 0 else Map.get 0 g.x r.toNat
/-- A write to x0 is discarded (02 R34). -/
def Group.setX (g : Group) (r : XReg) (v : W64) : Group := if r == 0 then g else { g with x := g.x.set r.toNat v }

/-- A progress count saturates (14 R246). -/
def countUp (n : Half) : Half := if n == 0xFFFF then n else n + 1

/-- The completed hart instruction goes on at `a`: minstret and the access progress count rise. -/
def Group.hartGoto (g : Group) (a : W64) : Group :=
  { g with pc := a, minstret := g.minstret + 1, progA := countUp g.progA, hartWait := none, stepped := true }

/-- The completed hart instruction: the pc moves past it. -/
def Group.hartNext (g : Group) : Group := g.hartGoto (g.pc + 4)

-- mstatus fields (12 Table 12-1).

def mstatusMie (v : W64) : Bool := v.getLsbD 3
def mstatusMpie (v : W64) : Bool := v.getLsbD 7
def mstatusMppM (v : W64) : Bool := v.getLsbD 11 && v.getLsbD 12
def mstatusTw (v : W64) : Bool := v.getLsbD 21

/-- mstatus from its four fields; MPP is 0 or 3, every other bit zero (12 R215). -/
def mstatusOf (mie mpie mppM tw : Bool) : W64 :=
  ofFlag 64 mie <<< 3 ||| ofFlag 64 mpie <<< 7 ||| (if mppM then 0x1800 else 0) ||| ofFlag 64 tw <<< 21

/-- Taking a trap (12 R215; 21 R299): the pc is saved in mepc, the cause and value in mcause and mtval, MIE in MPIE and
the mode in MPP; interrupts are off, the mode is M and the pc is at mtvec. A wait is abandoned (05 R102) and the LR
reservation is lost (09 R165). -/
def Group.trap (g : Group) (cause : Nat) (irq : Bool) (val : W64) : Group :=
  { g with
    mepc := g.pc
    mcause := BitVec.ofNat 64 cause ||| (if irq then 0x8000000000000000 else 0)
    mtval := val
    mstatus := mstatusOf false (mstatusMie g.mstatus) (g.mode == .m) (mstatusTw g.mstatus)
    mode := .m
    pc := g.mtvec &&& 0xFFFFFFFFFFFFFFFC
    hartWait := none
    resv := none }

-- Registers, partitions and traces (26 R350; 28 R367).

/-- A register of the module's register space (26 R350), by its offset. -/
def State.reg (s : State) (off : Nat) : W64 := Map.get 0 s.regs off
/-- The first port die's block (26 Table 26-3). -/
def pd0 (off : Nat) : Nat := 0x0C000000 + off

/-- The die of a core (01 R16). -/
def dieOfCore (c : Nat) : Nat := 3 * (c / 48 / 8) + c % 48 / 16

/-- The offset of partition `p`'s sub-block in the register space (26 Table 26-5). -/
def subBlock (p off : Nat) : Nat := pd0 (0x10000 * (p + 1) + off)

def State.part (s : State) (p : Nat) : Part := Map.get {} s.parts p
def State.setPart (s : State) (p : Nat) (v : Part) : State := { s with parts := s.parts.set p v }

/-- The partition of a die (26 Table 26-5 PARTDIE). -/
def State.partOfDie (s : State) (n : Nat) : Nat := bits (s.reg (pd0 0x100)).toNat (2 * n + 1) (2 * n)
def State.partOfCore (s : State) (c : Nat) : Nat := s.partOfDie (dieOfCore c)
/-- Appends a trace record of a kind for a group slot, where the partition's ring takes that kind and has room. -/
def State.trace (s : State) (k kind asid : Nat) (payload : Nat) : State :=
  let p := s.partOfCore (k / 16)
  let ctl := (s.reg (subBlock p 0x3008)).toNat
  let pt := s.part p
  let size := bits ctl 5 1
  let head : W32 := (s.reg (subBlock p 0x3010)).setWidth 32
  if bits ctl 0 0 == 0 || ctl / 2 ^ (7 + kind) % 2 == 0 then s
  else if 2 ^ size ≤ (pt.traceTail - head).toNat then
    s.setPart p { pt with traceDrop := if pt.traceDrop == 0xFFFFFFFF then pt.traceDrop else pt.traceDrop + 1 }
  else
    let base := (s.reg (subBlock p 0x3000)).toNat
    let rec_ := leBytes 32 (s.tide.toNat + 2 ^ 64 * (k / 16 + 2 ^ 11 * (k % 16) + 2 ^ 16 * kind + 2 ^ 24 * asid)
      + 2 ^ 128 * payload)
    (s.homeWrite (base + 32 * (pt.traceTail.toNat % 2 ^ size)) rec_).setPart p
      { pt with traceTail := pt.traceTail + 1 }

/-- ldec counts the cycles of a wait on an empty fbq (05 R91); the count is taken when the wait ends. -/
def Group.stallEnd (g : Group) (cycles : Nat) : Group :=
  if g.hartWait == some .fbqEmpty then { g with ldec := g.ldec + BitVec.ofNat 64 (cycles - g.hartSince) } else g

/-- A hart's wait on an empty fbq is over: ldec has its cycles, and the hart is ready again. -/
def Group.fbqReady (g : Group) (cycles : Nat) : Group :=
  if g.hartWait == some .fbqEmpty then { g.stallEnd cycles with hartWait := none } else g

/-- A trap of the hart of a slot, with its trace record (28 Table 28-6). -/
def State.trapAt (s : State) (k cause : Nat) (irq : Bool) (val : W64) : State :=
  let g := ((s.grpAt k).stallEnd s.cycles).trap cause irq val
  (s.setGrpAt k g).trace k 1 (s.launchAt (s.blkAt g.blk).launch).asid (g.mcause.toNat + 2 ^ 64 * g.mepc.toNat)

/-- A synchronous exception of the acting hart. -/
def State.trap (s : State) (cause : Nat) (val : W64) : State := s.trapAt s.cur cause false val

/-- An exception as the outcome of an instruction. -/
def raise (s : State) (cause : Nat) (val : W64) : Out := .next (s.trap cause val)

/-- The illegal-instruction exception: mtval holds the instruction word (04 R86). -/
def illegal (s : State) : Out := raise s 2 (s.grp.hword.setWidth 64)

/-- The restart of a held compute stream at mlpc (12 R218): a stream that does not hold, or has ended, is unchanged. -/
def Group.restart (g : Group) : Group :=
  if g.held && !g.cendDone then
    { g with held := false, lpc := g.mlpc, mlcause := 0, laneWait := none }
  else g

/-- Returning from a trap (12 R215, R218): the mode from MPP, MIE from MPIE, the pc from mepc, and the compute stream
restarts if it holds. -/
def Group.trapReturn (g : Group) : Group :=
  let h := g.restart
  { h with
    mode := if mstatusMppM g.mstatus then .m else .u
    mstatus := mstatusOf (mstatusMpie g.mstatus) true false (mstatusTw g.mstatus)
    pc := g.mepc
    minstret := g.minstret + 1
    progA := countUp g.progA
    hartWait := none
    stepped := true }

/-- A hart that waits: nothing moves but the record of what it waits on, and since when. -/
def hartWaits (s : State) (w : HartWait) : Out :=
  let g := s.grp
  .next (s.setGrp
    { g with hartWait := some w, hartSince := if g.hartWait == some w then g.hartSince else s.cycles
             hartTide := if g.hartWait == some w then g.hartTide else s.tide.toNat })

-- The compute stream.

/-- The active mask (04 R81): em, or under a prefix em with the captured mask or its complement. -/
def Group.active (g : Group) : LaneMask :=
  if g.pb.left == 0 then g.em
  else if g.pb.pat.getLsbD (g.pb.n - g.pb.left) then g.em &&& g.pb.mask
  else g.em &&& ~~~g.pb.mask

/-- One instruction covered by the prefix is used up (06 R124). -/
def Prefix.used (p : Prefix) : Prefix := { p with left := p.left - 1 }

/-- The completed lane instruction of `len` bytes. -/
def Group.laneNext (g : Group) (len : Nat) : Group :=
  { g with lpc := g.lpc + BitVec.ofNat 64 len, pb := g.pb.used, progC := countUp g.progC, laneWait := none
           stepped := true }

/-- A compute-stream fault (12 R217): the stream holds at the instruction, the four CSRs are written and mcause 24
becomes pending. -/
def Group.laneFault (g : Group) (code cause : Nat) (mask : LaneMask) (val : W64) : Group :=
  { g with
    mlpc := g.lpc
    mlcause := BitVec.ofNat 64 (code + 256 * cause)
    mlmask := mask
    mlval := val
    held := true
    laneWait := none
    asyncs := g.asyncs ++ [⟨24, 0⟩] }

/-- A compute-stream fault as the outcome of an instruction. -/
def laneRaise (s : State) (code cause : Nat) (mask : LaneMask) (val : W64) : Out :=
  .next (s.setGrp (s.grp.laneFault code cause mask val))

/-- Codes 1-3: mlval holds the first instruction word (12 Table 12-3). -/
def laneIllegal (s : State) (code : Nat) : Out :=
  laneRaise s code 0 s.grp.active (s.grp.lword.setWidth 64)

/-- A compute stream that waits: nothing moves but the record of what it waits on, and since when. -/
def laneWaits (s : State) (w : LaneWait) : Out :=
  let g := s.grp
  .next (s.setGrp
    { g with laneWait := some w, laneSince := if g.laneWait == some w then g.laneSince else s.cycles })

end Sys2Proof.Machine
end

