-- ==== Sys2Proof/Machine/Operands.lean ====
section
/-! DEFINITION. The operand forms of lane instructions (02 R41-R45; 04 R76-R78, R372; 06 R111) and the shared course of
a lane instruction: prefix, operands, waits, value checks, pops, effect. -/
namespace Sys2Proof.Machine

/-- Lanes 0-63. -/
def laneIds : List Nat := List.range 64

/-- A 64-lane vector from a function of the lane. -/
def lanes {α : Type} (f : Nat → α) : List α := laneIds.map f

/-- The value of a lane of a vector. -/
def LaneVec.at (v : LaneVec) (i : Nat) : W64 := v.getD i 0

def Group.reg (g : Group) (p i : Nat) : W32 := (Map.get [] g.win p).getD i 0

/-- One lane of a window operand (06 R111): a register, or a pair with its low half first. -/
def Group.window (g : Group) (wide : Bool) (code i : Nat) : W64 :=
  let p := g.wbase + code
  if wide then (g.reg (p + 1) i) ++ (g.reg p i) else (g.reg p i).setWidth 64

/-- A source field: its code and whether the operand is a pair. -/
structure Src where
  code : Code
  wide : Bool
  deriving DecidableEq, Repr

/-- The queue a source names: 0-3 for ldq0-ldq3, 4 for scq. -/
def Src.queue (c : Src) : Option Nat :=
  let n := c.code.toNat
  if 112 ≤ n && n ≤ 115 then some (n - 112) else if n == 117 then some 4 else none

/-- A window code within the registers (02 R43), even where it names a pair (02 R44). -/
def Group.windowOk (g : Group) (wide : Bool) (n : Nat) : Bool :=
  n < 112 && g.wbase + n < g.nregs && (!wide || n % 2 == 0)

/-- Whether a code may stand as a source (Table 2-9). -/
def Group.srcOk (g : Group) (c : Src) : Bool :=
  let n := c.code.toNat
  if n < 112 then g.windowOk c.wide n
  else if n ≤ 115 then g.qmode.getLsbD (n - 112) == c.wide
  else n == 117 || (119 ≤ n && n ≤ 121)

/-- Whether a code may stand as a destination (Table 2-9). -/
def Group.dstOk (g : Group) (wide : Bool) (d : Code) : Bool :=
  let n := d.toNat
  if n < 112 then g.windowOk wide n else (n == 116 && !wide) || n == 119

/-- Whether a code may stand as a source, or a destination, of some width (02 R43, R44). -/
def Group.srcAny (g : Group) (a : Code) : Bool := g.srcOk ⟨a, false⟩ || g.srcOk ⟨a, true⟩
def Group.dstAny (g : Group) (d : Code) : Bool := g.dstOk false d || g.dstOk true d

/-- Whether a code may stand in a mask field (04 R76). -/
def maskOk (m : Code) : Bool := m.toNat ≤ 16

/-- A mask field as a source (04 R76, 02 R45). -/
def Group.mask (g : Group) (m : Code) : LaneMask :=
  if m.toNat == 16 then g.em else if m.toNat == 0 then BitVec.allOnes 64 else Map.get 0 g.masks m.toNat

/-- A mask field as a destination: m0 discards (02 R45). -/
def Group.setMask (g : Group) (m : Code) (v : LaneMask) : Group :=
  if m.toNat == 16 then { g with em := v }
  else if m.toNat == 0 then g else { g with masks := g.masks.set m.toNat v }

/-- The `k`-th entry of a queue counted from its head. -/
def Group.entry (g : Group) (q k : Nat) : Option LdqEntry := (Map.get [] g.ldq q)[k]?

/-- How many of the sources `l` name the queue `q`. -/
def queueUses (q : Nat) (l : List Src) : Nat := (l.filter fun c => c.queue == some q).length

/-- The sources in field order, each with how many earlier fields name the same queue (04 R77). -/
def withPosition : List Src → List Src → List (Src × Nat)
  | _, [] => []
  | seen, c :: rest =>
    (c, match c.queue with
        | some q => queueUses q seen
        | none => 0) :: withPosition (seen ++ [c]) rest

/-- How the start of a lane instruction turns out (04 R77, R372; 05 R95). -/
inductive Start where
  | wait (w : LaneWait)
  | width (c : Code)
  | poisoned (q k : Nat)
  | ready
  deriving DecidableEq, Repr

/-- Whether a source's entry is present. -/
def Group.entryHere (g : Group) (c : Src × Nat) : Option LaneWait :=
  match c.1.queue with
  | none => none
  | some q =>
    if q == 4 then (if c.2 < g.scq.length then none else some .scqEmpty)
    else match g.entry q c.2 with
      | some e => if e.arrived then none else some (.ldqEmpty q)
      | none => some (.ldqEmpty q)

/-- The tag, then the poison, of a source's entry (02 R42; 05 R95). -/
def Group.entryCheck (g : Group) (c : Src × Nat) : Start :=
  match c.1.queue with
  | none => .ready
  | some q =>
    match g.entry q c.2 with
    | none => .ready
    | some e =>
      if q == 4 then .ready
      else if e.wide != c.1.wide then .width c.1.code
      else if e.poison && e.replay then .wait (.replay q)
      else if e.poison then .poisoned q c.2
      else .ready

/-- The first answer of a list that is not `ready`. -/
def firstOf : List Start → Start
  | [] => .ready
  | .ready :: rest => firstOf rest
  | x :: _ => x

/-- Presence of every entry and room for a push, then each entry's tag and poison in field order. -/
def Group.start (g : Group) (srcs : List Src) (pushStq pushFbq : Bool) : Start :=
  let pos := withPosition [] srcs
  match pos.findSome? g.entryHere with
  | some w => .wait w
  | none =>
    if pushStq && 8 ≤ g.stq.length then .wait .stqFull
    else if pushFbq && 8 ≤ g.fbq.length then .wait .fbqFull
    else firstOf (pos.map g.entryCheck)

/-- A source's 64 lanes (Table 2-9). -/
def Group.vector (g : Group) (c : Src × Nat) : LaneVec :=
  let n := c.1.code.toNat
  if n < 112 then lanes fun i => g.window c.1.wide n i
  else match c.1.queue with
    | some q =>
      if q == 4 then
        let v := g.scq.getD c.2 0
        lanes fun _ => if c.1.wide then v else (v.setWidth 32).setWidth 64
      else match g.entry q c.2 with
        | some e => e.data
        | none => []
    | none =>
      lanes fun i => if n == 120 then BitVec.ofNat 64 i else if n == 121 then BitVec.ofNat 64 (i / 4) else 0

/-- Every source of an instruction, read before anything is written (00 R7). -/
def Group.vectors (g : Group) (srcs : List Src) : List LaneVec := (withPosition [] srcs).map g.vector

/-- The pops of an instruction, in one step (04 R77); each popped queue load lowers the run-ahead count (05 R90). -/
def Group.pop (g : Group) (srcs : List Src) : Group :=
  let n := fun q => queueUses q srcs
  if n 0 + n 1 + n 2 + n 3 + n 4 == 0 then g
  else
    let drop := fun (l : Map (List LdqEntry)) q => if n q == 0 then l else l.set q ((Map.get [] l q).drop (n q))
    { g with
      ldq := [0, 1, 2, 3].foldl drop g.ldq
      scq := g.scq.drop (n 4)
      runAhead := g.runAhead - (n 0 + n 1 + n 2 + n 3) }

/-- Marks an entry replay-pending (05 R95). -/
def Group.markReplay (g : Group) (q k : Nat) : Group :=
  let l := Map.get [] g.ldq q
  match l[k]? with
  | some e => { g with ldq := g.ldq.set q (l.set k { e with replay := true }) }
  | none => g

/-- The poisoned-pop fault at entry `k` of queue `q` (05 R95). -/
def State.poisonedPop (s : State) (q k : Nat) : State :=
  let g := s.grp
  match g.entry q k with
  | some e => s.setGrp ((g.markReplay q k).laneFault 5 e.cause e.lanes e.addr)
  | none => s

-- Tables tied to a source (02 R51; 11 R203).

/-- Tracking entries of a core that `hit` selects lose their tables and become free; their generation rises. -/
def State.invalidate (s : State) (core : Nat) (hit : Track → Bool) : State :=
  let c := s.coreAt core
  let hits := c.tracks.filter fun t => t.2.live && hit t.2
  if hits.isEmpty then s
  else
    let tags := hits.map fun t => t.1
    let s := s.setCoreAt core
      { c with tracks := c.tracks.map fun t =>
          (t.1, if tags.contains t.1 then { t.2 with live := false, gen := t.2.gen + 1 } else t.2) }
    { s with blocks := s.blocks.map fun b =>
        (b.1, if b.1 / 16 == core then
            { b.2 with tables := b.2.tables.map fun t =>
                (t.1, if t.2.valid && tags.contains t.2.tag then { t.2 with valid := false } else t.2) }
          else b.2) }

/-- A write to physical registers lo to hi of the acting group's slot. -/
def State.touchRegs (s : State) (lo hi : Nat) : State :=
  s.invalidate s.coreNo fun t => !t.scratch && t.owner == s.cur % 16 && t.lo ≤ hi && lo ≤ t.hi

/-- A write to `n` scratch bytes of a block from an offset (02 R51). -/
def State.touchScratch (s : State) (blk off n : Nat) : State :=
  s.invalidate (blk / 16) fun t => t.scratch && t.owner == blk && t.lo < off + n && off < t.lo + t.hi

/-- Writes a register in the lanes of `act`, leaving the others. -/
def Group.setReg (g : Group) (p : Nat) (act : LaneMask) (f : Nat → W32) : Group :=
  { g with win := g.win.set p (lanes fun i => if act.getLsbD i then f i else g.reg p i) }

/-- Writes a window register or pair in the lanes of `act`. -/
def Group.setWindow (g : Group) (wide : Bool) (n : Nat) (act : LaneMask) (f : Nat → W64) : Group :=
  let p := g.wbase + n
  let g := g.setReg p act fun i => (f i).setWidth 32
  if wide then g.setReg (p + 1) act fun i => (f i >>> 32).setWidth 32 else g

/-- Writes a destination (06 R111): a window operand in the active lanes, an stq entry with zero in the inactive ones,
or nothing for code 119. A write in any lane invalidates the tables built from those registers (02 R51). -/
def State.writeDest (s : State) (wide : Bool) (d : Code) (act : LaneMask) (f : Nat → W64) : State :=
  let n := d.toNat
  let g := s.grp
  if n < 112 then
    if act == 0 then s
    else (s.setGrp (g.setWindow wide n act f)).touchRegs (g.wbase + n) (g.wbase + n + if wide then 1 else 0)
  else if n == 116 then
    let data := lanes fun i => if act.getLsbD i then (f i).setWidth 32 else 0
    s.setGrp { g with stq := g.stq ++ [⟨data, act⟩] }
  else s

/-- Writes a mask destination. -/
def State.writeMask (s : State) (m : Code) (v : LaneMask) : State := s.setGrp (s.grp.setMask m v)

/-- One entry pushed to fbq (05 R107). A hart's wait on an empty fbq ends there (01 R23; 05 R91). -/
def State.pushFbq (s : State) (v : W64) : State :=
  let g := s.grp.fbqReady s.cycles
  s.setGrp { g with fbq := g.fbq ++ [v] }

/-- A mask from a test of each lane. -/
def maskOf (f : Nat → Bool) : LaneMask :=
  BitVec.ofNat 64 (laneIds.foldr (fun i acc => (if f i then 1 else 0) + 2 * acc) 0)

/-- The lowest lane of a mask. -/
def lowestLane (m : LaneMask) : Option Nat := laneIds.find? fun i => m.getLsbD i

/-- The lanes of a mask in increasing order. -/
def activeLanes (m : LaneMask) : List Nat := laneIds.filter fun i => m.getLsbD i

def popCount (m : LaneMask) : Nat := (activeLanes m).length

/-- What a lane instruction needs before its effect: its length, its sources, its checks of the other fields, whether a
prefix may cover it, and whether it pushes. -/
structure LaneForm where
  len : Nat
  srcs : List Src := []
  ok : Group → Bool := fun _ => true
  cover : Bool := true
  stq : Bool := false
  fbq : Bool := false

/-- What the checks on the values that an instruction reads can answer (04 R372). -/
inductive Check where
  | pass
  | wait (w : LaneWait)
  /-- A fault, with the state it leaves. -/
  | stop (t : State)

/-- A check that fails with a compute-stream fault. -/
def Check.fault (s : State) (code : Nat) (mask : LaneMask) (val : W64) : Check :=
  .stop (s.setGrp (s.grp.laneFault code 0 mask val))

/-- Stage 3 of 04 R78: a covered instruction that may not be. -/
def LaneForm.coverOk (o : LaneForm) (g : Group) : Bool := o.cover || g.pb.left == 0

/-- Stage 4 of 04 R78: every source and the fields the form restricts further. -/
def LaneForm.operandsOk (o : LaneForm) (g : Group) : Bool := o.srcs.all g.srcOk && o.ok g

/-- The state after the pops and the advance of a lane instruction, before its own effect. -/
def LaneForm.commit (o : LaneForm) (s : State) : State := s.setGrp ((s.grp.pop o.srcs).laneNext o.len)

/-- The course of a lane instruction (04 R77, R78, R372): each stage that fails pops nothing, pushes nothing and writes
nothing. `eff` makes the instruction's own effect from its source values and its active mask. -/
def laneRun (s : State) (o : LaneForm) (check : List LaneVec → Check)
    (eff : List LaneVec → LaneMask → State → State) : Out :=
  let g := s.grp
  if !o.coverOk g then laneIllegal s 3
  else if !o.operandsOk g then laneIllegal s 2
  else match g.start o.srcs o.stq o.fbq with
    | .wait w => laneWaits s w
    | .width c => laneRaise s 4 0 g.active (c.setWidth 64)
    | .poisoned q k => .next (s.poisonedPop q k)
    | .ready =>
      match check (g.vectors o.srcs) with
      | .wait w => laneWaits s w
      | .stop t => .next t
      | .pass => .next (eff (g.vectors o.srcs) g.active (o.commit s))

/-- Whether a lane instruction of this form starts: no stage before its value checks fails. -/
def LaneForm.starts (o : LaneForm) (s : State) : Prop :=
  o.coverOk s.grp = true ∧ o.operandsOk s.grp = true ∧ s.grp.start o.srcs o.stq o.fbq = .ready

/-- The `k`-th source value in lane `i`. -/
def argAt (vs : List LaneVec) (k i : Nat) : W64 := LaneVec.at (vs.getD k []) i

/-- A lane instruction that computes one value per active lane from its sources (06, 07). -/
def laneForm (len : Nat) (dw : Bool) (d : Code) (srcs : List Src) : LaneForm :=
  { len := len, srcs := srcs, ok := fun g => g.dstOk dw d, stq := d.toNat == 116 }

def laneAlu (s : State) (len : Nat) (dw : Bool) (d : Code) (srcs : List Src)
    (f : (Nat → W64) → Nat → W64) : Out :=
  laneRun s (laneForm len dw d srcs) (fun _ => .pass) fun vs act t =>
    t.writeDest dw d act fun i => f (fun k => argAt vs k i) i

end Sys2Proof.Machine
end

