-- ==== Sys2Proof/Machine/Flags.lean ====
section
/-! DEFINITION. The status words and modes: fmode and its rounding, the vendor status CSRs, the sticky matrix flags,
MONDB and mip. -/
namespace Sys2Proof.Machine

-- The float mode (02 Table 2-10).

def fzin (fm : W64) : Bool := fm.getLsbD 3
def fzres (fm : W64) : Bool := fm.getLsbD 4
def fmSeed (fm : W64) : W32 := (fm >>> 32).setWidth 32

/-- The rounding of fmode.rm. -/
def fmRound (fm : W64) : Round :=
  match (fm &&& 7).toNat with
  | 1 => .rtz
  | 2 => .rdn
  | 3 => .rup
  | 4 => .rmm
  | _ => .rne

/-- The rounding an instruction names, or that of fmode (03 R59). Stochastic rounding is given its random value. -/
def rmRound (rm : Rm) (fm : W64) (z : Nat) : Round :=
  match rm with
  | .mode => fmRound fm
  | .rne => .rne
  | .rtz => .rtz
  | .rdn => .rdn
  | .rup => .rup
  | .rmm => .rmm
  | .sr => .sr z

-- Identity (01 R10; 02 Table 2-4).

/-- The launch-global lane id of lane 0 of a group of a block: (L*G + g)*64. -/
def lid0 (b : Block) (g : Group) : Nat := (b.lin * b.groups + g.idx) * 64

def urg (s : State) (g : Group) : W64 :=
  let b := s.blkAt g.blk
  let l := s.launchAt b.launch
  BitVec.ofNat 64 (g.idx % 16 + 16 * ((b.groups - 1) % 16) + 256 * (b.rank % 8) + 2048 * ((l.cx * l.cy - 1) % 8)
    + 2 ^ 40 * (lid0 b g % 2 ^ 24))

/-- blkid (Table 2-1): x, y and z of the linear block index. -/
def blkid (s : State) (g : Group) : W64 :=
  let b := s.blkAt g.blk
  let l := s.launchAt b.launch
  BitVec.ofNat 64 (b.lin % l.gx + 2 ^ 16 * (b.lin / l.gx % l.gy) + 2 ^ 32 * (b.lin / l.gx / l.gy))

-- Batches (02 Table 2-5, R39; 11 R190).

/-- The batches of a group that its accepted operations still hold open. -/
def State.batchBusy (s : State) (k : Nat) (n : Byte) : Bool :=
  (s.coreAt (k / 16)).ops.any fun o => o.grp == k && o.batch == n

/-- The greatest completed batch: from `done` upward while the next batch is closed and holds no operation. -/
def advanceDone (busy : Byte → Bool) (opn : Byte) : Nat → Byte → Byte
  | 0, d => d
  | n + 1, d => if d + 1 == opn || busy (d + 1) then d else advanceDone busy opn n (d + 1)

/-- mbatch.done: the state keeps the value last observed and every closed batch since is examined. -/
def State.batchDone (s : State) (k : Nat) : Byte :=
  let g := s.grpAt k
  advanceDone (s.batchBusy k) g.batchOpen 256 g.batchSeen

/-- Batch n counts as complete when (done - n), signed, is at least 0 (02 R39). -/
def batchComplete (dn n : Byte) : Bool := (dn - n).toNat < 128

def mbatch (s : State) (k : Nat) : W64 :=
  let g := s.grpAt k
  BitVec.ofNat 64 (g.batchOpen.toNat + 256 * (s.batchDone k).toNat + 65536 * if g.batchOcc then 1 else 0)

-- The journal (02 Table 2-6, R40).

def Group.jslot (g : Group) (n : Nat) : JEntry := Map.get {} g.journal n
def Group.jcount (g : Group) : Nat := ((List.range 32).filter fun n => (g.jslot n).held).length

/-- The slot a new entry takes: seq mod 32, or the first free slot after it. -/
def Group.jnext (g : Group) : Nat :=
  let at_ := g.jseq.toNat % 32
  match (List.range 32).find? fun i => !(g.jslot ((at_ + i) % 32)).held with
  | some i => (at_ + i) % 32
  | none => at_

/-- The slot of the oldest held entry, by the distance of its seq behind jseq. -/
def Group.jhead (g : Group) : Nat :=
  let older := fun (best : Option Nat) n =>
    if !(g.jslot n).held then best
    else match best with
      | none => some n
      | some m => if (g.jseq - (g.jslot m).seq).toNat < (g.jseq - (g.jslot n).seq).toNat then some n else best
  match (List.range 32).foldl older none with
  | some n => n
  | none => g.jseq.toNat % 32

def Group.pjhead (g : Group) : W64 :=
  BitVec.ofNat 64 (g.jhead + 32 * g.jcount + 2 ^ 32 * g.jseq.toNat)

-- Queues (02 Table 2-7).

def Group.qlen (g : Group) (q : Nat) : Nat := (Map.get [] g.ldq q).length

def Group.qocc (g : Group) : W64 :=
  BitVec.ofNat 64 (g.qlen 0 + 16 * g.qlen 1 + 256 * g.qlen 2 + 4096 * g.qlen 3 + 2 ^ 16 * g.stq.length
    + 2 ^ 20 * g.scq.length + 2 ^ 25 * g.ctq.length + 2 ^ 30 * g.fbq.length)

/-- Whether a queue load of a group still awaits a distant home: what the access stream does there later follows it
(05 R92; 13 R234). -/
def Group.loadsAway (g : Group) : Bool := g.ldq.any fun q => q.2.any fun e => !e.arrived && !e.wants.isEmpty

-- Waits (01 R23; 21 R301).

/-- Whether a hart that waits is blocked: every wait of R23, the full journal (02 R40) and M-mode's `wfi` (12 R215); a
register scoreboard, a copy wait and a completing release are not. -/
def HartWait.blocks : HartWait → Bool
  | .fbqEmpty | .stqEmpty | .scqFull | .ctqFull | .queueLoad _ | .join | .exit | .journal | .mailbox _ _ | .ring
  | .jwait | .tide | .blockBarrier | .clusterBarrier | .wfi => true
  | _ => false

/-- Whether a compute stream that waits is blocked. An entry that a replay brings back is one not yet present. -/
def LaneWait.blocks : LaneWait → Bool
  | .ldqEmpty _ | .replay _ | .scqEmpty | .ctqEmpty | .stqFull | .fbqFull | .join | .journal | .blockBarrier
  | .clusterBarrier | .mwait => true
  | _ => false

/-- Whether the access stream stands held or blocked (21 R301). -/
def Group.hartStands (g : Group) : Bool := (g.mode == .u && g.holdA) || g.hartWait.any HartWait.blocks

/-- Whether the compute stream has ended, or stands held or blocked. -/
def Group.laneStands (g : Group) : Bool :=
  g.cendDone || g.holdC.isSome || (!g.held && g.laneWait.any LaneWait.blocks)

/-- Whether a group waits on a translation fault (01 R19; 21 R301): both streams stand, and one is held on a ticket. -/
def Group.faultWait (g : Group) : Bool :=
  g.hartStands && g.laneStands && ((g.mode == .u && g.holdA) || g.holdC.isSome)

-- Blocks that stop (21 R305, R307, R311).

/-- Whether a block is stopping, suspended, or not yet restored: messages for its core stay in the harbour buffers. -/
def State.blkFrozen (s : State) (blk : Nat) : Bool :=
  let b := s.blkAt blk
  b.state == .suspended || b.needPart1
  || b.slots.any fun k => (s.grpAt k).status == .live && (s.grpAt k).mondb.pre && !(s.grpAt k).mondb.kil

def State.coreFrozen (s : State) (c : Nat) : Bool := s.blocks.any fun b => b.1 / 16 == c && s.blkFrozen b.1

/-- Whether a group's image is saved and not yet restored, or its block is stopped. -/
def State.grpFrozen (s : State) (k : Nat) : Bool :=
  s.blkFrozen (s.grpAt k).blk || ((s.grpAt k).saved0 && !(s.grpAt k).mondb.kil)

/-- What a notice's token names, and its fail bit (20 Table 20-4). -/
structure Notice where
  grp : Nat
  chan : Nat
  src : Nat
  ticket : W32
  fail : Bool

def noticeOf (v : W64) : Notice :=
  let n := v.toNat
  { grp := bits n 10 0 * 16 + bits n 14 11, chan := bits n 17 15, src := bits n 19 18, ticket := BitVec.ofNat 32 (bits n 51 20)
    fail := bits n 52 52 == 1 }

/-- Whether a pager queue holds a notice for a stream of a group that can take it: it does so before the group leaves
M-mode (22 R314). -/
def State.noticeWaits (s : State) (k : Nat) : Bool :=
  s.parts.any (fun p => p.2.pqs.any fun q => q.2.held.any fun v => (noticeOf v).grp == k && (noticeOf v).src != 2)
    && !s.grpFrozen k

-- Copies (02 R52; 10 R172).

/-- cedone: the oldest copy not complete, or the next id where none is outstanding. -/
def Channel.cedone (c : Channel) : W32 :=
  match c.copies with
  | [] => c.next
  | k :: _ => k.id

def Core.chan (c : Core) (n : Nat) : Channel := Map.get {} c.chans n

-- The doorbell (21 Table 21-1; 12 R215).

def Mondb.doorbell (m : Mondb) : Bool := m.pre || m.res || m.kil || m.fla || m.flc || m.sdn

/-- MONDB as read by its hart. -/
def Group.mondbWord (g : Group) : W64 :=
  let m := g.mondb
  BitVec.ofNat 64 ((if m.pre then 1 else 0) + (if m.res then 2 else 0) + (if m.kil then 4 else 0)
    + (if m.fla then 8 else 0) + (if m.flc then 16 else 0) + (if m.sdn then 32 else 0)
    + (if g.holdA then 64 else 0) + (if g.holdC.isSome then 128 else 0) + 256 * m.ecq
    + (if m.p1 then 65536 else 0))

/-- mip: MEIP alone, the OR of the doorbell bits. -/
def Group.mip (g : Group) : W64 := if g.mondb.doorbell then 0x800 else 0

/-- misa (Table 12-1). -/
def misa : W64 := 0x8000000000901101

/-- mhartid = 16*core + slot (Table 12-1). -/
def mhartid (k : Nat) : W64 := BitVec.ofNat 64 k

-- mstat (02 Table 2-3): bits mspec, mnan, minf, msat.

def mspecFlag : BitVec 4 := 1
def mnanFlag : BitVec 4 := 2
def minfFlag : BitVec 4 := 4
def msatFlag : BitVec 4 := 8

/-- Sets sticky flags of a group (02 R38; 03 R73). -/
def State.setFlags (s : State) (k : Nat) (f : BitVec 4) : State :=
  let g := s.grpAt k
  s.setGrpAt k { g with mstat := g.mstat ||| f }

end Sys2Proof.Machine
end

