-- ==== Sys2Proof/Machine/Translate.lean ====
section
/-! DEFINITION. Address translation: the five-level walk, permissions, the translations held, fault routing, fault
records and the hold of a faulting party (20 R285-R297; 21 R301). -/
namespace Sys2Proof.Machine

/-- A little-endian field of memory. -/
def State.le (s : State) (k n : Nat) : Nat := leNat (Memory.bytes s.mem k n)

/-- What an access needs of a leaf (20 R291). `cond` is an SC's: both permissions, though it reads no value. -/
inductive Need where
  | read | write | both | exec | replay | cond
  deriving DecidableEq, Repr

/-- Whether an access reads the bytes it names. -/
def Need.reads : Need → Bool
  | .write | .cond => false
  | _ => true

/-- Whether an access may write. -/
def Need.allowsWrite : Need → Bool
  | .write | .both | .cond => true
  | _ => false

/-- acc of a fault record (20 Table 20-3). -/
def Need.acc : Need → Nat
  | .read => 0
  | .write => 1
  | .both | .cond => 2
  | .exec => 3
  | .replay => 4

/-- A translation fault before it is routed: cause code of R294, region, and hint or PPN. -/
structure XFault where
  cause : Nat
  region : Nat
  hint : Nat
  deriving DecidableEq, Repr

/-- How a walk ends. -/
inductive Walk where
  | leaf (t : TlbEntry) (own region ppn : Nat)
  | fault (f : XFault)
  deriving DecidableEq, Repr

/-- The page size of a leaf at a level (20 R288). -/
def pageSize (level : Nat) (sz : Bool) : Nat :=
  match level with
  | 0 => if sz then 2 ^ 16 else 2 ^ 12
  | 1 => if sz then 2 ^ 26 else 2 ^ 21
  | _ => 2 ^ 30

/-- Bytes of local HBM (23 Table 23-2): 1,152 GiB. -/
def hbmSize : Nat := 1152 * 2 ^ 30

/-- Whether every byte of [pa, pa + size) lies in a window that a leaf may name (23 R317). -/
def windowOk (pa size : Nat) : Bool :=
  let top := pa + size - 1
  match pa / 2 ^ 48 with
  | 0x0 => top < hbmSize
  | 0x8 => (Config.hostRange 0).1 ≤ pa && top < (Config.hostRange 0).2
  | 0x9 => (Config.hostRange 1).1 ≤ pa && top < (Config.hostRange 1).2
  | 0xA => true
  | 0xC => pa / 2 ^ 41 % 2 == 0 && pa % 2 ^ 41 + size ≤ hbmSize
  | _ => false

/-- Whether an entry with V = 1 is bad at a level (20 R290). -/
def badEntry (e level : Nat) : Bool :=
  let lf := bits e 1 1 == 1
  let size := pageSize level (bits e 8 8 == 1)
  let pa := bits e 55 16 * 4096
  bits e 15 14 != 0 || bits e 7 6 == 3 || 12 ≤ bits e 13 10
  || (if lf then
        3 ≤ level || (bits e 3 3 == 1 && bits e 2 2 == 0) || (level == 2 && bits e 8 8 == 1)
        || pa % size != 0 || !windowOk pa size
      else level == 0 || bits e 13 2 != 0)

/-- The walk from a table of level `level` downward (20 R288-R290), `fuel` levels at most. -/
def walkFrom (s : State) (asid va : Nat) : Nat → Nat → Walk
  | 0, _ => .fault ⟨4, 0, 0⟩
  | level + 1, table =>
    let e := s.le (table + 8 * (va / 2 ^ (12 + 9 * level) % 512)) 8
    let region := bits e 63 56
    let ppn := bits e 55 16
    if bits e 0 0 == 0 then
      if bits e 15 1 == 0 then .fault ⟨0, region, ppn⟩ else .fault ⟨4, region, ppn⟩
    else if badEntry e level then .fault ⟨4, region, ppn⟩
    else if bits e 1 1 == 0 then walkFrom s asid va level (ppn * 4096)
    else
      let size := pageSize level (bits e 8 8 == 1)
      .leaf { asid := if bits e 5 5 == 1 then 0 else asid, va := va / size * size, size := size, pa := ppn * 4096
              rd := bits e 2 2 == 1, wr := bits e 3 3 == 1, ex := bits e 4 4 == 1
              die := if bits e 9 9 == 1 then some (bits e 13 10) else none, region := region } (bits e 7 6) region ppn

/-- The walk of an ASID from its root entry (26 Table 26-5 TRTBASE). -/
def walk (s : State) (asid va : Nat) : Walk :=
  let e := s.le ((s.reg (pd0 0x108)).toNat / 4096 * 4096 % 2 ^ 52 + 8 * asid) 8
  if asid == 0 || bits e 0 0 == 0 || bits e 15 1 != 0 || bits e 63 56 != 0 then .fault ⟨4, 0, 0⟩
  else walkFrom s asid va 5 (bits e 55 16 * 4096)

def TlbEntry.allows (t : TlbEntry) : Need → Bool
  | .read | .replay => t.rd
  | .write => t.wr
  | .both | .cond => t.rd && t.wr
  | .exec => t.ex

def TlbEntry.covers (t : TlbEntry) (asid va : Nat) : Bool :=
  (t.asid == asid || t.asid == 0) && t.va ≤ va && va < t.va + t.size

/-- The home die of a line: by the hash of its address, or the die that its page's leaf names (20 R286, R287). -/
def homeDie (va : Nat) (t : Option TlbEntry) : Nat :=
  match t with
  | some e => e.die.getD (va / 256 % 384 / 32)
  | none => va / 256 % 384 / 32

/-- The translation unit of a line's home slice (20 R285). -/
def homeUnit (va : Nat) (t : TlbEntry) : Nat := 2 * homeDie va (some t) + va / 256 % 384 % 32 / 16

/-- Translates one access (20 R285, R291): a line held at its home slice whose permissions allow it, or a translation
held by its unit, serves; else the tables are walked. -/
def State.translateAny (s : State) (asid va : Nat) (n : Need) : Except XFault (Nat × TlbEntry) :=
  match (s.l2.find? fun t => t.covers asid va && t.allows n).or
      (s.tlb.find? fun t => t.covers asid va && t.allows n && t.unit == homeUnit va t) with
  | some t => .ok (t.pa + (va - t.va), { t with line := va / 256 })
  | none =>
    match walk s asid va with
    | .fault f => .error f
    | .leaf t own region ppn =>
      if own == 1 || own == 2 then .error ⟨own, region, ppn⟩
      else if !t.allows n then .error ⟨3, region, ppn⟩
      else .ok (t.pa + (va - t.va), { t with line := va / 256, unit := homeUnit va t })

/-- As `translateAny`, for every access but a copy's: peer HBM is not resident (23 R324). -/
def State.translate (s : State) (asid va : Nat) (n : Need) : Except XFault (Nat × TlbEntry) :=
  match s.translateAny asid va n with
  | .ok (pa, t) => if pa / 2 ^ 48 == 0xC then .error ⟨0, t.region, t.pa / 4096⟩ else .ok (pa, t)
  | .error f => .error f

/-- The entry of a unit's TLB that a translation is, and the line of the home slice that it fills. -/
def TlbEntry.page (t : TlbEntry) : TlbEntry := { t with line := 0 }
def TlbEntry.slice (t : TlbEntry) : TlbEntry :=
  { t with va := t.line * 256, size := 256, pa := t.pa + (t.line * 256 - t.va), line := 0 }

/-- A unit holds 8,192 translations; one that is full loses one, freely (20 R285). -/
def roomIn (l : List TlbEntry) (unit k : Nat) : List TlbEntry :=
  let mine := l.filter fun e => e.unit == unit
  if mine.length < 8192 then l
  else match mine[k % 8192]? with
    | some e => l.erase e
    | none => l

/-- Keeps a translation: in its unit's TLB, and as the permissions of the line that its home slice fills (20 R285,
R291). -/
def State.keepTlb (s : State) (t : TlbEntry) : State :=
  let p := t.page
  let l := t.slice
  let u := if p.size ≤ 256 || s.tlb.contains p then s
           else { s with tlb := p :: roomIn s.tlb p.unit (Config.freeChoice s.moves 8192) }
  if u.l2.contains l then u else { u with l2 := l :: u.l2 }

-- Routing (20 R294) and the context entry (26 R352).

def State.ctxEntry (s : State) (asid : Nat) : Nat := (s.reg (pd0 0x110)).toNat / 512 * 512 % 2 ^ 52 + 512 * asid

/-- The pager queue a region of a context maps to. -/
def State.regionQueue (s : State) (asid region : Nat) : Option Nat :=
  let e := s.ctxEntry asid
  let b := s.le (e + region) 1
  if region < 2 || bits b 7 7 == 0 then none
  else if (List.range 112).all (fun i => s.le (e + 400 + i) 1 == 0)
       && (List.range 256).all (fun i => bits (s.le (e + i) 1) 6 6 == 0) then some (bits b 5 0)
  else none

/-- Where a fault goes. -/
inductive Route where
  | pager (q : Nat)
  | growth
  | error (cause : Nat)
  deriving DecidableEq, Repr

/-- Whether a VA is a private one of a launch: below pbase + 2^24·P (20 R294). -/
def Launch.privateVa (l : Launch) (va : Nat) : Bool := l.pbase ≤ va && va < l.pbase + 2 ^ 24 * l.kernel.priv

/-- Where a launch's fault goes (20 R294). -/
def State.route (s : State) (l : Launch) (va : Nat) (f : XFault) : Route :=
  if 3 ≤ f.cause then .error f.cause
  else if f.cause == 0 && l.privateVa va && f.region == 1 then .growth
  else match s.regionQueue l.asid f.region with
    | some q => .pager q
    | none => .error 5

/-- The party of a fault (20 Table 20-4). -/
inductive Party where
  | lane | hart | replay | copy (ch : Nat)
  deriving DecidableEq, Repr

def Party.src : Party → Nat
  | .lane => 0
  | .hart => 1
  | .copy _ => 2
  | .replay => 3

def Party.chan : Party → Nat
  | .copy ch => ch
  | _ => 0

/-- A wake token (20 Table 20-4) of a group slot's party. -/
def tokenOf (k : Nat) (p : Party) (ticket : W32) : Nat :=
  k / 16 + 2 ^ 11 * (k % 16) + 2 ^ 15 * p.chan + 2 ^ 18 * p.src + 2 ^ 20 * ticket.toNat

/-- The log of a ring's entries, 4 to 12, of a queue's field; others are taken as the nearest of these (log 13). -/
def ringLog (v : Nat) : Nat := Nat.max 4 (Nat.min 12 v)

/-- A fault record (20 Table 20-3). -/
def faultRecord (seq va asid acc cause region token hint tide : Nat) : List Byte :=
  leBytes 64 (seq + 2 ^ 64 * (va % 2 ^ 57) + 2 ^ 128 * asid + 2 ^ 144 * acc + 2 ^ 147 * cause + 2 ^ 152 * region
    + 2 ^ 192 * token + 2 ^ 256 * (hint % 2 ^ 40) + 2 ^ 320 * tide)

/-- Writes a record into a pager queue's ring, or keeps it waiting while the ring is full (20 R295). -/
def State.pushPager (s : State) (p q : Nat) (rec_ : Nat → List Byte) : State :=
  let pt := s.part p
  let pq := Map.get {} pt.pqs q
  let r := rec_ pq.seq.toNat
  let full := 2 ^ pq.log2 ≤ (pq.tail - pq.head).toNat
  let pq := { pq with seq := pq.seq + 1 }
  if full || !pq.waiting.isEmpty then
    s.setPart p { pt with pqs := pt.pqs.set q { pq with waiting := pq.waiting ++ [r] } }
  else
    let s := s.homeWrite (pq.base + 64 * (pq.tail.toNat % 2 ^ pq.log2)) r
    s.setPart p { pt with pqs := pt.pqs.set q { pq with tail := pq.tail + 1 } }

/-- Writes a record to the queue a route names. -/
def State.pushRecord (s : State) (p asid : Nat) (r : Route) (rec_ : Nat → List Byte) : State :=
  match r with
  | .pager q => s.pushPager p q rec_
  | .growth =>
    let pt := s.part p
    let g := pt.growth
    s.setPart p { pt with growth := { seq := g.seq + 1, records := g.records ++ [rec_ g.seq.toNat] } }
  | .error _ =>
    let e := Map.get {} s.errors asid
    { s with errors := s.errors.set asid { seq := e.seq + 1, records := e.records ++ [rec_ e.seq.toNat] } }

/-- A stream's fault (20 R295, R296; 21 R301): to a pager it raises the wake counter, writes the record and holds the
stream; to the error queue it sets fla or flc and ecq. -/
def State.streamFault (s : State) (k : Nat) (party : Party) (va : Nat) (n : Need) (f : XFault) : State :=
  let g := s.grpAt k
  let l := s.launchAt (s.blkAt g.blk).launch
  let r := s.route l va f
  let hart := party == .hart
  let rec_ := fun (t : W32) cause seq =>
    faultRecord seq va l.asid n.acc cause f.region (tokenOf k party t) f.hint s.tide.toNat
  match r with
  | .error cause =>
    let s := s.pushRecord l.part l.asid r (rec_ (if hart then g.wakeA else g.wakeC) cause)
    let m := g.mondb
    s.setGrpAt k { g with mondb := { m with fla := m.fla || hart, flc := m.flc || !hart, ecq := cause } }
  | _ =>
    let t := (if hart then g.wakeA else g.wakeC) + 1
    let s := s.pushRecord l.part l.asid r (rec_ t f.cause)
    s.setGrpAt k (if hart then { g with wakeA := t, holdA := true }
                  else { g with wakeC := t, holdC := some (party == .replay) })

/-- A cause-6 fault (20 R294): its record's va holds the address's low bits and its hint the tag. -/
def noMapping (addr : W64) : XFault := ⟨6, 0, addr.toNat / 2 ^ 56⟩

end Sys2Proof.Machine
end

