-- ==== Sys2Proof/Machine/Access.lean ====
section
/-! DEFINITION. Generic addresses, homes, and the accesses made there: loads, stores, the lane L1, hart dirty sectors,
poison, posted writes (09 R148-R156, R165, R166; 10 R187; 13 R227, R228; 28 R362). -/
namespace Sys2Proof.Machine

-- Keys of the one memory: physical addresses first, then each block's and vault's own bytes.

def scratchKey (blk off : Nat) : Nat := 2 ^ 52 + blk * 2 ^ 18 + off
def tileKey (blk off : Nat) : Nat := 2 ^ 53 + blk * 2 ^ 18 + off
def wbufKey (blk off : Nat) : Nat := 2 ^ 54 + blk * 2 ^ 18 + off
def vaultKey (v off : Nat) : Nat := 2 ^ 55 + v * 2 ^ 24 + off
/-- Scratch of a peer device's core (25 Table 25-5 kind 4). -/
def peerKey (dev core slot off : Nat) : Nat := 2 ^ 56 + ((dev * 2048 + core) * 16 + slot) * 2 ^ 40 + off

/-- The place a generic address names (09 Table 9-1). -/
inductive Place where
  /-- A global VA; `priv` for one converted from a private address. -/
  | global (va : Nat) (priv : Bool)
  /-- The issuing block's scratch. -/
  | scratch (off : Nat)
  /-- Another block's scratch, through a handle of kind 1 or 4. -/
  | fabric (handle off : Nat)
  | vault (v off : Nat)
  /-- The issuing core's register block. -/
  | block (off : Nat)
  deriving DecidableEq, Repr

/-- Why an address names no place (09 R148). -/
inductive AddrError where
  | space | noMap
  deriving DecidableEq, Repr

-- Handle entries (25 Table 25-5).

def handleKind (e : W64) : Nat := if e.getLsbD 0 then bits e.toNat 3 1 else 0
def handleCore (e : W64) : Nat := 48 * bits e.toNat 14 10 + bits e.toNat 20 15
def handleSlot (e : W64) : Nat := bits e.toNat 24 21
def handleBlock (e : W64) : Nat := handleCore e * 16 + handleSlot e
def Block.handle (b : Block) (h : Nat) : W64 := Map.get 0 b.handles h

/-- The vault above a core (01 R16), as die times 64 plus vault. -/
def vaultOfCore (c : Nat) : Nat :=
  let row := c / 48
  let col := c % 48
  (3 * (row / 8) + col / 16) * 64 + 8 * (row % 8) + col % 16 / 2

/-- Whether a vault is granted to a context (25 R332). -/
def State.vaultGranted (s : State) (asid v : Nat) : Bool :=
  (Map.get 0 s.vaultMask (asid * 16 + v / 64)).getLsbD (v % 64)

/-- Resolves a generic address of a group (09 R148, R149), for a lane access or a hart access in U- or M-mode. A non-zero
must-be-zero bit of tags 0xF1, 0xF2 and 0xF3, for which Table 9-1 gives no fate, is an address fault (log 39). -/
def State.place (s : State) (k : Nat) (mmode : Bool) (addr : W64) : Except AddrError Place :=
  let a := addr.toNat
  let b := s.blkAt (s.grpAt k).blk
  let l := s.launchAt b.launch
  match a / 2 ^ 56 with
  | 0x00 => .ok (.global a false)
  | 0xF0 => if bits a 55 0 < b.scratch then .ok (.scratch (bits a 55 0)) else .error .space
  | 0xF1 =>
    let h := bits a 47 40
    let kind := handleKind (b.handle h)
    if bits a 55 48 != 0 then .error .space
    else if kind == 1 || kind == 4 then .ok (.fabric h (bits a 39 0)) else .error .noMap
  | 0xF2 =>
    let die := bits a 47 44
    let v := die * 64 + bits a 43 38
    if bits a 55 48 != 0 || bits a 37 24 != 0 || 12 ≤ die then .error .space
    else if s.vaultGranted l.asid v then .ok (.vault v (bits a 23 0)) else .error .noMap
  | 0xF3 =>
    let id := bits a 47 24
    if bits a 55 48 != 0 then .error .space
    else if l.gx * l.gy * l.gz * b.groups * 64 ≤ id then .error .noMap
    else if l.kernel.priv ≤ bits a 23 0 then .error .space
    else .ok (.global ((l.pbase + id * l.kernel.priv + bits a 23 0) % 2 ^ 57) true)
  | 0xFE => if mmode && bits a 55 16 == 0 then .ok (.block (bits a 15 0)) else .error .space
  | _ => .error .space

/-- The address with the tag that a space modifier selects (09 R150). -/
def spaceTag (sp : Space) (addr : W64) : W64 :=
  let low := addr &&& 0x00FFFFFFFFFFFFFF
  match sp with
  | .generic => addr
  | .scratch => low ||| 0xF000000000000000
  | .vault => low ||| 0xF200000000000000
  | .fabric => low ||| 0xF100000000000000

/-- Why a distant home refuses (10 Table 10-8): 0 handle revoked, 1 out of window, 2 uncorrectable error. -/
inductive Target where
  | at (key : Nat)
  | refused (why : Nat)
  deriving DecidableEq, Repr

/-- The destination number of a peer device's core: peers stand outside the module (23 R325). -/
def peerTarget (e : W64) : Nat := 2 ^ 16 + bits e.toNat 9 4 * 2048 + handleCore e
def isPeer (e : W64) : Bool := handleKind e == 4 || handleKind e == 5
def handleTarget (e : W64) : Nat := if isPeer e then peerTarget e else handleCore e

/-- The coordinates of a block in its launch's grid, from its linear index (01 R10). -/
def Launch.coords (l : Launch) (lin : Nat) : Nat × Nat × Nat := (lin % l.gx, lin / l.gx % l.gy, lin / l.gx / l.gy)

/-- The cluster of a block of a launch (01 R12). -/
def Launch.cluster (l : Launch) (lin : Nat) : Nat × Nat × Nat :=
  let p := l.coords lin
  (p.1 / l.cx, p.2.1 / l.cy, p.2.2)

/-- Whether two blocks are of one cluster: a handle of kind 1, 2 or 3 names a block of its holder's cluster, and is
revoked when that block retires (13 R243). -/
def State.sameCluster (s : State) (a b : Block) : Bool :=
  let l := s.launchAt a.launch
  a.launch == b.launch && l.cluster a.lin == l.cluster b.lin

/-- A peer's answer to an access at an offset is an input (log 1): it may refuse the offsets from one on, for any of the
three reasons. -/
def State.peerRefuses (s : State) (off : Nat) : Option Nat :=
  if s.input.flag2 && s.input.val.toNat ≤ off then some (s.input.req.toNat % 3) else none

/-- The home of a fabric place of the block `own` (16 Table 16-2): the named block's scratch while it is resident, or a
peer's (23 R325). -/
def State.fabricHome (s : State) (own : Block) (e : W64) (off n : Nat) : Target :=
  if handleKind e == 4 then match s.peerRefuses (off + n) with
    | some why => .refused why
    | none => .at (peerKey (bits e.toNat 9 4) (handleCore e) (handleSlot e) off)
  else match s.blocks.find (handleBlock e) with
    | none => .refused 0
    | some b => if !s.sameCluster own b then .refused 0 else if off + n ≤ b.scratch then .at (scratchKey (handleBlock e) off) else .refused 1

/-- Whether a posted store goes there (09 R156): fabric, or a vault of another die than the group's. -/
def Place.posted (p : Place) (core : Nat) : Bool :=
  match p with
  | .fabric _ _ => true
  | .vault v _ => v / 64 != dieOfCore core
  | _ => false

/-- Whether a place's home keeps its accesses in arrival order, with no cache before it (13 R234). -/
def Place.isUncached (p : Place) : Bool :=
  match p with
  | .scratch _ | .vault _ _ | .fabric _ _ => true
  | _ => false

/-- Whether a key lies in the host memory of a fenced port (23 R322). -/
def State.fencedKey (s : State) (key : Nat) : Bool := s.host.fenced.any fun p => key / 2 ^ 48 == 8 + p

/-- Whether any byte of a range is poisoned (28 R362), or lies behind a fence (23 R322). -/
def State.poisoned (s : State) (key n : Nat) : Bool :=
  s.fencedKey key || s.poison.any fun u => u < key + n && key < u + unitSize u

def State.bytes (s : State) (key n : Nat) : List Byte := Memory.bytes s.mem key n

-- Host memory and lines that hosts hold (23 R318, R319; 24 R327, R328).

/-- The port whose host memory a key lies in. -/
def hostPortOf (key : Nat) : Option Nat := if key / 2 ^ 49 == 4 then some (key / 2 ^ 48 - 8) else none

/-- The 64-byte lines of a byte range. -/
def linesOf (key n : Nat) : List Nat := (List.range ((key % 64 + n + 63) / 64)).map fun i => key / 64 + i

/-- Whether a port runs CXL.cache. -/
def State.cxlPort (s : State) (p : Nat) : Bool :=
  match (Map.get {} s.host.links (8 * p)).mode with
  | .cxl31 | .cxl20 => true
  | _ => false

/-- Whether a key lies in a host-biased page of HDM, whose accesses go to the host's copy (23 R319). -/
def State.hostBiased (s : State) (key : Nat) : Bool :=
  key < hbmSize && s.host.biased.contains (key / 4096)
    && s.host.links.any fun l => l.1 % 8 == 0 && l.2.mode == .cxl20

/-- Whether a key is host memory reached through CXL.cache, on a port that is not fenced, or of a host-biased page. -/
def State.cachedHost (s : State) (key : Nat) : Bool :=
  match hostPortOf key with
  | some p => s.cxlPort p && !s.host.fenced.contains p
  | none => s.hostBiased key

/-- The partition and the pager queue whose notice port page a key lies in (20 R296). -/
def State.noticePort (s : State) (key : Nat) : Option (Nat × Nat) :=
  s.parts.findSome? fun p =>
    (p.2.pqs.find? fun q => q.2.notice != 0 && q.2.notice.toNat / 4096 == key / 4096).map fun q => (p.1, q.1)

/-- Whether a hart data cache may hold the sector of a key: not of host memory in a PCIe mode (23 R316), nor of the
fabric memory pool (23 R324), nor of a notice port. -/
def State.hartMayCache (s : State) (key : Nat) : Bool :=
  match hostPortOf key with
  | some _ => s.cachedHost key
  | none => key / 2 ^ 48 != 0xA && (s.noticePort key).isNone

/-- Whether the lane L1 may: not of host memory in a PCIe mode. -/
def State.l1MayCache (s : State) (key : Nat) : Bool :=
  match hostPortOf key with
  | some _ => s.cachedHost key
  | none => true

/-- The lines that a fill of an access's sectors asks for: both lines of a sector (23 R318). -/
def sectorLines (key n : Nat) : List Nat := linesOf (key / 128 * 128) (key % 128 + n + 127 - (key % 128 + n + 127) % 128)

/-- The state of host lines after an access of the device (23 Table 23-3): a write takes a line to M, a read takes one
that it finds invalid to S. -/
def State.hostTouch (s : State) (key n : Nat) (write : Bool) : State :=
  if !s.cachedHost key then s
  else
    let own := linesOf key n
    { s with host := { s.host with lines := (sectorLines key n).foldl (fun m l =>
        if write && own.contains l then m.set l .m else if Map.get .i m l == .i then m.set l .s else m) s.host.lines } }

/-- Whether an access must wait for a line: a line of its sectors of host memory that the device does not hold in a state
for it, for which RdShared or RdOwn goes out (23 R318), or a line of HDM that a host caches, written here, or holds in M,
for which a back-invalidation snoop goes out (R319). The line, and whether it is wanted for a write. -/
def State.lineWait (s : State) (key n : Nat) (write : Bool) : Option (Nat × Bool) :=
  if s.host.filter.isEmpty && s.host.links.isEmpty then none
  else
    let own := fun l => write && (linesOf key n).contains l
    let bad := (if s.cachedHost key then sectorLines key n else linesOf key n).find? fun l =>
      if s.cachedHost key then
        match Map.get .i s.host.lines l with
        | .m | .e => false
        | .s => own l
        | .i => true
      else if 2 ^ 52 ≤ key then false
      else match s.host.filter.find l with
        | some (_, st) => write || st == .m
        | none => false
    bad.map fun l => (l, own l)

/-- A party without a wait of its own asks for a line (23 R318, R319). -/
def State.askLine (s : State) (x : Nat × Bool) : State :=
  { s with host := { s.host with asked := if s.host.asked.contains x then s.host.asked else s.host.asked ++ [x] } }

/-- The lines of a sector of host memory leave the device: DirtyEvict for those in M, which the core waits for, and
CleanEvict for the others (24 R328). -/
def State.hostEvict (s : State) (core key : Nat) : State :=
  if !s.cachedHost key then s
  else
    let ls := [key / 128 * 2, key / 128 * 2 + 1]
    let m := ls.filter fun l => Map.get .i s.host.lines l == .m
    { s with host := { s.host with lines := (s.host.lines.erase (ls.getD 0 0)).erase (ls.getD 1 0)
                                   evicts := s.host.evicts ++ m.map fun l => (core, l) } }

/-- Whether an eviction of a core is without its GO_WritePull. -/
def State.evicting (s : State) (core : Nat) : Bool := s.host.evicts.any fun e => e.1 == core

/-- Whether any eviction is: a line that one core's release evicted may hold another's bytes (13 R244). -/
def State.evictingAny (s : State) : Bool := !s.host.evicts.isEmpty

/-- Whether the device holds host memory in M. -/
def State.modifiedHost (s : State) : Bool := s.host.lines.any fun l => l.2 == .m && s.cachedHost (64 * l.1)

/-- Evicts every sector of host memory with a line in M, for a release at system scope (13 R244; 24 R328). -/
def State.evictModified (s : State) (core : Nat) : State :=
  (s.host.lines.filter fun l => l.2 == .m).foldl (fun t l => t.hostEvict core (64 * l.1)) s

-- Hart dirty sectors (09 R166; 13 R227).

def State.dirtyOf (s : State) (asid va : Nat) : Option DirtySector :=
  s.dirty.find? fun d => (d.asid == asid || d.glob) && d.va == va / 128 * 128

/-- Writes a dirty sector to its home and drops it from the cache; `none` where its page is no longer writable. -/
def State.writeBack (s : State) (d : DirtySector) : Except XFault State :=
  match s.translate d.asid d.va .write with
  | .error f => .error f
  | .ok (pa, t) =>
    .ok ((s.keepTlb t).sectorHome d pa)

/-- A write-back out of the caches: a sector of host memory is evicted. -/
def State.evictSector (s : State) (d : DirtySector) : Except XFault State :=
  match s.translate d.asid d.va .write, s.writeBack d with
  | .ok (pa, _), .ok t => .ok (t.hostEvict d.core pa)
  | .error f, _ | _, .error f => .error f

/-- Writes back every sector of a list, in order; stops at the first refused one. -/
def State.writeBackAll (s : State) (l : List DirtySector) : Except (XFault × DirtySector) State :=
  match l with
  | [] => .ok s
  | d :: rest =>
    match s.evictSector d with
    | .error f => .error (f, d)
    | .ok t => t.writeBackAll rest

/-- A write performed at a home of global space first takes the dirty copies of its sector with it (13 R227). -/
def State.flushSector (s : State) (asid va : Nat) : State :=
  match s.dirtyOf asid va with
  | none => s
  | some d => s.flushHome d.pa

-- Metering (27 R353, R354, R357, R358).


/-- With metering off since the last refill (R360), or the block stopping, no request is metered. -/
def State.meterOff (s : State) : Bool :=
  !(s.part (s.partOfCore s.coreNo)).metering || s.grp.mondb.pre

/-- Whether a request for an address is answered with a redirect where the core's network interface keeps none: the
page's leaf names another die than the hash (20 R287; 27 R353). -/
def redirected (va : Nat) (t : Option TlbEntry) : Bool := homeDie va t != homeDie va none

/-- Requests of the acting group's core to global sectors reach its port: each costs one token of its group, and is held
until BREAKWATER_PASS. A request that meets a redirect costs one at the hash home and one at the affine die. -/
def State.meter (s : State) (src va n : Nat) (t : Option TlbEntry) : State :=
  let p := s.partOfCore s.coreNo
  if s.meterOff then s
  else
    let c := s.core
    let known := c.redirects.contains (s.asid, va / 4096)
    let new := (List.range ((va % 128 + n + 127) / 128)).flatMap fun i =>
      let a := va + 128 * i
      (if redirected a t && !known then [(⟨src, homeDie a none⟩ : Metered)] else []) ++ [⟨src, homeDie a t⟩]
    let pt := s.part p
    let want := (new.filter fun r => Map.get 0 c.buckets r.die ≤ (c.heldPort.filter fun h => h.die == r.die).length).map
      fun r => (s.asid, r.die)
    (s.setCore { c with heldPort := c.heldPort ++ new
                        redirects := if redirected va t && !known then ((s.asid, va / 4096) :: c.redirects).take 256
                                     else c.redirects
                        heldSince := if c.heldPort.isEmpty then s.cycles else c.heldSince }).setPart p
      { pt with demand := (pt.demand ++ want).eraseDups }

/-- As `meter`, with the leaf that the tables give for the address. -/
def State.meterVa (s : State) (src va n : Nat) : State :=
  s.meter src va n (match s.translateAny s.asid va .read with
    | .ok (_, t) => some t
    | .error _ => none)

/-- As `meter`, where the access is global. -/
def State.meterAt (s : State) (src : Nat) (va : Option Nat) (n : Nat) (t : Option TlbEntry) : State :=
  match va with
  | some v => s.meter src v n t
  | none => s

/-- The requests held at a core's port pass without tokens (27 R358, R360). -/
def State.letThrough (s : State) (core : Nat) : State :=
  let c := s.coreAt core
  if c.heldPort.isEmpty then s
  else s.setCoreAt core { c with heldPort := [], bwSent := c.bwSent + BitVec.ofNat 64 c.heldPort.length
                                 bwHeld := c.bwHeld + BitVec.ofNat 64 (s.cycles - c.heldSince) }

/-- Whether a source of the acting group's core has a request held at the port. -/
def State.portHeld (s : State) (src : Nat) : Bool := s.core.heldPort.any fun h => h.src == src

-- The lane L1 (09 R151; 13 R228).

def Core.l1Sector (c : Core) (asid va : Nat) : Option L1Sector :=
  c.l1.find? fun x => (x.asid == asid || x.glob) && x.va == va / 128 * 128

/-- Drops one sector. -/
def State.l1Drop (s : State) (core asid va : Nat) : State :=
  let c := s.coreAt core
  if (c.l1Sector asid va).isNone then s
  else s.setCoreAt core { c with l1 := c.l1.filter fun x => !((x.asid == asid || x.glob) && x.va == va / 128 * 128) }

/-- Drops every sector (09 R157, R162, R163). -/
def State.l1Clear (s : State) (core : Nat) : State :=
  let c := s.coreAt core
  if c.l1.isEmpty then s else s.setCoreAt core { c with l1 := [] }

/-- Fills a sector from its home, where the L1 may hold it. -/
def State.l1Fill (s : State) (core asid va pa : Nat) (glob : Bool) : State :=
  let c := s.coreAt core
  if (c.l1Sector asid va).isSome || !s.l1MayCache pa then s
  else s.setCoreAt core
    { c with l1 := ⟨asid, va / 128 * 128, glob, s.worldBytes asid (pa - va % 128) 128, pa - va % 128⟩ :: c.l1 }

/-- A lane store of the core updates a sector the L1 holds. -/
def State.l1Update (s : State) (core asid va : Nat) (l : List Byte) : State :=
  let c := s.coreAt core
  match c.l1Sector asid va with
  | none => s
  | some x =>
    let y := (List.range 128).map fun i =>
      if va % 128 ≤ i && i < va % 128 + l.length then l.getD (i - va % 128) 0 else x.bytes.getD i 0
    s.setCoreAt core { c with l1 := c.l1.map fun z => if z == x then { x with bytes := y } else z }

-- The packet flows of the memory cipher (25 R337, R338).

/-- The port of a core's cluster patch, and the flow id of a packet between two ports under a key slot. -/
def patchPort (c : Nat) : Nat := 16 * dieOfCore c + 4 * (c / 48 % 8 / 2) + c % 48 % 16 / 4
def flowId (src dst slot cls : Nat) : Nat := src + 2 ^ 12 * dst + 2 ^ 24 * slot + 2 ^ 30 * cls

/-- The port that serves a place for a core: a memory slice's, a vault's, or another patch's; none where no packet passes
a port. -/
def State.portOf (s : State) (k : Nat) (p : Place) (t : Option TlbEntry) : Option Nat :=
  match p with
  | .global va _ => some (256 + 32 * homeDie va t + va / 256 % 384 % 32)
  | .vault v _ => some (640 + v)
  | .fabric h _ =>
    let e := (s.blkAt (s.grpAt k).blk).handle h
    if isPeer e || patchPort (handleCore e) == patchPort (k / 16) then none else some (patchPort (handleCore e))
  | _ => none

/-- The world of a group, with its key slot while it is active. -/
def State.worldOf (s : State) (k : Nat) : Option (Nat × Nat) :=
  match s.sec.contexts.find (s.launchAt (s.blkAt (s.grpAt k).blk).launch).asid with
  | none => none
  | some w => match s.sec.worlds.find w with
    | some x => x.slot.map fun n => (w, n)
    | none => none

/-- The port that accepts no packet of an access between a group's core and the port `dst`: the far one, or for answers
the core's own; and the world of the flow. -/
def State.refusingPort (s : State) (k dst : Nat) : Option (Nat × Nat) :=
  if s.sec.flows.isEmpty then none
  else match s.worldOf k with
    | none => none
    | some (w, n) =>
      let src := patchPort (k / 16)
      if s.sec.flows.contains (flowId src dst n 0) then some (dst, w)
      else if s.sec.flows.contains (flowId dst src n 1) then some (src, w) else none

/-- Whether a group's packets to a place are refused (R338). -/
def State.flowRefuses (s : State) (k : Nat) (p : Place) (t : Option TlbEntry) : Bool :=
  match s.portOf k p t with
  | some dst => (s.refusingPort k dst).isSome
  | none => false

/-- Counts a refused packet at the port and for the world (R338). -/
def State.countPacket (s : State) (k dst : Nat) : State :=
  match s.refusingPort k dst with
  | none => s
  | some (port, w) =>
    { s with sec := { s.sec with portErr := s.sec.portErr.set port (Map.get 0 s.sec.portErr port + 1)
                                 worldErr := s.sec.worldErr.set w (Map.get 0 s.sec.worldErr w + 1) } }

/-- Counts the packet of a group's access to an address, where it is refused. -/
def State.countAccess (s : State) (k : Nat) (addr : W64) (n : Need) : State :=
  if s.sec.flows.isEmpty then s
  else match s.place k false addr with
    | .error _ => s
    | .ok p =>
      let t := match p with
        | .global va _ => (s.translateAny (s.launchAt (s.blkAt (s.grpAt k).blk).launch).asid va n).toOption.map fun x => x.2
        | _ => none
      match s.portOf k p t with
      | some dst => s.countPacket k dst
      | none => s

/-- Where an access is performed, with the fate of its checks. -/
inductive Reach where
  | ok (key : Nat) (tlb : Option TlbEntry)
  | xlate (va : Nat) (f : XFault)
  | space
  | refused (why : Nat)
  deriving DecidableEq, Repr

/-- Steps 2 and 3 of 09 R153 for one access of `n` bytes: the address, then its translation; an access whose packet is
refused meets uncorrectable data (25 R338). -/
def State.reach (s : State) (k : Nat) (mmode : Bool) (addr : W64) (n : Nat) (need : Need) : Reach :=
  let b := s.blkAt (s.grpAt k).blk
  let l := s.launchAt b.launch
  match s.place k mmode addr with
  | .error .space => .space
  | .error .noMap => .xlate (addr.toNat % 2 ^ 57) (noMapping addr)
  | .ok (.global va _) =>
    match s.translate l.asid va need with
    | .ok (pa, t) => if s.flowRefuses k (.global va false) (some t) then .refused 2 else .ok pa (some t)
    | .error f => .xlate va f
  | .ok (.scratch off) => if off + n ≤ b.scratch then .ok (scratchKey (s.grpAt k).blk off) none else .space
  | .ok (.vault v off) => if s.flowRefuses k (.vault v off) none then .refused 2 else .ok (vaultKey v off) none
  | .ok (.fabric h off) =>
    match s.fabricHome b (b.handle h) off n with
    | .at key => if s.flowRefuses k (.fabric h off) none then .refused 2 else .ok key none
    | .refused why => .refused why
  | .ok (.block _) => .space

/-- The block whose scratch a key lies in, with the offset. -/
def scratchOf (key : Nat) : Option (Nat × Nat) :=
  if 2 ^ 52 ≤ key && key < 2 ^ 53 then some ((key - 2 ^ 52) / 2 ^ 18, (key - 2 ^ 52) % 2 ^ 18) else none


/-- An 8-byte store performed in a notice port page is a notice, which its queue takes (R296; log 13). -/
def State.portStore (s : State) (key : Nat) (l : List Byte) : State :=
  if 2 ^ 52 ≤ key || l.length != 8 then s
  else match s.noticePort key with
    | none => s
    | some (p, q) =>
      let pt := s.part p
      let pq := Map.get {} pt.pqs q
      s.setPart p { pt with pqs := pt.pqs.set q { pq with held := pq.held ++ [BitVec.ofNat 64 (leNat l)] } }

/-- A write performed at a home: the bytes, the reservations it ends, the tables it makes stale (02 R51). -/
def State.performStore (s : State) (key : Nat) (l : List Byte) : State :=
  let s := ((s.homeWrite key l).hostTouch key l.length true).portStore key l
  match scratchOf key with
  | some (blk, off) => s.touchScratch blk off l.length
  | none => s

/-- A write performed at a home for a context, under its world's key (25 R339). -/
def State.writeAs (s : State) (asid key : Nat) (l : List Byte) : State :=
  (s.underKey asid (sectorsOf key l.length)).performStore key l

/-- Single bytes written at their homes in one request: as `performStore`, and any dirty copy of a sector goes first. -/
def State.performCells (s : State) (cells : List (Nat × Byte)) : State :=
  let t := (((cells.map fun c => c.1 / 128 * 128).eraseDups).foldl State.flushHome s).storeCells cells
  cells.foldl (fun t c =>
    let u := (t.breakResv c.1 1).hostTouch c.1 1 true
    match scratchOf c.1 with
    | some (blk, off) => u.touchScratch blk off 1
    | none => u) t

/-- The VA of a generic address where its place is global. -/
def State.globalVa (s : State) (k : Nat) (addr : W64) : Option Nat :=
  match s.place k false addr with
  | .ok (.global va _) => some va
  | _ => none

-- The journal (02 R40; 10 R187).

/-- A new entry in the journal of the acting group; the caller has seen that it fits. -/
def Group.journalAdd (g : Group) (e : JEntry) : Group :=
  { g with journal := g.journal.set g.jnext { e with held := true, seq := g.jseq, state := 0 }, jseq := g.jseq + 1 }

/-- The slot a new entry would take, and the message that carries its writes. -/
def State.post (s : State) (e : JEntry) (dst : Nat) (body : Nat → MsgBody) : State :=
  let g := s.grp
  let slot := g.jnext
  { s.setGrp (g.journalAdd e) with net := s.net ++ [⟨s.cur, dst, body slot⟩] }

end Sys2Proof.Machine
end

