-- ==== Sys2Proof/Machine/LaneInt.lean ====
section
/-! DEFINITION. Lane integer, logic, move and predication (06 R111-R124). Every meaning is one line over the shared
course of a lane instruction and a value function. -/
namespace Sys2Proof.Machine

/-- A register source of the type's width. -/
def srcOf (t : Ty) (c : Code) : Src := ⟨c, t.wide⟩
/-- A 32-bit register source. -/
def src32 (c : Code) : Src := ⟨c, false⟩
/-- A 64-bit register source. -/
def src64 (c : Code) : Src := ⟨c, true⟩

/-- An immediate extended by the type's signedness and taken modulo its width (04 R80; 06 R112). -/
def immOf (t : Ty) (imm : Half) : W64 := if t.signed then imm.signExtend 64 else imm.setWidth 64

/-- A value of the type read from an operand (06 R112). -/
def intArg (t : Ty) (v : W64) : Int := t.readInt v.toNat

/-- A result of the type as the operand's bits. -/
def intResult (t : Ty) (sat : Bool) (v : Int) : W64 := BitVec.ofNat 64 (t.writeInt sat v)

/-- An integer operation of two operands, register form. -/
def laneInt2 (s : State) (len : Nat) (t : Ty) (sat : Bool) (d a b : Code) (f : Int → Int → Int) : Out :=
  laneAlu s len t.wide d [srcOf t a, srcOf t b] fun v _ => intResult t sat (f (intArg t (v 0)) (intArg t (v 1)))

/-- An integer operation of an operand and an immediate. -/
def laneIntImm (s : State) (t : Ty) (sat : Bool) (d a : Code) (imm : Half) (f : Int → Int → Int) : Out :=
  laneAlu s 8 t.wide d [srcOf t a] fun v _ => intResult t sat (f (intArg t (v 0)) (intArg t (immOf t imm)))

/-- The high half of the product (R114). -/
def mulHigh (t : Ty) (a b : Int) : Int := a * b / 2 ^ t.intWidth

/-- Division toward zero and its two fixed cases (R116). -/
def divInt (t : Ty) (a b : Int) : Int :=
  if b == 0 then -1 else if t.signed && a == -(2 ^ (t.intWidth - 1)) && b == -1 then a else a.tdiv b

def remInt (t : Ty) (a b : Int) : Int :=
  if b == 0 then a else if t.signed && a == -(2 ^ (t.intWidth - 1)) && b == -1 then 0 else a.tmod b

def minInt (a b : Int) : Int := if b < a then b else a
def maxInt (a b : Int) : Int := if a < b then b else a

/-- The low `w` bits of an operand. -/
def lowBits (w : Nat) (v : W64) : Nat := v.toNat % 2 ^ w

/-- Shifts (R118): a count at or beyond the width gives 0, or copies of the sign for `sra`. -/
def shiftLeft (w a s : Nat) : Nat := if w ≤ s then 0 else a * 2 ^ s % 2 ^ w
def shiftRight (w a s : Nat) : Nat := if w ≤ s then 0 else a / 2 ^ s
def shiftArith (w a s : Nat) : Nat :=
  (signedOf w a / 2 ^ (if w ≤ s then w - 1 else s) % (2 ^ w : Int)).toNat
def rotateLeft (w a s : Nat) : Nat := (a * 2 ^ (s % w) + a / 2 ^ (w - s % w)) % 2 ^ w

/-- A shift or rotation by a register count, 32-bit unsigned whatever the type (R113). -/
def laneShift (s : State) (len : Nat) (t : Ty) (d a b : Code) (f : Nat → Nat → Nat → Nat) : Out :=
  laneAlu s len t.wide d [srcOf t a, src32 b] fun v _ =>
    BitVec.ofNat 64 (f t.intWidth (lowBits t.intWidth (v 0)) (lowBits 32 (v 1)))

def laneShiftImm (s : State) (t : Ty) (d a : Code) (sh : BitVec 6) (f : Nat → Nat → Nat → Nat) : Out :=
  laneAlu s 8 t.wide d [srcOf t a] fun v _ => BitVec.ofNat 64 (f t.intWidth (lowBits t.intWidth (v 0)) sh.toNat)

/-- A bitwise operation. The operands of a 32-bit type have zero high halves and the result's are dropped. -/
def laneLogic (s : State) (len : Nat) (t : Ty) (d a b : Code) (f : W64 → W64 → W64) : Out :=
  laneAlu s len t.wide d [srcOf t a, srcOf t b] fun v _ => f (v 0) (v 1)

def laneLogicImm (s : State) (t : Ty) (d a : Code) (imm : Half) (f : W64 → W64 → W64) : Out :=
  laneAlu s 8 t.wide d [srcOf t a] fun v _ => f (v 0) (immOf t imm)

/-- The length of a bit field that lies in the operand (R120). -/
def fieldLen (w p n : Nat) : Nat := if w ≤ p || n == 0 then 0 else if n < w - p then n else w - p

/-- `bfx` (R120). -/
def bitExtract (t : Ty) (a p n : Nat) : W64 :=
  let l := fieldLen t.intWidth p n
  if l == 0 then 0
  else
    let f := a / 2 ^ p % 2 ^ l
    if t.signed then BitVec.ofInt 64 (signedOf l f) else BitVec.ofNat 64 f

/-- `bfi` (R120): bits [p+L-1:p] of the base replaced by the low bits of `a`. -/
def bitInsert (t : Ty) (base a p n : Nat) : W64 :=
  let l := fieldLen t.intWidth p n
  if l == 0 then BitVec.ofNat 64 base
  else BitVec.ofNat 64 (base - base / 2 ^ p % 2 ^ l * 2 ^ p + a % 2 ^ l * 2 ^ p)

/-- The form of `bfi`: the destination is a source as well, so stq may not stand there (R120). -/
def insertForm (t : Ty) (d : Code) (srcs : List Src) : LaneForm :=
  { laneForm 8 t.wide d srcs with ok := fun g => g.dstOk t.wide d && d.toNat != 116 }

/-- The value `bfi` inserts into: the old destination, 0 for code 119. -/
def Group.oldDest (g : Group) (wide : Bool) (d : Code) (i : Nat) : Nat :=
  if d.toNat < 112 then (g.window wide d.toNat i).toNat else 0

/-- A comparison (R121). -/
def condHolds (k : Cond) (a b : Int) : Bool :=
  match k with
  | .eq => a == b
  | .ne => a != b
  | .lt => a < b
  | .le => a ≤ b
  | .gt => b < a
  | .ge => b ≤ a

/-- An instruction with a mask destination: 0 in the lanes that are not active (R111). -/
def laneCompare (s : State) (d : Code) (srcs : List Src) (f : (Nat → W64) → Bool) : Out :=
  laneRun s { len := 8, srcs := srcs, ok := fun _ => maskOk d } (fun _ => .pass) fun vs act t =>
    t.writeMask d (act &&& maskOf fun i => f fun k => argAt vs k i)

/-- `addc` and `subb` (R115): the carry mask c is read and written in active lanes; em may not stand there. -/
def laneCarry (s : State) (d a b c : Code) (f : Nat → Nat → Nat → Nat × Bool) : Out :=
  laneRun s { laneForm 8 false d [src32 a, src32 b] with ok := fun g => g.dstOk false d && c.toNat ≤ 15 }
    (fun _ => .pass) fun vs act t =>
      let m := s.grp.mask c
      let r := fun i => f (lowBits 32 (argAt vs 0 i)) (lowBits 32 (argAt vs 1 i)) (if m.getLsbD i then 1 else 0)
      (t.writeDest false d act fun i => BitVec.ofNat 64 (r i).1).writeMask c
        ((m &&& ~~~act) ||| (act &&& maskOf fun i => (r i).2))

/-- A selection by a mask field (R122, 07 R130). -/
def laneSelect (s : State) (t : Ty) (d a b c : Code) : Out :=
  laneRun s { laneForm 8 t.wide d [srcOf t a, srcOf t b] with ok := fun g => g.dstOk t.wide d && maskOk c }
    (fun _ => .pass) fun vs act u =>
      u.writeDest t.wide d act fun i => if (s.grp.mask c).getLsbD i then argAt vs 0 i else argAt vs 1 i

/-- A one-operand operation on 32 bits. -/
def laneUnary (s : State) (d a : Code) (f : W32 → W32) : Out :=
  laneAlu s 4 false d [src32 a] fun v _ => (f ((v 0).setWidth 32)).setWidth 64

/-- The number of leading zero bits of 32 (R119). -/
def clz32 (v : W32) : Nat := ((List.range 32).find? fun i => v.getLsbD (31 - i)).getD 32
def ctz32 (v : W32) : Nat := ((List.range 32).find? fun i => v.getLsbD i).getD 32
def popc32 (v : W32) : Nat := ((List.range 32).filter fun i => v.getLsbD i).length

/-- A lane instruction that touches only its group's own control state and does not depend on em. -/
def laneControl (s : State) (o : LaneForm) (f : Group → Group) : Out :=
  laneRun s o (fun _ => .pass) fun _ _ t => t.setGrp (f t.grp)

-- L32 forms.

/-- `nop` (R122). -/
def execNop (s : State) : Out := laneControl s { len := 4 } id

def execAddI32 (d a b : Code) (s : State) : Out := laneInt2 s 4 .i32 false d a b fun a b => a + b
def execSubI32 (d a b : Code) (s : State) : Out := laneInt2 s 4 .i32 false d a b fun a b => a - b
def execMulLoI32 (d a b : Code) (s : State) : Out := laneInt2 s 4 .i32 false d a b fun a b => a * b
def execAndL32 (d a b : Code) (s : State) : Out := laneLogic s 4 .n32 d a b fun a b => a &&& b
def execOrL32 (d a b : Code) (s : State) : Out := laneLogic s 4 .n32 d a b fun a b => a ||| b
def execXorL32 (d a b : Code) (s : State) : Out := laneLogic s 4 .n32 d a b fun a b => a ^^^ b
def execAndnL32 (d a b : Code) (s : State) : Out := laneLogic s 4 .n32 d a b fun a b => a &&& ~~~b
def execShlL32 (d a b : Code) (s : State) : Out := laneShift s 4 .n32 d a b shiftLeft
def execShrL32 (d a b : Code) (s : State) : Out := laneShift s 4 .n32 d a b shiftRight
def execSraL32 (d a b : Code) (s : State) : Out := laneShift s 4 .n32 d a b shiftArith
def execRotlL32 (d a b : Code) (s : State) : Out := laneShift s 4 .n32 d a b rotateLeft
def execMinI32 (d a b : Code) (s : State) : Out := laneInt2 s 4 .i32 false d a b minInt
def execMinN32 (d a b : Code) (s : State) : Out := laneInt2 s 4 .n32 false d a b minInt
def execMaxI32 (d a b : Code) (s : State) : Out := laneInt2 s 4 .i32 false d a b maxInt
def execMaxN32 (d a b : Code) (s : State) : Out := laneInt2 s 4 .n32 false d a b maxInt
def execMov (d a : Code) (s : State) : Out := laneUnary s d a fun v => v
def execNot (d a : Code) (s : State) : Out := laneUnary s d a fun v => ~~~v
def execNegI32 (d a : Code) (s : State) : Out := laneUnary s d a fun v => 0 - v
def execAbsI32 (d a : Code) (s : State) : Out := laneUnary s d a fun v => if v.msb then 0 - v else v
def execPopc (d a : Code) (s : State) : Out := laneUnary s d a fun v => BitVec.ofNat 32 (popc32 v)
def execClz (d a : Code) (s : State) : Out := laneUnary s d a fun v => BitVec.ofNat 32 (clz32 v)
def execCtz (d a : Code) (s : State) : Out := laneUnary s d a fun v => BitVec.ofNat 32 (ctz32 v)
def execBrev (d a : Code) (s : State) : Out := laneUnary s d a fun v => v.reverse

/-- `lwin` (R123): the base is checked before it moves. -/
def execLwin (k : BitVec 4) (s : State) : Out :=
  laneControl s { len := 4, ok := fun g => 16 * k.toNat + 16 ≤ g.nregs } fun g => { g with wbase := 16 * k.toNat }

/-- `pb` (04 R81, R82): captures the mask; not itself coverable; its mask code must be 0-15. -/
def execPb (m : Code) (n : BitVec 3) (pat : BitVec 8) (s : State) : Out :=
  laneControl s { len := 4, cover := false, ok := fun _ => m.toNat ≤ 15 } fun g =>
    { g with pb := { mask := g.mask m, left := n.toNat + 1, n := n.toNat + 1, pat := pat } }

-- L64 forms.

def execAdd (t : Ty) (sat : Bool) (d a b : Code) (s : State) : Out := laneInt2 s 8 t sat d a b fun a b => a + b
def execAddImm (t : Ty) (sat : Bool) (d a : Code) (imm : Half) (s : State) : Out :=
  laneIntImm s t sat d a imm fun a b => a + b
def execSub (t : Ty) (sat : Bool) (d a b : Code) (s : State) : Out := laneInt2 s 8 t sat d a b fun a b => a - b
def execSubImm (t : Ty) (sat : Bool) (d a : Code) (imm : Half) (s : State) : Out :=
  laneIntImm s t sat d a imm fun a b => a - b
def execMulLo (t : Ty) (sat : Bool) (d a b : Code) (s : State) : Out := laneInt2 s 8 t sat d a b fun a b => a * b
def execMulLoImm (t : Ty) (sat : Bool) (d a : Code) (imm : Half) (s : State) : Out :=
  laneIntImm s t sat d a imm fun a b => a * b

/-- `mad` (R114): the exact a*b + c, then wrapped or clamped. -/
def execMad (t : Ty) (sat : Bool) (d a b c : Code) (s : State) : Out :=
  laneAlu s 8 t.wide d [srcOf t a, srcOf t b, srcOf t c] fun v _ =>
    intResult t sat (intArg t (v 0) * intArg t (v 1) + intArg t (v 2))
def execMadImm (t : Ty) (sat : Bool) (d a c : Code) (imm : Half) (s : State) : Out :=
  laneAlu s 8 t.wide d [srcOf t a, srcOf t c] fun v _ =>
    intResult t sat (intArg t (v 0) * intArg t (immOf t imm) + intArg t (v 1))
/-- `mad.wide` (R114): 32-bit factors, a 64-bit sum modulo 2^64. -/
def execMadWide (t : Ty) (d a b c : Code) (s : State) : Out :=
  laneAlu s 8 true d [src32 a, src32 b, src64 c] fun v _ =>
    BitVec.ofInt 64 (intArg t (v 0) * intArg t (v 1) + ((v 2).toNat : Int))

def execMulHi (t : Ty) (d a b : Code) (s : State) : Out := laneInt2 s 8 t false d a b (mulHigh t)
def execMulHiImm (t : Ty) (d a : Code) (imm : Half) (s : State) : Out := laneIntImm s t false d a imm (mulHigh t)
def execDiv (t : Ty) (d a b : Code) (s : State) : Out := laneInt2 s 8 t false d a b (divInt t)
def execDivImm (t : Ty) (d a : Code) (imm : Half) (s : State) : Out := laneIntImm s t false d a imm (divInt t)
def execRem (t : Ty) (d a b : Code) (s : State) : Out := laneInt2 s 8 t false d a b (remInt t)
def execRemImm (t : Ty) (d a : Code) (imm : Half) (s : State) : Out := laneIntImm s t false d a imm (remInt t)
def execMin (t : Ty) (d a b : Code) (s : State) : Out := laneInt2 s 8 t false d a b minInt
def execMinImm (t : Ty) (d a : Code) (imm : Half) (s : State) : Out := laneIntImm s t false d a imm minInt
def execMax (t : Ty) (d a b : Code) (s : State) : Out := laneInt2 s 8 t false d a b maxInt
def execMaxImm (t : Ty) (d a : Code) (imm : Half) (s : State) : Out := laneIntImm s t false d a imm maxInt
def execAnd (t : Ty) (d a b : Code) (s : State) : Out := laneLogic s 8 t d a b fun a b => a &&& b
def execAndImm (t : Ty) (d a : Code) (imm : Half) (s : State) : Out := laneLogicImm s t d a imm fun a b => a &&& b
def execOr (t : Ty) (d a b : Code) (s : State) : Out := laneLogic s 8 t d a b fun a b => a ||| b
def execOrImm (t : Ty) (d a : Code) (imm : Half) (s : State) : Out := laneLogicImm s t d a imm fun a b => a ||| b
def execXor (t : Ty) (d a b : Code) (s : State) : Out := laneLogic s 8 t d a b fun a b => a ^^^ b
def execXorImm (t : Ty) (d a : Code) (imm : Half) (s : State) : Out := laneLogicImm s t d a imm fun a b => a ^^^ b
def execAndn (t : Ty) (d a b : Code) (s : State) : Out := laneLogic s 8 t d a b fun a b => a &&& ~~~b
def execAndnImm (t : Ty) (d a : Code) (imm : Half) (s : State) : Out := laneLogicImm s t d a imm fun a b => a &&& ~~~b
def execShl (t : Ty) (d a b : Code) (s : State) : Out := laneShift s 8 t d a b shiftLeft
def execShlImm (t : Ty) (d a : Code) (sh : BitVec 6) (s : State) : Out := laneShiftImm s t d a sh shiftLeft
def execShr (t : Ty) (d a b : Code) (s : State) : Out := laneShift s 8 t d a b shiftRight
def execShrImm (t : Ty) (d a : Code) (sh : BitVec 6) (s : State) : Out := laneShiftImm s t d a sh shiftRight
def execSra (t : Ty) (d a b : Code) (s : State) : Out := laneShift s 8 t d a b shiftArith
def execSraImm (t : Ty) (d a : Code) (sh : BitVec 6) (s : State) : Out := laneShiftImm s t d a sh shiftArith
def execRotl (t : Ty) (d a b : Code) (s : State) : Out := laneShift s 8 t d a b rotateLeft
def execRotlImm (t : Ty) (d a : Code) (sh : BitVec 6) (s : State) : Out := laneShiftImm s t d a sh rotateLeft

/-- `addc` and `subb` of type .i32 or .n32 alike (R115). -/
def execAddc (_t : Ty) (d a b c : Code) (s : State) : Out :=
  laneCarry s d a b c fun a b cin => ((a + b + cin) % 2 ^ 32, decide (2 ^ 32 ≤ a + b + cin))
def execSubb (_t : Ty) (d a b c : Code) (s : State) : Out :=
  laneCarry s d a b c fun a b cin => ((a + 2 ^ 33 - b - cin) % 2 ^ 32, decide (a < b + cin))

def execBfx (t : Ty) (d a b c : Code) (s : State) : Out :=
  laneAlu s 8 t.wide d [srcOf t a, src32 b, src32 c] fun v _ =>
    bitExtract t (lowBits t.intWidth (v 0)) (lowBits 32 (v 1)) (lowBits 32 (v 2))
def execBfxImm (t : Ty) (d a : Code) (pos len : BitVec 6) (s : State) : Out :=
  laneAlu s 8 t.wide d [srcOf t a] fun v _ => bitExtract t (lowBits t.intWidth (v 0)) pos.toNat len.toNat
def execBfi (t : Ty) (d a b c : Code) (s : State) : Out :=
  laneRun s (insertForm t d [srcOf t a, src32 b, src32 c]) (fun _ => .pass) fun vs act u =>
    u.writeDest t.wide d act fun i =>
      bitInsert t (s.grp.oldDest t.wide d i) (argAt vs 0 i).toNat (lowBits 32 (argAt vs 1 i)) (lowBits 32 (argAt vs 2 i))
def execBfiImm (t : Ty) (d a : Code) (pos len : BitVec 6) (s : State) : Out :=
  laneRun s (insertForm t d [srcOf t a]) (fun _ => .pass) fun vs act u =>
    u.writeDest t.wide d act fun i =>
      bitInsert t (s.grp.oldDest t.wide d i) (argAt vs 0 i).toNat pos.toNat len.toNat

def execCmp (k : Cond) (t : Ty) (d a b : Code) (s : State) : Out :=
  laneCompare s d [srcOf t a, srcOf t b] fun v => condHolds k (intArg t (v 0)) (intArg t (v 1))
def execCmpImm (k : Cond) (t : Ty) (d a : Code) (imm : Half) (s : State) : Out :=
  laneCompare s d [srcOf t a] fun v => condHolds k (intArg t (v 0)) (intArg t (immOf t imm))
def execSel (t : Ty) (d a b c : Code) (s : State) : Out := laneSelect s t d a b c
/-- `movi` (R122): the immediate, extended by the type, to 32 bits or to the pair. -/
def execMovi (t : Ty) (d : Code) (imm : Half) (s : State) : Out := laneAlu s 8 t.wide d [] fun _ _ => immOf t imm
/-- `li` (04 R85). -/
def execLi (_t : Ty) (d : Code) (lit : W32) (s : State) : Out := laneAlu s 12 false d [] fun _ _ => lit.setWidth 64

/-- An unassigned opcode raises the illegal-instruction fault (04 R83-R85). -/
def execUnassignedLaneOpcode (_w : W32) (s : State) : Out := laneIllegal s 1

end Sys2Proof.Machine
end

