-- ==== Sys2Proof/Machine/Special.lean ====
section
/-! DEFINITION. The special functions (07 R134), each the exact function of its operand rounded once to nearest even.
A result that no binary fraction equals is formed to far more bits than FP32 keeps, with its last bit set. -/
namespace Sys2Proof.Machine

/-- floor(ln 2 * 2^320). -/
def ln2Fixed : Nat := 1480553391661173448385607439722553250922680800745876974795605978609098082859138712941075737848984

/-- floor(pi * 2^512). -/
def piFixed : Nat := 42121870893450636219446821484559388105255997313489254605594685088103805782276098919793885372247726346443771296916333485327292916625599161542353774203832599

/-- An operand at 320 fraction bits; exact for every FP32 value. -/
def fixed320 (m : Nat) (e : Int) : Nat := m * 2 ^ (e + 320).toNat

/-- The sum of `y^k/k!` from term `k` on, at `f` fraction bits; `t` is the term before. -/
def expTerms (f y : Nat) : Nat → Nat → Nat → Nat
  | 0, _, _ => 0
  | n + 1, k, t => t + expTerms f y n (k + 1) (t * y / 2 ^ f / k)

/-- The alternating sum of `y^(2j)/(2j+c)!`, as an integer, from a term `t` on with step index `k`. -/
def altTerms (f ysq : Nat) : Nat → Nat → Nat → Bool → Int
  | 0, _, _, _ => 0
  | n + 1, k, t, plus =>
    (if plus then (t : Int) else -(t : Int)) + altTerms f ysq n (k + 2) (t * ysq / 2 ^ f / ((k + 1) * (k + 2))) (!plus)

/-- The sum of `z^(2j+1)/(2j+1)` from a power on. -/
def atanhTerms (f zsq : Nat) : Nat → Nat → Nat → Nat
  | 0, _, _ => 0
  | n + 1, k, p => p / k + atanhTerms f zsq n (k + 2) (p * zsq / 2 ^ f)

/-- 2^x. -/
def exactExp2 : FVal → FVal
  | .nan => .nan
  | .inf neg => if neg then .fin false 0 0 else .inf false
  | .fin neg m e =>
    if m == 0 then .fin false 1 0
    else
      let top := (m.log2 : Int) + e
      if 8 ≤ top then (if neg then .fin false 1 (-1000) else .fin false 1 1000)
      else
        let x := fixed320 m e
        let v : Int := if neg then -(x : Int) else x
        let n := v / 2 ^ 320
        let f := (v % 2 ^ 320).toNat
        if f == 0 then .fin false 1 n
        else
          let y := f * ln2Fixed / 2 ^ 320
          .fin false (2 * expTerms 320 y 80 1 (2 ^ 320) + 1) (n - 321)

/-- log2 x. -/
def exactLog2 : FVal → FVal
  | .nan => .nan
  | .inf neg => if neg then .nan else .inf false
  | .fin neg m e =>
    if m == 0 then .inf true
    else if neg then .nan
    else
      let k := m.log2
      let n : Int := (k : Int) + e
      if m == 2 ^ k then FVal.ofInt n
      else
        let z := (m - 2 ^ k) * 2 ^ 320 / (m + 2 ^ k)
        let ln := 2 * atanhTerms 320 (z * z / 2 ^ 320) 110 1 z
        let v := n * 2 ^ 320 + ((ln * 2 ^ 320 / ln2Fixed : Nat) : Int)
        .fin (decide (v < 0)) (2 * v.natAbs + 1) (-321)

/-- The quadrant of |x| and what remains of it beyond, at 384 fraction bits. -/
def reduceAngle (m : Nat) (e : Int) : Nat × Nat :=
  let x := m * 2 ^ (e + 513).toNat
  let q := x / piFixed
  (q % 4, (x - q * piFixed) / 2 ^ 129)

/-- sin of an angle below pi/2 at 384 fraction bits. -/
def sinFixed (r : Nat) : Nat := (altTerms 384 (r * r / 2 ^ 384) 60 1 r true).toNat
/-- cos of an angle below pi/2 at 384 fraction bits. -/
def cosFixed (r : Nat) : Nat := (altTerms 384 (r * r / 2 ^ 384) 60 0 (2 ^ 384) true).toNat

/-- sin of quadrant `q` and remainder `r`: its sign and magnitude. -/
def quadrantSin (q r : Nat) : Bool × Nat := (2 ≤ q, if q % 2 == 0 then sinFixed r else cosFixed r)

/-- sin x. -/
def exactSin : FVal → FVal
  | .nan => .nan
  | .inf _ => .nan
  | .fin neg m e =>
    if m == 0 then .fin neg 0 0
    else
      let a := reduceAngle m e
      let v := quadrantSin a.1 a.2
      .fin (neg != v.1) (2 * v.2 + 1) (-385)

/-- cos x. -/
def exactCos : FVal → FVal
  | .nan => .nan
  | .inf _ => .nan
  | .fin _ m e =>
    if m == 0 then .fin false 1 0
    else
      let a := reduceAngle m e
      let v := quadrantSin ((a.1 + 1) % 4) a.2
      .fin v.1 (2 * v.2 + 1) (-385)

/-- 1/x. -/
def exactRcp (x : FVal) : FVal := (FVal.fin false 1 0).div x

/-- 1/sqrt x, with an infinity of its sign for a zero. -/
def exactRsq (x : FVal) : FVal :=
  match x with
  | .nan => .nan
  | .inf neg => if neg then .nan else .fin false 0 0
  | .fin neg m e =>
    if m == 0 then .inf neg
    else if neg then .nan
    else ((FVal.fin false 1 0).div (.fin false m e)).sqrt

end Sys2Proof.Machine
end

