-- ==== Sys2Proof/Machine/LaneFloat.lean ====
section
/-! DEFINITION. Lane floating point, conversion, special functions and the float mode (07 R125-R138). -/
namespace Sys2Proof.Machine

/-- An operation on the codes of a type, made per 16-bit half for the packed types (07 R127). -/
def perElement (t : Ty) (f : (Nat → Nat) → Nat) (v : Nat → W64) : W64 :=
  if t.isPacked then
    BitVec.ofNat 64 (f (fun k => lowBits 16 (v k)) + 2 ^ 16 * f (fun k => lowBits 16 (v k >>> 16)))
  else BitVec.ofNat 64 (f fun k => (v k).toNat)

/-- An operand of a floating type under fzin (R60). -/
def fpArg (t : Ty) (fm : W64) (v : Nat) : FVal := t.fmt.decode (fzin fm) v

/-- A result of a floating type, rounded once, under fzres (R60, R127). -/
def fpResult (t : Ty) (fm : W64) (r : Round) (x : FVal) : Nat := t.fmt.encode { r := r, fz := fzres fm } x

/-- A floating operation with its rounding: `f` is given the rounding and the exact operands. -/
def laneFloat (s : State) (t : Ty) (rm : Rm) (d : Code) (srcs : List Src) (f : Round → (Nat → FVal) → FVal) : Out :=
  let fm := s.grp.fmode
  let r := rmRound rm fm 0
  laneAlu s 8 t.wide d srcs fun v _ =>
    perElement t (fun c => fpResult t fm r (f r fun k => fpArg t fm (c k))) v

/-- A choice between operands (R129): NaN in either, or in both for the `num` forms, gives NaN. -/
def chooseFp (num : Bool) (first : FVal → FVal → Bool) (a b : FVal) : FVal :=
  if a.isNan then (if num then b else .nan)
  else if b.isNan then (if num then a else .nan)
  else if first a b then a else b

def fpMin (a b : FVal) : FVal := chooseFp false (fun a b => !b.below a) a b
def fpMax (a b : FVal) : FVal := chooseFp false (fun a b => !a.below b) a b
def fpMinNum (a b : FVal) : FVal := chooseFp true (fun a b => !b.below a) a b
def fpMaxNum (a b : FVal) : FVal := chooseFp true (fun a b => !a.below b) a b
def fpMaxAbs (a b : FVal) : FVal := fpMax a.abs b.abs

/-- The power of two of `fscale`, held to a range beyond which every result is the same (R127). -/
def scalePower (v : W64) : Int :=
  let b := signedOf 32 v.toNat
  if b < -5000 then -5000 else if 5000 < b then 5000 else b

/-- `a * 2^b` exactly; zeros, infinities and NaN stay. -/
def FVal.scaleBy (b : Int) : FVal → FVal
  | .fin neg m e => .fin neg m (e + b)
  | x => x

/-- `frnd` (R131): a zero result takes the sign of the operand. -/
def FVal.toIntegral (r : Round) : FVal → FVal
  | .fin neg m e => .fin neg (roundIntegral r neg m e) 0
  | x => x

/-- `fcmp` (R132). -/
def fcondHolds (k : FCond) (a b : FVal) : Bool :=
  let un := a.isNan || b.isNan
  let lt := a.lt b
  let gt := b.lt a
  match k with
  | .eq => !un && !lt && !gt
  | .ne => un || lt || gt
  | .lt => !un && lt
  | .le => !un && !gt
  | .gt => !un && gt
  | .ge => !un && !lt
  | .un => un
  | .or => !un

/-- The class bit of a code (R133). -/
def classBit (f : Fmt) (v : Nat) : Nat :=
  let mag := v % f.signBit
  match f.decode false v with
  | .nan => 8
  | .inf neg => if neg then 0 else 7
  | .fin neg m _ =>
    if m == 0 then (if neg then 3 else 4)
    else if mag < 2 ^ f.frac then (if neg then 2 else 5)
    else if neg then 1 else 6

/-- The exact sum of three terms; a zero sum is -0 where every term is -0, +0 where every term is +0, else +0 or -0
under RDN (R128). -/
def sum3 (r : Round) (x y z : FVal) : FVal :=
  let v := (x.add r y).add r z
  if v.isZero then
    .fin (if x.isZero && y.isZero && z.isZero && x.isNeg == y.isNeg && y.isNeg == z.isNeg then x.isNeg
          else r == .rdn) 0 0
  else v

/-- A special function of an FP32 operand (R134). -/
def laneSpecial (s : State) (d a : Code) (f : FVal → FVal) : Out :=
  let fm := s.grp.fmode
  laneAlu s 8 false d [src32 a] fun v _ =>
    BitVec.ofNat 64 (fpResult .f32 fm .rne (f (fpArg .f32 fm (v 0).toNat)))

/-- A float value as an integer of the type (R64): rounded, clamped, 0 for NaN. -/
def floatToInt (t : Ty) (r : Round) : FVal → Nat
  | .nan => 0
  | .inf neg => t.writeInt true (if neg then -(2 ^ 80) else 2 ^ 80)
  | .fin neg m e =>
    let k := if 80 ≤ (m.log2 : Int) + e && m != 0 then 2 ^ 80 else roundIntegral r neg m e
    t.writeInt true (if neg then -(k : Int) else (k : Int))

/-- `cvt` of one value (R136): R61 for stochastic rounding, else R62-R64. Only an integer of fewer bits than its source
clamps under `sat` (R64, R135); one of as many bits keeps them (log 37). -/
def convert (tgt src : Ty) (fm : W64) (r : Round) (sat : Bool) (v : Nat) : Nat :=
  if src.isInt then
    let x := src.readInt v
    if tgt.isInt then tgt.writeInt (sat && tgt.intWidth < src.intWidth) x
    else tgt.fmt.encode { r := r, fz := fzres fm, sat := sat && tgt == .e5m2 } (FVal.ofInt x)
  else
    let x := src.fmt.decode (fzin fm) v
    if tgt.isInt then floatToInt tgt r x
    else tgt.fmt.encode { r := r, fz := fzres fm, sat := sat && tgt == .e5m2 } x

def execFadd (t : Ty) (rm : Rm) (d a b : Code) (s : State) : Out :=
  laneFloat s t rm d [srcOf t a, srcOf t b] fun r v => (v 0).add r (v 1)
def execFsub (t : Ty) (rm : Rm) (d a b : Code) (s : State) : Out :=
  laneFloat s t rm d [srcOf t a, srcOf t b] fun r v => (v 0).add r (v 1).neg
def execFmul (t : Ty) (rm : Rm) (d a b : Code) (s : State) : Out :=
  laneFloat s t rm d [srcOf t a, srcOf t b] fun _ v => (v 0).mul (v 1)
def execFfma (t : Ty) (rm : Rm) (d a b c : Code) (s : State) : Out :=
  laneFloat s t rm d [srcOf t a, srcOf t b, srcOf t c] fun r v => ((v 0).mul (v 1)).add r (v 2)
def execFdiv (t : Ty) (rm : Rm) (d a b : Code) (s : State) : Out :=
  laneFloat s t rm d [srcOf t a, srcOf t b] fun _ v => (v 0).div (v 1)
def execFsqrt (t : Ty) (rm : Rm) (d a : Code) (s : State) : Out :=
  laneFloat s t rm d [srcOf t a] fun _ v => (v 0).sqrt
def execFscale (t : Ty) (rm : Rm) (d a b : Code) (s : State) : Out :=
  let fm := s.grp.fmode
  laneAlu s 8 t.wide d [srcOf t a, src32 b] fun v _ =>
    BitVec.ofNat 64 (fpResult t fm (rmRound rm fm 0) ((fpArg t fm (v 0).toNat).scaleBy (scalePower (v 1))))
def execFmin (t : Ty) (d a b : Code) (s : State) : Out :=
  laneFloat s t .rne d [srcOf t a, srcOf t b] fun _ v => fpMin (v 0) (v 1)
def execFmax (t : Ty) (d a b : Code) (s : State) : Out :=
  laneFloat s t .rne d [srcOf t a, srcOf t b] fun _ v => fpMax (v 0) (v 1)
def execFminnum (t : Ty) (d a b : Code) (s : State) : Out :=
  laneFloat s t .rne d [srcOf t a, srcOf t b] fun _ v => fpMinNum (v 0) (v 1)
def execFmaxnum (t : Ty) (d a b : Code) (s : State) : Out :=
  laneFloat s t .rne d [srcOf t a, srcOf t b] fun _ v => fpMaxNum (v 0) (v 1)
def execFmaxabs (t : Ty) (d a b : Code) (s : State) : Out :=
  laneFloat s t .rne d [srcOf t a, srcOf t b] fun _ v => fpMaxAbs (v 0) (v 1)
/-- `fcopysign` (R130) keeps every bit of a but the sign. -/
def execFcopysign (t : Ty) (d a b : Code) (s : State) : Out :=
  laneAlu s 8 t.wide d [srcOf t a, srcOf t b] fun v _ =>
    perElement t (fun c => c 0 % t.fmt.signBit + c 1 / t.fmt.signBit % 2 * t.fmt.signBit) v
def execFrnd (t : Ty) (rm : Rm) (d a : Code) (s : State) : Out :=
  laneFloat s t rm d [srcOf t a] fun r v => (v 0).toIntegral r
def execFcmp (k : FCond) (t : Ty) (d a b : Code) (s : State) : Out :=
  let fm := s.grp.fmode
  laneCompare s d [srcOf t a, srcOf t b] fun v => fcondHolds k (fpArg t fm (v 0).toNat) (fpArg t fm (v 1).toNat)
def execFclass (t : Ty) (d a : Code) (s : State) : Out :=
  laneAlu s 8 false d [srcOf t a] fun v _ => BitVec.ofNat 64 (2 ^ classBit t.fmt (v 0).toNat)
/-- `fsel` (R130) keeps the bits of the operand it selects. -/
def execFsel (t : Ty) (d a b c : Code) (s : State) : Out := laneSelect s t d a b c
def execFrcp (d a : Code) (s : State) : Out := laneSpecial s d a exactRcp
def execFrsq (d a : Code) (s : State) : Out := laneSpecial s d a exactRsq
def execFexp2 (d a : Code) (s : State) : Out := laneSpecial s d a exactExp2
def execFlog2 (d a : Code) (s : State) : Out := laneSpecial s d a exactLog2
def execFsin (d a : Code) (s : State) : Out := laneSpecial s d a exactSin
def execFcos (d a : Code) (s : State) : Out := laneSpecial s d a exactCos

/-- `fdot2` (R128): packed products and an FP32 addend, summed exactly and rounded once to FP32. -/
def execFdot2 (t : Ty) (rm : Rm) (d a b c : Code) (s : State) : Out :=
  let fm := s.grp.fmode
  let r := rmRound rm fm 0
  laneAlu s 8 false d [src32 a, src32 b, src32 c] fun v _ =>
    let p := fun k => (fpArg t fm (lowBits 16 (v 0 >>> k))).mul (fpArg t fm (lowBits 16 (v 1 >>> k)))
    BitVec.ofNat 64 (fpResult .f32 fm r (sum3 r (p 0) (p 16) (fpArg .f32 fm (v 2).toNat)))

/-- `cvt` (R135, R136); `.sr` draws from the seed, the launch-global lane id and the element index. -/
def execCvt (tgt src : Ty) (rm : Rm) (sat : Bool) (d a : Code) (e : Half) (s : State) : Out :=
  let fm := s.grp.fmode
  let id := lid0 s.blk s.grp
  laneAlu s 8 tgt.wide d [srcOf src a] fun v i =>
    let z := srRandom (fmSeed fm) (BitVec.ofNat 32 ((id + i) % 2 ^ 24)) (e.setWidth 32)
    BitVec.ofNat 64 (convert tgt src fm (rmRound rm fm z.toNat) sat (v 0).toNat)

/-- The value fmode takes (R137): its reserved bits stay zero. -/
def fmodeValue (v : W64) : W64 := v &&& 0xFFFFFFFF0000001F

/-- `fsetm` (R137): lane 0 of a, whatever em holds; a rounding code of 5-7 is an illegal operand; non-zero reserved
bits are counted. -/
def execFsetm (a : Code) (s : State) : Out :=
  laneRun s { len := 4, srcs := [src64 a] }
    (fun vs => if 5 ≤ (argAt vs 0 0 &&& 7).toNat then .fault s 2 s.grp.active (s.grp.lword.setWidth 64) else .pass)
    fun vs _ t =>
      let v := argAt vs 0 0
      let u := t.setGrp { t.grp with fmode := fmodeValue v }
      if v == fmodeValue v then u else u.countBlkErr u.coreNo

/-- `fgetm` (R137). -/
def execFgetm (d : Code) (s : State) : Out := laneAlu s 4 true d [] fun _ _ => fmodeValue s.grp.fmode

end Sys2Proof.Machine
end

