-- ==== Sys2Proof/Machine/Rearrange.lean ====
section
/-! DEFINITION. Rearrangement, quad exchange, group reductions and scans, mask arithmetic (08 R139-R146). -/
namespace Sys2Proof.Machine

/-- A rearrangement whose active lane i takes lane `sel i` of a, where there is one, else 0. -/
def laneMove (s : State) (len : Nat) (d a : Code) (extra : List Src)
    (sel : (Nat → Nat → W64) → LaneMask → Nat → Option Nat) : Out :=
  laneRun s (laneForm len false d (src32 a :: extra)) (fun _ => .pass) fun vs act t =>
    t.writeDest false d act fun i =>
      match sel (fun k j => argAt vs k j) act i with
      | some j => argAt vs 0 j
      | none => 0

/-- `shfl` (R140). -/
def execShfl (d a b : Code) (s : State) : Out :=
  laneMove s 4 d a [src32 b] fun v _ i => some (lowBits 6 (v 1 i))
/-- `bcast` by the index of the lowest active lane of b (R140). -/
def execBcast (d a b : Code) (s : State) : Out :=
  laneMove s 8 d a [src32 b] fun v act _ => some (lowBits 6 (v 1 ((lowestLane act).getD 0)))
def execBcastImm (d a : Code) (l : BitVec 6) (s : State) : Out := laneMove s 8 d a [] fun _ _ _ => some l.toNat

/-- `slideup` and `slidedn` (R142); in the register forms b must be scq (04 R80). -/
def slideFrom (up : Bool) (n i : Nat) : Option Nat :=
  if up then (if n ≤ i then some (i - n) else none) else (if i + n ≤ 63 then some (i + n) else none)
def laneSlide (s : State) (up : Bool) (d a b : Code) : Out :=
  laneRun s { laneForm 8 false d [src32 a, src32 b] with ok := fun g => g.dstOk false d && b.toNat == 117 }
    (fun _ => .pass) fun vs act t =>
      t.writeDest false d act fun i =>
        match slideFrom up (lowBits 32 (argAt vs 1 i)) i with
        | some j => argAt vs 0 j
        | none => 0
def execSlideup (d a b : Code) (s : State) : Out := laneSlide s true d a b
def execSlideupImm (d a : Code) (n : BitVec 6) (s : State) : Out :=
  laneMove s 8 d a [] fun _ _ i => slideFrom true n.toNat i
def execSlidedn (d a b : Code) (s : State) : Out := laneSlide s false d a b
def execSlidednImm (d a : Code) (n : BitVec 6) (s : State) : Out :=
  laneMove s 8 d a [] fun _ _ i => slideFrom false n.toNat i

/-- Quad exchanges (R143): a helper lane supplies its a as it stands. -/
def execQswapH (d a : Code) (s : State) : Out := laneMove s 4 d a [] fun _ _ i => some (i ^^^ 1)
def execQswapV (d a : Code) (s : State) : Out := laneMove s 4 d a [] fun _ _ i => some (i ^^^ 2)
def execQswapD (d a : Code) (s : State) : Out := laneMove s 4 d a [] fun _ _ i => some (i ^^^ 3)
def execQbcast (d a : Code) (p : BitVec 2) (s : State) : Out :=
  laneMove s 8 d a [] fun _ _ i => some (4 * (i / 4) + p.toNat)

/-- The mask of lanes below `k`. -/
def lowLanes (k : Nat) : LaneMask := maskOf fun i => i < k

/-- `compress` (R141): lanes 0 to k-1 of d, whatever em holds; an stq entry carries the active mask (R111). -/
def execCompress (d a : Code) (s : State) : Out :=
  laneRun s (laneForm 4 false d [src32 a]) (fun _ => .pass) fun vs act t =>
    let l := activeLanes act
    let f := fun i => match l[i]? with
      | some j => argAt vs 0 j
      | none => 0
    if d.toNat == 116 then
      t.setGrp { t.grp with stq := t.grp.stq ++ [⟨lanes fun i => (f i).setWidth 32, act⟩] }
    else t.writeDest false d (lowLanes l.length) f

/-- `expand` (R141): the t-th active lane takes lane t. -/
def execExpand (d a : Code) (s : State) : Out :=
  laneMove s 4 d a [] fun _ act i => some ((activeLanes act).filter (· < i)).length

/-- One level of the tree of R66: neighbours combine, a lone one passes unchanged. -/
def treeLevel {α : Type} (f : α → α → α) : List (Option α) → List (Option α)
  | some x :: some y :: rest => some (f x y) :: treeLevel f rest
  | some x :: none :: rest => some x :: treeLevel f rest
  | none :: y :: rest => y :: treeLevel f rest
  | [x] => [x]
  | [] => []

/-- The root of the fixed tree over 64 lanes (R66). -/
def treeRoot {α : Type} (f : α → α → α) (l : List (Option α)) : Option α :=
  ((List.range 6).foldl (fun v _ => treeLevel f v) l).head?.join

/-- A float sum rounded under fmode and taken up again as a value (R65): one addition of `gscan`, whose sum is a result
and is flushed under fzres; the next addition takes it as it stands (log 37). -/
def fpAddRound (t : Ty) (fm : W64) (x y : FVal) : FVal :=
  t.fmt.decode false (fpResult t fm (fmRound fm) (x.add (fmRound fm) y))

/-- A node of the tree of `gred.add`: the sum rounded under fmode.rm; only the root's value meets fzres (R66, R144). -/
def fpAddNode (t : Ty) (fm : W64) (x y : FVal) : FVal :=
  t.fmt.decode false (t.fmt.encode { r := fmRound fm } (x.add (fmRound fm) y))

/-- The entry of an integer result (R144): sign-extended for .i32. -/
def redEntry (t : Ty) (v : Int) : W64 := BitVec.ofInt 64 (t.readInt (t.writeInt false v))

/-- The result of an empty mask (Table 8-2). -/
def redEmptyInt (op : RedOp) (t : Ty) : Int :=
  match op with
  | .add => 0
  | .min => if t.signed then 2 ^ (t.intWidth - 1) - 1 else 2 ^ t.intWidth - 1
  | .max => if t.signed then -(2 ^ (t.intWidth - 1)) else 0
def redEmptyFp (op : RedOp) : FVal :=
  match op with
  | .add => .fin false 0 0
  | .min => .inf false
  | .max => .inf true

def redInt (op : RedOp) (t : Ty) (x y : Int) : Int :=
  match op with
  | .add => t.readInt (t.writeInt false (x + y))
  | .min => minInt x y
  | .max => maxInt x y
def redFp (op : RedOp) (t : Ty) (fm : W64) (x y : FVal) : FVal :=
  match op with
  | .add => fpAddNode t fm x y
  | .min => fpMin x y
  | .max => fpMax x y

/-- The value `gred` pushes (R144). -/
def redValue (op : RedOp) (t : Ty) (fm : W64) (act : LaneMask) (v : Nat → W64) : W64 :=
  if t.isInt then
    redEntry t ((treeRoot (redInt op t)
      (lanes fun i => if act.getLsbD i then some (intArg t (v i)) else none)).getD (redEmptyInt op t))
  else
    BitVec.ofNat 64 (fpResult t fm .rne ((treeRoot (redFp op t fm)
      (lanes fun i => if act.getLsbD i then some (fpArg t fm (v i).toNat) else none)).getD (redEmptyFp op)))

/-- `gred` (R144). -/
def execGred (op : RedOp) (t : Ty) (a : Code) (s : State) : Out :=
  laneRun s { len := 8, srcs := [srcOf t a], fbq := true } (fun _ => .pass) fun vs act u =>
    u.pushFbq (redValue op t s.grp.fmode act fun i => argAt vs 0 i)

/-- The running sums of `gscan` (R145) by lane, and the last: a left fold over the active lanes. -/
def scanInt (t : Ty) (act : LaneMask) (v : Nat → W64) : List Nat → Int → List (Nat × Int)
  | [], _ => []
  | i :: rest, acc =>
    if act.getLsbD i then
      let x := t.readInt (t.writeInt false (acc + intArg t (v i)))
      (i, x) :: scanInt t act v rest x
    else scanInt t act v rest acc
def scanFp (t : Ty) (fm : W64) (act : LaneMask) (v : Nat → W64) : List Nat → FVal → List (Nat × FVal)
  | [], _ => []
  | i :: rest, acc =>
    if act.getLsbD i then
      let x := fpAddRound t fm acc (fpArg t fm (v i).toNat)
      (i, x) :: scanFp t fm act v rest x
    else scanFp t fm act v rest acc

/-- The scan's values by lane as entries. -/
def scanEntries (t : Ty) (fm : W64) (act : LaneMask) (v : Nat → W64) : List (Nat × W64) :=
  if t.isInt then (scanInt t act v laneIds 0).map fun p => (p.1, redEntry t p.2)
  else (scanFp t fm act v laneIds (.fin false 0 0)).map fun p =>
    (p.1, BitVec.ofNat 64 (fpResult t fm (fmRound fm) p.2))

/-- `gscan` (R145): a must name a window register; its active lanes take the running sums, the last goes to fbq. -/
def execGscan (t : Ty) (a : Code) (s : State) : Out :=
  laneRun s { len := 8, srcs := [srcOf t a], ok := fun _ => a.toNat < 112, fbq := true } (fun _ => .pass)
    fun vs act u =>
      let e := scanEntries t s.grp.fmode act fun i => argAt vs 0 i
      (u.writeDest false a act fun i => Map.get 0 e i).pushFbq ((e.getLast?.map fun p => p.2).getD 0)

/-- A mask instruction (R146): whole masks whatever em or a prefix guard holds. -/
def laneMaskOp (s : State) (fields : List Code) (d : Code) (f : Group → LaneMask) : Out :=
  laneRun s { len := 4, ok := fun _ => fields.all maskOk } (fun _ => .pass) fun _ _ t => t.writeMask d (f s.grp)

def execMand (d a b : Code) (s : State) : Out := laneMaskOp s [d, a, b] d fun g => g.mask a &&& g.mask b
def execMor (d a b : Code) (s : State) : Out := laneMaskOp s [d, a, b] d fun g => g.mask a ||| g.mask b
def execMxor (d a b : Code) (s : State) : Out := laneMaskOp s [d, a, b] d fun g => g.mask a ^^^ g.mask b
def execMnot (d a : Code) (s : State) : Out := laneMaskOp s [d, a] d fun g => ~~~(g.mask a)
def execMfirst (d a : Code) (s : State) : Out :=
  laneMaskOp s [d, a] d fun g => match lowestLane (g.mask a) with
    | some i => BitVec.twoPow 64 i
    | none => 0
/-- `mpopc` (R146): the count, in the active lanes of a window destination. -/
def execMpopc (d a : Code) (s : State) : Out :=
  laneRun s { laneForm 4 false d [] with ok := fun g => g.dstOk false d && maskOk a } (fun _ => .pass) fun _ act t =>
    t.writeDest false d act fun _ => BitVec.ofNat 64 (popCount (s.grp.mask a))
/-- `mpush` (R146): overflow at msp = 16 leaves msp and the stack. -/
def execMpush (a : Code) (s : State) : Out :=
  laneRun s { len := 4, ok := fun _ => maskOk a }
    (fun _ => if 16 ≤ s.grp.msp then .fault s 6 s.grp.active (BitVec.ofNat 64 s.grp.msp) else .pass)
    fun _ _ t => t.setGrp { t.grp with mstack := t.grp.mstack.set s.grp.msp (s.grp.mask a), msp := s.grp.msp + 1 }
/-- `mpop` (R146): underflow at msp = 0. -/
def execMpop (d : Code) (s : State) : Out :=
  laneRun s { len := 4, ok := fun _ => maskOk d }
    (fun _ => if s.grp.msp == 0 then .fault s 7 s.grp.active 0 else .pass)
    fun _ _ t =>
      let v := Map.get 0 s.grp.mstack (s.grp.msp - 1)
      t.setGrp ({ t.grp with msp := s.grp.msp - 1 }.setMask d v)
/-- `mset` (R146): all 64 bits of the scq entry; a must be 117. -/
def execMset (d a : Code) (s : State) : Out :=
  laneRun s { len := 4, srcs := [src64 a], ok := fun _ => maskOk d && a.toNat == 117 } (fun _ => .pass)
    fun vs _ t => t.writeMask d (argAt vs 0 0)

end Sys2Proof.Machine
end

