-- ==== Sys2Proof/Machine/LaneMem.lean ====
section
/-! DEFINITION. Lane memory access: loads, stores, atomics, ranked addition, fences, prefetch, and the spill and fill
of the mask stack (08 R147; 09 R152-R164; 28 R366). -/
namespace Sys2Proof.Machine

def Size.bytes : Size → Nat
  | .b8 => 1
  | .b16 => 2
  | .b32 => 4
  | .b64 => 8
  | .b128 => 16

def Size.code : Size → Nat
  | .b8 => 0
  | .b16 => 1
  | .b32 => 2
  | .b64 => 3
  | .b128 => 4

/-- One access of a lane memory instruction: its lane, its address as computed, and the address in its space. -/
structure LaneAccess where
  lane : Nat
  raw : W64
  addr : W64
  deriving DecidableEq, Repr

/-- The accesses of the active lanes in increasing lane order (09 R152). -/
def accessesOf (sp : Space) (off : Half) (act : LaneMask) (a : Nat → W64) : List LaneAccess :=
  (activeLanes act).map fun i =>
    let raw := a i + off.signExtend 64
    ⟨i, raw, spaceTag sp raw⟩

/-- A fault of one lane: the code of Table 12-3, and the translation fault that parks the group. -/
structure LaneFailure where
  code : Nat
  xlate : Option (Nat × XFault)
  deriving DecidableEq, Repr

/-- What kind of access is checked. -/
inductive Access where
  | load | loadHome | store | atomic
  deriving DecidableEq, Repr

def Access.need : Access → Need
  | .load | .loadHome => .read
  | .store => .write
  | .atomic => .both

/-- Whether a plain lane load hits the core's lane L1 (13 R227). -/
def State.l1Hit (s : State) (k : Nat) (addr : W64) : Option L1Sector :=
  match s.globalVa k addr with
  | some va => (s.coreAt (k / 16)).l1Sector s.asid va
  | none => none

/-- The checks of one lane's access in their order (09 R153). -/
def State.laneCheck (s : State) (m : Access) (n : Nat) (x : LaneAccess) : Option LaneFailure :=
  let reads := m != .store
  if x.addr.toNat % n != 0 then some ⟨12, none⟩
  else if m == .load && (s.l1Hit s.cur x.addr).isSome then none
  else match s.place s.cur false x.addr with
    | .ok p =>
      if m == .store && p.posted s.coreNo then none
      else match s.reach s.cur false x.addr n m.need with
        | .ok key _ => if s.fencedKey key || (reads && s.poisoned key n) then some ⟨15, none⟩ else none
        | .xlate va f => some ⟨14, some (va, f)⟩
        | .space => some ⟨13, none⟩
        | .refused why => some ⟨if why == 2 then 15 else 13, none⟩
    | .error .space => some ⟨13, none⟩
    | .error .noMap => some ⟨14, some (x.addr.toNat % 2 ^ 57, noMapping x.addr)⟩

-- The coalescer (09 R158).

/-- The 4-byte words of a byte range. -/
def wordsIn (off n : Nat) : List Nat := (List.range ((off % 4 + n + 3) / 4)).map fun i => off / 4 + i

/-- The requests of an access of `n` bytes: space class, destination and line, and the bank (none for fabric). -/
def State.requestsOf (s : State) (n : Nat) (x : LaneAccess) : List ((Nat × Nat × Nat) × Option Nat) :=
  match s.place s.cur false x.addr with
  | .ok (.global va _) => [((0, 0, va / 128), some (va / 128 % 8))]
  | .ok (.scratch off) => (wordsIn off n).map fun w => ((1, 0, w), some (8 + w % 32))
  | .ok (.vault v off) => (wordsIn off n).map fun w => ((2, v, w), some (8 + w % 32))
  | .ok (.fabric h off) => [((3, h, off / 128), none)]
  | _ => [((4, 0, 0), none)]

/-- S and C of an instruction whose accesses have `n` bytes. -/
def State.coalesce (s : State) (n : Nat) (l : List LaneAccess) : Nat × Nat :=
  let r := (l.flatMap (s.requestsOf n)).eraseDups
  let banked := r.filter fun p => p.2.isSome
  (r.length, banked.length - ((banked.map fun p => p.2).eraseDups).length)

/-- Takes a sample of the instruction if the sampler is armed (12 R222; 28 R366). -/
def State.sample (s : State) (op n : Nat) (act : LaneMask) (l : List LaneAccess) (posted fault : Bool) : State :=
  let g := s.grp
  if !g.sampler.armed || g.sampler.pending.isSome then s
  else
    let sc := s.coalesce n l
    let hits := ((l.filter fun x => op == 0 && (s.l1Hit s.cur x.addr).isSome).flatMap fun x =>
      (s.requestsOf n x).map fun r => r.1).eraseDups.length
    let r : SampleRec :=
      { pc := g.lpc, t0 := s.tide, since := s.cycles, act := act, requests := sc.1, conflicts := sc.2, hits := hits
        op := op, addr := (l.head?.map fun x => x.raw).getD 0, posted := posted, fault := fault }
    s.setGrp { g with sampler := { g.sampler with pending := some r } }

/-- The bytes of a sampling record (28 Table 28-4). Contention and the lane that returned last are open (log 4). -/
def sampleBytes (r : SampleRec) (replays moves cycles : Nat) (tide : W64) : List Byte :=
  let last := (activeLanes r.act).getD (Config.freeChoice moves (activeLanes r.act).length) 0
  leBytes 24 (r.pc.toNat + 2 ^ 64 * r.t0.toNat + 2 ^ 128 * r.act.toNat)
  ++ leBytes 8 (r.requests + 2 ^ 8 * r.conflicts + 2 ^ 16 * replays + 2 ^ 24 * last + 2 ^ 30 * r.op
      + 2 ^ 33 * if r.fault then 1 else 0)
  ++ (List.range 8).map (Config.freeByte moves)
  ++ leBytes 8 ((cycles - r.since) % 2 ^ 32 + 2 ^ 32 * r.hits)
  ++ leBytes 16 (r.addr.toNat + 2 ^ 64 * tide.toNat)

/-- Whether a compute-stream journal entry of a group is in flight. -/
def Group.laneInFlight (g : Group) : Bool := g.journal.any fun e => e.2.held && e.2.lane && e.2.state == 0

/-- Whether an access-stream journal entry of a group is in flight. -/
def Group.hartInFlight (g : Group) : Bool := g.journal.any fun e => e.2.held && !e.2.lane && e.2.state == 0

/-- Writes a finished sample's record to the block's scratch and disarms the sampler. -/
def State.sampleDone (s : State) (k : Nat) : State :=
  let g := s.grpAt k
  match g.sampler.pending with
  | none => s
  | some r =>
    if r.posted && g.laneInFlight then s
    else
      let b := sampleBytes r g.sampler.replays s.moves s.cycles s.tide
      ((s.setGrpAt k { g with sampler := {} }).performStore (scratchKey g.blk g.sampler.off) b).trace k 7
        (s.launchAt (s.blkAt g.blk).launch).asid g.sampler.off

/-- Lane faults of a list of accesses: every faulting lane, and the failure of the lowest. -/
def State.laneFailures (s : State) (m : Access) (n : Nat) (l : List LaneAccess) : List (LaneAccess × LaneFailure) :=
  l.filterMap fun x => (s.laneCheck m n x).map fun f => (x, f)

/-- The faulting state of a lane memory instruction (09 R153; 12 R217; 20 R295): the lowest faulting lane decides the
cause, every faulting lane is in the mask, and a translation fault writes its record and parks. -/
def State.laneMemFault (s : State) (need : Need) (fs : List (LaneAccess × LaneFailure)) : State :=
  match fs with
  | [] => s
  | (x, f) :: _ =>
    let mask := maskOf fun i => fs.any fun p => p.1.lane == i
    let c := fs.foldl (fun t p => if p.2.code == 15 then t.countAccess t.cur p.1.addr need else t) s
    let t := c.setGrp (c.grp.laneFault f.code 0 mask x.raw)
    match f.xlate with
    | some (va, xf) => t.streamFault s.cur .lane va need xf
    | none => t

/-- A sampled instruction that faults into `t`: a served translation fault counts a replay, another writes its record. -/
def State.sampleFault (t : State) (op n : Nat) (act : LaneMask) (l : List LaneAccess) : State :=
  let g := t.grp
  let k := if g.sampler.replays < 255 then g.sampler.replays + 1 else 255
  if !g.sampler.armed then t
  else if g.holdC.isSome then t.setGrp { g with sampler := { g.sampler with replays := k } }
  else (t.sample op n act l false true).sampleDone t.cur

/-- Whether a store to an address is posted. -/
def State.postedAt (s : State) (addr : W64) : Bool :=
  match s.place s.cur false addr with
  | .ok p => p.posted s.coreNo
  | .error _ => false

/-- The line of a host that an access must wait for (23 R318, R319); one served by the lane L1 waits for none. -/
def State.hostWaits (s : State) (m : Access) (n : Nat) (l : List LaneAccess) : Option (Nat × Bool) :=
  if s.host.filter.isEmpty && s.host.links.isEmpty then none
  else l.findSome? fun x =>
    if m == .load && (s.l1Hit s.cur x.addr).isSome then none
    else match s.reach s.cur false x.addr n m.need with
      | .ok key _ => s.lineWait key n (m == .store || m == .atomic)
      | _ => none

/-- The destination of an access for per-pair order (13 R235): a core, or a vault. -/
def State.placeTarget (s : State) (p : Place) : Option Nat :=
  match p with
  | .scratch _ => some s.coreNo
  | .vault v _ => some (2048 + v)
  | .fabric h _ => some (handleTarget (s.blk.handle h))
  | _ => none

/-- Whether an access that is not posted must follow a posted one of the group to its destination (13 R235). -/
def State.pairWaits (s : State) (l : List LaneAccess) : Bool :=
  !s.net.isEmpty && l.any fun x => match s.place s.cur false x.addr with
    | .ok p => match s.placeTarget p with
      | some d => s.net.any fun m => m.src == s.cur && m.dst == d
      | none => false
    | .error _ => false

/-- Whether an address lies in the scratch of another core that is stopped, whose writes wait until it has resumed (21
R307). -/
def State.frozenAt (s : State) (addr : W64) : Bool :=
  match s.place s.cur false addr with
  | .ok (.fabric h _) => !isPeer (s.blk.handle h) && s.coreFrozen (handleCore (s.blk.handle h))
  | _ => false

/-- The address checks of a lane memory instruction (04 R372; 09 R153); `faulted` is made of the state of a fault. A write
waits while a queue load of the group is still to be read at a distant home, so that the load takes the value at its
issue (05 R96). -/
def State.addressCheck (s : State) (m : Access) (n : Nat) (l : List LaneAccess) (faulted : State → State) : Check :=
  match s.laneFailures m n l with
  | [] =>
    match s.hostWaits m n l with
    | some (k, own) => .wait (.hostLine k own)
    | none =>
      if (m.need.allowsWrite && s.grp.loadsAway) || (m == .atomic && l.any fun x => s.frozenAt x.addr)
         || s.pairWaits (l.filter fun x => !(m == .store && s.postedAt x.addr)) then .wait .drain
      else .pass
  | fs => .stop (faulted (s.laneMemFault m.need fs))

/-- The address checks of an instruction that a sampler may take (12 R222; 28 R366). -/
def State.accessCheck (s : State) (op : Nat) (m : Access) (n : Nat) (act : LaneMask) (l : List LaneAccess) : Check :=
  s.addressCheck m n l fun t => t.sampleFault op n act l

-- Performing accesses.

/-- The bytes a lane load reads, and the state with the L1 filled and the translation kept (13 R227). -/
def State.laneLoad (s : State) (m : Access) (n : Nat) (x : LaneAccess) : State × List Byte :=
  match (if m == .load then s.l1Hit s.cur x.addr else none), s.globalVa s.cur x.addr with
  | some sec, some va => (s, (List.range n).map fun i => sec.bytes.getD (va % 128 + i) 0)
  | _, gva =>
    match s.reach s.cur false x.addr n m.need with
    | .ok key t =>
      let s := match t with
        | some t => (s.keepTlb t).hostTouch key n false
        | none => s
      let s := s.meterAt (s.cur % 16) gva n t
      let s := match gva with
        | some va => if m == .load then s.l1Fill s.coreNo s.asid va key (match t with
            | some e => e.asid == 0
            | none => false) else s
        | none => s
      (s, s.worldBytes s.asid key n)
    | _ => (s, (List.range n).map fun _ => 0)

/-- A store of a lane performed at its home (09 R152; 13 R227). -/
def State.laneStore (s : State) (x : LaneAccess) (l : List Byte) : State :=
  match s.reach s.cur false x.addr l.length .write with
  | .ok key t =>
    let s := match t with
      | some t => s.keepTlb t
      | none => s
    match s.globalVa s.cur x.addr with
    | some va => (((s.meter (s.cur % 16) va l.length t).flushSector s.asid va).writeAs s.asid key l).l1Update s.coreNo s.asid va l
    | none => s.performStore key l
  | _ => s

/-- Reads every access in lane order. -/
def State.laneLoads (s : State) (m : Access) (n : Nat) : List LaneAccess → State × List (Nat × List Byte)
  | [] => (s, [])
  | x :: rest =>
    let r := s.laneLoad m n x
    let q := r.1.laneLoads m n rest
    (q.1, (x.lane, r.2) :: q.2)

/-- The parts of an instruction's store that are not posted, performed in lane order. -/
def State.laneStores (s : State) (data : Nat → List Byte) : List LaneAccess → State
  | [] => s
  | x :: rest => (s.laneStore x (data x.lane)).laneStores data rest

-- Posted writes (09 R156; 10 R187).

/-- The destination of a posted place: a core for fabric, 2048 and a vault's number for a vault. -/
def State.postTarget (s : State) (p : Place) : Nat × Nat × Nat :=
  match p with
  | .fabric h off => let e := s.blk.handle h; (handleTarget e, e.toNat, off)
  | .vault v off => (2048 + v, 0, off)
  | _ => (0, 0, 0)

/-- One request being formed: its sector's generic address, target, handle entry, lanes and bytes. -/
structure Request where
  base : Nat
  dst : Nat
  handle : Nat
  lanes : List Nat
  cells : List (Nat × Byte)
  deriving DecidableEq, Repr

/-- Adds an access to the requests, which stand in increasing address order. A lane counts in cnt though a higher one has
overwritten all of its bytes (10 R187 is silent; log 39). -/
def addRequest (r : Request) : List Request → List Request
  | [] => [r]
  | q :: rest =>
    if q.base == r.base && q.dst == r.dst then
      { q with lanes := (q.lanes ++ r.lanes).eraseDups
               cells := (q.cells.filter fun c => !(r.cells.any fun d => d.1 == c.1)) ++ r.cells } :: rest
    else if r.base < q.base then r :: q :: rest
    else q :: addRequest r rest

/-- The requests of the posted accesses of an instruction. -/
def State.requests (s : State) (data : Nat → List Byte) (l : List LaneAccess) : List Request :=
  l.foldl (fun acc x =>
    match s.place s.cur false x.addr with
    | .ok p =>
      if p.posted s.coreNo then
        let t := s.postTarget p
        addRequest ⟨x.addr.toNat - t.2.2 % 128, t.1, t.2.1, [x.lane], cellsOf t.2.2 (data x.lane)⟩ acc
      else acc
    | .error _ => acc) []

/-- A request as a posting: its entry's address is that of the lowest byte it writes (10 R187). -/
def Request.posting (r : Request) (size kind : Nat) (lane : Bool) : Posting :=
  let low := r.cells.foldl (fun m c => if c.1 < m then c.1 else m) ((r.cells.head?.map fun c => c.1).getD 0)
  { dst := r.dst, handle := r.handle, writes := r.cells
    entry := { addr := BitVec.ofNat 64 (r.base + low % 128), size := size, lane := lane, kind := kind
               cnt := if lane || kind == 1 then r.lanes.length - 1 else 0 } }

/-- Sends postings while the journal has room; answers those that remain (02 R40). -/
def State.sendPosts (s : State) : List Posting → State × List Posting
  | [] => (s, [])
  | p :: rest =>
    if s.grp.jcount < 32 then
      (s.post p.entry p.dst fun slot => .posted slot p.writes p.entry.addr p.handle).sendPosts rest
    else (s, p :: rest)

-- Loads and stores.

/-- A loaded element as a register value (09 Table 9-2). -/
def loadValue (z : Size) (sext : Bool) (l : List Byte) : W64 :=
  let v := leNat l
  match z, sext with
  | .b8, true => ((BitVec.ofNat 8 v).signExtend 32).setWidth 64
  | .b16, true => ((BitVec.ofNat 16 v).signExtend 32).setWidth 64
  | _, _ => BitVec.ofNat 64 v

/-- Whether a data field suits the size (09 Table 9-2): 128 bits take four registers from a multiple of 4. -/
def Group.dataOk (g : Group) (z : Size) (dest : Bool) (c : Code) : Bool :=
  match z with
  | .b128 => c.toNat < 112 && c.toNat % 4 == 0 && g.wbase + c.toNat + 3 < g.nregs
  | _ => if dest then g.dstOk (z == .b64) c else g.srcOk ⟨c, z == .b64⟩

/-- The word `j` of a lane's data from a list by lane. -/
def wordOf (r : List (Nat × List Byte)) (i j : Nat) : W64 := BitVec.ofNat 64 (leNat (((Map.get [] r i).drop (4 * j)).take 4))

/-- Writes loaded data (09 R152). -/
def State.writeLoaded (s : State) (z : Size) (sext : Bool) (d : Code) (act : LaneMask) (r : List (Nat × List Byte)) : State :=
  match z with
  | .b128 => (List.range 4).foldl (fun t j => t.writeDest false (d + BitVec.ofNat 7 j) act fun i => wordOf r i j) s
  | _ => s.writeDest (z == .b64) d act fun i => loadValue z sext (Map.get [] r i)

/-- The lane's access is outstanding until its completion (09 R154). -/
def State.busy (s : State) : State := s.setGrp { s.grp with laneBusy := true }

/-- Whether a scope is block or wider, whose acquire empties the lane L1 (09 R157). -/
def Scope.empties : Scope → Bool
  | .group => false
  | _ => true

/-- An acquire of the compute stream (09 R157, R162). -/
def State.laneAcquire (s : State) (sc : Scope) : State := if Scope.empties sc then s.l1Clear s.coreNo else s

/-- A release waits for the compute stream's journal entries in flight (09 R157); one at system scope evicts what host
memory has not yet and waits for it (13 R244; 24 R328). -/
def Check.release (s : State) (rel : Option Scope) (k : Check) : Check :=
  match rel with
  | none => k
  | some sc =>
    if s.grp.laneInFlight then .wait .drain
    else if sc == .system && s.modifiedHost then
      let t := s.evictModified s.coreNo
      .stop (t.setGrp { t.grp with laneWait := some .drain })
    else if sc == .system && s.evictingAny then .wait .drain
    else k

/-- A lane load, plain or acquiring. -/
def laneLd (s : State) (acq : Option Scope) (sp : Space) (z : Size) (sext : Bool) (d a : Code) (off : Half) : Out :=
  let m : Access := if acq.isSome then .loadHome else .load
  laneRun s { len := 8, srcs := [src64 a], ok := fun g => g.dataOk z true d, stq := d.toNat == 116 }
    (fun vs => s.accessCheck 0 m (Size.bytes z) s.grp.active (accessesOf sp off s.grp.active fun i => argAt vs 0 i))
    fun vs act t =>
      let l := accessesOf sp off act fun i => argAt vs 0 i
      let r := (t.sample 0 (Size.bytes z) act l false false).laneLoads m (Size.bytes z) l
      let u := (r.1.writeLoaded z sext d act r.2).busy
      match acq with
      | some sc => u.laneAcquire sc
      | none => u

/-- `ld` (R152) and `ld.acq` (R157). -/
def execLd (sp : Space) (z : Size) (sext : Bool) (d a : Code) (off : Half) (s : State) : Out :=
  laneLd s none sp z sext d a off
def execLdAcq (scope : Scope) (sp : Space) (z : Size) (d a : Code) (off : Half) (s : State) : Out :=
  laneLd s (some scope) sp z false d a off

/-- The data a lane stores. -/
def storeData (s : State) (z : Size) (b : Code) (vs : List LaneVec) (i : Nat) : List Byte :=
  match z with
  | .b128 => ((List.range 4).map fun j => leBytes 4 (s.grp.reg (s.grp.wbase + b.toNat + j) i).toNat).flatten
  | _ => leBytes (Size.bytes z) (argAt vs 1 i).toNat

/-- The postings of a store that still have to be sent: those left over, or all of its requests. -/
def State.pendingPosts (s : State) (size : Nat) (data : Nat → List Byte) (l : List LaneAccess) : List Posting :=
  match s.grp.laneSend with
  | some rest => rest
  | none => (s.requests data l).map fun r => r.posting size 0 true

/-- A lane store (R152, R156): what is not posted is performed at its homes; each posted request takes a journal
entry in turn, and the instruction waits while the journal is full (02 R40). -/
def laneSt (s : State) (rel : Option Scope) (sp : Space) (z : Size) (a b : Code) (off : Half) : Out :=
  let srcs := if z == .b128 then [src64 a] else [src64 a, ⟨b, z == .b64⟩]
  let acc := fun vs => accessesOf sp off s.grp.active fun i => argAt vs 0 i
  let first := s.grp.laneSend.isNone
  laneRun s { len := 8, srcs := srcs, ok := fun g => g.dataOk z false b }
    (fun vs =>
      Check.release s (if first then rel else none)
        (match (if first then s.accessCheck 1 .store (Size.bytes z) s.grp.active (acc vs) else .pass) with
         | .pass =>
           let l := acc vs
           let data := storeData s z b vs
           let plain := l.filter fun x => match s.place s.cur false x.addr with
             | .ok p => !p.posted s.coreNo
             | .error _ => false
           let posts := s.pendingPosts (Size.code z) data l
           let t := if first then (s.sample 1 (Size.bytes z) s.grp.active l (!posts.isEmpty) false).laneStores data plain else s
           let r := t.sendPosts posts
           if r.2.isEmpty then .pass
           else .stop (r.1.setGrp { r.1.grp with laneSend := some r.2, laneWait := some .journal })
         | k => k))
    fun vs act t =>
      let l := accessesOf sp off act fun i => argAt vs 0 i
      let data := storeData s z b vs
      let plain := l.filter fun x => match s.place s.cur false x.addr with
        | .ok p => !p.posted s.coreNo
        | .error _ => false
      let posts := s.pendingPosts (Size.code z) data l
      let u := if first then (t.sample 1 (Size.bytes z) act l (!posts.isEmpty) false).laneStores data plain else t
      let v := (u.sendPosts posts).1
      if plain.isEmpty then (v.setGrp { v.grp with laneSend := none }).sampleDone v.cur
      else v.setGrp { v.grp with laneSend := none, laneBusy := true }

/-- `st` (R152) and `st.rel` (R157). -/
def execSt (sp : Space) (z : Size) (a b : Code) (off : Half) (s : State) : Out := laneSt s none sp z a b off
def execStRel (scope : Scope) (sp : Space) (z : Size) (a b : Code) (off : Half) (s : State) : Out :=
  laneSt s (some scope) sp z a b off

-- Atomics (R159).

def AtomTy.bytes : AtomTy → Nat
  | .i64 | .n64 => 8
  | _ => 4

def AtomTy.wide (t : AtomTy) : Bool := AtomTy.bytes t == 8

/-- The lane type whose integers an op-type compares. -/
def AtomTy.ty : AtomTy → Ty
  | .i32 => .i32
  | .n32 => .n32
  | .i64 => .i64
  | .n64 => .n64
  | .f32 => .f32
  | .bf16x2 => .bf16x2

/-- An addition at a home: RNE, no flushing (R65). -/
def homeAdd (f : Fmt) (x y : Nat) : Nat :=
  f.encode { r := .rne } ((f.decode false x).add .rne (f.decode false y))

/-- The new value at the home (Table 9-3). -/
def atomNew (op : AtomOp) (t : AtomTy) (old b c : W64) : W64 :=
  let ty := AtomTy.ty t
  let x := intArg ty old
  let y := intArg ty b
  match op with
  | .add => intResult ty false (x + y)
  | .min => intResult ty false (minInt x y)
  | .max => intResult ty false (maxInt x y)
  | .and => old &&& b
  | .or => old ||| b
  | .xor => old ^^^ b
  | .xchg => b
  | .cas => if old == b then c else old
  | .fadd =>
    match t with
    | .bf16x2 => perElement .bf16x2 (fun e => homeAdd bf16 (e 0) (e 1)) fun k => if k == 0 then old else b
    | _ => BitVec.ofNat 64 (homeAdd fp32 old.toNat b.toNat)

/-- One lane's read-modify-write at its home: the old value, and the sector dropped from the L1 (R151, R159). -/
def State.laneAtom (s : State) (op : AtomOp) (t : AtomTy) (x : LaneAccess) (b c : W64) : State × W64 :=
  let n := AtomTy.bytes t
  match s.reach s.cur false x.addr n .both with
  | .ok key tl =>
    let s := match tl with
      | some e => s.keepTlb e
      | none => s
    let s := match s.globalVa s.cur x.addr with
      | some va => ((s.meter (s.cur % 16) va n tl).flushSector s.asid va).l1Drop s.coreNo s.asid va
      | none => s
    let old := BitVec.ofNat 64 (leNat (s.worldBytes s.asid key n))
    (s.writeAs s.asid key (leBytes n (atomNew op t old b c).toNat), old)
  | _ => (s, 0)

/-- The lanes of an atomic in increasing order (R159). -/
def State.laneAtoms (s : State) (op : AtomOp) (t : AtomTy) (b c : Nat → W64) : List LaneAccess → State × List (Nat × W64)
  | [] => (s, [])
  | x :: rest =>
    let r := s.laneAtom op t x (b x.lane) (c x.lane)
    let q := r.1.laneAtoms op t b c rest
    (q.1, (x.lane, r.2) :: q.2)

def Order.acquires : Order → Option Scope
  | .acquire sc | .acqrel sc => some sc
  | _ => none

def Order.releases : Order → Option Scope
  | .release sc | .acqrel sc => some sc
  | _ => none

/-- `atom` (R159). -/
def execAtom (op : AtomOp) (t : AtomTy) (sp : Space) (ord : Order) (d a b c : Code) (s : State) : Out :=
  let w := AtomTy.wide t
  let srcs := if op == .cas then [src64 a, ⟨b, w⟩, ⟨c, w⟩] else [src64 a, ⟨b, w⟩]
  laneRun s { len := 8, srcs := srcs, ok := fun g => g.dstOk w d && (op == .cas || c.toNat == 119), stq := d.toNat == 116 }
    (fun vs => Check.release s (Order.releases ord)
      (s.accessCheck 2 .atomic (AtomTy.bytes t) s.grp.active (accessesOf sp 0 s.grp.active fun i => argAt vs 0 i)))
    fun vs act u =>
      let l := accessesOf sp 0 act fun i => argAt vs 0 i
      let r := (u.sample 2 (AtomTy.bytes t) act l false false).laneAtoms op t (fun i => argAt vs 1 i) (fun i => argAt vs 2 i) l
      let v := (r.1.writeDest w d act fun i => Map.get 0 r.2 i).busy
      match Order.acquires ord with
      | some sc => v.laneAcquire sc
      | none => v

-- Ranked addition (R160, R161).

/-- The window open on a location. -/
def State.windowAt (s : State) (key : Nat) : Option RankWindow := s.windows.find? fun w => w.key == key

/-- Whether a rank lies in a window and has not been applied. -/
def RankWindow.awaits (w : RankWindow) (r : W32) : Bool :=
  (r - w.base).toNat < w.count.toNat && (w.next - w.base).toNat ≤ (r - w.base).toNat

/-- The ranks held for a window, or on their way to it. -/
def State.rankTaken (s : State) (w : RankWindow) (r : W32) : Bool :=
  w.heldBy.any (fun h => h.1 == r) || s.net.any fun m => match m.body with
    | .rank key q _ => key == w.key && q == r
    | _ => false

/-- The home key of a contribution's location. A private address has no window (R159). -/
def State.rankKey (s : State) (x : LaneAccess) : Option Nat :=
  match s.place s.cur false x.addr with
  | .ok (.global _ true) => none
  | .ok _ => match s.reach s.cur false x.addr 4 .both with
    | .ok key _ => some key
    | _ => none
  | .error _ => none

/-- The destination of a contribution: the core or vault of its location, for per-pair order (13 R235), or its line's home
slice. -/
def State.rankTarget (s : State) (x : LaneAccess) (key : Nat) : Nat :=
  match s.place s.cur false x.addr with
  | .ok p => (s.placeTarget p).getD (2 ^ 57 + key)
  | .error _ => 2 ^ 57 + key

/-- Whether a lane's contribution meets the rank fault (R161). -/
def State.rankFault (s : State) (rank : Nat → W32) (l : List LaneAccess) (x : LaneAccess) : Bool :=
  match s.rankKey x with
  | none => true
  | some key => match s.windowAt key with
    | none => true
    | some w =>
      !w.awaits (rank x.lane) || s.rankTaken w (rank x.lane)
      || l.any fun y => y.lane != x.lane && rank y.lane == rank x.lane && s.rankKey y == some key

/-- `atom.radd` (R161): every active lane's contribution is checked at its home, then all are accepted; each is
delivered by an arrival. -/
def execAtomRadd (sp : Space) (ord : Order) (d a b c : Code) (s : State) : Out :=
  let acc := fun vs => accessesOf sp 0 s.grp.active fun i => argAt vs 0 i
  let rank := fun (vs : List LaneVec) i => (argAt vs 2 i).setWidth 32
  laneRun s { len := 8, srcs := [src64 a, src32 b, src32 c], ok := fun _ => d.toNat == 119 }
    (fun vs => Check.release s (Order.releases ord)
      (match s.accessCheck 2 .atomic 4 s.grp.active (acc vs) with
       | .pass =>
         match (acc vs).filter (s.rankFault (rank vs) (acc vs)) with
         | [] => .pass
         | x :: rest => .stop (s.setGrp (s.grp.laneFault 16 0 (maskOf fun i => (x :: rest).any fun y => y.lane == i) x.raw))
       | k => k))
    fun vs act u =>
      let l := accessesOf sp 0 act fun i => argAt vs 0 i
      let msgs := l.filterMap fun x => (s.rankKey x).map fun key =>
        (⟨s.cur, s.rankTarget x key, .rank key (rank vs x.lane) ((argAt vs 1 x.lane).setWidth 32)⟩ : Msg)
      let v := (u.sample 2 4 act l false false).busy
      let v := l.foldl (fun v x => match v.globalVa v.cur x.addr with
        | some va => ((v.meterVa (v.cur % 16) va 4).flushSector v.asid va).l1Drop v.coreNo v.asid va
        | none => v) { v with net := v.net ++ msgs }
      match Order.acquires ord with
      | some sc => v.laneAcquire sc
      | none => v

-- Fences (R162, R163).

def FenceKind.rel : FenceKind → Bool
  | .acq => false
  | _ => true

def FenceKind.acquires : FenceKind → Bool
  | .rel => false
  | _ => true

/-- `fence` (R162). -/
def execFence (k : FenceKind) (scope : Scope) (s : State) : Out :=
  laneRun s { len := 8 } (fun _ => Check.release s (if FenceKind.rel k then some scope else none) .pass) fun _ _ t =>
    if FenceKind.acquires k then t.laneAcquire scope else t

/-- `l1inv` (R163). -/
def execL1inv (_scope : Scope) (s : State) : Out :=
  laneRun s { len := 8 } (fun _ => .pass) fun _ _ t => t.l1Clear t.coreNo

/-- The fill a prefetch starts for an address, if it would not fault (R164), and its translation: a sector of a G page is
filled under ASID 0 (20 R292). -/
def State.prefetchFill (s : State) (x : LaneAccess) (l2 : Bool) : Option ((Nat × Nat × Nat × Bool) × TlbEntry) :=
  match s.place s.cur false x.addr with
  | .ok (.global va _) =>
    match s.translate s.asid va .read with
    | .ok (pa, t) => some ((if t.asid == 0 then 0 else s.asid, va / 128 * 128, pa - va % 128, l2), t)
    | .error _ => none
  | _ => none

/-- `prefetch` (R164): starts fills and completes at issue; it never faults. -/
def execPrefetch (l2 : Bool) (sp : Space) (a : Code) (off : Half) (s : State) : Out :=
  laneRun s { len := 8, srcs := [src64 a] } (fun _ => .pass) fun vs act t =>
    let l := accessesOf sp off act fun i => argAt vs 0 i
    let fills := (l.filterMap fun x => s.prefetchFill x l2).eraseDups
    let u := t.sample 3 1 act l false false
    let v := fills.foldl (fun v f => (v.keepTlb f.2).meter (v.cur % 16) f.1.2.1 128 (some f.2)) u
    let c := v.core
    (if fills.isEmpty then v else v.setCore { c with fills := c.fills ++ fills.map fun f => f.1 }).sampleDone v.cur

-- The mask stack in memory (08 R147).

/-- The 17 accesses of a spill or fill, by lane 0. -/
def stackAccesses (sp : Space) (a : W64) : List LaneAccess :=
  (List.range 17).map fun k =>
    let raw := a + BitVec.ofNat 64 (8 * k)
    ⟨0, raw, spaceTag sp raw⟩

/-- The image words: msp, then the entries below it, zero above. -/
def Group.stackWord (g : Group) (k : Nat) : W64 :=
  if k == 0 then BitVec.ofNat 64 g.msp else if k ≤ g.msp then Map.get 0 g.mstack (k - 1) else 0

/-- Which of the 17 accesses one is. -/
def stackIndex (l : List LaneAccess) (x : LaneAccess) : Nat := (l.findIdx? fun y => y == x).getD 0

/-- `mspill` (R147): as lane 0's 64-bit stores, which no sampler takes. Those that are posted send one request for each
destination and sector, as a lane `st`'s do (10 R187 is silent; log 39). -/
def execMspill (sp : Space) (a : Code) (off : Half) (s : State) : Out :=
  let acc := fun vs => stackAccesses sp (argAt vs 0 0 + off.signExtend 64)
  let first := s.grp.laneSend.isNone
  let posts := fun vs => match s.grp.laneSend with
    | some rest => rest
    | none => ((acc vs).map fun x =>
        s.requests (fun _ => leBytes 8 (s.grp.stackWord (stackIndex (acc vs) x)).toNat) [x]).flatten
        |>.foldl (fun l r => addRequest r l) [] |>.map fun r => r.posting 3 0 true
  let plainStores := fun (vs : List LaneVec) (t : State) => (acc vs).foldl (fun u x =>
    match s.place s.cur false x.addr with
    | .ok p => if p.posted s.coreNo then u
               else u.laneStore x (leBytes 8 (s.grp.stackWord (stackIndex (acc vs) x)).toNat)
    | .error _ => u) t
  laneRun s { len := 8, srcs := [src64 a] }
    (fun vs =>
      match (if first then s.addressCheck .store 8 (acc vs) id else .pass) with
      | .pass =>
        let t := if first then plainStores vs s else s
        let r := t.sendPosts (posts vs)
        if r.2.isEmpty then .pass
        else .stop (r.1.setGrp { r.1.grp with laneSend := some r.2, laneWait := some .journal })
      | k => k)
    fun vs _ t =>
      let u := if first then plainStores vs t else t
      let v := (u.sendPosts (posts vs)).1
      v.setGrp { v.grp with laneSend := none, msp := 0, mstack := [] }

/-- `mfill` (R147): a stored msp above 16 or a non-zero reserved bit is the mask-stack overflow fault. -/
def execMfill (sp : Space) (a : Code) (off : Half) (s : State) : Out :=
  let acc := fun vs => stackAccesses sp (argAt vs 0 0 + off.signExtend 64)
  let words := fun vs => (acc vs).map fun x => BitVec.ofNat 64 (leNat (s.laneLoad .load 8 x).2)
  laneRun s { len := 8, srcs := [src64 a] }
    (fun vs =>
      match s.addressCheck .load 8 (acc vs) id with
      | .pass =>
        if 16 < ((words vs).getD 0 0).toNat then .fault s 6 s.grp.active (BitVec.ofNat 64 s.grp.msp) else .pass
      | k => k)
    fun vs _ t =>
      let w := words vs
      let n := (w.getD 0 0).toNat
      let u := (t.laneLoads .load 8 (acc vs)).1
      u.setGrp { u.grp with msp := n, mstack := (List.range n).map fun k => (k, w.getD (k + 1) 0) }

end Sys2Proof.Machine
end

