-- ==== Sys2Proof/Machine/Control.lean ====
section
/-! DEFINITION. Where the two streams and the groups of a block meet: joins, barriers, group end, releases of the
access stream; and the compute stream's own control flow, feedback, traps (01 R14; 05 R106-R109; 09 R166; 10 R180;
12 R223). -/
namespace Sys2Proof.Machine

-- Releases of the access stream (09 R166, 10 R171; 13 R229).

/-- How a release of the access stream goes. -/
inductive Release where
  | wait (t : State)
  | fault (t : State)
  | ok (t : State)

/-- The dirty hart-cache sectors that hold stores of a group slot. -/
def State.dirtyBy (s : State) (k : Nat) : List DirtySector :=
  s.dirty.filter fun d => (d.core == k / 16 && d.slot == k % 16) || d.also.contains k

/-- The fence write-back fault of the acting hart (09 R166; 12 Table 12-2): mcause 28 and the park of a translation
fault. -/
def State.writeBackFault (s : State) (f : XFault) (d : DirtySector) : State :=
  (s.streamFault s.cur .hart d.va .write f).trap 28 (BitVec.ofNat 64 d.va)

/-- The write-back that a release or a `z.join` makes before it completes. -/
def State.writeBackOwn (s : State) : Release :=
  match s.writeBackAll (s.dirtyBy s.cur) with
  | .ok t => if t.evicting s.coreNo then .wait t else .ok ((s.dirtyBy s.cur).foldl (fun u d => u.meterVa (16 + u.cur % 16) d.va 128) t)
  | .error (f, d) => .fault (s.writeBackFault f d)

/-- A release: earlier queue loads are read and journal entries of the access stream answered, then its dirty sectors are
written back. -/
def State.hartRelease (s : State) : Release :=
  if s.grp.hartInFlight || s.grp.loadsAway then .wait s else s.writeBackOwn

/-- Runs `k` after a release. -/
def afterRelease (s : State) (k : State → Out) : Out :=
  match s.hartRelease with
  | .wait t => hartWaits t .drain
  | .fault t => .next t
  | .ok t => k t

/-- An acquire of the access stream at block scope or wider empties the lane L1 (09 R166). -/
def State.hartAcquire (s : State) : State := s.l1Clear s.coreNo

-- Barriers (10 R180): keyed by the block, or the launch and its cluster, and the stream.

def State.barAt (s : State) (k : Nat) : Barrier := Map.get {} s.bars k
def State.setBar (s : State) (k : Nat) (b : Barrier) : State := { s with bars := s.bars.set k b }

/-- Whether a launch's blocks form clusters; an unclustered cluster barrier is the block barrier (10 R180). -/
def State.clustered (s : State) (blk : Nat) : Bool :=
  let l := s.launchAt (s.blkAt blk).launch
  l.cx * l.cy != 1

/-- The number of a cluster: of its launch, and in its grid (01 R12). -/
def State.clusterNo (s : State) (b : Block) : Nat :=
  let l := s.launchAt b.launch
  let c := l.cluster b.lin
  b.launch * 2 ^ 48 + c.1 + 2 ^ 16 * c.2.1 + 2 ^ 32 * c.2.2

/-- The keys of a cluster's barriers, apart from those of blocks. -/
def State.clusterKey (s : State) (blk : Nat) : Nat := (2 ^ 16 + s.clusterNo (s.blkAt blk)) * 4 + 2

/-- The barrier a group's stream uses. -/
def State.barKey (s : State) (k : Nat) (cluster lane : Bool) : Nat :=
  let blk := (s.grpAt k).blk
  let bit := if lane then 1 else 0
  if cluster && s.clustered blk then s.clusterKey blk + bit else blk * 4 + bit

/-- The group slots that take part in a barrier. A block of a cluster that has retired has only ended groups, which count
as arrived. -/
def State.participants (s : State) (bar : Nat) : List Nat :=
  if bar % 4 < 2 then (s.blkAt (bar / 4)).slots
  else (s.blocks.filter fun b => 2 ^ 16 + s.clusterNo b.2 == bar / 4).flatMap fun b => b.2.slots

/-- Whether a stream counts as arrived: it has arrived, its group has ended, or it waits at its end. -/
def State.hasArrived (s : State) (bar : Nat) (b : Barrier) (k : Nat) : Bool :=
  let g := s.grpAt k
  b.arrived.contains k || g.status == .ended
  || (if bar % 2 == 0 then g.hartWait == some .exit else g.cendDone)

/-- The progress counts that a completed block-barrier phase returns to zero (14 R246). -/
def State.resetProgress (s : State) (bar : Nat) : State :=
  if bar % 4 < 2 then
    { s with groups := s.groups.map fun p =>
        (p.1, if p.2.blk == bar / 4 then
                (if bar % 2 == 0 then { p.2 with progA := 0 } else { p.2 with progC := 0 })
              else p.2) }
  else s

/-- Completes the phase of a barrier in which every participant has arrived. -/
def State.settleBar (s : State) (bar : Nat) : State :=
  let b := s.barAt bar
  if !b.arrived.isEmpty && (s.participants bar).all (s.hasArrived bar b) then
    (s.setBar bar { phase := b.phase + 1, arrived := [] }).resetProgress bar
  else s

/-- Every barrier that a group's stream takes part in. -/
def State.settleGroup (s : State) (k : Nat) (lane : Bool) : State :=
  (s.settleBar (s.barKey k false lane)).settleBar (s.barKey k true lane)

/-- The arrival a stream has outstanding at a barrier: the phase in which it arrived. -/
def Group.arrivalAt (g : Group) (bar : Nat) : Option Nat :=
  if bar % 2 == 0 then g.hartArrived.find bar else g.laneArrived.find bar

def Group.setArrival (g : Group) (bar : Nat) (p : Option Nat) : Group :=
  let upd := fun (m : Map Nat) => match p with
    | some v => m.set bar v
    | none => m.erase bar
  if bar % 2 == 0 then { g with hartArrived := upd g.hartArrived } else { g with laneArrived := upd g.laneArrived }

/-- Whether a stream's outstanding arrival is in a phase not yet complete. -/
def State.arrivalOpen (s : State) (k bar : Nat) : Bool :=
  match (s.grpAt k).arrivalAt bar with
  | some p => (s.barAt bar).phase == p
  | none => false

/-- The acting stream arrives. -/
def State.arrive (s : State) (bar : Nat) : State :=
  let b := s.barAt bar
  ((s.setGrp (s.grp.setArrival bar (some b.phase))).setBar bar { b with arrived := s.cur :: b.arrived }).settleBar bar

-- Group end (01 R14, R19).

/-- A block whose groups have all ended is retiring. -/
def State.checkRetiring (s : State) (blk : Nat) : State :=
  let b := s.blkAt blk
  if b.slots.all fun k => (s.grpAt k).status == .ended then s.setBlkAt blk { b with state := .retiring } else s

/-- Ends a group: its remaining queue and scale-queue entries are discarded. -/
def State.endGroup (s : State) (k : Nat) : State :=
  let g := s.grpAt k
  let s := s.setGrpAt k
    { g with status := .ended, hartWait := none, laneWait := none, ldq := [], stq := [], scq := [], ctq := [], fbq := []
             scaleQ := [], runAhead := 0 }
  ((s.checkRetiring g.blk).settleGroup k false).settleGroup k true

-- The compute stream's own control.

/-- A control transfer of the compute stream. -/
def Group.laneGoto (g : Group) (a : W64) : Group := { g with lpc := a }

/-- The target of a signed word offset from the instruction's first word (05 R106). -/
def laneTarget (s : State) (off : Half) : W64 := s.grp.lpc + (off.signExtend 64 <<< 2)

/-- The form of a control instruction: not coverable by a prefix. -/
def controlForm (len : Nat) : LaneForm := { len := len, cover := false }

/-- `qmode` (05 R108). -/
def execQmode (p : BitVec 4) (s : State) : Out := laneControl s { len := 4 } fun g => { g with qmode := p }

/-- `cjmp` (05 Table 5-3). -/
def execCjmp (off : Half) (s : State) : Out :=
  let t := laneTarget s off
  laneControl s (controlForm 8) fun g => g.laneGoto t

/-- `cbr`: pops ctq; a non-zero token branches. -/
def execCbr (off : Half) (s : State) : Out :=
  let t := laneTarget s off
  laneRun s (controlForm 8) (fun _ => if s.grp.ctq.isEmpty then .wait .ctqEmpty else .pass) fun _ _ u =>
    let g := u.grp
    let n := g.ctq.getD 0 0
    let h := { g with ctq := g.ctq.drop 1 }
    u.setGrp (if n == 0 then h else h.laneGoto t)

/-- The overflow check of `ccall` and `cloop`, made before any pop (05 R106). -/
def frameCheck (s : State) (k : Check) : Check :=
  if 8 ≤ s.grp.frames.length then .fault s 8 s.grp.active (BitVec.ofNat 64 s.grp.frames.length) else k

/-- The mismatch fault (02 R47). -/
def mismatch (s : State) : Check := .fault s 9 s.grp.active (BitVec.ofNat 64 s.grp.frames.length)

/-- `ccall`: the newest frame stands first. -/
def execCcall (off : Half) (s : State) : Out :=
  let t := laneTarget s off
  laneRun s (controlForm 8) (fun _ => frameCheck s .pass) fun _ _ u =>
    let g := u.grp
    u.setGrp ({ g with frames := .call g.lpc :: g.frames }.laneGoto t)

/-- `cloop`: pops the count; zero skips the loop. -/
def execCloop (off : Half) (s : State) : Out :=
  let t := laneTarget s off
  laneRun s (controlForm 8) (fun _ => frameCheck s (if s.grp.ctq.isEmpty then .wait .ctqEmpty else .pass)) fun _ _ u =>
    let g := u.grp
    let n := g.ctq.getD 0 0
    let h := { g with ctq := g.ctq.drop 1 }
    u.setGrp (if n == 0 then h.laneGoto t else { h with frames := .loop g.lpc n :: g.frames })

/-- `cret`. -/
def execCret (s : State) : Out :=
  laneRun s (controlForm 4)
    (fun _ => match s.grp.frames with
      | .call _ :: _ => .pass
      | _ => mismatch s)
    fun _ _ u => match u.grp.frames with
      | .call r :: rest => u.setGrp ({ u.grp with frames := rest }.laneGoto r)
      | _ => u

/-- `cnext`: the count falls; while it is not zero the loop goes on at its head. -/
def execCnext (s : State) : Out :=
  laneRun s (controlForm 4)
    (fun _ => match s.grp.frames with
      | .loop _ _ :: _ => .pass
      | _ => mismatch s)
    fun _ _ u => match u.grp.frames with
      | .loop h n :: rest =>
        if n - 1 == 0 then u.setGrp { u.grp with frames := rest }
        else u.setGrp ({ u.grp with frames := .loop h (n - 1) :: rest }.laneGoto h)
      | _ => u

/-- `cend` (01 R14; 05 Table 5-3): the stream ends and stays at it; frames are discarded; a hart that waits at `z.exit`
ends the group. -/
def execCend (s : State) : Out :=
  laneRun s (controlForm 4) (fun _ => .pass) fun _ _ t =>
    let exit := s.grp.hartWait == some .exit
    let u := t.setGrp { t.grp with cendDone := true, frames := [], lpc := s.grp.lpc, laneWait := some .cend
                                   laneSince := s.cycles }
    if exit then u.endGroup u.cur else u.settleGroup u.cur true

/-- `trap` (12 R223): raises code 22 with the trap code, whatever em holds. -/
def execTrap (code : Half) (s : State) : Out :=
  laneRun s (controlForm 8) (fun _ => .fault s 22 s.grp.em (code.setWidth 64)) fun _ _ t => t

/-- `brk` (12 R223). -/
def execBrk (s : State) : Out :=
  laneRun s (controlForm 4) (fun _ => .fault s 23 s.grp.em 0) fun _ _ t => t

/-- `join` (05 R109): meets a hart that waits in `z.join`, and both complete. -/
def execJoin (s : State) : Out :=
  laneRun s { len := 4 } (fun _ => if s.grp.hartWait == some .join then .pass else .wait .join) fun _ _ t =>
    t.setGrp t.grp.hartNext

-- Feedback (05 R107).

def fbForm (fields : List Code) : LaneForm := { len := 4, ok := fun _ => fields.all maskOk, fbq := true }

/-- `fbpush`: the value of the lowest active lane, 0 with none. -/
def execFbpush (a : Code) (s : State) : Out :=
  laneRun s { len := 4, srcs := [src64 a], fbq := true } (fun _ => .pass) fun vs act t =>
    t.pushFbq (match lowestLane act with
      | some i => argAt vs 0 i
      | none => 0)
def execFbany (a : Code) (s : State) : Out :=
  laneRun s (fbForm [a]) (fun _ => .pass) fun _ act t => t.pushFbq (if s.grp.mask a &&& act != 0 then 1 else 0)
def execFball (a : Code) (s : State) : Out :=
  laneRun s (fbForm [a]) (fun _ => .pass) fun _ act t => t.pushFbq (if s.grp.mask a &&& act == act then 1 else 0)
def execFbcnt (a : Code) (s : State) : Out :=
  laneRun s (fbForm [a]) (fun _ => .pass) fun _ act t => t.pushFbq (BitVec.ofNat 64 (popCount (s.grp.mask a &&& act)))

-- Lane barriers (10 Table 10-5).

/-- The arrival and wait of `bbar`: an arrival already made is not made again (21 R305). The compute count rises when the
instruction starts, which is before the phase can complete (14 R246). -/
def execBbar (s : State) : Out :=
  let bar := s.barKey s.cur false true
  laneRun s { len := 4 }
    (fun _ => Check.release s (if s.grp.laneBar then none else some .block)
      (let t := if s.grp.laneBar then s
        else if s.arrivalOpen s.cur bar then s
        else
          let u := (s.setGrp { s.grp with progC := countUp s.grp.progC }).arrive bar
          u.setGrp { u.grp with laneBar := true }
      if !t.grp.laneBar then .wait .blockBarrier
      else if t.arrivalOpen s.cur bar then
        .stop (t.setGrp { t.grp with laneWait := some .blockBarrier })
      else .pass))
    fun _ _ t =>
      let u := if s.grp.laneBar then t.setGrp { t.grp with progC := s.grp.progC } else t.arrive bar
      (u.setGrp ({ u.grp with laneBar := false }.setArrival bar none)).l1Clear u.coreNo

/-- `cbar.arv`: an earlier arrival in an incomplete phase is waited for first. -/
def execCbarArv (s : State) : Out :=
  let bar := s.barKey s.cur true true
  laneRun s { len := 4 }
    (fun _ => Check.release s (some .cluster) (if s.arrivalOpen s.cur bar then .wait .clusterBarrier else .pass)) fun _ _ t =>
    t.arrive bar

/-- `cbar.wt`: a wait with no outstanding arrival completes at once and orders nothing. -/
def execCbarWt (s : State) : Out :=
  let bar := s.barKey s.cur true true
  laneRun s { len := 4 } (fun _ => if s.arrivalOpen s.cur bar then .wait .clusterBarrier else .pass) fun _ _ t =>
    if (s.grp.arrivalAt bar).isSome then (t.setGrp (t.grp.setArrival bar none)).l1Clear t.coreNo else t

end Sys2Proof.Machine
end

