-- ==== Sys2Proof/Machine/Registers.lean ====
section
/-! DEFINITION. The register space: who reaches which register, core blocks, port-die blocks, the doorbells and their
latches (21 R300, R303; 26 R350-R352; 27 R359; 28 R364, R365). -/
namespace Sys2Proof.Machine

-- Dies, partitions and cores.

/-- The core of a die-local index 16r + c (01 R16). -/
def coreOfDie (die k : Nat) : Nat := 48 * (8 * (die / 3) + k / 16) + 16 * (die % 3) + k % 16
/-- The die-local index of a core. -/
def localOfCore (c : Nat) : Nat := 16 * (c / 48 % 8) + c % 48 % 16
/-- The blocks on a core, and those of a partition. -/
def State.blocksOn (s : State) (c : Nat) : List (Nat × Block) := s.blocks.filter fun b => b.1 / 16 == c
def State.blocksOf (s : State) (p : Nat) : List (Nat × Block) := s.blocks.filter fun b => s.partOfCore (b.1 / 16) == p

-- Doorbells (21 R300, R303).

/-- Rewrites the doorbell of a slot. -/
def State.onMondb (s : State) (k : Nat) (f : Mondb → Mondb) : State :=
  let g := s.grpAt k
  s.setGrpAt k { g with mondb := f g.mondb }

/-- The lowest-numbered slot of a block whose group has not ended. -/
def State.p1Slot (s : State) (blk : Nat) : Option Nat :=
  ((s.blkAt blk).slots.filter fun k => (s.grpAt k).status == .live).foldl (fun m k => match m with
    | none => some k
    | some n => if k < n then some k else some n) none

/-- Sets p1 on that slot and clears it on every other slot of the block. -/
def State.markP1 (s : State) (blk : Nat) : State :=
  let p := s.p1Slot blk
  (s.blkAt blk).slots.foldl (fun t k => t.onMondb k fun m => { m with p1 := p == some k }) s

/-- Sets kil on a slot (R303), and p1 of its block; the images of an earlier stop no longer count. -/
def State.setKil (s : State) (k : Nat) : State :=
  let g := s.grpAt k
  if g.mondb.kil then s
  else
    let t := s.setGrpAt k { g with mondb := { g.mondb with kil := true }, saved0 := false }
    if g.status == .idle then t
    else
      let u := t.markP1 g.blk
      u.setBlkAt g.blk { u.blkAt g.blk with saved1 := false }

/-- A context is dead of a cause. The rank windows of it, and the contributions that they hold or that are under way, are
discarded (28 R369). -/
def State.die (s : State) (asid cause : Nat) : State :=
  if (s.dead.find asid).isSome then s
  else
    let mine := fun k => (s.launchAt (s.blkAt (s.grpAt k).blk).launch).asid == asid
    { s with
      dead := s.dead.set asid cause
      windows := s.windows.filter fun w => w.asid != asid
      net := s.net.filter fun m => match m.body with
        | .rank _ _ _ => !mine m.src
        | _ => true }

/-- A fatal error of a context at a slot (R303): its cause, its trace record (28 Table 28-6), and kil on every slot of
every block of it. A context that is dead already stays as it is. -/
def State.fatal (s : State) (asid cause k : Nat) (val : W64) : State :=
  if (s.dead.find asid).isSome then s
  else
    let t := (s.die asid cause).trace k 8 asid (cause + 2 ^ 64 * val.toNat)
    (t.blocks.filter fun b => (t.launchAt b.2.launch).asid == asid).foldl (fun u b => b.2.slots.foldl State.setKil u) t

/-- The cause of a context that Quayside itself halts, beside those of traps and devices. -/
def quaysideCause : Nat := 261

/-- Quayside's order to halt a slot (R303): its context is dead. -/
def State.killSlot (s : State) (k : Nat) : State :=
  let g := s.grpAt k
  (if g.status == .idle then s else s.die (s.launchAt (s.blkAt g.blk).launch).asid quaysideCause).setKil k

/-- The W1C write of MONDB: res, fla, flc and sdn. -/
def Mondb.clear (m : Mondb) (v : W64) : Mondb :=
  { m with res := m.res && !v.getLsbD 1, fla := m.fla && !v.getLsbD 3, flc := m.flc && !v.getLsbD 4
           sdn := m.sdn && !v.getLsbD 5 }

-- Mailbox counters (02 R53).

def State.counter (s : State) (c k : Nat) : W32 := Map.get 0 (s.coreAt c).counters k
/-- Whether (a - b), read as a signed 32-bit number, is at least 0. -/
def reached32 (a b : W32) : Bool := !(a - b).msb

/-- Whether a hart waits for a counter, and for no more than a value. -/
def Group.wakesAt (g : Group) (key : Nat) (v : W32) : Bool :=
  match g.hartWait with
  | some (.mailbox k n) => k == key && reached32 v n
  | _ => false

/-- Every waiter on a counter whose condition holds wakes in the update that met it (10 R176). -/
def State.wakeCounter (s : State) (key : Nat) (v : W32) : State :=
  if s.groups.any fun g => g.2.wakesAt key v then
    { s with groups := s.groups.map fun g => (g.1, if g.2.wakesAt key v then { g.2 with hartWait := some (.woken v) } else g.2) }
  else s

/-- A counter's new value at its home. -/
def State.setCounter (s : State) (c k : Nat) (v : W32) : State :=
  let r := s.coreAt c
  (s.setCoreAt c { r with counters := r.counters.set k v }).wakeCounter (256 * c + k) v

-- Core blocks (26 Table 26-4; 27 Table 27-2; 28 Tables 28-2, 28-3).

/-- Whether an agent reaches the doorbell registers of slot `k`: the slot's own hart (21 R300). -/
def ownSlot (who : Agent) (k : Nat) : Bool := who == .hartM k

/-- Whether an agent reaches a core's block at all: the system cores, the Harbourmaster, and the core's own harts while
they are in M-mode (26 R350). -/
def State.coreAgent (s : State) (who : Agent) (c : Nat) : Bool :=
  match who with
  | .sysCore _ | .harbourmaster => true
  | .hartM g => g / 16 == c && (s.grpAt g).mode == .m
  | _ => false

/-- Whether a register of a core block may be reached by an agent (26 R350; 21 R300). -/
def State.coreMayReach (s : State) (who : Agent) (c off : Nat) : Bool :=
  let agent := s.coreAgent who c
  if 0x100 ≤ off && off < 0x200 then agent && ownSlot who (c * 16 + (off - 0x100) / 16)
  else if off == 0x300 || (0xC00 ≤ off && off < 0x1000) then
    match who with
    | .sysCore _ => true
    | _ => false
  else agent

/-- A core register's value. -/
def State.coreReg (s : State) (c off : Nat) : W64 :=
  let v := s.coreAt c
  let k := c * 16 + (off - 0x100) / 16
  if off == 0 then BitVec.ofNat 64 (1 + 256 * localOfCore c)
  else if off == 8 then v.blkErr.setWidth 64
  else if 0x100 ≤ off && off < 0x200 then
    (if off % 16 == 0 then (s.grpAt k).mondbWord else (s.grpAt k).monsave)
  else if 0x400 ≤ off && off < 0x450 then
    let i := (off - 0x400) / 8
    BitVec.ofNat 64 ((Map.get 0 v.corrected i).toNat + 2 ^ 32 * (Map.get 0 v.uncorrected i).toNat)
  else if off == 0x450 || off == 0x458 then (Map.get 0 v.latent ((off - 0x450) / 8)).setWidth 64
  else if off == 0x500 then v.bwSent
  else if off == 0x508 then v.bwHeld + BitVec.ofNat 64 (if v.heldPort.isEmpty then 0 else s.cycles - v.heldSince)
  else if 0x600 ≤ off && off < 0x660 then BitVec.ofNat 64 (Map.get 0 v.buckets ((off - 0x600) / 8))
  else if 0x700 ≤ off && off < 0x730 then Map.get 0 v.issue ((off - 0x700) / 8)
  else if 0xC00 ≤ off && off < 0x1000 then
    let i := (off - 0xC00) / 4
    (Map.get 0 v.counters (i + 1)) ++ (Map.get 0 v.counters i)
  else if 0x8000 ≤ off then (s.blkAt (c * 16 + (off - 0x8000) / 2048)).handle (off % 2048 / 8)
  else 0

/-- Whether an offset is a reserved part of the core block, where a non-zero write is counted (00 R5). -/
def coreReserved (off : Nat) : Bool :=
  !(off == 0 || off == 8 || (0x100 ≤ off && off < 0x200) || off == 0x300 || (0x400 ≤ off && off < 0x460)
    || off == 0x500 || off == 0x508 || (0x600 ≤ off && off < 0x660) || (0x700 ≤ off && off < 0x730)
    || (0xC00 ≤ off && off < 0x1000) || 0x8000 ≤ off)

/-- The breakwater registers of a core, whose writes are counted (27 R359). -/
def coreCounted (off : Nat) : Bool := off == 0x500 || off == 0x508 || (0x600 ≤ off && off < 0x660)

/-- Reserved bits of the core block's registers that have other bits (Tables 26-4, 28-2), of which a non-zero write is
counted (00 R5). -/
def coreReservedBits (off : Nat) : W64 :=
  if off == 0 then 0xFFFFFFFFFF000000
  else if 0x400 ≤ off && off < 0x450 then 0xFFFF000000000000
  else if off == 0x450 || off == 0x458 then 0xFFFFFFFF00000000
  else if off == 0x300 then 0xFFFFFFFFFFFF0000
  else if coreReserved off then 0xFFFFFFFFFFFFFFFF
  else 0

/-- A write to a core register under a mask of the bits it carries (26 Table 26-4). -/
def State.coreWrite (s : State) (c off : Nat) (v mask : W64) : State :=
  let k := c * 16 + (off - 0x100) / 16
  if off == 8 then s.setCoreAt c { s.coreAt c with blkErr := 0 }
  else if 0x100 ≤ off && off < 0x200 then
    if off % 16 == 0 then
      let t := s.onMondb k fun m => m.clear (v &&& mask)
      if v &&& mask &&& 0xFFFFFFFFFFFE0000 == 0 then t else t.countBlkErr c
    else s.setGrpAt k { s.grpAt k with monsave := ((s.grpAt k).monsave &&& ~~~mask) ||| (v &&& mask) }
  else if off == 0x300 then
    let t := (List.range 16).foldl (fun t i => if (v &&& mask).getLsbD i then t.killSlot (c * 16 + i) else t) s
    if v &&& mask &&& coreReservedBits off == 0 then t else t.countBlkErr c
  else if 0xC00 ≤ off && off < 0x1000 then
    let i := (off - 0xC00) / 4
    let t := if mask.getLsbD 0 then s.setCounter c i (v.setWidth 32) else s
    if mask.getLsbD 32 then t.setCounter c (i + 1) ((v >>> 32).setWidth 32) else t
  else if coreCounted off || v &&& mask &&& coreReservedBits off != 0 then s.countBlkErr c
  else s

-- The rest of the register space (26 Tables 26-3, 26-5).

/-- The block of an offset outside the core blocks: the offset of its BLKERR, its type and its index. -/
def blockOf (off : Nat) : Nat × Nat × Nat :=
  let n := off / 0x1000000
  let i := off % 0x1000000
  if n < 12 then
    let b := n * 0x1000000
    if i < 0xA00000 then (b + i / 0x1000 * 0x1000 + 8, 2, (i - 0x800000) / 0x1000)
    else if i < 0xC00000 then (b + i / 0x10000 * 0x10000 + 8, 3, (i - 0xA00000) / 0x10000)
    else if i < 0xE00000 then (b + 0xC00000 + 8, 4, 0)
    else (b + 0xE00000 + 8, 5, 0)
  else if n < 14 then (0x1000000 * n + 8, 6, n - 12)
  else if off < 0xE100000 then (0xE000000 + 8, 7, 0)
  else if off < 0xE500000 then (off / 0x10000 * 0x10000 + 8, 8, (off - 0xE100000) / 0x10000)
  else if off < 0xE580000 then (off / 0x10000 * 0x10000 + 8, 9, (off - 0xE500000) / 0x10000)
  else (pd0 8, 6, 0)

/-- The core of an offset in a core block. -/
def coreAtOffset (off : Nat) : Option Nat :=
  let n := off / 0x1000000
  if n < 12 && off % 0x1000000 < 0x800000 then some (coreOfDie n (off % 0x1000000 / 0x10000)) else none

/-- Counts an access in the error counter of the block an offset lies in (00 R5). -/
def State.countReg (s : State) (off : Nat) : State :=
  match coreAtOffset off with
  | some c => s.countBlkErr c
  | none =>
    let k := (blockOf off).1
    let v := s.reg k
    { s with regs := s.regs.set k (if v == 0xFFFFFFFF then v else v + 1) }

/-- The bits a plain write to a register outside the core blocks changes (Tables 26-4, 26-5, 27-1, 28-5); registers with
behaviour of their own are none of these. -/
def plainBits (off : Nat) : W64 :=
  if off == pd0 0x108 then 0x000FFFFFFFFFF000
  else if off == pd0 0x110 then 0x000FFFFFFFFFFE00
  else if off == pd0 0x118 then 0xFFFF
  else if pd0 0x10000 ≤ off && off < pd0 0x50000 then
    let o := off % 0x10000
    if o == 0x8 then 0xFFFFFFFFFFFFFFFF
    else if o == 0x10 then 0x000FFFFFFE000000
    else if 0x100 ≤ o && o < 0x300 then 0x1FFFF
    else if o == 0x2000 then 1
    else if o == 0x2008 then 0x000FFFFFFFFE0000
    else if 0x2100 ≤ o && o < 0x2160 then 0xFFFFF
    else if o == 0x3000 then 0x000FFFFFFFFFF000
    else if o == 0x3008 then 0xFF3F
    else if o == 0x3010 then 0xFFFFFFFF
    else if o == 0x3100 then 0x1FFFF
    else 0
  else 0

/-- The read-only breakwater registers, whose writes are counted (27 R359). -/
def plainReadOnly (off : Nat) : Bool :=
  let o := off % 0x10000
  pd0 0x10000 ≤ off && off < pd0 0x50000 && 0x2180 ≤ o && o < 0x21E0

/-- Read-only bits, a write of which is ignored and no more (00 R5): BLKID's fields, the FUSE mirror, PORTST, HLEASE,
HLEXP, HLRES, the trace tail and drop counts. -/
def ignoredBits (off : Nat) : W64 :=
  let o := off % 0x10000
  if off == (blockOf off).1 - 8 then 0xFFFFFF
  else if off == 0xE008008 then 7
  else if 0xE008000 ≤ off && off < 0xE0080D0 then 0xFFFFFFFFFFFFFFFF
  else if pd0 0x800 ≤ off && off < pd0 0x980 || pd0 0x1000800 ≤ off && off < pd0 0x1000980 then 0xF
  else if off == pd0 0x400 then 0xFFFF0007
  else if off == pd0 0x410 then 0xFFFFFFFFFFFFFFFF
  else if off == pd0 0x418 then 7
  else if pd0 0x10000 ≤ off && off < pd0 0x50000 && (o == 0x3018 || o == 0x3020) then 0xFFFFFFFF
  else 0

/-- Whether an agent reaches a register outside the core blocks (26 R350). -/
def State.mayReach (s : State) (who : Agent) (off : Nat) : Bool :=
  let inSub := pd0 0x10000 ≤ off && off < pd0 0x50000
  let o := off % 0x10000
  let hq := (s.part ((off - pd0 0x10000) / 0x10000)).hqs
  match who with
  | .sysCore k => if 0xE001000 ≤ off && off < 0xE002000 then (off - 0xE001000) / 0x100 == k else true
  | .harbourmaster => !(0xE001000 ≤ off && off < 0xE002000)
  | .jetty j =>
    off / 0x10000 == (0xE100000 + 0x10000 * j) / 0x10000
    || (inSub && 0x20 ≤ o && o < 0x40)
    || (inSub && 0x400 ≤ o && o < 0x1400)
    || (inSub && 0x1400 ≤ o && o < 0x1C00 && bits (Map.get {} hq ((o - 0x1400) / 64)).ctl.toNat 5 1 == j)
  | .hostPort _ => (pd0 0x400 ≤ off && off < pd0 0x420) || (inSub && 0x1400 ≤ o && o < 0x1C00 && 24 ≤ o % 64)
  | .hartM _ => false

/-- HLEASE (23 Table 23-5). -/
def Lease.word (l : Lease) : W64 := BitVec.ofNat 64 (l.holder + 2 * l.st + 2 ^ 16 * l.epoch.toNat)

/-- PORTST (Table 26-5). -/
def Link.word (l : Link) : W64 :=
  BitVec.ofNat 64 ((match l.mode with
    | .down => 0
    | .cxl31 => 1
    | .cxl20 => 2
    | .pcie6 => 3
    | .pcie5 => 4) + if l.x8 then 8 else 0)

/-- nblk: the blocks not yet suspended while stopping, or not yet restored while resuming (21 Table 21-3). -/
def State.gangLeft (s : State) (p : Nat) : Nat :=
  let st := (s.part p).gangSt
  ((s.blocksOf p).filter fun b =>
    if st == 1 then b.2.state == .running
    else st == 3 && (b.2.needPart1 || b.2.slots.any fun k =>
      (s.grpAt k).status == .live && (s.grpAt k).saved0 && !(s.grpAt k).mondb.kil)).length

/-- st: stopping ends in suspended, and resuming in running, when nblk reaches 0 (R304, R311). -/
def State.gangSt (s : State) (p : Nat) : Nat :=
  let st := (s.part p).gangSt
  if s.gangLeft p == 0 then (if st == 1 then 2 else if st == 3 then 0 else st) else st

/-- GANGCTL as read. -/
def State.gangWord (s : State) (p : Nat) : W64 :=
  BitVec.ofNat 64 (4 * s.gangSt p + 16 * if s.gangSt p % 2 == 1 then s.gangLeft p else 0)

/-- Word `i` of the FUSE mirror (26 Table 26-4). -/
def Fuses.word (f : Fuses) (i : Nat) : W64 :=
  if i == 0 then f.arb
  else if i == 1 then BitVec.ofNat 64 ((if f.vrev then 1 else 0) + 2 * f.oprog.toNat)
  else if i < 26 then
    BitVec.ofNat 64 (leNat ((((if i < 10 then f.vendor else if i < 18 then f.owner1 else f.owner2)).drop
      (8 * ((i - 2) % 8))).take 8))
  else 0

/-- The value a register of the partition sub-block reads. -/
def State.subReg (s : State) (p o off : Nat) : W64 :=
  let pt := s.part p
  let pq := Map.get {} pt.pqs ((o - 0x400) / 64)
  let hq := Map.get {} pt.hqs ((o - 0x1400) / 64)
  if o == 0 then s.gangWord p
  else if 0x400 ≤ o && o < 0x1400 then
    match o % 64 with
    | 0 => BitVec.ofNat 64 (pq.base + pq.log2)
    | 8 => pq.head.setWidth 64
    | 16 => pq.tail.setWidth 64
    | 24 => pq.notice
    | 32 => pq.stale
    | _ => 0
  else if 0x1400 ≤ o && o < 0x1C00 then
    match o % 64 with
    | 0 => (hq.ctl &&& 0x3FFFFFF) ||| (if hq.broken then 0x4000000 else 0)
    | 8 => BitVec.ofNat 64 hq.sub
    | 16 => BitVec.ofNat 64 hq.comp
    | _ => 0
  else if o == 0x3018 then pt.traceTail.setWidth 64
  else if o == 0x3020 then pt.traceDrop.setWidth 64
  else s.reg off

/-- The value of a register outside the core blocks. -/
def State.spaceReg (s : State) (who : Agent) (off : Nat) : W64 :=
  let b := blockOf off
  if off == b.1 - 8 then BitVec.ofNat 64 (b.2.1 + 256 * b.2.2)
  else if off == pd0 0x120 then s.boot.bootst
  else if off == pd0 0x400 then s.host.lease.word
  else if off == pd0 0x410 then s.host.lease.exp
  else if off == pd0 0x418 then
    BitVec.ofNat 64 (match who with
      | .hostPort p => Map.get 0 s.host.lease.res p
      | _ => Map.get 0 s.host.lease.res 0)
  else if pd0 0x800 ≤ off && off < pd0 0x980 then (Map.get {} s.host.links ((off - pd0 0x800) / 0x40)).word
  else if pd0 0x1000800 ≤ off && off < pd0 0x1000980 then (Map.get {} s.host.links (8 + (off - pd0 0x1000800) / 0x40)).word
  else if pd0 0x10000 ≤ off && off < pd0 0x50000 then s.subReg ((off - pd0 0x10000) / 0x10000) (off % 0x10000) off
  else if 0xE001000 ≤ off && off < 0xE001800 then
    let c := Map.get {} s.sec.calls ((off - 0xE001000) / 0x100)
    let o := off % 0x100
    if o < 64 then BitVec.ofNat 64 (leNat ((c.record.drop o).take 8))
    else if o == 72 then c.res else if o == 80 then c.res2 else 0
  else if 0xE008000 ≤ off && off < 0xE0080D0 then
    (if s.boot.standby then s.boot.fuse1 else s.boot.fuse0).word ((off - 0xE008000) / 8)
  else if off == 0xE008100 then s.boot.banksel
  else s.reg off

/-- A read of any register by an agent; a read it may not make gives zero and is counted (26 R350). -/
def State.regRead (s : State) (who : Agent) (off : Nat) : State × W64 :=
  let a := off / 8 * 8
  match coreAtOffset a with
  | some c => if s.coreMayReach who c (a % 0x10000) then (s, s.coreReg c (a % 0x10000)) else (s.countBlkErr c, 0)
  | none => if s.mayReach who a then (s, s.spaceReg who a) else (s.countReg a, 0)

/-- A plain write (26 R350; 00 R5): RW bits are stored, read-only bits ignored; a non-zero value in a reserved bit, or any
write of a read-only breakwater register, is counted. -/
def State.plainWrite (s : State) (off : Nat) (v mask : W64) : State :=
  let rw := plainBits off
  let t := if rw == 0 then s
    else { s with regs := s.regs.set off ((s.reg off &&& ~~~(rw &&& mask)) ||| (v &&& rw &&& mask)) }
  if plainReadOnly off || v &&& mask &&& ~~~(rw ||| ignoredBits off) != 0 then t.countReg off else t

/-- A write of `n` bytes at a register offset as a value and mask of the aligned 64-bit register. -/
def regLane (off n : Nat) (v : W64) : W64 × W64 :=
  let sh := 8 * (off % 8)
  (v <<< sh, BitVec.ofNat 64 ((2 ^ (8 * n) - 1) * 2 ^ sh))

/-- A write to a core block by an agent; one it may not make is ignored and counted. -/
def State.coreRegWrite (s : State) (who : Agent) (c off : Nat) (v mask : W64) : State :=
  if s.coreMayReach who c off then s.coreWrite c off v mask else s.countBlkErr c

end Sys2Proof.Machine
end

