-- ==== Sys2Proof/Machine/Hart.lean ====
section
/-! DEFINITION. The access stream's standard instructions: registers and tokens, RV64IM with Zba, Zbb and Zicond,
loads, stores, AMO, LR and SC at their homes, fences, CSRs, traps and returns (02 R34-R40, R52; 04 R87; 09 R165-R168;
12 R215, R218). -/
namespace Sys2Proof.Machine

-- Registers and tokens (02 R52; 10 R174).

/-- Whether a register waits for a copy. -/
def Group.tokenBusy (g : Group) (r : XReg) : Bool :=
  match g.tokens.find r.toNat with
  | some t => !t.ready
  | none => false

/-- The first read of a completed token is an acquire; a read or write ends the token. -/
def State.observe (s : State) (reads writes : List XReg) : State :=
  let g := s.grp
  let t := if reads.any fun r => (g.tokens.find r.toNat).isSome then s.hartAcquire else s
  t.setGrp { g with tokens := (reads ++ writes).foldl (fun m r => m.erase r.toNat) g.tokens }

/-- Whether an outcome leaves the acting hart waiting. -/
def Out.waits : Out → Bool
  | .next t => t.grp.hartWait.isSome
  | _ => false

/-- Runs a hart instruction once no register it names waits for a copy. One that waits performs nothing meanwhile: the
tokens it read stay (05 R102). -/
def hartRun (s : State) (reads writes : List XReg) (k : State → Out) : Out :=
  if s.grp.tokens.isEmpty then k s
  else if (reads ++ writes).any s.grp.tokenBusy then hartWaits s .token
  else
    let o := k (s.observe reads writes)
    if Out.waits o then k s else o

/-- The completed instruction with its result. -/
def State.hartDone (s : State) (rd : XReg) (v : W64) : State := s.setGrp (s.grp.setX rd v).hartNext

/-- Whether the hart is in M-mode. -/
def State.mmode (s : State) : Bool := s.grp.mode == .m

-- Arithmetic (RV64IM, Zba, Zbb, Zicond).

def sx32 (v : W32) : W64 := v.signExtend 64
def lo32 (v : W64) : W32 := v.setWidth 32

/-- Division rounds toward zero; by zero it gives all ones, and the one overflow gives the dividend. -/
def sdivRv {w : Nat} (a b : BitVec w) : BitVec w := if b == 0 then BitVec.allOnes w else a.sdiv b
def udivRv {w : Nat} (a b : BitVec w) : BitVec w := if b == 0 then BitVec.allOnes w else a / b
def sremRv {w : Nat} (a b : BitVec w) : BitVec w := if b == 0 then a else a.srem b
def uremRv {w : Nat} (a b : BitVec w) : BitVec w := if b == 0 then a else a % b

def aluOp (op : AluOp) (a b : W64) : W64 :=
  let n := b.toNat % 64
  let n5 := b.toNat % 32
  let uw := (lo32 a).setWidth 64
  match op with
  | .add => a + b
  | .sub => a - b
  | .sll => a <<< n
  | .slt => ofFlag 64 (a.slt b)
  | .sltu => ofFlag 64 (a.ult b)
  | .xor => a ^^^ b
  | .srl => a >>> n
  | .sra => a.sshiftRight n
  | .or => a ||| b
  | .and => a &&& b
  | .addw => sx32 (lo32 a + lo32 b)
  | .subw => sx32 (lo32 a - lo32 b)
  | .sllw => sx32 (lo32 a <<< n5)
  | .srlw => sx32 (lo32 a >>> n5)
  | .sraw => sx32 ((lo32 a).sshiftRight n5)
  | .mul => a * b
  | .mulh => BitVec.ofInt 64 (a.toInt * b.toInt / 2 ^ 64)
  | .mulhsu => BitVec.ofInt 64 (a.toInt * (b.toNat : Int) / 2 ^ 64)
  | .mulhu => BitVec.ofNat 64 (a.toNat * b.toNat / 2 ^ 64)
  | .div => sdivRv a b
  | .divu => udivRv a b
  | .rem => sremRv a b
  | .remu => uremRv a b
  | .mulw => sx32 (lo32 a * lo32 b)
  | .divw => sx32 (sdivRv (lo32 a) (lo32 b))
  | .divuw => sx32 (udivRv (lo32 a) (lo32 b))
  | .remw => sx32 (sremRv (lo32 a) (lo32 b))
  | .remuw => sx32 (uremRv (lo32 a) (lo32 b))
  | .adduw => uw + b
  | .sh1add => (a <<< 1) + b
  | .sh2add => (a <<< 2) + b
  | .sh3add => (a <<< 3) + b
  | .sh1adduw => (uw <<< 1) + b
  | .sh2adduw => (uw <<< 2) + b
  | .sh3adduw => (uw <<< 3) + b
  | .andn => a &&& ~~~b
  | .orn => a ||| ~~~b
  | .xnor => ~~~(a ^^^ b)
  | .max => if a.slt b then b else a
  | .maxu => if a.ult b then b else a
  | .min => if a.slt b then a else b
  | .minu => if a.ult b then a else b
  | .rol => a.rotateLeft n
  | .ror => a.rotateRight n
  | .rolw => sx32 ((lo32 a).rotateLeft n5)
  | .rorw => sx32 ((lo32 a).rotateRight n5)
  | .czeroeqz => if b == 0 then 0 else a
  | .czeronez => if b != 0 then 0 else a

def aluImmOp (op : AluImmOp) (a : W64) (imm : BitVec 12) : W64 :=
  let i := imm.signExtend 64
  let n := imm.toNat % 64
  let n5 := imm.toNat % 32
  match op with
  | .addi => a + i
  | .slti => ofFlag 64 (a.slt i)
  | .sltiu => ofFlag 64 (a.ult i)
  | .xori => a ^^^ i
  | .ori => a ||| i
  | .andi => a &&& i
  | .slli => a <<< n
  | .srli => a >>> n
  | .srai => a.sshiftRight n
  | .addiw => sx32 (lo32 (a + i))
  | .slliw => sx32 (lo32 a <<< n5)
  | .srliw => sx32 (lo32 a >>> n5)
  | .sraiw => sx32 ((lo32 a).sshiftRight n5)
  | .slliuw => (lo32 a).setWidth 64 <<< n
  | .rori => a.rotateRight n
  | .roriw => sx32 ((lo32 a).rotateRight n5)

/-- The leading zeros of the low `w` bits. -/
def leadingZeros (w : Nat) (v : W64) : Nat := ((List.range w).find? fun i => v.getLsbD (w - 1 - i)).getD w
def trailingZeros (w : Nat) (v : W64) : Nat := ((List.range w).find? fun i => v.getLsbD i).getD w
def onesIn (w : Nat) (v : W64) : Nat := ((List.range w).filter fun i => v.getLsbD i).length
/-- A value from its eight bytes, byte 0 first. -/
def ofBytes (f : Nat → Byte) : W64 := BitVec.ofNat 64 (leNat ((List.range 8).map f))
def byteOf (v : W64) (i : Nat) : Byte := BitVec.ofNat 8 (v.toNat / 2 ^ (8 * i))

def unOp (op : UnOp) (a : W64) : W64 :=
  match op with
  | .clz => BitVec.ofNat 64 (leadingZeros 64 a)
  | .ctz => BitVec.ofNat 64 (trailingZeros 64 a)
  | .cpop => BitVec.ofNat 64 (onesIn 64 a)
  | .clzw => BitVec.ofNat 64 (leadingZeros 32 a)
  | .ctzw => BitVec.ofNat 64 (trailingZeros 32 a)
  | .cpopw => BitVec.ofNat 64 (onesIn 32 a)
  | .sextb => (a.setWidth 8).signExtend 64
  | .sexth => (a.setWidth 16).signExtend 64
  | .zexth => (a.setWidth 16).setWidth 64
  | .orcb => ofBytes fun i => if byteOf a i == 0 then 0 else 0xFF
  | .rev8 => ofBytes fun i => byteOf a (7 - i)

def branchTaken (c : BrCond) (a b : W64) : Bool :=
  match c with
  | .eq => a == b
  | .ne => a != b
  | .lt => a.slt b
  | .ge => !a.slt b
  | .ltu => a.ult b
  | .geu => !a.ult b

/-- A jump that links: a target that is not a multiple of 4 raises mcause 0 (04 R87). -/
def hartJump (s : State) (rd : XReg) (target : W64) : Out :=
  if target.getLsbD 0 || target.getLsbD 1 then raise s 0 target
  else .next (s.setGrp ((s.grp.setX rd (s.grp.pc + 4)).hartGoto target))

/-- `HART_INSTRUCTION`: the standard instructions without a row of their own (04 R87). -/
def execHartInstruction (op : HartOp) (s : State) : Out :=
  match op with
  | .lui rd imm => hartRun s [] [rd] fun t => .next (t.hartDone rd ((imm ++ 0#12).signExtend 64))
  | .auipc rd imm => hartRun s [] [rd] fun t => .next (t.hartDone rd (t.grp.pc + (imm ++ 0#12).signExtend 64))
  | .jal rd off => hartRun s [] [rd] fun t => hartJump t rd (t.grp.pc + off.signExtend 64)
  | .jalr rd rs1 imm => hartRun s [rs1] [rd] fun t => hartJump t rd ((t.grp.xr rs1 + imm.signExtend 64) &&& ~~~1)
  | .branch c rs1 rs2 off => hartRun s [rs1, rs2] [] fun t =>
    let target := t.grp.pc + off.signExtend 64
    if !branchTaken c (t.grp.xr rs1) (t.grp.xr rs2) then .next (t.setGrp t.grp.hartNext)
    else if target.getLsbD 0 || target.getLsbD 1 then raise t 0 target
    else .next (t.setGrp (t.grp.hartGoto target))
  | .alu op rd rs1 rs2 => hartRun s [rs1, rs2] [rd] fun t =>
    .next (t.hartDone rd (aluOp op (t.grp.xr rs1) (t.grp.xr rs2)))
  | .aluImm op rd rs1 imm => hartRun s [rs1] [rd] fun t => .next (t.hartDone rd (aluImmOp op (t.grp.xr rs1) imm))
  | .unary op rd rs1 => hartRun s [rs1] [rd] fun t => .next (t.hartDone rd (unOp op (t.grp.xr rs1)))

-- Memory access (09 R165; 13 R227).

/-- Whether a message of the acting group to a destination is still on its way. -/
def State.sentTo (s : State) (dst : Option Nat) : Bool := s.net.any fun m => m.src == s.cur && some m.dst == dst

/-- How an access of the hart fares before it is performed. -/
inductive HartHit where
  | home (key : Nat) (t : Option TlbEntry) (va : Option Nat)
  | block (off : Nat)
  | distant
  | wait (w : HartWait)
  | fault (t : State)

/-- The causes of a hart access: a load's, or a store's, an AMO's and an SC's. -/
def misalignedCause (load : Bool) : Nat := if load then 4 else 6
def spaceCause (load : Bool) : Nat := if load then 5 else 7
def xlateCause (load : Bool) : Nat := if load then 13 else 15

/-- A translation fault of the acting hart: it parks or goes to the error queue, and the hart traps. -/
def State.hartXlate (s : State) (va : Nat) (need : Need) (f : XFault) (load : Bool) (addr : W64) : State :=
  (s.streamFault s.cur .hart va need f).trap (xlateCause load) addr

/-- As `reach` for the acting hart: a sector that its cache holds dirty needs no packet (25 R338). -/
def State.cachedReach (s : State) (addr : W64) (n : Nat) (need : Need) : Reach :=
  let held := (need == .read || need == .write) && match s.globalVa s.cur addr with
    | some va => (s.dirtyOf s.asid va).isSome
    | none => false
  (if held then { s with sec := { s.sec with flows := [] } } else s).reach s.cur s.mmode addr n need

/-- The checks of a hart access in their order: alignment, space, translation, data. One to scratch, vault or fabric space
follows the queue loads still to be read at distant homes (13 R234). -/
def State.hartReach (s : State) (addr : W64) (n : Nat) (need : Need) (load blockOk : Bool) : HartHit :=
  if addr.toNat % n != 0 then .fault (s.trap (misalignedCause load) addr)
  else match s.place s.cur s.mmode addr with
    | .error .space => .fault (s.trap (spaceCause load) addr)
    | .error .noMap => .fault (s.hartXlate (addr.toNat % 2 ^ 57) need (noMapping addr) load addr)
    | .ok (.block off) => if blockOk then .block off else .fault (s.trap (spaceCause load) addr)
    | .ok p =>
      if s.grp.loadsAway && p.isUncached then .wait .drain
      else if p.posted s.coreNo then .distant
      else if s.sentTo (s.placeTarget p) then .wait .drain
      else match s.cachedReach addr n need with
        | .xlate va f => .fault (s.hartXlate va need f load addr)
        | .space => .fault (s.trap (spaceCause load) addr)
        | .refused why => .fault ((s.countAccess s.cur addr need).trap (if why == 2 then 29 else spaceCause load) addr)
        | .ok key t =>
          let va := match p with
            | .global v _ => some v
            | _ => none
          let clean := match va with
            | some v => (s.dirtyOf s.asid v).isNone
            | none => true
          match s.lineWait key n (need != .read) with
          | some (l, own) => .wait (.hostLine l own)
          | none => if s.fencedKey key || (need.reads && clean && s.poisoned key n) then .fault (s.trap 29 addr)
          else .home key t va

/-- Runs `k` on a hart access that is performed at once; a distant one becomes the request `req`. -/
def hartAccess (s : State) (h : HartHit) (req : HartReq) (k : Nat → Option TlbEntry → Option Nat → Out) : Out :=
  match h with
  | .fault t => .next t
  | .wait w => hartWaits s w
  | .distant => .next (s.setGrp { s.grp with hartReq := some req, hartWait := none })
  | .block _ => .next s
  | .home key t va => k key t va

/-- Keeps the translation that an access used. -/
def State.keepTlb? (s : State) : Option TlbEntry → State
  | some t => s.keepTlb t
  | none => s

/-- The sector of the lane L1 that a hart access touches is dropped (13 R228). -/
def State.touchL1 (s : State) : Option Nat → State
  | some va => s.l1Drop s.coreNo s.asid va
  | none => s

/-- The bytes a hart reads: of a dirty sector, else of the home. -/
def State.hartBytes (s : State) (key n : Nat) (va : Option Nat) : List Byte :=
  match va with
  | none => s.worldBytes s.asid key n
  | some v => match s.dirtyOf s.asid v with
    | some d => (d.bytes.drop (v % 128)).take n
    | none => s.worldBytes s.asid key n

/-- The state after a hart access that read `n` bytes. Whether the hart cache holds a clean sector is free (log 4); a
miss is metered. -/
def State.hartSeen (s : State) (key n : Nat) (t : Option TlbEntry) (va : Option Nat) : State :=
  let u := ((s.keepTlb? t).hostTouch key n false).touchL1 va
  match va with
  | some v =>
    if (s.dirtyOf s.asid v).isSome || s.meterOff || Config.freeChoice s.moves v % 2 == 1 then u
    else u.meter (16 + s.cur % 16) v n t
  | none => u

/-- A plain hart store: global bytes go to a dirty sector recorded for the group, others to their home. A poisoned
sector takes the bytes at the home and stays poisoned (28 R362); so does a sector that no hart cache may hold. -/
def State.hartPut (s : State) (key : Nat) (t : Option TlbEntry) (va : Option Nat) (l : List Byte) : State :=
  let u := (s.keepTlb? t).touchL1 va
  match va with
  | none => u.performStore key l
  | some v =>
    if ((s.dirtyOf s.asid v).isNone && s.poisoned (key / 128 * 128) 128) || !s.hartMayCache key then
      (u.meter (16 + s.cur % 16) v l.length t).writeAs s.asid key l
    else
      let old := s.hartBytes (key / 128 * 128) 128 (some (v / 128 * 128))
      let new := old.take (v % 128) ++ l ++ old.drop (v % 128 + l.length)
      let glob := match t with
        | some e => e.asid == 0
        | none => false
      let m := if (s.dirtyOf s.asid v).isSome then u else u.meter (16 + s.cur % 16) v l.length t
      let w := (m.breakResv key l.length).hostTouch key l.length true
      let also := match s.dirtyOf s.asid v with
        | some d => ((16 * d.core + d.slot) :: d.also).eraseDups.filter fun k => k != s.cur
        | none => []
      { w with dirty :=
          { core := s.coreNo, slot := s.cur % 16, asid := s.asid, va := v / 128 * 128, glob := glob, bytes := new
            pa := key / 128 * 128, also := also } ::
          w.dirty.filter fun d => !((d.asid == s.asid || d.glob) && d.va == v / 128 * 128) }

/-- The home of an atomic access takes the dirty data of the sector first. -/
def State.toHome (s : State) : Option Nat → State
  | some va => s.flushSector s.asid va
  | none => s

def LoadKind.bytes : LoadKind → Nat
  | .lb | .lbu => 1
  | .lh | .lhu => 2
  | .lw | .lwu => 4
  | .ld => 8

/-- A loaded value as a register takes it. -/
def LoadKind.value (k : LoadKind) (v : Nat) : W64 :=
  match k with
  | .lb => (BitVec.ofNat 8 v).signExtend 64
  | .lh => (BitVec.ofNat 16 v).signExtend 64
  | .lw => (BitVec.ofNat 32 v).signExtend 64
  | _ => BitVec.ofNat 64 v

/-- A load performed. -/
def State.loadAt (s : State) (k : LoadKind) (rd : XReg) (key : Nat) (t : Option TlbEntry) (va : Option Nat) : State :=
  let n := LoadKind.bytes k
  (s.hartSeen key n t va).hartDone rd (LoadKind.value k (leNat (s.hartBytes key n va)))

/-- The M-mode hart reads its core's registers (09 Table 9-1; 26 R350); one it may not read gives zero and is counted. -/
def State.blockRead (s : State) (off n : Nat) : State × Nat :=
  let a := off / 8 * 8
  if s.coreMayReach (.hartM s.cur) s.coreNo a then (s, bits (s.coreReg s.coreNo a).toNat (8 * (off % 8) + 8 * n - 1) (8 * (off % 8)))
  else (s.countBlkErr s.coreNo, 0)

/-- Standard loads (R165). -/
def execHartLoad (k : LoadKind) (rd rs1 : XReg) (imm : BitVec 12) (s : State) : Out :=
  hartRun s [rs1] [rd] fun s =>
    let addr := s.grp.xr rs1 + imm.signExtend 64
    let n := LoadKind.bytes k
    match s.hartReach addr n .read true true with
    | .block off =>
      let r := s.blockRead off n
      .next (r.1.hartDone rd (LoadKind.value k r.2))
    | h => hartAccess s h (.load k rd addr) fun key t va => .next (s.loadAt k rd key t va)

def StoreKind.bytes : StoreKind → Nat
  | .sb => 1
  | .sh => 2
  | .sw => 4
  | .sd => 8

/-- size of a journal entry (10 Table 10-8). -/
def StoreKind.code : StoreKind → Nat
  | .sb => 0
  | .sh => 1
  | .sw => 2
  | .sd => 3

/-- A posted store of the hart as a posting. -/
def State.hartPosting (s : State) (addr : W64) (size : Nat) (l : List Byte) : List Posting :=
  match s.place s.cur s.mmode addr with
  | .ok p =>
    let t := s.postTarget p
    [{ dst := t.1, handle := t.2.1, writes := cellsOf t.2.2 l, entry := { addr := addr, size := size } }]
  | .error _ => []

/-- Standard stores (R165); fabric and distant vault stores are posted (R156). -/
def execHartStore (k : StoreKind) (rs1 rs2 : XReg) (imm : BitVec 12) (s : State) : Out :=
  hartRun s [rs1, rs2] [] fun s =>
    let addr := s.grp.xr rs1 + imm.signExtend 64
    let n := StoreKind.bytes k
    let l := leBytes n (s.grp.xr rs2).toNat
    match s.hartReach addr n .write false true with
    | .block off =>
      let vm := regLane off n (s.grp.xr rs2)
      let t := s.coreRegWrite (.hartM s.cur) s.coreNo (off / 8 * 8) vm.1 vm.2
      .next (t.setGrp t.grp.hartNext)
    | .distant =>
      let r := s.sendPosts (s.hartPosting addr (StoreKind.code k) l)
      if r.2.isEmpty then .next (r.1.setGrp r.1.grp.hartNext) else hartWaits s .journal
    | .fault t => .next t
    | .wait w => hartWaits s w
    | .home key t va =>
      let u := s.hartPut key t va l
      .next (u.setGrp u.grp.hartNext)

/-- What an AMO writes (RV64A). -/
def amoNew {w : Nat} (op : AmoOp) (old v : BitVec w) : BitVec w :=
  match op with
  | .swap => v
  | .add => old + v
  | .xor => old ^^^ v
  | .and => old &&& v
  | .or => old ||| v
  | .min => if old.slt v then old else v
  | .max => if old.slt v then v else old
  | .minu => if old.ult v then old else v
  | .maxu => if old.ult v then v else old

/-- An AMO performed at its home. -/
def State.amoAt (s : State) (op : AmoOp) (dbl aq : Bool) (rd : XReg) (val : W64) (key : Nat) (t : Option TlbEntry)
    (va : Option Nat) : State :=
  let n := if dbl then 8 else 4
  let h := (((s.keepTlb? t).meterAt (16 + s.cur % 16) va n t).touchL1 va).toHome va
  let old : W64 := BitVec.ofNat 64 (leNat (h.worldBytes s.asid key n))
  let new := if dbl then (amoNew op old val).toNat else (amoNew op (lo32 old) (lo32 val)).toNat
  let u := h.writeAs s.asid key (leBytes n new)
  (if aq then u.hartAcquire else u).hartDone rd (if dbl then old else sx32 (lo32 old))

/-- Standard AMOs (R165): rl releases first, aq acquires after. -/
def execHartAmo (op : AmoOp) (dbl aq rl : Bool) (rd rs1 rs2 : XReg) (s : State) : Out :=
  hartRun s [rs1, rs2] [rd] fun s =>
    let addr := s.grp.xr rs1
    let val := s.grp.xr rs2
    let go := fun (s : State) =>
      hartAccess s (s.hartReach addr (if dbl then 8 else 4) .both false false) (.amo op dbl rl aq rd addr val)
        fun key t va => .next (s.amoAt op dbl aq rd val key t va)
    if rl then afterRelease s go else go s

/-- Whether an address is a fabric one, which LR and SC may not name (R165). -/
def isFabric (addr : W64) : Bool := addr.toNat / 2 ^ 56 == 0xF1

/-- An LR performed: one 128-byte sector is reserved. -/
def State.lrAt (s : State) (dbl aq : Bool) (rd : XReg) (key : Nat) (t : Option TlbEntry) (va : Option Nat) : State :=
  let n := if dbl then 8 else 4
  let v := leNat (s.hartBytes key n va)
  let u := s.hartSeen key n t va
  let w := u.setGrp { u.grp with resv := some (key / 128 * 128, 128) }
  (if aq then w.hartAcquire else w).hartDone rd (if dbl then BitVec.ofNat 64 v else sx32 (BitVec.ofNat 32 v))

/-- `lr.w` and `lr.d` (R165). -/
def execHartLr (dbl aq rl : Bool) (rd rs1 : XReg) (s : State) : Out :=
  hartRun s [rs1] [rd] fun s =>
    let addr := s.grp.xr rs1
    let go := fun (s : State) =>
      let h := if isFabric addr && addr.toNat % (if dbl then 8 else 4) == 0 then .fault (s.trap 5 addr)
               else s.hartReach addr (if dbl then 8 else 4) .both true false
      hartAccess s h (.lr dbl aq rd addr) fun key t va => .next (s.lrAt dbl aq rd key t va)
    if rl then afterRelease s go else go s

/-- An SC performed: it stores where the reservation of its sector stands, and writes 0, else 1; the reservation ends. -/
def State.scAt (s : State) (dbl aq : Bool) (rd : XReg) (val : W64) (key : Nat) (t : Option TlbEntry) (va : Option Nat) :
    State :=
  let ok := s.grp.resv == some (key / 128 * 128, 128)
  let u := if ok then s.hartPut key t va (leBytes (if dbl then 8 else 4) val.toNat) else s
  let w := u.setGrp { u.grp with resv := none }
  (if aq then w.hartAcquire else w).hartDone rd (if ok then 0 else 1)

/-- `sc.w` and `sc.d` (R165). -/
def execHartSc (dbl aq rl : Bool) (rd rs1 rs2 : XReg) (s : State) : Out :=
  hartRun s [rs1, rs2] [rd] fun s =>
    let addr := s.grp.xr rs1
    let val := s.grp.xr rs2
    let go := fun (s : State) =>
      let h := if isFabric addr && addr.toNat % (if dbl then 8 else 4) == 0 then .fault (s.trap 7 addr)
               else s.hartReach addr (if dbl then 8 else 4) .cond false false
      hartAccess s h (.sc dbl aq rd addr val) fun key t va => .next (s.scAt dbl aq rd val key t va)
    if rl then afterRelease s go else go s

-- Fences (09 R166-R168).

/-- A fence of the access stream. -/
def hartFenceOf (s : State) (k : FenceKind) (sc : Scope) : Out :=
  let done := fun (t : State) =>
    let u := if FenceKind.acquires k && Scope.empties sc then t.hartAcquire else t
    Host.Outcome.next (u.setGrp u.grp.hartNext)
  if FenceKind.rel k then
    afterRelease s fun t =>
      if sc == .system && t.modifiedHost then hartWaits (t.evictModified t.coreNo) .drain
      else if sc == .system && t.evictingAny then hartWaits t .drain
      else done t
  else done s

/-- `z.fence` (R167). -/
def execZFence (k : FenceKind) (scope : Scope) (s : State) : Out := hartFenceOf s k scope

/-- `fence` and `fence.tso` (R167): with an empty set, nothing. -/
def execHartFence (_fm pred succ : BitVec 4) (_rd _rs1 : XReg) (s : State) : Out :=
  if pred == 0 || succ == 0 then .next (s.setGrp s.grp.hartNext) else hartFenceOf s .acqrel .device

/-- `fence.i` (13 R242): the hart's later fetches see every store before it. -/
def execFenceI (_rd _rs1 : XReg) (_imm : BitVec 12) (s : State) : Out :=
  let c := s.core
  .next ((s.setCore { c with code := c.code.filter fun l => !l.hart }).setGrp s.grp.hartNext)

/-- `z.l1wb` (R168): the core's dirty sectors of the range are written back, whoever wrote them. -/
def execZL1wb (rs1 rs2 : XReg) (s : State) : Out :=
  hartRun s [rs1, rs2] [] fun s =>
    let len := (s.grp.xr rs2).toNat
    let mine := match s.place s.cur s.mmode (s.grp.xr rs1) with
      | .ok (.global va _) => s.dirty.filter fun d =>
          d.core == s.coreNo && (d.asid == s.asid || d.glob) && d.va < va + len && va < d.va + 128
      | _ => []
    match s.writeBackAll (if len == 0 then [] else mine) with
    | .ok t => if t.evicting t.coreNo then hartWaits t .drain else .next (t.setGrp t.grp.hartNext)
    | .error (f, d) => .next (s.writeBackFault f d)

-- Traps and returns (12 R215, R218).

/-- `ecall`. -/
def execEcall (s : State) : Out := raise s (if s.mmode then 11 else 8) 0
/-- `ebreak`. -/
def execEbreak (s : State) : Out := raise s 3 s.grp.pc

/-- `mret`: in U-mode illegal; while a part must be restored again it raises mcause 30 (12 R219); while the block's
part 1 is still to be restored, or a notice that came during the suspension is still held, it waits (21 R311; 22 R314). -/
def execMret (s : State) : Out :=
  if !s.mmode then illegal s
  else match s.grp.needCrest with
    | (_, a) :: _ => raise s 30 a
    | [] =>
      if (s.blk.needPart1 || s.noticeWaits s.cur) && !mstatusMppM s.grp.mstatus then hartWaits s .saves
      else .next (s.setGrp s.grp.trapReturn)

/-- `wfi`: in M-mode it waits for an enabled interrupt; in U-mode it completes or, with TW, is illegal. -/
def execWfi (s : State) : Out :=
  if s.mmode then
    if s.grp.mip &&& s.grp.mie != 0 then .next (s.setGrp s.grp.hartNext) else hartWaits s .wfi
  else if mstatusTw s.grp.mstatus then illegal s
  else .next (s.setGrp s.grp.hartNext)

-- CSRs (02 R35-R40; 12 Table 12-1).

/-- The value of a CSR of the acting group, where the number is assigned. -/
def State.csrValue (s : State) (csr : Nat) : Option W64 :=
  let g := s.grp
  match csr with
  | 0x300 => some g.mstatus
  | 0x301 => some misa
  | 0x304 => some g.mie
  | 0x305 => some g.mtvec
  | 0x306 => some g.mcounteren
  | 0x340 => some g.mscratch
  | 0x341 => some g.mepc
  | 0x342 => some g.mcause
  | 0x343 => some g.mtval
  | 0x344 => some g.mip
  | 0x7C0 => some g.mlpc
  | 0x7C1 => some g.mlcause
  | 0x7C2 => some g.mlmask
  | 0x7C3 => some g.mlval
  | 0x800 => some (BitVec.ofNat 64 g.slip)
  | 0x801 => some (g.mstat.setWidth 64)
  | 0xB00 => some (g.mcycle + BitVec.ofNat 64 s.cycles)
  | 0xB02 => some g.minstret
  | 0xC00 => some (g.mcycle + BitVec.ofNat 64 s.cycles)
  | 0xC01 => some s.tide
  | 0xC02 => some g.minstret
  | 0xCC0 => some (urg s g)
  | 0xCC1 => some (blkid s g)
  | 0xCC2 => some g.ldec
  | 0xCC3 => some s.tide
  | 0xCC4 => some (mbatch s s.cur)
  | 0xCC5 => some g.pjhead
  | 0xCC6 => some g.qocc
  | 0xF11 => some 0
  | 0xF12 => some 0x5A490012
  | 0xF13 => some 0x0203
  | 0xF14 => some (mhartid s.cur)
  | _ => if csr / 8 == 0x199 then some ((s.core.chan (csr % 8)).cedone.setWidth 64) else none

/-- A CSR write that the access rules allow; read-only bits keep their value. mcycle is kept as an offset. -/
def State.csrPut (s : State) (csr : Nat) (v : W64) : State :=
  let g := s.grp
  match csr with
  | 0x300 => s.setGrp { g with mstatus := mstatusOf (mstatusMie v) (mstatusMpie v) (mstatusMppM v) (mstatusTw v) }
  | 0x304 => s.setGrp { g with mie := v &&& 0x800 }
  | 0x305 => s.setGrp { g with mtvec := v &&& 0xFFFFFFFFFFFFFFFC }
  | 0x306 => s.setGrp { g with mcounteren := v &&& 7 }
  | 0x340 => s.setGrp { g with mscratch := v }
  | 0x341 => s.setGrp { g with mepc := v &&& 0xFFFFFFFFFFFFFFFC }
  | 0x342 => s.setGrp { g with mcause := v }
  | 0x343 => s.setGrp { g with mtval := v }
  | 0x7C0 => s.setGrp { g with mlpc := v &&& 0xFFFFFFFFFFFFFFFC }
  | 0x7C1 => s.setGrp { g with mlcause := v }
  | 0x7C2 => s.setGrp { g with mlmask := v }
  | 0x7C3 => s.setGrp { g with mlval := v }
  | 0xB00 => s.setGrp { g with mcycle := v - BitVec.ofNat 64 s.cycles }
  | 0xB02 => s.setGrp { g with minstret := v - 1 }
  | _ => s

/-- The source value of a CSR instruction. -/
def Group.csrSrc (g : Group) : CsrSrc → W64
  | .reg r => g.xr r
  | .imm u => u.setWidth 64

def CsrSrc.regs : CsrSrc → List XReg
  | .reg r => [r]
  | .imm _ => []

/-- The value a CSR instruction writes. -/
def csrNew (op : CsrOp) (old src : W64) : W64 :=
  match op with
  | .rw => src
  | .rs => old ||| src
  | .rc => old &&& ~~~src

/-- Whether a CSR instruction may be executed: an assigned number, the mode it needs, no write of a read-only number,
and in U-mode the counter's enable. -/
def State.csrOk (s : State) (csr : Nat) (wr : Bool) : Bool :=
  (s.csrValue csr).isSome && (s.mmode || csr / 256 % 4 != 3) && !(wr && csr / 1024 == 3)
    && (s.mmode || !(0xC00 ≤ csr && csr ≤ 0xC02) || s.grp.mcounteren.getLsbD (csr - 0xC00))

/-- The shared course of a CSR instruction: `put` writes, from the old value and the source. The register gets the old
value after the write, which may count the completed instruction. -/
def csrRun (s : State) (csr : Nat) (op : CsrOp) (rd : XReg) (src : CsrSrc) (put : State → W64 → W64 → State) : Out :=
  hartRun s (CsrSrc.regs src) [rd] fun s =>
    let wr := op.writes src
    if !s.csrOk csr wr then illegal s
    else
      let old := (s.csrValue csr).getD 0
      let u := if wr then put s old (s.grp.csrSrc src) else s
      .next (u.hartDone rd old)

/-- `CSR_ACCESS` (02 R35; 12 R215). -/
def execCsrAccess (csr : BitVec 12) (op : CsrOp) (rd : XReg) (src : CsrSrc) (s : State) : Out :=
  csrRun s csr.toNat op rd src fun s old v => s.csrPut csr.toNat (csrNew op old v)

/-- A write of slip.limit (02 R36, R37). -/
def execSlipWrite (op : CsrOp) (rd : XReg) (src : CsrSrc) (s : State) : Out :=
  csrRun s 0x800 op rd src fun s old v =>
    let new := csrNew op old v
    let n := bits new.toNat 5 0
    let t := s.setGrp { s.grp with slip := if n == 0 then 1 else if 32 < n then 32 else n }
    if new.toNat / 64 != 0 then t.countBlkErr s.coreNo else t

/-- A CSR write of mstat (02 R36, R38): the flags set in the source are cleared; setting is illegal. -/
def execMstatWrite (op : CsrOp) (rd : XReg) (src : CsrSrc) (s : State) : Out :=
  hartRun s (CsrSrc.regs src) [rd] fun s =>
    let v := s.grp.csrSrc src
    let old := s.grp.mstat.setWidth 64
    if op == .rs then (if v == 0 then .next (s.hartDone rd old) else illegal s)
    else
      let t := s.setGrp { s.grp with mstat := s.grp.mstat &&& ~~~(v.setWidth 4) }
      .next ((if v.toNat / 16 != 0 then t.countBlkErr s.coreNo else t).hartDone rd old)

/-- A write of mlpc (12 R218). -/
def execMlpcWrite (op : CsrOp) (rd : XReg) (src : CsrSrc) (s : State) : Out :=
  csrRun s 0x7C0 op rd src fun s old v => s.csrPut 0x7C0 (csrNew op old v)

/-- A read of cedone (10 R174) is an acquire; a write is illegal. -/
def execCedoneRead (ch : BitVec 3) (op : CsrOp) (rd : XReg) (src : CsrSrc) (s : State) : Out :=
  hartRun s (CsrSrc.regs src) [rd] fun s =>
    if op.writes src then illegal s
    else .next (s.hartAcquire.hartDone rd ((s.core.chan ch.toNat).cedone.setWidth 64))

-- The answer of a distant home (HART_ACCESS_RESPONSE).

/-- Performs a pending access of the acting hart at its home. A refused one takes its cause (R165). -/
def State.respond (s : State) (addr : W64) (n : Nat) (need : Need) (load : Bool) (k : Nat → State) : State :=
  match s.reach s.cur s.mmode addr n need with
  | .ok key _ => if need.reads && s.poisoned key n then s.trap 29 addr else k key
  | .refused why => (s.countAccess s.cur addr need).trap (if why == 2 then 29 else spaceCause load) addr
  | _ => s.trap (spaceCause load) addr

end Sys2Proof.Machine
end

