-- ==== Sys2Proof/Machine/Fetch.lean ====
section
/-! DEFINITION. Fetching an instruction of either stream, the conditions under which a stream moves, asynchronous traps
at a boundary, and the free choice of the next mover (01 R23; 04 R75; 12 R216; 21 R301). -/
namespace Sys2Proof.Machine

/-- A 32-bit counter that saturates (28 R364). -/
def upTo32 (v : W32) : W32 := if v == 0xFFFFFFFF then v else v + 1

/-- Counts an error of structure `i` of a core (28 Table 28-2). -/
def State.countEcc (s : State) (core i : Nat) (bad : Bool) : State :=
  let c := s.coreAt core
  if bad then s.setCoreAt core { c with uncorrected := c.uncorrected.set i (countUp (Map.get 0 c.uncorrected i)) }
  else s.setCoreAt core { c with corrected := c.corrected.set i (upTo32 (Map.get 0 c.corrected i)) }

/-- What a fetch gives: an instruction to run, or the state in which the stream has stopped or stood still. -/
inductive Fetched where
  | run (i : Instr) (s : State)
  | stop (s : State)

/-- One code word at an address (04 R75): its bits, or the fault: translation with what parks the group, poison, or
an address of no fetchable space, which a hart takes as the access fault, cause 1 (21 Table 21-2). -/
inductive CodeWord where
  | word (w : W32) (t : TlbEntry) (va : Nat)
  | xlate (va : Nat) (f : XFault)
  | poisoned
  | outside
  deriving DecidableEq, Repr

/-- The word a core's instruction cache holds for an address (13 R242). -/
def State.cachedWord (s : State) (hart : Bool) (va : Nat) : Option W32 :=
  (s.core.code.find? fun l => l.hart == hart && l.asid == s.asid && l.va == va).map fun l => l.word

/-- The cache keeps the word that was fetched. -/
def State.keepWord (s : State) (hart : Bool) (va : Nat) (w : W32) : State :=
  if s.cachedWord hart va == some w then s
  else
    let c := s.core
    let rest := c.code.filter fun l => !(l.hart == hart && l.asid == s.asid && l.va == va)
    let t := if (s.cachedWord hart va).isSome then s else s.meterVa ((if hart then 16 else 0) + s.cur % 16) va 4
    t.setCore { t.core with code := ⟨hart, s.asid, va, w⟩ :: rest }

/-- A fetched word is the cached one or the memory's: either, word by word (13 R242). A hart's fetch is served from a
dirty sector, a lane's from the home (09 R166). -/
def State.codeWord (s : State) (hart : Bool) (a : W64) : CodeWord :=
  match s.place s.cur false a with
  | .ok (.global va _) =>
    match s.translate s.asid va .exec with
    | .error f => .xlate va f
    | .ok (pa, t) =>
      let dirty := hart && (s.dirtyOf s.asid va).isSome
      let fresh : W32 := BitVec.ofNat 32 (leNat (s.hartBytes pa 4 (if hart then some va else none)))
      let read := if !dirty && s.poisoned pa 4 then .poisoned else .word fresh t va
      match s.cachedWord hart va with
      | some w => if Config.freeChoice s.moves va % 2 == 0 then .word w t va else read
      | none => read
  | .error .noMap => .xlate (a.toNat % 2 ^ 57) (noMapping a)
  | _ => if hart then .outside else .xlate (a.toNat % 2 ^ 57) (noMapping a)

/-- A group that may move at all: live, in a block that runs. -/
def State.running (s : State) (k : Nat) : Bool :=
  (s.grpAt k).status == .live && (s.blkAt (s.grpAt k).blk).state == .running

/-- The order in which pending causes are taken (12 R216). -/
def asyncOrder : List Nat := [24, 28, 27, 26]

/-- The pending cause to take next: the first by the order, oldest first. -/
def Group.nextAsync (g : Group) : Option Pending := asyncOrder.findSome? fun c => g.asyncs.find? fun p => p.cause == c

/-- Takes the next pending asynchronous cause of the acting hart, in U-mode (12 R216); any wait is abandoned. -/
def State.takeAsync (s : State) : State :=
  let g := s.grp
  match g.nextAsync with
  | some p => if g.mode == .u && g.hartReq.isNone then (s.setGrp { g with asyncs := g.asyncs.erase p }).trap p.cause p.val else s
  | none => s

/-- The hart's next instruction. A pending cause is taken first, at a U-mode boundary (12 R216). -/
def hartFetch (s : State) : Fetched :=
  let g := s.grp
  if !s.running s.cur || g.hartReq.isSome || s.portHeld (16 + s.cur % 16) then .stop s
  else if g.mode == .u && g.nextAsync.isSome then .stop s.takeAsync
  else if g.mode == .u && g.holdA then .stop s
  else match s.codeWord true g.pc with
    | .xlate va f => .stop ((s.streamFault s.cur .hart va .exec f).trap 12 g.pc)
    | .poisoned => .stop ((s.countEcc (s.cur / 16) 8 true).trap 29 g.pc)
    | .outside => .stop (s.trap 1 g.pc)
    | .word w t va =>
      let u := (s.keepTlb t).keepWord true va w
      let v := u.setGrp { u.grp with hword := w }
      match decodeHart w with
      | .ok i => .run i v
      | .error _ => .stop (v.trap 2 (w.setWidth 64))

/-- Whether the acting compute stream may issue (05 R106; 09 R154; 12 R217; 21 R301). -/
def State.laneReady (s : State) : Bool :=
  let g := s.grp
  s.running s.cur && !g.held && !g.cendDone && !g.laneBusy && g.holdC.isNone && !s.portHeld (s.cur % 16)

/-- The bytes of a lane instruction whose first word is `w` (04 R74). -/
def laneWords (w : W32) : Nat := if w.getLsbD 0 == false then 1 else if w.getLsbD 1 == false then 2 else 3

/-- The fetch fault of a lane word (04 R75; 12 Table 12-3); poison is counted for its cache (28 R363). -/
def State.laneFetchFault (s : State) (a : W64) : CodeWord → State
  | .xlate va f => (s.setGrp (s.grp.laneFault 10 0 s.grp.active a)).streamFault s.cur .lane va .exec f
  | .poisoned => (s.countEcc (s.cur / 16) 9 true).setGrp (s.grp.laneFault 11 0 s.grp.active a)
  | _ => s.setGrp (s.grp.laneFault 11 0 s.grp.active a)

/-- The words of a lane instruction, every one fetched before any check (04 R75). -/
def State.fetchWords (s : State) : Nat → W64 → Except State (State × List W32)
  | 0, _ => .ok (s, [])
  | n + 1, a =>
    match s.codeWord false a with
    | .word w t va =>
      match ((s.keepTlb t).keepWord false va w).fetchWords n (a + 4) with
      | .ok (u, l) => .ok (u, w :: l)
      | .error t => .error t
    | c => .error (s.laneFetchFault a c)

/-- The instructions of one issue cycle and no beats (14 Table 14-1). -/
def beatless : Instr → Bool
  | .join | .cret | .cnext | .cend | .cbr _ | .cjmp _ | .ccall _ | .cloop _ | .lwin _ | .pb _ _ _ | .qmode _ | .fsetm _
  | .fgetm _ | .mcfg _ | .mfence | .mwait _ | .mpoll _ | .mdrain | .bbar | .cbarArv | .cbarWt | .trap _ | .brk | .nop => true
  | _ => false

/-- The operand codes of an instruction of the raftable class (01 R26): the instructions of Lane Integer, Logic, Move and
Predication and of Lane Floating Point, Conversion and Special Functions, but for `lwin`, `pb`, `fsetm` and `fgetm`. -/
def raftCodes : Instr → Option (List Code)
  | .addI32 d a b | .subI32 d a b | .mulLoI32 d a b | .andL32 d a b | .orL32 d a b | .xorL32 d a b
  | .andnL32 d a b | .shlL32 d a b | .shrL32 d a b | .sraL32 d a b | .rotlL32 d a b | .minI32 d a b
  | .minN32 d a b | .maxI32 d a b | .maxN32 d a b | .add _ _ d a b | .sub _ _ d a b | .mulLo _ _ d a b
  | .mulHi _ d a b | .div _ d a b | .rem _ d a b | .min _ d a b | .max _ d a b | .and _ d a b | .or _ d a b
  | .xor _ d a b | .andn _ d a b | .shl _ d a b | .shr _ d a b | .sra _ d a b | .rotl _ d a b | .cmp _ _ d a b
  | .fadd _ _ d a b | .fsub _ _ d a b | .fmul _ _ d a b | .fmin _ d a b | .fmax _ d a b | .fminnum _ d a b
  | .fmaxnum _ d a b | .fmaxabs _ d a b | .fcopysign _ d a b | .fdiv _ _ d a b | .fscale _ _ d a b
  | .fcmp _ _ d a b => some [d, a, b]
  | .mov d a | .not d a | .negI32 d a | .absI32 d a | .popc d a | .clz d a | .ctz d a | .brev d a
  | .addImm _ _ d a _ | .subImm _ _ d a _ | .mulLoImm _ _ d a _ | .mulHiImm _ d a _ | .divImm _ d a _
  | .remImm _ d a _ | .minImm _ d a _ | .maxImm _ d a _ | .andImm _ d a _ | .orImm _ d a _ | .xorImm _ d a _
  | .andnImm _ d a _ | .shlImm _ d a _ | .shrImm _ d a _ | .sraImm _ d a _ | .rotlImm _ d a _
  | .bfxImm _ d a _ _ | .bfiImm _ d a _ _ | .cmpImm _ _ d a _ | .fsqrt _ _ d a | .frnd _ _ d a | .fclass _ d a
  | .frcp d a | .frsq d a | .fexp2 d a | .flog2 d a | .fsin d a | .fcos d a | .cvt _ _ _ _ d a _ => some [d, a]
  | .mad _ _ d a b c | .madWide _ d a b c | .addc _ d a b c | .subb _ d a b c | .bfx _ d a b c | .bfi _ d a b c
  | .sel _ d a b c | .ffma _ _ d a b c | .fsel _ d a b c | .fdot2 _ _ d a b c => some [d, a, b, c]
  | .madImm _ _ d a c _ => some [d, a, c]
  | .movi _ d _ | .li _ d _ => some [d]
  | _ => none

/-- Whether an instruction may be rafted: of the class, with no operand that names a queue. -/
def raftable (i : Instr) : Bool := (raftCodes i).any fun l => l.all fun c => c.toNat < 112 || 117 < c.toNat

/-- A group that could share the acting group's issue of an instruction (01 R26): of its block and ready, at the same
compute PC, with no lane in common, the same float mode, and no prefix over either. -/
def State.raftWith (s : State) (k : Nat) : Bool :=
  let g := s.grp
  let h := s.grpAt k
  k != s.cur && h.blk == g.blk && (s.focus k).laneReady && h.laneWait.isNone && !h.rafted && h.lpc == g.lpc
    && (h.em &&& g.em) == 0 && h.fmode == g.fmode && g.pb.left == 0 && h.pb.left == 0

/-- The group that shares the issue of the acting group's instruction, freely one that could, or none (01 R26, R28). -/
def State.raftMate (s : State) (i : Instr) : Option Nat :=
  if !raftable i then none
  else
    let l := s.blk.slots.filter s.raftWith
    l[Config.freeChoice s.moves 1001 % (l.length + 1)]?

/-- Beats that an issue over a mask skips: a half of the lanes with none active (01 R25). -/
def skippedOf (m : LaneMask) : W64 :=
  (if m.setWidth 32 == (0 : W32) then 1 else 0) + if (m >>> 32) == 0 then 1 else 0

/-- Counts the start of a compute-stream instruction (28 R365). Two groups that meet the conditions of 01 R26 may share an
issue, which counts once and skips the beats that the union of their masks leaves free (R28); a cycle can start two
instructions only where another group of the core is ready. Lost candidates rest on timing alone and grow by free amounts
(log 4). -/
def State.countStart (s : State) (i : Instr) : State :=
  if s.grp.laneWait.isSome then s
  else
    let c := s.core
    let g := s.grp
    let free := fun k => BitVec.ofNat 64 (Config.freeChoice s.moves k)
    let add := fun (m : Map W64) (k : Nat) (n : W64) => m.set k (Map.get 0 m k + n)
    let mate := if g.rafted then none else s.raftMate i
    let other := s.groups.any fun p => p.1 / 16 == s.coreNo && p.1 != s.cur && (s.focus p.1).laneReady
    let skip := if beatless i || g.rafted then 0 else match mate with
      | some k => skippedOf (g.em ||| (s.grpAt k).em)
      | none => skippedOf g.active
    let counts : List (Nat × W64) :=
      [(0, 1), (1, ofFlag 64 mate.isSome), (2, skip), (3, free 1003), (4, free 1004), (5, if other then free 1005 &&& 1 else 0)]
    let t := (s.setCore { c with issue := counts.foldl (fun m p => add m p.1 p.2) c.issue }).setGrp { g with rafted := false }
    match mate with
    | some k => t.setGrpAt k { t.grpAt k with rafted := true }
    | none => t

/-- The compute stream's next instruction. An instruction that waits
counts as started at its first attempt (01 R28; log 4). -/
def laneFetch (s : State) : Fetched :=
  let g := s.grp
  if !s.laneReady then .stop s
  else match s.codeWord false g.lpc with
    | .word w t va =>
      match ((s.keepTlb t).keepWord false va w).fetchWords (laneWords w - 1) (g.lpc + 4) with
      | .error u => .stop u
      | .ok (u, l) =>
        let v := u.setGrp { u.grp with lword := w }
        match decodeLane w (l.getD 0 0) (l.getD 1 0) with
        | .ok i => .run i (v.countStart i)
        | .error _ => .stop (v.setGrp (v.grp.laneFault 1 0 v.grp.active (w.setWidth 64)))
    | c => .stop (s.laneFetchFault g.lpc c)

/-- The steps of the device's other agents (the last rows of the opcode table). -/
def deviceSteps : List Instr :=
  [.blockPlacement, .blockRetirement, .matrixCompletion, .copyStart, .copyCompletion, .queueLoadArrival, .replayArrival,
   .laneAccessComplete, .hartAccessResponse, .postedWriteArrival, .journalAck, .journalRefusal,
   .mailboxIncrementArrival, .ringMessageArrival, .rankContributionArrival, .reductionInputArrival, .routerFold,
   .reductionResultLanded, .absenceTokenArrival, .hartCacheEviction, .asyncTrapTaken, .externalInterrupt,
   .decouplingDeadlock, .watchdogExpiry, .remoteWaitTimeout, .tidewaitReached, .gangStrike, .gangSuspend, .gangResume,
   .noticeWrite, .shootdownRequest, .shootdownDone, .breakwaterRefill, .breakwaterPass, .eccError, .kilsetWrite,
   .mondbClear, .mbctrWrite, .blkerrWrite, .partdieWrite, .bootstStageWrite, .bstoreWrite, .hqReset, .registerWrite,
   .coldReset, .failoverTimer, .ctxCreate, .ctxDestroy, .worldSuspend, .worldResume, .worldDestroy, .handleSet,
   .handleClear, .vaultGrant, .entropyRestart, .badCall, .hqDoorbell, .hqCompletionHead, .hostNop, .hostLaunch,
   .hostShootdown, .pageTake, .pageReturn, .badCommand, .hlreqRenew, .hlreqClaim, .leaseExpiry, .linkTraining,
   .linkDown, .ideFailure, .lockInterface, .startInterface, .stopInterface, .snpData, .snpInv, .snpCur, .cxlGo,
   .bisnpResponse, .hostCxlMemAccess, .getVersion, .getCapabilities, .negotiateAlgorithms, .getDigests,
   .getCertificate, .challenge, .getMeasurements, .spdmUnsupportedRequest, .prefetchFill, .entropyHealthTestFailure]

/-- The mover a free number names (log 1). -/
def turnOf (n : Nat) : Turn :=
  match n % 3 with
  | 0 => .hart (n / 3 % 24576)
  | 1 => .lanes (n / 3 % 24576)
  | _ => .event (deviceSteps.getD (n / 3 % deviceSteps.length) .coldReset)

/-- The operands of a device step that free numbers name (log 1). -/
def inputOf (n : Nat) : EventInput :=
  let f := Config.freeInput n
  { who := match f 0 % 5 with
      | 0 => .sysCore (f 1)
      | 1 => .jetty (f 1)
      | 2 => .harbourmaster
      | 3 => .hostPort (f 1)
      | _ => .hartM (f 1)
    a := f 2, b := f 3, c := f 4, val := Config.freeWord n 0, req := BitVec.ofNat 256 (f 5), bytes := Config.freeBytes n
    flag := f 6 % 2 == 1, flag2 := f 7 % 2 == 1
    link := [LinkMode.down, .cxl31, .cxl20, .pcie6, .pcie5].getD (f 8 % 5) .down
    mesi := [Mesi.m, .e, .s, .i].getD (f 9 % 4) .i
    site := match f 10 % 8 with
      | 0 => .memUnit (f 11)
      | 1 => .laneL1 (f 11) (f 12)
      | 2 => .hartCache (f 11)
      | 3 => .code (f 11) true
      | 4 => .code (f 11) false
      | 5 => .groupState (f 11) (f 12)
      | 6 => .keyStore (f 11)
      | _ => .handleTable (f 11)
    data := if f 13 % 2 == 1 then some (Config.freeBytes (n + 1)) else none }

/-- A retired instruction of the acting group restarts the count of its block's idle limit (21 R303). -/
def State.stamp (s : State) : State :=
  if s.grp.stepped then
    let t := s.setGrp { s.grp with stepped := false }
    t.setBlk { t.blk with idleSince := t.tide.toNat }
  else s

/-- The next mover: before boot stage 3 no core has left reset (26 R344). -/
def State.nextTurn (s : State) : Turn :=
  let n := Config.freeTurn s.moves
  if bits s.boot.bootst.toNat 2 0 < 3 then .event (if n % 2 == 0 then .coldReset else .failoverTimer) else turnOf n

/-- Any flow may lose a packet to a receiver that does not accept it, freely (25 R337, R338; log 31). -/
def State.flowsAfter (s : State) : List Nat :=
  let n := Config.freeChoice s.moves 1011
  if n % 2 == 0 || s.sec.flows.contains (n / 2) then s.sec.flows else n / 2 :: s.sec.flows

/-- Whether the lease has run out: the fence follows at once (23 R322). -/
def Lease.due (l : Lease) (tide : W64) : Bool := l.st == 1 && l.exp.toNat ≤ tide.toNat

/-- Time passes and the next mover is chosen (logs 1, 4), but for the fence of a lease that has run out; an L2 slice may
have given up a line (20 R285), and a packet may be lost. -/
def State.tick (s : State) : State :=
  let s := s.stamp
  let tide := s.tide + BitVec.ofNat 64 (Config.freeTicks s.moves)
  { s with
    cycles := s.cycles + Config.freeCycles s.moves
    tide := tide
    moves := s.moves + 1
    l2 := s.l2.eraseIdx (Config.freeChoice s.moves 1010)
    sec := { s.sec with flows := s.flowsAfter }
    turn := if s.host.lease.due tide then .event .leaseExpiry else s.nextTurn
    input := inputOf s.moves }

end Sys2Proof.Machine
end

