-- ==== Sys2Proof/Machine/Queues.lean ====
section
/-! DEFINITION. Tensor layout records and the hart's queue instructions: queue loads and stores, scalars and tokens,
feedback, the join, dropping, tensor addresses (05 R89-R105, R109; 10 R169, R170). -/
namespace Sys2Proof.Machine

-- Tensor layout records (10 R169, R170).

/-- A tensor layout record (Table 10-1). -/
structure Rec where
  base : W64
  dims : Nat
  fmt : Nat
  mbx : Bool
  mhandle : Nat
  mindex : Nat
  pad : Nat
  ext : List Nat
  box : List Nat
  stride : List Int
  mbz : Nat
  deriving DecidableEq, Repr

/-- The fields of a record from its 64 bytes. -/
def Rec.ofBytes (l : List Byte) : Rec :=
  let v := leNat l
  let five := List.range 5
  { base := BitVec.ofNat 64 v
    dims := bits v 66 64
    fmt := bits v 71 67
    mbx := bits v 72 72 == 1
    mhandle := bits v 80 73
    mindex := bits v 88 81
    pad := bits v 127 96
    ext := five.map fun k => bits v (151 + 24 * k) (128 + 24 * k)
    box := five.map fun k => bits v (267 + 12 * k) (256 + 12 * k)
    stride := five.map fun k => if k == 0 then signedOf 16 (bits v 335 320) else signedOf 40 (bits v (335 + 40 * k) (296 + 40 * k))
    mbz := bits v 95 89 + bits v 255 248 + bits v 319 316 + bits v 511 496 }

/-- The element width in bits of a format code. -/
def recWidth (fmt : Nat) : Nat :=
  [8, 16, 32, 64, 8, 16, 32, 64, 64, 32, 32, 16, 16, 8, 8, 6, 6, 4, 32, 32, 4, 4, 1, 2, 4].getD fmt 0

def Rec.w (r : Rec) : Nat := recWidth r.fmt
def Rec.e (r : Rec) (k : Nat) : Nat := r.ext.getD k 0
def Rec.b (r : Rec) (k : Nat) : Nat := if k < r.dims then r.box.getD k 1 else 1
def Rec.s (r : Rec) (k : Nat) : Int := r.stride.getD k 0

/-- Whether a record passes the checks of R169 and R170 that do not depend on the instruction. -/
def Rec.ok (r : Rec) (c0 : Int) : Bool :=
  let ks := List.range r.dims
  1 ≤ r.dims && r.dims ≤ 5 && r.fmt < 25 && r.mbz == 0
  && ks.all (fun k => r.box.getD k 0 != 0)
  && (if 8 ≤ r.w then
        r.base.toNat % (r.w / 8) == 0 && ks.all fun k => r.s k % ((r.w / 8 : Nat) : Int) == 0
      else
        r.s 0 == 0 && c0 * (r.w : Int) % 8 == 0 && r.b 0 * r.w % 8 == 0 && r.e 0 * r.w % 8 == 0)

/-- The coordinates of a pair (05 R97). -/
def coordsOf (c01 c234 : W64) : List Int :=
  let v := c234.toNat
  [signedOf 32 c01.toNat, signedOf 32 (c01.toNat / 2 ^ 32), signedOf 21 (bits v 20 0), signedOf 21 (bits v 41 21),
   signedOf 21 (bits v 62 42)]

/-- Whether coordinates lie inside the tensor (R170). -/
def Rec.inside (r : Rec) (t : List Int) : Bool :=
  (List.range r.dims).all fun k => 0 ≤ t.getD k 0 && t.getD k 0 < (r.e k : Int)

/-- base + Σ c[k]·stride[k], modulo 2^64. -/
def Rec.address (r : Rec) (t : List Int) : W64 :=
  BitVec.ofInt 64 ((r.base.toNat : Int) + ((List.range r.dims).map fun k => t.getD k 0 * r.s k).foldl (· + ·) 0)

/-- A fault of a hart access to be raised: cause, mtval, and the translation fault that parks the group. -/
structure HartFault where
  cause : Nat
  val : W64
  xlate : Option (Nat × XFault)
  deriving DecidableEq, Repr

/-- Raises a hart fault. -/
def State.hartFault (s : State) (need : Need) (f : HartFault) : State :=
  match f.xlate with
  | some (va, x) => (s.streamFault s.cur .hart va need x).trap f.cause f.val
  | none => (if f.cause == 29 then s.countAccess s.cur f.val need else s).trap f.cause f.val

/-- How the read of a record goes. -/
inductive RecRead where
  | ok (r : Rec) (s : State)
  | wait (w : HartWait)
  | fault (f : HartFault)

/-- How a read of bytes goes. -/
inductive ByteRead where
  | ok (l : List Byte) (s : State)
  | wait (w : HartWait)
  | fault (f : HartFault)

/-- The bytes at a generic address, read as a hart load, with the causes of a bad space and of uncorrectable data. -/
def State.readBytes (s : State) (a : W64) (n space data : Nat) : ByteRead :=
  match s.place s.cur s.mmode a with
  | .error .space | .ok (.block _) => .fault ⟨space, a, none⟩
  | .error .noMap => .fault ⟨13, a, some (a.toNat % 2 ^ 57, noMapping a)⟩
  | .ok p =>
    if s.sentTo (s.placeTarget p) || (s.grp.loadsAway && p.isUncached) then .wait .drain
    else match s.cachedReach a n .read with
      | .xlate va f => .fault ⟨13, a, some (va, f)⟩
      | .space => .fault ⟨space, a, none⟩
      | .refused why => .fault ⟨if why == 2 then data else space, a, none⟩
      | .ok key t =>
        let va := match p with
          | .global v _ => some v
          | _ => none
        let dirty := match va with
          | some v => (s.dirtyOf s.asid v).isSome
          | none => false
        match s.lineWait key n false with
        | some (l, own) => .wait (.hostLine l own)
        | none => if s.fencedKey key || (!dirty && s.poisoned key n) then .fault ⟨data, a, none⟩
        else .ok (s.hartBytes key n va) (s.hartSeen key n t va)

/-- A record address's space: global, private, scratch or vault. -/
def recSpace (a : W64) : Bool := [0x00, 0xF0, 0xF2, 0xF3].contains (a.toNat / 2 ^ 56)

/-- Whether an address fails the checks of its space, so that nothing can be read there (09 R148). -/
def State.badSpace (s : State) (a : W64) : Bool :=
  match s.place s.cur s.mmode a with
  | .error .space => true
  | _ => false

/-- Reads and checks the record at an address (R169). `unread` is the cause of one that cannot be read, or that the
instruction rejects by `bad` (05 R98, R100). -/
def State.readRecord (s : State) (a : W64) (c0 : Int) (unread : Nat) (bad : Rec → Bool := fun _ => false) : RecRead :=
  if a.toNat % 64 != 0 then .fault ⟨5, a, none⟩
  else if !recSpace a then .fault ⟨if s.badSpace a then unread else 5, a, none⟩
  else match s.readBytes a 64 unread unread with
    | .wait w => .wait w
    | .fault f => .fault f
    | .ok l t =>
      let r := Rec.ofBytes l
      if bad r then .fault ⟨unread, a, none⟩
      else if r.ok c0 then .ok r t else .fault ⟨5, a, none⟩

-- Queue loads (05 R90-R98).

/-- One element of a queue load: its lane, its place in the lane value, its address, or its padding value. -/
structure Elem where
  lane : Nat
  shift : Nat
  at? : Except Nat W64
  n : Nat
  sext : Bool

/-- What an element of a queue load turns out to be at issue. -/
inductive ElemFate where
  | value (v : Nat) (key : Option (Nat × Option TlbEntry × Option Nat))
  | away
  | wait (w : HartWait)
  | fault (f : HartFault)

/-- The value of `n` bytes in a 32-bit lane, sign-extended where asked. -/
def laneValue (n : Nat) (sext : Bool) (v : Nat) : Nat :=
  if sext && 2 ^ (8 * n - 1) ≤ v then v + 2 ^ 32 - 2 ^ (8 * n) else v

/-- The checks of an element, and its value where its home is near. -/
def State.elemFate (s : State) (e : Elem) : ElemFate :=
  match e.at? with
  | .error v => .value v none
  | .ok a =>
    if a.toNat % e.n != 0 then .fault ⟨4, a, none⟩
    else match s.place s.cur s.mmode a with
      | .error .space | .ok (.block _) => .fault ⟨5, a, none⟩
      | .error .noMap => .fault ⟨13, a, some (a.toNat % 2 ^ 57, noMapping a)⟩
      | .ok p =>
        if p.posted s.coreNo then (if s.sentTo (s.placeTarget p) then .wait .drain else .away)
        else match s.readBytes a e.n 5 29 with
          | .wait w => .wait w
          | .fault f => .fault f
          | .ok l _ =>
            match s.cachedReach a e.n .read with
            | .ok key t => .value (laneValue e.n e.sext (leNat l)) (some (key, t, s.globalVa s.cur a))
            | _ => .value (leNat l) none

/-- What a queue load gathers: the state after its reads, its entry, the first fault, the first that an ordinary load
takes precisely, and whether it reads global memory. -/
structure Gather where
  state : State
  entry : LdqEntry
  fault : Option HartFault
  precise : Option HartFault
  wait : Option HartWait := none
  global : Bool := false

/-- What a fate adds to a lane: an element's value; else nothing. -/
def ElemFate.val : ElemFate → Nat
  | .value v _ => v
  | _ => 0

def ElemFate.wait? : ElemFate → Option HartWait
  | .wait w => some w
  | _ => none

def ElemFate.fault? : ElemFate → Option HartFault
  | .fault f => some f
  | _ => none

/-- Whether an element is read from global memory. -/
def ElemFate.isGlobal : ElemFate → Bool
  | .value _ (some (_, _, some _)) => true
  | _ => false

/-- What is still wanted of an element whose home is not near. -/
def ElemFate.want? (e : Elem) : ElemFate → Option Want
  | .away => match e.at? with
    | .ok a => some ⟨e.lane, e.shift, a, e.n, e.sext⟩
    | .error _ => none
  | _ => none

/-- The state after an element's read. -/
def State.seenElem (s : State) (p : Elem × ElemFate) : State :=
  match p.2 with
  | .value _ (some (key, e, va)) => s.hartSeen key p.1.n e va
  | .fault f => if f.cause == 29 then s.countAccess s.cur f.val .read else s
  | _ => s

/-- The lanes of an entry from the values of its elements. -/
def gatherData (l : List (Elem × ElemFate)) : List W64 :=
  lanes fun i => l.foldl (fun acc p => if p.1.lane == i then acc ||| BitVec.ofNat 64 (p.2.val * 2 ^ p.1.shift) else acc) 0

/-- Checks and reads every element, in lane order. -/
def State.gather (s : State) (wide : Bool) (desc : LoadDesc) (l : List Elem) : Gather :=
  let fates := l.map fun e => (e, s.elemFate e)
  let faults := fates.filterMap fun p => p.2.fault?.map fun f => (p.1, f)
  let e : LdqEntry :=
    { wide := wide, arrived := false, poison := false, replay := false, cause := 0, addr := 0, lanes := 0, desc := desc
      data := gatherData fates, wants := fates.filterMap fun p => p.2.want? p.1, issued := s.moves }
  { state := fates.foldl State.seenElem s
    fault := faults.head?.map fun p => p.2
    wait := fates.findSome? fun p => p.2.wait?
    precise := (faults.find? fun p => p.2.cause != 29).map fun p => p.2
    global := fates.any fun p => p.2.isGlobal
    entry := match faults with
      | [] => e
      | (x, f) :: _ =>
        { e with poison := true, cause := f.cause, addr := f.val, data := [], faultAt := 64 * x.lane + x.shift
                 lanes := maskOf fun i => faults.any fun p => p.1.lane == i } }

/-- Bytes, elements per lane, sign extension and tag of a suffix (Table 5-2). -/
def LdqTy.shape : LdqTy → Nat × Nat × Bool × Bool
  | .n8 => (1, 1, false, false)
  | .n16 => (2, 1, false, false)
  | .n32 => (4, 1, false, false)
  | .n64 => (8, 1, false, true)
  | .i8 => (1, 1, true, false)
  | .i16 => (2, 1, true, false)
  | .pk8 => (1, 4, false, false)
  | .pk16 => (2, 2, false, false)

/-- The elements of `z.ldq` (R92). -/
def stridedElems (t : LdqTy) (base stride : W64) : List Elem :=
  let (n, p, sext, _) := LdqTy.shape t
  (List.range (64 * p)).map fun k =>
    ⟨k / p, 8 * n * (k % p), .ok (base + BitVec.ofNat 64 k * stride), n, sext⟩

/-- The coordinates of lane `i` of a slice (R98). -/
def sliceCoords (r : Rec) (c : List Int) (i : Nat) : List Int :=
  let b0 := r.b 0
  [c.getD 0 0 + (i % b0 : Nat), c.getD 1 0 + (i / b0 : Nat), c.getD 2 0, c.getD 3 0, c.getD 4 0]

/-- Whether a record suits a slice. -/
def Rec.slices (r : Rec) : Bool := [1, 2, 4, 8, 16, 32, 64].contains (r.b 0) && 8 ≤ r.w

/-- Whether the base of a record lies in a space whose elements a slice can name (R169, Table 9-1). -/
def Rec.sliceSpace (r : Rec) : Bool := [0x00, 0xF0, 0xF1, 0xF2, 0xF3].contains (r.base.toNat / 2 ^ 56)

/-- The elements of `z.ldqt`. -/
def sliceElems (r : Rec) (c : List Int) : List Elem :=
  (List.range 64).map fun i =>
    let t := sliceCoords r c i
    ⟨i, 0, if r.inside t then .ok (r.address t) else .error (if r.w == 64 then r.pad else r.pad % 2 ^ r.w), r.w / 8, false⟩

/-- Makes the load that a descriptor describes: its elements' reads, or the fault of its record (with `.nf` in every
lane). -/
def State.makeLoad (s : State) (d : LoadDesc) : Gather :=
  let reject := fun (f : HartFault) =>
    ({ state := s, fault := some f, precise := some f
       entry := { wide := Config.freeChoice s.moves 64 % 2 == 1, arrived := false, poison := true, replay := false
                  cause := f.cause, addr := f.val, lanes := BitVec.allOnes 64, desc := d, data := [] } } : Gather)
  match d with
  | .plain base stride t => s.gather (LdqTy.shape t).2.2.2 d (stridedElems t base stride)
  | .tensor a c01 c234 =>
    let c := coordsOf c01 c234
    match s.readRecord a (c.getD 0 0) 5 with
    | .wait w => { reject ⟨5, a, none⟩ with wait := some w }
    | .fault f => reject f
    | .ok r t => if r.slices && r.sliceSpace then t.gather (r.w == 64) d (sliceElems r c) else reject ⟨5, a, none⟩

/-- Puts an entry at the tail of a queue; the run-ahead count rises (R90). -/
def Group.pushLdq (g : Group) (q : Nat) (e : LdqEntry) : Group :=
  { g with ldq := g.ldq.set q (Map.get [] g.ldq q ++ [e]), runAhead := g.runAhead + 1 }

/-- Issues a queue load (R90, R93, R94): an ordinary one traps precisely, but deposits poisoned data. It retires when it is
accepted, which for global memory is with the arrival of its data; one that still wants distant elements arrives later (14
R251). -/
def queueLoad (s : State) (nf : Bool) (q : Nat) (d : LoadDesc) : Out :=
  if s.grp.slip ≤ s.grp.runAhead || 8 ≤ s.grp.qlen q then hartWaits s (.queueLoad q)
  else
    let g := s.makeLoad d
    match g.wait, (if nf then none else g.precise) with
    | some w, _ => hartWaits s w
    | none, some f => .next (s.hartFault .read f)
    | none, none =>
      let e := { g.entry with arrived := !nf && g.global && g.entry.wants.isEmpty }
      .next (g.state.setGrp (g.state.grp.pushLdq q e).hartNext)

/-- `z.ldq` (R92, R93). -/
def execZLdq (t : LdqTy) (q : BitVec 2) (rs1 rs2 : XReg) (s : State) : Out :=
  hartRun s [rs1, rs2] [] fun s => queueLoad s false q.toNat (.plain (s.grp.xr rs1) (s.grp.xr rs2) t)
/-- `z.ldq.nf` (R94). -/
def execZLdqNf (t : LdqTy) (q : BitVec 2) (rs1 rs2 : XReg) (s : State) : Out :=
  hartRun s [rs1, rs2] [] fun s => queueLoad s true q.toNat (.plain (s.grp.xr rs1) (s.grp.xr rs2) t)

/-- Runs an instruction that names the coordinate pair at `rs2` (R97). -/
def withPair (s : State) (rs1 rs2 : XReg) (reads writes : List XReg) (k : State → W64 → W64 → Out) : Out :=
  if rs2 == 31 then illegal s
  else hartRun s (rs1 :: rs2 :: (rs2 + 1) :: reads) writes fun t => k t (t.grp.xr rs2) (t.grp.xr (rs2 + 1))

/-- `z.ldqt` (R98). -/
def execZLdqt (q : BitVec 2) (rs1 rs2 : XReg) (s : State) : Out :=
  withPair s rs1 rs2 [] [] fun s a b => queueLoad s false q.toNat (.tensor (s.grp.xr rs1) a b)
/-- `z.ldqt.nf` (R98). -/
def execZLdqtNf (q : BitVec 2) (rs1 rs2 : XReg) (s : State) : Out :=
  withPair s rs1 rs2 [] [] fun s a b => queueLoad s true q.toNat (.tensor (s.grp.xr rs1) a b)

-- Queue stores (05 R99, R100).

/-- Performs the stores of one queue store that are not posted, in lane order. -/
def State.putElems (s : State) (n : Nat) (data : Nat → List Byte) : List LaneAccess → State
  | [] => s
  | x :: rest =>
    match s.hartReach x.addr n .write false false with
    | .home key t va => (s.hartPut key t va (data x.lane)).putElems n data rest
    | _ => s.putElems n data rest

/-- What a queue store's checks find first. -/
def State.storeFate (s : State) (n : Nat) (l : List LaneAccess) : Option Out :=
  l.findSome? fun x => match s.hartReach x.addr n .write false false with
    | .fault t => some (.next t)
    | _ => none

/-- What a queue store waits for. -/
def State.storeWait (s : State) (n : Nat) (l : List LaneAccess) : Option HartWait :=
  if s.grp.loadsAway && l.any fun x => s.postedAt x.addr then some .drain
  else l.findSome? fun x => match s.hartReach x.addr n .write false false with
    | .wait w => some w
    | _ => none

/-- A queue store of the head of stq to the addresses of its lanes: every address is checked, near bytes are stored,
posted requests are sent as the journal takes them, and the entry leaves stq. -/
def queueStore (s : State) (n size : Nat) (e : StqEntry) (addr : Nat → Option W64) : Out :=
  let l := (activeLanes e.mask).filterMap fun i => (addr i).map fun a => (⟨i, a, a⟩ : LaneAccess)
  let data := fun i => leBytes n (e.data.getD i 0).toNat
  let finish := fun (t : State) =>
    Host.Outcome.next (t.setGrp { t.grp with stq := t.grp.stq.drop 1, hartSend := none }.hartNext)
  let send := fun (t : State) (posts : List Posting) =>
    let r := t.sendPosts posts
    if r.2.isEmpty then finish r.1
    else hartWaits (r.1.setGrp { r.1.grp with hartSend := some r.2 }) .journal
  match s.grp.hartSend with
  | some rest => send s rest
  | none =>
    match s.storeFate n l, s.storeWait n l with
    | some o, _ => o
    | none, some w => hartWaits s w
    | none, none =>
      let near := l.filter fun x => !s.postedAt x.addr
      let posts := (s.requests data l).map fun r => r.posting size 1 false
      send (s.putElems n data near) posts

/-- Runs `k` on the head of stq. -/
def withStq (s : State) (k : StqEntry → Out) : Out :=
  match s.grp.stq with
  | [] => hartWaits s .stqEmpty
  | e :: _ => k e

/-- `z.stq` (R99). -/
def execZStq (t : StqTy) (rs1 rs2 : XReg) (s : State) : Out :=
  hartRun s [rs1, rs2] [] fun s => withStq s fun e =>
    let size := match t with
      | .n8 => 0
      | .n16 => 1
      | .n32 => 2
    queueStore s (2 ^ size) size e fun i => some (s.grp.xr rs1 + BitVec.ofNat 64 i * s.grp.xr rs2)

/-- `z.stqt` (R100). -/
def execZStqt (rs1 rs2 : XReg) (s : State) : Out :=
  withPair s rs1 rs2 [] [] fun s c01 c234 => withStq s fun e =>
    let a := s.grp.xr rs1
    let c := coordsOf c01 c234
    match s.readRecord a (c.getD 0 0) 7 (fun r => r.fmt < 25 && (!r.slices || r.w == 64)) with
    | .wait w => hartWaits s w
    | .fault f => .next (s.hartFault .read f)
    | .ok r t =>
      if !r.sliceSpace then raise s 5 a
      else queueStore t (r.w / 8) (if r.w == 8 then 0 else if r.w == 16 then 1 else 2) e fun i =>
        let p := sliceCoords r c i
        if r.inside p then some (r.address p) else none

-- Scalars, tokens and feedback (05 R101).

/-- `z.scq`. -/
def execZScq (rs1 : XReg) (s : State) : Out :=
  hartRun s [rs1] [] fun s =>
    let g := s.grp
    if 16 ≤ g.scq.length then hartWaits s .scqFull
    else .next (s.setGrp { g with scq := g.scq ++ [g.xr rs1] }.hartNext)

/-- `z.ctok`. -/
def execZCtok (rs1 : XReg) (s : State) : Out :=
  hartRun s [rs1] [] fun s =>
    let g := s.grp
    if 16 ≤ g.ctq.length then hartWaits s .ctqFull
    else .next (s.setGrp { g with ctq := g.ctq ++ [(g.xr rs1).setWidth 32] }.hartNext)

/-- `z.fbpop`: ldec takes the cycles of the wait that ends (R91). -/
def execZFbpop (rd : XReg) (s : State) : Out :=
  hartRun s [] [rd] fun s =>
    match s.grp.fbq with
    | [] => hartWaits s .fbqEmpty
    | v :: rest => .next (s.setGrp (({ s.grp.fbqReady s.cycles with fbq := rest }.setX rd v).hartNext))

/-- `z.bfb`: a target that is not a multiple of 4 raises mcause 0 before the pop. -/
def execZBfb (rs1 : XReg) (off : BitVec 13) (s : State) : Out :=
  hartRun s [] [rs1] fun s =>
    let target := s.grp.pc + off.signExtend 64
    if target.getLsbD 0 || target.getLsbD 1 then raise s 0 target
    else match s.grp.fbq with
      | [] => hartWaits s .fbqEmpty
      | v :: rest =>
        let g := { s.grp.fbqReady s.cycles with fbq := rest }.setX rs1 v
        .next (s.setGrp (if v == 0 then g.hartNext else g.hartGoto target))

/-- `z.join` (R109): every queue load at a distant home is read and the group's dirty sectors are written back first (09
R166; 13 R237); it completes with a compute stream that waits at `join`, else waits. -/
def execZJoin (s : State) : Out :=
  if s.grp.loadsAway then hartWaits s .drain else
  match s.writeBackOwn with
  | .wait t => hartWaits t .join
  | .fault t => .next t
  | .ok t =>
    let g := t.grp
    if g.laneWait == some .join && !g.held && g.holdC.isNone then .next (t.setGrp (g.laneNext 4).hartNext)
    else hartWaits t .join

/-- `z.qdrop` (R103): the drop waits for the arrival of each entry it discards. -/
def execZQdrop (q : BitVec 2) (n : BitVec 4) (s : State) : Out :=
  let g := s.grp
  let l := Map.get [] g.ldq q.toNat
  let k := if n == 0 then l.length else n.toNat
  if (l.take k).any fun e => !e.arrived then hartWaits s .dropArrival
  else .next (s.setGrp { g with ldq := g.ldq.set q.toNat (l.drop k), runAhead := g.runAhead - (l.take k).length }.hartNext)

-- Tensor addresses (05 R104, R105).

/-- `z.tadr`. -/
def execZTadr (rd rs1 rs2 : XReg) (s : State) : Out :=
  withPair s rs1 rs2 [] [rd] fun s c01 c234 =>
    let c := coordsOf c01 c234
    match s.readRecord (s.grp.xr rs1) (c.getD 0 0) 5 with
    | .wait w => hartWaits s w
    | .fault f => .next (s.hartFault .read f)
    | .ok r t => .next (t.hartDone rd (r.address c))

/-- `z.tadv`. -/
def execZTadv (rd rs1 rs2 : XReg) (s : State) : Out :=
  hartRun s [rs1, rs2] [rd] fun s =>
    let a := s.grp.xr rs1
    let b := s.grp.xr rs2
    let c0 : W32 := a.setWidth 32 + (b.extractLsb' 0 16).signExtend 32
    let e0 : W32 := (b.extractLsb' 16 16).setWidth 32
    let c1 : W32 := a.extractLsb' 32 32
    let wrap := e0 != 0 && !c0.slt e0
    .next (s.hartDone rd
      ((if wrap then c1 + (b.extractLsb' 32 16).signExtend 32 else c1) ++ (if wrap then c0 - e0 else c0)))

end Sys2Proof.Machine
end

