-- ==== Sys2Proof/Machine/Engines.lean ====
section
/-! DEFINITION. Copies, mailbox counters, receive rings, hart barriers, fabric reductions, rank windows, the Tide, launch,
join wait and exit (09 R160; 10 R171-R186; 12 R220; 15 R265, R266; 16 R272-R280). -/
namespace Sys2Proof.Machine

-- Copies (10 R171-R174).

/-- The tags a copy kind accepts as its record's base (Table 10-2). -/
def copySpace (kind : Nat) (a : W64) : Bool :=
  let tag := a.toNat / 2 ^ 56
  match kind with
  | 0 => [0x00, 0xF1, 0xF2, 0xF3].contains tag
  | 1 => [0x00, 0xF3].contains tag
  | 2 => [0xF1, 0xF2].contains tag
  | _ => [0x00, 0xF2, 0xF3].contains tag

/-- The elements of a box, and the bytes of its local side (R170). -/
def Rec.elems (r : Rec) : Nat := ((List.range r.dims).map r.b).foldl (· * ·) 1
def Rec.localSize (r : Rec) : Nat := r.elems * r.w / 8

/-- Whether a handle entry grants a counter index: kind 2 or 5 (Table 25-5). -/
def grantsCounter (e : W64) (idx : Nat) : Bool :=
  (handleKind e == 2 || handleKind e == 5) && bits e.toNat 35 28 ≤ idx && idx ≤ bits e.toNat 35 28 + bits e.toNat 43 36

/-- The checks of a copy after its record is read: the first that fails, with its mtval. For a counter that the handle does
not grant R171 gives cause 5 and no mtval; the record's address is the model's choice (log 39). -/
def copyFault (s : State) (kind : Nat) (r : Rec) (a lo : W64) : Option (Nat × W64) :=
  let load := kind == 1 || kind == 2
  let size := if kind == 3 then s.blk.wbuf else s.blk.scratch
  if !copySpace kind r.base then some (5, a)
  else if r.mbx && !grantsCounter (s.blk.handle r.mhandle) r.mindex then some (5, a)
  else if lo.toNat % 16 != 0 then some (misalignedCause load, lo)
  else if size < lo.toNat + r.localSize then some (spaceCause load, lo)
  else none

/-- Issues a copy on a channel: its id, its place at the channel's end, the scoreboard of its token register. -/
def State.issueCopy (s : State) (kind ch : Nat) (rd : XReg) (rec_ : List Byte) (c01 c234 : W64) (off : Nat) : State :=
  let c := s.core
  let n := c.chan ch
  let k : Copy := { id := n.next, kind := kind, record := rec_, c01 := c01, c234 := c234, off := off, grp := s.cur
                    blk := s.grp.blk, token := rd.toNat }
  let t := s.setCore { c with chans := c.chans.set ch { n with next := n.next + 1, copies := n.copies ++ [k] } }
  t.setGrp { t.grp with tokens := t.grp.tokens.set rd.toNat ⟨ch, n.next, false⟩ }

/-- The four copy instructions: every check comes before the release (R171). A channel holds 16 copies (21 R306). -/
def copyInstr (s : State) (kind ch : Nat) (rd rs1 rs2 : XReg) : Out :=
  if rd == 0 then illegal s
  else withPair s rs1 rs2 [rd] [rd] fun s c01 c234 =>
    let a := s.grp.xr rs1
    let lo := s.grp.xr rd
    match s.readRecord a ((coordsOf c01 c234).getD 0 0) 5, s.readBytes a 64 5 5 with
    | .wait w, _ => hartWaits s w
    | .fault f, _ => .next (s.hartFault .read f)
    | .ok r t, bytes =>
      match copyFault s kind r a lo with
      | some (cause, val) => raise s cause val
      | none =>
        if 16 ≤ (t.core.chan ch).copies.length then hartWaits s (.copySlots ch)
        else afterRelease t fun t =>
          let l := match bytes with
            | .ok l _ => l
            | _ => []
          let u := t.issueCopy kind ch rd l c01 c234 lo.toNat
          .next (u.setGrp u.grp.hartNext)

/-- `z.cpyin` (R171). -/
def execZCpyin (ch : BitVec 3) (rd rs1 rs2 : XReg) (s : State) : Out := copyInstr s 0 ch.toNat rd rs1 rs2
/-- `z.cpyout` (R171). -/
def execZCpyout (ch : BitVec 3) (rd rs1 rs2 : XReg) (s : State) : Out := copyInstr s 1 ch.toNat rd rs1 rs2
/-- `z.cpyx` (R171). -/
def execZCpyx (ch : BitVec 3) (rd rs1 rs2 : XReg) (s : State) : Out := copyInstr s 2 ch.toNat rd rs1 rs2
/-- `z.cpywb` (R171). -/
def execZCpywb (ch : BitVec 3) (rd rs1 rs2 : XReg) (s : State) : Out := copyInstr s 3 ch.toNat rd rs1 rs2

/-- `z.cpywait` (R174). -/
def execZCpywait (ch : BitVec 3) (rd rs1 : XReg) (s : State) : Out :=
  hartRun s [rs1] [rd] fun s =>
    let n := s.core.chan ch.toNat
    let ok := if rs1 == 0 then !(n.copies.any fun c => c.grp == s.cur) else reached32 n.cedone (lo32 (s.grp.xr rs1) + 1)
    if ok then .next (s.hartAcquire.hartDone rd (n.cedone.setWidth 64)) else hartWaits s (.copies ch.toNat)

-- Mailbox counters (10 R176).

/-- The entry and index that a mailbox address names. -/
def State.mailbox (s : State) (a : W64) : W64 × Nat := (s.blk.handle (bits a.toNat 47 40), bits a.toNat 7 0)

/-- The valid context-counter ranges of an ASID: core, first counter, count (26 R352). -/
def State.counterRanges (s : State) (asid : Nat) : List (Nat × Nat × Nat) :=
  (List.range 8).filterMap fun j =>
    let v := s.le (s.ctxEntry asid + 272 + 16 * j) 16
    let lo := bits v 19 12
    let c := bits v 27 20 + 1
    if bits v 0 0 == 1 && v / 2 ^ 28 == 0 && lo + c ≤ 256 then some (bits v 11 1, lo, c) else none

/-- Whether a home core takes an access to a counter from a block: the counter is the context's, or belongs to a resident
block of the block's cluster, whose retirement revokes its handles (13 R243). -/
def State.countsHere (s : State) (own : Block) (core idx : Nat) : Bool :=
  (s.counterRanges (s.launchAt own.launch).asid).any (fun r => r.1 == core && r.2.1 ≤ idx && idx < r.2.1 + r.2.2)
  || (s.blocksOn core).any fun b => b.2.counters.contains idx && s.sameCluster own b.2

/-- Whether a handle entry of the acting group's block stands for a counter: it grants the index, and it is a peer's or has
not been revoked (R176; 13 R243). -/
def State.counterOk (s : State) (e : W64) (idx : Nat) : Bool :=
  grantsCounter e idx && (isPeer e || s.countsHere s.blk (handleCore e) idx)

/-- Runs `k` on the entry and index of a mailbox address, or takes the address's fault. With `posted` the home decides
whether the counter is still there (13 R243). -/
def withMailbox (s : State) (a : W64) (load posted : Bool) (k : W64 → Nat → Out) : Out :=
  let m := s.mailbox a
  if a.toNat / 2 ^ 56 != 0xF4 then raise s (spaceCause load) a
  else if (if posted && handleCore m.1 != s.coreNo then grantsCounter m.1 m.2 else s.counterOk m.1 m.2) then k m.1 m.2
  else .next (s.hartXlate (a.toNat % 2 ^ 57) (if load then .read else .both) (noMapping a) load a)

/-- `z.mbadd`: a release; performed at once on the own core, else posted. -/
def execZMbadd (rs1 rs2 : XReg) (s : State) : Out :=
  hartRun s [rs1, rs2] [] fun s =>
    let a := s.grp.xr rs1
    let v := lo32 (s.grp.xr rs2)
    withMailbox s a false true fun e idx => afterRelease s fun s =>
      let core := handleCore e
      if !isPeer e && core == s.coreNo then
        if s.sentTo (some core) then hartWaits s .drain
        else
          let u := s.setCounter core idx (s.counter core idx + v)
          .next (u.setGrp u.grp.hartNext)
      else if s.grp.jcount < 32 then
        let u := s.post { addr := a, size := 2, kind := 2 } (handleTarget e) fun slot => .increment slot core idx v a
        .next (u.setGrp u.grp.hartNext)
      else hartWaits s .journal

/-- A counter's value at its home; a peer's counter is an input from outside (log 1). -/
def State.homeCounter (s : State) (e : W64) (idx : Nat) : W32 :=
  if isPeer e then lo32 s.input.val else s.counter (handleCore e) idx

/-- `z.mbwait`: it completes with the value that satisfied it, the counter's now or the one that woke it (R176). -/
def execZMbwait (rd rs1 rs2 : XReg) (s : State) : Out :=
  hartRun s [rs1, rs2] [rd] fun s =>
    withMailbox s (s.grp.xr rs1) true false fun e idx =>
      match s.grp.hartWait with
      | some (.woken v) => .next (s.hartAcquire.hartDone rd (v.setWidth 64))
      | _ =>
        let v := s.homeCounter e idx
        let n := lo32 (s.grp.xr rs2)
        if s.sentTo (some (handleTarget e)) then hartWaits s .drain
        else if !reached32 v n then hartWaits s (.mailbox (256 * handleTarget e + idx) n)
        else .next (s.hartAcquire.hartDone rd (v.setWidth 64))

/-- A request to a distant home, which the hart waits for. -/
def State.ask (s : State) (r : HartReq) : State := s.setGrp { s.grp with hartReq := some r, hartWait := none }

/-- `z.mbrd`. -/
def execZMbrd (rd rs1 : XReg) (s : State) : Out :=
  hartRun s [rs1] [rd] fun s =>
    let a := s.grp.xr rs1
    withMailbox s a true false fun e idx =>
      if isPeer e || handleCore e != s.coreNo then .next (s.ask (.mbread rd a))
      else if s.sentTo (some s.coreNo) then hartWaits s .drain
      else .next (s.hartDone rd ((s.counter s.coreNo idx).setWidth 64))

/-- `z.mbset`. -/
def execZMbset (rs1 rs2 : XReg) (s : State) : Out :=
  hartRun s [rs1, rs2] [] fun s =>
    let a := s.grp.xr rs1
    let v := lo32 (s.grp.xr rs2)
    withMailbox s a false false fun e idx =>
      if isPeer e || handleCore e != s.coreNo then .next (s.ask (.mbset a v))
      else if s.sentTo (some s.coreNo) then hartWaits s .drain
      else
        let u := s.setCounter s.coreNo idx v
        .next (u.setGrp u.grp.hartNext)

-- Receive rings (10 R177-R179).

def Core.ring (c : Core) (r : Nat) : Ring := Map.get {} c.rings r
def State.setRing (s : State) (core r : Nat) (v : Ring) : State :=
  let c := s.coreAt core
  s.setCoreAt core { c with rings := c.rings.set r v }

/-- `z.send` (R178): the 64 bytes go out after the release, and the hart waits for the ring's answer. -/
def execZSend (rd rs1 rs2 : XReg) (s : State) : Out :=
  hartRun s [rs1, rs2] [rd] fun s =>
    let a := s.grp.xr rs1
    let off := s.grp.xr rs2
    let e := s.blk.handle (bits a.toNat 47 40)
    if off.toNat % 64 != 0 then raise s 4 off
    else if s.blk.scratch < off.toNat + 64 then raise s 5 off
    else if a.toNat / 2 ^ 56 != 0xF1 then raise s 7 a
    else if handleKind e != 3 then .next (s.hartXlate (a.toNat % 2 ^ 57) .write (noMapping a) false a)
    else afterRelease s fun s =>
      let key := scratchKey s.grp.blk off.toNat
      if s.poisoned key 64 then raise s 29 off
      else
        let l := s.bytes key 64
        let t := s.ask (.send rd e.toNat l)
        .next { t with net := t.net ++ [⟨t.cur, handleCore e, .ring e.toNat l rd⟩] }

/-- Runs `k` on the ring a register names, where it belongs to the issuing block. -/
def withRing (s : State) (v : W64) (cause : Nat) (k : Ring → Out) : Out :=
  let r := s.core.ring (v.toNat % 8)
  if v.toNat < 8 && r.live && r.owner == s.grp.blk then k r else raise s cause v

/-- `z.recv` (R179). -/
def execZRecv (rd rs1 : XReg) (s : State) : Out :=
  hartRun s [rs1] [rd] fun s => withRing s (s.grp.xr rs1) 5 fun r =>
    if r.tail == r.head then hartWaits s .ring
    else .next (s.hartAcquire.hartDone rd (BitVec.ofNat 64 (r.base + 64 * (r.head.toNat % r.slots))))

/-- `z.rdone` (R179). -/
def execZRdone (rs1 : XReg) (s : State) : Out :=
  hartRun s [rs1] [] fun s =>
    let v := s.grp.xr rs1
    withRing s v 7 fun r =>
      if r.tail == r.head then raise s 7 v
      else afterRelease s fun s =>
        let u := s.setRing s.coreNo (v.toNat % 8) { r with head := r.head + 1 }
        .next (u.setGrp u.grp.hartNext)

-- Hart barriers (10 R180).

/-- The wait of a hart barrier: with no outstanding arrival it orders nothing. -/
def hartBarWait (s : State) (bar : Nat) (w : HartWait) : Out :=
  if s.arrivalOpen s.cur bar then hartWaits s w
  else
    let u := if (s.grp.arrivalAt bar).isSome then (s.setGrp (s.grp.setArrival bar none)).hartAcquire else s
    .next (u.setGrp { u.grp.hartNext with hartBar := false })

/-- An arrival: an earlier one in an incomplete phase is waited for first; then a release. -/
def hartBarArrive (s : State) (bar : Nat) (w : HartWait) (k : State → Out) : Out :=
  if s.arrivalOpen s.cur bar then hartWaits s w else afterRelease s fun t => k (t.arrive bar)

/-- `z.bbar`: an arrival already made is not made again (21 R305). -/
def execZBbar (s : State) : Out :=
  let bar := s.barKey s.cur false false
  if s.grp.hartBar then hartBarWait s bar .blockBarrier
  else hartBarArrive s bar .blockBarrier fun t => hartBarWait (t.setGrp { t.grp with hartBar := true }) bar .blockBarrier
def execZBbarArv (s : State) : Out :=
  hartBarArrive s (s.barKey s.cur false false) .blockBarrier fun t => .next (t.setGrp t.grp.hartNext)
def execZBbarWt (s : State) : Out := hartBarWait s (s.barKey s.cur false false) .blockBarrier
def execZCbarArv (s : State) : Out :=
  hartBarArrive s (s.barKey s.cur true false) .clusterBarrier fun t => .next (t.setGrp t.grp.hartNext)
def execZCbarWt (s : State) : Out := hartBarWait s (s.barKey s.cur true false) .clusterBarrier

-- Fabric reductions (10 R181-R183; 16 R279, R280).

/-- The key of a launch's channel at a core's router (17 R282). -/
def redKey (launch ch : Nat) : Nat := launch * 16 + ch
def Core.redNode (c : Core) (k : Nat) : RedNode := Map.get {} c.red k
def State.setRed (s : State) (core k : Nat) (v : RedNode) : State :=
  let c := s.coreAt core
  s.setCoreAt core { c with red := c.red.set k v }

/-- The channel of the acting group's launch, with its block's place in the tree. -/
def State.redChan (s : State) (ch : Nat) : Option (RedChan × Bool × Bool × Nat × Nat) :=
  match s.launch.chans.find? fun c => c.ch == ch with
  | none => none
  | some c => (c.tree[s.blk.lin]?).map fun t => (c, t)

/-- Whether a place in the tree contributes, and whether it receives. -/
def redMember (c : RedChan × Bool × Bool × Nat × Nat) : Bool := c.2.1
def redReceives (c : RedChan × Bool × Bool × Nat × Nat) : Bool := c.2.1 && (c.2.2.1 || c.1.all)

/-- `rsend` (R182): one contribution of the core, held in one of two buffers until its round is folded. -/
def execRsend (a : Code) (ch : BitVec 4) (s : State) : Out :=
  let k := redKey s.blk.launch ch.toNat
  let n := s.core.redNode k
  let rc := s.redChan ch.toNat
  laneRun s { len := 8, srcs := [src32 a], ok := fun _ => rc.any redMember }
    (fun _ => if 2 ≤ n.sent - n.folded then .wait .rsend else .pass) fun vs act t =>
      let v := match rc with
        | some c => c.1.width
        | none => 0
      let vals := (List.range v).map fun i => if act.getLsbD i then some (lo32 (argAt vs 0 i)) else none
      t.setRed t.coreNo k { n with inputs := n.inputs ++ [(n.sent, 8, vals)], sent := n.sent + 1 }

/-- `rrecv` (R183). -/
def execRrecv (d : Code) (ch : BitVec 4) (s : State) : Out :=
  let k := redKey s.blk.launch ch.toNat
  let n := s.core.redNode k
  let rc := s.redChan ch.toNat
  laneRun s { len := 8, ok := fun g => g.dstOk false d && rc.any redReceives, stq := d.toNat == 116 }
    (fun _ => if n.landed ≤ n.consumed then .wait .rrecv else .pass) fun _ act t =>
      match rc with
      | none => t
      | some c =>
        let key := scratchKey t.grp.blk (c.1.off + 256 * (n.consumed % 2))
        let u := t.writeDest false d act fun i =>
          if i < c.1.width then BitVec.ofNat 64 (leNat (t.bytes (key + 4 * i) 4)) else 0
        u.setRed u.coreNo k { n with consumed := n.consumed + 1 }

-- Rank windows (09 R160).

/-- The home of a location: an L2 slice, a core, or a vault (R160; 20 R286, R287). -/
def rankHome (p : Place) (core fabricCore : Nat) (t : Option TlbEntry) : Nat :=
  match p with
  | .global va _ =>
    let h := va / 256 % 384
    match t with
    | some e => match e.die with
      | some d => 32 * d + h % 32
      | none => h
    | none => h
  | .scratch _ => 1024 + core
  | .fabric _ _ => 1024 + fabricCore
  | .vault v _ => 8192 + v
  | .block _ => 0

/-- The status of a window request, and the window opened. -/
def State.openRank (s : State) (key home : Nat) (va : Option Nat) (base count : W32) : State × W64 :=
  if count == 0 || 2 ^ 24 < count.toNat then (s, 3)
  else if (s.windowAt key).isSome then (s, 2)
  else if 64 ≤ (s.windows.filter fun w => w.home == home).length then (s, 1)
  else ({ s with windows := s.windows ++ [⟨s.asid, key, home, base, count, base, [], va⟩] }, 0)

/-- Applies the contributions of a window that are due, at most `n` of them. -/
def State.applyRanks (s : State) (key : Nat) : Nat → State
  | 0 => s
  | n + 1 =>
    match s.windowAt key with
    | none => s
    | some w =>
      match w.heldBy.find? fun h => h.1 == w.next with
      | none => s
      | some h =>
        let t := s.flushHome key
        let v := homeAdd fp32 (leNat (t.worldBytes w.asid key 4)) h.2.1.toNat
        let u := t.writeAs w.asid key (leBytes 4 v)
        let w' := { w with next := w.next + 1, heldBy := w.heldBy.erase h }
        let all := u.windows.filter fun x => x.key != key
        let done := (w'.next - w'.base).toNat == w'.count.toNat
        ({ u with windows := if done then all else all ++ [w'] }).applyRanks key n

/-- Applies what is due at every window whose location lies in a block's scratch (21 R307: nothing is applied there while
the block is stopped). -/
def State.dueRanks (s : State) (blk : Nat) : State :=
  (s.windows.filter fun w => (scratchOf w.key).map (fun p => p.1) == some blk).foldl
    (fun t w => t.applyRanks w.key (w.heldBy.length + 1)) s

/-- `z.rank` (R160). -/
def execZRank (rd rs1 rs2 : XReg) (s : State) : Out :=
  hartRun s [rs1, rs2] [rd] fun s =>
    let a := s.grp.xr rs1
    let v := s.grp.xr rs2
    let base : W32 := lo32 v
    let count : W32 := lo32 (v >>> 32)
    if a.toNat % 4 != 0 then raise s 6 a
    else if a.toNat / 2 ^ 56 == 0xF3 then raise s 7 a
    else
      let h := s.hartReach a 4 .write false false
      hartAccess s h (.rank rd a base count) fun key t va =>
        let p := match s.place s.cur s.mmode a with
          | .ok p => p
          | .error _ => .block 0
        let r := ((s.keepTlb? t).touchL1 va).openRank key (rankHome p s.coreNo 0 t) va base count
        .next (r.1.hartDone rd r.2)

-- The Tide (12 R220).

/-- `z.tide`. -/
def execZTide (rd : XReg) (s : State) : Out := hartRun s [] [rd] fun s => .next (s.hartDone rd s.tide)

/-- `z.tidewait`. -/
def execZTidewait (rd rs1 : XReg) (s : State) : Out :=
  hartRun s [rs1] [rd] fun s =>
    if (s.grp.xr rs1).ule s.tide then .next (s.hartDone rd s.tide) else hartWaits s .tide

-- Launch (10 R184; 15 R265, R266; 16 R272-R278).

/-- The kernel of a descriptor's bytes (Table 15-5). -/
def kernelOf (l : List Byte) : Kernel :=
  let v := leNat l
  { hart := BitVec.ofNat 64 (bits v 255 192), lane := BitVec.ofNat 64 (bits v 319 256), groups := bits v 51 48 + 1
    regs := (bits v 47 32 + 15) / 16 * 16, scratch := 1024 * bits v 79 64, tiles := 4096 * bits v 87 80
    wbuf := 8192 * bits v 95 88, tables := bits v 63 56, priv := bits v 159 128
    moors := (List.range 4).map fun i => BitVec.ofNat 64 (bits v (383 + 64 * i) (320 + 64 * i)) }

/-- Lines that a kernel moors. -/
def Kernel.lines (k : Kernel) : Nat := (k.moors.map fun m => m.toNat % 256).foldl (· + ·) 0

/-- R266, BAD_RECORD: magic, must-be-zero fields, and the fields out of range. -/
def descriptorBad (l : List Byte) : Bool :=
  let v := leNat l
  bits v 15 0 != 0x4B5A || bits v 55 52 != 0 || bits v 127 104 != 0 || bits v 191 160 != 0 || bits v 1023 576 != 0
  || bits v 47 32 == 0 || bits v 159 128 % 16 != 0 || 0xFFFFF0 < bits v 159 128 || bits v 319 256 % 4 != 0
  || 3 < bits v 23 16

/-- R18, R266: more than one core holds. -/
def Kernel.tooBig (k : Kernel) : Bool :=
  256 < k.regs || 2048 < k.groups * k.regs || 262144 < k.scratch || 262144 < k.tiles || 131072 < k.wbuf
  || 32 < k.tables || 64 < k.lines

/-- A grant entry's fields (Table 16-2). -/
structure Grant where
  h : Nat
  kind : Nat
  lo : Nat
  n : Nat
  ring : Nat
  slots : Nat
  base : Nat
  core : Nat

def grantOf (w : W64) : Grant :=
  let v := w.toNat
  { h := bits v 7 0, kind := bits v 11 8, lo := bits v 23 16, n := bits v 31 24 + 1, ring := bits v 18 16
    slots := 2 ^ bits v 22 19, base := 64 * bits v 34 23, core := 48 * bits v 36 32 + bits v 42 37 }

/-- Handles that an entry takes. -/
def Grant.span (g : Grant) (size : Nat) : Nat := if g.kind == 4 then 1 else size

/-- R277: whether one entry's fields lie within their limits. -/
def State.grantOk (s : State) (asid size scratch : Nat) (w : W64) : Bool :=
  let g := grantOf w
  let v := w.toNat
  bits v 15 12 == 0 && g.h + g.span size ≤ 256
  && match g.kind with
     | 1 => v / 2 ^ 16 == 0
     | 2 => v / 2 ^ 32 == 0 && g.lo + g.n ≤ 256
     | 3 => v / 2 ^ 35 == 0 && 1 ≤ bits v 22 19 && bits v 22 19 ≤ 10 && g.base + 64 * g.slots ≤ scratch
     | 4 => v / 2 ^ 43 == 0 && bits v 42 37 < 48
            && (s.counterRanges asid).any fun r => r.1 == g.core && r.2.1 ≤ g.lo && g.lo + g.n ≤ r.2.1 + r.2.2
     | _ => false

/-- No two ranges of a list overlap. -/
def disjointRanges : List (Nat × Nat) → Bool
  | [] => true
  | (lo, n) :: rest => rest.all (fun r => lo + n ≤ r.1 || r.1 + r.2 ≤ lo) && disjointRanges rest

def State.grantsOk (s : State) (asid size scratch : Nat) (l : List W64) : Bool :=
  l.all (s.grantOk asid size scratch)
  && disjointRanges (l.map fun w => ((grantOf w).h, (grantOf w).span size))

/-- What a launch reads: its record, its descriptor and grant table where they can be read, and the reduction table's
outcome (none where it is refused). -/
structure LaunchRead where
  record : List Byte
  desc : Option (List Byte)
  grants : Option (List W64)
  red : Option (List Nat × List RedChan)

/-- The launch that a record describes. -/
def launchOf (r : LaunchRead) (part asid depth : Nat) : Launch :=
  let v := leNat r.record
  let red := r.red.getD ([], [])
  { part := part, asid := asid, kernel := kernelOf (r.desc.getD []), args := BitVec.ofNat 64 (bits v 127 64)
    join := bits v 191 128, gx := bits v 207 192, gy := bits v 223 208, gz := bits v 239 224
    cx := bits v 242 240 + 1, cy := bits v 245 243 + 1, prio := bits v 255 248, queue := bits v 261 256
    fmode := BitVec.ofNat 64 (bits v 351 288), grants := r.grants.getD [], coreMap := red.1, chans := red.2
    depth := depth }

/-- R273's conditions on the record's own fields. -/
def recordBad (l : List Byte) : Bool :=
  let v := leNat l
  bits v 191 128 % 8 != 0 || bits v 191 184 != 0 || bits v 247 246 != 0 || bits v 287 262 != 0 || bits v 319 293 != 0
  || bits v 383 352 != 0 || 7 < bits v 255 248 || 4 < bits v 290 288

/-- R11, R266, R279: the shape is refused. -/
def shapeBad (k : List Byte) (l : Launch) : Bool :=
  let v := leNat k
  let cx := bits v 99 96
  let cy := bits v 103 100
  l.gx == 0 || l.gy == 0 || l.gz == 0 || 8 < l.cx * l.cy || l.gx % l.cx != 0 || l.gy % l.cy != 0
  || (cx != 0 && cx != l.cx) || (cy != 0 && cy != l.cy) || (!l.coreMap.isEmpty && l.cx * l.cy != 1)

/-- The status of a launch (Table 10-7), and the launch it describes. -/
def State.launchStatus (s : State) (r : LaunchRead) (part asid depth : Nat) (child : Bool) : Nat × Launch :=
  let l := launchOf r part asid depth
  let d := r.desc.getD []
  let q := (s.reg (subBlock part (0x100 + 8 * l.queue))).toNat
  let status :=
    if r.desc.isNone || descriptorBad d || recordBad r.record || r.red.isNone
       || !(r.grants.any (s.grantsOk asid (l.cx * l.cy) l.kernel.scratch)) then 1
    else if bits (leNat d) 31 24 != 2 then 2
    else if 2 ^ 24 < l.gx * l.gy * l.gz * l.kernel.groups * 64 then 3
    else if shapeBad d l then 4
    else if l.kernel.tooBig then 5
    else if child && 24 < depth then 6
    else if q % 2 == 0 || bits q 16 1 != asid then 7
    else if child && 65536 ≤ (s.part part).pool then 8
    else 0
  (status, l)

/-- An accepted launch joins the tail of its queue (R274, R275). -/
def State.enqueue (s : State) (l : Launch) (pooled : Bool) : State :=
  let pt := s.part l.part
  let n := s.nextLaunch
  let t := s.setPart l.part
    { pt with queues := pt.queues.set l.queue (Map.get [] pt.queues l.queue ++ [n]), pool := pt.pool + if pooled then 1 else 0 }
  { t with nextLaunch := n + 1
           launches := t.launches.set n { l with pooled := pooled, live := l.gx * l.gy * l.gz
                                                 pbase := Config.privateBase n * 4096 % 2 ^ 57 } }

/-- Reads `k` words of 64 bits; causes 0 mark what cannot be read. -/
def State.readWords (s : State) : Nat → W64 → ByteRead
  | 0, _ => .ok [] s
  | k + 1, a =>
    match s.readBytes a 8 0 0 with
    | .ok l t => match t.readWords k (a + 8) with
      | .ok m u => .ok (l ++ m) u
      | r => r
    | r => r

/-- Bytes as words. -/
def wordsOf : Nat → List Byte → List W64
  | 0, _ => []
  | k + 1, l => BitVec.ofNat 64 (leNat (l.take 8)) :: wordsOf k (l.drop 8)

/-- A global address aligned to `n`. -/
def globalAt (a : W64) (n : Nat) : Bool := a.toNat / 2 ^ 56 == 0 && a.toNat % n == 0

/-- A read of a launch's table by the acting hart: its bytes, none where it cannot be read, or what stops the read. -/
inductive TableRead where
  | some (l : List Byte)
  | unread
  | wait (w : HartWait)
  | fault (f : HartFault)

def State.tableRead (s : State) (a : W64) (words : Nat) : TableRead :=
  if !globalAt a 64 then .unread
  else match s.readWords words a with
    | .ok l _ => .some l
    | .wait w => .wait w
    | .fault f => if f.xlate.isSome then .fault f else .unread

/-- The grant table at an address: word 0, then its entries. -/
def State.grantRead (s : State) (a : W64) : TableRead :=
  match s.tableRead a 1 with
  | .some l =>
    let n := leNat l
    if 32 < n then .unread
    else match s.tableRead a (n + 1) with
      | .some m => .some (m.drop 8)
      | r => r
  | r => r

/-- `z.launch` (R184). -/
def execZLaunch (rd rs1 : XReg) (s : State) : Out :=
  hartRun s [rs1] [rd] fun s =>
    let a := s.grp.xr rs1
    if a.toNat % 64 != 0 then raise s 4 a
    else if a.toNat / 2 ^ 56 != 0 && a.toNat / 2 ^ 56 != 0xF3 then raise s 5 a
    else afterRelease s fun s =>
      match s.readBytes a 64 5 29 with
      | .wait w => hartWaits s w
      | .fault f => .next (s.hartFault .read f)
      | .ok rec_ s =>
        let v := leNat rec_
        let kd : W64 := BitVec.ofNat 64 v
        let gt : W64 := BitVec.ofNat 64 (bits v 447 384)
        match s.tableRead kd 16, (if gt == 0 then .some [] else s.grantRead gt) with
        | .wait w, _ | _, .wait w => hartWaits s w
        | .fault f, _ | _, .fault f => .next (s.hartFault .read f)
        | d, g =>
          let r : LaunchRead :=
            { record := rec_
              desc := match d with
                | .some l => some l
                | _ => none
              grants := match g with
                | .some l => some (wordsOf (l.length / 8) l)
                | _ => none
              red := if bits v 511 448 == 0 then some ([], []) else none }
          let p := s.launch.part
          let o := s.launchStatus r p s.asid (s.launch.depth + 1) true
          .next ((if o.1 == 0 then s.enqueue o.2 true else s).hartDone rd (BitVec.ofNat 64 o.1))

/-- `z.jwait` (R185). -/
def execZJwait (rd rs1 : XReg) (s : State) : Out :=
  hartRun s [rs1] [rd] fun s =>
    let a := s.grp.xr rs1
    if a.toNat % 8 != 0 then raise s 4 a
    else if a.toNat / 2 ^ 56 != 0 then raise s 5 a
    else match s.readBytes a 8 5 29 with
      | .wait w => hartWaits s w
      | .fault f => .next (s.hartFault .read f)
      | .ok l t =>
        let v : W64 := BitVec.ofNat 64 (leNat l)
        if v.msb || v == 0 then .next (t.hartAcquire.hartDone rd v) else hartWaits t .jwait

/-- `z.exit` (R186; 01 R14): with the compute stream at `cend` the group ends, else the hart waits. -/
def execZExit (rs1 : XReg) (s : State) : Out :=
  hartRun s [rs1] [] fun s =>
    let t := s.setGrp { s.grp with exitCode := lo32 (s.grp.xr rs1) }
    if t.grp.cendDone then .next (t.endGroup t.cur)
    else
      let u := t.setGrp { t.grp with hartWait := some .exit
                                     hartSince := if t.grp.hartWait == some .exit then t.grp.hartSince else t.cycles }
      .next (u.settleGroup u.cur false)

end Sys2Proof.Machine
end

