-- ==== Sys2Proof/Machine/Matrix.lean ====
section
/-! DEFINITION. The dense array and the lookup array: configuration, operand layouts, acceptance and completion, tables,
tile-store instructions, batches (11 R189-R214). -/
namespace Sys2Proof.Machine

-- The configuration (02 Table 2-11; 11 R194).

/-- mcfg taken apart. -/
structure Mx where
  afmt : Nat
  bfmt : Nat
  n : Nat
  k : Nat
  vec : Bool
  cbase : Nat
  wboff : Nat
  deriving DecidableEq, Repr

def Mx.of (v : W64) : Mx :=
  let v := v.toNat
  { afmt := bits v 3 0, bfmt := bits v 7 4, n := 16 * (bits v 10 8 + 1), k := 32 * (bits v 14 11 + 1)
    vec := bits v 15 15 == 1, cbase := bits v 21 16, wboff := bits v 40 32 }

/-- Bits of mcfg that are not reserved. -/
def mcfgKept : W64 := 0x1FF003FFFFF
/-- cbase, vec and nblk, whose change waits (R193). -/
def mcfgShape : W64 := 0x3F8700

/-- The width of a format code (R194). -/
def mxWidth (c : Nat) : Nat := [32, 32, 16, 16, 8, 8, 6, 6, 4, 8, 8, 4, 4, 1, 2, 4].getD c 0
/-- The floating format of codes 0-8. -/
def mxFmt (c : Nat) : Fmt := [fp32, tf19, bf16, fp16, e4m3, e5m2, e3m2, e2m3, e2m1].getD c fp32
/-- Integer codes 9-12: INT8, NAT8, INT4, NAT4. -/
def mxIsInt (c : Nat) : Bool := 9 ≤ c && c ≤ 12
/-- An integer element (R58). -/
def mxInt (c v : Nat) : Int := if c == 9 || c == 11 then signedOf (mxWidth c) v else v
/-- An element as an exact value (R54, R56, R67). -/
def mxVal (c : Nat) (fz : Bool) (v : Nat) : FVal := if mxIsInt c then .ofInt (mxInt c v) else (mxFmt c).decode fz v

def Mx.m (x : Mx) : Nat := if x.vec then 1 else 64
def Mx.wa (x : Mx) : Nat := mxWidth x.afmt
def Mx.wb (x : Mx) : Nat := mxWidth x.bfmt
/-- T0 and the bytes of C (R197). -/
def Mx.t0 (x : Mx) : Nat := x.cbase * 4096
def Mx.cBytes (x : Mx) : Nat := 4 * x.m * x.n
def Mx.w0 (x : Mx) : Nat := x.wboff * 256
/-- C is INT32 (R197). -/
def Mx.ints (x : Mx) : Bool := mxIsInt x.afmt && mxIsInt x.bfmt
/-- Handshake cycles of a dense operation, by the wider operand, and of a lookup operation, by the lookups of a column (14
R254). -/
def Mx.denseHand (x : Mx) : Nat :=
  let w := Nat.max x.wa x.wb
  let p := if 32 ≤ w then 2048 else if w == 16 then 4096 else if w == 8 then 8192 else 16384
  (x.m * x.n * x.k + p - 1) / p
def Mx.lutHand (x : Mx) : Nat :=
  let lookups := if x.bfmt == 14 then x.k / 2 else if x.bfmt == 13 then x.k / 4 else x.k
  (x.m * x.n * lookups + 16383) / 16384

/-- The rows an operation updates (R194). -/
def Mx.rows (x : Mx) (act : LaneMask) : LaneMask := if x.vec then (if act == 0 then 0 else 1) else act

-- Faults (R213).

/-- A fault of a matrix instruction: its code of Table 12-3 and mlval. -/
structure MxFault where
  code : Nat
  val : W64
  deriving DecidableEq, Repr

/-- The first failing check of a list. -/
def firstFault (l : List (Option MxFault)) : Option MxFault := l.findSome? id

def mxConfig (g : Group) : MxFault := ⟨17, g.mcfg⟩
def mxOperand (g : Group) : MxFault := ⟨2, g.lword.setWidth 64⟩
/-- Regions of the range fault: 0 scratch, 1 tile store, 2 weight buffer. -/
def mxRange (region off : Nat) : MxFault := ⟨18, BitVec.ofNat 64 (off % 2 ^ 62 + 2 ^ 62 * region)⟩
def mxStale (tb : Nat) : MxFault := ⟨19, BitVec.ofNat 64 tb⟩
def mxDesync (g : Group) : MxFault := ⟨20, BitVec.ofNat 64 g.scaleQ.length⟩
def mxIndex (off : Nat) : MxFault := ⟨21, BitVec.ofNat 64 off⟩

def faultIf (b : Bool) (f : MxFault) : Option MxFault := if b then some f else none

/-- `n` bytes from `lo` must lie in an allocation of `size`; the first offending byte is named. -/
def inRegion (region size lo n : Nat) : Option MxFault :=
  faultIf (n != 0 && size < lo + n) (mxRange region (if size < lo then lo else size))

/-- The course of a matrix, table or tile instruction (R189, R191, R213): room in the array, the release, the checks
that no operand value decides, then the operands and the other checks. -/
def matrixRun (s : State) (srcs : List Src) (ok : Group → Bool) (room : Bool) (pre : Option MxFault)
    (check : List LaneVec → Option MxFault) (wait : List LaneVec → Bool)
    (eff : List LaneVec → LaneMask → State → State) : Out :=
  let raise_ := fun (f : MxFault) => Check.fault s f.code s.grp.active f.val
  laneRun s { len := 8, srcs := if room && !s.grp.laneInFlight && pre.isNone then srcs else [], ok := ok }
    (fun vs =>
      if !room then .wait .arrayFull
      else Check.release s (some .block)
        (match pre with
         | some f => raise_ f
         | none => match check vs with
           | some f => raise_ f
           | none => if wait vs then .wait .drain else .pass))
    eff

/-- Whether an array of the acting core takes one more operation of `hand` handshake cycles: 4 operations at most (R189),
and 2,048 handshakes (14 R255). -/
def State.arrayRoom (s : State) (lookup : Bool) (hand : Nat) : Bool :=
  let ops := s.core.ops.filter fun o => o.lookupArray == lookup
  ops.length < 4 && (ops.map fun o => o.hand).foldl (· + ·) 0 + hand ≤ 2048

/-- Lane 0 of the first source, as a 32-bit offset. -/
def offset0 (vs : List LaneVec) : Nat := lowBits 32 (argAt vs 0 0)

-- Operands (R195, R196).

/-- Elements of a packed bit string (R56). -/
def unpack (w n v : Nat) : List Nat := (List.range n).map fun i => bits v (w * i + w - 1) (w * i)

/-- How many registers A takes (R195). -/
def Mx.aRegs (x : Mx) : Nat := if x.vec then (x.k * x.wa + 2047) / 2048 else x.k * x.wa / 32

/-- The bit string of row `r` of A in registers. -/
def Group.aString (g : Group) (x : Mx) (a : Code) (r : Nat) : Nat :=
  let base := g.wbase + a.toNat
  if x.vec then
    leNat ((List.range (x.k * x.wa / 32)).flatMap fun w => leBytes 4 (g.reg (base + w / 64) (w % 64)).toNat)
  else leNat ((List.range x.aRegs).flatMap fun i => leBytes 4 (g.reg (base + i) r).toNat)

/-- The row pitch of A in scratch. -/
def Mx.pitch (x : Mx) (imm : Half) : Nat := if imm == 0 then x.k * x.wa / 8 else imm.toNat

/-- A as rows of element codes. -/
def State.aMatrix (s : State) (x : Mx) (asrc : Bool) (a : Code) (imm : Half) (o : Nat) : List (List Nat) :=
  (List.range x.m).map fun r =>
    let v := if asrc then s.le (scratchKey s.grp.blk (o + r * if x.vec then 0 else x.pitch imm)) (x.k * x.wa / 8)
             else s.grp.aString x a r
    unpack x.wa x.k v

/-- The alignment and bounds of A in scratch (R195). -/
def aRange (x : Mx) (scratch : Nat) (imm : Half) (o : Nat) : Option MxFault :=
  let rb := x.k * x.wa / 8
  let p := if x.vec then 0 else x.pitch imm
  firstFault
    (faultIf (o % 16 != 0) (mxRange 0 o)
     :: faultIf (!x.vec && imm.toNat % 16 != 0) (mxRange 0 (o + imm.toNat))
     :: (List.range x.m).map fun r => inRegion 0 scratch (o + r * p) rb)

/-- Bytes of a column of dense B or of codes, and of 2:4 B. -/
def Mx.colBytes (x : Mx) (sp : Bool) : Nat := if sp then x.k * x.wb / 16 + x.k / 8 else x.k * x.wb / 8

/-- The bit string of column `j` in the weight buffer. -/
def State.column (s : State) (x : Mx) (sp : Bool) (j : Nat) : Nat :=
  s.le (wbufKey s.grp.blk (x.w0 + j * x.colBytes sp)) (x.colBytes sp)

/-- Nibble `g` of a 2:4 column: p0 and p1. -/
def Mx.nibble (x : Mx) (v g : Nat) : Nat × Nat :=
  let at_ := x.k * x.wb / 2 + 4 * g
  (bits v (at_ + 1) at_, bits v (at_ + 3) (at_ + 2))

/-- Column `j` of B: `none` at a structural zero (R196). -/
def Mx.bColumn (x : Mx) (sp : Bool) (v : Nat) : List (Option Nat) :=
  if sp then
    let vals := unpack x.wb (x.k / 2) v
    (List.range x.k).map fun i =>
      let p := x.nibble v (i / 4)
      if i % 4 == p.1 then some (vals.getD (2 * (i / 4)) 0)
      else if i % 4 == p.2 then some (vals.getD (2 * (i / 4) + 1) 0)
      else none
  else (unpack x.wb x.k v).map some

/-- The first metadata nibble with p0 ≥ p1 (R196). -/
def State.metadata (s : State) (x : Mx) : Option MxFault :=
  (List.range x.n).findSome? fun j =>
    let v := s.column x true j
    (List.range (x.k / 4)).findSome? fun g =>
      let p := x.nibble v g
      faultIf (p.2 ≤ p.1) (mxIndex (x.w0 + j * x.colBytes true + x.k * x.wb / 16 + g / 2))

/-- The bounds of B or the codes, and of C. -/
def State.bcRange (s : State) (x : Mx) (sp : Bool) : Option MxFault :=
  firstFault [inRegion 2 s.blk.wbuf x.w0 (x.n * x.colBytes sp), inRegion 1 s.blk.tiles x.t0 x.cBytes]

-- Acceptance (R189, R190).

/-- Accepts an operation of `hand` handshake cycles: it joins the open batch. The flags of a build are those of its
entries. -/
def State.accept (s : State) (lookup : Bool) (rows : LaneMask) (w : MatWork) (hand : Nat) (flags : BitVec 4 := 0) : State :=
  let g := s.grp
  let op : MatOp := { grp := s.cur, blk := g.blk, batch := g.batchOpen, lookupArray := lookup, cfg := g.mcfg
                      fmode := g.fmode, rows := rows, work := w, hand := hand, flags := flags }
  let t := s.setGrp { g with batchOcc := true }
  let c := t.core
  t.setCore { c with ops := c.ops ++ [op] }

-- The dense array (R67, R68, R72, R73, R199).

/-- A rounded FP32 code and the flags its rounding sets; `innan` says that an input was NaN. -/
def mxRound (r : Round) (fzr innan : Bool) (v : FVal) : Nat × BitVec 4 :=
  let c := fp32.encode { r := r, fz := fzr } v
  let fin := match v with
    | .fin _ _ _ => true
    | _ => false
  (c, (if v.isNan && !innan then mnanFlag else 0) ||| (if fin && (fp32.decode false c).isInf then minfFlag else 0))

/-- The exact sum of the products of a K-block. -/
def blockSum (r : Round) : List (FVal × FVal) → FVal
  | [] => .fin false 0 0
  | p :: rest => rest.foldl (fun acc q => acc.add r (q.1.mul q.2)) (p.1.mul p.2)

/-- One K-block's contribution (R67 steps 1-3) with its flags. `scale` is the exact product of the block scales. -/
def mxBlock (r : Round) (fzr : Bool) (scale : FVal) (l : List (FVal × Option FVal)) : Nat × BitVec 4 :=
  let kept := l.filterMap fun p => p.2.map fun b => (p.1, b)
  let innan := scale.isNan || kept.any fun p => p.1.isNan || p.2.isNan
  let out := mxRound r fzr innan ((blockSum r kept).mul scale)
  (out.1, out.2 ||| if l.any (fun p => p.2.isNone && p.1.isWild) then mspecFlag else 0)

/-- The accumulation of a block (R67 step 4). -/
def mxAccumulate (r : Round) (fzr fzi : Bool) (acc blk : Nat) : Nat × BitVec 4 :=
  let a := fp32.decode fzi acc
  let b := fp32.decode false blk
  mxRound r fzr (a.isNan || b.isNan) (a.add r b)

/-- The elements of a K-block (R67). -/
def Mx.kb (x : Mx) : Nat :=
  let w := if x.wa < x.wb then x.wb else x.wa
  if w ≤ 8 then 32 else if w == 16 then 16 else 8

/-- The blocks of a row and column, in increasing K order, from block `t`. -/
def mxFold (r : Round) (fzr fzi : Bool) (scale : Nat → FVal) : Nat → List (List (FVal × Option FVal)) → Nat → Nat × BitVec 4
  | _, [], acc => (acc, 0)
  | t, l :: rest, acc =>
    let b := mxBlock r fzr (scale t) l
    let a := mxAccumulate r fzr (fzi && t == 0) acc b.1
    let q := mxFold r fzr fzi scale (t + 1) rest a.1
    (q.1, b.2 ||| a.2 ||| q.2)

/-- A list in pieces of `n`, at most `fuel` of them. -/
def pieces {α : Type} (n : Nat) : Nat → List α → List (List α)
  | 0, _ => []
  | fuel + 1, l => if l.isEmpty then [] else l.take n :: pieces n fuel (l.drop n)

/-- The scale product of K-block t for row r and column j (R198, R199). -/
def mxScale (scales : List (List W32)) (scaled : Bool) (r j t : Nat) : FVal :=
  if !scaled then .fin false 1 0
  else
    let e := scales.getD t []
    let sa := (e.getD r 0).toNat
    let sb := (e.getD (j / 2) 0).toNat
    (decodeE8M0 (bits sa 7 0)).mul (decodeE8M0 (if j % 2 == 0 then bits sb 15 8 else bits sb 23 16))

/-- A C element after a dense operation. -/
def denseElement (x : Mx) (fm : W64) (scale : Nat → FVal) (a : List Nat) (b : List (Option Nat)) (acc : Nat) :
    Nat × BitVec 4 :=
  if x.ints then
    let sum := (a.zip b).foldl (fun (t : Int) p => match p.2 with
      | some v => t + mxInt x.afmt p.1 * mxInt x.bfmt v
      | none => t) (acc : Int)
    ((sum % 2 ^ 32).toNat, 0)
  else
    let l := (a.zip b).map fun p =>
      (mxVal x.afmt (fzin fm) p.1, p.2.map fun v => mxVal x.bfmt (fzin fm) v)
    mxFold (fmRound fm) (fzres fm) (fzin fm) scale 0 (pieces x.kb (x.k / x.kb) l) acc

-- The lookup array (R70, R72, R207).

/-- Elements of a K-group: four for subset tables, one for product tables. -/
def lutGroup (bfmt : Nat) : Nat := if bfmt == 15 then 1 else 4

/-- Entry e of row r of a table. -/
def Table.entry (t : Table) (r e : Nat) : Nat := (t.entries.getD (16 * r + e) 0).toNat

/-- The table and row of K-group `g` for row `r` (R207). -/
def lutAt (tables : List Table) (vec : Bool) (r g : Nat) : Table × Nat :=
  if vec then (tables.getD (g / 64) {}, g % 64) else (tables.getD g {}, r)

/-- The index formed by a test of the codes of a group. -/
def lutIndex (q : List Nat) (f : Nat → Bool) : Nat :=
  (List.range q.length).foldl (fun acc m => acc + if f (q.getD m 0) then 2 ^ m else 0) 0

/-- The terms of a K-group in order (R70): entry code, sign and power-of-two weight. -/
def lutTerms (bfmt : Nat) (t : Table) (row : Nat) (q : List Nat) : List (Nat × Bool × Int) :=
  match bfmt with
  | 13 => [(t.entry row (lutIndex q fun v => v == 1), false, 0)]
  | 14 => [(t.entry row (lutIndex q fun v => v == 1), false, 0), (t.entry row (lutIndex q fun v => v == 2), true, 0)]
  | 15 => [(t.entry row (q.getD 0 0), false, 0)]
  | _ => (List.range 4).map fun (b : Nat) =>
      (t.entry row (lutIndex q fun v => v / 2 ^ b % 2 == 1), bfmt == 11 && b == 3, Int.ofNat b)

/-- A term as an exact value. -/
def lutTerm (p : Nat × Bool × Int) : FVal :=
  match fp32.decode false p.1 with
  | .fin neg m e => .fin (neg != p.2.1) m (e + p.2.2)
  | .inf neg => .inf (neg != p.2.1)
  | .nan => .nan

/-- Whether a zero weight of a group meets a special activation (R72). -/
def lutSpecial (bfmt : Nat) (t : Table) (row : Nat) (q : List Nat) : Bool :=
  match bfmt with
  | 13 => false
  | 15 => t.spec.getLsbD (4 * row) && (fp32.decode false (t.entry row (q.getD 0 0))).isZero
          && !(fp32.decode false (t.entry row (q.getD 0 0))).isNeg
  | _ => (List.range 4).any fun m => t.spec.getLsbD (4 * row + m) && q.getD m 0 == 0

/-- The terms of a row and column added in order. -/
def lutFold (r : Round) (fzr : Bool) : Bool → List (Nat × Bool × Int) → Nat → Nat × BitVec 4
  | _, [], acc => (acc, 0)
  | fzi, p :: rest, acc =>
    let a := fp32.decode fzi acc
    let v := lutTerm p
    let o := mxRound r fzr (a.isNan || v.isNan) (a.add r v)
    let q := lutFold r fzr false rest o.1
    (q.1, o.2 ||| q.2)

/-- A C element after a lookup operation. -/
def lookupElement (x : Mx) (fm : W64) (tables : List Table) (r : Nat) (codes : List Nat) (acc : Nat) : Nat × BitVec 4 :=
  let groups := pieces (lutGroup x.bfmt) x.k codes
  let at_ := fun g => lutAt tables x.vec r g
  let terms := (List.range groups.length).flatMap fun g => lutTerms x.bfmt (at_ g).1 (at_ g).2 (groups.getD g [])
  let special := (List.range groups.length).any fun g => lutSpecial x.bfmt (at_ g).1 (at_ g).2 (groups.getD g [])
  let o := lutFold (fmRound fm) (fzres fm) (fzin fm) terms acc
  (o.1, o.2 ||| if special then mspecFlag else 0)

-- Applying and completing (R190, R192).

/-- One element of C of an operation. -/
def MatOp.element (o : MatOp) (r j acc : Nat) : Nat × BitVec 4 :=
  let x := Mx.of o.cfg
  match o.work with
  | .dense a b scales scaled => denseElement x o.fmode (mxScale scales scaled r j) (a.getD r []) (b.getD j []) acc
  | .lookup tables codes => lookupElement x o.fmode tables r (codes.getD j []) acc
  | .build => (acc, 0)

/-- Whether an operation writes the tile store. -/
def MatOp.writesTiles (o : MatOp) : Bool :=
  match o.work with
  | .build => false
  | _ => true

/-- The tile-store byte of element `e` of an operation's C, numbered row by row. -/
def MatOp.key (o : MatOp) (e : Nat) : Nat := tileKey o.blk ((Mx.of o.cfg).t0 + 4 * e)

/-- The elements of C that an operation updates. -/
def MatOp.elements (o : MatOp) : List Nat :=
  let x := Mx.of o.cfg
  if o.writesTiles then
    ((List.range x.m).filter fun r => o.rows.getLsbD r).flatMap fun r => (List.range x.n).map fun j => r * x.n + j
  else []

/-- Updates elements of an operation's C, in order; answers the flags that these updates raise. Only rows that the
operation updates raise flags: R194 has every other effect the same whatever the mask holds, R199 computes updated rows
alone (log 39). -/
def State.applyOp (s : State) (o : MatOp) (l : List Nat) : State × BitVec 4 :=
  let n := (Mx.of o.cfg).n
  l.foldl (fun p e =>
    let v := o.element (e / n) (e % n) (p.1.le (o.key e) 4)
    ({ p.1 with mem := Memory.writeBytes p.1.mem (o.key e) (leBytes 4 v.1) }, p.2 ||| v.2)) (s, 0)

/-- The elements of an operation that are still to be updated and whose bytes `hit` holds of. -/
def MatOp.due (o : MatOp) (hit : Nat → Bool) : List Nat := o.elements.filter fun e => hit (o.key e) && !o.written.contains e

/-- Updates, in acceptance order, what is due of each operation of a list (R192). -/
def State.applyOps (s : State) (hit : Nat → Bool) : List MatOp → State × List MatOp
  | [] => (s, [])
  | o :: rest =>
    let l := o.due hit
    let p := s.applyOp o l
    let q := p.1.applyOps hit rest
    (q.1, { o with written := l ++ o.written, flags := o.flags ||| p.2 } :: q.2)

/-- Whether a byte starts an element that an operation updates. -/
def MatOp.covers (o : MatOp) (key : Nat) : Bool :=
  let lo := o.key 0
  o.writesTiles && lo ≤ key && key < lo + (Mx.of o.cfg).cBytes

/-- MATRIX_COMPLETION: the `b`-th accepted operation of core `a` has written its results and returns its token (R190). Of
the operations accepted before it only the updates of elements that it shares come first (R192). With `flag` it updates
its `c`-th element alone, and completes later (Table 11-3). -/
def execMatrixCompletion (s : State) : Out :=
  let core := s.input.a
  let ops := (s.coreAt core).ops
  match ops[s.input.b]? with
  | none => .next s
  | some o =>
    let hit := fun key => if s.input.flag then key == o.key s.input.c else o.covers key
    let r := s.applyOps hit (ops.take (s.input.b + 1))
    let u := fun l => r.1.setCoreAt core { r.1.coreAt core with ops := l ++ ops.drop (s.input.b + 1) }
    if s.input.flag then .next (u r.2)
    else .next ((u (r.2.take s.input.b)).setFlags o.grp ((r.2.getLast?.map fun x => x.flags).getD 0))

-- mcfg and the scale queue (R193, R200).

/-- Whether an accepted operation of the acting group that writes tile store meets a byte range of the tile store. -/
def State.tileBusy (s : State) (hit : Nat → Nat → Bool) : Bool :=
  s.core.ops.any fun o => o.grp == s.cur && o.writesTiles && hit (Mx.of o.cfg).t0 (Mx.of o.cfg).cBytes

/-- `mcfg` (R193). -/
def execMcfg (a : Code) (s : State) : Out :=
  laneRun s { len := 4, srcs := [src64 a] }
    (fun vs => if (argAt vs 0 0 ^^^ s.grp.mcfg) &&& mcfgShape != 0 && s.tileBusy (fun _ _ => true) then .wait .drain
               else .pass)
    fun vs _ t =>
      let v := argAt vs 0 0
      let u := t.setGrp { t.grp with mcfg := v &&& mcfgKept }
      if v &&& mcfgKept == v then u else u.countBlkErr u.coreNo

/-- `msc` (R200). -/
def execMsc (a : Code) (s : State) : Out :=
  laneRun s { len := 8, srcs := [src32 a] }
    (fun _ => if 16 ≤ s.grp.scaleQ.length then .fault s 20 s.grp.active (mxDesync s.grp).val else .pass)
    fun vs _ t =>
      t.setGrp { t.grp with scaleQ := t.grp.scaleQ ++ [lanes fun i => (argAt vs 0 i).setWidth 32] }

-- Dense operations (R199).

/-- The scales a dense operation consumes. -/
def Mx.scaleCount (x : Mx) (scl : Bool) : Nat := if scl then x.k / 32 else 0

/-- `mma` and `mma.sp`. -/
def laneMma (s : State) (sp scl asrc : Bool) (a : Code) (imm : Half) : Out :=
  let g := s.grp
  let x := Mx.of g.mcfg
  let inScale := fun c => 4 ≤ c && c ≤ 8
  let fits := fun (g : Group) => if asrc then g.srcOk (src32 a) else g.srcAny a
  let pre := firstFault
    [faultIf (12 < x.afmt || 12 < x.bfmt || (scl && !(inScale x.afmt && inScale x.bfmt))) (mxConfig g),
     faultIf (!asrc && (112 ≤ a.toNat || 112 < a.toNat + x.aRegs || g.nregs < g.wbase + a.toNat + x.aRegs)) (mxOperand g)]
  matrixRun s (if asrc then [src32 a] else []) fits (s.arrayRoom false x.denseHand) pre
    (fun vs => firstFault
      [if asrc then aRange x s.blk.scratch imm (offset0 vs) else none,
       s.bcRange x sp,
       faultIf (if scl then g.scaleQ.length < x.scaleCount true else g.scaleQ.length != 0) (mxDesync g),
       if sp then s.metadata x else none])
    (fun _ => false)
    fun vs act t =>
      let av := s.aMatrix x asrc a imm (offset0 vs)
      let bv := (List.range x.n).map fun j => x.bColumn sp (s.column x sp j)
      let n := x.scaleCount scl
      let u := t.accept false (x.rows act) (.dense av bv (g.scaleQ.take n) scl) x.denseHand
      u.setGrp { u.grp with scaleQ := g.scaleQ.drop n }

def execMma (scl asrc : Bool) (a : Code) (pitch : Half) (s : State) : Out := laneMma s false scl asrc a pitch
def execMmaSp (scl asrc : Bool) (a : Code) (pitch : Half) (s : State) : Out := laneMma s true scl asrc a pitch

-- Tables (R201-R206).

def Block.table (b : Block) (k : Nat) : Table := Map.get {} b.tables k
def State.setTable (s : State) (k : Nat) (t : Table) : State :=
  let b := s.blk
  s.setBlk { b with tables := b.tables.set k t }
/-- A table register field (R50). -/
def State.tbOk (s : State) (k : BitVec 5) : Bool := k.toNat < s.blk.ntables

def Core.track (c : Core) (k : Nat) : Track := Map.get {} c.tracks k

/-- Whether a valid table of a core names a tracking entry. -/
def State.tagUsed (s : State) (core tag : Nat) : Bool :=
  s.blocks.any fun b => b.1 / 16 == core && b.2.tables.any fun t => t.2.valid && t.2.tag == tag

/-- Frees a tracking entry that no valid table names any more; its generation rises (R203). -/
def State.dropTag (s : State) (core tag : Nat) : State :=
  let c := s.coreAt core
  let e := c.track tag
  if e.live && !s.tagUsed core tag then
    s.setCoreAt core { c with tracks := c.tracks.set tag { e with live := false, gen := e.gen + 1 } }
  else s

/-- Makes table `k` of the acting block `t`, and frees the entry its old contents named if that was the last. -/
def State.replaceTable (s : State) (k : Nat) (t : Table) : State :=
  let old := s.blk.table k
  let u := s.setTable k t
  if old.valid then u.dropTag u.coreNo old.tag else u

/-- Whether two tracking records name one source. -/
def Track.same (e f : Track) : Bool := e.scratch == f.scratch && e.owner == f.owner && e.lo == f.lo && e.hi == f.hi

/-- The tag for a source (R203): the entry that records it, else the lowest free one. -/
def Core.tagFor (c : Core) (src : Track) : Nat :=
  match (List.range 32).find? fun k => (c.track k).live && (c.track k).same src with
  | some k => k
  | none => ((List.range 32).find? fun k => !(c.track k).live).getD 0

/-- Ties a build to its source and writes the table (R51, R203). The rebuilt table first loses its old entry, so that a
rebuild from exactly the same source of the last valid table naming an entry frees it and takes the lowest free one (log
39). -/
def State.bindTable (s : State) (k : Nat) (src : Track) (t : Table) : State :=
  let u := s.replaceTable k { s.blk.table k with valid := false }
  let c := u.core
  let tag := c.tagFor src
  let e := c.track tag
  let v := u.setCore { c with tracks := c.tracks.set tag { src with live := true, gen := e.gen } }
  v.setTable k { t with valid := true, tag := tag }

/-- One subset-table entry before its rounding (R69). Under the ±1 pattern an INT8 activation 0 counts as the exact +0,
whose negation is -0 (log 39). -/
def subsetExact (pm : Bool) (a : List FVal) (j : Nat) : FVal :=
  let t := fun i =>
    let v := a.getD i (.fin false 0 0)
    if j / 2 ^ i % 2 == 1 then v else if pm then v.neg else .fin false 0 0
  ((t 0).add .rne (t 1)).add .rne ((t 2).add .rne (t 3))

/-- One subset-table entry (R69). -/
def subsetEntry (fzr pm : Bool) (a : List FVal) (j : Nat) : W32 :=
  BitVec.ofNat 32 (fp32.encode { r := .rne, fz := fzr } (subsetExact pm a j))

/-- One product-table entry before its rounding (R69, R202); the codebook's entries are read under fzin. -/
def productExact (fzi : Bool) (a : FVal) (cb : Table) (e : Nat) : FVal :=
  let c := fp32.decode fzi (cb.entry 0 e)
  if cb.len ≤ e || c.isZero then .fin false 0 0 else a.mul c

/-- One product-table entry (R69, R202). -/
def productEntry (fzr fzi : Bool) (a : FVal) (cb : Table) (e : Nat) : W32 :=
  BitVec.ofNat 32 (fp32.encode { r := .rne, fz := fzr } (productExact fzi a cb e))

/-- minf of a build: an entry's rounding turns a finite exact value into an infinity (03 R73). -/
def entryFlags (fzr : Bool) (l : List FVal) : BitVec 4 := l.foldl (fun acc v => acc ||| (mxRound .rne fzr true v).2) 0

/-- The special bits of rows of activations. -/
def specBits (rows : List (List FVal)) : BitVec 256 :=
  BitVec.ofNat 256 ((List.range rows.length).foldl (fun acc r =>
    (List.range 4).foldl (fun acc m =>
      acc + if ((rows.getD r []).getD m (.fin false 0 0)).isWild then 2 ^ (4 * r + m) else 0) acc) 0)

def subsetTable (fm : W64) (afmt : Nat) (pm : Bool) (rows : List (List FVal)) : Table :=
  { kind := 1, fmt := afmt, len := 16, pm := pm, spec := specBits rows
    entries := rows.flatMap fun a => (List.range 16).map (subsetEntry (fzres fm) pm a) }

def productTable (fm : W64) (afmt : Nat) (cb : Table) (rows : List (List FVal)) : Table :=
  { kind := 2, fmt := afmt, len := cb.len, spec := specBits rows
    entries := rows.flatMap fun a => (List.range 16).map (productEntry (fzres fm) (fzin fm) (a.getD 0 (.fin false 0 0)) cb) }

/-- A codebook (R202): row 0 alone. -/
def codebookTable (scale : Byte) (len : Nat) (codes : Nat → Nat) : Table :=
  { kind := 3, fmt := 4, len := len
    entries := ((List.range 16).map fun e =>
        if e < len then
          BitVec.ofNat 32 (fp32.encode { r := .rne } ((e4m3.decode false (codes e % 256)).mul (decodeNE4M3 scale.toNat)))
        else 0) ++ List.replicate 1008 0 }

/-- The formats a build reads (R201). -/
def buildFmt (c : Nat) : Bool := [0, 2, 3, 4, 5, 9].contains c

/-- The registers a source of `bits` bits takes. -/
def regsOf (width : Nat) : Nat := if width ≤ 32 then 1 else width / 32


/-- R201's rules for a and d of a build from registers. -/
def Group.buildOk (g : Group) (width : Nat) (a d : Code) : Bool :=
  let n := regsOf width
  if a.toNat < 112 then
    d.toNat == 119 && a.toNat % n == 0 && a.toNat + n ≤ 112 && g.wbase + a.toNat + n ≤ g.nregs
  else width != 128 && g.srcOk ⟨a, width == 64⟩ && g.windowOk (width == 64) d.toNat

/-- The record values a build reads, by lane. -/
def State.buildSource (s : State) (width : Nat) (asrc : Bool) (a : Code) (vs : List LaneVec) (i : Nat) : Nat :=
  if asrc then s.le (scratchKey s.grp.blk (offset0 vs + i * (width / 8))) (width / 8)
  else if a.toNat < 112 then
    leNat ((List.range (regsOf width)).flatMap fun k => leBytes 4 (s.grp.reg (s.grp.wbase + a.toNat + k) i).toNat)
  else (argAt vs 0 i).toNat

/-- The source a build is tied to (R201, R51). -/
def State.buildTrack (s : State) (width : Nat) (asrc : Bool) (a d : Code) (vs : List LaneVec) : Track :=
  if asrc then { scratch := true, owner := s.grp.blk, lo := offset0 vs, hi := 64 * (width / 8) }
  else
    let p := s.grp.wbase + (if a.toNat < 112 then a else d).toNat
    { owner := s.cur % 16, lo := p, hi := p + regsOf width - 1 }

/-- The sources a build pops. -/
def buildSrcs (width : Nat) (asrc : Bool) (a : Code) : List Src :=
  if asrc then [src32 a] else if a.toNat < 112 then [] else [⟨a, width == 64⟩]

/-- A build's effect: the value into d where a is no window code, then the table tied to its source. -/
def State.buildInto (t : State) (tb width : Nat) (asrc : Bool) (a d : Code) (vs : List LaneVec) (src : Track)
    (tab : Table) : State :=
  let u := if !asrc && 112 ≤ a.toNat then t.writeDest (width == 64) d (BitVec.allOnes 64) (fun i => argAt vs 0 i) else t
  u.bindTable tb src tab

/-- The bounds of a build's records in scratch. -/
def State.buildRange (s : State) (width : Nat) (asrc : Bool) (vs : List LaneVec) : Option MxFault :=
  if asrc then firstFault [faultIf (offset0 vs % 4 != 0) (mxRange 0 (offset0 vs)),
                           inRegion 0 s.blk.scratch (offset0 vs) (64 * (width / 8))]
  else none

/-- `tbld.sub` (R201-R203). Its source rules depend on the captured mcfg and follow the configuration check; codes that
no width allows are refused before it (04 R78). -/
def execTbldSub (pm asrc : Bool) (tb : BitVec 5) (d a : Code) (s : State) : Out :=
  let g := s.grp
  let x := Mx.of g.mcfg
  let width := 4 * x.wa
  let pre := firstFault
    [faultIf (!buildFmt x.afmt) (mxConfig g),
     faultIf (!asrc && !g.buildOk width a d) (mxOperand g)]
  matrixRun s (buildSrcs width asrc a)
    (fun g => s.tbOk tb && (if asrc then g.srcOk (src32 a) && d.toNat == 119 else g.srcAny a && g.dstAny d))
    (s.arrayRoom true 1) pre
    (fun vs => s.buildRange width asrc vs)
    (fun _ => false)
    fun vs _ t =>
      let rows := lanes fun i =>
        (unpack x.wa 4 (s.buildSource width asrc a vs i)).map fun v => mxVal x.afmt (fzin g.fmode) v
      (t.buildInto tb.toNat width asrc a d vs (s.buildTrack width asrc a d vs)
        (subsetTable g.fmode x.afmt pm rows)).accept true 0 .build 1
          (entryFlags (fzres g.fmode) (rows.flatMap fun a => (List.range 16).map (subsetExact pm a)))

/-- `tbld.prod` (R201-R203). -/
def execTbldProd (asrc : Bool) (tb cb : BitVec 5) (d a : Code) (s : State) : Out :=
  let g := s.grp
  let x := Mx.of g.mcfg
  let book := s.blk.table cb.toNat
  matrixRun s (buildSrcs 32 asrc a)
    (fun g => s.tbOk tb && s.tbOk cb && (if asrc then g.srcOk (src32 a) && d.toNat == 119 else g.buildOk 32 a d))
    (s.arrayRoom true 1) (faultIf (!buildFmt x.afmt) (mxConfig g))
    (fun vs => firstFault
      [s.buildRange 32 asrc vs,
       faultIf (!book.valid) (mxStale cb.toNat),
       faultIf (book.kind != 3) (mxConfig g)])
    (fun _ => false)
    fun vs _ t =>
      let rows := lanes fun i => [mxVal x.afmt (fzin g.fmode) (bits (s.buildSource 32 asrc a vs i) (x.wa - 1) 0)]
      (t.buildInto tb.toNat 32 asrc a d vs (s.buildTrack 32 asrc a d vs)
        (productTable g.fmode x.afmt book rows)).accept true 0 .build 1
          (entryFlags (fzres g.fmode) (rows.flatMap fun a =>
            (List.range 16).map (productExact (fzin g.fmode) (a.getD 0 (.fin false 0 0)) book)))

/-- `cbld` (R202): clocked. It reads E4M3 codes and is not held to the list of build formats, which R201 states of a build
that reads its activations in format afmt (log 39). -/
def execCbld (tb : BitVec 5) (d a : Code) (scale : Byte) (lenm1 : BitVec 4) (s : State) : Out :=
  matrixRun s (buildSrcs 32 false a) (fun g => s.tbOk tb && g.buildOk 32 a d) true none (fun _ => none) (fun _ => false)
    fun vs _ t =>
      t.buildInto tb.toNat 32 false a d vs (s.buildTrack 32 false a d vs)
        (codebookTable scale (lenm1.toNat + 1) fun e => s.buildSource 32 false a vs e)

/-- `tbinv` (R204). -/
def execTbinv (tb : BitVec 5) (s : State) : Out :=
  matrixRun s [] (fun _ => s.tbOk tb) true none (fun _ => none) (fun _ => false) fun _ _ t =>
    t.replaceTable tb.toNat { t.blk.table tb.toNat with valid := false, kind := 0, tag := 0, fmt := 0 }

/-- The state word of a table (Table 2-12). -/
def Table.word (t : Table) : Nat := (if t.valid then 1 else 0) + 2 * t.kind + 8 * t.tag + 256 * t.fmt

/-- `tbstat` (R204). -/
def execTbstat (tb : BitVec 5) (d : Code) (s : State) : Out :=
  matrixRun s [] (fun g => s.tbOk tb && g.dstOk true d) true none (fun _ => none) (fun _ => false) fun _ act t =>
    t.writeDest true d act fun _ => BitVec.ofNat 64 (s.blk.table tb.toNat).word

/-- The image of a table (Table 11-2). Of an invalid table the source fields are those of the tracking entry that its tag
numbers as it stands now, and slot of a scratch source is its block's slot (log 39). -/
def tableImage (t : Table) (e : Track) : List Byte :=
  leBytes 8 t.word ++ leBytes 8 (t.len % 32 + if t.pm then 32 else 0)
  ++ leBytes 4 ((if e.scratch then 1 else 0) + 2 * (e.owner % 16)) ++ leBytes 4 e.lo ++ leBytes 4 e.hi
  ++ leBytes 4 e.gen.toNat ++ leBytes 32 t.spec.toNat
  ++ (List.range 1024).flatMap fun i => leBytes 4 (t.entries.getD i 0).toNat

/-- The bounds of a table image. -/
def State.imageRange (s : State) (vs : List LaneVec) : Option MxFault :=
  firstFault [faultIf (offset0 vs % 64 != 0) (mxRange 0 (offset0 vs)), inRegion 0 s.blk.scratch (offset0 vs) 4160]

/-- `tbspill` (R205): a scratch write of the compute stream. -/
def execTbspill (tb : BitVec 5) (a : Code) (s : State) : Out :=
  matrixRun s [src32 a] (fun g => s.tbOk tb && g.srcOk (src32 a)) true none s.imageRange (fun _ => false) fun vs _ t =>
    let tab := s.blk.table tb.toNat
    t.performStore (scratchKey s.grp.blk (offset0 vs)) (tableImage tab (s.core.track tab.tag))

/-- The reserved bits of an image, or kind 0 with valid 1 (R206). -/
def imageBad (l : List Byte) : Bool :=
  let w := leNat (l.take 8)
  bits w 63 12 != 0 || (bits w 0 0 == 1 && bits w 2 1 == 0)
  || bits (leNat ((l.drop 8).take 8)) 63 6 != 0 || bits (leNat ((l.drop 16).take 4)) 31 5 != 0

/-- The table an image fills, on core `c` for block `blk` (R206). -/
def imageTable (c : Core) (blk : Nat) (l : List Byte) : Table :=
  let w := leNat (l.take 8)
  let src := leNat ((l.drop 16).take 4)
  let tag := bits w 7 3
  let e := c.track tag
  let want : Track := { scratch := bits src 0 0 == 1, owner := if bits src 0 0 == 1 then blk else bits src 4 1
                        lo := leNat ((l.drop 20).take 4), hi := leNat ((l.drop 24).take 4) }
  let good := bits w 0 0 == 1 && e.live && e.same want && e.gen.toNat == leNat ((l.drop 28).take 4)
  { valid := good, kind := bits w 2 1, tag := if good then tag else 0, fmt := bits w 11 8
    len := bits (leNat ((l.drop 8).take 1)) 4 0, pm := bits (leNat ((l.drop 8).take 1)) 5 5 == 1
    spec := BitVec.ofNat 256 (leNat ((l.drop 32).take 32))
    entries := (List.range 1024).map fun i => BitVec.ofNat 32 (leNat ((l.drop (64 + 4 * i)).take 4)) }

/-- `tbfill` (R206). -/
def execTbfill (tb : BitVec 5) (a : Code) (s : State) : Out :=
  let image := fun vs => s.bytes (scratchKey s.grp.blk (offset0 vs)) 4160
  matrixRun s [src32 a] (fun g => s.tbOk tb && g.srcOk (src32 a)) true none
    (fun vs => firstFault [s.imageRange vs, faultIf (imageBad (image vs)) (mxConfig s.grp)])
    (fun _ => false)
    fun vs _ t => t.replaceTable tb.toNat (imageTable s.core s.grp.blk (image vs))

-- `mlut` (R207).

/-- The kind of table a weight format reads. -/
def lutKind (bfmt : Nat) : Option Nat :=
  if 11 ≤ bfmt && bfmt ≤ 14 then some 1 else if bfmt == 15 then some 2 else none

/-- The number of tables. -/
def Mx.lutCount (x : Mx) : Nat :=
  if x.bfmt == 15 then (if x.vec then (x.k + 63) / 64 else x.k)
  else if x.vec then (x.k + 255) / 256 else x.k / 4

/-- The first code out of range (R207). -/
def lutCodes (x : Mx) (tables : List Table) (codes : List (List Nat)) : Option MxFault :=
  (List.range codes.length).findSome? fun j =>
    let q := codes.getD j []
    (List.range q.length).findSome? fun k =>
      let v := q.getD k 0
      let bad := if x.bfmt == 14 then v == 3
        else if x.bfmt == 15 then (lutAt tables x.vec 0 k).1.len ≤ v else false
      faultIf bad (mxIndex (x.w0 + j * x.colBytes false + k * x.wb / 8))

/-- `mlut` (R207). -/
def execMlut (tb : BitVec 5) (s : State) : Out :=
  let g := s.grp
  let x := Mx.of g.mcfg
  let n := x.lutCount
  let tables := (List.range n).map fun i => s.blk.table (tb.toNat + i)
  let codes := (List.range x.n).map fun j => unpack x.wb x.k (s.column x false j)
  let pre := firstFault
    [faultIf (lutKind x.bfmt).isNone (mxConfig g),
     faultIf (s.blk.ntables < tb.toNat + n) (mxOperand g)]
  matrixRun s [] (fun _ => s.tbOk tb) (s.arrayRoom true x.lutHand) pre
    (fun _ => firstFault
      [s.bcRange x false,
       (List.range n).findSome? fun i => faultIf (!(tables.getD i {}).valid) (mxStale (tb.toNat + i)),
       faultIf (tables.any fun t => some t.kind != lutKind x.bfmt || (x.bfmt != 15 && t.pm != (x.bfmt == 13))) (mxConfig g),
       lutCodes x tables codes])
    (fun _ => false)
    fun _ act t => t.accept true (x.rows act) (.lookup tables codes) x.lutHand

-- Tile-store instructions (R208-R211).

/-- The words a lane's access touches: their offset and length. -/
def tileRange (o p n i : Nat) : Nat × Nat := (o + 4 * (i * p), 4 * n)

/-- The checks of `tsld` and `tsst` on their offset. -/
def State.tileCheck (s : State) (act : LaneMask) (p n o : Nat) : Option MxFault :=
  firstFault (faultIf (o % 4 != 0 || s.blk.tiles ≤ o) (mxRange 1 o)
    :: (activeLanes act).map fun i => inRegion 1 s.blk.tiles (tileRange o p n i).1 (4 * n))

/-- Whether an accepted operation's C region meets a byte range. -/
def meets (lo n t0 size : Nat) : Bool := lo < t0 + size && t0 < lo + n

/-- Whether the words of the active lanes meet the C region of an accepted operation of the group. -/
def State.tileWait (s : State) (act : LaneMask) (p n o : Nat) : Bool :=
  s.tileBusy fun t0 size => (activeLanes act).any fun i => meets (tileRange o p n i).1 (4 * n) t0 size

/-- A register range within the window (R208) and the group's registers (R43). -/
def Group.rangeOk (g : Group) (r n : Nat) : Bool := r + n ≤ 112 && g.wbase + r + n ≤ g.nregs

/-- `tsld` (R209). -/
def execTsld (d a : Code) (nm1 : BitVec 7) (pitch : BitVec 9) (s : State) : Out :=
  let n := nm1.toNat + 1
  let p := pitch.toNat
  matrixRun s [src32 a] (fun g => g.srcOk (src32 a) && d.toNat < 112 && g.rangeOk d.toNat n) true none
    (fun vs => s.tileCheck s.grp.active p n (offset0 vs))
    (fun vs => s.tileWait s.grp.active p n (offset0 vs))
    fun vs act t =>
      (List.range n).foldl (fun u m =>
        u.writeDest false (d + BitVec.ofNat 7 m) act fun i =>
          BitVec.ofNat 64 (s.le (tileKey s.grp.blk (offset0 vs + 4 * (i * p + m))) 4)) t

/-- `tsst` (R209): in increasing lane order, so the highest lane remains. -/
def execTsst (a b : Code) (nm1 : BitVec 7) (pitch : BitVec 9) (s : State) : Out :=
  let n := nm1.toNat + 1
  let p := pitch.toNat
  matrixRun s [src32 a] (fun g => g.srcOk (src32 a) && b.toNat < 112 && g.rangeOk b.toNat n) true none
    (fun vs => s.tileCheck s.grp.active p n (offset0 vs))
    (fun vs => s.tileWait s.grp.active p n (offset0 vs))
    fun vs act t =>
      let cells := (activeLanes act).flatMap fun i => (List.range n).flatMap fun m =>
        cellsOf (tileKey s.grp.blk (offset0 vs + 4 * (i * p + m))) (leBytes 4 (s.grp.reg (s.grp.wbase + b.toNat + m) i).toNat)
      { t with mem := Memory.writeCells t.mem cells }

/-- `tszero` (R210): in every case, whatever the mask holds. -/
def execTszero (s : State) : Out :=
  let x := Mx.of s.grp.mcfg
  matrixRun s [] (fun _ => true) true none
    (fun _ => inRegion 1 s.blk.tiles x.t0 x.cBytes)
    (fun _ => s.tileBusy (meets x.t0 x.cBytes))
    fun _ _ t => { t with mem := Memory.writeBytes t.mem (tileKey s.grp.blk x.t0) (List.replicate x.cBytes 0) }

/-- Whether the rounded magnitude lies beyond the largest finite value of a format (R63). -/
def Fmt.overflows (f : Fmt) (r : Round) (neg : Bool) (m : Nat) (e : Int) : Bool :=
  if m == 0 then false
  else
    let free : Int := (m.log2 : Int) + e - (f.frac : Int)
    let q := if free < f.qmin then f.qmin else free
    decide (f.maxCode < (q - f.qmin).toNat * 2 ^ f.frac + roundTo r neg m e q)

/-- One `tscvt` conversion: the code of the target and whether msat is set (R211). -/
def tileConvert (fm : W64) (ints : Bool) (tgt v : Nat) : Nat × Bool :=
  let r := fmRound fm
  let clampTo := fun (x : Int) =>
    let lo : Int := if tgt == 9 then -128 else 0
    let hi : Int := if tgt == 9 then 127 else 255
    let y := if x < lo then lo else if hi < x then hi else x
    ((y % 256).toNat, y != x)
  if ints then
    let x := signedOf 32 v
    if tgt == 0 then (fp32.encode { r := r, fz := fzres fm } (.ofInt x), false) else clampTo x
  else
    match fp32.decode (fzin fm) v with
    | .nan => if tgt == 9 then (0, true) else ((mxFmt tgt).nanCode, false)
    | .inf neg =>
      if tgt == 9 then ((if neg then 128 else 127), true) else ((mxFmt tgt).encode { r := r, sat := true } (.inf neg), true)
    | .fin neg m e =>
      if tgt == 9 then
        let k : Int := roundIntegral r neg m e
        clampTo (if neg then -k else k)
      else
        ((mxFmt tgt).encode { r := r, fz := fzres fm, sat := true } (.fin neg m e), (mxFmt tgt).overflows r neg m e)

/-- `tscvt` (R211). -/
def execTscvt (d : Code) (tgt : BitVec 5) (s : State) : Out :=
  let g := s.grp
  let x := Mx.of g.mcfg
  let t := tgt.toNat
  let w := mxWidth t
  let allowed := if x.ints then [0, 9, 10] else [2, 3, 4, 5, 9]
  let pre := firstFault
    [faultIf (x.vec || !allowed.contains t) (mxConfig g),
     faultIf (!(d.toNat < 112 && g.rangeOk d.toNat (x.n * w / 32))) (mxOperand g)]
  let conv := fun i j => tileConvert g.fmode x.ints t (s.le (tileKey g.blk (x.t0 + 4 * (i * x.n + j))) 4)
  matrixRun s [] (fun g => g.dstAny d) true pre
    (fun _ => inRegion 1 s.blk.tiles x.t0 x.cBytes)
    (fun _ => s.tileBusy (meets x.t0 x.cBytes))
    fun _ act u =>
      let per := 32 / w
      let v := (List.range (x.n * w / 32)).foldl (fun u m =>
        u.writeDest false (d + BitVec.ofNat 7 m) act fun i =>
          BitVec.ofNat 64 ((List.range per).foldl (fun acc e => acc + (conv i (m * per + e)).1 * 2 ^ (w * e)) 0)) u
      if (activeLanes act).any fun i => (List.range x.n).any fun j => (conv i j).2 then v.setFlags v.cur msatFlag else v

-- Batch instructions (R212).

/-- `mfence`: waits while 128 batches are closed and not complete. -/
def execMfence (s : State) : Out :=
  let dn := s.batchDone s.cur
  laneRun s { len := 4, cover := false }
    (fun _ => if s.grp.batchOpen - dn == 128 then .wait .batch else .pass)
    fun _ _ t => t.setGrp { t.grp with batchOpen := t.grp.batchOpen + 1, batchOcc := false, batchSeen := dn }

/-- `mwait`: a batch not yet closed is an illegal operand. -/
def execMwait (n : Byte) (s : State) : Out :=
  laneRun s { len := 8, ok := fun g => 128 ≤ (n - g.batchOpen).toNat }
    (fun _ => if batchComplete (s.batchDone s.cur) n then .pass else .wait .mwait) fun _ _ t => t

/-- `mpoll`. -/
def execMpoll (d : Code) (s : State) : Out :=
  laneAlu s 4 false d [] fun _ _ =>
    BitVec.ofNat 64 ((s.batchDone s.cur).toNat + 256 * s.grp.batchOpen.toNat + 65536 * (if s.grp.batchOcc then 1 else 0)
      + 2 ^ 17 * s.grp.scaleQ.length)

/-- `mdrain`: waits until every accepted operation of the group has completed. -/
def execMdrain (s : State) : Out :=
  laneRun s { len := 4 } (fun _ => if s.core.ops.any fun o => o.grp == s.cur then .wait .drain else .pass) fun _ _ t => t

end Sys2Proof.Machine
end

