-- ==== Sys2Proof/Machine/System.lean ====
section
/-! DEFINITION. The core monitor's instructions: quiesce, save and restore with their images, journal reads, sampling
(12 R219, R221, R222; 21 R303, R305, R308-R311). -/
namespace Sys2Proof.Machine

-- Images (21 R309, R310).

/-- A field of an image: offset, bytes, value. -/
abbrev Field := Nat × Nat × Nat

/-- The bytes that fields place, over zeros. -/
def imageOf (l : List Field) : List Host.Cell := l.foldl (fun m f => Memory.writeBytes m f.1 (leBytes f.2.1 f.2.2)) []

/-- The XOR of every 8-byte word of an image, as eight bytes. -/
def imageXor (m : List Host.Cell) : Nat :=
  leNat ((List.range 8).map fun i => m.foldl (fun acc c => if c.1 % 8 == i then acc ^^^ c.2 else acc) (0 : Byte))

/-- The check word: that XOR without the word itself, and the constant of R309. -/
def imageCheck (m : List Host.Cell) : Nat :=
  Nat.xor (imageXor (m.filter fun c => c.1 / 8 != 2)) 0xA5A5A5A5A5A5A5A5

/-- An image of `size` bytes with its check word. -/
def imageBytes (size : Nat) (l : List Field) : List Byte :=
  let m := imageOf l
  let n := Memory.writeBytes m 0x10 (leBytes 8 (imageCheck m))
  (List.range size).map (Memory.read n)

/-- The value of a journal entry (10 Table 10-8). -/
def JEntry.value (e : JEntry) : Nat :=
  e.addr.toNat + 2 ^ 64 * e.seq.toNat + 2 ^ 96 * e.size + 2 ^ 99 * (if e.lane then 1 else 0) + 2 ^ 100 * e.kind
  + 2 ^ 102 * e.state + 2 ^ 104 * e.why + 2 ^ 108 * e.cnt

/-- A journal entry from its value: it is held while in flight or refused; a slot that has been freed never stands as
refused (R221). -/
def journalOf (v : Nat) : JEntry :=
  let st := bits v 103 102
  { held := st == 2 || (st == 0 && v != 0), addr := BitVec.ofNat 64 v, seq := BitVec.ofNat 32 (bits v 95 64)
    size := bits v 98 96, lane := bits v 99 99 == 1, kind := bits v 101 100, state := st, why := bits v 107 104
    cnt := bits v 113 108 }

/-- The mode and size of a strided load (05 Table 5-2). -/
def LdqTy.codes : LdqTy → Nat × Nat
  | .n8 => (0, 0)
  | .n16 => (0, 1)
  | .n32 => (0, 2)
  | .n64 => (0, 3)
  | .i8 => (1, 0)
  | .i16 => (1, 1)
  | .pk8 => (2, 0)
  | .pk16 => (2, 1)

def ldqTyOf (mode size : Nat) : LdqTy :=
  match mode, size with
  | 0, 0 => .n8
  | 0, 1 => .n16
  | 0, 2 => .n32
  | 1, 0 => .i8
  | 1, _ => .i16
  | 2, 0 => .pk8
  | 2, _ => .pk16
  | _, _ => .n64

/-- 64 lanes of `n` bytes each as one value. -/
def lanesValue (n : Nat) (l : List W64) : Nat :=
  leNat ((List.range 64).flatMap fun i => leBytes n (LaneVec.at l i).toNat)
def words32 (l : List W32) : List W64 := l.map fun v => v.setWidth 64

/-- The fields of an ldq entry (21 Table 21-4). -/
def ldqFields (q e : Nat) (x : LdqEntry) : List Field :=
  let d := 0x1040 + 64 * (8 * q + e)
  let r := match x.desc with
    | .plain base stride t => (2 * (LdqTy.codes t).1 + 8 * (LdqTy.codes t).2, base, stride, 0)
    | .tensor a c01 c234 => (1, a, c01, c234)
  [(d, 8, (if x.wide then 1 else 0) + (if x.poison then 2 else 0) + (if x.replay then 4 else 0) + 256 * x.cause),
   (d + 8, 8, x.lanes.toNat), (d + 16, 8, x.addr.toNat), (d + 24, 8, r.1), (d + 32, 8, r.2.1.toNat),
   (d + 40, 8, r.2.2.1.toNat), (d + 48, 8, r.2.2.2.toNat),
   (0x2000 + 512 * (8 * q + e), 512, lanesValue (if x.wide then 8 else 4) x.data)]

/-- Indexed fields of a list. -/
def fieldsOf {α : Type} (l : List α) (f : Nat → α → List Field) : List Field :=
  ((List.range l.length).zip l).flatMap fun p => f p.1 p.2

def frameFields (k : Nat) (f : Frame) : List Field :=
  match f with
  | .call r => [(0x480 + 16 * k, 8, r.toNat)]
  | .loop h n => [(0x480 + 16 * k, 8, h.toNat), (0x488 + 16 * k, 8, n.toNat + 2 ^ 32)]

/-- The part-0 image of a group (Table 21-4). -/
def State.part0 (s : State) (k : Nat) : List Field :=
  let g := s.grpAt k
  let m := g.mondb
  let occ (b : Bool) (i : Nat) : Nat := if b then 2 ^ i else 0
  let scratched := (List.range 32).foldl (fun acc r => acc + if g.tokenBusy (BitVec.ofNat 5 r) then 2 ^ r else 0) 0
  [(0, 8, 0x4730 + 2 ^ 16 * (k % 16)), (8, 8, 0x7000 + 256 * g.nregs), (0x18, 8, g.nregs)]
  ++ (List.range 31).map (fun i => (0x40 + 8 * i, 8, (g.xr (BitVec.ofNat 5 (i + 1))).toNat))
  ++ [(0x140, 8, g.mstatus.toNat), (0x148, 8, g.mepc.toNat), (0x150, 8, g.mcause.toNat), (0x158, 8, g.mtval.toNat),
      (0x160, 8, g.mscratch.toNat), (0x168, 8, g.mie.toNat), (0x170, 8, (g.mcycle + BitVec.ofNat 64 s.cycles).toNat),
      (0x178, 8, g.minstret.toNat), (0x180, 8, g.slip), (0x188, 8, g.mstat.toNat), (0x190, 8, (mbatch s k).toNat),
      (0x198, 8, g.pjhead.toNat), (0x1A0, 8, g.ldec.toNat), (0x1A8, 8, g.mlpc.toNat), (0x1B0, 8, g.mlcause.toNat),
      (0x1B8, 8, g.mlmask.toNat), (0x1C0, 8, g.mlval.toNat), (0x1C8, 8, g.wakeA.toNat + 2 ^ 32 * g.wakeC.toNat),
      (0x1D0, 8, g.runAhead + 2 ^ 16 * g.progA.toNat + 2 ^ 32 * g.progC.toNat), (0x1D8, 8, scratched),
      (0x1E0, 8, g.qocc.toNat), (0x1E8, 8, g.scaleQ.length), (0x1F0, 8, occ g.sampler.armed 0 + 2 ^ 32 * g.sampler.off)]
  ++ [(0x1F8, 8, occ m.fla 3 + occ m.flc 4 + occ g.holdA 6 + occ g.holdC.isSome 7 + occ g.hartBar 9 + occ g.laneBar 10)]
  ++ g.tokens.map (fun t => (0x200 + 8 * t.1, 8, t.2.id.toNat + 2 ^ 32 * t.2.chan + 2 ^ 63))
  ++ [(0x300, 8, g.lpc.toNat), (0x310, 8, g.fmode.toNat), (0x318, 8, g.mcfg.toNat),
      (0x308, 8, g.wbase + 2 ^ 8 * g.qmode.toNat + 2 ^ 16 * g.frames.length + 2 ^ 20 * g.msp),
      (0x320, 8, g.pb.mask.toNat), (0x328, 8, g.pb.left + 2 ^ 4 * g.pb.n + 2 ^ 8 * g.pb.pat.toNat), (0x330, 8, g.em.toNat)]
  ++ (List.range 15).map (fun i => (0x338 + 8 * i, 8, (Map.get 0 g.masks (i + 1)).toNat))
  ++ (List.range 16).map (fun i => (0x400 + 8 * i, 8, (Map.get 0 g.mstack i).toNat))
  ++ fieldsOf g.frames.reverse frameFields
  ++ (List.range 32).map (fun i => (0x500 + 16 * i, 16, (g.jslot i).value))
  ++ fieldsOf g.scq (fun e v => [(0x700 + 8 * e, 8, v.toNat)])
  ++ fieldsOf g.ctq (fun e v => [(0x780 + 4 * e, 4, v.toNat)])
  ++ fieldsOf g.fbq (fun e v => [(0x7C0 + 8 * e, 8, v.toNat)])
  ++ fieldsOf g.stq (fun e v => [(0x800 + 256 * e, 256, lanesValue 4 (words32 v.data)), (0x1000 + 8 * e, 8, v.mask.toNat)])
  ++ (List.range 4).flatMap (fun q => fieldsOf (Map.get [] g.ldq q) (ldqFields q))
  ++ fieldsOf g.scaleQ (fun e v => [(0x6000 + 256 * e, 256, lanesValue 4 (words32 v))])
  ++ (List.range g.nregs).map (fun p => (0x7000 + 256 * p, 256, lanesValue 4 (words32 (Map.get [] g.win p))))

/-- A field of an image's bytes. -/
def fieldAt (l : List Byte) (off n : Nat) : Nat := leNat ((l.drop off).take n)

/-- 64 lanes of `n` bytes each, from an offset. -/
def lanesAt (l : List Byte) (off n : Nat) : List W64 := lanes fun i => BitVec.ofNat 64 (fieldAt l (off + n * i) n)
def lanes32At (l : List Byte) (off : Nat) : List W32 := lanes fun i => BitVec.ofNat 32 (fieldAt l (off + 4 * i) 4)

/-- An ldq entry from an image. -/
def ldqOf (l : List Byte) (q e : Nat) : LdqEntry :=
  let d := 0x1040 + 64 * (8 * q + e)
  let w0 := fieldAt l d 8
  let w3 := fieldAt l (d + 24) 8
  let wide := bits w0 0 0 == 1
  let word (i : Nat) : W64 := BitVec.ofNat 64 (fieldAt l (d + 8 * i) 8)
  { wide := wide, arrived := true, poison := bits w0 1 1 == 1, replay := bits w0 2 2 == 1, cause := bits w0 15 8
    lanes := word 1, addr := word 2
    desc := if bits w3 0 0 == 0 then .plain (word 4) (word 5) (ldqTyOf (bits w3 2 1) (bits w3 4 3))
            else .tensor (word 4) (word 5) (word 6)
    data := lanesAt l (0x2000 + 512 * (8 * q + e)) (if wide then 8 else 4) }

/-- A pc of an image: bits [1:0] are no part of a pc or of mepc (04 R74; 12 R215). -/
def pcOf (v : W64) : W64 := v &&& 0xFFFFFFFFFFFFFFFC

/-- Restores a group from its part-0 image; the stream holds at its saved pc until the next `mret`. The image does not say
whether a held stream replays; that stands as it was at the stop (log 38). -/
def State.restore0 (s : State) (k : Nat) (l : List Byte) : State :=
  let g := s.grpAt k
  let w (off : Nat) : W64 := BitVec.ofNat 64 (fieldAt l off 8)
  let c := fieldAt l 0x308 8
  let h := fieldAt l 0x1F8 8
  let occ := fieldAt l 0x1E0 8
  let cnt := fieldAt l 0x1D0 8
  let pb := fieldAt l 0x328 8
  let mb := fieldAt l 0x190 8
  let wake := fieldAt l 0x1C8 8
  let smp := fieldAt l 0x1F0 8
  let busy := fieldAt l 0x1D8 8
  let frame := fun i =>
    let v := fieldAt l (0x488 + 16 * i) 8
    let pc := pcOf (w (0x480 + 16 * i))
    if bits v 32 32 == 1 then Frame.loop pc (BitVec.ofNat 32 v) else Frame.call pc
  let ldq := (List.range 4).map fun q => (q, (List.range (bits occ (4 * q + 3) (4 * q))).map fun e => ldqOf l q e)
  s.setGrpAt k
    { g with
      x := (List.range 31).map fun i => (i + 1, w (0x40 + 8 * i))
      mstatus := mstatusOf (mstatusMie (w 0x140)) (mstatusMpie (w 0x140)) (mstatusMppM (w 0x140)) (mstatusTw (w 0x140))
      mepc := pcOf (w 0x148), mcause := w 0x150, mtval := w 0x158, mscratch := w 0x160, mie := w 0x168 &&& 0x800
      mcycle := w 0x170 - BitVec.ofNat 64 s.cycles, minstret := w 0x178
      slip := bits (fieldAt l 0x180 8) 5 0, mstat := BitVec.ofNat 4 (fieldAt l 0x188 8), ldec := w 0x1A0
      mlpc := pcOf (w 0x1A8)
      mlcause := w 0x1B0, mlmask := w 0x1B8, mlval := w 0x1C0
      batchOpen := BitVec.ofNat 8 mb, batchSeen := BitVec.ofNat 8 (bits mb 15 8), batchOcc := bits mb 16 16 == 1
      jseq := BitVec.ofNat 32 (fieldAt l 0x19C 4)
      wakeA := BitVec.ofNat 32 wake, wakeC := BitVec.ofNat 32 (wake / 2 ^ 32)
      runAhead := bits cnt 5 0, progA := BitVec.ofNat 16 (bits cnt 31 16), progC := BitVec.ofNat 16 (bits cnt 47 32)
      sampler := { armed := bits smp 0 0 == 1, off := bits smp 63 32 }
      mondb := { g.mondb with fla := bits h 3 3 == 1, flc := bits h 4 4 == 1 }
      holdA := bits h 6 6 == 1
      holdC := if bits h 7 7 == 1 then some (g.holdC.getD (ldq.any fun q => q.2.any fun e => e.replay)) else none
      hartBar := bits h 9 9 == 1, laneBar := bits h 10 10 == 1
      tokens := (List.range 32).filterMap fun r =>
        let t := fieldAt l (0x200 + 8 * r) 8
        if bits t 63 63 == 1 then some (r, ⟨bits t 34 32, BitVec.ofNat 32 t, bits busy r r == 0⟩) else none
      lpc := pcOf (w 0x300), fmode := w 0x310, mcfg := w 0x318
      wbase := bits c 7 0, qmode := BitVec.ofNat 4 (bits c 11 8), msp := bits c 24 20
      pb := { mask := w 0x320, left := bits pb 3 0, n := bits pb 7 4, pat := BitVec.ofNat 8 (bits pb 15 8) }
      em := w 0x330
      masks := (List.range 15).map fun i => (i + 1, w (0x338 + 8 * i))
      mstack := (List.range 16).map fun i => (i, w (0x400 + 8 * i))
      frames := ((List.range (bits c 19 16)).map frame).reverse
      journal := (List.range 32).map fun i => (i, journalOf (fieldAt l (0x500 + 16 * i) 16))
      scq := (List.range (bits occ 24 20)).map fun e => w (0x700 + 8 * e)
      ctq := (List.range (bits occ 29 25)).map fun e => BitVec.ofNat 32 (fieldAt l (0x780 + 4 * e) 4)
      fbq := (List.range (bits occ 33 30)).map fun e => w (0x7C0 + 8 * e)
      stq := (List.range (bits occ 19 16)).map fun e => ⟨lanes32At l (0x800 + 256 * e), w (0x1000 + 8 * e)⟩
      ldq := ldq
      scaleQ := (List.range (bits (fieldAt l 0x1E8 8) 4 0)).map fun e => lanes32At l (0x6000 + 256 * e)
      nregs := bits (fieldAt l 0x18 8) 8 0
      win := (List.range (bits (fieldAt l 0x18 8) 8 0)).map fun p => (p, lanes32At l (0x7000 + 256 * p))
      laneWait := none, laneBusy := false, saved0 := false }

-- Part 1 (Table 21-5).

/-- A mask of slots. -/
def slotMask (l : List Nat) : Nat := l.foldl (fun acc k => acc + 2 ^ (k % 16)) 0

/-- The four barriers of a block, in image order. -/
def State.blockBars (s : State) (blk : Nat) : List Nat :=
  let lead := if s.clustered blk then s.clusterKey blk else blk * 4
  [blk * 4, blk * 4 + 1, lead, lead + 1]

/-- The offset of the tile store in a part-1 image. -/
def imageTiles (t : Nat) : Nat := (0x4800 + 4160 * t + 4095) / 4096 * 4096

/-- A copy's 128 bytes. -/
def copyFields (base : Nat) (k : Copy) : List Field :=
  [(base, 64, leNat k.record), (base + 64, 8, k.c01.toNat), (base + 72, 8, k.c234.toNat), (base + 80, 8, k.off),
   (base + 88, 4, k.id.toNat), (base + 92, 1, k.kind + 4 * (k.grp % 16)), (base + 93, 1, k.token), (base + 96, 4, k.done)]

/-- The launch whose reduction channels a core serves: at most one that has not retired its last block (17 R282). -/
def Core.redLaunch (c : Core) : Nat :=
  match c.red with
  | (k, _) :: _ => k / 16
  | [] => 0

/-- The core-wide section of a part-1 image, the same for every block of the core (R310). -/
def State.wideFields (s : State) (blk : Nat) : List Field :=
  let c := s.coreAt (blk / 16)
  let lau := c.redLaunch
  (List.range 8).flatMap (fun i =>
    let n := c.chan i
    [(0x40 + 16 * i, 8, n.next.toNat + 2 ^ 32 * n.cedone.toNat), (0x48 + 16 * i, 8, n.copies.length + 2 ^ 32 * n.wake.toNat)]
    ++ fieldsOf n.copies fun j k => copyFields (0x800 + 2048 * i + 128 * j) k)
  ++ (List.range 16).map (fun h =>
    let n := c.redNode (redKey lau h)
    (0xC0 + 4 * h, 4, n.sent % 2 ^ 16 + 2 ^ 16 * (n.consumed % 2 ^ 16)))
  ++ (List.range 32).flatMap (fun i =>
    let t := c.track i
    [(0x100 + 16 * i, 8, (if t.live then 1 else 0) + (if t.scratch then 2 else 0) + 4 * (t.owner % 16) + 2 ^ 32 * t.gen.toNat),
     (0x108 + 16 * i, 8, t.lo + 2 ^ 32 * t.hi)])
  ++ (List.range 8).flatMap (fun i =>
    let r := c.ring i
    if r.live then [(0x300 + 16 * i, 8, r.base + 2 ^ 32 * r.slots), (0x308 + 16 * i, 8, r.head.toNat + 2 ^ 32 * r.tail.toNat)]
    else [])
  ++ (List.range 256).map fun i => (0x400 + 4 * i, 4, (s.counter (blk / 16) i).toNat)

/-- The part-1 image of a block. -/
def State.part1 (s : State) (blk : Nat) : Nat × List Field :=
  let b := s.blkAt blk
  let c := s.coreAt (blk / 16)
  let ts := imageTiles b.ntables
  let wb := ts + b.tiles
  let sc := wb + b.wbuf
  let size := sc + b.scratch
  (size,
   [(0, 8, 0x4731 + 2 ^ 16 * slotMask b.slots + 2 ^ 32 * slotMask (b.slots.filter fun k => (s.grpAt k).status == .ended)),
    (8, 8, size),
    (0x18, 8, b.scratch / 1024 + 2 ^ 16 * (b.tiles / 4096) + 2 ^ 24 * (b.wbuf / 8192) + 2 ^ 32 * b.ntables)]
   ++ fieldsOf (s.blockBars blk) (fun m k =>
     let x := s.barAt k
     [(0x20 + 8 * m, 8, slotMask (x.arrived.filter fun g => b.slots.contains g) + 2 ^ 16 * (x.phase % 256)
        + 2 ^ 24 * (x.phase % 16))])
   ++ s.wideFields blk
   ++ (List.range b.ntables).map (fun k =>
     let t := b.table k
     (0x4800 + 4160 * k, 4160, leNat (tableImage t (c.track t.tag))))
   ++ [(ts, b.tiles, leNat (s.bytes (tileKey blk 0) b.tiles)), (wb, b.wbuf, leNat (s.bytes (wbufKey blk 0) b.wbuf)),
       (sc, b.scratch, leNat (s.bytes (scratchKey blk 0) b.scratch))])

/-- A copy from an image. The image has no field for the ticket of one that waits for a page; it stays held on the one it
had (R311; log 38). -/
def copyOf (l : List Byte) (base core : Nat) (blkOf : Nat → Nat) (old : List Copy) : Copy :=
  let g := core * 16 + bits (fieldAt l (base + 92) 1) 5 2
  let id : W32 := BitVec.ofNat 32 (fieldAt l (base + 88) 4)
  { id := id, kind := bits (fieldAt l (base + 92) 1) 1 0
    started := old.any fun k => k.id == id && k.ticket.isSome
    ticket := (old.find? fun k => k.id == id).bind fun k => k.ticket
    record := (l.drop base).take 64, c01 := BitVec.ofNat 64 (fieldAt l (base + 64) 8)
    c234 := BitVec.ofNat 64 (fieldAt l (base + 72) 8), off := fieldAt l (base + 80) 8, grp := g, blk := blkOf g
    token := bits (fieldAt l (base + 93) 1) 4 0, done := fieldAt l (base + 96) 4 }

/-- Restores the core-wide section (R310). -/
def State.restoreWide (s : State) (blk : Nat) (l : List Byte) : State :=
  let core := blk / 16
  let c := s.coreAt core
  let lau := c.redLaunch
  let chans := (List.range 8).map fun i =>
    let n := fieldAt l (0x48 + 16 * i) 4 % 32
    (i, ({ next := BitVec.ofNat 32 (fieldAt l (0x40 + 16 * i) 4), wake := BitVec.ofNat 32 (fieldAt l (0x4C + 16 * i) 4)
           copies := (List.range n).map fun j =>
             copyOf l (0x800 + 2048 * i + 128 * j) core (fun g => (s.grpAt g).blk) (c.chan i).copies } : Channel))
  let tracks := (List.range 32).map fun i =>
    let v := fieldAt l (0x100 + 16 * i) 8
    let scr := bits v 1 1 == 1
    let slot := bits v 5 2
    (i, ({ live := bits v 0 0 == 1, scratch := scr, owner := if scr then (s.grpAt (core * 16 + slot)).blk else slot
           lo := fieldAt l (0x108 + 16 * i) 4, hi := fieldAt l (0x10C + 16 * i) 4
           gen := BitVec.ofNat 32 (bits v 63 32) } : Track))
  let rings := c.rings.map fun r =>
    if r.2.live then (r.1, { r.2 with base := fieldAt l (0x300 + 16 * r.1) 4, slots := bits (fieldAt l (0x304 + 16 * r.1) 4) 10 0
                                      head := BitVec.ofNat 32 (fieldAt l (0x308 + 16 * r.1) 4)
                                      tail := BitVec.ofNat 32 (fieldAt l (0x30C + 16 * r.1) 4) }) else r
  let red := c.red.map fun n =>
    if n.1 / 16 == lau then
      let v := fieldAt l (0xC0 + 4 * (n.1 % 16)) 4
      (n.1, { n.2 with sent := n.2.sent / 2 ^ 16 * 2 ^ 16 + bits v 15 0, consumed := n.2.consumed / 2 ^ 16 * 2 ^ 16 + bits v 31 16 })
    else n
  s.setCoreAt core
    { c with chans := chans, tracks := tracks, rings := rings, red := red, needWide := false
             counters := (List.range 256).map fun i => (i, BitVec.ofNat 32 (fieldAt l (0x400 + 4 * i) 4)) }

/-- Restores one barrier's arrivals of a block. -/
def State.restoreBar (s : State) (blk bar v : Nat) : State :=
  let b := s.blkAt blk
  let x := s.barAt bar
  let mine := b.slots.filter fun k => bits v (k % 16) (k % 16) == 1
  let ph := x.phase / 256 * 256 + bits v 23 16
  let t := s.setBar bar { phase := ph, arrived := mine ++ x.arrived.filter fun g => !b.slots.contains g }
  b.slots.foldl (fun u k => u.setGrpAt k ((u.grpAt k).setArrival bar (if mine.contains k then some ph else none))) t

/-- A table register from an image: its state word is kept as it was, valid or not (02 R51). -/
def savedTable (c : Core) (blk : Nat) (l : List Byte) : Table :=
  let w := fieldAt l 0 8
  { imageTable c blk l with valid := bits w 0 0 == 1, kind := bits w 2 1, tag := bits w 7 3, fmt := bits w 11 8 }

/-- Restores a block from its part-1 image; ranked contributions that came meanwhile are applied (R307). -/
def State.restore1 (s : State) (blk : Nat) (l : List Byte) : State :=
  let b := s.blkAt blk
  let ts := imageTiles b.ntables
  let wb := ts + b.tiles
  let sc := wb + b.wbuf
  let t := if (s.coreAt (blk / 16)).needWide then s.restoreWide blk l else s
  let u := ((List.range 4).zip (s.blockBars blk)).foldl (fun u p => u.restoreBar blk p.2 (fieldAt l (0x20 + 8 * p.1) 8)) t
  let tables := (List.range b.ntables).map fun k => (k, savedTable (u.coreAt (blk / 16)) blk ((l.drop (0x4800 + 4160 * k)).take 4160))
  let v := u.setBlkAt blk { u.blkAt blk with tables := tables, needPart1 := false }
  (v.storeCells (cellsOf (tileKey blk 0) ((l.drop ts).take b.tiles) ++ cellsOf (wbufKey blk 0) ((l.drop wb).take b.wbuf)
    ++ cellsOf (scratchKey blk 0) ((l.drop sc).take b.scratch))).dueRanks blk

-- Suspension (21 R305, R308).

/-- The peer counters that a block's handle table names, by their homes and indices: a token for each goes to its home. -/
def Block.peerCounters (b : Block) : List (Nat × Nat) :=
  (b.handles.flatMap fun h =>
    if handleKind h.2 == 5 then
      (List.range (bits h.2.toNat 43 36 + 1)).map fun i => (peerTarget h.2, bits h.2.toNat 35 28 + i)
    else []).eraseDups

/-- Suspends a block that has pre and every image saved: harts stop, pre clears, absence tokens go out. -/
def State.trySuspend (s : State) (blk : Nat) : State :=
  let b := s.blkAt blk
  let live := b.slots.filter fun k => (s.grpAt k).status == .live
  if b.state == .running && b.saved1 && live.all (fun k => (s.grpAt k).saved0 && (s.grpAt k).mondb.pre) then
    let t := s.setBlkAt blk { b with state := .suspended }
    let u := b.slots.foldl (fun u k => u.onMondb k fun m => { m with pre := false }) t
    let w := u.trace blk 4 (u.launchAt b.launch).asid (u.reg (subBlock (u.partOfCore (blk / 16)) 8)).toNat
    { w with net := w.net ++ b.peerCounters.map fun d => ⟨blk, d.1, .absence d.2 false⟩ }
  else s

-- The instructions.

/-- Runs a monitor instruction, which U-mode may not execute. -/
def monitor (s : State) (k : Out) : Out := if s.mmode then k else illegal s

/-- Whether the group is at its quiescent point but for its hold (R219). -/
def State.quiet (s : State) (k : Nat) : Bool :=
  let g := s.grpAt k
  !g.laneBusy && !(s.coreAt (k / 16)).ops.any (fun o => o.grp == k) && g.ldq.all fun q => q.2.all fun e => e.arrived

/-- `z.quiesce` (R219). A store that has sent some of its requests is not at a boundary: it goes on first. A stream held on
a ticket counts as held at mlpc (22 R314). -/
def execZQuiesce (rd : XReg) (s : State) : Out :=
  monitor s <| hartRun s [] [rd] fun s =>
    let g := s.grp
    if g.laneSend.isSome && !g.held then hartWaits s .quiesce
    else
      let h := if g.held then g
        else { g with held := true, mlpc := if g.holdC.isSome then g.mlpc else g.lpc, laneWait := none }
      let t := s.setGrp h
      if !t.quiet t.cur then hartWaits t .quiesce
      else
        let pc := if g.cendDone then g.lpc else h.mlpc
        .next ((t.setGrp { h with mlpc := pc }).hartDone rd pc)

/-- The save-area faults that change nothing: no hold, a bad address or selector. -/
def State.areaBad (s : State) (a part : W64) : Bool :=
  !s.grp.held || a.toNat / 2 ^ 56 != 0xF2 || a.toNat % 4096 != 0 || 1 < part.toNat

/-- Whether `z.csave` must still wait: with kil for the fates of R369, for part 1 for the other groups' part 0. -/
def State.saveWaits (s : State) (part : W64) : Bool :=
  let g := s.grp
  let b := s.blk
  let others := b.slots.filter fun k => k != s.cur && (s.grpAt k).status == .live
  if part == 0 then g.mondb.kil && (g.hartInFlight || g.laneInFlight)
  else
    ((g.mondb.kil || g.mondb.pre) && !others.all fun k => (s.grpAt k).saved0)
    || (g.mondb.kil && (List.range 8).any fun c => (s.core.chan c).copies.any fun x => x.blk == g.blk)

/-- The first poisoned unit of what a part-1 image holds of a block, as an address of its scratch, tile store or weight
buffer (R219: a data fault while saving). -/
def State.poisonInBlock (s : State) (blk : Nat) : Option W64 :=
  let b := s.blkAt blk
  (s.poison.find? fun u =>
    (scratchKey blk 0 ≤ u && u < scratchKey blk 0 + b.scratch) || (tileKey blk 0 ≤ u && u < tileKey blk 0 + b.tiles)
    || (wbufKey blk 0 ≤ u && u < wbufKey blk 0 + b.wbuf)).map
      fun u => BitVec.ofNat 64 (0xF0 * 2 ^ 56 + u % 2 ^ 18)

/-- Whether the acting group is at a debug stop (28 R368; 21 Table 21-2): its monitor was entered for `ebreak`, `brk` or
`trap`, in a context that has a debugger attached. -/
def State.atDebugStop (s : State) : Bool :=
  let g := s.grp
  let ctl := (s.reg (subBlock (s.partOfCore s.coreNo) 0x3100)).toNat
  bits ctl 0 0 == 1 && bits ctl 16 1 == s.asid && (g.mcause == 3 || (g.mcause == 24 && g.mlcause == 23))
    && !g.mondb.pre && !g.mondb.kil

/-- The trace record of a debug stop (28 Table 28-6), once part 0 is saved (log 32). -/
def State.traceStop (s : State) : State := s.trace s.cur 6 s.asid (s.grp.mlpc.toNat + 2 ^ 64 * s.grp.mlcause.toNat)

/-- `z.csave` (R219; 21 R303, R305): the write of the magic is a release, so the group's dirty sectors go first. -/
def execZCsave (rs1 rs2 : XReg) (s : State) : Out :=
  monitor s <| hartRun s [rs1, rs2] [] fun s =>
    let a := s.grp.xr rs1
    let part := s.grp.xr rs2
    if s.areaBad a part then raise s 30 a
    else if s.saveWaits part then hartWaits s .saves
    else
      match s.writeBackAll (s.dirtyBy s.cur), (if part == 0 then none else s.poisonInBlock s.grp.blk) with
      | .error (_, d), _ => raise s 30 (BitVec.ofNat 64 d.va)
      | .ok _, some v => raise s 30 v
      | .ok t, none => if t.evicting t.coreNo then hartWaits t .drain else
        let image := if part == 0 then imageBytes (0x7000 + 256 * t.grp.nregs) (t.part0 t.cur)
          else imageBytes (t.part1 t.grp.blk).1 (t.part1 t.grp.blk).2
        match t.reach t.cur true a image.length .write with
        | .ok key _ =>
          let u := t.performStore key image
          let v := if part == 0 then u.setGrp { u.grp with saved0 := u.grp.mondb.pre || u.grp.mondb.kil } else u.setBlk { u.blk with saved1 := true }
          let w := if part == 0 && s.atDebugStop then v.traceStop else v
          .next ((w.setGrp w.grp.hartNext).trySuspend w.grp.blk)
        | _ => raise s 30 a

/-- Whether an image is the one that a restore may use: its check word, magic and slot. -/
def imageFits (l : List Byte) (part slot : Nat) : Bool :=
  let cells := cellsOf 0 l
  fieldAt l 0x10 8 == imageCheck cells
  && (if part == 0 then bits (fieldAt l 0 8) 15 0 == 0x4730 && bits (fieldAt l 0 8) 19 16 == slot
      else bits (fieldAt l 0 8) 15 0 == 0x4731 && bits (fieldAt l 0 8) (16 + slot) (16 + slot) == 1)

/-- The bytes of an image by the size that it names, at most the greatest image: of a block that holds all of a core. -/
def State.imageAt (s : State) (key : Nat) : List Byte := s.bytes key (min (s.le (key + 8) 8) 0xC5000)

/-- `z.crest` (R219). Poison met while restoring leaves the part to be restored again. -/
def execZCrest (rs1 rs2 : XReg) (s : State) : Out :=
  monitor s <| hartRun s [rs1, rs2] [] fun s =>
    let a := s.grp.xr rs1
    let part := s.grp.xr rs2
    let again := fun (v : W64) => raise (s.setGrp { s.grp with needCrest := s.grp.needCrest.set part.toNat a }) 30 v
    if s.areaBad a part then raise s 30 a
    else match s.reach s.cur true a 64 .read with
      | .ok key _ =>
        if s.poisoned key 64 then again a
        else
          let l := s.imageAt key
          if s.poisoned key l.length then
            again (match s.poison.filter (fun u => key ≤ u && u < key + l.length) with
              | u :: _ => a + BitVec.ofNat 64 (u - key)
              | [] => a)
          else if !imageFits l part.toNat (s.cur % 16) then raise s 30 a
          else
            let t := s.setGrp { s.grp with needCrest := s.grp.needCrest.erase part.toNat }
            let u := if part == 0 then t.restore0 t.cur l else t.restore1 t.grp.blk l
            .next (u.setGrp u.grp.hartNext)
      | _ => again a

/-- `z.pjrd` (R221). A released slot is free, as one whose entry was acknowledged is; its state reads so (log 38). -/
def execZPjrd (rd rs1 : XReg) (s : State) : Out :=
  hartRun s [rs1] [rd] fun s =>
    let v := s.grp.xr rs1
    let n := v.toNat % 32
    let e := s.grp.jslot n
    if v.getLsbD 6 && !s.mmode then illegal s
    else
      let t := if v.getLsbD 6 && e.held && e.state == 2 then
          s.setGrp { s.grp with journal := s.grp.journal.set n { e with held := false, state := 1 } } else s
      .next (t.hartDone rd (BitVec.ofNat 64 (if v.getLsbD 5 then e.value / 2 ^ 64 else e.value)))

/-- `z.sample` (R222). -/
def execZSample (rd rs1 : XReg) (s : State) : Out :=
  hartRun s [rs1] [rd] fun s =>
    let off := s.grp.xr rs1
    if off.toNat % 64 != 0 || s.blk.scratch < off.toNat + 64 then raise s 7 off
    else if s.grp.sampler.armed then .next (s.hartDone rd 1)
    else .next ((s.setGrp { s.grp with sampler := { armed := true, off := off.toNat } }).hartDone rd 0)

end Sys2Proof.Machine
end

