-- ==== Sys2Proof/Machine/Arrivals.lean ====
section
/-! DEFINITION. Messages and data that arrive: queue loads and replays, lane and hart accesses, posted writes and their
answers, counters, rings, ranks, reductions, absence tokens, evictions, prefetch fills; and copies (05 R93-R95;
09 R154-R166; 10 R172-R183, R188; 16 R280; 21 R306-R308). A step whose condition does not hold changes nothing. -/
namespace Sys2Proof.Machine

-- Messages and the harbour buffers (13 R235; 21 R307).

/-- Whether a message waits in a harbour buffer. A ranked contribution is taken by its window, which stays at its home (09
R160), and applied there after the resume; a ring's answer reaches its hart, which could not stop without it (log 38). -/
def State.harboured (s : State) (m : Msg) : Bool :=
  match m.body with
  | .ack _ | .refuse _ _ => s.grpFrozen m.src
  | .redInput c _ _ _ _ | .redResult c _ _ _ => s.coreFrozen c
  | .rank _ _ _ | .ringAnswer _ _ => false
  | _ => m.dst < 2048 && s.coreFrozen m.dst

/-- The message at a place of the network, where nothing of its pair is before it and no harbour buffer holds it. -/
def State.arriving (s : State) (i : Nat) : Option Msg :=
  match s.net[i]? with
  | none => none
  | some m => if s.harboured m || (s.net.take i).any m.pairs then none else some m

/-- The message at a place is taken off the network. -/
def State.taken (s : State) (i : Nat) : State := { s with net := s.net.eraseIdx i }

/-- Sends a message. -/
def State.emit (s : State) (src dst : Nat) (b : MsgBody) : State := { s with net := s.net ++ [⟨src, dst, b⟩] }

/-- Sends an answer to a group. -/
def State.answer (s : State) (k : Nat) (b : MsgBody) : State := s.emit k (2 ^ 20 + k) b

/-- Runs `k` on the message that the step's input names, if it can arrive. -/
def onArrival (s : State) (k : Msg → State → Option State) : Out :=
  match s.arriving s.input.b with
  | none => .next s
  | some m => match k m (s.taken s.input.b) with
    | some t => .next t
    | none => .next s

/-- A pending asynchronous cause of a group (12 R216). -/
def State.pend (s : State) (k cause : Nat) (val : W64) : State :=
  s.setGrpAt k { s.grpAt k with asyncs := (s.grpAt k).asyncs ++ [⟨cause, val⟩] }

-- Queue loads and replays (05 R93-R95).

/-- One distant element read at its home: its value, or the cause of its failure (R93). -/
def State.wantValue (s : State) (w : Want) : Except Nat Nat :=
  match s.reach s.cur s.mmode w.addr w.n .read with
  | .ok key _ => if s.poisoned key w.n then .error 29 else .ok (laneValue w.n w.sext (leNat (s.bytes key w.n)))
  | .refused why => .error (if why == 2 then 29 else 5)
  | _ => .error 5

/-- An entry whose distant elements have answered. Elements that fail poison it, or join those that failed at issue: the
mask takes their lanes, and address and cause are those of the lowest (05 R93, R94). -/
def State.arrivedEntry (s : State) (e : LdqEntry) : LdqEntry :=
  let r := e.wants.map fun w => (w, s.wantValue w)
  let bad := r.filterMap fun p => match p.2 with
    | .error c => some (p.1, c)
    | .ok _ => none
  let data := r.foldl (fun acc p => match p.2 with
    | .ok v => lanes fun i => if i == p.1.lane then LaneVec.at acc i ||| BitVec.ofNat 64 (v * 2 ^ p.1.shift) else LaneVec.at acc i
    | .error _ => acc) e.data
  match bad with
  | (w, c) :: _ =>
    let at_ := 64 * w.lane + w.shift
    let low := !e.poison || at_ < e.faultAt
    { e with arrived := true, poison := true, data := [], wants := []
             cause := if low then c else e.cause, addr := if low then w.addr else e.addr
             faultAt := if low then at_ else e.faultAt
             lanes := (if e.poison then e.lanes else 0) ||| maskOf fun i => bad.any fun p => p.1.lane == i }
  | [] => { e with arrived := true, data := if e.poison then [] else data, wants := [] }

/-- Replaces an entry of a queue. -/
def Group.putEntry (g : Group) (q k : Nat) (e : LdqEntry) : Group := { g with ldq := g.ldq.set q ((Map.get [] g.ldq q).set k e) }

/-- Whether a queue load that still wants distant elements was issued before an entry. -/
def Group.olderAway (g : Group) (e : LdqEntry) : Bool :=
  !e.wants.isEmpty && g.ldq.any fun q => q.2.any fun x => !x.arrived && !x.wants.isEmpty && x.issued < e.issued

/-- QUEUE_LOAD_ARRIVAL: entry `c` of queue `b` of group `a`. Loads at distant homes are read in the order in which they
were issued (13 R234). -/
def execQueueLoadArrival (s : State) : Out :=
  let k := s.input.a
  let g := s.grpAt k
  match g.entry s.input.b s.input.c with
  | none => .next s
  | some e => if e.arrived || g.olderAway e then .next s
    else
      let t := s.setGrpAt k (g.putEntry s.input.b s.input.c ((s.focus k).arrivedEntry e))
      .next (e.wants.foldl (fun u w => u.countAccess k w.addr .read) t)

/-- REPLAY_ARRIVAL: entry `c` of queue `b` of group `a`, whose compute stream waits for its replay, is loaded again. A
replay that faults poisons the entry again, its width tag unchanged, and raises the fault again; a translation fault goes
to the pager (05 R95; 22 R313). -/
def execReplayArrival (s : State) : Out :=
  let k := s.input.a
  let q := s.input.b
  let s' := s.focus k
  match (s.grpAt k).entry q s.input.c with
  | none => .next s
  | some e =>
    if !(e.poison && e.replay) || (s.grpAt k).laneWait != some (.replay q) || !s'.laneReady then .next s
    else
      let r := s'.makeLoad e.desc
      match r.wait, r.fault with
      | some _, _ => .next s
      | none, none =>
        .next (r.state.setGrpAt k ((r.state.grpAt k).putEntry q s.input.c { r.entry with arrived := r.entry.wants.isEmpty }))
      | none, some f =>
        let x := r.state.arrivedEntry r.entry
        let g := ((r.state.grpAt k).putEntry q s.input.c { x with wide := e.wide, replay := true })
        let t := r.state.setGrpAt k (g.laneFault 5 x.cause x.lanes x.addr)
        .next (match f.xlate with
          | some (va, n) => if x.faultAt == r.entry.faultAt then t.streamFault k .replay va .replay n else t
          | none => t)

-- Accesses of the two streams (09 R154, R165; 10 R176, R178; 09 R160).

/-- Whether a message carries a ranked contribution of group `k`. -/
def Msg.rankOf (m : Msg) (k : Nat) : Bool :=
  match m.body with
  | .rank _ _ _ => m.src == k
  | _ => false

/-- LANE_ACCESS_COMPLETE: the access of group `a`'s compute stream is performed; every ranked contribution of it has been
accepted (R161). -/
def execLaneAccessComplete (s : State) : Out :=
  let k := s.input.a
  if (s.grpAt k).laneBusy && !(s.focus k).portHeld (k % 16) && !s.net.any fun m => m.rankOf k then .next ((s.setGrpAt k { s.grpAt k with laneBusy := false }).sampleDone k) else .next s

/-- The destination that a hart's request waits on, for per-pair order. -/
def State.requestTarget (s : State) (r : HartReq) : Option Nat :=
  match r with
  | .load _ _ a | .amo _ _ _ _ _ a _ | .lr _ _ _ a | .sc _ _ _ a _ | .rank _ a _ _ =>
    match s.place s.cur s.mmode a with
    | .ok p => s.placeTarget p
    | .error _ => none
  | .mbread _ a | .mbset a _ => some (handleTarget (s.mailbox a).1)
  | .send _ _ _ => none

/-- Whether a request that writes is for a core that is stopped: it waits until the core has resumed (21 R307). A read is
answered, or no group of the core's own partition could come to rest (R219; log 38). -/
def State.requestHeld (s : State) (r : HartReq) : Bool :=
  let core := fun (e : W64) => !isPeer e && s.coreFrozen (handleCore e)
  match r with
  | .amo _ _ _ _ _ a _ | .sc _ _ _ a _ | .rank _ a _ _ => match s.place s.cur s.mmode a with
    | .ok (.fabric h _) => core (s.blk.handle h)
    | _ => false
  | .mbset a _ => core (s.mailbox a).1
  | _ => false

/-- A mailbox request performed at the counter's home. -/
def State.atCounter (s : State) (a : W64) (load : Bool) (k : W64 → Nat → State) : State :=
  let m := s.mailbox a
  if s.counterOk m.1 m.2 then k m.1 m.2
  else s.hartXlate (a.toNat % 2 ^ 57) (if load then .read else .both) (noMapping a) load a

/-- The request of the acting hart, performed. -/
def State.performRequest (s : State) (r : HartReq) : State :=
  match r with
  | .load k rd a => s.respond a (LoadKind.bytes k) .read true fun key => s.loadAt k rd key none none
  | .amo op dbl _ aq rd a v => s.respond a (if dbl then 8 else 4) .both false fun key => s.amoAt op dbl aq rd v key none none
  | .lr dbl aq rd a => s.respond a (if dbl then 8 else 4) .read true fun key => s.lrAt dbl aq rd key none none
  | .sc dbl aq rd a v => s.respond a (if dbl then 8 else 4) .cond false fun key => s.scAt dbl aq rd v key none none
  | .mbread rd a => s.atCounter a true fun e idx => s.hartDone rd ((s.homeCounter e idx).setWidth 64)
  | .mbset a v => s.atCounter a false fun e idx =>
    let t := if isPeer e then s else s.setCounter (handleCore e) idx v
    t.setGrp t.grp.hartNext
  | .rank rd a base count => s.respond a 4 .write false fun key =>
    let p := (s.place s.cur s.mmode a).toOption.getD (.block 0)
    let fabric := match p with
      | .fabric h _ => handleCore (s.blk.handle h)
      | _ => 0
    let o := s.openRank key (rankHome p s.coreNo fabric none) none base count
    o.1.hartDone rd o.2
  | .send _ _ _ => s

/-- Whether a message is a ring's answer to group `k`. -/
def Msg.answersRing (m : Msg) (k : Nat) : Bool :=
  match m.body with
  | .ringAnswer _ _ => m.src == k
  | _ => false

/-- HART_ACCESS_RESPONSE: the answer to the request of group `a`'s hart. A `z.send` waits for its ring's answer. -/
def execHartAccessResponse (s : State) : Out :=
  let k := s.input.a
  let g := s.grpAt k
  match g.hartReq with
  | none => .next s
  | some (.send _ _ _) =>
    let i := s.net.findIdx fun m => m.answersRing k
    match s.net[i]? with
    | some ⟨_, _, .ringAnswer rd st⟩ =>
      let t := (s.taken i).focus k
      .next ((t.setGrp { t.grp with hartReq := none }).hartDone rd (BitVec.ofNat 64 st))
    | _ => .next s
  | some r =>
    let t := (s.focus k).setGrp { g with hartReq := none }
    if t.sentTo (t.requestTarget r) || t.requestHeld r then .next s else .next (t.performRequest r)

-- Posted writes and their answers (09 R156; 10 R187, R188; 01 R20).

/-- Whether cells would change a poisoned unit in part: it stays poisoned (28 R362). -/
def State.mergesPoison (s : State) (cells : List (Nat × Byte)) : Bool :=
  (cells.map fun c => unitOf c.1).eraseDups.any fun u =>
    s.poison.contains u && !((List.range (unitSize u)).all fun i => cells.any fun c => c.1 == u + i)

/-- The port that accepts no packet of a message of a group to a core or a vault of this module (25 R338). -/
def State.postRefused (s : State) (m : Msg) : Option Nat :=
  let port := if m.dst < 2048 then patchPort m.dst else 640 + (m.dst - 2048)
  if 2 ^ 16 ≤ m.dst || port == patchPort (m.src / 16) then none
  else match s.worldOf m.src with
    | some (_, n) => if s.sec.flows.contains (flowId (patchPort (m.src / 16)) port n 0) then some port else none
    | none => none

/-- POSTED_WRITE_ARRIVAL: the posted write at place `b` of the network is performed or refused at its home. A peer's
answer is an input; so is whether a home of this module refuses a write that meets poison, for which R187 has a code and
28 R362 a merge (log 40). -/
def execPostedWriteArrival (s : State) : Out :=
  onArrival s fun m t => match m.body with
    | .posted slot writes _ h =>
      let at_ := fun base =>
        let cells := writes.map fun w => (base + w.1, w.2)
        if s.input.flag && t.mergesPoison cells then t.answer m.src (.refuse slot 2)
        else (t.performCells cells).answer m.src (.ack slot)
      let e : W64 := BitVec.ofNat 64 h
      if let some port := t.postRefused m then some ((t.countPacket m.src port).answer m.src (.refuse slot 2))
      else if 2 ^ 16 ≤ m.dst then
        some (if s.input.flag then t.answer m.src (.refuse slot (s.input.c % 3))
              else at_ (peerKey (bits e.toNat 9 4) (handleCore e) (handleSlot e) 0))
      else if 2048 ≤ m.dst then some (at_ (vaultKey (m.dst - 2048) 0))
      else
        let top := (writes.map fun w => w.1).foldl Nat.max 0
        match t.fabricHome (t.blkAt (t.grpAt m.src).blk) e top 1 with
        | .refused why => some (t.answer m.src (.refuse slot why))
        | .at _ => some (at_ (scratchKey (handleBlock e) 0))
    | _ => none

/-- The journal slot of a group takes an answer. -/
def State.setJournal (s : State) (k slot : Nat) (f : JEntry → JEntry) : State :=
  let g := s.grpAt k
  s.setGrpAt k { g with journal := g.journal.set slot (f (g.jslot slot)) }

/-- JOURNAL_ACK: the acknowledgement at place `b` frees its slot. -/
def execJournalAck (s : State) : Out :=
  onArrival s fun m t => match m.body with
    | .ack slot => some ((t.setJournal m.src slot fun e => { e with held := false, state := 1 }).sampleDone m.src)
    | _ => none

/-- JOURNAL_REFUSAL: the refusal at place `b` marks its entry and pends cause 26; in a retiring block it is a fatal error
of the context (R20). -/
def execJournalRefusal (s : State) : Out :=
  onArrival s fun m t => match m.body with
    | .refuse slot why =>
      let g := t.grpAt m.src
      let seq : W64 := (g.jslot slot).seq.setWidth 64
      let u := (t.setJournal m.src slot fun e => { e with state := 2, why := why }).sampleDone m.src
      some (if (u.blkAt g.blk).state == .retiring then u.fatal (u.launchAt (u.blkAt g.blk).launch).asid 26 m.src seq
            else u.pend m.src 26 seq)
    | _ => none

-- Counters and rings (10 R173, R176-R178; 13 R243).

/-- MAILBOX_INCREMENT_ARRIVAL: the increment at place `b` is performed or refused at its counter's home. -/
def execMailboxIncrementArrival (s : State) : Out :=
  onArrival s fun m t =>
    let own := t.blkAt (t.grpAt m.src).blk
    let ok := fun core idx => if 2 ^ 16 ≤ m.dst then !s.input.flag else t.countsHere own core idx
    let add := fun core idx (n : W32) => if 2 ^ 16 ≤ m.dst then t else t.setCounter core idx (t.counter core idx + n)
    match m.body with
    | .increment slot core idx n _ =>
      some (if ok core idx then (add core idx n).answer m.src (.ack slot) else t.answer m.src (.refuse slot 0))
    | .copyIncrement k core idx a =>
      some (if 2 ^ 16 ≤ m.dst then (if s.input.flag then t.pend k 27 a else t)
            else if t.countsHere (t.blkAt (t.grpAt k).blk) core idx then add core idx 1 else t.pend k 27 a)
    | _ => none

/-- Whether a ring takes messages through a handle's entry from a group: it is live, of the entry's block, which is of the
sender's cluster and has not retired. -/
def State.ringOpen (s : State) (src : Nat) (e : W64) (r : Ring) : Bool :=
  r.live && r.owner == handleBlock e && match s.blocks.find r.owner with
    | some b => s.sameCluster (s.blkAt (s.grpAt src).blk) b
    | none => false

/-- RING_MESSAGE_ARRIVAL: the ring message at place `b` is written to the slot at the tail, or refused. -/
def execRingMessageArrival (s : State) : Out :=
  onArrival s fun m t => match m.body with
    | .ring h l rd =>
      let e : W64 := BitVec.ofNat 64 h
      let core := handleCore e
      let n := bits h 27 25
      let r := (t.coreAt core).ring n
      some (if !t.ringOpen m.src e r then t.answer m.src (.ringAnswer rd 2)
        else if (r.tail - r.head).toNat == r.slots then t.answer m.src (.ringAnswer rd 1)
        else
          let u := t.performStore (scratchKey r.owner (r.base + 64 * (r.tail.toNat % r.slots))) l
          (u.setRing core n { r with tail := r.tail + 1 }).answer m.src (.ringAnswer rd 0))
    | _ => none

-- Ranked contributions (09 R161).

/-- Whether a window's location lies in the scratch of a block that is stopped. -/
def State.windowFrozen (s : State) (key : Nat) : Bool :=
  match scratchOf key with
  | some (blk, _) => s.blkFrozen blk
  | none => false

/-- RANK_CONTRIBUTION_ARRIVAL: the contribution at place `b` is held at its window, and those due are applied, those of a
stopped block's scratch after its resume. -/
def execRankContributionArrival (s : State) : Out :=
  onArrival s fun m t => match m.body with
    | .rank key r v =>
      match t.windowAt key with
      | none => some t
      | some w =>
        let ws := t.windows.map fun x => if x.key == key then { w with heldBy := w.heldBy ++ [(r, v, m.src)] } else x
        let u := { t with windows := ws }
        some (if t.windowFrozen key then u else u.applyRanks key (w.heldBy.length + 1))
    | _ => none

-- Fabric reductions (03 R71; 10 R182; 16 R280; 17 R283).

/-- REDUCTION_INPUT_ARRIVAL: the partial sum at place `b` reaches a router input. -/
def execReductionInputArrival (s : State) : Out :=
  onArrival s fun m t => match m.body with
    | .redInput core k round port vals =>
      let n := (t.coreAt core).redNode k
      some (t.setRed core k { n with inputs := n.inputs ++ [(round, port, vals)] })
    | _ => none

/-- The sum of two optional values of an element. -/
def addOptional (a b : Option W32) : Option W32 :=
  match a, b with
  | some x, some y => some (BitVec.ofNat 32 (homeAdd fp32 x.toNat y.toNat))
  | some x, none => some x
  | none, y => y

/-- The input ports of a node of a tree, in increasing order, the local input last. -/
def RedChan.ports (c : RedChan) (lin : Nat) : List Nat :=
  (List.range 9).filter fun p => p == 8 || c.tree.any fun t => t.1 && !t.2.1 && t.2.2.1 == lin && t.2.2.2 == p

/-- The members that receive a channel's result. -/
def RedChan.receivers (c : RedChan) : List Nat :=
  (List.range c.tree.length).filter fun i => match c.tree[i]? with
    | some t => t.1 && (t.2.1 || c.all)
    | none => false

/-- ROUTER_FOLD: the router of core `a` folds the next round of the channel with key `b`, and sends the sum on; a root
sends the result to every receiving member. -/
def execRouterFold (s : State) : Out :=
  let core := s.input.a
  let k := s.input.b
  let l := s.launchAt (k / 16)
  let n := (s.coreAt core).redNode k
  let lin := l.coreMap.idxOf core
  match l.chans.find? fun c => c.ch == k % 16 with
  | none => .next s
  | some c =>
    match c.tree[lin]? with
    | none => .next s
    | some (_, root, parent, port) =>
      let ins := (c.ports lin).map fun p => (n.inputs.find? fun i => i.1 == n.folded && i.2.1 == p).map fun i => i.2.2
      if s.coreFrozen core || !ins.all Option.isSome then .next s
      else
        let sum := (List.range c.width).map fun e =>
          ins.foldl (fun acc i => addOptional acc ((i.getD []).getD e none)) none
        let t := s.setRed core k { n with inputs := n.inputs.filter fun i => i.1 != n.folded, folded := n.folded + 1 }
        if root then
          let vals := sum.map fun v => v.getD 0
          .next (c.receivers.foldl (fun u i =>
            let dest := l.coreMap.getD i 0
            u.emit (2 ^ 21 + core) dest (.redResult dest k n.folded vals)) t)
        else
          let dest := l.coreMap.getD parent 0
          .next (t.emit (2 ^ 21 + core) dest (.redInput dest k n.folded port sum))

/-- REDUCTION_RESULT_LANDED: the result at place `b` is written to its receiving block, and its counter rises. It waits
until the core has consumed the round before last. -/
def execReductionResultLanded (s : State) : Out :=
  onArrival s fun m t => match m.body with
    | .redResult core k round vals =>
      let n := (t.coreAt core).redNode k
      let l := t.launchAt (k / 16)
      if n.landed != round || n.consumed + 2 ≤ round then none
      else
        let u := t.setRed core k { n with landed := n.landed + 1 }
        match l.chans.find? (fun c => c.ch == k % 16), (u.blocksOn core).find? (fun b => b.2.launch == k / 16) with
        | some c, some b =>
          let v := u.performStore (scratchKey b.1 (c.off + 256 * (round % 2))) (vals.flatMap fun x => leBytes 4 x.toNat)
          some (v.setCounter core c.k (v.counter core c.k + 1))
        | _, _ => some u
    | _ => none

-- Absence tokens (21 R308), evictions (09 R166), prefetch fills (09 R164).

/-- Whether a hart waits for a counter. -/
def Group.waitsOn (g : Group) (key : Nat) : Bool :=
  match g.hartWait with
  | some (.mailbox k _) => k == key
  | _ => false

/-- The tokens that a cross-device counter's home holds for it change; when none is left, the limits of the waiters on that
counter start from zero. The key is the waiters' own. -/
def State.absence (s : State) (key : Nat) (present : Bool) : State :=
  let n := Map.get 0 s.absent key
  let m := if present then n - 1 else n + 1
  let t := { s with absent := s.absent.set key m }
  if m == 0 then { t with groups := t.groups.map fun p =>
    (p.1, if p.2.waitsOn key then { p.2 with hartTide := t.tide.toNat } else p.2) }
  else t

/-- ABSENCE_TOKEN_ARRIVAL: the token at place `b`; or, with `flag2`, one that another device sent to counter `c` of the
home `a`. -/
def execAbsenceTokenArrival (s : State) : Out :=
  if s.input.flag2 then .next (s.absence (256 * (2 ^ 16 + s.input.a) + s.input.c % 256) s.input.flag)
  else onArrival s fun m t => match m.body with
    | .absence idx present => some (t.absence (256 * m.dst + idx) present)
    | _ => none

/-- HART_CACHE_EVICTION: the `a`-th dirty sector is written back. Where its page is no longer writable it stays dirty,
and its group parks and has cause 28 pending. -/
def execHartCacheEviction (s : State) : Out :=
  match s.dirty[s.input.a]? with
  | none => .next s
  | some d =>
    match s.evictSector d with
    | .ok t => .next t
    | .error f =>
      let k := d.core * 16 + d.slot
      let v : W64 := BitVec.ofNat 64 d.va
      if (s.grpAt k).asyncs.contains ⟨28, v⟩ || (s.grpAt k).holdA then .next s
      else .next ((s.streamFault k .hart d.va .write f).pend k 28 v)

/-- PREFETCH_FILL: the `b`-th fill of core `a` installs its sector; one for the lane L1 does so unless it is poisoned. -/
def execPrefetchFill (s : State) : Out :=
  let core := s.input.a
  let c := s.coreAt core
  match c.fills[s.input.b]? with
  | none => .next s
  | some (asid, va, pa, l2) =>
    let t := s.setCoreAt core { c with fills := c.fills.eraseIdx s.input.b }
    .next (if l2 || t.poisoned pa 128 then t else t.l1Fill core asid va pa (asid == 0))

-- Copies (10 R171-R175; 21 R306).

/-- One stretch of a copy: its offset on the local side, its bytes, its address (none outside the tensor), its padding. -/
structure CopyUnit where
  off : Nat
  n : Nat
  at? : Option W64
  pad : Nat
  deriving DecidableEq, Repr

/-- The box indices of an element from its linear index (R170). -/
def Rec.boxAt (r : Rec) (e : Nat) : List Nat :=
  [e % r.b 0, e / r.b 0 % r.b 1, e / (r.b 0 * r.b 1) % r.b 2, e / (r.b 0 * r.b 1 * r.b 2) % r.b 3,
   e / (r.b 0 * r.b 1 * r.b 2 * r.b 3)]

/-- The coordinates of a box element. -/
def Rec.coordsAt (r : Rec) (c : List Int) (e : Nat) : List Int :=
  (List.range 5).map fun k => c.getD k 0 + (((r.boxAt e).getD k 0 : Nat) : Int)

/-- The stretches of a copy: elements, or bytes where elements are narrower. -/
def Rec.units (r : Rec) (c : List Int) : List CopyUnit :=
  if 8 ≤ r.w then
    (List.range r.elems).map fun e =>
      let t := r.coordsAt c e
      ⟨e * (r.w / 8), r.w / 8, if r.inside t then some (r.address t) else none, if r.w == 64 then r.pad else r.pad % 2 ^ r.w⟩
  else
    let row := r.b 0 * r.w / 8
    (List.range r.localSize).map fun m =>
      let p := m % row
      let e := m / row * r.b 0 + 8 * p / r.w
      let t := r.coordsAt c e
      let a := r.address (0 :: t.drop 1) + BitVec.ofInt 64 (c.getD 0 0 * (r.w : Int) / 8 + (p : Int))
      let pad := leNat [BitVec.ofNat 8 ((List.range 8).foldl (fun acc j =>
        acc + if bits r.pad ((8 * p + j) % r.w) ((8 * p + j) % r.w) == 1 then 2 ^ j else 0) 0)]
      ⟨m, 1, if r.inside t then some a else none, pad⟩

/-- What becomes of one stretch. -/
inductive CopyFate where
  | ok (key : Option Nat) (t : Option TlbEntry)
  | waits (line : Option (Nat × Bool))
  | pager (a : W64) (va : Nat) (f : XFault)
  | fails (a : W64) (bad : Option (Nat × XFault))
  deriving DecidableEq, Repr

/-- As `reach`, for a copy, which may name peer HBM (23 R324). -/
def State.copyReach (s : State) (k : Copy) (a : W64) (n : Nat) (need : Need) : Reach :=
  match s.place k.grp false a with
  | .ok (.global va _) =>
    match s.translateAny (s.launchAt (s.blkAt k.blk).launch).asid va need with
    | .ok (pa, t) => if s.flowRefuses k.grp (.global va false) (some t) then .refused 2 else .ok pa (some t)
    | .error f => .xlate va f
  | _ => s.reach k.grp false a n need

/-- The bytes of the local side. -/
def Copy.localKey (k : Copy) : Nat := if k.kind == 3 then wbufKey k.blk k.off else scratchKey k.blk k.off

def Copy.reads (k : Copy) : Bool := k.kind == 0 || k.kind == 3

/-- The core whose scratch a stretch of a copy writes: a copy into scratch its own, a copy out of it the one that the
fabric address names. -/
def State.copyTarget (s : State) (k : Copy) (a : W64) : Option Nat :=
  if k.kind == 3 then none
  else if k.reads then some (k.blk / 16)
  else match s.place k.grp false a with
    | .ok (.fabric h _) => some (handleTarget ((s.blkAt k.blk).handle h))
    | .ok (.vault v _) => some (2048 + v)
    | _ => none

/-- The fate of a stretch (R173) of a copy on a channel. Where the local side meets an uncorrectable error, R173 does not
say which address is reported; the model gives the one on the tensor's side (log 39). A write follows the channel's earlier
increments to its destination (13 R235). -/
def State.copyFate (s : State) (ch : Nat) (k : Copy) (u : CopyUnit) : CopyFate :=
  let poisonedLocal := !k.reads && s.poisoned (k.localKey + u.off) u.n
  match u.at? with
  | none => .ok none none
  | some a =>
    let target := s.copyTarget k a
    let held := (match s.place k.grp false a with
      | .ok (.fabric h _) => !isPeer ((s.blkAt k.blk).handle h) && s.coreFrozen (handleCore ((s.blkAt k.blk).handle h))
      | _ => false)
      || s.net.any fun m => m.src == copySource (k.blk / 16) ch && some m.dst == target
    match s.copyReach k a u.n (if k.reads then .read else .write) with
    | .ok key t =>
      if held then .waits none
      else if let some l := s.lineWait key u.n (!k.reads) then .waits (some l)
      else if poisonedLocal || s.fencedKey key || (k.reads && s.poisoned key u.n) then .fails a none
      else .ok (some key) t
    | .xlate va f =>
      match s.route (s.launchAt (s.blkAt k.blk).launch) va f with
      | .error c => .fails a (if c == 4 then some (va, f) else none)
      | _ => .pager a va f
    | _ => .fails a none

/-- The context of a copy's block. -/
def State.copyAsid (s : State) (k : Copy) : Nat := (s.launchAt (s.blkAt k.blk).launch).asid

/-- The bytes that a copy writes, under its world's key (25 R339). -/
def State.copyWrite (s : State) (k : Copy) (cells : List (Nat × Byte)) : State :=
  (s.underKey (s.copyAsid k) ((cells.map fun c => c.1 / 128 * 128).eraseDups.filter fun u => u < 2 ^ 52)).performCells cells

/-- The bytes that a copy in reads for one stretch. -/
def State.unitBytes (s : State) (asid : Nat) (p : CopyUnit × CopyFate) : List Byte :=
  match p.2 with
  | .ok (some key) _ => s.worldBytes asid key p.1.n
  | _ => leBytes p.1.n p.1.pad

/-- The cells that a copy writes for its stretches. -/
def State.copyCells (s : State) (k : Copy) (l : List (CopyUnit × CopyFate)) : List (Nat × Byte) :=
  l.flatMap fun p =>
    if k.reads then cellsOf (k.localKey + p.1.off) (s.unitBytes (s.copyAsid k) p)
    else match p.2 with
      | .ok (some key) _ => cellsOf key (s.bytes (k.localKey + p.1.off) p.1.n)
      | _ => []

/-- The state after the translations and host lines that a copy's stretches used. -/
def State.copySeen (s : State) (k : Copy) (l : List (CopyUnit × CopyFate)) : State :=
  l.foldl (fun t p => match p.2 with
    | .ok (some key) e => if k.reads then (t.keepTlb? e).hostTouch key p.1.n false else t.keepTlb? e
    | _ => t) s

/-- A completed copy leaves its channel; its token register takes id and status (R172). -/
def State.finishCopy (s : State) (core ch : Nat) (k : Copy) (failed : Bool) : State :=
  let c := s.coreAt core
  let n := c.chan ch
  let t := s.setCoreAt core { c with chans := c.chans.set ch { n with copies := n.copies.drop 1 } }
  let g := t.grpAt k.grp
  match g.tokens.find k.token with
  | some x =>
    if x.chan == ch && x.id == k.id then
      t.setGrpAt k.grp { g.setX (BitVec.ofNat 5 k.token) (BitVec.ofNat 64 (k.id.toNat + if failed then 2 ^ 63 else 0)) with
                          tokens := g.tokens.set k.token { x with ready := true } }
    else t
  | none => t

/-- The completion increment of a copy whose record asks for one (R173); refused where the handle is gone. -/
def State.copyIncrement (s : State) (ch : Nat) (k : Copy) (r : Rec) : State :=
  if !r.mbx then s
  else
    let e := (s.blkAt k.blk).handle r.mhandle
    let a : W64 := BitVec.ofNat 64 (0xF4 * 2 ^ 56 + r.mhandle * 2 ^ 40 + r.mindex)
    if grantsCounter e r.mindex then
      s.emit (copySource (k.blk / 16) ch) (handleTarget e) (.copyIncrement k.grp (handleCore e) r.mindex a)
    else s.pend k.grp 27 a

/-- The metered requests of a copy's global side (27 R354, R357). -/
def State.copyMeter (s : State) (ch : Nat) (k : Copy) : State :=
  let us := (Rec.ofBytes k.record).units (coordsOf k.c01 k.c234)
  let vas := (us.filterMap fun u => u.at?.bind fun a => (s.globalVa k.grp a).map fun v => v / 128 * 128).eraseDups
  vas.foldl (fun t v => t.meterVa (32 + ch) v 128) (s.focus k.grp)

/-- COPY_START: the oldest copy of channel `b` of core `a` starts; it is the only one of its channel that can. -/
def execCopyStart (s : State) : Out :=
  match ((s.coreAt s.input.a).chan s.input.b).copies with
  | k :: rest =>
    if k.started || s.blkFrozen k.blk then .next s
    else
      let t := s.copyMeter s.input.b k
      let c := t.coreAt s.input.a
      let n := c.chan s.input.b
      .next (t.setCoreAt s.input.a { c with chans := c.chans.set s.input.b { n with copies := { k with started := true } :: rest } })
  | [] => .next s

/-- A copy that needs a page stops with a pager record (R173; 20 R295, R296). -/
def State.copyParks (s : State) (core ch : Nat) (k : Copy) (va : Nat) (f : XFault) : State :=
  let c := s.coreAt core
  let n := c.chan ch
  let l := s.launchAt (s.blkAt k.blk).launch
  let ticket := n.wake + 1
  let t := s.setCoreAt core
    { c with chans := c.chans.set ch { n with wake := ticket, copies := { k with ticket := some ticket } :: n.copies.drop 1 } }
  t.pushRecord l.part l.asid (s.route l va f) fun seq =>
    faultRecord seq va l.asid (if k.reads then 0 else 1) f.cause f.region (tokenOf k.grp (.copy ch) ticket) f.hint s.tide.toNat

/-- The bad entry of a failed copy: its record, fla and ecq (R173). -/
def State.copyBadEntry (s : State) (ch : Nat) (k : Copy) (va : Nat) (f : XFault) : State :=
  let l := s.launchAt (s.blkAt k.blk).launch
  let t := s.pushRecord l.part l.asid (.error 4) fun seq =>
    faultRecord seq va l.asid (if k.reads then 0 else 1) 4 f.region
      (tokenOf k.grp (.copy ch) (((s.coreAt (k.grp / 16)).chan ch).wake)) f.hint s.tide.toNat
  t.onMondb k.grp fun m => { m with fla := true, ecq := 4 }

/-- The stretches that a copy has not performed, with their fates. -/
def State.copyRest (s : State) (ch : Nat) (k : Copy) (r : Rec) : List (CopyUnit × CopyFate) :=
  ((r.units (coordsOf k.c01 k.c234)).filter fun u => 4096 * k.done ≤ u.off).map fun u => (u, s.copyFate ch k u)

/-- A running copy stops at a checkpoint, a 4 KiB boundary of its local side that is free (21 R306; log 4): the bytes
before it are performed. A copy that waits for a page stops at once. -/
def State.checkpoint (s : State) (core ch : Nat) : State :=
  let c := s.coreAt core
  let n := c.chan ch
  match n.copies with
  | k :: rest =>
    let stop := k.done + Config.freeChoice s.moves ch
    let l := (s.copyRest ch k (Rec.ofBytes k.record)).filter fun p => p.1.off < 4096 * stop
    let fine := l.all fun p => match p.2 with
      | .ok _ _ => true
      | _ => false
    if k.started && k.ticket.isNone && !l.isEmpty && fine then
      let t := (s.copySeen k l).copyWrite k (s.copyCells k l)
      t.setCoreAt core { t.coreAt core with
        chans := (t.coreAt core).chans.set ch { n with copies := { k with done := stop } :: rest } }
    else s
  | [] => s

/-- Whether a copy's context is dead: its copies end, so that one which waits for a page fails there (28 R369, R370). -/
def State.copyDead (s : State) (k : Copy) : Bool := (s.dead.find (s.launchAt (s.blkAt k.blk).launch).asid).isSome

/-- COPY_COMPLETION: the started copy of channel `b` of core `a` completes, fails at its first bad stretch, or stops for
a page. After a failure each destination byte is old or new, freely. -/
def execCopyCompletion (s : State) : Out :=
  let core := s.input.a
  let ch := s.input.b
  match ((s.coreAt core).chan ch).copies with
  | [] => .next s
  | k :: _ =>
    if !k.started || (k.ticket.isSome && !s.copyDead k) || s.blkFrozen k.blk || (s.focus k.grp).portHeld (32 + ch) then .next s
    else
      let r := Rec.ofBytes k.record
      let l := s.copyRest ch k r
      let fail := fun good (a : W64) bad =>
        let cells := (s.copyCells k good).filter fun c => Config.freeChoice s.moves c.1 % 2 == 0
        let seen := (s.copySeen k good).countAccess k.grp a (if k.reads then .read else .write)
        let t := ((seen.copyWrite k cells).finishCopy core ch k true).pend k.grp 27 a
        Host.Outcome.next (match bad with
          | some (va, f) => t.copyBadEntry ch k va f
          | none => t)
      let good := l.takeWhile fun p => match p.2 with
        | .ok _ _ => true
        | _ => false
      match l[good.length]? with
      | none => .next ((((s.copySeen k l).copyWrite k (s.copyCells k l)).finishCopy core ch k false).copyIncrement ch k r)
      | some (_, .pager a va f) => if s.copyDead k then fail good a none else .next (s.copyParks core ch k va f)
      | some (_, .fails a bad) => fail good a bad
      | some (_, .waits (some x)) => .next (s.askLine x)
      | some _ => .next s

end Sys2Proof.Machine
end

