-- ==== Sys2Proof/Machine/Placement.lean ====
section
/-! DEFINITION. The life of a block: placement, retirement, watchdogs, asynchronous traps and interrupts at a group, and
gang pre-emption (01 R17-R24; 05 R110; 12 R216, R220; 16 R278; 20 R301; 21 R303-R311). -/
namespace Sys2Proof.Machine

-- Zeroed storage (02 R49).

/-- Zeroes a range of keys. -/
def Memory.clear (m : List Host.Cell) (lo n : Nat) : List Host.Cell := m.filter fun c => c.1 < lo || lo + n ≤ c.1

def State.zeroRange (s : State) (lo n : Nat) : State :=
  { s with mem := Memory.clear s.mem lo n, poison := s.poison.filter fun u => u < lo || lo + n ≤ u }

-- What a launch hands out (01 R10-R12, R21, R22).

def Launch.blocks (l : Launch) : Nat := l.gx * l.gy * l.gz
def Launch.size (l : Launch) : Nat := l.cx * l.cy

/-- The linear indices of cluster `i`, by rank; clusters count by their rank-0 block. -/
def Launch.members (l : Launch) (i : Nat) : List Nat :=
  let w := l.gx / l.cx
  let h := l.gy / l.cy
  (List.range l.size).map fun k => (l.cx * (i % w) + k % l.cx) + l.gx * ((l.cy * (i / w % h) + k / l.cx) + l.gy * (i / w / h))

/-- The cores that the next cluster of a launch would take at a core: the named one, that core, or its patch's. -/
def Launch.cores (l : Launch) (a : Nat) : List Nat :=
  if !l.coreMap.isEmpty then [l.coreMap.getD l.next 0]
  else if l.size == 1 then [a]
  else (List.range l.size).map fun k => 48 * (a / 48 / 2 * 2 + k / 4) + a % 48 / 4 * 4 + k % 4

/-- The counters that a block of linear index `lin` takes on its core (R278, R279). -/
def Launch.counters (l : Launch) (lin : Nat) : List Nat :=
  (l.grants.flatMap fun w =>
    let g := grantOf w
    if g.kind == 2 then (List.range g.n).map fun i => g.lo + i else [])
  ++ (l.chans.filter fun c => c.receivers.contains lin).map fun c => c.k

def Launch.rings (l : Launch) : List Nat := (l.grants.map grantOf).filterMap fun g => if g.kind == 3 then some g.ring else none

/-- The free group slots of a core. -/
def State.freeSlots (s : State) (c : Nat) : List Nat :=
  ((List.range 16).map fun i => 16 * c + i).filter fun k => (s.grpAt k).status == .idle

/-- Whether a counter belongs to a context's valid range (26 R352). -/
def State.contextCounter (s : State) (core idx : Nat) : Bool :=
  s.sec.contexts.any fun x => (s.counterRanges x.1).any fun r => r.1 == core && r.2.1 ≤ idx && idx < r.2.1 + r.2.2

/-- Whether a core's router is of a channel's tree. -/
def Launch.routes (l : Launch) (core : Nat) : Bool :=
  l.chans.any fun c => (List.range c.tree.length).any fun i =>
    (c.tree.getD i (false, false, 0, 0)).1 && l.coreMap[i]? == some core

/-- Whether a core's router serves a channel of another launch than `n`, of which a block has been placed and the last has
not retired (17 R282). -/
def State.servesOther (s : State) (core n : Nat) : Bool :=
  s.launches.any fun l => l.1 != n && l.2.live != 0 && l.2.next != 0 && l.2.routes core

/-- Whether a core has room for block `lin` of launch `n` (01 R17). -/
def State.fits (s : State) (n lin core : Nat) : Bool :=
  let l := s.launchAt n
  let k := l.kernel
  let bs := s.blocksOn core
  let used := fun (f : Block → Nat) => (bs.map fun b => f b.2).foldl (· + ·) 0
  let cs := l.counters lin
  core < 1536 && s.partOfCore core == l.part
  && bs.all (fun b => (s.launchAt b.2.launch).asid == l.asid)
  && k.groups ≤ (s.freeSlots core).length
  && used (fun b => b.groups * b.nregs) + k.groups * k.regs ≤ 2048
  && used (fun b => b.scratch) + k.scratch ≤ 262144
  && used (fun b => b.tiles) + k.tiles ≤ 262144
  && used (fun b => b.wbuf) + k.wbuf ≤ 131072
  && used (fun b => b.ntables) + k.tables ≤ 32
  && used (fun b => b.moored) + k.lines ≤ 64
  && cs.all (fun i => !bs.any (fun b => b.2.counters.contains i) && !s.contextCounter core i)
  && l.rings.all (fun r => !((s.coreAt core).ring r).live)
  && (l.chans.isEmpty || !s.servesOther core n)

-- Handles (16 R278; 25 Table 25-5).

def handleWord (kind core slot ring lo cnt : Nat) : W64 :=
  BitVec.ofNat 64 (1 + 2 * kind + 2 ^ 10 * (core / 48) + 2 ^ 15 * (core % 48) + 2 ^ 21 * slot + 2 ^ 25 * ring + 2 ^ 28 * lo
    + 2 ^ 36 * cnt)

/-- The handles of a block from its launch's grants and channels, given the keys of its cluster's blocks by rank. -/
def Launch.handles (l : Launch) (lin core : Nat) (keys : List Nat) : Map W64 :=
  (l.grants.flatMap fun w =>
    let g := grantOf w
    if g.kind == 4 then [(g.h, handleWord 2 g.core 0 0 g.lo (g.n - 1))]
    else (List.range keys.length).map fun k =>
      let key := keys.getD k 0
      (g.h + k, match g.kind with
        | 1 => handleWord 1 (key / 16) (key % 16) 0 0 0
        | 2 => handleWord 2 (key / 16) 0 0 g.lo (g.n - 1)
        | _ => handleWord 3 (key / 16) (key % 16) g.ring 0 0))
  ++ (l.chans.filter fun c => c.receivers.contains lin).map fun c => (c.hc, handleWord 2 core 0 0 c.k 0)

/-- A group at its start (01 R13; 02 R34-R48; 16 R272). The save pointer of its slot stays. -/
def State.newGroup (s : State) (l : Launch) (blk idx slot : Nat) : Group :=
  let lin := (s.blkAt blk).lin
  let own : W64 := BitVec.ofNat 64 (0xF3 * 2 ^ 56 + (lin * l.kernel.groups + idx) * 64 * 2 ^ 24 + l.kernel.priv)
  { status := .live, blk := blk, idx := idx, x := [(2, own), (10, l.args), (11, BitVec.ofNat 64 l.join)], pc := l.kernel.hart
    lpc := l.kernel.lane, nregs := l.kernel.regs, fmode := l.fmode
    mtvec := Config.monitorEntry (slot / 16) &&& 0xFFFFFFFFFFFFFFFC, mcycle := 0 - BitVec.ofNat 64 s.cycles
    monsave := (s.grpAt slot).monsave }

/-- The slots that a block of a launch takes on a core: the lowest free ones. -/
def State.slotsFor (s : State) (l : Launch) (core : Nat) : List Nat := (s.freeSlots core).take l.kernel.groups

/-- The record of a block at its start. -/
def State.newBlock (s : State) (n lin rank key : Nat) (keys : List Nat) : Block :=
  let l := s.launchAt n
  let k := l.kernel
  { launch := n, lin := lin, groups := k.groups, slots := s.slotsFor l (key / 16), rank := rank
    nregs := k.regs, scratch := k.scratch, tiles := k.tiles, wbuf := k.wbuf, ntables := k.tables
    moored := k.lines, handles := l.handles lin (key / 16) keys, counters := l.counters lin, rings := l.rings
    idleSince := s.tide.toNat }

/-- A core with a block's counters zeroed and its rings configured, its lane L1 empty. -/
def Core.received (c : Core) (l : Launch) (lin key : Nat) : Core :=
  let rings := (l.grants.map grantOf).foldl (fun m g =>
    if g.kind == 3 then m.set g.ring ({ live := true, owner := key, base := g.base, slots := g.slots } : Ring) else m) c.rings
  { c with counters := (l.counters lin).foldl (fun m i => m.set i 0) c.counters, rings := rings, l1 := [] }

/-- A block's place made ready: its storage is zeroed, its counters are zeroed, its rings configured, the lane L1 emptied,
its barriers fresh (02 R49, R53; 13 R228; 16 R278). -/
def State.readied (s : State) (n lin rank key : Nat) (keys : List Nat) : State :=
  let l := s.launchAt n
  let k := l.kernel
  let core := key / 16
  let t := ((s.zeroRange (scratchKey key 0) k.scratch).zeroRange (tileKey key 0) k.tiles).zeroRange (wbufKey key 0) k.wbuf
  let u := (t.setCoreAt core ((s.coreAt core).received l lin key)).setBlkAt key (s.newBlock n lin rank key keys)
  { u with bars := [key * 4, key * 4 + 1].foldl (fun m i => m.erase i) u.bars }

/-- Places block `lin`, rank `rank`, of launch `n` at the block key `key`, and starts its groups. -/
def State.placeBlock (s : State) (n lin rank key : Nat) (keys : List Nat) : State :=
  let l := s.launchAt n
  let slots := s.slotsFor l (key / 16)
  let v := s.readied n lin rank key keys
  let w := ((List.range slots.length).zip slots).foldl (fun w p => w.setGrpAt p.2 (v.newGroup l key p.1 p.2)) v
  w.trace key 2 l.asid (lin + 2 ^ 64 * l.join)

/-- The queue that a partition serves next: of the highest priority among the head launches, the first from that
priority's pointer on (01 R21). -/
def State.nextQueue (s : State) (p : Nat) : Option (Nat × Nat × Nat) :=
  let pt := s.part p
  let head := fun q => (Map.get [] pt.queues q).head?
  let prio := fun q => (head q).map fun n => (s.launchAt n).prio
  match (List.range 8).reverse.find? fun r => (List.range 64).any fun q => prio q == some r with
  | none => none
  | some r =>
    match ((List.range 64).map fun i => (Map.get 0 pt.pointers r + i) % 64).find? fun q => prio q == some r with
    | none => none
    | some q => (head q).map fun n => (q, r, n)

/-- After a placement from queue `q` (01 R21; 16 R274, R275): the launch's next block, the end of its place in queue and
pool with its last one, and the pointer. -/
def State.handedOut (s : State) (p q r n : Nat) : State :=
  let l := s.launchAt n
  let pt := s.part p
  let last := (l.next + 1) * l.size == l.blocks
  let t := { s with launches := s.launches.set n { l with next := l.next + 1, pooled := l.pooled && !last } }
  t.setPart p { pt with
    pointers := pt.pointers.set r ((q + 1) % 64)
    queues := if last then pt.queues.set q ((Map.get [] pt.queues q).drop 1) else pt.queues
    pool := if last && l.pooled then pt.pool - 1 else pt.pool }

/-- BLOCK_PLACEMENT: core `a` takes the head block or cluster of its partition, if every needed core has room (01 R21,
R22). -/
def execBlockPlacement (s : State) : Out :=
  let p := s.partOfCore s.input.a
  match s.nextQueue p with
  | none => .next s
  | some (q, r, n) =>
    let l := s.launchAt n
    let cores := l.cores s.input.a
    let lins := if l.coreMap.isEmpty then l.members l.next else [l.next]
    let pairs := lins.zip cores
    if s.gangSt p != 0 || (s.dead.find l.asid).isSome || !cores.contains s.input.a
       || !pairs.all fun x => s.fits n x.1 x.2 then .next s
    else
      let keys := cores.map fun c => (s.freeSlots c).headD 0
      let t := ((List.range lins.length).zip lins).foldl (fun t x => t.placeBlock n x.2 x.1 (keys.getD x.1 0) keys) s
      .next (t.handedOut p q r n)

-- Retirement (01 R20; 10 R185; 13 R243).

/-- Whether everything that a retiring block started has come to its end. -/
def State.drained (s : State) (blk : Nat) : Bool :=
  let b := s.blkAt blk
  let c := s.coreAt (blk / 16)
  c.ops.all (fun o => o.blk != blk)
  && (List.range 8).all (fun ch => (c.chan ch).copies.all fun k => k.blk != blk)
  && b.slots.all (fun k => !(s.grpAt k).hartInFlight && !(s.grpAt k).laneInFlight)
  && s.windows.all (fun w => w.heldBy.all fun h => !b.slots.contains h.2.2)
  && s.net.all fun m => !b.slots.contains m.group

/-- The reduction messages of a launch, which end with its last block (17 R283). -/
def Msg.reduces (m : Msg) (launch : Nat) : Bool :=
  match m.body with
  | .redInput _ k _ _ _ | .redResult _ k _ _ => k / 16 == launch
  | _ => false

/-- Returns a block's resources: its slots, rings, counters and tables are free, its doorbells clear. -/
def State.freeBlock (s : State) (blk : Nat) : State :=
  let b := s.blkAt blk
  let core := blk / 16
  let tags := b.tables.filterMap fun t => if t.2.valid then some t.2.tag else none
  let l := s.launchAt b.launch
  let t := { s with blocks := s.blocks.erase blk
                    bars := [blk * 4, blk * 4 + 1].foldl (fun m i => m.erase i) s.bars
                    launches := s.launches.set b.launch { l with live := l.live - 1 } }
  let u := tags.foldl (fun u tag => u.dropTag core tag) t
  let v := b.slots.foldl (fun v k => v.setGrpAt k { monsave := (v.grpAt k).monsave }) u
  let c := v.coreAt core
  let w := v.setCoreAt core { c with rings := c.rings.map fun r => (r.1, if r.2.owner == blk then {} else r.2) }
  if l.live ≤ 1 then
    { w with cores := w.cores.map fun c => (c.1, { c.2 with red := c.2.red.filter fun r => r.1 / 16 != b.launch })
             net := w.net.filter fun m => !m.reduces b.launch }
  else w

/-- The exit word and the join counter of a launch take a block's end, each in one read-modify-write at its home (R185;
19 R284). A line that a host holds is asked back first (23 R318, R319): then only the request goes out. -/
def State.joinEnd (s : State) (l : Launch) (code : Nat) : Option (Except State State) :=
  match s.translate l.asid (l.join + 8) .both, s.translate l.asid l.join .both with
  | .ok (x, _), .ok (j, _) =>
    match (s.lineWait x 8 true).or (s.lineWait j 8 true) with
    | some w => some (.error (s.askLine w))
    | none =>
      let t := (s.flushHome x).flushHome j
      let u := t.writeAs l.asid x (leBytes 8 (leNat (t.worldBytes l.asid x 8) ||| code))
      some (.ok (u.writeAs l.asid j (leBytes 8 (leNat (u.worldBytes l.asid j 8) + 2 ^ 64 - 1))))
  | _, _ => none

/-- Every image of a dead context has been saved (21 R303; 28 R369). -/
def State.allSaved (s : State) (asid : Nat) : Bool :=
  s.blocks.all fun b => (s.launchAt b.2.launch).asid != asid || b.2.saved1
    || b.2.slots.all fun k => (s.grpAt k).status != .live

/-- BLOCK_RETIREMENT: block `a`, drained, writes back what is dirty, ends its part of the launch, and is freed. A block of
a dead context is freed once every image of the context is saved, and counts nothing (01 R20; 21 R303). -/
def execBlockRetirement (s : State) : Out :=
  let blk := s.input.a
  match s.blocks.find blk with
  | none => .next s
  | some b =>
    let l := s.launchAt b.launch
    if (s.dead.find l.asid).isSome then
      if s.allSaved l.asid && s.drained blk then .next (s.freeBlock blk) else .next s
    else if b.state != .retiring || !s.drained blk then .next s
    else match s.writeBackAll (b.slots.flatMap s.dirtyBy) with
      | .error _ => .next s
      | .ok t => if t.evicting (blk / 16) then .next t else
        let code := b.slots.foldl (fun acc k => acc ||| (s.grpAt k).exitCode.toNat) 0
        match t.joinEnd l code with
        | none => .next s
        | some (.error u) => .next u
        | some (.ok u) => .next ((u.trace blk 3 l.asid (b.lin + 2 ^ 64 * l.join)).freeBlock blk)

-- Watchdogs (05 R110; 21 R303, R308).

/-- Whether a block is parked (01 Table 1-3). -/
def State.parked (s : State) (blk : Nat) : Bool :=
  (s.blkAt blk).slots.all fun k => (s.grpAt k).status != .live || (s.grpAt k).faultWait

/-- A hart in cross-wait (05 R110): what it waits for still stands. -/
def Group.hartCross (g : Group) : Bool :=
  match g.hartWait with
  | some .fbqEmpty => g.fbq.isEmpty
  | some .stqEmpty => g.stq.isEmpty
  | some .scqFull => 16 ≤ g.scq.length
  | some .ctqFull => 16 ≤ g.ctq.length
  | some (.queueLoad q) => g.slip ≤ g.runAhead || 8 ≤ g.qlen q
  | some .join | some .exit => true
  | _ => false

/-- A compute stream in cross-wait. One that has ended is, whether or not a monitor has held it since. -/
def Group.laneCross (g : Group) : Bool :=
  if g.cendDone then g.hartWait != some .exit
  else match g.laneWait with
  | some (.ldqEmpty q) => (Map.get [] g.ldq q).isEmpty
  | some .scqEmpty => g.scq.isEmpty
  | some .ctqEmpty => g.ctq.isEmpty
  | some .stqFull => 8 ≤ g.stq.length
  | some .fbqFull => 8 ≤ g.fbq.length
  | some .join => g.hartWait != some .join
  | _ => false

/-- DECOUPLING_DEADLOCK: both streams of group `a` have been in cross-wait for 65,536 cycles (R110). -/
def execDecouplingDeadlock (s : State) : Out :=
  let k := s.input.a
  let g := s.grpAt k
  if !s.running k || s.parked g.blk || (g.held && !g.cendDone) || g.faultWait || !g.hartCross || !g.laneCross
     || s.cycles < max g.hartSince g.laneSince + 65536 then .next s
  else
    let t := s.setGrpAt k { g with held := true, laneWait := none, mlpc := g.lpc, mlcause := 24, mlmask := 0, mlval := 0 }
    .next (t.trapAt k 25 false g.qocc)

/-- The causes of the fatal errors that the device itself raises; a trap's cause is its mcause. -/
def watchdogCause : Nat := 256
def remoteCause : Nat := 257
def storageCause : Nat := 258
def wakeCause : Nat := 259
def interfaceCause : Nat := 260

/-- WATCHDOG_EXPIRY: no instruction of the running block `a` has retired for its context's idle limit (R303). -/
def execWatchdogExpiry (s : State) : Out :=
  match s.blocks.find s.input.a with
  | none => .next s
  | some b =>
    let asid := (s.launchAt b.launch).asid
    let limit := s.le (s.ctxEntry asid + 256) 8
    if b.state != .running || s.parked s.input.a || limit == 0 || s.tide.toNat < b.idleSince + limit then .next s
    else .next (s.fatal asid watchdogCause s.input.a 0)

/-- REMOTE_WAIT_TIMEOUT: group `a` has waited in `z.mbwait` on another device's counter beyond its context's limit, and
the counter's home holds no absence token (R308). -/
def execRemoteWaitTimeout (s : State) : Out :=
  let k := s.input.a
  let g := s.grpAt k
  let asid := (s.launchAt (s.blkAt g.blk).launch).asid
  let limit := s.le (s.ctxEntry asid + 264) 8
  match g.hartWait with
  | some (.mailbox key _) =>
    if !s.running k || key < 256 * 2 ^ 16 || limit == 0 || Map.get 0 s.absent key != 0
       || s.tide.toNat ≤ g.hartTide + limit then .next s
    else .next (s.fatal asid remoteCause k (g.xr (g.hword.extractLsb' 15 5)))
  | _ => .next s

-- Traps and interrupts at a group (12 R216, R220; 20 R299).

/-- ASYNC_TRAP_TAKEN: group `a` takes its next pending cause, in U-mode. -/
def execAsyncTrapTaken (s : State) : Out :=
  let k := s.input.a
  if s.running k && (s.grpAt k).nextAsync.isSome then .next ((s.focus k).takeAsync) else .next s

/-- Whether a message is the ring message of group `k`. -/
def Msg.ringOf (m : Msg) (k : Nat) : Bool :=
  match m.body with
  | .ring _ _ _ => m.src == k
  | _ => false

/-- A hart's request to a distant home is abandoned (05 R102; 21 R305): nothing of it has been performed. A ring message
that its ring has taken is not: its answer is on the way. -/
def State.abandon (s : State) (k : Nat) : Option State :=
  let g := s.grpAt k
  match g.hartReq with
  | none => some s
  | some (.send _ _ _) =>
    if s.net.any fun m => m.ringOf k then
      some { s.setGrpAt k { g with hartReq := none } with net := s.net.filter fun m => !m.ringOf k }
    else none
  | some _ => some (s.setGrpAt k { g with hartReq := none })

/-- EXTERNAL_INTERRUPT: the doorbell interrupt enters the core monitor of group `a`, where it is enabled; a wait, a hold or
a request is abandoned. -/
def execExternalInterrupt (s : State) : Out :=
  let k := s.input.a
  let g := s.grpAt k
  if s.running k && g.mip &&& g.mie != 0 && (g.mode == .u || mstatusMie g.mstatus) then
    match s.abandon k with
    | some t => .next (t.trapAt k 11 true 0)
    | none => .next s
  else .next s

/-- TIDEWAIT_REACHED: group `a`, which waits in `z.tidewait`, is ready again once the Tide has reached its target. -/
def execTidewaitReached (s : State) : Out :=
  let k := s.input.a
  let g := s.grpAt k
  if g.hartWait == some .tide && (g.xr (g.hword.extractLsb' 15 5)).ule s.tide then .next (s.setGrpAt k { g with hartWait := none })
  else .next s

-- Gang pre-emption (21 R304-R311).

/-- The count of a write of `val` to GANGCTL whose reserved bits are not zero (00 R5). -/
def State.gangReserved (s : State) (off : Nat) : State :=
  if s.input.val >>> 19 == 0 then s else s.countReg off

/-- GANG_SUSPEND: cmd 1 written to partition `a`'s GANGCTL; ignored and counted but in state 0. -/
def execGangSuspend (s : State) : Out :=
  let p := s.input.a % 4
  let off := subBlock p 0
  if s.gangSt p == 0 && s.mayReach s.input.who off then
    .next ((s.gangReserved off).setPart p { s.part p with gangSt := 1 })
  else .next (s.countReg off)

/-- Pre strikes one block: every slot's doorbell, and the slot that saves part 1 (R300). -/
def State.strike (s : State) (blk : Nat) : State :=
  let b := s.blkAt blk
  let t := b.slots.foldl (fun u k =>
    let g := u.grpAt k
    u.setGrpAt k { g with mondb := { g.mondb with pre := true }, saved0 := false }) s
  (t.setBlkAt blk { t.blkAt blk with saved1 := false }).markP1 blk

/-- GANG_STRIKE: the Tide of core `a` has reached T; its running and parked blocks are struck, its copies stop at their
checkpoints and held requests pass (R304, R306; 27 R358). -/
def execGangStrike (s : State) : Out :=
  let core := s.input.a
  let p := s.partOfCore core
  let hit := (s.blocksOn core).filter fun b =>
    b.2.state == .running && b.2.slots.all fun k => !(s.grpAt k).mondb.pre
  if (s.part p).gangSt != 1 || s.tide.ult (s.reg (subBlock p 8)) || hit.isEmpty then .next s
  else
    let t := (List.range 8).foldl (fun u ch => u.checkpoint core ch) s
    let u := hit.foldl (fun u b => u.strike b.1) t
    .next (u.letThrough core)

/-- A group as its hart starts after a suspension: in M-mode at the monitor entry, with res set (R311). -/
def Group.resumed (g : Group) (entry : W64) : Group :=
  { g with mode := .m, pc := entry, mtvec := entry, mcounteren := 7, mcause := 0x800000000000000B, mstatus := 0
           held := true, hartWait := none, laneWait := none, resv := none, mondb := { g.mondb with res := true } }

/-- One block resumes: it runs again where it was, its part 1 still to be restored, its absence tokens withdrawn. -/
def State.resumeBlock (s : State) (blk : Nat) : State :=
  let b := s.blkAt blk
  let core := blk / 16
  let t := s.setBlkAt blk { b with state := .running, needPart1 := true, saved1 := false, idleSince := s.tide.toNat }
  let u := t.setCoreAt core { t.coreAt core with l1 := [], needWide := true }
  let entry := Config.monitorEntry core &&& 0xFFFFFFFFFFFFFFFC
  let v := b.slots.foldl (fun v k => if (v.grpAt k).status == .live then v.setGrpAt k ((v.grpAt k).resumed entry) else v) u
  let w := v.trace blk 5 (v.launchAt b.launch).asid (v.reg (subBlock (v.partOfCore core) 8)).toNat
  { w with net := w.net ++ b.peerCounters.map fun d => ⟨blk, d.1, .absence d.2 true⟩ }

/-- GANG_RESUME: cmd 2 written to partition `a`'s GANGCTL; ignored and counted but in state 2. -/
def execGangResume (s : State) : Out :=
  let p := s.input.a % 4
  let off := subBlock p 0
  if s.gangSt p == 2 && s.mayReach s.input.who off then
    let t := (s.gangReserved off).setPart p { s.part p with gangSt := 3 }
    .next (((s.blocksOf p).filter fun b => b.2.state == .suspended).foldl (fun u b => u.resumeBlock b.1) t)
  else .next (s.countReg off)

end Sys2Proof.Machine
end

