-- ==== Sys2Proof/Machine/Device.lean ====
section
/-! DEFINITION. Notices, shootdowns, the breakwater's refill and passing, storage errors, and writes to registers (20
R293-R297; 21 R300, R303; 26 R347-R351; 27 R355-R360; 28 R361-R364). -/
namespace Sys2Proof.Machine

-- Notices (20 R296).


/-- The jetty cores stand as cores 1,984 onward (16 R273). -/
def State.jetty (s : State) (j : Nat) : Jetty := Map.get {} s.jetties j
def State.setJetty (s : State) (j : Nat) (v : Jetty) : State := { s with jetties := s.jetties.set j v }

/-- Whether a notice names a stopped party with its ticket. -/
def State.noticeFits (s : State) (n : Notice) : Bool :=
  let g := s.grpAt n.grp
  if 1984 ≤ n.grp / 16 then
    let j := s.jetty (n.grp / 16 - 1984)
    n.src == 1 && j.held.isSome && j.wake == n.ticket
  else match n.src with
  | 1 => g.holdA && g.wakeA == n.ticket
  | 2 => match ((s.coreAt (n.grp / 16)).chan n.chan).copies with
    | k :: _ => k.grp == n.grp && k.ticket == some n.ticket
    | [] => false
  | r => g.holdC == some (r == 3) && g.wakeC == n.ticket

/-- A jetty core's wait ends; a refused page fails the launch that waited (16 R273). -/
def Jetty.woken (j : Jetty) (fail : Bool) : Jetty :=
  { j with held := none, failed := if fail then j.failed ++ j.held.toList else j.failed }

/-- Wakes the party that a notice names. With fail it ends the wait: the doorbell says so, and a copy's context takes a
fatal error (R296, R301), in which the copy ends (28 R369). -/
def State.wake (s : State) (n : Notice) : State :=
  let g := s.grpAt n.grp
  let core := n.grp / 16
  let t := (s.setBlkAt g.blk { s.blkAt g.blk with idleSince := s.tide.toNat }).l1Clear core
  if 1984 ≤ core then
    s.setJetty (core - 1984) ((s.jetty (core - 1984)).woken n.fail)
  else match n.src with
  | 1 => t.setGrpAt n.grp { g with holdA := false, mondb := { g.mondb with fla := g.mondb.fla || n.fail } }
  | 2 =>
    let c := s.coreAt core
    let ch := c.chan n.chan
    match ch.copies with
    | k :: rest =>
      let u := s.setCoreAt core { c with chans := c.chans.set n.chan { ch with copies := { k with ticket := none } :: rest } }
      if n.fail then u.fatal (u.launchAt (u.blkAt k.blk).launch).asid wakeCause k.grp 0 else u
    | [] => s
  | _ => t.setGrpAt n.grp { g with holdC := none, mondb := { g.mondb with flc := g.mondb.flc || n.fail } }

/-- Whether a notice's party belongs to a block that is suspended or not yet restored. -/
def State.noticeHeld (s : State) (n : Notice) : Bool :=
  n.grp / 16 < 1984 && (if n.src == 2 then s.coreFrozen (n.grp / 16) else s.grpFrozen n.grp)

def State.pagerQueue (s : State) (p q : Nat) : PagerQueue := Map.get {} (s.part p).pqs q
def State.setPagerQueue (s : State) (p q : Nat) (v : PagerQueue) : State :=
  s.setPart p { s.part p with pqs := (s.part p).pqs.set q v }

/-- NOTICE_WRITE: the notice `val` at the notice port of queue `b` of partition `a`; with `flag`, the `c`-th notice that
the queue has taken from its port, or holds for a suspended party, is delivered. -/
def execNoticeWrite (s : State) : Out :=
  let p := s.input.a % 4
  let q := s.input.b % 64
  let pq := s.pagerQueue p q
  let put := fun (t : State) v => t.setPagerQueue p q v
  if s.input.flag then
    match pq.held[s.input.c]? with
    | some v =>
      let rest := pq.held.eraseIdx s.input.c
      if s.noticeHeld (noticeOf v) then .next s
      else if s.noticeFits (noticeOf v) then .next ((put s { pq with held := rest }).wake (noticeOf v))
      else .next (put s { pq with held := rest, stale := pq.stale + 1 })
    | none => .next s
  else
    let n := noticeOf s.input.val
    if s.noticeHeld n then .next (put s { pq with held := pq.held ++ [s.input.val] })
    else if s.noticeFits n then .next (s.wake n)
    else .next (put s { pq with stale := pq.stale + 1 })

-- Shootdowns (13 R241; 20 R293).

/-- Whether a held translation or sector is under a shootdown. -/
def Shoot.hits (r : Shoot) (asid : Nat) (glob : Bool) (va size : Nat) : Bool :=
  (if glob then r.glob else asid == r.asid) && (r.all || (va < r.va + r.len && r.va < va + size))

/-- Writes back the dirty sectors of a shootdown under the old entries, so that each succeeds (R293). -/
def State.shootDirty (s : State) : List DirtySector → State
  | [] => s
  | d :: rest => ((s.sectorHome d d.pa).hostEvict d.core d.pa).shootDirty rest

/-- As `hits`, for what does not record whether its page is global. -/
def Shoot.hitsAny (r : Shoot) (asid va size : Nat) : Bool := r.hits asid false va size || (r.glob && r.hits 0 true va size)

/-- A core's caches without the range of a shootdown, the redirect cache among them. -/
def Core.shot (c : Core) (r : Shoot) : Core :=
  { c with l1 := c.l1.filter fun x => !r.hits x.asid x.glob x.va 128
           code := c.code.filter fun x => !r.hitsAny x.asid x.va 4
           fills := c.fills.filter fun f => !r.hits f.1 (f.1 == 0) f.2.1 128
           redirects := c.redirects.filter fun x => !r.hitsAny x.1 (4096 * x.2) 4096 }

/-- R241: dirty sectors are written back, then every translation, sector, code word and fill of the range is gone, and
the doorbell of each slot of the ASID says so. -/
def State.shootdown (s : State) (r : Shoot) : State :=
  let t := s.shootDirty (s.dirty.filter fun d => r.hits d.asid d.glob d.va 128)
  let gone := fun (e : TlbEntry) => r.hits e.asid (e.asid == 0) e.va e.size
  let u := { t with tlb := t.tlb.filter fun e => !gone e, l2 := t.l2.filter fun e => !gone e }
  let v := { u with cores := u.cores.map fun (c : Nat × Core) => (c.1, c.2.shot r) }
  { v with groups := v.groups.map fun (g : Nat × Group) => (g.1,
    if g.2.status == .live && (v.launchAt (v.blkAt g.2.blk).launch).asid == r.asid then
      { g.2 with mondb := { g.2.mondb with sdn := true } } else g.2) }

/-- The shootdown that a Table 20-2 record requests. -/
def shootOf (v : BitVec 256) (e : ShootEnd) : Shoot :=
  let n := v.toNat
  let all := bits n 16 16 == 1
  let va := bits n 120 64
  let len := bits n 191 128
  { asid := bits n 15 0, all := all, glob := bits n 17 17 == 1, va := va, len := len, ending := e
    bad := bits n 63 18 != 0 || bits n 127 121 != 0 || bits n 15 0 == 0
           || (!all && (va % 4096 != 0 || len % 4096 != 0 || len == 0 || 2 ^ 57 < va + len)) }

/-- SHOOTDOWN_REQUEST: the record `req` is written to the shootdown queue of partition `a`; its completion word is a
physical address (log 12). -/
def execShootdownRequest (s : State) : Out :=
  let off := subBlock (s.input.a % 4) 0x20
  if s.mayReach s.input.who off then
    .next { s with shoots := s.shoots ++ [shootOf s.input.req (.word (bits s.input.req.toNat 255 192))] }
  else .next (s.countReg off)

-- Host queue completions (23 R320).

def State.hq (s : State) (p h : Nat) : HostQueue := Map.get {} (s.part p).hqs h
def State.setHq (s : State) (p h : Nat) (v : HostQueue) : State := s.setPart p { s.part p with hqs := (s.part p).hqs.set h v }
/-- Entries of a pair's rings. -/
def HostQueue.size (q : HostQueue) : Nat := 2 ^ ringLog (bits q.ctl.toNat 25 22)

/-- Where a pair's next completion goes. -/
def HostQueue.completionKey (q : HostQueue) : Nat := q.comp + 16 * (q.compTail.toNat % q.size)

/-- A completion raises an interrupt or none, freely (log 14): sent while the lease is held, else kept pending (R322,
R323). -/
def State.raiseIrq (s : State) (p h : Nat) : State :=
  if Config.freeChoice s.moves 1012 % 2 == 0 then s
  else if s.host.lease.st == 1 then { s with host := { s.host with sent := s.host.sent ++ [32 * p + h] } }
  else { s with host := { s.host with irqs := s.host.irqs ++ [32 * p + h] } }

/-- Writes a completion: its status, the phase bit, which inverts at every wrap, and the position of the entry it
answers (log 12). -/
def State.complete (s : State) (p h pos status : Nat) : State :=
  let q := s.hq p h
  let n := q.compTail.toNat
  let phase := (n / q.size + 1) % 2
  let e := leBytes 16 (status + 2 ^ 16 * phase + 2 ^ 32 * pos)
  ((s.performStore q.completionKey e).setHq p h { q with compTail := q.compTail + 1 }).raiseIrq p h

/-- The device's own accesses at the homes `l` of its writes: a line that a host holds is asked back first (23 R318,
R319), and then only the request goes out. -/
def whenLines (s : State) (l : List (Nat × Nat)) (k : Out) : Out :=
  match l.findSome? fun x => s.lineWait x.1 x.2 true with
  | some w => .next (s.askLine w)
  | none => k

/-- The leaf entries of a page, of which a 64 KiB page has 16 and a 64 MiB page 32: the address of the first and their
number, where the walk finds a leaf (20 R288). -/
def leafAt (s : State) (va : Nat) : Nat → Nat → Option (Nat × Nat)
  | 0, _ => none
  | level + 1, table =>
    let i := va / 2 ^ (12 + 9 * level) % 512
    let e := s.le (table + 8 * i) 8
    let n := pageSize level (bits e 8 8 == 1) / pageSize level false
    if bits e 0 0 == 0 then none
    else if bits e 1 1 == 1 then some (table + 8 * (i / n * n), n) else leafAt s va level (bits e 55 16 * 4096)

/-- The leaf entries of a page of an ASID. -/
def State.leafOf (s : State) (asid va : Nat) : Option (Nat × Nat) :=
  let e := s.le ((s.reg (pd0 0x108)).toNat / 4096 * 4096 % 2 ^ 52 + 8 * asid) 8
  if asid == 0 || bits e 0 0 == 0 then none else leafAt s va 5 (bits e 55 16 * 4096)

/-- Writes own of a page's leaf entries (20 Table 20-1). -/
def State.setOwn (s : State) (a : Nat × Nat) (own : Nat) : State :=
  (List.range a.2).foldl (fun t i =>
    let e := t.le (a.1 + 8 * i) 8
    t.performStore (a.1 + 8 * i) (leBytes 8 (e - 64 * bits e 7 6 + 64 * own))) s

/-- The homes that the end of a shootdown writes. -/
def State.endKeys (s : State) : ShootEnd → List (Nat × Nat)
  | .word key => [(key, 8)]
  | .command p h _ => [((s.hq p h).completionKey, 16)]
  | .take _ _ _ _ _ => []
  | .taken p h _ asid va => ((s.hq p h).completionKey, 16) :: ((s.leafOf asid va).map fun a => (a.1, 8 * a.2)).toList

/-- What a shootdown that completes tells the one that asked for it (R293). A completion word outside every window is
not written (log 12). A PAGE_TAKE goes on to its last stage, own := 2 and its completion, in a step of its own (R298). -/
def State.endShoot (s : State) (st : Nat) (r : Shoot) : State :=
  match r.ending with
  | .word key => if windowOk key 8 then s.performStore key (leBytes 8 st) else s
  | .command p h pos => s.complete p h pos st
  | .take p h pos asid va => { s with shoots := s.shoots ++ [{ r with ending := .taken p h pos asid va }] }
  | .taken p h pos asid va =>
    (match s.leafOf asid va with
     | some a => s.setOwn a 2
     | none => s).complete p h pos 0

/-- Whether a message is a contribution to the window at a key. -/
def Msg.rankAt (m : Msg) (key : Nat) : Bool :=
  match m.body with
  | .rank k _ _ => k == key
  | _ => false

/-- Whether ranked contributions that translated under an old entry are still to be applied (13 R241). -/
def State.shootWaits (s : State) (r : Shoot) : Bool :=
  s.windows.any fun w => match w.va with
    | some va => r.hitsAny w.asid va 4 && (!w.heldBy.isEmpty || s.net.any fun m => m.rankAt w.key)
    | none => false

def ShootEnd.taken? : ShootEnd → Bool
  | .taken _ _ _ _ _ => true
  | _ => false

/-- SHOOTDOWN_DONE: the `a`-th shootdown completes; a bad request changes nothing but its status. -/
def execShootdownDone (s : State) : Out :=
  match s.shoots[s.input.a]? with
  | none => .next s
  | some r =>
    let t := { s with shoots := s.shoots.eraseIdx s.input.a }
    whenLines s (s.endKeys r.ending)
      (if r.bad then .next (t.endShoot 2 r)
       else if r.ending.taken? then .next (t.endShoot 1 r)
       else if s.shootWaits r then .next s
       else .next ((t.shootdown r).endShoot 1 r))

-- The breakwater (27 R355-R360).

/-- The share of a context (R360). -/
def State.share (s : State) (p asid : Nat) : Nat :=
  let v := s.le ((s.reg (subBlock p 0x2008)).toNat + 2 * asid) 2
  if 256 < v then 0 else v

/-- The active cores of a context in a partition, in increasing number: those with a running or parked block. -/
def State.activeCores (s : State) (p asid : Nat) : List Nat :=
  (List.range 1536).filter fun c =>
    s.blocks.any fun b => b.1 / 16 == c && b.2.state == .running && (s.launchAt b.2.launch).asid == asid
      && s.partOfCore c == p

/-- The contexts with a block in a partition. -/
def State.presentContexts (s : State) (p : Nat) : List Nat :=
  ((s.blocksOf p).filterMap fun b => if b.2.state == .running then some (s.launchAt b.2.launch).asid else none).eraseDups

def sumOf (l : List Nat) : Nat := l.foldl (· + ·) 0

/-- The cores of a partition. -/
def State.coresOf (s : State) (p : Nat) : List Nat := (List.range 1536).filter fun c => s.partOfCore c == p

/-- What a context's share of the capacity of group `n` comes to (R355). -/
def State.baseTokens (s : State) (p n asid : Nat) : Nat :=
  let cap := match s.reg (subBlock p (0x2100 + 8 * n)) with
    | 0 => 17297
    | v => v.toNat
  cap * s.share p asid / Nat.max 256 (sumOf ((s.presentContexts p).map (s.share p)))

/-- U: the tokens that the last period left (R356). -/
def State.unusedTokens (s : State) (p n : Nat) : Nat :=
  sumOf ((s.coresOf p).map fun c => Map.get 0 (s.coreAt c).buckets n) + Map.get 0 (s.part p).idle n

/-- The contexts that met an empty bucket of the group, and the sum of their shares. -/
def State.needyContexts (s : State) (p n : Nat) : List Nat := (s.presentContexts p).filter fun c => (s.part p).demand.contains (c, n)
def State.needyShares (s : State) (p n : Nat) : Nat := sumOf ((s.needyContexts p n).map (s.share p))

/-- The grants of one group, core by core: each context's base and its part of U, spread over its active cores (R355,
R356). -/
def State.tokenGrants (s : State) (p n : Nat) : Map Nat :=
  let d := s.needyShares p n
  (s.presentContexts p).flatMap fun c =>
    let a := s.baseTokens p n c
      + if (s.needyContexts p n).contains c && d != 0 then s.unusedTokens p n * s.share p c / d else 0
    let l := s.activeCores p c
    (List.range l.length).zip l |>.map fun x => (x.2, a / l.length + if x.1 < a % l.length then 1 else 0)

/-- The refill of one group: every core's bucket is set to its grant, and U is recorded (R355, R356). -/
def State.refillGroup (s : State) (p n : Nat) : State :=
  let grants := s.tokenGrants p n
  let t := (s.coresOf p).foldl (fun t c =>
    let v := t.coreAt c
    if Map.get 0 v.buckets n == Map.get 0 grants c then t
    else t.setCoreAt c { v with buckets := v.buckets.set n (Map.get 0 grants c) }) s
  let away := (s.sec.contexts.map fun c => c.1).filter fun c => !(s.presentContexts p).contains c
  let off := subBlock p (0x2180 + 8 * n)
  let u := BitVec.ofNat 64 (s.unusedTokens p n % 2 ^ 32 + if s.needyShares p n != 0 then 2 ^ 32 else 0)
  ({ t with regs := t.regs.set off u }).setPart p
    { t.part p with idle := (t.part p).idle.set n (sumOf (away.map (s.baseTokens p n))) }

/-- BREAKWATER_REFILL: the next period of partition `a` starts. BWCTL is read here and holds until the next refill
(R360); where it is off, what is held is let through. -/
def execBreakwaterRefill (s : State) : Out :=
  let p := s.input.a % 4
  if s.cycles / 1024 ≤ (s.part p).period then .next s
  else if (s.reg (subBlock p 0x2000)).getLsbD 0 == false then
    .next ((s.coresOf p).foldl State.letThrough (s.setPart p
      { s.part p with period := (s.part p).period + 1, metering := false, demand := [] }))
  else
    let t := (List.range 12).foldl (fun t n => t.refillGroup p n) s
    let still := t.cores.flatMap fun c => if t.partOfCore c.1 == p then
        c.2.heldPort.flatMap fun h => (t.blocksOn c.1).take 1 |>.map fun b => ((t.launchAt b.2.launch).asid, h.die) else []
    .next (t.setPart p { t.part p with period := (t.part p).period + 1, metering := true, demand := still.eraseDups })

/-- BREAKWATER_PASS: the held request `b` of core `a`, the head of its FIFO, passes on a token of its group. -/
def execBreakwaterPass (s : State) : Out :=
  let core := s.input.a
  let c := s.coreAt core
  match c.heldPort[s.input.b]? with
  | none => .next s
  | some r =>
    let tok := Map.get 0 c.buckets r.die
    if tok == 0 || (c.heldPort.take s.input.b).contains r then .next s
    else
      let rest := c.heldPort.eraseIdx s.input.b
      .next (s.setCoreAt core { c with
        heldPort := rest, buckets := c.buckets.set r.die (tok - 1), bwSent := c.bwSent + 1
        bwHeld := if rest.isEmpty then c.bwHeld + BitVec.ofNat 64 (s.cycles - c.heldSince) else c.bwHeld })

-- Storage errors (28 R361-R364).

/-- Counts an error of a structure outside the cores, at the counter of its block (R364). -/
def State.countBlockEcc (s : State) (off : Nat) (bad : Bool) : State :=
  let v := s.reg off
  let lo : W32 := v.setWidth 32
  let hi : Half := (v >>> 32).setWidth 16
  let w : W64 := if bad then BitVec.ofNat 64 (lo.toNat + 2 ^ 32 * (countUp hi).toNat)
    else BitVec.ofNat 64 ((upTo32 lo).toNat + 2 ^ 32 * hi.toNat)
  { s with regs := s.regs.set off w }

/-- The counter of the memory that a key lies in: a core's structure, or a block of the die `die` (log 12). -/
def State.countUnit (s : State) (key die : Nat) (bad : Bool) : State :=
  if 2 ^ 55 ≤ key then s.countBlockEcc ((key - 2 ^ 55) / 2 ^ 30 * 0x1000000 + 0xE00400) bad
  else if 2 ^ 54 ≤ key then s.countEcc ((key - 2 ^ 54) / 2 ^ 22) 3 bad
  else if 2 ^ 53 ≤ key then s.countEcc ((key - 2 ^ 53) / 2 ^ 22) 2 bad
  else if 2 ^ 52 ≤ key then s.countEcc ((key - 2 ^ 52) / 2 ^ 22) 1 bad
  else s.countBlockEcc (die % 12 * 0x1000000 + 0xC00400) bad

/-- Adds a poisoned unit. -/
def State.addPoison (s : State) (key : Nat) : State :=
  if s.poison.contains (unitOf key) then s else { s with poison := unitOf key :: s.poison }

/-- A fatal storage error of the context that owns a block (R361). -/
def State.storageFatal (s : State) (blk k : Nat) : State := s.fatal (s.launchAt (s.blkAt blk).launch).asid storageCause k 0

/-- Halts a world: it is marked, and its contexts take a fatal error (R361). -/
def State.haltWorld (s : State) (w : Nat) : State :=
  (s.sec.contexts.filter fun c => c.2 == w).foldl (fun t c => t.fatal c.1 storageCause 0 0)
    { s with sec := { s.sec with halted := w :: s.sec.halted } }

/-- An uncorrectable error of a structure (Table 28-1). -/
def State.eccFate (s : State) : EccSite → State
  | .memUnit key =>
    if 2 ^ 53 ≤ key && key < 2 ^ 55 then
      let blk := key % 2 ^ 53 / 2 ^ 18
      s.storageFatal blk blk
    else s.addPoison key
  | .laneL1 core i => s.setCoreAt core { s.coreAt core with l1 := (s.coreAt core).l1.eraseIdx i }
  | .hartCache i =>
    match s.dirty[i]? with
    | none => s
    | some d => { s.addPoison d.pa with dirty := s.dirty.eraseIdx i }
  | .code core hart => s.setCoreAt core { s.coreAt core with code := (s.coreAt core).code.filter fun x => x.hart != hart }
  | .groupState k _ => s.storageFatal (s.grpAt k).blk k
  | .keyStore slot => match s.sec.worlds.find? fun w => w.2.slot == some slot with
    | some w => s.haltWorld w.1
    | none => s
  | .handleTable blk => match s.sec.contexts.find (s.launchAt (s.blkAt blk).launch).asid with
    | some w => s.haltWorld w
    | none => s

/-- The count that an error of a structure raises. -/
def State.eccCount (s : State) (die : Nat) (bad : Bool) : EccSite → State
  | .memUnit key => s.countUnit key die bad
  | .laneL1 core _ => s.countEcc core 6 bad
  | .hartCache i => match s.dirty[i]? with
    | some d => s.countEcc d.core 7 bad
    | none => s
  | .code core hart => s.countEcc core (if hart then 8 else 9) bad
  | .groupState k i => s.countEcc (k / 16) (i % 6) bad
  | .keyStore _ | .handleTable _ => s

/-- ECC_ERROR: an error strikes at `site`: corrected, or with `flag` uncorrectable; with `flag2` a code line that a
prefetch brought is dropped and counted as latent (R363). -/
def execEccError (s : State) : Out :=
  let i := s.input
  match i.site with
  | .code core hart =>
    if i.flag2 then
      let c := s.coreAt core
      let n := if hart then 1 else 0
      .next (s.setCoreAt core { c with latent := c.latent.set n (upTo32 (Map.get 0 c.latent n)) })
    else .next ((if i.flag then s.eccFate i.site else s).eccCount i.a i.flag i.site)
  | site =>
    let t := s.eccCount i.a i.flag site
    .next (if i.flag then t.eccFate site else t)

-- Register writes (21 R300, R303; 26 R347-R351).

/-- Every bit. -/
def fullMask : W64 := 0xFFFFFFFFFFFFFFFF

/-- KILSET_WRITE: `val` is written to KILSET of core `a`. -/
def execKilsetWrite (s : State) : Out := .next (s.coreRegWrite s.input.who s.input.a 0x300 s.input.val fullMask)

/-- MONDB_CLEAR: `val` is written to MONDB of slot `b` of core `a`. -/
def execMondbClear (s : State) : Out :=
  .next (s.coreRegWrite s.input.who s.input.a (0x100 + 16 * (s.input.b % 16)) s.input.val fullMask)

/-- MBCTR_WRITE: the counter `b` of core `a` is written with the low word of `val`. -/
def execMbctrWrite (s : State) : Out :=
  let k := s.input.b % 256
  let r := regLane (4 * k) 4 s.input.val
  .next (s.coreRegWrite s.input.who s.input.a (0xC00 + 4 * k / 8 * 8) r.1 r.2)

/-- BLKERR_WRITE: the error counter of the block at offset `a` is cleared. -/
def execBlkerrWrite (s : State) : Out :=
  let off := s.input.a % 2 ^ 28 / 8 * 8
  match coreAtOffset off with
  | some c => .next (s.coreRegWrite s.input.who c 8 s.input.val fullMask)
  | none =>
    let b := (blockOf off).1
    if s.mayReach s.input.who b then .next { s with regs := s.regs.set b 0 } else .next (s.countReg off)

/-- PARTDIE_WRITE: the dies' partitions become `val`, unless a die that holds a block would move. -/
def execPartdieWrite (s : State) : Out :=
  let off := pd0 0x100
  let v := s.input.val
  let old := (s.reg off).toNat
  let moves := s.blocks.any fun b =>
    let n := dieOfCore (b.1 / 16)
    bits v.toNat (2 * n + 1) (2 * n) != bits old (2 * n + 1) (2 * n)
  if !s.mayReach s.input.who off || moves then .next (s.countReg off)
  else
    let t := { s with regs := s.regs.set off (v &&& 0xFFFFFF) }
    .next (if v >>> 24 == 0 then t else t.countReg off)

/-- The anti-rollback counter of a thermometer. -/
def fusedCounter (v : W64) : Nat := onesIn 64 v

/-- The thermometer of a counter. -/
def thermometer (n : Nat) : W64 := BitVec.ofNat 64 (2 ^ n - 1)

/-- The least of a list, 0 of an empty one. -/
def least : List Nat → Nat
  | [] => 0
  | x :: rest => rest.foldl Nat.min x

/-- The commit at stage 5 (R347): both fuse banks are burnt up to the least security version that runs. -/
def State.commit (s : State) : State :=
  let v := least s.boot.secvers
  if v ≤ fusedCounter s.boot.fuse0.arb then s
  else { s with boot := { s.boot with fuse0 := { s.boot.fuse0 with arb := thermometer v }
                                      fuse1 := { s.boot.fuse1 with arb := thermometer v } } }

/-- BOOTST_STAGE_WRITE: a system core's write of 5 while the stage is 4; every other is ignored and counted. -/
def execBootstStageWrite (s : State) : Out :=
  let ok := match s.input.who with
    | .sysCore _ => bits s.input.val.toNat 2 0 == 5 && bits s.boot.bootst.toNat 2 0 == 4
    | _ => false
  if ok then
    let t := { s with boot := { s.boot with bootst := (s.boot.bootst &&& ~~~7) ||| 5 } }.commit
    .next (if s.input.val >>> 13 == 0 then t else t.countReg (pd0 0x120))
  else .next (s.countReg (pd0 0x120))

/-- The key of a byte of a boot-store bank: the bank, the image by its kind, the offset (log 12). -/
def bootKey (bank kind off : Nat) : Nat := 2 ^ 58 + (bank * 8 + kind) * 2 ^ 27 + off

/-- BSTORE_WRITE: `bytes` are written at offset `c` of image `b` of bank `a`; in the active bank the write is ignored and
counted (R348). -/
def execBstoreWrite (s : State) : Out :=
  let bank := s.input.a % 2
  let ok := match s.input.who with
    | .sysCore _ => bits s.boot.banksel.toNat 0 0 != bank
    | _ => false
  if ok then .next (s.storeCells (cellsOf (bootKey bank (s.input.b % 8) (s.input.c % 2 ^ 27)) s.input.bytes))
  else .next (s.countReg 0xE008100)

/-- Quayside: the system cores (26 R350). -/
def Agent.quayside : Agent → Bool
  | .sysCore _ => true
  | _ => false

/-- HQ_RESET: Quayside resets pair `b` of partition `a`: the rings are empty again and not broken (23 R320). -/
def execHqReset (s : State) : Out :=
  let p := s.input.a % 4
  let h := s.input.b % 32
  let off := subBlock p (0x1400 + 64 * h)
  let q := s.hq p h
  if !s.input.who.quayside then .next (s.countReg off)
  else if q.broken then
    .next (s.setHq p h { q with broken := false, subHead := 0, subTail := 0, compHead := 0, compTail := 0 })
  else .next s

/-- A waiting record with the Tide of its being written (20 Table 20-3). -/
def stamped (r : List Byte) (tide : W64) : List Byte := r.take 40 ++ leBytes 8 tide.toNat ++ r.drop 48

/-- Writes the records that wait for room in a pager queue's ring, at most `n` of them. -/
def State.drainPager (s : State) (p q : Nat) : Nat → State
  | 0 => s
  | n + 1 =>
    let pq := Map.get {} (s.part p).pqs q
    match pq.waiting with
    | [] => s
    | r :: rest =>
      if 2 ^ pq.log2 ≤ (pq.tail - pq.head).toNat then s
      else
        let t := s.homeWrite (pq.base + 64 * (pq.tail.toNat % 2 ^ pq.log2)) (stamped r s.tide)
        (t.setPart p { t.part p with pqs := (t.part p).pqs.set q { pq with tail := pq.tail + 1, waiting := rest } }).drainPager p q n

/-- A write to a pager queue's registers (Table 26-5; log 13). -/
def State.pagerWrite (s : State) (p q o : Nat) (v : W64) : State :=
  let pq := Map.get {} (s.part p).pqs q
  let put := fun x => s.setPart p { s.part p with pqs := (s.part p).pqs.set q x }
  match o with
  | 0 => put { pq with base := v.toNat % 2 ^ 52 / 4096 * 4096, log2 := ringLog (bits v.toNat 3 0) }
  | 8 => (put { pq with head := v.setWidth 32 }).drainPager p q pq.waiting.length
  | 24 => put { pq with notice := v }
  | _ => s

/-- A write to a host queue pair's control and bases (Table 26-5; log 13). -/
def State.hostQueueWrite (s : State) (p h o : Nat) (v : W64) : State :=
  let q := s.hq p h
  match o with
  | 0 => s.setHq p h { q with ctl := v &&& 0x3FFFFFF }
  | 8 => s.setHq p h { q with sub := v.toNat % 2 ^ 52 }
  | 16 => s.setHq p h { q with comp := v.toNat % 2 ^ 52 }
  | _ => s

/-- A write to a call slot of a system core (25 R329): its record, or its doorbell. -/
def State.callWrite (s : State) (off : Nat) (v : W64) : State :=
  let k := (off - 0xE001000) / 0x100
  let o := off % 0x100
  let c := Map.get {} s.sec.calls k
  let put := fun x => { s with sec := { s.sec with calls := s.sec.calls.set k x } }
  if o < 64 then
    let l := (List.range 64).map fun i => c.record.getD i 0
    put { c with record := l.take o ++ leBytes 8 v.toNat ++ l.drop (o + 8) }
  else if o != 64 then s
  else if c.busy then s.countReg off
  else
    let t := put { c with busy := true, res := c.res &&& 0x7FFFFFFFFFFFFFFF }
    { t with sec := { t.sec with order := t.sec.order ++ [k] } }

/-- A write to a register outside the core blocks without a step of its own, by an agent that reaches it. -/
def State.spaceWrite (s : State) (off : Nat) (v mask : W64) : State :=
  let inSub := pd0 0x10000 ≤ off && off < pd0 0x50000
  let p := (off - pd0 0x10000) / 0x10000
  let o := off % 0x10000
  let merged := (s.spaceReg .harbourmaster off &&& ~~~mask) ||| (v &&& mask)
  if off == 0xE008100 then
    let t := { s with boot := { s.boot with banksel := (s.boot.banksel &&& ~~~2) ||| (merged &&& 2) } }
    if v &&& mask &&& 0xFFFFFFFFFFFFFFF8 == 0 then t else t.countReg off
  else if 0xE001000 ≤ off && off < 0xE001800 then s.callWrite off merged
  else if inSub && 0x400 ≤ o && o < 0x1400 then s.pagerWrite p ((o - 0x400) / 64) (o % 64) merged
  else if inSub && 0x1400 ≤ o && o < 0x1C00 then s.hostQueueWrite p ((o - 0x1400) / 64) (o % 64) merged
  else s.plainWrite off v mask

/-- Registers whose writes are steps of their own. -/
def ownStep (off : Nat) : Bool :=
  let inSub := pd0 0x10000 ≤ off && off < pd0 0x50000
  let o := off % 0x10000
  off == (blockOf off).1 || off == pd0 0x100 || off == pd0 0x120 || off == pd0 0x408
  || (inSub && (o == 0 || (0x20 ≤ o && o < 0x40) || (0x1400 ≤ o && o < 0x1C00 && 24 ≤ o % 64)))

/-- The control and bases of a host queue pair, which bind it to a jetty core and a context: Quayside's alone to write
(23 R320). -/
def quaysideOnly (off : Nat) : Bool :=
  pd0 0x10000 ≤ off && off < pd0 0x50000 && 0x1400 ≤ off % 0x10000 && off % 0x10000 < 0x1C00 && off % 0x10000 % 64 < 24

/-- GANGCTL (21 Table 21-3), whose commands 0 and 3 have no effect: a write of one is ignored and counted (00 R5). -/
def gangOff (off : Nat) : Bool := pd0 0x10000 ≤ off && off < pd0 0x50000 && off % 0x10000 == 0

/-- Whether a port's requests are served: it is not fenced (23 R322), and TDISP does not keep it out (R326). -/
def State.portOpen (s : State) (p : Nat) : Bool :=
  !s.host.fenced.contains p && !((s.host.tdisp == .locked || s.host.tdisp == .run) && p != s.host.port)

/-- A posted write that is not served: dropped, and counted behind a fence. -/
def State.dropPosted (s : State) (p : Nat) : State :=
  if s.host.fenced.contains p then { s with host := { s.host with dropped := s.host.dropped + 1 } } else s

/-- The port of an agent that is not served. -/
def State.shutPort (s : State) : Agent → Option Nat
  | .hostPort p => if s.portOpen p then none else some p
  | _ => none

/-- REGISTER_WRITE: `b` bytes (one, two, four or eight) of `val` are written at offset `a` of the register space by `who`. -/
def execRegisterWrite (s : State) : Out :=
  let n := 2 ^ (s.input.b % 4)
  let a := s.input.a % 2 ^ 28 / n * n
  let off := a / 8 * 8
  let r := regLane a n s.input.val
  let v := bits (r.1 &&& r.2).toNat 1 0
  match s.shutPort s.input.who, coreAtOffset off with
  | some p, _ => .next (s.dropPosted p)
  | none, some c => .next (s.coreRegWrite s.input.who c (off % 0x10000) r.1 r.2)
  | none, none =>
    if !s.mayReach s.input.who off || (quaysideOnly off && !s.input.who.quayside) then .next (s.countReg off)
    else if gangOff off && (v == 0 || v == 3) then .next (s.countReg off)
    else if ownStep off then .next s
    else .next (s.spaceWrite off r.1 r.2)

end Sys2Proof.Machine
end

