-- ==== Sys2Proof/Machine/Boot.lean ====
section
/-! DEFINITION. Entropy, the boot chain, fuse commands, the standby Harbourmaster, and the Harbourmaster's calls (25
R329-R336, R340-R342; 26 R344-R349). Cryptographic primitives are free values (log 9). -/
namespace Sys2Proof.Machine

/-- The first `n` bytes of a list, with zeros after its end. -/
def padded (n : Nat) (l : List Byte) : List Byte := (List.range n).map fun i => l.getD i 0

-- Primitives by number (log 9).

/-- SHAKE256 with 64 bytes of output. -/
def shake (l : List Byte) : List Byte := padded 64 (Config.crypto 0 l)
/-- Whether a Falcon-1024 signature verifies. -/
def falconOk (key sig msg : List Byte) : Bool := Config.crypto 1 (key ++ sig ++ msg) == [1]
/-- A Falcon-1024 signature by the device identity key. -/
def falconSign (msg : List Byte) : List Byte := Config.crypto 2 msg
/-- AES key wrap: 104 bytes give 112. -/
def keyWrap (k l : List Byte) : List Byte := padded 112 (Config.crypto 3 (k ++ l))
def keyUnwrap (k l : List Byte) : List Byte := padded 104 (Config.crypto 4 (k ++ l))
/-- A reseed of the DRBG with conditioned samples. -/
def drbgReseed (st samples : List Byte) : List Byte := Config.crypto 5 (st ++ samples)
/-- `n` bytes drawn from the DRBG. -/
def drbgDraw (n : Nat) (st : List Byte) : List Byte := padded n (Config.crypto 6 st)
/-- The DRBG's state after a draw. -/
def drbgNext (st : List Byte) : List Byte := Config.crypto 7 st

-- Entropy (25 R340-R342).

/-- The repetition count test: no value 41 times in a row; `n` counts the value `prev` so far. -/
def repetitionOk : List Byte → Byte → Nat → Bool
  | [], _, _ => true
  | b :: rest, prev, n =>
    let m := if b == prev then n + 1 else 1
    m < 41 && repetitionOk rest b m

/-- The adaptive proportion test on one window of 512: its first value comes fewer than 410 times. -/
def proportionOk (l : List Byte) : Bool :=
  match l with
  | [] => true
  | b :: _ => (l.filter fun x => x == b).length < 410

/-- Whether a block of 1,024 samples passes both tests. -/
def blockOk (l : List Byte) : Bool :=
  l.length == 1024 && repetitionOk l 0 0 && proportionOk (l.take 512) && proportionOk (l.drop 512)

/-- The first `n` blocks of 1,024 samples that the noise source gives; what it gives is an input (log 1). -/
def sampleBlocks : Nat → List Byte → List (List Byte)
  | 0, _ => []
  | n + 1, l => l.take 1024 :: sampleBlocks n (l.drop 1024)

/-- The samples of a reseed, 384 bits from two blocks, and the failures before them; after the first failure at most
three more blocks fail (R341). -/
def gather : List (List Byte) → List Byte → Nat → Option (List Byte) × Nat
  | [], _, fails => (none, fails)
  | b :: rest, got, fails =>
    if !blockOk b then (if 3 ≤ fails then (none, fails + 1) else gather rest [] (fails + 1))
    else if got.isEmpty then gather rest b fails
    else (some (got ++ b), fails)

/-- A key generation's draw of `n` bytes: reseeded first; when every retry fails the DRBG is zeroised and the entropy
state locked. Each failure raises mcause 31 on the Harbourmaster's hart. -/
def Security.generate (x : Security) (n : Nat) (noise : List Byte) : Security × Option (List Byte) :=
  let r := gather (sampleBlocks 8 noise) [] 0
  match r.1 with
  | none => ({ x with drbg := [], locked := true, trap31 := x.trap31 + r.2 }, none)
  | some l =>
    let st := drbgReseed x.drbg l
    ({ x with drbg := drbgNext st, trap31 := x.trap31 + r.2 }, some (drbgDraw n st))

/-- ENTROPY_HEALTH_TEST_FAILURE: a continuous test fails outside a key generation; the draw in progress is discarded. -/
def execEntropyHealthTestFailure (s : State) : Out := .next { s with sec := { s.sec with trap31 := s.sec.trap31 + 1 } }

-- Images (26 R346).

/-- The header of an image in a bank of the boot store. -/
def State.imageHeader (s : State) (bank kind : Nat) : List Byte := s.bytes (bootKey bank kind 0) 4096
def State.imageBody (s : State) (bank kind : Nat) : List Byte :=
  s.bytes (bootKey bank kind 4096) (min (fieldAt (s.imageHeader bank kind) 8 8) (2 ^ 26))

/-- The fused digest of a key slot, where it is programmed and not revoked. -/
def Fuses.digest (f : Fuses) (key : Nat) : Option (List Byte) :=
  match key with
  | 0 => if f.vrev then none else some (padded 64 f.vendor)
  | 1 => if f.oprog.getLsbD 0 then some (padded 64 f.owner1) else none
  | 2 => if f.oprog.getLsbD 1 then some (padded 64 f.owner2) else none
  | _ => none

def zeroBytes (l : List Byte) : Bool := l.all fun b => b == 0

/-- Whether an image passes every check. -/
def State.imageOk (s : State) (f : Fuses) (bank kind : Nat) : Bool :=
  let h := s.imageHeader bank kind
  let pub := (h.drop 88).take 1793
  fieldAt h 0 4 == 0x474D495A && fieldAt h 4 1 == kind && zeroBytes ((h.drop 1881).take 7) && zeroBytes (h.drop 3168)
  && f.digest (fieldAt h 5 1) == some (shake pub)
  && falconOk pub ((h.drop 1888).take 1280) (shake (h.take 1888))
  && (h.drop 24).take 64 == shake (s.imageBody bank kind)
  && fusedCounter f.arb ≤ fieldAt h 6 2

/-- The kind of a bank's first failing image. -/
def State.badImage (s : State) (f : Fuses) (bank : Nat) : Option Nat := [1, 2, 3, 4, 5].find? fun k => !s.imageOk f bank k

-- Fuse commands (R349).

/-- The fuses that a command in a bank gives, where it applies. -/
def State.fuseCommand (s : State) (f : Fuses) (bank : Nat) : Option Fuses :=
  let h := s.imageHeader bank 6
  let l := s.bytes (bootKey bank 6 4096) 4096
  let signer := fieldAt h 5 1
  let slot := fieldAt l 8 8
  let d := (l.drop 16).take 64
  if !s.imageOk f bank 6 || !zeroBytes (l.drop 88) || fieldAt l 80 8 != fusedCounter f.arb then none
  else match fieldAt l 0 8 with
    | 1 =>
      if (slot == 1 || slot == 2) && !f.oprog.getLsbD (slot - 1) && (signer != 0 || f.oprog == 0) then
        some (if slot == 1 then { f with oprog := f.oprog ||| 1, owner1 := d } else { f with oprog := f.oprog ||| 2, owner2 := d })
      else none
    | 2 => if signer != 0 && f.oprog != 0 then some { f with vrev := true } else none
    | _ => none

/-- Stage 2's fuse command: applied, burnt into both banks and erased, or ignored. -/
def State.applyFuses (s : State) (bank : Nat) : State :=
  if zeroBytes (s.imageHeader bank 6) then s
  else
    let word := fun (b : W64) (v : Nat) => (b &&& 0xFFFFFFFFFFFFE7FF) ||| (BitVec.ofNat 64 v <<< 11)
    match s.fuseCommand s.boot.fuse0 bank with
    | some f =>
      { (s.zeroRange (bootKey bank 6 0) 8192) with
        boot := { s.boot with fuse0 := f, fuse1 := f, bootst := word s.boot.bootst 1 } }
    | none => { s with boot := { s.boot with bootst := word s.boot.bootst 2 } }

-- The boot stages (R344-R346).

/-- BOOTST for a stage reached, and on a halt its cause and kind. -/
def bootstOf (stage : Nat) (halt : Bool) (cause kind : Nat) : W64 :=
  BitVec.ofNat 64 (stage + (if halt then 8 else 0) + 16 * cause + 256 * kind)

/-- Stages 2 to 4 from a bank: the fuse command, the images, and the release of the system cores. -/
def State.bootBank (s : State) (bank : Nat) (fell : Bool) : State :=
  let off := if s.boot.standby then 2 else 0
  let b := bank - off
  let hs := [1, 2, 3, 4, 5].map fun k => s.imageHeader bank k
  let t := ({ s with boot := { s.boot with bootst := bootstOf 4 false 0 0 } }).applyFuses bank
  { t with
    boot := { t.boot with
      banksel := BitVec.ofNat 64 (3 * b + if fell then 4 else 0)
      secvers := hs.map fun h => fieldAt h 6 2
      digests := hs.map fun h => (h.drop 24).take 64 }
    sec := { t.sec with sysKey := drbgDraw 96 t.sec.drbg, drbg := drbgNext t.sec.drbg } }

/-- A halt of the boot (R344, Table 26-4). -/
def State.bootHalt (t : State) (stage cause kind : Nat) : State :=
  { t with boot := { t.boot with bootst := bootstOf stage true cause kind } }

/-- Stage 2 on: the bank that BANKSEL names, then the other. -/
def State.bootBanks (t : State) : State :=
  let off := if t.boot.standby then 2 else 0
  let b := bits t.boot.banksel.toNat 1 1
  match t.badImage t.boot.fuse0 (off + b) with
  | none => t.bootBank (off + b) false
  | some k => match t.badImage t.boot.fuse0 (off + (1 - b)) with
    | none => t.bootBank (off + (1 - b)) true
    | some _ => t.bootHalt 2 2 k

/-- The stages from 1 on: the fuse banks, the entropy start-up test, the blob-wrapping key, the banks. -/
def State.bootRun (s : State) : State :=
  if s.boot.fuse0 != s.boot.fuse1 then s.bootHalt 1 1 0
  else
    let l := s.input.bytes.take 1024
    if !blockOk l then
      State.bootHalt { s with sec := { s.sec with locked := true, trap31 := s.sec.trap31 + 1 } } 1 3 0
    else
      let st := drbgReseed [] l
      State.bootBanks { s with sec := { s.sec with drbg := drbgNext st, wrapKey := drbgDraw 32 st } }

/-- A machine out of cold reset: what lies outside the module, the boot stores and the fuses stay (log 11). -/
def State.powerUp (s : State) : State :=
  { State.reset with
    turn := s.turn, input := s.input, moves := s.moves, cycles := s.cycles
    mem := Memory.clear (Memory.clear s.mem 0 (2 ^ 48)) (2 ^ 52) (2 ^ 56 - 2 ^ 52)
    boot := { fuse0 := s.boot.fuse0, fuse1 := s.boot.fuse1, banksel := s.boot.banksel } }

/-- COLD_RESET: the stages run in order. With `flag` PD0's ROM reports a fuse read failure, with `flag2` it does not get
past stage 1. -/
def execColdReset (s : State) : Out :=
  let t := s.powerUp
  if s.input.flag || s.input.flag2 then
    .next { t with boot := { t.boot with bootst := bootstOf 1 false 0 0, failed := s.input.flag } }
  else .next t.bootRun

/-- FAILOVER_TIMER: PD0 has not reached stage 2 within 500 ms, or reports a fuse read failure: PD1's Harbourmaster boots
in its place (R345). -/
def execFailoverTimer (s : State) : Out :=
  if s.boot.standby || 2 ≤ bits s.boot.bootst.toNat 2 0 || !(s.boot.failed || 500000000 ≤ s.tide.toNat) then .next s
  else .next ({ s with boot := { s.boot with standby := true } }).bootRun

-- Calls (25 R329-R332).

/-- The call that the Harbourmaster performs next: its slot and the eight words of its record. -/
def State.nextCall (s : State) : Option (Nat × List Nat) :=
  match s.sec.order with
  | [] => none
  | k :: _ =>
    let l := padded 64 (Map.get {} s.sec.calls k).record
    some (k, (List.range 8).map fun i => fieldAt l (8 * i) 8)

/-- A call's word. -/
def callWord (w : List Nat) (i : Nat) : Nat := w.getD i 0

/-- Bits that no call names: of word 0 and of the words above `n`. -/
def strayBits (w : List Nat) (n : Nat) : Bool :=
  bits (callWord w 0) 15 8 != 0 || bits (callWord w 0) 63 32 != 0 || (List.range 7).any fun i => n < i + 1 && callWord w (i + 1) != 0

/-- Completes the call of slot `k` with a status and HMRES2. -/
def State.endCall (s : State) (k : Nat) (w : List Nat) (status res2 : Nat) : State :=
  let c := Map.get {} s.sec.calls k
  let res : W64 := BitVec.ofNat 64 (status + 2 ^ 16 * bits (callWord w 0) 31 16 + 2 ^ 63)
  { s with sec := { s.sec with order := s.sec.order.drop 1
                               calls := s.sec.calls.set k { c with res := res, res2 := BitVec.ofNat 64 res2, busy := false } } }

/-- Performs the next call where its op is `op`: `f` gives its status, HMRES2 and the state, or none while it waits. -/
def callOp (s : State) (op : Nat) (f : List Nat → Option (Nat × Nat × State)) : Out :=
  match s.nextCall with
  | none => .next s
  | some (k, w) =>
    if bits (callWord w 0) 7 0 != op then .next s
    else match f w with
      | some (status, res2, t) => .next (t.endCall k w status res2)
      | none => .next s

/-- A failed call changes nothing. -/
def failCall (s : State) (status : Nat) : Option (Nat × Nat × State) := some (status, 0, s)

/-- The lowest free key slot. -/
def Security.freeSlot (x : Security) : Option Nat := (List.range 64).find? fun i => (x.keys.find i).isNone

/-- A key is installed in a slot: its packet flows start again (R337, R338). -/
def Security.install (x : Security) (slot : Nat) (key : List Byte) : Security :=
  { x with keys := x.keys.set slot key, flows := x.flows.filter fun f => f / 2 ^ 24 % 64 != slot }

/-- Whether TDISP keeps a world out: the interface is locked or running and the world is not the guest's (23 R326). -/
def State.worldLocked (s : State) (w : Nat) : Bool :=
  (s.host.tdisp == .locked || s.host.tdisp == .run) && !s.host.guest.contains w

/-- CTX_CREATE. -/
def execCtxCreate (s : State) : Out :=
  callOp s 1 fun w =>
    let asid := callWord w 1
    let world := bits (callWord w 2) 11 0
    let new := bits (callWord w 2) 16 16 == 1
    let old := s.sec.worlds.find world
    let full := (old.map fun (o : World) => o.slot).join
    if strayBits w 2 || asid == 0 || 65535 < asid || bits (callWord w 2) 15 12 != 0 || callWord w 2 / 2 ^ 17 != 0 || world == 0 then
      failCall s 2
    else if (s.sec.contexts.find asid).isSome then failCall s 3
    else if s.worldLocked world then failCall s 16
    else if !new then
      if old.isNone then failCall s 6
      else if full.isNone then failCall s 8
      else some (0, 0, { s with sec := { s.sec with contexts := s.sec.contexts.set asid world } })
    else if old.isSome then failCall s 2
    else if 4095 ≤ s.sec.worlds.length then failCall s 9
    else match s.sec.freeSlot with
      | none => failCall s 10
      | some slot =>
        if s.sec.locked then failCall s 12
        else match s.sec.generate 96 s.input.bytes with
          | (x, none) => failCall { s with sec := x } 11
          | (x, some key) =>
            some (0, slot, { s with sec := { x.install slot key with
              contexts := x.contexts.set asid world, worlds := x.worlds.set world { gen := 0, slot := some slot } } })

/-- The end of a context: its pending launches leave their queues and pool records, its rank windows, vault masks and
records go, and its ASID is dead no more (16 R275). -/
def State.endContext (s : State) (asid : Nat) : State :=
  let gone := fun n => (s.launchAt n).asid == asid
  let parts := s.parts.map fun (p : Nat × Part) =>
    (p.1, { p.2 with
      queues := p.2.queues.map fun (q : Nat × List Nat) => (q.1, q.2.filter fun n => !gone n)
      pool := p.2.pool - (s.launches.filter fun l => l.2.asid == asid && l.2.pooled && l.2.part == p.1).length })
  { s with
    parts := parts
    launches := s.launches.map fun (l : Nat × Launch) => if l.2.asid == asid then (l.1, { l.2 with pooled := false }) else l
    windows := s.windows.filter fun x => x.asid != asid
    vaultMask := s.vaultMask.filter fun v => v.1 / 16 != asid
    errors := s.errors.erase asid
    dead := s.dead.erase asid
    sec := { s.sec with contexts := s.sec.contexts.erase asid } }

/-- Whether a context holds a block in any state. -/
def State.contextBusy (s : State) (asid : Nat) : Bool := s.blocks.any fun b => (s.launchAt b.2.launch).asid == asid

/-- CTX_DESTROY. -/
def execCtxDestroy (s : State) : Out :=
  callOp s 2 fun w =>
    let asid := callWord w 1
    if strayBits w 1 || 65535 < asid then failCall s 2
    else if (s.sec.contexts.find asid).isNone then failCall s 4
    else if s.contextBusy asid then failCall s 5
    else some (0, 0, s.endContext asid)

/-- Whether a blob address is one: global, aligned to 128, in memory that can be reached (log 12). -/
def State.blobOk (s : State) (a : Nat) : Bool := a % 128 == 0 && a < 2 ^ 52 && windowOk a 128 && !s.fencedKey a

/-- A number that no world has: what a destroyed world wrote is under a key that no longer exists (25 R339). -/
def noWorld : Nat := 65536

/-- The contexts of a world. -/
def State.contextsOf (s : State) (w : Nat) : List Nat := (s.sec.contexts.filter fun c => c.2 == w).map fun c => c.1

/-- A whole-ASID shootdown of every context of a world (R333). -/
def State.shootWorld (s : State) (w : Nat) : State :=
  (s.contextsOf w).foldl (fun t a => t.shootdown
    { asid := a, all := true, glob := false, va := 0, len := 0, ending := .word 0 }) s

/-- A world gives up its key slot. -/
def State.freeKey (s : State) (slot : Nat) : State := { s with sec := { s.sec with keys := s.sec.keys.erase slot } }

/-- Bytes 0-7 of a blob (Table 25-4). -/
def blobHead (w : Nat) (gen : W32) : List Byte := leBytes 8 (0x5742 + 2 ^ 16 * w + 2 ^ 32 * gen.toNat)

/-- WORLD_SUSPEND. -/
def execWorldSuspend (s : State) : Out :=
  callOp s 3 fun w =>
    let world := callWord w 1
    let a := callWord w 2
    if strayBits w 2 || 4095 < world || !s.blobOk a then failCall s 2
    else match s.sec.worlds.find world with
      | none => failCall s 6
      | some x => match x.slot with
        | none => failCall s 8
        | some slot =>
          if (s.contextsOf world).any s.contextBusy then failCall s 7
          else
            let gen := x.gen + 1
            let t := s.shootWorld world
            let head := blobHead world gen
            let blob := head ++ keyWrap t.sec.wrapKey (head ++ padded 96 (Map.get [] t.sec.keys slot)) ++ leBytes 8 0
            let u := (t.performStore a blob).freeKey slot
            some (0, 0, { u with sec := { u.sec with worlds := u.sec.worlds.set world { gen := gen, slot := none } } })

/-- WORLD_RESUME. -/
def execWorldResume (s : State) : Out :=
  callOp s 4 fun w =>
    let world := callWord w 1
    let a := callWord w 2
    if strayBits w 2 || 4095 < world || !s.blobOk a then failCall s 2
    else match s.sec.worlds.find world with
      | none => failCall s 6
      | some x =>
        let l := s.bytes a 128
        let p := keyUnwrap s.sec.wrapKey ((l.drop 8).take 112)
        let sound := fieldAt l 0 2 == 0x5742 && bits (fieldAt l 0 8) 27 16 == world && p.take 8 == l.take 8
                     && keyWrap s.sec.wrapKey p == (l.drop 8).take 112 && !s.poisoned a 128
        if x.slot.isSome then failCall s 2
        else if !sound then failCall s 13
        else if fieldAt l 4 4 != x.gen.toNat then failCall s 14
        else match s.sec.freeSlot with
          | none => failCall s 10
          | some slot =>
            some (0, 0, { s with sec := { s.sec.install slot (p.drop 8) with
              worlds := s.sec.worlds.set world { x with slot := some slot } } })

/-- WORLD_DESTROY. -/
def execWorldDestroy (s : State) : Out :=
  callOp s 5 fun w =>
    let world := callWord w 1
    if strayBits w 1 || 4095 < world then failCall s 2
    else match s.sec.worlds.find world with
      | none => failCall s 6
      | some x =>
        if !(s.contextsOf world).isEmpty then failCall s 7
        else
          let t := match x.slot with
            | some slot => s.freeKey slot
            | none => s
          some (0, 0, { t with cipher := t.cipher.map fun c => (c.1, if c.2 == world then noWorld else c.2)
                               sec := { t.sec with worlds := t.sec.worlds.erase world
                                                   halted := t.sec.halted.filter fun h => h != world } })

/-- The block and handle that word 1 of a handle call names. -/
def handleArgs (w : List Nat) : Nat × Nat :=
  let v := callWord w 1
  (bits v 10 0 * 16 + bits v 14 11, bits v 22 15)

/-- HANDLE_SET. -/
def execHandleSet (s : State) : Out :=
  callOp s 6 fun w =>
    let p := handleArgs w
    let e : W64 := BitVec.ofNat 64 (callWord w 2 % 2 ^ 44)
    match s.blocks.find p.1 with
    | none => failCall s 2
    | some b =>
      if strayBits w 2 || 2 ^ 23 ≤ callWord w 1 || !isPeer e then failCall s 2
      else if (b.handle p.2).getLsbD 0 then failCall s 15
      else some (0, 0, s.setBlkAt p.1 { b with handles := b.handles.set p.2 e })

/-- Whether a message that left through a handle of a block is without its answer (R336): a journal entry in flight, a
hart's request, or a running copy. -/
def State.handleInUse (s : State) (blk h : Nat) : Bool :=
  let named := fun (a : W64) => (a.toNat / 2 ^ 56 == 0xF1 || a.toNat / 2 ^ 56 == 0xF4) && bits a.toNat 47 40 == h
  let b := s.blkAt blk
  b.slots.any (fun k =>
    let g := s.grpAt k
    (List.range 32).any (fun i => (g.jslot i).held && (g.jslot i).state == 0 && named (g.jslot i).addr)
    || match g.hartReq with
       | some (.load _ _ a) | some (.amo _ _ _ _ _ a _) | some (.lr _ _ _ a) | some (.sc _ _ _ a _) | some (.mbread _ a)
       | some (.mbset a _) | some (.rank _ a _ _) => named a
       | some (.send _ e _) => e == (b.handle h).toNat
       | none => false)
  || (List.range 8).any fun ch => ((s.coreAt (blk / 16)).chan ch).copies.any fun k =>
       k.blk == blk && k.started && named (Rec.ofBytes k.record).base

/-- HANDLE_CLEAR: it waits for the messages that left through the entry. -/
def execHandleClear (s : State) : Out :=
  callOp s 7 fun w =>
    let p := handleArgs w
    match s.blocks.find p.1 with
    | none => failCall s 2
    | some b =>
      if strayBits w 1 || 2 ^ 23 ≤ callWord w 1 then failCall s 2
      else if !(b.handle p.2).getLsbD 0 then failCall s 4
      else if s.handleInUse p.1 p.2 then none
      else some (0, 0, s.setBlkAt p.1 { b with handles := b.handles.set p.2 0 })

/-- VAULT_GRANT: it waits for posted writes to the die's vaults under the old mask, then acts as a shootdown (R241). -/
def execVaultGrant (s : State) : Out :=
  callOp s 8 fun w =>
    let asid := callWord w 1
    let die := callWord w 2
    let sent := s.net.any fun m => 2048 ≤ m.dst && m.dst < 2048 + 768 && (m.dst - 2048) / 64 == die
      && (s.launchAt (s.blkAt (s.grpAt m.src).blk).launch).asid == asid
    if (s.sec.contexts.find asid).isNone then failCall s 4
    else if strayBits w 3 || 11 < die then failCall s 2
    else if sent then none
    else
      let t := s.shootdown { asid := asid, all := true, glob := false, va := 0, len := 0, ending := .word 0 }
      some (0, 0, { t with vaultMask := t.vaultMask.set (asid * 16 + die) (BitVec.ofNat 64 (callWord w 3)) })

/-- ENTROPY_RESTART: 1,024 fresh samples. -/
def execEntropyRestart (s : State) : Out :=
  callOp s 9 fun w =>
    let l := s.input.bytes.take 1024
    if strayBits w 0 then failCall s 2
    else if blockOk l then some (0, 0, { s with sec := { s.sec with drbg := drbgReseed s.sec.drbg l, locked := false } })
    else failCall { s with sec := { s.sec with trap31 := s.sec.trap31 + 1 } } 11

/-- BAD_CALL: an op that Table 25-3 does not list. -/
def execBadCall (s : State) : Out :=
  match s.nextCall with
  | none => .next s
  | some (k, w) =>
    let op := bits (callWord w 0) 7 0
    if 1 ≤ op && op ≤ 9 then .next s else .next (s.endCall k w 1 0)

end Sys2Proof.Machine
end

