-- ==== Sys2Proof/Machine/HostSide.lean ====
section
/-! DEFINITION. The hosts' side: queue pairs and their commands, the lease, links, TDISP, coherence with the hosts (16
R273, R279; 20 R298; 23 R315-R326; 24 R327, R328). -/
namespace Sys2Proof.Machine

-- Queue pairs (23 R320).

/-- HQ_DOORBELL: host port `c` writes the tail `val` to pair `b` of partition `a`. More than the ring's size ahead of the
head, it is counted and the ring is broken. -/
def execHqDoorbell (s : State) : Out :=
  let p := s.input.a % 4
  let h := s.input.b % 32
  let q := s.hq p h
  let v : Half := s.input.val.setWidth 16
  if !s.portOpen s.input.c then .next (s.dropPosted s.input.c)
  else if q.size < (v - q.subHead).toNat then
    .next ((s.countReg (subBlock p (0x1400 + 64 * h))).setHq p h { q with broken := true })
  else .next (s.setHq p h { q with subTail := v })

/-- HQ_COMPLETION_HEAD: host port `c` frees completion entries of pair `b` of partition `a` up to `val`. -/
def execHqCompletionHead (s : State) : Out :=
  let p := s.input.a % 4
  let h := s.input.b % 32
  if !s.portOpen s.input.c then .next (s.dropPosted s.input.c)
  else .next (s.setHq p h { s.hq p h with compHead := s.input.val.setWidth 16 })

/-- The entry that the jetty core takes next from a pair, with room for its completion. -/
def State.hostEntry (s : State) (p h : Nat) : Option (Nat × List Byte) :=
  let q := s.hq p h
  let pos := q.subHead.toNat % q.size
  if q.ctl.getLsbD 0 == false || q.broken || q.subHead == q.subTail || q.size ≤ (q.compTail - q.compHead).toNat then none
  else some (pos, s.bytes (q.sub + 64 * pos) 64)

/-- The entry is taken. -/
def State.takeEntry (s : State) (p h : Nat) : State := s.setHq p h { s.hq p h with subHead := (s.hq p h).subHead + 1 }

/-- A pair's context. -/
def HostQueue.asid (q : HostQueue) : Nat := bits q.ctl.toNat 21 6

/-- A line that the jetty core needs before it serves a pair: of the entry, or of the completion (23 R319). -/
def State.pairLine (s : State) (p h pos : Nat) : Option (Nat × Bool) :=
  (s.lineWait ((s.hq p h).sub + 64 * pos) 64 false).or (s.lineWait (s.hq p h).completionKey 16 true)

/-- Serves the next entry of pair `b` of partition `a` where its op is as `ok` says. -/
def hostCommand (s : State) (ok : Nat → Bool) (f : Nat → Nat → Nat → List Byte → Out) : Out :=
  let p := s.input.a % 4
  let h := s.input.b % 32
  match s.hostEntry p h with
  | none => .next s
  | some (pos, l) => match s.pairLine p h pos with
    | some w => .next (s.askLine w)
    | none => if ok (fieldAt l 0 1) then f p h pos l else .next s

/-- HOST_NOP. -/
def execHostNop (s : State) : Out :=
  hostCommand s (fun op => op == 0) fun p h pos _ => .next ((s.takeEntry p h).complete p h pos 0)

/-- BAD_COMMAND. -/
def execBadCommand (s : State) : Out :=
  hostCommand s (fun op => 4 < op) fun p h pos _ => .next ((s.takeEntry p h).complete p h pos 0x100)

/-- HOST_SHOOTDOWN: the request stands in bytes 8-39. -/
def execHostShootdown (s : State) : Out :=
  hostCommand s (fun op => op == 2) fun p h pos l =>
    let v : BitVec 256 := BitVec.ofNat 256 (fieldAt l 8 32)
    let t := s.takeEntry p h
    if bits v.toNat 15 0 != (s.hq p h).asid then .next (t.complete p h pos 0x101)
    else .next { t with shoots := t.shoots ++ [shootOf v (.command p h pos)] }

/-- A completion status that the spec does not state: the page has no leaf (log 14). -/
def freeStatus (s : State) : Nat := Config.freeChoice s.moves 1 % 2 ^ 16

/-- PAGE_TAKE (20 R298): own := 1 and a shootdown of the page; own := 2 and the completion follow when it is done. ASID in
bytes 8-9, VA in bytes 16-23 (log 13). -/
def execPageTake (s : State) : Out :=
  hostCommand s (fun op => op == 3) fun p h pos l =>
    let asid := fieldAt l 8 2
    let va := fieldAt l 16 8 % 2 ^ 57
    let t := s.takeEntry p h
    if asid != (s.hq p h).asid then .next (t.complete p h pos 0x101)
    else match s.leafOf asid va, walk s asid va with
      | some a, .leaf e own _ _ =>
        if own == 2 then .next (t.complete p h pos 0)
        else whenLines s [(a.1, 8 * a.2)] <|
          let r : Shoot := { asid := asid, all := false, glob := e.asid == 0, va := e.va, len := e.size
                             ending := .take p h pos asid va }
          let u := t.setOwn a 1
          .next { u with shoots := u.shoots ++ [r] }
      | _, _ => .next (t.complete p h pos (freeStatus s))

/-- PAGE_RETURN: own := 0. -/
def execPageReturn (s : State) : Out :=
  hostCommand s (fun op => op == 4) fun p h pos l =>
    let asid := fieldAt l 8 2
    let va := fieldAt l 16 8 % 2 ^ 57
    let t := s.takeEntry p h
    if asid != (s.hq p h).asid then .next (t.complete p h pos 0x101)
    else match s.leafOf asid va with
      | some a => whenLines s [(a.1, 8 * a.2)] (.next ((t.setOwn a 0).complete p h pos 0))
      | none => .next (t.complete p h pos (freeStatus s))

-- Host launches (16 R273, R279).

/-- What a jetty core must have before its reads can be checked: a page that a pager brings, or a line that a host
holds. -/
inductive JettyStop where
  | page (va : Nat) (f : XFault)
  | line (w : Nat × Bool)

/-- A read by a jetty core: what it gives, what must come first, or nothing. -/
inductive JettyRead (α : Type) where
  | got (x : α)
  | stop (w : JettyStop)
  | bad

/-- Goes on with what a read gives. -/
def JettyRead.andThen {α β : Type} (r : JettyRead α) (f : α → JettyRead β) : JettyRead β :=
  match r with
  | .got x => f x
  | .stop w => .stop w
  | .bad => .bad

/-- Two reads: what either must have comes before any check (R273). -/
def JettyRead.both {α β : Type} (r : JettyRead α) (q : JettyRead β) : JettyRead (α × β) :=
  match r, q with
  | .stop w, _ | _, .stop w => .stop w
  | .got x, .got y => .got (x, y)
  | _, _ => .bad

/-- Where a jetty core's fault goes: a private VA is that of a live launch of the context (20 R294). -/
def State.routeAny (s : State) (asid va : Nat) (f : XFault) : Route :=
  let own := s.launches.find? fun l => l.2.asid == asid && l.2.live != 0 && l.2.privateVa va
  s.route ((own.map fun l => l.2).getD { asid := asid }) va f

/-- One word of a context's memory. -/
def State.jettyWord (s : State) (asid va : Nat) : JettyRead (List Byte) :=
  match s.translate asid va .read with
  | .error f => match s.routeAny asid va f with
    | .error _ => .bad
    | _ => .stop (.page va f)
  | .ok (pa, _) => match s.lineWait pa 8 false with
    | some w => .stop (.line w)
    | none => if s.poisoned pa 8 then .bad else .got (s.bytes pa 8)

/-- `k` words of a context's memory. -/
def State.jettyWords (s : State) (asid : Nat) : Nat → Nat → JettyRead (List Byte)
  | 0, _ => .got []
  | k + 1, va => ((s.jettyWord asid va).both (s.jettyWords asid k (va + 8))).andThen fun l => .got (l.1 ++ l.2)

/-- A table of a launch, global and aligned. -/
def State.jettyTable (s : State) (asid a align words : Nat) : JettyRead (List Byte) :=
  if globalAt (BitVec.ofNat 64 a) align then s.jettyWords asid words a else .bad

/-- A tree entry: member, root, parent, port; none where a zero field is not. -/
def treeEntry (v : Nat) : Option (Bool × Bool × Nat × Nat) :=
  if v / 2 ^ 16 != 0 then none else some (bits v 0 0 == 1, bits v 1 1 == 1, bits v 12 2, bits v 15 13)

/-- Whether following parents from a place reaches the root within `k` steps. -/
def reachesRoot (t : List (Bool × Bool × Nat × Nat)) : Nat → Nat → Bool
  | 0, _ => false
  | k + 1, i =>
    let e := t.getD i (false, false, 0, 0)
    e.2.1 || reachesRoot t k e.2.2.1

/-- The conditions on one tree (R279). -/
def treeOk (t : List (Bool × Bool × Nat × Nat)) : Bool :=
  let inner := t.filter fun e => e.1 && !e.2.1
  let roots := t.filter fun e => e.2.1
  let slots := inner.map fun e => (e.2.2.1, e.2.2.2)
  roots.length == 1 && roots.all (fun e => e.1 && e.2.2.1 == 0 && e.2.2.2 == 0)
  && inner.all (fun e => (t.getD e.2.2.1 (false, false, 0, 0)).1 && reachesRoot t (t.length + 1) e.2.2.1)
  && slots.eraseDups.length == slots.length

/-- A channel of Table 16-3 with its tree; none where it is refused. -/
def chanOf (a : Nat) (entries : List (Option (Bool × Bool × Nat × Nat))) (scratch : Nat) : Option RedChan :=
  let t := entries.filterMap id
  let off := 256 * bits a 41 32
  if t.length != entries.length || bits a 15 11 != 0 || bits a 63 42 != 0 || !treeOk t || scratch < off + 512 then none
  else some { ch := bits a 3 0, all := bits a 4 4 == 1, width := bits a 10 5 + 1, hc := bits a 23 16, k := bits a 31 24
              off := off, tree := t }

/-- The tree tables of the channels from number `j` on, `k` of them. -/
def State.readTrees (s : State) (asid blocks : Nat) (table : List Byte) : Nat → Nat → JettyRead (List (List Byte))
  | 0, _ => .got []
  | k + 1, j =>
    ((s.jettyTable asid (fieldAt table (24 + 16 * j) 8) 8 ((blocks + 1) / 2)).both
      (s.readTrees asid blocks table k (j + 1))).andThen fun l => .got (l.1 :: l.2)

/-- The channels of a reduction table from their tree tables; none where one is refused. -/
def chansOf (blocks scratch : Nat) (table : List Byte) (trees : List (List Byte)) : Option (List RedChan) :=
  ((List.range trees.length).zip trees).mapM fun t =>
    chanOf (fieldAt table (16 + 16 * t.1) 8) ((List.range blocks).map fun i => treeEntry (fieldAt t.2 (4 * i) 4)) scratch

/-- The core of a core map entry, in the partition. -/
def State.mapCore (s : State) (p v : Nat) : Option Nat :=
  let c := 48 * bits v 4 0 + bits v 10 5
  if v / 2 ^ 11 != 0 || 32 ≤ bits v 4 0 || 48 ≤ bits v 10 5 || s.partOfCore c != p then none else some c

def allDistinct (l : List Nat) : Bool := l.eraseDups.length == l.length

/-- The conditions on a reduction table's core map and channels (R279). -/
def State.reductionOk (s : State) (p blocks size : Nat) (grants : List W64) (cm : List Byte) (cs : List RedChan) :
    JettyRead (List Nat × List RedChan) :=
  let cores := (List.range blocks).filterMap fun i => s.mapCore p (fieldAt cm (2 * i) 2)
  let hcs := cs.map fun c => c.hc
  let taken := grants.any fun w => hcs.any fun h => (grantOf w).h ≤ h && h < (grantOf w).h + (grantOf w).span size
  if cores.length != blocks || !allDistinct cores || !allDistinct (cs.map fun c => c.ch) || !allDistinct hcs || taken
  then .bad else .got (cores, cs)

/-- The reduction table of a launch: its core map and channels. Every table is read before any of it is checked (R273). -/
def State.readReduction (s : State) (p asid a blocks scratch size : Nat) (grants : List W64) : JettyRead (List Nat × List RedChan) :=
  (s.jettyTable asid a 64 2).andThen fun l0 =>
    let m := fieldAt l0 0 8
    if m == 0 || 16 < m then .bad
    else (s.jettyTable asid a 64 (2 + 2 * m)).andThen fun l =>
      if 1536 < blocks || blocks == 0 then .bad
      else ((s.jettyTable asid (fieldAt l 8 8) 8 ((blocks + 3) / 4)).both (s.readTrees asid blocks l m 0)).andThen fun t =>
        match chansOf blocks scratch l t.2 with
        | none => .bad
        | some cs => s.reductionOk p blocks size grants t.1 cs

/-- The grant table of a launch. -/
def State.readGrants (s : State) (asid a : Nat) : JettyRead (List W64) :=
  if a == 0 then .got []
  else (s.jettyTable asid a 64 1).andThen fun l =>
    let n := fieldAt l 0 8
    if 32 < n then .bad
    else (s.jettyTable asid a 64 (n + 1)).andThen fun m => .got (wordsOf n (m.drop 8))

/-- What is read, or what it waits for; what cannot be read is none. -/
def JettyRead.part {α : Type} (r : JettyRead α) : Except JettyStop (Option α) :=
  match r with
  | .got x => .ok (some x)
  | .bad => .ok none
  | .stop w => .error w

/-- Everything that a host launch reads. -/
def State.readLaunch (s : State) (p asid a : Nat) : Except JettyStop (Option LaunchRead) :=
  match (s.jettyTable asid a 64 8).part with
  | .error e => .error e
  | .ok none => .ok none
  | .ok (some rec_) =>
    match (s.jettyTable asid (fieldAt rec_ 0 8) 64 16).part, (s.readGrants asid (fieldAt rec_ 48 8)).part with
    | .error e, _ | _, .error e => .error e
    | .ok d, .ok g =>
      let l := launchOf ⟨rec_, d, g, some ([], [])⟩ p asid 0
      let red := fieldAt rec_ 56 8
      let r := if red == 0 then .got ([], [])
        else s.readReduction p asid red (l.gx * l.gy * l.gz) l.kernel.scratch (l.cx * l.cy) (g.getD [])
      match r.part with
      | .error e => .error e
      | .ok r => .ok (some ⟨rec_, d, g, r⟩)

/-- A jetty core waits for a page of a pair's launch: its fault record names it as core 1,984 + j. -/
def State.jettyParks (s : State) (p j asid pair va : Nat) (f : XFault) : State :=
  let n := s.jetty j
  let t := s.setJetty j { n with wake := n.wake + 1, held := some pair }
  t.pushRecord p asid (t.routeAny asid va f) fun seq =>
    faultRecord seq va asid 0 f.cause f.region (tokenOf ((1984 + j) * 16) .hart (n.wake + 1)) f.hint t.tide.toNat

/-- HOST_LAUNCH: bytes 8-15 name the launch record (23 Table 23-4). -/
def execHostLaunch (s : State) : Out :=
  hostCommand s (fun op => op == 1) fun p h pos l =>
    let asid := (s.hq p h).asid
    let j := bits (s.hq p h).ctl.toNat 5 1
    let n := s.jetty j
    let t := s.takeEntry p h
    if n.held.isSome then .next s
    else if n.failed.contains (32 * p + h) then
      .next ((t.setJetty j { n with failed := n.failed.erase (32 * p + h) }).complete p h pos 1)
    else match s.readLaunch p asid (fieldAt l 8 8) with
      | .error (.page va f) => .next (s.jettyParks p j asid (32 * p + h) va f)
      | .error (.line w) => .next (s.askLine w)
      | .ok none => .next (t.complete p h pos 1)
      | .ok (some r) =>
        let o := s.launchStatus r p asid 0 false
        .next ((if o.1 == 0 then t.enqueue o.2 false else t).complete p h pos o.1)

-- TDISP (23 R326).

/-- Every HBM page, vault, scratch, tile store, weight buffer and table register is zeroed. -/
def State.zeroAll (s : State) : State :=
  let t := (s.zeroRange 0 hbmSize).zeroRange (2 ^ 52) (2 ^ 56 - 2 ^ 52)
  { t with blocks := t.blocks.map fun (b : Nat × Block) => (b.1, { b.2 with tables := [] }) }

/-- A running interface goes to ERROR: the guest's contexts take a fatal error and the device zeroes. -/
def State.interfaceError (s : State) : State :=
  if s.host.tdisp != .run then s
  else
    let cs := s.host.guest.flatMap s.contextsOf
    let t := cs.foldl (fun t c => t.fatal c interfaceCause 0 0) { s with host := { s.host with tdisp := .error } }
    t.zeroAll

/-- The answer to a TDISP request. -/
def State.tdispAnswer (s : State) (ok : Bool) : State := { s with host := { s.host with tdispOk := ok } }

/-- LOCK_INTERFACE on port `a`; the guest's world is `b` (log 15). -/
def execLockInterface (s : State) : Out :=
  let ok := s.host.lease.st == 1 && s.host.lease.holder == s.input.a && s.host.tdisp == .unlocked
  let t := s.tdispAnswer ok
  .next (if ok then { t with host := { t.host with tdisp := .locked, port := s.input.a, guest := [s.input.b] } } else t)

/-- START_INTERFACE on port `a`. -/
def execStartInterface (s : State) : Out :=
  let l : Link := Map.get {} s.host.links (8 * s.input.a)
  let ok := s.host.tdisp == .locked && s.host.port == s.input.a && l.ideIo && l.ideCxl
  let t := s.tdispAnswer ok
  .next (if ok then { t with host := { t.host with tdisp := .run } } else t)

/-- STOP_INTERFACE on port `a`: the zeroing first, then CONFIG_UNLOCKED. -/
def execStopInterface (s : State) : Out :=
  let ok := s.host.tdisp != .unlocked && s.host.port == s.input.a
  let t := s.tdispAnswer ok
  if ok then
    let u := t.zeroAll
    .next { u with host := { u.host with tdisp := .unlocked, guest := [] } }
  else .next t

-- The lease (23 R321-R323).

/-- The check of a request's length, state, port and epoch: its result code. -/
def State.leaseResult (s : State) (port : Nat) (claim : Bool) (v : W64) : Nat :=
  let l := s.host.lease
  let dur := bits v.toNat 48 32
  let epoch : Half := (v >>> 16).setWidth 16
  if dur == 0 || 100000 < dur then 4
  else if claim then
    if l.st == 1 then 5 else if epoch != l.epoch + 1 then 2 else 0
  else if l.st != 1 || l.exp.toNat ≤ s.tide.toNat then 3
  else if l.holder != port then 1
  else if epoch != l.epoch then 2 else 0

/-- Counts a request whose reserved bits are not zero (00 R5). -/
def State.leaseReserved (s : State) (v : W64) : State :=
  if v &&& 0xFFFE00000000FFFE == 0 then s else s.countReg (pd0 0x408)

/-- The new expiry of an accepted request. -/
def State.leaseEnd (s : State) (v : W64) : W64 := s.tide + BitVec.ofNat 64 (1000 * bits v.toNat 48 32)

/-- HLREQ_RENEW: port `a` writes `val` with op 0. -/
def execHlreqRenew (s : State) : Out :=
  let p := s.input.a % 2
  let r := s.leaseResult p false s.input.val
  let l := { s.host.lease with res := s.host.lease.res.set p r }
  let t : State := { s with host := { s.host with lease := if r == 0 then { l with exp := s.leaseEnd s.input.val } else l } }
  .next (t.leaseReserved s.input.val)

/-- HLREQ_CLAIM: port `a` writes `val` with op 1. An accepted claim lifts the port's fence and sends it the pending
interrupts; a running TDISP interface goes to ERROR. -/
def execHlreqClaim (s : State) : Out :=
  let p := s.input.a % 2
  let r := s.leaseResult p true s.input.val
  let l := { s.host.lease with res := s.host.lease.res.set p r }
  if r != 0 then .next (({ s with host := { s.host with lease := l } } : State).leaseReserved s.input.val)
  else
    let m := { l with holder := p, st := 1, epoch := l.epoch + 1, exp := s.leaseEnd s.input.val }
    let h := { s.host with lease := m, fenced := s.host.fenced.filter fun x => x != p, irqs := [], sent := s.host.sent ++ s.host.irqs }
    .next (({ s with host := h } : State).interfaceError.leaseReserved s.input.val)

/-- Whether a key is host memory of a port. -/
def ofPort (p key : Nat) : Bool := hostPortOf key == some p

/-- Bytes that the device had and lost: free values (23 R322; log 14). -/
def State.lostCells (s : State) (l : Nat) : List (Nat × Byte) :=
  (List.range 64).map fun i => (64 * l + i, Config.freeByte s.moves (64 * l + i))

/-- A core without lane L1 sectors of a port's host memory. -/
def Core.unported (c : Core) (p : Nat) : Core := { c with l1 := c.l1.filter fun x => !ofPort p x.pa }

/-- The fence of a port (R322): lines of HDM it holds in M are poisoned, the others are dropped; its host memory's sectors
are invalidated, dirty ones are discarded and counted. -/
def State.fence (s : State) (p : Nat) : State :=
  let mine := s.host.filter.filter fun x => x.2.1 == p
  let t := (mine.filter fun x => x.2.2 == .m).foldl (fun t x => t.addPoison (64 * x.1)) s
  let harts := s.dirty.filter fun d => ofPort p d.pa
  let ms := (s.host.lines.filter fun x => x.2 == .m && ofPort p (64 * x.1)).map fun x => x.1
  let out := (s.host.evicts.filter fun x => ofPort p (64 * x.2)).map fun x => x.2
  let lost := (harts.map (fun (d : DirtySector) => d.pa / 128) ++ (ms ++ out).map fun l => l / 2).eraseDups
  let h := { t.host with
    fenced := if s.host.fenced.contains p then s.host.fenced else p :: s.host.fenced
    filter := s.host.filter.filter fun x => x.2.1 != p
    lines := s.host.lines.filter fun x => !ofPort p (64 * x.1)
    asked := s.host.asked.filter fun x => !ofPort p (64 * x.1)
    evicts := s.host.evicts.filter fun x => !ofPort p (64 * x.2)
    discarded := s.host.discarded + lost.length }
  ({ t with host := h, dirty := s.dirty.filter fun d => !harts.contains d
            cores := t.cores.map fun c => (c.1, c.2.unported p) } : State).storeCells ((ms ++ out).flatMap s.lostCells)

/-- LEASE_EXPIRY: the Tide has reached HLEXP. -/
def execLeaseExpiry (s : State) : Out :=
  let l := s.host.lease
  if l.st != 1 || s.tide.toNat < l.exp.toNat then .next s
  else
    let t := s.fence l.holder
    .next ({ t with host := { t.host with lease := { t.host.lease with st := 2 } } }).interfaceError

-- Links (23 R315).

def State.setLink (s : State) (k : Nat) (l : Link) : State := { s with host := { s.host with links := s.host.links.set k l } }

/-- What comes with a link: in CXL 2.0 mode the pages that Quayside has marked host-biased, as 4-byte page numbers, and at a
pier port the domain id that the fabric manager sets (R319, R324; log 15). -/
def State.linkUp (s : State) (b : Nat) : State :=
  let l := s.input.bytes
  let pages := (List.range (l.length / 4)).map fun i => fieldAt l (4 * i) 4
  { s with host := { s.host with
      biased := if b == 0 && s.input.link == .cxl20 then pages else s.host.biased
      domain := if b != 0 then s.input.c % 64 else s.host.domain } }

/-- LINK_TRAINING: port `b` of port die `a` trains to mode `link`, at ×8 with `flag`; bits 0 and 1 of `val` say which IDE
protection comes up with it (log 15). A pier port trains only to CXL 3.1 at ×16. -/
def execLinkTraining (s : State) : Out :=
  let b := s.input.b % 6
  let k := 8 * (s.input.a % 2) + b
  let cxl := s.input.link == .cxl31 || s.input.link == .cxl20
  if (Map.get {} s.host.links k).mode != .down then .next s
  else if s.input.link == .down || (b != 0 && (s.input.link != .cxl31 || s.input.flag)) then .next (s.setLink k {})
  else .next ((s.linkUp b).setLink k { mode := s.input.link, x8 := s.input.flag, ideIo := s.input.val.getLsbD 0
                                       ideCxl := cxl && s.input.val.getLsbD 1 })

/-- Whether a link is the guest's. -/
def State.guestLink (s : State) (k : Nat) : Bool := k == 8 * s.host.port

/-- LINK_DOWN: port `b` of port die `a` goes down. -/
def execLinkDown (s : State) : Out :=
  let k := 8 * (s.input.a % 2) + s.input.b % 6
  let t := s.setLink k {}
  .next (if s.guestLink k then t.interfaceError else t)

/-- IDE_FAILURE on port `b` of port die `a`. -/
def execIdeFailure (s : State) : Out :=
  let k := 8 * (s.input.a % 2) + s.input.b % 6
  let t := s.setLink k { Map.get {} s.host.links k with ideIo := false, ideCxl := false }
  .next (if s.guestLink k then t.interfaceError else t)

-- Coherence with the hosts (23 R318, R319; 24 R327, R328).

/-- Data that a host receives. -/
def State.toHost (s : State) (l : List Byte) : State := { s with host := { s.host with reads := s.host.reads ++ [l] } }

/-- A dirty hart-cache sector of a line goes to its home, so that a snoop is served with its data (09 R166). -/
def State.snoopSector (s : State) (line : Nat) : State := s.flushHome (64 * line)

/-- A snoop of line `a`: the new state of the line, and the data of one that was in M. -/
def snoop (s : State) (toState : Mesi → Mesi) : Out :=
  let l := s.input.a
  let old := Map.get .i s.host.lines l
  if !s.cachedHost (64 * l) || old == .i then .next s
  else
    let t := s.snoopSector l
    let u := if old == .m then t.toHost (t.bytes (64 * l) 64) else t
    .next { u with host := { u.host with lines := u.host.lines.set l (toState old) } }

/-- SNP_DATA: M or E goes to S. -/
def execSnpData (s : State) : Out := snoop s fun _ => .s
/-- SNP_INV: the line goes to I; the host's write that follows ends reservations on it (09 R165). -/
def execSnpInv (s : State) : Out := snoop (s.breakResv (64 * s.input.a) 64) fun _ => .i
/-- SNP_CUR: no state changes. -/
def execSnpCur (s : State) : Out := snoop s id

/-- Whether a party waits for line `l`, or another line of its sector, with or without ownership. -/
def State.lineWanted (s : State) (l : Nat) (own : Bool) : Bool :=
  s.groups.any (fun (g : Nat × Group) =>
    (match g.2.hartWait with
     | some (.hostLine k o) => k / 2 == l / 2 && o == own
     | _ => false)
    || match g.2.laneWait with
       | some (.hostLine k o) => k / 2 == l / 2 && o == own
       | _ => false)
  || s.host.asked.any fun x => x.1 / 2 == l / 2 && x.2 == own

/-- The copies' requests for a line are answered. -/
def State.answered (s : State) (l : Nat) : State :=
  { s with host := { s.host with asked := s.host.asked.filter fun x => x.1 != l } }

/-- The data that come with the grant of a line that was invalid. -/
def State.fillLine (s : State) (l : Nat) (old : Mesi) : State :=
  match old, s.input.data with
  | .i, some d => s.storeCells (cellsOf (64 * l) (padded 64 d))
  | _, _ => s

/-- CXL_GO: with `flag`, the GO_WritePull of core `b`'s eviction of line `a`. Else the grant of line `a` to a request,
with ownership (`flag2`) or to S, or to E if the host grants it, and the data of a line that was invalid. -/
def execCxlGo (s : State) : Out :=
  let l := s.input.a
  let old := Map.get .i s.host.lines l
  let own := s.input.flag2
  if s.input.flag then .next { s with host := { s.host with evicts := s.host.evicts.erase (s.input.b, l) } }
  else if !s.cachedHost (64 * l) || !s.lineWanted l own || (s.host.evicts.any fun e => e.2 == l)
       || !(old == .i || (own && old == .s)) then .next s
  else
    let new : Mesi := if own || s.input.mesi == .e then .e else .s
    let t := s.fillLine l old
    .next (({ t with host := { t.host with lines := t.host.lines.set l new } } : State).answered l)

/-- The data that come back with a line that a host held in M. -/
def State.returnLine (s : State) (l : Nat) (st : Mesi) : State :=
  match st, s.input.data with
  | .m, some d => s.performStore (64 * l) (padded 64 d)
  | _, _ => s

/-- BISNP_RESPONSE: the host that holds line `a` of HDM answers: to BISnpInv (`flag`) it gives it up, to BISnpData it keeps
it in S. The data of a line in M go back first. -/
def execBisnpResponse (s : State) : Out :=
  let l := s.input.a
  match s.host.filter.find l with
  | none => .next s
  | some (p, st) =>
    if !s.lineWanted l s.input.flag then .next s
    else
      let t := s.returnLine l st
      let f := if s.input.flag then t.host.filter.erase l else t.host.filter.set l (p, .s)
      .next (({ t with host := { t.host with filter := f } } : State).answered l)

/-- HOST_CXL_MEM_ACCESS: port `c` reads or (`flag`) writes at HBM address `a`, up to 64 bytes of one line, and holds the
line in state `mesi` afterwards (CXL 3.1 only). A line that the other port holds is asked back first. -/
def execHostCxlMemAccess (s : State) : Out :=
  let p := s.input.c
  let l := s.input.a / 64
  let n := min (s.input.b % 65) (64 - s.input.a % 64)
  let mode : LinkMode := (Map.get {} s.host.links (8 * p)).mode
  let own := s.input.flag || s.input.mesi != .s
  let other := match s.host.filter.find l with
    | some (q, st) => q != p && (own || st == Mesi.m)
    | none => false
  if !s.portOpen p then .next (if s.input.flag then s.dropPosted p else s)
  else if mode == .down || hbmSize ≤ s.input.a then .next s
  else if other then
    .next { s with host := { s.host with asked := if s.host.asked.contains (l, own) then s.host.asked else s.host.asked ++ [(l, own)] } }
  else
    let t := if s.input.flag then s.performStore s.input.a (padded n s.input.bytes)
      else s.toHost (if s.poisoned s.input.a n then [] else s.bytes s.input.a n)
    let f := if s.input.mesi == .i then t.host.filter.erase l else t.host.filter.set l (p, s.input.mesi)
    .next (if mode == .cxl31 then { t with host := { t.host with filter := f } } else t)

end Sys2Proof.Machine
end

