-- ==== Sys2Proof/Machine/Attest.lean ====
section
/-! DEFINITION. Attestation: the Harbourmaster as SPDM responder (25 R342, R343). The codes of messages are SPDM's own
(log 16). -/
namespace Sys2Proof.Machine

/-- Answers a request on a port: a message's code, its two parameters and its payload. While TDISP is locked or running
only the holder's port is answered. -/
def State.spdmAnswer (s : State) (p code p1 p2 : Nat) (l : List Byte) : Out :=
  if s.portOpen p then
    let x : Spdm := Map.get {} s.host.spdm p
    .next { s with host := { s.host with spdm := s.host.spdm.set p { x with response := leBytes 4 (0x13 + 2 ^ 8 * code + 2 ^ 16 * p1 + 2 ^ 24 * p2) ++ l } } }
  else .next s

/-- ERROR with an ErrorCode. -/
def State.spdmError (s : State) (p code : Nat) : Out := s.spdmAnswer p 0x7F code 0 []

/-- An answer with a signature over the request and the answer; Busy while the entropy state is locked (R342). -/
def State.spdmSigned (s : State) (p code p1 : Nat) (l : List Byte) : Out :=
  if s.sec.locked then s.spdmError p 3 else s.spdmAnswer p code p1 0 (l ++ falconSign (s.input.bytes ++ l))

/-- The measurement blocks (Table 25-6). -/
def State.measurement (s : State) (i : Nat) : List Byte :=
  let f := if s.boot.standby then s.boot.fuse1 else s.boot.fuse0
  match i with
  | 1 => shake []
  | 2 | 3 | 4 | 5 | 6 => s.boot.digests.getD (i - 2) []
  | 7 => leBytes 3 (fusedCounter f.arb + (if f.vrev then 2 ^ 8 else 0) + 2 ^ 16 * f.oprog.toNat)
  | 8 =>
    leBytes 3 ((match s.host.tdisp with
      | .unlocked => 0
      | .locked => 1
      | .run => 2
      | .error => 3) + 2 ^ 8 * s.host.lease.epoch.toNat)
  | 9 => leBytes 3 ((s.sec.worlds.filter fun w => w.2.slot.isSome).length + if s.sec.locked then 2 ^ 16 else 0)
  | _ => []

/-- The certificate of the device identity key. -/
def certificate : List Byte := Config.crypto 8 []

/-- GET_VERSION on port `a`: SPDM 1.3. -/
def execGetVersion (s : State) : Out := s.spdmAnswer s.input.a 0x04 0 0 (leBytes 2 1 ++ leBytes 2 0x1300)

/-- GET_CAPABILITIES: certificates, challenges and signed measurements. -/
def execGetCapabilities (s : State) : Out := s.spdmAnswer s.input.a 0x61 0 0 (leBytes 4 0x16)

/-- NEGOTIATE_ALGORITHMS: the requester offers Falcon-1024 (`flag`) or SHAKE256 (`flag2`); one that selects neither is
answered with InvalidRequest. -/
def execNegotiateAlgorithms (s : State) : Out :=
  let p := s.input.a
  if !s.input.flag && !s.input.flag2 then s.spdmError p 1
  else
    let x : Spdm := Map.get {} s.host.spdm p
    let t := if s.portOpen p then { s with host := { s.host with spdm := s.host.spdm.set p { x with selected := true } } } else s
    t.spdmAnswer p 0x63 0 0 [if s.input.flag then 1 else 0, if s.input.flag2 then 1 else 0]

/-- GET_DIGESTS. -/
def execGetDigests (s : State) : Out := s.spdmAnswer s.input.a 0x01 0 1 (shake certificate)

/-- GET_CERTIFICATE: `c` bytes of the certificate from offset `b`. -/
def execGetCertificate (s : State) : Out :=
  s.spdmAnswer s.input.a 0x02 0 0 ((certificate.drop s.input.b).take s.input.c)

/-- CHALLENGE: the request stands in `bytes`. -/
def execChallenge (s : State) : Out := s.spdmSigned s.input.a 0x03 0 (shake certificate)

/-- GET_MEASUREMENTS of block `b`, or of all (0xFF), signed with `flag`. -/
def execGetMeasurements (s : State) : Out :=
  let l := if s.input.b == 0xFF then [1, 2, 3, 4, 5, 6, 7, 8, 9].flatMap fun i => BitVec.ofNat 8 i :: s.measurement i
    else BitVec.ofNat 8 s.input.b :: s.measurement s.input.b
  if s.input.flag then s.spdmSigned s.input.a 0x60 0 l else s.spdmAnswer s.input.a 0x60 0 0 l

/-- Any other request: ERROR UnsupportedRequest. -/
def execSpdmUnsupportedRequest (s : State) : Out := s.spdmError s.input.a 7

end Sys2Proof.Machine
end

