-- ==== Sys2Proof/Machine/Dispatch.lean ====
section
/-! DEFINITION. One arm per constructor of `Instr`: a direct call of its meaning. -/
namespace Sys2Proof.Machine

def exec (i : Instr) (s : State) : Host.Outcome State Fault Refusal :=
  match i with
  | .nop => Sys2Proof.Machine.execNop s
  | .addI32 d a b => Sys2Proof.Machine.execAddI32 d a b s
  | .subI32 d a b => Sys2Proof.Machine.execSubI32 d a b s
  | .mulLoI32 d a b => Sys2Proof.Machine.execMulLoI32 d a b s
  | .andL32 d a b => Sys2Proof.Machine.execAndL32 d a b s
  | .orL32 d a b => Sys2Proof.Machine.execOrL32 d a b s
  | .xorL32 d a b => Sys2Proof.Machine.execXorL32 d a b s
  | .andnL32 d a b => Sys2Proof.Machine.execAndnL32 d a b s
  | .shlL32 d a b => Sys2Proof.Machine.execShlL32 d a b s
  | .shrL32 d a b => Sys2Proof.Machine.execShrL32 d a b s
  | .sraL32 d a b => Sys2Proof.Machine.execSraL32 d a b s
  | .rotlL32 d a b => Sys2Proof.Machine.execRotlL32 d a b s
  | .minI32 d a b => Sys2Proof.Machine.execMinI32 d a b s
  | .minN32 d a b => Sys2Proof.Machine.execMinN32 d a b s
  | .maxI32 d a b => Sys2Proof.Machine.execMaxI32 d a b s
  | .maxN32 d a b => Sys2Proof.Machine.execMaxN32 d a b s
  | .mov d a => Sys2Proof.Machine.execMov d a s
  | .not d a => Sys2Proof.Machine.execNot d a s
  | .negI32 d a => Sys2Proof.Machine.execNegI32 d a s
  | .absI32 d a => Sys2Proof.Machine.execAbsI32 d a s
  | .popc d a => Sys2Proof.Machine.execPopc d a s
  | .clz d a => Sys2Proof.Machine.execClz d a s
  | .ctz d a => Sys2Proof.Machine.execCtz d a s
  | .brev d a => Sys2Proof.Machine.execBrev d a s
  | .lwin k => Sys2Proof.Machine.execLwin k s
  | .pb m n pat => Sys2Proof.Machine.execPb m n pat s
  | .qmode p => Sys2Proof.Machine.execQmode p s
  | .fsetm a => Sys2Proof.Machine.execFsetm a s
  | .fgetm d => Sys2Proof.Machine.execFgetm d s
  | .mcfg a => Sys2Proof.Machine.execMcfg a s
  | .mand d a b => Sys2Proof.Machine.execMand d a b s
  | .mor d a b => Sys2Proof.Machine.execMor d a b s
  | .mxor d a b => Sys2Proof.Machine.execMxor d a b s
  | .mnot d a => Sys2Proof.Machine.execMnot d a s
  | .mpopc d a => Sys2Proof.Machine.execMpopc d a s
  | .mfirst d a => Sys2Proof.Machine.execMfirst d a s
  | .mpush a => Sys2Proof.Machine.execMpush a s
  | .mpop d => Sys2Proof.Machine.execMpop d s
  | .mset d a => Sys2Proof.Machine.execMset d a s
  | .shfl d a b => Sys2Proof.Machine.execShfl d a b s
  | .compress d a => Sys2Proof.Machine.execCompress d a s
  | .expand d a => Sys2Proof.Machine.execExpand d a s
  | .qswapH d a => Sys2Proof.Machine.execQswapH d a s
  | .qswapV d a => Sys2Proof.Machine.execQswapV d a s
  | .qswapD d a => Sys2Proof.Machine.execQswapD d a s
  | .fbpush a => Sys2Proof.Machine.execFbpush a s
  | .fbany a => Sys2Proof.Machine.execFbany a s
  | .fball a => Sys2Proof.Machine.execFball a s
  | .fbcnt a => Sys2Proof.Machine.execFbcnt a s
  | .join => Sys2Proof.Machine.execJoin s
  | .cret => Sys2Proof.Machine.execCret s
  | .cnext => Sys2Proof.Machine.execCnext s
  | .cend => Sys2Proof.Machine.execCend s
  | .brk => Sys2Proof.Machine.execBrk s
  | .mfence => Sys2Proof.Machine.execMfence s
  | .mpoll d => Sys2Proof.Machine.execMpoll d s
  | .mdrain => Sys2Proof.Machine.execMdrain s
  | .bbar => Sys2Proof.Machine.execBbar s
  | .cbarArv => Sys2Proof.Machine.execCbarArv s
  | .cbarWt => Sys2Proof.Machine.execCbarWt s
  | .add t sat d a b => Sys2Proof.Machine.execAdd t sat d a b s
  | .addImm t sat d a imm => Sys2Proof.Machine.execAddImm t sat d a imm s
  | .sub t sat d a b => Sys2Proof.Machine.execSub t sat d a b s
  | .subImm t sat d a imm => Sys2Proof.Machine.execSubImm t sat d a imm s
  | .mulLo t sat d a b => Sys2Proof.Machine.execMulLo t sat d a b s
  | .mulLoImm t sat d a imm => Sys2Proof.Machine.execMulLoImm t sat d a imm s
  | .mulHi t d a b => Sys2Proof.Machine.execMulHi t d a b s
  | .mulHiImm t d a imm => Sys2Proof.Machine.execMulHiImm t d a imm s
  | .mad t sat d a b c => Sys2Proof.Machine.execMad t sat d a b c s
  | .madImm t sat d a c imm => Sys2Proof.Machine.execMadImm t sat d a c imm s
  | .madWide t d a b c => Sys2Proof.Machine.execMadWide t d a b c s
  | .div t d a b => Sys2Proof.Machine.execDiv t d a b s
  | .divImm t d a imm => Sys2Proof.Machine.execDivImm t d a imm s
  | .rem t d a b => Sys2Proof.Machine.execRem t d a b s
  | .remImm t d a imm => Sys2Proof.Machine.execRemImm t d a imm s
  | .min t d a b => Sys2Proof.Machine.execMin t d a b s
  | .minImm t d a imm => Sys2Proof.Machine.execMinImm t d a imm s
  | .max t d a b => Sys2Proof.Machine.execMax t d a b s
  | .maxImm t d a imm => Sys2Proof.Machine.execMaxImm t d a imm s
  | .and t d a b => Sys2Proof.Machine.execAnd t d a b s
  | .andImm t d a imm => Sys2Proof.Machine.execAndImm t d a imm s
  | .or t d a b => Sys2Proof.Machine.execOr t d a b s
  | .orImm t d a imm => Sys2Proof.Machine.execOrImm t d a imm s
  | .xor t d a b => Sys2Proof.Machine.execXor t d a b s
  | .xorImm t d a imm => Sys2Proof.Machine.execXorImm t d a imm s
  | .andn t d a b => Sys2Proof.Machine.execAndn t d a b s
  | .andnImm t d a imm => Sys2Proof.Machine.execAndnImm t d a imm s
  | .shl t d a b => Sys2Proof.Machine.execShl t d a b s
  | .shlImm t d a sh => Sys2Proof.Machine.execShlImm t d a sh s
  | .shr t d a b => Sys2Proof.Machine.execShr t d a b s
  | .shrImm t d a sh => Sys2Proof.Machine.execShrImm t d a sh s
  | .sra t d a b => Sys2Proof.Machine.execSra t d a b s
  | .sraImm t d a sh => Sys2Proof.Machine.execSraImm t d a sh s
  | .rotl t d a b => Sys2Proof.Machine.execRotl t d a b s
  | .rotlImm t d a sh => Sys2Proof.Machine.execRotlImm t d a sh s
  | .addc t d a b c => Sys2Proof.Machine.execAddc t d a b c s
  | .subb t d a b c => Sys2Proof.Machine.execSubb t d a b c s
  | .bfx t d a b c => Sys2Proof.Machine.execBfx t d a b c s
  | .bfxImm t d a pos len => Sys2Proof.Machine.execBfxImm t d a pos len s
  | .bfi t d a b c => Sys2Proof.Machine.execBfi t d a b c s
  | .bfiImm t d a pos len => Sys2Proof.Machine.execBfiImm t d a pos len s
  | .cmp k t d a b => Sys2Proof.Machine.execCmp k t d a b s
  | .cmpImm k t d a imm => Sys2Proof.Machine.execCmpImm k t d a imm s
  | .sel t d a b c => Sys2Proof.Machine.execSel t d a b c s
  | .movi t d imm => Sys2Proof.Machine.execMovi t d imm s
  | .li t d lit => Sys2Proof.Machine.execLi t d lit s
  | .fadd t rm d a b => Sys2Proof.Machine.execFadd t rm d a b s
  | .fsub t rm d a b => Sys2Proof.Machine.execFsub t rm d a b s
  | .fmul t rm d a b => Sys2Proof.Machine.execFmul t rm d a b s
  | .ffma t rm d a b c => Sys2Proof.Machine.execFfma t rm d a b c s
  | .fmin t d a b => Sys2Proof.Machine.execFmin t d a b s
  | .fmax t d a b => Sys2Proof.Machine.execFmax t d a b s
  | .fminnum t d a b => Sys2Proof.Machine.execFminnum t d a b s
  | .fmaxnum t d a b => Sys2Proof.Machine.execFmaxnum t d a b s
  | .fmaxabs t d a b => Sys2Proof.Machine.execFmaxabs t d a b s
  | .fcopysign t d a b => Sys2Proof.Machine.execFcopysign t d a b s
  | .fdiv t rm d a b => Sys2Proof.Machine.execFdiv t rm d a b s
  | .fsqrt t rm d a => Sys2Proof.Machine.execFsqrt t rm d a s
  | .fscale t rm d a b => Sys2Proof.Machine.execFscale t rm d a b s
  | .frnd t rm d a => Sys2Proof.Machine.execFrnd t rm d a s
  | .fcmp k t d a b => Sys2Proof.Machine.execFcmp k t d a b s
  | .fclass t d a => Sys2Proof.Machine.execFclass t d a s
  | .fsel t d a b c => Sys2Proof.Machine.execFsel t d a b c s
  | .frcp d a => Sys2Proof.Machine.execFrcp d a s
  | .frsq d a => Sys2Proof.Machine.execFrsq d a s
  | .fexp2 d a => Sys2Proof.Machine.execFexp2 d a s
  | .flog2 d a => Sys2Proof.Machine.execFlog2 d a s
  | .fsin d a => Sys2Proof.Machine.execFsin d a s
  | .fcos d a => Sys2Proof.Machine.execFcos d a s
  | .fdot2 t rm d a b c => Sys2Proof.Machine.execFdot2 t rm d a b c s
  | .cvt tgt src rm sat d a e => Sys2Proof.Machine.execCvt tgt src rm sat d a e s
  | .bcast d a b => Sys2Proof.Machine.execBcast d a b s
  | .bcastImm d a n => Sys2Proof.Machine.execBcastImm d a n s
  | .slideup d a b => Sys2Proof.Machine.execSlideup d a b s
  | .slideupImm d a n => Sys2Proof.Machine.execSlideupImm d a n s
  | .slidedn d a b => Sys2Proof.Machine.execSlidedn d a b s
  | .slidednImm d a n => Sys2Proof.Machine.execSlidednImm d a n s
  | .qbcast d a p => Sys2Proof.Machine.execQbcast d a p s
  | .gred op t a => Sys2Proof.Machine.execGred op t a s
  | .gscan t a => Sys2Proof.Machine.execGscan t a s
  | .ld sp z sext d a off => Sys2Proof.Machine.execLd sp z sext d a off s
  | .ldAcq scope sp z d a off => Sys2Proof.Machine.execLdAcq scope sp z d a off s
  | .st sp z a b off => Sys2Proof.Machine.execSt sp z a b off s
  | .stRel scope sp z a b off => Sys2Proof.Machine.execStRel scope sp z a b off s
  | .atom op t sp ord d a b c => Sys2Proof.Machine.execAtom op t sp ord d a b c s
  | .atomRadd sp ord d a b c => Sys2Proof.Machine.execAtomRadd sp ord d a b c s
  | .fence k scope => Sys2Proof.Machine.execFence k scope s
  | .l1inv scope => Sys2Proof.Machine.execL1inv scope s
  | .prefetch l2 sp a off => Sys2Proof.Machine.execPrefetch l2 sp a off s
  | .mspill sp a off => Sys2Proof.Machine.execMspill sp a off s
  | .mfill sp a off => Sys2Proof.Machine.execMfill sp a off s
  | .cbr off => Sys2Proof.Machine.execCbr off s
  | .cjmp off => Sys2Proof.Machine.execCjmp off s
  | .ccall off => Sys2Proof.Machine.execCcall off s
  | .cloop off => Sys2Proof.Machine.execCloop off s
  | .trap code => Sys2Proof.Machine.execTrap code s
  | .rsend a ch => Sys2Proof.Machine.execRsend a ch s
  | .rrecv d ch => Sys2Proof.Machine.execRrecv d ch s
  | .mma scl asrc a pitch => Sys2Proof.Machine.execMma scl asrc a pitch s
  | .mmaSp scl asrc a pitch => Sys2Proof.Machine.execMmaSp scl asrc a pitch s
  | .msc a => Sys2Proof.Machine.execMsc a s
  | .mlut tb => Sys2Proof.Machine.execMlut tb s
  | .tbldSub pm asrc tb d a => Sys2Proof.Machine.execTbldSub pm asrc tb d a s
  | .tbldProd asrc tb cb d a => Sys2Proof.Machine.execTbldProd asrc tb cb d a s
  | .cbld tb d a scale lenm1 => Sys2Proof.Machine.execCbld tb d a scale lenm1 s
  | .tbspill tb a => Sys2Proof.Machine.execTbspill tb a s
  | .tbfill tb a => Sys2Proof.Machine.execTbfill tb a s
  | .tbinv tb => Sys2Proof.Machine.execTbinv tb s
  | .tbstat tb d => Sys2Proof.Machine.execTbstat tb d s
  | .tsld d a nm1 pitch => Sys2Proof.Machine.execTsld d a nm1 pitch s
  | .tsst a b nm1 pitch => Sys2Proof.Machine.execTsst a b nm1 pitch s
  | .tszero => Sys2Proof.Machine.execTszero s
  | .tscvt d tgt => Sys2Proof.Machine.execTscvt d tgt s
  | .mwait n => Sys2Proof.Machine.execMwait n s
  | .zLdq t q rs1 rs2 => Sys2Proof.Machine.execZLdq t q rs1 rs2 s
  | .zLdqNf t q rs1 rs2 => Sys2Proof.Machine.execZLdqNf t q rs1 rs2 s
  | .zLdqt q rs1 rs2 => Sys2Proof.Machine.execZLdqt q rs1 rs2 s
  | .zLdqtNf q rs1 rs2 => Sys2Proof.Machine.execZLdqtNf q rs1 rs2 s
  | .zStq t rs1 rs2 => Sys2Proof.Machine.execZStq t rs1 rs2 s
  | .zStqt rs1 rs2 => Sys2Proof.Machine.execZStqt rs1 rs2 s
  | .zScq rs1 => Sys2Proof.Machine.execZScq rs1 s
  | .zCtok rs1 => Sys2Proof.Machine.execZCtok rs1 s
  | .zFbpop rd => Sys2Proof.Machine.execZFbpop rd s
  | .zJoin => Sys2Proof.Machine.execZJoin s
  | .zQdrop q n => Sys2Proof.Machine.execZQdrop q n s
  | .zBfb rs1 off => Sys2Proof.Machine.execZBfb rs1 off s
  | .zCpyin ch rd rs1 rs2 => Sys2Proof.Machine.execZCpyin ch rd rs1 rs2 s
  | .zCpyout ch rd rs1 rs2 => Sys2Proof.Machine.execZCpyout ch rd rs1 rs2 s
  | .zCpyx ch rd rs1 rs2 => Sys2Proof.Machine.execZCpyx ch rd rs1 rs2 s
  | .zCpywb ch rd rs1 rs2 => Sys2Proof.Machine.execZCpywb ch rd rs1 rs2 s
  | .zCpywait ch rd rs1 => Sys2Proof.Machine.execZCpywait ch rd rs1 s
  | .zMbadd rs1 rs2 => Sys2Proof.Machine.execZMbadd rs1 rs2 s
  | .zMbwait rd rs1 rs2 => Sys2Proof.Machine.execZMbwait rd rs1 rs2 s
  | .zMbrd rd rs1 => Sys2Proof.Machine.execZMbrd rd rs1 s
  | .zMbset rs1 rs2 => Sys2Proof.Machine.execZMbset rs1 rs2 s
  | .zSend rd rs1 rs2 => Sys2Proof.Machine.execZSend rd rs1 rs2 s
  | .zRecv rd rs1 => Sys2Proof.Machine.execZRecv rd rs1 s
  | .zRdone rs1 => Sys2Proof.Machine.execZRdone rs1 s
  | .zBbar => Sys2Proof.Machine.execZBbar s
  | .zBbarArv => Sys2Proof.Machine.execZBbarArv s
  | .zBbarWt => Sys2Proof.Machine.execZBbarWt s
  | .zCbarArv => Sys2Proof.Machine.execZCbarArv s
  | .zCbarWt => Sys2Proof.Machine.execZCbarWt s
  | .zLaunch rd rs1 => Sys2Proof.Machine.execZLaunch rd rs1 s
  | .zJwait rd rs1 => Sys2Proof.Machine.execZJwait rd rs1 s
  | .zExit rs1 => Sys2Proof.Machine.execZExit rs1 s
  | .zTadr rd rs1 rs2 => Sys2Proof.Machine.execZTadr rd rs1 rs2 s
  | .zTadv rd rs1 rs2 => Sys2Proof.Machine.execZTadv rd rs1 rs2 s
  | .zFence k scope => Sys2Proof.Machine.execZFence k scope s
  | .zL1wb rs1 rs2 => Sys2Proof.Machine.execZL1wb rs1 rs2 s
  | .zRank rd rs1 rs2 => Sys2Proof.Machine.execZRank rd rs1 rs2 s
  | .zTide rd => Sys2Proof.Machine.execZTide rd s
  | .zTidewait rd rs1 => Sys2Proof.Machine.execZTidewait rd rs1 s
  | .zQuiesce rd => Sys2Proof.Machine.execZQuiesce rd s
  | .zCsave rs1 rs2 => Sys2Proof.Machine.execZCsave rs1 rs2 s
  | .zCrest rs1 rs2 => Sys2Proof.Machine.execZCrest rs1 rs2 s
  | .zPjrd rd rs1 => Sys2Proof.Machine.execZPjrd rd rs1 s
  | .zSample rd rs1 => Sys2Proof.Machine.execZSample rd rs1 s
  | .hartLoad k rd rs1 imm => Sys2Proof.Machine.execHartLoad k rd rs1 imm s
  | .hartStore k rs1 rs2 imm => Sys2Proof.Machine.execHartStore k rs1 rs2 imm s
  | .hartAmo op dbl aq rl rd rs1 rs2 => Sys2Proof.Machine.execHartAmo op dbl aq rl rd rs1 rs2 s
  | .hartLr dbl aq rl rd rs1 => Sys2Proof.Machine.execHartLr dbl aq rl rd rs1 s
  | .hartSc dbl aq rl rd rs1 rs2 => Sys2Proof.Machine.execHartSc dbl aq rl rd rs1 rs2 s
  | .hartFence fm pred succ rd rs1 => Sys2Proof.Machine.execHartFence fm pred succ rd rs1 s
  | .fenceI rd rs1 imm => Sys2Proof.Machine.execFenceI rd rs1 imm s
  | .ecall => Sys2Proof.Machine.execEcall s
  | .ebreak => Sys2Proof.Machine.execEbreak s
  | .mret => Sys2Proof.Machine.execMret s
  | .wfi => Sys2Proof.Machine.execWfi s
  | .csrAccess csr op rd src => Sys2Proof.Machine.execCsrAccess csr op rd src s
  | .hartInstruction op => Sys2Proof.Machine.execHartInstruction op s
  | .slipWrite op rd src => Sys2Proof.Machine.execSlipWrite op rd src s
  | .mstatWrite op rd src => Sys2Proof.Machine.execMstatWrite op rd src s
  | .mlpcWrite op rd src => Sys2Proof.Machine.execMlpcWrite op rd src s
  | .cedoneRead ch op rd src => Sys2Proof.Machine.execCedoneRead ch op rd src s
  | .unassignedLaneOpcode w => Sys2Proof.Machine.execUnassignedLaneOpcode w s
  | .blockPlacement => Sys2Proof.Machine.execBlockPlacement s
  | .blockRetirement => Sys2Proof.Machine.execBlockRetirement s
  | .matrixCompletion => Sys2Proof.Machine.execMatrixCompletion s
  | .copyStart => Sys2Proof.Machine.execCopyStart s
  | .copyCompletion => Sys2Proof.Machine.execCopyCompletion s
  | .queueLoadArrival => Sys2Proof.Machine.execQueueLoadArrival s
  | .replayArrival => Sys2Proof.Machine.execReplayArrival s
  | .laneAccessComplete => Sys2Proof.Machine.execLaneAccessComplete s
  | .hartAccessResponse => Sys2Proof.Machine.execHartAccessResponse s
  | .postedWriteArrival => Sys2Proof.Machine.execPostedWriteArrival s
  | .journalAck => Sys2Proof.Machine.execJournalAck s
  | .journalRefusal => Sys2Proof.Machine.execJournalRefusal s
  | .mailboxIncrementArrival => Sys2Proof.Machine.execMailboxIncrementArrival s
  | .ringMessageArrival => Sys2Proof.Machine.execRingMessageArrival s
  | .rankContributionArrival => Sys2Proof.Machine.execRankContributionArrival s
  | .reductionInputArrival => Sys2Proof.Machine.execReductionInputArrival s
  | .routerFold => Sys2Proof.Machine.execRouterFold s
  | .reductionResultLanded => Sys2Proof.Machine.execReductionResultLanded s
  | .absenceTokenArrival => Sys2Proof.Machine.execAbsenceTokenArrival s
  | .hartCacheEviction => Sys2Proof.Machine.execHartCacheEviction s
  | .asyncTrapTaken => Sys2Proof.Machine.execAsyncTrapTaken s
  | .externalInterrupt => Sys2Proof.Machine.execExternalInterrupt s
  | .decouplingDeadlock => Sys2Proof.Machine.execDecouplingDeadlock s
  | .watchdogExpiry => Sys2Proof.Machine.execWatchdogExpiry s
  | .remoteWaitTimeout => Sys2Proof.Machine.execRemoteWaitTimeout s
  | .tidewaitReached => Sys2Proof.Machine.execTidewaitReached s
  | .gangStrike => Sys2Proof.Machine.execGangStrike s
  | .gangSuspend => Sys2Proof.Machine.execGangSuspend s
  | .gangResume => Sys2Proof.Machine.execGangResume s
  | .noticeWrite => Sys2Proof.Machine.execNoticeWrite s
  | .shootdownRequest => Sys2Proof.Machine.execShootdownRequest s
  | .shootdownDone => Sys2Proof.Machine.execShootdownDone s
  | .breakwaterRefill => Sys2Proof.Machine.execBreakwaterRefill s
  | .breakwaterPass => Sys2Proof.Machine.execBreakwaterPass s
  | .eccError => Sys2Proof.Machine.execEccError s
  | .kilsetWrite => Sys2Proof.Machine.execKilsetWrite s
  | .mondbClear => Sys2Proof.Machine.execMondbClear s
  | .mbctrWrite => Sys2Proof.Machine.execMbctrWrite s
  | .blkerrWrite => Sys2Proof.Machine.execBlkerrWrite s
  | .partdieWrite => Sys2Proof.Machine.execPartdieWrite s
  | .bootstStageWrite => Sys2Proof.Machine.execBootstStageWrite s
  | .bstoreWrite => Sys2Proof.Machine.execBstoreWrite s
  | .hqReset => Sys2Proof.Machine.execHqReset s
  | .registerWrite => Sys2Proof.Machine.execRegisterWrite s
  | .coldReset => Sys2Proof.Machine.execColdReset s
  | .failoverTimer => Sys2Proof.Machine.execFailoverTimer s
  | .ctxCreate => Sys2Proof.Machine.execCtxCreate s
  | .ctxDestroy => Sys2Proof.Machine.execCtxDestroy s
  | .worldSuspend => Sys2Proof.Machine.execWorldSuspend s
  | .worldResume => Sys2Proof.Machine.execWorldResume s
  | .worldDestroy => Sys2Proof.Machine.execWorldDestroy s
  | .handleSet => Sys2Proof.Machine.execHandleSet s
  | .handleClear => Sys2Proof.Machine.execHandleClear s
  | .vaultGrant => Sys2Proof.Machine.execVaultGrant s
  | .entropyRestart => Sys2Proof.Machine.execEntropyRestart s
  | .badCall => Sys2Proof.Machine.execBadCall s
  | .hqDoorbell => Sys2Proof.Machine.execHqDoorbell s
  | .hqCompletionHead => Sys2Proof.Machine.execHqCompletionHead s
  | .hostNop => Sys2Proof.Machine.execHostNop s
  | .hostLaunch => Sys2Proof.Machine.execHostLaunch s
  | .hostShootdown => Sys2Proof.Machine.execHostShootdown s
  | .pageTake => Sys2Proof.Machine.execPageTake s
  | .pageReturn => Sys2Proof.Machine.execPageReturn s
  | .badCommand => Sys2Proof.Machine.execBadCommand s
  | .hlreqRenew => Sys2Proof.Machine.execHlreqRenew s
  | .hlreqClaim => Sys2Proof.Machine.execHlreqClaim s
  | .leaseExpiry => Sys2Proof.Machine.execLeaseExpiry s
  | .linkTraining => Sys2Proof.Machine.execLinkTraining s
  | .linkDown => Sys2Proof.Machine.execLinkDown s
  | .ideFailure => Sys2Proof.Machine.execIdeFailure s
  | .lockInterface => Sys2Proof.Machine.execLockInterface s
  | .startInterface => Sys2Proof.Machine.execStartInterface s
  | .stopInterface => Sys2Proof.Machine.execStopInterface s
  | .snpData => Sys2Proof.Machine.execSnpData s
  | .snpInv => Sys2Proof.Machine.execSnpInv s
  | .snpCur => Sys2Proof.Machine.execSnpCur s
  | .cxlGo => Sys2Proof.Machine.execCxlGo s
  | .bisnpResponse => Sys2Proof.Machine.execBisnpResponse s
  | .hostCxlMemAccess => Sys2Proof.Machine.execHostCxlMemAccess s
  | .getVersion => Sys2Proof.Machine.execGetVersion s
  | .getCapabilities => Sys2Proof.Machine.execGetCapabilities s
  | .negotiateAlgorithms => Sys2Proof.Machine.execNegotiateAlgorithms s
  | .getDigests => Sys2Proof.Machine.execGetDigests s
  | .getCertificate => Sys2Proof.Machine.execGetCertificate s
  | .challenge => Sys2Proof.Machine.execChallenge s
  | .getMeasurements => Sys2Proof.Machine.execGetMeasurements s
  | .spdmUnsupportedRequest => Sys2Proof.Machine.execSpdmUnsupportedRequest s
  | .prefetchFill => Sys2Proof.Machine.execPrefetchFill s
  | .entropyHealthTestFailure => Sys2Proof.Machine.execEntropyHealthTestFailure s

end Sys2Proof.Machine
end

