-- ==== Sys2Proof/Machine/Step.lean ====
section
/-! DEFINITION. One step of the machine: whose move it is, the fetch and decoding of an instruction of either stream,
the meaning, and the passing of time. -/
namespace Sys2Proof.Machine

/-- The step of a stream or another agent, before time passes. -/
def act (s : State) : Out :=
  match s.turn with
  | .hart k =>
    let s := s.focus k
    match hartFetch s with
    | .stop t => .next t
    | .run i t => exec i t
  | .lanes k =>
    let s := s.focus k
    match laneFetch s with
    | .stop t => .next t
    | .run i t => exec i t
  | .event i => exec i s

/-- One step: the agent whose turn it is moves, time passes, and the next mover is chosen freely (log 1). -/
def step (s : State) : Host.Outcome State Fault Refusal :=
  match act s with
  | .next t => .next t.tick
  | .fault f => .fault f
  | .refused r => .refused r

/-- The machine with one group on slot 0 of core 0, its code at VA 0x1000 of a page held by its translation unit, the
instruction's words there, and that stream's move next (log 11). -/
def State.withFetchWord (s : State) (nbits w : Nat) : State :=
  let hart := tableIsHart nbits w
  let bytes := leBytes 12 (w % 2 ^ nbits)
  { s with
    turn := if hart then .hart 0 else .lanes 0
    mem := Memory.writeBytes s.mem 0x1000 bytes
    tlb := [{ asid := 1, va := 0, size := 2 ^ 30, pa := 0, rd := true, wr := true, ex := true, unit := 1 }]
    launches := s.launches.set 0 { asid := 1, live := 1, next := 1 }
    blocks := s.blocks.set 0 { slots := [0], scratch := 1024, tiles := 4096, wbuf := 8192, ntables := 1, nregs := 32 }
    groups := s.groups.set 0 { status := .live, pc := 0x1000, lpc := 0x1000, nregs := 32 } }

end Sys2Proof.Machine
end

