-- ==== Sys2Proof/Safety.lean ====
section
/-! DEFINITION. The terms of the statements: what a safe run is, and what a step of a stream may change. -/
namespace Sys2Proof

/-- The outcome of a step is a next state. -/
def Goes (o : Host.Outcome Machine.State Machine.Fault Machine.Refusal) : Prop := ∃ t, o = .next t

/-- A run of `n` steps that goes on. -/
def SafeRun (n : Nat) (s : Machine.State) : Prop := Goes (core.run n s)

/-- The invariant of every state: memory is in its canonical form. -/
def Inv (s : Machine.State) : Prop := Machine.Memory.wf s.mem = true

/-- The words `l` are read back as `i`, whatever stands after them; the low bits of the first word give their number
(04 R74), and a hart word is read by the hart's decoder. -/
def DecodesTo (l : List W32) (i : Instr) : Prop :=
  match l with
  | [] => i.isEvent = true
  | [w] => decodeHart w = .ok i
      ∨ ((laneLength w = 4 ∨ i = .unassignedLaneOpcode w) ∧ ∀ w1 w2, decodeLane w w1 w2 = .ok i)
  | [w0, w1] => laneLength w0 = 8 ∧ ∀ w2, decodeLane w0 w1 w2 = .ok i
  | [w0, w1, w2] => laneLength w0 = 12 ∧ decodeLane w0 w1 w2 = .ok i
  | _ => False

namespace Machine

/-- Only the acting group's record may differ; every byte of memory reads as before. -/
def OnlyGroup (s t : State) : Prop :=
  t = { s with groups := t.groups } ∧ (∀ k, k ≠ s.cur → t.grpAt k = s.grpAt k)
  ∧ ∀ a, Memory.read t.mem a = Memory.read s.mem a

/-- A table register as it was, or no longer valid. -/
def TableKept (a b : Table) : Prop := b = a ∨ b = { a with valid := false }

/-- As `OnlyGroup`, but tables built from what was written may have been invalidated, with their tracking entries. -/
def OnlyGroupAndTables (s t : State) : Prop :=
  t = { s with groups := t.groups, cores := t.cores, blocks := t.blocks } ∧ (∀ k, k ≠ s.cur → t.grpAt k = s.grpAt k)
  ∧ (∀ c, t.coreAt c = { s.coreAt c with tracks := (t.coreAt c).tracks })
  ∧ (∀ b, t.blkAt b = { s.blkAt b with tables := (t.blkAt b).tables })
  ∧ (∀ b n, TableKept (Map.get {} (s.blkAt b).tables n) (Map.get {} (t.blkAt b).tables n))
  ∧ ∀ a, Memory.read t.mem a = Memory.read s.mem a

/-- The acting group with its sources popped and its compute stream past an instruction, nothing else changed. -/
def Group.advanced (g : Group) (o : LaneForm) : Group := (g.pop o.srcs).laneNext o.len

/-- What a lane holds of a result: all 64 bits of a pair, else the low 32. -/
def heldValue (wide : Bool) (v : W64) : W64 := if wide then v else (v.setWidth 32).setWidth 64

/-- Whether physical register `p` belongs to a window destination. -/
def Group.destHas (g : Group) (wide : Bool) (d : Code) (p : Nat) : Prop :=
  d.toNat < 112 ∧ (p = g.wbase + d.toNat ∨ (wide = true ∧ p = g.wbase + d.toNat + 1))

/-- A completed lane instruction that writes `v i` in each lane `i` of `act` of its destination, and nothing else: the
other lanes and registers, masks, modes and memory stay; code 116 appends one stq entry, 119 writes nothing. -/
def LaneWrites (s : State) (o : LaneForm) (wide : Bool) (d : Code) (act : LaneMask) (v : Nat → W64) (t : State) : Prop :=
  OnlyGroupAndTables s t
  ∧ t.grp = { s.grp.advanced o with win := t.grp.win, stq := t.grp.stq }
  ∧ (d.toNat < 112 → ∀ i, i < 64 → t.grp.window wide d.toNat i =
      if act.getLsbD i then heldValue wide (v i) else s.grp.window wide d.toNat i)
  ∧ (∀ p i, ¬s.grp.destHas wide d p → t.grp.reg p i = s.grp.reg p i)
  ∧ t.grp.stq = if d.toNat = 116
      then s.grp.stq ++ [⟨lanes fun i => if act.getLsbD i then (v i).setWidth 32 else 0, act⟩] else s.grp.stq

/-- Whenever `i` starts, it completes with `v` of its sources in its active lanes. -/
def LaneGives (i : Instr) (o : LaneForm) (wide : Bool) (d : Code) (v : State → (Nat → Nat → W64) → Nat → W64) : Prop :=
  ∀ s, o.starts s → ∃ t, exec i s = .next t
    ∧ LaneWrites s o wide d s.grp.active (v s fun k n => argAt (s.grp.vectors o.srcs) k n) t

/-- Whenever `i` starts, it completes with a mask written and nothing else. -/
def MaskGives (i : Instr) (o : LaneForm) (m : Code) (v : State → (Nat → Nat → W64) → LaneMask) : Prop :=
  ∀ s, o.starts s → ∃ t, exec i s = .next t ∧ OnlyGroup s t
    ∧ t.grp = (s.grp.advanced o).setMask m (v s fun k n => argAt (s.grp.vectors o.srcs) k n)

/-- Whenever `i` starts and its sources pass `ok`, it completes with its group's own record changed by `f`. -/
def GroupGives (i : Instr) (o : LaneForm) (ok : State → (Nat → Nat → W64) → Prop)
    (f : State → (Nat → Nat → W64) → Group → Group) : Prop :=
  ∀ s, o.starts s → (ok s fun k n => argAt (s.grp.vectors o.srcs) k n) → ∃ t, exec i s = .next t ∧ OnlyGroup s t
    ∧ t.grp = f s (fun k n => argAt (s.grp.vectors o.srcs) k n) (s.grp.advanced o)

-- Forms of lane instructions, by their typed or 32-bit sources.

def short1 (d a : Code) : LaneForm := laneForm 4 false d [src32 a]
def short2 (d a b : Code) : LaneForm := laneForm 4 false d [src32 a, src32 b]
def long1 (d a : Code) : LaneForm := laneForm 8 false d [src32 a]
def typed1 (t : Ty) (d a : Code) : LaneForm := laneForm 8 t.wide d [srcOf t a]
def typed2 (t : Ty) (d a b : Code) : LaneForm := laneForm 8 t.wide d [srcOf t a, srcOf t b]
def typed3 (t : Ty) (d a b c : Code) : LaneForm := laneForm 8 t.wide d [srcOf t a, srcOf t b, srcOf t c]
/-- The shift forms: the count is 32-bit unsigned whatever the type. -/
def shift2 (t : Ty) (d a b : Code) : LaneForm := laneForm 8 t.wide d [srcOf t a, src32 b]
/-- The comparison forms: a mask destination. -/
def compare1 (t : Ty) (m a : Code) : LaneForm := { len := 8, srcs := [srcOf t a], ok := fun _ => maskOk m }
def compare2 (t : Ty) (m a b : Code) : LaneForm := { len := 8, srcs := [srcOf t a, srcOf t b], ok := fun _ => maskOk m }
/-- A form with an extra condition on a field. -/
def LaneForm.also (o : LaneForm) (p : Bool) : LaneForm := { o with ok := fun g => o.ok g && p }

/-- A record with one more entry in fbq: a hart that waited on the empty queue is ready again, its wait in ldec (05 R91). -/
def Group.fbqAdded (g : Group) (cycles : Nat) (v : W64) : Group :=
  { g.fbqReady cycles with fbq := (g.fbqReady cycles).fbq ++ [v] }

-- The access stream.

/-- No register of a list waits for a copy (02 R52). -/
def State.hartFree (s : State) (l : List XReg) : Prop := ∀ r ∈ l, s.grp.tokenBusy r = false

/-- Whether a dirty sector of a hart data cache holds a byte of physical memory: a write at the sector's home takes it
along (13 R227). -/
def State.dirtyAt (s : State) (a : Nat) : Prop := ∃ d ∈ s.dirty, d.pa ≤ a ∧ a < d.pa + d.bytes.length

/-- The state in which a hart instruction that names these registers acts: the completed copy tokens that they hold are
observed, which ends them (10 R174). -/
def State.settled (s : State) (reads writes : List XReg) : State :=
  if s.grp.tokens.isEmpty then s else s.observe reads writes

/-- The hart has nothing to release: no posted request in flight, no queue load still to be read at a distant home, no dirty
sector, no line of a host being given up. -/
def State.hartClean (s : State) : Prop :=
  s.grp.hartInFlight = false ∧ s.dirtyBy s.cur = [] ∧ s.evicting s.coreNo = false ∧ s.grp.loadsAway = false

end Machine
end Sys2Proof
end

