-- ==== Sys2Proof/Certificates/Slice0/Obligations.lean ====
section
/-! DEFINITION. The statements for the provers: what each instruction and each move of another agent does, what it leaves
unchanged, that it completes, and what the whole machine keeps. -/
open Sys2Proof Sys2Proof.Machine

/-- 04 R74, R76, R79, R85, R86: words written out field by field from the layouts of Tables 4-1 to 4-6 and the entries'
tables decode to the instructions they stand for; the later words of a short instruction do not matter. -/
def Obligations.WrittenWordsDecode : Prop :=
  (∀ w1 w2, decodeLane 0xEE041020#32 w1 w2 = .ok (.mov 2 1) ∧ decodeLane 0x0A101802#32 w1 w2 = .ok (.addI32 3 4 5)
    ∧ decodeLane 0xEFDFB886#32 w1 w2 = .ok .cend)
  ∧ (∀ w2, decodeLane 0x0608090D#32 0x00001484#32 w2 = .ok (.ffma .f32 .rne 1 2 3 4)
    ∧ decodeLane 0xEE2031C1#32 0x00100177#32 w2 = .ok (.ld .generic .b32 false 6 8 16)
    ∧ decodeLane 0x080809C9#32 0x00000385#32 w2 = .ok (.atom .cas .i32 .generic .relaxed 1 2 4 5)
    ∧ decodeLane 0xEE23B99D#32 0x00001477#32 w2 = .ok (.gred .min .f64 8)
    ∧ decodeLane 0xEE23BA81#32 0x00401077#32 w2 = .ok (.mma false true 8 64))
  ∧ decodeLane 0xEFDC3803#32 0x00000377#32 0xDEADBEEF#32 = .ok (.li .n32 7 0xDEADBEEF)
  ∧ decodeHart 0x027322AB#32 = .ok (.zMbwait 5 6 7) ∧ decodeHart 0x01C0105B#32 = .ok (.zFence .acqrel .device)
  ∧ decodeHart 0x4420800B#32 = .ok (.zLdq .pk8 2 1 2) ∧ decodeHart 0x000004FB#32 = .ok (.zQuiesce 9)
  ∧ decodeHart 0xFFF30293#32 = .ok (.hartInstruction (.aluImm .addi 5 6 0xFFF))
  ∧ decodeHart 0x801110F3#32 = .ok (.mstatWrite .rw 1 (.reg 2))

/-- 04 R74-R88: whatever follows its words, the words that the encoder gives a well-formed instruction are read back as
that instruction, with every operand, type, modifier and immediate that its entry admits; a lane instruction has as
many words as the low bits of its first word say, and the steps of the other agents have no words. -/
def Obligations.DecodeOfEncode : Prop :=
 ∀ i : Instr, i.wf = true → DecodesTo (encode i) i

/-- 04 R78, R79, R83-R87: what either decoder answers is an instruction whose types, modifiers and immediates the entry
accepts, never a step of another agent, and the lane decoder answers an unassigned opcode only for its own first word. -/
def Obligations.DecodedInstructionsAreWellFormed : Prop :=
  (∀ w0 w1 w2 i, decodeLane w0 w1 w2 = .ok i → i.wf = true ∧ i.isEvent = false
    ∧ ∀ w, i = .unassignedLaneOpcode w → w = w0 ∧ laneUnassigned w0 = true)
  ∧ ∀ w i, decodeHart w = .ok i → i.wf = true ∧ i.isEvent = false ∧ ∀ w', i ≠ .unassignedLaneOpcode w'

/-- 04 R76, R79, R83-R87: a field that an entry does not use must hold 119, type codes 20-31 and the other codes that an
entry does not accept are reserved, and a hart parcel whose low bits are not 11 is a 16-bit one: each is rejected
under its own name, whatever the other fields hold. An opcode that Tables 4-4 to 4-6 do not list is answered as
unassigned. -/
def Obligations.ReservedEncodingsRejected : Prop :=
  (∀ d a b : Code, ∀ w1 w2, b ≠ unusedCode → ∀ w ∈ l32 0x010 b a d ++ l32 0x017 b a d ++ l32 0x031 b a d,
    decodeLane w w1 w2 = .error .unusedField)
  ∧ (∀ (b a d c : Code) (imm : Half) (m : BitVec 9) (w2 : W32), c ≠ unusedCode →
    ∀ maj ∈ [0x000#9, 0x010#9, 0x02C#9, 0x040#9, 0x060#9],
      decodeLane (b ++ a ++ d ++ maj ++ 1#2) (imm ++ m ++ c) w2 = .error .unusedField)
  ∧ (∀ (b a d : Code) (m : BitVec 9) (w2 : W32), 20 ≤ (m.extractLsb' 0 5).toNat →
    ∀ maj ∈ [0x000#9, 0x010#9, 0x040#9],
      decodeLane (b ++ a ++ d ++ maj ++ 1#2) (0#16 ++ m ++ unusedCode) w2 = .error .modifier)
  ∧ (∀ w w1 w2, laneUnassigned w = true → decodeLane w w1 w2 = .ok (.unassignedLaneOpcode w))
  ∧ ∀ w : W32, w.extractLsb' 0 2 ≠ 3 → decodeHart w = .error .compressed

/-- 13 R226, R232 (the sparse form is the model's, log 2): in a memory in its canonical form, a write gives its bytes back
at their own keys and leaves every other key as it was, and keeps the canonical form, in which equal contents are
equal data. -/
def Obligations.MemoryReadAfterWrite : Prop :=
  ∀ (m : List Host.Cell) (k : Nat) (l : List Byte), Memory.wf m = true →
    (∀ i, i < l.length → Memory.read (Memory.writeBytes m k l) (k + i) = l.getD i 0)
    ∧ (∀ b, b < k ∨ k + l.length ≤ b → Memory.read (Memory.writeBytes m k l) b = Memory.read m b)
    ∧ Memory.wf (Memory.writeBytes m k l) = true
    ∧ ∀ n, Memory.wf n = true → (∀ b, Memory.read n b = Memory.read m b) → n = m

/-- 04 R74, R75, R78, 01 R23, 12 R216: a step is the move of the agent whose turn it is, followed by the passing of time.
A hart whose group runs, that waits for no far access and takes no pending cause, runs the instruction its word
decodes to, with the word kept for a later illegal-instruction value; a compute stream that may issue runs the one its
words decode to, and counts the start; another agent's step runs as it stands. The word is that of the cache where the
core holds one or the memory's, and the memory's alone where it holds none and no other world has written there. -/
def Obligations.StepRunsTheDecodedInstruction : Prop :=
  (∀ s, step s = match act s with
    | .next t => .next t.tick
    | .fault f => .fault f
    | .refused r => .refused r)
  ∧ (∀ (s : State) i, s.turn = .event i → act s = exec i s)
  ∧ (∀ (s : State) k w t va i, s.turn = .hart k → let u := s.focus k
    u.running k = true → u.grp.hartReq = none → u.portHeld (16 + k % 16) = false →
    (u.grp.mode = .u → u.grp.nextAsync = none ∧ u.grp.holdA = false) →
    u.codeWord true u.grp.pc = .word w t va → decodeHart w = .ok i →
    let v := (u.keepTlb t).keepWord true va w
    act s = exec i (v.setGrp { v.grp with hword := w }))
  ∧ (∀ (s : State) k w t va v l i, s.turn = .lanes k → let u := s.focus k
    u.laneReady = true → u.codeWord false u.grp.lpc = .word w t va →
    ((u.keepTlb t).keepWord false va w).fetchWords (laneLength w / 4 - 1) (u.grp.lpc + 4) = .ok (v, l) →
    decodeLane w (l.getD 0 0) (l.getD 1 0) = .ok i →
    act s = exec i ((v.setGrp { v.grp with lword := w }).countStart i))
  ∧ (∀ (s : State) hart a va priv pa t, s.place s.cur false a = .ok (.global va priv) →
    s.translate s.asid va .exec = .ok (pa, t) → s.cachedWord hart va = none → s.dirtyOf s.asid va = none →
    s.poisoned pa 4 = false → s.foreign s.asid (sectorsOf pa 4) = [] →
    s.codeWord hart a = .word (BitVec.ofNat 32 (leNat (Memory.bytes s.mem pa 4))) t va)
  ∧ ∀ s : State, s.grp.stepped = false → s.tick.mem = s.mem ∧ s.tick.groups = s.groups ∧ s.tick.blocks = s.blocks
    ∧ s.tick.cores = s.cores ∧ s.tick.regs = s.regs ∧ s.tick.cur = s.cur

/-- 21 R300 (MONSAVE), 23 R323 (HLEASE), 26 R344: at reset no group is placed and every MONSAVE reads 0, no port holds the
lease and none is fenced, BOOTST is at stage 0 and the first move is the cold reset (log 1); no byte of memory is
listed (log 2). What stands in fields whose reset value the spec does not state is the model's choice (logs 5, 6).
The invariant of every state (memory is in its canonical form) holds at reset. -/
def Obligations.ResetStateAndInvariant : Prop :=
  (State.reset.turn = .event .coldReset ∧ State.reset.mem = [] ∧ State.reset.boot.bootst = 0
    ∧ State.reset.host.lease.st = 0 ∧ State.reset.host.fenced = []
    ∧ ∀ k, (State.reset.grpAt k).monsave = 0 ∧ State.reset.running k = false)
  ∧ (Sys2Proof.Inv State.reset)

/-- 01 R23, 12 R215-R217 (the sparse form of memory is the model's, log 2): every instruction of the machine and every
move of another agent runs to its end in every state: `exec` answers a next state, never a fault or a refusal of the
model, and so does `step`; in both, memory keeps its canonical form. An instruction's traps, faults and waits are next
states too. -/
def Obligations.EveryStepGoesOnAndKeepsInvariant : Prop :=
  (∀ i s, Sys2Proof.Inv s → ∃ t, exec i s = .next t ∧ Sys2Proof.Inv t) ∧ ∀ s, Sys2Proof.Inv s → ∃ t, step s = .next t ∧ Sys2Proof.Inv t

/-- 06 R111, R114, R117-R119, R122, the L32 forms: whenever one of these instructions starts, it completes; each active
lane of its destination takes the value named here from that lane's sources, low 32 bits, and nothing else changes.
06 R111-R114, R116, R117, register and immediate forms: whenever one of these instructions starts, it completes; each
active lane of its destination takes the value named here, wrapped or clamped to the type, and nothing else changes.
06 R115: whenever `addc` or `subb` starts, it completes: each active lane of d takes the 32-bit sum or difference with
the carry or borrow of the mask c, and c takes the carry or borrow out in the active lanes alone. -/
def Obligations.IntegerInstructionsComplete : Prop :=
  (∀ d a b : Code,
      LaneGives (.addI32 d a b) (short2 d a b) false d
          (fun _ x i => x 0 i + x 1 i)
      ∧ LaneGives (.subI32 d a b) (short2 d a b) false d
          (fun _ x i => x 0 i - x 1 i)
      ∧ LaneGives (.mulLoI32 d a b) (short2 d a b) false d
          (fun _ x i => x 0 i * x 1 i)
      ∧ LaneGives (.andL32 d a b) (short2 d a b) false d
          (fun _ x i => x 0 i &&& x 1 i)
      ∧ LaneGives (.orL32 d a b) (short2 d a b) false d
          (fun _ x i => x 0 i ||| x 1 i)
      ∧ LaneGives (.xorL32 d a b) (short2 d a b) false d
          (fun _ x i => x 0 i ^^^ x 1 i)
      ∧ LaneGives (.andnL32 d a b) (short2 d a b) false d
          (fun _ x i => x 0 i &&& ~~~(x 1 i))
      ∧ LaneGives (.shlL32 d a b) (short2 d a b) false d
          (fun _ x i => BitVec.ofNat 64 (shiftLeft 32 (lowBits 32 (x 0 i)) (lowBits 32 (x 1 i))))
      ∧ LaneGives (.shrL32 d a b) (short2 d a b) false d
          (fun _ x i => BitVec.ofNat 64 (shiftRight 32 (lowBits 32 (x 0 i)) (lowBits 32 (x 1 i))))
      ∧ LaneGives (.sraL32 d a b) (short2 d a b) false d
          (fun _ x i => BitVec.ofNat 64 (shiftArith 32 (lowBits 32 (x 0 i)) (lowBits 32 (x 1 i))))
      ∧ LaneGives (.rotlL32 d a b) (short2 d a b) false d
          (fun _ x i => BitVec.ofNat 64 (rotateLeft 32 (lowBits 32 (x 0 i)) (lowBits 32 (x 1 i))))
      ∧ LaneGives (.minI32 d a b) (short2 d a b) false d
          (fun _ x i => intResult .i32 false (minInt (intArg .i32 (x 0 i)) (intArg .i32 (x 1 i))))
      ∧ LaneGives (.minN32 d a b) (short2 d a b) false d
          (fun _ x i => intResult .n32 false (minInt (intArg .n32 (x 0 i)) (intArg .n32 (x 1 i))))
      ∧ LaneGives (.maxI32 d a b) (short2 d a b) false d
          (fun _ x i => intResult .i32 false (maxInt (intArg .i32 (x 0 i)) (intArg .i32 (x 1 i))))
      ∧ LaneGives (.maxN32 d a b) (short2 d a b) false d
          (fun _ x i => intResult .n32 false (maxInt (intArg .n32 (x 0 i)) (intArg .n32 (x 1 i))))
      ∧ LaneGives (.mov d a) (short1 d a) false d
          (fun _ x i => x 0 i)
      ∧ LaneGives (.not d a) (short1 d a) false d
          (fun _ x i => ~~~(x 0 i))
      ∧ LaneGives (.negI32 d a) (short1 d a) false d
          (fun _ x i => 0 - x 0 i)
      ∧ LaneGives (.absI32 d a) (short1 d a) false d
          (fun _ x i => if (x 0 i).getLsbD 31 then 0 - x 0 i else x 0 i)
      ∧ LaneGives (.popc d a) (short1 d a) false d
          (fun _ x i => (BitVec.ofNat 32 (popc32 ((x 0 i).setWidth 32))).setWidth 64)
      ∧ LaneGives (.clz d a) (short1 d a) false d
          (fun _ x i => (BitVec.ofNat 32 (clz32 ((x 0 i).setWidth 32))).setWidth 64)
      ∧ LaneGives (.ctz d a) (short1 d a) false d
          (fun _ x i => (BitVec.ofNat 32 (ctz32 ((x 0 i).setWidth 32))).setWidth 64)
      ∧ LaneGives (.brev d a) (short1 d a) false d
          (fun _ x i => ((x 0 i).setWidth 32 : W32).reverse.setWidth 64))
  ∧ (∀ (t : Ty) (sat : Bool) (d a b c : Code) (imm : Half),
      LaneGives (.add t sat d a b) (typed2 t d a b) t.wide d
          (fun _ x i => intResult t sat (intArg t (x 0 i) + intArg t (x 1 i)))
      ∧ LaneGives (.addImm t sat d a imm) (typed1 t d a) t.wide d
          (fun _ x i => intResult t sat (intArg t (x 0 i) + intArg t (immOf t imm)))
      ∧ LaneGives (.sub t sat d a b) (typed2 t d a b) t.wide d
          (fun _ x i => intResult t sat (intArg t (x 0 i) - intArg t (x 1 i)))
      ∧ LaneGives (.subImm t sat d a imm) (typed1 t d a) t.wide d
          (fun _ x i => intResult t sat (intArg t (x 0 i) - intArg t (immOf t imm)))
      ∧ LaneGives (.mulLo t sat d a b) (typed2 t d a b) t.wide d
          (fun _ x i => intResult t sat (intArg t (x 0 i) * intArg t (x 1 i)))
      ∧ LaneGives (.mulLoImm t sat d a imm) (typed1 t d a) t.wide d
          (fun _ x i => intResult t sat (intArg t (x 0 i) * intArg t (immOf t imm)))
      ∧ LaneGives (.mad t sat d a b c) (typed3 t d a b c) t.wide d
          (fun _ x i => intResult t sat (intArg t (x 0 i) * intArg t (x 1 i) + intArg t (x 2 i)))
      ∧ LaneGives (.madImm t sat d a c imm) (typed2 t d a c) t.wide d
          (fun _ x i => intResult t sat (intArg t (x 0 i) * intArg t (immOf t imm) + intArg t (x 1 i)))
      ∧ LaneGives (.madWide t d a b c) (laneForm 8 true d [src32 a, src32 b, src64 c]) true d
          (fun _ x i => BitVec.ofInt 64 (intArg t (x 0 i) * intArg t (x 1 i) + ((x 2 i).toNat : Int)))
      ∧ LaneGives (.mulHi t d a b) (typed2 t d a b) t.wide d
          (fun _ x i => intResult t false (mulHigh t (intArg t (x 0 i)) (intArg t (x 1 i))))
      ∧ LaneGives (.mulHiImm t d a imm) (typed1 t d a) t.wide d
          (fun _ x i => intResult t false (mulHigh t (intArg t (x 0 i)) (intArg t (immOf t imm))))
      ∧ LaneGives (.div t d a b) (typed2 t d a b) t.wide d
          (fun _ x i => intResult t false (divInt t (intArg t (x 0 i)) (intArg t (x 1 i))))
      ∧ LaneGives (.divImm t d a imm) (typed1 t d a) t.wide d
          (fun _ x i => intResult t false (divInt t (intArg t (x 0 i)) (intArg t (immOf t imm))))
      ∧ LaneGives (.rem t d a b) (typed2 t d a b) t.wide d
          (fun _ x i => intResult t false (remInt t (intArg t (x 0 i)) (intArg t (x 1 i))))
      ∧ LaneGives (.remImm t d a imm) (typed1 t d a) t.wide d
          (fun _ x i => intResult t false (remInt t (intArg t (x 0 i)) (intArg t (immOf t imm))))
      ∧ LaneGives (.min t d a b) (typed2 t d a b) t.wide d
          (fun _ x i => intResult t false (minInt (intArg t (x 0 i)) (intArg t (x 1 i))))
      ∧ LaneGives (.minImm t d a imm) (typed1 t d a) t.wide d
          (fun _ x i => intResult t false (minInt (intArg t (x 0 i)) (intArg t (immOf t imm))))
      ∧ LaneGives (.max t d a b) (typed2 t d a b) t.wide d
          (fun _ x i => intResult t false (maxInt (intArg t (x 0 i)) (intArg t (x 1 i))))
      ∧ LaneGives (.maxImm t d a imm) (typed1 t d a) t.wide d
          (fun _ x i => intResult t false (maxInt (intArg t (x 0 i)) (intArg t (immOf t imm)))))
  ∧ (∀ (t : Ty) (d a b c : Code) (s : State), ((laneForm 8 false d [src32 a, src32 b]).also (c.toNat ≤ 15)).starts s →
      let o := (laneForm 8 false d [src32 a, src32 b]).also (c.toNat ≤ 15)
      let x := fun k i => (argAt (s.grp.vectors o.srcs) k i).toNat % 2 ^ 32
      let cin := fun i => if (s.grp.mask c).getLsbD i then 1 else 0
      let m := fun (out : Nat → Bool) => (s.grp.mask c &&& ~~~s.grp.active) ||| (s.grp.active &&& maskOf out)
      (∃ u, LaneWrites s o false d s.grp.active (fun i => BitVec.ofNat 64 (x 0 i + x 1 i + cin i)) u
        ∧ exec (.addc t d a b c) s = .next (u.setGrp (u.grp.setMask c (m fun i => 2 ^ 32 ≤ x 0 i + x 1 i + cin i))))
      ∧ (∃ u, LaneWrites s o false d s.grp.active (fun i => BitVec.ofNat 64 (x 0 i + 2 ^ 33 - x 1 i - cin i)) u
        ∧ exec (.subb t d a b c) s = .next (u.setGrp (u.grp.setMask c (m fun i => x 0 i < x 1 i + cin i)))))

/-- 06 R111-R113, R118, R120, register and immediate forms: whenever one of these instructions starts, it completes; each
active lane of its destination takes the value named here, and nothing else changes. `bfi` inserts into the old value.
06 R122, 07 R130, R137, 08 R146: whenever one of these instructions starts, it completes; each active lane of its
destination takes the value named here, and nothing else changes. -/
def Obligations.LogicMoveSelectInstructionsComplete : Prop :=
  (∀ (t : Ty) (d a b c : Code) (imm : Half) (p n : BitVec 6),
      LaneGives (.and t d a b) (typed2 t d a b) t.wide d
          (fun _ x i => x 0 i &&& x 1 i)
      ∧ LaneGives (.andImm t d a imm) (typed1 t d a) t.wide d
          (fun _ x i => x 0 i &&& immOf t imm)
      ∧ LaneGives (.or t d a b) (typed2 t d a b) t.wide d
          (fun _ x i => x 0 i ||| x 1 i)
      ∧ LaneGives (.orImm t d a imm) (typed1 t d a) t.wide d
          (fun _ x i => x 0 i ||| immOf t imm)
      ∧ LaneGives (.xor t d a b) (typed2 t d a b) t.wide d
          (fun _ x i => x 0 i ^^^ x 1 i)
      ∧ LaneGives (.xorImm t d a imm) (typed1 t d a) t.wide d
          (fun _ x i => x 0 i ^^^ immOf t imm)
      ∧ LaneGives (.andn t d a b) (typed2 t d a b) t.wide d
          (fun _ x i => x 0 i &&& ~~~(x 1 i))
      ∧ LaneGives (.andnImm t d a imm) (typed1 t d a) t.wide d
          (fun _ x i => x 0 i &&& ~~~(immOf t imm))
      ∧ LaneGives (.shl t d a b) (shift2 t d a b) t.wide d
          (fun _ x i => BitVec.ofNat 64 (shiftLeft t.intWidth (lowBits t.intWidth (x 0 i)) (lowBits 32 (x 1 i))))
      ∧ LaneGives (.shlImm t d a p) (typed1 t d a) t.wide d
          (fun _ x i => BitVec.ofNat 64 (shiftLeft t.intWidth (lowBits t.intWidth (x 0 i)) p.toNat))
      ∧ LaneGives (.shr t d a b) (shift2 t d a b) t.wide d
          (fun _ x i => BitVec.ofNat 64 (shiftRight t.intWidth (lowBits t.intWidth (x 0 i)) (lowBits 32 (x 1 i))))
      ∧ LaneGives (.shrImm t d a p) (typed1 t d a) t.wide d
          (fun _ x i => BitVec.ofNat 64 (shiftRight t.intWidth (lowBits t.intWidth (x 0 i)) p.toNat))
      ∧ LaneGives (.sra t d a b) (shift2 t d a b) t.wide d
          (fun _ x i => BitVec.ofNat 64 (shiftArith t.intWidth (lowBits t.intWidth (x 0 i)) (lowBits 32 (x 1 i))))
      ∧ LaneGives (.sraImm t d a p) (typed1 t d a) t.wide d
          (fun _ x i => BitVec.ofNat 64 (shiftArith t.intWidth (lowBits t.intWidth (x 0 i)) p.toNat))
      ∧ LaneGives (.rotl t d a b) (shift2 t d a b) t.wide d
          (fun _ x i => BitVec.ofNat 64 (rotateLeft t.intWidth (lowBits t.intWidth (x 0 i)) (lowBits 32 (x 1 i))))
      ∧ LaneGives (.rotlImm t d a p) (typed1 t d a) t.wide d
          (fun _ x i => BitVec.ofNat 64 (rotateLeft t.intWidth (lowBits t.intWidth (x 0 i)) p.toNat))
      ∧ LaneGives (.bfx t d a b c) (laneForm 8 t.wide d [srcOf t a, src32 b, src32 c]) t.wide d
          (fun _ x i => bitExtract t (lowBits t.intWidth (x 0 i)) (lowBits 32 (x 1 i)) (lowBits 32 (x 2 i)))
      ∧ LaneGives (.bfxImm t d a p n) (typed1 t d a) t.wide d
          (fun _ x i => bitExtract t (lowBits t.intWidth (x 0 i)) p.toNat n.toNat)
      ∧ LaneGives (.bfi t d a b c) ((laneForm 8 t.wide d [srcOf t a, src32 b, src32 c]).also (d.toNat != 116)) t.wide d
          (fun s x i =>
            bitInsert t (s.grp.oldDest t.wide d i) (x 0 i).toNat (lowBits 32 (x 1 i)) (lowBits 32 (x 2 i)))
      ∧ LaneGives (.bfiImm t d a p n) ((typed1 t d a).also (d.toNat != 116)) t.wide d
          (fun s x i => bitInsert t (s.grp.oldDest t.wide d i) (x 0 i).toNat p.toNat n.toNat))
  ∧ (∀ (t : Ty) (d a b c : Code) (imm : Half) (lit : W32),
      LaneGives (.movi t d imm) (laneForm 8 t.wide d []) t.wide d
          (fun _ _ _ => immOf t imm)
      ∧ LaneGives (.li t d lit) (laneForm 12 false d []) false d
          (fun _ _ _ => lit.setWidth 64)
      ∧ LaneGives (.sel t d a b c) ((typed2 t d a b).also (maskOk c)) t.wide d
          (fun s x i => if (s.grp.mask c).getLsbD i then x 0 i else x 1 i)
      ∧ LaneGives (.fsel t d a b c) ((typed2 t d a b).also (maskOk c)) t.wide d
          (fun s x i => if (s.grp.mask c).getLsbD i then x 0 i else x 1 i)
      ∧ LaneGives (.fgetm d) (laneForm 4 true d []) true d
          (fun s _ _ => fmodeValue s.grp.fmode)
      ∧ LaneGives (.mpopc d a) ((laneForm 4 false d []).also (maskOk a)) false d
          (fun s _ _ => BitVec.ofNat 64 (popCount (s.grp.mask a))))

/-- 07 R125-R127, R129, R131: whenever one of these instructions starts, it completes; each active lane of its destination
takes the exact result of that lane's operands, per half for a packed type, rounded once under the instruction's or
fmode's rounding, and nothing else changes.
07 R127, R128, R130, R133-R136: whenever one of these instructions starts, it completes; each active lane of its
destination takes the value named here, and nothing else changes. A stochastic `cvt` draws from fmode.seed, the
launch-global lane id and the element index. -/
def Obligations.FloatInstructionsComplete : Prop :=
  (∀ (t : Ty) (rm : Rm) (d a b c : Code),
      LaneGives (.fadd t rm d a b) (typed2 t d a b) t.wide d
          (fun s x i =>
            perElement t (fun e => fpResult t s.grp.fmode (rmRound rm s.grp.fmode 0) ((fpArg t s.grp.fmode (e 0)).add (rmRound rm s.grp.fmode 0) (fpArg t s.grp.fmode (e 1)))) fun k => x k i)
      ∧ LaneGives (.fsub t rm d a b) (typed2 t d a b) t.wide d
          (fun s x i =>
            perElement t (fun e => fpResult t s.grp.fmode (rmRound rm s.grp.fmode 0) ((fpArg t s.grp.fmode (e 0)).add (rmRound rm s.grp.fmode 0) (fpArg t s.grp.fmode (e 1)).neg)) fun k => x k i)
      ∧ LaneGives (.fmul t rm d a b) (typed2 t d a b) t.wide d
          (fun s x i =>
            perElement t (fun e => fpResult t s.grp.fmode (rmRound rm s.grp.fmode 0) ((fpArg t s.grp.fmode (e 0)).mul (fpArg t s.grp.fmode (e 1)))) fun k => x k i)
      ∧ LaneGives (.ffma t rm d a b c) (typed3 t d a b c) t.wide d
          (fun s x i =>
            perElement t (fun e => fpResult t s.grp.fmode (rmRound rm s.grp.fmode 0) (((fpArg t s.grp.fmode (e 0)).mul (fpArg t s.grp.fmode (e 1))).add (rmRound rm s.grp.fmode 0) (fpArg t s.grp.fmode (e 2)))) fun k => x k i)
      ∧ LaneGives (.fdiv t rm d a b) (typed2 t d a b) t.wide d
          (fun s x i =>
            perElement t (fun e => fpResult t s.grp.fmode (rmRound rm s.grp.fmode 0) ((fpArg t s.grp.fmode (e 0)).div (fpArg t s.grp.fmode (e 1)))) fun k => x k i)
      ∧ LaneGives (.fsqrt t rm d a) (typed1 t d a) t.wide d
          (fun s x i =>
            perElement t (fun e => fpResult t s.grp.fmode (rmRound rm s.grp.fmode 0) ((fpArg t s.grp.fmode (e 0)).sqrt)) fun k => x k i)
      ∧ LaneGives (.frnd t rm d a) (typed1 t d a) t.wide d
          (fun s x i =>
            perElement t (fun e => fpResult t s.grp.fmode (rmRound rm s.grp.fmode 0) ((fpArg t s.grp.fmode (e 0)).toIntegral (rmRound rm s.grp.fmode 0))) fun k => x k i)
      ∧ LaneGives (.fmin t d a b) (typed2 t d a b) t.wide d
          (fun s x i =>
            perElement t (fun e => fpResult t s.grp.fmode (rmRound .rne s.grp.fmode 0) (fpMin (fpArg t s.grp.fmode (e 0)) (fpArg t s.grp.fmode (e 1)))) fun k => x k i)
      ∧ LaneGives (.fmax t d a b) (typed2 t d a b) t.wide d
          (fun s x i =>
            perElement t (fun e => fpResult t s.grp.fmode (rmRound .rne s.grp.fmode 0) (fpMax (fpArg t s.grp.fmode (e 0)) (fpArg t s.grp.fmode (e 1)))) fun k => x k i)
      ∧ LaneGives (.fminnum t d a b) (typed2 t d a b) t.wide d
          (fun s x i =>
            perElement t (fun e => fpResult t s.grp.fmode (rmRound .rne s.grp.fmode 0) (fpMinNum (fpArg t s.grp.fmode (e 0)) (fpArg t s.grp.fmode (e 1)))) fun k => x k i)
      ∧ LaneGives (.fmaxnum t d a b) (typed2 t d a b) t.wide d
          (fun s x i =>
            perElement t (fun e => fpResult t s.grp.fmode (rmRound .rne s.grp.fmode 0) (fpMaxNum (fpArg t s.grp.fmode (e 0)) (fpArg t s.grp.fmode (e 1)))) fun k => x k i)
      ∧ LaneGives (.fmaxabs t d a b) (typed2 t d a b) t.wide d
          (fun s x i =>
            perElement t (fun e => fpResult t s.grp.fmode (rmRound .rne s.grp.fmode 0) (fpMaxAbs (fpArg t s.grp.fmode (e 0)) (fpArg t s.grp.fmode (e 1)))) fun k => x k i))
  ∧ (∀ (t u : Ty) (rm : Rm) (sat : Bool) (d a b c : Code) (e : Half),
      LaneGives (.frcp d a) (long1 d a) false d
          (fun s x i =>
            BitVec.ofNat 64 (fpResult .f32 s.grp.fmode .rne (exactRcp (fpArg .f32 s.grp.fmode (x 0 i).toNat))))
      ∧ LaneGives (.frsq d a) (long1 d a) false d
          (fun s x i =>
            BitVec.ofNat 64 (fpResult .f32 s.grp.fmode .rne (exactRsq (fpArg .f32 s.grp.fmode (x 0 i).toNat))))
      ∧ LaneGives (.fexp2 d a) (long1 d a) false d
          (fun s x i =>
            BitVec.ofNat 64 (fpResult .f32 s.grp.fmode .rne (exactExp2 (fpArg .f32 s.grp.fmode (x 0 i).toNat))))
      ∧ LaneGives (.flog2 d a) (long1 d a) false d
          (fun s x i =>
            BitVec.ofNat 64 (fpResult .f32 s.grp.fmode .rne (exactLog2 (fpArg .f32 s.grp.fmode (x 0 i).toNat))))
      ∧ LaneGives (.fsin d a) (long1 d a) false d
          (fun s x i =>
            BitVec.ofNat 64 (fpResult .f32 s.grp.fmode .rne (exactSin (fpArg .f32 s.grp.fmode (x 0 i).toNat))))
      ∧ LaneGives (.fcos d a) (long1 d a) false d
          (fun s x i =>
            BitVec.ofNat 64 (fpResult .f32 s.grp.fmode .rne (exactCos (fpArg .f32 s.grp.fmode (x 0 i).toNat))))
      ∧ LaneGives (.fscale t rm d a b) (shift2 t d a b) t.wide d
          (fun s x i => BitVec.ofNat 64 (fpResult t s.grp.fmode (rmRound rm s.grp.fmode 0)
            ((fpArg t s.grp.fmode (x 0 i).toNat).scaleBy (scalePower (x 1 i)))))
      ∧ LaneGives (.fcopysign t d a b) (typed2 t d a b) t.wide d
          (fun _ x i =>
            perElement t (fun e => e 0 % t.fmt.signBit + e 1 / t.fmt.signBit % 2 * t.fmt.signBit) fun k => x k i)
      ∧ LaneGives (.fclass t d a) (laneForm 8 false d [srcOf t a]) false d
          (fun _ x i => BitVec.ofNat 64 (2 ^ classBit t.fmt (x 0 i).toNat))
      ∧ LaneGives (.fdot2 t rm d a b c) (laneForm 8 false d [src32 a, src32 b, src32 c]) false d
          (fun s x i =>
            let half := fun (v : W64) (k : Nat) => fpArg t s.grp.fmode (lowBits 16 (v >>> k))
            BitVec.ofNat 64 (fpResult .f32 s.grp.fmode (rmRound rm s.grp.fmode 0) (sum3 (rmRound rm s.grp.fmode 0)
              ((half (x 0 i) 0).mul (half (x 1 i) 0)) ((half (x 0 i) 16).mul (half (x 1 i) 16))
              (fpArg .f32 s.grp.fmode (x 2 i).toNat))))
      ∧ LaneGives (.cvt t u rm sat d a e) (laneForm 8 t.wide d [srcOf u a]) t.wide d
          (fun s x i =>
            let z := srRandom (fmSeed s.grp.fmode) (BitVec.ofNat 32 ((lid0 s.blk s.grp + i) % 2 ^ 24)) (e.setWidth 32)
            BitVec.ofNat 64 (convert t u s.grp.fmode (rmRound rm s.grp.fmode z.toNat) sat (x 0 i).toNat)))

/-- 08 R140-R143: whenever one of these instructions starts, it completes; each active lane of its destination takes the
lane of the source that the rule names, or 0, and nothing else changes.
08 R141, R145: `compress` packs the active lanes' values into lanes 0 to k-1 of a window destination, k their number,
or, under the active mask, of an stq entry; `gscan` replaces the active lanes of a by their running sums and appends
the last one to fbq; nothing else changes. -/
def Obligations.RearrangementInstructionsComplete : Prop :=
  (∀ (d a b : Code) (n : BitVec 6) (q : BitVec 2),
      LaneGives (.shfl d a b) (short2 d a b) false d
          (fun _ x i => x 0 (lowBits 6 (x 1 i)))
      ∧ LaneGives (.bcast d a b) (laneForm 8 false d [src32 a, src32 b]) false d
          (fun s x _ => x 0 (lowBits 6 (x 1 ((lowestLane s.grp.active).getD 0))))
      ∧ LaneGives (.bcastImm d a n) (long1 d a) false d
          (fun _ x _ => x 0 n.toNat)
      ∧ LaneGives (.slideup d a b) ((laneForm 8 false d [src32 a, src32 b]).also (b.toNat == 117)) false d
          (fun _ x i => if lowBits 32 (x 1 i) ≤ i then x 0 (i - lowBits 32 (x 1 i)) else 0)
      ∧ LaneGives (.slideupImm d a n) (long1 d a) false d
          (fun _ x i => if n.toNat ≤ i then x 0 (i - n.toNat) else 0)
      ∧ LaneGives (.slidedn d a b) ((laneForm 8 false d [src32 a, src32 b]).also (b.toNat == 117)) false d
          (fun _ x i => if i + lowBits 32 (x 1 i) ≤ 63 then x 0 (i + lowBits 32 (x 1 i)) else 0)
      ∧ LaneGives (.slidednImm d a n) (long1 d a) false d
          (fun _ x i => if i + n.toNat ≤ 63 then x 0 (i + n.toNat) else 0)
      ∧ LaneGives (.qswapH d a) (short1 d a) false d
          (fun _ x i => x 0 (i ^^^ 1))
      ∧ LaneGives (.qswapV d a) (short1 d a) false d
          (fun _ x i => x 0 (i ^^^ 2))
      ∧ LaneGives (.qswapD d a) (short1 d a) false d
          (fun _ x i => x 0 (i ^^^ 3))
      ∧ LaneGives (.qbcast d a q) (long1 d a) false d
          (fun _ x i => x 0 (4 * (i / 4) + q.toNat))
      ∧ LaneGives (.expand d a) (short1 d a) false d
          (fun s x i => x 0 ((activeLanes s.grp.active).filter (· < i)).length))
  ∧ (∀ (t : Ty) (d a : Code) (s : State),
      ((short1 d a).starts s → d.toNat ≠ 116 → ∃ u, exec (.compress d a) s = .next u
        ∧ LaneWrites s (short1 d a) false d (lowLanes (activeLanes s.grp.active).length)
            (fun i => match (activeLanes s.grp.active)[i]? with
              | some j => argAt (s.grp.vectors [src32 a]) 0 j
              | none => 0) u)
      ∧ ((short1 d a).starts s → d.toNat = 116 → exec (.compress d a) s = .next (s.setGrp { s.grp.advanced (short1 d a) with
          stq := s.grp.stq ++ [⟨lanes fun i => (match (activeLanes s.grp.active)[i]? with
            | some j => argAt (s.grp.vectors [src32 a]) 0 j
            | none => 0).setWidth 32, s.grp.active⟩] }))
      ∧ ({ len := 8, srcs := [srcOf t a], ok := fun _ => a.toNat < 112, fbq := true : LaneForm }.starts s →
        let e := scanEntries t s.grp.fmode s.grp.active fun i => argAt (s.grp.vectors [srcOf t a]) 0 i
        ∃ u, LaneWrites s { len := 8, srcs := [srcOf t a], ok := fun _ => a.toNat < 112, fbq := true } false a s.grp.active
            (fun i => Map.get 0 e i) u
          ∧ exec (.gscan t a) s = .next (u.setGrp (u.grp.fbqAdded u.cycles ((e.getLast?.map fun p => p.2).getD 0)))))

/-- 06 R111, R121, 07 R132: whenever a comparison starts, it completes; its mask destination holds 1 exactly in the active
lanes whose comparison holds (m0 stays all ones), and nothing else changes.
08 R146: whenever a mask instruction starts, and the mask stack has room or an entry where it needs one, it completes
with whole masks, whatever em holds, and nothing else changes. -/
def Obligations.CompareAndMaskInstructionsComplete : Prop :=
  (∀ (k : Cond) (f : FCond) (t : Ty) (m a b : Code) (imm : Half),
      MaskGives (.cmp k t m a b) (compare2 t m a b) m
          (fun s x => s.grp.active &&& maskOf fun i => condHolds k (intArg t (x 0 i)) (intArg t (x 1 i)))
      ∧ MaskGives (.cmpImm k t m a imm) (compare1 t m a) m
          (fun s x => s.grp.active &&& maskOf fun i => condHolds k (intArg t (x 0 i)) (intArg t (immOf t imm)))
      ∧ MaskGives (.fcmp f t m a b) (compare2 t m a b) m
          (fun s x => s.grp.active &&& maskOf fun i =>
            fcondHolds f (fpArg t s.grp.fmode (x 0 i).toNat) (fpArg t s.grp.fmode (x 1 i).toNat)))
  ∧ (∀ d a b : Code,
      MaskGives (.mand d a b) ({ len := 4, ok := fun _ => [d, a, b].all maskOk }) d
          (fun s _ => s.grp.mask a &&& s.grp.mask b)
      ∧ MaskGives (.mor d a b) ({ len := 4, ok := fun _ => [d, a, b].all maskOk }) d
          (fun s _ => s.grp.mask a ||| s.grp.mask b)
      ∧ MaskGives (.mxor d a b) ({ len := 4, ok := fun _ => [d, a, b].all maskOk }) d
          (fun s _ => s.grp.mask a ^^^ s.grp.mask b)
      ∧ MaskGives (.mnot d a) ({ len := 4, ok := fun _ => [d, a].all maskOk }) d
          (fun s _ => ~~~(s.grp.mask a))
      ∧ MaskGives (.mfirst d a) ({ len := 4, ok := fun _ => [d, a].all maskOk }) d
          (fun s _ => match lowestLane (s.grp.mask a) with
            | some i => BitVec.twoPow 64 i
            | none => 0)
      ∧ MaskGives (.mset d a) ({ len := 4, srcs := [src64 a], ok := fun _ => maskOk d && a.toNat == 117 }) d
          (fun _ x => x 0 0)
      ∧ GroupGives (.mpush a) ({ len := 4, ok := fun _ => maskOk a }) (fun s _ => s.grp.msp < 16)
          (fun s _ g => { g with mstack := g.mstack.set s.grp.msp (s.grp.mask a), msp := s.grp.msp + 1 })
      ∧ GroupGives (.mpop d) ({ len := 4, ok := fun _ => maskOk d }) (fun s _ => s.grp.msp ≠ 0)
          (fun s _ g =>
            { g with msp := s.grp.msp - 1 }.setMask d (Map.get 0 s.grp.mstack (s.grp.msp - 1))))

/-- 08 R146: at depth 16 `mpush` raises the mask-stack overflow fault, code 6, with the depth in mlval; at depth 0 `mpop`
raises the underflow fault, code 7; neither changes the stack or a mask.
08 R147: whenever its 17 accesses pass their checks, `mspill` completes with the mask stack empty, and `mfill`, unless
the stored depth is above 16, completes with the depth and entries it reads; a greater depth is the overflow fault,
code 6. -/
def Obligations.MaskStackInstructions : Prop :=
  (∀ (a : Code) (s : State), ({ len := 4, ok := fun _ => maskOk a } : LaneForm).starts s →
      (16 ≤ s.grp.msp → exec (.mpush a) s = .next (s.setGrp (s.grp.laneFault 6 0 s.grp.active (BitVec.ofNat 64 s.grp.msp))))
      ∧ (s.grp.msp = 0 → exec (.mpop a) s = .next (s.setGrp (s.grp.laneFault 7 0 s.grp.active 0))))
  ∧ (∀ (sp : Space) (a : Code) (off : Half) (s : State), ({ len := 8, srcs := [src64 a] } : LaneForm).starts s →
      let l := stackAccesses sp (argAt (s.grp.vectors [src64 a]) 0 0 + off.signExtend 64)
      let w := l.map fun x => BitVec.ofNat 64 (leNat (s.laneLoad .load 8 x).2)
      (s.grp.laneSend = none → s.addressCheck .store 8 l id = .pass → (∀ x ∈ l, s.postedAt x.addr = false) →
        ∃ t, exec (.mspill sp a off) s = .next t ∧ t.grp.msp = 0 ∧ t.grp.mstack = [] ∧ t.grp.laneSend = none)
      ∧ (s.addressCheck .load 8 l id = .pass → (w.getD 0 0).toNat ≤ 16 →
        ∃ t, exec (.mfill sp a off) s = .next t ∧ t.grp.msp = (w.getD 0 0).toNat
          ∧ t.grp.mstack = (List.range (w.getD 0 0).toNat).map fun k => (k, w.getD (k + 1) 0))
      ∧ (s.addressCheck .load 8 l id = .pass → 16 < (w.getD 0 0).toNat →
        exec (.mfill sp a off) s = .next (s.setGrp (s.grp.laneFault 6 0 s.grp.active (BitVec.ofNat 64 s.grp.msp)))))

/-- 06 R122, R123, 04 R81, R82, 05 R108, 07 R137: whenever one of these instructions starts, it completes with only its
own field of the group changed.
07 R137: `fsetm` takes fmode from lane 0 of its source; non-zero reserved bits are dropped and counted in the core's
error counter; a rounding code of 5-7 raises the illegal-operand fault, code 2, and leaves fmode. -/
def Obligations.ModeInstructionsComplete : Prop :=
  (∀ (m a : Code) (k p : BitVec 4) (n : BitVec 3) (pat : BitVec 8),
      GroupGives (.nop) ({ len := 4 }) (fun _ _ => True)
          (fun _ _ g => g)
      ∧ GroupGives (.lwin k) ({ len := 4, ok := fun g => 16 * k.toNat + 16 ≤ g.nregs }) (fun _ _ => True)
          (fun _ _ g => { g with wbase := 16 * k.toNat })
      ∧ GroupGives (.pb m n pat) ({ len := 4, cover := false, ok := fun _ => m.toNat ≤ 15 }) (fun _ _ => True)
          (fun s _ g =>
            { g with pb := { mask := s.grp.mask m, left := n.toNat + 1, n := n.toNat + 1, pat := pat } })
      ∧ GroupGives (.qmode p) ({ len := 4 }) (fun _ _ => True)
          (fun _ _ g => { g with qmode := p })
      ∧ GroupGives (.fsetm a) ({ len := 4, srcs := [src64 a] }) (fun _ x => (x 0 0 &&& 7).toNat < 5 ∧ x 0 0 = fmodeValue (x 0 0))
          (fun _ x g => { g with fmode := x 0 0 }))
  ∧ (∀ (a : Code) (s : State), ({ len := 4, srcs := [src64 a] } : LaneForm).starts s →
      let v := argAt (s.grp.vectors [src64 a]) 0 0
      ((v &&& 7).toNat < 5 → v ≠ fmodeValue v → exec (.fsetm a) s = .next
        ((s.setGrp { s.grp.advanced { len := 4, srcs := [src64 a] } with fmode := fmodeValue v }).countBlkErr s.coreNo))
      ∧ (5 ≤ (v &&& 7).toNat → exec (.fsetm a) s =
        .next (s.setGrp (s.grp.laneFault 2 0 s.grp.active (s.grp.lword.setWidth 64)))))

/-- 05 R107, 08 R144: whenever one of these instructions starts, it completes with one entry appended to fbq, computed
from the active lanes as the rule says, and nothing else changed, but that a hart waiting on the empty fbq is ready
again, its wait in ldec (05 R91). -/
def Obligations.FeedbackInstructionsComplete : Prop :=
  ∀ (a : Code) (r : RedOp) (t : Ty),
    GroupGives (.fbpush a) ({ len := 4, srcs := [src64 a], fbq := true }) (fun _ _ => True)
        (fun s x g => g.fbqAdded s.cycles (match lowestLane s.grp.active with
          | some i => x 0 i
          | none => 0))
    ∧ GroupGives (.fbany a) ({ len := 4, ok := fun _ => [a].all maskOk, fbq := true }) (fun _ _ => True)
        (fun s _ g => g.fbqAdded s.cycles (if s.grp.mask a &&& s.grp.active != 0 then 1 else 0))
    ∧ GroupGives (.fball a) ({ len := 4, ok := fun _ => [a].all maskOk, fbq := true }) (fun _ _ => True)
        (fun s _ g => g.fbqAdded s.cycles (if s.grp.mask a &&& s.grp.active == s.grp.active then 1 else 0))
    ∧ GroupGives (.fbcnt a) ({ len := 4, ok := fun _ => [a].all maskOk, fbq := true }) (fun _ _ => True)
        (fun s _ g => g.fbqAdded s.cycles (BitVec.ofNat 64 (popCount (s.grp.mask a &&& s.grp.active))))
    ∧ GroupGives (.gred r t a) ({ len := 8, srcs := [srcOf t a], fbq := true }) (fun _ _ => True)
        (fun s x g => g.fbqAdded s.cycles (redValue r t s.grp.fmode s.grp.active fun i => x 0 i))

/-- 05 R106, Table 5-3: whenever `cjmp`, `cbr`, `ccall` or `cloop` starts, with a token where it pops one and room where
it pushes a frame, it completes with the program counter, ctq and the control stack as the table says, nothing else
changed.
05 R106, Table 5-3: `cret` returns to its call frame, and `cnext` counts its loop frame down and goes on at the head
until the count is 0; nothing else changes.
02 R47, 05 R106: with eight frames `ccall` and `cloop` raise the overflow fault, code 8; without a frame of their kind
`cret` and `cnext` raise the mismatch fault, code 9; mlval holds the depth, and nothing is popped or pushed. -/
def Obligations.ControlInstructions : Prop :=
  (∀ off : Half,
      GroupGives (.cjmp off) (controlForm 8) (fun _ _ => True)
          (fun s _ g => { g with lpc := s.grp.lpc + (off.signExtend 64 <<< 2) })
      ∧ GroupGives (.cbr off) (controlForm 8) (fun s _ => s.grp.ctq ≠ [])
          (fun s _ g =>
            { g with ctq := s.grp.ctq.drop 1, lpc := if s.grp.ctq.getD 0 0 = 0 then s.grp.lpc + 8 else s.grp.lpc + (off.signExtend 64 <<< 2) })
      ∧ GroupGives (.ccall off) (controlForm 8) (fun s _ => s.grp.frames.length < 8)
          (fun s _ g =>
            { g with frames := .call (s.grp.lpc + 8) :: s.grp.frames, lpc := s.grp.lpc + (off.signExtend 64 <<< 2) })
      ∧ GroupGives (.cloop off) (controlForm 8) (fun s _ => s.grp.frames.length < 8 ∧ s.grp.ctq ≠ [])
          (fun s _ g =>
            if s.grp.ctq.getD 0 0 = 0 then { g with ctq := s.grp.ctq.drop 1, lpc := s.grp.lpc + (off.signExtend 64 <<< 2) }
            else { g with ctq := s.grp.ctq.drop 1, frames := .loop (s.grp.lpc + 8) (s.grp.ctq.getD 0 0) :: s.grp.frames }))
  ∧ (∀ (r h : W64) (n : W32) (rest : List Frame),
      GroupGives .cret (controlForm 4) (fun s _ => s.grp.frames = .call r :: rest)
          (fun _ _ g => { g with frames := rest, lpc := r })
      ∧ GroupGives .cnext (controlForm 4) (fun s _ => s.grp.frames = .loop h n :: rest)
          (fun _ _ g => if n - 1 = 0 then { g with frames := rest } else { g with frames := .loop h (n - 1) :: rest, lpc := h }))
  ∧ (∀ (off : Half) (s : State),
      ((controlForm 8).starts s → 8 ≤ s.grp.frames.length → ∀ i ∈ [Instr.ccall off, Instr.cloop off], exec i s =
        .next (s.setGrp (s.grp.laneFault 8 0 s.grp.active (BitVec.ofNat 64 s.grp.frames.length))))
      ∧ ((controlForm 4).starts s → (∀ r rest, s.grp.frames ≠ .call r :: rest) → exec .cret s =
        .next (s.setGrp (s.grp.laneFault 9 0 s.grp.active (BitVec.ofNat 64 s.grp.frames.length))))
      ∧ ((controlForm 4).starts s → (∀ h n rest, s.grp.frames ≠ .loop h n :: rest) → exec .cnext s =
        .next (s.setGrp (s.grp.laneFault 9 0 s.grp.active (BitVec.ofNat 64 s.grp.frames.length)))))

/-- 04 R77, R78, R81, R82, 02 R42, 05 R95, 12 Table 12-3, for instructions of every operand shape: under a prefix that may
not cover it the instruction raises code 3, with a bad operand code 2; with a queue entry or room missing it waits,
changing nothing but the record of its wait; a tag of the wrong width raises code 4 with the operand code; a poisoned
entry raises code 5. None of them pops, pushes or writes. -/
def Obligations.LaneChecksBeforeEffect : Prop :=
  ∀ (t : Ty) (sat : Bool) (rm : Rm) (k : Cond) (d a b c : Code) (imm : Half) (n : BitVec 3) (pat : BitVec 8) (s : State),
    ∀ p ∈ [(Instr.add t sat d a b, typed2 t d a b), (.addImm t sat d a imm, typed1 t d a), (.ffma t rm d a b c, typed3 t d a b c),
        (.mov d a, short1 d a), (.shfl d a b, short2 d a b), (.cmp k t d a b, compare2 t d a b),
        (.pb a n pat, { len := 4, cover := false, ok := fun _ => decide (a.toNat ≤ 15) }),
        (.mset d a, { len := 4, srcs := [src64 a], ok := fun _ => maskOk d && a.toNat == 117 }),
        (.fbpush a, { len := 4, srcs := [src64 a], fbq := true }), (.prefetch sat .generic a imm, { len := 8, srcs := [src64 a] })],
      (p.2.coverOk s.grp = false → exec p.1 s =
        .next (s.setGrp (s.grp.laneFault 3 0 s.grp.active (s.grp.lword.setWidth 64))))
      ∧ (p.2.coverOk s.grp = true → p.2.operandsOk s.grp = false → exec p.1 s =
        .next (s.setGrp (s.grp.laneFault 2 0 s.grp.active (s.grp.lword.setWidth 64))))
      ∧ (p.2.coverOk s.grp = true → p.2.operandsOk s.grp = true →
        (∀ w, s.grp.start p.2.srcs p.2.stq p.2.fbq = .wait w → exec p.1 s = .next (s.setGrp { s.grp with
          laneWait := some w, laneSince := if s.grp.laneWait = some w then s.grp.laneSince else s.cycles }))
        ∧ (∀ x, s.grp.start p.2.srcs p.2.stq p.2.fbq = .width x → exec p.1 s =
          .next (s.setGrp (s.grp.laneFault 4 0 s.grp.active (x.setWidth 64))))
        ∧ (∀ q j e, s.grp.start p.2.srcs p.2.stq p.2.fbq = .poisoned q j → s.grp.entry q j = some e → exec p.1 s =
          .next (s.setGrp ((s.grp.markReplay q j).laneFault 5 e.cause e.lanes e.addr))))

/-- 12 R217: a compute-stream fault leaves the stream held at the instruction with its address in mlpc, the code in
mlcause [7:0] and the original cause in [15:8], mlmask and mlval as given, and mcause 24 pending; every other part of
the group, the queues and registers among them, stays.
12 R223: `trap` raises code 22 with its trap code in mlval and `brk` code 23 with mlval 0, with mlmask the execution
mask; the stream holds at the instruction. An unassigned opcode raises code 1 with its first word. -/
def Obligations.LaneFaults : Prop :=
  (∀ (g : Group) (code cause : Nat) (mask : LaneMask) (val : W64),
      (g.laneFault code cause mask val).held = true ∧ (g.laneFault code cause mask val).mlpc = g.lpc
      ∧ (g.laneFault code cause mask val).lpc = g.lpc ∧ (code < 256 → (g.laneFault code cause mask val).mlcause % 256 = BitVec.ofNat 64 code)
      ∧ (code < 256 → cause < 256 → (g.laneFault code cause mask val).mlcause / 256 = BitVec.ofNat 64 cause)
      ∧ (g.laneFault code cause mask val).mlmask = mask ∧ (g.laneFault code cause mask val).mlval = val
      ∧ (g.laneFault code cause mask val).asyncs = g.asyncs ++ [⟨24, 0⟩]
      ∧ { g.laneFault code cause mask val with held := g.held, mlpc := g.mlpc, mlcause := g.mlcause, mlmask := g.mlmask,
                                                mlval := g.mlval, asyncs := g.asyncs, laneWait := g.laneWait } = g)
  ∧ (∀ (code : Half) (w : W32) (s : State),
      ((controlForm 8).starts s → exec (.trap code) s = .next (s.setGrp (s.grp.laneFault 22 0 s.grp.em (code.setWidth 64))))
      ∧ ((controlForm 4).starts s → exec .brk s = .next (s.setGrp (s.grp.laneFault 23 0 s.grp.em 0)))
      ∧ exec (.unassignedLaneOpcode w) s = .next (s.setGrp (s.grp.laneFault 1 0 s.grp.active (s.grp.lword.setWidth 64))))

/-- 05 R109, 01 R14: `join` waits until the hart waits in `z.join`, and then both complete; `cend` ends the compute
stream, which stays at it with its frames gone, and ends the group where the hart waits at `z.exit`.
10 R180, Table 10-5: with no posted store of the stream in flight, `cbar.arv` arrives at the cluster barrier once any
earlier arrival's phase is complete; `cbar.wt` ends its arrival and empties the lane L1 once the phase is complete,
and completes at once where there is none; `bbar` arrives, completes at once where that completes the phase and waits
else, and completes once its arrival's phase is complete; its count rises before it arrives (14 R246).
09 R162-R164: a fence completes, once the stream has no posted store in flight where it releases (at a scope short of
system), and an acquiring one of block scope or wider empties the lane L1; `l1inv` empties it; `prefetch` completes at
issue with no byte of memory and no register changed. -/
def Obligations.JoinEndBarriersAndFences : Prop :=
  (∀ s : State,
      (({ len := 4 } : LaneForm).starts s → s.grp.hartWait = some .join → exec .join s =
        .next (s.setGrp (s.grp.advanced { len := 4 }).hartNext))
      ∧ (({ len := 4 } : LaneForm).starts s → s.grp.hartWait ≠ some .join → exec .join s = .next (s.setGrp { s.grp with
            laneWait := some .join, laneSince := if s.grp.laneWait = some .join then s.grp.laneSince else s.cycles }))
      ∧ ((controlForm 4).starts s →
        let u := s.setGrp { s.grp.advanced (controlForm 4) with
          cendDone := true, frames := [], lpc := s.grp.lpc, laneWait := some .cend, laneSince := s.cycles }
        exec .cend s = .next (if s.grp.hartWait = some .exit then u.endGroup s.cur else u.settleGroup s.cur true)))
  ∧ (∀ s : State, ({ len := 4 } : LaneForm).starts s →
      let u := s.setGrp (s.grp.advanced { len := 4 })
      let c := s.barKey s.cur true true
      let b := s.barKey s.cur false true
      (s.grp.laneInFlight = false → s.arrivalOpen s.cur c = false → exec .cbarArv s = .next (u.arrive c))
      ∧ ((s.grp.arrivalAt c).isSome = true → s.arrivalOpen s.cur c = false → exec .cbarWt s =
        .next ((u.setGrp (u.grp.setArrival c none)).l1Clear u.coreNo))
      ∧ (s.grp.arrivalAt c = none → exec .cbarWt s = .next u)
      ∧ (s.grp.laneBar = true → s.arrivalOpen s.cur b = false → exec .bbar s =
        .next ((u.setGrp ({ u.grp with progC := s.grp.progC, laneBar := false }.setArrival b none)).l1Clear u.coreNo))
      ∧ (s.grp.laneBar = false → s.grp.laneInFlight = false → s.arrivalOpen s.cur b = false →
        let v := (s.setGrp { s.grp with progC := countUp s.grp.progC }).arrive b
        let w := u.arrive b
        ((v.setGrp { v.grp with laneBar := true }).arrivalOpen s.cur b = true → exec .bbar s =
          .next (v.setGrp { v.grp with laneBar := true, laneWait := some .blockBarrier }))
        ∧ ((v.setGrp { v.grp with laneBar := true }).arrivalOpen s.cur b = false → exec .bbar s =
          .next ((w.setGrp ({ w.grp with laneBar := false }.setArrival b none)).l1Clear w.coreNo))))
  ∧ (∀ (k : FenceKind) (sc : Scope) (l2 : Bool) (sp : Space) (a : Code) (off : Half) (s : State),
      (({ len := 8 } : LaneForm).starts s → (FenceKind.rel k = true → s.grp.laneInFlight = false ∧ sc ≠ .system) →
        exec (.fence k sc) s = .next (if FenceKind.acquires k then (s.setGrp (s.grp.advanced { len := 8 })).laneAcquire sc
          else s.setGrp (s.grp.advanced { len := 8 })))
      ∧ (({ len := 8 } : LaneForm).starts s → exec (.l1inv sc) s =
        .next ((s.setGrp (s.grp.advanced { len := 8 })).l1Clear s.coreNo))
      ∧ (({ len := 8, srcs := [src64 a] } : LaneForm).starts s → s.grp.sampler.armed = false → s.grp.sampler.pending = none →
        ∃ t, exec (.prefetch l2 sp a off) s = .next t ∧ t.grp = s.grp.advanced { len := 8, srcs := [src64 a] }
          ∧ ∀ key, Memory.read t.mem key = Memory.read s.mem key))

/-- 09 R152-R154, R157: whenever every active lane's access of a load passes its checks, the load completes: the lanes are
read in order, the destination takes the data, the access stays outstanding, an acquire of block scope or wider
empties the lane L1, and no byte of memory changes while no sample is taken.
09 R152, R154, R156: whenever every active lane's access of a store passes its checks, and each posted request finds a
journal slot, the store completes: what is not posted is performed in lane order at its home and stays outstanding,
each posted request holds a journal entry; a releasing store first waits for the stream's earlier posted stores. -/
def Obligations.LaneLoadsAndStoresComplete : Prop :=
  (∀ (sc : Scope) (sp : Space) (z : Size) (sext : Bool) (d a : Code) (off : Half) (s : State),
      let o : LaneForm := { len := 8, srcs := [src64 a], ok := fun g => g.dataOk z true d, stq := d.toNat == 116 }
      o.starts s →
      let l := accessesOf sp off s.grp.active fun i => argAt (s.grp.vectors [src64 a]) 0 i
      let r := fun m => ((o.commit s).sample 0 (Size.bytes z) s.grp.active l false false).laneLoads m (Size.bytes z) l
      (s.accessCheck 0 .load (Size.bytes z) s.grp.active l = .pass → ∃ t, exec (.ld sp z sext d a off) s = .next t
        ∧ t = ((r .load).1.writeLoaded z sext d s.grp.active (r .load).2).busy
        ∧ (s.grp.sampler.armed = false → ∀ k, Memory.read t.mem k = Memory.read s.mem k))
      ∧ (s.accessCheck 0 .loadHome (Size.bytes z) s.grp.active l = .pass → exec (.ldAcq sc sp z d a off) s =
        .next (((r .loadHome).1.writeLoaded z false d s.grp.active (r .loadHome).2).busy.laneAcquire sc)))
  ∧ (∀ (sc : Scope) (sp : Space) (z : Size) (a b : Code) (off : Half) (s : State),
      let srcs := if z == .b128 then [src64 a] else [src64 a, ⟨b, z == .b64⟩]
      let o : LaneForm := { len := 8, srcs := srcs, ok := fun g => g.dataOk z false b }
      o.starts s → s.grp.laneSend = none →
      let vs := s.grp.vectors srcs
      let l := accessesOf sp off s.grp.active fun i => argAt vs 0 i
      let data := storeData s z b vs
      let plain := l.filter fun x => match s.place s.cur false x.addr with
        | .ok p => !p.posted s.coreNo
        | .error _ => false
      let posts := (s.requests data l).map fun r => r.posting (Size.code z) 0 true
      let put := fun u : State => ((u.sample 1 (Size.bytes z) s.grp.active l (!posts.isEmpty) false).laneStores data plain).sendPosts posts
      s.accessCheck 1 .store (Size.bytes z) s.grp.active l = .pass → (put s).2 = [] →
      let v := (put (o.commit s)).1
      let t := if plain.isEmpty then (v.setGrp { v.grp with laneSend := none }).sampleDone v.cur else v.setGrp { v.grp with laneSend := none, laneBusy := true }
      exec (.st sp z a b off) s = .next t
      ∧ (s.grp.laneInFlight = false → sc ≠ .system → exec (.stRel sc sp z a b off) s = .next t))

/-- 09 R148, R152, R153: a plain load from the block's own scratch, with every active lane aligned, inside the allocation
and off poisoned words, and no posted store of the group on its way to the core, completes with each active lane
holding the little-endian bytes there, extended as asked, and nothing else changed but that the access is outstanding.
09 R148, R152, R153: a plain store to the block's own scratch under the same conditions, with no queue load of the
group still to be read at a distant home, completes; the bytes of every active lane go to its address in lane order,
so that of two lanes that store one byte the higher one's stays; every byte that no active lane stores to reads as
before; and no register or mask of the group changes. -/
def Obligations.ScratchLoadsAndStores : Prop :=
  (∀ (z : Size) (sext : Bool) (d a : Code) (off : Half) (s : State),
      let o : LaneForm := { len := 8, srcs := [src64 a], ok := fun g => g.dataOk z true d, stq := d.toNat == 116 }
      let addr := fun i => ((argAt (s.grp.vectors [src64 a]) 0 i + off.signExtend 64) &&& 0x00FFFFFFFFFFFFFF).toNat
      o.starts s → z ≠ .b128 → s.grp.sampler.armed = false → (∀ m ∈ s.net, m.src ≠ s.cur) →
      (∀ i, i < 64 → s.grp.active.getLsbD i = true → addr i % Size.bytes z = 0 ∧ addr i + Size.bytes z ≤ s.blk.scratch
        ∧ s.poisoned (scratchKey s.grp.blk (addr i)) (Size.bytes z) = false) →
      ∃ u, exec (.ld .scratch z sext d a off) s = .next u.busy
        ∧ LaneWrites s o (z == .b64) d s.grp.active
            (fun i => loadValue z sext (s.bytes (scratchKey s.grp.blk (addr i)) (Size.bytes z))) u)
  ∧ (∀ (z : Size) (a b : Code) (off : Half) (s : State),
      let srcs := [src64 a, ⟨b, z == .b64⟩]
      let o : LaneForm := { len := 8, srcs := srcs, ok := fun g => g.dataOk z false b }
      let addr := fun i => ((argAt (s.grp.vectors srcs) 0 i + off.signExtend 64) &&& 0x00FFFFFFFFFFFFFF).toNat
      let n := Size.bytes z
      Inv s → o.starts s → z ≠ .b128 → s.grp.sampler.armed = false → s.grp.sampler.pending = none →
      (∀ m ∈ s.net, m.src ≠ s.cur) → s.grp.laneSend = none →
      s.grp.loadsAway = false →
      (∀ i, i < 64 → s.grp.active.getLsbD i = true → addr i % n = 0 ∧ addr i + n ≤ s.blk.scratch
        ∧ s.fencedKey (scratchKey s.grp.blk (addr i)) = false) →
      ∃ t, exec (.st .scratch z a b off) s = .next t
        ∧ t.grp.win = s.grp.win ∧ t.grp.x = s.grp.x ∧ t.grp.masks = s.grp.masks ∧ t.grp.em = s.grp.em
        ∧ t.grp.lpc = s.grp.lpc + 8
        ∧ (∀ k, (∀ i, i < 64 → s.grp.active.getLsbD i = true →
              k < scratchKey s.grp.blk (addr i) ∨ scratchKey s.grp.blk (addr i) + n ≤ k) →
            Memory.read t.mem k = Memory.read s.mem k)
        ∧ (∀ i, i < 64 → s.grp.active.getLsbD i = true → (∀ j, i < j → j < 64 → s.grp.active.getLsbD j = true →
              addr j + n ≤ addr i ∨ addr i + n ≤ addr j) → ∀ k, k < n →
            Memory.read t.mem (scratchKey s.grp.blk (addr i) + k) = (leBytes n (argAt (s.grp.vectors srcs) 1 i).toNat).getD k 0))

/-- 09 R157, R159-R161: whenever every active lane's access of an atomic passes its checks, `atom` completes with the
lanes' read-modify-writes made in increasing order and the old values in the destination; `atom.radd` completes when
in addition every contribution has its place in an open rank window, and sends the contributions to their homes. -/
def Obligations.LaneAtomicsComplete : Prop :=
  ∀ (op : AtomOp) (ty : AtomTy) (sp : Space) (d a b c : Code) (s : State),
    let srcs := if op == .cas then [src64 a, ⟨b, AtomTy.wide ty⟩, ⟨c, AtomTy.wide ty⟩] else [src64 a, ⟨b, AtomTy.wide ty⟩]
    let o : LaneForm := { len := 8, srcs := srcs, stq := d.toNat == 116
                          ok := fun g => g.dstOk (AtomTy.wide ty) d && (op == .cas || c.toNat == 119) }
    let vs := s.grp.vectors srcs
    let l := accessesOf sp 0 s.grp.active fun i => argAt vs 0 i
    (o.starts s → s.accessCheck 2 .atomic (AtomTy.bytes ty) s.grp.active l = .pass →
      let r := ((o.commit s).sample 2 (AtomTy.bytes ty) s.grp.active l false false).laneAtoms op ty (fun i => argAt vs 1 i) (fun i => argAt vs 2 i) l
      let v := (r.1.writeDest (AtomTy.wide ty) d s.grp.active fun i => Map.get 0 r.2 i).busy
      exec (.atom op ty sp .relaxed d a b c) s = .next v
      ∧ ∀ sc, exec (.atom op ty sp (.acquire sc) d a b c) s = .next (v.laneAcquire sc))
    ∧ (let p : LaneForm := { len := 8, srcs := [src64 a, src32 b, src32 c], ok := fun _ => d.toNat == 119 }
      let ws := s.grp.vectors p.srcs
      let m := accessesOf sp 0 s.grp.active fun i => argAt ws 0 i
      let rank := fun i => (argAt ws 2 i).setWidth 32
      p.starts s → s.accessCheck 2 .atomic 4 s.grp.active m = .pass → (∀ x ∈ m, s.rankFault rank m x = false) →
      ∃ t, exec (.atomRadd sp .relaxed d a b c) s = .next t
        ∧ t.net = s.net ++ m.filterMap fun x => (s.rankKey x).map fun key =>
            (⟨s.cur, s.rankTarget x key, .rank key (rank x.lane) ((argAt ws 1 x.lane).setWidth 32)⟩ : Msg))

/-- 11 R193, R198, R200, R212, 02 R49: `mcfg` takes lane 0 of its source but for its reserved bits, unless cbase, vec or
nblk changes while an accepted operation of the group that writes the tile store is not complete, when it waits; `msc`
appends a scale entry, and faults with code 20 at 16; `mfence` closes the batch and opens the next, unless 128 are
closed and not complete; `mwait` of a closed, complete batch and `mdrain` with nothing accepted change nothing;
`mpoll` reports.
11 R202, R204-R206, R213: with no posted store of the stream in flight, `cbld` builds a codebook, `tbinv` empties a
table's state word, `tbstat` reports it, and, for an image inside the block's scratch at a multiple of 64, `tbspill`
writes the 4,160-byte image and `tbfill` fills the table from a well-formed one. -/
def Obligations.MatrixControlAndTablesComplete : Prop :=
  (∀ (a d : Code) (n : Byte) (s : State),
      let v := argAt (s.grp.vectors [src64 a]) 0 0
      (({ len := 4, srcs := [src64 a] } : LaneForm).starts s →
        ((v ^^^ s.grp.mcfg) &&& 0x3F8700 = 0 ∨ (∀ o ∈ s.core.ops, o.grp ≠ s.cur ∨ o.work = .build)) →
        (v &&& ~~~0x1FF003FFFFF = 0 → exec (.mcfg a) s =
          .next (s.setGrp { s.grp.advanced { len := 4, srcs := [src64 a] } with mcfg := v }))
        ∧ ∃ t, exec (.mcfg a) s = .next t
          ∧ t.grp = { s.grp.advanced { len := 4, srcs := [src64 a] } with mcfg := v &&& 0x1FF003FFFFF })
      ∧ (({ len := 8, srcs := [src32 a] } : LaneForm).starts s →
        (s.grp.scaleQ.length < 16 → exec (.msc a) s = .next (s.setGrp { s.grp.advanced { len := 8, srcs := [src32 a] } with
          scaleQ := s.grp.scaleQ ++ [lanes fun i => (argAt (s.grp.vectors [src32 a]) 0 i).setWidth 32] }))
        ∧ (s.grp.scaleQ.length = 16 → exec (.msc a) s = .next (s.setGrp (s.grp.laneFault 20 0 s.grp.active 16))))
      ∧ ((controlForm 4).starts s → s.grp.batchOpen - s.batchDone s.cur ≠ 128 → ∃ t, exec .mfence s = .next t ∧ OnlyGroup s t
          ∧ t.grp = { s.grp.advanced (controlForm 4) with
            batchOpen := s.grp.batchOpen + 1, batchOcc := false, batchSeen := s.batchDone s.cur })
      ∧ (({ len := 8, ok := fun g => 128 ≤ (n - g.batchOpen).toNat } : LaneForm).starts s →
        ((s.batchDone s.cur - n).toNat < 128 → exec (.mwait n) s = .next (s.setGrp (s.grp.advanced { len := 8 })))
        ∧ (128 ≤ (s.batchDone s.cur - n).toNat → exec (.mwait n) s = .next (s.setGrp { s.grp with
            laneWait := some .mwait, laneSince := if s.grp.laneWait = some .mwait then s.grp.laneSince else s.cycles })))
      ∧ (({ len := 4 } : LaneForm).starts s → (∀ o ∈ s.core.ops, o.grp ≠ s.cur) →
        exec .mdrain s = .next (s.setGrp (s.grp.advanced { len := 4 })))
      ∧ LaneGives (.mpoll d) (laneForm 4 false d []) false d fun s _ _ =>
          BitVec.ofNat 64 ((s.batchDone s.cur).toNat + 256 * s.grp.batchOpen.toNat
            + 65536 * (if s.grp.batchOcc then 1 else 0) + 2 ^ 17 * s.grp.scaleQ.length))
  ∧ (∀ (tb : BitVec 5) (d a : Code) (scale : Byte) (lenm1 : BitVec 4) (s : State),
      let g := s.grp
      g.laneInFlight = false →
      (let o : LaneForm := { len := 8, srcs := buildSrcs 32 false a, ok := fun g => s.tbOk tb && g.buildOk 32 a d }
       o.starts s → exec (.cbld tb d a scale lenm1) s = .next ((s.setGrp (g.advanced o)).buildInto tb.toNat 32 false a d
          (g.vectors o.srcs) (s.buildTrack 32 false a d (g.vectors o.srcs))
          (codebookTable scale (lenm1.toNat + 1) fun e => s.buildSource 32 false a (g.vectors o.srcs) e)))
      ∧ (({ len := 8, ok := fun _ => s.tbOk tb } : LaneForm).starts s → ∃ t, exec (.tbinv tb) s = .next t
        ∧ t.grp = g.advanced { len := 8 } ∧ (t.blk.table tb.toNat).word = 0
        ∧ (∀ k, k ≠ tb.toNat → t.blk.table k = s.blk.table k) ∧ ∀ k, Memory.read t.mem k = Memory.read s.mem k)
      ∧ (let o : LaneForm := { len := 8, ok := fun g => s.tbOk tb && g.dstOk true d }
       o.starts s → ∃ t, exec (.tbstat tb d) s = .next t
          ∧ LaneWrites s o true d g.active (fun _ => BitVec.ofNat 64 (s.blk.table tb.toNat).word) t)
      ∧ (let o : LaneForm := { len := 8, srcs := [src32 a], ok := fun g => s.tbOk tb && g.srcOk (src32 a) }
        let off := lowBits 32 (argAt (g.vectors [src32 a]) 0 0)
        let image := s.bytes (scratchKey g.blk off) 4160
        o.starts s → off % 64 = 0 → off + 4160 ≤ s.blk.scratch →
        (Inv s → ∃ t, exec (.tbspill tb a) s = .next t
          ∧ t.bytes (scratchKey g.blk off) 4160 = tableImage (s.blk.table tb.toNat) (s.core.track (s.blk.table tb.toNat).tag)
          ∧ ∀ k, k < scratchKey g.blk off ∨ scratchKey g.blk off + 4160 ≤ k → Memory.read t.mem k = Memory.read s.mem k)
        ∧ (imageBad image = false → exec (.tbfill tb a) s =
          .next ((s.setGrp (g.advanced o)).replaceTable tb.toNat (imageTable s.core g.blk image)))))

/-- 11 R189, R190, R195-R198, R200, R213: whenever a dense operation starts with room in the dense array (fewer than 4
operations, and with its own handshake cycles at most 2,048 in flight, 14 R254, R255), no posted store of the stream
in flight, formats 0 to 12 (4 to 8 when scaled), A, B and C inside their allocations, the metadata of 2:4 B in order
and the scale entries it needs, it is accepted: it captures mcfg, fmode, its rows and its operands, joins the open
batch and takes its scale entries, and nothing else changes.
11 R189, R201-R203, R207, R213: whenever a lookup or a table build starts with room in the lookup array, no posted
store of the stream in flight, and its formats, tables, source and regions pass the checks, it is accepted: a lookup
captures its tables and codes; a build makes its table valid at once, tied to its source, and joins the batch. -/
def Obligations.MatrixOperationsAccepted : Prop :=
  (∀ (sp scl asrc : Bool) (a : Code) (pitch : Half) (s : State),
      let g := s.grp
      let x := Mx.of g.mcfg
      let o : LaneForm := { len := 8, srcs := if asrc then [src32 a] else [], ok := fun g => if asrc then g.srcOk (src32 a) else g.srcAny a }
      let off := lowBits 32 (argAt (g.vectors o.srcs) 0 0)
      let n := if scl then x.k / 32 else 0
      o.starts s → g.laneInFlight = false → (s.core.ops.filter fun p => p.lookupArray == false).length < 4 →
      ((s.core.ops.filter fun p => p.lookupArray == false).map fun p => p.hand).sum + x.denseHand ≤ 2048 →
      (if scl then 4 ≤ x.afmt ∧ x.afmt ≤ 8 ∧ 4 ≤ x.bfmt ∧ x.bfmt ≤ 8 else x.afmt ≤ 12 ∧ x.bfmt ≤ 12) →
      (asrc = false → a.toNat < 112 ∧ a.toNat + x.aRegs ≤ 112 ∧ g.wbase + a.toNat + x.aRegs ≤ g.nregs) →
      (asrc = true → aRange x s.blk.scratch pitch off = none) →
      x.w0 + x.n * x.colBytes sp ≤ s.blk.wbuf → x.t0 + x.cBytes ≤ s.blk.tiles →
      (if scl then n ≤ g.scaleQ.length else g.scaleQ.length = 0) → (sp = true → s.metadata x = none) →
      exec (if sp then .mmaSp scl asrc a pitch else .mma scl asrc a pitch) s =
        .next ((s.setGrp { g.advanced o with batchOcc := true, scaleQ := g.scaleQ.drop n }).setCoreAt s.coreNo
          { s.core with ops := s.core.ops ++ [{
              grp := s.cur, blk := g.blk, batch := g.batchOpen, lookupArray := false, cfg := g.mcfg, fmode := g.fmode
              rows := if x.vec then (if g.active = 0 then 0 else 1) else g.active
              work := .dense (s.aMatrix x asrc a pitch off)
                ((List.range x.n).map fun j => x.bColumn sp (s.column x sp j)) (g.scaleQ.take n) scl
              hand := x.denseHand }] }))
  ∧ (∀ (tb cb : BitVec 5) (pm asrc : Bool) (d a : Code) (s : State),
      let g := s.grp
      let x := Mx.of g.mcfg
      g.laneInFlight = false →
      (({ len := 8, ok := fun _ => s.tbOk tb } : LaneForm).starts s → s.arrayRoom true x.lutHand = true →
        let n := x.lutCount
        let tables := (List.range n).map fun i => s.blk.table (tb.toNat + i)
        let codes := (List.range x.n).map fun j => unpack x.wb x.k (s.column x false j)
        (lutKind x.bfmt).isSome = true → tb.toNat + n ≤ s.blk.ntables → s.bcRange x false = none →
        (∀ i, i < n → (s.blk.table (tb.toNat + i)).valid = true ∧ some (s.blk.table (tb.toNat + i)).kind = lutKind x.bfmt
          ∧ (x.bfmt ≠ 15 → (s.blk.table (tb.toNat + i)).pm = (x.bfmt == 13))) → lutCodes x tables codes = none →
        exec (.mlut tb) s = .next ((s.setGrp { g.advanced { len := 8 } with batchOcc := true }).setCoreAt s.coreNo
          { s.core with ops := s.core.ops ++ [{
              grp := s.cur, blk := g.blk, batch := g.batchOpen, lookupArray := true, cfg := g.mcfg, fmode := g.fmode
              rows := if x.vec then (if g.active = 0 then 0 else 1) else g.active, work := .lookup tables codes
              hand := x.lutHand }] }))
      ∧ (let w := 4 * x.wa
        let o : LaneForm := { len := 8, srcs := buildSrcs w asrc a
                              ok := fun g => s.tbOk tb && (if asrc then g.srcOk (src32 a) && d.toNat == 119
                                else g.srcAny a && g.dstAny d) }
        let vs := g.vectors o.srcs
        let rows := lanes fun i => (unpack x.wa 4 (s.buildSource w asrc a vs i)).map fun v => mxVal x.afmt (fzin g.fmode) v
       o.starts s → s.arrayRoom true 1 = true → buildFmt x.afmt = true → (asrc = true ∨ g.buildOk w a d = true) → s.buildRange w asrc vs = none →
        exec (.tbldSub pm asrc tb d a) s = .next (((s.setGrp (g.advanced o)).buildInto tb.toNat w asrc a d vs
          (s.buildTrack w asrc a d vs) (subsetTable g.fmode x.afmt pm rows)).accept true 0 .build 1
            (entryFlags (fzres g.fmode) (rows.flatMap fun a => (List.range 16).map (subsetExact pm a)))))
      ∧ (let book := s.blk.table cb.toNat
        let o : LaneForm := { len := 8, srcs := buildSrcs 32 asrc a
                              ok := fun g => s.tbOk tb && s.tbOk cb && (if asrc then g.srcOk (src32 a) && d.toNat == 119
                                else g.buildOk 32 a d) }
        let vs := g.vectors o.srcs
        let rows := lanes fun i => [mxVal x.afmt (fzin g.fmode) (bits (s.buildSource 32 asrc a vs i) (x.wa - 1) 0)]
       o.starts s → s.arrayRoom true 1 = true → buildFmt x.afmt = true → book.valid = true → book.kind = 3 → s.buildRange 32 asrc vs = none →
        exec (.tbldProd asrc tb cb d a) s = .next (((s.setGrp (g.advanced o)).buildInto tb.toNat 32 asrc a d vs
          (s.buildTrack 32 asrc a d vs) (productTable g.fmode x.afmt book rows)).accept true 0 .build 1 (entryFlags (fzres g.fmode)
            (rows.flatMap fun a => (List.range 16).map (productExact (fzin g.fmode) (a.getD 0 (.fin false 0 0)) book))))))

/-- 11 R208-R211, R213: with no posted store of the stream in flight, no accepted operation of the group on the words
touched, and those words inside the tile store, `tsld` loads its registers in the active lanes, `tsst` stores the
words of the active lanes, the highest lane's last, `tszero` zeroes C, and `tscvt` leaves each active lane the packed
conversions of its row of C and sets msat where one of them clamped; no other register or byte of memory changes. -/
def Obligations.TileInstructionsComplete : Prop :=
  ∀ (d a : Code) (nm1 : BitVec 7) (p : BitVec 9) (tgt : BitVec 5) (s : State), Inv s → s.grp.laneInFlight = false →
    let g := s.grp
    let x := Mx.of g.mcfg
    let n := nm1.toNat + 1
    let off := lowBits 32 (argAt (g.vectors [src32 a]) 0 0)
    let o : LaneForm := { len := 8, srcs := [src32 a], ok := fun g => g.srcOk (src32 a) && d.toNat < 112 && g.rangeOk d.toNat n }
    let word := fun i m => tileKey g.blk (off + 4 * (i * p.toNat + m))
    (o.starts s → off % 4 = 0 → off < s.blk.tiles → s.tileWait g.active p.toNat n off = false →
      (∀ i, i < 64 → g.active.getLsbD i = true → off + 4 * (i * p.toNat) + 4 * n ≤ s.blk.tiles) →
      (∃ t, exec (.tsld d a nm1 p) s = .next t
        ∧ (∀ i m, i < 64 → m < n → t.grp.reg (g.wbase + d.toNat + m) i =
            if g.active.getLsbD i then BitVec.ofNat 32 (s.le (word i m) 4) else g.reg (g.wbase + d.toNat + m) i)
        ∧ (∀ q i, q < g.wbase + d.toNat ∨ g.wbase + d.toNat + n ≤ q → t.grp.reg q i = g.reg q i)
        ∧ ∀ k, Memory.read t.mem k = Memory.read s.mem k)
      ∧ ∃ t, exec (.tsst a d nm1 p) s = .next t ∧ t.grp = g.advanced o
        ∧ (∀ k, (∀ i m, i < 64 → m < n → g.active.getLsbD i = true → k < word i m ∨ word i m + 4 ≤ k) →
            Memory.read t.mem k = Memory.read s.mem k)
        ∧ (∀ i m, i < 64 → m < n → g.active.getLsbD i = true →
            (∀ j q, i < j → j < 64 → q < n → g.active.getLsbD j = true → word j q ≠ word i m) → ∀ b, b < 4 →
            Memory.read t.mem (word i m + b) = (leBytes 4 (g.reg (g.wbase + d.toNat + m) i).toNat).getD b 0))
    ∧ (({ len := 8 } : LaneForm).starts s → x.t0 + x.cBytes ≤ s.blk.tiles → s.tileBusy (meets x.t0 x.cBytes) = false →
      ∃ t, exec .tszero s = .next t ∧ t.grp = g.advanced { len := 8 }
        ∧ ∀ k, Memory.read t.mem k =
            if tileKey g.blk x.t0 ≤ k ∧ k < tileKey g.blk x.t0 + x.cBytes then 0 else Memory.read s.mem k)
    ∧ (({ len := 8, ok := fun g => g.dstAny d } : LaneForm).starts s → x.t0 + x.cBytes ≤ s.blk.tiles →
      s.tileBusy (meets x.t0 x.cBytes) = false →
      x.vec = false → tgt.toNat ∈ (if x.ints then [0, 9, 10] else [2, 3, 4, 5, 9]) →
      let w := mxWidth tgt.toNat
      let cv := fun i j => tileConvert g.fmode x.ints tgt.toNat (s.le (tileKey g.blk (x.t0 + 4 * (i * x.n + j))) 4)
      d.toNat < 112 ∧ g.rangeOk d.toNat (x.n * w / 32) = true →
      ∃ t, exec (.tscvt d tgt) s = .next t
        ∧ (∀ i m, i < 64 → m < x.n * w / 32 → t.grp.reg (g.wbase + d.toNat + m) i = if g.active.getLsbD i
            then BitVec.ofNat 32 ((List.range (32 / w)).foldl (fun acc e => acc + (cv i (m * (32 / w) + e)).1 * 2 ^ (w * e)) 0)
            else g.reg (g.wbase + d.toNat + m) i)
        ∧ (∀ q i, q < g.wbase + d.toNat ∨ g.wbase + d.toNat + x.n * w / 32 ≤ q → t.grp.reg q i = g.reg q i)
        ∧ t.grp.mstat = (if (activeLanes g.active).any fun i => (List.range x.n).any fun j => (cv i j).2
            then g.mstat ||| msatFlag else g.mstat)
        ∧ ∀ k, Memory.read t.mem k = Memory.read s.mem k)

/-- 11 R190, R192, R197, R199: when the oldest accepted operation of a core, an integer `mma` with no element updated
before, completes, it returns its token and leaves the list; each element of C of its rows takes its old value plus
the products of its A row and B column, structural zeros aside, modulo 2^32; no other byte of memory changes. Before
that, its updates may come one element at a time (Table 11-3): an update changes at most its element's four bytes and
completes no operation. -/
def Obligations.MatrixCompletionAddsProducts : Prop :=
  ∀ (o : MatOp) (rest : List MatOp) (a : List (List Nat)) (b : List (List (Option Nat))) (sc : List (List W32)) (w : Bool)
    (s : State), Inv s → (s.coreAt s.input.a).ops = o :: rest → s.input.b = 0 → o.written = [] → o.work = .dense a b sc w →
    let x := Mx.of o.cfg
    let key := fun r j => tileKey o.blk (x.t0 + 4 * (r * x.n + j))
    let product : Nat × Option Nat → Int := fun p => match p.2 with
      | some v => mxInt x.afmt p.1 * mxInt x.bfmt v
      | none => 0
    (s.input.flag = true → ∃ t, exec .matrixCompletion s = .next t ∧ (t.coreAt s.input.a).ops.length = rest.length + 1
      ∧ ∀ k, k < o.key s.input.c ∨ o.key s.input.c + 4 ≤ k → Memory.read t.mem k = Memory.read s.mem k)
    ∧ (s.input.flag = false → x.ints = true → ∃ t, exec .matrixCompletion s = .next t ∧ (t.coreAt s.input.a).ops = rest
      ∧ (∀ r j, r < x.m → j < x.n → Int.ofNat (t.le (key r j) 4) = if o.rows.getLsbD r
          then (Int.ofNat (s.le (key r j) 4) + (((a.getD r []).zip (b.getD j [])).map product).sum) % 2 ^ 32
          else Int.ofNat (s.le (key r j) 4))
      ∧ ∀ k, (∀ r j, r < x.m → j < x.n → k < key r j ∨ key r j + 4 ≤ k) → Memory.read t.mem k = Memory.read s.mem k)

/-- 02 R34, R52, 04 R87, RV64IM with Zba, Zbb and Zicond: whenever no register it names waits for a copy, each arithmetic
instruction completes with its result in rd (nothing where rd is x0), the pc 4 further, and nothing else changed
beyond the tokens that its registers held.
04 R87, RV64I: with no named register waiting, a jump goes to its target and links, a branch goes to its target where
its condition holds and falls through else; a target taken that is not a multiple of 4 raises mcause 0 with the target
in mtval, and links nothing.
02 R34, R52, 10 R174: a register that waits for a copy holds back every instruction that names it, changing nothing
but the record of the wait; the settling of completed tokens changes no register, no byte of memory and no other
group. -/
def Obligations.HartArithmeticAndTransfersComplete : Prop :=
  (∀ (op : AluOp) (opi : AluImmOp) (un : UnOp) (rd rs1 rs2 : XReg) (imm : BitVec 12) (up : BitVec 20) (s : State),
      (s.hartFree [rs1, rs2, rd] → let u := s.settled [rs1, rs2] [rd]
        exec (.hartInstruction (.alu op rd rs1 rs2)) s =
          .next (u.setGrp (u.grp.setX rd (aluOp op (s.grp.xr rs1) (s.grp.xr rs2))).hartNext))
      ∧ (s.hartFree [rs1, rd] → let u := s.settled [rs1] [rd]
        exec (.hartInstruction (.aluImm opi rd rs1 imm)) s =
          .next (u.setGrp (u.grp.setX rd (aluImmOp opi (s.grp.xr rs1) imm)).hartNext)
        ∧ exec (.hartInstruction (.unary un rd rs1)) s = .next (u.setGrp (u.grp.setX rd (unOp un (s.grp.xr rs1))).hartNext))
      ∧ (s.hartFree [rd] → let u := s.settled [] [rd]
        exec (.hartInstruction (.lui rd up)) s = .next (u.setGrp (u.grp.setX rd ((up ++ 0#12).signExtend 64)).hartNext)
        ∧ exec (.hartInstruction (.auipc rd up)) s =
          .next (u.setGrp (u.grp.setX rd (s.grp.pc + (up ++ 0#12).signExtend 64)).hartNext)))
  ∧ (∀ (c : BrCond) (rd rs1 rs2 : XReg) (off : BitVec 21) (imm : BitVec 12) (boff : BitVec 13) (s : State),
      (s.hartFree [rd] → let u := s.settled [] [rd]
        let a := s.grp.pc + off.signExtend 64
        (a % 4 = 0 → exec (.hartInstruction (.jal rd off)) s = .next (u.setGrp ((u.grp.setX rd (s.grp.pc + 4)).hartGoto a)))
        ∧ (a % 4 ≠ 0 → exec (.hartInstruction (.jal rd off)) s = .next (u.trap 0 a)))
      ∧ (s.hartFree [rs1, rd] → let u := s.settled [rs1] [rd]
        let a := (s.grp.xr rs1 + imm.signExtend 64) &&& ~~~1
        (a % 4 = 0 → exec (.hartInstruction (.jalr rd rs1 imm)) s =
          .next (u.setGrp ((u.grp.setX rd (s.grp.pc + 4)).hartGoto a)))
        ∧ (a % 4 ≠ 0 → exec (.hartInstruction (.jalr rd rs1 imm)) s = .next (u.trap 0 a)))
      ∧ (s.hartFree [rs1, rs2] → let u := s.settled [rs1, rs2] []
        let a := s.grp.pc + boff.signExtend 64
        let i : Instr := .hartInstruction (.branch c rs1 rs2 boff)
        (branchTaken c (s.grp.xr rs1) (s.grp.xr rs2) = false → exec i s = .next (u.setGrp u.grp.hartNext))
        ∧ (branchTaken c (s.grp.xr rs1) (s.grp.xr rs2) = true → (a % 4 = 0 → exec i s = .next (u.setGrp (u.grp.hartGoto a)))
          ∧ (a % 4 ≠ 0 → exec i s = .next (u.trap 0 a)))))
  ∧ (∀ (op : AluOp) (rd rs1 rs2 : XReg) (s : State),
      (s.grp.tokens ≠ [] → (∃ r ∈ [rs1, rs2, rd], s.grp.tokenBusy r = true) → exec (.hartInstruction (.alu op rd rs1 rs2)) s =
        .next (s.setGrp { s.grp with
          hartWait := some .token, hartSince := if s.grp.hartWait = some .token then s.grp.hartSince else s.cycles
          hartTide := if s.grp.hartWait = some .token then s.grp.hartTide else s.tide.toNat }))
      ∧ ∀ reads writes : List XReg, let t := s.settled reads writes
        t.grp = { s.grp with tokens := t.grp.tokens } ∧ t = { s with groups := t.groups, cores := t.cores }
        ∧ (∀ k, k ≠ s.cur → t.grpAt k = s.grpAt k) ∧ (∀ c, t.coreAt c = { s.coreAt c with l1 := (t.coreAt c).l1 })
        ∧ ∀ a, Memory.read t.mem a = Memory.read s.mem a)

/-- 09 R165, R153, 02 R34: a standard load from the block's own scratch, aligned, inside the allocation, off poisoned
words and with no message of the group to its core and no queue load of it still under way, puts the little-endian
bytes there, extended as its kind says, into rd; no byte of memory changes. A misaligned address raises mcause 4, a
bad space mcause 5.
09 R165, R153: a standard store to the block's own scratch under the same conditions writes the low bytes of rs2,
little-endian; every other byte of memory and every register keep their values. A misaligned address raises mcause 6,
a bad space mcause 7. -/
def Obligations.HartLoadsAndStoresComplete : Prop :=
  (∀ (k : LoadKind) (rd rs1 : XReg) (imm : BitVec 12) (s : State), s.hartFree [rs1, rd] →
      let u := s.settled [rs1] [rd]
      let a := s.grp.xr rs1 + imm.signExtend 64
      let n := LoadKind.bytes k
      let off := (a &&& 0x00FFFFFFFFFFFFFF).toNat
      (a.toNat % n ≠ 0 → exec (.hartLoad k rd rs1 imm) s = .next (u.trap 4 a))
      ∧ (a.toNat % n = 0 → u.place u.cur u.mmode a = .error .space → exec (.hartLoad k rd rs1 imm) s = .next (u.trap 5 a))
      ∧ (∀ key t va, u.hartReach a n .read true true = .home key t va →
        exec (.hartLoad k rd rs1 imm) s = .next (u.loadAt k rd key t va))
      ∧ (a.toNat / 2 ^ 56 = 0xF0 → a.toNat % n = 0 → off + n ≤ s.blk.scratch → (∀ m ∈ s.net, m.src ≠ s.cur) → s.grp.loadsAway = false →
        s.poisoned (scratchKey s.grp.blk off) n = false → ∃ t, exec (.hartLoad k rd rs1 imm) s = .next t
          ∧ t.grp = (u.grp.setX rd (LoadKind.value k (leNat (s.bytes (scratchKey s.grp.blk off) n)))).hartNext
          ∧ ∀ b, Memory.read t.mem b = Memory.read s.mem b))
  ∧ (∀ (k : StoreKind) (rs1 rs2 : XReg) (imm : BitVec 12) (s : State), s.hartFree [rs1, rs2] →
      let u := s.settled [rs1, rs2] []
      let a := s.grp.xr rs1 + imm.signExtend 64
      let n := StoreKind.bytes k
      let off := (a &&& 0x00FFFFFFFFFFFFFF).toNat
      let key := scratchKey s.grp.blk off
      (a.toNat % n ≠ 0 → exec (.hartStore k rs1 rs2 imm) s = .next (u.trap 6 a))
      ∧ (a.toNat % n = 0 → u.place u.cur u.mmode a = .error .space → exec (.hartStore k rs1 rs2 imm) s = .next (u.trap 7 a))
      ∧ (∀ key t va, u.hartReach a n .write false true = .home key t va →
        let w := u.hartPut key t va (leBytes n (s.grp.xr rs2).toNat)
        exec (.hartStore k rs1 rs2 imm) s = .next (w.setGrp w.grp.hartNext))
      ∧ (Inv s → a.toNat / 2 ^ 56 = 0xF0 → a.toNat % n = 0 → off + n ≤ s.blk.scratch → (∀ m ∈ s.net, m.src ≠ s.cur) → s.grp.loadsAway = false →
        s.fencedKey key = false → ∃ t, exec (.hartStore k rs1 rs2 imm) s = .next t
          ∧ t.grp.x = s.grp.x ∧ t.grp.pc = s.grp.pc + 4 ∧ t.grp.mstatus = s.grp.mstatus
          ∧ (∀ i, i < n → Memory.read t.mem (key + i) = (leBytes n (s.grp.xr rs2).toNat).getD i 0)
          ∧ ∀ b, b < key ∨ key + n ≤ b → Memory.read t.mem b = Memory.read s.mem b))

/-- 09 R165: an AMO, LR or SC whose access passes its checks, with no release asked for, completes: an AMO writes its
result at the home and puts the old value into rd, LR reserves its 128-byte sector, SC stores and writes 0 where that
reservation stands and writes 1 else, and either ends the reservation; with aq the lane L1 is emptied. -/
def Obligations.HartAtomicsComplete : Prop :=
  ∀ (op : AmoOp) (dbl aq : Bool) (rd rs1 rs2 : XReg) (s : State) (key : Nat) (t : Option TlbEntry) (va : Option Nat),
    let n := if dbl then 8 else 4
    let a := s.grp.xr rs1
    let acq := fun v : State => if aq then v.l1Clear v.coreNo else v
    (s.hartFree [rs1, rs2, rd] → let u := s.settled [rs1, rs2] [rd]
      u.hartReach a n .both false false = .home key t va →
      let h := (((u.keepTlb? t).meterAt (16 + u.cur % 16) va n t).touchL1 va).toHome va
      let old : W64 := BitVec.ofNat 64 (leNat (h.worldBytes u.asid key n))
      let new := if dbl then (amoNew op old (s.grp.xr rs2)).toNat
        else (amoNew op (old.setWidth 32 : W32) ((s.grp.xr rs2).setWidth 32)).toNat
      exec (.hartAmo op dbl aq false rd rs1 rs2) s =
        .next ((acq (h.writeAs u.asid key (leBytes n new))).hartDone rd (if dbl then old else (old.setWidth 32 : W32).signExtend 64)))
    ∧ (s.hartFree [rs1, rd] → let u := s.settled [rs1] [rd]
      u.hartReach a n .both true false = .home key t va → a.toNat / 2 ^ 56 ≠ 0xF1 →
      ∃ w, exec (.hartLr dbl aq false rd rs1) s = .next w ∧ w.grp.resv = some (key / 128 * 128, 128)
        ∧ w.grp.pc = s.grp.pc + 4
        ∧ (rd ≠ 0 → w.grp.xr rd = let v := leNat (u.hartBytes key n va)
            if dbl then BitVec.ofNat 64 v else (BitVec.ofNat 32 v).signExtend 64)
        ∧ ∀ b, Memory.read w.mem b = Memory.read s.mem b)
    ∧ (s.hartFree [rs1, rs2, rd] → let u := s.settled [rs1, rs2] [rd]
      u.hartReach a n .cond false false = .home key t va → a.toNat / 2 ^ 56 ≠ 0xF1 →
      ∃ w, exec (.hartSc dbl aq false rd rs1 rs2) s = .next w ∧ w.grp.resv = none ∧ w.grp.pc = s.grp.pc + 4
        ∧ (rd ≠ 0 → w.grp.xr rd = if s.grp.resv = some (key / 128 * 128, 128) then 0 else 1)
        ∧ (s.grp.resv ≠ some (key / 128 * 128, 128) → ∀ b, Memory.read w.mem b = Memory.read s.mem b))

/-- 09 R165-R168, 13 R242: whenever nothing of its group is outstanding (no posted store in flight, no dirty sector, no
eviction, no queue load still to be read at a distant home), a fence completes, an acquiring one of block scope or
wider empties the lane L1, and a standard `fence` with an empty set does nothing more than move the pc; `fence.i`
drops the hart's fetched words; `z.l1wb` completes once the dirty sectors of its range are written back, and at once
for a length of zero. -/
def Obligations.HartFencesComplete : Prop :=
  ∀ (k : FenceKind) (sc : Scope) (fm p q : BitVec 4) (rd rs1 rs2 : XReg) (imm : BitVec 12) (s : State),
    let next := s.setGrp s.grp.hartNext
    let emptied := (s.l1Clear s.coreNo).setGrp s.grp.hartNext
    ((FenceKind.rel k = true → s.hartClean ∧ (sc = .system → s.modifiedHost = false ∧ s.evictingAny = false)) →
      exec (.zFence k sc) s = .next (if FenceKind.acquires k ∧ Scope.empties sc then emptied else next))
    ∧ (p = 0 ∨ q = 0 → exec (.hartFence fm p q rd rs1) s = .next next)
    ∧ (p ≠ 0 → q ≠ 0 → s.hartClean → exec (.hartFence fm p q rd rs1) s = .next emptied)
    ∧ exec (.fenceI rd rs1 imm) s = .next ((s.setCoreAt s.coreNo
        { s.core with code := s.core.code.filter fun l => !l.hart }).setGrp s.grp.hartNext)
    ∧ (s.hartFree [rs1, rs2] → let u := s.settled [rs1, rs2] []
      let len := (s.grp.xr rs2).toNat
      (len = 0 → s.evicting s.coreNo = false → exec (.zL1wb rs1 rs2) s = .next (u.setGrp u.grp.hartNext))
      ∧ ∀ va asid t, len ≠ 0 → u.place u.cur u.mmode (s.grp.xr rs1) = .ok (.global va asid) →
        u.writeBackAll (u.dirty.filter fun d =>
          d.core == u.coreNo && (d.asid == u.asid || d.glob) && d.va < va + len && va < d.va + 128) = .ok t →
        t.evicting t.coreNo = false → exec (.zL1wb rs1 rs2) s = .next (t.setGrp t.grp.hartNext))

/-- 12 R215, 21 R299, 05 R102, 09 R165: taking a trap saves the pc in mepc, the cause and the value in mcause and mtval,
MIE in MPIE and the mode in MPP; it clears MIE, enters M-mode at mtvec, abandons a wait and ends the reservation;
every other part of the group stays.
12 R215: `ecall` raises mcause 8 from U-mode and 11 from M-mode with mtval 0, and `ebreak` mcause 3 with mtval its
address. A trap changes its own group as the entry says, of the other groups at most a reservation that its trace
record breaks, of the cores at most lines of a lane L1, and, with tracing off in the core's partition (28 R365),
nothing else. -/
def Obligations.TrapEntry : Prop :=
  (∀ (g : Group) (cause : Nat) (irq : Bool) (val : W64), cause < 2 ^ 63 →
      let t := g.trap cause irq val
      t.mepc = g.pc ∧ t.mcause.toNat = cause + (if irq then 2 ^ 63 else 0) ∧ t.mtval = val
      ∧ mstatusMie t.mstatus = false ∧ mstatusMpie t.mstatus = mstatusMie g.mstatus
      ∧ mstatusMppM t.mstatus = (g.mode == .m) ∧ mstatusTw t.mstatus = mstatusTw g.mstatus
      ∧ t.mode = .m ∧ t.pc = g.mtvec &&& 0xFFFFFFFFFFFFFFFC ∧ t.hartWait = none ∧ t.resv = none
      ∧ { t with mepc := g.mepc, mcause := g.mcause, mtval := g.mtval, mstatus := g.mstatus, mode := g.mode, pc := g.pc
                 hartWait := g.hartWait, resv := g.resv } = g)
  ∧ (∀ s : State, exec .ecall s = .next (s.trap (if s.grp.mode = .m then 11 else 8) 0)
      ∧ exec .ebreak s = .next (s.trap 3 s.grp.pc)
      ∧ ∀ (cause : Nat) (val : W64), let t := s.trap cause val
        t.grp = (s.grp.stallEnd s.cycles).trap cause false val
        ∧ (∀ k, k ≠ s.cur → t.grpAt k = { s.grpAt k with resv := (t.grpAt k).resv })
        ∧ (∀ c, t.coreAt c = { s.coreAt c with l1 := (t.coreAt c).l1 })
        ∧ t = { s with groups := t.groups, cores := t.cores, mem := t.mem, poison := t.poison, dirty := t.dirty, cipher := t.cipher, parts := t.parts }
        ∧ ((s.reg (subBlock (s.partOfCore (s.cur / 16)) 0x3008)).toNat % 2 = 0 →
          t = s.setGrp ((s.grp.stallEnd s.cycles).trap cause false val)))

/-- 12 R215, R218, R219, 21 R311: `mret` in M-mode, with nothing left to restore and no notice held for the group, returns
to mepc in the mode MPP names, with MIE from MPIE, MPIE set and MPP cleared, and restarts a compute stream that holds
and has not executed `cend` at mlpc with mlcause zero; in U-mode it is illegal. `wfi` completes in M-mode when mip and
mie meet and waits else; in U-mode it completes, or is illegal under TW. -/
def Obligations.ReturnsAndWaits : Prop :=
  ∀ s : State,
    (s.grp.mode = .m → s.grp.needCrest = [] → s.blk.needPart1 = false → s.noticeWaits s.cur = false → ∃ t, exec .mret s = .next t ∧ OnlyGroup s t
      ∧ t.grp.mode = (if mstatusMppM s.grp.mstatus then .m else .u) ∧ t.grp.pc = s.grp.mepc
      ∧ mstatusMie t.grp.mstatus = mstatusMpie s.grp.mstatus ∧ mstatusMpie t.grp.mstatus = true
      ∧ mstatusMppM t.grp.mstatus = false ∧ mstatusTw t.grp.mstatus = mstatusTw s.grp.mstatus
      ∧ (if s.grp.held = true ∧ s.grp.cendDone = false
          then t.grp.held = false ∧ t.grp.lpc = s.grp.mlpc ∧ t.grp.mlcause = 0
          else t.grp.held = s.grp.held ∧ t.grp.lpc = s.grp.lpc ∧ t.grp.mlcause = s.grp.mlcause))
    ∧ (s.grp.mode = .u → exec .mret s = .next (s.trap 2 (s.grp.hword.setWidth 64)))
    ∧ (s.grp.mode = .m → s.grp.mip &&& s.grp.mie ≠ 0 → exec .wfi s = .next (s.setGrp s.grp.hartNext))
    ∧ (s.grp.mode = .m → s.grp.mip &&& s.grp.mie = 0 → exec .wfi s = .next (s.setGrp { s.grp with
        hartWait := some .wfi, hartSince := if s.grp.hartWait = some .wfi then s.grp.hartSince else s.cycles
        hartTide := if s.grp.hartWait = some .wfi then s.grp.hartTide else s.tide.toNat }))
    ∧ (s.grp.mode = .u → (mstatusTw s.grp.mstatus = true → exec .wfi s = .next (s.trap 2 (s.grp.hword.setWidth 64)))
      ∧ (mstatusTw s.grp.mstatus = false → exec .wfi s = .next (s.setGrp s.grp.hartNext)))

/-- 02 R35, 12 R215: a CSR instruction on an assigned number, in a mode that may reach it and not writing a read-only one,
completes with the old value in rd; the writable standard CSRs take the new value, with the bits that WARL rules fix;
any other CSR instruction is illegal and writes nothing.
02 R36-R38, 10 R174, 12 R218: a write of `slip` stores bits [5:0] clamped to 1-32; a CSRRW or CSRRC of `mstat` clears
the flags set in the source, and a CSRRS that would set one is illegal; a write of `mlpc` in M-mode clears bits [1:0];
a read of a `cedone` register is an acquire and a write of one illegal. -/
def Obligations.CsrAccesses : Prop :=
  (∀ (csr : BitVec 12) (op : CsrOp) (rd : XReg) (src : CsrSrc) (s : State), s.hartFree (CsrSrc.regs src ++ [rd]) →
      let u := s.settled (CsrSrc.regs src) [rd]
      let new := fun old => csrNew op old (s.grp.csrSrc src)
      (∀ old, u.csrValue csr.toNat = some old → u.csrOk csr.toNat (op.writes src) = true →
        (op.writes src = false → exec (.csrAccess csr op rd src) s = .next (u.hartDone rd old))
        ∧ (op.writes src = true → ∃ t, exec (.csrAccess csr op rd src) s = .next t ∧ OnlyGroup u t
          ∧ (rd ≠ 0 → t.grp.xr rd = old) ∧ t.grp.pc = s.grp.pc + 4
          ∧ (csr = 0x305 → t.grp.mtvec = new old &&& 0xFFFFFFFFFFFFFFFC) ∧ (csr = 0x304 → t.grp.mie = new old &&& 0x800)
          ∧ (csr = 0x340 → t.grp.mscratch = new old) ∧ (csr = 0x341 → t.grp.mepc = new old &&& 0xFFFFFFFFFFFFFFFC)
          ∧ (csr = 0x342 → t.grp.mcause = new old) ∧ (csr = 0x343 → t.grp.mtval = new old)
          ∧ (csr = 0x300 → mstatusMppM t.grp.mstatus = mstatusMppM (new old))
          ∧ (csr ≠ 0x300 → t.grp.mstatus = u.grp.mstatus)))
      ∧ (u.csrValue csr.toNat = none ∨ u.csrOk csr.toNat (op.writes src) = false →
        exec (.csrAccess csr op rd src) s = .next (u.trap 2 (s.grp.hword.setWidth 64))))
  ∧ (∀ (ch : BitVec 3) (op : CsrOp) (rd : XReg) (src : CsrSrc) (s : State), s.hartFree (CsrSrc.regs src ++ [rd]) →
      let u := s.settled (CsrSrc.regs src) [rd]
      let v := s.grp.csrSrc src
      (op.writes src = true → ∃ t, exec (.slipWrite op rd src) s = .next t
        ∧ t.grp.slip = (let n := (csrNew op (BitVec.ofNat 64 s.grp.slip) v).toNat % 64
            if n = 0 then 1 else if 32 < n then 32 else n)
        ∧ t.grp.pc = s.grp.pc + 4 ∧ (rd ≠ 0 → t.grp.xr rd = BitVec.ofNat 64 s.grp.slip)
        ∧ ∀ a, Memory.read t.mem a = Memory.read s.mem a)
      ∧ (op ≠ .rs → ∃ t, exec (.mstatWrite op rd src) s = .next t ∧ t.grp.mstat = s.grp.mstat &&& ~~~(v.setWidth 4)
        ∧ t.grp.pc = s.grp.pc + 4 ∧ (rd ≠ 0 → t.grp.xr rd = s.grp.mstat.setWidth 64))
      ∧ (v ≠ 0 → exec (.mstatWrite .rs rd src) s = .next (u.trap 2 (s.grp.hword.setWidth 64)))
      ∧ (s.grp.mode = .m → op.writes src = true → ∃ t, exec (.mlpcWrite op rd src) s = .next t ∧ OnlyGroup u t
        ∧ t.grp.mlpc = csrNew op s.grp.mlpc v &&& 0xFFFFFFFFFFFFFFFC ∧ t.grp.pc = s.grp.pc + 4)
      ∧ (op.writes src = false → exec (.cedoneRead ch op rd src) s =
        .next ((u.l1Clear u.coreNo).hartDone rd ((u.core.chan ch.toNat).cedone.setWidth 64)))
      ∧ (op.writes src = true → exec (.cedoneRead ch op rd src) s = .next (u.trap 2 (s.grp.hword.setWidth 64))))

/-- 05 R91, R101, R103, R109: `z.scq` and `z.ctok` append to their queues while they hold fewer than 16, and wait else;
`z.fbpop` takes the head of fbq into rd; `z.bfb` takes it into rs1 and branches where it is not zero, raising mcause 0
on a target that is not a multiple of 4 before it pops; both wait while fbq is empty; `z.join`, once no queue load is
still to be read at a distant home and its dirty sectors are written back, completes together with a compute stream
waiting at `join`, else waits; `z.qdrop` discards the named number of arrived entries, all of them for 0, and frees
their places in the run-ahead count, or waits for their arrival. -/
def Obligations.HartQueueScalars : Prop :=
  ∀ (rd rs1 : XReg) (off : BitVec 13) (q : BitVec 2) (n : BitVec 4) (s : State),
    (s.hartFree [rs1] → let u := s.settled [rs1] []
      (s.grp.scq.length < 16 → exec (.zScq rs1) s =
        .next (u.setGrp { u.grp with scq := s.grp.scq ++ [s.grp.xr rs1] }.hartNext))
      ∧ (16 ≤ s.grp.scq.length → exec (.zScq rs1) s = hartWaits s .scqFull)
      ∧ (s.grp.ctq.length < 16 → exec (.zCtok rs1) s =
        .next (u.setGrp { u.grp with ctq := s.grp.ctq ++ [(s.grp.xr rs1).setWidth 32] }.hartNext))
      ∧ (16 ≤ s.grp.ctq.length → exec (.zCtok rs1) s = hartWaits s .ctqFull))
    ∧ (s.hartFree [rd] → let u := s.settled [] [rd]
      (∀ v rest, s.grp.fbq = v :: rest → exec (.zFbpop rd) s =
        .next (u.setGrp ({ u.grp.fbqReady s.cycles with fbq := rest }.setX rd v).hartNext))
      ∧ (s.grp.fbq = [] → exec (.zFbpop rd) s = hartWaits s .fbqEmpty))
    ∧ (s.hartFree [rs1] → let u := s.settled [] [rs1]
      let a := s.grp.pc + off.signExtend 64
      (a % 4 ≠ 0 → exec (.zBfb rs1 off) s = .next (u.trap 0 a))
      ∧ (a % 4 = 0 → s.grp.fbq = [] → exec (.zBfb rs1 off) s = hartWaits s .fbqEmpty)
      ∧ ∀ v rest, a % 4 = 0 → s.grp.fbq = v :: rest → ∃ t, exec (.zBfb rs1 off) s = .next t ∧ OnlyGroup u t
        ∧ t.grp.fbq = rest ∧ t.grp.pc = (if v = 0 then s.grp.pc + 4 else a) ∧ (rs1 ≠ 0 → t.grp.xr rs1 = v))
    ∧ (∀ t, s.grp.loadsAway = false → s.writeBackOwn = .ok t →
      let meets := t.grp.laneWait = some .join ∧ t.grp.held = false ∧ t.grp.holdC = none
      (meets → exec .zJoin s = .next (t.setGrp (t.grp.laneNext 4).hartNext))
      ∧ (¬meets → exec .zJoin s = hartWaits t .join))
    ∧ (s.dirtyBy s.cur = [] → s.evicting s.coreNo = false → s.writeBackOwn = .ok s)
    ∧ (let l := Map.get [] s.grp.ldq q.toNat
      let k := if n = 0 then l.length else n.toNat
      ((∃ e ∈ l.take k, e.arrived = false) → exec (.zQdrop q n) s = hartWaits s .dropArrival)
      ∧ ((∀ e ∈ l.take k, e.arrived = true) → exec (.zQdrop q n) s = .next (s.setGrp
        { s.grp with ldq := s.grp.ldq.set q.toNat (l.drop k), runAhead := s.grp.runAhead - (l.take k).length }.hartNext)))

/-- 05 R90, R92-R94, R97, R98, 02 R37, 14 R251: with fewer entries in flight than `slip` and fewer than eight in its
queue, a queue load whose elements need not wait completes by appending its entry to queue q, with its data arrived
where an ordinary form read it from global memory, and counting it in the run-ahead; an ordinary form takes its first
precise fault instead, a `.nf` form appends the poisoned entry; without room the hart waits. Making the entry changes
no register and no byte of memory. Where every element of a one-element suffix lies aligned in the block's own
scratch, off poisoned words, with no message or queue load of the group under way, the entry holds each lane's
element, extended as the suffix says. A pair at x31 is illegal.
05 R99, R100, R97: with an entry at the head of stq and no part of it sent before, a queue store whose lane addresses
pass every check and need not wait completes once the journal takes its posted requests: the near stores of the
entry's lanes are performed in lane order, the entry leaves stq and the pc moves on; it waits while stq is empty.
Where every active lane's address lies aligned in the block's own scratch, the store changes no other byte of memory. -/
def Obligations.QueueLoadsAndStoresComplete : Prop :=
  (∀ (ty : LdqTy) (q : BitVec 2) (rs1 rs2 : XReg) (s : State),
      let room := s.grp.runAhead < s.grp.slip ∧ s.grp.qlen q.toNat < 8
      let push := fun (nf : Bool) (g : Gather) => g.state.setGrp (g.state.grp.pushLdq q.toNat
        { g.entry with arrived := !nf && g.global && g.entry.wants.isEmpty }).hartNext
      let goes := fun (u : State) (i j : Instr) (d : LoadDesc) =>
        let g := u.makeLoad d
        (room → g.wait = none → exec j s = .next (push true g)
          ∧ (g.precise = none → exec i s = .next (push false g))
          ∧ ∀ f, g.precise = some f → exec i s = .next (u.hartFault .read f))
        ∧ (¬room → exec i s = hartWaits s (.queueLoad q.toNat) ∧ exec j s = hartWaits s (.queueLoad q.toNat))
        ∧ g.state.grp = u.grp ∧ ∀ a, Memory.read g.state.mem a = Memory.read s.mem a
      let pair := s.settled [rs1, rs2, rs2 + 1] []
      let plain := s.settled [rs1, rs2] []
      let n := (LdqTy.shape ty).1
      let at_ := fun i : Nat => s.grp.xr rs1 + BitVec.ofNat 64 i * s.grp.xr rs2
      let key := fun i : Nat => scratchKey s.grp.blk (at_ i &&& 0x00FFFFFFFFFFFFFF).toNat
      (s.hartFree [rs1, rs2] →
        goes plain (.zLdq ty q rs1 rs2) (.zLdqNf ty q rs1 rs2) (.plain (s.grp.xr rs1) (s.grp.xr rs2) ty))
      ∧ (rs2 ≠ 31 → s.hartFree [rs1, rs2, rs2 + 1] → goes pair (.zLdqt q rs1 rs2) (.zLdqtNf q rs1 rs2)
          (.tensor (s.grp.xr rs1) (s.grp.xr rs2) (s.grp.xr (rs2 + 1))))
      ∧ (rs2 = 31 → exec (.zLdqt q rs1 rs2) s = illegal s ∧ exec (.zLdqtNf q rs1 rs2) s = illegal s)
      ∧ ((LdqTy.shape ty).2.1 = 1 → (∀ m ∈ s.net, m.src ≠ s.cur) → s.grp.loadsAway = false →
        (∀ i, i < 64 → (at_ i).toNat / 2 ^ 56 = 0xF0 ∧ (at_ i).toNat % n = 0
          ∧ (at_ i &&& 0x00FFFFFFFFFFFFFF).toNat + n ≤ s.blk.scratch ∧ s.poisoned (key i) n = false) →
        let g := plain.makeLoad (.plain (s.grp.xr rs1) (s.grp.xr rs2) ty)
        g.wait = none ∧ g.precise = none ∧ g.entry.poison = false ∧ g.entry.wants = []
        ∧ ∀ i, i < 64 → g.entry.data.getD i 0
          = BitVec.ofNat 64 (laneValue n (LdqTy.shape ty).2.2.1 (leNat (s.bytes (key i) n)))))
  ∧ (∀ (ty : StqTy) (rs1 rs2 : XReg) (s : State) (e : StqEntry) (rest : List StqEntry),
      let stored := fun (u : State) (i : Instr) (n size : Nat) (addr : Nat → Option W64) =>
        let l : List LaneAccess := (activeLanes e.mask).filterMap fun i => (addr i).map fun a => ⟨i, a, a⟩
        let data := fun i => leBytes n (e.data.getD i 0).toNat
        let posts := (u.requests data l).map fun r => r.posting size 1 false
        let v := ((u.putElems n data (l.filter fun x => !u.postedAt x.addr)).sendPosts posts)
        u.storeFate n l = none → u.storeWait n l = none → v.2 = [] →
          exec i s = .next (v.1.setGrp { v.1.grp with stq := v.1.grp.stq.drop 1, hartSend := none }.hartNext)
      let size := match ty with | .n8 => 0 | .n16 => 1 | .n32 => 2
      let n := 2 ^ size
      let at_ := fun i : Nat => s.grp.xr rs1 + BitVec.ofNat 64 i * s.grp.xr rs2
      let off := fun i : Nat => (at_ i &&& 0x00FFFFFFFFFFFFFF).toNat
      (s.hartFree [rs1, rs2] → s.grp.stq = [] → exec (.zStq ty rs1 rs2) s = hartWaits s .stqEmpty)
      ∧ (s.hartFree [rs1, rs2] → s.grp.hartSend = none → s.grp.stq = e :: rest →
        stored (s.settled [rs1, rs2] []) (.zStq ty rs1 rs2) n size fun i => some (at_ i))
      ∧ (rs2 = 31 → exec (.zStqt rs1 rs2) s = illegal s)
      ∧ (rs2 ≠ 31 → s.hartFree [rs1, rs2, rs2 + 1] → s.grp.hartSend = none → s.grp.stq = e :: rest →
        let u := s.settled [rs1, rs2, rs2 + 1] []
        let c := coordsOf (s.grp.xr rs2) (s.grp.xr (rs2 + 1))
        let bad := fun r : Rec => r.fmt < 25 && (!r.slices || r.w == 64)
        (∀ f, u.readRecord (s.grp.xr rs1) (c.getD 0 0) 7 bad = .fault f → exec (.zStqt rs1 rs2) s = .next (u.hartFault .read f))
        ∧ ∀ r t, u.readRecord (s.grp.xr rs1) (c.getD 0 0) 7 bad = .ok r t →
          (r.sliceSpace = false → exec (.zStqt rs1 rs2) s = .next (u.trap 5 (s.grp.xr rs1)))
          ∧ (r.sliceSpace = true →
            stored t (.zStqt rs1 rs2) (r.w / 8) (if r.w = 8 then 0 else if r.w = 16 then 1 else 2) fun i =>
              if r.inside (sliceCoords r c i) then some (r.address (sliceCoords r c i)) else none))
      ∧ (Inv s → s.hartFree [rs1, rs2] → s.grp.hartSend = none → s.grp.stq = e :: rest → (∀ m ∈ s.net, m.src ≠ s.cur) →
        s.grp.loadsAway = false →
        (∀ i, i < 64 → e.mask.getLsbD i = true → (at_ i).toNat / 2 ^ 56 = 0xF0 ∧ (at_ i).toNat % n = 0
          ∧ off i + n ≤ s.blk.scratch ∧ s.fencedKey (scratchKey s.grp.blk (off i)) = false) →
        ∃ t, exec (.zStq ty rs1 rs2) s = .next t ∧ t.grp.stq = rest ∧ t.grp.pc = s.grp.pc + 4 ∧ t.grp.x = s.grp.x
          ∧ ∀ b, (∀ i, i < 64 → e.mask.getLsbD i = true →
              b < scratchKey s.grp.blk (off i) ∨ scratchKey s.grp.blk (off i) + n ≤ b) →
            Memory.read t.mem b = Memory.read s.mem b))

/-- 05 R104, R105, R97, 10 R169, R170: `z.tadr` writes base plus the products of the coordinates and strides of a record
that passes its checks into rd, raising mcause 5 with the record's address for one that does not pass; `z.tadv` adds
the low step to c0 and, where the extent is not 0 and c0 has reached it, takes the extent off c0 and adds the carry
step to c1. Neither stores. -/
def Obligations.TensorAddressesComplete : Prop :=
  ∀ (rd rs1 rs2 : XReg) (s : State),
    (rs2 = 31 → exec (.zTadr rd rs1 rs2) s = illegal s)
    ∧ (rs2 ≠ 31 → s.hartFree [rs1, rs2, rs2 + 1, rd] →
      let u := s.settled [rs1, rs2, rs2 + 1] [rd]
      let c := coordsOf (s.grp.xr rs2) (s.grp.xr (rs2 + 1))
      let a := s.grp.xr rs1
      let key := scratchKey s.grp.blk (a &&& 0x00FFFFFFFFFFFFFF).toNat
      let r := Rec.ofBytes (s.bytes key 64)
      (∀ r t, u.readRecord a (c.getD 0 0) 5 = .ok r t → exec (.zTadr rd rs1 rs2) s = .next (t.hartDone rd (r.address c)))
      ∧ (a.toNat % 64 ≠ 0 → exec (.zTadr rd rs1 rs2) s = .next (u.trap 5 a))
      ∧ (a.toNat / 2 ^ 56 = 0xF0 → a.toNat % 64 = 0 → (a &&& 0x00FFFFFFFFFFFFFF).toNat + 64 ≤ s.blk.scratch →
        (∀ m ∈ s.net, m.src ≠ s.cur) → s.grp.loadsAway = false → s.poisoned key 64 = false →
        (r.ok (c.getD 0 0) = false → exec (.zTadr rd rs1 rs2) s = .next (u.trap 5 a))
        ∧ (r.ok (c.getD 0 0) = true → ∃ t, exec (.zTadr rd rs1 rs2) s = .next t
          ∧ t.grp = (u.grp.setX rd (r.address c)).hartNext ∧ ∀ b, Memory.read t.mem b = Memory.read s.mem b)))
    ∧ (s.hartFree [rs1, rs2, rd] →
      let a := s.grp.xr rs1
      let b := s.grp.xr rs2
      let c0 : W32 := a.setWidth 32 + (b.extractLsb' 0 16).signExtend 32
      let c1 : W32 := a.extractLsb' 32 32
      let e0 : W32 := (b.extractLsb' 16 16).setWidth 32
      exec (.zTadv rd rs1 rs2) s = .next ((s.settled [rs1, rs2] [rd]).hartDone rd
        (if e0 ≠ 0 ∧ e0.toInt ≤ c0.toInt then (c1 + (b.extractLsb' 32 16).signExtend 32) ++ (c0 - e0) else c1 ++ c0)))

/-- 10 R171-R173, 05 R97, 21 R306, 09 R166: a copy instruction with x0 as its token or x31 as its pair is illegal; a
record or a local address that fails a check raises that check's cause before anything else; with sixteen copies on
its channel it waits; else, after its release, it appends a copy with the channel's next id, its record, coordinates
and local offset, ties the token register to that id, and goes on, changing no register and no byte of memory. -/
def Obligations.CopiesIssue : Prop :=
  ∀ (ch : BitVec 3) (rd rs1 rs2 : XReg) (s : State) (p : Nat × Instr),
    p ∈ [(0, Instr.zCpyin ch rd rs1 rs2), (1, .zCpyout ch rd rs1 rs2), (2, .zCpyx ch rd rs1 rs2), (3, .zCpywb ch rd rs1 rs2)] →
    (rd = 0 ∨ rs2 = 31 → exec p.2 s = illegal s)
    ∧ (rd ≠ 0 → rs2 ≠ 31 → s.hartFree [rs1, rs2, rs2 + 1, rd] →
      let u := s.settled [rs1, rs2, rs2 + 1, rd] [rd]
      let a := s.grp.xr rs1
      let c := ch.toNat
      (a.toNat % 64 ≠ 0 → exec p.2 s = .next (u.trap 5 a))
      ∧ ∀ r t l v, u.readRecord a ((coordsOf (s.grp.xr rs2) (s.grp.xr (rs2 + 1))).getD 0 0) 5 = .ok r t →
        u.readBytes a 64 5 5 = .ok l v →
        (∀ cause val, copyFault u p.1 r a (s.grp.xr rd) = some (cause, val) → exec p.2 s = .next (u.trap cause val))
        ∧ (copyFault u p.1 r a (s.grp.xr rd) = none → 16 ≤ (t.core.chan c).copies.length → s.grp.tokens = [] →
          exec p.2 s = hartWaits s (.copySlots c))
        ∧ (copyFault u p.1 r a (s.grp.xr rd) = none → (t.core.chan c).copies.length < 16 → t.hartClean →
          ∃ w, exec p.2 s = .next w ∧ (w.core.chan c).next = (t.core.chan c).next + 1
          ∧ (w.core.chan c).copies = (t.core.chan c).copies ++ [{
              id := (t.core.chan c).next, kind := p.1, record := l, c01 := s.grp.xr rs2, c234 := s.grp.xr (rs2 + 1)
              off := (s.grp.xr rd).toNat, grp := s.cur, blk := s.grp.blk, token := rd.toNat }]
          ∧ (∀ j, j ≠ c → w.core.chan j = t.core.chan j)
          ∧ w.grp = { u.grp with tokens := w.grp.tokens }.hartNext
          ∧ w.grp.tokens.find rd.toNat = some ⟨c, (t.core.chan c).next, false⟩
          ∧ ∀ b, Memory.read w.mem b = Memory.read s.mem b))

/-- 10 R174-R176, 13 R243: `z.cpywait` completes when none of the group's own copies of the channel is left (rs1 = x0) or
when its id is done, as an acquire with the channel's done id in rd, and waits else. On a counter that the handle
stands for: `z.mbadd`, after its release, adds to a counter of its own core at once, and sends the increment to a
distant one through the journal; `z.mbset` sets, at once or through a request to a distant core; each update of a
counter wakes every waiter whose threshold it has reached, and no other group, and changes no other counter;
`z.mbwait` completes with the value, as an acquire, once it has reached the threshold modulo 2^32 or with the value
that woke it, and waits else; `z.mbrd` reads. An address without the mailbox tag raises the space cause. -/
def Obligations.CountersComplete : Prop :=
  ∀ (ch : BitVec 3) (rd rs1 rs2 : XReg) (s : State),
    (s.hartFree [rs1, rd] → let u := s.settled [rs1] [rd]
      let n := s.core.chan ch.toNat
      let ok := if rs1 = 0 then (∀ k ∈ n.copies, k.grp ≠ s.cur) else (n.cedone - ((s.grp.xr rs1).setWidth 32 + 1)).msb = false
      (ok → exec (.zCpywait ch rd rs1) s = .next ((u.l1Clear u.coreNo).hartDone rd (n.cedone.setWidth 64)))
      ∧ (¬ok → exec (.zCpywait ch rd rs1) s = hartWaits s (.copies ch.toNat)))
    ∧ (s.hartFree [rs1, rs2] → let u := s.settled [rs1, rs2] []
      let a := s.grp.xr rs1
      let v : W32 := (s.grp.xr rs2).setWidth 32
      let e := (u.mailbox a).1
      let idx := (u.mailbox a).2
      let near := isPeer e = false ∧ handleCore e = u.coreNo
      let set := fun (w : State) (x : W32) => w.counter u.coreNo idx = x
        ∧ (∀ c k, (c, k) ≠ (u.coreNo, idx) → w.counter c k = u.counter c k) ∧ w.grp = u.grp.hartNext ∧ w.mem = s.mem
        ∧ ∀ k, k ≠ s.cur → w.grpAt k = if (u.grpAt k).wakesAt (256 * u.coreNo + idx) x
            then { u.grpAt k with hartWait := some (.woken x) } else u.grpAt k
      (a.toNat / 2 ^ 56 ≠ 0xF4 → exec (.zMbadd rs1 rs2) s = .next (u.trap 7 a) ∧ exec (.zMbset rs1 rs2) s = .next (u.trap 7 a))
      ∧ (a.toNat / 2 ^ 56 = 0xF4 →
        (near → u.counterOk e idx = true → u.hartClean → u.sentTo (some u.coreNo) = false →
          ∃ w, exec (.zMbadd rs1 rs2) s = .next w ∧ set w (u.counter u.coreNo idx + v))
        ∧ (¬near → grantsCounter e idx = true → u.hartClean → u.grp.jcount < 32 → ∃ w, exec (.zMbadd rs1 rs2) s = .next w
          ∧ w.net = u.net ++ [⟨u.cur, handleTarget e, .increment u.grp.jnext (handleCore e) idx v a⟩]
          ∧ w.grp = (u.grp.journalAdd { addr := a, size := 2, kind := 2 }).hartNext ∧ w.mem = s.mem)
        ∧ (near → u.counterOk e idx = true → u.sentTo (some u.coreNo) = false →
          ∃ w, exec (.zMbset rs1 rs2) s = .next w ∧ set w v)
        ∧ (¬near → u.counterOk e idx = true → exec (.zMbset rs1 rs2) s =
          .next (u.setGrp { u.grp with hartReq := some (.mbset a v), hartWait := none }))))
    ∧ (s.hartFree [rs1, rs2, rd] → let u := s.settled [rs1, rs2] [rd]
      let a := s.grp.xr rs1
      let e := (u.mailbox a).1
      let idx := (u.mailbox a).2
      let n : W32 := (s.grp.xr rs2).setWidth 32
      a.toNat / 2 ^ 56 = 0xF4 → u.counterOk e idx = true →
      let v := u.homeCounter e idx
      (∀ x, s.grp.hartWait = some (.woken x) →
        exec (.zMbwait rd rs1 rs2) s = .next ((u.l1Clear u.coreNo).hartDone rd (x.setWidth 64)))
      ∧ ((∀ x, s.grp.hartWait ≠ some (.woken x)) →
        (u.sentTo (some (handleTarget e)) = false → (v - n).msb = false →
          exec (.zMbwait rd rs1 rs2) s = .next ((u.l1Clear u.coreNo).hartDone rd (v.setWidth 64)))
        ∧ (s.grp.tokens = [] → u.sentTo (some (handleTarget e)) = true → exec (.zMbwait rd rs1 rs2) s = hartWaits s .drain)
        ∧ (s.grp.tokens = [] → u.sentTo (some (handleTarget e)) = false → (v - n).msb = true →
          exec (.zMbwait rd rs1 rs2) s = hartWaits s (.mailbox (256 * handleTarget e + idx) n))))
    ∧ (s.hartFree [rs1, rd] → let u := s.settled [rs1] [rd]
      let a := s.grp.xr rs1
      let e := (u.mailbox a).1
      let idx := (u.mailbox a).2
      let near := isPeer e = false ∧ handleCore e = u.coreNo
      (a.toNat / 2 ^ 56 ≠ 0xF4 → exec (.zMbrd rd rs1) s = .next (u.trap 5 a))
      ∧ (a.toNat / 2 ^ 56 = 0xF4 → u.counterOk e idx = true →
        (near → u.sentTo (some u.coreNo) = false →
          exec (.zMbrd rd rs1) s = .next (u.hartDone rd ((u.counter u.coreNo idx).setWidth 64)))
        ∧ (¬near → exec (.zMbrd rd rs1) s =
          .next (u.setGrp { u.grp with hartReq := some (.mbread rd a), hartWait := none }))))

/-- 10 R177-R179: `z.send` of an aligned line of the block's scratch through a ring handle, after its release, sends the
64 bytes to the handle's core and waits for the ring's answer; a misaligned offset raises mcause 4, one outside the
scratch 5, an address without the fabric tag 7. `z.recv` on a ring of its own block gives the scratch address of the
oldest message, as an acquire, and waits on an empty ring; `z.rdone` frees that message, and raises mcause 7 on an
empty ring; on a ring that is not its block's `z.recv` raises mcause 5 and `z.rdone` 7. -/
def Obligations.RingsComplete : Prop :=
  ∀ (rd rs1 rs2 : XReg) (s : State),
    (s.hartFree [rs1, rs2, rd] → let u := s.settled [rs1, rs2] [rd]
      let a := s.grp.xr rs1
      let off := s.grp.xr rs2
      let e := u.blk.handle (bits a.toNat 47 40)
      let key := scratchKey s.grp.blk off.toNat
      (off.toNat % 64 ≠ 0 → exec (.zSend rd rs1 rs2) s = .next (u.trap 4 off))
      ∧ (off.toNat % 64 = 0 → s.blk.scratch < off.toNat + 64 → exec (.zSend rd rs1 rs2) s = .next (u.trap 5 off))
      ∧ (off.toNat % 64 = 0 → off.toNat + 64 ≤ s.blk.scratch →
        (a.toNat / 2 ^ 56 ≠ 0xF1 → exec (.zSend rd rs1 rs2) s = .next (u.trap 7 a))
        ∧ (a.toNat / 2 ^ 56 = 0xF1 → handleKind e = 3 → u.hartClean → s.poisoned key 64 = false →
          ∃ w, exec (.zSend rd rs1 rs2) s = .next w
          ∧ w.net = u.net ++ [⟨u.cur, handleCore e, .ring e.toNat (s.bytes key 64) rd⟩]
          ∧ w.grp = { u.grp with hartReq := some (.send rd e.toNat (s.bytes key 64)), hartWait := none } ∧ w.mem = s.mem)))
    ∧ (s.hartFree [rs1, rd] → let u := s.settled [rs1] [rd]
      let v := s.grp.xr rs1
      let r := s.core.ring (v.toNat % 8)
      let own := v.toNat < 8 ∧ r.live = true ∧ r.owner = s.grp.blk
      (own → r.head ≠ r.tail → exec (.zRecv rd rs1) s =
        .next ((u.l1Clear u.coreNo).hartDone rd (BitVec.ofNat 64 (r.base + 64 * (r.head.toNat % r.slots)))))
      ∧ (own → r.head = r.tail → exec (.zRecv rd rs1) s = hartWaits s .ring)
      ∧ (¬own → exec (.zRecv rd rs1) s = .next (u.trap 5 v)))
    ∧ (s.hartFree [rs1] → let u := s.settled [rs1] []
      let v := s.grp.xr rs1
      let r := u.core.ring (v.toNat % 8)
      let own := v.toNat < 8 ∧ r.live = true ∧ r.owner = s.grp.blk
      (own → r.head ≠ r.tail → u.hartClean → ∃ w, exec (.zRdone rs1) s = .next w
        ∧ w.core.ring (v.toNat % 8) = { r with head := r.head + 1 }
        ∧ (∀ k, k ≠ v.toNat % 8 → w.core.ring k = u.core.ring k) ∧ w.grp = u.grp.hartNext ∧ w.mem = s.mem)
      ∧ (own → r.head = r.tail → exec (.zRdone rs1) s = .next (u.trap 7 v))
      ∧ (¬own → exec (.zRdone rs1) s = .next (u.trap 7 v)))

/-- 10 R180, 21 R305, 09 R166: an arrival records the stream and completes the phase when every other participant has
arrived, has ended or waits at its end; it changes no other barrier and no byte of memory. `z.bbar.arv` and
`z.cbar.arv` wait while an earlier arrival's phase is open, else arrive after a release; `z.bbar.wt` and `z.cbar.wt`
wait while their arrival's phase is open, end it with an acquire once it is complete, and with no arrival order
nothing; `z.bbar` arrives once and then waits likewise. -/
def Obligations.HartBarriersComplete : Prop :=
  ∀ s : State,
    let waited := fun (u : State) (bar : Nat) =>
      let v := if (u.grp.arrivalAt bar).isSome then (u.setGrp (u.grp.setArrival bar none)).l1Clear u.coreNo else u
      v.setGrp { v.grp.hartNext with hartBar := false }
    let arv := fun (i : Instr) (bar : Nat) (w : HartWait) =>
      (s.arrivalOpen s.cur bar = true → exec i s = hartWaits s w)
      ∧ (s.arrivalOpen s.cur bar = false → s.hartClean →
        exec i s = .next ((s.arrive bar).setGrp (s.arrive bar).grp.hartNext))
    let wt := fun (i : Instr) (bar : Nat) (w : HartWait) =>
      (s.arrivalOpen s.cur bar = false → exec i s = .next (waited s bar))
      ∧ (s.arrivalOpen s.cur bar = true → exec i s = hartWaits s w)
    let b := s.barKey s.cur false false
    let c := s.barKey s.cur true false
    arv .zBbarArv b .blockBarrier ∧ arv .zCbarArv c .clusterBarrier
    ∧ wt .zBbarWt b .blockBarrier ∧ wt .zCbarWt c .clusterBarrier
    ∧ (s.grp.hartBar = true → wt .zBbar b .blockBarrier)
    ∧ (s.grp.hartBar = false → s.arrivalOpen s.cur b = false → s.hartClean →
      let t := (s.arrive b).setGrp { (s.arrive b).grp with hartBar := true }
      (t.arrivalOpen t.cur b = false → exec .zBbar s = .next (waited t b))
      ∧ (t.arrivalOpen t.cur b = true → exec .zBbar s = hartWaits t .blockBarrier))
    ∧ ∀ bar, (s.arrive bar).mem = s.mem ∧ (∀ k, k ≠ bar → (s.arrive bar).barAt k = s.barAt k)
      ∧ (s.arrive bar).barAt bar = (if ∀ k ∈ s.participants bar, k = s.cur ∨ s.hasArrived bar (s.barAt bar) k = true
        then { phase := (s.barAt bar).phase + 1, arrived := [] }
        else { phase := (s.barAt bar).phase, arrived := s.cur :: (s.barAt bar).arrived })

/-- 10 R182, R183, R181: where its core takes part, and with fewer than two contributions not yet folded, `rsend` hands
its router one contribution, numbered in order, with the value of each active lane up to the channel's width; where
its core receives and a result not yet consumed has landed, `rrecv` writes the result's lanes (0 past the width) and
counts it consumed, and nothing else changes; each waits else, and a channel the core does not belong to is illegal.
10 R182, 16 R280, 03 R71: a partial sum joins its router's inputs; a router whose ports have all answered for its next
round folds them in port order, an absent contribution adding nothing, counts the round and sends the sum to its
parent; at the root the result goes to every receiving member; a landed result is written to its half of the block's
buffer and raises the channel's counter. -/
def Obligations.ReductionsComplete : Prop :=
  (∀ (ch : BitVec 4) (x : Code) (s : State),
      let k := redKey s.blk.launch ch.toNat
      let n := s.core.redNode k
      let o : LaneForm := { len := 8, srcs := [src32 x], ok := fun _ => (s.redChan ch.toNat).any redMember }
      let p : LaneForm :=
        { len := 8, ok := fun g => g.dstOk false x && (s.redChan ch.toNat).any redReceives, stq := x.toNat == 116 }
      (∀ c, s.redChan ch.toNat = some c → o.starts s →
        let vals := (List.range c.1.width).map fun i =>
          if s.grp.active.getLsbD i then some ((argAt (s.grp.vectors [src32 x]) 0 i).setWidth 32) else none
        (n.sent - n.folded < 2 → ∃ t, exec (.rsend x ch) s = .next t ∧ t.grp = s.grp.advanced o ∧ t.mem = s.mem
          ∧ t.core.redNode k = { n with inputs := n.inputs ++ [(n.sent, 8, vals)], sent := n.sent + 1 }
          ∧ ∀ j, j ≠ k → t.core.redNode j = s.core.redNode j)
        ∧ (2 ≤ n.sent - n.folded → exec (.rsend x ch) s = laneWaits s .rsend))
      ∧ (∀ c, s.redChan ch.toNat = some c → p.starts s →
        let key := scratchKey s.grp.blk (c.1.off + 256 * (n.consumed % 2))
        (n.consumed < n.landed → ∃ u t, exec (.rrecv x ch) s = .next t
          ∧ LaneWrites s p false x s.grp.active (fun i => if i < c.1.width then BitVec.ofNat 64 (leNat (s.bytes (key + 4 * i) 4)) else 0) u
          ∧ t.grp = u.grp ∧ t.mem = s.mem ∧ t.core.redNode k = { n with consumed := n.consumed + 1 }
          ∧ ∀ j, j ≠ k → t.core.redNode j = s.core.redNode j)
        ∧ (n.landed ≤ n.consumed → exec (.rrecv x ch) s = laneWaits s .rrecv)))
  ∧ (∀ s : State,
      (∀ m core k round port vals, s.arriving s.input.b = some m → m.body = .redInput core k round port vals →
        let t := s.taken s.input.b
        let n := (t.coreAt core).redNode k
        exec .reductionInputArrival s = .next (t.setRed core k { n with inputs := n.inputs ++ [(round, port, vals)] }))
      ∧ (∀ c place, let core := s.input.a
        let k := s.input.b
        let l := s.launchAt (k / 16)
        let n := (s.coreAt core).redNode k
        l.chans.find? (fun c => c.ch == k % 16) = some c → c.tree[l.coreMap.idxOf core]? = some place → s.coreFrozen core = false →
        let ins := (c.ports (l.coreMap.idxOf core)).map fun p => (n.inputs.find? fun i => i.1 == n.folded && i.2.1 == p).map fun i => i.2.2
        (∀ i ∈ ins, i.isSome = true) →
        let sum := (List.range c.width).map fun e => ins.foldl (fun acc i => addOptional acc ((i.getD []).getD e none)) none
        ∃ t, exec .routerFold s = .next t ∧ t.mem = s.mem
          ∧ (t.coreAt core).redNode k = { n with inputs := n.inputs.filter fun i => i.1 != n.folded, folded := n.folded + 1 }
          ∧ t.net = s.net ++ if place.2.1
            then c.receivers.map fun i => ⟨2 ^ 21 + core, l.coreMap.getD i 0, .redResult (l.coreMap.getD i 0) k n.folded (sum.map fun v => v.getD 0)⟩
            else [⟨2 ^ 21 + core, l.coreMap.getD place.2.2.1 0, .redInput (l.coreMap.getD place.2.2.1 0) k n.folded place.2.2.2 sum⟩])
      ∧ (∀ m core k round vals c b, s.arriving s.input.b = some m → m.body = .redResult core k round vals →
        let t := s.taken s.input.b
        let n := (t.coreAt core).redNode k
        let u := t.setRed core k { n with landed := n.landed + 1 }
        n.landed = round → round < n.consumed + 2 → (t.launchAt (k / 16)).chans.find? (fun c => c.ch == k % 16) = some c →
        (u.blocksOn core).find? (fun b => b.2.launch == k / 16) = some b →
        ∃ w, exec .reductionResultLanded s = .next w ∧ w.counter core c.k = s.counter core c.k + 1
          ∧ w.mem = Memory.writeBytes s.mem (scratchKey b.1 (c.off + 256 * (round % 2))) (vals.flatMap fun x => leBytes 4 x.toNat)))

/-- 10 R184, R185, R186, 16 R274, R275, 01 R14, 09 R160, 12 R220: `z.launch` raises mcause 4 on a misaligned record and 5
outside global and private space; with its release done and its tables read it puts the launch's status into rd and,
for status 0, the launch at the tail of its queue. `z.jwait` completes, as an acquire with the join word in rd, when
that word is zero or negative, and waits else. `z.exit` records its code and ends the group with a compute stream at
`cend`, else waits. `z.rank` opens a window on a word: status 3 for a bad count, 2 where one is open, 1 where its home
has 64, else 0. `z.tide` reads the Tide and `z.tidewait` completes once it has reached rs1, unsigned. -/
def Obligations.LaunchAndTimeComplete : Prop :=
  ∀ (rd rs1 rs2 : XReg) (s : State),
    (s.hartFree [rs1, rd] → let u := s.settled [rs1] [rd]
      let a := s.grp.xr rs1
      (a.toNat % 64 ≠ 0 → exec (.zLaunch rd rs1) s = .next (u.trap 4 a))
      ∧ (a.toNat % 64 = 0 → a.toNat / 2 ^ 56 ≠ 0 → a.toNat / 2 ^ 56 ≠ 0xF3 → exec (.zLaunch rd rs1) s = .next (u.trap 5 a))
      ∧ (a.toNat % 64 = 0 → (a.toNat / 2 ^ 56 = 0 ∨ a.toNat / 2 ^ 56 = 0xF3) → u.hartClean → ∀ l t d,
        u.readBytes a 64 5 29 = .ok l t → t.tableRead (BitVec.ofNat 64 (leNat l)) 16 = .some d →
        BitVec.ofNat 64 (bits (leNat l) 447 384) = (0 : W64) →
        let o := t.launchStatus ⟨l, some d, some [], if bits (leNat l) 511 448 = 0 then some ([], []) else none⟩
          t.launch.part t.asid (t.launch.depth + 1) true
        exec (.zLaunch rd rs1) s =
          .next ((if o.1 = 0 then t.enqueue o.2 true else t).hartDone rd (BitVec.ofNat 64 o.1)))
      ∧ (a.toNat % 8 ≠ 0 → exec (.zJwait rd rs1) s = .next (u.trap 4 a))
      ∧ (a.toNat % 8 = 0 → a.toNat / 2 ^ 56 ≠ 0 → exec (.zJwait rd rs1) s = .next (u.trap 5 a))
      ∧ (∀ l t, a.toNat % 8 = 0 → a.toNat / 2 ^ 56 = 0 → u.readBytes a 8 5 29 = .ok l t →
        let v : W64 := BitVec.ofNat 64 (leNat l)
        (v.toInt ≤ 0 → exec (.zJwait rd rs1) s = .next ((t.l1Clear t.coreNo).hartDone rd v))
        ∧ (0 < v.toInt → s.grp.tokens = [] → exec (.zJwait rd rs1) s = hartWaits t .jwait))
      ∧ (a.toNat ≤ s.tide.toNat → exec (.zTidewait rd rs1) s = .next (u.hartDone rd s.tide))
      ∧ (s.tide.toNat < a.toNat → exec (.zTidewait rd rs1) s = hartWaits s .tide))
    ∧ (s.hartFree [rd] → exec (.zTide rd) s = .next ((s.settled [] [rd]).hartDone rd s.tide))
    ∧ (∀ (t : State) (l : Launch) (pooled : Bool), let w := t.enqueue l pooled
      w.nextLaunch = t.nextLaunch + 1 ∧ w.mem = t.mem ∧ w.grp = t.grp
      ∧ Map.get [] (w.part l.part).queues l.queue = Map.get [] (t.part l.part).queues l.queue ++ [t.nextLaunch]
      ∧ (w.launchAt t.nextLaunch).kernel = l.kernel ∧ (w.launchAt t.nextLaunch).join = l.join
      ∧ (w.launchAt t.nextLaunch).live = l.gx * l.gy * l.gz)
    ∧ (s.hartFree [rs1] → let u := s.settled [rs1] []
      let t := u.setGrp { u.grp with exitCode := (s.grp.xr rs1).setWidth 32 }
      (s.grp.cendDone = true → exec (.zExit rs1) s = .next (t.endGroup s.cur) ∧ (t.endGroup s.cur).grp.status = .ended
        ∧ (t.endGroup s.cur).grp.exitCode = (s.grp.xr rs1).setWidth 32 ∧ (t.endGroup s.cur).mem = s.mem)
      ∧ (s.grp.cendDone = false → ∃ w, exec (.zExit rs1) s = .next w ∧ w.grp.hartWait = some .exit
        ∧ w.grp.exitCode = (s.grp.xr rs1).setWidth 32 ∧ w.grp.pc = s.grp.pc ∧ w.mem = s.mem))
    ∧ (s.hartFree [rs1, rs2, rd] → let u := s.settled [rs1, rs2] [rd]
      let a := s.grp.xr rs1
      let off := (a &&& 0x00FFFFFFFFFFFFFF).toNat
      let key := scratchKey s.grp.blk off
      let count := bits (s.grp.xr rs2).toNat 63 32
      let win := fun w : RankWindow => w.home == 1024 + s.coreNo
      (a.toNat % 4 ≠ 0 → exec (.zRank rd rs1 rs2) s = .next (u.trap 6 a))
      ∧ (a.toNat % 4 = 0 → a.toNat / 2 ^ 56 = 0xF3 → exec (.zRank rd rs1 rs2) s = .next (u.trap 7 a))
      ∧ (a.toNat % 4 = 0 → a.toNat / 2 ^ 56 = 0xF0 → off + 4 ≤ s.blk.scratch → (∀ m ∈ s.net, m.src ≠ s.cur) →
        s.grp.loadsAway = false → s.fencedKey key = false → ∃ w, exec (.zRank rd rs1 rs2) s = .next w ∧ w.mem = s.mem ∧ w.grp.pc = s.grp.pc + 4
        ∧ (rd ≠ 0 → w.grp.xr rd = if count = 0 ∨ 2 ^ 24 < count then 3 else if (u.windowAt key).isSome then 2
            else if 64 ≤ (s.windows.filter win).length then 1 else 0)
        ∧ w.windows = if count = 0 ∨ 2 ^ 24 < count ∨ (u.windowAt key).isSome = true ∨ 64 ≤ (s.windows.filter win).length
            then s.windows else s.windows ++ [⟨u.asid, key, 1024 + s.coreNo, (s.grp.xr rs2).setWidth 32, BitVec.ofNat 32 count,
              (s.grp.xr rs2).setWidth 32, [], none⟩]))

/-- 12 R219, 21 R303, R305, R308-R311: in U-mode `z.quiesce`, `z.csave` and `z.crest` are illegal. In M-mode `z.quiesce`
holds the compute stream and completes, with mlpc in rd, once no lane access, engine operation or queue load of the
group is outstanding; `z.csave` and `z.crest` raise mcause 30, changing nothing, where the stream is not held or the
address or part is bad; a save that need not wait and writes an area it may write marks the part saved and, unless a
debug stop adds its trace record, stores exactly the image's bytes there; a restore of an image that fits restores the
group's registers, its program counter and its mask from it and goes on, and one that does not fit raises mcause 30. -/
def Obligations.MonitorInstructionsComplete : Prop :=
  ∀ (rd rs1 rs2 : XReg) (s : State),
    (s.grp.mode = .u → exec (.zQuiesce rd) s = illegal s ∧ exec (.zCsave rs1 rs2) s = illegal s
      ∧ exec (.zCrest rs1 rs2) s = illegal s)
    ∧ (s.grp.mode = .m → s.hartFree [rd] → let u := s.settled [] [rd]
      let h := if u.grp.held then u.grp
        else { u.grp with held := true, mlpc := if s.grp.holdC.isSome then u.grp.mlpc else u.grp.lpc, laneWait := none }
      let t := u.setGrp h
      let pc := if s.grp.cendDone then s.grp.lpc else h.mlpc
      let quiet := s.grp.laneBusy = false ∧ (∀ o ∈ s.core.ops, o.grp ≠ s.cur) ∧ (∀ q ∈ s.grp.ldq, ∀ e ∈ q.2, e.arrived = true)
      let storing := s.grp.laneSend.isSome = true ∧ s.grp.held = false
      (¬storing → quiet → exec (.zQuiesce rd) s = .next ((t.setGrp { h with mlpc := pc }).hartDone rd pc))
      ∧ (¬storing → ¬quiet → s.grp.tokens = [] → exec (.zQuiesce rd) s = hartWaits t .quiesce)
      ∧ (storing → exec (.zQuiesce rd) s = hartWaits s .quiesce))
    ∧ (s.grp.mode = .m → s.hartFree [rs1, rs2] → let u := s.settled [rs1, rs2] []
      let a := s.grp.xr rs1
      let part := s.grp.xr rs2
      (s.grp.held = false ∨ a.toNat / 2 ^ 56 ≠ 0xF2 ∨ a.toNat % 4096 ≠ 0 ∨ 1 < part.toNat →
        exec (.zCsave rs1 rs2) s = .next (u.trap 30 a) ∧ exec (.zCrest rs1 rs2) s = .next (u.trap 30 a))
      ∧ (s.grp.held = true → a.toNat / 2 ^ 56 = 0xF2 → a.toNat % 4096 = 0 → part.toNat ≤ 1 →
        (u.saveWaits part = true → s.grp.tokens = [] → exec (.zCsave rs1 rs2) s = hartWaits s .saves)
        ∧ (Inv s → part = 0 → u.saveWaits part = false → u.dirtyBy u.cur = [] → u.evicting u.coreNo = false →
          s.blk.saved1 = false → ∀ key e, let l := imageBytes (0x7000 + 256 * u.grp.nregs) (u.part0 u.cur)
            u.reach u.cur true a l.length .write = .ok key e →
            ∃ t, exec (.zCsave rs1 rs2) s = .next t ∧ t.grp.pc = s.grp.pc + 4
            ∧ t.grp.saved0 = (u.grp.mondb.pre || u.grp.mondb.kil)
            ∧ (u.atDebugStop = false → (∀ i, i < l.length → Memory.read t.mem (key + i) = l.getD i 0)
              ∧ ∀ b, b < key ∨ key + l.length ≤ b → Memory.read t.mem b = Memory.read s.mem b))
        ∧ (∀ key e, u.reach u.cur true a 64 .read = .ok key e → s.poisoned key 64 = false →
          s.poisoned key (u.imageAt key).length = false →
          (imageFits (u.imageAt key) part.toNat (s.cur % 16) = false → exec (.zCrest rs1 rs2) s = .next (u.trap 30 a))
          ∧ (imageFits (u.imageAt key) part.toNat (s.cur % 16) = true → part = 0 →
            ∃ t, exec (.zCrest rs1 rs2) s = .next t ∧ t.mem = s.mem
              ∧ t.grp.lpc = pcOf (BitVec.ofNat 64 (fieldAt (u.imageAt key) 0x300 8))
              ∧ t.grp.em = BitVec.ofNat 64 (fieldAt (u.imageAt key) 0x330 8)
              ∧ t.grp.mepc = pcOf (BitVec.ofNat 64 (fieldAt (u.imageAt key) 0x148 8))
              ∧ (∀ r : XReg, r ≠ 0 → t.grp.xr r = BitVec.ofNat 64 (fieldAt (u.imageAt key) (0x38 + 8 * r.toNat) 8))))))

/-- 12 R221, R222, 10 R187, 28 R366: `z.pjrd` writes the low or high half of the journal entry that rs1 names into rd; its
release bit needs M-mode and frees a refused entry. `z.sample` raises mcause 7 on an offset not a multiple of 64 or
outside the scratch, writes 1 where the sampler is armed already, else arms it at the offset and writes 0. Neither
stores. -/
def Obligations.JournalAndSamplerComplete : Prop :=
  ∀ (rd rs1 : XReg) (s : State), s.hartFree [rs1, rd] →
    let u := s.settled [rs1] [rd]
    let v := s.grp.xr rs1
    let e := s.grp.jslot (v.toNat % 32)
    let half : W64 := BitVec.ofNat 64 (if v.getLsbD 5 then e.value / 2 ^ 64 else e.value)
    (v.getLsbD 6 = false → exec (.zPjrd rd rs1) s = .next (u.hartDone rd half))
    ∧ (v.getLsbD 6 = true → s.grp.mode = .u → exec (.zPjrd rd rs1) s = illegal u)
    ∧ (v.getLsbD 6 = true → s.grp.mode = .m → ∃ t, exec (.zPjrd rd rs1) s = .next t ∧ OnlyGroup u t
      ∧ (rd ≠ 0 → t.grp.xr rd = half) ∧ t.grp.pc = s.grp.pc + 4
      ∧ t.grp.jslot (v.toNat % 32) = (if e.held = true ∧ e.state = 2 then { e with held := false, state := 1 } else e)
      ∧ ∀ k, k ≠ v.toNat % 32 → t.grp.jslot k = s.grp.jslot k)
    ∧ (v.toNat % 64 ≠ 0 ∨ s.blk.scratch < v.toNat + 64 → exec (.zSample rd rs1) s = .next (u.trap 7 v))
    ∧ (v.toNat % 64 = 0 → v.toNat + 64 ≤ s.blk.scratch →
      (s.grp.sampler.armed = true → exec (.zSample rd rs1) s = .next (u.hartDone rd 1))
      ∧ (s.grp.sampler.armed = false → exec (.zSample rd rs1) s =
        .next ((u.setGrp { u.grp with sampler := { armed := true, off := v.toNat } }).hartDone rd 0)))

/-- 10 R187, R188, 01 R20, 09 R154, R165, 10 R178: an acknowledgement frees its journal slot; a refusal of a block that is
not retiring marks its entry with the reason and makes cause 26 pending with the entry's sequence number; a completed
lane access with no request held at the port and no ranked contribution on its way is no longer outstanding; the
answer of a ring ends the `z.send` with its status in rd; any other hart request is performed at its home once nothing
of its pair is before it, a writing one for a stopped core after its resume. A message that cannot arrive yet, or of
another kind, changes nothing. -/
def Obligations.AnswersArrive : Prop :=
  ∀ s : State, let i := s.input
    (s.arriving i.b = none → exec .journalAck s = .next s ∧ exec .journalRefusal s = .next s
      ∧ exec .postedWriteArrival s = .next s ∧ exec .mailboxIncrementArrival s = .next s
      ∧ exec .ringMessageArrival s = .next s ∧ exec .rankContributionArrival s = .next s
      ∧ exec .reductionInputArrival s = .next s ∧ exec .reductionResultLanded s = .next s)
    ∧ (∀ m slot, s.arriving i.b = some m → (s.grpAt m.src).sampler.pending = none → let g := s.grpAt m.src
      (m.body = .ack slot → ∃ t, exec .journalAck s = .next t ∧ t.net = s.net.eraseIdx i.b ∧ t.mem = s.mem
        ∧ t.grpAt m.src = { g with journal := g.journal.set slot { g.jslot slot with held := false, state := 1 } }
        ∧ ∀ k, k ≠ m.src → t.grpAt k = s.grpAt k)
      ∧ ∀ why, m.body = .refuse slot why → (s.blkAt g.blk).state ≠ .retiring →
        ∃ t, exec .journalRefusal s = .next t ∧ t.net = s.net.eraseIdx i.b ∧ t.mem = s.mem
        ∧ t.grpAt m.src = { g with journal := g.journal.set slot { g.jslot slot with state := 2, why := why }
                                   asyncs := g.asyncs ++ [⟨26, (g.jslot slot).seq.setWidth 64⟩] }
        ∧ ∀ k, k ≠ m.src → t.grpAt k = s.grpAt k)
    ∧ ((s.grpAt i.a).laneBusy = true → (s.focus i.a).portHeld (i.a % 16) = false → (s.grpAt i.a).sampler.pending = none →
      s.net.any (fun m => m.rankOf i.a) = false →
      exec .laneAccessComplete s = .next (s.setGrpAt i.a { s.grpAt i.a with laneBusy := false }))
    ∧ ((s.grpAt i.a).hartReq = none → exec .hartAccessResponse s = .next s)
    ∧ (∀ rd h l st rest dst, (s.grpAt i.a).hartReq = some (.send rd h l) →
      s.net = ⟨i.a, dst, .ringAnswer rd st⟩ :: rest → let u := { s with net := rest }.focus i.a
      exec .hartAccessResponse s =
        .next ((u.setGrp { u.grp with hartReq := none }).hartDone rd (BitVec.ofNat 64 st)))
    ∧ ∀ r, (s.grpAt i.a).hartReq = some r → (∀ rd h l, r ≠ .send rd h l) →
      let u := (s.focus i.a).setGrp { s.grpAt i.a with hartReq := none }
      (u.sentTo (u.requestTarget r) = false → u.requestHeld r = false → exec .hartAccessResponse s = .next (u.performRequest r))
      ∧ (u.sentTo (u.requestTarget r) = true ∨ u.requestHeld r = true → exec .hartAccessResponse s = .next s)
      ∧ (∀ rd a, r = .mbread rd a → u.counterOk (u.mailbox a).1 (u.mailbox a).2 = true →
        u.performRequest r = u.hartDone rd ((u.homeCounter (u.mailbox a).1 (u.mailbox a).2).setWidth 64))

/-- 09 R156, 10 R173, R176-R179, 09 R161, 13 R235, R243, 21 R308: a posted write to another block or to a vault is
performed, byte by byte, and acknowledged, or refused where its home no longer takes it or its flow is broken; an
increment a home takes adds to its counter and is acknowledged, else it is refused (a copy's makes cause 27 pending);
a ring message is written at the tail of an open ring and answered 0, answered 1 where the ring is full and 2 where it
is closed; a rank contribution waits at its window for its turn, and with no window is dropped; an absence token
counts up or down at its counter. -/
def Obligations.MessagesPerformed : Prop :=
  ∀ (s : State) (m : Msg), s.arriving s.input.b = some m →
    let t := s.taken s.input.b
    let kept := fun (base : Nat) (ws : List (Nat × Byte)) =>
      s.input.flag = false ∨ t.mergesPoison (ws.map fun w => (base + w.1, w.2)) = false
    (∀ slot ws a h port, m.body = .posted slot ws a h → t.postRefused m = some port → exec .postedWriteArrival s =
      .next ((t.countPacket m.src port).answer m.src (.refuse slot 2)))
    ∧ (∀ slot ws a h, m.body = .posted slot ws a h → m.dst < 2 ^ 16 → 2048 ≤ m.dst → t.postRefused m = none →
      kept (vaultKey (m.dst - 2048) 0) ws → s.dirty = [] →
      ∃ u, exec .postedWriteArrival s = .next u ∧ u.net = t.net ++ [⟨m.src, 2 ^ 20 + m.src, .ack slot⟩]
        ∧ u.mem = Memory.writeCells s.mem (ws.map fun w => (vaultKey (m.dst - 2048) 0 + w.1, w.2)))
    ∧ (∀ slot ws a h, m.body = .posted slot ws a h → m.dst < 2048 → t.postRefused m = none → let e : W64 := BitVec.ofNat 64 h
      let home := t.fabricHome (t.blkAt (t.grpAt m.src).blk) e ((ws.map fun w => w.1).foldl Nat.max 0) 1
      (∀ why, home = .refused why →
        exec .postedWriteArrival s = .next { t with net := t.net ++ [⟨m.src, 2 ^ 20 + m.src, .refuse slot why⟩] })
      ∧ (∀ k, home = .at k → kept (scratchKey (handleBlock e) 0) ws → s.dirty = [] →
        ∃ u, exec .postedWriteArrival s = .next u ∧ u.net = t.net ++ [⟨m.src, 2 ^ 20 + m.src, .ack slot⟩]
        ∧ u.mem = Memory.writeCells s.mem (ws.map fun w => (scratchKey (handleBlock e) 0 + w.1, w.2))))
    ∧ (∀ slot core idx n a, m.body = .increment slot core idx n a → m.dst < 2 ^ 16 →
      ∃ u, exec .mailboxIncrementArrival s = .next u ∧ u.mem = s.mem
        ∧ (if t.countsHere (t.blkAt (t.grpAt m.src).blk) core idx
          then u.counter core idx = s.counter core idx + n ∧ u.net = t.net ++ [⟨m.src, 2 ^ 20 + m.src, .ack slot⟩]
          else u.counter core idx = s.counter core idx ∧ u.net = t.net ++ [⟨m.src, 2 ^ 20 + m.src, .refuse slot 0⟩])
        ∧ ∀ c k, (c, k) ≠ (core, idx) → u.counter c k = s.counter c k)
    ∧ (∀ k core idx a, m.body = .copyIncrement k core idx a → m.dst < 2 ^ 16 → exec .mailboxIncrementArrival s =
      .next (if t.countsHere (t.blkAt (t.grpAt k).blk) core idx then t.setCounter core idx (t.counter core idx + 1)
        else t.setGrpAt k { t.grpAt k with asyncs := (t.grpAt k).asyncs ++ [⟨27, a⟩] }))
    ∧ (∀ h l rd, m.body = .ring h l rd → let e : W64 := BitVec.ofNat 64 h
      let core := handleCore e
      let n := bits h 27 25
      let r := (t.coreAt core).ring n
      let say := fun (u : State) k => { u with net := u.net ++ [⟨m.src, 2 ^ 20 + m.src, .ringAnswer rd k⟩] }
      (t.ringOpen m.src e r = false → exec .ringMessageArrival s = .next (say t 2))
      ∧ (t.ringOpen m.src e r = true →
        ((r.tail - r.head).toNat = r.slots → exec .ringMessageArrival s = .next (say t 1))
        ∧ ((r.tail - r.head).toNat ≠ r.slots → exec .ringMessageArrival s = .next (say ((t.performStore
            (scratchKey r.owner (r.base + 64 * (r.tail.toNat % r.slots))) l).setRing core n { r with tail := r.tail + 1 }) 0))))
    ∧ (∀ key r v, m.body = .rank key r v →
      (t.windowAt key = none → exec .rankContributionArrival s = .next t)
      ∧ ∀ w, t.windowAt key = some w → w.heldBy = [] → r ≠ w.next → exec .rankContributionArrival s = .next
        { t with windows := t.windows.map fun x => if x.key == key then { w with heldBy := [(r, v, m.src)] } else x })
    ∧ ∀ idx present, m.body = .absence idx present → s.input.flag2 = false → let key := 256 * m.dst + idx
      ∃ u, exec .absenceTokenArrival s = .next u ∧ u.mem = s.mem
        ∧ Map.get 0 u.absent key = (if present then Map.get 0 s.absent key - 1 else Map.get 0 s.absent key + 1)
        ∧ ∀ d, d ≠ key → Map.get 0 u.absent d = Map.get 0 s.absent d

/-- 05 R93-R95, 10 R172-R174, 09 R164, R166: a queue load's distant elements arrive in its entry; a replayed entry takes
its load's new data, or is poisoned again and raises code 5 again; the oldest copy of a channel starts; a started copy
whose every stretch may be performed performs them all, leaves its channel and makes its token register ready with its
id; a dirty sector that may be written goes to its home; a prefetched sector that is not poisoned fills the lane L1. -/
def Obligations.LoadsAndCopiesArrive : Prop :=
  ∀ s : State, let i := s.input
    (∀ e, (s.grpAt i.a).entry i.b i.c = some e → e.arrived = false → (s.grpAt i.a).olderAway e = false →
      exec .queueLoadArrival s = .next (e.wants.foldl (fun u w => u.countAccess i.a w.addr .read) (s.setGrpAt i.a
        ((s.grpAt i.a).putEntry i.b i.c ((s.focus i.a).arrivedEntry e)))))
    ∧ (∀ e, e.wants = [] → ((s.focus i.a).arrivedEntry e).arrived = true ∧ ((s.focus i.a).arrivedEntry e).data = (if e.poison then [] else e.data)
      ∧ ((s.focus i.a).arrivedEntry e).poison = e.poison)
    ∧ (∀ e, (s.grpAt i.a).entry i.b i.c = some e → e.poison = true → e.replay = true →
      (s.grpAt i.a).laneWait = some (.replay i.b) → (s.focus i.a).laneReady = true →
      let r := (s.focus i.a).makeLoad e.desc
      r.wait = none → (r.fault = none → exec .replayArrival s = .next (r.state.setGrpAt i.a
          ((r.state.grpAt i.a).putEntry i.b i.c { r.entry with arrived := r.entry.wants.isEmpty })))
        ∧ ∀ f, r.fault = some f → f.xlate = none → let x := r.state.arrivedEntry r.entry
          exec .replayArrival s = .next (r.state.setGrpAt i.a
            (((r.state.grpAt i.a).putEntry i.b i.c { x with wide := e.wide, replay := true }).laneFault 5 x.cause x.lanes x.addr)))
    ∧ (∀ k rest, ((s.coreAt i.a).chan i.b).copies = k :: rest → s.blkFrozen k.blk = false →
      (k.started = false → ∃ t, exec .copyStart s = .next t ∧ t.mem = s.mem
        ∧ ((t.coreAt i.a).chan i.b).copies = { k with started := true } :: rest)
      ∧ (k.started = true → k.ticket = none → (s.focus k.grp).portHeld (32 + i.b) = false →
        let r := Rec.ofBytes k.record
        let l := s.copyRest i.b k r
        (∀ p ∈ l, ∃ key t, p.2 = .ok key t) →
        exec .copyCompletion s = .next ((((s.copySeen k l).copyWrite k (s.copyCells k l)).finishCopy i.a i.b k false).copyIncrement i.b k r)))
    ∧ (∀ (t : State) k rest failed, ((t.coreAt i.a).chan i.b).copies = k :: rest →
      ((t.grpAt k.grp).tokens.find k.token = some ⟨i.b, k.id, false⟩) → 0 < k.token → k.token < 32 → let u := t.finishCopy i.a i.b k failed
      ((u.coreAt i.a).chan i.b).copies = rest ∧ (u.grpAt k.grp).tokens.find k.token = some ⟨i.b, k.id, true⟩
      ∧ (u.grpAt k.grp).xr (BitVec.ofNat 5 k.token) = BitVec.ofNat 64 (k.id.toNat + if failed then 2 ^ 63 else 0) ∧ u.mem = t.mem)
    ∧ (∀ d t, s.dirty[i.a]? = some d → s.evictSector d = .ok t → exec .hartCacheEviction s = .next t)
    ∧ ∀ asid va pa l2, (s.coreAt i.a).fills[i.b]? = some (asid, va, pa, l2) →
      let c := s.coreAt i.a
      let t := s.setCoreAt i.a { c with fills := c.fills.eraseIdx i.b }
      (l2 = false → s.poisoned pa 128 = false → exec .prefetchFill s = .next (t.l1Fill i.a asid va pa (asid == 0)))
      ∧ (l2 = true ∨ s.poisoned pa 128 = true → exec .prefetchFill s = .next t)

/-- 01 R17, R20-R22, 02 R34, R48, R49, R53, 10 R185, 13 R228, 21 R303: BLOCK_PLACEMENT hands out the head launch's next
block or cluster where every core of it has room and the partition runs, and nothing else moves; a placed block's
groups stand in its slots, live, in U-mode at the kernel's entries, with the arguments in x10, the join word in x11,
their stack in x2 and zero in every other register; its counters read zero, its core's lane L1 is empty, its storage
reads zero where the trace is off; other groups stay (their reservations on the zeroed bytes end). BLOCK_RETIREMENT of
a drained block of a live context performs its end at the launch's words and frees it, and of a dead context frees it
once all images are saved; a freed block is no more. -/
def Obligations.BlocksPlacedAndRetired : Prop :=
  ∀ s : State, let a := s.input.a
    (∀ q r n, let p := s.partOfCore a
      let l := s.launchAt n
      let cores := l.cores a
      let lins := if l.coreMap.isEmpty then l.members l.next else [l.next]
      s.nextQueue p = some (q, r, n) →
      (s.gangSt p = 0 → s.dead.find l.asid = none → a ∈ cores → (∀ x ∈ lins.zip cores, s.fits n x.1 x.2 = true) →
        exec .blockPlacement s = .next ((((List.range lins.length).zip lins).foldl (fun t x => t.placeBlock n x.2 x.1
          ((cores.map fun c => (s.freeSlots c).headD 0).getD x.1 0) (cores.map fun c => (s.freeSlots c).headD 0)) s).handedOut p q r n))
      ∧ ((∃ x ∈ lins.zip cores, s.fits n x.1 x.2 = false) → exec .blockPlacement s = .next s))
    ∧ (∀ n lin rank key keys, let l := s.launchAt n
      let t := s.placeBlock n lin rank key keys
      let slots := s.slotsFor l (key / 16)
      (t.blkAt key).state = .running ∧ (t.blkAt key).slots = slots ∧ (t.blkAt key).launch = n ∧ (t.blkAt key).lin = lin
      ∧ (t.blkAt key).handles = l.handles lin (key / 16) keys
      ∧ (∀ j k, slots[j]? = some k → let g := t.grpAt k
          g.status = .live ∧ g.blk = key ∧ g.idx = j ∧ g.mode = .u ∧ g.pc = l.kernel.hart ∧ g.lpc = l.kernel.lane
          ∧ g.xr 2 = BitVec.ofNat 64 (0xF3 * 2 ^ 56 + (lin * l.kernel.groups + j) * 64 * 2 ^ 24 + l.kernel.priv)
          ∧ g.xr 10 = l.args ∧ g.xr 11 = BitVec.ofNat 64 l.join ∧ g.fmode = l.fmode ∧ g.nregs = l.kernel.regs
          ∧ ∀ r : XReg, r ≠ 2 → r ≠ 10 → r ≠ 11 → g.xr r = 0)
      ∧ (∀ k, k ∉ slots → t.grpAt k = { s.grpAt k with resv := (t.grpAt k).resv })
      ∧ (∀ i ∈ l.counters lin, t.counter (key / 16) i = 0) ∧ (t.coreAt (key / 16)).l1 = []
      ∧ (Inv s → (s.reg (subBlock (s.partOfCore (key / 16)) 0x3008)).getLsbD 0 = false →
        ∀ b, Memory.read t.mem b = if (scratchKey key 0 ≤ b ∧ b < scratchKey key 0 + l.kernel.scratch)
            ∨ (tileKey key 0 ≤ b ∧ b < tileKey key 0 + l.kernel.tiles)
            ∨ (wbufKey key 0 ≤ b ∧ b < wbufKey key 0 + l.kernel.wbuf) then 0 else Memory.read s.mem b))
    ∧ (∀ b, s.blocks.find a = some b → let l := s.launchAt b.launch
      (s.dead.find l.asid = none → b.state = .retiring → s.drained a = true →
        ∀ t u, s.writeBackAll (b.slots.flatMap s.dirtyBy) = .ok t → t.evicting (a / 16) = false →
          t.joinEnd l (b.slots.foldl (fun acc k => acc ||| (s.grpAt k).exitCode.toNat) 0) = some (.ok u) →
          exec .blockRetirement s = .next ((u.trace a 3 l.asid (b.lin + 2 ^ 64 * l.join)).freeBlock a))
      ∧ (s.dead.find l.asid ≠ none → s.allSaved l.asid = true → s.drained a = true →
        exec .blockRetirement s = .next (s.freeBlock a))
      ∧ (s.drained a = false → exec .blockRetirement s = .next s))
    ∧ (∀ blk, (s.freeBlock blk).blocks.find blk = none ∧ (s.freeBlock blk).mem = s.mem
      ∧ (∀ c, c ≠ blk → ∀ b, s.blocks.find c = some b → (s.freeBlock blk).blocks.find c ≠ none)
      ∧ ((s.freeBlock blk).launchAt (s.blkAt blk).launch).live = (s.launchAt (s.blkAt blk).launch).live - 1
      ∧ ∀ k, k ∈ (s.blkAt blk).slots → ((s.freeBlock blk).grpAt k).status = .idle)

/-- 05 R110, 12 R216, R220, 16 R272, 21 R299, R303-R311: an asynchronous trap enters M-mode with the first pending cause,
in U-mode; the doorbell interrupt enters with mcause 11 and its top bit where it is enabled, abandoning the hart's
request to a distant home; a `z.tidewait` ends when the Tide has reached its target. A decoupling deadlock holds the
compute stream with mlcause 24 and raises mcause 25; a watchdog and a remote wait beyond its limit are fatal errors:
the context is dead, and no byte of memory changes where no trace is kept; a later one of a dead context changes
nothing. A suspend command sets state 1 in state 0, a resume command state 3 in state 2, and every other is counted; a
strike takes the running blocks of a core once the Tide reaches T, and resumed groups start in M-mode at the monitor. -/
def Obligations.GroupsInterruptedAndGangs : Prop :=
  ∀ s : State, let k := s.input.a
    let g := s.grpAt k
    (∀ p, s.running k = true → g.nextAsync = some p → g.mode = .u → g.hartReq = none →
      exec .asyncTrapTaken s = .next (((s.focus k).setGrp { g with asyncs := g.asyncs.erase p }).trapAt k p.cause false p.val))
    ∧ (s.running k = false ∨ g.nextAsync = none → exec .asyncTrapTaken s = .next s)
    ∧ (∀ t, s.abandon k = some t → s.running k = true → g.mip &&& g.mie ≠ 0 → (g.mode = .u ∨ mstatusMie g.mstatus = true) →
      exec .externalInterrupt s = .next (t.trapAt k 11 true 0))
    ∧ (g.hartReq = none → s.abandon k = some s)
    ∧ (∀ r, g.hartReq = some r → (∀ rd h l, r ≠ .send rd h l) → s.abandon k = some (s.setGrpAt k { g with hartReq := none }))
    ∧ (g.mip &&& g.mie = 0 ∨ (g.mode = .m ∧ mstatusMie g.mstatus = false) → exec .externalInterrupt s = .next s)
    ∧ (g.hartWait = some .tide → let due := (g.xr (g.hword.extractLsb' 15 5)).toNat ≤ s.tide.toNat
      (due → exec .tidewaitReached s = .next (s.setGrpAt k { g with hartWait := none }))
      ∧ (¬due → exec .tidewaitReached s = .next s))
    ∧ (s.running k = true → s.parked g.blk = false → (g.held = false ∨ g.cendDone = true) → g.faultWait = false → g.hartCross = true → g.laneCross = true →
      (max g.hartSince g.laneSince + 65536 ≤ s.cycles → exec .decouplingDeadlock s = .next ((s.setGrpAt k
        { g with held := true, laneWait := none, mlpc := g.lpc, mlcause := 24, mlmask := 0, mlval := 0 }).trapAt k 25 false g.qocc))
      ∧ (s.cycles < max g.hartSince g.laneSince + 65536 → exec .decouplingDeadlock s = .next s))
    ∧ (∀ b, s.blocks.find k = some b → b.state = .running → s.parked k = false →
      let asid := (s.launchAt b.launch).asid
      let limit := s.le (s.ctxEntry asid + 256) 8
      (limit ≠ 0 → b.idleSince + limit ≤ s.tide.toNat → exec .watchdogExpiry s = .next (s.fatal asid watchdogCause k 0))
      ∧ (limit = 0 ∨ s.tide.toNat < b.idleSince + limit → exec .watchdogExpiry s = .next s))
    ∧ (∀ key n, let asid := (s.launchAt (s.blkAt g.blk).launch).asid
      let limit := s.le (s.ctxEntry asid + 264) 8
      s.running k = true → g.hartWait = some (.mailbox key n) → 256 * 2 ^ 16 ≤ key → Map.get 0 s.absent key = 0 →
      (limit ≠ 0 → g.hartTide + limit < s.tide.toNat →
        exec .remoteWaitTimeout s = .next (s.fatal asid remoteCause k (g.xr (g.hword.extractLsb' 15 5))))
      ∧ (limit = 0 ∨ s.tide.toNat ≤ g.hartTide + limit → exec .remoteWaitTimeout s = .next s))
    ∧ (∀ asid cause j v, (s.dead.find asid ≠ none → s.fatal asid cause j v = s)
      ∧ (s.dead.find asid = none → (s.fatal asid cause j v).dead.find asid = some cause
        ∧ ((s.reg (subBlock (s.partOfCore (j / 16)) 0x3008)).getLsbD 0 = false → (s.fatal asid cause j v).mem = s.mem)))
    ∧ (let p := k % 4
      (s.gangSt p = 0 → s.mayReach s.input.who (subBlock p 0) = true →
        exec .gangSuspend s = .next ((s.gangReserved (subBlock p 0)).setPart p { s.part p with gangSt := 1 }))
      ∧ (s.gangSt p ≠ 0 ∨ s.mayReach s.input.who (subBlock p 0) = false → exec .gangSuspend s = .next (s.countReg (subBlock p 0)))
      ∧ (s.gangSt p ≠ 2 ∨ s.mayReach s.input.who (subBlock p 0) = false → exec .gangResume s = .next (s.countReg (subBlock p 0)))
      ∧ (s.gangSt p = 2 → s.mayReach s.input.who (subBlock p 0) = true →
        exec .gangResume s = .next (((s.blocksOf p).filter fun b => b.2.state == .suspended).foldl (fun u b => u.resumeBlock b.1)
          ((s.gangReserved (subBlock p 0)).setPart p { s.part p with gangSt := 3 }))))
    ∧ (let p := s.partOfCore k
      let hit := (s.blocksOn k).filter fun b => b.2.state == .running && b.2.slots.all fun j => !(s.grpAt j).mondb.pre
      (s.part p).gangSt = 1 → hit ≠ [] → s.tide.ult (s.reg (subBlock p 8)) = false →
        let u := hit.foldl (fun u b => u.strike b.1) ((List.range 8).foldl (fun u ch => u.checkpoint k ch) s)
        exec .gangStrike s = .next (u.letThrough k) ∧ ((u.letThrough k).coreAt k).heldPort = []
          ∧ ((u.letThrough k).coreAt k).bwSent = (u.coreAt k).bwSent + BitVec.ofNat 64 (u.coreAt k).heldPort.length)
    ∧ (∀ (h : Group) entry, (h.resumed entry).mode = .m ∧ (h.resumed entry).pc = entry ∧ (h.resumed entry).mcause = 0x800000000000000B
      ∧ (h.resumed entry).held = true ∧ (h.resumed entry).mondb.res = true ∧ (h.resumed entry).x = h.x)
    ∧ ∀ blk j, (s.blkAt blk).slots.Nodup → j ∈ (s.blkAt blk).slots →
        ((s.strike blk).grpAt j).mondb.pre = true ∧ ((s.strike blk).grpAt j).saved0 = false ∧ ((s.strike blk).grpAt j).x = (s.grpAt j).x

/-- 13 R241, 20 R293, R296, R298, R301: a notice that names a stopped party with its ticket wakes it, a fail bit showing
in its doorbell; one for a suspended block waits at its queue; any other counts as stale; a held notice is delivered
or counts as stale once its block runs. A shootdown request joins the list, or is counted where its writer may not
make it; a bad one ends with status 2 and changes nothing else; one that a contribution or a message to its range
holds back waits; any other takes every translation, slice line, lane sector and code word of its range away, rings
the doorbell of each live slot of its ASID, and ends with status 1; one whose page is taken ends with status 1 and
drops nothing more. -/
def Obligations.NoticesAndShootdowns : Prop :=
  ∀ s : State, let i := s.input
    (let p := i.a % 4
     let q := i.b % 64
     let pq := s.pagerQueue p q
     let n := noticeOf i.val
     (i.flag = false → (s.noticeHeld n = true → exec .noticeWrite s = .next (s.setPagerQueue p q { pq with held := pq.held ++ [i.val] }))
       ∧ (s.noticeHeld n = false → s.noticeFits n = true → exec .noticeWrite s = .next (s.wake n))
       ∧ (s.noticeHeld n = false → s.noticeFits n = false →
         exec .noticeWrite s = .next (s.setPagerQueue p q { pq with stale := pq.stale + 1 })))
     ∧ (i.flag = true → pq.held[i.c]? = none → exec .noticeWrite s = .next s)
     ∧ (i.flag = true → ∀ v, pq.held[i.c]? = some v → let u := s.setPagerQueue p q { pq with held := pq.held.eraseIdx i.c }
       (s.noticeHeld (noticeOf v) = true → exec .noticeWrite s = .next s)
       ∧ (s.noticeHeld (noticeOf v) = false → s.noticeFits (noticeOf v) = true → exec .noticeWrite s = .next (u.wake (noticeOf v)))
       ∧ (s.noticeHeld (noticeOf v) = false → s.noticeFits (noticeOf v) = false → exec .noticeWrite s =
         .next (s.setPagerQueue p q { pq with held := pq.held.eraseIdx i.c, stale := pq.stale + 1 }))))
    ∧ (∀ n : Notice, n.grp / 16 < 1984 → n.src ≠ 2 → let t := s.wake n
      let g := s.grpAt n.grp
      t.mem = s.mem ∧ (∀ k, k ≠ n.grp → t.grpAt k = s.grpAt k)
      ∧ t.grpAt n.grp = if n.src = 1 then { g with holdA := false, mondb := { g.mondb with fla := g.mondb.fla || n.fail } }
        else { g with holdC := none, mondb := { g.mondb with flc := g.mondb.flc || n.fail } })
    ∧ (s.mayReach i.who (subBlock (i.a % 4) 0x20) = true → exec .shootdownRequest s =
      .next { s with shoots := s.shoots ++ [shootOf i.req (.word (bits i.req.toNat 255 192))] })
    ∧ (s.mayReach i.who (subBlock (i.a % 4) 0x20) = false →
      exec .shootdownRequest s = .next (s.countReg (subBlock (i.a % 4) 0x20)))
    ∧ (s.shoots[i.a]? = none → exec .shootdownDone s = .next s)
    ∧ (∀ r, s.shoots[i.a]? = some r → let t := { s with shoots := s.shoots.eraseIdx i.a }
      (s.endKeys r.ending).findSome? (fun x => s.lineWait x.1 x.2 true) = none →
      (r.bad = true → exec .shootdownDone s = .next (t.endShoot 2 r))
      ∧ (r.bad = false → r.ending.taken? = false → s.shootWaits r = false →
        exec .shootdownDone s = .next ((t.shootdown r).endShoot 1 r))
      ∧ (r.bad = false → r.ending.taken? = false → s.shootWaits r = true → exec .shootdownDone s = .next s)
      ∧ (r.bad = false → r.ending.taken? = true → exec .shootdownDone s = .next (t.endShoot 1 r)))
    ∧ ∀ r : Shoot, let t := s.shootdown r
      (∀ e ∈ t.tlb, r.hits e.asid (e.asid == 0) e.va e.size = false)
      ∧ (∀ e ∈ t.l2, r.hits e.asid (e.asid == 0) e.va e.size = false)
      ∧ (∀ c, ∀ x ∈ (t.coreAt c).l1, r.hits x.asid x.glob x.va 128 = false)
      ∧ (∀ c, ∀ x ∈ (t.coreAt c).code, r.hits x.asid false x.va 4 = false)
      ∧ ((∀ d ∈ s.dirty, r.hits d.asid d.glob d.va 128 = false) → t.mem = s.mem
        ∧ (∀ e ∈ s.tlb, r.hits e.asid (e.asid == 0) e.va e.size = false → e ∈ t.tlb)
        ∧ ∀ k, let g := s.grpAt k
          t.grpAt k = if g.status = .live ∧ (s.launchAt (s.blkAt g.blk).launch).asid = r.asid
            then { g with mondb := { g.mondb with sdn := true } } else g)

/-- 27 R355-R360, 28 R361-R364: with the breakwater on, a period's refill sets every bucket of each of the partition's
cores to its grant and metering is on until the next; with it off, metering is off until the next and what the cores
hold passes, no bucket changing. A held request passes on a token of its group, the first of its kind in the FIFO, and
its core counts it. A storage error that is corrected changes no byte and poisons nothing; an uncorrectable one
poisons its unit of memory, and of a group's own state is a fatal error of its context; a code line of a prefetch is
dropped and counted as latent. -/
def Obligations.BreakwaterAndStorageErrors : Prop :=
  ∀ s : State, let i := s.input
    (let p := i.a % 4
     (s.cycles / 1024 ≤ (s.part p).period → exec .breakwaterRefill s = .next s)
     ∧ ((s.part p).period < s.cycles / 1024 → (s.reg (subBlock p 0x2000)).getLsbD 0 = false →
       ∃ t, exec .breakwaterRefill s = .next t ∧ t.mem = s.mem ∧ t.groups = s.groups
         ∧ (t.part p).period = (s.part p).period + 1 ∧ (t.part p).metering = false
         ∧ (∀ c, (t.coreAt c).buckets = (s.coreAt c).buckets) ∧ (∀ c, s.partOfCore c ≠ p → t.coreAt c = s.coreAt c)
         ∧ ∀ c, c < 1536 → s.partOfCore c = p → (t.coreAt c).heldPort = []
           ∧ (t.coreAt c).bwSent = (s.coreAt c).bwSent + BitVec.ofNat 64 (s.coreAt c).heldPort.length)
     ∧ ((s.part p).period < s.cycles / 1024 → (s.reg (subBlock p 0x2000)).getLsbD 0 = true →
       ∃ t, exec .breakwaterRefill s = .next t ∧ t.mem = s.mem ∧ t.groups = s.groups
         ∧ (t.part p).period = (s.part p).period + 1 ∧ (t.part p).metering = true
         ∧ ∀ c, s.partOfCore c ≠ p → t.coreAt c = s.coreAt c))
    ∧ (∀ p n, let t := s.refillGroup p n
      (∀ c, c < 1536 → s.partOfCore c = p → Map.get 0 (t.coreAt c).buckets n = Map.get 0 (s.tokenGrants p n) c)
      ∧ (∀ c m, m ≠ n → Map.get 0 (t.coreAt c).buckets m = Map.get 0 (s.coreAt c).buckets m)
      ∧ t.reg (subBlock p (0x2180 + 8 * n)) = BitVec.ofNat 64 (s.unusedTokens p n % 2 ^ 32 + if s.needyShares p n ≠ 0 then 2 ^ 32 else 0))
    ∧ (let c := s.coreAt i.a
      ∀ r, c.heldPort[i.b]? = some r → let tok := Map.get 0 c.buckets r.die
        (tok = 0 ∨ r ∈ c.heldPort.take i.b → exec .breakwaterPass s = .next s)
        ∧ (tok ≠ 0 → r ∉ c.heldPort.take i.b → ∃ t, exec .breakwaterPass s = .next t ∧ t.mem = s.mem ∧ t.groups = s.groups
          ∧ (t.coreAt i.a).heldPort = c.heldPort.eraseIdx i.b ∧ Map.get 0 (t.coreAt i.a).buckets r.die = tok - 1
          ∧ (t.coreAt i.a).bwSent = c.bwSent + 1 ∧ ∀ k, k ≠ i.a → t.coreAt k = s.coreAt k))
    ∧ (∀ key, i.site = .memUnit key →
      (i.flag = false → ∃ t, exec .eccError s = .next t ∧ t.mem = s.mem ∧ t.poison = s.poison ∧ t.groups = s.groups)
      ∧ (i.flag = true → key < 2 ^ 53 ∨ 2 ^ 55 ≤ key → ∃ t, exec .eccError s = .next t ∧ t.mem = s.mem
        ∧ ∀ u, u ∈ t.poison ↔ u = unitOf key ∨ u ∈ s.poison))
    ∧ (∀ k n, i.site = .groupState k n →
      ∃ t, exec .eccError s = .next t ∧ t.dead.find (s.launchAt (s.blkAt (s.grpAt k).blk).launch).asid
        = if i.flag = true ∧ s.dead.find (s.launchAt (s.blkAt (s.grpAt k).blk).launch).asid = none then some storageCause else s.dead.find (s.launchAt (s.blkAt (s.grpAt k).blk).launch).asid)
    ∧ ∀ core hart, i.site = .code core hart → i.flag2 = true → let n := if hart then 1 else 0
      exec .eccError s = .next (s.setCoreAt core { s.coreAt core with
        latent := (s.coreAt core).latent.set n (upTo32 (Map.get 0 (s.coreAt core).latent n)) })

/-- 21 R300, R303, 02 R53, 28 R364, 26 R347-R351, 23 R320: a write to KILSET by a system core kills the slots whose bits
are set, to MONDB by its own hart clears what it may clear, to a counter by a system core replaces it, to a block's
BLKERR clears it; of others each is counted. PARTDIE changes where no die that holds a block would move; BOOTST takes
stage 5 from stage 4; the boot store is written in the bank that is not active; a broken host queue pair is emptied; a
write to any other register by an agent that reaches it changes exactly the writable bits it carries, and a write
behind a fence is dropped. -/
def Obligations.RegisterWritesComplete : Prop :=
  ∀ s : State, let i := s.input
    ((∀ n, i.who = .sysCore n →
      (∃ t, exec .kilsetWrite s = .next t ∧ t.mem = s.mem ∧ ∀ j, j < 16 → i.val.getLsbD j = true → (t.grpAt (i.a * 16 + j)).mondb.kil = true)
      ∧ ∃ t, exec .mbctrWrite s = .next t ∧ t.mem = s.mem ∧ t.counter i.a (i.b % 256) = i.val.setWidth 32
        ∧ ∀ c k, (c, k) ≠ (i.a, i.b % 256) → t.counter c k = s.counter c k)
    ∧ ((∀ n, i.who ≠ .sysCore n) →
      exec .kilsetWrite s = .next (s.countBlkErr i.a) ∧ exec .mbctrWrite s = .next (s.countBlkErr i.a))
    ∧ (let k := i.a * 16 + i.b % 16
      (i.who ≠ .hartM k ∨ (s.grpAt k).mode = .u → exec .mondbClear s = .next (s.countBlkErr i.a))
      ∧ (i.who = .hartM k → (s.grpAt k).mode = .m → ∃ t, exec .mondbClear s = .next t ∧ t.mem = s.mem
        ∧ t.grpAt k = { s.grpAt k with mondb := (s.grpAt k).mondb.clear i.val } ∧ ∀ j, j ≠ k → t.grpAt j = s.grpAt j))
    ∧ (let off := i.a % 2 ^ 28 / 8 * 8
      (∀ c, coreAtOffset off = some c →
        (s.coreMayReach i.who c 8 = true → exec .blkerrWrite s = .next (s.setCoreAt c { s.coreAt c with blkErr := 0 }))
        ∧ (s.coreMayReach i.who c 8 = false → exec .blkerrWrite s = .next (s.countBlkErr c)))
      ∧ (coreAtOffset off = none →
        (s.mayReach i.who (blockOf off).1 = true →
          exec .blkerrWrite s = .next { s with regs := s.regs.set (blockOf off).1 0 })
        ∧ (s.mayReach i.who (blockOf off).1 = false → exec .blkerrWrite s = .next (s.countReg off))))
    ∧ (let off := pd0 0x100
      let moves := ∃ b ∈ s.blocks, let n := dieOfCore (b.1 / 16)
        bits i.val.toNat (2 * n + 1) (2 * n) ≠ bits (s.reg off).toNat (2 * n + 1) (2 * n)
      (s.mayReach i.who off = false ∨ moves → exec .partdieWrite s = .next (s.countReg off))
      ∧ (s.mayReach i.who off = true → ¬moves → ∃ t, exec .partdieWrite s = .next t ∧ t.reg off = i.val &&& 0xFFFFFF
        ∧ t.mem = s.mem ∧ t.groups = s.groups))
    ∧ (let ok := (∃ n, i.who = .sysCore n) ∧ bits i.val.toNat 2 0 = 5 ∧ bits s.boot.bootst.toNat 2 0 = 4
      let t := ({ s with boot := { s.boot with bootst := (s.boot.bootst &&& ~~~7) ||| 5 } } : State).commit
      (ok → i.val >>> 13 = 0 → exec .bootstStageWrite s = .next t)
      ∧ (ok → i.val >>> 13 ≠ 0 → exec .bootstStageWrite s = .next (t.countReg (pd0 0x120)))
      ∧ (¬ok → exec .bootstStageWrite s = .next (s.countReg (pd0 0x120))))
    ∧ (let bank := i.a % 2
      let ok := (∃ n, i.who = .sysCore n) ∧ bits s.boot.banksel.toNat 0 0 ≠ bank
      let key := bootKey bank (i.b % 8) (i.c % 2 ^ 27)
      (ok → exec .bstoreWrite s = .next (s.storeCells (cellsOf key i.bytes))
        ∧ (s.storeCells (cellsOf key i.bytes)).mem = Memory.writeBytes s.mem key i.bytes)
      ∧ (¬ok → exec .bstoreWrite s = .next (s.countReg 0xE008100)))
    ∧ (let p := i.a % 4
      let h := i.b % 32
      let off := subBlock p (0x1400 + 64 * h)
      (i.who.quayside = true → (s.hq p h).broken = true → exec .hqReset s =
        .next (s.setHq p h { s.hq p h with broken := false, subHead := 0, subTail := 0, compHead := 0, compTail := 0 }))
      ∧ (i.who.quayside = true → (s.hq p h).broken = false → exec .hqReset s = .next s)
      ∧ (i.who.quayside = false → exec .hqReset s = .next (s.countReg off)))
    ∧ (let n := 2 ^ (i.b % 4)
      let a := i.a % 2 ^ 28 / n * n
      let off := a / 8 * 8
      let r := regLane a n i.val
      (∀ p, i.who = .hostPort p → s.portOpen p = false → exec .registerWrite s = .next (s.dropPosted p))
      ∧ ((∀ p, i.who = .hostPort p → s.portOpen p = true) →
        (∀ c, coreAtOffset off = some c → exec .registerWrite s = .next (s.coreRegWrite i.who c (off % 0x10000) r.1 r.2))
        ∧ (coreAtOffset off = none → let cmd := bits (r.1 &&& r.2).toNat 1 0
          let may := s.mayReach i.who off = true ∧ (quaysideOnly off = true → i.who.quayside = true)
          let idle := gangOff off = true ∧ (cmd = 0 ∨ cmd = 3)
          (¬may ∨ idle → exec .registerWrite s = .next (s.countReg off))
          ∧ (may → ¬idle → ownStep off = false → exec .registerWrite s = .next (s.spaceWrite off r.1 r.2))
          ∧ (may → ¬idle → ownStep off = true → exec .registerWrite s = .next s))))
    ∧ ∀ off v mask, let t := s.plainWrite off v mask
      t.mem = s.mem ∧ t.groups = s.groups ∧ (coreAtOffset off ≠ none ∨ (blockOf off).1 ≠ off →
        t.reg off = if plainBits off = 0 then s.reg off
          else (s.reg off &&& ~~~(plainBits off &&& mask)) ||| (v &&& plainBits off &&& mask)))

/-- 25 R340-R342, 26 R344-R347: COLD_RESET empties every group, block and cache, zeroes what is inside the module, and
keeps the fuses and the boot stores; then the stages run: fuse banks that differ halt stage 1 with cause 1, samples
that fail their tests with cause 3 and the entropy state locked, two banks with a bad image halt stage 2 with cause 2;
otherwise stage 4 is reached from the first bank whose images pass, BANKSEL naming it, and at stage 5 the
anti-rollback fuses rise to the least running security version. FAILOVER_TIMER boots the standby side where the first
has not reached stage 2 in 500 ms. A failed health test raises mcause 31 on the Harbourmaster's hart. -/
def Obligations.BootStages : Prop :=
  ∀ s : State,
    (let t := s.powerUp
     t.groups = [] ∧ t.blocks = [] ∧ t.cores = [] ∧ t.tlb = [] ∧ t.dirty = [] ∧ t.sec = {} ∧ t.host = {} ∧ t.tide = 0
      ∧ t.boot.fuse0 = s.boot.fuse0 ∧ t.boot.fuse1 = s.boot.fuse1 ∧ t.boot.banksel = s.boot.banksel
      ∧ (Inv s → ∀ a, Memory.read t.mem a = if a < 2 ^ 48 ∨ (2 ^ 52 ≤ a ∧ a < 2 ^ 56) then 0 else Memory.read s.mem a)
      ∧ (s.input.flag = false → s.input.flag2 = false → exec .coldReset s = .next t.bootRun)
      ∧ (s.input.flag = true ∨ s.input.flag2 = true →
        exec .coldReset s = .next { t with boot := { t.boot with bootst := 1, failed := s.input.flag } }))
    ∧ (let due := s.boot.standby = false ∧ bits s.boot.bootst.toNat 2 0 < 2 ∧ (s.boot.failed = true ∨ 500000000 ≤ s.tide.toNat)
     (due → exec .failoverTimer s = .next ({ s with boot := { s.boot with standby := true } } : State).bootRun)
      ∧ (¬due → exec .failoverTimer s = .next s))
    ∧ (let t := s.bootRun
     let b := bits s.boot.banksel.toNat 1 1
     let off := if s.boot.standby then 2 else 0
     (s.boot.fuse0 ≠ s.boot.fuse1 → t = { s with boot := { s.boot with bootst := bootstOf 1 true 1 0 } })
      ∧ (s.boot.fuse0 = s.boot.fuse1 → blockOk (s.input.bytes.take 1024) = false →
        t.boot.bootst = bootstOf 1 true 3 0 ∧ t.sec.locked = true ∧ t.sec.trap31 = s.sec.trap31 + 1 ∧ t.mem = s.mem)
      ∧ (s.boot.fuse0 = s.boot.fuse1 → blockOk (s.input.bytes.take 1024) = true →
        let bad := fun n => s.badImage s.boot.fuse0 (off + n)
        if bad b = none then bits t.boot.bootst.toNat 3 0 = 4 ∧ t.boot.banksel = BitVec.ofNat 64 (3 * b)
        else if bad (1 - b) = none then bits t.boot.bootst.toNat 3 0 = 4 ∧ t.boot.banksel = BitVec.ofNat 64 (3 * (1 - b) + 4)
        else t.boot.bootst = bootstOf 2 true 2 ((bad b).getD 0) ∧ t.mem = s.mem))
    ∧ (let v := least s.boot.secvers
     s.commit.mem = s.mem ∧ s.commit.boot.bootst = s.boot.bootst
      ∧ (v ≤ fusedCounter s.boot.fuse0.arb → s.commit = s)
      ∧ (fusedCounter s.boot.fuse0.arb < v → s.commit.boot.fuse0.arb = thermometer v ∧ s.commit.boot.fuse1.arb = thermometer v))
    ∧ exec .entropyHealthTestFailure s = .next { s with sec := { s.sec with trap31 := s.sec.trap31 + 1 } }

/-- 25 R329-R336, R341, 13 R241, 16 R275: the Harbourmaster performs the next call: the record leaves the order, its slot
holds the status and its tag; an op without a row ends with status 1; a call's own conditions end it with their
statuses, and nothing else changes. CTX_CREATE gives a context to a world, or makes a world with a fresh key, whose
flows start unbroken; CTX_DESTROY takes the context away; WORLD_SUSPEND stores the wrapped key and frees its slot, a
generation later, WORLD_RESUME takes it back; WORLD_DESTROY forgets the world; HANDLE_SET and HANDLE_CLEAR write one
handle; VAULT_GRANT sets one mask after a shootdown; ENTROPY_RESTART unlocks on samples that pass. -/
def Obligations.HarbourmasterCallsComplete : Prop :=
  ∀ (s : State) k w, s.nextCall = some (k, w) → let op := bits (callWord w 0) 7 0
    let a := callWord w 1
    let b := callWord w 2
    let fails := fun (i : Instr) st => exec i s = .next (s.endCall k w st 0)
    (∀ st r2, let t := s.endCall k w st r2
      t.mem = s.mem ∧ t.groups = s.groups ∧ t.sec.order = s.sec.order.drop 1 ∧ t.sec.contexts = s.sec.contexts
      ∧ t.sec.worlds = s.sec.worlds ∧ t.sec.keys = s.sec.keys ∧ let c := Map.get {} t.sec.calls k
      c.busy = false ∧ c.res2 = BitVec.ofNat 64 r2 ∧ c.res = BitVec.ofNat 64 (st + 2 ^ 16 * bits (callWord w 0) 31 16 + 2 ^ 63))
    ∧ (∀ (x : Security) slot key, (x.install slot key).keys = x.keys.set slot key
      ∧ ∀ f, f ∈ (x.install slot key).flows ↔ f ∈ x.flows ∧ f / 2 ^ 24 % 64 ≠ slot)
    ∧ (op = 0 ∨ 9 < op → fails .badCall 1)
    ∧ (op = 1 → strayBits w 2 = false → a ≠ 0 → a ≤ 65535 → bits b 15 12 = 0 → b < 2 ^ 17 → bits b 11 0 ≠ 0 →
      let world := bits b 11 0
      (s.sec.contexts.find a ≠ none → fails .ctxCreate 3)
      ∧ (s.sec.contexts.find a = none → s.worldLocked world = true → fails .ctxCreate 16)
      ∧ (s.sec.contexts.find a = none → s.worldLocked world = false →
        (bits b 16 16 = 0 → (s.sec.worlds.find world = none → fails .ctxCreate 6)
          ∧ ∀ x, s.sec.worlds.find world = some x → (x.slot = none → fails .ctxCreate 8)
          ∧ (x.slot ≠ none → exec .ctxCreate s =
            .next (({ s with sec := { s.sec with contexts := s.sec.contexts.set a world } } : State).endCall k w 0 0)))
        ∧ (bits b 16 16 = 1 → s.sec.worlds.find world = none → s.sec.worlds.length < 4095 → ∀ slot, s.sec.freeSlot = some slot →
          s.sec.locked = false → ∀ x key, s.sec.generate 96 s.input.bytes = (x, some key) →
          exec .ctxCreate s = .next (({ s with sec := { x.install slot key with
            contexts := x.contexts.set a world, worlds := x.worlds.set world { gen := 0, slot := some slot } } } : State).endCall k w 0 slot))))
    ∧ (op = 2 → strayBits w 1 = false → a ≤ 65535 → (s.sec.contexts.find a = none → fails .ctxDestroy 4)
      ∧ (s.sec.contexts.find a ≠ none → (s.contextBusy a = true → fails .ctxDestroy 5)
        ∧ (s.contextBusy a = false → exec .ctxDestroy s = .next ((s.endContext a).endCall k w 0 0)
          ∧ (s.endContext a).sec.contexts.find a = none ∧ (s.endContext a).dead.find a = none ∧ (s.endContext a).mem = s.mem
          ∧ ∀ c, c ≠ a → (s.endContext a).sec.contexts.find c = s.sec.contexts.find c)))
    ∧ (op = 3 → strayBits w 2 = false → a ≤ 4095 → s.blobOk b = true →
      (s.sec.worlds.find a = none → fails .worldSuspend 6)
      ∧ ∀ x, s.sec.worlds.find a = some x → (x.slot = none → fails .worldSuspend 8)
        ∧ ∀ slot, x.slot = some slot → ((s.contextsOf a).any s.contextBusy = true → fails .worldSuspend 7)
          ∧ ((s.contextsOf a).any s.contextBusy = false → let t := s.shootWorld a
            let head := blobHead a (x.gen + 1)
            let u := (t.performStore b (head ++ keyWrap t.sec.wrapKey (head ++ padded 96 (Map.get [] t.sec.keys slot)) ++ leBytes 8 0)).freeKey slot
            exec .worldSuspend s = .next (({ u with sec := { u.sec with
              worlds := u.sec.worlds.set a { gen := x.gen + 1, slot := none } } } : State).endCall k w 0 0)))
    ∧ (op = 4 → strayBits w 2 = false → a ≤ 4095 → s.blobOk b = true → ∀ x, s.sec.worlds.find a = some x →
      let l := s.bytes b 128
      let p := keyUnwrap s.sec.wrapKey ((l.drop 8).take 112)
      (x.slot ≠ none → fails .worldResume 2)
      ∧ (x.slot = none → if fieldAt l 0 2 = 0x5742 ∧ bits (fieldAt l 0 8) 27 16 = a ∧ p.take 8 = l.take 8
            ∧ keyWrap s.sec.wrapKey p = (l.drop 8).take 112 ∧ s.poisoned b 128 = false then
          (fieldAt l 4 4 ≠ x.gen.toNat → fails .worldResume 14)
          ∧ (fieldAt l 4 4 = x.gen.toNat → (s.sec.freeSlot = none → fails .worldResume 10)
            ∧ ∀ slot, s.sec.freeSlot = some slot → exec .worldResume s = .next (({ s with sec := { s.sec.install slot (p.drop 8) with
                worlds := s.sec.worlds.set a { x with slot := some slot } } } : State).endCall k w 0 0))
        else fails .worldResume 13))
    ∧ (op = 5 → strayBits w 1 = false → a ≤ 4095 → (s.sec.worlds.find a = none → fails .worldDestroy 6)
      ∧ ∀ x, s.sec.worlds.find a = some x → (s.contextsOf a ≠ [] → fails .worldDestroy 7)
        ∧ (s.contextsOf a = [] → ∃ t : State, exec .worldDestroy s = .next (t.endCall k w 0 0) ∧ t.mem = s.mem
          ∧ t.sec.worlds.find a = none ∧ (∀ c, c ≠ a → t.sec.worlds.find c = s.sec.worlds.find c)
          ∧ (∀ slot, x.slot = some slot → t.sec.keys.find slot = none) ∧ ∀ c ∈ t.cipher, c.2 ≠ a))
    ∧ (let p := handleArgs w
      ∀ blk, s.blocks.find p.1 = some blk → a < 2 ^ 23 →
        (op = 6 → strayBits w 2 = false → isPeer (BitVec.ofNat 64 (b % 2 ^ 44)) = true →
          ((blk.handle p.2).getLsbD 0 = true → fails .handleSet 15)
          ∧ ((blk.handle p.2).getLsbD 0 = false → exec .handleSet s =
            .next ((s.setBlkAt p.1 { blk with handles := blk.handles.set p.2 (BitVec.ofNat 64 (b % 2 ^ 44)) }).endCall k w 0 0)))
        ∧ (op = 7 → strayBits w 1 = false → ((blk.handle p.2).getLsbD 0 = false → fails .handleClear 4)
          ∧ ((blk.handle p.2).getLsbD 0 = true → (s.handleInUse p.1 p.2 = true → exec .handleClear s = .next s)
            ∧ (s.handleInUse p.1 p.2 = false → exec .handleClear s =
              .next ((s.setBlkAt p.1 { blk with handles := blk.handles.set p.2 0 }).endCall k w 0 0)))))
    ∧ (op = 8 → (s.sec.contexts.find a = none → fails .vaultGrant 4)
      ∧ (s.sec.contexts.find a ≠ none → strayBits w 3 = false → b ≤ 11 →
        (∀ m ∈ s.net, 2048 ≤ m.dst → m.dst < 2816 → (m.dst - 2048) / 64 = b →
          (s.launchAt (s.blkAt (s.grpAt m.src).blk).launch).asid ≠ a) →
        let t := s.shootdown { asid := a, all := true, glob := false, va := 0, len := 0, ending := .word 0 }
        exec .vaultGrant s = .next (({ t with vaultMask := t.vaultMask.set (a * 16 + b) (BitVec.ofNat 64 (callWord w 3)) } : State).endCall k w 0 0)))
    ∧ (op = 9 → strayBits w 0 = false → let l := s.input.bytes.take 1024
      (blockOk l = true → exec .entropyRestart s =
        .next (({ s with sec := { s.sec with drbg := drbgReseed s.sec.drbg l, locked := false } } : State).endCall k w 0 0))
      ∧ (blockOk l = false → exec .entropyRestart s =
        .next (({ s with sec := { s.sec with trap31 := s.sec.trap31 + 1 } } : State).endCall k w 11 0)))

/-- 23 R320, R322, R326, 16 R273, R279, 20 R293, R298: a doorbell moves a pair's tail, or breaks a ring it overruns and is
counted; a head frees completion entries; a write of a port that is not served is dropped. The next entry of a pair
that is enabled, whole and has room is taken: NOP completes with status 0, an op of no row with 0x100, a command for
another ASID with 0x101; a shootdown joins the list; a page taken gets own 1 and a shootdown, a page returned own 0; a
launch that reads well joins its queue with its status, one that cannot be read completes with 1, one on an absent
page waits for it. A line that a host holds is asked back first. A completion is one entry at the tail of the ring
with the phase of its wrap; a byte that no hart cache holds dirty changes nowhere else. The status of a page command
without a leaf is free (log 14). -/
def Obligations.HostQueuesServed : Prop :=
  ∀ s : State, let i := s.input
    let p := i.a % 4
    let h := i.b % 32
    let q := s.hq p h
    (let v : Half := i.val.setWidth 16
     (s.portOpen i.c = false → exec .hqDoorbell s = .next (s.dropPosted i.c) ∧ exec .hqCompletionHead s = .next (s.dropPosted i.c))
      ∧ (s.portOpen i.c = true → exec .hqCompletionHead s = .next (s.setHq p h { q with compHead := v })
        ∧ ((v - q.subHead).toNat ≤ q.size → exec .hqDoorbell s = .next (s.setHq p h { q with subTail := v }))
        ∧ (q.size < (v - q.subHead).toNat → exec .hqDoorbell s =
          .next ((s.countReg (subBlock p (0x1400 + 64 * h))).setHq p h { q with broken := true }))))
    ∧ (s.hostEntry p h = none → exec .hostNop s = .next s ∧ exec .hostLaunch s = .next s ∧ exec .hostShootdown s = .next s
      ∧ exec .pageTake s = .next s ∧ exec .pageReturn s = .next s ∧ exec .badCommand s = .next s)
    ∧ (∀ pos l line, s.hostEntry p h = some (pos, l) → s.pairLine p h pos = some line →
      ∀ x ∈ [Instr.hostNop, .hostLaunch, .hostShootdown, .pageTake, .pageReturn, .badCommand], exec x s = .next (s.askLine line))
    ∧ (∀ pos l, s.hostEntry p h = some (pos, l) → s.pairLine p h pos = none → let op := fieldAt l 0 1
      let t := s.takeEntry p h
      let asid := fieldAt l 8 2
      let va := fieldAt l 16 8 % 2 ^ 57
      (op = 0 → exec .hostNop s = .next (t.complete p h pos 0))
      ∧ (4 < op → exec .badCommand s = .next (t.complete p h pos 0x100))
      ∧ (op = 2 → let v : BitVec 256 := BitVec.ofNat 256 (fieldAt l 8 32)
        (bits v.toNat 15 0 ≠ q.asid → exec .hostShootdown s = .next (t.complete p h pos 0x101))
        ∧ (bits v.toNat 15 0 = q.asid →
          exec .hostShootdown s = .next { t with shoots := t.shoots ++ [shootOf v (.command p h pos)] }))
      ∧ (op = 3 → (asid ≠ q.asid → exec .pageTake s = .next (t.complete p h pos 0x101))
        ∧ (asid = q.asid → (s.leafOf asid va = none → exec .pageTake s = .next (t.complete p h pos (freeStatus s)))
          ∧ ∀ a e own w x, s.leafOf asid va = some a → walk s asid va = .leaf e own w x →
          (own = 2 → exec .pageTake s = .next (t.complete p h pos 0))
          ∧ (own ≠ 2 → s.lineWait a.1 (8 * a.2) true = none → let u := t.setOwn a 1
            exec .pageTake s = .next { u with shoots := u.shoots ++ [{ asid := asid, all := false, glob := e.asid == 0, va := e.va
                                                                       len := e.size, ending := .take p h pos asid va }] })))
      ∧ (op = 4 → (asid ≠ q.asid → exec .pageReturn s = .next (t.complete p h pos 0x101))
        ∧ (asid = q.asid → (s.leafOf asid va = none → exec .pageReturn s = .next (t.complete p h pos (freeStatus s)))
          ∧ ∀ a, s.leafOf asid va = some a → s.lineWait a.1 (8 * a.2) true = none →
            exec .pageReturn s = .next ((t.setOwn a 0).complete p h pos 0)))
      ∧ (op = 1 → let j := bits q.ctl.toNat 5 1
        let n := s.jetty j
        let me := 32 * p + h
        (n.held.isSome = true → exec .hostLaunch s = .next s)
        ∧ (n.held = none → n.failed.contains me = true →
          exec .hostLaunch s = .next ((t.setJetty j { n with failed := n.failed.erase me }).complete p h pos 1))
        ∧ (n.held = none → n.failed.contains me = false →
          (∀ va f, s.readLaunch p q.asid (fieldAt l 8 8) = .error (.page va f) →
            exec .hostLaunch s = .next (s.jettyParks p j q.asid me va f))
          ∧ (∀ w, s.readLaunch p q.asid (fieldAt l 8 8) = .error (.line w) → exec .hostLaunch s = .next (s.askLine w))
          ∧ (s.readLaunch p q.asid (fieldAt l 8 8) = .ok none → exec .hostLaunch s = .next (t.complete p h pos 1))
          ∧ ∀ r, s.readLaunch p q.asid (fieldAt l 8 8) = .ok (some r) → let o := s.launchStatus r p q.asid 0 false
            exec .hostLaunch s = .next ((if o.1 = 0 then t.enqueue o.2 false else t).complete p h pos o.1))))
    ∧ (∀ p h pos st, let t := s.complete p h pos st
      let q := s.hq p h
      let n := q.compTail.toNat
      let at_ := q.comp + 16 * (n % q.size)
      t.hq p h = { q with compTail := q.compTail + 1 }
      ∧ (Inv s → (∀ i, i < 16 → Memory.read t.mem (at_ + i)
          = (leBytes 16 (st + 2 ^ 16 * ((n / q.size + 1) % 2) + 2 ^ 32 * pos)).getD i 0)
        ∧ ∀ a, a < at_ ∨ at_ + 16 ≤ a → ¬s.dirtyAt a → Memory.read t.mem a = Memory.read s.mem a))

/-- 23 R315, R321-R323, R326: a lease request is answered by its result code; an accepted renewal moves the expiry, an
accepted claim makes its port the holder for the next epoch, lifts its fence and sends it the pending interrupts, and
both change nothing else, but that set reserved bits are counted; at its expiry the holder's port is fenced and the
lease has ended, and a running interface goes to ERROR. A link trains from down and falls; a failure of IDE takes its
protection away. LOCK, START and STOP of the interface succeed from their states on their port alone, and STOP zeroes
the module's memory first. -/
def Obligations.LeaseLinksAndInterface : Prop :=
  ∀ s : State, let i := s.input
    let l := s.host.lease
    (let p := i.a % 2
     let r := s.leaseResult p false i.val
     let c := s.leaseResult p true i.val
     let answered := fun (m : Lease) => (({ s with host := { s.host with lease := m } } : State)).leaseReserved i.val
     exec .hlreqRenew s = .next (answered { l with res := l.res.set p r, exp := if r = 0 then s.leaseEnd i.val else l.exp })
      ∧ (c ≠ 0 → exec .hlreqClaim s = .next (answered { l with res := l.res.set p c }))
      ∧ (∀ t : State, t.leaseReserved i.val = if i.val &&& 0xFFFE00000000FFFE = 0 then t else t.countReg (pd0 0x408))
      ∧ (c = 0 → s.host.tdisp ≠ .run → ∃ t, exec .hlreqClaim s = .next t ∧ t.mem = s.mem ∧ t.groups = s.groups
        ∧ t.host.lease = { l with res := l.res.set p 0, holder := p, st := 1, epoch := l.epoch + 1, exp := s.leaseEnd i.val }
        ∧ t.host.irqs = [] ∧ t.host.sent = s.host.sent ++ s.host.irqs ∧ ∀ x, x ∈ t.host.fenced ↔ x ∈ s.host.fenced ∧ x ≠ p))
    ∧ (l.st ≠ 1 ∨ s.tide.toNat < l.exp.toNat → exec .leaseExpiry s = .next s)
    ∧ (l.st = 1 → l.exp.toNat ≤ s.tide.toNat → exec .leaseExpiry s =
        .next (({ s.fence l.holder with host := { (s.fence l.holder).host with lease := { (s.fence l.holder).host.lease with st := 2 } } } : State)).interfaceError)
    ∧ (∀ p, p ∈ (s.fence p).host.fenced ∧ (s.fence p).host.lease = l ∧ (s.fence p).groups = s.groups
      ∧ ∀ x ∈ (s.fence p).host.filter, x.2.1 ≠ p)
    ∧ (∀ d, (s.leaseResult d false i.val = 0 ↔ (let u := bits i.val.toNat 48 32
        u ≠ 0 ∧ u ≤ 100000 ∧ l.st = 1 ∧ s.tide.toNat < l.exp.toNat ∧ l.holder = d ∧ ((i.val >>> 16).setWidth 16 : Half) = l.epoch))
      ∧ (s.leaseResult d true i.val = 0 ↔ (let u := bits i.val.toNat 48 32
        u ≠ 0 ∧ u ≤ 100000 ∧ l.st ≠ 1 ∧ ((i.val >>> 16).setWidth 16 : Half) = l.epoch + 1)))
    ∧ (let b := i.b % 6
     let k := 8 * (i.a % 2) + b
     let cxl := i.link = .cxl31 ∨ i.link = .cxl20
     let old : Link := Map.get {} s.host.links k
     let up : Link :=
       { mode := i.link, x8 := i.flag, ideIo := i.val.getLsbD 0, ideCxl := decide (cxl ∧ i.val.getLsbD 1 = true) }
     (old.mode ≠ .down → exec .linkTraining s = .next s)
      ∧ (old.mode = .down → i.link ≠ .down → (b = 0 ∨ (i.link = .cxl31 ∧ i.flag = false)) →
        exec .linkTraining s = .next ((s.linkUp b).setLink k up))
      ∧ (old.mode = .down → i.link = .down ∨ (b ≠ 0 ∧ (i.link ≠ .cxl31 ∨ i.flag = true)) → exec .linkTraining s = .next (s.setLink k {}))
      ∧ exec .linkDown s = .next (if s.guestLink k then (s.setLink k {}).interfaceError else s.setLink k {})
      ∧ exec .ideFailure s = .next (let t := s.setLink k { old with ideIo := false, ideCxl := false }
          if s.guestLink k then t.interfaceError else t))
    ∧ ((l.st = 1 ∧ l.holder = i.a ∧ s.host.tdisp = .unlocked → exec .lockInterface s =
        .next { s with host := { s.host with tdispOk := true, tdisp := .locked, port := i.a, guest := [i.b] } })
      ∧ (¬(l.st = 1 ∧ l.holder = i.a ∧ s.host.tdisp = .unlocked) → exec .lockInterface s = .next (s.tdispAnswer false)))
    ∧ (let k : Link := Map.get {} s.host.links (8 * i.a)
     let ok := s.host.tdisp = .locked ∧ s.host.port = i.a ∧ k.ideIo = true ∧ k.ideCxl = true
     (ok → exec .startInterface s = .next { s with host := { s.host with tdispOk := true, tdisp := .run } })
      ∧ (¬ok → exec .startInterface s = .next (s.tdispAnswer false)))
    ∧ (let ok := s.host.tdisp ≠ .unlocked ∧ s.host.port = i.a
     (ok → ∃ t, exec .stopInterface s = .next t ∧ t.host.tdisp = .unlocked ∧ t.host.guest = [] ∧ t.host.tdispOk = true ∧ t.groups = s.groups
        ∧ (Inv s → ∀ a, Memory.read t.mem a = if a < hbmSize ∨ (2 ^ 52 ≤ a ∧ a < 2 ^ 56) then 0 else Memory.read s.mem a))
      ∧ (¬ok → exec .stopInterface s = .next (s.tdispAnswer false)))
    ∧ (s.host.tdisp = .run → (s.interfaceError).host.tdisp = .error) ∧ (s.host.tdisp ≠ .run → s.interfaceError = s)

/-- 09 R165, 23 R318, R319, 24 R327, R328: a snoop of a line the device holds gives the host a modified line's data and
takes the line to S, to I, or leaves it; a line it does not hold stays as it is; an invalidating snoop ends
reservations on the line first. A grant makes the requested line E or S with the host's data, where the device had
none. A host's answer to a back-invalidation takes a line out of its filter, or leaves it there in S, after a modified
line's data. A host's read of HBM gives it the bytes, its write stores them, and it holds the line as it asked under
CXL 3.1; a line that the other port holds is asked back first. -/
def Obligations.HostCoherence : Prop :=
  ∀ s : State, let i := s.input
    let l := i.a
    (let old := Map.get .i s.host.lines l
     let went := fun (s : State) (m : Mesi) => let t := s.flushHome (64 * l)
       let u := if old = .m then t.toHost (t.bytes (64 * l) 64) else t
       ({ u with host := { u.host with lines := u.host.lines.set l m } } : State)
     (s.cachedHost (64 * l) = true → old ≠ .i → exec .snpData s = .next (went s .s) ∧ exec .snpCur s = .next (went s old))
      ∧ (s.cachedHost (64 * l) = false ∨ old = .i → exec .snpData s = .next s ∧ exec .snpCur s = .next s)
      ∧ (let v := s.breakResv (64 * l) 64
       v.mem = s.mem ∧ v.host = s.host
        ∧ (s.cachedHost (64 * l) = true → old ≠ .i → exec .snpInv s = .next (went v .i))
        ∧ (s.cachedHost (64 * l) = false ∨ old = .i → exec .snpInv s = .next v))
      ∧ ∀ m, Map.get .i (went s m).host.lines l = m)
    ∧ (i.flag = true → exec .cxlGo s = .next { s with host := { s.host with evicts := s.host.evicts.erase (i.b, l) } })
    ∧ (let old := Map.get .i s.host.lines l
     i.flag = false → s.cachedHost (64 * l) = true → s.lineWanted l i.flag2 = true → (∀ e ∈ s.host.evicts, e.2 ≠ l) →
      (old = .i ∨ (i.flag2 = true ∧ old = .s)) → let new : Mesi := if i.flag2 = true ∨ i.mesi = .e then .e else .s
      (∃ t, exec .cxlGo s = .next t ∧ Map.get .i t.host.lines l = new ∧ t.groups = s.groups
        ∧ (∀ k, k ≠ l → Map.get .i t.host.lines k = Map.get .i s.host.lines k)
        ∧ (∀ d, old = .i → i.data = some d → t.mem = Memory.writeBytes s.mem (64 * l) (padded 64 d))
        ∧ (old ≠ .i ∨ i.data = none → t.mem = s.mem)))
    ∧ (s.host.filter.find l = none → exec .bisnpResponse s = .next s)
    ∧ (∀ p st, s.host.filter.find l = some (p, st) → s.lineWanted l i.flag = true →
      ∃ u, exec .bisnpResponse s = .next u
        ∧ (∀ d, st = .m → i.data = some d → u.mem = (s.performStore (64 * l) (padded 64 d)).mem)
        ∧ (st ≠ .m ∨ i.data = none → u.mem = s.mem)
        ∧ u.host.filter.find l = if i.flag then none else some (p, .s))
    ∧ (let p := i.c
     let line := i.a / 64
     let n := min (i.b % 65) (64 - i.a % 64)
     let mode : LinkMode := (Map.get {} s.host.links (8 * p)).mode
     (s.portOpen p = false → exec .hostCxlMemAccess s = .next (if i.flag then s.dropPosted p else s))
      ∧ (s.portOpen p = true → mode = .down ∨ hbmSize ≤ i.a → exec .hostCxlMemAccess s = .next s)
      ∧ (s.portOpen p = true → mode ≠ .down → i.a < hbmSize →
        (∀ q st, s.host.filter.find line = some (q, st) → q = p ∨ (i.flag = false ∧ i.mesi = .s ∧ st ≠ .m)) →
        (i.flag = false → ∃ t, exec .hostCxlMemAccess s = .next t ∧ t.mem = s.mem ∧ t.groups = s.groups
          ∧ t.host.reads = s.host.reads ++ [if s.poisoned i.a n then [] else s.bytes i.a n]
          ∧ (mode = .cxl31 → i.mesi ≠ .i → t.host.filter.find line = some (p, i.mesi)))
        ∧ (i.flag = true → ∃ t, exec .hostCxlMemAccess s = .next t ∧ t.mem = (s.performStore i.a (padded n i.bytes)).mem
          ∧ (mode = .cxl31 → i.mesi ≠ .i → t.host.filter.find line = some (p, i.mesi))))
      ∧ (s.portOpen p = true → mode ≠ .down → i.a < hbmSize → ∀ q st, s.host.filter.find line = some (q, st) → q ≠ p →
        (i.flag = true ∨ i.mesi ≠ .s ∨ st = .m) →
        ∃ t, exec .hostCxlMemAccess s = .next t ∧ t.mem = s.mem ∧ t.groups = s.groups
          ∧ (line, decide (i.flag = true ∨ i.mesi ≠ .s)) ∈ t.host.asked))

/-- 25 R342, R343: on a port that is served, each SPDM request is answered: the version and capabilities, the algorithms
when one is offered and InvalidRequest when none, the certificate's digest and bytes, a challenge and measurements
with the signature over request and answer, Busy while the entropy state is locked, UnsupportedRequest for the rest;
on a port kept out nothing changes. No answer touches memory or a group. -/
def Obligations.AttestationAnswers : Prop :=
  ∀ s : State, let i := s.input
    let p := i.a
    let answers := fun (x : Instr) (l : List Byte) => ∃ t, exec x s = .next t ∧ (Map.get {} t.host.spdm p : Spdm).response = l
      ∧ t.mem = s.mem ∧ t.groups = s.groups ∧ ∀ q, q ≠ p → (Map.get {} t.host.spdm q : Spdm) = Map.get {} s.host.spdm q
    let head := fun code p1 p2 => leBytes 4 (0x13 + 2 ^ 8 * code + 2 ^ 16 * p1 + 2 ^ 24 * p2)
    let m := if i.b = 0xFF then [1, 2, 3, 4, 5, 6, 7, 8, 9].flatMap fun k => BitVec.ofNat 8 k :: s.measurement k
      else BitVec.ofNat 8 i.b :: s.measurement i.b
    (s.portOpen p = true →
      answers .getVersion (head 0x04 0 0 ++ (leBytes 2 1 ++ leBytes 2 0x1300))
      ∧ answers .getCapabilities (head 0x61 0 0 ++ leBytes 4 0x16)
      ∧ (i.flag = true ∨ i.flag2 = true →
        answers .negotiateAlgorithms (head 0x63 0 0 ++ [if i.flag then 1 else 0, if i.flag2 then 1 else 0]))
      ∧ (i.flag = false → i.flag2 = false → answers .negotiateAlgorithms (head 0x7F 1 0))
      ∧ answers .getDigests (head 0x01 0 1 ++ shake certificate)
      ∧ answers .getCertificate (head 0x02 0 0 ++ (certificate.drop i.b).take i.c)
      ∧ answers .challenge (if s.sec.locked then head 0x7F 3 0
          else head 0x03 0 0 ++ (shake certificate ++ falconSign (i.bytes ++ shake certificate)))
      ∧ answers .getMeasurements (if i.flag = false then head 0x60 0 0 ++ m
          else if s.sec.locked then head 0x7F 3 0 else head 0x60 0 0 ++ (m ++ falconSign (i.bytes ++ m)))
      ∧ answers .spdmUnsupportedRequest (head 0x7F 7 0))
    ∧ (s.portOpen p = false → ∀ x ∈ [Instr.getVersion, .getCapabilities, .negotiateAlgorithms, .getDigests, .getCertificate,
        .challenge, .getMeasurements, .spdmUnsupportedRequest], exec x s = .next s)

/-- 25 R339: a context's write puts the sectors of HBM that it touches under its world's key. A context of that world
reads them as they stand; one of another world finds a free byte at each place of them, and every other byte as it
stands. Memory outside HBM has no key. -/
def Obligations.WorldKeysSeparateMemory : Prop :=
  ∀ (s : State) asid w, Inv s → s.sec.contexts.find asid = some w →
    (∀ l k, k ∈ l → k < 2 ^ 48 → (s.underKey asid l).cipher.find k = some w)
    ∧ (∀ key n, (∀ k ∈ sectorsOf key n, k < 2 ^ 48 → ∀ v, s.cipher.find k = some v → v = w) →
      s.worldBytes asid key n = Memory.bytes s.mem key n)
    ∧ (∀ key n, 2 ^ 52 ≤ key → s.worldBytes asid key n = Memory.bytes s.mem key n)
    ∧ (∀ l k v i, k ∈ l → k < 2 ^ 48 → s.cipher.find k = some v → v ≠ w → i < 128 →
      Memory.read (s.decrypt asid l).mem (k + i) = Config.freeByte s.moves (k + i))
    ∧ ∀ l b, (∀ k ∈ l, k < 2 ^ 48 → (∃ v, s.cipher.find k = some v ∧ v ≠ w) → b < k ∨ k + 128 ≤ b) →
      Memory.read (s.decrypt asid l).mem b = Memory.read s.mem b
end

