-- ==== Sys2Proof/Laws/Map.lean ====
section
/-! SUPPORT. Reading keyed data after a write or a removal. -/
namespace Sys2Proof.Machine

theorem Map.get_set {α : Type} (d : α) (m : Map α) (k j : Nat) (v : α) :
    Map.get d (m.set k v) j = if k = j then v else Map.get d m j := by
  induction m with
  | nil => simp [Map.set, Map.get]
  | cons p rest ih =>
    obtain ⟨i, w⟩ := p
    by_cases h : i = k
    · subst h
      by_cases hj : i = j <;> simp [Map.set, Map.get, hj]
    · by_cases hj : i = j
      · subst hj
        simp [Map.set, Map.get, h, Ne.symm h]
      · simp [Map.set, Map.get, h, hj, ih]

@[simp] theorem Map.get_set_same {α : Type} (d : α) (m : Map α) (k : Nat) (v : α) : Map.get d (m.set k v) k = v := by
  simp [Map.get_set]

theorem Map.get_set_other {α : Type} (d : α) (m : Map α) {k j : Nat} (v : α) (h : k ≠ j) :
    Map.get d (m.set k v) j = Map.get d m j := by
  simp [Map.get_set, h]

theorem Map.set_set {α : Type} (m : Map α) (k : Nat) (v w : α) : (m.set k v).set k w = m.set k w := by
  induction m with
  | nil => simp [Map.set]
  | cons p rest ih =>
    obtain ⟨i, u⟩ := p
    by_cases h : i = k
    · subst h; simp [Map.set]
    · simp [Map.set, h, ih]

theorem Map.find_set {α : Type} (m : Map α) (k j : Nat) (v : α) :
    (m.set k v).find j = if k = j then some v else m.find j := by
  induction m with
  | nil => simp [Map.set, Map.find]
  | cons p rest ih =>
    obtain ⟨i, w⟩ := p
    by_cases h : i = k
    · subst h
      by_cases hj : i = j <;> simp [Map.set, Map.find, hj]
    · by_cases hj : i = j
      · subst hj
        simp [Map.set, Map.find, h, Ne.symm h]
      · simp [Map.set, Map.find, h, hj, ih]

theorem Map.find_erase_other {α : Type} (m : Map α) {k j : Nat} (h : k ≠ j) : (m.erase k).find j = m.find j := by
  induction m with
  | nil => rfl
  | cons p rest ih =>
    obtain ⟨i, w⟩ := p
    by_cases hi : i = k
    · subst hi; simp [Map.erase, Map.find, h, ih]
    · by_cases hj : i = j
      · subst hj; simp [Map.erase, Map.find, hi]
      · simp [Map.erase, Map.find, hi, hj, ih]

theorem Map.find_erase_same {α : Type} (m : Map α) (k : Nat) : (m.erase k).find k = none := by
  induction m with
  | nil => rfl
  | cons p rest ih =>
    obtain ⟨i, w⟩ := p
    by_cases hi : i = k
    · subst hi; simp [Map.erase, ih]
    · simp [Map.erase, Map.find, hi, ih]

/-- Applying a function to every value of a map. -/
theorem Map.get_map {α β : Type} (d : α) (e : β) (f : Nat → α → β) (m : Map α) (k : Nat) (h : ∀ j, f j d = e) :
    Map.get e (m.map fun p => (p.1, f p.1 p.2)) k = f k (Map.get d m k) := by
  induction m with
  | nil => simp [Map.get, h]
  | cons p rest ih =>
    obtain ⟨i, w⟩ := p
    by_cases hi : i = k
    · subst hi; simp [Map.get]
    · simp [Map.get, hi, ih]

end Sys2Proof.Machine
end

