-- ==== Sys2Proof/Laws/State.lean ====
section
/-! SUPPORT. One lemma per field of State and update of it. -/
namespace Sys2Proof.Machine

-- setGrpAt
@[simp] theorem State.setGrpAt_turn (s : State) (k : Nat) (g : Group) : (s.setGrpAt k g).turn = s.turn := rfl
@[simp] theorem State.setGrpAt_input (s : State) (k : Nat) (g : Group) : (s.setGrpAt k g).input = s.input := rfl
@[simp] theorem State.setGrpAt_cur (s : State) (k : Nat) (g : Group) : (s.setGrpAt k g).cur = s.cur := rfl
@[simp] theorem State.setGrpAt_moves (s : State) (k : Nat) (g : Group) : (s.setGrpAt k g).moves = s.moves := rfl
@[simp] theorem State.setGrpAt_cycles (s : State) (k : Nat) (g : Group) : (s.setGrpAt k g).cycles = s.cycles := rfl
@[simp] theorem State.setGrpAt_tide (s : State) (k : Nat) (g : Group) : (s.setGrpAt k g).tide = s.tide := rfl
@[simp] theorem State.setGrpAt_mem (s : State) (k : Nat) (g : Group) : (s.setGrpAt k g).mem = s.mem := rfl
@[simp] theorem State.setGrpAt_poison (s : State) (k : Nat) (g : Group) : (s.setGrpAt k g).poison = s.poison := rfl
@[simp] theorem State.setGrpAt_cipher (s : State) (k : Nat) (g : Group) : (s.setGrpAt k g).cipher = s.cipher := rfl
@[simp] theorem State.setGrpAt_blocks (s : State) (k : Nat) (g : Group) : (s.setGrpAt k g).blocks = s.blocks := rfl
@[simp] theorem State.setGrpAt_cores (s : State) (k : Nat) (g : Group) : (s.setGrpAt k g).cores = s.cores := rfl
@[simp] theorem State.setGrpAt_bars (s : State) (k : Nat) (g : Group) : (s.setGrpAt k g).bars = s.bars := rfl
@[simp] theorem State.setGrpAt_launches (s : State) (k : Nat) (g : Group) : (s.setGrpAt k g).launches = s.launches := rfl
@[simp] theorem State.setGrpAt_nextLaunch (s : State) (k : Nat) (g : Group) : (s.setGrpAt k g).nextLaunch = s.nextLaunch := rfl
@[simp] theorem State.setGrpAt_tlb (s : State) (k : Nat) (g : Group) : (s.setGrpAt k g).tlb = s.tlb := rfl
@[simp] theorem State.setGrpAt_l2 (s : State) (k : Nat) (g : Group) : (s.setGrpAt k g).l2 = s.l2 := rfl
@[simp] theorem State.setGrpAt_dirty (s : State) (k : Nat) (g : Group) : (s.setGrpAt k g).dirty = s.dirty := rfl
@[simp] theorem State.setGrpAt_windows (s : State) (k : Nat) (g : Group) : (s.setGrpAt k g).windows = s.windows := rfl
@[simp] theorem State.setGrpAt_parts (s : State) (k : Nat) (g : Group) : (s.setGrpAt k g).parts = s.parts := rfl
@[simp] theorem State.setGrpAt_errors (s : State) (k : Nat) (g : Group) : (s.setGrpAt k g).errors = s.errors := rfl
@[simp] theorem State.setGrpAt_regs (s : State) (k : Nat) (g : Group) : (s.setGrpAt k g).regs = s.regs := rfl
@[simp] theorem State.setGrpAt_vaultMask (s : State) (k : Nat) (g : Group) : (s.setGrpAt k g).vaultMask = s.vaultMask := rfl
@[simp] theorem State.setGrpAt_net (s : State) (k : Nat) (g : Group) : (s.setGrpAt k g).net = s.net := rfl
@[simp] theorem State.setGrpAt_shoots (s : State) (k : Nat) (g : Group) : (s.setGrpAt k g).shoots = s.shoots := rfl
@[simp] theorem State.setGrpAt_absent (s : State) (k : Nat) (g : Group) : (s.setGrpAt k g).absent = s.absent := rfl
@[simp] theorem State.setGrpAt_dead (s : State) (k : Nat) (g : Group) : (s.setGrpAt k g).dead = s.dead := rfl
@[simp] theorem State.setGrpAt_boot (s : State) (k : Nat) (g : Group) : (s.setGrpAt k g).boot = s.boot := rfl
@[simp] theorem State.setGrpAt_sec (s : State) (k : Nat) (g : Group) : (s.setGrpAt k g).sec = s.sec := rfl
@[simp] theorem State.setGrpAt_host (s : State) (k : Nat) (g : Group) : (s.setGrpAt k g).host = s.host := rfl
@[simp] theorem State.setGrpAt_jetties (s : State) (k : Nat) (g : Group) : (s.setGrpAt k g).jetties = s.jetties := rfl
-- setGrp
@[simp] theorem State.setGrp_turn (s : State) (g : Group) : (s.setGrp g).turn = s.turn := rfl
@[simp] theorem State.setGrp_input (s : State) (g : Group) : (s.setGrp g).input = s.input := rfl
@[simp] theorem State.setGrp_cur (s : State) (g : Group) : (s.setGrp g).cur = s.cur := rfl
@[simp] theorem State.setGrp_moves (s : State) (g : Group) : (s.setGrp g).moves = s.moves := rfl
@[simp] theorem State.setGrp_cycles (s : State) (g : Group) : (s.setGrp g).cycles = s.cycles := rfl
@[simp] theorem State.setGrp_tide (s : State) (g : Group) : (s.setGrp g).tide = s.tide := rfl
@[simp] theorem State.setGrp_mem (s : State) (g : Group) : (s.setGrp g).mem = s.mem := rfl
@[simp] theorem State.setGrp_poison (s : State) (g : Group) : (s.setGrp g).poison = s.poison := rfl
@[simp] theorem State.setGrp_cipher (s : State) (g : Group) : (s.setGrp g).cipher = s.cipher := rfl
@[simp] theorem State.setGrp_blocks (s : State) (g : Group) : (s.setGrp g).blocks = s.blocks := rfl
@[simp] theorem State.setGrp_cores (s : State) (g : Group) : (s.setGrp g).cores = s.cores := rfl
@[simp] theorem State.setGrp_bars (s : State) (g : Group) : (s.setGrp g).bars = s.bars := rfl
@[simp] theorem State.setGrp_launches (s : State) (g : Group) : (s.setGrp g).launches = s.launches := rfl
@[simp] theorem State.setGrp_nextLaunch (s : State) (g : Group) : (s.setGrp g).nextLaunch = s.nextLaunch := rfl
@[simp] theorem State.setGrp_tlb (s : State) (g : Group) : (s.setGrp g).tlb = s.tlb := rfl
@[simp] theorem State.setGrp_l2 (s : State) (g : Group) : (s.setGrp g).l2 = s.l2 := rfl
@[simp] theorem State.setGrp_dirty (s : State) (g : Group) : (s.setGrp g).dirty = s.dirty := rfl
@[simp] theorem State.setGrp_windows (s : State) (g : Group) : (s.setGrp g).windows = s.windows := rfl
@[simp] theorem State.setGrp_parts (s : State) (g : Group) : (s.setGrp g).parts = s.parts := rfl
@[simp] theorem State.setGrp_errors (s : State) (g : Group) : (s.setGrp g).errors = s.errors := rfl
@[simp] theorem State.setGrp_regs (s : State) (g : Group) : (s.setGrp g).regs = s.regs := rfl
@[simp] theorem State.setGrp_vaultMask (s : State) (g : Group) : (s.setGrp g).vaultMask = s.vaultMask := rfl
@[simp] theorem State.setGrp_net (s : State) (g : Group) : (s.setGrp g).net = s.net := rfl
@[simp] theorem State.setGrp_shoots (s : State) (g : Group) : (s.setGrp g).shoots = s.shoots := rfl
@[simp] theorem State.setGrp_absent (s : State) (g : Group) : (s.setGrp g).absent = s.absent := rfl
@[simp] theorem State.setGrp_dead (s : State) (g : Group) : (s.setGrp g).dead = s.dead := rfl
@[simp] theorem State.setGrp_boot (s : State) (g : Group) : (s.setGrp g).boot = s.boot := rfl
@[simp] theorem State.setGrp_sec (s : State) (g : Group) : (s.setGrp g).sec = s.sec := rfl
@[simp] theorem State.setGrp_host (s : State) (g : Group) : (s.setGrp g).host = s.host := rfl
@[simp] theorem State.setGrp_jetties (s : State) (g : Group) : (s.setGrp g).jetties = s.jetties := rfl
-- setCoreAt
@[simp] theorem State.setCoreAt_turn (s : State) (k : Nat) (c : Core) : (s.setCoreAt k c).turn = s.turn := rfl
@[simp] theorem State.setCoreAt_input (s : State) (k : Nat) (c : Core) : (s.setCoreAt k c).input = s.input := rfl
@[simp] theorem State.setCoreAt_cur (s : State) (k : Nat) (c : Core) : (s.setCoreAt k c).cur = s.cur := rfl
@[simp] theorem State.setCoreAt_moves (s : State) (k : Nat) (c : Core) : (s.setCoreAt k c).moves = s.moves := rfl
@[simp] theorem State.setCoreAt_cycles (s : State) (k : Nat) (c : Core) : (s.setCoreAt k c).cycles = s.cycles := rfl
@[simp] theorem State.setCoreAt_tide (s : State) (k : Nat) (c : Core) : (s.setCoreAt k c).tide = s.tide := rfl
@[simp] theorem State.setCoreAt_mem (s : State) (k : Nat) (c : Core) : (s.setCoreAt k c).mem = s.mem := rfl
@[simp] theorem State.setCoreAt_poison (s : State) (k : Nat) (c : Core) : (s.setCoreAt k c).poison = s.poison := rfl
@[simp] theorem State.setCoreAt_cipher (s : State) (k : Nat) (c : Core) : (s.setCoreAt k c).cipher = s.cipher := rfl
@[simp] theorem State.setCoreAt_groups (s : State) (k : Nat) (c : Core) : (s.setCoreAt k c).groups = s.groups := rfl
@[simp] theorem State.setCoreAt_blocks (s : State) (k : Nat) (c : Core) : (s.setCoreAt k c).blocks = s.blocks := rfl
@[simp] theorem State.setCoreAt_bars (s : State) (k : Nat) (c : Core) : (s.setCoreAt k c).bars = s.bars := rfl
@[simp] theorem State.setCoreAt_launches (s : State) (k : Nat) (c : Core) : (s.setCoreAt k c).launches = s.launches := rfl
@[simp] theorem State.setCoreAt_nextLaunch (s : State) (k : Nat) (c : Core) : (s.setCoreAt k c).nextLaunch = s.nextLaunch := rfl
@[simp] theorem State.setCoreAt_tlb (s : State) (k : Nat) (c : Core) : (s.setCoreAt k c).tlb = s.tlb := rfl
@[simp] theorem State.setCoreAt_l2 (s : State) (k : Nat) (c : Core) : (s.setCoreAt k c).l2 = s.l2 := rfl
@[simp] theorem State.setCoreAt_dirty (s : State) (k : Nat) (c : Core) : (s.setCoreAt k c).dirty = s.dirty := rfl
@[simp] theorem State.setCoreAt_windows (s : State) (k : Nat) (c : Core) : (s.setCoreAt k c).windows = s.windows := rfl
@[simp] theorem State.setCoreAt_parts (s : State) (k : Nat) (c : Core) : (s.setCoreAt k c).parts = s.parts := rfl
@[simp] theorem State.setCoreAt_errors (s : State) (k : Nat) (c : Core) : (s.setCoreAt k c).errors = s.errors := rfl
@[simp] theorem State.setCoreAt_regs (s : State) (k : Nat) (c : Core) : (s.setCoreAt k c).regs = s.regs := rfl
@[simp] theorem State.setCoreAt_vaultMask (s : State) (k : Nat) (c : Core) : (s.setCoreAt k c).vaultMask = s.vaultMask := rfl
@[simp] theorem State.setCoreAt_net (s : State) (k : Nat) (c : Core) : (s.setCoreAt k c).net = s.net := rfl
@[simp] theorem State.setCoreAt_shoots (s : State) (k : Nat) (c : Core) : (s.setCoreAt k c).shoots = s.shoots := rfl
@[simp] theorem State.setCoreAt_absent (s : State) (k : Nat) (c : Core) : (s.setCoreAt k c).absent = s.absent := rfl
@[simp] theorem State.setCoreAt_dead (s : State) (k : Nat) (c : Core) : (s.setCoreAt k c).dead = s.dead := rfl
@[simp] theorem State.setCoreAt_boot (s : State) (k : Nat) (c : Core) : (s.setCoreAt k c).boot = s.boot := rfl
@[simp] theorem State.setCoreAt_sec (s : State) (k : Nat) (c : Core) : (s.setCoreAt k c).sec = s.sec := rfl
@[simp] theorem State.setCoreAt_host (s : State) (k : Nat) (c : Core) : (s.setCoreAt k c).host = s.host := rfl
@[simp] theorem State.setCoreAt_jetties (s : State) (k : Nat) (c : Core) : (s.setCoreAt k c).jetties = s.jetties := rfl
-- setCore
@[simp] theorem State.setCore_turn (s : State) (c : Core) : (s.setCore c).turn = s.turn := rfl
@[simp] theorem State.setCore_input (s : State) (c : Core) : (s.setCore c).input = s.input := rfl
@[simp] theorem State.setCore_cur (s : State) (c : Core) : (s.setCore c).cur = s.cur := rfl
@[simp] theorem State.setCore_moves (s : State) (c : Core) : (s.setCore c).moves = s.moves := rfl
@[simp] theorem State.setCore_cycles (s : State) (c : Core) : (s.setCore c).cycles = s.cycles := rfl
@[simp] theorem State.setCore_tide (s : State) (c : Core) : (s.setCore c).tide = s.tide := rfl
@[simp] theorem State.setCore_mem (s : State) (c : Core) : (s.setCore c).mem = s.mem := rfl
@[simp] theorem State.setCore_poison (s : State) (c : Core) : (s.setCore c).poison = s.poison := rfl
@[simp] theorem State.setCore_cipher (s : State) (c : Core) : (s.setCore c).cipher = s.cipher := rfl
@[simp] theorem State.setCore_groups (s : State) (c : Core) : (s.setCore c).groups = s.groups := rfl
@[simp] theorem State.setCore_blocks (s : State) (c : Core) : (s.setCore c).blocks = s.blocks := rfl
@[simp] theorem State.setCore_bars (s : State) (c : Core) : (s.setCore c).bars = s.bars := rfl
@[simp] theorem State.setCore_launches (s : State) (c : Core) : (s.setCore c).launches = s.launches := rfl
@[simp] theorem State.setCore_nextLaunch (s : State) (c : Core) : (s.setCore c).nextLaunch = s.nextLaunch := rfl
@[simp] theorem State.setCore_tlb (s : State) (c : Core) : (s.setCore c).tlb = s.tlb := rfl
@[simp] theorem State.setCore_l2 (s : State) (c : Core) : (s.setCore c).l2 = s.l2 := rfl
@[simp] theorem State.setCore_dirty (s : State) (c : Core) : (s.setCore c).dirty = s.dirty := rfl
@[simp] theorem State.setCore_windows (s : State) (c : Core) : (s.setCore c).windows = s.windows := rfl
@[simp] theorem State.setCore_parts (s : State) (c : Core) : (s.setCore c).parts = s.parts := rfl
@[simp] theorem State.setCore_errors (s : State) (c : Core) : (s.setCore c).errors = s.errors := rfl
@[simp] theorem State.setCore_regs (s : State) (c : Core) : (s.setCore c).regs = s.regs := rfl
@[simp] theorem State.setCore_vaultMask (s : State) (c : Core) : (s.setCore c).vaultMask = s.vaultMask := rfl
@[simp] theorem State.setCore_net (s : State) (c : Core) : (s.setCore c).net = s.net := rfl
@[simp] theorem State.setCore_shoots (s : State) (c : Core) : (s.setCore c).shoots = s.shoots := rfl
@[simp] theorem State.setCore_absent (s : State) (c : Core) : (s.setCore c).absent = s.absent := rfl
@[simp] theorem State.setCore_dead (s : State) (c : Core) : (s.setCore c).dead = s.dead := rfl
@[simp] theorem State.setCore_boot (s : State) (c : Core) : (s.setCore c).boot = s.boot := rfl
@[simp] theorem State.setCore_sec (s : State) (c : Core) : (s.setCore c).sec = s.sec := rfl
@[simp] theorem State.setCore_host (s : State) (c : Core) : (s.setCore c).host = s.host := rfl
@[simp] theorem State.setCore_jetties (s : State) (c : Core) : (s.setCore c).jetties = s.jetties := rfl
-- setBlkAt
@[simp] theorem State.setBlkAt_turn (s : State) (k : Nat) (b : Block) : (s.setBlkAt k b).turn = s.turn := rfl
@[simp] theorem State.setBlkAt_input (s : State) (k : Nat) (b : Block) : (s.setBlkAt k b).input = s.input := rfl
@[simp] theorem State.setBlkAt_cur (s : State) (k : Nat) (b : Block) : (s.setBlkAt k b).cur = s.cur := rfl
@[simp] theorem State.setBlkAt_moves (s : State) (k : Nat) (b : Block) : (s.setBlkAt k b).moves = s.moves := rfl
@[simp] theorem State.setBlkAt_cycles (s : State) (k : Nat) (b : Block) : (s.setBlkAt k b).cycles = s.cycles := rfl
@[simp] theorem State.setBlkAt_tide (s : State) (k : Nat) (b : Block) : (s.setBlkAt k b).tide = s.tide := rfl
@[simp] theorem State.setBlkAt_mem (s : State) (k : Nat) (b : Block) : (s.setBlkAt k b).mem = s.mem := rfl
@[simp] theorem State.setBlkAt_poison (s : State) (k : Nat) (b : Block) : (s.setBlkAt k b).poison = s.poison := rfl
@[simp] theorem State.setBlkAt_cipher (s : State) (k : Nat) (b : Block) : (s.setBlkAt k b).cipher = s.cipher := rfl
@[simp] theorem State.setBlkAt_groups (s : State) (k : Nat) (b : Block) : (s.setBlkAt k b).groups = s.groups := rfl
@[simp] theorem State.setBlkAt_cores (s : State) (k : Nat) (b : Block) : (s.setBlkAt k b).cores = s.cores := rfl
@[simp] theorem State.setBlkAt_bars (s : State) (k : Nat) (b : Block) : (s.setBlkAt k b).bars = s.bars := rfl
@[simp] theorem State.setBlkAt_launches (s : State) (k : Nat) (b : Block) : (s.setBlkAt k b).launches = s.launches := rfl
@[simp] theorem State.setBlkAt_nextLaunch (s : State) (k : Nat) (b : Block) : (s.setBlkAt k b).nextLaunch = s.nextLaunch := rfl
@[simp] theorem State.setBlkAt_tlb (s : State) (k : Nat) (b : Block) : (s.setBlkAt k b).tlb = s.tlb := rfl
@[simp] theorem State.setBlkAt_l2 (s : State) (k : Nat) (b : Block) : (s.setBlkAt k b).l2 = s.l2 := rfl
@[simp] theorem State.setBlkAt_dirty (s : State) (k : Nat) (b : Block) : (s.setBlkAt k b).dirty = s.dirty := rfl
@[simp] theorem State.setBlkAt_windows (s : State) (k : Nat) (b : Block) : (s.setBlkAt k b).windows = s.windows := rfl
@[simp] theorem State.setBlkAt_parts (s : State) (k : Nat) (b : Block) : (s.setBlkAt k b).parts = s.parts := rfl
@[simp] theorem State.setBlkAt_errors (s : State) (k : Nat) (b : Block) : (s.setBlkAt k b).errors = s.errors := rfl
@[simp] theorem State.setBlkAt_regs (s : State) (k : Nat) (b : Block) : (s.setBlkAt k b).regs = s.regs := rfl
@[simp] theorem State.setBlkAt_vaultMask (s : State) (k : Nat) (b : Block) : (s.setBlkAt k b).vaultMask = s.vaultMask := rfl
@[simp] theorem State.setBlkAt_net (s : State) (k : Nat) (b : Block) : (s.setBlkAt k b).net = s.net := rfl
@[simp] theorem State.setBlkAt_shoots (s : State) (k : Nat) (b : Block) : (s.setBlkAt k b).shoots = s.shoots := rfl
@[simp] theorem State.setBlkAt_absent (s : State) (k : Nat) (b : Block) : (s.setBlkAt k b).absent = s.absent := rfl
@[simp] theorem State.setBlkAt_dead (s : State) (k : Nat) (b : Block) : (s.setBlkAt k b).dead = s.dead := rfl
@[simp] theorem State.setBlkAt_boot (s : State) (k : Nat) (b : Block) : (s.setBlkAt k b).boot = s.boot := rfl
@[simp] theorem State.setBlkAt_sec (s : State) (k : Nat) (b : Block) : (s.setBlkAt k b).sec = s.sec := rfl
@[simp] theorem State.setBlkAt_host (s : State) (k : Nat) (b : Block) : (s.setBlkAt k b).host = s.host := rfl
@[simp] theorem State.setBlkAt_jetties (s : State) (k : Nat) (b : Block) : (s.setBlkAt k b).jetties = s.jetties := rfl
-- setBlk
@[simp] theorem State.setBlk_turn (s : State) (b : Block) : (s.setBlk b).turn = s.turn := rfl
@[simp] theorem State.setBlk_input (s : State) (b : Block) : (s.setBlk b).input = s.input := rfl
@[simp] theorem State.setBlk_cur (s : State) (b : Block) : (s.setBlk b).cur = s.cur := rfl
@[simp] theorem State.setBlk_moves (s : State) (b : Block) : (s.setBlk b).moves = s.moves := rfl
@[simp] theorem State.setBlk_cycles (s : State) (b : Block) : (s.setBlk b).cycles = s.cycles := rfl
@[simp] theorem State.setBlk_tide (s : State) (b : Block) : (s.setBlk b).tide = s.tide := rfl
@[simp] theorem State.setBlk_mem (s : State) (b : Block) : (s.setBlk b).mem = s.mem := rfl
@[simp] theorem State.setBlk_poison (s : State) (b : Block) : (s.setBlk b).poison = s.poison := rfl
@[simp] theorem State.setBlk_cipher (s : State) (b : Block) : (s.setBlk b).cipher = s.cipher := rfl
@[simp] theorem State.setBlk_groups (s : State) (b : Block) : (s.setBlk b).groups = s.groups := rfl
@[simp] theorem State.setBlk_cores (s : State) (b : Block) : (s.setBlk b).cores = s.cores := rfl
@[simp] theorem State.setBlk_bars (s : State) (b : Block) : (s.setBlk b).bars = s.bars := rfl
@[simp] theorem State.setBlk_launches (s : State) (b : Block) : (s.setBlk b).launches = s.launches := rfl
@[simp] theorem State.setBlk_nextLaunch (s : State) (b : Block) : (s.setBlk b).nextLaunch = s.nextLaunch := rfl
@[simp] theorem State.setBlk_tlb (s : State) (b : Block) : (s.setBlk b).tlb = s.tlb := rfl
@[simp] theorem State.setBlk_l2 (s : State) (b : Block) : (s.setBlk b).l2 = s.l2 := rfl
@[simp] theorem State.setBlk_dirty (s : State) (b : Block) : (s.setBlk b).dirty = s.dirty := rfl
@[simp] theorem State.setBlk_windows (s : State) (b : Block) : (s.setBlk b).windows = s.windows := rfl
@[simp] theorem State.setBlk_parts (s : State) (b : Block) : (s.setBlk b).parts = s.parts := rfl
@[simp] theorem State.setBlk_errors (s : State) (b : Block) : (s.setBlk b).errors = s.errors := rfl
@[simp] theorem State.setBlk_regs (s : State) (b : Block) : (s.setBlk b).regs = s.regs := rfl
@[simp] theorem State.setBlk_vaultMask (s : State) (b : Block) : (s.setBlk b).vaultMask = s.vaultMask := rfl
@[simp] theorem State.setBlk_net (s : State) (b : Block) : (s.setBlk b).net = s.net := rfl
@[simp] theorem State.setBlk_shoots (s : State) (b : Block) : (s.setBlk b).shoots = s.shoots := rfl
@[simp] theorem State.setBlk_absent (s : State) (b : Block) : (s.setBlk b).absent = s.absent := rfl
@[simp] theorem State.setBlk_dead (s : State) (b : Block) : (s.setBlk b).dead = s.dead := rfl
@[simp] theorem State.setBlk_boot (s : State) (b : Block) : (s.setBlk b).boot = s.boot := rfl
@[simp] theorem State.setBlk_sec (s : State) (b : Block) : (s.setBlk b).sec = s.sec := rfl
@[simp] theorem State.setBlk_host (s : State) (b : Block) : (s.setBlk b).host = s.host := rfl
@[simp] theorem State.setBlk_jetties (s : State) (b : Block) : (s.setBlk b).jetties = s.jetties := rfl
-- setPart
@[simp] theorem State.setPart_turn (s : State) (p : Nat) (v : Part) : (s.setPart p v).turn = s.turn := rfl
@[simp] theorem State.setPart_input (s : State) (p : Nat) (v : Part) : (s.setPart p v).input = s.input := rfl
@[simp] theorem State.setPart_cur (s : State) (p : Nat) (v : Part) : (s.setPart p v).cur = s.cur := rfl
@[simp] theorem State.setPart_moves (s : State) (p : Nat) (v : Part) : (s.setPart p v).moves = s.moves := rfl
@[simp] theorem State.setPart_cycles (s : State) (p : Nat) (v : Part) : (s.setPart p v).cycles = s.cycles := rfl
@[simp] theorem State.setPart_tide (s : State) (p : Nat) (v : Part) : (s.setPart p v).tide = s.tide := rfl
@[simp] theorem State.setPart_mem (s : State) (p : Nat) (v : Part) : (s.setPart p v).mem = s.mem := rfl
@[simp] theorem State.setPart_poison (s : State) (p : Nat) (v : Part) : (s.setPart p v).poison = s.poison := rfl
@[simp] theorem State.setPart_cipher (s : State) (p : Nat) (v : Part) : (s.setPart p v).cipher = s.cipher := rfl
@[simp] theorem State.setPart_groups (s : State) (p : Nat) (v : Part) : (s.setPart p v).groups = s.groups := rfl
@[simp] theorem State.setPart_blocks (s : State) (p : Nat) (v : Part) : (s.setPart p v).blocks = s.blocks := rfl
@[simp] theorem State.setPart_cores (s : State) (p : Nat) (v : Part) : (s.setPart p v).cores = s.cores := rfl
@[simp] theorem State.setPart_bars (s : State) (p : Nat) (v : Part) : (s.setPart p v).bars = s.bars := rfl
@[simp] theorem State.setPart_launches (s : State) (p : Nat) (v : Part) : (s.setPart p v).launches = s.launches := rfl
@[simp] theorem State.setPart_nextLaunch (s : State) (p : Nat) (v : Part) : (s.setPart p v).nextLaunch = s.nextLaunch := rfl
@[simp] theorem State.setPart_tlb (s : State) (p : Nat) (v : Part) : (s.setPart p v).tlb = s.tlb := rfl
@[simp] theorem State.setPart_l2 (s : State) (p : Nat) (v : Part) : (s.setPart p v).l2 = s.l2 := rfl
@[simp] theorem State.setPart_dirty (s : State) (p : Nat) (v : Part) : (s.setPart p v).dirty = s.dirty := rfl
@[simp] theorem State.setPart_windows (s : State) (p : Nat) (v : Part) : (s.setPart p v).windows = s.windows := rfl
@[simp] theorem State.setPart_errors (s : State) (p : Nat) (v : Part) : (s.setPart p v).errors = s.errors := rfl
@[simp] theorem State.setPart_regs (s : State) (p : Nat) (v : Part) : (s.setPart p v).regs = s.regs := rfl
@[simp] theorem State.setPart_vaultMask (s : State) (p : Nat) (v : Part) : (s.setPart p v).vaultMask = s.vaultMask := rfl
@[simp] theorem State.setPart_net (s : State) (p : Nat) (v : Part) : (s.setPart p v).net = s.net := rfl
@[simp] theorem State.setPart_shoots (s : State) (p : Nat) (v : Part) : (s.setPart p v).shoots = s.shoots := rfl
@[simp] theorem State.setPart_absent (s : State) (p : Nat) (v : Part) : (s.setPart p v).absent = s.absent := rfl
@[simp] theorem State.setPart_dead (s : State) (p : Nat) (v : Part) : (s.setPart p v).dead = s.dead := rfl
@[simp] theorem State.setPart_boot (s : State) (p : Nat) (v : Part) : (s.setPart p v).boot = s.boot := rfl
@[simp] theorem State.setPart_sec (s : State) (p : Nat) (v : Part) : (s.setPart p v).sec = s.sec := rfl
@[simp] theorem State.setPart_host (s : State) (p : Nat) (v : Part) : (s.setPart p v).host = s.host := rfl
@[simp] theorem State.setPart_jetties (s : State) (p : Nat) (v : Part) : (s.setPart p v).jetties = s.jetties := rfl
-- focus
@[simp] theorem State.focus_turn (s : State) (k : Nat) : (s.focus k).turn = s.turn := rfl
@[simp] theorem State.focus_input (s : State) (k : Nat) : (s.focus k).input = s.input := rfl
@[simp] theorem State.focus_moves (s : State) (k : Nat) : (s.focus k).moves = s.moves := rfl
@[simp] theorem State.focus_cycles (s : State) (k : Nat) : (s.focus k).cycles = s.cycles := rfl
@[simp] theorem State.focus_tide (s : State) (k : Nat) : (s.focus k).tide = s.tide := rfl
@[simp] theorem State.focus_mem (s : State) (k : Nat) : (s.focus k).mem = s.mem := rfl
@[simp] theorem State.focus_poison (s : State) (k : Nat) : (s.focus k).poison = s.poison := rfl
@[simp] theorem State.focus_cipher (s : State) (k : Nat) : (s.focus k).cipher = s.cipher := rfl
@[simp] theorem State.focus_groups (s : State) (k : Nat) : (s.focus k).groups = s.groups := rfl
@[simp] theorem State.focus_blocks (s : State) (k : Nat) : (s.focus k).blocks = s.blocks := rfl
@[simp] theorem State.focus_cores (s : State) (k : Nat) : (s.focus k).cores = s.cores := rfl
@[simp] theorem State.focus_bars (s : State) (k : Nat) : (s.focus k).bars = s.bars := rfl
@[simp] theorem State.focus_launches (s : State) (k : Nat) : (s.focus k).launches = s.launches := rfl
@[simp] theorem State.focus_nextLaunch (s : State) (k : Nat) : (s.focus k).nextLaunch = s.nextLaunch := rfl
@[simp] theorem State.focus_tlb (s : State) (k : Nat) : (s.focus k).tlb = s.tlb := rfl
@[simp] theorem State.focus_l2 (s : State) (k : Nat) : (s.focus k).l2 = s.l2 := rfl
@[simp] theorem State.focus_dirty (s : State) (k : Nat) : (s.focus k).dirty = s.dirty := rfl
@[simp] theorem State.focus_windows (s : State) (k : Nat) : (s.focus k).windows = s.windows := rfl
@[simp] theorem State.focus_parts (s : State) (k : Nat) : (s.focus k).parts = s.parts := rfl
@[simp] theorem State.focus_errors (s : State) (k : Nat) : (s.focus k).errors = s.errors := rfl
@[simp] theorem State.focus_regs (s : State) (k : Nat) : (s.focus k).regs = s.regs := rfl
@[simp] theorem State.focus_vaultMask (s : State) (k : Nat) : (s.focus k).vaultMask = s.vaultMask := rfl
@[simp] theorem State.focus_net (s : State) (k : Nat) : (s.focus k).net = s.net := rfl
@[simp] theorem State.focus_shoots (s : State) (k : Nat) : (s.focus k).shoots = s.shoots := rfl
@[simp] theorem State.focus_absent (s : State) (k : Nat) : (s.focus k).absent = s.absent := rfl
@[simp] theorem State.focus_dead (s : State) (k : Nat) : (s.focus k).dead = s.dead := rfl
@[simp] theorem State.focus_boot (s : State) (k : Nat) : (s.focus k).boot = s.boot := rfl
@[simp] theorem State.focus_sec (s : State) (k : Nat) : (s.focus k).sec = s.sec := rfl
@[simp] theorem State.focus_host (s : State) (k : Nat) : (s.focus k).host = s.host := rfl
@[simp] theorem State.focus_jetties (s : State) (k : Nat) : (s.focus k).jetties = s.jetties := rfl

-- Reading records back.

@[simp] theorem State.grpAt_setGrpAt (s : State) (k j : Nat) (g : Group) :
    (s.setGrpAt k g).grpAt j = if k = j then g else s.grpAt j := by
  unfold State.grpAt State.setGrpAt; rw [Map.get_set]
@[simp] theorem State.coreAt_setCoreAt (s : State) (k j : Nat) (c : Core) :
    (s.setCoreAt k c).coreAt j = if k = j then c else s.coreAt j := by
  unfold State.coreAt State.setCoreAt; rw [Map.get_set]
@[simp] theorem State.blkAt_setBlkAt (s : State) (k j : Nat) (b : Block) :
    (s.setBlkAt k b).blkAt j = if k = j then b else s.blkAt j := by
  unfold State.blkAt State.setBlkAt; rw [Map.get_set]
@[simp] theorem State.part_setPart (s : State) (k j : Nat) (v : Part) :
    (s.setPart k v).part j = if k = j then v else s.part j := by
  unfold State.part State.setPart; rw [Map.get_set]
@[simp] theorem State.grp_setGrp (s : State) (g : Group) : (s.setGrp g).grp = g := by
  simp [State.grp, State.setGrp]
theorem State.grpAt_setGrp (s : State) (g : Group) (j : Nat) :
    (s.setGrp g).grpAt j = if s.cur = j then g else s.grpAt j := by
  unfold State.setGrp; rw [State.grpAt_setGrpAt]
@[simp] theorem State.core_setCore (s : State) (c : Core) : (s.setCore c).core = c := by
  simp [State.core, State.setCore, State.coreNo]
@[simp] theorem State.grp_setCoreAt (s : State) (k : Nat) (c : Core) : (s.setCoreAt k c).grp = s.grp := rfl
@[simp] theorem State.grp_setCore (s : State) (c : Core) : (s.setCore c).grp = s.grp := rfl
@[simp] theorem State.grp_setBlkAt (s : State) (k : Nat) (b : Block) : (s.setBlkAt k b).grp = s.grp := rfl
@[simp] theorem State.grp_setPart (s : State) (k : Nat) (v : Part) : (s.setPart k v).grp = s.grp := rfl
@[simp] theorem State.grpAt_setCoreAt (s : State) (k j : Nat) (c : Core) : (s.setCoreAt k c).grpAt j = s.grpAt j := rfl
@[simp] theorem State.grpAt_setBlkAt (s : State) (k j : Nat) (b : Block) : (s.setBlkAt k b).grpAt j = s.grpAt j := rfl
@[simp] theorem State.coreAt_setGrpAt (s : State) (k j : Nat) (g : Group) : (s.setGrpAt k g).coreAt j = s.coreAt j := rfl
@[simp] theorem State.coreAt_setGrp (s : State) (g : Group) (j : Nat) : (s.setGrp g).coreAt j = s.coreAt j := rfl
@[simp] theorem State.blkAt_setGrpAt (s : State) (k j : Nat) (g : Group) : (s.setGrpAt k g).blkAt j = s.blkAt j := rfl
@[simp] theorem State.blkAt_setGrp (s : State) (g : Group) (j : Nat) : (s.setGrp g).blkAt j = s.blkAt j := rfl
@[simp] theorem State.part_setGrp (s : State) (g : Group) (p : Nat) : (s.setGrp g).part p = s.part p := rfl
@[simp] theorem State.reg_setGrp (s : State) (g : Group) (o : Nat) : (s.setGrp g).reg o = s.reg o := rfl
@[simp] theorem State.coreNo_setGrp (s : State) (g : Group) : (s.setGrp g).coreNo = s.coreNo := rfl
theorem State.setGrp_setGrp (s : State) (g h : Group) : (s.setGrp g).setGrp h = s.setGrp h := by
  simp [State.setGrp, State.setGrpAt, Map.set_set]

-- Hart registers.

/-- x0 reads as zero after any write (02 R34). -/
theorem Group.xr_setX (g : Group) (r q : XReg) (v : W64) :
    (g.setX r v).xr q = if r = q ∧ r ≠ 0 then v else g.xr q := by
  unfold Group.xr Group.setX
  by_cases hr : r = 0#5
  · simp [hr]
  · by_cases hq : q = 0#5
    · subst hq; simp [hr]
    · have : r.toNat = q.toNat ↔ r = q := ⟨BitVec.eq_of_toNat_eq, fun h => h ▸ rfl⟩
      simp [hr, hq, Map.get_set, this]

/-- A register write changes no field but the registers. -/
theorem Group.setX_eq (g : Group) (r : XReg) (v : W64) : g.setX r v = { g with x := (g.setX r v).x } := by
  unfold Group.setX; split <;> rfl

end Sys2Proof.Machine
end

