-- ==== Sys2Proof/Laws/Lane.lean ====
section
/-! SUPPORT. What the shared course of a lane instruction and its writes can do. -/
namespace Sys2Proof.Machine

/-- A lane instruction that starts, and whose value checks pass, takes its effect. -/
theorem laneRun_ready {s : State} {o : LaneForm} {check : List LaneVec → Check}
    {eff : List LaneVec → LaneMask → State → State} (h : o.starts s) (hc : check (s.grp.vectors o.srcs) = .pass) :
    laneRun s o check eff = .next (eff (s.grp.vectors o.srcs) s.grp.active (o.commit s)) := by
  obtain ⟨h1, h2, h3⟩ := h
  simp [laneRun, h1, h2, h3, hc]

theorem State.commit_eq (s : State) (o : LaneForm) : o.commit s = s.setGrp (s.grp.advanced o) := rfl

-- Registers of a window.

theorem Group.reg_setReg (g : Group) (p q i : Nat) (act : LaneMask) (f : Nat → W32) (hi : i < 64) :
    (g.setReg p act f).reg q i = if p = q ∧ act.getLsbD i = true then f i else g.reg q i := by
  unfold Group.setReg Group.reg
  simp only [Map.get_set]
  by_cases hp : p = q
  · subst hp
    simp [lanes, laneIds, hi]
  · simp [hp]

theorem Group.reg_setReg_other (g : Group) {p q : Nat} (i : Nat) (act : LaneMask) (f : Nat → W32) (h : p ≠ q) :
    (g.setReg p act f).reg q i = g.reg q i := by
  unfold Group.setReg Group.reg
  simp [Map.get_set, h]

/-- A write of a window operand changes no field but the registers. -/
theorem Group.setWindow_eq (g : Group) (wide : Bool) (n : Nat) (act : LaneMask) (f : Nat → W64) :
    g.setWindow wide n act f = { g with win := (g.setWindow wide n act f).win } := by
  unfold Group.setWindow Group.setReg; cases wide <;> rfl

theorem pair_halves (v : W64) : ((v >>> 32).setWidth 32 : W32) ++ (v.setWidth 32 : W32) = v := by
  apply BitVec.eq_of_getLsbD_eq
  intro j hj
  rw [BitVec.getLsbD_append]
  by_cases h : j < 32
  · simp [h]
  · simp [h, show 32 + (j - 32) = j by omega]
    omega

theorem Group.window_setWindow (g : Group) (wide : Bool) (n i : Nat) (act : LaneMask) (f : Nat → W64) (hi : i < 64) :
    (g.setWindow wide n act f).window wide n i =
      if act.getLsbD i then heldValue wide (f i) else g.window wide n i := by
  have hw : (g.setWindow wide n act f).wbase = g.wbase := by rw [Group.setWindow_eq]
  unfold Group.window
  rw [hw]
  cases wide
  · simp only [Group.setWindow, Bool.false_eq_true, if_false, heldValue]
    rw [Group.reg_setReg _ _ _ _ _ _ hi]
    simp only [true_and]
    split <;> rfl
  · simp only [Group.setWindow, if_true, heldValue]
    rw [Group.reg_setReg _ _ _ _ _ _ hi, Group.reg_setReg _ _ _ _ _ _ hi, Group.reg_setReg _ _ _ _ _ _ hi,
      Group.reg_setReg _ _ _ _ _ _ hi]
    by_cases ha : act.getLsbD i = true
    · simp only [ha, and_true, if_true]
      rw [if_neg (by omega)]
      exact pair_halves (f i)
    · simp [ha]

theorem Group.reg_setWindow_other (g : Group) (wide : Bool) (n p i : Nat) (act : LaneMask) (f : Nat → W64)
    (h : ¬(p = g.wbase + n ∨ (wide = true ∧ p = g.wbase + n + 1))) :
    (g.setWindow wide n act f).reg p i = g.reg p i := by
  rw [not_or] at h
  obtain ⟨h1, h2⟩ := h
  cases wide
  · simp only [Group.setWindow, Bool.false_eq_true, if_false]
    exact Group.reg_setReg_other g i act _ (Ne.symm h1)
  · simp only [Group.setWindow, if_true]
    rw [Group.reg_setReg_other _ i act _ (Ne.symm fun h => h2 ⟨rfl, h⟩), Group.reg_setReg_other g i act _ (Ne.symm h1)]

-- Tables tied to a source.

/-- An invalidation changes tracking entries and the valid flags of tables, and nothing else. -/
theorem State.invalidate_spec (s : State) (core : Nat) (hit : Track → Bool) :
    s.invalidate core hit = { s with cores := (s.invalidate core hit).cores, blocks := (s.invalidate core hit).blocks }
    ∧ (∀ c, (s.invalidate core hit).coreAt c = { s.coreAt c with tracks := ((s.invalidate core hit).coreAt c).tracks })
    ∧ (∀ b, (s.invalidate core hit).blkAt b = { s.blkAt b with tables := ((s.invalidate core hit).blkAt b).tables })
    ∧ ∀ b n, TableKept (Map.get {} (s.blkAt b).tables n) (Map.get {} ((s.invalidate core hit).blkAt b).tables n) := by
  unfold State.invalidate
  simp only
  split
  · exact ⟨rfl, fun _ => rfl, fun _ => rfl, fun _ _ => .inl rfl⟩
  · generalize (((s.coreAt core).tracks.filter fun t => t.2.live && hit t.2).map fun t => t.1) = tags
    refine ⟨rfl, fun c => ?_, fun b => ?_, fun b n => ?_⟩
    · show ((s.setCoreAt core _).coreAt c) = _
      rw [State.coreAt_setCoreAt]
      split
      · rename_i h; subst h; simp [State.coreAt, State.setCoreAt]
      · rename_i h; simp [State.coreAt, State.setCoreAt, Map.get_set, h]
    · unfold State.blkAt
      simp only [State.setCoreAt_blocks]
      rw [Map.get_map ({} : Block) ({} : Block) (fun j (w : Block) => if j / 16 == core then { w with
        tables := w.tables.map fun t => (t.1, if t.2.valid && tags.contains t.2.tag then { t.2 with valid := false } else t.2) } else w)]
      · split <;> rfl
      · intro j; split <;> rfl
    · unfold State.blkAt
      simp only [State.setCoreAt_blocks]
      rw [Map.get_map ({} : Block) ({} : Block) (fun j (w : Block) => if j / 16 == core then { w with
        tables := w.tables.map fun t => (t.1, if t.2.valid && tags.contains t.2.tag then { t.2 with valid := false } else t.2) } else w)]
      · split
        · simp only
          rw [Map.get_map ({} : Table) ({} : Table) (fun _ (t : Table) => if t.valid && tags.contains t.tag then { t with valid := false } else t)]
          · split
            · exact .inr rfl
            · exact .inl rfl
          · intro j; rfl
        · exact .inl rfl
      · intro j; split <;> rfl

theorem OnlyGroup.refl (s : State) : OnlyGroup s s := ⟨rfl, fun _ _ => rfl, fun _ => rfl⟩

theorem OnlyGroup.setGrp (s : State) (g : Group) : OnlyGroup s (s.setGrp g) :=
  ⟨rfl, fun k hk => by rw [State.grpAt_setGrp, if_neg (Ne.symm hk)], fun _ => rfl⟩

theorem OnlyGroup.tables {s t : State} (h : OnlyGroup s t) : OnlyGroupAndTables s t := by
  obtain ⟨h1, h2, h3⟩ := h
  have hc : t.cores = s.cores := by rw [h1]
  have hb : t.blocks = s.blocks := by rw [h1]
  refine ⟨by rw [h1], h2, fun c => ?_, fun b => ?_, fun b n => .inl ?_, h3⟩
  · unfold State.coreAt; rw [hc]
  · unfold State.blkAt; rw [hb]
  · unfold State.blkAt; rw [hb]

/-- The write of a destination after the commit of a lane instruction. -/
theorem State.writeDest_spec (s : State) (o : LaneForm) (wide : Bool) (d : Code) (act : LaneMask) (v : Nat → W64) :
    LaneWrites s o wide d act v ((o.commit s).writeDest wide d act v) := by
  have hadv : (s.grp.advanced o).win = s.grp.win ∧ (s.grp.advanced o).wbase = s.grp.wbase
      ∧ (s.grp.advanced o).stq = s.grp.stq := by
    unfold Group.advanced Group.laneNext Group.pop
    simp only
    split <;> exact ⟨rfl, rfl, rfl⟩
  obtain ⟨hwin, hwb, hstq⟩ := hadv
  have hreg : ∀ p i, (s.grp.advanced o).reg p i = s.grp.reg p i := fun p i => by unfold Group.reg; rw [hwin]
  rw [State.commit_eq]
  unfold State.writeDest
  simp only [State.grp_setGrp]
  by_cases hd : d.toNat < 112
  · rw [if_pos hd]
    have hne : d.toNat ≠ 116 := by omega
    by_cases hact : act = 0#64
    · rw [if_pos (by simp [hact])]
      subst hact
      refine ⟨(OnlyGroup.setGrp s _).tables, ?_, ?_, ?_, ?_⟩
      · rw [State.grp_setGrp]
      · intro _ i _
        simp [Group.window, hreg, hwb]
      · intro p i _
        simp [hreg]
      · simp [hne, hstq]
    · rw [if_neg (by simp [hact]), State.setGrp_setGrp]
      generalize hw : (s.grp.advanced o).setWindow wide d.toNat act v = g'
      have hg' := Group.setWindow_eq (s.grp.advanced o) wide d.toNat act v
      rw [hw] at hg'
      unfold State.touchRegs
      generalize hu : s.setGrp g' = u
      have hug : u.grp = g' := by rw [← hu, State.grp_setGrp]
      obtain ⟨i1, i2, i3, i4⟩ := State.invalidate_spec u u.coreNo fun t => !t.scratch && t.owner == u.cur % 16
        && t.lo ≤ (s.grp.advanced o).wbase + d.toNat + (if wide then 1 else 0) && (s.grp.advanced o).wbase + d.toNat ≤ t.hi
      revert i1 i2 i3 i4
      generalize hx : u.invalidate _ _ = x
      intro i1 i2 i3 i4
      have hxg : ∀ k, x.grpAt k = u.grpAt k := fun k => by rw [i1]; rfl
      have hxgrp : x.grp = g' := by
        have : x.grp = u.grp := by rw [i1]; rfl
        rw [this, hug]
      have hcores : ∀ c, u.coreAt c = s.coreAt c := fun c => by rw [← hu]; rfl
      have hblks : ∀ c, u.blkAt c = s.blkAt c := fun c => by rw [← hu]; rfl
      refine ⟨⟨?_, ?_, ?_, ?_, ?_, ?_⟩, ?_, ?_, ?_, ?_⟩
      · rw [i1, ← hu]; rfl
      · intro k hk
        rw [hxg, ← hu, State.grpAt_setGrp, if_neg (Ne.symm hk)]
      · intro c; rw [i2 c, hcores]
      · intro b; rw [i3 b, hblks]
      · intro b n; rw [← hblks]; exact i4 b n
      · intro a
        have : x.mem = s.mem := by rw [i1, ← hu]; rfl
        rw [this]
      · rw [hxgrp, hg']
      · intro _ i hi
        rw [hxgrp, ← hw, Group.window_setWindow _ _ _ _ _ _ hi]
        unfold Group.window
        simp [hreg, hwb]
      · intro p i hp
        rw [hxgrp, ← hw, Group.reg_setWindow_other, hreg]
        intro hc
        rw [hwb] at hc
        exact hp ⟨hd, hc⟩
      · rw [hxgrp, hg']
        simp [hne, hstq]
  · rw [if_neg hd]
    by_cases hq : d.toNat = 116
    · simp only [hq, beq_self_eq_true, if_true, State.setGrp_setGrp]
      refine ⟨(OnlyGroup.setGrp s _).tables, ?_, ?_, ?_, ?_⟩
      · rw [State.grp_setGrp]
      · intro h; omega
      · intro p i _
        rw [State.grp_setGrp]; exact hreg p i
      · rw [State.grp_setGrp, if_pos hq, hstq]
    · rw [if_neg (by simpa using hq)]
      refine ⟨(OnlyGroup.setGrp s _).tables, ?_, ?_, ?_, ?_⟩
      · rw [State.grp_setGrp]
      · intro h; omega
      · intro p i _
        rw [State.grp_setGrp]; exact hreg p i
      · rw [State.grp_setGrp, if_neg hq, hstq]

/-- A lane instruction whose effect is one write of its destination. -/
theorem laneRun_writes {s : State} {o : LaneForm} {check : List LaneVec → Check} {wide : Bool} {d : Code}
    {v : List LaneVec → Nat → W64} (h : o.starts s) (hc : check (s.grp.vectors o.srcs) = .pass) :
    ∃ t, laneRun s o check (fun vs act u => u.writeDest wide d act (v vs)) = .next t
      ∧ LaneWrites s o wide d s.grp.active (v (s.grp.vectors o.srcs)) t :=
  ⟨_, laneRun_ready h hc, State.writeDest_spec s o wide d _ _⟩

/-- Only what a lane holds of a result matters. -/
theorem LaneWrites.congr {s t : State} {o : LaneForm} {wide : Bool} {d : Code} {act : LaneMask} {v w : Nat → W64}
    (h : LaneWrites s o wide d act v t) (hvw : ∀ i, heldValue wide (v i) = heldValue wide (w i)) :
    LaneWrites s o wide d act w t := by
  obtain ⟨h1, h2, h3, h4, h5⟩ := h
  have hlow : ∀ i, (v i).setWidth 32 = (w i).setWidth 32 := fun i => by
    have := hvw i
    cases wide
    · simp only [heldValue, Bool.false_eq_true, if_false] at this
      have := congrArg (BitVec.setWidth 32) this
      simpa using this
    · simp only [heldValue, if_true] at this
      rw [this]
  refine ⟨h1, h2, fun hd i hi => ?_, h4, ?_⟩
  · rw [h3 hd i hi, hvw]
  · rw [h5]
    simp only [hlow]

/-- The course of an instruction of one write completes with the value of its effect, as far as lanes hold it. -/
theorem laneRun_gives {s : State} {o : LaneForm} {check : List LaneVec → Check} {wide : Bool} {d : Code}
    {f : List LaneVec → LaneMask → Nat → W64} {v : Nat → W64} (h : o.starts s)
    (hc : check (s.grp.vectors o.srcs) = .pass)
    (hv : ∀ n, heldValue wide (f (s.grp.vectors o.srcs) s.grp.active n) = heldValue wide (v n)) :
    ∃ t, laneRun s o check (fun vs act u => u.writeDest wide d act (f vs act)) = .next t
      ∧ LaneWrites s o wide d s.grp.active v t :=
  ⟨_, laneRun_ready h hc, (State.writeDest_spec s o wide d _ _).congr hv⟩

/-- The same of `laneAlu`. -/
theorem laneAlu_gives {s : State} {len : Nat} {wide : Bool} {d : Code} {srcs : List Src} {f : (Nat → W64) → Nat → W64}
    {v : Nat → W64} (h : (laneForm len wide d srcs).starts s)
    (hv : ∀ n, heldValue wide (f (fun k => argAt (s.grp.vectors srcs) k n) n) = heldValue wide (v n)) :
    ∃ t, laneAlu s len wide d srcs f = .next t ∧ LaneWrites s (laneForm len wide d srcs) wide d s.grp.active v t :=
  laneRun_gives (check := fun _ => .pass) h rfl hv

/-- A lane instruction whose value checks stop it. -/
theorem laneRun_stop {s t : State} {o : LaneForm} {check : List LaneVec → Check} (h : o.starts s)
    (hc : check (s.grp.vectors o.srcs) = .stop t) (eff : List LaneVec → LaneMask → State → State) :
    laneRun s o check eff = .next t := by
  obtain ⟨h1, h2, h3⟩ := h
  simp [laneRun, h1, h2, h3, hc]

/-- A lane instruction whose value checks make it wait. -/
theorem laneRun_wait {s : State} {o : LaneForm} {w : LaneWait} {check : List LaneVec → Check} (h : o.starts s)
    (hc : check (s.grp.vectors o.srcs) = .wait w) (eff : List LaneVec → LaneMask → State → State) :
    laneRun s o check eff = laneWaits s w := by
  obtain ⟨h1, h2, h3⟩ := h
  simp [laneRun, h1, h2, h3, hc]

/-- The advance of a lane instruction moves the program counter and leaves the control and feedback queues. -/
theorem Group.advanced_spec (g : Group) (o : LaneForm) :
    (g.advanced o).lpc = g.lpc + BitVec.ofNat 64 o.len ∧ (g.advanced o).ctq = g.ctq ∧ (g.advanced o).frames = g.frames
      ∧ (g.advanced o).fbq = g.fbq ∧ (g.advanced o).stq = g.stq := by
  unfold Group.advanced Group.laneNext Group.pop
  dsimp only
  split <;> exact ⟨rfl, rfl, rfl, rfl, rfl⟩

/-- A mask or a group update after the commit. -/
theorem laneRun_group {s : State} {o : LaneForm} {check : List LaneVec → Check} {f : List LaneVec → LaneMask → Group → Group}
    (h : o.starts s) (hc : check (s.grp.vectors o.srcs) = .pass) :
    ∃ t, laneRun s o check (fun vs act u => u.setGrp (f vs act u.grp)) = .next t ∧ OnlyGroup s t
      ∧ t.grp = f (s.grp.vectors o.srcs) s.grp.active (s.grp.advanced o) := by
  refine ⟨_, laneRun_ready h hc, ?_, ?_⟩
  · rw [State.commit_eq, State.setGrp_setGrp]
    exact OnlyGroup.setGrp s _
  · rw [State.commit_eq, State.grp_setGrp, State.grp_setGrp]

-- 32-bit values: what a lane holds depends on the low 32 bits of the sources only.

theorem low_ofInt (v : Int) : ((BitVec.ofNat 64 (v % (2 ^ 32 : Int)).toNat : W64).setWidth 32 : W32) = BitVec.ofInt 32 v := by
  apply BitVec.eq_of_toNat_eq
  simp only [BitVec.toNat_setWidth, BitVec.toNat_ofNat, BitVec.toNat_ofInt]
  omega

theorem low_intResult (v : Int) : (intResult .i32 false v).setWidth 32 = BitVec.ofInt 32 v := low_ofInt v

theorem ofInt_intArg (a : W64) : BitVec.ofInt 32 (intArg .i32 a) = a.setWidth 32 := by
  apply BitVec.eq_of_toNat_eq
  simp only [intArg, Ty.readInt, Ty.intWidth, Ty.signed, BitVec.toNat_ofInt, BitVec.toNat_setWidth]
  by_cases h : 2 ^ (32 - 1) ≤ a.toNat % 2 ^ 32 <;> simp [h] <;> omega

theorem held_add32 (a b : W64) : heldValue false (intResult .i32 false (intArg .i32 a + intArg .i32 b)) = heldValue false (a + b) := by
  simp only [heldValue, Bool.false_eq_true, if_false]
  rw [low_intResult, BitVec.ofInt_add, ofInt_intArg, ofInt_intArg, BitVec.setWidth_add a b (by omega)]

theorem held_sub32 (a b : W64) : heldValue false (intResult .i32 false (intArg .i32 a - intArg .i32 b)) = heldValue false (a - b) := by
  simp only [heldValue, Bool.false_eq_true, if_false]
  rw [low_intResult, Int.sub_eq_add_neg, BitVec.ofInt_add, BitVec.ofInt_neg, ofInt_intArg, ofInt_intArg]
  congr 1
  apply BitVec.eq_of_toNat_eq
  simp only [BitVec.toNat_add, BitVec.toNat_neg, BitVec.toNat_setWidth, BitVec.toNat_sub]
  omega

theorem held_mul32 (a b : W64) : heldValue false (intResult .i32 false (intArg .i32 a * intArg .i32 b)) = heldValue false (a * b) := by
  simp only [heldValue, Bool.false_eq_true, if_false]
  rw [low_intResult, BitVec.ofInt_mul, ofInt_intArg, ofInt_intArg, BitVec.setWidth_mul a b (by omega)]

theorem held_low (a : W64) : heldValue false ((a.setWidth 32 : W32).setWidth 64) = heldValue false a := by
  simp [heldValue]

theorem held_mod (n : Nat) : heldValue false (BitVec.ofNat 64 (n % 2 ^ 32)) = heldValue false (BitVec.ofNat 64 n) := by
  simp only [heldValue, Bool.false_eq_true, if_false]
  congr 1
  apply BitVec.eq_of_toNat_eq
  simp only [BitVec.toNat_setWidth, BitVec.toNat_ofNat]
  omega

theorem held_not32 (a : W64) : heldValue false ((~~~(a.setWidth 32 : W32)).setWidth 64) = heldValue false (~~~a) := by
  simp only [heldValue, Bool.false_eq_true, if_false]
  congr 1
  apply BitVec.eq_of_getLsbD_eq
  intro i hi
  simp [hi]

theorem held_neg32 (a : W64) : heldValue false ((0 - (a.setWidth 32 : W32)).setWidth 64) = heldValue false (0 - a) := by
  simp only [heldValue, Bool.false_eq_true, if_false]
  congr 1
  apply BitVec.eq_of_toNat_eq
  simp only [BitVec.toNat_sub, BitVec.toNat_setWidth, show BitVec.toNat (0 : W32) = 0 from rfl, show BitVec.toNat (0 : W64) = 0 from rfl]
  omega

theorem held_abs32 (a : W64) :
    heldValue false ((if (a.setWidth 32 : W32).msb then 0 - (a.setWidth 32 : W32) else a.setWidth 32).setWidth 64)
      = heldValue false (if a.getLsbD 31 then 0 - a else a) := by
  have h : (a.setWidth 32 : W32).msb = a.getLsbD 31 := by simp [BitVec.msb_eq_getLsbD_last]
  rw [h]
  cases a.getLsbD 31
  · exact held_low a
  · exact held_neg32 a

-- Slides.

theorem slide_up (f : Nat → W64) (n i : Nat) :
    (match slideFrom true n i with
      | some j => f j
      | none => 0) = if n ≤ i then f (i - n) else 0 := by
  unfold slideFrom
  by_cases h : n ≤ i <;> simp [h]

theorem slide_down (f : Nat → W64) (n i : Nat) :
    (match slideFrom false n i with
      | some j => f j
      | none => 0) = if i + n ≤ 63 then f (i + n) else 0 := by
  unfold slideFrom
  by_cases h : i + n ≤ 63 <;> simp [h]

end Sys2Proof.Machine
end

