-- ==== Sys2Proof/Laws/Memory.lean ====
section
/-! SUPPORT. Memory: reading after a write, and the canonical form, which every operation keeps. -/
namespace Sys2Proof.Machine

/-- The canonical form as facts about all cells: strictly rising addresses, no zero. -/
theorem Memory.wf_iff (m : List Host.Cell) :
    Memory.wf m = true ↔ m.Pairwise (fun x y => x.1 < y.1) ∧ ∀ c ∈ m, c.2 ≠ 0 := by
  induction m with
  | nil => simp [Memory.wf]
  | cons p rest ih =>
    obtain ⟨a, b⟩ := p
    simp only [Memory.wf, Bool.and_eq_true, bne_iff_ne, ih, List.pairwise_cons, List.mem_cons, forall_eq_or_imp]
    constructor
    · rintro ⟨⟨hb, ha⟩, hp, hz⟩
      refine ⟨⟨?_, hp⟩, hb, hz⟩
      cases rest with
      | nil => simp
      | cons q r =>
        simp only [Memory.above, decide_eq_true_eq] at ha
        intro x hx
        rcases List.mem_cons.mp hx with rfl | hx
        · exact ha
        · exact Nat.lt_trans ha ((List.pairwise_cons.mp hp).1 x hx)
    · rintro ⟨⟨ha, hp⟩, hb, hz⟩
      refine ⟨⟨hb, ?_⟩, hp, hz⟩
      cases rest with
      | nil => rfl
      | cons q r => simpa [Memory.above] using ha q (by simp)

theorem Memory.read_above (m : List Host.Cell) (k : Nat) (h : ∀ c ∈ m, k < c.1) : Memory.read m k = 0 := by
  cases m with
  | nil => rfl
  | cons p rest =>
    obtain ⟨a, b⟩ := p
    simp [Memory.read, h (a, b) (by simp)]

theorem Memory.mem_put (k : Nat) (v : Byte) (rest : List Host.Cell) :
    ∀ c ∈ Memory.put k v rest, (c = (k, v) ∧ v ≠ 0) ∨ c ∈ rest := by
  intro c hc
  unfold Memory.put at hc
  split at hc
  · exact .inr hc
  · rename_i hv
    rcases List.mem_cons.mp hc with rfl | hc
    · exact .inl ⟨rfl, fun h => hv (by simp [h])⟩
    · exact .inr hc

/-- A cell of a written list is the written one or an old one. -/
theorem Memory.mem_write (m : List Host.Cell) (k : Nat) (v : Byte) :
    ∀ c ∈ Memory.write m k v, (c = (k, v) ∧ v ≠ 0) ∨ c ∈ m := by
  induction m with
  | nil => exact Memory.mem_put k v []
  | cons p rest ih =>
    obtain ⟨a, b⟩ := p
    intro c hc
    unfold Memory.write at hc
    split at hc
    · exact Memory.mem_put k v _ c hc
    · split at hc
      · exact (Memory.mem_put k v _ c hc).imp_right (List.mem_cons_of_mem _)
      · rcases List.mem_cons.mp hc with rfl | hc
        · exact .inr (by simp)
        · exact (ih c hc).imp_right (List.mem_cons_of_mem _)

theorem Memory.wf_write (m : List Host.Cell) (k : Nat) (v : Byte) (h : Memory.wf m = true) :
    Memory.wf (Memory.write m k v) = true := by
  rw [Memory.wf_iff] at h ⊢
  obtain ⟨hp, hz⟩ := h
  refine ⟨?_, fun c hc => ?_⟩
  · induction m with
    | nil => unfold Memory.write Memory.put; split <;> simp
    | cons p rest ih =>
      obtain ⟨a, b⟩ := p
      obtain ⟨ha, hr⟩ := List.pairwise_cons.mp hp
      unfold Memory.write
      split
      · unfold Memory.put
        split
        · exact hp
        · refine List.pairwise_cons.mpr ⟨?_, hp⟩
          intro x hx
          rcases List.mem_cons.mp hx with rfl | hx
          · assumption
          · exact Nat.lt_trans ‹_› (ha x hx)
      · split
        · rename_i _ hk
          have hk : k = a := by simpa using hk
          subst hk
          unfold Memory.put
          split
          · exact hr
          · exact List.pairwise_cons.mpr ⟨ha, hr⟩
        · rename_i h1 h2
          refine List.pairwise_cons.mpr ⟨?_, ih hr fun c hc => hz c (by simp [hc])⟩
          intro x hx
          rcases Memory.mem_write rest k v x hx with ⟨rfl, -⟩ | hx
          · have : ¬k = a := by simpa using h2
            simp; omega
          · exact ha x hx
  · rcases Memory.mem_write m k v c hc with ⟨rfl, hv⟩ | hc
    · exact hv
    · exact hz c hc

theorem Memory.wf_writeBytes (l : List Byte) : ∀ (m : List Host.Cell) (k : Nat), Memory.wf m = true →
    Memory.wf (Memory.writeBytes m k l) = true := by
  induction l with
  | nil => exact fun _ _ h => h
  | cons b bs ih => exact fun m k h => ih _ _ (Memory.wf_write m k b h)

theorem Memory.wf_writeCells (l : List (Nat × Byte)) : ∀ m : List Host.Cell, Memory.wf m = true →
    Memory.wf (Memory.writeCells m l) = true := by
  induction l with
  | nil => exact fun _ h => h
  | cons p rest ih => exact fun m h => ih _ (Memory.wf_write m p.1 p.2 h)

theorem Memory.wf_clear (m : List Host.Cell) (lo n : Nat) (h : Memory.wf m = true) :
    Memory.wf (Memory.clear m lo n) = true := by
  rw [Memory.wf_iff] at h ⊢
  exact ⟨h.1.filter _, fun c hc => h.2 c (List.mem_filter.mp hc).1⟩

/-- A read after a write: the written byte there, the old one elsewhere. -/
theorem Memory.read_write (m : List Host.Cell) (k j : Nat) (v : Byte) (h : Memory.wf m = true) :
    Memory.read (Memory.write m k v) j = if j = k then v else Memory.read m j := by
  rw [Memory.wf_iff] at h
  obtain ⟨hp, -⟩ := h
  induction m with
  | nil =>
    unfold Memory.write Memory.put
    split
    · rename_i hv
      have hv : v = 0 := by simpa using hv
      by_cases hj : j = k <;> simp [Memory.read, hj, hv]
    · by_cases hj : j = k <;> simp [Memory.read, hj]
  | cons p rest ih =>
    obtain ⟨a, b⟩ := p
    obtain ⟨ha, hr⟩ := List.pairwise_cons.mp hp
    unfold Memory.write
    split
    · rename_i hk
      unfold Memory.put
      split
      · rename_i hv
        have hv : v = 0 := by simpa using hv
        by_cases hj : j = k
        · subst hj; simp [Memory.read, hk, hv]
        · simp [hj]
      · by_cases hj : j = k
        · subst hj; simp [Memory.read]
        · by_cases hlt : j < k
          · simp [Memory.read, hlt, hj, show j < a by omega]
          · simp [Memory.read, hlt, hj]
    · split
      · rename_i _ hk
        have hk : k = a := by simpa using hk
        subst hk
        unfold Memory.put
        split
        · rename_i hv
          have hv : v = 0 := by simpa using hv
          by_cases hj : j = k
          · subst hj; simp [Memory.read_above rest j ha, hv]
          · by_cases hlt : j < k
            · rw [Memory.read_above rest j (fun c hc => Nat.lt_trans hlt (ha c hc))]
              simp [Memory.read, hlt, hj]
            · simp [Memory.read, hlt, hj]
        · by_cases hj : j = k
          · subst hj; simp [Memory.read]
          · simp [Memory.read, hj]
      · rename_i h1 h2
        have h2 : ¬k = a := by simpa using h2
        by_cases hlt : j < a
        · simp [Memory.read, hlt, show ¬j = k by omega]
        · by_cases hja : j = a
          · subst hja; simp [Memory.read, Ne.symm h2]
          · simp [Memory.read, hlt, hja, ih hr]

/-- A write of consecutive bytes leaves every other byte. -/
theorem Memory.read_writeBytes_outside (l : List Byte) : ∀ (m : List Host.Cell) (k j : Nat), Memory.wf m = true →
    (j < k ∨ k + l.length ≤ j) → Memory.read (Memory.writeBytes m k l) j = Memory.read m j := by
  induction l with
  | nil => exact fun _ _ _ _ _ => rfl
  | cons b bs ih =>
    intro m k j h hj
    simp only [List.length_cons] at hj
    simp only [Memory.writeBytes]
    rw [ih _ _ _ (Memory.wf_write m k b h) (by omega), Memory.read_write m k j b h]
    simp [show ¬j = k by omega]

/-- A byte of a write of consecutive bytes. -/
theorem Memory.read_writeBytes_inside (l : List Byte) : ∀ (m : List Host.Cell) (k i : Nat), Memory.wf m = true →
    i < l.length → Memory.read (Memory.writeBytes m k l) (k + i) = l.getD i 0 := by
  induction l with
  | nil => intro _ _ i _ h; simp at h
  | cons b bs ih =>
    intro m k i h hi
    simp only [Memory.writeBytes]
    cases i with
    | zero =>
      rw [Memory.read_writeBytes_outside bs _ (k + 1) (k + 0) (Memory.wf_write m k b h) (by omega),
        Memory.read_write m k _ b h]
      simp
    | succ i =>
      simp only [List.length_cons] at hi
      have := ih (Memory.write m k b) (k + 1) i (Memory.wf_write m k b h) (by omega)
      rw [show k + (i + 1) = k + 1 + i by omega, this]
      simp

/-- A write of cells leaves every byte that none of them names. -/
theorem Memory.read_writeCells_outside (l : List (Nat × Byte)) : ∀ (m : List Host.Cell) (j : Nat), Memory.wf m = true →
    (∀ c ∈ l, c.1 ≠ j) → Memory.read (Memory.writeCells m l) j = Memory.read m j := by
  induction l with
  | nil => exact fun _ _ _ _ => rfl
  | cons p rest ih =>
    intro m j h hj
    simp only [Memory.writeCells]
    rw [ih _ _ (Memory.wf_write m p.1 p.2 h) (fun c hc => hj c (by simp [hc])), Memory.read_write m p.1 j p.2 h]
    simp [Ne.symm (hj p (by simp))]

/-- Cells whose bytes are a function of their address leave that function's byte where one of them stands. -/
theorem Memory.read_writeCells_fun (f : Nat → Byte) (l : List (Nat × Byte)) : ∀ (m : List Host.Cell) (j : Nat), Memory.wf m = true →
    (∀ c ∈ l, c.2 = f c.1) → (∃ c ∈ l, c.1 = j) ∨ Memory.read m j = f j → Memory.read (Memory.writeCells m l) j = f j := by
  induction l with
  | nil => intro m j _ _ h; exact h.elim (fun ⟨_, hc, _⟩ => absurd hc List.not_mem_nil) id
  | cons p rest ih =>
    intro m j h hf hj
    simp only [Memory.writeCells]
    refine ih _ _ (Memory.wf_write m p.1 p.2 h) (fun c hc => hf c (List.mem_cons_of_mem _ hc)) ?_
    by_cases hp : p.1 = j
    · right; rw [Memory.read_write m p.1 j p.2 h, if_pos hp.symm, ← hp]; exact hf p (List.mem_cons_self ..)
    · rcases hj with ⟨c, hc, e⟩ | hj
      · rcases List.mem_cons.mp hc with rfl | hc
        · exact absurd e hp
        · exact .inl ⟨c, hc, e⟩
      · right; rw [Memory.read_write m p.1 j p.2 h, if_neg (Ne.symm hp)]; exact hj

theorem Memory.read_clear (lo n j : Nat) : ∀ (m : List Host.Cell), Memory.wf m = true →
    Memory.read (Memory.clear m lo n) j = if lo ≤ j ∧ j < lo + n then 0 else Memory.read m j := by
  intro m h
  rw [Memory.wf_iff] at h
  obtain ⟨hp, -⟩ := h
  induction m with
  | nil => simp [Memory.clear, Memory.read]
  | cons p rest ih =>
    obtain ⟨a, b⟩ := p
    obtain ⟨ha, hr⟩ := List.pairwise_cons.mp hp
    have ih := ih hr
    unfold Memory.clear at ih ⊢
    rw [List.filter_cons]
    by_cases hlt : j < a
    · have hz : Memory.read (rest.filter fun c => decide (c.1 < lo) || decide (lo + n ≤ c.1)) j = 0 :=
        Memory.read_above _ _ fun c hc => Nat.lt_trans hlt (ha c (List.mem_filter.mp hc).1)
      split <;> simp [Memory.read, hlt, hz]
    · by_cases hja : j = a
      · subst hja
        have hz : Memory.read (rest.filter fun c => decide (c.1 < lo) || decide (lo + n ≤ c.1)) j = 0 :=
          Memory.read_above _ _ fun c hc => ha c (List.mem_filter.mp hc).1
        split
        · rename_i hc
          simp at hc
          simp [Memory.read]
          omega
        · rename_i hc
          simp at hc
          rw [hz, if_pos (by omega)]
      · split <;> simp [Memory.read, hlt, hja, ih]

/-- Equal bytes everywhere make equal memories: the form is canonical. -/
theorem Memory.ext_of_wf : ∀ m n : List Host.Cell, Memory.wf m = true → Memory.wf n = true →
    (∀ k, Memory.read m k = Memory.read n k) → m = n := by
  intro m n hm hn h
  rw [Memory.wf_iff] at hm hn
  induction m generalizing n with
  | nil =>
    cases n with
    | nil => rfl
    | cons q r =>
      have := h q.1
      simp [Memory.read] at this
      exact absurd this.symm (hn.2 q (by simp))
  | cons p rest ih =>
    cases n with
    | nil =>
      have := h p.1
      simp [Memory.read] at this
      exact absurd this (hm.2 p (by simp))
    | cons q r =>
      obtain ⟨a, b⟩ := p
      obtain ⟨c, d⟩ := q
      obtain ⟨⟨ha, hr⟩, hb, hz⟩ := And.imp List.pairwise_cons.mp List.forall_mem_cons.mp hm
      obtain ⟨⟨hc, hs⟩, hd, hy⟩ := And.imp List.pairwise_cons.mp List.forall_mem_cons.mp hn
      have hac : a = c := by
        rcases Nat.lt_trichotomy a c with hlt | he | hlt
        · have := h a; simp [Memory.read, hlt] at this; exact absurd this hb
        · exact he
        · have := h c; simp [Memory.read, hlt] at this; exact absurd this.symm hd
      subst hac
      have hbd : b = d := by simpa [Memory.read] using h a
      subst hbd
      have : rest = r := ih r ⟨hr, hz⟩ ⟨hs, hy⟩ fun k => by
        by_cases hk : k ≤ a
        · rw [Memory.read_above rest k fun c hc' => Nat.lt_of_le_of_lt hk (ha c hc'),
            Memory.read_above r k fun c hc' => Nat.lt_of_le_of_lt hk (hc c hc')]
        · have := h k
          simpa [Memory.read, show ¬k < a by omega, show ¬k = a by omega] using this
      rw [this]

end Sys2Proof.Machine
end

