-- ==== Sys2Proof/Laws/Worlds.lean ====
section
/-! SUPPORT. Sectors of HBM under the keys of the worlds: where no key matters. -/
namespace Sys2Proof.Machine

theorem sectorsOf_far (key n : Nat) (h : 2 ^ 52 ≤ key) : sectorsOf key n = [] := if_pos h

theorem foreign_nil (s : State) (asid : Nat) : s.foreign asid [] = [] := by
  unfold State.foreign; split <;> rfl

/-- Sectors of which none is of another world read as they stand. -/
theorem decrypt_own (s : State) (asid : Nat) (l : List Nat) (h : s.foreign asid l = []) : s.decrypt asid l = s := by
  unfold State.decrypt; rw [h]

theorem worldBytes_own (s : State) (asid key n : Nat) (h : s.foreign asid (sectorsOf key n) = []) :
    s.worldBytes asid key n = s.bytes key n := by
  unfold State.worldBytes; rw [decrypt_own s asid _ h]; rfl

/-- Scratch, vaults, tiles and weights are under no world's key. -/
theorem worldBytes_far (s : State) (asid key n : Nat) (h : 2 ^ 52 ≤ key) : s.worldBytes asid key n = s.bytes key n :=
  worldBytes_own s asid key n (by rw [sectorsOf_far key n h]; exact foreign_nil s asid)

theorem cipherAs_nil (s : State) (asid : Nat) : s.cipherAs asid [] = s.cipher := by
  unfold State.cipherAs; split <;> rfl

theorem underKey_nil (s : State) (asid : Nat) : s.underKey asid [] = s := by
  unfold State.underKey
  rw [List.foldl_nil, decrypt_own s asid [] (foreign_nil s asid)]
  dsimp only
  rw [cipherAs_nil]

theorem writeAs_far (s : State) (asid key : Nat) (l : List Byte) (h : 2 ^ 52 ≤ key) :
    s.writeAs asid key l = s.performStore key l := by
  unfold State.writeAs; rw [sectorsOf_far key _ h, underKey_nil]

/-- Memory as another key decrypts it is all that a decryption changes. -/
theorem decrypt_spec (s : State) (asid : Nat) (l : List Nat) : s.decrypt asid l = { s with mem := (s.decrypt asid l).mem } := by
  unfold State.decrypt; split <;> rfl

end Sys2Proof.Machine
end

