-- ==== Sys2Proof/Laws/LaneMem.lean ====
section
/-! SUPPORT. What lane memory accesses can do. -/
namespace Sys2Proof.Machine

-- Operations that leave every byte of memory.

/-- Keeping a translation changes what the units and the slices hold, and nothing else. -/
theorem State.keepTlb_spec (s : State) (t : TlbEntry) : ∃ a b, s.keepTlb t = { s with tlb := a, l2 := b } := by
  unfold State.keepTlb
  dsimp only
  generalize (Config.freeChoice s.moves 8192) = n
  repeat' split
  all_goals exact ⟨_, _, rfl⟩

theorem State.keepTlb_mem (s : State) (t : TlbEntry) : (s.keepTlb t).mem = s.mem := by
  obtain ⟨a, b, h⟩ := s.keepTlb_spec t; rw [h]
theorem State.hostTouch_mem (s : State) (k n : Nat) (w : Bool) : (s.hostTouch k n w).mem = s.mem := by
  unfold State.hostTouch; split <;> rfl
theorem State.meter_mem (s : State) (src va n : Nat) (t : Option TlbEntry) : (s.meter src va n t).mem = s.mem := by
  unfold State.meter; simp only; split <;> rfl
theorem State.meterAt_mem (s : State) (src : Nat) (va : Option Nat) (n : Nat) (t : Option TlbEntry) :
    (s.meterAt src va n t).mem = s.mem := by
  unfold State.meterAt; split
  · exact State.meter_mem _ _ _ _ _
  · rfl
theorem State.l1Fill_mem (s : State) (c a v p : Nat) (g : Bool) : (s.l1Fill c a v p g).mem = s.mem := by
  unfold State.l1Fill; simp only; split <;> rfl
theorem State.l1Drop_mem (s : State) (c a v : Nat) : (s.l1Drop c a v).mem = s.mem := by
  unfold State.l1Drop; simp only; split <;> rfl
theorem State.l1Clear_mem (s : State) (c : Nat) : (s.l1Clear c).mem = s.mem := by
  unfold State.l1Clear; simp only; split <;> rfl
theorem State.laneAcquire_mem (s : State) (sc : Scope) : (s.laneAcquire sc).mem = s.mem := by
  unfold State.laneAcquire; split
  · exact State.l1Clear_mem _ _
  · rfl
theorem State.invalidate_mem (s : State) (c : Nat) (hit : Track → Bool) : (s.invalidate c hit).mem = s.mem := by
  rw [(State.invalidate_spec s c hit).1]
theorem State.writeDest_mem (s : State) (w : Bool) (d : Code) (act : LaneMask) (f : Nat → W64) :
    (s.writeDest w d act f).mem = s.mem := by
  unfold State.writeDest State.touchRegs
  dsimp only
  split
  · split
    · rfl
    · exact State.invalidate_mem _ _ _
  · split <;> rfl

theorem State.laneLoad_mem (s : State) (m : Access) (n : Nat) (x : LaneAccess) : (s.laneLoad m n x).1.mem = s.mem := by
  unfold State.laneLoad
  split
  · rfl
  · split
    · simp only
      generalize hu : State.meterAt _ _ _ _ _ = u
      have hm : u.mem = s.mem := by
        rw [← hu, State.meterAt_mem]
        split
        · rw [State.hostTouch_mem, State.keepTlb_mem]
        · rfl
      split
      · split
        · rw [State.l1Fill_mem, hm]
        · exact hm
      · exact hm
    · rfl

theorem State.laneLoads_mem (m : Access) (n : Nat) (l : List LaneAccess) : ∀ s : State, (s.laneLoads m n l).1.mem = s.mem := by
  induction l with
  | nil => intro s; rfl
  | cons x rest ih => intro s; simp only [State.laneLoads]; rw [ih, State.laneLoad_mem]

theorem State.writeLoaded_mem (s : State) (z : Size) (sext : Bool) (d : Code) (act : LaneMask) (r : List (Nat × List Byte)) :
    (s.writeLoaded z sext d act r).mem = s.mem := by
  unfold State.writeLoaded
  split
  · simp only [show List.range 4 = [0, 1, 2, 3] from rfl, List.foldl_cons, List.foldl_nil, State.writeDest_mem]
  · exact State.writeDest_mem _ _ _ _ _

theorem State.sample_unarmed (s : State) (op n : Nat) (act : LaneMask) (l : List LaneAccess) (p f : Bool)
    (h : s.grp.sampler.armed = false) : s.sample op n act l p f = s := by
  unfold State.sample; simp [h]

theorem Group.advanced_sampler (g : Group) (o : LaneForm) : (g.advanced o).sampler = g.sampler ∧ (g.advanced o).blk = g.blk := by
  unfold Group.advanced Group.laneNext Group.pop
  dsimp only
  split <;> exact ⟨rfl, rfl⟩

-- Operations that leave the messages under way.

theorem keepTlb_net (s : State) (t : TlbEntry) : (s.keepTlb t).net = s.net := by
  obtain ⟨a, b, h⟩ := s.keepTlb_spec t; rw [h]
theorem meter_net (s : State) (src va n : Nat) (t : Option TlbEntry) : (s.meter src va n t).net = s.net := by
  unfold State.meter; simp only; split <;> rfl
theorem l1Drop_net (s : State) (c a v : Nat) : (s.l1Drop c a v).net = s.net := by
  unfold State.l1Drop; simp only; split <;> rfl
theorem sample_net (s : State) (op n : Nat) (act : LaneMask) (l : List LaneAccess) (p f : Bool) : (s.sample op n act l p f).net = s.net := by
  unfold State.sample; simp only; split <;> rfl
theorem l1Forget_net (s : State) (c pa : Nat) : (s.l1Forget c pa).net = s.net := by
  unfold State.l1Forget; simp only; split <;> rfl
theorem flushHome_net (s : State) (key : Nat) : (s.flushHome key).net = s.net := by
  unfold State.flushHome
  split
  · rfl
  · split
    · rfl
    · exact l1Forget_net _ _ _
theorem flushSector_net (s : State) (a v : Nat) : (s.flushSector a v).net = s.net := by
  unfold State.flushSector
  split
  · rfl
  · exact flushHome_net _ _
theorem meter_grp (s : State) (src va n : Nat) (t : Option TlbEntry) : (s.meter src va n t).grp = s.grp := by
  unfold State.meter; simp only; split <;> rfl

theorem State.sample_mem (s : State) (op n : Nat) (act : LaneMask) (l : List LaneAccess) (p f : Bool) :
    (s.sample op n act l p f).mem = s.mem := by
  unfold State.sample; simp only; split <;> rfl

/-- A request list of one access that is not posted is empty. -/
theorem requests_one (s : State) (data : Nat → List Byte) (x : LaneAccess) (h : s.postedAt x.addr = false) : s.requests data [x] = [] := by
  unfold State.postedAt at h
  unfold State.requests
  simp only [List.foldl_cons, List.foldl_nil]
  split at h
  · simp [h]
  · rfl

-- Releases and barriers.

theorem resetProgress_cur (s : State) (b : Nat) : (s.resetProgress b).cur = s.cur := by
  unfold State.resetProgress
  split <;> rfl
theorem release_none (s : State) (k : Check) : Check.release s none k = k := rfl
theorem release_ready (s : State) (sc : Scope) (k : Check) (h : s.grp.laneInFlight = false) (h2 : sc ≠ .system) : Check.release s (some sc) k = k := by
  unfold Check.release; simp [h, h2]

end Sys2Proof.Machine
end

