-- ==== Sys2Proof/Laws/LaneScratch.lean ====
section
/-! SUPPORT. Lane accesses to the block's own scratch: where they go, and what a list of stores leaves in memory. -/
namespace Sys2Proof.Machine

theorem tag_toNat (v : W64) : (spaceTag .scratch v).toNat / 2 ^ 56 = 0xF0 ∧ bits (spaceTag .scratch v).toNat 55 0 = (v &&& 0x00FFFFFFFFFFFFFF).toNat
   ∧ ∀ n, n ∈ [1, 2, 4, 8] → (spaceTag .scratch v).toNat % n = (v &&& 0x00FFFFFFFFFFFFFF).toNat % n := by
  have hlow : (v &&& 0x00FFFFFFFFFFFFFF).toNat = v.toNat % 2 ^ 56 := by
    rw [BitVec.toNat_and]; exact Nat.and_two_pow_sub_one_eq_mod v.toNat 56
  have hsum : (spaceTag .scratch v).toNat = 0xF000000000000000 + v.toNat % 2 ^ 56 := by
    have : (spaceTag .scratch v) = 0xF000000000000000 + (v &&& 0x00FFFFFFFFFFFFFF) := by
      unfold spaceTag
      rw [BitVec.add_comm, BitVec.add_eq_or_of_and_eq_zero]
      rw [BitVec.and_assoc, show (0x00FFFFFFFFFFFFFF : W64) &&& 0xF000000000000000 = 0#64 from by decide]
      exact BitVec.and_zero
    rw [this, BitVec.toNat_add, hlow]; 
    have := Nat.mod_lt v.toNat (show 2 ^ 56 > 0 by decide)
    simp only [show BitVec.toNat (0xF000000000000000 : W64) = 0xF000000000000000 from rfl]; omega
  rw [hlow, hsum]
  have := Nat.mod_lt v.toNat (show 2 ^ 56 > 0 by decide)
  refine ⟨by omega, by unfold bits; omega, ?_⟩
  intro n hn
  simp only [List.mem_cons, List.not_mem_nil, or_false] at hn
  rcases hn with rfl | rfl | rfl | rfl <;> omega

theorem place_scratch (s : State) (k : Nat) (v : W64) (h : (v &&& 0x00FFFFFFFFFFFFFF).toNat < (s.blkAt (s.grpAt k).blk).scratch) :
    s.place k false (spaceTag .scratch v) = .ok (.scratch (v &&& 0x00FFFFFFFFFFFFFF).toNat) := by
  obtain ⟨h1, h2, -⟩ := tag_toNat v
  unfold State.place
  simp only [h1, h2, h, if_true]

theorem reach_scratch (s : State) (k n : Nat) (need : Need) (v : W64) (hn : 0 < n)
    (h : (v &&& 0x00FFFFFFFFFFFFFF).toNat + n ≤ (s.blkAt (s.grpAt k).blk).scratch) :
    s.reach k false (spaceTag .scratch v) n need = .ok (scratchKey (s.grpAt k).blk (v &&& 0x00FFFFFFFFFFFFFF).toNat) none := by
  unfold State.reach
  rw [place_scratch s k v (by omega)]
  simp only [h, if_true]

theorem globalVa_scratch (s : State) (k : Nat) (v : W64) (h : (v &&& 0x00FFFFFFFFFFFFFF).toNat < (s.blkAt (s.grpAt k).blk).scratch) :
    s.globalVa k (spaceTag .scratch v) = none := by
  unfold State.globalVa; rw [place_scratch s k v h]

theorem l1Hit_scratch (s : State) (k : Nat) (v : W64) (h : (v &&& 0x00FFFFFFFFFFFFFF).toNat < (s.blkAt (s.grpAt k).blk).scratch) :
    s.l1Hit k (spaceTag .scratch v) = none := by
  unfold State.l1Hit; rw [globalVa_scratch s k v h]

theorem laneLoad_scratch (s : State) (n : Nat) (i : Nat) (v : W64) (hn : 0 < n)
    (h : (v &&& 0x00FFFFFFFFFFFFFF).toNat + n ≤ s.blk.scratch) :
    s.laneLoad .load n ⟨i, v, spaceTag .scratch v⟩ = (s, s.bytes (scratchKey s.grp.blk (v &&& 0x00FFFFFFFFFFFFFF).toNat) n) := by
  have h' : (v &&& 0x00FFFFFFFFFFFFFF).toNat + n ≤ (s.blkAt (s.grpAt s.cur).blk).scratch := h
  unfold State.laneLoad
  simp only
  rw [l1Hit_scratch s _ v (by omega), globalVa_scratch s _ v (by omega), reach_scratch s _ n _ v hn h']
  simp only [beq_self_eq_true, if_true, State.meterAt]
  rw [worldBytes_far _ _ _ _ (by unfold scratchKey; omega)]
  rfl

/-- The lanes' accesses in scratch. -/
def scr (l : List Nat) (v : Nat → W64) : List LaneAccess := l.map fun i => ⟨i, v i, spaceTag .scratch (v i)⟩

theorem laneLoads_scratch (s : State) (n : Nat) (v : Nat → W64) (hn : 0 < n) (l : List Nat)
    (h : ∀ i ∈ l, (v i &&& 0x00FFFFFFFFFFFFFF).toNat + n ≤ s.blk.scratch) :
    s.laneLoads .load n (scr l v) = (s, l.map fun i => (i, s.bytes (scratchKey s.grp.blk (v i &&& 0x00FFFFFFFFFFFFFF).toNat) n)) := by
  induction l with
  | nil => rfl
  | cons i l ih =>
    have ih := ih fun j hj => h j (List.mem_cons_of_mem _ hj)
    unfold scr at ih
    simp only [scr, List.map_cons, State.laneLoads]
    rw [laneLoad_scratch s n i (v i) hn (h i (List.mem_cons_self ..))]
    simp only
    rw [ih]

theorem map_get_map {α : Type} (d : α) (f : Nat → α) (l : List Nat) (i : Nat) (h : i ∈ l) : Map.get d (l.map fun i => (i, f i)) i = f i := by
  induction l with
  | nil => cases h
  | cons j l ih =>
    simp only [List.map_cons, Map.get]
    by_cases hj : j = i
    · simp [hj]
    · rw [if_neg (by simpa using hj)]; exact ih (by simpa [Ne.symm hj] using h)

theorem bytes_pos (z : Size) : 0 < Size.bytes z := by cases z <;> decide
theorem bytes_mem (z : Size) (h : z ≠ .b128) : Size.bytes z ∈ [1, 2, 4, 8] := by cases z <;> first | decide | exact absurd rfl h

theorem laneCheck_scratch (s : State) (m : Access) (n i : Nat) (v : W64) (hn : n ∈ [1, 2, 4, 8]) (hm : m = .load ∨ m = .store)
    (h : (v &&& 0x00FFFFFFFFFFFFFF).toNat + n ≤ s.blk.scratch) (ha : (v &&& 0x00FFFFFFFFFFFFFF).toNat % n = 0)
    (hf : s.fencedKey (scratchKey s.grp.blk (v &&& 0x00FFFFFFFFFFFFFF).toNat) = false)
    (hp : m = .load → s.poisoned (scratchKey s.grp.blk (v &&& 0x00FFFFFFFFFFFFFF).toNat) n = false) :
    s.laneCheck m n ⟨i, v, spaceTag .scratch v⟩ = none := by
  have hn0 : 0 < n := by simp only [List.mem_cons, List.not_mem_nil, or_false] at hn; omega
  have h' : (v &&& 0x00FFFFFFFFFFFFFF).toNat + n ≤ (s.blkAt (s.grpAt s.cur).blk).scratch := h
  unfold State.laneCheck
  simp only
  rw [(tag_toNat v).2.2 n hn, ha, l1Hit_scratch s _ v (by omega), place_scratch s _ v (by omega), reach_scratch s _ n _ v hn0 h']
  rcases hm with rfl | rfl
  · have hf' : s.fencedKey (scratchKey (s.grpAt s.cur).blk (v &&& 0x00FFFFFFFFFFFFFF).toNat) = false := hf
    have hp' : s.poisoned (scratchKey (s.grpAt s.cur).blk (v &&& 0x00FFFFFFFFFFFFFF).toNat) n = false := hp rfl
    simp only [hf', hp', BitVec.toNat_and] at *; simp_all
  · have hf' : s.fencedKey (scratchKey (s.grpAt s.cur).blk (v &&& 0x00FFFFFFFFFFFFFF).toNat) = false := hf
    simp only [BitVec.toNat_and] at *; simp_all [Place.posted]

theorem cachedHost_far (s : State) (key : Nat) (h : 2 ^ 52 ≤ key) : s.cachedHost key = false := by
  have h1 : hostPortOf key = none := by unfold hostPortOf; rw [if_neg (by simp only [beq_iff_eq]; omega)]
  unfold State.cachedHost State.hostBiased
  rw [h1]
  have : ¬ key < hbmSize := by unfold hbmSize; omega
  simp [this]

theorem lineWait_far (s : State) (key n : Nat) (w : Bool) (h : 2 ^ 52 ≤ key) : s.lineWait key n w = none := by
  unfold State.lineWait
  split
  · rfl
  · simp only [cachedHost_far s key h, Bool.false_eq_true, if_false]
    rw [List.find?_eq_none.2 (by simp)]
    rfl

theorem scratchKey_far (b off : Nat) : 2 ^ 52 ≤ scratchKey b off := by unfold scratchKey; omega
theorem lineWait_scratch (s : State) (b off n : Nat) (w : Bool) : s.lineWait (scratchKey b off) n w = none :=
  lineWait_far s _ n w (scratchKey_far b off)

theorem spaceAccesses_scratch (act : LaneMask) (off : Half) (a : Nat → W64) :
    accessesOf .scratch off act a = scr (activeLanes act) fun i => a i + off.signExtend 64 := rfl

theorem mem_active (act : LaneMask) (i : Nat) : i ∈ activeLanes act ↔ i < 64 ∧ act.getLsbD i = true := by
  simp [activeLanes, laneIds]

theorem pairWaits_none (s : State) (l : List LaneAccess) (hnet : ∀ m ∈ s.net, m.src ≠ s.cur) : s.pairWaits l = false := by
  have h : ∀ p : Msg → Bool, (s.net.any fun m => m.src == s.cur && p m) = false := fun p => by
    rw [List.any_eq_false]; intro m hm; simp [hnet m hm]
  unfold State.pairWaits
  rw [Bool.and_eq_false_iff]; right
  rw [List.any_eq_false]
  intro x _
  split
  · split
    · rw [h]; simp
    · simp
  · simp

theorem accessCheck_scratch (s : State) (op : Nat) (m : Access) (n : Nat) (act : LaneMask) (v : Nat → W64) (hn : n ∈ [1, 2, 4, 8])
    (hm : m = .load ∨ m = .store ∧ s.grp.loadsAway = false) (hnet : ∀ m ∈ s.net, m.src ≠ s.cur)
    (h : ∀ i, i < 64 → act.getLsbD i = true → (v i &&& 0x00FFFFFFFFFFFFFF).toNat + n ≤ s.blk.scratch ∧ (v i &&& 0x00FFFFFFFFFFFFFF).toNat % n = 0
      ∧ s.fencedKey (scratchKey s.grp.blk (v i &&& 0x00FFFFFFFFFFFFFF).toNat) = false
      ∧ (m = .load → s.poisoned (scratchKey s.grp.blk (v i &&& 0x00FFFFFFFFFFFFFF).toNat) n = false)) :
    s.accessCheck op m n act (scr (activeLanes act) v) = .pass := by
  have hn0 : 0 < n := by simp only [List.mem_cons, List.not_mem_nil, or_false] at hn; omega
  have h1 : s.laneFailures m n (scr (activeLanes act) v) = [] := by
    unfold State.laneFailures
    rw [List.filterMap_eq_nil_iff]
    intro x hx
    simp only [scr, List.mem_map] at hx
    obtain ⟨i, hi, rfl⟩ := hx
    obtain ⟨hi, ha⟩ := (mem_active _ _).1 hi
    obtain ⟨a1, a2, a3, a4⟩ := h i hi ha
    rw [laneCheck_scratch s m n i (v i) hn (hm.imp id And.left) a1 a2 a3 a4]; rfl
  have h2 : s.hostWaits m n (scr (activeLanes act) v) = none := by
    unfold State.hostWaits
    split
    · rfl
    · rw [List.findSome?_eq_none_iff]
      intro x hx
      simp only [scr, List.mem_map] at hx
      obtain ⟨i, hi, rfl⟩ := hx
      obtain ⟨hi, ha⟩ := (mem_active _ _).1 hi
      obtain ⟨a1, a2, a3, a4⟩ := h i hi ha
      have a1' : (v i &&& 0x00FFFFFFFFFFFFFF).toNat + n ≤ (s.blkAt (s.grpAt s.cur).blk).scratch := a1
      split
      · rfl
      · simp only
        rw [reach_scratch s _ n _ (v i) hn0 a1']
        exact lineWait_scratch ..
  have h3 := pairWaits_none s ((scr (activeLanes act) v).filter fun x => !(m == .store && s.postedAt x.addr)) hnet
  unfold State.accessCheck State.addressCheck
  rw [h1, h2, h3]
  rcases hm with rfl | ⟨rfl, hl⟩
  · rfl
  · simp [hl]

theorem LaneWrites.congrActive {s t : State} {o : LaneForm} {wide : Bool} {d : Code} {act : LaneMask} {v w : Nat → W64}
    (h : LaneWrites s o wide d act v t) (hvw : ∀ i, i < 64 → act.getLsbD i = true → v i = w i) :
    LaneWrites s o wide d act w t := by
  obtain ⟨h1, h2, h3, h4, h5⟩ := h
  refine ⟨h1, h2, fun hd i hi => ?_, h4, ?_⟩
  · rw [h3 hd i hi]
    by_cases ha : act.getLsbD i = true
    · rw [hvw i hi ha]
    · simp [ha]
  · rw [h5]
    have : (lanes fun i => if act.getLsbD i then (v i).setWidth 32 else (0 : W32)) = lanes fun i => if act.getLsbD i then (w i).setWidth 32 else 0 := by
      unfold lanes laneIds
      apply List.map_congr_left
      intro i hi
      by_cases ha : act.getLsbD i = true
      · rw [hvw i (List.mem_range.1 hi) ha]
      · simp [ha]
    rw [this]

theorem breakResv_mem (s : State) (k n : Nat) : (s.breakResv k n).mem = s.mem := by unfold State.breakResv; split <;> rfl
theorem storeCells_mem (s : State) (c : List (Nat × Byte)) : (s.storeCells c).mem = Memory.writeCells s.mem c := rfl
/-- A write at a home outside global memory: no dirty copy and no port. -/
theorem performStore_far (s : State) (k : Nat) (l : List Byte) (h : 2 ^ 52 ≤ k) :
    s.performStore k l = (let u := ((s.storeCells (cellsOf k l)).breakResv k l.length).hostTouch k l.length true
      match scratchOf k with
      | some (blk, off) => u.touchScratch blk off l.length
      | none => u) := by
  unfold State.performStore State.homeWrite State.portStore sectorsOf
  simp only [h, if_true, List.foldl_nil, decide_true, Bool.true_or]
  try rfl
theorem performStore_mem (s : State) (k : Nat) (l : List Byte) (h : 2 ^ 52 ≤ k) :
    (s.performStore k l).mem = Memory.writeCells s.mem (cellsOf k l) := by
  rw [performStore_far s k l h]
  simp only
  split
  · unfold State.touchScratch; rw [State.invalidate_mem, State.hostTouch_mem, breakResv_mem]; rfl
  · rw [State.hostTouch_mem, breakResv_mem]; rfl

/-- What the writes of a store leave of the state: everything but memory, poison, host lines, reservations and tables. -/
def Kept (s t : State) : Prop :=
  t.cur = s.cur ∧ t.net = s.net ∧ t.launches = s.launches ∧ (∀ k, t.grpAt k = { s.grpAt k with resv := (t.grpAt k).resv })
  ∧ ∀ b, t.blkAt b = { s.blkAt b with tables := (t.blkAt b).tables }
theorem Kept.refl (s : State) : Kept s s := ⟨rfl, rfl, rfl, fun _ => rfl, fun _ => rfl⟩
theorem Kept.trans {s t u : State} (h : Kept s t) (h' : Kept t u) : Kept s u := by
  obtain ⟨a1, a2, a3, a4, a5⟩ := h
  obtain ⟨b1, b2, b3, b4, b5⟩ := h'
  refine ⟨b1.trans a1, b2.trans a2, b3.trans a3, fun k => ?_, fun b => ?_⟩
  · rw [b4 k, a4 k]
  · rw [b5 b, a5 b]
theorem hostTouch_kept (s : State) (k n : Nat) (w : Bool) : Kept s (s.hostTouch k n w) := by
  unfold State.hostTouch; split
  · exact .refl s
  · exact ⟨rfl, rfl, rfl, fun _ => rfl, fun _ => rfl⟩
theorem breakResv_kept (s : State) (k n : Nat) : Kept s (s.breakResv k n) := by
  unfold State.breakResv; split
  · refine ⟨rfl, rfl, rfl, fun j => ?_, fun _ => rfl⟩
    have : ∀ l : Map Group, Map.get ({} : Group) (l.map fun p => match p.2.resv with
      | some (a, m) => (p.1, if a < k + n && k < a + m then { p.2 with resv := none } else p.2)
      | none => p) j = { Map.get ({} : Group) l j with resv := (Map.get ({} : Group) (l.map fun p => match p.2.resv with
      | some (a, m) => (p.1, if a < k + n && k < a + m then { p.2 with resv := none } else p.2)
      | none => p) j).resv } := by
      intro l
      induction l with
      | nil => rfl
      | cons p l ih =>
        obtain ⟨i, g⟩ := p
        simp only [List.map_cons]
        split
        · simp only [Map.get]
          by_cases hi : i == j
          · simp only [hi, if_true]; split <;> rfl
          · simp only [hi, Bool.false_eq_true, if_false]; exact ih
        · simp only [Map.get]
          by_cases hi : i == j
          · simp only [hi, if_true]
          · simp only [hi, Bool.false_eq_true, if_false]; exact ih
    exact this _
  · exact .refl s
/-- A write breaks a reservation; it makes none. -/
theorem breakResv_none (s : State) (k n j : Nat) (h : (s.grpAt j).resv = none) : ((s.breakResv k n).grpAt j).resv = none := by
  unfold State.breakResv; split
  · have : ∀ l : Map Group, (Map.get ({} : Group) l j).resv = none → (Map.get ({} : Group) (l.map fun p => match p.2.resv with
      | some (a, m) => (p.1, if a < k + n && k < a + m then { p.2 with resv := none } else p.2)
      | none => p) j).resv = none := by
      intro l
      induction l with
      | nil => exact fun h => h
      | cons p l ih =>
        obtain ⟨i, g⟩ := p
        simp only [List.map_cons, Map.get]
        by_cases hi : i == j
        · simp only [hi, if_true]
          intro hg
          rw [hg]; simp only [hi, if_true]; exact hg
        · simp only [hi, Bool.false_eq_true, if_false]
          intro hg
          split <;> simp only [hi, Bool.false_eq_true, if_false] <;> exact ih hg
    exact this _ h
  · exact h
theorem invalidate_kept (s : State) (c : Nat) (hit : Track → Bool) : Kept s (s.invalidate c hit) := by
  obtain ⟨h1, h2, h3, h4⟩ := State.invalidate_spec s c hit
  exact ⟨by rw [h1], by rw [h1], by rw [h1], fun k => by rw [h1]; rfl, fun b => h3 b⟩
theorem setL1_spec (s : State) (d : Nat) (x : List L1Sector) (c : Nat) : (s.setCoreAt d { s.coreAt d with l1 := x }).coreAt c
    = { s.coreAt c with l1 := ((s.setCoreAt d { s.coreAt d with l1 := x }).coreAt c).l1 } := by
  rw [State.coreAt_setCoreAt]
  split
  · rename_i h; subst h; rfl
  · rfl
theorem flushHome_spec (s : State) (k : Nat) :
    s.flushHome k = { s with mem := (s.flushHome k).mem, poison := (s.flushHome k).poison, cores := (s.flushHome k).cores, dirty := (s.flushHome k).dirty, cipher := (s.flushHome k).cipher }
    ∧ ∀ c, (s.flushHome k).coreAt c = { s.coreAt c with l1 := ((s.flushHome k).coreAt c).l1 } := by
  unfold State.flushHome
  split
  · exact ⟨rfl, fun _ => rfl⟩
  split
  · exact ⟨rfl, fun _ => rfl⟩
  unfold State.sectorHome State.l1Forget
  dsimp only
  split
  · exact ⟨rfl, fun _ => rfl⟩
  · exact ⟨rfl, fun c => setL1_spec (s.storeCells _) _ _ c⟩
theorem flushAll_spec (l : List Nat) : ∀ s : State,
    l.foldl State.flushHome s = { s with mem := (l.foldl State.flushHome s).mem, poison := (l.foldl State.flushHome s).poison, cores := (l.foldl State.flushHome s).cores, dirty := (l.foldl State.flushHome s).dirty, cipher := (l.foldl State.flushHome s).cipher }
    ∧ ∀ c, (l.foldl State.flushHome s).coreAt c = { s.coreAt c with l1 := ((l.foldl State.flushHome s).coreAt c).l1 } := by
  induction l with
  | nil => exact fun s => ⟨rfl, fun _ => rfl⟩
  | cons k l ih =>
    intro s
    obtain ⟨h1, h2⟩ := ih (s.flushHome k)
    obtain ⟨g1, g2⟩ := flushHome_spec s k
    rw [List.foldl_cons]
    refine ⟨h1.trans ?_, fun c => (h2 c).trans (by rw [g2 c])⟩
    rw [g1]
theorem breakResv_same (s : State) (k n : Nat) : s.breakResv k n = { s with groups := (s.breakResv k n).groups } := by
  unfold State.breakResv; split <;> rfl
/-- What a write at a home changes: the memory, with it poison, dirty copies and the sectors that the lane L1 caches drop,
and reservations. -/
theorem homeWrite_spec (s : State) (k : Nat) (l : List Byte) :
    s.homeWrite k l = { s with mem := (s.homeWrite k l).mem, poison := (s.homeWrite k l).poison, cores := (s.homeWrite k l).cores,
                               dirty := (s.homeWrite k l).dirty, cipher := (s.homeWrite k l).cipher, groups := (s.homeWrite k l).groups }
    ∧ (∀ j, (s.homeWrite k l).grpAt j = { s.grpAt j with resv := ((s.homeWrite k l).grpAt j).resv })
    ∧ ∀ c, (s.homeWrite k l).coreAt c = { s.coreAt c with l1 := ((s.homeWrite k l).coreAt c).l1 } := by
  unfold State.homeWrite
  obtain ⟨h1, h2⟩ := flushAll_spec (sectorsOf k l.length) s
  generalize (sectorsOf k l.length).foldl State.flushHome s = u at h1 h2
  have hb := breakResv_same (u.storeCells (cellsOf k l)) k l.length
  have hk := (breakResv_kept (u.storeCells (cellsOf k l)) k l.length).2.2.2.1
  have hg : u.grpAt = s.grpAt := by rw [h1]; rfl
  generalize (u.storeCells (cellsOf k l)).breakResv k l.length = v at hb hk
  have hc : ∀ c, v.coreAt c = u.coreAt c := fun c => by rw [hb]; rfl
  have hm : ∀ j, (u.storeCells (cellsOf k l)).grpAt j = u.grpAt j := fun _ => rfl
  refine ⟨?_, fun j => ?_, fun c => ?_⟩
  · rw [hb]; unfold State.storeCells; dsimp only; rw [h1]
  · rw [hk j, hm, hg]
  · rw [hc, h2 c]
theorem homeWrite_none (s : State) (k : Nat) (l : List Byte) (j : Nat) (h : (s.grpAt j).resv = none) : (s.homeWrite k l).grpAt j = s.grpAt j := by
  have hn : ((s.homeWrite k l).grpAt j).resv = none := by
    unfold State.homeWrite
    refine breakResv_none _ _ _ _ ?_
    obtain ⟨h1, -⟩ := flushAll_spec (sectorsOf k l.length) s
    generalize (sectorsOf k l.length).foldl State.flushHome s = u at h1
    show (u.grpAt j).resv = none
    rw [h1]; exact h
  rw [(homeWrite_spec s k l).2.1 j, hn, ← h]
/-- An empty lane L1 stays empty under a write at a home. -/
theorem homeWrite_l1 (s : State) (k : Nat) (l : List Byte) (c : Nat) (h : (s.coreAt c).l1 = []) : ((s.homeWrite k l).coreAt c).l1 = [] := by
  have h1 : ∀ (u : State) (j : Nat), (u.coreAt c).l1 = [] → ((u.flushHome j).coreAt c).l1 = [] := by
    intro u j hu
    unfold State.flushHome
    split
    · exact hu
    split
    · exact hu
    rename_i d _
    unfold State.sectorHome State.l1Forget
    dsimp only
    split
    · exact hu
    · show ((State.setCoreAt (u.storeCells _) _ _).coreAt c).l1 = []
      rw [State.coreAt_setCoreAt]
      split
      · rename_i h; subst h
        show List.filter _ (u.coreAt d.core).l1 = []
        rw [hu]; rfl
      · exact hu
  have h2 : ∀ (m : List Nat) (u : State), (u.coreAt c).l1 = [] → ((m.foldl State.flushHome u).coreAt c).l1 = [] := by
    intro m
    induction m with
    | nil => exact fun _ h => h
    | cons a m ih => exact fun u hu => ih _ (h1 u a hu)
  unfold State.homeWrite
  rw [breakResv_same]
  exact h2 _ s h
theorem homeWrite_kept (s : State) (k : Nat) (l : List Byte) : Kept s (s.homeWrite k l) := by
  obtain ⟨h1, h2, -⟩ := homeWrite_spec s k l
  exact ⟨by rw [h1], by rw [h1], by rw [h1], h2, fun b => by rw [h1]; rfl⟩
theorem portStore_kept (s : State) (k : Nat) (l : List Byte) : Kept s (s.portStore k l) := by
  unfold State.portStore
  split
  · exact .refl s
  split
  · exact .refl s
  · exact ⟨rfl, rfl, rfl, fun _ => rfl, fun _ => rfl⟩
theorem performStore_kept (s : State) (k : Nat) (l : List Byte) : Kept s (s.performStore k l) := by
  have h := ((homeWrite_kept s k l).trans (hostTouch_kept _ k l.length true)).trans (portStore_kept _ k l)
  unfold State.performStore
  dsimp only
  split
  · exact h.trans (invalidate_kept _ _ _)
  · exact h

/-- Sectors made ready for a context's write: memory, poison, dirty copies, what the lane L1 caches drop, and the keys. -/
theorem underKey_spec (s : State) (asid : Nat) (l : List Nat) :
    s.underKey asid l = { s with mem := (s.underKey asid l).mem, poison := (s.underKey asid l).poison, cores := (s.underKey asid l).cores, dirty := (s.underKey asid l).dirty, cipher := (s.underKey asid l).cipher }
    ∧ ∀ c, (s.underKey asid l).coreAt c = { s.coreAt c with l1 := ((s.underKey asid l).coreAt c).l1 } := by
  unfold State.underKey
  obtain ⟨h1, h2⟩ := flushAll_spec l s
  generalize l.foldl State.flushHome s = u at h1 h2
  have h3 := decrypt_spec u asid l
  generalize u.decrypt asid l = v at h3
  dsimp only
  generalize v.cipherAs asid l = m
  obtain ⟨n, rfl⟩ : ∃ n, v = { u with mem := n } := ⟨_, h3⟩
  obtain ⟨a, b, c, d, e, hu⟩ : ∃ a b c d e, u = { s with mem := a, poison := b, cores := c, dirty := d, cipher := e } := ⟨_, _, _, _, _, h1⟩
  exact ⟨by clear h1 h2 h3; subst hu; rfl, fun c => h2 c⟩
theorem underKey_kept (s : State) (asid : Nat) (l : List Nat) : Kept s (s.underKey asid l) := by
  obtain ⟨h1, -⟩ := underKey_spec s asid l
  generalize s.underKey asid l = u at h1
  rw [h1]; exact ⟨rfl, rfl, rfl, fun _ => rfl, fun _ => rfl⟩
theorem writeAs_kept (s : State) (asid k : Nat) (l : List Byte) : Kept s (s.writeAs asid k l) :=
  (underKey_kept s asid _).trans (performStore_kept _ k l)

theorem laneStore_scratch (s : State) (i : Nat) (v : W64) (l : List Byte) (hn : 0 < l.length)
    (h : (v &&& 0x00FFFFFFFFFFFFFF).toNat + l.length ≤ s.blk.scratch) :
    s.laneStore ⟨i, v, spaceTag .scratch v⟩ l = s.performStore (scratchKey s.grp.blk (v &&& 0x00FFFFFFFFFFFFFF).toNat) l := by
  have h' : (v &&& 0x00FFFFFFFFFFFFFF).toNat + l.length ≤ (s.blkAt (s.grpAt s.cur).blk).scratch := h
  unfold State.laneStore
  simp only
  rw [reach_scratch s _ _ _ v hn h']
  simp only
  rw [globalVa_scratch s _ v (by omega)]
  rfl

theorem Kept.blk {s t : State} (h : Kept s t) : t.grp.blk = s.grp.blk ∧ t.blk.scratch = s.blk.scratch := by
  obtain ⟨h1, _, _, h4, h5⟩ := h
  have hb : t.grp.blk = s.grp.blk := by
    show (t.grpAt t.cur).blk = (s.grpAt s.cur).blk
    rw [h1, h4]
  refine ⟨hb, ?_⟩
  show (t.blkAt t.grp.blk).scratch = (s.blkAt s.grp.blk).scratch
  rw [hb, h5]

/-- Stores to scratch, as writes of cells in lane order. -/
theorem laneStores_scratch (n : Nat) (v : Nat → W64) (data : Nat → List Byte) (hn : 0 < n) (hd : ∀ i, (data i).length = n) (l : List Nat) :
    ∀ s : State, (∀ i ∈ l, (v i &&& 0x00FFFFFFFFFFFFFF).toNat + n ≤ s.blk.scratch) →
    Kept s (s.laneStores data (scr l v))
    ∧ (s.laneStores data (scr l v)).mem = l.foldl (fun m i => Memory.writeCells m (cellsOf (scratchKey s.grp.blk (v i &&& 0x00FFFFFFFFFFFFFF).toNat) (data i))) s.mem := by
  induction l with
  | nil => intro s _; exact ⟨.refl s, rfl⟩
  | cons i l ih =>
    intro s h
    have hi := h i (List.mem_cons_self ..)
    have e := laneStore_scratch s i (v i) (data i) (by rw [hd]; exact hn) (by rw [hd]; exact hi)
    have hk := performStore_kept s (scratchKey s.grp.blk (v i &&& 0x00FFFFFFFFFFFFFF).toNat) (data i)
    have hb := hk.blk
    obtain ⟨i1, i2⟩ := ih (s.performStore (scratchKey s.grp.blk (v i &&& 0x00FFFFFFFFFFFFFF).toNat) (data i)) fun j hj => by
      rw [hb.2]; exact h j (List.mem_cons_of_mem _ hj)
    show Kept s (State.laneStores _ _ (scr l v)) ∧ (State.laneStores _ _ (scr l v)).mem = _
    rw [e]
    refine ⟨hk.trans i1, i2.trans ?_⟩
    rw [hb.1, performStore_mem _ _ _ (scratchKey_far _ _)]; rfl

theorem cellsOf_mem (k : Nat) (l : List Byte) (c : Nat × Byte) (h : c ∈ cellsOf k l) : k ≤ c.1 ∧ c.1 < k + l.length := by
  unfold cellsOf at h
  rw [List.mem_map] at h
  obtain ⟨p, hp, rfl⟩ := h
  have := (List.of_mem_zip hp).1
  rw [List.mem_range] at this
  exact ⟨by simp, by simpa using this⟩
theorem writeCells_cons (m : List Host.Cell) (c : Nat × Byte) (l : List (Nat × Byte)) : Memory.writeCells m (c :: l) = Memory.writeCells (Memory.write m c.1 c.2) l := rfl
theorem cellsOf_cons (k : Nat) (b : Byte) (l : List Byte) : cellsOf k (b :: l) = (k, b) :: cellsOf (k + 1) l := by
  unfold cellsOf
  rw [List.length_cons, List.range_succ_eq_map, List.zip_cons_cons, List.map_cons]
  congr 1
  rw [List.zip_map_left, List.map_map]
  apply List.map_congr_left
  intro p _; simp; omega
theorem writeCells_cellsOf (l : List Byte) : ∀ (m : List Host.Cell) (k : Nat), Memory.writeCells m (cellsOf k l) = Memory.writeBytes m k l := by
  induction l with
  | nil => intro _ _; rfl
  | cons b l ih => intro m k; rw [cellsOf_cons, writeCells_cons, ih]; rfl

/-- Reading after a list of writes of `n` bytes each. -/
theorem read_folds {α : Type} (n : Nat) (key : α → Nat) (data : α → List Byte) (hd : ∀ i, (data i).length = n) (l : List α) :
    ∀ m : List Host.Cell, Memory.wf m = true →
    Memory.wf (l.foldl (fun m i => Memory.writeCells m (cellsOf (key i) (data i))) m) = true
    ∧ (∀ k, (∀ i ∈ l, k < key i ∨ key i + n ≤ k) → Memory.read (l.foldl (fun m i => Memory.writeCells m (cellsOf (key i) (data i))) m) k = Memory.read m k) := by
  induction l with
  | nil => intro m h; exact ⟨h, fun _ _ => rfl⟩
  | cons i l ih =>
    intro m h
    have h' := Memory.wf_writeCells (cellsOf (key i) (data i)) m h
    obtain ⟨a, b⟩ := ih _ h'
    refine ⟨a, fun k hk => ?_⟩
    rw [List.foldl_cons, b k fun j hj => hk j (List.mem_cons_of_mem _ hj), writeCells_cellsOf, Memory.read_writeBytes_outside _ _ _ _ h]
    have := hk i (List.mem_cons_self ..)
    rw [hd]; exact this
theorem read_folds_last {α : Type} (n : Nat) (key : α → Nat) (data : α → List Byte) (hd : ∀ i, (data i).length = n) (l1 l2 : List α) (i : α)
    (m : List Host.Cell) (h : Memory.wf m = true) (hl : ∀ j ∈ l2, key j + n ≤ key i ∨ key i + n ≤ key j) (k : Nat) (hk : k < n) :
    Memory.read ((l1 ++ i :: l2).foldl (fun m i => Memory.writeCells m (cellsOf (key i) (data i))) m) (key i + k) = (data i).getD k 0 := by
  rw [List.foldl_append, List.foldl_cons]
  obtain ⟨a, -⟩ := read_folds n key data hd l1 m h
  have h' := Memory.wf_writeCells (cellsOf (key i) (data i)) _ a
  rw [(read_folds n key data hd l2 _ h').2 _ fun j hj => by have := hl j hj; omega, writeCells_cellsOf]
  exact Memory.read_writeBytes_inside _ _ _ _ a (by rw [hd]; exact hk)
theorem active_split (act : LaneMask) (i : Nat) (hi : i < 64) (ha : act.getLsbD i = true) :
    ∃ l1 l2, activeLanes act = l1 ++ i :: l2 ∧ ∀ j ∈ l2, i < j ∧ j < 64 ∧ act.getLsbD j = true := by
  have hm := (mem_active act i).2 ⟨hi, ha⟩
  obtain ⟨l1, l2, e⟩ := List.append_of_mem hm
  refine ⟨l1, l2, e, fun j hj => ?_⟩
  have hp : (activeLanes act).Pairwise (· < ·) := by
    unfold activeLanes laneIds
    exact List.Pairwise.filter _ List.pairwise_lt_range
  rw [e, List.pairwise_append] at hp
  have := (List.pairwise_cons.1 hp.2.1).1 j hj
  have hj' : j ∈ activeLanes act := by rw [e]; simp [hj]
  exact ⟨this, (mem_active act j).1 hj'⟩
theorem leBytes_length (n v : Nat) : (leBytes n v).length = n := by
  induction n generalizing v with
  | zero => rfl
  | succ n ih => unfold leBytes; simp [ih]

/-- Writing dirty copies home keeps the memory's form, and changes only bytes that a dirty sector holds. -/
theorem flushAll_read (l : List Nat) : ∀ s : State, Memory.wf s.mem = true → Memory.wf (l.foldl State.flushHome s).mem = true
    ∧ ∀ a, ¬ s.dirtyAt a → Memory.read (l.foldl State.flushHome s).mem a = Memory.read s.mem a := by
  induction l with
  | nil => exact fun s h => ⟨h, fun _ _ => rfl⟩
  | cons k l ih =>
    intro s h
    have h1 : Memory.wf (s.flushHome k).mem = true ∧ (∀ a, ¬ s.dirtyAt a → Memory.read (s.flushHome k).mem a = Memory.read s.mem a)
        ∧ ∀ d ∈ (s.flushHome k).dirty, d ∈ s.dirty := by
      unfold State.flushHome
      split
      · exact ⟨h, fun _ _ => rfl, fun _ h => h⟩
      split
      · exact ⟨h, fun _ _ => rfl, fun _ h => h⟩
      rename_i d hd
      have hm : (s.sectorHome d d.pa).mem = Memory.writeBytes s.mem d.pa d.bytes := by
        unfold State.sectorHome State.l1Forget
        dsimp only
        rw [← writeCells_cellsOf]
        split <;> rfl
      refine ⟨?_, fun a ha => ?_, fun e he => (List.mem_filter.mp he).1⟩
      · rw [hm]; exact Memory.wf_writeBytes _ _ _ h
      · rw [hm]
        refine Memory.read_writeBytes_outside _ _ _ _ h ?_
        by_cases hc : d.pa ≤ a ∧ a < d.pa + d.bytes.length
        · exact absurd ⟨d, List.mem_of_find?_eq_some hd, hc⟩ ha
        · omega
    obtain ⟨g1, g2⟩ := ih (s.flushHome k) h1.1
    refine ⟨g1, fun a ha => (g2 a ?_).trans (h1.2.1 a ha)⟩
    rintro ⟨d, hd, hx⟩
    exact ha ⟨d, h1.2.2 d hd, hx⟩

theorem homeWrite_mem (s : State) (k : Nat) (l : List Byte) :
    (s.homeWrite k l).mem = Memory.writeBytes ((sectorsOf k l.length).foldl State.flushHome s).mem k l := by
  unfold State.homeWrite
  rw [breakResv_mem, storeCells_mem, writeCells_cellsOf]

theorem performStore_home (s : State) (k : Nat) (l : List Byte) : (s.performStore k l).mem = (s.homeWrite k l).mem := by
  have h : (((s.homeWrite k l).hostTouch k l.length true).portStore k l).mem = (s.homeWrite k l).mem := by
    have hp : ∀ u : State, (u.portStore k l).mem = u.mem := by
      intro u; unfold State.portStore; repeat' split
      all_goals rfl
    rw [hp, State.hostTouch_mem]
  unfold State.performStore
  dsimp only
  split
  · unfold State.touchScratch; rw [State.invalidate_mem, h]
  · exact h

/-- A write at a home puts its bytes there; a byte elsewhere changes only where a dirty sector that the write takes with it
holds it. -/
theorem performStore_read (s : State) (k : Nat) (l : List Byte) (h : Memory.wf s.mem = true) : Memory.wf (s.performStore k l).mem = true
    ∧ (∀ i, i < l.length → Memory.read (s.performStore k l).mem (k + i) = l.getD i 0)
    ∧ ∀ a, (a < k ∨ k + l.length ≤ a) → ¬ s.dirtyAt a → Memory.read (s.performStore k l).mem a = Memory.read s.mem a := by
  rw [performStore_home, homeWrite_mem]
  obtain ⟨h1, h2⟩ := flushAll_read (sectorsOf k l.length) s h
  exact ⟨Memory.wf_writeBytes _ _ _ h1, fun i hi => Memory.read_writeBytes_inside _ _ _ _ h1 hi,
    fun a ha hd => (Memory.read_writeBytes_outside _ _ _ _ h1 ha).trans (h2 a hd)⟩

end Sys2Proof.Machine
end

