-- ==== Sys2Proof/Laws/Matrix.lean ====
section
/-! SUPPORT. What matrix, table and tile instructions can do. -/
namespace Sys2Proof.Machine

theorem inRegion_none (r size lo n : Nat) (h : lo + n ≤ size) : inRegion r size lo n = none := by
  unfold inRegion faultIf; rw [if_neg]; simp; omega

theorem firstFault_cons_none (l : List (Option MxFault)) : firstFault (none :: l) = firstFault l := rfl

theorem firstFault_all (l : List (Option MxFault)) (h : ∀ x ∈ l, x = none) : firstFault l = none := by
  unfold firstFault; rw [List.findSome?_eq_none_iff]; exact h

theorem matrixRun_ready {s : State} {srcs : List Src} {ok : Group → Bool} {room : Bool} {pre : Option MxFault}
    {check : List LaneVec → Option MxFault} {wait : List LaneVec → Bool} {eff : List LaneVec → LaneMask → State → State}
    (h : ({ len := 8, srcs := srcs, ok := ok } : LaneForm).starts s) (hf : s.grp.laneInFlight = false) (hr : room = true) (hp : pre = none)
    (hc : check (s.grp.vectors srcs) = none) (hw : wait (s.grp.vectors srcs) = false) :
    matrixRun s srcs ok room pre check wait eff = .next (eff (s.grp.vectors srcs) s.grp.active
      (s.setGrp (s.grp.advanced { len := 8, srcs := srcs, ok := ok }))) := by
  subst hr hp
  unfold matrixRun
  simp only [hf, Bool.not_false, Bool.and_self, Option.isNone_none, if_true]
  rw [laneRun_ready h]
  · rfl
  · simp only [Bool.not_true, Bool.false_eq_true, if_false]
    rw [release_ready _ _ _ hf (by simp), hc]
    simp [hw]

theorem accept_eq (s : State) (l : Bool) (rows : LaneMask) (w : MatWork) (n : Nat) (f : BitVec 4) (g : Group) :
   (s.setGrp g).accept l rows w n f = (s.setGrp { g with batchOcc := true }).setCoreAt s.coreNo { s.core with ops := s.core.ops ++ [{
     grp := s.cur, blk := g.blk, batch := g.batchOpen, lookupArray := l, cfg := g.mcfg, fmode := g.fmode, rows := rows, work := w
     hand := n, flags := f }] } := by
  unfold State.accept
  simp only [State.grp_setGrp, State.setGrp_setGrp]
  rfl

theorem advanced_same (g : Group) (o : LaneForm) : (g.advanced o).blk = g.blk
          ∧ (g.advanced o).batchOpen = g.batchOpen ∧ (g.advanced o).mcfg = g.mcfg ∧ (g.advanced o).fmode = g.fmode := by
        unfold Group.advanced Group.laneNext Group.pop; dsimp only; split <;> exact ⟨rfl, rfl, rfl, rfl⟩

theorem setTable_table (s : State) (k j : Nat) (t : Table) : (s.setTable k t).blk.table j = if k = j then t else s.blk.table j := by
  unfold State.setTable Block.table
  show Map.get _ (State.blkAt (s.setBlkAt _ _) _).tables j = _
  have : (s.setBlkAt s.grp.blk { s.blk with tables := s.blk.tables.set k t }).blkAt s.grp.blk = { s.blk with tables := s.blk.tables.set k t } := by rw [State.blkAt_setBlkAt, if_pos rfl]
  exact (congrArg (fun b : Block => Map.get ({} : Table) b.tables j) this).trans (Map.get_set ..)

theorem dropTag_blk (s : State) (c t : Nat) : (s.dropTag c t).blk = s.blk ∧ (s.dropTag c t).grp = s.grp ∧ (s.dropTag c t).mem = s.mem := by
  unfold State.dropTag; dsimp only; split <;> exact ⟨rfl, rfl, rfl⟩

theorem replaceTable_spec (s : State) (k : Nat) (t : Table) : (∀ j, (s.replaceTable k t).blk.table j = if k = j then t else s.blk.table j)
   ∧ (s.replaceTable k t).grp = s.grp ∧ (s.replaceTable k t).mem = s.mem := by
  unfold State.replaceTable; dsimp only
  split
  · obtain ⟨h1, h2, h3⟩ := dropTag_blk (s.setTable k t) (s.setTable k t).coreNo (s.blk.table k).tag
    exact ⟨fun j => by rw [h1]; exact setTable_table s k j t, h2, h3⟩
  · exact ⟨fun j => setTable_table s k j t, rfl, rfl⟩

theorem bytes_writeBytes (s : State) (l : List Byte) (key n : Nat) (h : Memory.wf s.mem = true) (hl : l.length = n)
    (hk : 2 ^ 52 ≤ key) : (s.performStore key l).bytes key n = l := by
  unfold State.bytes Memory.bytes
  rw [performStore_mem _ _ _ hk, writeCells_cellsOf]
  apply List.ext_getElem
  · simp [hl]
  · intro i h1 h2
    simp only [List.getElem_map, List.getElem_range]
    rw [Memory.read_writeBytes_inside _ _ _ _ h h2]
    simp [List.getD, h2]

theorem writeDest_reg (s : State) (d : Code) (act : LaneMask) (f : Nat → W64) (hd : d.toNat < 112) :
    (s.writeDest false d act f).cur = s.cur ∧ (s.writeDest false d act f).grp = { s.grp with win := (s.writeDest false d act f).grp.win }
    ∧ (∀ i, i < 64 → (s.writeDest false d act f).grp.reg (s.grp.wbase + d.toNat) i = if act.getLsbD i then (f i).setWidth 32 else s.grp.reg (s.grp.wbase + d.toNat) i)
    ∧ ∀ q i, q ≠ s.grp.wbase + d.toNat → (s.writeDest false d act f).grp.reg q i = s.grp.reg q i := by
  unfold State.writeDest
  dsimp only
  rw [if_pos hd]
  split
  · rename_i h
    have h : act = 0#64 := by simpa using h
    subst h
    exact ⟨rfl, rfl, fun i _ => by simp, fun _ _ _ => rfl⟩
  · unfold State.touchRegs
    generalize hu : s.setGrp (s.grp.setWindow false d.toNat act f) = u
    have hug : u.grp = s.grp.setWindow false d.toNat act f := by rw [← hu, State.grp_setGrp]
    have hsp := (State.invalidate_spec u u.coreNo fun t => !t.scratch && t.owner == u.cur % 16
        && t.lo ≤ s.grp.wbase + d.toNat + (if false = true then 1 else 0) && s.grp.wbase + d.toNat ≤ t.hi).1
    revert hsp
    generalize u.invalidate _ _ = x
    intro hsp
    have hxg : x.grp = u.grp := by rw [hsp]; rfl
    have hxc : x.cur = s.cur := by rw [hsp, ← hu]; rfl
    rw [hxg, hug]
    refine ⟨hxc, ?_, fun i hi => ?_, fun q i hq => ?_⟩
    · exact Group.setWindow_eq _ _ _ _ _
    · unfold Group.setWindow
      simp only [Bool.false_eq_true, if_false]
      rw [Group.reg_setReg _ _ _ _ _ _ hi]; simp
    · unfold Group.setWindow
      simp only [Bool.false_eq_true, if_false]
      exact Group.reg_setReg_other _ _ _ _ (Ne.symm hq)

/-- A row of register writes. -/
theorem writeRow (d : Code) (act : LaneMask) (f : Nat → Nat → W64) (s : State) : ∀ n, d.toNat + n ≤ 112 →
    let t := (List.range n).foldl (fun u m => u.writeDest false (d + BitVec.ofNat 7 m) act (f m)) s
    t.cur = s.cur ∧ t.mem = s.mem ∧ t.grp = { s.grp with win := t.grp.win }
    ∧ (∀ i m, i < 64 → m < n → t.grp.reg (s.grp.wbase + d.toNat + m) i = if act.getLsbD i then (f m i).setWidth 32 else s.grp.reg (s.grp.wbase + d.toNat + m) i)
    ∧ (∀ q i, q < s.grp.wbase + d.toNat ∨ s.grp.wbase + d.toNat + n ≤ q → t.grp.reg q i = s.grp.reg q i) := by
  intro n
  induction n with
  | zero => intro _; exact ⟨rfl, rfl, rfl, fun _ _ _ h => absurd h (Nat.not_lt_zero _), fun _ _ _ => rfl⟩
  | succ n ih =>
    intro hn
    obtain ⟨a1, a2, a3, a4, a5⟩ := ih (by omega)
    simp only [List.range_succ, List.foldl_append, List.foldl_cons, List.foldl_nil]
    generalize hu : (List.range n).foldl (fun u m => u.writeDest false (d + BitVec.ofNat 7 m) act (f m)) s = u at *
    have hdn : (d + BitVec.ofNat 7 n).toNat = d.toNat + n := by
      rw [BitVec.toNat_add, BitVec.toNat_ofNat]; omega
    obtain ⟨b1, b2, b3, b4⟩ := writeDest_reg u (d + BitVec.ofNat 7 n) act (f n) (by omega)
    have hw : u.grp.wbase = s.grp.wbase := by rw [a3]
    rw [hw, hdn] at b3 b4
    refine ⟨b1.trans a1, (State.writeDest_mem _ _ _ _ _).trans a2, ?_, fun i m hi hm => ?_, fun q i hq => ?_⟩
    · rw [b2, a3]
    · by_cases hmn : m = n
      · subst hmn
        rw [show s.grp.wbase + d.toNat + m = s.grp.wbase + (d.toNat + m) by omega, b3 i hi]
        rw [show s.grp.wbase + (d.toNat + m) = s.grp.wbase + d.toNat + m by omega, a5 _ i (by omega)]
      · rw [b4 _ i (by omega), a4 i m hi (by omega)]
    · rw [b4 _ i (by omega), a5 q i (by omega)]

theorem writeRow_inactive (d : Code) (act : LaneMask) (f : Nat → Nat → W64) (s : State) (n : Nat) (h : d.toNat + n ≤ 112) (q i : Nat) (hi : i < 64)
    (ha : act.getLsbD i = false) :
    ((List.range n).foldl (fun u m => u.writeDest false (d + BitVec.ofNat 7 m) act (f m)) s).grp.reg q i = s.grp.reg q i := by
  obtain ⟨_, _, _, a4, a5⟩ := writeRow d act f s n h
  by_cases hq : q < s.grp.wbase + d.toNat ∨ s.grp.wbase + d.toNat + n ≤ q
  · exact a5 q i hq
  · have := a4 i (q - (s.grp.wbase + d.toNat)) hi (by omega)
    rw [show s.grp.wbase + d.toNat + (q - (s.grp.wbase + d.toNat)) = q by omega] at this
    rw [this, ha]; simp

theorem advanced_regs (g : Group) (o : LaneForm) : (g.advanced o).wbase = g.wbase ∧ (g.advanced o).win = g.win := by
  unfold Group.advanced Group.laneNext Group.pop; dsimp only; split <;> exact ⟨rfl, rfl⟩

theorem writeCells_append (m : List Host.Cell) (a b : List (Nat × Byte)) : Memory.writeCells m (a ++ b) = Memory.writeCells (Memory.writeCells m a) b := by
  induction a generalizing m with
  | nil => rfl
  | cons c a ih => exact ih _

theorem writeCells_flatMap {α : Type} (l : List α) (f : α → List (Nat × Byte)) : ∀ m, Memory.writeCells m (l.flatMap f) = l.foldl (fun m i => Memory.writeCells m (f i)) m := by
  induction l with
  | nil => intro m; rfl
  | cons a l ih => intro m; rw [List.flatMap_cons, writeCells_append, ih]; rfl

theorem setFlags_keeps (s : State) (k : Nat) (f : BitVec 4) : (s.setFlags k f).mem = s.mem ∧ (∀ j, (s.setFlags k f).grpAt j = { s.grpAt j with mstat := ((s.setFlags k f).grpAt j).mstat }) ∧ (s.setFlags k f).cur = s.cur := by
  unfold State.setFlags
  refine ⟨rfl, fun j => ?_, rfl⟩
  simp only [State.grpAt_setGrpAt]
  split
  · rename_i h; subst h; rfl
  · rfl

theorem leNat_leBytes (n : Nat) : ∀ v, leNat (leBytes n v) = v % 256 ^ n := by
  induction n with
  | zero => intro v; simp [leBytes, leNat, Nat.mod_one]
  | succ n ih =>
    intro v
    simp only [leBytes, leNat, ih, BitVec.toNat_ofNat]
    rw [show 256 ^ (n + 1) = 256 * 256 ^ n from by rw [Nat.pow_succ, Nat.mul_comm], Nat.mod_mul]
    omega

theorem le_writeBytes (m : List Host.Cell) (k n v : Nat) (h : Memory.wf m = true) :
    leNat (Memory.bytes (Memory.writeBytes m k (leBytes n v)) k n) = v % 256 ^ n := by
  rw [← leNat_leBytes]
  congr 1
  unfold Memory.bytes
  apply List.ext_getElem
  · simp [leBytes_length]
  · intro i h1 h2
    simp only [List.getElem_map, List.getElem_range]
    rw [Memory.read_writeBytes_inside _ _ _ _ h h2]
    simp [List.getD, h2]

theorem bytes_congr (m m' : List Host.Cell) (k n : Nat) (h : ∀ i, i < n → Memory.read m (k + i) = Memory.read m' (k + i)) :
    Memory.bytes m k n = Memory.bytes m' k n := by
  unfold Memory.bytes
  apply List.map_congr_left
  intro i hi; exact h i (List.mem_range.1 hi)

/-- One element updated at its word. -/
def updWord {α : Type} (key : α → Nat) (val : α → Nat → Nat × BitVec 4) (p : State × BitVec 4) (a : α) : State × BitVec 4 :=
  ({ p.1 with mem := Memory.writeBytes p.1.mem (key a) (leBytes 4 (val a (p.1.le (key a) 4)).1) }, p.2 ||| (val a (p.1.le (key a) 4)).2)

theorem updWords {α : Type} (key : α → Nat) (val : α → Nat → Nat × BitVec 4) (l : List α) :
    ∀ p : State × BitVec 4, Memory.wf p.1.mem = true → l.Pairwise (fun a b => key a + 4 ≤ key b ∨ key b + 4 ≤ key a) →
    let q := l.foldl (updWord key val) p
    q.1 = { p.1 with mem := q.1.mem } ∧ Memory.wf q.1.mem = true
    ∧ (∀ k, (∀ a ∈ l, k < key a ∨ key a + 4 ≤ k) → Memory.read q.1.mem k = Memory.read p.1.mem k)
    ∧ (∀ a ∈ l, q.1.le (key a) 4 = (val a (p.1.le (key a) 4)).1 % 2 ^ 32) := by
  induction l with
  | nil => intro p h _; exact ⟨rfl, h, fun _ _ => rfl, fun _ h => absurd h (List.not_mem_nil)⟩
  | cons a l ih =>
    intro p h hp
    rw [List.pairwise_cons] at hp
    have hw : Memory.wf (updWord key val p a).1.mem = true := Memory.wf_writeBytes _ _ _ h
    obtain ⟨i1, i2, i3, i4⟩ := ih (updWord key val p a) hw hp.2
    rw [List.foldl_cons]
    refine ⟨i1, i2, fun k hk => ?_, fun b hb => ?_⟩
    · rw [i3 k fun b hb => hk b (List.mem_cons_of_mem _ hb)]
      have := hk a (List.mem_cons_self ..)
      exact Memory.read_writeBytes_outside _ _ _ _ h (by rw [leBytes_length]; exact this)
    · rw [List.mem_cons] at hb
      rcases hb with rfl | hb
      · have h1 : ((l.foldl (updWord key val) (updWord key val p b)).1.le (key b) 4) = (updWord key val p b).1.le (key b) 4 := by
          unfold State.le
          rw [bytes_congr _ (updWord key val p b).1.mem _ _ fun i hi => i3 _ fun c hc => by have := hp.1 c hc; omega]
        rw [h1]
        exact le_writeBytes _ _ _ _ h
      · rw [i4 b hb]
        have h1 : (updWord key val p a).1.le (key b) 4 = p.1.le (key b) 4 := by
          unfold State.le
          refine congrArg leNat (bytes_congr _ p.1.mem _ _ fun i hi => ?_)
          have := hp.1 b hb
          exact Memory.read_writeBytes_outside _ _ _ _ h (by rw [leBytes_length]; omega)
        rw [h1]

theorem denseInt (x : Mx) (h : x.ints = true) (fm : W64) (sc : Nat → FVal) (a : List Nat) (b : List (Option Nat)) (acc : Nat) :
   Int.ofNat (denseElement x fm sc a b acc).1 = (Int.ofNat acc + ((a.zip b).map fun p => match p.2 with
      | some v => mxInt x.afmt p.1 * mxInt x.bfmt v
      | none => 0).sum) % 2 ^ 32 ∧ (denseElement x fm sc a b acc).1 < 2 ^ 32 ∧ (denseElement x fm sc a b acc).2 = 0 := by
  unfold denseElement
  rw [if_pos h]
  have hs : ∀ (l : List (Nat × Option Nat)) (t : Int), l.foldl (fun (t : Int) p => match p.2 with
      | some v => t + mxInt x.afmt p.1 * mxInt x.bfmt v
      | none => t) t = t + (l.map fun p => match p.2 with
      | some v => mxInt x.afmt p.1 * mxInt x.bfmt v
      | none => 0).sum := by
    intro l
    induction l with
    | nil => intro t; simp
    | cons p l ih =>
      intro t
      rw [List.foldl_cons, ih, List.map_cons, List.sum_cons]
      cases p.2 <;> simp <;> omega
  have e := hs (a.zip b) acc
  generalize hz : (List.map _ (a.zip b) : List Int).sum = z at e ⊢
  generalize hF : List.foldl _ (acc : Int) (a.zip b) = F
  have e' : F = (acc : Int) + z := hF.symm.trans e
  rw [e']
  refine ⟨?_, ?_, rfl⟩
  · show ((_ : Nat) : Int) = _
    rw [Int.toNat_of_nonneg (Int.emod_nonneg _ (by decide))]; rfl
  · have h1 := Int.emod_nonneg ((acc : Int) + z) (show (2 ^ 32 : Int) ≠ 0 by decide)
    have h2 := Int.emod_lt_of_pos ((acc : Int) + z) (show (0 : Int) < 2 ^ 32 by decide)
    show (((acc : Int) + z) % 2 ^ 32).toNat < 2 ^ 32
    omega

end Sys2Proof.Machine
end

