-- ==== Sys2Proof/Laws/Hart.lean ====
section
/-! SUPPORT. What the shared operations of the access stream can do: tokens, accesses, stores, traps, control registers. -/
namespace Sys2Proof.Machine

/-- The tokens that free registers hold are observed, unless the instruction then waits, which keeps them. -/
theorem hartRun_settled {s : State} {reads writes : List XReg} (k : State → Out) (h : s.hartFree (reads ++ writes)) :
    hartRun s reads writes k = if Out.waits (k (s.settled reads writes)) then k s else k (s.settled reads writes) := by
  unfold hartRun State.settled
  split
  · split <;> rfl
  · rw [if_neg]
    rw [Bool.not_eq_true, List.any_eq_false]
    intro r hr; rw [h r hr]; simp

theorem hartRun_free {s : State} {reads writes : List XReg} (k : State → Out) (h : s.hartFree (reads ++ writes))
    (hw : (k (s.settled reads writes)).waits = false) : hartRun s reads writes k = k (s.settled reads writes) := by
  rw [hartRun_settled k h, hw]; rfl

/-- An instruction that completes observes the tokens of the registers that it names. -/
theorem hartRun_done {s t : State} {reads writes : List XReg} {k : State → Out} (h : s.hartFree (reads ++ writes))
    (hk : k (s.settled reads writes) = .next t) (hw : t.grp.hartWait = none) : hartRun s reads writes k = .next t := by
  rw [hartRun_free k h (by rw [hk]; simp [Out.waits, hw]), hk]

theorem waits_setGrp (s : State) (g : Group) : Out.waits (.next (s.setGrp g)) = g.hartWait.isSome := by
  simp [Out.waits]

theorem waits_hartDone (s : State) (rd : XReg) (v : W64) : Out.waits (.next (s.hartDone rd v)) = false := by
  unfold State.hartDone; rw [waits_setGrp]; rfl

theorem l1Clear_spec (s : State) (c : Nat) : s.l1Clear c = { s with cores := (s.l1Clear c).cores }
    ∧ ∀ k, (s.l1Clear c).coreAt k = { s.coreAt k with l1 := ((s.l1Clear c).coreAt k).l1 } := by
  unfold State.l1Clear
  dsimp only
  split
  · exact ⟨rfl, fun _ => rfl⟩
  · refine ⟨rfl, fun k => ?_⟩
    rw [State.coreAt_setCoreAt]
    split
    · rename_i h; subst h; rfl
    · rfl

/-- What settling tokens changes: the tokens, and the lane L1 where one is observed. -/
theorem settled_spec (s : State) (reads writes : List XReg) :
    (s.settled reads writes).grp = { s.grp with tokens := (s.settled reads writes).grp.tokens }
    ∧ s.settled reads writes = { s with groups := (s.settled reads writes).groups, cores := (s.settled reads writes).cores }
    ∧ (∀ k, k ≠ s.cur → (s.settled reads writes).grpAt k = s.grpAt k)
    ∧ ∀ c, (s.settled reads writes).coreAt c = { s.coreAt c with l1 := ((s.settled reads writes).coreAt c).l1 } := by
  unfold State.settled
  split
  · exact ⟨rfl, rfl, fun _ _ => rfl, fun _ => rfl⟩
  · unfold State.observe
    dsimp only
    split
    · obtain ⟨h1, h2⟩ := l1Clear_spec s s.coreNo
      unfold State.hartAcquire
      generalize s.l1Clear s.coreNo = t at h1 h2
      have hg : t.grpAt = s.grpAt := by rw [h1]; rfl
      refine ⟨?_, ?_, fun k hk => ?_, fun c => ?_⟩
      · rw [State.grp_setGrp]
      · rw [h1]; rfl
      · rw [State.grpAt_setGrp, if_neg, hg]
        rw [h1]; exact Ne.symm hk
      · exact h2 c
    · refine ⟨?_, rfl, fun k hk => ?_, fun c => rfl⟩
      · rw [State.grp_setGrp]
      · rw [State.grpAt_setGrp, if_neg (Ne.symm hk)]

theorem settled_xr (s : State) (reads writes : List XReg) (r : XReg) : (s.settled reads writes).grp.xr r = s.grp.xr r := by
  rw [(settled_spec s reads writes).1]; rfl

theorem settled_pc (s : State) (reads writes : List XReg) : (s.settled reads writes).grp.pc = s.grp.pc := by
  rw [(settled_spec s reads writes).1]

theorem settled_mem (s : State) (reads writes : List XReg) : (s.settled reads writes).mem = s.mem := by
  rw [(settled_spec s reads writes).2.1]

theorem settled_cur (s : State) (reads writes : List XReg) : (s.settled reads writes).cur = s.cur := by
  rw [(settled_spec s reads writes).2.1]

theorem low2 (a : W64) : (a.getLsbD 0 || a.getLsbD 1) = !decide (a % 4 = 0) := by
  have h : a % 4 = 0 ↔ a.toNat % 4 = 0 := by
    constructor
    · intro h; have := congrArg BitVec.toNat h; simpa using this
    · intro h; apply BitVec.eq_of_toNat_eq; simpa using h
  have h0 : a.getLsbD 0 = decide (a.toNat % 2 = 1) := by
    simp [BitVec.getLsbD, Nat.testBit_eq_decide_div_mod_eq]
  have h1 : a.getLsbD 1 = decide (a.toNat / 2 % 2 = 1) := by
    simp [BitVec.getLsbD, Nat.testBit_eq_decide_div_mod_eq]
  rw [h0, h1]
  by_cases hz : a % 4 = 0
  · have := h.1 hz
    rw [decide_eq_true hz, decide_eq_false (by omega), decide_eq_false (by omega)]; rfl
  · have : a.toNat % 4 ≠ 0 := fun e => hz (h.2 e)
    rw [decide_eq_false hz]
    by_cases h2 : a.toNat % 2 = 1
    · simp [h2]
    · rw [decide_eq_true (show a.toNat / 2 % 2 = 1 by omega)]; simp

/-- A tagged scratch address names its block's scratch, in either mode. -/
theorem place_hart (s : State) (k : Nat) (m : Bool) (a : W64) (h : a.toNat / 2 ^ 56 = 0xF0)
    (hb : (a &&& 0x00FFFFFFFFFFFFFF).toNat < (s.blkAt (s.grpAt k).blk).scratch) :
    s.place k m a = .ok (.scratch (a &&& 0x00FFFFFFFFFFFFFF).toNat) := by
  have hlow : bits a.toNat 55 0 = (a &&& 0x00FFFFFFFFFFFFFF).toNat := by
    rw [BitVec.toNat_and]
    unfold bits
    rw [show (0x00FFFFFFFFFFFFFF : W64).toNat = 2 ^ 56 - 1 from rfl, Nat.and_two_pow_sub_one_eq_mod]
    simp
  unfold State.place
  simp only [h, hlow, hb, if_true]

/-- Only a hit of the hart cache in global or private space needs no request. -/
theorem cachedReach_far (s : State) (a : W64) (n : Nat) (need : Need) (h : s.globalVa s.cur a = none) :
    s.cachedReach a n need = s.reach s.cur s.mmode a n need := by
  unfold State.cachedReach; rw [h]; simp

theorem hartReach_scratch (s : State) (a : W64) (n : Nat) (need : Need) (load blockOk : Bool) (hn : 0 < n)
    (h : a.toNat / 2 ^ 56 = 0xF0) (hal : a.toNat % n = 0) (hb : (a &&& 0x00FFFFFFFFFFFFFF).toNat + n ≤ s.blk.scratch)
    (hnet : ∀ m ∈ s.net, m.src ≠ s.cur) (hf : s.fencedKey (scratchKey s.grp.blk (a &&& 0x00FFFFFFFFFFFFFF).toNat) = false)
    (hp : need ≠ .write → s.poisoned (scratchKey s.grp.blk (a &&& 0x00FFFFFFFFFFFFFF).toNat) n = false)
    (hl : s.grp.loadsAway = false) :
    s.hartReach a n need load blockOk = .home (scratchKey s.grp.blk (a &&& 0x00FFFFFFFFFFFFFF).toNat) none none := by
  have hb' : (a &&& 0x00FFFFFFFFFFFFFF).toNat + n ≤ (s.blkAt (s.grpAt s.cur).blk).scratch := hb
  have hpl := place_hart s s.cur s.mmode a h (by omega)
  have hst : s.sentTo (s.placeTarget (.scratch (a &&& 0x00FFFFFFFFFFFFFF).toNat)) = false := by
    unfold State.sentTo
    rw [List.any_eq_false]; intro m hm; simp [hnet m hm]
  have hre : s.cachedReach a n need = .ok (scratchKey s.grp.blk (a &&& 0x00FFFFFFFFFFFFFF).toNat) none := by
    rw [cachedReach_far s a n need (by unfold State.globalVa; rw [place_hart s s.cur false a h (by omega)])]
    unfold State.reach
    rw [hpl]; simp only [hb', if_true]; rfl
  unfold State.hartReach
  rw [hal, hpl]
  simp only [bne_self_eq_false, Bool.false_eq_true, if_false, Place.posted, hst, hre, hl, Bool.false_and, lineWait_scratch]
  rw [hf]
  by_cases hw : need = .write
  · subst hw; rfl
  · rw [hp hw]; simp

theorem settled_net (s : State) (r w : List XReg) : (s.settled r w).net = s.net := by rw [(settled_spec s r w).2.1]

theorem settled_blk (s : State) (r w : List XReg) : (s.settled r w).blk = s.blk ∧ (s.settled r w).grp.blk = s.grp.blk := by
  have hg : (s.settled r w).grp.blk = s.grp.blk := by rw [(settled_spec s r w).1]
  refine ⟨?_, hg⟩
  show (s.settled r w).blkAt (s.settled r w).grp.blk = s.blkAt s.grp.blk
  rw [hg, (settled_spec s r w).2.1]; rfl

theorem settled_poison (s : State) (r w : List XReg) (k n : Nat) : (s.settled r w).poisoned k n = s.poisoned k n ∧ (s.settled r w).fencedKey k = s.fencedKey k := by
  rw [(settled_spec s r w).2.1]; exact ⟨rfl, rfl⟩

theorem loadKind_pos (k : LoadKind) : 0 < LoadKind.bytes k := by cases k <;> decide

theorem storeKind_pos (k : StoreKind) : 0 < StoreKind.bytes k := by cases k <;> decide

theorem hartReach_misaligned (s : State) (a : W64) (n : Nat) (need : Need) (load b : Bool) (h : a.toNat % n ≠ 0) :
    s.hartReach a n need load b = .fault (s.trap (misalignedCause load) a) := by
  unfold State.hartReach; rw [if_pos (by simpa using h)]

theorem hartReach_space (s : State) (a : W64) (n : Nat) (need : Need) (load b : Bool) (h : a.toNat % n = 0)
    (hs : s.place s.cur s.mmode a = .error .space) : s.hartReach a n need load b = .fault (s.trap (spaceCause load) a) := by
  unfold State.hartReach; rw [if_neg (by simpa using h), hs]

theorem hartSeen_spec (s : State) (key n : Nat) (t : Option TlbEntry) (va : Option Nat) :
    (s.hartSeen key n t va).grp = s.grp ∧ (s.hartSeen key n t va).mem = s.mem := by
  have h1 : ∀ s : State, (s.keepTlb? t).grp = s.grp ∧ (s.keepTlb? t).mem = s.mem := by
    intro s; unfold State.keepTlb?; split
    · obtain ⟨a, b, h⟩ := s.keepTlb_spec ‹_›; rw [h]; exact ⟨rfl, rfl⟩
    · exact ⟨rfl, rfl⟩
  have h2 : ∀ s : State, (s.hostTouch key n false).grp = s.grp ∧ (s.hostTouch key n false).mem = s.mem := by
    intro s; unfold State.hostTouch; split <;> exact ⟨rfl, rfl⟩
  have h3 : ∀ s : State, (s.touchL1 va).grp = s.grp ∧ (s.touchL1 va).mem = s.mem := by
    intro s; unfold State.touchL1; split
    · unfold State.l1Drop; dsimp only; split <;> exact ⟨rfl, rfl⟩
    · exact ⟨rfl, rfl⟩
  have hu : (((s.keepTlb? t).hostTouch key n false).touchL1 va).grp = s.grp ∧ (((s.keepTlb? t).hostTouch key n false).touchL1 va).mem = s.mem :=
    ⟨by rw [(h3 _).1, (h2 _).1, (h1 _).1], by rw [(h3 _).2, (h2 _).2, (h1 _).2]⟩
  unfold State.hartSeen
  dsimp only
  split
  · split
    · exact hu
    · exact ⟨by rw [meter_grp]; exact hu.1, by rw [State.meter_mem]; exact hu.2⟩
  · exact hu

theorem grp_l1Clear (s : State) (c : Nat) : (s.l1Clear c).grp = s.grp ∧ (s.l1Clear c).mem = s.mem := by
  rw [(l1Clear_spec s c).1]; exact ⟨rfl, rfl⟩

theorem xr_setX_same (g : Group) (r : XReg) (v : W64) (h : r ≠ 0) : (g.setX r v).xr r = v := by
  have hr : (r == 0) = false := by simpa using h
  unfold Group.setX Group.xr
  rw [hr]
  simp only [Bool.false_eq_true, if_false, Map.get_set, if_true]

theorem setX_fields (g : Group) (r : XReg) (v : W64) : (g.setX r v).pc = g.pc ∧ (g.setX r v).resv = g.resv ∧ (g.setX r v).mstatus = g.mstatus
    ∧ (g.setX r v).mtvec = g.mtvec ∧ (g.setX r v).mie = g.mie ∧ (g.setX r v).mscratch = g.mscratch ∧ (g.setX r v).mepc = g.mepc
    ∧ (g.setX r v).mcause = g.mcause ∧ (g.setX r v).mtval = g.mtval ∧ (g.setX r v).mlpc = g.mlpc ∧ (g.setX r v).slip = g.slip ∧ (g.setX r v).mstat = g.mstat := by
  unfold Group.setX; split <;> exact ⟨rfl, rfl, rfl, rfl, rfl, rfl, rfl, rfl, rfl, rfl, rfl, rfl⟩

theorem notFabric (a : W64) (h : a.toNat / 2 ^ 56 ≠ 0xF1) : isFabric a = false := by unfold isFabric; simpa using h

theorem hartPut_kept (s : State) (key : Nat) (t : Option TlbEntry) (va : Option Nat) (l : List Byte) :
    (s.hartPut key t va l).cur = s.cur ∧ (s.hartPut key t va l).grp = { s.grp with resv := (s.hartPut key t va l).grp.resv } := by
  have key1 : ∀ (u v : State), u.cur = s.cur → u.grp = s.grp → Kept u v → v.cur = s.cur ∧ v.grp = { s.grp with resv := v.grp.resv } := by
    intro u v h1 h2 ⟨k1, _, _, k4, _⟩
    refine ⟨k1.trans h1, ?_⟩
    show v.grpAt v.cur = { s.grp with resv := (v.grpAt v.cur).resv }
    rw [k1, k4, ← h2]; rfl
  have hk : ∀ s : State, (s.keepTlb? t).cur = s.cur ∧ (s.keepTlb? t).grp = s.grp := by
    intro s; unfold State.keepTlb?; split
    · obtain ⟨a, b, h⟩ := s.keepTlb_spec ‹_›; rw [h]; exact ⟨rfl, rfl⟩
    · exact ⟨rfl, rfl⟩
  have h3 : ∀ s : State, (s.touchL1 va).cur = s.cur ∧ (s.touchL1 va).grp = s.grp := by
    intro s; unfold State.touchL1; split
    · unfold State.l1Drop; dsimp only; split <;> exact ⟨rfl, rfl⟩
    · exact ⟨rfl, rfl⟩
  have hu : ((s.keepTlb? t).touchL1 va).cur = s.cur ∧ ((s.keepTlb? t).touchL1 va).grp = s.grp :=
    ⟨by rw [(h3 _).1, (hk _).1], by rw [(h3 _).2, (hk _).2]⟩
  unfold State.hartPut
  dsimp only
  split
  · exact key1 _ _ hu.1 hu.2 (performStore_kept _ _ _)
  · rename_i v
    have hme : ∀ n, (((s.keepTlb? t).touchL1 (some v)).meter (16 + s.cur % 16) v n t).cur = s.cur
        ∧ (((s.keepTlb? t).touchL1 (some v)).meter (16 + s.cur % 16) v n t).grp = s.grp := fun n =>
      ⟨Eq.trans (by unfold State.meter; dsimp only; split <;> rfl) hu.1, by rw [meter_grp]; exact hu.2⟩
    split
    · exact key1 _ _ (hme _).1 (hme _).2 (writeAs_kept _ _ _ _)
    · generalize hm : (if (s.dirtyOf s.asid v).isSome = true then (s.keepTlb? t).touchL1 (some v) else ((s.keepTlb? t).touchL1 (some v)).meter (16 + s.cur % 16) v l.length t) = m
      have hmm : m.cur = s.cur ∧ m.grp = s.grp := by
        rw [← hm]; split
        · exact hu
        · exact hme _
      exact key1 m _ hmm.1 hmm.2 (((breakResv_kept _ _ _).trans (hostTouch_kept _ _ _ _)).trans ⟨rfl, rfl, rfl, fun _ => rfl, fun _ => rfl⟩)

theorem afterRelease_clean (s : State) (k : State → Out) (h1 : s.grp.hartInFlight = false) (h2 : s.dirtyBy s.cur = [])
    (h3 : s.evicting s.coreNo = false) (h4 : s.grp.loadsAway = false) : afterRelease s k = k s := by
  unfold afterRelease State.hartRelease State.writeBackOwn
  rw [h1, h2, h4]
  simp [State.writeBackAll, h3]

theorem mstatusOf_fields (a b c d : Bool) : mstatusMie (mstatusOf a b c d) = a ∧ mstatusMpie (mstatusOf a b c d) = b
    ∧ mstatusMppM (mstatusOf a b c d) = c ∧ mstatusTw (mstatusOf a b c d) = d := by
  cases a <;> cases b <;> cases c <;> cases d <;> decide

/-- What a trace record changes: the partition's trace, and what a write at its home changes. -/
theorem trace_spec (s : State) (k kind asid p : Nat) :
    s.trace k kind asid p = { s with mem := (s.trace k kind asid p).mem, poison := (s.trace k kind asid p).poison, cores := (s.trace k kind asid p).cores,
                                     dirty := (s.trace k kind asid p).dirty, cipher := (s.trace k kind asid p).cipher, groups := (s.trace k kind asid p).groups, parts := (s.trace k kind asid p).parts }
    ∧ (∀ j, (s.trace k kind asid p).grpAt j = { s.grpAt j with resv := ((s.trace k kind asid p).grpAt j).resv })
    ∧ (∀ j, (s.grpAt j).resv = none → (s.trace k kind asid p).grpAt j = s.grpAt j)
    ∧ ∀ c, (s.trace k kind asid p).coreAt c = { s.coreAt c with l1 := ((s.trace k kind asid p).coreAt c).l1 } := by
  unfold State.trace
  dsimp only
  split
  · exact ⟨rfl, fun _ => rfl, fun _ _ => rfl, fun _ => rfl⟩
  · split
    · exact ⟨rfl, fun _ => rfl, fun _ _ => rfl, fun _ => rfl⟩
    · generalize leBytes 32 _ = r
      generalize (s.part _) = q
      generalize (BitVec.toNat _ + 32 * _) = a
      obtain ⟨h1, h2, h3⟩ := homeWrite_spec s a r
      have h4 := homeWrite_none s a r
      generalize s.homeWrite a r = u at h1 h2 h3 h4
      generalize { q with traceTail := _ } = q'
      generalize s.partOfCore _ = n
      refine ⟨?_, h2, h4, h3⟩
      rw [h1]; rfl

theorem trace_kept (s : State) (k kind asid p : Nat) : Kept s (s.trace k kind asid p) := by
  obtain ⟨h1, h2, -, -⟩ := trace_spec s k kind asid p
  refine ⟨by rw [h1], by rw [h1], by rw [h1], h2, fun b => ?_⟩
  have : (s.trace k kind asid p).blkAt b = s.blkAt b := by rw [h1]; rfl
  rw [this]

theorem trace_l1 (s : State) (k kind asid p c : Nat) (h : (s.coreAt c).l1 = []) : ((s.trace k kind asid p).coreAt c).l1 = [] := by
  unfold State.trace
  dsimp only
  split
  · exact h
  · split
    · exact h
    · exact homeWrite_l1 _ _ _ _ h

theorem trap_spec (s : State) (cause : Nat) (val : W64) : (s.trap cause val).grp = (s.grp.stallEnd s.cycles).trap cause false val
      ∧ s.trap cause val = { s with groups := (s.trap cause val).groups, mem := (s.trap cause val).mem, poison := (s.trap cause val).poison,
                                    cores := (s.trap cause val).cores, dirty := (s.trap cause val).dirty, cipher := (s.trap cause val).cipher, parts := (s.trap cause val).parts }
      ∧ (∀ k, k ≠ s.cur → (s.trap cause val).grpAt k = { s.grpAt k with resv := ((s.trap cause val).grpAt k).resv })
      ∧ ∀ c, (s.trap cause val).coreAt c = { s.coreAt c with l1 := ((s.trap cause val).coreAt c).l1 } := by
  unfold State.trap State.trapAt
  dsimp only
  generalize State.asid _ = b at *
  generalize (State.launchAt _ _).asid = a
  generalize (BitVec.toNat _ + 2 ^ 64 * _) = p
  have hg : ((s.setGrpAt s.cur (((s.grpAt s.cur).stallEnd s.cycles).trap cause false val)).grpAt s.cur) = (s.grp.stallEnd s.cycles).trap cause false val :=
    State.grp_setGrp ..
  obtain ⟨h1, h2, h3, h4⟩ := trace_spec (s.setGrpAt s.cur (((s.grpAt s.cur).stallEnd s.cycles).trap cause false val)) s.cur 1 a p
  have hc : (State.trace (s.setGrpAt s.cur (((s.grpAt s.cur).stallEnd s.cycles).trap cause false val)) s.cur 1 a p).cur = s.cur := by rw [h1]; rfl
  refine ⟨?_, ?_, fun k hk => ?_, fun c => h4 c⟩
  · unfold State.grp
    rw [hc, h3 s.cur (by rw [hg]; rfl), hg]; rfl
  · rw [h1]; rfl
  · rw [h2 k]
    have : (s.setGrpAt s.cur (((s.grpAt s.cur).stallEnd s.cycles).trap cause false val)).grpAt k = s.grpAt k := by
      show State.grpAt (s.setGrp _) k = _
      rw [State.grpAt_setGrp, if_neg (Ne.symm hk)]
    rw [this]

theorem settled_hword (s : State) (r w : List XReg) : (s.settled r w).grp.hword = s.grp.hword := by rw [(settled_spec s r w).1]

theorem settled_csrSrc (s : State) (r w : List XReg) (src : CsrSrc) : (s.settled r w).grp.csrSrc src = s.grp.csrSrc src := by
  cases src
  · exact settled_xr ..
  · rfl

/-- A CSR write that the rules allow changes the acting group's own record only, and neither its registers nor its pc. -/
theorem csrPut_spec (s : State) (c : Nat) (v : W64) : ((s.csrPut c v) = s ∨ ∃ g, s.csrPut c v = s.setGrp g)
    ∧ (s.csrPut c v).grp.x = s.grp.x ∧ (s.csrPut c v).grp.pc = s.grp.pc ∧ (c ≠ 0x300 → (s.csrPut c v).grp.mstatus = s.grp.mstatus) := by
  unfold State.csrPut
  dsimp only
  split <;> first
    | exact ⟨.inr ⟨_, rfl⟩, by rw [State.grp_setGrp], by rw [State.grp_setGrp], fun h => absurd rfl h⟩
    | exact ⟨.inr ⟨_, rfl⟩, by rw [State.grp_setGrp], by rw [State.grp_setGrp], fun _ => by rw [State.grp_setGrp]⟩
    | exact ⟨.inl rfl, rfl, rfl, fun _ => rfl⟩

theorem hartDone_spec (s : State) (rd : XReg) (v : W64) : OnlyGroup s (s.hartDone rd v) ∧ (rd ≠ 0 → (s.hartDone rd v).grp.xr rd = v)
    ∧ (s.hartDone rd v).grp = (s.grp.setX rd v).hartNext := by
  refine ⟨OnlyGroup.setGrp _ _, fun h => ?_, State.grp_setGrp _ _⟩
  rw [State.hartDone, State.grp_setGrp]
  exact xr_setX_same _ _ _ h

theorem countBlkErr_grp (s : State) (c : Nat) : (s.countBlkErr c).grp = s.grp ∧ (s.countBlkErr c).mem = s.mem := ⟨rfl, rfl⟩

end Sys2Proof.Machine
end

