-- ==== Sys2Proof/Laws/Queues.lean ====
section
/-! SUPPORT. What the access stream's queue operations can do: reads of scratch, gathered entries, near stores. -/
namespace Sys2Proof.Machine

theorem setX_fbq (g : Group) (r : XReg) (v : W64) : (g.setX r v).fbq = g.fbq := by unfold Group.setX; split <;> rfl

theorem globalVa_hart (s : State) (a : W64) (h : a.toNat / 2 ^ 56 = 0xF0)
    (hb : (a &&& 0x00FFFFFFFFFFFFFF).toNat < s.blk.scratch) : s.globalVa s.cur a = none := by
  unfold State.globalVa
  have := place_hart s s.cur false a h hb
  rw [this]

theorem reach_hart (s : State) (m : Bool) (a : W64) (n : Nat) (need : Need) (hn : 0 < n) (h : a.toNat / 2 ^ 56 = 0xF0)
    (hb : (a &&& 0x00FFFFFFFFFFFFFF).toNat + n ≤ s.blk.scratch) :
    s.reach s.cur m a n need = .ok (scratchKey s.grp.blk (a &&& 0x00FFFFFFFFFFFFFF).toNat) none := by
  have hb' : (a &&& 0x00FFFFFFFFFFFFFF).toNat + n ≤ (s.blkAt (s.grpAt s.cur).blk).scratch := hb
  have hpl := place_hart s s.cur m a h (by omega)
  unfold State.reach
  rw [hpl]; simp only [hb', if_true]; rfl

/-- A read of the block's own scratch, in range and off poisoned words, gives its bytes. -/
theorem readBytes_scratch (s : State) (a : W64) (n space data : Nat) (hn : 0 < n) (h : a.toNat / 2 ^ 56 = 0xF0)
    (hb : (a &&& 0x00FFFFFFFFFFFFFF).toNat + n ≤ s.blk.scratch) (hnet : ∀ m ∈ s.net, m.src ≠ s.cur)
    (hp : s.poisoned (scratchKey s.grp.blk (a &&& 0x00FFFFFFFFFFFFFF).toNat) n = false) (hl : s.grp.loadsAway = false) :
    s.readBytes a n space data = .ok (s.bytes (scratchKey s.grp.blk (a &&& 0x00FFFFFFFFFFFFFF).toNat) n)
      (s.hartSeen (scratchKey s.grp.blk (a &&& 0x00FFFFFFFFFFFFFF).toNat) n none none) := by
  have hb' : (a &&& 0x00FFFFFFFFFFFFFF).toNat + n ≤ (s.blkAt (s.grpAt s.cur).blk).scratch := hb
  have hpl := place_hart s s.cur s.mmode a h (by omega)
  have hst : s.sentTo (s.placeTarget (.scratch (a &&& 0x00FFFFFFFFFFFFFF).toNat)) = false := by
    unfold State.sentTo
    rw [List.any_eq_false]; intro m hm; simp [hnet m hm]
  have hf : s.fencedKey (scratchKey s.grp.blk (a &&& 0x00FFFFFFFFFFFFFF).toNat) = false := by
    unfold State.poisoned at hp; exact (Bool.or_eq_false_iff.1 hp).1
  unfold State.readBytes
  rw [hpl]
  simp only [hst, hl, cachedReach_far s a n .read (globalVa_hart s a h (by omega)), reach_hart s s.mmode a n .read hn h hb, lineWait_scratch, hf, hp]
  rw [show s.hartBytes (scratchKey s.grp.blk (a &&& 0x00FFFFFFFFFFFFFF).toNat) n none = s.bytes (scratchKey s.grp.blk (a &&& 0x00FFFFFFFFFFFFFF).toNat) n from
    worldBytes_far _ _ _ _ (by unfold scratchKey; omega)]
  rfl


theorem hartSeen_cur (s : State) (key n : Nat) (t : Option TlbEntry) (va : Option Nat) : (s.hartSeen key n t va).cur = s.cur := by
  have h1 : ∀ s : State, (s.keepTlb? t).cur = s.cur := by
    intro s; unfold State.keepTlb?; split
    · obtain ⟨a, b, h⟩ := s.keepTlb_spec ‹_›; rw [h]
    · rfl
  have h2 : ∀ s : State, (s.hostTouch key n false).cur = s.cur := by
    intro s; unfold State.hostTouch; split <;> rfl
  have h3 : ∀ s : State, (s.touchL1 va).cur = s.cur := by
    intro s; unfold State.touchL1; split
    · unfold State.l1Drop; dsimp only; split <;> rfl
    · rfl
  have h4 : ∀ (s : State) (a b c : Nat) (t : Option TlbEntry), (s.meter a b c t).cur = s.cur := by
    intro s a b c t; unfold State.meter; dsimp only; split <;> rfl
  have hu : (((s.keepTlb? t).hostTouch key n false).touchL1 va).cur = s.cur := by rw [h3, h2, h1]
  unfold State.hartSeen
  dsimp only
  split
  · split
    · exact hu
    · rw [h4]; exact hu
  · exact hu

theorem readBytes_state {s : State} {a : W64} {n sp d : Nat} {l : List Byte} {t : State} (h : s.readBytes a n sp d = .ok l t) :
    t.grp = s.grp ∧ t.mem = s.mem ∧ t.cur = s.cur := by
  unfold State.readBytes at h
  split at h
  · cases h
  · cases h
  · cases h
  · split at h
    · cases h
    · split at h
      · cases h
      · cases h
      · cases h
      · dsimp only at h
        repeat' split at h
        all_goals first
          | (cases h; done)
          | (simp only [ByteRead.ok.injEq] at h
             rw [← h.2]
             exact ⟨(hartSeen_spec ..).1, (hartSeen_spec ..).2, hartSeen_cur ..⟩)

theorem readRecord_state {s : State} {a : W64} {c : Int} {n : Nat} {bad : Rec → Bool} {r : Rec} {t : State} (h : s.readRecord a c n bad = .ok r t) :
    t.grp = s.grp ∧ t.mem = s.mem ∧ t.cur = s.cur := by
  unfold State.readRecord at h
  split at h
  · cases h
  split at h
  · cases h
  split at h
  · cases h
  · cases h
  · rename_i l u hu
    dsimp only at h
    repeat' split at h
    all_goals first
      | (cases h; done)
      | (cases h; exact readBytes_state hu)

/-- Counting a refused packet changes the error counters alone. -/
theorem countPacket_spec (s : State) (k dst : Nat) : ∃ c, s.countPacket k dst = { s with sec := c } := by
  unfold State.countPacket
  split <;> exact ⟨_, rfl⟩

theorem countAccess_spec (s : State) (k : Nat) (a : W64) (need : Need) : ∃ c, s.countAccess k a need = { s with sec := c } := by
  unfold State.countAccess
  split
  · exact ⟨_, rfl⟩
  split
  · exact ⟨_, rfl⟩
  dsimp only
  split
  · exact countPacket_spec ..
  · exact ⟨_, rfl⟩

theorem countAccess_same (s : State) (k : Nat) (a : W64) (need : Need) :
    (s.countAccess k a need).grp = s.grp ∧ (s.countAccess k a need).mem = s.mem := by
  obtain ⟨c, h⟩ := countAccess_spec s k a need
  rw [h]; exact ⟨rfl, rfl⟩

/-- Gathering elements changes neither the acting group's record nor memory. -/
theorem gather_state (s : State) (wide : Bool) (d : LoadDesc) (l : List Elem) :
    (s.gather wide d l).state.grp = s.grp ∧ (s.gather wide d l).state.mem = s.mem := by
  have h : ∀ (m : List (Elem × ElemFate)) (u : State), u.grp = s.grp → u.mem = s.mem →
      (m.foldl State.seenElem u).grp = s.grp ∧ (m.foldl State.seenElem u).mem = s.mem := by
    intro m
    induction m with
    | nil => intro u h1 h2; exact ⟨h1, h2⟩
    | cons p m ih =>
      intro u h1 h2
      rw [List.foldl_cons]
      have hs : (u.seenElem p).grp = u.grp ∧ (u.seenElem p).mem = u.mem := by
        unfold State.seenElem; split
        · exact hartSeen_spec ..
        · split
          · exact countAccess_same ..
          · exact ⟨rfl, rfl⟩
        · exact ⟨rfl, rfl⟩
      exact ih _ (hs.1.trans h1) (hs.2.trans h2)
  exact h _ _ rfl rfl

theorem makeLoad_state (s : State) (d : LoadDesc) : (s.makeLoad d).state.grp = s.grp ∧ (s.makeLoad d).state.mem = s.mem := by
  unfold State.makeLoad
  split
  · exact gather_state ..
  · dsimp only
    split
    · exact ⟨rfl, rfl⟩
    · exact ⟨rfl, rfl⟩
    · rename_i h
      have := readRecord_state h
      split
      · exact ⟨(gather_state ..).1.trans this.1, (gather_state ..).2.trans this.2.1⟩
      · exact ⟨rfl, rfl⟩

/-- A near element of the block's own scratch gives its value. -/
theorem elemFate_scratch (s : State) (e : Elem) (a : W64) (he : e.at? = .ok a) (hn : 0 < e.n) (h : a.toNat / 2 ^ 56 = 0xF0)
    (hal : a.toNat % e.n = 0) (hb : (a &&& 0x00FFFFFFFFFFFFFF).toNat + e.n ≤ s.blk.scratch) (hnet : ∀ m ∈ s.net, m.src ≠ s.cur)
    (hp : s.poisoned (scratchKey s.grp.blk (a &&& 0x00FFFFFFFFFFFFFF).toNat) e.n = false) (hl : s.grp.loadsAway = false) :
    ∃ k, s.elemFate e = .value (laneValue e.n e.sext (leNat (s.bytes (scratchKey s.grp.blk (a &&& 0x00FFFFFFFFFFFFFF).toNat) e.n))) k := by
  have hb' : (a &&& 0x00FFFFFFFFFFFFFF).toNat + e.n ≤ (s.blkAt (s.grpAt s.cur).blk).scratch := hb
  unfold State.elemFate
  rw [he]
  simp only [hal, place_hart s s.cur s.mmode a h (by omega), Place.posted, readBytes_scratch s a e.n 5 29 hn h hb hnet hp hl,
    cachedReach_far s a e.n .read (globalVa_hart s a h (by omega)), reach_hart s s.mmode a e.n .read hn h hb]
  exact ⟨_, rfl⟩

theorem ldq_pos (ty : LdqTy) : 0 < (LdqTy.shape ty).1 := by cases ty <;> decide

/-- Gathering elements that all give values: no fault, no wait, nothing wanted, each lane the union of its elements. -/
theorem gather_values (s : State) (wide : Bool) (d : LoadDesc) (l : List Elem) (v : Elem → Nat)
    (h : ∀ e ∈ l, ∃ k, s.elemFate e = .value (v e) k) : let g := s.gather wide d l
    g.wait = none ∧ g.precise = none ∧ g.entry.poison = false ∧ g.entry.wants = []
    ∧ g.entry.data = lanes fun i => l.foldl (fun acc e => if e.lane == i then acc ||| BitVec.ofNat 64 (v e * 2 ^ e.shift) else acc) 0 := by
  have hw : (l.map fun e => (e, s.elemFate e)).findSome? (fun p => p.2.wait?) = none := by
    rw [List.findSome?_eq_none_iff]
    intro p hp
    obtain ⟨e, he, rfl⟩ := List.mem_map.1 hp
    obtain ⟨k, hk⟩ := h e he
    dsimp only; rw [hk]; rfl
  have hf : (l.map fun e => (e, s.elemFate e)).filterMap (fun p => p.2.fault?.map fun f => (p.1, f)) = [] := by
    rw [List.filterMap_eq_nil_iff]
    intro p hp
    obtain ⟨e, he, rfl⟩ := List.mem_map.1 hp
    obtain ⟨k, hk⟩ := h e he
    dsimp only; rw [hk]; rfl
  have hwt : (l.map fun e => (e, s.elemFate e)).filterMap (fun p => p.2.want? p.1) = [] := by
    rw [List.filterMap_eq_nil_iff]
    intro p hp
    obtain ⟨e, he, rfl⟩ := List.mem_map.1 hp
    obtain ⟨k, hk⟩ := h e he
    dsimp only; rw [hk]; rfl
  have hd : gatherData (l.map fun e => (e, s.elemFate e)) = lanes fun i => l.foldl (fun acc e => if e.lane == i then acc ||| BitVec.ofNat 64 (v e * 2 ^ e.shift) else acc) 0 := by
    unfold gatherData lanes
    apply List.map_congr_left
    intro i _
    generalize (0 : W64) = z
    rw [List.foldl_map]
    clear hw hf hwt
    induction l generalizing z with
    | nil => rfl
    | cons e l ih =>
      obtain ⟨k, hk⟩ := h e (List.mem_cons_self ..)
      rw [List.foldl_cons, List.foldl_cons, ih (fun e he => h e (List.mem_cons_of_mem _ he))]
      rw [hk]; rfl
  intro g
  show (s.gather wide d l).wait = none ∧ (s.gather wide d l).precise = none ∧ (s.gather wide d l).entry.poison = false
    ∧ (s.gather wide d l).entry.wants = [] ∧ (s.gather wide d l).entry.data = _
  unfold State.gather
  dsimp only
  rw [hf, hwt, hw, hd]
  exact ⟨rfl, rfl, rfl, rfl, rfl⟩

theorem foldl_none {α : Type} (i : Nat) (f : Nat → α → α) (l : List Nat) (h : i ∉ l) (z : α) :
    l.foldl (fun acc k => if (k == i) = true then f k acc else acc) z = z := by
  induction l generalizing z with
  | nil => rfl
  | cons k l ih =>
    rw [List.foldl_cons, if_neg]
    · exact ih (fun hm => h (List.mem_cons_of_mem _ hm)) z
    · intro hk; exact h (by rw [beq_iff_eq] at hk; rw [hk]; exact List.mem_cons_self ..)

/-- A fold over the lanes that acts for one lane only. -/
theorem foldl_one {α : Type} (i n : Nat) (hi : i < n) (f : Nat → α → α) (z : α) :
    (List.range n).foldl (fun acc k => if (k == i) = true then f k acc else acc) z = f i z := by
  obtain ⟨l1, l2, h⟩ := List.append_of_mem (List.mem_range.2 hi)
  have hnd : (l1 ++ i :: l2).Nodup := h ▸ List.nodup_range
  rw [List.nodup_append] at hnd
  have h1 : i ∉ l1 := fun hm => hnd.2.2 i hm i (List.mem_cons_self ..) rfl
  have h2 : i ∉ l2 := (List.nodup_cons.1 hnd.2.1).1
  rw [h, List.foldl_append, foldl_none i f l1 h1, List.foldl_cons, if_pos (by simp), foldl_none i f l2 h2]

theorem lanes_getD {α : Type} (f : Nat → α) (d : α) (i : Nat) (h : i < 64) : (lanes f).getD i d = f i := by
  unfold lanes laneIds
  rw [List.getD_eq_getElem?_getD, List.getElem?_map, List.getElem?_range h]; rfl

theorem stridedElems_one (ty : LdqTy) (a b : W64) (h : (LdqTy.shape ty).2.1 = 1) : stridedElems ty a b =
    (List.range 64).map fun k => ⟨k, 0, .ok (a + BitVec.ofNat 64 k * b), (LdqTy.shape ty).1, (LdqTy.shape ty).2.2.1⟩ := by
  cases ty <;> first
    | exact absurd h (by decide)
    | (unfold stridedElems; simp [LdqTy.shape, Nat.mod_one])

theorem queueLoad_room {s : State} {nf : Bool} {q : Nat} {d : LoadDesc} (h : s.grp.runAhead < s.grp.slip ∧ s.grp.qlen q < 8)
    (hw : (s.makeLoad d).wait = none) : queueLoad s nf q d = match (if nf then none else (s.makeLoad d).precise) with
      | some f => .next (s.hartFault .read f)
      | none => .next ((s.makeLoad d).state.setGrp ((s.makeLoad d).state.grp.pushLdq q
          { (s.makeLoad d).entry with arrived := !nf && (s.makeLoad d).global && (s.makeLoad d).entry.wants.isEmpty }).hartNext) := by
  unfold queueLoad
  have : (decide (s.grp.slip ≤ s.grp.runAhead) || decide (8 ≤ s.grp.qlen q)) = false := by
    simp; exact h
  rw [this]
  simp only [Bool.false_eq_true, if_false, hw]
  split <;> simp_all

theorem queueLoad_full {s : State} {nf : Bool} {q : Nat} {d : LoadDesc} (h : ¬(s.grp.runAhead < s.grp.slip ∧ s.grp.qlen q < 8)) :
    queueLoad s nf q d = hartWaits s (.queueLoad q) := by
  unfold queueLoad
  rw [if_pos]
  simp only [Bool.or_eq_true, decide_eq_true_eq]; omega

theorem performStore_fenced (s : State) (k : Nat) (l : List Byte) (j : Nat) : (s.performStore k l).fencedKey j = s.fencedKey j := by
  have h1 : ∀ (s : State) (k : Nat), (s.portStore k l).host = s.host := by
    intro s k; unfold State.portStore; repeat' split
    all_goals rfl
  have h2 : ∀ (s : State) (k n : Nat) (w : Bool), (s.hostTouch k n w).host.fenced = s.host.fenced := by
    intro s k n w; unfold State.hostTouch; split <;> rfl
  have hb : (((s.homeWrite k l).hostTouch k l.length true).portStore k l).host.fenced = s.host.fenced := by
    rw [h1, h2, (homeWrite_spec s k l).1]
  have hx : (s.performStore k l).host.fenced = s.host.fenced := by
    unfold State.performStore
    simp only
    split
    · unfold State.touchScratch
      rw [(State.invalidate_spec _ _ _).1]; exact hb
    · exact hb
  unfold State.fencedKey; rw [hx]

theorem Kept.loadsAway {s t : State} (h : Kept s t) : t.grp.loadsAway = s.grp.loadsAway := by
  obtain ⟨h1, -, -, h2, -⟩ := h
  unfold State.grp
  rw [h1, h2]; rfl

/-- Near stores of scratch elements, as writes of cells in lane order. -/
theorem putElems_scratch (n : Nat) (data : Nat → List Byte) (hn : 0 < n) (_hd : ∀ i, (data i).length = n) (l : List LaneAccess) :
    ∀ s : State, (∀ m ∈ s.net, m.src ≠ s.cur) → s.grp.loadsAway = false →
    (∀ x ∈ l, x.addr.toNat / 2 ^ 56 = 0xF0 ∧ x.addr.toNat % n = 0 ∧ (x.addr &&& 0x00FFFFFFFFFFFFFF).toNat + n ≤ s.blk.scratch
      ∧ s.fencedKey (scratchKey s.grp.blk (x.addr &&& 0x00FFFFFFFFFFFFFF).toNat) = false) →
    Kept s (s.putElems n data l)
    ∧ (s.putElems n data l).mem = l.foldl (fun m x => Memory.writeCells m (cellsOf (scratchKey s.grp.blk (x.addr &&& 0x00FFFFFFFFFFFFFF).toNat) (data x.lane))) s.mem := by
  induction l with
  | nil => intro s _ _ _; exact ⟨.refl s, rfl⟩
  | cons x l ih =>
    intro s hnet hl h
    obtain ⟨a1, a2, a3, a4⟩ := h x (List.mem_cons_self ..)
    have e := hartReach_scratch s x.addr n .write false false hn a1 a2 a3 hnet a4 (by simp) hl
    have hk := performStore_kept s (scratchKey s.grp.blk (x.addr &&& 0x00FFFFFFFFFFFFFF).toNat) (data x.lane)
    have hb := hk.blk
    have hput : s.putElems n data (x :: l) = (s.performStore (scratchKey s.grp.blk (x.addr &&& 0x00FFFFFFFFFFFFFF).toNat) (data x.lane)).putElems n data l := by
      rw [State.putElems, e]; rfl
    obtain ⟨i1, i2⟩ := ih (s.performStore (scratchKey s.grp.blk (x.addr &&& 0x00FFFFFFFFFFFFFF).toNat) (data x.lane))
      (by rw [hk.1, hk.2.1]; exact hnet) (by rw [hk.loadsAway]; exact hl) fun y hy => by
        obtain ⟨b1, b2, b3, b4⟩ := h y (List.mem_cons_of_mem _ hy)
        refine ⟨b1, b2, by rw [hb.2]; exact b3, ?_⟩
        rw [hb.1, performStore_fenced]; exact b4
    rw [hput]
    refine ⟨hk.trans i1, i2.trans ?_⟩
    rw [hb.1, performStore_mem _ _ _ (scratchKey_far ..)]; rfl

theorem posted_scratch (s : State) (a : W64) (h : a.toNat / 2 ^ 56 = 0xF0)
    (hb : (a &&& 0x00FFFFFFFFFFFFFF).toNat < s.blk.scratch) : s.postedAt a = false := by
  unfold State.postedAt
  have := place_hart s s.cur false a h hb
  rw [this]; rfl

theorem requests_none (s : State) (data : Nat → List Byte) (l : List LaneAccess) (h : ∀ x ∈ l, s.postedAt x.addr = false) :
    s.requests data l = [] := by
  unfold State.requests
  induction l with
  | nil => rfl
  | cons x l ih =>
    have hx := h x (List.mem_cons_self ..)
    have ih := ih fun y hy => h y (List.mem_cons_of_mem _ hy)
    unfold State.postedAt at hx
    rw [List.foldl_cons]
    split
    · rename_i p hp
      rw [hp] at hx
      dsimp only at hx
      rw [hx]
      exact ih
    · exact ih

/-- A queue store with nothing sent before, whose checks and waits pass and whose posted requests the journal takes. -/
theorem queueStore_goes (s : State) (n size : Nat) (e : StqEntry) (addr : Nat → Option W64) (h0 : s.grp.hartSend = none)
    (h1 : s.storeFate n ((activeLanes e.mask).filterMap fun i => (addr i).map fun a => (⟨i, a, a⟩ : LaneAccess)) = none)
    (h2 : s.storeWait n ((activeLanes e.mask).filterMap fun i => (addr i).map fun a => (⟨i, a, a⟩ : LaneAccess)) = none) :
    let l := (activeLanes e.mask).filterMap fun i => (addr i).map fun a => (⟨i, a, a⟩ : LaneAccess)
    let data := fun i => leBytes n (e.data.getD i 0).toNat
    let v := ((s.putElems n data (l.filter fun x => !s.postedAt x.addr)).sendPosts ((s.requests data l).map fun r => r.posting size 1 false))
    v.2 = [] → queueStore s n size e addr = .next (v.1.setGrp { v.1.grp with stq := v.1.grp.stq.drop 1, hartSend := none }.hartNext) := by
  intro l data v hv
  unfold queueStore
  rw [h0]
  dsimp only
  rw [h1, h2]
  dsimp only
  have : v.2.isEmpty = true := by rw [hv]; rfl
  rw [if_pos this]

theorem withStq_cons {s : State} {e : StqEntry} {rest : List StqEntry} (h : s.grp.stq = e :: rest) (k : StqEntry → Out) : withStq s k = k e := by
  unfold withStq; rw [h]

end Sys2Proof.Machine
end

