-- ==== Sys2Proof/Laws/Engines.lean ====
section
/-! SUPPORT. What the engines' operations can do: counters, copies, rings, barriers, reductions, launches, group end. -/
namespace Sys2Proof.Machine

/-- A counter's update changes of the groups only what a waiter waits on. -/
theorem wakeCounter_spec (s : State) (key : Nat) (v : W32) : s.wakeCounter key v = { s with groups := (s.wakeCounter key v).groups }
    ∧ ∀ k, (s.wakeCounter key v).grpAt k = if (s.grpAt k).wakesAt key v then { s.grpAt k with hartWait := some (.woken v) } else s.grpAt k := by
  unfold State.wakeCounter
  split
  · refine ⟨rfl, fun k => ?_⟩
    have h : ∀ l : Map Group, Map.get ({} : Group) (l.map fun g => (g.1, if g.2.wakesAt key v then { g.2 with hartWait := some (.woken v) } else g.2)) k
        = if (Map.get ({} : Group) l k).wakesAt key v then { Map.get ({} : Group) l k with hartWait := some (.woken v) } else Map.get ({} : Group) l k := by
      intro l
      induction l with
      | nil => simp [Map.get, Group.wakesAt]
      | cons p l ih =>
        simp only [List.map_cons, Map.get]
        by_cases hi : p.1 == k
        · simp only [hi, if_true]
        · simp only [hi, Bool.false_eq_true, if_false]; exact ih
    exact h s.groups
  · rename_i hn
    refine ⟨rfl, fun k => ?_⟩
    rw [if_neg]
    intro hk
    apply hn
    rw [List.any_eq_true]
    have h : ∀ l : Map Group, (Map.get ({} : Group) l k).wakesAt key v = true → ∃ x ∈ l, x.2.wakesAt key v = true := by
      intro l
      induction l with
      | nil => intro h; simp [Map.get, Group.wakesAt] at h
      | cons p l ih =>
        simp only [Map.get]
        by_cases hi : p.1 == k
        · simp only [hi, if_true]; exact fun h => ⟨p, List.mem_cons_self .., h⟩
        · simp only [hi, Bool.false_eq_true, if_false]
          intro h
          obtain ⟨x, hx, hw⟩ := ih h
          exact ⟨x, List.mem_cons_of_mem _ hx, hw⟩
    exact h s.groups hk

theorem counter_setCounter (s : State) (c k : Nat) (v : W32) (c' k' : Nat) :
    (s.setCounter c k v).counter c' k' = if (c', k') = (c, k) then v else s.counter c' k' := by
  unfold State.setCounter State.counter
  dsimp only
  rw [(wakeCounter_spec ..).1]
  show Map.get 0 (State.coreAt (State.setCoreAt _ _ _) _).counters _ = _
  rw [State.coreAt_setCoreAt]
  by_cases hc : c = c'
  · subst hc
    rw [if_pos rfl]
    show Map.get 0 ((s.coreAt c).counters.set k v) k' = _
    rw [Map.get_set]
    by_cases hk : k = k'
    · subst hk; simp
    · rw [if_neg hk, if_neg]; intro h; cases h; exact hk rfl
  · rw [if_neg hc, if_neg]
    intro h; cases h; exact hc rfl

theorem reached32_eq (a b : W32) : (reached32 a b = true) = ((a - b).msb = false) := by
  unfold reached32; simp

theorem core_setGrp (s : State) (g : Group) : (s.setGrp g).core = s.core := rfl

theorem issueCopy_spec (s : State) (kind ch : Nat) (rd : XReg) (l : List Byte) (c01 c234 : W64) (off : Nat) :
    let w := s.issueCopy kind ch rd l c01 c234 off
    (w.core.chan ch).next = (s.core.chan ch).next + 1
    ∧ (w.core.chan ch).copies = (s.core.chan ch).copies ++ [{
        id := (s.core.chan ch).next, kind := kind, record := l, c01 := c01, c234 := c234, off := off, grp := s.cur
        blk := s.grp.blk, token := rd.toNat }]
    ∧ (∀ j, j ≠ ch → w.core.chan j = s.core.chan j)
    ∧ w.grp = { s.grp with tokens := s.grp.tokens.set rd.toNat ⟨ch, (s.core.chan ch).next, false⟩ } ∧ w.mem = s.mem := by
  intro w
  have hc : w.core = { s.core with chans := s.core.chans.set ch { s.core.chan ch with
      next := (s.core.chan ch).next + 1
      copies := (s.core.chan ch).copies ++ [{ id := (s.core.chan ch).next, kind := kind, record := l, c01 := c01, c234 := c234, off := off, grp := s.cur, blk := s.grp.blk, token := rd.toNat }] } } := by
    show State.core (State.setGrp (State.setCore s _) _) = _
    rw [core_setGrp, State.core_setCore]
  have hch : ∀ j, w.core.chan j = Map.get {} w.core.chans j := fun _ => rfl
  refine ⟨?_, ?_, fun j hj => ?_, ?_, rfl⟩
  · rw [hch, hc]; simp only [Map.get_set, if_true]
  · rw [hch, hc]; simp only [Map.get_set, if_true]
  · rw [hch, hc]; exact Map.get_set_other _ _ _ (Ne.symm hj)
  · show State.grp (State.setGrp (State.setCore s _) _) = _
    rw [State.grp_setGrp]; rfl

/-- What a copy instruction does once its registers are free and its pair named. -/
def copyDoes (kind ch : Nat) (rd rs1 rs2 : XReg) (u : State) : Out :=
  match u.readRecord (u.grp.xr rs1) ((coordsOf (u.grp.xr rs2) (u.grp.xr (rs2 + 1))).getD 0 0) 5, u.readBytes (u.grp.xr rs1) 64 5 5 with
  | .wait w, _ => hartWaits u w
  | .fault f, _ => .next (u.hartFault .read f)
  | .ok r t, bytes =>
    match copyFault u kind r (u.grp.xr rs1) (u.grp.xr rd) with
    | some (cause, val) => raise u cause val
    | none =>
      if 16 ≤ (t.core.chan ch).copies.length then hartWaits u (.copySlots ch)
      else afterRelease t fun t =>
        let l := match bytes with
          | .ok l _ => l
          | _ => []
        let w := t.issueCopy kind ch rd l (u.grp.xr rs2) (u.grp.xr (rs2 + 1)) (u.grp.xr rd).toNat
        .next (w.setGrp w.grp.hartNext)

theorem copyInstr_eq (s : State) (kind ch : Nat) (rd rs1 rs2 : XReg) (h1 : rd ≠ 0) (h2 : rs2 ≠ 31) :
    copyInstr s kind ch rd rs1 rs2 = hartRun s [rs1, rs2, rs2 + 1, rd] [rd] (copyDoes kind ch rd rs1 rs2) := by
  unfold copyInstr withPair
  rw [if_neg (by simpa using h1), if_neg (by simpa using h2)]
  rfl

theorem withRing_own (s : State) (v : W64) (cause : Nat) (k : Ring → Out) (h : v.toNat < 8 ∧ (s.core.ring (v.toNat % 8)).live = true
    ∧ (s.core.ring (v.toNat % 8)).owner = s.grp.blk) : withRing s v cause k = k (s.core.ring (v.toNat % 8)) := by
  unfold withRing
  rw [if_pos]
  simp [h.1, h.2.1, h.2.2]

theorem withRing_bad (s : State) (v : W64) (cause : Nat) (k : Ring → Out) (h : ¬(v.toNat < 8 ∧ (s.core.ring (v.toNat % 8)).live = true
    ∧ (s.core.ring (v.toNat % 8)).owner = s.grp.blk)) : withRing s v cause k = raise s cause v := by
  unfold withRing
  rw [if_neg]
  intro hx; apply h
  simpa [and_assoc] using hx

theorem ring_setRing (s : State) (r k : Nat) (v : Ring) : (s.setRing s.coreNo r v).core.ring k = if r = k then v else s.core.ring k := by
  have : (s.setRing s.coreNo r v).core = { s.core with rings := s.core.rings.set r v } := State.core_setCore s _
  unfold Core.ring
  rw [this]; exact Map.get_set ..

theorem resetProgress_spec (s : State) (bar : Nat) : s.resetProgress bar = { s with groups := (s.resetProgress bar).groups }
    ∧ ∀ k, (s.resetProgress bar).grpAt k = { s.grpAt k with
        progA := ((s.resetProgress bar).grpAt k).progA, progC := ((s.resetProgress bar).grpAt k).progC } := by
  unfold State.resetProgress
  split
  · refine ⟨rfl, fun k => ?_⟩
    have h : ∀ l : Map Group, let m := Map.get ({} : Group) (l.map fun p => (p.1, if p.2.blk == bar / 4 then
          (if bar % 2 == 0 then { p.2 with progA := 0 } else { p.2 with progC := 0 }) else p.2)) k
        m = { Map.get ({} : Group) l k with progA := m.progA, progC := m.progC } := by
      intro l
      induction l with
      | nil => rfl
      | cons p l ih =>
        simp only [List.map_cons, Map.get]
        by_cases hi : p.1 == k
        · simp only [hi, if_true]; split
          · split <;> rfl
          · rfl
        · simp only [hi, Bool.false_eq_true, if_false]; exact ih
    exact h s.groups
  · exact ⟨rfl, fun _ => rfl⟩

theorem settleBar_spec (s : State) (bar : Nat) : s.settleBar bar = { s with groups := (s.settleBar bar).groups, bars := (s.settleBar bar).bars }
    ∧ ∀ k, (s.settleBar bar).grpAt k = { s.grpAt k with
        progA := ((s.settleBar bar).grpAt k).progA, progC := ((s.settleBar bar).grpAt k).progC } := by
  unfold State.settleBar
  dsimp only
  split
  · obtain ⟨h1, h2⟩ := resetProgress_spec (s.setBar bar { phase := (s.barAt bar).phase + 1, arrived := [] }) bar
    refine ⟨?_, fun k => (h2 k).trans rfl⟩
    rw [h1]; rfl
  · exact ⟨rfl, fun _ => rfl⟩

theorem barAt_setBar (s : State) (k j : Nat) (b : Barrier) : (s.setBar k b).barAt j = if k = j then b else s.barAt j := by
  unfold State.barAt State.setBar
  exact Map.get_set ..

theorem setArrival_spec (g : Group) (bar : Nat) (p : Option Nat) : (g.setArrival bar p).status = g.status
    ∧ (g.setArrival bar p).hartWait = g.hartWait ∧ (g.setArrival bar p).cendDone = g.cendDone := by
  unfold Group.setArrival; dsimp only; split <;> exact ⟨rfl, rfl, rfl⟩

theorem arrive_spec (s : State) (bar : Nat) : (s.arrive bar).mem = s.mem ∧ (∀ k, k ≠ bar → (s.arrive bar).barAt k = s.barAt k)
      ∧ (s.arrive bar).barAt bar = (if ∀ k ∈ s.participants bar, k = s.cur ∨ s.hasArrived bar (s.barAt bar) k = true
        then { phase := (s.barAt bar).phase + 1, arrived := [] }
        else { phase := (s.barAt bar).phase, arrived := s.cur :: (s.barAt bar).arrived }) := by
  have heq : s.arrive bar = ((s.setGrp (s.grp.setArrival bar (some (s.barAt bar).phase))).setBar bar
    { s.barAt bar with arrived := s.cur :: (s.barAt bar).arrived }).settleBar bar := rfl
  rw [heq]
  clear heq
  generalize ht : (s.setGrp (s.grp.setArrival bar (some (s.barAt bar).phase))).setBar bar
    { s.barAt bar with arrived := s.cur :: (s.barAt bar).arrived } = t
  have hp : t.participants bar = s.participants bar := by rw [← ht]; rfl
  have hb : ∀ k, t.barAt k = if bar = k then { s.barAt bar with arrived := s.cur :: (s.barAt bar).arrived } else s.barAt k := by
    intro k; rw [← ht, barAt_setBar]; rfl
  have hg : ∀ k, (t.grpAt k).status = (s.grpAt k).status ∧ (t.grpAt k).hartWait = (s.grpAt k).hartWait
      ∧ (t.grpAt k).cendDone = (s.grpAt k).cendDone := by
    intro k; rw [← ht]
    show ((s.setGrp _).grpAt k).status = _ ∧ ((s.setGrp _).grpAt k).hartWait = _ ∧ ((s.setGrp _).grpAt k).cendDone = _
    rw [State.grpAt_setGrp]
    split
    · rename_i h; subst h; exact setArrival_spec s.grp _ _
    · exact ⟨rfl, rfl, rfl⟩
  have ha : ∀ k, t.hasArrived bar (t.barAt bar) k = true ↔ k = s.cur ∨ s.hasArrived bar (s.barAt bar) k = true := by
    intro k
    unfold State.hasArrived
    obtain ⟨h1, h2, h3⟩ := hg k
    dsimp only
    rw [hb bar, if_pos rfl, h1, h2, h3]
    simp [Bool.or_assoc]
  have hm : t.mem = s.mem := by rw [← ht]; rfl
  unfold State.settleBar
  dsimp only
  by_cases hall : ∀ k ∈ s.participants bar, k = s.cur ∨ s.hasArrived bar (s.barAt bar) k = true
  · have hc : (!(t.barAt bar).arrived.isEmpty && (t.participants bar).all (t.hasArrived bar (t.barAt bar))) = true := by
      rw [Bool.and_eq_true]
      refine ⟨by rw [hb bar, if_pos rfl]; rfl, ?_⟩
      rw [List.all_eq_true, hp]
      exact fun k hk => (ha k).2 (hall k hk)
    rw [if_pos hc]
    obtain ⟨h1, h2⟩ := resetProgress_spec (t.setBar bar { phase := (t.barAt bar).phase + 1, arrived := [] }) bar
    generalize hx : (t.setBar bar { phase := (t.barAt bar).phase + 1, arrived := [] }).resetProgress bar = x at h1 h2
    have hxb : ∀ k, x.barAt k = (t.setBar bar { phase := (t.barAt bar).phase + 1, arrived := [] }).barAt k := by
      intro k; rw [h1]; rfl
    refine ⟨by rw [h1]; exact hm, fun k hk => ?_, ?_⟩
    · rw [hxb, barAt_setBar, if_neg (Ne.symm hk), hb, if_neg (Ne.symm hk)]
    · rw [hxb, barAt_setBar, if_pos rfl, if_pos hall, hb, if_pos rfl]
  · have hc : ¬(!(t.barAt bar).arrived.isEmpty && (t.participants bar).all (t.hasArrived bar (t.barAt bar))) = true := by
      rw [Bool.and_eq_true, List.all_eq_true, hp]
      rintro ⟨_, h⟩
      exact hall fun k hk => (ha k).1 (h k hk)
    rw [if_neg hc]
    refine ⟨hm, fun k hk => by rw [hb, if_neg (Ne.symm hk)], by rw [hb, if_pos rfl, if_neg hall]⟩

theorem redNode_setRed (s : State) (k j : Nat) (v : RedNode) : (s.setRed s.coreNo k v).core.redNode j = if k = j then v else s.core.redNode j := by
  have : (s.setRed s.coreNo k v).core = { s.core with red := s.core.red.set k v } := State.core_setCore s _
  unfold Core.redNode
  rw [this]; exact Map.get_set ..

theorem OnlyGroup.core {s t : State} (h : OnlyGroup s t) : t.core = s.core ∧ t.coreNo = s.coreNo := by
  rw [h.1]; exact ⟨rfl, rfl⟩

theorem endGroup_spec (s : State) (k : Nat) : ((s.endGroup k).grpAt k).status = .ended
    ∧ ((s.endGroup k).grpAt k).exitCode = (s.grpAt k).exitCode ∧ (s.endGroup k).mem = s.mem ∧ (s.endGroup k).cur = s.cur := by
  unfold State.endGroup
  dsimp only
  generalize ht : s.setGrpAt k _ = t
  have h1 : (t.grpAt k).status = .ended ∧ (t.grpAt k).exitCode = (s.grpAt k).exitCode ∧ t.mem = s.mem ∧ t.cur = s.cur := by
    rw [← ht, State.grpAt_setGrpAt, if_pos rfl]; exact ⟨rfl, rfl, rfl, rfl⟩
  generalize hc : t.checkRetiring (s.grpAt k).blk = c
  have h2 : c.grpAt k = t.grpAt k ∧ c.mem = t.mem ∧ c.cur = t.cur := by
    rw [← hc]; unfold State.checkRetiring; dsimp only; split <;> exact ⟨rfl, rfl, rfl⟩
  have h3 : ∀ (u : State) (l : Bool), ((u.settleGroup k l).grpAt k).status = (u.grpAt k).status
      ∧ ((u.settleGroup k l).grpAt k).exitCode = (u.grpAt k).exitCode ∧ (u.settleGroup k l).mem = u.mem ∧ (u.settleGroup k l).cur = u.cur := by
    intro u l
    unfold State.settleGroup
    obtain ⟨a1, a2⟩ := settleBar_spec u (u.barKey k false l)
    generalize u.settleBar (u.barKey k false l) = v at a1 a2
    generalize (u.barKey k true l) = j
    obtain ⟨b1, b2⟩ := settleBar_spec v j
    refine ⟨by rw [b2, a2], by rw [b2, a2], by rw [b1, a1], by rw [b1, a1]⟩
  obtain ⟨a1, a2, a3, a4⟩ := h3 c false
  obtain ⟨b1, b2, b3, b4⟩ := h3 (c.settleGroup k false) true
  refine ⟨by rw [b1, a1, h2.1, h1.1], by rw [b2, a2, h2.1, h1.2.1], by rw [b3, a3, h2.2.1, h1.2.2.1], by rw [b4, a4, h2.2.2, h1.2.2.2]⟩

theorem settleGroup_spec (s : State) (k : Nat) (l : Bool) : (s.settleGroup k l).mem = s.mem ∧ (s.settleGroup k l).cur = s.cur
    ∧ ∀ j, (s.settleGroup k l).grpAt j = { s.grpAt j with
        progA := ((s.settleGroup k l).grpAt j).progA, progC := ((s.settleGroup k l).grpAt j).progC } := by
  unfold State.settleGroup
  obtain ⟨a1, a2⟩ := settleBar_spec s (s.barKey k false l)
  generalize s.settleBar (s.barKey k false l) = v at a1 a2
  generalize (s.barKey k true l) = j
  obtain ⟨b1, b2⟩ := settleBar_spec v j
  exact ⟨by rw [b1, a1], by rw [b1, a1], fun i => by rw [b2, a2]⟩

theorem enqueue_spec (t : State) (l : Launch) (pooled : Bool) : let w := t.enqueue l pooled
    w.nextLaunch = t.nextLaunch + 1 ∧ w.mem = t.mem ∧ w.grp = t.grp
    ∧ Map.get [] (w.part l.part).queues l.queue = Map.get [] (t.part l.part).queues l.queue ++ [t.nextLaunch]
    ∧ (w.launchAt t.nextLaunch).kernel = l.kernel ∧ (w.launchAt t.nextLaunch).join = l.join
    ∧ (w.launchAt t.nextLaunch).live = l.gx * l.gy * l.gz := by
  intro w
  have hp : w.part l.part = { t.part l.part with
      queues := (t.part l.part).queues.set l.queue (Map.get [] (t.part l.part).queues l.queue ++ [t.nextLaunch])
      pool := (t.part l.part).pool + if pooled then 1 else 0 } := by
    show State.part (State.setPart t _ _) _ = _
    rw [State.part_setPart, if_pos rfl]
  have hl : w.launchAt t.nextLaunch = { l with pooled := pooled, live := l.gx * l.gy * l.gz
                                               pbase := Config.privateBase t.nextLaunch * 4096 % 2 ^ 57 } := by
    show Map.get ({} : Launch) (Map.set _ _ _) _ = _
    rw [Map.get_set, if_pos rfl]
  refine ⟨rfl, rfl, rfl, ?_, ?_, ?_, ?_⟩
  · rw [hp]; simp only [Map.get_set, if_true]
  · rw [hl]
  · rw [hl]
  · rw [hl]

theorem toInt_nonpos (v : W64) : (v.msb || v == 0) = true ↔ v.toInt ≤ 0 := by
  rw [Bool.or_eq_true, beq_iff_eq, BitVec.msb_eq_toInt, decide_eq_true_iff]
  constructor
  · rintro (h | h)
    · omega
    · subst h; decide
  · intro h
    by_cases h0 : v.toInt < 0
    · exact .inl h0
    · refine .inr (BitVec.eq_of_toInt_eq ?_)
      have : (0 : W64).toInt = 0 := by decide
      omega

theorem settled_hartClean_cur (s : State) (r w : List XReg) : (s.settled r w).coreNo = s.coreNo := by
  unfold State.coreNo; rw [settled_cur]

theorem settled_same (s : State) (r w : List XReg) : (s.settled r w).windows = s.windows ∧ (s.settled r w).tide = s.tide
    ∧ (s.settled r w).cycles = s.cycles := by
  rw [(settled_spec s r w).2.1]; exact ⟨rfl, rfl, rfl⟩

theorem lo32_shift (v : W64) : lo32 (v >>> 32) = BitVec.ofNat 32 (bits v.toNat 63 32) := by
  apply BitVec.eq_of_toNat_eq
  unfold lo32 bits
  simp [Nat.shiftRight_eq_div_pow]

end Sys2Proof.Machine
end

