-- ==== Sys2Proof/Laws/System.lean ====
section
/-! SUPPORT. What the monitor's operations can do: quiescence, save areas, restoring a group. -/
namespace Sys2Proof.Machine

theorem mmode_settled (s : State) (r w : List XReg) : (s.settled r w).mmode = s.mmode := by
  unfold State.mmode; rw [(settled_spec s r w).1]

theorem mmode_m {s : State} (h : s.grp.mode = .m) : s.mmode = true := by unfold State.mmode; rw [h]; rfl

theorem mmode_u {s : State} (h : s.grp.mode = .u) : s.mmode = false := by unfold State.mmode; rw [h]; rfl

theorem settled_ops (s : State) (r w : List XReg) : (s.settled r w).core.ops = s.core.ops := by
  show ((s.settled r w).coreAt (s.settled r w).coreNo).ops = _
  rw [settled_hartClean_cur, (settled_spec s r w).2.2.2]; rfl

theorem quiet_iff (t : State) : t.quiet t.cur = true ↔ t.grp.laneBusy = false ∧ (∀ o ∈ t.core.ops, o.grp ≠ t.cur)
    ∧ ∀ q ∈ t.grp.ldq, ∀ e ∈ q.2, e.arrived = true := by
  unfold State.quiet
  show (!t.grp.laneBusy && !t.core.ops.any (fun o => o.grp == t.cur) && t.grp.ldq.all fun q => q.2.all fun e => e.arrived) = true ↔ _
  rw [Bool.and_eq_true, Bool.and_eq_true, List.all_eq_true, and_assoc]
  simp only [Bool.not_eq_true', List.any_eq_false, beq_iff_eq, List.all_eq_true, ne_eq]

theorem areaBad_iff (s : State) (a part : W64) : s.areaBad a part = true ↔
    s.grp.held = false ∨ a.toNat / 2 ^ 56 ≠ 0xF2 ∨ a.toNat % 4096 ≠ 0 ∨ 1 < part.toNat := by
  unfold State.areaBad
  simp only [Bool.or_eq_true, Bool.not_eq_true', bne_iff_ne, decide_eq_true_eq, or_assoc]

theorem trySuspend_unsaved (s : State) (blk : Nat) (h : (s.blkAt blk).saved1 = false) : s.trySuspend blk = s := by
  unfold State.trySuspend
  dsimp only
  rw [h]; simp

theorem restore0_spec (s : State) (l : List Byte) : (s.restore0 s.cur l).mem = s.mem
    ∧ (s.restore0 s.cur l).grp.lpc = pcOf (BitVec.ofNat 64 (fieldAt l 0x300 8)) ∧ (s.restore0 s.cur l).grp.em = BitVec.ofNat 64 (fieldAt l 0x330 8)
    ∧ (s.restore0 s.cur l).grp.mepc = pcOf (BitVec.ofNat 64 (fieldAt l 0x148 8))
    ∧ ∀ r : XReg, r ≠ 0 → (s.restore0 s.cur l).grp.xr r = BitVec.ofNat 64 (fieldAt l (0x38 + 8 * r.toNat) 8) := by
  have hg : ∀ g : Group, (s.setGrpAt s.cur g).grp = g := fun g => State.grp_setGrp s g
  unfold State.restore0
  dsimp only
  rw [hg]
  refine ⟨rfl, rfl, rfl, rfl, fun r hr => ?_⟩
  unfold Group.xr
  rw [if_neg (by simpa using hr)]
  dsimp only
  have hmap : ∀ (n k : Nat) (f : Nat → W64), k < n → Map.get 0 ((List.range n).map fun i => (i + 1, f i)) (k + 1) = f k := by
    intro n k f hk
    have hl : ∀ l : List Nat, k ∈ l → Map.get 0 (l.map fun i => (i + 1, f i)) (k + 1) = f k := by
      intro l
      induction l with
      | nil => intro h; cases h
      | cons j l ih =>
        intro h
        simp only [List.map_cons, Map.get]
        by_cases hj : j = k
        · subst hj; simp
        · have hne : ((j + 1) == (k + 1)) = false := by simpa using hj
          rw [hne]
          simp only [Bool.false_eq_true, if_false]
          exact ih (by rcases List.mem_cons.1 h with h | h; exact absurd h.symm hj; exact h)
    exact hl _ (List.mem_range.2 hk)
  have hpos : r.toNat ≠ 0 := fun h => hr (BitVec.eq_of_toNat_eq (by simpa using h))
  have hlt := r.isLt
  obtain ⟨k, hk⟩ : ∃ k, r.toNat = k + 1 := ⟨r.toNat - 1, by omega⟩
  rw [hk, hmap 31 k (fun i => BitVec.ofNat 64 (fieldAt l (0x40 + 8 * i) 8)) (by omega)]
  show _ = BitVec.ofNat 64 (fieldAt l (0x38 + 8 * (k + 1)) 8)
  congr 2; omega

theorem Kept.grpFields {s t : State} (h : Kept s t) : t.grp = { s.grp with resv := t.grp.resv } := by
  show t.grpAt t.cur = { s.grpAt s.cur with resv := (t.grpAt t.cur).resv }
  rw [h.1]; exact h.2.2.2.1 _

theorem Kept.saved1 {s t : State} (h : Kept s t) (b : Nat) : (t.blkAt b).saved1 = (s.blkAt b).saved1 := by rw [h.2.2.2.2]

theorem find_jslot (g : Group) (n k : Nat) (e : JEntry) : ({ g with journal := g.journal.set n e } : Group).jslot k = if n = k then e else g.jslot k := by
  unfold Group.jslot; exact Map.get_set ..

theorem jslot_setX (g : Group) (r : XReg) (v : W64) (k : Nat) : ((g.setX r v).hartNext).jslot k = g.jslot k := by
  unfold Group.setX; split <;> rfl

theorem OnlyGroup.trans {s t u : State} (h : OnlyGroup s t) (h' : OnlyGroup t u) : OnlyGroup s u := by
  obtain ⟨a1, a2, a3⟩ := h
  obtain ⟨b1, b2, b3⟩ := h'
  have hc : t.cur = s.cur := by rw [a1]
  refine ⟨by rw [b1, a1], fun k hk => ?_, fun a => (b3 a).trans (a3 a)⟩
  rw [b2 k (by rw [hc]; exact hk), a2 k hk]

end Sys2Proof.Machine
end

