-- ==== Sys2Proof/Laws/Arrivals.lean ====
section
/-! SUPPORT. What messages that arrive can do: answers, performed writes, folds, copies. -/
namespace Sys2Proof.Machine

theorem onArrival_none (s : State) (k : Msg → State → Option State) (h : s.arriving s.input.b = none) : onArrival s k = .next s := by
  unfold onArrival; rw [h]

theorem onArrival_some {s : State} {m : Msg} {k : Msg → State → Option State} {t : State} (h : s.arriving s.input.b = some m)
    (hk : k m (s.taken s.input.b) = some t) : onArrival s k = .next t := by
  unfold onArrival; rw [h]; dsimp only; rw [hk]

theorem sampleDone_none (s : State) (k : Nat) (h : (s.grpAt k).sampler.pending = none) : s.sampleDone k = s := by
  unfold State.sampleDone; dsimp only; rw [h]

/-- Cells performed at their homes, with no dirty sector about, are those writes of memory. -/
theorem performCells_spec (s : State) (cells : List (Nat × Byte)) (h : s.dirty = []) :
    (s.performCells cells).mem = Memory.writeCells s.mem cells ∧ (s.performCells cells).net = s.net := by
  have h0 : ∀ l : List Nat, l.foldl State.flushHome s = s := by
    intro l
    induction l with
    | nil => rfl
    | cons a l ih =>
      rw [List.foldl_cons]
      have : s.flushHome a = s := by
        unfold State.flushHome; rw [h]; simp
      rw [this]; exact ih
  have h1 : ∀ (l : List (Nat × Byte)) (t : State),
      (l.foldl (fun t c =>
        let u := (t.breakResv c.1 1).hostTouch c.1 1 true
        match scratchOf c.1 with
        | some (blk, off) => u.touchScratch blk off 1
        | none => u) t).mem = t.mem ∧ (l.foldl (fun t c =>
        let u := (t.breakResv c.1 1).hostTouch c.1 1 true
        match scratchOf c.1 with
        | some (blk, off) => u.touchScratch blk off 1
        | none => u) t).net = t.net := by
    intro l
    induction l with
    | nil => intro t; exact ⟨rfl, rfl⟩
    | cons c l ih =>
      intro t
      rw [List.foldl_cons]
      have hb : (t.breakResv c.1 1).net = t.net := (breakResv_kept t c.1 1).2.1
      have hh : ((t.breakResv c.1 1).hostTouch c.1 1 true).mem = t.mem ∧ ((t.breakResv c.1 1).hostTouch c.1 1 true).net = t.net :=
        ⟨by rw [State.hostTouch_mem, breakResv_mem], by rw [(hostTouch_kept _ _ _ _).2.1, hb]⟩
      refine ⟨(ih _).1.trans ?_, (ih _).2.trans ?_⟩
      · dsimp only; split
        · unfold State.touchScratch; rw [State.invalidate_mem]; exact hh.1
        · exact hh.1
      · dsimp only; split
        · unfold State.touchScratch; rw [(invalidate_kept _ _ _).2.1]; exact hh.2
        · exact hh.2
  unfold State.performCells
  dsimp only
  refine ⟨(h1 cells _).1.trans ?_, (h1 cells _).2.trans ?_⟩
  · rw [h0]; rfl
  · rw [h0]; rfl

theorem counter_setCounter' (s : State) (c k : Nat) (v : W32) (c' k' : Nat) (h : (c', k') ≠ (c, k)) : (s.setCounter c k v).counter c' k' = s.counter c' k' := by
  rw [counter_setCounter, if_neg h]

theorem redNode_setRedAt (s : State) (c k : Nat) (v : RedNode) : ((s.setRed c k v).coreAt c).redNode k = v := by
  unfold State.setRed
  dsimp only
  rw [State.coreAt_setCoreAt, if_pos rfl]
  unfold Core.redNode
  exact Map.get_set_same ..

theorem emits_spec {α : Type} (src : Nat) (dst : α → Nat) (b : α → MsgBody) (l : List α) :
    ∀ s : State, let t := l.foldl (fun u i => u.emit src (dst i) (b i)) s
      t.net = s.net ++ l.map (fun i => ⟨src, dst i, b i⟩) ∧ t.mem = s.mem ∧ t.cores = s.cores := by
  induction l with
  | nil => intro s; exact ⟨by simp, rfl, rfl⟩
  | cons a l ih =>
    intro s
    obtain ⟨h1, h2, h3⟩ := ih (s.emit src (dst a) (b a))
    refine ⟨?_, h2, h3⟩
    refine h1.trans ?_
    show (s.net ++ [_]) ++ _ = _
    simp

theorem counter_same {s t : State} (h : t.cores = s.cores) (c k : Nat) : t.counter c k = s.counter c k := by
  unfold State.counter State.coreAt; rw [h]

theorem performStore_counter (s : State) (key : Nat) (l : List Byte) (c k : Nat) : (s.performStore key l).counter c k = s.counter c k := by
  have h0 : (((s.homeWrite key l).hostTouch key l.length true).portStore key l).counter c k = s.counter c k := by
    have h1 : ∀ (s : State) (w : Bool), (s.hostTouch key l.length w).cores = s.cores := by
      intro s w; unfold State.hostTouch; split <;> rfl
    have h2 : ∀ s : State, (s.portStore key l).cores = s.cores := by
      intro s; unfold State.portStore; repeat' split
      all_goals rfl
    rw [counter_same ((h2 _).trans (h1 _ _))]
    unfold State.counter
    rw [(homeWrite_spec s key l).2.2 c]
  unfold State.performStore
  dsimp only
  split
  · unfold State.touchScratch State.counter
    rw [(State.invalidate_spec _ _ _).2.1]
    exact h0
  · exact h0

theorem meter_chans (s : State) (a b n : Nat) (t : Option TlbEntry) (c : Nat) : ((s.meter a b n t).coreAt c).chans = (s.coreAt c).chans := by
  unfold State.meter
  dsimp only
  split
  · rfl
  · show (State.coreAt (State.setCoreAt s _ _) c).chans = _
    rw [State.coreAt_setCoreAt]
    split
    · rename_i h; subst h; rfl
    · rfl

theorem copyMeter_spec (s : State) (ch : Nat) (k : Copy) : (s.copyMeter ch k).mem = s.mem ∧ ∀ c, ((s.copyMeter ch k).coreAt c).chans = (s.coreAt c).chans := by
  have h : ∀ (l : List Nat) (t : State), (l.foldl (fun t v => t.meterVa (32 + ch) v 128) t).mem = t.mem
      ∧ ∀ c, ((l.foldl (fun t v => t.meterVa (32 + ch) v 128) t).coreAt c).chans = (t.coreAt c).chans := by
    intro l
    induction l with
    | nil => intro t; exact ⟨rfl, fun _ => rfl⟩
    | cons v l ih =>
      intro t
      rw [List.foldl_cons]
      exact ⟨(ih _).1.trans (State.meter_mem ..), fun c => ((ih _).2 c).trans (meter_chans ..)⟩
  unfold State.copyMeter
  exact h _ _

theorem chan_setChan (s : State) (a b : Nat) (n : Channel) :
    ((s.setCoreAt a { s.coreAt a with chans := (s.coreAt a).chans.set b n }).coreAt a).chan b = n := by
  rw [State.coreAt_setCoreAt, if_pos rfl]
  unfold Core.chan
  exact Map.get_set_same ..

end Sys2Proof.Machine
end

