-- ==== Sys2Proof/Laws/Placement.lean ====
section
/-! SUPPORT. What placing, freeing and striking a block and a fatal error can do. -/
namespace Sys2Proof.Machine

theorem trace_off (s : State) (k kind asid p : Nat) (h : (s.reg (subBlock (s.partOfCore (k / 16)) 0x3008)).getLsbD 0 = false) :
    s.trace k kind asid p = s := by
  have h0 : bits (s.reg (subBlock (s.partOfCore (k / 16)) 0x3008)).toNat 0 0 = 0 := by
    unfold bits
    have := BitVec.getLsbD_eq_getElem (x := s.reg (subBlock (s.partOfCore (k / 16)) 0x3008)) (i := 0) (by omega)
    rw [h] at this
    simp only [BitVec.getLsbD, Nat.testBit] at h
    simp at h ⊢
    omega
  unfold State.trace
  simp [h0]

theorem setGrps_spec {β : Type} (key : β → Nat) (f : β → Group) (l : List β) :
    ∀ s : State, let t := l.foldl (fun w p => w.setGrpAt (key p) (f p)) s
      t = { s with groups := t.groups } ∧ (∀ k, (∀ p ∈ l, key p ≠ k) → t.grpAt k = s.grpAt k)
      ∧ ∀ p ∈ l, (∀ q ∈ l, key q = key p → q = p) → t.grpAt (key p) = f p := by
  induction l with
  | nil => intro s; exact ⟨rfl, fun _ _ => rfl, fun p hp => absurd hp (List.not_mem_nil)⟩
  | cons a l ih =>
    intro s
    obtain ⟨h1, h2, h3⟩ := ih (s.setGrpAt (key a) (f a))
    refine ⟨?_, ?_, ?_⟩
    · rw [List.foldl_cons]; exact h1
    · intro k hk
      rw [List.foldl_cons, h2 k (fun p hp => hk p (List.mem_cons_of_mem _ hp)), State.grpAt_setGrpAt, if_neg (hk a (List.mem_cons_self ..))]
    · intro p hp hu
      rw [List.foldl_cons]
      by_cases hm : p ∈ l
      · exact h3 p hm (fun q hq => hu q (List.mem_cons_of_mem _ hq))
      · have hpa : p = a := by
          rcases List.mem_cons.mp hp with h | h
          · exact h
          · exact absurd h hm
        subst hpa
        rw [h2 (key p) (fun q hq he => hm (by rw [← hu q (List.mem_cons_of_mem _ hq) he]; exact hq)), State.grpAt_setGrpAt, if_pos rfl]

theorem zip_range_mem {α : Type} (l : List α) (j : Nat) (k : α) (h : l[j]? = some k) : (j, k) ∈ (List.range l.length).zip l := by
  rw [List.mem_iff_getElem?]
  refine ⟨j, ?_⟩
  have hj : j < l.length := by
    by_cases hj : j < l.length
    · exact hj
    · rw [List.getElem?_eq_none (by omega)] at h; cases h
  rw [List.getElem?_zip_eq_some]
  exact ⟨by simp [hj], h⟩

theorem mem_zip_range {α : Type} (l : List α) (p : Nat × α) (h : p ∈ (List.range l.length).zip l) : l[p.1]? = some p.2 := by
  rw [List.mem_iff_getElem?] at h
  obtain ⟨i, hi⟩ := h
  rw [List.getElem?_zip_eq_some] at hi
  obtain ⟨h1, h2⟩ := hi
  have : p.1 = i := by
    rw [List.getElem?_range (by
      by_cases hj : i < l.length
      · exact hj
      · rw [List.getElem?_eq_none (by simp; omega)] at h1; cases h1)] at h1
    exact (Option.some.inj h1).symm
  rw [this]; exact h2

theorem freeSlots_nodup (s : State) (c : Nat) : (s.freeSlots c).Nodup := by
  unfold State.freeSlots
  refine List.Nodup.sublist List.filter_sublist ?_
  rw [List.nodup_iff_pairwise_ne, List.pairwise_map]
  exact List.nodup_range.imp (by intro a b h; omega)

theorem foldl_zero_counters (l : List Nat) : ∀ (m : Map W32) (i : Nat),
    Map.get 0 (l.foldl (fun m i => m.set i 0) m) i = if i ∈ l then 0 else Map.get 0 m i := by
  induction l with
  | nil => intro m i; simp
  | cons a l ih =>
    intro m i
    rw [List.foldl_cons, ih, Map.get_set]
    by_cases h : i ∈ l <;> by_cases h2 : a = i
    all_goals simp_all [eq_comm]

theorem read_zeroRange (s : State) (lo n b : Nat) (h : Inv s) :
    Memory.read (s.zeroRange lo n).mem b = if lo ≤ b ∧ b < lo + n then 0 else Memory.read s.mem b :=
  Memory.read_clear lo n b s.mem h

theorem inv_zeroRange (s : State) (lo n : Nat) (h : Inv s) : Inv (s.zeroRange lo n) := Memory.wf_clear s.mem lo n h

theorem newGroup_xr (v : State) (l : Launch) (key j k : Nat) (r : XReg) : (v.newGroup l key j k).xr r =
    if r = 2 then BitVec.ofNat 64 (0xF3 * 2 ^ 56 + ((v.blkAt key).lin * l.kernel.groups + j) * 64 * 2 ^ 24 + l.kernel.priv)
    else if r = 10 then l.args else if r = 11 then BitVec.ofNat 64 l.join else 0 := by
  have hr : ∀ n : Nat, n < 32 → (r.toNat = n ↔ r = BitVec.ofNat 5 n) := by
    intro n hn
    constructor
    · intro h; apply BitVec.eq_of_toNat_eq; simp [h, Nat.mod_eq_of_lt hn]
    · intro h; rw [h]; simp [Nat.mod_eq_of_lt hn]
  unfold Group.xr State.newGroup
  by_cases h0 : r = 0
  · subst h0; simp
  · by_cases h2 : r = 2
    · subst h2; simp [Map.get]
    · by_cases h10 : r = 10
      · subst h10; simp [Map.get]
      · by_cases h11 : r = 11
        · subst h11; simp [Map.get]
        · have a2 : ¬ 2 = r.toNat := fun h => h2 ((hr 2 (by omega)).mp h.symm)
          have a10 : ¬ 10 = r.toNat := fun h => h10 ((hr 10 (by omega)).mp h.symm)
          have a11 : ¬ 11 = r.toNat := fun h => h11 ((hr 11 (by omega)).mp h.symm)
          have b2 : ¬ r = 2#5 := h2
          have b10 : ¬ r = 10#5 := h10
          have b11 : ¬ r = 11#5 := h11
          simp [Map.get, a2, a10, a11, b2, b10, b11]

theorem readied_blk (s : State) (n lin rank key : Nat) (keys : List Nat) :
    (s.readied n lin rank key keys).blkAt key = s.newBlock n lin rank key keys := by
  unfold State.readied State.blkAt State.setBlkAt
  exact Map.get_set_same ..

theorem readied_groups (s : State) (n lin rank key : Nat) (keys : List Nat) :
    (s.readied n lin rank key keys).groups = s.groups := by
  unfold State.readied State.setBlkAt State.setCoreAt State.zeroRange
  rfl

theorem readied_regs (s : State) (n lin rank key : Nat) (keys : List Nat) :
    (s.readied n lin rank key keys).regs = s.regs := by
  unfold State.readied State.setBlkAt State.setCoreAt State.zeroRange
  rfl

theorem readied_core (s : State) (n lin rank key : Nat) (keys : List Nat) :
    (s.readied n lin rank key keys).coreAt (key / 16) = (s.coreAt (key / 16)).received (s.launchAt n) lin key := by
  unfold State.readied State.coreAt State.setBlkAt State.setCoreAt
  exact Map.get_set_same ..

theorem readied_mem (s : State) (n lin rank key : Nat) (keys : List Nat) : (s.readied n lin rank key keys).mem =
    (((s.zeroRange (scratchKey key 0) (s.launchAt n).kernel.scratch).zeroRange (tileKey key 0)
      (s.launchAt n).kernel.tiles).zeroRange (wbufKey key 0) (s.launchAt n).kernel.wbuf).mem := by
  unfold State.readied State.setBlkAt State.setCoreAt
  rfl

/-- What making a place ready does to memory: the allocations read zero. -/
theorem readied_read (s : State) (n lin rank key : Nat) (keys : List Nat) (hi : Inv s) (b : Nat) :
    Memory.read (s.readied n lin rank key keys).mem b =
      if (scratchKey key 0 ≤ b ∧ b < scratchKey key 0 + (s.launchAt n).kernel.scratch)
        ∨ (tileKey key 0 ≤ b ∧ b < tileKey key 0 + (s.launchAt n).kernel.tiles)
        ∨ (wbufKey key 0 ≤ b ∧ b < wbufKey key 0 + (s.launchAt n).kernel.wbuf) then 0 else Memory.read s.mem b := by
  generalize hk : (s.launchAt n).kernel = k
  have h1 := inv_zeroRange s (scratchKey key 0) k.scratch hi
  have h2 := inv_zeroRange _ (tileKey key 0) k.tiles h1
  rw [readied_mem, hk, read_zeroRange _ _ _ b h2, read_zeroRange _ _ _ b h1, read_zeroRange _ _ _ b hi]
  by_cases c1 : scratchKey key 0 ≤ b ∧ b < scratchKey key 0 + k.scratch
  · simp only [c1, and_self, true_or, if_true, ite_self]
  · by_cases c2 : tileKey key 0 ≤ b ∧ b < tileKey key 0 + k.tiles
    · simp only [if_neg c1, c2, and_self, true_or, or_true, if_true, ite_self]
    · by_cases c3 : wbufKey key 0 ≤ b ∧ b < wbufKey key 0 + k.wbuf
      · simp only [c3, and_self, or_true, if_true]
      · rw [if_neg c3, if_neg c2, if_neg c1, if_neg (fun h => h.elim c1 (fun h => h.elim c2 c3))]

/-- What a placement does, up to its trace record. -/
theorem placeBlock_spec (s : State) (n lin rank key : Nat) (keys : List Nat) : let l := s.launchAt n
    let t := s.placeBlock n lin rank key keys
    let slots := s.slotsFor l (key / 16)
    (t.blkAt key).state = .running ∧ (t.blkAt key).slots = slots ∧ (t.blkAt key).launch = n ∧ (t.blkAt key).lin = lin
    ∧ (t.blkAt key).handles = l.handles lin (key / 16) keys
    ∧ (∀ j k, slots[j]? = some k → let g := t.grpAt k
        g.status = .live ∧ g.blk = key ∧ g.idx = j ∧ g.mode = .u ∧ g.pc = l.kernel.hart ∧ g.lpc = l.kernel.lane
        ∧ g.xr 2 = BitVec.ofNat 64 (0xF3 * 2 ^ 56 + (lin * l.kernel.groups + j) * 64 * 2 ^ 24 + l.kernel.priv)
        ∧ g.xr 10 = l.args ∧ g.xr 11 = BitVec.ofNat 64 l.join ∧ g.fmode = l.fmode ∧ g.nregs = l.kernel.regs
        ∧ ∀ r : XReg, r ≠ 2 → r ≠ 10 → r ≠ 11 → g.xr r = 0)
    ∧ (∀ k, k ∉ slots → t.grpAt k = { s.grpAt k with resv := (t.grpAt k).resv })
    ∧ (∀ i ∈ l.counters lin, t.counter (key / 16) i = 0) ∧ (t.coreAt (key / 16)).l1 = []
    ∧ (Inv s → (s.reg (subBlock (s.partOfCore (key / 16)) 0x3008)).getLsbD 0 = false →
      ∀ b, Memory.read t.mem b = if (scratchKey key 0 ≤ b ∧ b < scratchKey key 0 + l.kernel.scratch)
          ∨ (tileKey key 0 ≤ b ∧ b < tileKey key 0 + l.kernel.tiles)
          ∨ (wbufKey key 0 ≤ b ∧ b < wbufKey key 0 + l.kernel.wbuf) then 0 else Memory.read s.mem b) := by
  intro l t slots
  have hnd : slots.Nodup := List.Nodup.sublist (List.take_sublist _ _) (freeSlots_nodup s (key / 16))
  have hb := readied_blk s n lin rank key keys
  have hg := readied_groups s n lin rank key keys
  have hc := readied_core s n lin rank key keys
  have hr := readied_regs s n lin rank key keys
  have hm := fun h : Inv s => readied_read s n lin rank key keys h
  obtain ⟨h1, h2, h3⟩ := setGrps_spec (fun p : Nat × Nat => p.2)
    (fun p => (s.readied n lin rank key keys).newGroup l key p.1 p.2) ((List.range slots.length).zip slots) (s.readied n lin rank key keys)
  have ht : t = State.trace (((List.range slots.length).zip slots).foldl (fun w p => w.setGrpAt p.2
      ((s.readied n lin rank key keys).newGroup l key p.1 p.2)) (s.readied n lin rank key keys)) key 2 l.asid (lin + 2 ^ 64 * l.join) := rfl
  generalize ((List.range slots.length).zip slots).foldl (fun w p => w.setGrpAt p.2
      ((s.readied n lin rank key keys).newGroup l key p.1 p.2)) (s.readied n lin rank key keys) = w at *
  obtain ⟨hs1, hs2, hs3, hs4⟩ := trace_spec w key 2 l.asid (lin + 2 ^ 64 * l.join)
  rw [← ht] at hs1 hs2 hs3 hs4
  have htb : ∀ k, t.blkAt k = w.blkAt k := fun k => by rw [hs1]; rfl
  have hl1 : (w.coreAt (key / 16)).l1 = [] → (t.coreAt (key / 16)).l1 = [] := fun h => by rw [ht]; exact trace_l1 _ _ _ _ _ _ h
  have hwb : w.blkAt key = s.newBlock n lin rank key keys := by rw [h1]; exact hb
  have hwc : w.coreAt (key / 16) = (s.coreAt (key / 16)).received l lin key := by rw [h1]; exact hc
  have hwm : w.mem = (s.readied n lin rank key keys).mem := by rw [h1]
  have hwr : w.regs = s.regs := by rw [h1]; exact hr
  refine ⟨by rw [htb, hwb]; rfl, by rw [htb, hwb]; rfl, by rw [htb, hwb]; rfl, by rw [htb, hwb]; rfl, by rw [htb, hwb]; rfl, ?_, ?_, ?_, ?_, ?_⟩
  · intro j k hjk
    have hmem := zip_range_mem slots j k hjk
    have hu : ∀ q ∈ (List.range slots.length).zip slots, q.2 = k → q = (j, k) := by
      intro q hq he
      have hq' := mem_zip_range slots q hq
      have : q.1 = j := (List.getElem?_inj (by
        by_cases h : q.1 < slots.length
        · exact h
        · rw [List.getElem?_eq_none (by omega)] at hq'; cases hq') hnd).mp (by rw [hq', hjk, he])
      exact Prod.ext this he
    have hk := h3 (j, k) hmem hu
    have hgk : t.grpAt k = (s.readied n lin rank key keys).newGroup l key j k := (hs3 k (by rw [hk]; rfl)).trans hk
    have hlin : ((s.readied n lin rank key keys).blkAt key).lin = lin := by rw [hb]; rfl
    have hx := newGroup_xr (s.readied n lin rank key keys) l key j k
    rw [← hgk, hlin] at hx
    intro g
    have hge : g = (s.readied n lin rank key keys).newGroup l key j k := hgk
    refine ⟨by rw [hge]; rfl, by rw [hge]; rfl, by rw [hge]; rfl, by rw [hge]; rfl, by rw [hge]; rfl, by rw [hge]; rfl, ?_, ?_, ?_,
      by rw [hge]; rfl, by rw [hge]; rfl, ?_⟩
    · exact (hx 2).trans (if_pos rfl)
    · exact (hx 10).trans ((if_neg (by decide)).trans (if_pos rfl))
    · exact (hx 11).trans ((if_neg (by decide)).trans ((if_neg (by decide)).trans (if_pos rfl)))
    · intro r a b c; exact (hx r).trans ((if_neg a).trans ((if_neg b).trans (if_neg c)))
  · intro k hk
    have hw : w.grpAt k = s.grpAt k := by
      rw [h2 k (fun p hp he => hk (by
        have := mem_zip_range slots p hp
        rw [he] at this
        exact List.mem_of_getElem? this))]
      unfold State.grpAt; rw [hg]
    rw [hs2 k, hw]
  · intro i hi
    unfold State.counter
    rw [hs4, hwc]
    exact (foldl_zero_counters _ _ i).trans (if_pos hi)
  · exact hl1 (by rw [hwc]; rfl)
  · intro hi htr b
    have : t = w := by
      rw [ht]; apply trace_off
      show (Map.get 0 w.regs _).getLsbD 0 = false
      have hp : w.partOfCore (key / 16) = s.partOfCore (key / 16) := by
        unfold State.partOfCore State.partOfDie State.reg; rw [hwr]
      rw [hp, hwr]; exact htr
    rw [this, hwm]; exact hm hi b

theorem dropTag_only (s : State) (core tag : Nat) : s.dropTag core tag = { s with cores := (s.dropTag core tag).cores } := by
  unfold State.dropTag
  dsimp only
  split <;> rfl

theorem foldl_dropTag (core : Nat) (l : List Nat) : ∀ s : State,
    l.foldl (fun u tag => u.dropTag core tag) s = { s with cores := (l.foldl (fun u tag => u.dropTag core tag) s).cores } := by
  induction l with
  | nil => intro s; rfl
  | cons a l ih =>
    intro s
    rw [List.foldl_cons, ih]
    rw [dropTag_only s core a]

theorem foldl_idle (l : List Nat) : ∀ s : State, let t := l.foldl (fun v k => v.setGrpAt k { monsave := (v.grpAt k).monsave }) s
    t = { s with groups := t.groups } ∧ (∀ k, (s.grpAt k).status = .idle ∨ k ∈ l → (t.grpAt k).status = .idle) := by
  induction l with
  | nil => intro s; exact ⟨rfl, fun k hk => hk.elim id (fun h => absurd h List.not_mem_nil)⟩
  | cons a l ih =>
    intro s
    obtain ⟨h1, h2⟩ := ih (s.setGrpAt a { monsave := (s.grpAt a).monsave })
    refine ⟨by rw [List.foldl_cons]; exact h1, fun k hk => ?_⟩
    rw [List.foldl_cons]
    apply h2 k
    rw [State.grpAt_setGrpAt]
    by_cases ha : a = k
    · left; rw [if_pos ha]
    · rw [if_neg ha]
      rcases hk with h | h
      · exact .inl h
      · rcases List.mem_cons.mp h with h | h
        · exact absurd h.symm ha
        · exact .inr h

/-- What freeing a block does. -/
theorem freeBlock_spec (s : State) (blk : Nat) : let t := s.freeBlock blk
    t.blocks = s.blocks.erase blk ∧ t.mem = s.mem
    ∧ t.launches = s.launches.set (s.blkAt blk).launch { s.launchAt (s.blkAt blk).launch with live := (s.launchAt (s.blkAt blk).launch).live - 1 }
    ∧ ∀ k, k ∈ (s.blkAt blk).slots → (t.grpAt k).status = .idle := by
  intro t
  let s1 : State := { s with
    blocks := s.blocks.erase blk, bars := [blk * 4, blk * 4 + 1].foldl (fun m i => m.erase i) s.bars
    launches := s.launches.set (s.blkAt blk).launch { s.launchAt (s.blkAt blk).launch with live := (s.launchAt (s.blkAt blk).launch).live - 1 } }
  let tags := (s.blkAt blk).tables.filterMap fun t => if t.2.valid then some t.2.tag else none
  have hu := foldl_dropTag (blk / 16) tags s1
  have hv := foldl_idle (s.blkAt blk).slots (tags.foldl (fun u tag => u.dropTag (blk / 16) tag) s1)
  have ht : ∃ c n, t = { ((s.blkAt blk).slots.foldl (fun v k => v.setGrpAt k { monsave := (v.grpAt k).monsave })
      (tags.foldl (fun u tag => u.dropTag (blk / 16) tag) s1)) with cores := c, net := n } := by
    show ∃ c n, s.freeBlock blk = _
    unfold State.freeBlock
    dsimp only
    split
    · exact ⟨_, _, rfl⟩
    · exact ⟨_, _, rfl⟩
  obtain ⟨c, n, ht⟩ := ht
  obtain ⟨hv1, hv2⟩ := hv
  refine ⟨?_, ?_, ?_, ?_⟩
  · rw [ht, hv1, hu]
  · rw [ht, hv1, hu]
  · rw [ht, hv1, hu]
  · intro k hk
    have : t.grpAt k = ((s.blkAt blk).slots.foldl (fun v k => v.setGrpAt k { monsave := (v.grpAt k).monsave })
      (tags.foldl (fun u tag => u.dropTag (blk / 16) tag) s1)).grpAt k := by rw [ht]; rfl
    rw [this]; exact hv2 k (.inr hk)

theorem not_fits_any {α : Type} (l : List α) (f : α → Bool) (h : ∃ x ∈ l, f x = false) : (!l.all f) = true := by
  obtain ⟨x, hx, hf⟩ := h
  rw [Bool.not_eq_true', List.all_eq_false]
  exact ⟨x, hx, by simp [hf]⟩

theorem onMondb_groups (s : State) (k : Nat) (f : Mondb → Mondb) : s.onMondb k f = { s with groups := (s.onMondb k f).groups } := rfl

theorem foldl_groups {β : Type} (f : State → β → State) (hf : ∀ s b, f s b = { s with groups := (f s b).groups }) (l : List β) :
    ∀ s : State, l.foldl f s = { s with groups := (l.foldl f s).groups } := by
  induction l with
  | nil => intro s; rfl
  | cons a l ih => intro s; rw [List.foldl_cons, ih, hf]

theorem markP1_groups (s : State) (blk : Nat) : s.markP1 blk = { s with groups := (s.markP1 blk).groups } := by
  unfold State.markP1
  exact foldl_groups _ (fun _ _ => rfl) _ s

theorem setKil_groups (s : State) (k : Nat) : s.setKil k = { s with groups := (s.setKil k).groups, blocks := (s.setKil k).blocks } := by
  unfold State.setKil
  dsimp only
  split
  · rfl
  · split
    · rfl
    · rw [markP1_groups]; rfl

theorem foldl_setKil {β : Type} (f : State → β → State) (hf : ∀ s b, f s b = { s with groups := (f s b).groups, blocks := (f s b).blocks }) (l : List β) :
    ∀ s : State, l.foldl f s = { s with groups := (l.foldl f s).groups, blocks := (l.foldl f s).blocks } := by
  induction l with
  | nil => intro s; rfl
  | cons a l ih => intro s; rw [List.foldl_cons, ih, hf]

/-- A context that is dead stays as it is; else a fatal error records its cause, drops its rank windows and contributions,
and changes the groups' doorbells, the blocks' images and what its trace record writes. -/
theorem fatal_spec (s : State) (asid cause k : Nat) (v : W64) : let t := s.fatal asid cause k v
    ((s.dead.find asid).isSome = true → t = s)
    ∧ ((s.dead.find asid).isSome = false → t.dead = s.dead.set asid cause
      ∧ t = { s.die asid cause with groups := t.groups, blocks := t.blocks, mem := t.mem, poison := t.poison, cores := t.cores
                                    dirty := t.dirty, cipher := t.cipher, parts := t.parts }
      ∧ ((s.reg (subBlock (s.partOfCore (k / 16)) 0x3008)).getLsbD 0 = false → t.mem = s.mem)) := by
  intro t
  constructor
  · intro hd
    show s.fatal asid cause k v = _
    unfold State.fatal; rw [if_pos hd]
  · intro hd
    have hdie : (s.die asid cause).dead = s.dead.set asid cause ∧ (s.die asid cause).mem = s.mem ∧ (s.die asid cause).regs = s.regs := by
      unfold State.die; rw [if_neg (by simp [hd])]; exact ⟨rfl, rfl, rfl⟩
    have hf : ∀ u : State, (u.blocks.filter fun b => (u.launchAt b.2.launch).asid == asid).foldl (fun u b => b.2.slots.foldl State.setKil u) u
        = { u with groups := ((u.blocks.filter fun b => (u.launchAt b.2.launch).asid == asid).foldl (fun u b => b.2.slots.foldl State.setKil u) u).groups
                   blocks := ((u.blocks.filter fun b => (u.launchAt b.2.launch).asid == asid).foldl (fun u b => b.2.slots.foldl State.setKil u) u).blocks } :=
      fun u => foldl_setKil _ (fun s b => foldl_setKil State.setKil setKil_groups b.2.slots s) _ u
    have ht : t = (((s.die asid cause).trace k 8 asid (cause + 2 ^ 64 * v.toNat)).blocks.filter fun b =>
        (((s.die asid cause).trace k 8 asid (cause + 2 ^ 64 * v.toNat)).launchAt b.2.launch).asid == asid).foldl
          (fun u b => b.2.slots.foldl State.setKil u) ((s.die asid cause).trace k 8 asid (cause + 2 ^ 64 * v.toNat)) := by
      show s.fatal asid cause k v = _
      unfold State.fatal; rw [if_neg (by simp [hd])]
    rw [hf] at ht
    obtain ⟨h1, -⟩ := trace_spec (s.die asid cause) k 8 asid (cause + 2 ^ 64 * v.toNat)
    refine ⟨?_, ?_, ?_⟩
    · rw [ht, h1]; exact hdie.1
    · rw [ht, h1]
    · intro h
      rw [ht]
      have h0 := trace_off (s.die asid cause) k 8 asid (cause + 2 ^ 64 * v.toNat) (by
        have : ∀ n, (s.die asid cause).reg n = s.reg n := by intro n; unfold State.reg; rw [hdie.2.2]
        have hp : (s.die asid cause).partOfCore (k / 16) = s.partOfCore (k / 16) := by
          unfold State.partOfCore State.partOfDie; rw [this]
        rw [hp, this]; exact h)
      dsimp only
      rw [h0]; exact hdie.2.1

theorem strike_groups (s : State) (blk j : Nat) (_hn : (s.blkAt blk).slots.Nodup) (hj : j ∈ (s.blkAt blk).slots) :
    ((s.strike blk).grpAt j).mondb.pre = true ∧ ((s.strike blk).grpAt j).saved0 = false ∧ ((s.strike blk).grpAt j).x = (s.grpAt j).x := by
  have hset : ∀ (l : List Nat) (u : State), let t := l.foldl (fun u k => u.setGrpAt k { u.grpAt k with mondb := { (u.grpAt k).mondb with pre := true }, saved0 := false }) u
      (j ∈ l ∨ ((u.grpAt j).mondb.pre = true ∧ (u.grpAt j).saved0 = false) → (t.grpAt j).mondb.pre = true ∧ (t.grpAt j).saved0 = false)
      ∧ (t.grpAt j).x = (u.grpAt j).x := by
    intro l
    induction l with
    | nil => intro u; exact ⟨fun h => h.elim (fun h => absurd h List.not_mem_nil) id, rfl⟩
    | cons a l ih =>
      intro u
      obtain ⟨h1, h2⟩ := ih (u.setGrpAt a { u.grpAt a with mondb := { (u.grpAt a).mondb with pre := true }, saved0 := false })
      rw [List.foldl_cons]
      refine ⟨fun h => h1 ?_, h2.trans ?_⟩
      · rw [State.grpAt_setGrpAt]
        by_cases ha : a = j
        · right; subst ha; simp
        · rw [if_neg ha]
          rcases h with h | h
          · rcases List.mem_cons.mp h with h | h
            · exact absurd h.symm ha
            · exact .inl h
          · exact .inr h
      · rw [State.grpAt_setGrpAt]
        by_cases ha : a = j
        · subst ha; simp
        · rw [if_neg ha]
  have hp1 : ∀ (l : List Nat) (p : Option Nat) (u : State), let t := l.foldl (fun t k => t.onMondb k fun m => { m with p1 := p == some k }) u
      (t.grpAt j).mondb.pre = (u.grpAt j).mondb.pre ∧ (t.grpAt j).saved0 = (u.grpAt j).saved0 ∧ (t.grpAt j).x = (u.grpAt j).x := by
    intro l p
    induction l with
    | nil => intro u; exact ⟨rfl, rfl, rfl⟩
    | cons a l ih =>
      intro u
      obtain ⟨h1, h2, h3⟩ := ih (u.onMondb a fun m => { m with p1 := p == some a })
      rw [List.foldl_cons]
      have : ((u.onMondb a fun m => { m with p1 := p == some a }).grpAt j).mondb.pre = (u.grpAt j).mondb.pre
          ∧ ((u.onMondb a fun m => { m with p1 := p == some a }).grpAt j).saved0 = (u.grpAt j).saved0
          ∧ ((u.onMondb a fun m => { m with p1 := p == some a }).grpAt j).x = (u.grpAt j).x := by
        unfold State.onMondb
        dsimp only
        rw [State.grpAt_setGrpAt]
        by_cases ha : a = j
        · subst ha; simp
        · rw [if_neg ha]; exact ⟨rfl, rfl, rfl⟩
      exact ⟨h1.trans this.1, h2.trans this.2.1, h3.trans this.2.2⟩
  obtain ⟨a1, a2⟩ := hset (s.blkAt blk).slots s
  unfold State.strike State.markP1
  dsimp only
  obtain ⟨b1, b2, b3⟩ := hp1 (State.blkAt (State.setBlkAt ((s.blkAt blk).slots.foldl (fun u k => u.setGrpAt k { u.grpAt k with mondb := { (u.grpAt k).mondb with pre := true }, saved0 := false }) s) blk
      { ((s.blkAt blk).slots.foldl (fun u k => u.setGrpAt k { u.grpAt k with mondb := { (u.grpAt k).mondb with pre := true }, saved0 := false }) s).blkAt blk with saved1 := false }) blk).slots
    (State.p1Slot (State.setBlkAt ((s.blkAt blk).slots.foldl (fun u k => u.setGrpAt k { u.grpAt k with mondb := { (u.grpAt k).mondb with pre := true }, saved0 := false }) s) blk
      { ((s.blkAt blk).slots.foldl (fun u k => u.setGrpAt k { u.grpAt k with mondb := { (u.grpAt k).mondb with pre := true }, saved0 := false }) s).blkAt blk with saved1 := false }) blk)
    (State.setBlkAt ((s.blkAt blk).slots.foldl (fun u k => u.setGrpAt k { u.grpAt k with mondb := { (u.grpAt k).mondb with pre := true }, saved0 := false }) s) blk
      { ((s.blkAt blk).slots.foldl (fun u k => u.setGrpAt k { u.grpAt k with mondb := { (u.grpAt k).mondb with pre := true }, saved0 := false }) s).blkAt blk with saved1 := false })
  exact ⟨b1.trans (a1 (.inl hj)).1, b2.trans (a1 (.inl hj)).2, b3.trans a2⟩

end Sys2Proof.Machine
end

