-- ==== Sys2Proof/Laws/Device.lean ====
section
/-! SUPPORT. What notices, shootdowns, refills, storage errors and register writes can do. -/
namespace Sys2Proof.Machine

theorem mem_get_map {α : Type} (l : Map Core) (c : Nat) (f : Core → List α) (g : Core → Core) (p : α → Bool)
    (hd : ∀ c, f (g c) = (f c).filter p) (h0 : f {} = []) : ∀ x ∈ f (Map.get {} (l.map fun q => (q.1, g q.2)) c), p x = true := by
  induction l with
  | nil =>
    intro x hx
    have hx' : x ∈ f {} := hx
    rw [h0] at hx'
    exact absurd hx' List.not_mem_nil
  | cons a l ih =>
    intro x hx
    simp only [List.map_cons, Map.get] at hx
    split at hx
    · rw [hd] at hx; exact (List.mem_filter.mp hx).2
    · exact ih x hx

/-- What a shootdown removes, once no dirty sector of its range is left. -/
theorem shootdown_spec (s : State) (r : Shoot) : let t := s.shootdown r
    (∀ e ∈ t.tlb, r.hits e.asid (e.asid == 0) e.va e.size = false)
    ∧ (∀ e ∈ t.l2, r.hits e.asid (e.asid == 0) e.va e.size = false)
    ∧ (∀ c, ∀ x ∈ (t.coreAt c).l1, r.hits x.asid x.glob x.va 128 = false)
    ∧ (∀ c, ∀ x ∈ (t.coreAt c).code, r.hits x.asid false x.va 4 = false)
    ∧ ((∀ d ∈ s.dirty, r.hits d.asid d.glob d.va 128 = false) → t.mem = s.mem
      ∧ (∀ e ∈ s.tlb, r.hits e.asid (e.asid == 0) e.va e.size = false → e ∈ t.tlb)
      ∧ ∀ k, let g := s.grpAt k
        t.grpAt k = if g.status = .live ∧ (s.launchAt (s.blkAt g.blk).launch).asid = r.asid
          then { g with mondb := { g.mondb with sdn := true } } else g) := by
  intro t
  have ht : t = s.shootdown r := rfl
  unfold State.shootdown at ht
  dsimp only at ht
  refine ⟨?_, ?_, ?_, ?_, ?_⟩
  · intro e he
    rw [ht] at he
    have := (List.mem_filter.mp he).2
    simpa using this
  · intro e he
    rw [ht] at he
    have := (List.mem_filter.mp he).2
    simpa using this
  · intro c x hx
    rw [ht] at hx
    have := mem_get_map _ c (fun c => c.l1) (fun c => c.shot r) (fun x => !r.hits x.asid x.glob x.va 128) (fun _ => rfl) rfl x hx
    simpa using this
  · intro c x hx
    rw [ht] at hx
    have := mem_get_map _ c (fun c => c.code) (fun c => c.shot r) (fun x => !r.hitsAny x.asid x.va 4) (fun _ => rfl) rfl x hx
    simp [Shoot.hitsAny] at this; exact this.1
  · intro hd
    have h0 : s.dirty.filter (fun d => r.hits d.asid d.glob d.va 128) = [] := by
      rw [List.filter_eq_nil_iff]; intro d hm; rw [hd d hm]; simp
    rw [h0] at ht
    refine ⟨by rw [ht]; rfl, ?_, ?_⟩
    · intro e he hr
      rw [ht]
      exact List.mem_filter.mpr ⟨he, by rw [hr]; rfl⟩
    · intro k g
      rw [ht]
      have := Map.get_map ({} : Group) {} (fun _ (g : Group) =>
        if g.status == .live && (s.launchAt (s.blkAt g.blk).launch).asid == r.asid then { g with mondb := { g.mondb with sdn := true } } else g)
        s.groups k (fun _ => rfl)
      refine this.trans ?_
      show (if (g.status == .live && (s.launchAt (s.blkAt g.blk).launch).asid == r.asid) = true then _ else _) = _
      simp only [Bool.and_eq_true, beq_iff_eq]
      rfl

theorem wake_spec (s : State) (n : Notice) (h1 : n.grp / 16 < 1984) (h2 : n.src ≠ 2) : let t := s.wake n
    let g := s.grpAt n.grp
    t.mem = s.mem ∧ (∀ k, k ≠ n.grp → t.grpAt k = s.grpAt k)
    ∧ t.grpAt n.grp = if n.src = 1 then { g with holdA := false, mondb := { g.mondb with fla := g.mondb.fla || n.fail } }
      else { g with holdC := none, mondb := { g.mondb with flc := g.mondb.flc || n.fail } } := by
  intro t g
  have hk : ∀ (u : State) (c : Nat), (u.l1Clear c).mem = u.mem ∧ (u.l1Clear c).groups = u.groups := by
    intro u c; unfold State.l1Clear; dsimp only; split <;> exact ⟨rfl, rfl⟩
  let u := (s.setBlkAt (s.grpAt n.grp).blk { s.blkAt (s.grpAt n.grp).blk with idleSince := s.tide.toNat }).l1Clear (n.grp / 16)
  let h' : Group := if n.src = 1 then { g with holdA := false, mondb := { g.mondb with fla := g.mondb.fla || n.fail } }
      else { g with holdC := none, mondb := { g.mondb with flc := g.mondb.flc || n.fail } }
  have ht : t = u.setGrpAt n.grp h' := by
    show s.wake n = _
    unfold State.wake
    dsimp only
    rw [if_neg (by omega)]
    split
    · rename_i e; show _ = State.setGrpAt _ _ (ite _ _ _); rw [if_pos e]
    · rename_i e; exact absurd e h2
    · rename_i e _; show _ = State.setGrpAt _ _ (ite _ _ _); rw [if_neg e]
  refine ⟨?_, fun k hk' => ?_, ?_⟩
  · rw [ht]; exact (hk _ _).1
  · rw [ht, State.grpAt_setGrpAt, if_neg (Ne.symm hk')]
    show Map.get _ u.groups k = _
    rw [(hk _ _).2]; rfl
  · rw [ht, State.grpAt_setGrpAt, if_pos rfl]

/-- Setting one bucket of each core of a list. -/
theorem buckets_fold (n : Nat) (f : Nat → Nat) (l : List Nat) : ∀ s : State,
    let t := l.foldl (fun t c => if Map.get 0 (t.coreAt c).buckets n == f c then t
      else t.setCoreAt c { t.coreAt c with buckets := (t.coreAt c).buckets.set n (f c) }) s
    t = { s with cores := t.cores } ∧ (∀ c, c ∉ l → t.coreAt c = s.coreAt c)
    ∧ (∀ c, c ∈ l ∨ Map.get 0 (s.coreAt c).buckets n = f c → Map.get 0 (t.coreAt c).buckets n = f c)
    ∧ ∀ c m, m ≠ n → Map.get 0 (t.coreAt c).buckets m = Map.get 0 (s.coreAt c).buckets m := by
  induction l with
  | nil => intro s; exact ⟨rfl, fun _ _ => rfl, fun c h => h.elim (fun h => absurd h List.not_mem_nil) id, fun _ _ _ => rfl⟩
  | cons a l ih =>
    intro s
    let u := if Map.get 0 (s.coreAt a).buckets n == f a then s
      else s.setCoreAt a { s.coreAt a with buckets := (s.coreAt a).buckets.set n (f a) }
    have hu : u = { s with cores := u.cores } ∧ (∀ c, c ≠ a → u.coreAt c = s.coreAt c) ∧ Map.get 0 (u.coreAt a).buckets n = f a
        ∧ ∀ c m, m ≠ n → Map.get 0 (u.coreAt c).buckets m = Map.get 0 (s.coreAt c).buckets m := by
      by_cases h : Map.get 0 (s.coreAt a).buckets n == f a
      · have : u = s := if_pos h
        rw [this]
        exact ⟨rfl, fun _ _ => rfl, beq_iff_eq.mp h, fun _ _ _ => rfl⟩
      · have : u = s.setCoreAt a { s.coreAt a with buckets := (s.coreAt a).buckets.set n (f a) } := if_neg h
        rw [this]
        refine ⟨rfl, fun c hc => by rw [State.coreAt_setCoreAt, if_neg (Ne.symm hc)], by rw [State.coreAt_setCoreAt, if_pos rfl]; exact Map.get_set_same .., ?_⟩
        intro c m hm
        rw [State.coreAt_setCoreAt]
        split
        · rename_i e; subst e; exact Map.get_set_other _ _ _ (Ne.symm hm)
        · rfl
    obtain ⟨h1, h2, h3, h4⟩ := ih u
    obtain ⟨u1, u2, u3, u4⟩ := hu
    refine ⟨?_, ?_, ?_, ?_⟩
    · have hw : ∀ w : State, w = { u with cores := w.cores } → w = { s with cores := w.cores } := by
        intro w hw; rw [u1] at hw; exact hw
      rw [List.foldl_cons]; exact hw _ h1
    · intro c hc
      rw [List.foldl_cons]
      exact (h2 c (fun h => hc (List.mem_cons_of_mem _ h))).trans (u2 c (fun h => hc (h ▸ List.mem_cons_self ..)))
    · intro c hc
      rw [List.foldl_cons]
      refine h3 c ?_
      by_cases ha : c = a
      · right; rw [ha]; exact u3
      · rcases hc with h | h
        · rcases List.mem_cons.mp h with h | h
          · exact absurd h ha
          · exact .inl h
        · right; rw [u2 c ha]; exact h
    · intro c m hm
      rw [List.foldl_cons]
      exact (h4 c m hm).trans (u4 c m hm)

/-- What letting a core's held requests through does. -/
theorem letThrough_spec (s : State) (a : Nat) : let u := s.letThrough a
    u = { s with cores := u.cores } ∧ (∀ c, c ≠ a → u.coreAt c = s.coreAt c)
    ∧ (u.coreAt a).heldPort = [] ∧ (∀ c, (u.coreAt c).buckets = (s.coreAt c).buckets)
    ∧ (u.coreAt a).bwSent = (s.coreAt a).bwSent + BitVec.ofNat 64 (s.coreAt a).heldPort.length := by
  intro u
  by_cases h : (s.coreAt a).heldPort.isEmpty
  · have hu : u = s := if_pos h
    have h' := List.isEmpty_iff.mp h
    rw [hu]
    exact ⟨rfl, fun _ _ => rfl, h', fun _ => rfl, by rw [h']; simp⟩
  · obtain ⟨v, hv, h1, h2, h3⟩ : ∃ v : Core, u = s.setCoreAt a v ∧ v.heldPort = [] ∧ v.buckets = (s.coreAt a).buckets
        ∧ v.bwSent = (s.coreAt a).bwSent + BitVec.ofNat 64 (s.coreAt a).heldPort.length := ⟨_, if_neg h, rfl, rfl, rfl⟩
    have ha : u.coreAt a = v := by rw [hv, State.coreAt_setCoreAt, if_pos rfl]
    have hc : ∀ c, c ≠ a → u.coreAt c = s.coreAt c := fun c hc => by rw [hv, State.coreAt_setCoreAt, if_neg (Ne.symm hc)]
    refine ⟨by rw [hv]; rfl, hc, by rw [ha]; exact h1, fun c => ?_, by rw [ha]; exact h3⟩
    by_cases e : c = a
    · rw [e, ha]; exact h2
    · rw [hc c e]

/-- The same over a list of cores. -/
theorem letThrough_fold (l : List Nat) : ∀ s : State, let t := l.foldl State.letThrough s
    t = { s with cores := t.cores } ∧ (∀ c, c ∉ l → t.coreAt c = s.coreAt c)
    ∧ (∀ c, c ∈ l ∨ (s.coreAt c).heldPort = [] → (t.coreAt c).heldPort = [])
    ∧ (∀ c, (t.coreAt c).buckets = (s.coreAt c).buckets)
    ∧ ∀ c, c ∈ l ∨ (s.coreAt c).heldPort = [] →
      (t.coreAt c).bwSent = (s.coreAt c).bwSent + BitVec.ofNat 64 (s.coreAt c).heldPort.length := by
  induction l with
  | nil =>
    intro s
    exact ⟨rfl, fun _ _ => rfl, fun c h => h.elim (fun h => absurd h List.not_mem_nil) id, fun _ => rfl,
      fun c h => h.elim (fun h => absurd h List.not_mem_nil) fun h => by rw [h]; simp⟩
  | cons a l ih =>
    intro s
    obtain ⟨u1, u2, u3, u4, u5⟩ := letThrough_spec s a
    obtain ⟨h1, h2, h3, h4, h5⟩ := ih (s.letThrough a)
    have hr : ∀ c, c ∈ a :: l ∨ (s.coreAt c).heldPort = [] → c ∈ l ∨ ((s.letThrough a).coreAt c).heldPort = [] := by
      intro c hc
      by_cases ha : c = a
      · right; rw [ha]; exact u3
      · rcases hc with h | h
        · rcases List.mem_cons.mp h with h | h
          · exact absurd h ha
          · exact .inl h
        · right; rw [u2 c ha]; exact h
    refine ⟨?_, fun c hc => ?_, fun c hc => h3 c (hr c hc), fun c => (h4 c).trans (u4 c), fun c hc => ?_⟩
    · have hw : ∀ w : State, w = { s.letThrough a with cores := w.cores } → w = { s with cores := w.cores } := by
        intro w hw; rw [u1] at hw; exact hw
      rw [List.foldl_cons]; exact hw _ h1
    · rw [List.foldl_cons]
      exact (h2 c (fun h => hc (List.mem_cons_of_mem _ h))).trans (u2 c (fun h => hc (h ▸ List.mem_cons_self ..)))
    · rw [List.foldl_cons, h5 c (hr c hc)]
      by_cases ha : c = a
      · rw [ha, u3, u5]; simp
      · rw [u2 c ha]

/-- What the refill of a group does. -/
theorem refillGroup_spec (s : State) (p n : Nat) : let t := s.refillGroup p n
    t = { s with cores := t.cores, regs := t.regs, parts := t.parts }
    ∧ (∀ c, s.partOfCore c ≠ p → t.coreAt c = s.coreAt c)
    ∧ (t.part p).period = (s.part p).period
    ∧ (∀ c, c < 1536 → s.partOfCore c = p → Map.get 0 (t.coreAt c).buckets n = Map.get 0 (s.tokenGrants p n) c)
    ∧ (∀ c m, m ≠ n → Map.get 0 (t.coreAt c).buckets m = Map.get 0 (s.coreAt c).buckets m)
    ∧ (∀ off, off ≠ subBlock p (0x2180 + 8 * n) → t.reg off = s.reg off)
    ∧ t.reg (subBlock p (0x2180 + 8 * n)) = BitVec.ofNat 64 (s.unusedTokens p n % 2 ^ 32 + if s.needyShares p n ≠ 0 then 2 ^ 32 else 0) := by
  intro t
  obtain ⟨h1, h2, h3, h4⟩ := buckets_fold n (fun c => Map.get 0 (s.tokenGrants p n) c) (s.coresOf p) s
  have ht : ∃ w q, w = (s.coresOf p).foldl (fun t c => if Map.get 0 (t.coreAt c).buckets n == Map.get 0 (s.tokenGrants p n) c then t
      else t.setCoreAt c { t.coreAt c with buckets := (t.coreAt c).buckets.set n (Map.get 0 (s.tokenGrants p n) c) }) s
      ∧ t = ({ w with regs := w.regs.set (subBlock p (0x2180 + 8 * n)) (BitVec.ofNat 64 (s.unusedTokens p n % 2 ^ 32 + if s.needyShares p n != 0 then 2 ^ 32 else 0)) } : State).setPart p
        { w.part p with idle := q } := ⟨_, _, rfl, rfl⟩
  obtain ⟨w, q, hw, ht⟩ := ht
  rw [← hw] at h1 h2 h3 h4
  clear hw
  have hmem : ∀ c, c ∈ s.coresOf p ↔ c < 1536 ∧ s.partOfCore c = p := by
    intro c; unfold State.coresOf; rw [List.mem_filter, List.mem_range, beq_iff_eq]
  have htc : ∀ c, t.coreAt c = w.coreAt c := fun c => by rw [ht]; rfl
  have htr : t.regs = w.regs.set (subBlock p (0x2180 + 8 * n)) (BitVec.ofNat 64 (s.unusedTokens p n % 2 ^ 32 + if s.needyShares p n != 0 then 2 ^ 32 else 0)) := by rw [ht]; rfl
  have hwr : w.regs = s.regs := by rw [h1]
  refine ⟨?_, ?_, ?_, ?_, ?_, ?_, ?_⟩
  · have hw : ∀ w : State, w = { s with cores := w.cores } → ∀ r q, ({ w with regs := r, parts := q } : State) = { s with cores := w.cores, regs := r, parts := q } := by
      intro w hw r q; rw [hw]
    have h5 : t = { w with regs := t.regs, parts := t.parts } := by rw [ht]; rfl
    have h6 : t.cores = w.cores := by rw [ht]; rfl
    rw [h6]
    exact h5.trans (hw w h1 t.regs t.parts)
  · intro c hc
    rw [htc]; exact h2 c (fun h => hc ((hmem c).mp h).2)
  · have h5 : t.part p = { w.part p with idle := q } := by rw [ht]; exact Map.get_set_same ..
    have h6 : w.part p = s.part p := by rw [h1]; rfl
    rw [h5, h6]
  · intro c hc hp
    rw [htc]; exact h3 c (.inl ((hmem c).mpr ⟨hc, hp⟩))
  · intro c m hm
    rw [htc]; exact h4 c m hm
  · intro off ho
    unfold State.reg
    rw [htr, hwr, Map.get_set_other _ _ _ (Ne.symm ho)]
  · unfold State.reg
    rw [htr, Map.get_set_same]
    by_cases h : s.needyShares p n = 0 <;> simp [h]

theorem subBlock_refill (p n : Nat) (h : n < 12) : subBlock p (0x2180 + 8 * n) ≠ pd0 0x100 := by
  unfold subBlock pd0; omega

theorem refill_fold (p : Nat) (l : List Nat) (hl : ∀ n ∈ l, n < 12) : ∀ s : State, let t := l.foldl (fun t n => t.refillGroup p n) s
    t.mem = s.mem ∧ t.groups = s.groups ∧ (t.part p).period = (s.part p).period
    ∧ (∀ c, t.partOfCore c = s.partOfCore c) ∧ ∀ c, s.partOfCore c ≠ p → t.coreAt c = s.coreAt c := by
  induction l with
  | nil => intro s; exact ⟨rfl, rfl, rfl, fun _ => rfl, fun _ _ => rfl⟩
  | cons a l ih =>
    intro s
    obtain ⟨r1, r2, r3, -, -, r6, -⟩ := refillGroup_spec s p a
    obtain ⟨i1, i2, i3, i4, i5⟩ := ih (fun n hn => hl n (List.mem_cons_of_mem _ hn)) (s.refillGroup p a)
    have hp : ∀ c, (s.refillGroup p a).partOfCore c = s.partOfCore c := by
      intro c
      unfold State.partOfCore State.partOfDie
      rw [r6 _ (Ne.symm (subBlock_refill p a (hl a (List.mem_cons_self ..))))]
    rw [List.foldl_cons]
    refine ⟨i1.trans (by rw [r1]), i2.trans (by rw [r1]), i3.trans r3, fun c => (i4 c).trans (hp c), fun c hc => ?_⟩
    exact (i5 c (by rw [hp]; exact hc)).trans (r2 c hc)

theorem countEcc_kept (s : State) (c i : Nat) (b : Bool) : s.countEcc c i b = { s with cores := (s.countEcc c i b).cores } := by
  unfold State.countEcc; dsimp only; split <;> rfl

theorem eccCount_kept (s : State) (die : Nat) (b : Bool) (site : EccSite) :
    s.eccCount die b site = { s with cores := (s.eccCount die b site).cores, regs := (s.eccCount die b site).regs } := by
  unfold State.eccCount
  split
  · unfold State.countUnit
    repeat' split
    all_goals first | rfl | (rw [countEcc_kept])
  · rw [countEcc_kept]
  · split
    · rw [countEcc_kept]
    · rfl
  · rw [countEcc_kept]
  · rw [countEcc_kept]
  · rfl
  · rfl

theorem full_and (v : W64) : v &&& fullMask = v := by
  unfold fullMask; exact BitVec.and_allOnes (x := v)

theorem countBlkErr_kept (s : State) (c : Nat) : s.countBlkErr c = { s with cores := (s.countBlkErr c).cores } := rfl

theorem countReg_kept (s : State) (off : Nat) : s.countReg off = { s with cores := (s.countReg off).cores, regs := (s.countReg off).regs } := by
  unfold State.countReg; split <;> rfl

/-- setKil never clears a kil bit and sets its own. -/
theorem setKil_kil (s : State) (k j : Nat) (h : j = k ∨ (s.grpAt j).mondb.kil = true) : ((s.setKil k).grpAt j).mondb.kil = true := by
  have hp1 : ∀ (l : List Nat) (p : Option Nat) (u : State), (u.grpAt j).mondb.kil = true →
      ((l.foldl (fun t k => t.onMondb k fun m => { m with p1 := p == some k }) u).grpAt j).mondb.kil = true := by
    intro l p
    induction l with
    | nil => intro u hu; exact hu
    | cons a l ih =>
      intro u hu
      rw [List.foldl_cons]
      refine ih _ ?_
      unfold State.onMondb
      dsimp only
      rw [State.grpAt_setGrpAt]
      split
      · rename_i e; subst e; exact hu
      · exact hu
  have h0 : ((s.setGrpAt k { s.grpAt k with mondb := { (s.grpAt k).mondb with kil := true }, saved0 := false }).grpAt j).mondb.kil = true := by
    rw [State.grpAt_setGrpAt]
    by_cases e : k = j
    · rw [if_pos e]
    · rw [if_neg e]; exact h.resolve_left (Ne.symm e)
  unfold State.setKil
  dsimp only
  split
  · rename_i hk
    rcases h with e | h
    · subst e; exact hk
    · exact h
  · split
    · exact h0
    · unfold State.markP1; exact hp1 _ _ _ h0

theorem setKils_kil (f : Nat → Bool) (g : Nat → Nat) (l : List Nat) (j : Nat) : ∀ s : State,
    (s.grpAt j).mondb.kil = true ∨ (∃ i ∈ l, f i = true ∧ g i = j) →
    ((l.foldl (fun t i => if f i then t.setKil (g i) else t) s).grpAt j).mondb.kil = true := by
  induction l with
  | nil => intro s h; exact h.elim id (fun ⟨i, hi, _⟩ => absurd hi List.not_mem_nil)
  | cons a l ih =>
    intro s h
    rw [List.foldl_cons]
    refine ih _ ?_
    rcases h with h | ⟨i, hi, hf, hg⟩
    · left; split
      · exact setKil_kil s _ j (.inr h)
      · exact h
    · rcases List.mem_cons.mp hi with e | e
      · left; subst e; rw [if_pos hf]; exact setKil_kil s _ j (.inl hg.symm)
      · exact .inr ⟨i, e, hf, hg⟩

/-- A plain write changes the writable bits that it carries, and may be counted. -/
theorem plainWrite_spec (s : State) (off : Nat) (v mask : W64) : let t := s.plainWrite off v mask
    t.mem = s.mem ∧ t.groups = s.groups ∧ (coreAtOffset off ≠ none ∨ (blockOf off).1 ≠ off →
      t.reg off = if plainBits off = 0 then s.reg off
        else (s.reg off &&& ~~~(plainBits off &&& mask)) ||| (v &&& plainBits off &&& mask)) := by
  intro t
  let u : State := if plainBits off == 0 then s
    else { s with regs := s.regs.set off ((s.reg off &&& ~~~(plainBits off &&& mask)) ||| (v &&& plainBits off &&& mask)) }
  have hu : u.mem = s.mem ∧ u.groups = s.groups ∧ u.reg off = if plainBits off = 0 then s.reg off
        else (s.reg off &&& ~~~(plainBits off &&& mask)) ||| (v &&& plainBits off &&& mask) := by
    by_cases h : plainBits off = 0
    · have : u = s := if_pos (by rw [h]; rfl)
      rw [this, if_pos h]; exact ⟨rfl, rfl, rfl⟩
    · have : u = { s with regs := s.regs.set off ((s.reg off &&& ~~~(plainBits off &&& mask)) ||| (v &&& plainBits off &&& mask)) } :=
        if_neg (by rw [beq_iff_eq]; exact h)
      rw [this, if_neg h]; exact ⟨rfl, rfl, Map.get_set_same ..⟩
  have ht : t = if plainReadOnly off || v &&& mask &&& ~~~(plainBits off ||| ignoredBits off) != 0 then u.countReg off else u := rfl
  have hc : (u.countReg off).mem = u.mem ∧ (u.countReg off).groups = u.groups ∧ (coreAtOffset off ≠ none ∨ (blockOf off).1 ≠ off → (u.countReg off).reg off = u.reg off) := by
    refine ⟨by rw [countReg_kept], by rw [countReg_kept], fun h => ?_⟩
    unfold State.countReg
    split
    · rfl
    · rename_i e
      exact Map.get_set_other _ _ _ (h.resolve_left (fun x => x e))
  rw [ht]
  split
  · exact ⟨hc.1.trans hu.1, hc.2.1.trans hu.2.1, fun h => (hc.2.2 h).trans hu.2.2⟩
  · exact ⟨hu.1, hu.2.1, fun _ => hu.2.2⟩

theorem mbctr_lane (k : Nat) (hk : k < 256) (v : W64) (s : State) (c : Nat) :
    s.coreWrite c (0xC00 + 4 * k / 8 * 8) (regLane (4 * k) 4 v).1 (regLane (4 * k) 4 v).2 = s.setCounter c k (v.setWidth 32) := by
  have a1 : ¬ (0xC00 + 4 * k / 8 * 8 = 8) := by omega
  have a2 : ¬ (0xC00 + 4 * k / 8 * 8 < 0x200) := by omega
  have a3 : ¬ (0xC00 + 4 * k / 8 * 8 = 0x300) := by omega
  have a4 : 0xC00 ≤ 0xC00 + 4 * k / 8 * 8 ∧ 0xC00 + 4 * k / 8 * 8 < 0x1000 := by omega
  unfold State.coreWrite
  dsimp only
  rw [if_neg (by simpa using a1), if_neg (by simp; omega), if_neg (by simpa using a3), if_pos (by simp; omega)]
  have hi : (0xC00 + 4 * k / 8 * 8 - 0xC00) / 4 = k / 2 * 2 := by omega
  rw [hi]
  rcases Nat.mod_two_eq_zero_or_one k with h | h
  · have e : 4 * k % 8 = 0 := by omega
    have ek : k / 2 * 2 = k := by omega
    unfold regLane
    dsimp only
    rw [e, ek]
    simp
  · have e : 4 * k % 8 = 4 := by omega
    have ek : k / 2 * 2 + 1 = k := by omega
    unfold regLane
    dsimp only
    rw [e, ek]
    simp only [Nat.reduceMul]
    have m0 : (BitVec.ofNat 64 ((2 ^ 32 - 1) * 2 ^ 32)).getLsbD 0 = false := by decide
    have m1 : (BitVec.ofNat 64 ((2 ^ 32 - 1) * 2 ^ 32)).getLsbD 32 = true := by decide
    rw [m1, m0]
    simp only [if_true, Bool.false_eq_true, if_false]
    congr 1
    apply BitVec.eq_of_getLsbD_eq
    intro i hi
    have h1 : (32 + i < 64) = (i < 32) := by simp only [eq_iff_iff]; omega
    have h2 : ¬ (32 + i < 32) := by omega
    simp only [BitVec.getLsbD_setWidth, BitVec.getLsbD_ushiftRight, BitVec.getLsbD_shiftLeft]
    simp [h2]
    rw [decide_eq_true (show i < 32 from by omega), decide_eq_true (show 32 + i < 64 from by omega)]
    rfl

theorem mbctr_off (s : State) (k : Nat) (hk : k < 256) (who : Agent) (c : Nat) :
    s.coreMayReach who c (0xC00 + 4 * k / 8 * 8) = match who with
      | .sysCore _ => true
      | _ => false := by
  unfold State.coreMayReach
  dsimp only
  rw [if_neg (by simp; omega), if_pos (by simp; omega)]
  all_goals (cases who <;> rfl)

end Sys2Proof.Machine
end

