-- ==== Sys2Proof/Laws/Boot.lean ====
section
/-! SUPPORT. What the boot stages and the Harbourmaster's calls can do. -/
namespace Sys2Proof.Machine

theorem applyFuses_kept (s : State) (bank : Nat) : (s.applyFuses bank).sec = s.sec
    ∧ bits (s.applyFuses bank).boot.bootst.toNat 3 0 = bits s.boot.bootst.toNat 3 0
    ∧ (s.applyFuses bank).boot.standby = s.boot.standby := by
  have hw : ∀ (b : W64) (v : Nat), bits ((b &&& 0xFFFFFFFFFFFFE7FF) ||| (BitVec.ofNat 64 v <<< 11)).toNat 3 0 = bits b.toNat 3 0 := by
    intro b v
    have hx : ∀ w : W64, bits w.toNat 3 0 = (w.setWidth 4).toNat := by intro w; unfold bits; simp
    rw [hx, hx]
    congr 1
    apply BitVec.eq_of_getLsbD_eq
    intro i hi
    have h4 : i = 0 ∨ i = 1 ∨ i = 2 ∨ i = 3 := by omega
    rcases h4 with h | h | h | h <;> subst h <;> simp
  unfold State.applyFuses
  dsimp only
  split
  · exact ⟨rfl, rfl, rfl⟩
  · split
    · exact ⟨rfl, hw _ _, rfl⟩
    · exact ⟨rfl, hw _ _, rfl⟩

theorem bootBank_spec (s : State) (bank : Nat) (fell : Bool) :
    bits (s.bootBank bank fell).boot.bootst.toNat 3 0 = 4
    ∧ (s.bootBank bank fell).boot.banksel = BitVec.ofNat 64 (3 * (bank - if s.boot.standby then 2 else 0) + if fell then 4 else 0) := by
  have h := (applyFuses_kept { s with boot := { s.boot with bootst := bootstOf 4 false 0 0 } } bank).2.1
  unfold State.bootBank
  dsimp only
  refine ⟨?_, rfl⟩
  generalize State.applyFuses _ bank = w at h ⊢
  exact h.trans (show bits (bootstOf 4 false 0 0).toNat 3 0 = 4 from by decide)

theorem badImage_mem (u s : State) (h : u.mem = s.mem) (f : Fuses) (bank : Nat) : u.badImage f bank = s.badImage f bank := by
  have hb : u.bytes = s.bytes := by funext k n; unfold State.bytes; rw [h]
  unfold State.badImage State.imageOk State.imageBody State.imageHeader
  rw [hb]

/-- The stages from 1 on. -/
theorem bootRun_spec (s : State) : let t := s.bootRun
    let b := bits s.boot.banksel.toNat 1 1
    let off := if s.boot.standby then 2 else 0
    (s.boot.fuse0 ≠ s.boot.fuse1 → t = { s with boot := { s.boot with bootst := bootstOf 1 true 1 0 } })
    ∧ (s.boot.fuse0 = s.boot.fuse1 → blockOk (s.input.bytes.take 1024) = false →
      t.boot.bootst = bootstOf 1 true 3 0 ∧ t.sec.locked = true ∧ t.sec.trap31 = s.sec.trap31 + 1 ∧ t.mem = s.mem)
    ∧ (s.boot.fuse0 = s.boot.fuse1 → blockOk (s.input.bytes.take 1024) = true →
      (s.badImage s.boot.fuse0 (off + b) = none → bits t.boot.bootst.toNat 3 0 = 4 ∧ t.boot.banksel = BitVec.ofNat 64 (3 * b))
      ∧ (s.badImage s.boot.fuse0 (off + b) ≠ none → s.badImage s.boot.fuse0 (off + (1 - b)) = none →
        bits t.boot.bootst.toNat 3 0 = 4 ∧ t.boot.banksel = BitVec.ofNat 64 (3 * (1 - b) + 4))
      ∧ ∀ k, s.badImage s.boot.fuse0 (off + b) = some k → s.badImage s.boot.fuse0 (off + (1 - b)) ≠ none →
        t.boot.bootst = bootstOf 2 true 2 k ∧ t.mem = s.mem) := by
  intro t b off
  have ht : t = s.bootRun := rfl
  unfold State.bootRun at ht
  dsimp only at ht
  refine ⟨fun h => ht.trans (if_pos (bne_iff_ne.mpr h)), fun h hb => ?_, fun h hb => ?_⟩
  · rw [if_neg (by rw [h]; simp), if_pos (by rw [hb]; rfl)] at ht
    rw [ht]; exact ⟨rfl, rfl, rfl, rfl⟩
  · rw [if_neg (by rw [h]; simp), if_neg (by rw [hb]; simp)] at ht
    generalize hu : ({ s with sec := { s.sec with
      drbg := drbgNext (drbgReseed [] (s.input.bytes.take 1024)), wrapKey := drbgDraw 32 (drbgReseed [] (s.input.bytes.take 1024)) } } : State) = u at ht
    have hm : u.mem = s.mem := by rw [← hu]
    have hs : u.boot = s.boot := by rw [← hu]
    have ho : ∀ x, x = off + x - (if u.boot.standby then 2 else 0) := by intro x; rw [hs]; show x = off + x - off; omega
    unfold State.bootBanks at ht
    dsimp only at ht
    rw [hs, badImage_mem u s hm, badImage_mem u s hm] at ht
    refine ⟨fun h1 => ?_, fun h1 h2 => ?_, fun k h1 h2 => ?_⟩
    · rw [show s.badImage s.boot.fuse0 ((if s.boot.standby then 2 else 0) + bits s.boot.banksel.toNat 1 1) = none from h1] at ht
      obtain ⟨a1, a2⟩ := bootBank_spec u ((if s.boot.standby then 2 else 0) + bits s.boot.banksel.toNat 1 1) false
      rw [ht]
      refine ⟨a1, a2.trans ?_⟩
      have := ho b
      exact congrArg (BitVec.ofNat 64) (by simp only [Bool.false_eq_true, if_false]; omega)
    · cases h3 : s.badImage s.boot.fuse0 (off + b) with
      | none => exact absurd h3 h1
      | some k =>
        rw [show s.badImage s.boot.fuse0 ((if s.boot.standby then 2 else 0) + bits s.boot.banksel.toNat 1 1) = _ from h3] at ht
        dsimp only at ht
        rw [show s.badImage s.boot.fuse0 ((if s.boot.standby then 2 else 0) + (1 - bits s.boot.banksel.toNat 1 1)) = _ from h2] at ht
        obtain ⟨a1, a2⟩ := bootBank_spec u ((if s.boot.standby then 2 else 0) + (1 - bits s.boot.banksel.toNat 1 1)) true
        rw [ht]
        refine ⟨a1, a2.trans ?_⟩
        rw [← ho (1 - b)]; rfl
    · cases h3 : s.badImage s.boot.fuse0 (off + (1 - b)) with
      | none => exact absurd h3 h2
      | some j =>
        rw [show s.badImage s.boot.fuse0 ((if s.boot.standby then 2 else 0) + bits s.boot.banksel.toNat 1 1) = _ from h1] at ht
        dsimp only at ht
        rw [show s.badImage s.boot.fuse0 ((if s.boot.standby then 2 else 0) + (1 - bits s.boot.banksel.toNat 1 1)) = _ from h3] at ht
        rw [ht, ← hu]; exact ⟨rfl, rfl⟩

theorem powerUp_read (s : State) (h : Inv s) (a : Nat) :
    Memory.read s.powerUp.mem a = if a < 2 ^ 48 ∨ (2 ^ 52 ≤ a ∧ a < 2 ^ 56) then 0 else Memory.read s.mem a := by
  have h1 : Memory.wf (Memory.clear s.mem 0 (2 ^ 48)) = true := Memory.wf_clear _ _ _ h
  refine (Memory.read_clear (2 ^ 52) (2 ^ 56 - 2 ^ 52) a _ h1).trans ?_
  rw [Memory.read_clear 0 (2 ^ 48) a _ h]
  by_cases c1 : a < 2 ^ 48 <;> by_cases c2 : 2 ^ 52 ≤ a ∧ a < 2 ^ 56
  · rw [if_pos (by omega), if_pos (.inl c1)]
  · rw [if_neg (by omega), if_pos (by omega), if_pos (.inl c1)]
  · rw [if_pos (by omega), if_pos (.inr c2)]
  · rw [if_neg (by omega), if_neg (by omega), if_neg (by omega)]

theorem callOp_at {s : State} {k : Nat} {w : List Nat} {op : Nat} {f : List Nat → Option (Nat × Nat × State)} (h : s.nextCall = some (k, w))
    (ho : bits (callWord w 0) 7 0 = op) {st r2 : Nat} {t : State} (hf : f w = some (st, r2, t)) : callOp s op f = .next (t.endCall k w st r2) := by
  unfold callOp
  rw [h]
  dsimp only
  rw [if_neg (by rw [ho]; simp), hf]

theorem callOp_wait {s : State} {k : Nat} {w : List Nat} {op : Nat} {f : List Nat → Option (Nat × Nat × State)} (h : s.nextCall = some (k, w))
    (ho : bits (callWord w 0) 7 0 = op) (hf : f w = none) : callOp s op f = .next s := by
  unfold callOp
  rw [h]
  dsimp only
  rw [if_neg (by rw [ho]; simp), hf]

theorem endContext_spec (s : State) (a : Nat) : (s.endContext a).sec.contexts.find a = none ∧ (s.endContext a).dead.find a = none
    ∧ (s.endContext a).mem = s.mem ∧ ∀ c, c ≠ a → (s.endContext a).sec.contexts.find c = s.sec.contexts.find c :=
  ⟨Map.find_erase_same _ _, Map.find_erase_same _ _, rfl, fun _ hc => Map.find_erase_other _ (Ne.symm hc)⟩

theorem endCall_spec (s : State) (k : Nat) (w : List Nat) (st r2 : Nat) : let t := s.endCall k w st r2
    t.mem = s.mem ∧ t.groups = s.groups ∧ t.sec.order = s.sec.order.drop 1 ∧ t.sec.contexts = s.sec.contexts
    ∧ t.sec.worlds = s.sec.worlds ∧ t.sec.keys = s.sec.keys ∧ let c := Map.get {} t.sec.calls k
    c.busy = false ∧ c.res2 = BitVec.ofNat 64 r2 ∧ c.res = BitVec.ofNat 64 (st + 2 ^ 16 * bits (callWord w 0) 31 16 + 2 ^ 63) := by
  intro t
  refine ⟨rfl, rfl, rfl, rfl, rfl, rfl, ?_⟩
  intro c
  have hc : c = { (Map.get {} s.sec.calls k : Call) with
      res := BitVec.ofNat 64 (st + 2 ^ 16 * bits (callWord w 0) 31 16 + 2 ^ 63), res2 := BitVec.ofNat 64 r2, busy := false } := Map.get_set_same ..
  rw [hc]; exact ⟨rfl, rfl, rfl⟩

theorem ite_f {α : Type} {c : Bool} {x y : α} (h : c = false) : (if c = true then x else y) = y := by rw [h]; rfl

theorem ite_t {α : Type} {c : Bool} {x y : α} (h : c = true) : (if c = true then x else y) = x := by rw [h]; rfl

theorem some_of_ne {α : Type} {o : Option α} (h : o ≠ none) : o.isSome = true := Option.isSome_iff_ne_none.mpr h

end Sys2Proof.Machine
end

