-- ==== Sys2Proof/Laws/PerInstr.lean ====
section
/-! SUPPORT. Encoding then decoding gives a well-formed instruction back, one lemma per constructor. -/
namespace Sys2Proof.Laws.Enc
open Sys2Proof

theorem hi {n m s l : Nat} (x : BitVec n) (y : BitVec m) (h : m ≤ s) :
    (x ++ y).extractLsb' s l = x.extractLsb' (s - m) l := BitVec.extractLsb'_append_eq_of_le h
theorem lo {n m s l : Nat} (x : BitVec n) (y : BitVec m) (h : s + l ≤ m) :
    (x ++ y).extractLsb' s l = y.extractLsb' s l := BitVec.extractLsb'_append_eq_of_add_le h

@[simp] theorem half10_0_6 (x : BitVec 10) (y : BitVec 6) :
    BitVec.extractLsb' (n := 16) 0 6 (x ++ y) = y := by
  show BitVec.extractLsb' (n := 10 + 6) 0 6 _ = _
  rw [lo _ _ (by decide)]; exact BitVec.extractLsb'_eq_self

@[simp] theorem half10_6_10 (x : BitVec 10) (y : BitVec 6) :
    BitVec.extractLsb' (n := 16) 6 10 (x ++ y) = x := by
  show BitVec.extractLsb' (n := 10 + 6) 6 10 _ = _
  rw [hi _ _ (by decide)]; exact BitVec.extractLsb'_eq_self

@[simp] theorem half14_0_2 (x : BitVec 14) (y : BitVec 2) :
    BitVec.extractLsb' (n := 16) 0 2 (x ++ y) = y := by
  show BitVec.extractLsb' (n := 14 + 2) 0 2 _ = _
  rw [lo _ _ (by decide)]; exact BitVec.extractLsb'_eq_self

@[simp] theorem half14_2_14 (x : BitVec 14) (y : BitVec 2) :
    BitVec.extractLsb' (n := 16) 2 14 (x ++ y) = x := by
  show BitVec.extractLsb' (n := 14 + 2) 2 14 _ = _
  rw [hi _ _ (by decide)]; exact BitVec.extractLsb'_eq_self

@[simp] theorem half12_0_4 (x : BitVec 12) (y : BitVec 4) :
    BitVec.extractLsb' (n := 16) 0 4 (x ++ y) = y := by
  show BitVec.extractLsb' (n := 12 + 4) 0 4 _ = _
  rw [lo _ _ (by decide)]; exact BitVec.extractLsb'_eq_self

@[simp] theorem half12_4_12 (x : BitVec 12) (y : BitVec 4) :
    BitVec.extractLsb' (n := 16) 4 12 (x ++ y) = x := by
  show BitVec.extractLsb' (n := 12 + 4) 4 12 _ = _
  rw [hi _ _ (by decide)]; exact BitVec.extractLsb'_eq_self

@[simp] theorem half11_0_5 (x : BitVec 11) (y : BitVec 5) :
    BitVec.extractLsb' (n := 16) 0 5 (x ++ y) = y := by
  show BitVec.extractLsb' (n := 11 + 5) 0 5 _ = _
  rw [lo _ _ (by decide)]; exact BitVec.extractLsb'_eq_self

@[simp] theorem half11_5_11 (x : BitVec 11) (y : BitVec 5) :
    BitVec.extractLsb' (n := 16) 5 11 (x ++ y) = x := by
  show BitVec.extractLsb' (n := 11 + 5) 5 11 _ = _
  rw [hi _ _ (by decide)]; exact BitVec.extractLsb'_eq_self

@[simp] theorem half8_0_8 (x : BitVec 8) (y : BitVec 8) :
    BitVec.extractLsb' (n := 16) 0 8 (x ++ y) = y := by
  show BitVec.extractLsb' (n := 8 + 8) 0 8 _ = _
  rw [lo _ _ (by decide)]; exact BitVec.extractLsb'_eq_self

@[simp] theorem half8_8_8 (x : BitVec 8) (y : BitVec 8) :
    BitVec.extractLsb' (n := 16) 8 8 (x ++ y) = x := by
  show BitVec.extractLsb' (n := 8 + 8) 8 8 _ = _
  rw [hi _ _ (by decide)]; exact BitVec.extractLsb'_eq_self

@[simp] theorem half9_0_7 (x : BitVec 9) (y : BitVec 7) :
    BitVec.extractLsb' (n := 16) 0 7 (x ++ y) = y := by
  show BitVec.extractLsb' (n := 9 + 7) 0 7 _ = _
  rw [lo _ _ (by decide)]; exact BitVec.extractLsb'_eq_self

@[simp] theorem half9_7_9 (x : BitVec 9) (y : BitVec 7) :
    BitVec.extractLsb' (n := 16) 7 9 (x ++ y) = x := by
  show BitVec.extractLsb' (n := 9 + 7) 7 9 _ = _
  rw [hi _ _ (by decide)]; exact BitVec.extractLsb'_eq_self

@[simp] theorem half448_0_8 (x : BitVec 4) (y : BitVec 4) (z : BitVec 8) :
    BitVec.extractLsb' (n := 16) 0 8 (x ++ y ++ z) = z := by
  show BitVec.extractLsb' (n := 4 + 4 + 8) 0 8 _ = _
  rw [lo _ _ (by decide)]; exact BitVec.extractLsb'_eq_self

@[simp] theorem half448_8_4 (x : BitVec 4) (y : BitVec 4) (z : BitVec 8) :
    BitVec.extractLsb' (n := 16) 8 4 (x ++ y ++ z) = y := by
  show BitVec.extractLsb' (n := 4 + 4 + 8) 8 4 _ = _
  rw [hi _ _ (by decide), lo _ _ (by decide)]; exact BitVec.extractLsb'_eq_self

@[simp] theorem half448_12_4 (x : BitVec 4) (y : BitVec 4) (z : BitVec 8) :
    BitVec.extractLsb' (n := 16) 12 4 (x ++ y ++ z) = x := by
  show BitVec.extractLsb' (n := 4 + 4 + 8) 12 4 _ = _
  rw [hi _ _ (by decide), hi _ _ (by decide)]; exact BitVec.extractLsb'_eq_self

@[simp] theorem half2626_0_6 (x : BitVec 2) (y : BitVec 6) (z : BitVec 2) (u : BitVec 6) :
    BitVec.extractLsb' (n := 16) 0 6 (x ++ y ++ z ++ u) = u := by
  show BitVec.extractLsb' (n := 2 + 6 + 2 + 6) 0 6 _ = _
  rw [lo _ _ (by decide)]; exact BitVec.extractLsb'_eq_self

@[simp] theorem half2626_6_2 (x : BitVec 2) (y : BitVec 6) (z : BitVec 2) (u : BitVec 6) :
    BitVec.extractLsb' (n := 16) 6 2 (x ++ y ++ z ++ u) = z := by
  show BitVec.extractLsb' (n := 2 + 6 + 2 + 6) 6 2 _ = _
  rw [hi _ _ (by decide), lo _ _ (by decide)]; exact BitVec.extractLsb'_eq_self

@[simp] theorem half2626_8_6 (x : BitVec 2) (y : BitVec 6) (z : BitVec 2) (u : BitVec 6) :
    BitVec.extractLsb' (n := 16) 8 6 (x ++ y ++ z ++ u) = y := by
  show BitVec.extractLsb' (n := 2 + 6 + 2 + 6) 8 6 _ = _
  rw [hi _ _ (by decide), hi _ _ (by decide), lo _ _ (by decide)]; exact BitVec.extractLsb'_eq_self

@[simp] theorem half2626_14_2 (x : BitVec 2) (y : BitVec 6) (z : BitVec 2) (u : BitVec 6) :
    BitVec.extractLsb' (n := 16) 14 2 (x ++ y ++ z ++ u) = x := by
  show BitVec.extractLsb' (n := 2 + 6 + 2 + 6) 14 2 _ = _
  rw [hi _ _ (by decide), hi _ _ (by decide), hi _ _ (by decide)]; exact BitVec.extractLsb'_eq_self

@[simp] theorem mod3213_0_3 (x : BitVec 3) (y : BitVec 2) (z : BitVec 1) (u : BitVec 3) :
    BitVec.extractLsb' (n := 9) 0 3 (x ++ y ++ z ++ u) = u := by
  show BitVec.extractLsb' (n := 3 + 2 + 1 + 3) 0 3 _ = _
  rw [lo _ _ (by decide)]; exact BitVec.extractLsb'_eq_self

@[simp] theorem mod3213_4_2 (x : BitVec 3) (y : BitVec 2) (z : BitVec 1) (u : BitVec 3) :
    BitVec.extractLsb' (n := 9) 4 2 (x ++ y ++ z ++ u) = y := by
  show BitVec.extractLsb' (n := 3 + 2 + 1 + 3) 4 2 _ = _
  rw [hi _ _ (by decide), hi _ _ (by decide), lo _ _ (by decide)]; exact BitVec.extractLsb'_eq_self

@[simp] theorem mod3213_6_3 (x : BitVec 3) (y : BitVec 2) (z : BitVec 1) (u : BitVec 3) :
    BitVec.extractLsb' (n := 9) 6 3 (x ++ y ++ z ++ u) = x := by
  show BitVec.extractLsb' (n := 3 + 2 + 1 + 3) 6 3 _ = _
  rw [hi _ _ (by decide), hi _ _ (by decide), hi _ _ (by decide)]; exact BitVec.extractLsb'_eq_self

@[simp] theorem mod3213c (x : BitVec 3) (y : BitVec 2) (z : BitVec 1) (u : BitVec 3) :
    BitVec.extractLsb' (n := 9) 1 2 (x ++ y ++ z ++ u) = u.extractLsb' 1 2 := by
  show BitVec.extractLsb' (n := 3 + 2 + 1 + 3) 1 2 _ = _
  rw [lo _ _ (by decide)]

@[simp] theorem mod3213_0 (x : BitVec 3) (y : BitVec 2) (z : BitVec 1) (u : BitVec 3) :
    BitVec.getLsbD (w := 9) (x ++ y ++ z ++ u) 0 = u.getLsbD 0 := by
  show BitVec.getLsbD (w := 3 + 2 + 1 + 3) _ 0 = _
  simp only [BitVec.getLsbD_append]; rfl
@[simp] theorem mod3213_0e (x : BitVec 3) (y : BitVec 2) (z : BitVec 1) (u : BitVec 3) :
    GetElem.getElem (coll := BitVec 9) (x ++ y ++ z ++ u) 0 (by decide) = u.getLsbD 0 := by
  rw [← BitVec.getLsbD_eq_getElem]; exact mod3213_0 x y z u

@[simp] theorem mod3213_3 (x : BitVec 3) (y : BitVec 2) (z : BitVec 1) (u : BitVec 3) :
    BitVec.getLsbD (w := 9) (x ++ y ++ z ++ u) 3 = z.getLsbD 0 := by
  show BitVec.getLsbD (w := 3 + 2 + 1 + 3) _ 3 = _
  simp only [BitVec.getLsbD_append]; rfl
@[simp] theorem mod3213_3e (x : BitVec 3) (y : BitVec 2) (z : BitVec 1) (u : BitVec 3) :
    GetElem.getElem (coll := BitVec 9) (x ++ y ++ z ++ u) 3 (by decide) = z.getLsbD 0 := by
  rw [← BitVec.getLsbD_eq_getElem]; exact mod3213_3 x y z u

@[simp] theorem mod234_0_4 (x : BitVec 2) (y : BitVec 3) (z : BitVec 4) :
    BitVec.extractLsb' (n := 9) 0 4 (x ++ y ++ z) = z := by
  show BitVec.extractLsb' (n := 2 + 3 + 4) 0 4 _ = _
  rw [lo _ _ (by decide)]; exact BitVec.extractLsb'_eq_self

@[simp] theorem mod234_4_3 (x : BitVec 2) (y : BitVec 3) (z : BitVec 4) :
    BitVec.extractLsb' (n := 9) 4 3 (x ++ y ++ z) = y := by
  show BitVec.extractLsb' (n := 2 + 3 + 4) 4 3 _ = _
  rw [hi _ _ (by decide), lo _ _ (by decide)]; exact BitVec.extractLsb'_eq_self

@[simp] theorem mod234_7_2 (x : BitVec 2) (y : BitVec 3) (z : BitVec 4) :
    BitVec.extractLsb' (n := 9) 7 2 (x ++ y ++ z) = x := by
  show BitVec.extractLsb' (n := 2 + 3 + 4) 7 2 _ = _
  rw [hi _ _ (by decide), hi _ _ (by decide)]; exact BitVec.extractLsb'_eq_self

@[simp] theorem mod342_0_2 (x : BitVec 3) (y : BitVec 4) (z : BitVec 2) :
    BitVec.extractLsb' (n := 9) 0 2 (x ++ y ++ z) = z := by
  show BitVec.extractLsb' (n := 3 + 4 + 2) 0 2 _ = _
  rw [lo _ _ (by decide)]; exact BitVec.extractLsb'_eq_self

@[simp] theorem mod342_2_4 (x : BitVec 3) (y : BitVec 4) (z : BitVec 2) :
    BitVec.extractLsb' (n := 9) 2 4 (x ++ y ++ z) = y := by
  show BitVec.extractLsb' (n := 3 + 4 + 2) 2 4 _ = _
  rw [hi _ _ (by decide), lo _ _ (by decide)]; exact BitVec.extractLsb'_eq_self

@[simp] theorem mod342_6_3 (x : BitVec 3) (y : BitVec 4) (z : BitVec 2) :
    BitVec.extractLsb' (n := 9) 6 3 (x ++ y ++ z) = x := by
  show BitVec.extractLsb' (n := 3 + 4 + 2) 6 3 _ = _
  rw [hi _ _ (by decide), hi _ _ (by decide)]; exact BitVec.extractLsb'_eq_self

@[simp] theorem mod36_0_6 (x : BitVec 3) (y : BitVec 6) :
    BitVec.extractLsb' (n := 9) 0 6 (x ++ y) = y := by
  show BitVec.extractLsb' (n := 3 + 6) 0 6 _ = _
  rw [lo _ _ (by decide)]; exact BitVec.extractLsb'_eq_self

@[simp] theorem mod36_6_3 (x : BitVec 3) (y : BitVec 6) :
    BitVec.extractLsb' (n := 9) 6 3 (x ++ y) = x := by
  show BitVec.extractLsb' (n := 3 + 6) 6 3 _ = _
  rw [hi _ _ (by decide)]; exact BitVec.extractLsb'_eq_self

@[simp] theorem code25_0_5 (x : BitVec 2) (y : BitVec 5) :
    BitVec.extractLsb' (n := 7) 0 5 (x ++ y) = y := by
  show BitVec.extractLsb' (n := 2 + 5) 0 5 _ = _
  rw [lo _ _ (by decide)]; exact BitVec.extractLsb'_eq_self

@[simp] theorem code25_5_2 (x : BitVec 2) (y : BitVec 5) :
    BitVec.extractLsb' (n := 7) 5 2 (x ++ y) = x := by
  show BitVec.extractLsb' (n := 2 + 5) 5 2 _ = _
  rw [hi _ _ (by decide)]; exact BitVec.extractLsb'_eq_self

@[simp] theorem xr_fRd (f7 : BitVec 7) (rs2 : BitVec 5) (rs1 : BitVec 5) (f3 : BitVec 3) (rd : BitVec 5) (op : BitVec 7) :
    fRd (f7 ++ rs2 ++ rs1 ++ f3 ++ rd ++ op) = rd := by
  show BitVec.extractLsb' (n := 7 + 5 + 5 + 3 + 5 + 7) 7 5 _ = _
  rw [hi _ _ (by decide), lo _ _ (by decide)]; exact BitVec.extractLsb'_eq_self

@[simp] theorem xr_fRs1 (f7 : BitVec 7) (rs2 : BitVec 5) (rs1 : BitVec 5) (f3 : BitVec 3) (rd : BitVec 5) (op : BitVec 7) :
    fRs1 (f7 ++ rs2 ++ rs1 ++ f3 ++ rd ++ op) = rs1 := by
  show BitVec.extractLsb' (n := 7 + 5 + 5 + 3 + 5 + 7) 15 5 _ = _
  rw [hi _ _ (by decide), hi _ _ (by decide), hi _ _ (by decide), lo _ _ (by decide)]; exact BitVec.extractLsb'_eq_self

@[simp] theorem xr_fRs2 (f7 : BitVec 7) (rs2 : BitVec 5) (rs1 : BitVec 5) (f3 : BitVec 3) (rd : BitVec 5) (op : BitVec 7) :
    fRs2 (f7 ++ rs2 ++ rs1 ++ f3 ++ rd ++ op) = rs2 := by
  show BitVec.extractLsb' (n := 7 + 5 + 5 + 3 + 5 + 7) 20 5 _ = _
  rw [hi _ _ (by decide), hi _ _ (by decide), hi _ _ (by decide), hi _ _ (by decide), lo _ _ (by decide)]; exact BitVec.extractLsb'_eq_self

@[simp] theorem xr_fF3 (f7 : BitVec 7) (rs2 : BitVec 5) (rs1 : BitVec 5) (f3 : BitVec 3) (rd : BitVec 5) (op : BitVec 7) :
    fF3 (f7 ++ rs2 ++ rs1 ++ f3 ++ rd ++ op) = f3.toNat := by
  show (BitVec.extractLsb' (n := 7 + 5 + 5 + 3 + 5 + 7) 12 3 _).toNat = _
  rw [hi _ _ (by decide), hi _ _ (by decide), lo _ _ (by decide)]; rw [BitVec.extractLsb'_eq_self]

@[simp] theorem xr_fF7 (f7 : BitVec 7) (rs2 : BitVec 5) (rs1 : BitVec 5) (f3 : BitVec 3) (rd : BitVec 5) (op : BitVec 7) :
    fF7 (f7 ++ rs2 ++ rs1 ++ f3 ++ rd ++ op) = f7.toNat := by
  show (BitVec.extractLsb' (n := 7 + 5 + 5 + 3 + 5 + 7) 25 7 _).toNat = _
  rw [hi _ _ (by decide), hi _ _ (by decide), hi _ _ (by decide), hi _ _ (by decide), hi _ _ (by decide)]; rw [BitVec.extractLsb'_eq_self]

@[simp] theorem xr_0_7 (f7 : BitVec 7) (rs2 : BitVec 5) (rs1 : BitVec 5) (f3 : BitVec 3) (rd : BitVec 5) (op : BitVec 7) :
    BitVec.extractLsb' (n := 32) 0 7 (f7 ++ rs2 ++ rs1 ++ f3 ++ rd ++ op) = op := by
  show BitVec.extractLsb' (n := 7 + 5 + 5 + 3 + 5 + 7) 0 7 _ = _
  rw [lo _ _ (by decide)]; exact BitVec.extractLsb'_eq_self

@[simp] theorem xr_0_2 (f7 : BitVec 7) (rs2 : BitVec 5) (rs1 : BitVec 5) (f3 : BitVec 3) (rd : BitVec 5) (op : BitVec 7) :
    BitVec.extractLsb' (n := 32) 0 2 (f7 ++ rs2 ++ rs1 ++ f3 ++ rd ++ op) = op.extractLsb' 0 2 := by
  show BitVec.extractLsb' (n := 7 + 5 + 5 + 3 + 5 + 7) 0 2 _ = _
  rw [lo _ _ (by decide)]

@[simp] theorem xr_7_5 (f7 : BitVec 7) (rs2 : BitVec 5) (rs1 : BitVec 5) (f3 : BitVec 3) (rd : BitVec 5) (op : BitVec 7) :
    BitVec.extractLsb' (n := 32) 7 5 (f7 ++ rs2 ++ rs1 ++ f3 ++ rd ++ op) = rd := by
  show BitVec.extractLsb' (n := 7 + 5 + 5 + 3 + 5 + 7) 7 5 _ = _
  rw [hi _ _ (by decide), lo _ _ (by decide)]; exact BitVec.extractLsb'_eq_self

@[simp] theorem xr_25_7 (f7 : BitVec 7) (rs2 : BitVec 5) (rs1 : BitVec 5) (f3 : BitVec 3) (rd : BitVec 5) (op : BitVec 7) :
    BitVec.extractLsb' (n := 32) 25 7 (f7 ++ rs2 ++ rs1 ++ f3 ++ rd ++ op) = f7 := by
  show BitVec.extractLsb' (n := 7 + 5 + 5 + 3 + 5 + 7) 25 7 _ = _
  rw [hi _ _ (by decide), hi _ _ (by decide), hi _ _ (by decide), hi _ _ (by decide), hi _ _ (by decide)]; exact BitVec.extractLsb'_eq_self

@[simp] theorem xr_25_2 (f7 : BitVec 7) (rs2 : BitVec 5) (rs1 : BitVec 5) (f3 : BitVec 3) (rd : BitVec 5) (op : BitVec 7) :
    BitVec.extractLsb' (n := 32) 25 2 (f7 ++ rs2 ++ rs1 ++ f3 ++ rd ++ op) = f7.extractLsb' 0 2 := by
  show BitVec.extractLsb' (n := 7 + 5 + 5 + 3 + 5 + 7) 25 2 _ = _
  rw [hi _ _ (by decide), hi _ _ (by decide), hi _ _ (by decide), hi _ _ (by decide), hi _ _ (by decide)]

@[simp] theorem xr_25_3 (f7 : BitVec 7) (rs2 : BitVec 5) (rs1 : BitVec 5) (f3 : BitVec 3) (rd : BitVec 5) (op : BitVec 7) :
    BitVec.extractLsb' (n := 32) 25 3 (f7 ++ rs2 ++ rs1 ++ f3 ++ rd ++ op) = f7.extractLsb' 0 3 := by
  show BitVec.extractLsb' (n := 7 + 5 + 5 + 3 + 5 + 7) 25 3 _ = _
  rw [hi _ _ (by decide), hi _ _ (by decide), hi _ _ (by decide), hi _ _ (by decide), hi _ _ (by decide)]

@[simp] theorem xr_27_2 (f7 : BitVec 7) (rs2 : BitVec 5) (rs1 : BitVec 5) (f3 : BitVec 3) (rd : BitVec 5) (op : BitVec 7) :
    BitVec.extractLsb' (n := 32) 27 2 (f7 ++ rs2 ++ rs1 ++ f3 ++ rd ++ op) = f7.extractLsb' 2 2 := by
  show BitVec.extractLsb' (n := 7 + 5 + 5 + 3 + 5 + 7) 27 2 _ = _
  rw [hi _ _ (by decide), hi _ _ (by decide), hi _ _ (by decide), hi _ _ (by decide), hi _ _ (by decide)]

@[simp] theorem xr_27_5 (f7 : BitVec 7) (rs2 : BitVec 5) (rs1 : BitVec 5) (f3 : BitVec 3) (rd : BitVec 5) (op : BitVec 7) :
    BitVec.extractLsb' (n := 32) 27 5 (f7 ++ rs2 ++ rs1 ++ f3 ++ rd ++ op) = f7.extractLsb' 2 5 := by
  show BitVec.extractLsb' (n := 7 + 5 + 5 + 3 + 5 + 7) 27 5 _ = _
  rw [hi _ _ (by decide), hi _ _ (by decide), hi _ _ (by decide), hi _ _ (by decide), hi _ _ (by decide)]

@[simp] theorem xr_28_4 (f7 : BitVec 7) (rs2 : BitVec 5) (rs1 : BitVec 5) (f3 : BitVec 3) (rd : BitVec 5) (op : BitVec 7) :
    BitVec.extractLsb' (n := 32) 28 4 (f7 ++ rs2 ++ rs1 ++ f3 ++ rd ++ op) = f7.extractLsb' 3 4 := by
  show BitVec.extractLsb' (n := 7 + 5 + 5 + 3 + 5 + 7) 28 4 _ = _
  rw [hi _ _ (by decide), hi _ _ (by decide), hi _ _ (by decide), hi _ _ (by decide), hi _ _ (by decide)]

@[simp] theorem xr_29_2 (f7 : BitVec 7) (rs2 : BitVec 5) (rs1 : BitVec 5) (f3 : BitVec 3) (rd : BitVec 5) (op : BitVec 7) :
    BitVec.extractLsb' (n := 32) 29 2 (f7 ++ rs2 ++ rs1 ++ f3 ++ rd ++ op) = f7.extractLsb' 4 2 := by
  show BitVec.extractLsb' (n := 7 + 5 + 5 + 3 + 5 + 7) 29 2 _ = _
  rw [hi _ _ (by decide), hi _ _ (by decide), hi _ _ (by decide), hi _ _ (by decide), hi _ _ (by decide)]

@[simp] theorem xr_12_3 (f7 : BitVec 7) (rs2 : BitVec 5) (rs1 : BitVec 5) (f3 : BitVec 3) (rd : BitVec 5) (op : BitVec 7) :
    BitVec.extractLsb' (n := 32) 12 3 (f7 ++ rs2 ++ rs1 ++ f3 ++ rd ++ op) = f3 := by
  show BitVec.extractLsb' (n := 7 + 5 + 5 + 3 + 5 + 7) 12 3 _ = _
  rw [hi _ _ (by decide), hi _ _ (by decide), lo _ _ (by decide)]; exact BitVec.extractLsb'_eq_self

@[simp] theorem xr_bit25 (f7 : BitVec 7) (rs2 : BitVec 5) (rs1 : BitVec 5) (f3 : BitVec 3) (rd : BitVec 5) (op : BitVec 7) :
    BitVec.getLsbD (w := 32) (f7 ++ rs2 ++ rs1 ++ f3 ++ rd ++ op) 25 = f7.getLsbD 0 := by
  show BitVec.getLsbD (w := 7 + 5 + 5 + 3 + 5 + 7) _ 25 = _
  simp only [BitVec.getLsbD_append]; rfl
@[simp] theorem xr_bit25e (f7 : BitVec 7) (rs2 : BitVec 5) (rs1 : BitVec 5) (f3 : BitVec 3) (rd : BitVec 5) (op : BitVec 7) :
    GetElem.getElem (coll := BitVec 32) (f7 ++ rs2 ++ rs1 ++ f3 ++ rd ++ op) 25 (by decide) = f7.getLsbD 0 := by
  rw [← BitVec.getLsbD_eq_getElem]; exact xr_bit25 f7 rs2 rs1 f3 rd op

@[simp] theorem xr_bit26 (f7 : BitVec 7) (rs2 : BitVec 5) (rs1 : BitVec 5) (f3 : BitVec 3) (rd : BitVec 5) (op : BitVec 7) :
    BitVec.getLsbD (w := 32) (f7 ++ rs2 ++ rs1 ++ f3 ++ rd ++ op) 26 = f7.getLsbD 1 := by
  show BitVec.getLsbD (w := 7 + 5 + 5 + 3 + 5 + 7) _ 26 = _
  simp only [BitVec.getLsbD_append]; rfl
@[simp] theorem xr_bit26e (f7 : BitVec 7) (rs2 : BitVec 5) (rs1 : BitVec 5) (f3 : BitVec 3) (rd : BitVec 5) (op : BitVec 7) :
    GetElem.getElem (coll := BitVec 32) (f7 ++ rs2 ++ rs1 ++ f3 ++ rd ++ op) 26 (by decide) = f7.getLsbD 1 := by
  rw [← BitVec.getLsbD_eq_getElem]; exact xr_bit26 f7 rs2 rs1 f3 rd op

@[simp] theorem xr_bit27 (f7 : BitVec 7) (rs2 : BitVec 5) (rs1 : BitVec 5) (f3 : BitVec 3) (rd : BitVec 5) (op : BitVec 7) :
    BitVec.getLsbD (w := 32) (f7 ++ rs2 ++ rs1 ++ f3 ++ rd ++ op) 27 = f7.getLsbD 2 := by
  show BitVec.getLsbD (w := 7 + 5 + 5 + 3 + 5 + 7) _ 27 = _
  simp only [BitVec.getLsbD_append]; rfl
@[simp] theorem xr_bit27e (f7 : BitVec 7) (rs2 : BitVec 5) (rs1 : BitVec 5) (f3 : BitVec 3) (rd : BitVec 5) (op : BitVec 7) :
    GetElem.getElem (coll := BitVec 32) (f7 ++ rs2 ++ rs1 ++ f3 ++ rd ++ op) 27 (by decide) = f7.getLsbD 2 := by
  rw [← BitVec.getLsbD_eq_getElem]; exact xr_bit27 f7 rs2 rs1 f3 rd op

@[simp] theorem xr_bit31 (f7 : BitVec 7) (rs2 : BitVec 5) (rs1 : BitVec 5) (f3 : BitVec 3) (rd : BitVec 5) (op : BitVec 7) :
    BitVec.getLsbD (w := 32) (f7 ++ rs2 ++ rs1 ++ f3 ++ rd ++ op) 31 = f7.getLsbD 6 := by
  show BitVec.getLsbD (w := 7 + 5 + 5 + 3 + 5 + 7) _ 31 = _
  simp only [BitVec.getLsbD_append]; rfl
@[simp] theorem xr_bit31e (f7 : BitVec 7) (rs2 : BitVec 5) (rs1 : BitVec 5) (f3 : BitVec 3) (rd : BitVec 5) (op : BitVec 7) :
    GetElem.getElem (coll := BitVec 32) (f7 ++ rs2 ++ rs1 ++ f3 ++ rd ++ op) 31 (by decide) = f7.getLsbD 6 := by
  rw [← BitVec.getLsbD_eq_getElem]; exact xr_bit31 f7 rs2 rs1 f3 rd op

@[simp] theorem xi_fRd (imm : BitVec 12) (rs1 : BitVec 5) (f3 : BitVec 3) (rd : BitVec 5) (op : BitVec 7) :
    fRd (imm ++ rs1 ++ f3 ++ rd ++ op) = rd := by
  show BitVec.extractLsb' (n := 12 + 5 + 3 + 5 + 7) 7 5 _ = _
  rw [hi _ _ (by decide), lo _ _ (by decide)]; exact BitVec.extractLsb'_eq_self

@[simp] theorem xi_fRs1 (imm : BitVec 12) (rs1 : BitVec 5) (f3 : BitVec 3) (rd : BitVec 5) (op : BitVec 7) :
    fRs1 (imm ++ rs1 ++ f3 ++ rd ++ op) = rs1 := by
  show BitVec.extractLsb' (n := 12 + 5 + 3 + 5 + 7) 15 5 _ = _
  rw [hi _ _ (by decide), hi _ _ (by decide), hi _ _ (by decide), lo _ _ (by decide)]; exact BitVec.extractLsb'_eq_self

@[simp] theorem xi_fRs2 (imm : BitVec 12) (rs1 : BitVec 5) (f3 : BitVec 3) (rd : BitVec 5) (op : BitVec 7) :
    fRs2 (imm ++ rs1 ++ f3 ++ rd ++ op) = imm.extractLsb' 0 5 := by
  show BitVec.extractLsb' (n := 12 + 5 + 3 + 5 + 7) 20 5 _ = _
  rw [hi _ _ (by decide), hi _ _ (by decide), hi _ _ (by decide), hi _ _ (by decide)]

@[simp] theorem xi_fF3 (imm : BitVec 12) (rs1 : BitVec 5) (f3 : BitVec 3) (rd : BitVec 5) (op : BitVec 7) :
    fF3 (imm ++ rs1 ++ f3 ++ rd ++ op) = f3.toNat := by
  show (BitVec.extractLsb' (n := 12 + 5 + 3 + 5 + 7) 12 3 _).toNat = _
  rw [hi _ _ (by decide), hi _ _ (by decide), lo _ _ (by decide)]; rw [BitVec.extractLsb'_eq_self]

@[simp] theorem xi_fF7 (imm : BitVec 12) (rs1 : BitVec 5) (f3 : BitVec 3) (rd : BitVec 5) (op : BitVec 7) :
    fF7 (imm ++ rs1 ++ f3 ++ rd ++ op) = (imm.extractLsb' 5 7).toNat := by
  show (BitVec.extractLsb' (n := 12 + 5 + 3 + 5 + 7) 25 7 _).toNat = _
  rw [hi _ _ (by decide), hi _ _ (by decide), hi _ _ (by decide), hi _ _ (by decide)]

@[simp] theorem xi_fImmI (imm : BitVec 12) (rs1 : BitVec 5) (f3 : BitVec 3) (rd : BitVec 5) (op : BitVec 7) :
    fImmI (imm ++ rs1 ++ f3 ++ rd ++ op) = imm := by
  show BitVec.extractLsb' (n := 12 + 5 + 3 + 5 + 7) 20 12 _ = _
  rw [hi _ _ (by decide), hi _ _ (by decide), hi _ _ (by decide), hi _ _ (by decide)]; exact BitVec.extractLsb'_eq_self

@[simp] theorem xi_0_7 (imm : BitVec 12) (rs1 : BitVec 5) (f3 : BitVec 3) (rd : BitVec 5) (op : BitVec 7) :
    BitVec.extractLsb' (n := 32) 0 7 (imm ++ rs1 ++ f3 ++ rd ++ op) = op := by
  show BitVec.extractLsb' (n := 12 + 5 + 3 + 5 + 7) 0 7 _ = _
  rw [lo _ _ (by decide)]; exact BitVec.extractLsb'_eq_self

@[simp] theorem xi_0_2 (imm : BitVec 12) (rs1 : BitVec 5) (f3 : BitVec 3) (rd : BitVec 5) (op : BitVec 7) :
    BitVec.extractLsb' (n := 32) 0 2 (imm ++ rs1 ++ f3 ++ rd ++ op) = op.extractLsb' 0 2 := by
  show BitVec.extractLsb' (n := 12 + 5 + 3 + 5 + 7) 0 2 _ = _
  rw [lo _ _ (by decide)]

@[simp] theorem xi_25_7 (imm : BitVec 12) (rs1 : BitVec 5) (f3 : BitVec 3) (rd : BitVec 5) (op : BitVec 7) :
    BitVec.extractLsb' (n := 32) 25 7 (imm ++ rs1 ++ f3 ++ rd ++ op) = imm.extractLsb' 5 7 := by
  show BitVec.extractLsb' (n := 12 + 5 + 3 + 5 + 7) 25 7 _ = _
  rw [hi _ _ (by decide), hi _ _ (by decide), hi _ _ (by decide), hi _ _ (by decide)]

@[simp] theorem xi_28_4 (imm : BitVec 12) (rs1 : BitVec 5) (f3 : BitVec 3) (rd : BitVec 5) (op : BitVec 7) :
    BitVec.extractLsb' (n := 32) 28 4 (imm ++ rs1 ++ f3 ++ rd ++ op) = imm.extractLsb' 8 4 := by
  show BitVec.extractLsb' (n := 12 + 5 + 3 + 5 + 7) 28 4 _ = _
  rw [hi _ _ (by decide), hi _ _ (by decide), hi _ _ (by decide), hi _ _ (by decide)]

@[simp] theorem xi_24_4 (imm : BitVec 12) (rs1 : BitVec 5) (f3 : BitVec 3) (rd : BitVec 5) (op : BitVec 7) :
    BitVec.extractLsb' (n := 32) 24 4 (imm ++ rs1 ++ f3 ++ rd ++ op) = imm.extractLsb' 4 4 := by
  show BitVec.extractLsb' (n := 12 + 5 + 3 + 5 + 7) 24 4 _ = _
  rw [hi _ _ (by decide), hi _ _ (by decide), hi _ _ (by decide), hi _ _ (by decide)]

@[simp] theorem xi_20_4 (imm : BitVec 12) (rs1 : BitVec 5) (f3 : BitVec 3) (rd : BitVec 5) (op : BitVec 7) :
    BitVec.extractLsb' (n := 32) 20 4 (imm ++ rs1 ++ f3 ++ rd ++ op) = imm.extractLsb' 0 4 := by
  show BitVec.extractLsb' (n := 12 + 5 + 3 + 5 + 7) 20 4 _ = _
  rw [hi _ _ (by decide), hi _ _ (by decide), hi _ _ (by decide), hi _ _ (by decide)]

@[simp] theorem xi_23_9 (imm : BitVec 12) (rs1 : BitVec 5) (f3 : BitVec 3) (rd : BitVec 5) (op : BitVec 7) :
    BitVec.extractLsb' (n := 32) 23 9 (imm ++ rs1 ++ f3 ++ rd ++ op) = imm.extractLsb' 3 9 := by
  show BitVec.extractLsb' (n := 12 + 5 + 3 + 5 + 7) 23 9 _ = _
  rw [hi _ _ (by decide), hi _ _ (by decide), hi _ _ (by decide), hi _ _ (by decide)]

@[simp] theorem xi_20_3 (imm : BitVec 12) (rs1 : BitVec 5) (f3 : BitVec 3) (rd : BitVec 5) (op : BitVec 7) :
    BitVec.extractLsb' (n := 32) 20 3 (imm ++ rs1 ++ f3 ++ rd ++ op) = imm.extractLsb' 0 3 := by
  show BitVec.extractLsb' (n := 12 + 5 + 3 + 5 + 7) 20 3 _ = _
  rw [hi _ _ (by decide), hi _ _ (by decide), hi _ _ (by decide), hi _ _ (by decide)]

@[simp] theorem xi_27_5 (imm : BitVec 12) (rs1 : BitVec 5) (f3 : BitVec 3) (rd : BitVec 5) (op : BitVec 7) :
    BitVec.extractLsb' (n := 32) 27 5 (imm ++ rs1 ++ f3 ++ rd ++ op) = imm.extractLsb' 7 5 := by
  show BitVec.extractLsb' (n := 12 + 5 + 3 + 5 + 7) 27 5 _ = _
  rw [hi _ _ (by decide), hi _ _ (by decide), hi _ _ (by decide), hi _ _ (by decide)]

@[simp] theorem xi_23_2 (imm : BitVec 12) (rs1 : BitVec 5) (f3 : BitVec 3) (rd : BitVec 5) (op : BitVec 7) :
    BitVec.extractLsb' (n := 32) 23 2 (imm ++ rs1 ++ f3 ++ rd ++ op) = imm.extractLsb' 3 2 := by
  show BitVec.extractLsb' (n := 12 + 5 + 3 + 5 + 7) 23 2 _ = _
  rw [hi _ _ (by decide), hi _ _ (by decide), hi _ _ (by decide), hi _ _ (by decide)]

@[simp] theorem xi_20_2 (imm : BitVec 12) (rs1 : BitVec 5) (f3 : BitVec 3) (rd : BitVec 5) (op : BitVec 7) :
    BitVec.extractLsb' (n := 32) 20 2 (imm ++ rs1 ++ f3 ++ rd ++ op) = imm.extractLsb' 0 2 := by
  show BitVec.extractLsb' (n := 12 + 5 + 3 + 5 + 7) 20 2 _ = _
  rw [hi _ _ (by decide), hi _ _ (by decide), hi _ _ (by decide), hi _ _ (by decide)]

@[simp] theorem xi_23_4 (imm : BitVec 12) (rs1 : BitVec 5) (f3 : BitVec 3) (rd : BitVec 5) (op : BitVec 7) :
    BitVec.extractLsb' (n := 32) 23 4 (imm ++ rs1 ++ f3 ++ rd ++ op) = imm.extractLsb' 3 4 := by
  show BitVec.extractLsb' (n := 12 + 5 + 3 + 5 + 7) 23 4 _ = _
  rw [hi _ _ (by decide), hi _ _ (by decide), hi _ _ (by decide), hi _ _ (by decide)]

@[simp] theorem xi_12_3 (imm : BitVec 12) (rs1 : BitVec 5) (f3 : BitVec 3) (rd : BitVec 5) (op : BitVec 7) :
    BitVec.extractLsb' (n := 32) 12 3 (imm ++ rs1 ++ f3 ++ rd ++ op) = f3 := by
  show BitVec.extractLsb' (n := 12 + 5 + 3 + 5 + 7) 12 3 _ = _
  rw [hi _ _ (by decide), hi _ _ (by decide), lo _ _ (by decide)]; exact BitVec.extractLsb'_eq_self

@[simp] theorem xi_bit22 (imm : BitVec 12) (rs1 : BitVec 5) (f3 : BitVec 3) (rd : BitVec 5) (op : BitVec 7) :
    BitVec.getLsbD (w := 32) (imm ++ rs1 ++ f3 ++ rd ++ op) 22 = imm.getLsbD 2 := by
  show BitVec.getLsbD (w := 12 + 5 + 3 + 5 + 7) _ 22 = _
  simp only [BitVec.getLsbD_append]; rfl
@[simp] theorem xi_bit22e (imm : BitVec 12) (rs1 : BitVec 5) (f3 : BitVec 3) (rd : BitVec 5) (op : BitVec 7) :
    GetElem.getElem (coll := BitVec 32) (imm ++ rs1 ++ f3 ++ rd ++ op) 22 (by decide) = imm.getLsbD 2 := by
  rw [← BitVec.getLsbD_eq_getElem]; exact xi_bit22 imm rs1 f3 rd op

@[simp] theorem xb_fRs1 (x : BitVec 1) (y : BitVec 6) (rs2 : BitVec 5) (rs1 : BitVec 5) (f3 : BitVec 3) (z : BitVec 4) (u : BitVec 1) (op : BitVec 7) :
    fRs1 (x ++ y ++ rs2 ++ rs1 ++ f3 ++ z ++ u ++ op) = rs1 := by
  show BitVec.extractLsb' (n := 1 + 6 + 5 + 5 + 3 + 4 + 1 + 7) 15 5 _ = _
  rw [hi _ _ (by decide), hi _ _ (by decide), hi _ _ (by decide), hi _ _ (by decide), lo _ _ (by decide)]; exact BitVec.extractLsb'_eq_self

@[simp] theorem xb_fRs2 (x : BitVec 1) (y : BitVec 6) (rs2 : BitVec 5) (rs1 : BitVec 5) (f3 : BitVec 3) (z : BitVec 4) (u : BitVec 1) (op : BitVec 7) :
    fRs2 (x ++ y ++ rs2 ++ rs1 ++ f3 ++ z ++ u ++ op) = rs2 := by
  show BitVec.extractLsb' (n := 1 + 6 + 5 + 5 + 3 + 4 + 1 + 7) 20 5 _ = _
  rw [hi _ _ (by decide), hi _ _ (by decide), hi _ _ (by decide), hi _ _ (by decide), hi _ _ (by decide), lo _ _ (by decide)]; exact BitVec.extractLsb'_eq_self

@[simp] theorem xb_fF3 (x : BitVec 1) (y : BitVec 6) (rs2 : BitVec 5) (rs1 : BitVec 5) (f3 : BitVec 3) (z : BitVec 4) (u : BitVec 1) (op : BitVec 7) :
    fF3 (x ++ y ++ rs2 ++ rs1 ++ f3 ++ z ++ u ++ op) = f3.toNat := by
  show (BitVec.extractLsb' (n := 1 + 6 + 5 + 5 + 3 + 4 + 1 + 7) 12 3 _).toNat = _
  rw [hi _ _ (by decide), hi _ _ (by decide), hi _ _ (by decide), lo _ _ (by decide)]; rw [BitVec.extractLsb'_eq_self]

@[simp] theorem xb_0_7 (x : BitVec 1) (y : BitVec 6) (rs2 : BitVec 5) (rs1 : BitVec 5) (f3 : BitVec 3) (z : BitVec 4) (u : BitVec 1) (op : BitVec 7) :
    BitVec.extractLsb' (n := 32) 0 7 (x ++ y ++ rs2 ++ rs1 ++ f3 ++ z ++ u ++ op) = op := by
  show BitVec.extractLsb' (n := 1 + 6 + 5 + 5 + 3 + 4 + 1 + 7) 0 7 _ = _
  rw [lo _ _ (by decide)]; exact BitVec.extractLsb'_eq_self

@[simp] theorem xb_0_2 (x : BitVec 1) (y : BitVec 6) (rs2 : BitVec 5) (rs1 : BitVec 5) (f3 : BitVec 3) (z : BitVec 4) (u : BitVec 1) (op : BitVec 7) :
    BitVec.extractLsb' (n := 32) 0 2 (x ++ y ++ rs2 ++ rs1 ++ f3 ++ z ++ u ++ op) = op.extractLsb' 0 2 := by
  show BitVec.extractLsb' (n := 1 + 6 + 5 + 5 + 3 + 4 + 1 + 7) 0 2 _ = _
  rw [lo _ _ (by decide)]

@[simp] theorem xb_31_1 (x : BitVec 1) (y : BitVec 6) (rs2 : BitVec 5) (rs1 : BitVec 5) (f3 : BitVec 3) (z : BitVec 4) (u : BitVec 1) (op : BitVec 7) :
    BitVec.extractLsb' (n := 32) 31 1 (x ++ y ++ rs2 ++ rs1 ++ f3 ++ z ++ u ++ op) = x := by
  show BitVec.extractLsb' (n := 1 + 6 + 5 + 5 + 3 + 4 + 1 + 7) 31 1 _ = _
  rw [hi _ _ (by decide), hi _ _ (by decide), hi _ _ (by decide), hi _ _ (by decide), hi _ _ (by decide), hi _ _ (by decide), hi _ _ (by decide)]; exact BitVec.extractLsb'_eq_self

@[simp] theorem xb_7_1 (x : BitVec 1) (y : BitVec 6) (rs2 : BitVec 5) (rs1 : BitVec 5) (f3 : BitVec 3) (z : BitVec 4) (u : BitVec 1) (op : BitVec 7) :
    BitVec.extractLsb' (n := 32) 7 1 (x ++ y ++ rs2 ++ rs1 ++ f3 ++ z ++ u ++ op) = u := by
  show BitVec.extractLsb' (n := 1 + 6 + 5 + 5 + 3 + 4 + 1 + 7) 7 1 _ = _
  rw [hi _ _ (by decide), lo _ _ (by decide)]; exact BitVec.extractLsb'_eq_self

@[simp] theorem xb_25_6 (x : BitVec 1) (y : BitVec 6) (rs2 : BitVec 5) (rs1 : BitVec 5) (f3 : BitVec 3) (z : BitVec 4) (u : BitVec 1) (op : BitVec 7) :
    BitVec.extractLsb' (n := 32) 25 6 (x ++ y ++ rs2 ++ rs1 ++ f3 ++ z ++ u ++ op) = y := by
  show BitVec.extractLsb' (n := 1 + 6 + 5 + 5 + 3 + 4 + 1 + 7) 25 6 _ = _
  rw [hi _ _ (by decide), hi _ _ (by decide), hi _ _ (by decide), hi _ _ (by decide), hi _ _ (by decide), hi _ _ (by decide), lo _ _ (by decide)]; exact BitVec.extractLsb'_eq_self

@[simp] theorem xb_8_4 (x : BitVec 1) (y : BitVec 6) (rs2 : BitVec 5) (rs1 : BitVec 5) (f3 : BitVec 3) (z : BitVec 4) (u : BitVec 1) (op : BitVec 7) :
    BitVec.extractLsb' (n := 32) 8 4 (x ++ y ++ rs2 ++ rs1 ++ f3 ++ z ++ u ++ op) = z := by
  show BitVec.extractLsb' (n := 1 + 6 + 5 + 5 + 3 + 4 + 1 + 7) 8 4 _ = _
  rw [hi _ _ (by decide), hi _ _ (by decide), lo _ _ (by decide)]; exact BitVec.extractLsb'_eq_self

@[simp] theorem xj_fRd (x : BitVec 1) (y : BitVec 10) (z : BitVec 1) (u : BitVec 8) (rd : BitVec 5) (op : BitVec 7) :
    fRd (x ++ y ++ z ++ u ++ rd ++ op) = rd := by
  show BitVec.extractLsb' (n := 1 + 10 + 1 + 8 + 5 + 7) 7 5 _ = _
  rw [hi _ _ (by decide), lo _ _ (by decide)]; exact BitVec.extractLsb'_eq_self

@[simp] theorem xj_0_7 (x : BitVec 1) (y : BitVec 10) (z : BitVec 1) (u : BitVec 8) (rd : BitVec 5) (op : BitVec 7) :
    BitVec.extractLsb' (n := 32) 0 7 (x ++ y ++ z ++ u ++ rd ++ op) = op := by
  show BitVec.extractLsb' (n := 1 + 10 + 1 + 8 + 5 + 7) 0 7 _ = _
  rw [lo _ _ (by decide)]; exact BitVec.extractLsb'_eq_self

@[simp] theorem xj_0_2 (x : BitVec 1) (y : BitVec 10) (z : BitVec 1) (u : BitVec 8) (rd : BitVec 5) (op : BitVec 7) :
    BitVec.extractLsb' (n := 32) 0 2 (x ++ y ++ z ++ u ++ rd ++ op) = op.extractLsb' 0 2 := by
  show BitVec.extractLsb' (n := 1 + 10 + 1 + 8 + 5 + 7) 0 2 _ = _
  rw [lo _ _ (by decide)]

@[simp] theorem xj_31_1 (x : BitVec 1) (y : BitVec 10) (z : BitVec 1) (u : BitVec 8) (rd : BitVec 5) (op : BitVec 7) :
    BitVec.extractLsb' (n := 32) 31 1 (x ++ y ++ z ++ u ++ rd ++ op) = x := by
  show BitVec.extractLsb' (n := 1 + 10 + 1 + 8 + 5 + 7) 31 1 _ = _
  rw [hi _ _ (by decide), hi _ _ (by decide), hi _ _ (by decide), hi _ _ (by decide), hi _ _ (by decide)]; exact BitVec.extractLsb'_eq_self

@[simp] theorem xj_12_8 (x : BitVec 1) (y : BitVec 10) (z : BitVec 1) (u : BitVec 8) (rd : BitVec 5) (op : BitVec 7) :
    BitVec.extractLsb' (n := 32) 12 8 (x ++ y ++ z ++ u ++ rd ++ op) = u := by
  show BitVec.extractLsb' (n := 1 + 10 + 1 + 8 + 5 + 7) 12 8 _ = _
  rw [hi _ _ (by decide), hi _ _ (by decide), lo _ _ (by decide)]; exact BitVec.extractLsb'_eq_self

@[simp] theorem xj_20_1 (x : BitVec 1) (y : BitVec 10) (z : BitVec 1) (u : BitVec 8) (rd : BitVec 5) (op : BitVec 7) :
    BitVec.extractLsb' (n := 32) 20 1 (x ++ y ++ z ++ u ++ rd ++ op) = z := by
  show BitVec.extractLsb' (n := 1 + 10 + 1 + 8 + 5 + 7) 20 1 _ = _
  rw [hi _ _ (by decide), hi _ _ (by decide), hi _ _ (by decide), lo _ _ (by decide)]; exact BitVec.extractLsb'_eq_self

@[simp] theorem xj_21_10 (x : BitVec 1) (y : BitVec 10) (z : BitVec 1) (u : BitVec 8) (rd : BitVec 5) (op : BitVec 7) :
    BitVec.extractLsb' (n := 32) 21 10 (x ++ y ++ z ++ u ++ rd ++ op) = y := by
  show BitVec.extractLsb' (n := 1 + 10 + 1 + 8 + 5 + 7) 21 10 _ = _
  rw [hi _ _ (by decide), hi _ _ (by decide), hi _ _ (by decide), hi _ _ (by decide), lo _ _ (by decide)]; exact BitVec.extractLsb'_eq_self

@[simp] theorem xu_fRd (imm : BitVec 20) (rd : BitVec 5) (op : BitVec 7) :
    fRd (imm ++ rd ++ op) = rd := by
  show BitVec.extractLsb' (n := 20 + 5 + 7) 7 5 _ = _
  rw [hi _ _ (by decide), lo _ _ (by decide)]; exact BitVec.extractLsb'_eq_self

@[simp] theorem xu_0_7 (imm : BitVec 20) (rd : BitVec 5) (op : BitVec 7) :
    BitVec.extractLsb' (n := 32) 0 7 (imm ++ rd ++ op) = op := by
  show BitVec.extractLsb' (n := 20 + 5 + 7) 0 7 _ = _
  rw [lo _ _ (by decide)]; exact BitVec.extractLsb'_eq_self

@[simp] theorem xu_0_2 (imm : BitVec 20) (rd : BitVec 5) (op : BitVec 7) :
    BitVec.extractLsb' (n := 32) 0 2 (imm ++ rd ++ op) = op.extractLsb' 0 2 := by
  show BitVec.extractLsb' (n := 20 + 5 + 7) 0 2 _ = _
  rw [lo _ _ (by decide)]

@[simp] theorem xu_12_20 (imm : BitVec 20) (rd : BitVec 5) (op : BitVec 7) :
    BitVec.extractLsb' (n := 32) 12 20 (imm ++ rd ++ op) = imm := by
  show BitVec.extractLsb' (n := 20 + 5 + 7) 12 20 _ = _
  rw [hi _ _ (by decide), hi _ _ (by decide)]; exact BitVec.extractLsb'_eq_self

@[simp] theorem ldq_0_2 (x : BitVec 1) (y : BitVec 4) (z : BitVec 2) :
    BitVec.extractLsb' (n := 7) 0 2 (x ++ y ++ z) = z := by
  show BitVec.extractLsb' (n := 1 + 4 + 2) 0 2 _ = _
  rw [lo _ _ (by decide)]; exact BitVec.extractLsb'_eq_self

@[simp] theorem ldq_2_2 (x : BitVec 1) (y : BitVec 4) (z : BitVec 2) :
    BitVec.extractLsb' (n := 7) 2 2 (x ++ y ++ z) = y.extractLsb' 0 2 := by
  show BitVec.extractLsb' (n := 1 + 4 + 2) 2 2 _ = _
  rw [hi _ _ (by decide), lo _ _ (by decide)]

@[simp] theorem ldq_4_2 (x : BitVec 1) (y : BitVec 4) (z : BitVec 2) :
    BitVec.extractLsb' (n := 7) 4 2 (x ++ y ++ z) = y.extractLsb' 2 2 := by
  show BitVec.extractLsb' (n := 1 + 4 + 2) 4 2 _ = _
  rw [hi _ _ (by decide), lo _ _ (by decide)]

@[simp] theorem own_11_4 (x : BitVec 17) (y : BitVec 4) (z : BitVec 10) (u : BitVec 1) :
    BitVec.extractLsb' (n := 32) 11 4 (x ++ y ++ z ++ u) = y := by
  show BitVec.extractLsb' (n := 17 + 4 + 10 + 1) 11 4 _ = _
  rw [hi _ _ (by decide), hi _ _ (by decide), lo _ _ (by decide)]; exact BitVec.extractLsb'_eq_self

@[simp] theorem own_15_17 (x : BitVec 17) (y : BitVec 4) (z : BitVec 10) (u : BitVec 1) :
    BitVec.extractLsb' (n := 32) 15 17 (x ++ y ++ z ++ u) = x := by
  show BitVec.extractLsb' (n := 17 + 4 + 10 + 1) 15 17 _ = _
  rw [hi _ _ (by decide), hi _ _ (by decide), hi _ _ (by decide)]; exact BitVec.extractLsb'_eq_self

@[simp] theorem own_1_10 (x : BitVec 17) (y : BitVec 4) (z : BitVec 10) (u : BitVec 1) :
    BitVec.extractLsb' (n := 32) 1 10 (x ++ y ++ z ++ u) = z := by
  show BitVec.extractLsb' (n := 17 + 4 + 10 + 1) 1 10 _ = _
  rw [hi _ _ (by decide), lo _ _ (by decide)]; exact BitVec.extractLsb'_eq_self

@[simp] theorem pb_18_3 (x : BitVec 3) (y : BitVec 8) (z : BitVec 3) (m : BitVec 7) (u : BitVec 10) (v : BitVec 1) :
    BitVec.extractLsb' (n := 32) 18 3 (x ++ y ++ z ++ m ++ u ++ v) = z := by
  show BitVec.extractLsb' (n := 3 + 8 + 3 + 7 + 10 + 1) 18 3 _ = _
  rw [hi _ _ (by decide), hi _ _ (by decide), hi _ _ (by decide), lo _ _ (by decide)]; exact BitVec.extractLsb'_eq_self

@[simp] theorem pb_21_8 (x : BitVec 3) (y : BitVec 8) (z : BitVec 3) (m : BitVec 7) (u : BitVec 10) (v : BitVec 1) :
    BitVec.extractLsb' (n := 32) 21 8 (x ++ y ++ z ++ m ++ u ++ v) = y := by
  show BitVec.extractLsb' (n := 3 + 8 + 3 + 7 + 10 + 1) 21 8 _ = _
  rw [hi _ _ (by decide), hi _ _ (by decide), hi _ _ (by decide), hi _ _ (by decide), lo _ _ (by decide)]; exact BitVec.extractLsb'_eq_self

@[simp] theorem pb_29_3 (x : BitVec 3) (y : BitVec 8) (z : BitVec 3) (m : BitVec 7) (u : BitVec 10) (v : BitVec 1) :
    BitVec.extractLsb' (n := 32) 29 3 (x ++ y ++ z ++ m ++ u ++ v) = x := by
  show BitVec.extractLsb' (n := 3 + 8 + 3 + 7 + 10 + 1) 29 3 _ = _
  rw [hi _ _ (by decide), hi _ _ (by decide), hi _ _ (by decide), hi _ _ (by decide), hi _ _ (by decide)]; exact BitVec.extractLsb'_eq_self

@[simp] theorem pb_1_10 (x : BitVec 3) (y : BitVec 8) (z : BitVec 3) (m : BitVec 7) (u : BitVec 10) (v : BitVec 1) :
    BitVec.extractLsb' (n := 32) 1 10 (x ++ y ++ z ++ m ++ u ++ v) = u := by
  show BitVec.extractLsb' (n := 3 + 8 + 3 + 7 + 10 + 1) 1 10 _ = _
  rw [hi _ _ (by decide), lo _ _ (by decide)]; exact BitVec.extractLsb'_eq_self

@[simp] theorem amo7_2_5 (x : BitVec 5) (y : BitVec 1) (z : BitVec 1) :
    BitVec.extractLsb' (n := 7) 2 5 (x ++ y ++ z) = x := by
  show BitVec.extractLsb' (n := 5 + 1 + 1) 2 5 _ = _
  rw [hi _ _ (by decide), hi _ _ (by decide)]; exact BitVec.extractLsb'_eq_self

@[simp] theorem amo7_bit1 (x : BitVec 5) (y : BitVec 1) (z : BitVec 1) :
    BitVec.getLsbD (w := 7) (x ++ y ++ z) 1 = y.getLsbD 0 := by
  show BitVec.getLsbD (w := 5 + 1 + 1) _ 1 = _
  simp only [BitVec.getLsbD_append]; rfl
@[simp] theorem amo7_bit1e (x : BitVec 5) (y : BitVec 1) (z : BitVec 1) :
    GetElem.getElem (coll := BitVec 7) (x ++ y ++ z) 1 (by decide) = y.getLsbD 0 := by
  rw [← BitVec.getLsbD_eq_getElem]; exact amo7_bit1 x y z

@[simp] theorem amo7_bit0 (x : BitVec 5) (y : BitVec 1) (z : BitVec 1) :
    BitVec.getLsbD (w := 7) (x ++ y ++ z) 0 = z.getLsbD 0 := by
  show BitVec.getLsbD (w := 5 + 1 + 1) _ 0 = _
  simp only [BitVec.getLsbD_append]; rfl
@[simp] theorem amo7_bit0e (x : BitVec 5) (y : BitVec 1) (z : BitVec 1) :
    GetElem.getElem (coll := BitVec 7) (x ++ y ++ z) 0 (by decide) = z.getLsbD 0 := by
  rw [← BitVec.getLsbD_eq_getElem]; exact amo7_bit0 x y z

@[simp] theorem imm723_5_7 (x : BitVec 7) (y : BitVec 2) (z : BitVec 3) :
    BitVec.extractLsb' (n := 12) 5 7 (x ++ y ++ z) = x := by
  show BitVec.extractLsb' (n := 7 + 2 + 3) 5 7 _ = _
  rw [hi _ _ (by decide), hi _ _ (by decide)]; exact BitVec.extractLsb'_eq_self

@[simp] theorem imm723_3_2 (x : BitVec 7) (y : BitVec 2) (z : BitVec 3) :
    BitVec.extractLsb' (n := 12) 3 2 (x ++ y ++ z) = y := by
  show BitVec.extractLsb' (n := 7 + 2 + 3) 3 2 _ = _
  rw [hi _ _ (by decide), lo _ _ (by decide)]; exact BitVec.extractLsb'_eq_self

@[simp] theorem imm723_0_3 (x : BitVec 7) (y : BitVec 2) (z : BitVec 3) :
    BitVec.extractLsb' (n := 12) 0 3 (x ++ y ++ z) = z := by
  show BitVec.extractLsb' (n := 7 + 2 + 3) 0 3 _ = _
  rw [lo _ _ (by decide)]; exact BitVec.extractLsb'_eq_self

@[simp] theorem imm5412_7_5 (x : BitVec 5) (y : BitVec 4) (z : BitVec 1) (u : BitVec 2) :
    BitVec.extractLsb' (n := 12) 7 5 (x ++ y ++ z ++ u) = x := by
  show BitVec.extractLsb' (n := 5 + 4 + 1 + 2) 7 5 _ = _
  rw [hi _ _ (by decide), hi _ _ (by decide), hi _ _ (by decide)]; exact BitVec.extractLsb'_eq_self

@[simp] theorem imm5412_3_4 (x : BitVec 5) (y : BitVec 4) (z : BitVec 1) (u : BitVec 2) :
    BitVec.extractLsb' (n := 12) 3 4 (x ++ y ++ z ++ u) = y := by
  show BitVec.extractLsb' (n := 5 + 4 + 1 + 2) 3 4 _ = _
  rw [hi _ _ (by decide), hi _ _ (by decide), lo _ _ (by decide)]; exact BitVec.extractLsb'_eq_self

@[simp] theorem imm5412_0_2 (x : BitVec 5) (y : BitVec 4) (z : BitVec 1) (u : BitVec 2) :
    BitVec.extractLsb' (n := 12) 0 2 (x ++ y ++ z ++ u) = u := by
  show BitVec.extractLsb' (n := 5 + 4 + 1 + 2) 0 2 _ = _
  rw [lo _ _ (by decide)]; exact BitVec.extractLsb'_eq_self

@[simp] theorem imm5412_bit2 (x : BitVec 5) (y : BitVec 4) (z : BitVec 1) (u : BitVec 2) :
    BitVec.getLsbD (w := 12) (x ++ y ++ z ++ u) 2 = z.getLsbD 0 := by
  show BitVec.getLsbD (w := 5 + 4 + 1 + 2) _ 2 = _
  simp only [BitVec.getLsbD_append]; rfl
@[simp] theorem imm5412_bit2e (x : BitVec 5) (y : BitVec 4) (z : BitVec 1) (u : BitVec 2) :
    GetElem.getElem (coll := BitVec 12) (x ++ y ++ z ++ u) 2 (by decide) = z.getLsbD 0 := by
  rw [← BitVec.getLsbD_eq_getElem]; exact imm5412_bit2 x y z u

@[simp] theorem imm93_3_9 (x : BitVec 9) (y : BitVec 3) :
    BitVec.extractLsb' (n := 12) 3 9 (x ++ y) = x := by
  show BitVec.extractLsb' (n := 9 + 3) 3 9 _ = _
  rw [hi _ _ (by decide)]; exact BitVec.extractLsb'_eq_self

@[simp] theorem imm93_0_3 (x : BitVec 9) (y : BitVec 3) :
    BitVec.extractLsb' (n := 12) 0 3 (x ++ y) = y := by
  show BitVec.extractLsb' (n := 9 + 3) 0 3 _ = _
  rw [lo _ _ (by decide)]; exact BitVec.extractLsb'_eq_self

@[simp] theorem imm444_8_4 (x : BitVec 4) (y : BitVec 4) (z : BitVec 4) :
    BitVec.extractLsb' (n := 12) 8 4 (x ++ y ++ z) = x := by
  show BitVec.extractLsb' (n := 4 + 4 + 4) 8 4 _ = _
  rw [hi _ _ (by decide), hi _ _ (by decide)]; exact BitVec.extractLsb'_eq_self

@[simp] theorem imm444_4_4 (x : BitVec 4) (y : BitVec 4) (z : BitVec 4) :
    BitVec.extractLsb' (n := 12) 4 4 (x ++ y ++ z) = y := by
  show BitVec.extractLsb' (n := 4 + 4 + 4) 4 4 _ = _
  rw [hi _ _ (by decide), lo _ _ (by decide)]; exact BitVec.extractLsb'_eq_self

@[simp] theorem imm444_0_4 (x : BitVec 4) (y : BitVec 4) (z : BitVec 4) :
    BitVec.extractLsb' (n := 12) 0 4 (x ++ y ++ z) = z := by
  show BitVec.extractLsb' (n := 4 + 4 + 4) 0 4 _ = _
  rw [lo _ _ (by decide)]; exact BitVec.extractLsb'_eq_self

@[simp] theorem f43_3_4 (x : BitVec 4) (y : BitVec 3) :
    BitVec.extractLsb' (n := 7) 3 4 (x ++ y) = x := by
  show BitVec.extractLsb' (n := 4 + 3) 3 4 _ = _
  rw [hi _ _ (by decide)]; exact BitVec.extractLsb'_eq_self

@[simp] theorem f43_0_3 (x : BitVec 4) (y : BitVec 3) :
    BitVec.extractLsb' (n := 7) 0 3 (x ++ y) = y := by
  show BitVec.extractLsb' (n := 4 + 3) 0 3 _ = _
  rw [lo _ _ (by decide)]; exact BitVec.extractLsb'_eq_self

@[simp] theorem f52_2_5 (x : BitVec 5) (y : BitVec 2) :
    BitVec.extractLsb' (n := 7) 2 5 (x ++ y) = x := by
  show BitVec.extractLsb' (n := 5 + 2) 2 5 _ = _
  rw [hi _ _ (by decide)]; exact BitVec.extractLsb'_eq_self

@[simp] theorem f52_0_2 (x : BitVec 5) (y : BitVec 2) :
    BitVec.extractLsb' (n := 7) 0 2 (x ++ y) = y := by
  show BitVec.extractLsb' (n := 5 + 2) 0 2 _ = _
  rw [lo _ _ (by decide)]; exact BitVec.extractLsb'_eq_self

@[simp] theorem f52_3_4 (x : BitVec 5) (y : BitVec 2) :
    BitVec.extractLsb' (n := 7) 3 4 (x ++ y) = x.extractLsb' 1 4 := by
  show BitVec.extractLsb' (n := 5 + 2) 3 4 _ = _
  rw [hi _ _ (by decide)]

@[simp] theorem f52_bit2 (x : BitVec 5) (y : BitVec 2) :
    BitVec.getLsbD (w := 7) (x ++ y) 2 = x.getLsbD 0 := by
  show BitVec.getLsbD (w := 5 + 2) _ 2 = _
  simp only [BitVec.getLsbD_append]; rfl
@[simp] theorem f52_bit2e (x : BitVec 5) (y : BitVec 2) :
    GetElem.getElem (coll := BitVec 7) (x ++ y) 2 (by decide) = x.getLsbD 0 := by
  rw [← BitVec.getLsbD_eq_getElem]; exact f52_bit2 x y

@[simp] theorem f142_bit6 (x : BitVec 1) (y : BitVec 4) (z : BitVec 2) :
    BitVec.getLsbD (w := 7) (x ++ y ++ z) 6 = x.getLsbD 0 := by
  show BitVec.getLsbD (w := 1 + 4 + 2) _ 6 = _
  simp only [BitVec.getLsbD_append]; rfl
@[simp] theorem f142_bit6e (x : BitVec 1) (y : BitVec 4) (z : BitVec 2) :
    GetElem.getElem (coll := BitVec 7) (x ++ y ++ z) 6 (by decide) = x.getLsbD 0 := by
  rw [← BitVec.getLsbD_eq_getElem]; exact f142_bit6 x y z

theorem op32 (op : BitVec 10) (b a d : Code) : fieldOp (b ++ a ++ d ++ op ++ 0#1) = op := by
  show BitVec.extractLsb' (n := 7 + 7 + 7 + 10 + 1) 1 10 _ = _
  rw [hi _ _ (by decide), lo _ _ (by decide)]; exact BitVec.extractLsb'_eq_self
theorem d32 (op : BitVec 10) (b a d : Code) : fieldD (b ++ a ++ d ++ op ++ 0#1) = d := by
  show BitVec.extractLsb' (n := 7 + 7 + 7 + 10 + 1) 11 7 _ = _
  rw [hi _ _ (by decide), hi _ _ (by decide), lo _ _ (by decide)]; exact BitVec.extractLsb'_eq_self
theorem a32 (op : BitVec 10) (b a d : Code) : fieldA (b ++ a ++ d ++ op ++ 0#1) = a := by
  show BitVec.extractLsb' (n := 7 + 7 + 7 + 10 + 1) 18 7 _ = _
  rw [hi _ _ (by decide), hi _ _ (by decide), hi _ _ (by decide), lo _ _ (by decide)]; exact BitVec.extractLsb'_eq_self
theorem b32 (op : BitVec 10) (b a d : Code) : fieldB (b ++ a ++ d ++ op ++ 0#1) = b := by
  show BitVec.extractLsb' (n := 7 + 7 + 7 + 10 + 1) 25 7 _ = _
  rw [hi _ _ (by decide), hi _ _ (by decide), hi _ _ (by decide), hi _ _ (by decide)]; exact BitVec.extractLsb'_eq_self
theorem lane32 (op : BitVec 10) (b a d : Code) (w1 w2 : W32) :
    decodeLane (b ++ a ++ d ++ op ++ 0#1) w1 w2 = decodeL32 (b ++ a ++ d ++ op ++ 0#1) := by
  unfold decodeLane
  rw [show (b ++ a ++ d ++ op ++ 0#1 : W32).getLsbD 0 = false from by
    show BitVec.getLsbD (w := 7 + 7 + 7 + 10 + 1) _ 0 = _
    rw [BitVec.getLsbD_append]; simp]
  rfl


theorem maj64 (maj : BitVec 9) (b a d : Code) : fieldMajor (b ++ a ++ d ++ maj ++ 1#2) = maj := by
  show BitVec.extractLsb' (n := 7 + 7 + 7 + 9 + 2) 2 9 _ = _
  rw [hi _ _ (by decide), lo _ _ (by decide)]; exact BitVec.extractLsb'_eq_self
theorem d64 (maj : BitVec 9) (b a d : Code) : fieldD (b ++ a ++ d ++ maj ++ 1#2) = d := by
  show BitVec.extractLsb' (n := 7 + 7 + 7 + 9 + 2) 11 7 _ = _
  rw [hi _ _ (by decide), hi _ _ (by decide), lo _ _ (by decide)]; exact BitVec.extractLsb'_eq_self
theorem a64 (maj : BitVec 9) (b a d : Code) : fieldA (b ++ a ++ d ++ maj ++ 1#2) = a := by
  show BitVec.extractLsb' (n := 7 + 7 + 7 + 9 + 2) 18 7 _ = _
  rw [hi _ _ (by decide), hi _ _ (by decide), hi _ _ (by decide), lo _ _ (by decide)]; exact BitVec.extractLsb'_eq_self
theorem b64 (maj : BitVec 9) (b a d : Code) : fieldB (b ++ a ++ d ++ maj ++ 1#2) = b := by
  show BitVec.extractLsb' (n := 7 + 7 + 7 + 9 + 2) 25 7 _ = _
  rw [hi _ _ (by decide), hi _ _ (by decide), hi _ _ (by decide), hi _ _ (by decide)]; exact BitVec.extractLsb'_eq_self
theorem c64 (imm : Half) (m : BitVec 9) (c : Code) : fieldC (imm ++ m ++ c) = c := by
  show BitVec.extractLsb' (n := 16 + 9 + 7) 0 7 _ = _
  rw [lo _ _ (by decide)]; exact BitVec.extractLsb'_eq_self
theorem m64 (imm : Half) (m : BitVec 9) (c : Code) : fieldMod (imm ++ m ++ c) = m := by
  show BitVec.extractLsb' (n := 16 + 9 + 7) 7 9 _ = _
  rw [hi _ _ (by decide), lo _ _ (by decide)]; exact BitVec.extractLsb'_eq_self
theorem imm64 (imm : Half) (m : BitVec 9) (c : Code) : fieldImm (imm ++ m ++ c) = imm := by
  show BitVec.extractLsb' (n := 16 + 9 + 7) 16 16 _ = _
  rw [hi _ _ (by decide), hi _ _ (by decide)]; exact BitVec.extractLsb'_eq_self
theorem lane64 (maj : BitVec 9) (b a d : Code) (w1 w2 : W32) :
    decodeLane (b ++ a ++ d ++ maj ++ 1#2) w1 w2 = decodeL64 (b ++ a ++ d ++ maj ++ 1#2) w1 := by
  unfold decodeLane
  rw [show (b ++ a ++ d ++ maj ++ 1#2 : W32).getLsbD 0 = true from by
      show BitVec.getLsbD (w := 7 + 7 + 7 + 9 + 2) _ 0 = _
      rw [BitVec.getLsbD_append]; simp,
    show (b ++ a ++ d ++ maj ++ 1#2 : W32).getLsbD 1 = false from by
      show BitVec.getLsbD (w := 7 + 7 + 7 + 9 + 2) _ 1 = _
      rw [BitVec.getLsbD_append]; simp]
  rfl
theorem ty_code (t : Ty) : Ty.ofCode t.code = some t := by cases t <;> rfl
@[simp] theorem modTy_code (x : BitVec 4) (t : Ty) (k : Ty → Decoded) : modTy (x ++ t.code) k = k t := by
  have : (x ++ t.code).extractLsb' 0 5 = t.code := by rw [lo _ _ (by decide)]; exact BitVec.extractLsb'_eq_self
  unfold modTy; rw [this]; unfold withCode; rw [ty_code]
@[simp] theorem mod4_code (x : BitVec 4) (y : BitVec 5) : (x ++ y).extractLsb' 5 4 = x := by
  rw [hi _ _ (by decide)]; exact BitVec.extractLsb'_eq_self
@[simp] theorem high3_code (s : BitVec 1) (x : BitVec 3) (y : BitVec 5) : modHigh3 (s ++ x ++ y) = x := by
  show BitVec.extractLsb' (n := 1 + 3 + 5) 5 3 _ = _
  rw [hi _ _ (by decide), lo _ _ (by decide)]; exact BitVec.extractLsb'_eq_self
@[simp] theorem sat_code (s : Bool) (x : BitVec 3) (y : BitVec 5) : modSat (ofFlag 1 s ++ x ++ y) = s := by
  show BitVec.getLsbD (w := 1 + 3 + 5) _ 8 = _
  rw [BitVec.getLsbD_append, BitVec.getLsbD_append]; cases s <;> simp [ofFlag]
@[simp] theorem sat_zero (x : BitVec 3) (y : BitVec 5) : modSat (0#1 ++ x ++ y) = false := sat_code false x y
@[simp] theorem unused1_self (r : Decoded) : unused1 unusedCode r = r := rfl
@[simp] theorem unused2_self (r : Decoded) : unused2 unusedCode unusedCode r = r := rfl
@[simp] theorem unused3_self (r : Decoded) : unused3 unusedCode unusedCode unusedCode r = r := rfl
@[simp] theorem zero_true (r : Decoded) : zeroBits true r = r := rfl
@[simp] theorem modTy_code3 (s : BitVec 1) (x : BitVec 3) (t : Ty) (k : Ty → Decoded) : modTy (s ++ x ++ t.code) k = k t :=
  modTy_code (s ++ x) t k
theorem accept_wf (i : Instr) (h : i.wf = true) : accept i = .ok i := by unfold accept; rw [h]; rfl
theorem cond_code (t : Cond) : Cond.ofCode t.code = some t := by cases t <;> rfl
theorem fcond_code (t : FCond) : FCond.ofCode t.code = some t := by cases t <;> rfl
theorem rm_code (t : Rm) : Rm.ofCode t.code = some t := by cases t <;> rfl
theorem redOp_code (t : RedOp) : RedOp.ofCode t.code = some t := by cases t <;> rfl
theorem space_code (t : Space) : Space.ofCode t.code = t := by cases t <;> rfl
theorem size_code (t : Size) : Size.ofCode t.code = some t := by cases t <;> rfl
theorem scope_code (t : Scope) : Scope.ofCode t.code = some t := by cases t <;> rfl
theorem scope_ne (t : Scope) : ¬t.code = 0#3 := by cases t <;> decide
theorem atomOp_ne (t : AtomOp) : ¬t.code = 9#4 := by cases t <;> decide
theorem fenceKind_code (t : FenceKind) : FenceKind.ofCode t.code = some t := by cases t <;> rfl
theorem atomOp_code (t : AtomOp) : AtomOp.ofCode t.code = some t := by cases t <;> rfl
theorem atomTy_code (t : AtomTy) : AtomTy.ofCode t.code = some t := by cases t <;> rfl
theorem order_code (t : Order) : Order.ofImm t.imm = some t := by cases t <;> first | rfl | (rename_i s; cases s <;> rfl)
theorem stqTy_code (t : StqTy) : StqTy.ofCode t.code = some t := by cases t <;> rfl
theorem with_some {α β : Type} (f : α → Option β) (x : α) (y : β) (k : β → Decoded) (h : f x = some y) :
  withCode f x k = k y := by unfold withCode; rw [h]



@[simp] theorem with_rm (t : Rm) (k : Rm → Decoded) : withCode Rm.ofCode t.code k = k t := with_some _ _ _ _ (rm_code t)
@[simp] theorem with_cond (t : Cond) (k : Cond → Decoded) : withCode Cond.ofCode t.code k = k t :=
  with_some _ _ _ _ (cond_code t)
@[simp] theorem with_fcond (t : FCond) (k : FCond → Decoded) : withCode FCond.ofCode t.code k = k t :=
  with_some _ _ _ _ (fcond_code t)
@[simp] theorem with_redOp (t : RedOp) (k : RedOp → Decoded) : withCode RedOp.ofCode t.code k = k t :=
  with_some _ _ _ _ (redOp_code t)
@[simp] theorem with_size (t : Size) (k : Size → Decoded) : withCode Size.ofCode t.code k = k t :=
  with_some _ _ _ _ (size_code t)
@[simp] theorem with_scope (t : Scope) (k : Scope → Decoded) : withCode Scope.ofCode t.code k = k t :=
  with_some _ _ _ _ (scope_code t)
@[simp] theorem with_fenceKind (t : FenceKind) (k : FenceKind → Decoded) : withCode FenceKind.ofCode t.code k = k t :=
  with_some _ _ _ _ (fenceKind_code t)
@[simp] theorem with_atomOp (t : AtomOp) (k : AtomOp → Decoded) : withCode AtomOp.ofCode t.code k = k t :=
  with_some _ _ _ _ (atomOp_code t)
@[simp] theorem with_atomTy (t : AtomTy) (k : AtomTy → Decoded) : withCode AtomTy.ofCode t.code k = k t :=
  with_some _ _ _ _ (atomTy_code t)
@[simp] theorem with_order (t : Order) (k : Order → Decoded) : withCode Order.ofImm t.imm k = k t :=
  with_some _ _ _ _ (order_code t)
@[simp] theorem with_stqTy (t : StqTy) (k : StqTy → Decoded) : withCode StqTy.ofCode t.code k = k t :=
  with_some _ _ _ _ (stqTy_code t)

/-- Every operand of a well-formed instruction survives its encoding. -/
def Statement (i : Instr) : Prop := i.wf = true → DecodesTo (encode i) i

theorem bit0_32 (op : BitVec 10) (b a d : Code) : (b ++ a ++ d ++ op ++ 0#1 : W32).getLsbD 0 = false := by
  show BitVec.getLsbD (w := 7 + 7 + 7 + 10 + 1) _ 0 = _
  rw [BitVec.getLsbD_append]; simp
theorem of32 {op : BitVec 10} {b a d : Code} {i : Instr} (h : ∀ w, decodeShort w op.toNat d a b = .ok i) :
    DecodesTo (l32 op b a d) i := by
  refine .inr ⟨.inl (by unfold laneLength; rw [bit0_32]; rfl), fun _ _ => (lane32 ..).trans ?_⟩
  unfold decodeL32
  rw [op32, d32, a32, b32]
  exact h _
theorem of64 {maj : BitVec 9} {b a d : Code} {imm : Half} {m : BitVec 9} {c : Code} {i : Instr}
    (h : ∀ w0, decodeMajor w0 maj.toNat d a b c m imm = .ok i) : DecodesTo (l64 maj b a d imm m c) i := by
  refine ⟨?_, fun w2 => (lane64 ..).trans ?_⟩
  · unfold laneLength
    rw [show (b ++ a ++ d ++ maj ++ 1#2 : W32).getLsbD 0 = true from by
      show BitVec.getLsbD (w := 7 + 7 + 7 + 9 + 2) _ 0 = _
      rw [BitVec.getLsbD_append]; simp,
    show (b ++ a ++ d ++ maj ++ 1#2 : W32).getLsbD 1 = false from by
      show BitVec.getLsbD (w := 7 + 7 + 7 + 9 + 2) _ 1 = _
      rw [BitVec.getLsbD_append]; simp]
    rfl
  · unfold decodeL64
    rw [maj64, d64, a64, b64, c64, m64, imm64]
    exact h _
@[simp] theorem with_ty (t : Ty) (k : Ty → Decoded) : withCode Ty.ofCode t.code k = k t := with_some _ _ _ _ (ty_code t)
@[simp] theorem flag_bit (p : Bool) : (ofFlag 1 p).getLsbD 0 = p := by cases p <;> rfl
@[simp] theorem modX_tb (p s a : Bool) (tb : BitVec 5) : (modX p s a tb).extractLsb' 0 5 = tb := by
  show BitVec.extractLsb' (n := 1 + 1 + 1 + 1 + 5) 0 5 (0#1 ++ ofFlag 1 p ++ ofFlag 1 s ++ ofFlag 1 a ++ tb) = _
  rw [lo _ _ (by decide)]; exact BitVec.extractLsb'_eq_self
@[simp] theorem modX_hi0 (tb : BitVec 5) : (modX false false false tb).extractLsb' 5 4 = 0 := by
  show BitVec.extractLsb' (n := 1 + 1 + 1 + 1 + 5) 5 4 (0#1 ++ ofFlag 1 false ++ ofFlag 1 false ++ ofFlag 1 false ++ tb) = _
  rw [hi _ _ (by decide)]; rfl
theorem modX_hi (p s a : Bool) (tb : BitVec 5) :
    (modX p s a tb).extractLsb' 5 4 = 0#1 ++ ofFlag 1 p ++ ofFlag 1 s ++ ofFlag 1 a := by
  show BitVec.extractLsb' (n := 1 + 1 + 1 + 1 + 5) 5 4 (0#1 ++ ofFlag 1 p ++ ofFlag 1 s ++ ofFlag 1 a ++ tb) = _
  rw [hi _ _ (by decide)]; exact BitVec.extractLsb'_eq_self
theorem prefetch_z (p : Bool) : (0#2 ++ ofFlag 1 p).extractLsb' 1 2 = 0 ∧ (0#2 ++ ofFlag 1 p)[0] = p := by
  cases p <;> exact ⟨rfl, rfl⟩
theorem modX_bit (p s a : Bool) (tb : BitVec 5) (k : Nat) :
    (modX p s a tb).getLsbD (5 + k) = (0#1 ++ ofFlag 1 p ++ ofFlag 1 s ++ ofFlag 1 a).getLsbD k := by
  show BitVec.getLsbD (w := 1 + 1 + 1 + 1 + 5) (0#1 ++ ofFlag 1 p ++ ofFlag 1 s ++ ofFlag 1 a ++ tb) _ = _
  rw [BitVec.getLsbD_append, if_neg (by omega)]
  show BitVec.getLsbD _ (5 + k - 5) = _
  rw [Nat.add_sub_cancel_left]
@[simp] theorem modX_a (p s a : Bool) (tb : BitVec 5) : (modX p s a tb).getLsbD 5 = a := by
  rw [modX_bit p s a tb 0]; cases p <;> cases s <;> cases a <;> rfl
@[simp] theorem modX_s (p s a : Bool) (tb : BitVec 5) : (modX p s a tb).getLsbD 6 = s := by
  rw [modX_bit p s a tb 1]; cases p <;> cases s <;> cases a <;> rfl
@[simp] theorem modX_p (p s a : Bool) (tb : BitVec 5) : (modX p s a tb).getLsbD 7 = p := by
  rw [modX_bit p s a tb 2]; cases p <;> cases s <;> cases a <;> rfl
@[simp] theorem modX_8 (p s a : Bool) (tb : BitVec 5) : (modX p s a tb).getLsbD 8 = false := by
  rw [modX_bit p s a tb 3]; cases p <;> cases s <;> cases a <;> rfl
@[simp] theorem modX_ae (p s a : Bool) (tb : BitVec 5) : (modX p s a tb)[5] = a := by
  rw [← BitVec.getLsbD_eq_getElem]; exact modX_a p s a tb
@[simp] theorem modX_se (p s a : Bool) (tb : BitVec 5) : (modX p s a tb)[6] = s := by
  rw [← BitVec.getLsbD_eq_getElem]; exact modX_s p s a tb
@[simp] theorem modX_pe (p s a : Bool) (tb : BitVec 5) : (modX p s a tb)[7] = p := by
  rw [← BitVec.getLsbD_eq_getElem]; exact modX_p p s a tb
@[simp] theorem modX_8e (p s a : Bool) (tb : BitVec 5) : (modX p s a tb)[8] = false := by
  rw [← BitVec.getLsbD_eq_getElem]; exact modX_8 p s a tb
@[simp] theorem modX_7 (s a : Bool) (tb : BitVec 5) : (modX false s a tb).extractLsb' 7 2 = 0 := by
  show BitVec.extractLsb' (n := 1 + 1 + 1 + 1 + 5) 7 2 (0#1 ++ ofFlag 1 false ++ ofFlag 1 s ++ ofFlag 1 a ++ tb) = _
  rw [hi _ _ (by decide)]; cases s <;> cases a <;> rfl
@[simp] theorem modX_6 (a : Bool) (tb : BitVec 5) : (modX false false a tb).extractLsb' 6 3 = 0 := by
  show BitVec.extractLsb' (n := 1 + 1 + 1 + 1 + 5) 6 3 (0#1 ++ ofFlag 1 false ++ ofFlag 1 false ++ ofFlag 1 a ++ tb) = _
  rw [hi _ _ (by decide)]; cases a <;> rfl
@[simp] theorem flag_bite (p : Bool) : (ofFlag 1 p)[0] = p := by cases p <;> rfl
@[simp] theorem flag_tf (p : Bool) : (ofFlag 1 p = 1#1) = (p = true) := by cases p <;> simp [ofFlag]
theorem of64m {maj : BitVec 9} {b a d : Code} {imm : Half} {m : BitVec 9} {c : Code} {i : Instr}
    (e : ∀ w0 d a b c m imm, decodeMajor w0 maj.toNat d a b c m imm = decodeL64Mem maj.toNat d a b c m imm)
    (h : decodeL64Mem maj.toNat d a b c m imm = .ok i) : DecodesTo (l64 maj b a d imm m c) i :=
  of64 fun w0 => (e w0 ..).trans h
theorem of64x {maj : BitVec 9} {b a d : Code} {imm : Half} {m : BitVec 9} {c : Code} {i : Instr}
    (e : ∀ w0 d a b c m imm, decodeMajor w0 maj.toNat d a b c m imm = decodeL64Matrix maj.toNat d a b c m imm)
    (h : decodeL64Matrix maj.toNat d a b c m imm = .ok i) : DecodesTo (l64 maj b a d imm m c) i :=
  of64 fun w0 => (e w0 ..).trans h

theorem ldq_code (t : LdqTy) : LdqTy.ofCode (t.code.extractLsb' 2 2) (t.code.extractLsb' 0 2) = some t := by
  cases t <;> rfl
@[simp] theorem with_ldq (t : LdqTy) (k : LdqTy → Decoded) :
    withCode (fun x => LdqTy.ofCode x (t.code.extractLsb' 0 2)) (t.code.extractLsb' 2 2) k = k t :=
  with_some _ _ _ _ (ldq_code t)

/-- The hart's words, by layout. -/
theorem ofXR {f7 : BitVec 7} {rs2 rs1 : XReg} {f3 : BitVec 3} {rd : XReg} {op : BitVec 7} {i : Instr}
    (h : decodeHart (f7 ++ rs2 ++ rs1 ++ f3 ++ rd ++ op) = .ok i) :
    DecodesTo (xr f7 rs2 rs1 f3 rd op) i := .inl h
theorem ofXI {imm : BitVec 12} {rs1 : XReg} {f3 : BitVec 3} {rd : XReg} {op : BitVec 7} {i : Instr}
    (h : decodeHart (imm ++ rs1 ++ f3 ++ rd ++ op) = .ok i) :
    DecodesTo (xi imm rs1 f3 rd op) i := .inl h
theorem ofXB {off : BitVec 13} {rs2 rs1 : XReg} {f3 : BitVec 3} {op : BitVec 7} {i : Instr}
    (h : decodeHart (off.extractLsb' 12 1 ++ off.extractLsb' 5 6 ++ rs2 ++ rs1 ++ f3 ++ off.extractLsb' 1 4
      ++ off.extractLsb' 11 1 ++ op) = .ok i) :
    DecodesTo (xb off rs2 rs1 f3 op) i := .inl h

theorem ofOwn {w : W32} {op : BitVec 10} {i : Instr} (h0 : w.getLsbD 0 = false) (ho : fieldOp w = op)
    (h : ∀ a b, decodeShort w op.toNat (fieldD w) a b = .ok i) : DecodesTo [w] i := by
  refine .inr ⟨.inl (by unfold laneLength; rw [h0]; rfl), fun _ _ => ?_⟩
  unfold decodeLane decodeL32
  rw [h0, ho]
  exact h ..
theorem own_bit (x : BitVec 17) (y : BitVec 4) (z : BitVec 10) : BitVec.getLsbD (w := 32) (x ++ y ++ z ++ 0#1) 0 = false := by
  show BitVec.getLsbD (w := 17 + 4 + 10 + 1) _ 0 = _
  simp only [BitVec.getLsbD_append]; rfl
theorem pb_bit (x : BitVec 3) (y : BitVec 8) (z : BitVec 3) (m : BitVec 7) (u : BitVec 10) :
    BitVec.getLsbD (w := 32) (x ++ y ++ z ++ m ++ u ++ 0#1) 0 = false := by
  show BitVec.getLsbD (w := 3 + 8 + 3 + 7 + 10 + 1) _ 0 = _
  simp only [BitVec.getLsbD_append]; rfl
theorem pb_d (x : BitVec 3) (y : BitVec 8) (z : BitVec 3) (m : BitVec 7) (u : BitVec 10) (v : BitVec 1) :
    fieldD (x ++ y ++ z ++ m ++ u ++ v) = m := by
  show BitVec.extractLsb' (n := 3 + 8 + 3 + 7 + 10 + 1) 11 7 _ = _
  rw [hi _ _ (by decide), hi _ _ (by decide), lo _ _ (by decide)]; exact BitVec.extractLsb'_eq_self
theorem lwin (k : BitVec 4) : Statement (.lwin k) := fun h =>
  ofOwn (own_bit ..) (own_1_10 ..) fun a b => (decodeShort.eq_25 ..).trans
    (by simp [-BitVec.reduceAppend, accept_wf _ h])
theorem qmode (k : BitVec 4) : Statement (.qmode k) := fun h =>
  ofOwn (own_bit ..) (own_1_10 ..) fun a b => (decodeShort.eq_27 ..).trans
    (by simp [-BitVec.reduceAppend, accept_wf _ h])
theorem pb (m : Code) (n : BitVec 3) (pat : BitVec 8) : Statement (.pb m n pat) := fun h =>
  have hz : pat >>> (n.toNat + 1) = 0 := eq_of_beq h
  ofOwn (pb_bit ..) (pb_1_10 ..) fun a b => (decodeShort.eq_26 ..).trans
    (by simp [-BitVec.reduceAppend, pb_d, hz, accept_wf _ h])
theorem li_field (d : Code) : fieldMajor (unusedCode ++ unusedCode ++ d ++ 0#9 ++ 3#2) = 0
    ∧ fieldD (unusedCode ++ unusedCode ++ d ++ 0#9 ++ 3#2) = d
    ∧ fieldA (unusedCode ++ unusedCode ++ d ++ 0#9 ++ 3#2) = unusedCode
    ∧ fieldB (unusedCode ++ unusedCode ++ d ++ 0#9 ++ 3#2) = unusedCode
    ∧ (unusedCode ++ unusedCode ++ d ++ 0#9 ++ 3#2 : W32).getLsbD 0 = true
    ∧ (unusedCode ++ unusedCode ++ d ++ 0#9 ++ 3#2 : W32).getLsbD 1 = true := by
  refine ⟨?_, ?_, ?_, ?_, ?_, ?_⟩
  · show BitVec.extractLsb' (n := 7 + 7 + 7 + 9 + 2) 2 9 _ = _
    rw [hi _ _ (by decide), lo _ _ (by decide)]; rfl
  · show BitVec.extractLsb' (n := 7 + 7 + 7 + 9 + 2) 11 7 _ = _
    rw [hi _ _ (by decide), hi _ _ (by decide), lo _ _ (by decide)]; exact BitVec.extractLsb'_eq_self
  · show BitVec.extractLsb' (n := 7 + 7 + 7 + 9 + 2) 18 7 _ = _
    rw [hi _ _ (by decide), hi _ _ (by decide), hi _ _ (by decide), lo _ _ (by decide)]
    exact BitVec.extractLsb'_eq_self
  · show BitVec.extractLsb' (n := 7 + 7 + 7 + 9 + 2) 25 7 _ = _
    rw [hi _ _ (by decide), hi _ _ (by decide), hi _ _ (by decide), hi _ _ (by decide)]
    exact BitVec.extractLsb'_eq_self
  · show BitVec.getLsbD (w := 7 + 7 + 7 + 9 + 2) _ 0 = _
    simp only [BitVec.getLsbD_append]; rfl
  · show BitVec.getLsbD (w := 7 + 7 + 7 + 9 + 2) _ 1 = _
    simp only [BitVec.getLsbD_append]; rfl
theorem li (t : Ty) (d : Code) (lit : W32) : Statement (.li t d lit) := fun h => by
  obtain ⟨h1, h2, h3, h4, h5, h6⟩ := li_field d
  refine ⟨by unfold laneLength; rw [h5, h6]; rfl, ?_⟩
  unfold decodeLane decodeL96
  rw [h1, h2, h3, h4, h5, h6, c64 0#16 (0#4 ++ t.code) unusedCode, m64 0#16 (0#4 ++ t.code) unusedCode,
    imm64 0#16 (0#4 ++ t.code) unusedCode]
  simp [accept_wf _ h]
theorem atom (op : AtomOp) (t : AtomTy) (sp : Space) (ord : Order) (d a b c : Code) :
    Statement (.atom op t sp ord d a b c) := fun h => of64m (fun _ _ _ _ _ _ _ => rfl)
  ((decodeL64Mem.eq_3 ..).trans (by
    have hc : op = .cas ∨ c = unusedCode := by
      have := (Bool.and_eq_true _ _ ▸ h : _ ∧ _).2
      simpa using this
    by_cases ho : op = .cas
    · simp [ho, space_code]
      exact accept_wf _ (ho ▸ h)
    · obtain rfl := hc.resolve_left ho
      simp [ho, atomOp_ne, space_code, accept_wf _ h]))
theorem prefetch (l2 : Bool) (sp : Space) (a : Code) (off : Half) : Statement (.prefetch l2 sp a off) := fun h =>
  of64m (fun _ _ _ _ _ _ _ => rfl) ((decodeL64Mem.eq_5 ..).trans (by
    simp [modM, space_code]
    rw [(prefetch_z l2).1, (prefetch_z l2).2]
    simp [accept_wf _ h]))
theorem loadKind_f3 (k : LoadKind) : LoadKind.ofF3 k.f3.toNat = some k := by cases k <;> rfl
theorem storeKind_f3 (k : StoreKind) : StoreKind.ofF3 k.f3.toNat = some k := by cases k <;> rfl
theorem brCond_f3 (k : BrCond) : BrCond.ofF3 k.f3.toNat = some k := by cases k <;> rfl
theorem amoOp_f5 (k : AmoOp) : AmoOp.ofF5 k.f5 = some k := by cases k <;> rfl
theorem amoOp_ne (k : AmoOp) : ¬k.f5 = 2#5 ∧ ¬k.f5 = 3#5 := by cases k <;> decide
theorem hartLoad (k : LoadKind) (rd rs1 : XReg) (imm : BitVec 12) : Statement (.hartLoad k rd rs1 imm) := fun h =>
  ofXI (by simp [-BitVec.reduceAppend, decodeHart, loadKind_f3, accept_wf _ h])
theorem hartAmo (op : AmoOp) (dbl aq rl : Bool) (rd rs1 rs2 : XReg) :
    Statement (.hartAmo op dbl aq rl rd rs1 rs2) := fun h => ofXR (by
  cases dbl <;>
    simp [-BitVec.reduceAppend, decodeHart, decodeAmo, amoOp_f5, amoOp_ne, accept_wf _ h])
theorem hartLr (dbl aq rl : Bool) (rd rs1 : XReg) : Statement (.hartLr dbl aq rl rd rs1) := fun h => ofXR (by
  cases dbl <;> simp [-BitVec.reduceAppend, decodeHart, decodeAmo, accept_wf _ h])
theorem hartSc (dbl aq rl : Bool) (rd rs1 rs2 : XReg) : Statement (.hartSc dbl aq rl rd rs1 rs2) := fun h => ofXR (by
  cases dbl <;> simp [-BitVec.reduceAppend, decodeHart, decodeAmo, accept_wf _ h])
theorem immS (imm : BitVec 12) : imm.extractLsb' 5 7 ++ imm.extractLsb' 0 5 = imm := by
  apply BitVec.eq_of_getLsbD_eq
  intro i hi
  simp only [BitVec.getLsbD_append, BitVec.getLsbD_extractLsb']
  split
  · simp [*]
  · rw [show 5 + (i - 5) = i by omega]; simp; omega
theorem hartStore (k : StoreKind) (rs1 rs2 : XReg) (imm : BitVec 12) : Statement (.hartStore k rs1 rs2 imm) := fun h =>
  ofXR (f7 := imm.extractLsb' 5 7) (rd := imm.extractLsb' 0 5) (by
    simp only [decodeHart, fImmS, xr_25_7, xr_7_5, xr_0_2, xr_0_7, xr_fRs1, xr_fRs2, xr_fF3, storeKind_f3, immS]
    simp [accept_wf _ h])
theorem immB (off : BitVec 13) (h : off.getLsbD 0 = false) : off.extractLsb' 12 1 ++ off.extractLsb' 11 1
    ++ off.extractLsb' 5 6 ++ off.extractLsb' 1 4 ++ 0#1 = off := by
  apply BitVec.eq_of_getLsbD_eq
  intro i hi
  simp only [BitVec.getLsbD_append, BitVec.getLsbD_extractLsb']
  split
  · rw [show i = 0 by omega, h]; rfl
  split
  · rw [show 1 + (i - 1) = i by omega]; simp; omega
  split
  · rw [show 5 + (i - 1 - 4) = i by omega]; simp; omega
  split
  · rw [show 11 + (i - 1 - 4 - 6) = i by omega]; simp; omega
  · rw [show 12 + (i - 1 - 4 - 6 - 1) = i by omega]; simp; omega
theorem immJ (off : BitVec 21) (h : off.getLsbD 0 = false) : off.extractLsb' 20 1 ++ off.extractLsb' 12 8
    ++ off.extractLsb' 11 1 ++ off.extractLsb' 1 10 ++ 0#1 = off := by
  apply BitVec.eq_of_getLsbD_eq
  intro i hi
  simp only [BitVec.getLsbD_append, BitVec.getLsbD_extractLsb']
  split
  · rw [show i = 0 by omega, h]; rfl
  split
  · rw [show 1 + (i - 1) = i by omega]; simp; omega
  split
  · rw [show 11 + (i - 1 - 10) = i by omega]; simp; omega
  split
  · rw [show 12 + (i - 1 - 10 - 1) = i by omega]; simp; omega
  · rw [show 20 + (i - 1 - 10 - 1 - 8) = i by omega]; simp; omega
theorem fImmB_word (off : BitVec 13) (rs2 rs1 : XReg) (f3 : BitVec 3) (op : BitVec 7) (h : off.getLsbD 0 = false) :
    fImmB (off.extractLsb' 12 1 ++ off.extractLsb' 5 6 ++ rs2 ++ rs1 ++ f3 ++ off.extractLsb' 1 4
      ++ off.extractLsb' 11 1 ++ op) = off := by
  unfold fImmB
  rw [xb_31_1, xb_7_1, xb_25_6, xb_8_4]; exact immB off h
theorem zBfb (rs1 : XReg) (off : BitVec 13) : Statement (.zBfb rs1 off) := fun h =>
  have h0 : off.getLsbD 0 = false := eq_of_beq h
  ofXB (by
    unfold decodeHart decodeCustom0
    simp only [fImmB_word _ _ _ _ _ h0, xb_0_2, xb_0_7, xb_fRs1, xb_fRs2, xb_fF3]
    simp [zreg, accept_wf _ h])
theorem ecall : Statement .ecall := fun _ => .inl rfl
theorem ebreak : Statement .ebreak := fun _ => .inl rfl
theorem mret : Statement .mret := fun _ => .inl rfl
theorem wfi : Statement .wfi := fun _ => .inl rfl
theorem csrWords {csr : BitVec 12} {op : CsrOp} {rd : XReg} {src : CsrSrc} {i : Instr} (h : i.wf = true)
    (hr : (match csrRow csr op src with
      | .slip => Instr.slipWrite op rd src
      | .mstat => .mstatWrite op rd src
      | .mlpc => .mlpcWrite op rd src
      | .cedone ch => .cedoneRead ch op rd src
      | .other => .csrAccess csr op rd src) = i) : DecodesTo (csrWord csr op rd src) i := by
  subst hr
  cases op <;> cases src <;>
    refine ofXI ?_ <;> simp [-BitVec.reduceAppend, decodeHart, decodeSystem, CsrOp.f3, CsrSrc.field] <;>
    (revert h; cases csrRow .. <;> intro h <;> exact accept_wf _ h)
theorem csrAccess (csr : BitVec 12) (op : CsrOp) (rd : XReg) (src : CsrSrc) : Statement (.csrAccess csr op rd src) :=
  fun h => csrWords h (by rw [show csrRow csr op src = .other from eq_of_beq h])
theorem slipWrite (op : CsrOp) (rd : XReg) (src : CsrSrc) : Statement (.slipWrite op rd src) :=
  fun h => csrWords h (by have h' : op.writes src = true := h; simp [csrRow, h'])
theorem mstatWrite (op : CsrOp) (rd : XReg) (src : CsrSrc) : Statement (.mstatWrite op rd src) :=
  fun h => csrWords h (by have h' : op.writes src = true := h; simp [csrRow, h'])
theorem mlpcWrite (op : CsrOp) (rd : XReg) (src : CsrSrc) : Statement (.mlpcWrite op rd src) :=
  fun h => csrWords h (by have h' : op.writes src = true := h; simp [csrRow, h'])
theorem cedone_csr : ∀ ch : BitVec 3, (0x199#9 ++ ch == 0x800#12) = false ∧ (0x199#9 ++ ch == 0x801#12) = false
    ∧ (0x199#9 ++ ch == 0x7C0#12) = false ∧ ((0x199#9 ++ ch).toNat / 8 == 0x199) = true
    ∧ (0x199#9 ++ ch).setWidth 3 = ch := by decide
theorem cedoneRead (ch : BitVec 3) (op : CsrOp) (rd : XReg) (src : CsrSrc) : Statement (.cedoneRead ch op rd src) :=
  fun h => csrWords h (by
    obtain ⟨h1, h2, h3, h4, h5⟩ := cedone_csr ch
    have e : csrRow (0x199#9 ++ ch) op src = .cedone ch := by
      unfold csrRow
      rw [h1, h2, h3, h4, h5]; rfl
    rw [e])

theorem short_unassigned (w : W32) (n : Nat) (d a b : Code) (h : shortAssigned n = false) :
    decodeShort w n d a b = .ok (.unassignedLaneOpcode w) := by
  unfold decodeShort
  split <;> first | rfl | cases h
theorem major_unassigned (w : W32) (n : Nat) (d a b c : Code) (m : BitVec 9) (imm : Half)
    (h : majorAssigned n = false) : decodeMajor w n d a b c m imm = .ok (.unassignedLaneOpcode w) := by
  unfold decodeMajor
  split <;> first | cases h; done | skip
  simp only [majorAssigned, Bool.or_eq_false_iff, Bool.and_eq_false_iff, decide_eq_false_iff_not, beq_eq_false_iff_ne] at h
  rw [if_neg (by simp; omega), if_neg (by simp; omega)]
/-- A first word that no entry claims is answered as it stands. -/
theorem unassigned_decodes (w w1 w2 : W32) (h' : laneUnassigned w = true) :
    decodeLane w w1 w2 = .ok (.unassignedLaneOpcode w) := by
  unfold laneUnassigned at h'
  unfold decodeLane
  by_cases h0 : w.getLsbD 0 == false
  · rw [if_pos h0] at h' ⊢
    exact short_unassigned _ _ _ _ _ (by rw [Bool.not_eq_true'] at h'; exact h')
  rw [if_neg h0] at h' ⊢
  by_cases h1 : w.getLsbD 1 == false
  · rw [if_pos h1] at h' ⊢
    exact major_unassigned _ _ _ _ _ _ _ _ (by rw [Bool.not_eq_true'] at h'; exact h')
  · rw [if_neg h1] at h' ⊢
    unfold decodeL96
    rw [if_neg (by simpa [fieldMajor] using h')]
theorem unassignedLaneOpcode (w : W32) : Statement (.unassignedLaneOpcode w) := fun h =>
  .inr ⟨.inr rfl, fun w1 w2 => unassigned_decodes w w1 w2 h⟩
theorem aluOp_funct (o : AluOp) : AluOp.ofFunct o.funct.1 o.funct.2.1 o.funct.2.2 = some o := by cases o <;> rfl
theorem xr_imm (f7 : BitVec 7) (rs2 rs1 : XReg) (f3 : BitVec 3) (rd : XReg) (op : BitVec 7) :
    fImmI (f7 ++ rs2 ++ rs1 ++ f3 ++ rd ++ op) = f7 ++ rs2 := by
  show BitVec.extractLsb' (n := 7 + 5 + 5 + 3 + 5 + 7) 20 12 _ = _
  rw [hi _ _ (by decide), hi _ _ (by decide), hi _ _ (by decide), hi _ _ (by decide)]
  exact BitVec.extractLsb'_eq_self
theorem alu33 (o : AluOp) (rd rs1 rs2 : XReg) (h : o.funct.1 = 0x33#7) :
    DecodesTo (HartOp.encode (.alu o rd rs1 rs2)) (.hartInstruction (.alu o rd rs1 rs2)) := by
  have e := aluOp_funct o
  rw [h] at e
  show DecodesTo (xr o.funct.2.2 rs2 rs1 o.funct.2.1 rd o.funct.1) _
  rw [h]
  refine ofXR ?_
  simp [-BitVec.reduceAppend, decodeHart, e]
  exact accept_wf _ rfl
theorem alu3B (o : AluOp) (rd rs1 rs2 : XReg) (h : o.funct.1 = 0x3B#7)
    (hn : ∀ rs2 : BitVec 5, UnOp.ofFunct 0x3B#7 o.funct.2.1 (o.funct.2.2 ++ rs2) = none) :
    DecodesTo (HartOp.encode (.alu o rd rs1 rs2)) (.hartInstruction (.alu o rd rs1 rs2)) := by
  have e := aluOp_funct o
  rw [h] at e
  show DecodesTo (xr o.funct.2.2 rs2 rs1 o.funct.2.1 rd o.funct.1) _
  rw [h]
  refine ofXR ?_
  simp [-BitVec.reduceAppend, decodeHart, xr_imm, hn, e]
  exact accept_wf _ rfl
theorem alu (o : AluOp) (rd rs1 rs2 : XReg) :
    DecodesTo (HartOp.encode (.alu o rd rs1 rs2)) (.hartInstruction (.alu o rd rs1 rs2)) := by
  cases o <;> first | exact alu33 _ _ _ _ rfl | exact alu3B _ _ _ _ rfl (by decide)
theorem small6 (imm : BitVec 12) (h : imm.toNat < 64) : ∃ x : BitVec 6, imm = 0#6 ++ x :=
  ⟨imm.extractLsb' 0 6, by
    apply BitVec.eq_of_toNat_eq
    rw [BitVec.toNat_append, BitVec.extractLsb'_toNat]
    simp; omega⟩
theorem small5 (imm : BitVec 12) (h : imm.toNat < 32) : ∃ x : BitVec 5, imm = 0#7 ++ x :=
  ⟨imm.extractLsb' 0 5, by
    apply BitVec.eq_of_toNat_eq
    rw [BitVec.toNat_append, BitVec.extractLsb'_toNat]
    simp; omega⟩
theorem shift6 : ∀ x : BitVec 6,
    (UnOp.ofFunct 0x13#7 1#3 (0#6 ++ x) = none ∧ UnOp.ofFunct 0x13#7 5#3 (0#6 ++ x) = none
      ∧ UnOp.ofFunct 0x13#7 5#3 (0x400#12 ||| (0#6 ++ x)) = none ∧ UnOp.ofFunct 0x13#7 5#3 (0x600#12 ||| (0#6 ++ x)) = none
      ∧ UnOp.ofFunct 0x1B#7 1#3 (0x080#12 ||| (0#6 ++ x)) = none)
    ∧ ((0#6 ++ x).extractLsb' 6 6 = 0#6 ∧ (0x400#12 ||| (0#6 ++ x)).extractLsb' 6 6 = 0x10#6
      ∧ (0x600#12 ||| (0#6 ++ x)).extractLsb' 6 6 = 0x18#6 ∧ (0x080#12 ||| (0#6 ++ x)).extractLsb' 6 6 = 2#6)
    ∧ ((0#6 ++ x).extractLsb' 0 6 = x ∧ (0x400#12 ||| (0#6 ++ x)).extractLsb' 0 6 = x
      ∧ (0x600#12 ||| (0#6 ++ x)).extractLsb' 0 6 = x ∧ (0x080#12 ||| (0#6 ++ x)).extractLsb' 0 6 = x)
    ∧ ¬(128 ||| (0#6 ++ x).toNat) >>> 5 % 128 = 0 := by decide
theorem shift5 : ∀ x : BitVec 5,
    (UnOp.ofFunct 0x1B#7 1#3 (0#7 ++ x) = none ∧ UnOp.ofFunct 0x1B#7 5#3 (0#7 ++ x) = none
      ∧ UnOp.ofFunct 0x1B#7 5#3 (0x400#12 ||| (0#7 ++ x)) = none ∧ UnOp.ofFunct 0x1B#7 5#3 (0x600#12 ||| (0#7 ++ x)) = none)
    ∧ ((0#7 ++ x).extractLsb' 5 7 = 0#7 ∧ (0x400#12 ||| (0#7 ++ x)).extractLsb' 5 7 = 0x20#7
      ∧ (0x600#12 ||| (0#7 ++ x)).extractLsb' 5 7 = 0x30#7)
    ∧ ((0#7 ++ x).extractLsb' 0 5 = x ∧ (0x400#12 ||| (0#7 ++ x)).extractLsb' 0 5 = x
      ∧ (0x600#12 ||| (0#7 ++ x)).extractLsb' 0 5 = x) := by decide
theorem plainImm (imm : BitVec 12) : UnOp.ofFunct 0x13#7 0#3 imm = none ∧ UnOp.ofFunct 0x13#7 2#3 imm = none
    ∧ UnOp.ofFunct 0x13#7 3#3 imm = none ∧ UnOp.ofFunct 0x13#7 4#3 imm = none ∧ UnOp.ofFunct 0x13#7 6#3 imm = none
    ∧ UnOp.ofFunct 0x13#7 7#3 imm = none ∧ UnOp.ofFunct 0x1B#7 0#3 imm = none := by
  simp [UnOp.ofFunct, UnOp.all, UnOp.funct]
theorem aluImm (o : AluImmOp) (rd rs1 : XReg) (imm : BitVec 12) (h : o.immOk imm = true) :
    DecodesTo (HartOp.encode (.aluImm o rd rs1 imm)) (.hartInstruction (.aluImm o rd rs1 imm)) := by
  refine ofXI ?_
  have hw := accept_wf (.hartInstruction (.aluImm o rd rs1 imm)) h
  cases o
  case addi | slti | sltiu | xori | ori | andi | addiw =>
    simp [-BitVec.reduceAppend, AluImmOp.funct, decodeHart, decodeAluImm, plainImm]
    exact hw
  case slli | srli | srai | slliuw | rori =>
    obtain ⟨x, rfl⟩ := small6 imm (of_decide_eq_true h)
    have s := shift6 x
    simp [-BitVec.reduceAppend, AluImmOp.funct, decodeHart, decodeAluImm, s]
    exact hw
  case slliw | srliw | sraiw | roriw =>
    obtain ⟨x, rfl⟩ := small5 imm (of_decide_eq_true h)
    have s := shift5 x
    simp [-BitVec.reduceAppend, AluImmOp.funct, decodeHart, decodeAluImm, s]
    exact hw
theorem hartInstruction (op : HartOp) : Statement (.hartInstruction op) := fun h => by
  cases op with
  | alu o rd rs1 rs2 => exact alu o rd rs1 rs2
  | lui rd imm => exact .inl (by simp [-BitVec.reduceAppend, decodeHart, accept_wf _ h])
  | auipc rd imm => exact .inl (by simp [-BitVec.reduceAppend, decodeHart, accept_wf _ h])
  | jal rd off =>
    have h0 : off.getLsbD 0 = false := eq_of_beq h
    refine .inl ?_
    unfold decodeHart fImmJ
    simp only [xj_31_1, xj_12_8, xj_20_1, xj_21_10, xj_0_2, xj_0_7, xj_fRd, immJ off h0]
    simp [accept_wf _ h]
  | jalr rd rs1 imm => exact ofXI (by simp [-BitVec.reduceAppend, decodeHart, accept_wf _ h])
  | branch c rs1 rs2 off =>
    have h0 : off.getLsbD 0 = false := eq_of_beq h
    refine ofXB ?_
    unfold decodeHart
    simp only [fImmB_word _ _ _ _ _ h0, xb_0_2, xb_0_7, xb_fRs1, xb_fRs2, xb_fF3, brCond_f3]
    simp [accept_wf _ h]
  | aluImm o rd rs1 imm => exact aluImm o rd rs1 imm h
  | unary o rd rs1 => 
    cases o <;> refine ofXI ?_ <;>
    simp [-BitVec.reduceAppend, decodeHart, decodeAluImm, UnOp.funct] <;> rfl

theorem nop : Statement (.nop) := fun h => of32 fun w => (decodeShort.eq_1 ..).trans rfl
theorem addI32 (d a b : Code) : Statement (.addI32 d a b) := fun h => of32 fun w => (decodeShort.eq_2 ..).trans rfl
theorem subI32 (d a b : Code) : Statement (.subI32 d a b) := fun h => of32 fun w => (decodeShort.eq_3 ..).trans rfl
theorem mulLoI32 (d a b : Code) : Statement (.mulLoI32 d a b) :=
  fun h => of32 fun w => (decodeShort.eq_4 ..).trans rfl
theorem andL32 (d a b : Code) : Statement (.andL32 d a b) := fun h => of32 fun w => (decodeShort.eq_5 ..).trans rfl
theorem orL32 (d a b : Code) : Statement (.orL32 d a b) := fun h => of32 fun w => (decodeShort.eq_6 ..).trans rfl
theorem xorL32 (d a b : Code) : Statement (.xorL32 d a b) := fun h => of32 fun w => (decodeShort.eq_7 ..).trans rfl
theorem andnL32 (d a b : Code) : Statement (.andnL32 d a b) := fun h => of32 fun w => (decodeShort.eq_8 ..).trans rfl
theorem shlL32 (d a b : Code) : Statement (.shlL32 d a b) := fun h => of32 fun w => (decodeShort.eq_9 ..).trans rfl
theorem shrL32 (d a b : Code) : Statement (.shrL32 d a b) := fun h => of32 fun w => (decodeShort.eq_10 ..).trans rfl
theorem sraL32 (d a b : Code) : Statement (.sraL32 d a b) := fun h => of32 fun w => (decodeShort.eq_11 ..).trans rfl
theorem rotlL32 (d a b : Code) : Statement (.rotlL32 d a b) := fun h => of32 fun w => (decodeShort.eq_12 ..).trans rfl
theorem minI32 (d a b : Code) : Statement (.minI32 d a b) := fun h => of32 fun w => (decodeShort.eq_13 ..).trans rfl
theorem minN32 (d a b : Code) : Statement (.minN32 d a b) := fun h => of32 fun w => (decodeShort.eq_14 ..).trans rfl
theorem maxI32 (d a b : Code) : Statement (.maxI32 d a b) := fun h => of32 fun w => (decodeShort.eq_15 ..).trans rfl
theorem maxN32 (d a b : Code) : Statement (.maxN32 d a b) := fun h => of32 fun w => (decodeShort.eq_16 ..).trans rfl
theorem mov (d a : Code) : Statement (.mov d a) := fun h => of32 fun w => (decodeShort.eq_17 ..).trans rfl
theorem not (d a : Code) : Statement (.not d a) := fun h => of32 fun w => (decodeShort.eq_18 ..).trans rfl
theorem negI32 (d a : Code) : Statement (.negI32 d a) := fun h => of32 fun w => (decodeShort.eq_19 ..).trans rfl
theorem absI32 (d a : Code) : Statement (.absI32 d a) := fun h => of32 fun w => (decodeShort.eq_20 ..).trans rfl
theorem popc (d a : Code) : Statement (.popc d a) := fun h => of32 fun w => (decodeShort.eq_21 ..).trans rfl
theorem clz (d a : Code) : Statement (.clz d a) := fun h => of32 fun w => (decodeShort.eq_22 ..).trans rfl
theorem ctz (d a : Code) : Statement (.ctz d a) := fun h => of32 fun w => (decodeShort.eq_23 ..).trans rfl
theorem brev (d a : Code) : Statement (.brev d a) := fun h => of32 fun w => (decodeShort.eq_24 ..).trans rfl
theorem fsetm (a : Code) : Statement (.fsetm a) := fun h => of32 fun w => (decodeShort.eq_28 ..).trans rfl
theorem fgetm (d : Code) : Statement (.fgetm d) := fun h => of32 fun w => (decodeShort.eq_29 ..).trans rfl
theorem mcfg (a : Code) : Statement (.mcfg a) := fun h => of32 fun w => (decodeShort.eq_30 ..).trans rfl
theorem mand (d a b : Code) : Statement (.mand d a b) := fun h => of32 fun w => (decodeShort.eq_31 ..).trans rfl
theorem mor (d a b : Code) : Statement (.mor d a b) := fun h => of32 fun w => (decodeShort.eq_32 ..).trans rfl
theorem mxor (d a b : Code) : Statement (.mxor d a b) := fun h => of32 fun w => (decodeShort.eq_33 ..).trans rfl
theorem mnot (d a : Code) : Statement (.mnot d a) := fun h => of32 fun w => (decodeShort.eq_34 ..).trans rfl
theorem mpopc (d a : Code) : Statement (.mpopc d a) := fun h => of32 fun w => (decodeShort.eq_35 ..).trans rfl
theorem mfirst (d a : Code) : Statement (.mfirst d a) := fun h => of32 fun w => (decodeShort.eq_36 ..).trans rfl
theorem mpush (a : Code) : Statement (.mpush a) := fun h => of32 fun w => (decodeShort.eq_37 ..).trans rfl
theorem mpop (d : Code) : Statement (.mpop d) := fun h => of32 fun w => (decodeShort.eq_38 ..).trans rfl
theorem mset (d a : Code) : Statement (.mset d a) := fun h => of32 fun w => (decodeShort.eq_39 ..).trans rfl
theorem shfl (d a b : Code) : Statement (.shfl d a b) := fun h => of32 fun w => (decodeShort.eq_40 ..).trans rfl
theorem compress (d a : Code) : Statement (.compress d a) := fun h => of32 fun w => (decodeShort.eq_41 ..).trans rfl
theorem expand (d a : Code) : Statement (.expand d a) := fun h => of32 fun w => (decodeShort.eq_42 ..).trans rfl
theorem qswapH (d a : Code) : Statement (.qswapH d a) := fun h => of32 fun w => (decodeShort.eq_43 ..).trans rfl
theorem qswapV (d a : Code) : Statement (.qswapV d a) := fun h => of32 fun w => (decodeShort.eq_44 ..).trans rfl
theorem qswapD (d a : Code) : Statement (.qswapD d a) := fun h => of32 fun w => (decodeShort.eq_45 ..).trans rfl
theorem fbpush (a : Code) : Statement (.fbpush a) := fun h => of32 fun w => (decodeShort.eq_46 ..).trans rfl
theorem fbany (a : Code) : Statement (.fbany a) := fun h => of32 fun w => (decodeShort.eq_47 ..).trans rfl
theorem fball (a : Code) : Statement (.fball a) := fun h => of32 fun w => (decodeShort.eq_48 ..).trans rfl
theorem fbcnt (a : Code) : Statement (.fbcnt a) := fun h => of32 fun w => (decodeShort.eq_49 ..).trans rfl
theorem join : Statement (.join) := fun h => of32 fun w => (decodeShort.eq_50 ..).trans rfl
theorem cret : Statement (.cret) := fun h => of32 fun w => (decodeShort.eq_51 ..).trans rfl
theorem cnext : Statement (.cnext) := fun h => of32 fun w => (decodeShort.eq_52 ..).trans rfl
theorem cend : Statement (.cend) := fun h => of32 fun w => (decodeShort.eq_53 ..).trans rfl
theorem brk : Statement (.brk) := fun h => of32 fun w => (decodeShort.eq_54 ..).trans rfl
theorem mfence : Statement (.mfence) := fun h => of32 fun w => (decodeShort.eq_55 ..).trans rfl
theorem mpoll (d : Code) : Statement (.mpoll d) := fun h => of32 fun w => (decodeShort.eq_56 ..).trans rfl
theorem mdrain : Statement (.mdrain) := fun h => of32 fun w => (decodeShort.eq_57 ..).trans rfl
theorem bbar : Statement (.bbar) := fun h => of32 fun w => (decodeShort.eq_58 ..).trans rfl
theorem cbarArv : Statement (.cbarArv) := fun h => of32 fun w => (decodeShort.eq_59 ..).trans rfl
theorem cbarWt : Statement (.cbarWt) := fun h => of32 fun w => (decodeShort.eq_60 ..).trans rfl
theorem add (t : Ty) (sat : Bool) (d a b : Code) : Statement (.add t sat d a b) := fun h => of64 fun w0 =>
  (decodeMajor.eq_1 ..).trans (by simp [accept_wf _ h])
theorem addImm (t : Ty) (sat : Bool) (d a : Code) (imm : Half) : Statement (.addImm t sat d a imm) :=
  fun h => of64 fun w0 =>
  (decodeMajor.eq_2 ..).trans (by simp [accept_wf _ h])
theorem sub (t : Ty) (sat : Bool) (d a b : Code) : Statement (.sub t sat d a b) := fun h => of64 fun w0 =>
  (decodeMajor.eq_3 ..).trans (by simp [accept_wf _ h])
theorem subImm (t : Ty) (sat : Bool) (d a : Code) (imm : Half) : Statement (.subImm t sat d a imm) :=
  fun h => of64 fun w0 =>
  (decodeMajor.eq_4 ..).trans (by simp [accept_wf _ h])
theorem mulLo (t : Ty) (sat : Bool) (d a b : Code) : Statement (.mulLo t sat d a b) := fun h => of64 fun w0 =>
  (decodeMajor.eq_5 ..).trans (by simp [accept_wf _ h])
theorem mulLoImm (t : Ty) (sat : Bool) (d a : Code) (imm : Half) : Statement (.mulLoImm t sat d a imm) :=
  fun h => of64 fun w0 =>
  (decodeMajor.eq_6 ..).trans (by simp [accept_wf _ h])
theorem mulHi (t : Ty) (d a b : Code) : Statement (.mulHi t d a b) := fun h => of64 fun w0 =>
  (decodeMajor.eq_7 ..).trans (by simp [accept_wf _ h])
theorem mulHiImm (t : Ty) (d a : Code) (imm : Half) : Statement (.mulHiImm t d a imm) := fun h => of64 fun w0 =>
  (decodeMajor.eq_8 ..).trans (by simp [accept_wf _ h])
theorem mad (t : Ty) (sat : Bool) (d a b c : Code) : Statement (.mad t sat d a b c) := fun h => of64 fun w0 =>
  (decodeMajor.eq_9 ..).trans (by simp [accept_wf _ h])
theorem madImm (t : Ty) (sat : Bool) (d a c : Code) (imm : Half) : Statement (.madImm t sat d a c imm) :=
  fun h => of64 fun w0 =>
  (decodeMajor.eq_10 ..).trans (by simp [accept_wf _ h])
theorem madWide (t : Ty) (d a b c : Code) : Statement (.madWide t d a b c) := fun h => of64 fun w0 =>
  (decodeMajor.eq_11 ..).trans (by simp [accept_wf _ h])
theorem div (t : Ty) (d a b : Code) : Statement (.div t d a b) := fun h => of64 fun w0 =>
  (decodeMajor.eq_12 ..).trans (by simp [accept_wf _ h])
theorem divImm (t : Ty) (d a : Code) (imm : Half) : Statement (.divImm t d a imm) := fun h => of64 fun w0 =>
  (decodeMajor.eq_13 ..).trans (by simp [accept_wf _ h])
theorem rem (t : Ty) (d a b : Code) : Statement (.rem t d a b) := fun h => of64 fun w0 =>
  (decodeMajor.eq_14 ..).trans (by simp [accept_wf _ h])
theorem remImm (t : Ty) (d a : Code) (imm : Half) : Statement (.remImm t d a imm) := fun h => of64 fun w0 =>
  (decodeMajor.eq_15 ..).trans (by simp [accept_wf _ h])
theorem min (t : Ty) (d a b : Code) : Statement (.min t d a b) := fun h => of64 fun w0 =>
  (decodeMajor.eq_16 ..).trans (by simp [accept_wf _ h])
theorem minImm (t : Ty) (d a : Code) (imm : Half) : Statement (.minImm t d a imm) := fun h => of64 fun w0 =>
  (decodeMajor.eq_17 ..).trans (by simp [accept_wf _ h])
theorem max (t : Ty) (d a b : Code) : Statement (.max t d a b) := fun h => of64 fun w0 =>
  (decodeMajor.eq_18 ..).trans (by simp [accept_wf _ h])
theorem maxImm (t : Ty) (d a : Code) (imm : Half) : Statement (.maxImm t d a imm) := fun h => of64 fun w0 =>
  (decodeMajor.eq_19 ..).trans (by simp [accept_wf _ h])
theorem and (t : Ty) (d a b : Code) : Statement (.and t d a b) := fun h => of64 fun w0 =>
  (decodeMajor.eq_20 ..).trans (by simp [accept_wf _ h])
theorem andImm (t : Ty) (d a : Code) (imm : Half) : Statement (.andImm t d a imm) := fun h => of64 fun w0 =>
  (decodeMajor.eq_21 ..).trans (by simp [accept_wf _ h])
theorem or (t : Ty) (d a b : Code) : Statement (.or t d a b) := fun h => of64 fun w0 =>
  (decodeMajor.eq_22 ..).trans (by simp [accept_wf _ h])
theorem orImm (t : Ty) (d a : Code) (imm : Half) : Statement (.orImm t d a imm) := fun h => of64 fun w0 =>
  (decodeMajor.eq_23 ..).trans (by simp [accept_wf _ h])
theorem xor (t : Ty) (d a b : Code) : Statement (.xor t d a b) := fun h => of64 fun w0 =>
  (decodeMajor.eq_24 ..).trans (by simp [accept_wf _ h])
theorem xorImm (t : Ty) (d a : Code) (imm : Half) : Statement (.xorImm t d a imm) := fun h => of64 fun w0 =>
  (decodeMajor.eq_25 ..).trans (by simp [accept_wf _ h])
theorem andn (t : Ty) (d a b : Code) : Statement (.andn t d a b) := fun h => of64 fun w0 =>
  (decodeMajor.eq_26 ..).trans (by simp [accept_wf _ h])
theorem andnImm (t : Ty) (d a : Code) (imm : Half) : Statement (.andnImm t d a imm) := fun h => of64 fun w0 =>
  (decodeMajor.eq_27 ..).trans (by simp [accept_wf _ h])
theorem shl (t : Ty) (d a b : Code) : Statement (.shl t d a b) := fun h => of64 fun w0 =>
  (decodeMajor.eq_28 ..).trans (by simp [accept_wf _ h])
theorem shlImm (t : Ty) (d a : Code) (sh : BitVec 6) : Statement (.shlImm t d a sh) := fun h => of64 fun w0 =>
  (decodeMajor.eq_29 ..).trans (by simp [accept_wf _ h])
theorem shr (t : Ty) (d a b : Code) : Statement (.shr t d a b) := fun h => of64 fun w0 =>
  (decodeMajor.eq_30 ..).trans (by simp [accept_wf _ h])
theorem shrImm (t : Ty) (d a : Code) (sh : BitVec 6) : Statement (.shrImm t d a sh) := fun h => of64 fun w0 =>
  (decodeMajor.eq_31 ..).trans (by simp [accept_wf _ h])
theorem sra (t : Ty) (d a b : Code) : Statement (.sra t d a b) := fun h => of64 fun w0 =>
  (decodeMajor.eq_32 ..).trans (by simp [accept_wf _ h])
theorem sraImm (t : Ty) (d a : Code) (sh : BitVec 6) : Statement (.sraImm t d a sh) := fun h => of64 fun w0 =>
  (decodeMajor.eq_33 ..).trans (by simp [accept_wf _ h])
theorem rotl (t : Ty) (d a b : Code) : Statement (.rotl t d a b) := fun h => of64 fun w0 =>
  (decodeMajor.eq_34 ..).trans (by simp [accept_wf _ h])
theorem rotlImm (t : Ty) (d a : Code) (sh : BitVec 6) : Statement (.rotlImm t d a sh) := fun h => of64 fun w0 =>
  (decodeMajor.eq_35 ..).trans (by simp [accept_wf _ h])
theorem addc (t : Ty) (d a b c : Code) : Statement (.addc t d a b c) := fun h => of64 fun w0 =>
  (decodeMajor.eq_36 ..).trans (by simp [accept_wf _ h])
theorem subb (t : Ty) (d a b c : Code) : Statement (.subb t d a b c) := fun h => of64 fun w0 =>
  (decodeMajor.eq_37 ..).trans (by simp [accept_wf _ h])
theorem bfx (t : Ty) (d a b c : Code) : Statement (.bfx t d a b c) := fun h => of64 fun w0 =>
  (decodeMajor.eq_38 ..).trans (by simp [accept_wf _ h])
theorem bfxImm (t : Ty) (d a : Code) (pos len : BitVec 6) : Statement (.bfxImm t d a pos len) :=
  fun h => of64 fun w0 =>
  (decodeMajor.eq_39 ..).trans (by simp [accept_wf _ h])
theorem bfi (t : Ty) (d a b c : Code) : Statement (.bfi t d a b c) := fun h => of64 fun w0 =>
  (decodeMajor.eq_40 ..).trans (by simp [accept_wf _ h])
theorem bfiImm (t : Ty) (d a : Code) (pos len : BitVec 6) : Statement (.bfiImm t d a pos len) :=
  fun h => of64 fun w0 =>
  (decodeMajor.eq_41 ..).trans (by simp [accept_wf _ h])
theorem cmp (k : Cond) (t : Ty) (d a b : Code) : Statement (.cmp k t d a b) := fun h => of64 fun w0 =>
  (decodeMajor.eq_42 ..).trans (by simp [accept_wf _ h])
theorem cmpImm (k : Cond) (t : Ty) (d a : Code) (imm : Half) : Statement (.cmpImm k t d a imm) :=
  fun h => of64 fun w0 =>
  (decodeMajor.eq_43 ..).trans (by simp [accept_wf _ h])
theorem sel (t : Ty) (d a b c : Code) : Statement (.sel t d a b c) := fun h => of64 fun w0 =>
  (decodeMajor.eq_44 ..).trans (by simp [accept_wf _ h])
theorem movi (t : Ty) (d : Code) (imm : Half) : Statement (.movi t d imm) := fun h => of64 fun w0 =>
  (decodeMajor.eq_45 ..).trans (by simp [accept_wf _ h])
theorem fadd (t : Ty) (rm : Rm) (d a b : Code) : Statement (.fadd t rm d a b) := fun h => of64 fun w0 =>
  (decodeMajor.eq_46 ..).trans (by simp [accept_wf _ h])
theorem fsub (t : Ty) (rm : Rm) (d a b : Code) : Statement (.fsub t rm d a b) := fun h => of64 fun w0 =>
  (decodeMajor.eq_47 ..).trans (by simp [accept_wf _ h])
theorem fmul (t : Ty) (rm : Rm) (d a b : Code) : Statement (.fmul t rm d a b) := fun h => of64 fun w0 =>
  (decodeMajor.eq_48 ..).trans (by simp [accept_wf _ h])
theorem ffma (t : Ty) (rm : Rm) (d a b c : Code) : Statement (.ffma t rm d a b c) := fun h => of64 fun w0 =>
  (decodeMajor.eq_49 ..).trans (by simp [accept_wf _ h])
theorem fmin (t : Ty) (d a b : Code) : Statement (.fmin t d a b) := fun h => of64 fun w0 =>
  (decodeMajor.eq_50 ..).trans (by simp [accept_wf _ h])
theorem fmax (t : Ty) (d a b : Code) : Statement (.fmax t d a b) := fun h => of64 fun w0 =>
  (decodeMajor.eq_51 ..).trans (by simp [accept_wf _ h])
theorem fminnum (t : Ty) (d a b : Code) : Statement (.fminnum t d a b) := fun h => of64 fun w0 =>
  (decodeMajor.eq_52 ..).trans (by simp [accept_wf _ h])
theorem fmaxnum (t : Ty) (d a b : Code) : Statement (.fmaxnum t d a b) := fun h => of64 fun w0 =>
  (decodeMajor.eq_53 ..).trans (by simp [accept_wf _ h])
theorem fmaxabs (t : Ty) (d a b : Code) : Statement (.fmaxabs t d a b) := fun h => of64 fun w0 =>
  (decodeMajor.eq_69 ..).trans (by simp [accept_wf _ h])
theorem fcopysign (t : Ty) (d a b : Code) : Statement (.fcopysign t d a b) := fun h => of64 fun w0 =>
  (decodeMajor.eq_70 ..).trans (by simp [accept_wf _ h])
theorem fdiv (t : Ty) (rm : Rm) (d a b : Code) : Statement (.fdiv t rm d a b) := fun h => of64 fun w0 =>
  (decodeMajor.eq_59 ..).trans (by simp [accept_wf _ h])
theorem fsqrt (t : Ty) (rm : Rm) (d a : Code) : Statement (.fsqrt t rm d a) := fun h => of64 fun w0 =>
  (decodeMajor.eq_60 ..).trans (by simp [accept_wf _ h])
theorem fscale (t : Ty) (rm : Rm) (d a b : Code) : Statement (.fscale t rm d a b) := fun h => of64 fun w0 =>
  (decodeMajor.eq_57 ..).trans (by simp [accept_wf _ h])
theorem frnd (t : Ty) (rm : Rm) (d a : Code) : Statement (.frnd t rm d a) := fun h => of64 fun w0 =>
  (decodeMajor.eq_58 ..).trans (by simp [accept_wf _ h])
theorem fcmp (k : FCond) (t : Ty) (d a b : Code) : Statement (.fcmp k t d a b) := fun h => of64 fun w0 =>
  (decodeMajor.eq_54 ..).trans (by simp [accept_wf _ h])
theorem fclass (t : Ty) (d a : Code) : Statement (.fclass t d a) := fun h => of64 fun w0 =>
  (decodeMajor.eq_55 ..).trans (by simp [accept_wf _ h])
theorem fsel (t : Ty) (d a b c : Code) : Statement (.fsel t d a b c) := fun h => of64 fun w0 =>
  (decodeMajor.eq_56 ..).trans (by simp [accept_wf _ h])
theorem frcp (d a : Code) : Statement (.frcp d a) := fun h => of64 fun w0 =>
  (decodeMajor.eq_61 ..).trans (by simp [accept_wf _ h])
theorem frsq (d a : Code) : Statement (.frsq d a) := fun h => of64 fun w0 =>
  (decodeMajor.eq_62 ..).trans (by simp [accept_wf _ h])
theorem fexp2 (d a : Code) : Statement (.fexp2 d a) := fun h => of64 fun w0 =>
  (decodeMajor.eq_63 ..).trans (by simp [accept_wf _ h])
theorem flog2 (d a : Code) : Statement (.flog2 d a) := fun h => of64 fun w0 =>
  (decodeMajor.eq_64 ..).trans (by simp [accept_wf _ h])
theorem fsin (d a : Code) : Statement (.fsin d a) := fun h => of64 fun w0 =>
  (decodeMajor.eq_65 ..).trans (by simp [accept_wf _ h])
theorem fcos (d a : Code) : Statement (.fcos d a) := fun h => of64 fun w0 =>
  (decodeMajor.eq_66 ..).trans (by simp [accept_wf _ h])
theorem fdot2 (t : Ty) (rm : Rm) (d a b c : Code) : Statement (.fdot2 t rm d a b c) := fun h => of64 fun w0 =>
  (decodeMajor.eq_67 ..).trans (by simp [accept_wf _ h])
theorem cvt (tgt src : Ty) (rm : Rm) (sat : Bool) (d a : Code) (e : Half) : Statement (.cvt tgt src rm sat d a e) :=
  fun h => of64 fun w0 =>
  (decodeMajor.eq_68 ..).trans (by simp [accept_wf _ h])
theorem bcast (d a b : Code) : Statement (.bcast d a b) := fun h => of64 fun w0 =>
  (decodeMajor.eq_71 ..).trans (by simp [accept_wf _ h])
theorem bcastImm (d a : Code) (n : BitVec 6) : Statement (.bcastImm d a n) := fun h => of64 fun w0 =>
  (decodeMajor.eq_72 ..).trans (by simp [accept_wf _ h])
theorem slideup (d a b : Code) : Statement (.slideup d a b) := fun h => of64 fun w0 =>
  (decodeMajor.eq_73 ..).trans (by simp [accept_wf _ h])
theorem slideupImm (d a : Code) (n : BitVec 6) : Statement (.slideupImm d a n) := fun h => of64 fun w0 =>
  (decodeMajor.eq_74 ..).trans (by simp [accept_wf _ h])
theorem slidedn (d a b : Code) : Statement (.slidedn d a b) := fun h => of64 fun w0 =>
  (decodeMajor.eq_75 ..).trans (by simp [accept_wf _ h])
theorem slidednImm (d a : Code) (n : BitVec 6) : Statement (.slidednImm d a n) := fun h => of64 fun w0 =>
  (decodeMajor.eq_76 ..).trans (by simp [accept_wf _ h])
theorem qbcast (d a : Code) (p : BitVec 2) : Statement (.qbcast d a p) := fun h => of64 fun w0 =>
  (decodeMajor.eq_77 ..).trans (by simp [accept_wf _ h])
theorem gred (op : RedOp) (t : Ty) (a : Code) : Statement (.gred op t a) := fun h => of64 fun w0 =>
  (decodeMajor.eq_78 ..).trans (by simp [accept_wf _ h])
theorem gscan (t : Ty) (a : Code) : Statement (.gscan t a) := fun h => of64 fun w0 =>
  (decodeMajor.eq_79 ..).trans (by simp [accept_wf _ h])
theorem ld (sp : Space) (z : Size) (sext : Bool) (d a : Code) (off : Half) : Statement (.ld sp z sext d a off) :=
  fun h => of64m (fun _ _ _ _ _ _ _ => rfl)
  ((decodeL64Mem.eq_1 ..).trans (by simp [modM, space_code, scope_ne, accept_wf _ h]))
theorem ldAcq (scope : Scope) (sp : Space) (z : Size) (d a : Code) (off : Half) : Statement (.ldAcq scope sp z d a off) :=
  fun h => of64m (fun _ _ _ _ _ _ _ => rfl)
  ((decodeL64Mem.eq_1 ..).trans (by simp [modM, space_code, scope_ne, accept_wf _ h]))
theorem st (sp : Space) (z : Size) (a b : Code) (off : Half) : Statement (.st sp z a b off) :=
  fun h => of64m (fun _ _ _ _ _ _ _ => rfl)
  ((decodeL64Mem.eq_2 ..).trans (by simp [modM, space_code, scope_ne, accept_wf _ h]))
theorem stRel (scope : Scope) (sp : Space) (z : Size) (a b : Code) (off : Half) : Statement (.stRel scope sp z a b off) :=
  fun h => of64m (fun _ _ _ _ _ _ _ => rfl)
  ((decodeL64Mem.eq_2 ..).trans (by simp [modM, space_code, scope_ne, accept_wf _ h]))
theorem atomRadd (sp : Space) (ord : Order) (d a b c : Code) : Statement (.atomRadd sp ord d a b c) :=
  fun h => of64m (fun _ _ _ _ _ _ _ => rfl)
  ((decodeL64Mem.eq_3 ..).trans (by simp [modM, space_code, scope_ne, accept_wf _ h]))
theorem fence (k : FenceKind) (scope : Scope) : Statement (.fence k scope) :=
  fun h => of64m (fun _ _ _ _ _ _ _ => rfl)
  ((decodeL64Mem.eq_4 ..).trans (by simp [modM, space_code, scope_ne, accept_wf _ h]))
theorem l1inv (scope : Scope) : Statement (.l1inv scope) := fun h => of64m (fun _ _ _ _ _ _ _ => rfl)
  ((decodeL64Mem.eq_6 ..).trans (by simp [modM, space_code, scope_ne, accept_wf _ h]))
theorem mspill (sp : Space) (a : Code) (off : Half) : Statement (.mspill sp a off) :=
  fun h => of64m (fun _ _ _ _ _ _ _ => rfl)
  ((decodeL64Mem.eq_7 ..).trans (by simp [modM, space_code, scope_ne, accept_wf _ h]))
theorem mfill (sp : Space) (a : Code) (off : Half) : Statement (.mfill sp a off) :=
  fun h => of64m (fun _ _ _ _ _ _ _ => rfl)
  (Eq.trans (b := unused3 _ _ _ (zeroBits _ _)) rfl (by simp [modM, space_code, accept_wf _ h]))
theorem cbr (off : Half) : Statement (.cbr off) := fun h => of64 fun w0 =>
  (decodeMajor.eq_80 ..).trans (by simp [accept_wf _ h])
theorem cjmp (off : Half) : Statement (.cjmp off) := fun h => of64 fun w0 =>
  (decodeMajor.eq_81 ..).trans (by simp [accept_wf _ h])
theorem ccall (off : Half) : Statement (.ccall off) := fun h => of64 fun w0 =>
  (decodeMajor.eq_82 ..).trans (by simp [accept_wf _ h])
theorem cloop (off : Half) : Statement (.cloop off) := fun h => of64 fun w0 =>
  (decodeMajor.eq_83 ..).trans (by simp [accept_wf _ h])
theorem trap (code : Half) : Statement (.trap code) := fun h => of64 fun w0 =>
  (decodeMajor.eq_84 ..).trans (by simp [accept_wf _ h])
theorem rsend (a : Code) (ch : BitVec 4) : Statement (.rsend a ch) := fun h => of64 fun w0 =>
  (decodeMajor.eq_85 ..).trans (by simp [accept_wf _ h])
theorem rrecv (d : Code) (ch : BitVec 4) : Statement (.rrecv d ch) := fun h => of64 fun w0 =>
  (decodeMajor.eq_86 ..).trans (by simp [accept_wf _ h])
theorem mma (scl asrc : Bool) (a : Code) (pitch : Half) : Statement (.mma scl asrc a pitch) :=
  fun h => of64x (fun _ _ _ _ _ _ _ => rfl)
  ((decodeL64Matrix.eq_1 ..).trans (by simp [accept_wf _ h]))
theorem mmaSp (scl asrc : Bool) (a : Code) (pitch : Half) : Statement (.mmaSp scl asrc a pitch) :=
  fun h => of64x (fun _ _ _ _ _ _ _ => rfl)
  ((decodeL64Matrix.eq_2 ..).trans (by simp [accept_wf _ h]))
theorem msc (a : Code) : Statement (.msc a) := fun h => of64x (fun _ _ _ _ _ _ _ => rfl)
  ((decodeL64Matrix.eq_3 ..).trans (by simp [accept_wf _ h]))
theorem mlut (tb : BitVec 5) : Statement (.mlut tb) := fun h => of64x (fun _ _ _ _ _ _ _ => rfl)
  ((decodeL64Matrix.eq_4 ..).trans (by simp [accept_wf _ h]))
theorem tbldSub (pm asrc : Bool) (tb : BitVec 5) (d a : Code) : Statement (.tbldSub pm asrc tb d a) :=
  fun h => of64x (fun _ _ _ _ _ _ _ => rfl)
  ((decodeL64Matrix.eq_5 ..).trans (by simp [accept_wf _ h]))
theorem tbldProd (asrc : Bool) (tb cb : BitVec 5) (d a : Code) : Statement (.tbldProd asrc tb cb d a) :=
  fun h => of64x (fun _ _ _ _ _ _ _ => rfl)
  ((decodeL64Matrix.eq_6 ..).trans (by simp [accept_wf _ h]))
theorem cbld (tb : BitVec 5) (d a : Code) (scale : Byte) (lenm1 : BitVec 4) : Statement (.cbld tb d a scale lenm1) :=
  fun h => of64x (fun _ _ _ _ _ _ _ => rfl)
  ((decodeL64Matrix.eq_7 ..).trans (by simp [accept_wf _ h]))
theorem tbspill (tb : BitVec 5) (a : Code) : Statement (.tbspill tb a) := fun h => of64x (fun _ _ _ _ _ _ _ => rfl)
  ((decodeL64Matrix.eq_8 ..).trans (by simp [accept_wf _ h]))
theorem tbfill (tb : BitVec 5) (a : Code) : Statement (.tbfill tb a) := fun h => of64x (fun _ _ _ _ _ _ _ => rfl)
  ((decodeL64Matrix.eq_9 ..).trans (by simp [accept_wf _ h]))
theorem tbinv (tb : BitVec 5) : Statement (.tbinv tb) := fun h => of64x (fun _ _ _ _ _ _ _ => rfl)
  ((decodeL64Matrix.eq_10 ..).trans (by simp [accept_wf _ h]))
theorem tbstat (tb : BitVec 5) (d : Code) : Statement (.tbstat tb d) := fun h => of64x (fun _ _ _ _ _ _ _ => rfl)
  ((decodeL64Matrix.eq_11 ..).trans (by simp [accept_wf _ h]))
theorem tsld (d a : Code) (nm1 : BitVec 7) (pitch : BitVec 9) : Statement (.tsld d a nm1 pitch) :=
  fun h => of64x (fun _ _ _ _ _ _ _ => rfl)
  ((decodeL64Matrix.eq_12 ..).trans (by simp [accept_wf _ h]))
theorem tsst (a b : Code) (nm1 : BitVec 7) (pitch : BitVec 9) : Statement (.tsst a b nm1 pitch) :=
  fun h => of64x (fun _ _ _ _ _ _ _ => rfl)
  ((decodeL64Matrix.eq_13 ..).trans (by simp [accept_wf _ h]))
theorem tszero : Statement (.tszero) := fun h => of64x (fun _ _ _ _ _ _ _ => rfl)
  ((decodeL64Matrix.eq_14 ..).trans (by simp [accept_wf _ h]))
theorem tscvt (d : Code) (tgt : BitVec 5) : Statement (.tscvt d tgt) := fun h => of64x (fun _ _ _ _ _ _ _ => rfl)
  ((decodeL64Matrix.eq_15 ..).trans (by simp [accept_wf _ h]))
theorem mwait (n : Byte) : Statement (.mwait n) := fun h => of64x (fun _ _ _ _ _ _ _ => rfl)
  (Eq.trans (b := unused3 _ _ _ (unused1 _ (zeroBits _ _))) rfl (by simp [accept_wf _ h]))
theorem zLdq (t : LdqTy) (q : BitVec 2) (rs1 rs2 : XReg) : Statement (.zLdq t q rs1 rs2) := fun h => ofXR (by
  simp [-BitVec.reduceAppend, decodeHart, decodeCustom0, zreg, accept_wf _ h])
theorem zLdqNf (t : LdqTy) (q : BitVec 2) (rs1 rs2 : XReg) : Statement (.zLdqNf t q rs1 rs2) := fun h => ofXR (by
  simp [-BitVec.reduceAppend, decodeHart, decodeCustom0, zreg, accept_wf _ h])
theorem zLdqt (q : BitVec 2) (rs1 rs2 : XReg) : Statement (.zLdqt q rs1 rs2) := fun h => ofXR (by
  simp [-BitVec.reduceAppend, decodeHart, decodeCustom0, zreg, accept_wf _ h])
theorem zLdqtNf (q : BitVec 2) (rs1 rs2 : XReg) : Statement (.zLdqtNf q rs1 rs2) := fun h => ofXR (by
  simp [-BitVec.reduceAppend, decodeHart, decodeCustom0, zreg, accept_wf _ h])
theorem zStq (t : StqTy) (rs1 rs2 : XReg) : Statement (.zStq t rs1 rs2) := fun h => ofXR (by
  simp [-BitVec.reduceAppend, decodeHart, decodeCustom0, zreg, accept_wf _ h])
theorem zStqt (rs1 rs2 : XReg) : Statement (.zStqt rs1 rs2) := fun h => ofXR (by
  simp [-BitVec.reduceAppend, decodeHart, decodeCustom0, zreg, accept_wf _ h])
theorem zScq (rs1 : XReg) : Statement (.zScq rs1) := fun h => ofXR (by
  simp [-BitVec.reduceAppend, decodeHart, decodeCustom0, zreg, accept_wf _ h])
theorem zCtok (rs1 : XReg) : Statement (.zCtok rs1) := fun h => ofXR (by
  simp [-BitVec.reduceAppend, decodeHart, decodeCustom0, zreg, accept_wf _ h])
theorem zFbpop (rd : XReg) : Statement (.zFbpop rd) := fun h => ofXR (by
  simp [-BitVec.reduceAppend, decodeHart, decodeCustom0, zreg, accept_wf _ h])
theorem zJoin : Statement (.zJoin) := fun h => ofXR (by
  simp [-BitVec.reduceAppend, decodeHart, decodeCustom0, zreg, accept_wf _ h])
theorem zQdrop (q : BitVec 2) (n : BitVec 4) : Statement (.zQdrop q n) := fun h => ofXI (by
  simp [-BitVec.reduceAppend, decodeHart, decodeCustom0, zreg, accept_wf _ h])
theorem zCpyin (ch : BitVec 3) (rd rs1 rs2 : XReg) : Statement (.zCpyin ch rd rs1 rs2) := fun h => ofXR (by
  simp [-BitVec.reduceAppend, decodeHart, decodeCustom1, zreg, accept_wf _ h])
theorem zCpyout (ch : BitVec 3) (rd rs1 rs2 : XReg) : Statement (.zCpyout ch rd rs1 rs2) := fun h => ofXR (by
  simp [-BitVec.reduceAppend, decodeHart, decodeCustom1, zreg, accept_wf _ h])
theorem zCpyx (ch : BitVec 3) (rd rs1 rs2 : XReg) : Statement (.zCpyx ch rd rs1 rs2) := fun h => ofXR (by
  simp [-BitVec.reduceAppend, decodeHart, decodeCustom1, zreg, accept_wf _ h])
theorem zCpywb (ch : BitVec 3) (rd rs1 rs2 : XReg) : Statement (.zCpywb ch rd rs1 rs2) := fun h => ofXR (by
  simp [-BitVec.reduceAppend, decodeHart, decodeCustom1, zreg, accept_wf _ h])
theorem zCpywait (ch : BitVec 3) (rd rs1 : XReg) : Statement (.zCpywait ch rd rs1) := fun h => ofXI (by
  simp [-BitVec.reduceAppend, decodeHart, decodeCustom1, zreg, accept_wf _ h])
theorem zMbadd (rs1 rs2 : XReg) : Statement (.zMbadd rs1 rs2) := fun h => ofXR (by
  simp [-BitVec.reduceAppend, decodeHart, decodeCustom1, zreg, accept_wf _ h])
theorem zMbwait (rd rs1 rs2 : XReg) : Statement (.zMbwait rd rs1 rs2) := fun h => ofXR (by
  simp [-BitVec.reduceAppend, decodeHart, decodeCustom1, zreg, accept_wf _ h])
theorem zMbrd (rd rs1 : XReg) : Statement (.zMbrd rd rs1) := fun h => ofXR (by
  simp [-BitVec.reduceAppend, decodeHart, decodeCustom1, zreg, accept_wf _ h])
theorem zMbset (rs1 rs2 : XReg) : Statement (.zMbset rs1 rs2) := fun h => ofXR (by
  simp [-BitVec.reduceAppend, decodeHart, decodeCustom1, zreg, accept_wf _ h])
theorem zSend (rd rs1 rs2 : XReg) : Statement (.zSend rd rs1 rs2) := fun h => ofXR (by
  simp [-BitVec.reduceAppend, decodeHart, decodeCustom1, zreg, accept_wf _ h])
theorem zRecv (rd rs1 : XReg) : Statement (.zRecv rd rs1) := fun h => ofXR (by
  simp [-BitVec.reduceAppend, decodeHart, decodeCustom1, zreg, accept_wf _ h])
theorem zRdone (rs1 : XReg) : Statement (.zRdone rs1) := fun h => ofXR (by
  simp [-BitVec.reduceAppend, decodeHart, decodeCustom1, zreg, accept_wf _ h])
theorem zBbar : Statement (.zBbar) := fun h => ofXR (by
  simp [-BitVec.reduceAppend, decodeHart, decodeCustom1, zreg, accept_wf _ h])
theorem zBbarArv : Statement (.zBbarArv) := fun h => ofXR (by
  simp [-BitVec.reduceAppend, decodeHart, decodeCustom1, zreg, accept_wf _ h])
theorem zBbarWt : Statement (.zBbarWt) := fun h => ofXR (by
  simp [-BitVec.reduceAppend, decodeHart, decodeCustom1, zreg, accept_wf _ h])
theorem zCbarArv : Statement (.zCbarArv) := fun h => ofXR (by
  simp [-BitVec.reduceAppend, decodeHart, decodeCustom1, zreg, accept_wf _ h])
theorem zCbarWt : Statement (.zCbarWt) := fun h => ofXR (by
  simp [-BitVec.reduceAppend, decodeHart, decodeCustom1, zreg, accept_wf _ h])
theorem zLaunch (rd rs1 : XReg) : Statement (.zLaunch rd rs1) := fun h => ofXR (by
  simp [-BitVec.reduceAppend, decodeHart, decodeCustom1, zreg, accept_wf _ h])
theorem zJwait (rd rs1 : XReg) : Statement (.zJwait rd rs1) := fun h => ofXR (by
  simp [-BitVec.reduceAppend, decodeHart, decodeCustom1, zreg, accept_wf _ h])
theorem zExit (rs1 : XReg) : Statement (.zExit rs1) := fun h => ofXR (by
  simp [-BitVec.reduceAppend, decodeHart, decodeCustom1, zreg, accept_wf _ h])
theorem zTadr (rd rs1 rs2 : XReg) : Statement (.zTadr rd rs1 rs2) := fun h => ofXR (by
  simp [-BitVec.reduceAppend, decodeHart, decodeCustom2, zreg, accept_wf _ h])
theorem zTadv (rd rs1 rs2 : XReg) : Statement (.zTadv rd rs1 rs2) := fun h => ofXR (by
  simp [-BitVec.reduceAppend, decodeHart, decodeCustom2, zreg, accept_wf _ h])
theorem zFence (k : FenceKind) (scope : Scope) : Statement (.zFence k scope) := fun h => ofXI (by
  simp [-BitVec.reduceAppend, decodeHart, decodeCustom2, zreg, accept_wf _ h])
theorem zL1wb (rs1 rs2 : XReg) : Statement (.zL1wb rs1 rs2) := fun h => ofXR (by
  simp [-BitVec.reduceAppend, decodeHart, decodeCustom2, zreg, accept_wf _ h])
theorem zRank (rd rs1 rs2 : XReg) : Statement (.zRank rd rs1 rs2) := fun h => ofXR (by
  simp [-BitVec.reduceAppend, decodeHart, decodeCustom2, zreg, accept_wf _ h])
theorem zTide (rd : XReg) : Statement (.zTide rd) := fun h => ofXR (by
  simp [-BitVec.reduceAppend, decodeHart, decodeCustom2, zreg, accept_wf _ h])
theorem zTidewait (rd rs1 : XReg) : Statement (.zTidewait rd rs1) := fun h => ofXR (by
  simp [-BitVec.reduceAppend, decodeHart, decodeCustom2, zreg, accept_wf _ h])
theorem zQuiesce (rd : XReg) : Statement (.zQuiesce rd) := fun h => ofXR (by
  simp [-BitVec.reduceAppend, decodeHart, decodeCustom3, zreg, accept_wf _ h])
theorem zCsave (rs1 rs2 : XReg) : Statement (.zCsave rs1 rs2) := fun h => ofXR (by
  simp [-BitVec.reduceAppend, decodeHart, decodeCustom3, zreg, accept_wf _ h])
theorem zCrest (rs1 rs2 : XReg) : Statement (.zCrest rs1 rs2) := fun h => ofXR (by
  simp [-BitVec.reduceAppend, decodeHart, decodeCustom3, zreg, accept_wf _ h])
theorem zPjrd (rd rs1 : XReg) : Statement (.zPjrd rd rs1) := fun h => ofXR (by
  simp [-BitVec.reduceAppend, decodeHart, decodeCustom3, zreg, accept_wf _ h])
theorem zSample (rd rs1 : XReg) : Statement (.zSample rd rs1) := fun h => ofXR (by
  simp [-BitVec.reduceAppend, decodeHart, decodeCustom3, zreg, accept_wf _ h])
theorem hartFence (fm pred succ : BitVec 4) (rd rs1 : XReg) : Statement (.hartFence fm pred succ rd rs1) :=
  fun h => ofXI (by
  simp [-BitVec.reduceAppend, decodeHart, zreg, accept_wf _ h])
theorem fenceI (rd rs1 : XReg) (imm : BitVec 12) : Statement (.fenceI rd rs1 imm) := fun h => ofXI (by
  simp [-BitVec.reduceAppend, decodeHart, zreg, accept_wf _ h])
theorem blockPlacement : Statement (.blockPlacement) := fun _ => rfl
theorem blockRetirement : Statement (.blockRetirement) := fun _ => rfl
theorem matrixCompletion : Statement (.matrixCompletion) := fun _ => rfl
theorem copyStart : Statement (.copyStart) := fun _ => rfl
theorem copyCompletion : Statement (.copyCompletion) := fun _ => rfl
theorem queueLoadArrival : Statement (.queueLoadArrival) := fun _ => rfl
theorem replayArrival : Statement (.replayArrival) := fun _ => rfl
theorem laneAccessComplete : Statement (.laneAccessComplete) := fun _ => rfl
theorem hartAccessResponse : Statement (.hartAccessResponse) := fun _ => rfl
theorem postedWriteArrival : Statement (.postedWriteArrival) := fun _ => rfl
theorem journalAck : Statement (.journalAck) := fun _ => rfl
theorem journalRefusal : Statement (.journalRefusal) := fun _ => rfl
theorem mailboxIncrementArrival : Statement (.mailboxIncrementArrival) := fun _ => rfl
theorem ringMessageArrival : Statement (.ringMessageArrival) := fun _ => rfl
theorem rankContributionArrival : Statement (.rankContributionArrival) := fun _ => rfl
theorem reductionInputArrival : Statement (.reductionInputArrival) := fun _ => rfl
theorem routerFold : Statement (.routerFold) := fun _ => rfl
theorem reductionResultLanded : Statement (.reductionResultLanded) := fun _ => rfl
theorem absenceTokenArrival : Statement (.absenceTokenArrival) := fun _ => rfl
theorem hartCacheEviction : Statement (.hartCacheEviction) := fun _ => rfl
theorem asyncTrapTaken : Statement (.asyncTrapTaken) := fun _ => rfl
theorem externalInterrupt : Statement (.externalInterrupt) := fun _ => rfl
theorem decouplingDeadlock : Statement (.decouplingDeadlock) := fun _ => rfl
theorem watchdogExpiry : Statement (.watchdogExpiry) := fun _ => rfl
theorem remoteWaitTimeout : Statement (.remoteWaitTimeout) := fun _ => rfl
theorem tidewaitReached : Statement (.tidewaitReached) := fun _ => rfl
theorem gangStrike : Statement (.gangStrike) := fun _ => rfl
theorem gangSuspend : Statement (.gangSuspend) := fun _ => rfl
theorem gangResume : Statement (.gangResume) := fun _ => rfl
theorem noticeWrite : Statement (.noticeWrite) := fun _ => rfl
theorem shootdownRequest : Statement (.shootdownRequest) := fun _ => rfl
theorem shootdownDone : Statement (.shootdownDone) := fun _ => rfl
theorem breakwaterRefill : Statement (.breakwaterRefill) := fun _ => rfl
theorem breakwaterPass : Statement (.breakwaterPass) := fun _ => rfl
theorem eccError : Statement (.eccError) := fun _ => rfl
theorem kilsetWrite : Statement (.kilsetWrite) := fun _ => rfl
theorem mondbClear : Statement (.mondbClear) := fun _ => rfl
theorem mbctrWrite : Statement (.mbctrWrite) := fun _ => rfl
theorem blkerrWrite : Statement (.blkerrWrite) := fun _ => rfl
theorem partdieWrite : Statement (.partdieWrite) := fun _ => rfl
theorem bootstStageWrite : Statement (.bootstStageWrite) := fun _ => rfl
theorem bstoreWrite : Statement (.bstoreWrite) := fun _ => rfl
theorem hqReset : Statement (.hqReset) := fun _ => rfl
theorem registerWrite : Statement (.registerWrite) := fun _ => rfl
theorem coldReset : Statement (.coldReset) := fun _ => rfl
theorem failoverTimer : Statement (.failoverTimer) := fun _ => rfl
theorem ctxCreate : Statement (.ctxCreate) := fun _ => rfl
theorem ctxDestroy : Statement (.ctxDestroy) := fun _ => rfl
theorem worldSuspend : Statement (.worldSuspend) := fun _ => rfl
theorem worldResume : Statement (.worldResume) := fun _ => rfl
theorem worldDestroy : Statement (.worldDestroy) := fun _ => rfl
theorem handleSet : Statement (.handleSet) := fun _ => rfl
theorem handleClear : Statement (.handleClear) := fun _ => rfl
theorem vaultGrant : Statement (.vaultGrant) := fun _ => rfl
theorem entropyRestart : Statement (.entropyRestart) := fun _ => rfl
theorem badCall : Statement (.badCall) := fun _ => rfl
theorem hqDoorbell : Statement (.hqDoorbell) := fun _ => rfl
theorem hqCompletionHead : Statement (.hqCompletionHead) := fun _ => rfl
theorem hostNop : Statement (.hostNop) := fun _ => rfl
theorem hostLaunch : Statement (.hostLaunch) := fun _ => rfl
theorem hostShootdown : Statement (.hostShootdown) := fun _ => rfl
theorem pageTake : Statement (.pageTake) := fun _ => rfl
theorem pageReturn : Statement (.pageReturn) := fun _ => rfl
theorem badCommand : Statement (.badCommand) := fun _ => rfl
theorem hlreqRenew : Statement (.hlreqRenew) := fun _ => rfl
theorem hlreqClaim : Statement (.hlreqClaim) := fun _ => rfl
theorem leaseExpiry : Statement (.leaseExpiry) := fun _ => rfl
theorem linkTraining : Statement (.linkTraining) := fun _ => rfl
theorem linkDown : Statement (.linkDown) := fun _ => rfl
theorem ideFailure : Statement (.ideFailure) := fun _ => rfl
theorem lockInterface : Statement (.lockInterface) := fun _ => rfl
theorem startInterface : Statement (.startInterface) := fun _ => rfl
theorem stopInterface : Statement (.stopInterface) := fun _ => rfl
theorem snpData : Statement (.snpData) := fun _ => rfl
theorem snpInv : Statement (.snpInv) := fun _ => rfl
theorem snpCur : Statement (.snpCur) := fun _ => rfl
theorem cxlGo : Statement (.cxlGo) := fun _ => rfl
theorem bisnpResponse : Statement (.bisnpResponse) := fun _ => rfl
theorem hostCxlMemAccess : Statement (.hostCxlMemAccess) := fun _ => rfl
theorem getVersion : Statement (.getVersion) := fun _ => rfl
theorem getCapabilities : Statement (.getCapabilities) := fun _ => rfl
theorem negotiateAlgorithms : Statement (.negotiateAlgorithms) := fun _ => rfl
theorem getDigests : Statement (.getDigests) := fun _ => rfl
theorem getCertificate : Statement (.getCertificate) := fun _ => rfl
theorem challenge : Statement (.challenge) := fun _ => rfl
theorem getMeasurements : Statement (.getMeasurements) := fun _ => rfl
theorem spdmUnsupportedRequest : Statement (.spdmUnsupportedRequest) := fun _ => rfl
theorem prefetchFill : Statement (.prefetchFill) := fun _ => rfl
theorem entropyHealthTestFailure : Statement (.entropyHealthTestFailure) := fun _ => rfl

end Sys2Proof.Laws.Enc
end

