-- ==== Sys2Proof/Laws/Decode.lean ====
section
/-! SUPPORT. What the decoders answer is well formed: one lemma per check and per table. -/
namespace Sys2Proof.Laws

/-- A decoding that answers only well-formed instructions of the streams. -/
def Sound (r : Decoded) : Prop :=
  ∀ i, r = .ok i → i.wf = true ∧ i.isEvent = false ∧ ∀ w, i ≠ .unassignedLaneOpcode w
theorem sound_accept {i : Instr} (he : i.isEvent = false) (hu : ∀ w, i ≠ .unassignedLaneOpcode w) : Sound (accept i) := by
  intro j h
  unfold accept at h
  split at h
  · rename_i hw; cases h; exact ⟨hw, he, hu⟩
  · cases h
theorem sound_error (e : DecodeError) : Sound (.error e) := fun i h => by cases h
theorem sound_ite {c : Prop} [Decidable c] {a b : Decoded} (ha : Sound a) (hb : Sound b) : Sound (if c then a else b) := by
  split
  · exact ha
  · exact hb
theorem sound_unused1 {x : Code} {r : Decoded} (h : Sound r) : Sound (unused1 x r) := sound_ite h (sound_error _)
theorem sound_unused2 {x y : Code} {r : Decoded} (h : Sound r) : Sound (unused2 x y r) := sound_unused1 (sound_unused1 h)
theorem sound_unused3 {x y z : Code} {r : Decoded} (h : Sound r) : Sound (unused3 x y z r) := sound_unused1 (sound_unused2 h)
theorem sound_zero {p : Bool} {r : Decoded} (h : Sound r) : Sound (zeroBits p r) := sound_ite h (sound_error _)
theorem sound_zreg {p : XReg} {r : Decoded} (h : Sound r) : Sound (zreg p r) := sound_ite h (sound_error _)
theorem sound_with {α β : Type} {f : α → Option β} {x : α} {k : β → Decoded} (h : ∀ y, Sound (k y)) :
    Sound (withCode f x k) := by
  unfold withCode
  split
  · exact h _
  · exact sound_error _
theorem sound_modTy {m : BitVec 9} {k : Ty → Decoded} (h : ∀ y, Sound (k y)) : Sound (modTy m k) := sound_with h
theorem sound_mem (maj : Nat) (d a b c : Code) (m : BitVec 9) (imm : Half) : Sound (decodeL64Mem maj d a b c m imm) := by
  unfold decodeL64Mem
  dsimp only
  split <;> (repeat' with_reducible first
    | apply sound_accept | apply sound_error
    | apply sound_unused1 | apply sound_unused2 | apply sound_unused3 | apply sound_zero
    | apply sound_with; intro _ | apply sound_ite) <;> first | rfl | (intro _ h; cases h)
theorem sound_matrix (maj : Nat) (d a b c : Code) (m : BitVec 9) (imm : Half) :
    Sound (decodeL64Matrix maj d a b c m imm) := by
  unfold decodeL64Matrix
  dsimp only
  split <;> (repeat' with_reducible first
    | apply sound_accept
    | apply sound_unused1 | apply sound_unused2 | apply sound_unused3 | apply sound_zero) <;> first | rfl | (intro _ h; cases h)
def majorArms : List Nat := [0, 1, 2, 3, 4, 5, 6, 7, 8, 9, 10, 12, 13, 14, 15, 16, 17, 18, 19, 20, 21, 22, 23, 24, 25, 26, 27, 28, 29, 30, 31, 32, 33, 34, 35, 36, 38, 40, 41, 42, 43, 44, 45, 46, 47, 64, 65, 66, 67, 68, 69, 70, 71, 72, 73, 74, 75, 76, 77, 78, 79, 80, 81, 82, 83, 84, 85, 86, 87, 88, 96, 97, 98, 99, 100, 101, 102, 103, 104, 128, 129, 130, 131, 132, 136, 137]
def shortArms : List Nat := [0, 1, 2, 3, 4, 5, 6, 7, 8, 9, 10, 11, 12, 13, 14, 15, 16, 17, 18, 19, 20, 21, 22, 23, 24, 25, 26, 27, 28, 29, 32, 33, 34, 35, 36, 37, 38, 39, 40, 48, 49, 50, 51, 52, 53, 56, 57, 58, 59, 64, 65, 66, 67, 68, 72, 73, 74, 80, 81, 82]
set_option maxRecDepth 4000 in
theorem major_listed : ∀ n, n < 176 → (majorAssigned n && !(decide (0x070 ≤ n) && decide (n < 0x078))
    && !(decide (0x0A0 ≤ n) && decide (n < 0x0B0))) = true → n ∈ majorArms := by decide
theorem major_lt (n : Nat) (hm : majorAssigned n = true) : n < 176 := by
  simp [majorAssigned] at hm; omega
theorem short_lt (n : Nat) (hm : shortAssigned n = true) : n < 83 := by
  simp [shortAssigned] at hm; omega
theorem short_listed : ∀ n, n < 83 → shortAssigned n = true → n ∈ shortArms := by decide
theorem sound_major (w : W32) (maj : Nat) (d a b c : Code) (m : BitVec 9) (imm : Half)
    (hm : majorAssigned maj = true) : Sound (decodeMajor w maj d a b c m imm) := by
  unfold decodeMajor
  split
  case h_87 =>
    rename_i n _
    by_cases h1 : (decide (0x070 ≤ maj) && decide (maj < 0x078)) = true
    · rw [if_pos h1]; exact sound_mem _ _ _ _ _ _ _
    by_cases h2 : (decide (0x0A0 ≤ maj) && decide (maj < 0x0B0)) = true
    · rw [if_neg h1, if_pos h2]; exact sound_matrix _ _ _ _ _ _ _
    exfalso
    have := major_listed _ (major_lt _ hm) (by simp only [Bool.not_eq_true] at h1 h2; rw [hm, h1, h2]; rfl)
    simp only [majorArms, List.mem_cons, List.not_mem_nil, or_false] at this
    repeat (obtain h | this := this; · exact absurd h (by assumption))
    exact absurd this (by assumption)
  all_goals clear hm
  all_goals (repeat' with_reducible first
    | apply sound_accept | apply sound_error
    | apply sound_unused1 | apply sound_unused2 | apply sound_unused3 | apply sound_zero | apply sound_zreg
    | apply sound_modTy; intro _ | apply sound_with; intro _ | apply sound_ite)
  all_goals first | rfl | (intro _ h; cases h)
theorem sound_short (w : W32) (n : Nat) (d a b : Code) (hm : shortAssigned n = true) : Sound (decodeShort w n d a b) := by
  unfold decodeShort
  split
  case h_61 =>
    exfalso
    have := short_listed _ (short_lt _ hm) hm
    simp only [shortArms, List.mem_cons, List.not_mem_nil, or_false] at this
    repeat (obtain h | this := this; · exact absurd h (by assumption))
    exact absurd this (by assumption)
  all_goals clear hm
  all_goals (repeat' with_reducible first
    | apply sound_accept | apply sound_error
    | apply sound_unused1 | apply sound_unused2 | apply sound_unused3 | apply sound_zero | apply sound_zreg
    | apply sound_modTy; intro _ | apply sound_with; intro _ | apply sound_ite)
  all_goals first | rfl | (intro _ h; cases h)
theorem sound_bad : Sound bad := sound_error _
theorem sound_c0 (w : W32) : Sound (decodeCustom0 w) := by
  unfold decodeCustom0
  dsimp only
  split <;> try split
  all_goals (repeat' with_reducible first
    | apply sound_accept | apply sound_error
    | apply sound_unused1 | apply sound_unused2 | apply sound_unused3 | apply sound_zero | apply sound_zreg
    | apply sound_modTy; intro _ | apply sound_with; intro _ | apply sound_ite)
  all_goals first | exact sound_bad | rfl | (intro _ h; cases h)
theorem sound_c1 (w : W32) : Sound (decodeCustom1 w) := by
  unfold decodeCustom1
  dsimp only
  split <;> (repeat' with_reducible first
    | apply sound_accept | apply sound_error
    | apply sound_unused1 | apply sound_unused2 | apply sound_unused3 | apply sound_zero | apply sound_zreg
    | apply sound_modTy; intro _ | apply sound_with; intro _ | apply sound_ite)
  all_goals try split
  all_goals (repeat' with_reducible first
    | apply sound_accept | apply sound_error
    | apply sound_unused1 | apply sound_unused2 | apply sound_unused3 | apply sound_zero | apply sound_zreg
    | apply sound_modTy; intro _ | apply sound_with; intro _ | apply sound_ite)
  all_goals first | exact sound_bad | rfl | (intro _ h; cases h)
theorem sound_c2 (w : W32) : Sound (decodeCustom2 w) := by
  unfold decodeCustom2
  dsimp only
  split <;> try split
  all_goals (repeat' with_reducible first
    | apply sound_accept | apply sound_error
    | apply sound_unused1 | apply sound_unused2 | apply sound_unused3 | apply sound_zero | apply sound_zreg
    | apply sound_modTy; intro _ | apply sound_with; intro _ | apply sound_ite)
  all_goals first | exact sound_bad | rfl | (intro _ h; cases h)
theorem sound_c3 (w : W32) : Sound (decodeCustom3 w) := by
  unfold decodeCustom3
  dsimp only
  split
  all_goals (repeat' with_reducible first
    | apply sound_accept | apply sound_error
    | apply sound_unused1 | apply sound_unused2 | apply sound_unused3 | apply sound_zero | apply sound_zreg
    | apply sound_modTy; intro _ | apply sound_with; intro _ | apply sound_ite)
  all_goals first | exact sound_bad | rfl | (intro _ h; cases h)
theorem sound_alui (w : W32) : Sound (decodeAluImm w) := by
  unfold decodeAluImm
  dsimp only
  split
  · (repeat' with_reducible first
    | apply sound_accept | apply sound_error
    | apply sound_unused1 | apply sound_unused2 | apply sound_unused3 | apply sound_zero | apply sound_zreg
    | apply sound_modTy; intro _ | apply sound_with; intro _ | apply sound_ite)
    all_goals first | exact sound_bad | rfl | (intro _ h; cases h)
  · apply sound_ite <;> split
    all_goals (repeat' with_reducible first
    | apply sound_accept | apply sound_error
    | apply sound_unused1 | apply sound_unused2 | apply sound_unused3 | apply sound_zero | apply sound_zreg
    | apply sound_modTy; intro _ | apply sound_with; intro _ | apply sound_ite)
    all_goals first | exact sound_bad | rfl | (intro _ h; cases h)
theorem sound_amo (w : W32) : Sound (decodeAmo w) := by
  unfold decodeAmo
  dsimp only
  (repeat' with_reducible first
    | apply sound_accept | apply sound_error
    | apply sound_unused1 | apply sound_unused2 | apply sound_unused3 | apply sound_zero | apply sound_zreg
    | apply sound_modTy; intro _ | apply sound_with; intro _ | apply sound_ite)
  all_goals try split
  all_goals (repeat' with_reducible first
    | apply sound_accept | apply sound_error
    | apply sound_unused1 | apply sound_unused2 | apply sound_unused3 | apply sound_zero | apply sound_zreg
    | apply sound_modTy; intro _ | apply sound_with; intro _ | apply sound_ite)
  all_goals first | exact sound_bad | rfl | (intro _ h; cases h)
theorem sound_ok {i : Instr} (h : i.wf = true) (he : i.isEvent = false) (hu : ∀ w, i ≠ .unassignedLaneOpcode w) : Sound (.ok i) :=
  fun j e => by cases e; exact ⟨h, he, hu⟩
theorem sound_sys (w : W32) : Sound (decodeSystem w) := by
  unfold decodeSystem
  dsimp only
  split
  · (repeat' with_reducible first
    | apply sound_accept | apply sound_error
    | apply sound_unused1 | apply sound_unused2 | apply sound_unused3 | apply sound_zero | apply sound_zreg
    | apply sound_modTy; intro _ | apply sound_with; intro _ | apply sound_ite)
    all_goals first | exact sound_bad | exact sound_ok rfl rfl (fun _ h => by cases h)
  all_goals try split
  all_goals (repeat' with_reducible first
    | apply sound_accept | apply sound_error
    | apply sound_unused1 | apply sound_unused2 | apply sound_unused3 | apply sound_zero | apply sound_zreg
    | apply sound_modTy; intro _ | apply sound_with; intro _ | apply sound_ite)
  all_goals first | exact sound_bad | rfl | (intro _ h; cases h)
theorem sound_hart (w : W32) : Sound (decodeHart w) := by
  unfold decodeHart
  dsimp only
  apply sound_ite (sound_error _)
  split
  · exact sound_c0 w
  · exact sound_c1 w
  · exact sound_c2 w
  · exact sound_c3 w
  all_goals try first | exact sound_amo w | exact sound_sys w | exact sound_alui w | exact sound_bad
  all_goals try split
  all_goals try split
  all_goals (repeat' with_reducible first
    | apply sound_accept | apply sound_error
    | apply sound_unused1 | apply sound_unused2 | apply sound_unused3 | apply sound_zero | apply sound_zreg
    | apply sound_modTy; intro _ | apply sound_with; intro _ | apply sound_ite)
  all_goals first | exact sound_bad | rfl | (intro _ h; cases h)
theorem sound_lane (w0 w1 w2 : W32) (h : laneUnassigned w0 = false) : Sound (decodeLane w0 w1 w2) := by
  unfold laneUnassigned at h
  unfold decodeLane
  split at h
  · rename_i h0; rw [if_pos h0]; exact sound_short _ _ _ _ _ (by rw [Bool.not_eq_false'] at h; exact h)
  rename_i h0; rw [if_neg h0]
  split at h
  · rename_i h1; rw [if_pos h1]; exact sound_major _ _ _ _ _ _ _ _ (by rw [Bool.not_eq_false'] at h; exact h)
  rename_i h1; rw [if_neg h1]
  unfold decodeL96
  rw [if_pos (by simpa [fieldMajor] using h)]
  (repeat' with_reducible first
    | apply sound_accept | apply sound_error
    | apply sound_unused1 | apply sound_unused2 | apply sound_unused3 | apply sound_zero | apply sound_zreg
    | apply sound_modTy; intro _ | apply sound_with; intro _ | apply sound_ite)
  all_goals first | rfl | (intro _ h; cases h)

end Sys2Proof.Laws
end

