-- ==== Sys2Proof/Laws/HostSide.lean ====
section
/-! SUPPORT. What host queues, the lease, links, the interface, coherence with hosts and attestation can do. -/
namespace Sys2Proof.Machine

theorem hostCommand_none {s : State} {ok : Nat → Bool} {f : Nat → Nat → Nat → List Byte → Out}
    (h : s.hostEntry (s.input.a % 4) (s.input.b % 32) = none) : hostCommand s ok f = .next s := by
  unfold hostCommand; dsimp only; rw [h]

theorem hostCommand_some {s : State} {ok : Nat → Bool} {f : Nat → Nat → Nat → List Byte → Out} {pos : Nat} {l : List Byte}
    (h : s.hostEntry (s.input.a % 4) (s.input.b % 32) = some (pos, l)) (hl : s.pairLine (s.input.a % 4) (s.input.b % 32) pos = none)
    (ho : ok (fieldAt l 0 1) = true) : hostCommand s ok f = f (s.input.a % 4) (s.input.b % 32) pos l := by
  unfold hostCommand; dsimp only; rw [h]; dsimp only; rw [hl]; exact if_pos ho

/-- A line of the rings that a host holds is asked back first. -/
theorem hostCommand_line {s : State} {ok : Nat → Bool} {f : Nat → Nat → Nat → List Byte → Out} {pos : Nat} {l : List Byte} {w : Nat × Bool}
    (h : s.hostEntry (s.input.a % 4) (s.input.b % 32) = some (pos, l)) (hl : s.pairLine (s.input.a % 4) (s.input.b % 32) pos = some w) :
    hostCommand s ok f = .next (s.askLine w) := by
  unfold hostCommand; dsimp only; rw [h]; dsimp only; rw [hl]


/-- Raising an interrupt or none changes only the interrupts. -/
theorem raiseIrq_spec (s : State) (p h : Nat) : s.raiseIrq p h = { s with host := { s.host with irqs := (s.raiseIrq p h).host.irqs, sent := (s.raiseIrq p h).host.sent } } := by
  unfold State.raiseIrq; repeat' split
  all_goals rfl

/-- A completion is one entry at the tail of its ring. -/
theorem complete_spec (s : State) (p h pos st : Nat) : let t := s.complete p h pos st
    let q := s.hq p h
    let n := q.compTail.toNat
    let at_ := q.comp + 16 * (n % q.size)
    t.hq p h = { q with compTail := q.compTail + 1 }
    ∧ (Inv s → Inv t ∧ (∀ i, i < 16 → Memory.read t.mem (at_ + i)
        = (leBytes 16 (st + 2 ^ 16 * ((n / q.size + 1) % 2) + 2 ^ 32 * pos)).getD i 0)
      ∧ ∀ a, a < at_ ∨ at_ + 16 ≤ a → ¬ s.dirtyAt a → Memory.read t.mem a = Memory.read s.mem a) := by
  intro t q n at_
  have ht : t = State.raiseIrq ((s.performStore at_ (leBytes 16 (st + 2 ^ 16 * ((n / q.size + 1) % 2) + 2 ^ 32 * pos))).setHq p h
      { q with compTail := q.compTail + 1 }) p h := rfl
  refine ⟨?_, fun hi => ?_⟩
  · rw [ht, raiseIrq_spec]
    show Map.get {} (State.part (State.setHq _ _ _ _) p).hqs h = _
    unfold State.setHq State.setPart State.part
    dsimp only
    rw [Map.get_set_same]
    exact Map.get_set_same ..
  · have hm : t.mem = (s.performStore at_ (leBytes 16 (st + 2 ^ 16 * ((n / q.size + 1) % 2) + 2 ^ 32 * pos))).mem := by
      rw [ht, raiseIrq_spec]; rfl
    obtain ⟨h1, h2, h3⟩ := performStore_read s at_ (leBytes 16 (st + 2 ^ 16 * ((n / q.size + 1) % 2) + 2 ^ 32 * pos)) hi
    rw [leBytes_length] at h2 h3
    refine ⟨?_, fun i hi' => ?_, fun a ha hd => ?_⟩
    · unfold Inv; rw [hm]; exact h1
    · rw [hm]; exact h2 i hi'
    · rw [hm]; exact h3 a ha hd

/-- What the ends of contexts leave of the state: all but groups, blocks, windows, messages and what trace records write. -/
theorem fatals_kept (v : W64) (cause k : Nat) (l : List Nat) : ∀ s : State, let t := l.foldl (fun t c => t.fatal c cause k v) s
    t.host = s.host ∧ t.regs = s.regs ∧ t.sec = s.sec ∧ t.launches = s.launches ∧ t.tide = s.tide := by
  induction l with
  | nil => exact fun s => ⟨rfl, rfl, rfl, rfl, rfl⟩
  | cons a l ih =>
    intro s
    have h1 : (s.fatal a cause k v).host = s.host ∧ (s.fatal a cause k v).regs = s.regs ∧ (s.fatal a cause k v).sec = s.sec
        ∧ (s.fatal a cause k v).launches = s.launches ∧ (s.fatal a cause k v).tide = s.tide := by
      obtain ⟨g1, g2⟩ := fatal_spec s a cause k v
      have hdie : (s.die a cause).host = s.host ∧ (s.die a cause).regs = s.regs ∧ (s.die a cause).sec = s.sec
          ∧ (s.die a cause).launches = s.launches ∧ (s.die a cause).tide = s.tide := by
        unfold State.die; dsimp only; split <;> exact ⟨rfl, rfl, rfl, rfl, rfl⟩
      cases hd : (s.dead.find a).isSome with
      | true => rw [g1 hd]; exact ⟨rfl, rfl, rfl, rfl, rfl⟩
      | false => rw [(g2 hd).2.1]; exact hdie
    obtain ⟨i1, i2, i3, i4, i5⟩ := ih (s.fatal a cause k v)
    rw [List.foldl_cons]
    exact ⟨i1.trans h1.1, i2.trans h1.2.1, i3.trans h1.2.2.1, i4.trans h1.2.2.2.1, i5.trans h1.2.2.2.2⟩

/-- A running interface goes to ERROR; any other stays. -/
theorem interfaceError_spec (s : State) : (s.host.tdisp = .run → (s.interfaceError).host.tdisp = .error) ∧ (s.host.tdisp ≠ .run → s.interfaceError = s) := by
  refine ⟨fun h => ?_, fun h => ?_⟩
  · unfold State.interfaceError
    rw [if_neg (by rw [h]; decide)]
    dsimp only
    have := fatals_kept 0 interfaceCause 0 (s.host.guest.flatMap s.contextsOf) { s with host := { s.host with tdisp := .error } }
    generalize List.foldl _ ({ s with host := { s.host with tdisp := .error } } : State) _ = w at this ⊢
    show w.host.tdisp = _
    rw [this.1]
  · unfold State.interfaceError
    exact if_pos (bne_iff_ne.mpr h)

theorem addPoisons_kept {β : Type} (f : β → Nat) (l : List β) : ∀ s : State,
    l.foldl (fun t x => t.addPoison (f x)) s = { s with poison := (l.foldl (fun t x => t.addPoison (f x)) s).poison } := by
  induction l with
  | nil => intro s; rfl
  | cons a l ih =>
    intro s
    have h1 : s.addPoison (f a) = { s with poison := (s.addPoison (f a)).poison } := by unfold State.addPoison; split <;> rfl
    have hw : ∀ w : State, w = { s.addPoison (f a) with poison := w.poison } → w = { s with poison := w.poison } := by
      intro w hw; rw [h1] at hw; exact hw
    rw [List.foldl_cons]
    exact hw _ (ih _)

theorem fence_spec (s : State) (p : Nat) : p ∈ (s.fence p).host.fenced ∧ (s.fence p).host.lease = s.host.lease ∧ (s.fence p).groups = s.groups
    ∧ ∀ x ∈ (s.fence p).host.filter, x.2.1 ≠ p := by
  have h1 := addPoisons_kept (fun x : Nat × (Nat × Mesi) => 64 * x.1) ((s.host.filter.filter fun x => x.2.1 == p).filter fun x => x.2.2 == .m) s
  unfold State.fence
  dsimp only
  generalize List.foldl _ s _ = w at h1 ⊢
  refine ⟨?_, ?_, ?_, ?_⟩
  · show p ∈ ite _ _ _
    split
    · rename_i h; exact List.contains_iff_mem.mp h
    · exact List.mem_cons_self ..
  · show w.host.lease = _; rw [h1]
  · show w.groups = _; rw [h1]
  · intro x hx
    have := (List.mem_filter.mp hx).2
    exact bne_iff_ne.mp this

theorem leaseResult_spec (s : State) (d : Nat) (v : W64) : let l := s.host.lease
    let u := bits v.toNat 48 32
    (s.leaseResult d false v = 0 ↔ u ≠ 0 ∧ u ≤ 100000 ∧ l.st = 1 ∧ s.tide.toNat < l.exp.toNat ∧ l.holder = d ∧ ((v >>> 16).setWidth 16 : Half) = l.epoch)
    ∧ (s.leaseResult d true v = 0 ↔ u ≠ 0 ∧ u ≤ 100000 ∧ l.st ≠ 1 ∧ ((v >>> 16).setWidth 16 : Half) = l.epoch + 1) := by
  intro l u
  unfold State.leaseResult
  dsimp only
  constructor
  · simp only [Bool.false_eq_true, if_false]
    by_cases h1 : u = 0 ∨ 100000 < u
    · rw [if_pos (by simpa using h1)]
      constructor
      · intro h; cases h
      · rintro ⟨a, b, -⟩; omega
    · rw [if_neg (by simpa using h1)]
      by_cases h2 : l.st ≠ 1 ∨ l.exp.toNat ≤ s.tide.toNat
      · rw [if_pos (by simpa using h2)]
        constructor
        · intro h; cases h
        · rintro ⟨-, -, a, b, -⟩; rcases h2 with h | h
          · exact absurd a h
          · omega
      · rw [if_neg (by simpa using h2)]
        by_cases h3 : l.holder = d
        · rw [if_neg (by simpa using h3)]
          by_cases h4 : ((v >>> 16).setWidth 16 : Half) = l.epoch
          · rw [if_neg (by rw [bne_iff_ne]; exact fun h => h h4)]
            refine ⟨fun _ => ⟨by omega, by omega, ?_, by omega, h3, h4⟩, fun _ => rfl⟩
            exact Decidable.byContradiction fun hh => h2 (.inl hh)
          · rw [if_pos (bne_iff_ne.mpr h4)]
            exact ⟨fun h => (by cases h), fun h => absurd h.2.2.2.2.2 h4⟩
        · rw [if_pos (by simpa using h3)]
          exact ⟨fun h => (by cases h), fun h => absurd h.2.2.2.2.1 h3⟩
  · simp only [if_true]
    by_cases h1 : u = 0 ∨ 100000 < u
    · rw [if_pos (by simpa using h1)]
      constructor
      · intro h; cases h
      · rintro ⟨a, b, -⟩; omega
    · rw [if_neg (by simpa using h1)]
      by_cases h2 : l.st = 1
      · rw [if_pos (by simpa using h2)]
        exact ⟨fun h => (by cases h), fun h => absurd h2 h.2.2.1⟩
      · rw [if_neg (by simpa using h2)]
        by_cases h4 : ((v >>> 16).setWidth 16 : Half) = l.epoch + 1
        · rw [if_neg (by rw [bne_iff_ne]; exact fun h => h h4)]
          exact ⟨fun _ => ⟨by omega, by omega, h2, h4⟩, fun _ => rfl⟩
        · rw [if_pos (bne_iff_ne.mpr h4)]
          exact ⟨fun h => (by cases h), fun h => absurd h.2.2.2 h4⟩

theorem breakResv_only (s : State) (k n : Nat) : s.breakResv k n = { s with groups := (s.breakResv k n).groups } := by
  unfold State.breakResv; split <;> rfl

theorem snoop_hit (s : State) (toState : Mesi → Mesi) (hc : s.cachedHost (64 * s.input.a) = true) (ho : Map.get .i s.host.lines s.input.a ≠ .i) :
    snoop s toState = .next (let t := s.flushHome (64 * s.input.a)
      let u := if Map.get .i s.host.lines s.input.a = .m then t.toHost (t.bytes (64 * s.input.a) 64) else t
      { u with host := { u.host with lines := u.host.lines.set s.input.a (toState (Map.get .i s.host.lines s.input.a)) } }) := by
  unfold snoop
  dsimp only
  rw [if_neg (by rw [hc, beq_eq_false_iff_ne.mpr ho]; simp)]
  unfold State.snoopSector
  by_cases hm : Map.get Mesi.i s.host.lines s.input.a = .m
  · rw [if_pos hm, if_pos (beq_iff_eq.mpr hm)]
  · rw [if_neg hm, if_neg (fun h => hm (beq_iff_eq.mp h))]

theorem snoop_miss (s : State) (toState : Mesi → Mesi) (h : s.cachedHost (64 * s.input.a) = false ∨ Map.get .i s.host.lines s.input.a = .i) :
    snoop s toState = .next s := by
  unfold snoop
  dsimp only
  rw [if_pos]
  rcases h with h | h
  · rw [h]; rfl
  · rw [h]; simp

theorem cachedHost_of (s t : State) (h : t.host = s.host) (k : Nat) : t.cachedHost k = s.cachedHost k := by
  unfold State.cachedHost State.cxlPort State.hostBiased; rw [h]

theorem performStore_groups_host (s : State) : ∀ k l, (s.performStore k l).host.filter = s.host.filter := by
  intro k l
  have hb : (s.homeWrite k l).host = s.host := by rw [(homeWrite_spec s k l).1]
  have hp : ∀ u : State, (u.portStore k l).host = u.host := by
    intro u; unfold State.portStore; repeat' split
    all_goals rfl
  have hh : ∀ (u : State) k n w, (u.hostTouch k n w).host.filter = u.host.filter := by
    intro u k n w; unfold State.hostTouch; split <;> rfl
  have hi : ∀ (u : State) c hit, (State.invalidate u c hit).host = u.host := by
    intro u c hit; unfold State.invalidate; dsimp only; split <;> rfl
  unfold State.performStore
  dsimp only
  split
  · unfold State.touchScratch; rw [hi, hp, hh, hb]
  · rw [hp, hh, hb]

theorem fillLine_spec (s : State) (l : Nat) (old : Mesi) : (s.fillLine l old).host = s.host ∧ (s.fillLine l old).groups = s.groups
    ∧ (∀ d, old = .i → s.input.data = some d → (s.fillLine l old).mem = Memory.writeBytes s.mem (64 * l) (padded 64 d))
    ∧ (old ≠ .i ∨ s.input.data = none → (s.fillLine l old).mem = s.mem) := by
  have e1 : ∀ c, (s.storeCells c).host = s.host := fun c => by unfold State.storeCells; rfl
  have e2 : ∀ c, (s.storeCells c).groups = s.groups := fun c => by unfold State.storeCells; rfl
  have e3 : ∀ c, (s.storeCells c).mem = Memory.writeCells s.mem c := storeCells_mem s
  unfold State.fillLine
  generalize s.input.data = o
  cases o with
  | none => cases old <;> exact ⟨rfl, rfl, fun d _ e => (by cases e), fun _ => rfl⟩
  | some d =>
    cases old with
    | i =>
      dsimp only
      rw [e1, e2, e3]
      exact ⟨rfl, rfl, fun d' _ e => (by cases e; exact writeCells_cellsOf ..), fun h => h.elim (fun h => absurd rfl h) (fun h => (by cases h))⟩
    | m => exact ⟨rfl, rfl, fun _ h => (by cases h), fun _ => rfl⟩
    | e => exact ⟨rfl, rfl, fun _ h => (by cases h), fun _ => rfl⟩
    | s => exact ⟨rfl, rfl, fun _ h => (by cases h), fun _ => rfl⟩

theorem returnLine_spec (s : State) (l : Nat) (st : Mesi) :
    (∀ d, st = .m → s.input.data = some d → (s.returnLine l st).mem = (s.performStore (64 * l) (padded 64 d)).mem)
    ∧ (st ≠ .m ∨ s.input.data = none → (s.returnLine l st).mem = s.mem) := by
  unfold State.returnLine
  generalize s.input.data = o
  cases o with
  | none => cases st <;> exact ⟨fun d _ e => (by cases e), fun _ => rfl⟩
  | some d =>
    cases st with
    | m => exact ⟨fun d' _ e => (by cases e; rfl), fun h => h.elim (fun h => absurd rfl h) (fun h => (by cases h))⟩
    | e => exact ⟨fun _ h => (by cases h), fun _ => rfl⟩
    | s => exact ⟨fun _ h => (by cases h), fun _ => rfl⟩
    | i => exact ⟨fun _ h => (by cases h), fun _ => rfl⟩

/-- An answer on a port that is served is the response there, and changes nothing else. -/
theorem spdmAnswer_spec (s : State) (p code p1 p2 : Nat) (l : List Byte) (h : s.portOpen p = true) : ∃ t, s.spdmAnswer p code p1 p2 l = .next t
    ∧ (Map.get {} t.host.spdm p : Spdm).response = leBytes 4 (0x13 + 2 ^ 8 * code + 2 ^ 16 * p1 + 2 ^ 24 * p2) ++ l
    ∧ t.mem = s.mem ∧ t.groups = s.groups ∧ ∀ q, q ≠ p → (Map.get {} t.host.spdm q : Spdm) = Map.get {} s.host.spdm q := by
  have h1 : s.spdmAnswer p code p1 p2 l = _ := if_pos h
  refine ⟨_, h1, ?_, rfl, rfl, fun q hq => Map.get_set_other _ _ _ (Ne.symm hq)⟩
  exact congrArg Spdm.response (Map.get_set_same ..)

theorem spdmAnswer_shut (s : State) (p code p1 p2 : Nat) (l : List Byte) (h : s.portOpen p = false) : s.spdmAnswer p code p1 p2 l = .next s :=
  if_neg (by rw [h]; simp)

end Sys2Proof.Machine
end

