-- ==== Sys2Proof/Laws/Keeps.lean ====
section
/-! SUPPORT. The invariant `Inv` (the memory keeps its canonical form) through every operation:
one lemma for each function that answers a state (`f_inv`), one for each meaning
(`execX_inv`: it answers a next state in which `Inv` still holds), and one for what `step` adds. -/

namespace Sys2Proof.Machine
set_option linter.unusedVariables false

def Keeps (o : Out) : Prop := ∃ t, o = .next t ∧ Inv t
theorem keeps_next {t : State} (h : Inv t) : Keeps (.next t) := ⟨t, rfl, h⟩
theorem inv_foldl {α : Type} {f : State → α → State} {l : List α} {s : State} (hf : ∀ s x, Inv s → Inv (f s x)) (h : Inv s) :
    Inv (l.foldl f s) := by
  induction l generalizing s with
  | nil => exact h
  | cons x l ih => exact ih (hf s x h)
theorem inv_foldl_fst {α β : Type} {f : State × β → α → State × β} {l : List α} {p : State × β}
    (hf : ∀ p x, Inv p.1 → Inv (f p x).1) (h : Inv p.1) : Inv (l.foldl f p).1 := by
  induction l generalizing p with
  | nil => exact h
  | cons x l ih => exact ih (hf p x h)
theorem State.reset_keeps : Inv State.reset := rfl
theorem inv_of {t : State} (h : Memory.wf t.mem = true) : Inv t := h
theorem wf_of {t : State} (h : Inv t) : Memory.wf t.mem = true := h
def Fetched.Keeps : Fetched → Prop
  | .run _ t => Inv t
  | .stop t => Inv t
theorem Fetched.keeps_run {i : Instr} {t : State} (h : Inv t) : (Fetched.run i t).Keeps := h
theorem Fetched.keeps_stop {t : State} (h : Inv t) : (Fetched.stop t).Keeps := h
theorem Fetched.inv_run {x : Fetched} {i : Instr} {t : State} (e : x = .run i t) (h : x.Keeps) : Inv t := by rw [e] at h; exact h
theorem Fetched.inv_stop {x : Fetched} {t : State} (e : x = .stop t) (h : x.Keeps) : Inv t := by rw [e] at h; exact h
def Release.Keeps : Release → Prop
  | .wait t | .fault t | .ok t => Inv t
theorem Release.keeps_wait {t : State} (h : Inv t) : (Release.wait t).Keeps := h
theorem Release.keeps_fault {t : State} (h : Inv t) : (Release.fault t).Keeps := h
theorem Release.keeps_ok {t : State} (h : Inv t) : (Release.ok t).Keeps := h
theorem Release.inv_wait {x : Release} {t : State} (e : x = .wait t) (h : x.Keeps) : Inv t := by rw [e] at h; exact h
theorem Release.inv_fault {x : Release} {t : State} (e : x = .fault t) (h : x.Keeps) : Inv t := by rw [e] at h; exact h
theorem Release.inv_ok {x : Release} {t : State} (e : x = .ok t) (h : x.Keeps) : Inv t := by rw [e] at h; exact h
def HartHit.Keeps : HartHit → Prop
  | .fault t => Inv t
  | _ => True
theorem HartHit.keeps_fault {t : State} (h : Inv t) : (HartHit.fault t).Keeps := h
theorem HartHit.inv_fault {x : HartHit} {t : State} (e : x = .fault t) (h : x.Keeps) : Inv t := by rw [e] at h; exact h
def Check.Keeps : Check → Prop
  | .stop t => Inv t
  | _ => True
theorem Check.keeps_stop {t : State} (h : Inv t) : (Check.stop t).Keeps := h
theorem Check.inv_stop {x : Check} {t : State} (e : x = .stop t) (h : x.Keeps) : Inv t := by rw [e] at h; exact h
def RecRead.Keeps : RecRead → Prop
  | .ok _ t => Inv t
  | _ => True
theorem RecRead.keeps_ok {r : Rec} {t : State} (h : Inv t) : (RecRead.ok r t).Keeps := h
theorem RecRead.inv_ok {x : RecRead} {r : Rec} {t : State} (e : x = .ok r t) (h : x.Keeps) : Inv t := by rw [e] at h; exact h
def ByteRead.Keeps : ByteRead → Prop
  | .ok _ t => Inv t
  | _ => True
theorem ByteRead.keeps_ok {l : List Byte} {t : State} (h : Inv t) : (ByteRead.ok l t).Keeps := h
theorem ByteRead.inv_ok {x : ByteRead} {l : List Byte} {t : State} (e : x = .ok l t) (h : x.Keeps) : Inv t := by rw [e] at h; exact h
def Gather.Keeps (g : Gather) : Prop := Inv g.state
theorem Gather.inv {g : Gather} (h : g.Keeps) : Inv g.state := h
theorem inv_ite {c : Prop} [Decidable c] {a b : State} (ha : Inv a) (hb : Inv b) : Inv (if c then a else b) := by
  split
  · exact ha
  · exact hb
theorem inv_none {α : Type} {o : Option α} {f : α → State} {b : State} (hf : ∀ x, Inv (f x)) (hb : Inv b) :
    Inv (match o with | some x => f x | none => b) := by
  cases o
  · exact hb
  · exact hf _
theorem inv_write {s : State} (k : Nat) (l : List Byte) (h : Inv s) : Inv { s with mem := Memory.writeBytes s.mem k l } :=
  Memory.wf_writeBytes _ _ _ h
theorem inv_boot {s : State} (b : Boot) (h : Inv s) : Inv { s with boot := b } := h
theorem inv_sec {s : State} (x : Security) (h : Inv s) : Inv { s with sec := x } := h
theorem inv_boot_sec {s : State} (b : Boot) (x : Security) (h : Inv s) : Inv { s with boot := b, sec := x } := h
theorem inv_regs {s : State} (r : Map W64) (h : Inv s) : Inv { s with regs := r } := h
theorem inv_option {α : Type} {o : Option α} {a : State} {f : α → State} (ha : Inv a) (hf : ∀ x, Inv (f x)) :
    Inv (match o with | none => a | some x => f x) := by
  cases o
  · exact ha
  · exact hf _
theorem State.setGrpAt_inv (s : State) (k : Nat) (g : Group) (h_s : Inv s) :
    Inv (State.setGrpAt s k g) := by
  unfold State.setGrpAt
  try dsimp only
  repeat' first
    | (with_reducible first | assumption | apply keeps_next | apply inv_foldl | apply inv_foldl_fst)
    | with_reducible intro _
    | (with_reducible first | apply Memory.wf_writeBytes | apply Memory.wf_writeCells | apply Memory.wf_write | apply Memory.wf_clear)
    | split
    | (with_reducible refine wf_of ?_)
    | assumption
    | (with_reducible apply inv_of; dsimp only)
    | dsimp only
    | exact State.reset_keeps

theorem State.focus_inv (s : State) (k : Nat) (h_s : Inv s) :
    Inv (State.focus s k) := by
  unfold State.focus
  try dsimp only
  repeat' first
    | (with_reducible first | assumption | apply keeps_next | apply inv_foldl | apply inv_foldl_fst)
    | with_reducible intro _
    | (with_reducible first | apply Memory.wf_writeBytes | apply Memory.wf_writeCells | apply Memory.wf_write | apply Memory.wf_clear)
    | split
    | (with_reducible refine wf_of ?_)
    | assumption
    | (with_reducible apply inv_of; dsimp only)
    | dsimp only
    | exact State.reset_keeps

theorem State.setGrp_inv (s : State) (g : Group) (h_s : Inv s) :
    Inv (State.setGrp s g) := by
  unfold State.setGrp
  try dsimp only
  repeat' first
    | (with_reducible first | assumption | apply State.setGrpAt_inv | apply keeps_next | apply inv_foldl | apply inv_foldl_fst)
    | with_reducible intro _
    | (with_reducible first | apply Memory.wf_writeBytes | apply Memory.wf_writeCells | apply Memory.wf_write | apply Memory.wf_clear)
    | split
    | (with_reducible refine wf_of ?_)
    | assumption
    | (with_reducible apply inv_of; dsimp only)
    | dsimp only
    | exact State.reset_keeps

theorem State.setCoreAt_inv (s : State) (c : Nat) (v : Core) (h_s : Inv s) :
    Inv (State.setCoreAt s c v) := by
  unfold State.setCoreAt
  try dsimp only
  repeat' first
    | (with_reducible first | assumption | apply keeps_next | apply inv_foldl | apply inv_foldl_fst)
    | with_reducible intro _
    | (with_reducible first | apply Memory.wf_writeBytes | apply Memory.wf_writeCells | apply Memory.wf_write | apply Memory.wf_clear)
    | split
    | (with_reducible refine wf_of ?_)
    | assumption
    | (with_reducible apply inv_of; dsimp only)
    | dsimp only
    | exact State.reset_keeps

theorem State.setCore_inv (s : State) (v : Core) (h_s : Inv s) :
    Inv (State.setCore s v) := by
  unfold State.setCore
  try dsimp only
  repeat' first
    | (with_reducible first | assumption | apply State.setCoreAt_inv | apply keeps_next | apply inv_foldl | apply inv_foldl_fst)
    | with_reducible intro _
    | (with_reducible first | apply Memory.wf_writeBytes | apply Memory.wf_writeCells | apply Memory.wf_write | apply Memory.wf_clear)
    | split
    | (with_reducible refine wf_of ?_)
    | assumption
    | (with_reducible apply inv_of; dsimp only)
    | dsimp only
    | exact State.reset_keeps

theorem State.setBlkAt_inv (s : State) (k : Nat) (b : Block) (h_s : Inv s) :
    Inv (State.setBlkAt s k b) := by
  unfold State.setBlkAt
  try dsimp only
  repeat' first
    | (with_reducible first | assumption | apply keeps_next | apply inv_foldl | apply inv_foldl_fst)
    | with_reducible intro _
    | (with_reducible first | apply Memory.wf_writeBytes | apply Memory.wf_writeCells | apply Memory.wf_write | apply Memory.wf_clear)
    | split
    | (with_reducible refine wf_of ?_)
    | assumption
    | (with_reducible apply inv_of; dsimp only)
    | dsimp only
    | exact State.reset_keeps

theorem State.setBlk_inv (s : State) (b : Block) (h_s : Inv s) :
    Inv (State.setBlk s b) := by
  unfold State.setBlk
  try dsimp only
  repeat' first
    | (with_reducible first | assumption | apply State.setBlkAt_inv | apply keeps_next | apply inv_foldl | apply inv_foldl_fst)
    | with_reducible intro _
    | (with_reducible first | apply Memory.wf_writeBytes | apply Memory.wf_writeCells | apply Memory.wf_write | apply Memory.wf_clear)
    | split
    | (with_reducible refine wf_of ?_)
    | assumption
    | (with_reducible apply inv_of; dsimp only)
    | dsimp only
    | exact State.reset_keeps

theorem State.countBlkErr_inv (s : State) (c : Nat) (h_s : Inv s) :
    Inv (State.countBlkErr s c) := by
  unfold State.countBlkErr
  try dsimp only
  repeat' first
    | (with_reducible first | assumption | apply State.setCoreAt_inv | apply keeps_next | apply inv_foldl | apply inv_foldl_fst)
    | with_reducible intro _
    | (with_reducible first | apply Memory.wf_writeBytes | apply Memory.wf_writeCells | apply Memory.wf_write | apply Memory.wf_clear)
    | split
    | (with_reducible refine wf_of ?_)
    | assumption
    | (with_reducible apply inv_of; dsimp only)
    | dsimp only
    | exact State.reset_keeps

theorem State.storeCells_inv (s : State) (cells : List (Nat × Byte)) (h_s : Inv s) :
    Inv (State.storeCells s cells) := by
  unfold State.storeCells
  try dsimp only
  repeat' first
    | (with_reducible first | assumption | apply keeps_next | apply inv_foldl | apply inv_foldl_fst)
    | with_reducible intro _
    | (with_reducible first | apply Memory.wf_writeBytes | apply Memory.wf_writeCells | apply Memory.wf_write | apply Memory.wf_clear)
    | split
    | (with_reducible refine wf_of ?_)
    | assumption
    | (with_reducible apply inv_of; dsimp only)
    | dsimp only
    | exact State.reset_keeps

theorem State.breakResv_inv (s : State) (key : Nat) (n : Nat) (h_s : Inv s) :
    Inv (State.breakResv s key n) := by
  unfold State.breakResv
  try dsimp only
  repeat' first
    | (with_reducible first | assumption | apply keeps_next | apply inv_foldl | apply inv_foldl_fst)
    | with_reducible intro _
    | (with_reducible first | apply Memory.wf_writeBytes | apply Memory.wf_writeCells | apply Memory.wf_write | apply Memory.wf_clear)
    | split
    | (with_reducible refine wf_of ?_)
    | assumption
    | (with_reducible apply inv_of; dsimp only)
    | dsimp only
    | exact State.reset_keeps

theorem State.l1Forget_inv (s : State) (core : Nat) (pa : Nat) (h_s : Inv s) :
    Inv (State.l1Forget s core pa) := by
  unfold State.l1Forget
  try dsimp only
  repeat' first
    | (with_reducible first | assumption | apply State.setCoreAt_inv | apply keeps_next | apply inv_foldl | apply inv_foldl_fst)
    | with_reducible intro _
    | (with_reducible first | apply Memory.wf_writeBytes | apply Memory.wf_writeCells | apply Memory.wf_write | apply Memory.wf_clear)
    | split
    | (with_reducible refine wf_of ?_)
    | assumption
    | (with_reducible apply inv_of; dsimp only)
    | dsimp only
    | exact State.reset_keeps

theorem State.sectorHome_inv (s : State) (d : DirtySector) (pa : Nat) (h_s : Inv s) :
    Inv (State.sectorHome s d pa) := by
  unfold State.sectorHome
  try dsimp only
  repeat' first
    | (with_reducible first | assumption | apply State.l1Forget_inv | apply State.storeCells_inv | apply keeps_next | apply inv_foldl | apply inv_foldl_fst)
    | with_reducible intro _
    | (with_reducible first | apply Memory.wf_writeBytes | apply Memory.wf_writeCells | apply Memory.wf_write | apply Memory.wf_clear)
    | split
    | (with_reducible refine wf_of ?_)
    | assumption
    | (with_reducible apply inv_of; dsimp only)
    | dsimp only
    | exact State.reset_keeps

theorem State.flushHome_inv (s : State) (key : Nat) (h_s : Inv s) :
    Inv (State.flushHome s key) := by
  unfold State.flushHome
  try dsimp only
  repeat' first
    | (with_reducible first | assumption | apply State.sectorHome_inv | apply keeps_next | apply inv_foldl | apply inv_foldl_fst)
    | with_reducible intro _
    | (with_reducible first | apply Memory.wf_writeBytes | apply Memory.wf_writeCells | apply Memory.wf_write | apply Memory.wf_clear)
    | split
    | (with_reducible refine wf_of ?_)
    | assumption
    | (with_reducible apply inv_of; dsimp only)
    | dsimp only
    | exact State.reset_keeps

theorem State.homeWrite_inv (s : State) (key : Nat) (l : List Byte) (h_s : Inv s) :
    Inv (State.homeWrite s key l) := by
  unfold State.homeWrite
  try dsimp only
  repeat' first
    | (with_reducible first | assumption | apply State.breakResv_inv | apply State.storeCells_inv | apply State.flushHome_inv | apply keeps_next | apply inv_foldl | apply inv_foldl_fst)
    | with_reducible intro _
    | (with_reducible first | apply Memory.wf_writeBytes | apply Memory.wf_writeCells | apply Memory.wf_write | apply Memory.wf_clear)
    | split
    | (with_reducible refine wf_of ?_)
    | assumption
    | (with_reducible apply inv_of; dsimp only)
    | dsimp only
    | exact State.reset_keeps

theorem State.setPart_inv (s : State) (p : Nat) (v : Part) (h_s : Inv s) :
    Inv (State.setPart s p v) := by
  unfold State.setPart
  try dsimp only
  repeat' first
    | (with_reducible first | assumption | apply keeps_next | apply inv_foldl | apply inv_foldl_fst)
    | with_reducible intro _
    | (with_reducible first | apply Memory.wf_writeBytes | apply Memory.wf_writeCells | apply Memory.wf_write | apply Memory.wf_clear)
    | split
    | (with_reducible refine wf_of ?_)
    | assumption
    | (with_reducible apply inv_of; dsimp only)
    | dsimp only
    | exact State.reset_keeps

theorem State.trace_inv (s : State) (k kind asid payload : Nat) (h_s : Inv s) : Inv (s.trace k kind asid payload) := by
  unfold State.trace
  exact inv_ite h_s (inv_ite (State.setPart_inv _ _ _ h_s) (State.setPart_inv _ _ _ (State.homeWrite_inv _ _ _ h_s)))

theorem State.trapAt_inv (s : State) (k : Nat) (cause : Nat) (irq : Bool) (val : W64) (h_s : Inv s) :
    Inv (State.trapAt s k cause irq val) := by
  unfold State.trapAt
  try dsimp only
  repeat' first
    | (with_reducible first | assumption | apply State.trace_inv | apply State.setGrpAt_inv | apply keeps_next | apply inv_foldl | apply inv_foldl_fst)
    | with_reducible intro _
    | (with_reducible first | apply Memory.wf_writeBytes | apply Memory.wf_writeCells | apply Memory.wf_write | apply Memory.wf_clear)
    | split
    | (with_reducible refine wf_of ?_)
    | assumption
    | (with_reducible apply inv_of; dsimp only)
    | dsimp only
    | exact State.reset_keeps

theorem State.trap_inv (s : State) (cause : Nat) (val : W64) (h_s : Inv s) :
    Inv (State.trap s cause val) := by
  unfold State.trap
  try dsimp only
  repeat' first
    | (with_reducible first | assumption | apply State.trapAt_inv | apply keeps_next | apply inv_foldl | apply inv_foldl_fst)
    | with_reducible intro _
    | (with_reducible first | apply Memory.wf_writeBytes | apply Memory.wf_writeCells | apply Memory.wf_write | apply Memory.wf_clear)
    | split
    | (with_reducible refine wf_of ?_)
    | assumption
    | (with_reducible apply inv_of; dsimp only)
    | dsimp only
    | exact State.reset_keeps

theorem raise_inv (s : State) (cause : Nat) (val : W64) (h_s : Inv s) :
    Keeps (raise s cause val) := by
  unfold raise
  try dsimp only
  repeat' first
    | (with_reducible first | assumption | apply State.trap_inv | apply keeps_next | apply inv_foldl | apply inv_foldl_fst)
    | with_reducible intro _
    | (with_reducible first | apply Memory.wf_writeBytes | apply Memory.wf_writeCells | apply Memory.wf_write | apply Memory.wf_clear)
    | split
    | (with_reducible refine wf_of ?_)
    | assumption
    | (with_reducible apply inv_of; dsimp only)
    | dsimp only
    | exact State.reset_keeps

theorem illegal_inv (s : State) (h_s : Inv s) :
    Keeps (illegal s) := by
  unfold illegal
  try dsimp only
  repeat' first
    | (with_reducible first | assumption | apply raise_inv | apply keeps_next | apply inv_foldl | apply inv_foldl_fst)
    | with_reducible intro _
    | (with_reducible first | apply Memory.wf_writeBytes | apply Memory.wf_writeCells | apply Memory.wf_write | apply Memory.wf_clear)
    | split
    | (with_reducible refine wf_of ?_)
    | assumption
    | (with_reducible apply inv_of; dsimp only)
    | dsimp only
    | exact State.reset_keeps

theorem hartWaits_inv (s : State) (w : HartWait) (h_s : Inv s) :
    Keeps (hartWaits s w) := by
  unfold hartWaits
  try dsimp only
  repeat' first
    | (with_reducible first | assumption | apply State.setGrp_inv | apply keeps_next | apply inv_foldl | apply inv_foldl_fst)
    | with_reducible intro _
    | (with_reducible first | apply Memory.wf_writeBytes | apply Memory.wf_writeCells | apply Memory.wf_write | apply Memory.wf_clear)
    | split
    | (with_reducible refine wf_of ?_)
    | assumption
    | (with_reducible apply inv_of; dsimp only)
    | dsimp only
    | exact State.reset_keeps

theorem laneRaise_inv (s : State) (code : Nat) (cause : Nat) (mask : LaneMask) (val : W64) (h_s : Inv s) :
    Keeps (laneRaise s code cause mask val) := by
  unfold laneRaise
  try dsimp only
  repeat' first
    | (with_reducible first | assumption | apply State.setGrp_inv | apply keeps_next | apply inv_foldl | apply inv_foldl_fst)
    | with_reducible intro _
    | (with_reducible first | apply Memory.wf_writeBytes | apply Memory.wf_writeCells | apply Memory.wf_write | apply Memory.wf_clear)
    | split
    | (with_reducible refine wf_of ?_)
    | assumption
    | (with_reducible apply inv_of; dsimp only)
    | dsimp only
    | exact State.reset_keeps

theorem laneIllegal_inv (s : State) (code : Nat) (h_s : Inv s) :
    Keeps (laneIllegal s code) := by
  unfold laneIllegal
  try dsimp only
  repeat' first
    | (with_reducible first | assumption | apply laneRaise_inv | apply keeps_next | apply inv_foldl | apply inv_foldl_fst)
    | with_reducible intro _
    | (with_reducible first | apply Memory.wf_writeBytes | apply Memory.wf_writeCells | apply Memory.wf_write | apply Memory.wf_clear)
    | split
    | (with_reducible refine wf_of ?_)
    | assumption
    | (with_reducible apply inv_of; dsimp only)
    | dsimp only
    | exact State.reset_keeps

theorem laneWaits_inv (s : State) (w : LaneWait) (h_s : Inv s) :
    Keeps (laneWaits s w) := by
  unfold laneWaits
  try dsimp only
  repeat' first
    | (with_reducible first | assumption | apply State.setGrp_inv | apply keeps_next | apply inv_foldl | apply inv_foldl_fst)
    | with_reducible intro _
    | (with_reducible first | apply Memory.wf_writeBytes | apply Memory.wf_writeCells | apply Memory.wf_write | apply Memory.wf_clear)
    | split
    | (with_reducible refine wf_of ?_)
    | assumption
    | (with_reducible apply inv_of; dsimp only)
    | dsimp only
    | exact State.reset_keeps

theorem State.poisonedPop_inv (s : State) (q : Nat) (k : Nat) (h_s : Inv s) :
    Inv (State.poisonedPop s q k) := by
  unfold State.poisonedPop
  try dsimp only
  repeat' first
    | (with_reducible first | assumption | apply State.setGrp_inv | apply keeps_next | apply inv_foldl | apply inv_foldl_fst)
    | with_reducible intro _
    | (with_reducible first | apply Memory.wf_writeBytes | apply Memory.wf_writeCells | apply Memory.wf_write | apply Memory.wf_clear)
    | split
    | (with_reducible refine wf_of ?_)
    | assumption
    | (with_reducible apply inv_of; dsimp only)
    | dsimp only
    | exact State.reset_keeps

theorem State.invalidate_inv (s : State) (core : Nat) (hit : Track → Bool) (h_s : Inv s) :
    Inv (State.invalidate s core hit) := by
  unfold State.invalidate
  try dsimp only
  repeat' first
    | (with_reducible first | assumption | apply State.setCoreAt_inv | apply keeps_next | apply inv_foldl | apply inv_foldl_fst)
    | with_reducible intro _
    | (with_reducible first | apply Memory.wf_writeBytes | apply Memory.wf_writeCells | apply Memory.wf_write | apply Memory.wf_clear)
    | split
    | (with_reducible refine wf_of ?_)
    | assumption
    | (with_reducible apply inv_of; dsimp only)
    | dsimp only
    | exact State.reset_keeps

theorem State.touchRegs_inv (s : State) (lo : Nat) (hi : Nat) (h_s : Inv s) :
    Inv (State.touchRegs s lo hi) := by
  unfold State.touchRegs
  try dsimp only
  repeat' first
    | (with_reducible first | assumption | apply State.invalidate_inv | apply keeps_next | apply inv_foldl | apply inv_foldl_fst)
    | with_reducible intro _
    | (with_reducible first | apply Memory.wf_writeBytes | apply Memory.wf_writeCells | apply Memory.wf_write | apply Memory.wf_clear)
    | split
    | (with_reducible refine wf_of ?_)
    | assumption
    | (with_reducible apply inv_of; dsimp only)
    | dsimp only
    | exact State.reset_keeps

theorem State.touchScratch_inv (s : State) (blk : Nat) (off : Nat) (n : Nat) (h_s : Inv s) :
    Inv (State.touchScratch s blk off n) := by
  unfold State.touchScratch
  try dsimp only
  repeat' first
    | (with_reducible first | assumption | apply State.invalidate_inv | apply keeps_next | apply inv_foldl | apply inv_foldl_fst)
    | with_reducible intro _
    | (with_reducible first | apply Memory.wf_writeBytes | apply Memory.wf_writeCells | apply Memory.wf_write | apply Memory.wf_clear)
    | split
    | (with_reducible refine wf_of ?_)
    | assumption
    | (with_reducible apply inv_of; dsimp only)
    | dsimp only
    | exact State.reset_keeps

theorem State.writeDest_inv (s : State) (wide : Bool) (d : Code) (act : LaneMask) (f : Nat → W64) (h_s : Inv s) :
    Inv (State.writeDest s wide d act f) := by
  unfold State.writeDest
  try dsimp only
  repeat' first
    | (with_reducible first | assumption | apply State.touchRegs_inv | apply State.setGrp_inv | apply keeps_next | apply inv_foldl | apply inv_foldl_fst)
    | with_reducible intro _
    | (with_reducible first | apply Memory.wf_writeBytes | apply Memory.wf_writeCells | apply Memory.wf_write | apply Memory.wf_clear)
    | split
    | (with_reducible refine wf_of ?_)
    | assumption
    | (with_reducible apply inv_of; dsimp only)
    | dsimp only
    | exact State.reset_keeps

theorem State.writeMask_inv (s : State) (m : Code) (v : LaneMask) (h_s : Inv s) :
    Inv (State.writeMask s m v) := by
  unfold State.writeMask
  try dsimp only
  repeat' first
    | (with_reducible first | assumption | apply State.setGrp_inv | apply keeps_next | apply inv_foldl | apply inv_foldl_fst)
    | with_reducible intro _
    | (with_reducible first | apply Memory.wf_writeBytes | apply Memory.wf_writeCells | apply Memory.wf_write | apply Memory.wf_clear)
    | split
    | (with_reducible refine wf_of ?_)
    | assumption
    | (with_reducible apply inv_of; dsimp only)
    | dsimp only
    | exact State.reset_keeps

theorem State.pushFbq_inv (s : State) (v : W64) (h_s : Inv s) :
    Inv (State.pushFbq s v) := by
  unfold State.pushFbq
  try dsimp only
  repeat' first
    | (with_reducible first | assumption | apply State.setGrp_inv | apply keeps_next | apply inv_foldl | apply inv_foldl_fst)
    | with_reducible intro _
    | (with_reducible first | apply Memory.wf_writeBytes | apply Memory.wf_writeCells | apply Memory.wf_write | apply Memory.wf_clear)
    | split
    | (with_reducible refine wf_of ?_)
    | assumption
    | (with_reducible apply inv_of; dsimp only)
    | dsimp only
    | exact State.reset_keeps

theorem Check.fault_inv (s : State) (code : Nat) (mask : LaneMask) (val : W64) (h_s : Inv s) :
    (Check.fault s code mask val).Keeps := by
  unfold Check.fault
  try dsimp only
  repeat' first
    | (with_reducible first | assumption | apply State.setGrp_inv | apply Check.keeps_stop)
    | refine Check.inv_stop (by with_reducible assumption) ?_
    | exact trivial
    | (with_reducible first | apply keeps_next | apply inv_foldl | apply inv_foldl_fst)
    | with_reducible intro _
    | (with_reducible first | apply Memory.wf_writeBytes | apply Memory.wf_writeCells | apply Memory.wf_write | apply Memory.wf_clear)
    | split
    | (with_reducible refine wf_of ?_)
    | assumption
    | (with_reducible apply inv_of; dsimp only)
    | dsimp only
    | exact State.reset_keeps

theorem LaneForm.commit_inv (o : LaneForm) (s : State) (h_s : Inv s) :
    Inv (LaneForm.commit o s) := by
  unfold LaneForm.commit
  try dsimp only
  repeat' first
    | (with_reducible first | assumption | apply State.setGrp_inv | apply keeps_next | apply inv_foldl | apply inv_foldl_fst)
    | with_reducible intro _
    | (with_reducible first | apply Memory.wf_writeBytes | apply Memory.wf_writeCells | apply Memory.wf_write | apply Memory.wf_clear)
    | split
    | (with_reducible refine wf_of ?_)
    | assumption
    | (with_reducible apply inv_of; dsimp only)
    | dsimp only
    | exact State.reset_keeps

theorem laneRun_inv (s : State) (o : LaneForm) (check : List LaneVec → Check) (eff : List LaneVec → LaneMask → State → State) (h_s : Inv s) (h_check : ∀ v0, (check v0).Keeps) (h_eff : ∀ v0 v1 v2, Inv v2 → Inv (eff v0 v1 v2)) :
    Keeps (laneRun s o check eff) := by
  unfold laneRun
  try dsimp only
  repeat' first
    | (with_reducible first | assumption | apply laneIllegal_inv | apply laneWaits_inv | apply laneRaise_inv | apply State.poisonedPop_inv | apply LaneForm.commit_inv | apply h_check | apply h_eff | apply Check.keeps_stop)
    | refine Check.inv_stop (by with_reducible assumption) ?_
    | exact trivial
    | (with_reducible first | apply keeps_next | apply inv_foldl | apply inv_foldl_fst)
    | with_reducible intro _
    | (with_reducible first | apply Memory.wf_writeBytes | apply Memory.wf_writeCells | apply Memory.wf_write | apply Memory.wf_clear)
    | split
    | (with_reducible refine wf_of ?_)
    | assumption
    | (with_reducible apply inv_of; dsimp only)
    | dsimp only
    | exact State.reset_keeps

theorem laneAlu_inv (s : State) (len : Nat) (dw : Bool) (d : Code) (srcs : List Src) (f : (Nat → W64) → Nat → W64) (h_s : Inv s) :
    Keeps (laneAlu s len dw d srcs f) := by
  unfold laneAlu
  try dsimp only
  repeat' first
    | (with_reducible first | assumption | apply laneRun_inv | apply State.writeDest_inv | apply Check.keeps_stop)
    | refine Check.inv_stop (by with_reducible assumption) ?_
    | exact trivial
    | (with_reducible first | apply keeps_next | apply inv_foldl | apply inv_foldl_fst)
    | with_reducible intro _
    | (with_reducible first | apply Memory.wf_writeBytes | apply Memory.wf_writeCells | apply Memory.wf_write | apply Memory.wf_clear)
    | split
    | (with_reducible refine wf_of ?_)
    | assumption
    | (with_reducible apply inv_of; dsimp only)
    | dsimp only
    | exact State.reset_keeps

theorem State.setFlags_inv (s : State) (k : Nat) (f : BitVec 4) (h_s : Inv s) :
    Inv (State.setFlags s k f) := by
  unfold State.setFlags
  try dsimp only
  repeat' first
    | (with_reducible first | assumption | apply State.setGrpAt_inv | apply keeps_next | apply inv_foldl | apply inv_foldl_fst)
    | with_reducible intro _
    | (with_reducible first | apply Memory.wf_writeBytes | apply Memory.wf_writeCells | apply Memory.wf_write | apply Memory.wf_clear)
    | split
    | (with_reducible refine wf_of ?_)
    | assumption
    | (with_reducible apply inv_of; dsimp only)
    | dsimp only
    | exact State.reset_keeps

theorem State.keepTlb_inv (s : State) (t : TlbEntry) (h_s : Inv s) :
    Inv (State.keepTlb s t) := by
  unfold State.keepTlb
  try dsimp only
  repeat' first
    | (with_reducible first | assumption | apply keeps_next | apply inv_foldl | apply inv_foldl_fst)
    | with_reducible intro _
    | (with_reducible first | apply Memory.wf_writeBytes | apply Memory.wf_writeCells | apply Memory.wf_write | apply Memory.wf_clear)
    | split
    | (with_reducible refine wf_of ?_)
    | assumption
    | (with_reducible apply inv_of; dsimp only)
    | dsimp only
    | exact State.reset_keeps

theorem State.pushPager_inv (s : State) (p : Nat) (q : Nat) (rec_ : Nat → List Byte) (h_s : Inv s) :
    Inv (State.pushPager s p q rec_) := by
  unfold State.pushPager
  try dsimp only
  repeat' first
    | (with_reducible first | assumption | apply State.setPart_inv | apply State.homeWrite_inv | apply keeps_next | apply inv_foldl | apply inv_foldl_fst)
    | with_reducible intro _
    | (with_reducible first | apply Memory.wf_writeBytes | apply Memory.wf_writeCells | apply Memory.wf_write | apply Memory.wf_clear)
    | split
    | (with_reducible refine wf_of ?_)
    | assumption
    | (with_reducible apply inv_of; dsimp only)
    | dsimp only
    | exact State.reset_keeps

theorem State.pushRecord_inv (s : State) (p : Nat) (asid : Nat) (r : Route) (rec_ : Nat → List Byte) (h_s : Inv s) :
    Inv (State.pushRecord s p asid r rec_) := by
  unfold State.pushRecord
  try dsimp only
  repeat' first
    | (with_reducible first | assumption | apply State.pushPager_inv | apply State.setPart_inv | apply keeps_next | apply inv_foldl | apply inv_foldl_fst)
    | with_reducible intro _
    | (with_reducible first | apply Memory.wf_writeBytes | apply Memory.wf_writeCells | apply Memory.wf_write | apply Memory.wf_clear)
    | split
    | (with_reducible refine wf_of ?_)
    | assumption
    | (with_reducible apply inv_of; dsimp only)
    | dsimp only
    | exact State.reset_keeps

theorem State.streamFault_inv (s : State) (k : Nat) (party : Party) (va : Nat) (n : Need) (f : XFault) (h_s : Inv s) :
    Inv (State.streamFault s k party va n f) := by
  unfold State.streamFault
  try dsimp only
  repeat' first
    | (with_reducible first | assumption | apply State.pushRecord_inv | apply State.setGrpAt_inv | apply keeps_next | apply inv_foldl | apply inv_foldl_fst)
    | with_reducible intro _
    | (with_reducible first | apply Memory.wf_writeBytes | apply Memory.wf_writeCells | apply Memory.wf_write | apply Memory.wf_clear)
    | split
    | (with_reducible refine wf_of ?_)
    | assumption
    | (with_reducible apply inv_of; dsimp only)
    | dsimp only
    | exact State.reset_keeps

theorem State.hostTouch_inv (s : State) (key : Nat) (n : Nat) (write : Bool) (h_s : Inv s) :
    Inv (State.hostTouch s key n write) := by
  unfold State.hostTouch
  try dsimp only
  repeat' first
    | (with_reducible first | assumption | apply keeps_next | apply inv_foldl | apply inv_foldl_fst)
    | with_reducible intro _
    | (with_reducible first | apply Memory.wf_writeBytes | apply Memory.wf_writeCells | apply Memory.wf_write | apply Memory.wf_clear)
    | split
    | (with_reducible refine wf_of ?_)
    | assumption
    | (with_reducible apply inv_of; dsimp only)
    | dsimp only
    | exact State.reset_keeps

theorem State.askLine_inv (s : State) (x : Nat × Bool) (h_s : Inv s) :
    Inv (State.askLine s x) := by
  unfold State.askLine
  try dsimp only
  repeat' first
    | (with_reducible first | assumption | apply keeps_next | apply inv_foldl | apply inv_foldl_fst)
    | with_reducible intro _
    | (with_reducible first | apply Memory.wf_writeBytes | apply Memory.wf_writeCells | apply Memory.wf_write | apply Memory.wf_clear)
    | split
    | (with_reducible refine wf_of ?_)
    | assumption
    | (with_reducible apply inv_of; dsimp only)
    | dsimp only
    | exact State.reset_keeps

theorem State.hostEvict_inv (s : State) (core : Nat) (key : Nat) (h_s : Inv s) :
    Inv (State.hostEvict s core key) := by
  unfold State.hostEvict
  try dsimp only
  repeat' first
    | (with_reducible first | assumption | apply keeps_next | apply inv_foldl | apply inv_foldl_fst)
    | with_reducible intro _
    | (with_reducible first | apply Memory.wf_writeBytes | apply Memory.wf_writeCells | apply Memory.wf_write | apply Memory.wf_clear)
    | split
    | (with_reducible refine wf_of ?_)
    | assumption
    | (with_reducible apply inv_of; dsimp only)
    | dsimp only
    | exact State.reset_keeps

theorem State.evictModified_inv (s : State) (core : Nat) (h_s : Inv s) :
    Inv (State.evictModified s core) := by
  unfold State.evictModified
  try dsimp only
  repeat' first
    | (with_reducible first | assumption | apply State.hostEvict_inv | apply keeps_next | apply inv_foldl | apply inv_foldl_fst)
    | with_reducible intro _
    | (with_reducible first | apply Memory.wf_writeBytes | apply Memory.wf_writeCells | apply Memory.wf_write | apply Memory.wf_clear)
    | split
    | (with_reducible refine wf_of ?_)
    | assumption
    | (with_reducible apply inv_of; dsimp only)
    | dsimp only
    | exact State.reset_keeps

theorem State.writeBack_inv (s : State) (d : DirtySector) (h_s : Inv s) :
    ∀ u, State.writeBack s d = .ok u → Inv u := by
  unfold State.writeBack
  try dsimp only
  repeat' first
    | (with_reducible first | assumption | apply State.sectorHome_inv | apply State.keepTlb_inv | apply keeps_next | apply inv_foldl | apply inv_foldl_fst)
    | with_reducible intro _
    | (with_reducible first | apply Memory.wf_writeBytes | apply Memory.wf_writeCells | apply Memory.wf_write | apply Memory.wf_clear)
    | split
    | (with_reducible refine wf_of ?_)
    | assumption
    | (with_reducible apply inv_of; dsimp only)
    | dsimp only
    | (rename_i e; cases e; done)
    | (rename_i e; cases e)
    | (rename_i e; dsimp only at e; split at e)
    | (rename_i e; split at e)
    | exact State.reset_keeps

theorem State.writeBack_eq {s : State} {d : DirtySector} {u : State} (e : State.writeBack s d = .ok u) (h_s : Inv s) : Inv u := State.writeBack_inv s d h_s _ e

theorem State.evictSector_inv (s : State) (d : DirtySector) (h_s : Inv s) :
    ∀ u, State.evictSector s d = .ok u → Inv u := by
  unfold State.evictSector
  try dsimp only
  repeat' first
    | (with_reducible first | assumption | apply State.hostEvict_inv)
    | refine State.writeBack_eq (by with_reducible assumption) ?_
    | (with_reducible first | apply keeps_next | apply inv_foldl | apply inv_foldl_fst)
    | with_reducible intro _
    | (with_reducible first | apply Memory.wf_writeBytes | apply Memory.wf_writeCells | apply Memory.wf_write | apply Memory.wf_clear)
    | split
    | (with_reducible refine wf_of ?_)
    | assumption
    | (with_reducible apply inv_of; dsimp only)
    | dsimp only
    | (rename_i e; cases e; done)
    | (rename_i e; cases e)
    | (rename_i e; dsimp only at e; split at e)
    | (rename_i e; split at e)
    | exact State.reset_keeps

theorem State.evictSector_eq {s : State} {d : DirtySector} {u : State} (e : State.evictSector s d = .ok u) (h_s : Inv s) : Inv u := State.evictSector_inv s d h_s _ e

theorem State.writeBackAll_inv (s : State) (l : List DirtySector) (h_s : Inv s) : ∀ u, s.writeBackAll l = .ok u → Inv u := by
  induction l generalizing s with
  | nil => intro u e; cases e; exact h_s
  | cons d l ih =>
    intro u e
    unfold State.writeBackAll at e
    split at e
    · cases e
    · rename_i e'; exact ih _ (State.evictSector_eq e' h_s) u e

theorem State.writeBackAll_eq {s : State} {l : List DirtySector} {u : State} (e : State.writeBackAll s l = .ok u) (h_s : Inv s) : Inv u := State.writeBackAll_inv s l h_s _ e

theorem State.flushSector_inv (s : State) (asid : Nat) (va : Nat) (h_s : Inv s) :
    Inv (State.flushSector s asid va) := by
  unfold State.flushSector
  try dsimp only
  repeat' first
    | (with_reducible first | assumption | apply State.flushHome_inv | apply keeps_next | apply inv_foldl | apply inv_foldl_fst)
    | with_reducible intro _
    | (with_reducible first | apply Memory.wf_writeBytes | apply Memory.wf_writeCells | apply Memory.wf_write | apply Memory.wf_clear)
    | split
    | (with_reducible refine wf_of ?_)
    | assumption
    | (with_reducible apply inv_of; dsimp only)
    | dsimp only
    | exact State.reset_keeps

theorem State.meter_inv (s : State) (src : Nat) (va : Nat) (n : Nat) (t : Option TlbEntry) (h_s : Inv s) :
    Inv (State.meter s src va n t) := by
  unfold State.meter
  try dsimp only
  repeat' first
    | (with_reducible first | assumption | apply State.setPart_inv | apply State.setCore_inv | apply keeps_next | apply inv_foldl | apply inv_foldl_fst)
    | with_reducible intro _
    | (with_reducible first | apply Memory.wf_writeBytes | apply Memory.wf_writeCells | apply Memory.wf_write | apply Memory.wf_clear)
    | split
    | (with_reducible refine wf_of ?_)
    | assumption
    | (with_reducible apply inv_of; dsimp only)
    | dsimp only
    | exact State.reset_keeps

theorem State.meterVa_inv (s : State) (src : Nat) (va : Nat) (n : Nat) (h_s : Inv s) :
    Inv (State.meterVa s src va n) := by
  unfold State.meterVa
  try dsimp only
  repeat' first
    | (with_reducible first | assumption | apply State.meter_inv | apply keeps_next | apply inv_foldl | apply inv_foldl_fst)
    | with_reducible intro _
    | (with_reducible first | apply Memory.wf_writeBytes | apply Memory.wf_writeCells | apply Memory.wf_write | apply Memory.wf_clear)
    | split
    | (with_reducible refine wf_of ?_)
    | assumption
    | (with_reducible apply inv_of; dsimp only)
    | dsimp only
    | exact State.reset_keeps

theorem State.meterAt_inv (s : State) (src : Nat) (va : Option Nat) (n : Nat) (t : Option TlbEntry) (h_s : Inv s) :
    Inv (State.meterAt s src va n t) := by
  unfold State.meterAt
  try dsimp only
  repeat' first
    | (with_reducible first | assumption | apply State.meter_inv | apply keeps_next | apply inv_foldl | apply inv_foldl_fst)
    | with_reducible intro _
    | (with_reducible first | apply Memory.wf_writeBytes | apply Memory.wf_writeCells | apply Memory.wf_write | apply Memory.wf_clear)
    | split
    | (with_reducible refine wf_of ?_)
    | assumption
    | (with_reducible apply inv_of; dsimp only)
    | dsimp only
    | exact State.reset_keeps

theorem State.letThrough_inv (s : State) (core : Nat) (h_s : Inv s) :
    Inv (State.letThrough s core) := by
  unfold State.letThrough
  try dsimp only
  repeat' first
    | (with_reducible first | assumption | apply State.setCoreAt_inv | apply keeps_next | apply inv_foldl | apply inv_foldl_fst)
    | with_reducible intro _
    | (with_reducible first | apply Memory.wf_writeBytes | apply Memory.wf_writeCells | apply Memory.wf_write | apply Memory.wf_clear)
    | split
    | (with_reducible refine wf_of ?_)
    | assumption
    | (with_reducible apply inv_of; dsimp only)
    | dsimp only
    | exact State.reset_keeps

theorem State.countEcc_inv (s : State) (core : Nat) (i : Nat) (bad : Bool) (h_s : Inv s) :
    Inv (State.countEcc s core i bad) := by
  unfold State.countEcc
  try dsimp only
  repeat' first
    | (with_reducible first | assumption | apply State.setCoreAt_inv | apply keeps_next | apply inv_foldl | apply inv_foldl_fst)
    | with_reducible intro _
    | (with_reducible first | apply Memory.wf_writeBytes | apply Memory.wf_writeCells | apply Memory.wf_write | apply Memory.wf_clear)
    | split
    | (with_reducible refine wf_of ?_)
    | assumption
    | (with_reducible apply inv_of; dsimp only)
    | dsimp only
    | exact State.reset_keeps

theorem State.l1Drop_inv (s : State) (core : Nat) (asid : Nat) (va : Nat) (h_s : Inv s) :
    Inv (State.l1Drop s core asid va) := by
  unfold State.l1Drop
  try dsimp only
  repeat' first
    | (with_reducible first | assumption | apply State.setCoreAt_inv | apply keeps_next | apply inv_foldl | apply inv_foldl_fst)
    | with_reducible intro _
    | (with_reducible first | apply Memory.wf_writeBytes | apply Memory.wf_writeCells | apply Memory.wf_write | apply Memory.wf_clear)
    | split
    | (with_reducible refine wf_of ?_)
    | assumption
    | (with_reducible apply inv_of; dsimp only)
    | dsimp only
    | exact State.reset_keeps

theorem State.l1Clear_inv (s : State) (core : Nat) (h_s : Inv s) :
    Inv (State.l1Clear s core) := by
  unfold State.l1Clear
  try dsimp only
  repeat' first
    | (with_reducible first | assumption | apply State.setCoreAt_inv | apply keeps_next | apply inv_foldl | apply inv_foldl_fst)
    | with_reducible intro _
    | (with_reducible first | apply Memory.wf_writeBytes | apply Memory.wf_writeCells | apply Memory.wf_write | apply Memory.wf_clear)
    | split
    | (with_reducible refine wf_of ?_)
    | assumption
    | (with_reducible apply inv_of; dsimp only)
    | dsimp only
    | exact State.reset_keeps

theorem State.l1Fill_inv (s : State) (core : Nat) (asid : Nat) (va : Nat) (pa : Nat) (glob : Bool) (h_s : Inv s) :
    Inv (State.l1Fill s core asid va pa glob) := by
  unfold State.l1Fill
  try dsimp only
  repeat' first
    | (with_reducible first | assumption | apply State.setCoreAt_inv | apply keeps_next | apply inv_foldl | apply inv_foldl_fst)
    | with_reducible intro _
    | (with_reducible first | apply Memory.wf_writeBytes | apply Memory.wf_writeCells | apply Memory.wf_write | apply Memory.wf_clear)
    | split
    | (with_reducible refine wf_of ?_)
    | assumption
    | (with_reducible apply inv_of; dsimp only)
    | dsimp only
    | exact State.reset_keeps

theorem State.l1Update_inv (s : State) (core : Nat) (asid : Nat) (va : Nat) (l : List Byte) (h_s : Inv s) :
    Inv (State.l1Update s core asid va l) := by
  unfold State.l1Update
  try dsimp only
  repeat' first
    | (with_reducible first | assumption | apply State.setCoreAt_inv | apply keeps_next | apply inv_foldl | apply inv_foldl_fst)
    | with_reducible intro _
    | (with_reducible first | apply Memory.wf_writeBytes | apply Memory.wf_writeCells | apply Memory.wf_write | apply Memory.wf_clear)
    | split
    | (with_reducible refine wf_of ?_)
    | assumption
    | (with_reducible apply inv_of; dsimp only)
    | dsimp only
    | exact State.reset_keeps

theorem State.countPacket_inv (s : State) (k : Nat) (dst : Nat) (h_s : Inv s) :
    Inv (State.countPacket s k dst) := by
  unfold State.countPacket
  try dsimp only
  repeat' first
    | (with_reducible first | assumption | apply keeps_next | apply inv_foldl | apply inv_foldl_fst)
    | with_reducible intro _
    | (with_reducible first | apply Memory.wf_writeBytes | apply Memory.wf_writeCells | apply Memory.wf_write | apply Memory.wf_clear)
    | split
    | (with_reducible refine wf_of ?_)
    | assumption
    | (with_reducible apply inv_of; dsimp only)
    | dsimp only
    | exact State.reset_keeps

theorem State.countAccess_inv (s : State) (k : Nat) (addr : W64) (n : Need) (h_s : Inv s) :
    Inv (State.countAccess s k addr n) := by
  unfold State.countAccess
  try dsimp only
  repeat' first
    | (with_reducible first | assumption | apply State.countPacket_inv | apply keeps_next | apply inv_foldl | apply inv_foldl_fst)
    | with_reducible intro _
    | (with_reducible first | apply Memory.wf_writeBytes | apply Memory.wf_writeCells | apply Memory.wf_write | apply Memory.wf_clear)
    | split
    | (with_reducible refine wf_of ?_)
    | assumption
    | (with_reducible apply inv_of; dsimp only)
    | dsimp only
    | exact State.reset_keeps

theorem State.portStore_inv (s : State) (key : Nat) (l : List Byte) (h_s : Inv s) :
    Inv (State.portStore s key l) := by
  unfold State.portStore
  try dsimp only
  repeat' first
    | (with_reducible first | assumption | apply State.setPart_inv | apply keeps_next | apply inv_foldl | apply inv_foldl_fst)
    | with_reducible intro _
    | (with_reducible first | apply Memory.wf_writeBytes | apply Memory.wf_writeCells | apply Memory.wf_write | apply Memory.wf_clear)
    | split
    | (with_reducible refine wf_of ?_)
    | assumption
    | (with_reducible apply inv_of; dsimp only)
    | dsimp only
    | exact State.reset_keeps

theorem State.performStore_inv (s : State) (key : Nat) (l : List Byte) (h_s : Inv s) :
    Inv (State.performStore s key l) := by
  unfold State.performStore
  try dsimp only
  repeat' first
    | (with_reducible first | assumption | apply State.portStore_inv | apply State.hostTouch_inv | apply State.homeWrite_inv | apply State.touchScratch_inv | apply keeps_next | apply inv_foldl | apply inv_foldl_fst)
    | with_reducible intro _
    | (with_reducible first | apply Memory.wf_writeBytes | apply Memory.wf_writeCells | apply Memory.wf_write | apply Memory.wf_clear)
    | split
    | (with_reducible refine wf_of ?_)
    | assumption
    | (with_reducible apply inv_of; dsimp only)
    | dsimp only
    | exact State.reset_keeps

theorem State.decrypt_inv (s : State) (asid : Nat) (l : List Nat) (h_s : Inv s) : Inv (s.decrypt asid l) := by
  unfold State.decrypt
  split
  · exact h_s
  · exact inv_of (Memory.wf_writeCells _ _ h_s)

theorem State.underKey_inv (s : State) (asid : Nat) (l : List Nat) (h_s : Inv s) : Inv (s.underKey asid l) := by
  unfold State.underKey
  exact State.decrypt_inv _ _ _ (inv_foldl (fun t k ht => State.flushHome_inv t k ht) h_s)

theorem State.writeAs_inv (s : State) (asid key : Nat) (l : List Byte) (h_s : Inv s) : Inv (s.writeAs asid key l) :=
  State.performStore_inv _ _ _ (State.underKey_inv _ _ _ h_s)

theorem State.performCells_inv (s : State) (cells : List (Nat × Byte)) (h_s : Inv s) :
    Inv (State.performCells s cells) := by
  unfold State.performCells
  try dsimp only
  repeat' first
    | (with_reducible first | assumption | apply State.storeCells_inv | apply State.flushHome_inv | apply State.hostTouch_inv | apply State.breakResv_inv | apply State.touchScratch_inv | apply keeps_next | apply inv_foldl | apply inv_foldl_fst)
    | with_reducible intro _
    | (with_reducible first | apply Memory.wf_writeBytes | apply Memory.wf_writeCells | apply Memory.wf_write | apply Memory.wf_clear)
    | split
    | (with_reducible refine wf_of ?_)
    | assumption
    | (with_reducible apply inv_of; dsimp only)
    | dsimp only
    | exact State.reset_keeps

theorem State.post_inv (s : State) (e : JEntry) (dst : Nat) (body : Nat → MsgBody) (h_s : Inv s) :
    Inv (State.post s e dst body) := by
  unfold State.post
  try dsimp only
  repeat' first
    | (with_reducible first | assumption | apply State.setGrp_inv | apply keeps_next | apply inv_foldl | apply inv_foldl_fst)
    | with_reducible intro _
    | (with_reducible first | apply Memory.wf_writeBytes | apply Memory.wf_writeCells | apply Memory.wf_write | apply Memory.wf_clear)
    | split
    | (with_reducible refine wf_of ?_)
    | assumption
    | (with_reducible apply inv_of; dsimp only)
    | dsimp only
    | exact State.reset_keeps

theorem laneInt2_inv (s : State) (len : Nat) (t : Ty) (sat : Bool) (d : Code) (a : Code) (b : Code) (f : Int → Int → Int) (h_s : Inv s) :
    Keeps (laneInt2 s len t sat d a b f) := by
  unfold laneInt2
  try dsimp only
  repeat' first
    | (with_reducible first | assumption | apply laneAlu_inv | apply keeps_next | apply inv_foldl | apply inv_foldl_fst)
    | with_reducible intro _
    | (with_reducible first | apply Memory.wf_writeBytes | apply Memory.wf_writeCells | apply Memory.wf_write | apply Memory.wf_clear)
    | split
    | (with_reducible refine wf_of ?_)
    | assumption
    | (with_reducible apply inv_of; dsimp only)
    | dsimp only
    | exact State.reset_keeps

theorem laneIntImm_inv (s : State) (t : Ty) (sat : Bool) (d : Code) (a : Code) (imm : Half) (f : Int → Int → Int) (h_s : Inv s) :
    Keeps (laneIntImm s t sat d a imm f) := by
  unfold laneIntImm
  try dsimp only
  repeat' first
    | (with_reducible first | assumption | apply laneAlu_inv | apply keeps_next | apply inv_foldl | apply inv_foldl_fst)
    | with_reducible intro _
    | (with_reducible first | apply Memory.wf_writeBytes | apply Memory.wf_writeCells | apply Memory.wf_write | apply Memory.wf_clear)
    | split
    | (with_reducible refine wf_of ?_)
    | assumption
    | (with_reducible apply inv_of; dsimp only)
    | dsimp only
    | exact State.reset_keeps

theorem laneShift_inv (s : State) (len : Nat) (t : Ty) (d : Code) (a : Code) (b : Code) (f : Nat → Nat → Nat → Nat) (h_s : Inv s) :
    Keeps (laneShift s len t d a b f) := by
  unfold laneShift
  try dsimp only
  repeat' first
    | (with_reducible first | assumption | apply laneAlu_inv | apply keeps_next | apply inv_foldl | apply inv_foldl_fst)
    | with_reducible intro _
    | (with_reducible first | apply Memory.wf_writeBytes | apply Memory.wf_writeCells | apply Memory.wf_write | apply Memory.wf_clear)
    | split
    | (with_reducible refine wf_of ?_)
    | assumption
    | (with_reducible apply inv_of; dsimp only)
    | dsimp only
    | exact State.reset_keeps

theorem laneShiftImm_inv (s : State) (t : Ty) (d : Code) (a : Code) (sh : BitVec 6) (f : Nat → Nat → Nat → Nat) (h_s : Inv s) :
    Keeps (laneShiftImm s t d a sh f) := by
  unfold laneShiftImm
  try dsimp only
  repeat' first
    | (with_reducible first | assumption | apply laneAlu_inv | apply keeps_next | apply inv_foldl | apply inv_foldl_fst)
    | with_reducible intro _
    | (with_reducible first | apply Memory.wf_writeBytes | apply Memory.wf_writeCells | apply Memory.wf_write | apply Memory.wf_clear)
    | split
    | (with_reducible refine wf_of ?_)
    | assumption
    | (with_reducible apply inv_of; dsimp only)
    | dsimp only
    | exact State.reset_keeps

theorem laneLogic_inv (s : State) (len : Nat) (t : Ty) (d : Code) (a : Code) (b : Code) (f : W64 → W64 → W64) (h_s : Inv s) :
    Keeps (laneLogic s len t d a b f) := by
  unfold laneLogic
  try dsimp only
  repeat' first
    | (with_reducible first | assumption | apply laneAlu_inv | apply keeps_next | apply inv_foldl | apply inv_foldl_fst)
    | with_reducible intro _
    | (with_reducible first | apply Memory.wf_writeBytes | apply Memory.wf_writeCells | apply Memory.wf_write | apply Memory.wf_clear)
    | split
    | (with_reducible refine wf_of ?_)
    | assumption
    | (with_reducible apply inv_of; dsimp only)
    | dsimp only
    | exact State.reset_keeps

theorem laneLogicImm_inv (s : State) (t : Ty) (d : Code) (a : Code) (imm : Half) (f : W64 → W64 → W64) (h_s : Inv s) :
    Keeps (laneLogicImm s t d a imm f) := by
  unfold laneLogicImm
  try dsimp only
  repeat' first
    | (with_reducible first | assumption | apply laneAlu_inv | apply keeps_next | apply inv_foldl | apply inv_foldl_fst)
    | with_reducible intro _
    | (with_reducible first | apply Memory.wf_writeBytes | apply Memory.wf_writeCells | apply Memory.wf_write | apply Memory.wf_clear)
    | split
    | (with_reducible refine wf_of ?_)
    | assumption
    | (with_reducible apply inv_of; dsimp only)
    | dsimp only
    | exact State.reset_keeps

theorem laneCompare_inv (s : State) (d : Code) (srcs : List Src) (f : (Nat → W64) → Bool) (h_s : Inv s) :
    Keeps (laneCompare s d srcs f) := by
  unfold laneCompare
  try dsimp only
  repeat' first
    | (with_reducible first | assumption | apply laneRun_inv | apply State.writeMask_inv | apply Check.keeps_stop)
    | refine Check.inv_stop (by with_reducible assumption) ?_
    | exact trivial
    | (with_reducible first | apply keeps_next | apply inv_foldl | apply inv_foldl_fst)
    | with_reducible intro _
    | (with_reducible first | apply Memory.wf_writeBytes | apply Memory.wf_writeCells | apply Memory.wf_write | apply Memory.wf_clear)
    | split
    | (with_reducible refine wf_of ?_)
    | assumption
    | (with_reducible apply inv_of; dsimp only)
    | dsimp only
    | exact State.reset_keeps

theorem laneCarry_inv (s : State) (d : Code) (a : Code) (b : Code) (c : Code) (f : Nat → Nat → Nat → Nat × Bool) (h_s : Inv s) :
    Keeps (laneCarry s d a b c f) := by
  unfold laneCarry
  try dsimp only
  repeat' first
    | (with_reducible first | assumption | apply laneRun_inv | apply State.writeMask_inv | apply State.writeDest_inv | apply Check.keeps_stop)
    | refine Check.inv_stop (by with_reducible assumption) ?_
    | exact trivial
    | (with_reducible first | apply keeps_next | apply inv_foldl | apply inv_foldl_fst)
    | with_reducible intro _
    | (with_reducible first | apply Memory.wf_writeBytes | apply Memory.wf_writeCells | apply Memory.wf_write | apply Memory.wf_clear)
    | split
    | (with_reducible refine wf_of ?_)
    | assumption
    | (with_reducible apply inv_of; dsimp only)
    | dsimp only
    | exact State.reset_keeps

theorem laneSelect_inv (s : State) (t : Ty) (d : Code) (a : Code) (b : Code) (c : Code) (h_s : Inv s) :
    Keeps (laneSelect s t d a b c) := by
  unfold laneSelect
  try dsimp only
  repeat' first
    | (with_reducible first | assumption | apply laneRun_inv | apply State.writeDest_inv | apply Check.keeps_stop)
    | refine Check.inv_stop (by with_reducible assumption) ?_
    | exact trivial
    | (with_reducible first | apply keeps_next | apply inv_foldl | apply inv_foldl_fst)
    | with_reducible intro _
    | (with_reducible first | apply Memory.wf_writeBytes | apply Memory.wf_writeCells | apply Memory.wf_write | apply Memory.wf_clear)
    | split
    | (with_reducible refine wf_of ?_)
    | assumption
    | (with_reducible apply inv_of; dsimp only)
    | dsimp only
    | exact State.reset_keeps

theorem laneUnary_inv (s : State) (d : Code) (a : Code) (f : W32 → W32) (h_s : Inv s) :
    Keeps (laneUnary s d a f) := by
  unfold laneUnary
  try dsimp only
  repeat' first
    | (with_reducible first | assumption | apply laneAlu_inv | apply keeps_next | apply inv_foldl | apply inv_foldl_fst)
    | with_reducible intro _
    | (with_reducible first | apply Memory.wf_writeBytes | apply Memory.wf_writeCells | apply Memory.wf_write | apply Memory.wf_clear)
    | split
    | (with_reducible refine wf_of ?_)
    | assumption
    | (with_reducible apply inv_of; dsimp only)
    | dsimp only
    | exact State.reset_keeps

theorem laneControl_inv (s : State) (o : LaneForm) (f : Group → Group) (h_s : Inv s) :
    Keeps (laneControl s o f) := by
  unfold laneControl
  try dsimp only
  repeat' first
    | (with_reducible first | assumption | apply laneRun_inv | apply State.setGrp_inv | apply Check.keeps_stop)
    | refine Check.inv_stop (by with_reducible assumption) ?_
    | exact trivial
    | (with_reducible first | apply keeps_next | apply inv_foldl | apply inv_foldl_fst)
    | with_reducible intro _
    | (with_reducible first | apply Memory.wf_writeBytes | apply Memory.wf_writeCells | apply Memory.wf_write | apply Memory.wf_clear)
    | split
    | (with_reducible refine wf_of ?_)
    | assumption
    | (with_reducible apply inv_of; dsimp only)
    | dsimp only
    | exact State.reset_keeps

theorem execNop_inv (s : State) (h_s : Inv s) :
    Keeps (execNop s) := by
  unfold execNop
  try dsimp only
  repeat' first
    | (with_reducible first | assumption | apply laneControl_inv | apply keeps_next | apply inv_foldl | apply inv_foldl_fst)
    | with_reducible intro _
    | (with_reducible first | apply Memory.wf_writeBytes | apply Memory.wf_writeCells | apply Memory.wf_write | apply Memory.wf_clear)
    | split
    | (with_reducible refine wf_of ?_)
    | assumption
    | (with_reducible apply inv_of; dsimp only)
    | dsimp only
    | exact State.reset_keeps

theorem execAddI32_inv (d : Code) (a : Code) (b : Code) (s : State) (h_s : Inv s) :
    Keeps (execAddI32 d a b s) := by
  unfold execAddI32
  try dsimp only
  repeat' first
    | (with_reducible first | assumption | apply laneInt2_inv | apply keeps_next | apply inv_foldl | apply inv_foldl_fst)
    | with_reducible intro _
    | (with_reducible first | apply Memory.wf_writeBytes | apply Memory.wf_writeCells | apply Memory.wf_write | apply Memory.wf_clear)
    | split
    | (with_reducible refine wf_of ?_)
    | assumption
    | (with_reducible apply inv_of; dsimp only)
    | dsimp only
    | exact State.reset_keeps

theorem execSubI32_inv (d : Code) (a : Code) (b : Code) (s : State) (h_s : Inv s) :
    Keeps (execSubI32 d a b s) := by
  unfold execSubI32
  try dsimp only
  repeat' first
    | (with_reducible first | assumption | apply laneInt2_inv | apply keeps_next | apply inv_foldl | apply inv_foldl_fst)
    | with_reducible intro _
    | (with_reducible first | apply Memory.wf_writeBytes | apply Memory.wf_writeCells | apply Memory.wf_write | apply Memory.wf_clear)
    | split
    | (with_reducible refine wf_of ?_)
    | assumption
    | (with_reducible apply inv_of; dsimp only)
    | dsimp only
    | exact State.reset_keeps

theorem execMulLoI32_inv (d : Code) (a : Code) (b : Code) (s : State) (h_s : Inv s) :
    Keeps (execMulLoI32 d a b s) := by
  unfold execMulLoI32
  try dsimp only
  repeat' first
    | (with_reducible first | assumption | apply laneInt2_inv | apply keeps_next | apply inv_foldl | apply inv_foldl_fst)
    | with_reducible intro _
    | (with_reducible first | apply Memory.wf_writeBytes | apply Memory.wf_writeCells | apply Memory.wf_write | apply Memory.wf_clear)
    | split
    | (with_reducible refine wf_of ?_)
    | assumption
    | (with_reducible apply inv_of; dsimp only)
    | dsimp only
    | exact State.reset_keeps

theorem execAndL32_inv (d : Code) (a : Code) (b : Code) (s : State) (h_s : Inv s) :
    Keeps (execAndL32 d a b s) := by
  unfold execAndL32
  try dsimp only
  repeat' first
    | (with_reducible first | assumption | apply laneLogic_inv | apply keeps_next | apply inv_foldl | apply inv_foldl_fst)
    | with_reducible intro _
    | (with_reducible first | apply Memory.wf_writeBytes | apply Memory.wf_writeCells | apply Memory.wf_write | apply Memory.wf_clear)
    | split
    | (with_reducible refine wf_of ?_)
    | assumption
    | (with_reducible apply inv_of; dsimp only)
    | dsimp only
    | exact State.reset_keeps

theorem execOrL32_inv (d : Code) (a : Code) (b : Code) (s : State) (h_s : Inv s) :
    Keeps (execOrL32 d a b s) := by
  unfold execOrL32
  try dsimp only
  repeat' first
    | (with_reducible first | assumption | apply laneLogic_inv | apply keeps_next | apply inv_foldl | apply inv_foldl_fst)
    | with_reducible intro _
    | (with_reducible first | apply Memory.wf_writeBytes | apply Memory.wf_writeCells | apply Memory.wf_write | apply Memory.wf_clear)
    | split
    | (with_reducible refine wf_of ?_)
    | assumption
    | (with_reducible apply inv_of; dsimp only)
    | dsimp only
    | exact State.reset_keeps

theorem execXorL32_inv (d : Code) (a : Code) (b : Code) (s : State) (h_s : Inv s) :
    Keeps (execXorL32 d a b s) := by
  unfold execXorL32
  try dsimp only
  repeat' first
    | (with_reducible first | assumption | apply laneLogic_inv | apply keeps_next | apply inv_foldl | apply inv_foldl_fst)
    | with_reducible intro _
    | (with_reducible first | apply Memory.wf_writeBytes | apply Memory.wf_writeCells | apply Memory.wf_write | apply Memory.wf_clear)
    | split
    | (with_reducible refine wf_of ?_)
    | assumption
    | (with_reducible apply inv_of; dsimp only)
    | dsimp only
    | exact State.reset_keeps

theorem execAndnL32_inv (d : Code) (a : Code) (b : Code) (s : State) (h_s : Inv s) :
    Keeps (execAndnL32 d a b s) := by
  unfold execAndnL32
  try dsimp only
  repeat' first
    | (with_reducible first | assumption | apply laneLogic_inv | apply keeps_next | apply inv_foldl | apply inv_foldl_fst)
    | with_reducible intro _
    | (with_reducible first | apply Memory.wf_writeBytes | apply Memory.wf_writeCells | apply Memory.wf_write | apply Memory.wf_clear)
    | split
    | (with_reducible refine wf_of ?_)
    | assumption
    | (with_reducible apply inv_of; dsimp only)
    | dsimp only
    | exact State.reset_keeps

theorem execShlL32_inv (d : Code) (a : Code) (b : Code) (s : State) (h_s : Inv s) :
    Keeps (execShlL32 d a b s) := by
  unfold execShlL32
  try dsimp only
  repeat' first
    | (with_reducible first | assumption | apply laneShift_inv | apply keeps_next | apply inv_foldl | apply inv_foldl_fst)
    | with_reducible intro _
    | (with_reducible first | apply Memory.wf_writeBytes | apply Memory.wf_writeCells | apply Memory.wf_write | apply Memory.wf_clear)
    | split
    | (with_reducible refine wf_of ?_)
    | assumption
    | (with_reducible apply inv_of; dsimp only)
    | dsimp only
    | exact State.reset_keeps

theorem execShrL32_inv (d : Code) (a : Code) (b : Code) (s : State) (h_s : Inv s) :
    Keeps (execShrL32 d a b s) := by
  unfold execShrL32
  try dsimp only
  repeat' first
    | (with_reducible first | assumption | apply laneShift_inv | apply keeps_next | apply inv_foldl | apply inv_foldl_fst)
    | with_reducible intro _
    | (with_reducible first | apply Memory.wf_writeBytes | apply Memory.wf_writeCells | apply Memory.wf_write | apply Memory.wf_clear)
    | split
    | (with_reducible refine wf_of ?_)
    | assumption
    | (with_reducible apply inv_of; dsimp only)
    | dsimp only
    | exact State.reset_keeps

theorem execSraL32_inv (d : Code) (a : Code) (b : Code) (s : State) (h_s : Inv s) :
    Keeps (execSraL32 d a b s) := by
  unfold execSraL32
  try dsimp only
  repeat' first
    | (with_reducible first | assumption | apply laneShift_inv | apply keeps_next | apply inv_foldl | apply inv_foldl_fst)
    | with_reducible intro _
    | (with_reducible first | apply Memory.wf_writeBytes | apply Memory.wf_writeCells | apply Memory.wf_write | apply Memory.wf_clear)
    | split
    | (with_reducible refine wf_of ?_)
    | assumption
    | (with_reducible apply inv_of; dsimp only)
    | dsimp only
    | exact State.reset_keeps

theorem execRotlL32_inv (d : Code) (a : Code) (b : Code) (s : State) (h_s : Inv s) :
    Keeps (execRotlL32 d a b s) := by
  unfold execRotlL32
  try dsimp only
  repeat' first
    | (with_reducible first | assumption | apply laneShift_inv | apply keeps_next | apply inv_foldl | apply inv_foldl_fst)
    | with_reducible intro _
    | (with_reducible first | apply Memory.wf_writeBytes | apply Memory.wf_writeCells | apply Memory.wf_write | apply Memory.wf_clear)
    | split
    | (with_reducible refine wf_of ?_)
    | assumption
    | (with_reducible apply inv_of; dsimp only)
    | dsimp only
    | exact State.reset_keeps

theorem execMinI32_inv (d : Code) (a : Code) (b : Code) (s : State) (h_s : Inv s) :
    Keeps (execMinI32 d a b s) := by
  unfold execMinI32
  try dsimp only
  repeat' first
    | (with_reducible first | assumption | apply laneInt2_inv | apply keeps_next | apply inv_foldl | apply inv_foldl_fst)
    | with_reducible intro _
    | (with_reducible first | apply Memory.wf_writeBytes | apply Memory.wf_writeCells | apply Memory.wf_write | apply Memory.wf_clear)
    | split
    | (with_reducible refine wf_of ?_)
    | assumption
    | (with_reducible apply inv_of; dsimp only)
    | dsimp only
    | exact State.reset_keeps

theorem execMinN32_inv (d : Code) (a : Code) (b : Code) (s : State) (h_s : Inv s) :
    Keeps (execMinN32 d a b s) := by
  unfold execMinN32
  try dsimp only
  repeat' first
    | (with_reducible first | assumption | apply laneInt2_inv | apply keeps_next | apply inv_foldl | apply inv_foldl_fst)
    | with_reducible intro _
    | (with_reducible first | apply Memory.wf_writeBytes | apply Memory.wf_writeCells | apply Memory.wf_write | apply Memory.wf_clear)
    | split
    | (with_reducible refine wf_of ?_)
    | assumption
    | (with_reducible apply inv_of; dsimp only)
    | dsimp only
    | exact State.reset_keeps

theorem execMaxI32_inv (d : Code) (a : Code) (b : Code) (s : State) (h_s : Inv s) :
    Keeps (execMaxI32 d a b s) := by
  unfold execMaxI32
  try dsimp only
  repeat' first
    | (with_reducible first | assumption | apply laneInt2_inv | apply keeps_next | apply inv_foldl | apply inv_foldl_fst)
    | with_reducible intro _
    | (with_reducible first | apply Memory.wf_writeBytes | apply Memory.wf_writeCells | apply Memory.wf_write | apply Memory.wf_clear)
    | split
    | (with_reducible refine wf_of ?_)
    | assumption
    | (with_reducible apply inv_of; dsimp only)
    | dsimp only
    | exact State.reset_keeps

theorem execMaxN32_inv (d : Code) (a : Code) (b : Code) (s : State) (h_s : Inv s) :
    Keeps (execMaxN32 d a b s) := by
  unfold execMaxN32
  try dsimp only
  repeat' first
    | (with_reducible first | assumption | apply laneInt2_inv | apply keeps_next | apply inv_foldl | apply inv_foldl_fst)
    | with_reducible intro _
    | (with_reducible first | apply Memory.wf_writeBytes | apply Memory.wf_writeCells | apply Memory.wf_write | apply Memory.wf_clear)
    | split
    | (with_reducible refine wf_of ?_)
    | assumption
    | (with_reducible apply inv_of; dsimp only)
    | dsimp only
    | exact State.reset_keeps

theorem execMov_inv (d : Code) (a : Code) (s : State) (h_s : Inv s) :
    Keeps (execMov d a s) := by
  unfold execMov
  try dsimp only
  repeat' first
    | (with_reducible first | assumption | apply laneUnary_inv | apply keeps_next | apply inv_foldl | apply inv_foldl_fst)
    | with_reducible intro _
    | (with_reducible first | apply Memory.wf_writeBytes | apply Memory.wf_writeCells | apply Memory.wf_write | apply Memory.wf_clear)
    | split
    | (with_reducible refine wf_of ?_)
    | assumption
    | (with_reducible apply inv_of; dsimp only)
    | dsimp only
    | exact State.reset_keeps

theorem execNot_inv (d : Code) (a : Code) (s : State) (h_s : Inv s) :
    Keeps (execNot d a s) := by
  unfold execNot
  try dsimp only
  repeat' first
    | (with_reducible first | assumption | apply laneUnary_inv | apply keeps_next | apply inv_foldl | apply inv_foldl_fst)
    | with_reducible intro _
    | (with_reducible first | apply Memory.wf_writeBytes | apply Memory.wf_writeCells | apply Memory.wf_write | apply Memory.wf_clear)
    | split
    | (with_reducible refine wf_of ?_)
    | assumption
    | (with_reducible apply inv_of; dsimp only)
    | dsimp only
    | exact State.reset_keeps

theorem execNegI32_inv (d : Code) (a : Code) (s : State) (h_s : Inv s) :
    Keeps (execNegI32 d a s) := by
  unfold execNegI32
  try dsimp only
  repeat' first
    | (with_reducible first | assumption | apply laneUnary_inv | apply keeps_next | apply inv_foldl | apply inv_foldl_fst)
    | with_reducible intro _
    | (with_reducible first | apply Memory.wf_writeBytes | apply Memory.wf_writeCells | apply Memory.wf_write | apply Memory.wf_clear)
    | split
    | (with_reducible refine wf_of ?_)
    | assumption
    | (with_reducible apply inv_of; dsimp only)
    | dsimp only
    | exact State.reset_keeps

theorem execAbsI32_inv (d : Code) (a : Code) (s : State) (h_s : Inv s) :
    Keeps (execAbsI32 d a s) := by
  unfold execAbsI32
  try dsimp only
  repeat' first
    | (with_reducible first | assumption | apply laneUnary_inv | apply keeps_next | apply inv_foldl | apply inv_foldl_fst)
    | with_reducible intro _
    | (with_reducible first | apply Memory.wf_writeBytes | apply Memory.wf_writeCells | apply Memory.wf_write | apply Memory.wf_clear)
    | split
    | (with_reducible refine wf_of ?_)
    | assumption
    | (with_reducible apply inv_of; dsimp only)
    | dsimp only
    | exact State.reset_keeps

theorem execPopc_inv (d : Code) (a : Code) (s : State) (h_s : Inv s) :
    Keeps (execPopc d a s) := by
  unfold execPopc
  try dsimp only
  repeat' first
    | (with_reducible first | assumption | apply laneUnary_inv | apply keeps_next | apply inv_foldl | apply inv_foldl_fst)
    | with_reducible intro _
    | (with_reducible first | apply Memory.wf_writeBytes | apply Memory.wf_writeCells | apply Memory.wf_write | apply Memory.wf_clear)
    | split
    | (with_reducible refine wf_of ?_)
    | assumption
    | (with_reducible apply inv_of; dsimp only)
    | dsimp only
    | exact State.reset_keeps

theorem execClz_inv (d : Code) (a : Code) (s : State) (h_s : Inv s) :
    Keeps (execClz d a s) := by
  unfold execClz
  try dsimp only
  repeat' first
    | (with_reducible first | assumption | apply laneUnary_inv | apply keeps_next | apply inv_foldl | apply inv_foldl_fst)
    | with_reducible intro _
    | (with_reducible first | apply Memory.wf_writeBytes | apply Memory.wf_writeCells | apply Memory.wf_write | apply Memory.wf_clear)
    | split
    | (with_reducible refine wf_of ?_)
    | assumption
    | (with_reducible apply inv_of; dsimp only)
    | dsimp only
    | exact State.reset_keeps

theorem execCtz_inv (d : Code) (a : Code) (s : State) (h_s : Inv s) :
    Keeps (execCtz d a s) := by
  unfold execCtz
  try dsimp only
  repeat' first
    | (with_reducible first | assumption | apply laneUnary_inv | apply keeps_next | apply inv_foldl | apply inv_foldl_fst)
    | with_reducible intro _
    | (with_reducible first | apply Memory.wf_writeBytes | apply Memory.wf_writeCells | apply Memory.wf_write | apply Memory.wf_clear)
    | split
    | (with_reducible refine wf_of ?_)
    | assumption
    | (with_reducible apply inv_of; dsimp only)
    | dsimp only
    | exact State.reset_keeps

theorem execBrev_inv (d : Code) (a : Code) (s : State) (h_s : Inv s) :
    Keeps (execBrev d a s) := by
  unfold execBrev
  try dsimp only
  repeat' first
    | (with_reducible first | assumption | apply laneUnary_inv | apply keeps_next | apply inv_foldl | apply inv_foldl_fst)
    | with_reducible intro _
    | (with_reducible first | apply Memory.wf_writeBytes | apply Memory.wf_writeCells | apply Memory.wf_write | apply Memory.wf_clear)
    | split
    | (with_reducible refine wf_of ?_)
    | assumption
    | (with_reducible apply inv_of; dsimp only)
    | dsimp only
    | exact State.reset_keeps

theorem execLwin_inv (k : BitVec 4) (s : State) (h_s : Inv s) :
    Keeps (execLwin k s) := by
  unfold execLwin
  try dsimp only
  repeat' first
    | (with_reducible first | assumption | apply laneControl_inv | apply keeps_next | apply inv_foldl | apply inv_foldl_fst)
    | with_reducible intro _
    | (with_reducible first | apply Memory.wf_writeBytes | apply Memory.wf_writeCells | apply Memory.wf_write | apply Memory.wf_clear)
    | split
    | (with_reducible refine wf_of ?_)
    | assumption
    | (with_reducible apply inv_of; dsimp only)
    | dsimp only
    | exact State.reset_keeps

theorem execPb_inv (m : Code) (n : BitVec 3) (pat : BitVec 8) (s : State) (h_s : Inv s) :
    Keeps (execPb m n pat s) := by
  unfold execPb
  try dsimp only
  repeat' first
    | (with_reducible first | assumption | apply laneControl_inv | apply keeps_next | apply inv_foldl | apply inv_foldl_fst)
    | with_reducible intro _
    | (with_reducible first | apply Memory.wf_writeBytes | apply Memory.wf_writeCells | apply Memory.wf_write | apply Memory.wf_clear)
    | split
    | (with_reducible refine wf_of ?_)
    | assumption
    | (with_reducible apply inv_of; dsimp only)
    | dsimp only
    | exact State.reset_keeps

theorem execAdd_inv (t : Ty) (sat : Bool) (d : Code) (a : Code) (b : Code) (s : State) (h_s : Inv s) :
    Keeps (execAdd t sat d a b s) := by
  unfold execAdd
  try dsimp only
  repeat' first
    | (with_reducible first | assumption | apply laneInt2_inv | apply keeps_next | apply inv_foldl | apply inv_foldl_fst)
    | with_reducible intro _
    | (with_reducible first | apply Memory.wf_writeBytes | apply Memory.wf_writeCells | apply Memory.wf_write | apply Memory.wf_clear)
    | split
    | (with_reducible refine wf_of ?_)
    | assumption
    | (with_reducible apply inv_of; dsimp only)
    | dsimp only
    | exact State.reset_keeps

theorem execAddImm_inv (t : Ty) (sat : Bool) (d : Code) (a : Code) (imm : Half) (s : State) (h_s : Inv s) :
    Keeps (execAddImm t sat d a imm s) := by
  unfold execAddImm
  try dsimp only
  repeat' first
    | (with_reducible first | assumption | apply laneIntImm_inv | apply keeps_next | apply inv_foldl | apply inv_foldl_fst)
    | with_reducible intro _
    | (with_reducible first | apply Memory.wf_writeBytes | apply Memory.wf_writeCells | apply Memory.wf_write | apply Memory.wf_clear)
    | split
    | (with_reducible refine wf_of ?_)
    | assumption
    | (with_reducible apply inv_of; dsimp only)
    | dsimp only
    | exact State.reset_keeps

theorem execSub_inv (t : Ty) (sat : Bool) (d : Code) (a : Code) (b : Code) (s : State) (h_s : Inv s) :
    Keeps (execSub t sat d a b s) := by
  unfold execSub
  try dsimp only
  repeat' first
    | (with_reducible first | assumption | apply laneInt2_inv | apply keeps_next | apply inv_foldl | apply inv_foldl_fst)
    | with_reducible intro _
    | (with_reducible first | apply Memory.wf_writeBytes | apply Memory.wf_writeCells | apply Memory.wf_write | apply Memory.wf_clear)
    | split
    | (with_reducible refine wf_of ?_)
    | assumption
    | (with_reducible apply inv_of; dsimp only)
    | dsimp only
    | exact State.reset_keeps

theorem execSubImm_inv (t : Ty) (sat : Bool) (d : Code) (a : Code) (imm : Half) (s : State) (h_s : Inv s) :
    Keeps (execSubImm t sat d a imm s) := by
  unfold execSubImm
  try dsimp only
  repeat' first
    | (with_reducible first | assumption | apply laneIntImm_inv | apply keeps_next | apply inv_foldl | apply inv_foldl_fst)
    | with_reducible intro _
    | (with_reducible first | apply Memory.wf_writeBytes | apply Memory.wf_writeCells | apply Memory.wf_write | apply Memory.wf_clear)
    | split
    | (with_reducible refine wf_of ?_)
    | assumption
    | (with_reducible apply inv_of; dsimp only)
    | dsimp only
    | exact State.reset_keeps

theorem execMulLo_inv (t : Ty) (sat : Bool) (d : Code) (a : Code) (b : Code) (s : State) (h_s : Inv s) :
    Keeps (execMulLo t sat d a b s) := by
  unfold execMulLo
  try dsimp only
  repeat' first
    | (with_reducible first | assumption | apply laneInt2_inv | apply keeps_next | apply inv_foldl | apply inv_foldl_fst)
    | with_reducible intro _
    | (with_reducible first | apply Memory.wf_writeBytes | apply Memory.wf_writeCells | apply Memory.wf_write | apply Memory.wf_clear)
    | split
    | (with_reducible refine wf_of ?_)
    | assumption
    | (with_reducible apply inv_of; dsimp only)
    | dsimp only
    | exact State.reset_keeps

theorem execMulLoImm_inv (t : Ty) (sat : Bool) (d : Code) (a : Code) (imm : Half) (s : State) (h_s : Inv s) :
    Keeps (execMulLoImm t sat d a imm s) := by
  unfold execMulLoImm
  try dsimp only
  repeat' first
    | (with_reducible first | assumption | apply laneIntImm_inv | apply keeps_next | apply inv_foldl | apply inv_foldl_fst)
    | with_reducible intro _
    | (with_reducible first | apply Memory.wf_writeBytes | apply Memory.wf_writeCells | apply Memory.wf_write | apply Memory.wf_clear)
    | split
    | (with_reducible refine wf_of ?_)
    | assumption
    | (with_reducible apply inv_of; dsimp only)
    | dsimp only
    | exact State.reset_keeps

theorem execMad_inv (t : Ty) (sat : Bool) (d : Code) (a : Code) (b : Code) (c : Code) (s : State) (h_s : Inv s) :
    Keeps (execMad t sat d a b c s) := by
  unfold execMad
  try dsimp only
  repeat' first
    | (with_reducible first | assumption | apply laneAlu_inv | apply keeps_next | apply inv_foldl | apply inv_foldl_fst)
    | with_reducible intro _
    | (with_reducible first | apply Memory.wf_writeBytes | apply Memory.wf_writeCells | apply Memory.wf_write | apply Memory.wf_clear)
    | split
    | (with_reducible refine wf_of ?_)
    | assumption
    | (with_reducible apply inv_of; dsimp only)
    | dsimp only
    | exact State.reset_keeps

theorem execMadImm_inv (t : Ty) (sat : Bool) (d : Code) (a : Code) (c : Code) (imm : Half) (s : State) (h_s : Inv s) :
    Keeps (execMadImm t sat d a c imm s) := by
  unfold execMadImm
  try dsimp only
  repeat' first
    | (with_reducible first | assumption | apply laneAlu_inv | apply keeps_next | apply inv_foldl | apply inv_foldl_fst)
    | with_reducible intro _
    | (with_reducible first | apply Memory.wf_writeBytes | apply Memory.wf_writeCells | apply Memory.wf_write | apply Memory.wf_clear)
    | split
    | (with_reducible refine wf_of ?_)
    | assumption
    | (with_reducible apply inv_of; dsimp only)
    | dsimp only
    | exact State.reset_keeps

theorem execMadWide_inv (t : Ty) (d : Code) (a : Code) (b : Code) (c : Code) (s : State) (h_s : Inv s) :
    Keeps (execMadWide t d a b c s) := by
  unfold execMadWide
  try dsimp only
  repeat' first
    | (with_reducible first | assumption | apply laneAlu_inv | apply keeps_next | apply inv_foldl | apply inv_foldl_fst)
    | with_reducible intro _
    | (with_reducible first | apply Memory.wf_writeBytes | apply Memory.wf_writeCells | apply Memory.wf_write | apply Memory.wf_clear)
    | split
    | (with_reducible refine wf_of ?_)
    | assumption
    | (with_reducible apply inv_of; dsimp only)
    | dsimp only
    | exact State.reset_keeps

theorem execMulHi_inv (t : Ty) (d : Code) (a : Code) (b : Code) (s : State) (h_s : Inv s) :
    Keeps (execMulHi t d a b s) := by
  unfold execMulHi
  try dsimp only
  repeat' first
    | (with_reducible first | assumption | apply laneInt2_inv | apply keeps_next | apply inv_foldl | apply inv_foldl_fst)
    | with_reducible intro _
    | (with_reducible first | apply Memory.wf_writeBytes | apply Memory.wf_writeCells | apply Memory.wf_write | apply Memory.wf_clear)
    | split
    | (with_reducible refine wf_of ?_)
    | assumption
    | (with_reducible apply inv_of; dsimp only)
    | dsimp only
    | exact State.reset_keeps

theorem execMulHiImm_inv (t : Ty) (d : Code) (a : Code) (imm : Half) (s : State) (h_s : Inv s) :
    Keeps (execMulHiImm t d a imm s) := by
  unfold execMulHiImm
  try dsimp only
  repeat' first
    | (with_reducible first | assumption | apply laneIntImm_inv | apply keeps_next | apply inv_foldl | apply inv_foldl_fst)
    | with_reducible intro _
    | (with_reducible first | apply Memory.wf_writeBytes | apply Memory.wf_writeCells | apply Memory.wf_write | apply Memory.wf_clear)
    | split
    | (with_reducible refine wf_of ?_)
    | assumption
    | (with_reducible apply inv_of; dsimp only)
    | dsimp only
    | exact State.reset_keeps

theorem execDiv_inv (t : Ty) (d : Code) (a : Code) (b : Code) (s : State) (h_s : Inv s) :
    Keeps (execDiv t d a b s) := by
  unfold execDiv
  try dsimp only
  repeat' first
    | (with_reducible first | assumption | apply laneInt2_inv | apply keeps_next | apply inv_foldl | apply inv_foldl_fst)
    | with_reducible intro _
    | (with_reducible first | apply Memory.wf_writeBytes | apply Memory.wf_writeCells | apply Memory.wf_write | apply Memory.wf_clear)
    | split
    | (with_reducible refine wf_of ?_)
    | assumption
    | (with_reducible apply inv_of; dsimp only)
    | dsimp only
    | exact State.reset_keeps

theorem execDivImm_inv (t : Ty) (d : Code) (a : Code) (imm : Half) (s : State) (h_s : Inv s) :
    Keeps (execDivImm t d a imm s) := by
  unfold execDivImm
  try dsimp only
  repeat' first
    | (with_reducible first | assumption | apply laneIntImm_inv | apply keeps_next | apply inv_foldl | apply inv_foldl_fst)
    | with_reducible intro _
    | (with_reducible first | apply Memory.wf_writeBytes | apply Memory.wf_writeCells | apply Memory.wf_write | apply Memory.wf_clear)
    | split
    | (with_reducible refine wf_of ?_)
    | assumption
    | (with_reducible apply inv_of; dsimp only)
    | dsimp only
    | exact State.reset_keeps

theorem execRem_inv (t : Ty) (d : Code) (a : Code) (b : Code) (s : State) (h_s : Inv s) :
    Keeps (execRem t d a b s) := by
  unfold execRem
  try dsimp only
  repeat' first
    | (with_reducible first | assumption | apply laneInt2_inv | apply keeps_next | apply inv_foldl | apply inv_foldl_fst)
    | with_reducible intro _
    | (with_reducible first | apply Memory.wf_writeBytes | apply Memory.wf_writeCells | apply Memory.wf_write | apply Memory.wf_clear)
    | split
    | (with_reducible refine wf_of ?_)
    | assumption
    | (with_reducible apply inv_of; dsimp only)
    | dsimp only
    | exact State.reset_keeps

theorem execRemImm_inv (t : Ty) (d : Code) (a : Code) (imm : Half) (s : State) (h_s : Inv s) :
    Keeps (execRemImm t d a imm s) := by
  unfold execRemImm
  try dsimp only
  repeat' first
    | (with_reducible first | assumption | apply laneIntImm_inv | apply keeps_next | apply inv_foldl | apply inv_foldl_fst)
    | with_reducible intro _
    | (with_reducible first | apply Memory.wf_writeBytes | apply Memory.wf_writeCells | apply Memory.wf_write | apply Memory.wf_clear)
    | split
    | (with_reducible refine wf_of ?_)
    | assumption
    | (with_reducible apply inv_of; dsimp only)
    | dsimp only
    | exact State.reset_keeps

theorem execMin_inv (t : Ty) (d : Code) (a : Code) (b : Code) (s : State) (h_s : Inv s) :
    Keeps (execMin t d a b s) := by
  unfold execMin
  try dsimp only
  repeat' first
    | (with_reducible first | assumption | apply laneInt2_inv | apply keeps_next | apply inv_foldl | apply inv_foldl_fst)
    | with_reducible intro _
    | (with_reducible first | apply Memory.wf_writeBytes | apply Memory.wf_writeCells | apply Memory.wf_write | apply Memory.wf_clear)
    | split
    | (with_reducible refine wf_of ?_)
    | assumption
    | (with_reducible apply inv_of; dsimp only)
    | dsimp only
    | exact State.reset_keeps

theorem execMinImm_inv (t : Ty) (d : Code) (a : Code) (imm : Half) (s : State) (h_s : Inv s) :
    Keeps (execMinImm t d a imm s) := by
  unfold execMinImm
  try dsimp only
  repeat' first
    | (with_reducible first | assumption | apply laneIntImm_inv | apply keeps_next | apply inv_foldl | apply inv_foldl_fst)
    | with_reducible intro _
    | (with_reducible first | apply Memory.wf_writeBytes | apply Memory.wf_writeCells | apply Memory.wf_write | apply Memory.wf_clear)
    | split
    | (with_reducible refine wf_of ?_)
    | assumption
    | (with_reducible apply inv_of; dsimp only)
    | dsimp only
    | exact State.reset_keeps

theorem execMax_inv (t : Ty) (d : Code) (a : Code) (b : Code) (s : State) (h_s : Inv s) :
    Keeps (execMax t d a b s) := by
  unfold execMax
  try dsimp only
  repeat' first
    | (with_reducible first | assumption | apply laneInt2_inv | apply keeps_next | apply inv_foldl | apply inv_foldl_fst)
    | with_reducible intro _
    | (with_reducible first | apply Memory.wf_writeBytes | apply Memory.wf_writeCells | apply Memory.wf_write | apply Memory.wf_clear)
    | split
    | (with_reducible refine wf_of ?_)
    | assumption
    | (with_reducible apply inv_of; dsimp only)
    | dsimp only
    | exact State.reset_keeps

theorem execMaxImm_inv (t : Ty) (d : Code) (a : Code) (imm : Half) (s : State) (h_s : Inv s) :
    Keeps (execMaxImm t d a imm s) := by
  unfold execMaxImm
  try dsimp only
  repeat' first
    | (with_reducible first | assumption | apply laneIntImm_inv | apply keeps_next | apply inv_foldl | apply inv_foldl_fst)
    | with_reducible intro _
    | (with_reducible first | apply Memory.wf_writeBytes | apply Memory.wf_writeCells | apply Memory.wf_write | apply Memory.wf_clear)
    | split
    | (with_reducible refine wf_of ?_)
    | assumption
    | (with_reducible apply inv_of; dsimp only)
    | dsimp only
    | exact State.reset_keeps

theorem execAnd_inv (t : Ty) (d : Code) (a : Code) (b : Code) (s : State) (h_s : Inv s) :
    Keeps (execAnd t d a b s) := by
  unfold execAnd
  try dsimp only
  repeat' first
    | (with_reducible first | assumption | apply laneLogic_inv | apply keeps_next | apply inv_foldl | apply inv_foldl_fst)
    | with_reducible intro _
    | (with_reducible first | apply Memory.wf_writeBytes | apply Memory.wf_writeCells | apply Memory.wf_write | apply Memory.wf_clear)
    | split
    | (with_reducible refine wf_of ?_)
    | assumption
    | (with_reducible apply inv_of; dsimp only)
    | dsimp only
    | exact State.reset_keeps

theorem execAndImm_inv (t : Ty) (d : Code) (a : Code) (imm : Half) (s : State) (h_s : Inv s) :
    Keeps (execAndImm t d a imm s) := by
  unfold execAndImm
  try dsimp only
  repeat' first
    | (with_reducible first | assumption | apply laneLogicImm_inv | apply keeps_next | apply inv_foldl | apply inv_foldl_fst)
    | with_reducible intro _
    | (with_reducible first | apply Memory.wf_writeBytes | apply Memory.wf_writeCells | apply Memory.wf_write | apply Memory.wf_clear)
    | split
    | (with_reducible refine wf_of ?_)
    | assumption
    | (with_reducible apply inv_of; dsimp only)
    | dsimp only
    | exact State.reset_keeps

theorem execOr_inv (t : Ty) (d : Code) (a : Code) (b : Code) (s : State) (h_s : Inv s) :
    Keeps (execOr t d a b s) := by
  unfold execOr
  try dsimp only
  repeat' first
    | (with_reducible first | assumption | apply laneLogic_inv | apply keeps_next | apply inv_foldl | apply inv_foldl_fst)
    | with_reducible intro _
    | (with_reducible first | apply Memory.wf_writeBytes | apply Memory.wf_writeCells | apply Memory.wf_write | apply Memory.wf_clear)
    | split
    | (with_reducible refine wf_of ?_)
    | assumption
    | (with_reducible apply inv_of; dsimp only)
    | dsimp only
    | exact State.reset_keeps

theorem execOrImm_inv (t : Ty) (d : Code) (a : Code) (imm : Half) (s : State) (h_s : Inv s) :
    Keeps (execOrImm t d a imm s) := by
  unfold execOrImm
  try dsimp only
  repeat' first
    | (with_reducible first | assumption | apply laneLogicImm_inv | apply keeps_next | apply inv_foldl | apply inv_foldl_fst)
    | with_reducible intro _
    | (with_reducible first | apply Memory.wf_writeBytes | apply Memory.wf_writeCells | apply Memory.wf_write | apply Memory.wf_clear)
    | split
    | (with_reducible refine wf_of ?_)
    | assumption
    | (with_reducible apply inv_of; dsimp only)
    | dsimp only
    | exact State.reset_keeps

theorem execXor_inv (t : Ty) (d : Code) (a : Code) (b : Code) (s : State) (h_s : Inv s) :
    Keeps (execXor t d a b s) := by
  unfold execXor
  try dsimp only
  repeat' first
    | (with_reducible first | assumption | apply laneLogic_inv | apply keeps_next | apply inv_foldl | apply inv_foldl_fst)
    | with_reducible intro _
    | (with_reducible first | apply Memory.wf_writeBytes | apply Memory.wf_writeCells | apply Memory.wf_write | apply Memory.wf_clear)
    | split
    | (with_reducible refine wf_of ?_)
    | assumption
    | (with_reducible apply inv_of; dsimp only)
    | dsimp only
    | exact State.reset_keeps

theorem execXorImm_inv (t : Ty) (d : Code) (a : Code) (imm : Half) (s : State) (h_s : Inv s) :
    Keeps (execXorImm t d a imm s) := by
  unfold execXorImm
  try dsimp only
  repeat' first
    | (with_reducible first | assumption | apply laneLogicImm_inv | apply keeps_next | apply inv_foldl | apply inv_foldl_fst)
    | with_reducible intro _
    | (with_reducible first | apply Memory.wf_writeBytes | apply Memory.wf_writeCells | apply Memory.wf_write | apply Memory.wf_clear)
    | split
    | (with_reducible refine wf_of ?_)
    | assumption
    | (with_reducible apply inv_of; dsimp only)
    | dsimp only
    | exact State.reset_keeps

theorem execAndn_inv (t : Ty) (d : Code) (a : Code) (b : Code) (s : State) (h_s : Inv s) :
    Keeps (execAndn t d a b s) := by
  unfold execAndn
  try dsimp only
  repeat' first
    | (with_reducible first | assumption | apply laneLogic_inv | apply keeps_next | apply inv_foldl | apply inv_foldl_fst)
    | with_reducible intro _
    | (with_reducible first | apply Memory.wf_writeBytes | apply Memory.wf_writeCells | apply Memory.wf_write | apply Memory.wf_clear)
    | split
    | (with_reducible refine wf_of ?_)
    | assumption
    | (with_reducible apply inv_of; dsimp only)
    | dsimp only
    | exact State.reset_keeps

theorem execAndnImm_inv (t : Ty) (d : Code) (a : Code) (imm : Half) (s : State) (h_s : Inv s) :
    Keeps (execAndnImm t d a imm s) := by
  unfold execAndnImm
  try dsimp only
  repeat' first
    | (with_reducible first | assumption | apply laneLogicImm_inv | apply keeps_next | apply inv_foldl | apply inv_foldl_fst)
    | with_reducible intro _
    | (with_reducible first | apply Memory.wf_writeBytes | apply Memory.wf_writeCells | apply Memory.wf_write | apply Memory.wf_clear)
    | split
    | (with_reducible refine wf_of ?_)
    | assumption
    | (with_reducible apply inv_of; dsimp only)
    | dsimp only
    | exact State.reset_keeps

theorem execShl_inv (t : Ty) (d : Code) (a : Code) (b : Code) (s : State) (h_s : Inv s) :
    Keeps (execShl t d a b s) := by
  unfold execShl
  try dsimp only
  repeat' first
    | (with_reducible first | assumption | apply laneShift_inv | apply keeps_next | apply inv_foldl | apply inv_foldl_fst)
    | with_reducible intro _
    | (with_reducible first | apply Memory.wf_writeBytes | apply Memory.wf_writeCells | apply Memory.wf_write | apply Memory.wf_clear)
    | split
    | (with_reducible refine wf_of ?_)
    | assumption
    | (with_reducible apply inv_of; dsimp only)
    | dsimp only
    | exact State.reset_keeps

theorem execShlImm_inv (t : Ty) (d : Code) (a : Code) (sh : BitVec 6) (s : State) (h_s : Inv s) :
    Keeps (execShlImm t d a sh s) := by
  unfold execShlImm
  try dsimp only
  repeat' first
    | (with_reducible first | assumption | apply laneShiftImm_inv | apply keeps_next | apply inv_foldl | apply inv_foldl_fst)
    | with_reducible intro _
    | (with_reducible first | apply Memory.wf_writeBytes | apply Memory.wf_writeCells | apply Memory.wf_write | apply Memory.wf_clear)
    | split
    | (with_reducible refine wf_of ?_)
    | assumption
    | (with_reducible apply inv_of; dsimp only)
    | dsimp only
    | exact State.reset_keeps

theorem execShr_inv (t : Ty) (d : Code) (a : Code) (b : Code) (s : State) (h_s : Inv s) :
    Keeps (execShr t d a b s) := by
  unfold execShr
  try dsimp only
  repeat' first
    | (with_reducible first | assumption | apply laneShift_inv | apply keeps_next | apply inv_foldl | apply inv_foldl_fst)
    | with_reducible intro _
    | (with_reducible first | apply Memory.wf_writeBytes | apply Memory.wf_writeCells | apply Memory.wf_write | apply Memory.wf_clear)
    | split
    | (with_reducible refine wf_of ?_)
    | assumption
    | (with_reducible apply inv_of; dsimp only)
    | dsimp only
    | exact State.reset_keeps

theorem execShrImm_inv (t : Ty) (d : Code) (a : Code) (sh : BitVec 6) (s : State) (h_s : Inv s) :
    Keeps (execShrImm t d a sh s) := by
  unfold execShrImm
  try dsimp only
  repeat' first
    | (with_reducible first | assumption | apply laneShiftImm_inv | apply keeps_next | apply inv_foldl | apply inv_foldl_fst)
    | with_reducible intro _
    | (with_reducible first | apply Memory.wf_writeBytes | apply Memory.wf_writeCells | apply Memory.wf_write | apply Memory.wf_clear)
    | split
    | (with_reducible refine wf_of ?_)
    | assumption
    | (with_reducible apply inv_of; dsimp only)
    | dsimp only
    | exact State.reset_keeps

theorem execSra_inv (t : Ty) (d : Code) (a : Code) (b : Code) (s : State) (h_s : Inv s) :
    Keeps (execSra t d a b s) := by
  unfold execSra
  try dsimp only
  repeat' first
    | (with_reducible first | assumption | apply laneShift_inv | apply keeps_next | apply inv_foldl | apply inv_foldl_fst)
    | with_reducible intro _
    | (with_reducible first | apply Memory.wf_writeBytes | apply Memory.wf_writeCells | apply Memory.wf_write | apply Memory.wf_clear)
    | split
    | (with_reducible refine wf_of ?_)
    | assumption
    | (with_reducible apply inv_of; dsimp only)
    | dsimp only
    | exact State.reset_keeps

theorem execSraImm_inv (t : Ty) (d : Code) (a : Code) (sh : BitVec 6) (s : State) (h_s : Inv s) :
    Keeps (execSraImm t d a sh s) := by
  unfold execSraImm
  try dsimp only
  repeat' first
    | (with_reducible first | assumption | apply laneShiftImm_inv | apply keeps_next | apply inv_foldl | apply inv_foldl_fst)
    | with_reducible intro _
    | (with_reducible first | apply Memory.wf_writeBytes | apply Memory.wf_writeCells | apply Memory.wf_write | apply Memory.wf_clear)
    | split
    | (with_reducible refine wf_of ?_)
    | assumption
    | (with_reducible apply inv_of; dsimp only)
    | dsimp only
    | exact State.reset_keeps

theorem execRotl_inv (t : Ty) (d : Code) (a : Code) (b : Code) (s : State) (h_s : Inv s) :
    Keeps (execRotl t d a b s) := by
  unfold execRotl
  try dsimp only
  repeat' first
    | (with_reducible first | assumption | apply laneShift_inv | apply keeps_next | apply inv_foldl | apply inv_foldl_fst)
    | with_reducible intro _
    | (with_reducible first | apply Memory.wf_writeBytes | apply Memory.wf_writeCells | apply Memory.wf_write | apply Memory.wf_clear)
    | split
    | (with_reducible refine wf_of ?_)
    | assumption
    | (with_reducible apply inv_of; dsimp only)
    | dsimp only
    | exact State.reset_keeps

theorem execRotlImm_inv (t : Ty) (d : Code) (a : Code) (sh : BitVec 6) (s : State) (h_s : Inv s) :
    Keeps (execRotlImm t d a sh s) := by
  unfold execRotlImm
  try dsimp only
  repeat' first
    | (with_reducible first | assumption | apply laneShiftImm_inv | apply keeps_next | apply inv_foldl | apply inv_foldl_fst)
    | with_reducible intro _
    | (with_reducible first | apply Memory.wf_writeBytes | apply Memory.wf_writeCells | apply Memory.wf_write | apply Memory.wf_clear)
    | split
    | (with_reducible refine wf_of ?_)
    | assumption
    | (with_reducible apply inv_of; dsimp only)
    | dsimp only
    | exact State.reset_keeps

theorem execAddc_inv (_t : Ty) (d : Code) (a : Code) (b : Code) (c : Code) (s : State) (h_s : Inv s) :
    Keeps (execAddc _t d a b c s) := by
  unfold execAddc
  try dsimp only
  repeat' first
    | (with_reducible first | assumption | apply laneCarry_inv | apply keeps_next | apply inv_foldl | apply inv_foldl_fst)
    | with_reducible intro _
    | (with_reducible first | apply Memory.wf_writeBytes | apply Memory.wf_writeCells | apply Memory.wf_write | apply Memory.wf_clear)
    | split
    | (with_reducible refine wf_of ?_)
    | assumption
    | (with_reducible apply inv_of; dsimp only)
    | dsimp only
    | exact State.reset_keeps

theorem execSubb_inv (_t : Ty) (d : Code) (a : Code) (b : Code) (c : Code) (s : State) (h_s : Inv s) :
    Keeps (execSubb _t d a b c s) := by
  unfold execSubb
  try dsimp only
  repeat' first
    | (with_reducible first | assumption | apply laneCarry_inv | apply keeps_next | apply inv_foldl | apply inv_foldl_fst)
    | with_reducible intro _
    | (with_reducible first | apply Memory.wf_writeBytes | apply Memory.wf_writeCells | apply Memory.wf_write | apply Memory.wf_clear)
    | split
    | (with_reducible refine wf_of ?_)
    | assumption
    | (with_reducible apply inv_of; dsimp only)
    | dsimp only
    | exact State.reset_keeps

theorem execBfx_inv (t : Ty) (d : Code) (a : Code) (b : Code) (c : Code) (s : State) (h_s : Inv s) :
    Keeps (execBfx t d a b c s) := by
  unfold execBfx
  try dsimp only
  repeat' first
    | (with_reducible first | assumption | apply laneAlu_inv | apply keeps_next | apply inv_foldl | apply inv_foldl_fst)
    | with_reducible intro _
    | (with_reducible first | apply Memory.wf_writeBytes | apply Memory.wf_writeCells | apply Memory.wf_write | apply Memory.wf_clear)
    | split
    | (with_reducible refine wf_of ?_)
    | assumption
    | (with_reducible apply inv_of; dsimp only)
    | dsimp only
    | exact State.reset_keeps

theorem execBfxImm_inv (t : Ty) (d : Code) (a : Code) (pos : BitVec 6) (len : BitVec 6) (s : State) (h_s : Inv s) :
    Keeps (execBfxImm t d a pos len s) := by
  unfold execBfxImm
  try dsimp only
  repeat' first
    | (with_reducible first | assumption | apply laneAlu_inv | apply keeps_next | apply inv_foldl | apply inv_foldl_fst)
    | with_reducible intro _
    | (with_reducible first | apply Memory.wf_writeBytes | apply Memory.wf_writeCells | apply Memory.wf_write | apply Memory.wf_clear)
    | split
    | (with_reducible refine wf_of ?_)
    | assumption
    | (with_reducible apply inv_of; dsimp only)
    | dsimp only
    | exact State.reset_keeps

theorem execBfi_inv (t : Ty) (d : Code) (a : Code) (b : Code) (c : Code) (s : State) (h_s : Inv s) :
    Keeps (execBfi t d a b c s) := by
  unfold execBfi
  try dsimp only
  repeat' first
    | (with_reducible first | assumption | apply laneRun_inv | apply State.writeDest_inv | apply Check.keeps_stop)
    | refine Check.inv_stop (by with_reducible assumption) ?_
    | exact trivial
    | (with_reducible first | apply keeps_next | apply inv_foldl | apply inv_foldl_fst)
    | with_reducible intro _
    | (with_reducible first | apply Memory.wf_writeBytes | apply Memory.wf_writeCells | apply Memory.wf_write | apply Memory.wf_clear)
    | split
    | (with_reducible refine wf_of ?_)
    | assumption
    | (with_reducible apply inv_of; dsimp only)
    | dsimp only
    | exact State.reset_keeps

theorem execBfiImm_inv (t : Ty) (d : Code) (a : Code) (pos : BitVec 6) (len : BitVec 6) (s : State) (h_s : Inv s) :
    Keeps (execBfiImm t d a pos len s) := by
  unfold execBfiImm
  try dsimp only
  repeat' first
    | (with_reducible first | assumption | apply laneRun_inv | apply State.writeDest_inv | apply Check.keeps_stop)
    | refine Check.inv_stop (by with_reducible assumption) ?_
    | exact trivial
    | (with_reducible first | apply keeps_next | apply inv_foldl | apply inv_foldl_fst)
    | with_reducible intro _
    | (with_reducible first | apply Memory.wf_writeBytes | apply Memory.wf_writeCells | apply Memory.wf_write | apply Memory.wf_clear)
    | split
    | (with_reducible refine wf_of ?_)
    | assumption
    | (with_reducible apply inv_of; dsimp only)
    | dsimp only
    | exact State.reset_keeps

theorem execCmp_inv (k : Cond) (t : Ty) (d : Code) (a : Code) (b : Code) (s : State) (h_s : Inv s) :
    Keeps (execCmp k t d a b s) := by
  unfold execCmp
  try dsimp only
  repeat' first
    | (with_reducible first | assumption | apply laneCompare_inv | apply keeps_next | apply inv_foldl | apply inv_foldl_fst)
    | with_reducible intro _
    | (with_reducible first | apply Memory.wf_writeBytes | apply Memory.wf_writeCells | apply Memory.wf_write | apply Memory.wf_clear)
    | split
    | (with_reducible refine wf_of ?_)
    | assumption
    | (with_reducible apply inv_of; dsimp only)
    | dsimp only
    | exact State.reset_keeps

theorem execCmpImm_inv (k : Cond) (t : Ty) (d : Code) (a : Code) (imm : Half) (s : State) (h_s : Inv s) :
    Keeps (execCmpImm k t d a imm s) := by
  unfold execCmpImm
  try dsimp only
  repeat' first
    | (with_reducible first | assumption | apply laneCompare_inv | apply keeps_next | apply inv_foldl | apply inv_foldl_fst)
    | with_reducible intro _
    | (with_reducible first | apply Memory.wf_writeBytes | apply Memory.wf_writeCells | apply Memory.wf_write | apply Memory.wf_clear)
    | split
    | (with_reducible refine wf_of ?_)
    | assumption
    | (with_reducible apply inv_of; dsimp only)
    | dsimp only
    | exact State.reset_keeps

theorem execSel_inv (t : Ty) (d : Code) (a : Code) (b : Code) (c : Code) (s : State) (h_s : Inv s) :
    Keeps (execSel t d a b c s) := by
  unfold execSel
  try dsimp only
  repeat' first
    | (with_reducible first | assumption | apply laneSelect_inv | apply keeps_next | apply inv_foldl | apply inv_foldl_fst)
    | with_reducible intro _
    | (with_reducible first | apply Memory.wf_writeBytes | apply Memory.wf_writeCells | apply Memory.wf_write | apply Memory.wf_clear)
    | split
    | (with_reducible refine wf_of ?_)
    | assumption
    | (with_reducible apply inv_of; dsimp only)
    | dsimp only
    | exact State.reset_keeps

theorem execMovi_inv (t : Ty) (d : Code) (imm : Half) (s : State) (h_s : Inv s) :
    Keeps (execMovi t d imm s) := by
  unfold execMovi
  try dsimp only
  repeat' first
    | (with_reducible first | assumption | apply laneAlu_inv | apply keeps_next | apply inv_foldl | apply inv_foldl_fst)
    | with_reducible intro _
    | (with_reducible first | apply Memory.wf_writeBytes | apply Memory.wf_writeCells | apply Memory.wf_write | apply Memory.wf_clear)
    | split
    | (with_reducible refine wf_of ?_)
    | assumption
    | (with_reducible apply inv_of; dsimp only)
    | dsimp only
    | exact State.reset_keeps

theorem execLi_inv (_t : Ty) (d : Code) (lit : W32) (s : State) (h_s : Inv s) :
    Keeps (execLi _t d lit s) := by
  unfold execLi
  try dsimp only
  repeat' first
    | (with_reducible first | assumption | apply laneAlu_inv | apply keeps_next | apply inv_foldl | apply inv_foldl_fst)
    | with_reducible intro _
    | (with_reducible first | apply Memory.wf_writeBytes | apply Memory.wf_writeCells | apply Memory.wf_write | apply Memory.wf_clear)
    | split
    | (with_reducible refine wf_of ?_)
    | assumption
    | (with_reducible apply inv_of; dsimp only)
    | dsimp only
    | exact State.reset_keeps

theorem execUnassignedLaneOpcode_inv (_w : W32) (s : State) (h_s : Inv s) :
    Keeps (execUnassignedLaneOpcode _w s) := by
  unfold execUnassignedLaneOpcode
  try dsimp only
  repeat' first
    | (with_reducible first | assumption | apply laneIllegal_inv | apply keeps_next | apply inv_foldl | apply inv_foldl_fst)
    | with_reducible intro _
    | (with_reducible first | apply Memory.wf_writeBytes | apply Memory.wf_writeCells | apply Memory.wf_write | apply Memory.wf_clear)
    | split
    | (with_reducible refine wf_of ?_)
    | assumption
    | (with_reducible apply inv_of; dsimp only)
    | dsimp only
    | exact State.reset_keeps

theorem laneFloat_inv (s : State) (t : Ty) (rm : Rm) (d : Code) (srcs : List Src) (f : Round → (Nat → FVal) → FVal) (h_s : Inv s) :
    Keeps (laneFloat s t rm d srcs f) := by
  unfold laneFloat
  try dsimp only
  repeat' first
    | (with_reducible first | assumption | apply laneAlu_inv | apply keeps_next | apply inv_foldl | apply inv_foldl_fst)
    | with_reducible intro _
    | (with_reducible first | apply Memory.wf_writeBytes | apply Memory.wf_writeCells | apply Memory.wf_write | apply Memory.wf_clear)
    | split
    | (with_reducible refine wf_of ?_)
    | assumption
    | (with_reducible apply inv_of; dsimp only)
    | dsimp only
    | exact State.reset_keeps

theorem laneSpecial_inv (s : State) (d : Code) (a : Code) (f : FVal → FVal) (h_s : Inv s) :
    Keeps (laneSpecial s d a f) := by
  unfold laneSpecial
  try dsimp only
  repeat' first
    | (with_reducible first | assumption | apply laneAlu_inv | apply keeps_next | apply inv_foldl | apply inv_foldl_fst)
    | with_reducible intro _
    | (with_reducible first | apply Memory.wf_writeBytes | apply Memory.wf_writeCells | apply Memory.wf_write | apply Memory.wf_clear)
    | split
    | (with_reducible refine wf_of ?_)
    | assumption
    | (with_reducible apply inv_of; dsimp only)
    | dsimp only
    | exact State.reset_keeps

theorem execFadd_inv (t : Ty) (rm : Rm) (d : Code) (a : Code) (b : Code) (s : State) (h_s : Inv s) :
    Keeps (execFadd t rm d a b s) := by
  unfold execFadd
  try dsimp only
  repeat' first
    | (with_reducible first | assumption | apply laneFloat_inv | apply keeps_next | apply inv_foldl | apply inv_foldl_fst)
    | with_reducible intro _
    | (with_reducible first | apply Memory.wf_writeBytes | apply Memory.wf_writeCells | apply Memory.wf_write | apply Memory.wf_clear)
    | split
    | (with_reducible refine wf_of ?_)
    | assumption
    | (with_reducible apply inv_of; dsimp only)
    | dsimp only
    | exact State.reset_keeps

theorem execFsub_inv (t : Ty) (rm : Rm) (d : Code) (a : Code) (b : Code) (s : State) (h_s : Inv s) :
    Keeps (execFsub t rm d a b s) := by
  unfold execFsub
  try dsimp only
  repeat' first
    | (with_reducible first | assumption | apply laneFloat_inv | apply keeps_next | apply inv_foldl | apply inv_foldl_fst)
    | with_reducible intro _
    | (with_reducible first | apply Memory.wf_writeBytes | apply Memory.wf_writeCells | apply Memory.wf_write | apply Memory.wf_clear)
    | split
    | (with_reducible refine wf_of ?_)
    | assumption
    | (with_reducible apply inv_of; dsimp only)
    | dsimp only
    | exact State.reset_keeps

theorem execFmul_inv (t : Ty) (rm : Rm) (d : Code) (a : Code) (b : Code) (s : State) (h_s : Inv s) :
    Keeps (execFmul t rm d a b s) := by
  unfold execFmul
  try dsimp only
  repeat' first
    | (with_reducible first | assumption | apply laneFloat_inv | apply keeps_next | apply inv_foldl | apply inv_foldl_fst)
    | with_reducible intro _
    | (with_reducible first | apply Memory.wf_writeBytes | apply Memory.wf_writeCells | apply Memory.wf_write | apply Memory.wf_clear)
    | split
    | (with_reducible refine wf_of ?_)
    | assumption
    | (with_reducible apply inv_of; dsimp only)
    | dsimp only
    | exact State.reset_keeps

theorem execFfma_inv (t : Ty) (rm : Rm) (d : Code) (a : Code) (b : Code) (c : Code) (s : State) (h_s : Inv s) :
    Keeps (execFfma t rm d a b c s) := by
  unfold execFfma
  try dsimp only
  repeat' first
    | (with_reducible first | assumption | apply laneFloat_inv | apply keeps_next | apply inv_foldl | apply inv_foldl_fst)
    | with_reducible intro _
    | (with_reducible first | apply Memory.wf_writeBytes | apply Memory.wf_writeCells | apply Memory.wf_write | apply Memory.wf_clear)
    | split
    | (with_reducible refine wf_of ?_)
    | assumption
    | (with_reducible apply inv_of; dsimp only)
    | dsimp only
    | exact State.reset_keeps

theorem execFdiv_inv (t : Ty) (rm : Rm) (d : Code) (a : Code) (b : Code) (s : State) (h_s : Inv s) :
    Keeps (execFdiv t rm d a b s) := by
  unfold execFdiv
  try dsimp only
  repeat' first
    | (with_reducible first | assumption | apply laneFloat_inv | apply keeps_next | apply inv_foldl | apply inv_foldl_fst)
    | with_reducible intro _
    | (with_reducible first | apply Memory.wf_writeBytes | apply Memory.wf_writeCells | apply Memory.wf_write | apply Memory.wf_clear)
    | split
    | (with_reducible refine wf_of ?_)
    | assumption
    | (with_reducible apply inv_of; dsimp only)
    | dsimp only
    | exact State.reset_keeps

theorem execFsqrt_inv (t : Ty) (rm : Rm) (d : Code) (a : Code) (s : State) (h_s : Inv s) :
    Keeps (execFsqrt t rm d a s) := by
  unfold execFsqrt
  try dsimp only
  repeat' first
    | (with_reducible first | assumption | apply laneFloat_inv | apply keeps_next | apply inv_foldl | apply inv_foldl_fst)
    | with_reducible intro _
    | (with_reducible first | apply Memory.wf_writeBytes | apply Memory.wf_writeCells | apply Memory.wf_write | apply Memory.wf_clear)
    | split
    | (with_reducible refine wf_of ?_)
    | assumption
    | (with_reducible apply inv_of; dsimp only)
    | dsimp only
    | exact State.reset_keeps

theorem execFscale_inv (t : Ty) (rm : Rm) (d : Code) (a : Code) (b : Code) (s : State) (h_s : Inv s) :
    Keeps (execFscale t rm d a b s) := by
  unfold execFscale
  try dsimp only
  repeat' first
    | (with_reducible first | assumption | apply laneAlu_inv | apply keeps_next | apply inv_foldl | apply inv_foldl_fst)
    | with_reducible intro _
    | (with_reducible first | apply Memory.wf_writeBytes | apply Memory.wf_writeCells | apply Memory.wf_write | apply Memory.wf_clear)
    | split
    | (with_reducible refine wf_of ?_)
    | assumption
    | (with_reducible apply inv_of; dsimp only)
    | dsimp only
    | exact State.reset_keeps

theorem execFmin_inv (t : Ty) (d : Code) (a : Code) (b : Code) (s : State) (h_s : Inv s) :
    Keeps (execFmin t d a b s) := by
  unfold execFmin
  try dsimp only
  repeat' first
    | (with_reducible first | assumption | apply laneFloat_inv | apply keeps_next | apply inv_foldl | apply inv_foldl_fst)
    | with_reducible intro _
    | (with_reducible first | apply Memory.wf_writeBytes | apply Memory.wf_writeCells | apply Memory.wf_write | apply Memory.wf_clear)
    | split
    | (with_reducible refine wf_of ?_)
    | assumption
    | (with_reducible apply inv_of; dsimp only)
    | dsimp only
    | exact State.reset_keeps

theorem execFmax_inv (t : Ty) (d : Code) (a : Code) (b : Code) (s : State) (h_s : Inv s) :
    Keeps (execFmax t d a b s) := by
  unfold execFmax
  try dsimp only
  repeat' first
    | (with_reducible first | assumption | apply laneFloat_inv | apply keeps_next | apply inv_foldl | apply inv_foldl_fst)
    | with_reducible intro _
    | (with_reducible first | apply Memory.wf_writeBytes | apply Memory.wf_writeCells | apply Memory.wf_write | apply Memory.wf_clear)
    | split
    | (with_reducible refine wf_of ?_)
    | assumption
    | (with_reducible apply inv_of; dsimp only)
    | dsimp only
    | exact State.reset_keeps

theorem execFminnum_inv (t : Ty) (d : Code) (a : Code) (b : Code) (s : State) (h_s : Inv s) :
    Keeps (execFminnum t d a b s) := by
  unfold execFminnum
  try dsimp only
  repeat' first
    | (with_reducible first | assumption | apply laneFloat_inv | apply keeps_next | apply inv_foldl | apply inv_foldl_fst)
    | with_reducible intro _
    | (with_reducible first | apply Memory.wf_writeBytes | apply Memory.wf_writeCells | apply Memory.wf_write | apply Memory.wf_clear)
    | split
    | (with_reducible refine wf_of ?_)
    | assumption
    | (with_reducible apply inv_of; dsimp only)
    | dsimp only
    | exact State.reset_keeps

theorem execFmaxnum_inv (t : Ty) (d : Code) (a : Code) (b : Code) (s : State) (h_s : Inv s) :
    Keeps (execFmaxnum t d a b s) := by
  unfold execFmaxnum
  try dsimp only
  repeat' first
    | (with_reducible first | assumption | apply laneFloat_inv | apply keeps_next | apply inv_foldl | apply inv_foldl_fst)
    | with_reducible intro _
    | (with_reducible first | apply Memory.wf_writeBytes | apply Memory.wf_writeCells | apply Memory.wf_write | apply Memory.wf_clear)
    | split
    | (with_reducible refine wf_of ?_)
    | assumption
    | (with_reducible apply inv_of; dsimp only)
    | dsimp only
    | exact State.reset_keeps

theorem execFmaxabs_inv (t : Ty) (d : Code) (a : Code) (b : Code) (s : State) (h_s : Inv s) :
    Keeps (execFmaxabs t d a b s) := by
  unfold execFmaxabs
  try dsimp only
  repeat' first
    | (with_reducible first | assumption | apply laneFloat_inv | apply keeps_next | apply inv_foldl | apply inv_foldl_fst)
    | with_reducible intro _
    | (with_reducible first | apply Memory.wf_writeBytes | apply Memory.wf_writeCells | apply Memory.wf_write | apply Memory.wf_clear)
    | split
    | (with_reducible refine wf_of ?_)
    | assumption
    | (with_reducible apply inv_of; dsimp only)
    | dsimp only
    | exact State.reset_keeps

theorem execFcopysign_inv (t : Ty) (d : Code) (a : Code) (b : Code) (s : State) (h_s : Inv s) :
    Keeps (execFcopysign t d a b s) := by
  unfold execFcopysign
  try dsimp only
  repeat' first
    | (with_reducible first | assumption | apply laneAlu_inv | apply keeps_next | apply inv_foldl | apply inv_foldl_fst)
    | with_reducible intro _
    | (with_reducible first | apply Memory.wf_writeBytes | apply Memory.wf_writeCells | apply Memory.wf_write | apply Memory.wf_clear)
    | split
    | (with_reducible refine wf_of ?_)
    | assumption
    | (with_reducible apply inv_of; dsimp only)
    | dsimp only
    | exact State.reset_keeps

theorem execFrnd_inv (t : Ty) (rm : Rm) (d : Code) (a : Code) (s : State) (h_s : Inv s) :
    Keeps (execFrnd t rm d a s) := by
  unfold execFrnd
  try dsimp only
  repeat' first
    | (with_reducible first | assumption | apply laneFloat_inv | apply keeps_next | apply inv_foldl | apply inv_foldl_fst)
    | with_reducible intro _
    | (with_reducible first | apply Memory.wf_writeBytes | apply Memory.wf_writeCells | apply Memory.wf_write | apply Memory.wf_clear)
    | split
    | (with_reducible refine wf_of ?_)
    | assumption
    | (with_reducible apply inv_of; dsimp only)
    | dsimp only
    | exact State.reset_keeps

theorem execFcmp_inv (k : FCond) (t : Ty) (d : Code) (a : Code) (b : Code) (s : State) (h_s : Inv s) :
    Keeps (execFcmp k t d a b s) := by
  unfold execFcmp
  try dsimp only
  repeat' first
    | (with_reducible first | assumption | apply laneCompare_inv | apply keeps_next | apply inv_foldl | apply inv_foldl_fst)
    | with_reducible intro _
    | (with_reducible first | apply Memory.wf_writeBytes | apply Memory.wf_writeCells | apply Memory.wf_write | apply Memory.wf_clear)
    | split
    | (with_reducible refine wf_of ?_)
    | assumption
    | (with_reducible apply inv_of; dsimp only)
    | dsimp only
    | exact State.reset_keeps

theorem execFclass_inv (t : Ty) (d : Code) (a : Code) (s : State) (h_s : Inv s) :
    Keeps (execFclass t d a s) := by
  unfold execFclass
  try dsimp only
  repeat' first
    | (with_reducible first | assumption | apply laneAlu_inv | apply keeps_next | apply inv_foldl | apply inv_foldl_fst)
    | with_reducible intro _
    | (with_reducible first | apply Memory.wf_writeBytes | apply Memory.wf_writeCells | apply Memory.wf_write | apply Memory.wf_clear)
    | split
    | (with_reducible refine wf_of ?_)
    | assumption
    | (with_reducible apply inv_of; dsimp only)
    | dsimp only
    | exact State.reset_keeps

theorem execFsel_inv (t : Ty) (d : Code) (a : Code) (b : Code) (c : Code) (s : State) (h_s : Inv s) :
    Keeps (execFsel t d a b c s) := by
  unfold execFsel
  try dsimp only
  repeat' first
    | (with_reducible first | assumption | apply laneSelect_inv | apply keeps_next | apply inv_foldl | apply inv_foldl_fst)
    | with_reducible intro _
    | (with_reducible first | apply Memory.wf_writeBytes | apply Memory.wf_writeCells | apply Memory.wf_write | apply Memory.wf_clear)
    | split
    | (with_reducible refine wf_of ?_)
    | assumption
    | (with_reducible apply inv_of; dsimp only)
    | dsimp only
    | exact State.reset_keeps

theorem execFrcp_inv (d : Code) (a : Code) (s : State) (h_s : Inv s) :
    Keeps (execFrcp d a s) := by
  unfold execFrcp
  try dsimp only
  repeat' first
    | (with_reducible first | assumption | apply laneSpecial_inv | apply keeps_next | apply inv_foldl | apply inv_foldl_fst)
    | with_reducible intro _
    | (with_reducible first | apply Memory.wf_writeBytes | apply Memory.wf_writeCells | apply Memory.wf_write | apply Memory.wf_clear)
    | split
    | (with_reducible refine wf_of ?_)
    | assumption
    | (with_reducible apply inv_of; dsimp only)
    | dsimp only
    | exact State.reset_keeps

theorem execFrsq_inv (d : Code) (a : Code) (s : State) (h_s : Inv s) :
    Keeps (execFrsq d a s) := by
  unfold execFrsq
  try dsimp only
  repeat' first
    | (with_reducible first | assumption | apply laneSpecial_inv | apply keeps_next | apply inv_foldl | apply inv_foldl_fst)
    | with_reducible intro _
    | (with_reducible first | apply Memory.wf_writeBytes | apply Memory.wf_writeCells | apply Memory.wf_write | apply Memory.wf_clear)
    | split
    | (with_reducible refine wf_of ?_)
    | assumption
    | (with_reducible apply inv_of; dsimp only)
    | dsimp only
    | exact State.reset_keeps

theorem execFexp2_inv (d : Code) (a : Code) (s : State) (h_s : Inv s) :
    Keeps (execFexp2 d a s) := by
  unfold execFexp2
  try dsimp only
  repeat' first
    | (with_reducible first | assumption | apply laneSpecial_inv | apply keeps_next | apply inv_foldl | apply inv_foldl_fst)
    | with_reducible intro _
    | (with_reducible first | apply Memory.wf_writeBytes | apply Memory.wf_writeCells | apply Memory.wf_write | apply Memory.wf_clear)
    | split
    | (with_reducible refine wf_of ?_)
    | assumption
    | (with_reducible apply inv_of; dsimp only)
    | dsimp only
    | exact State.reset_keeps

theorem execFlog2_inv (d : Code) (a : Code) (s : State) (h_s : Inv s) :
    Keeps (execFlog2 d a s) := by
  unfold execFlog2
  try dsimp only
  repeat' first
    | (with_reducible first | assumption | apply laneSpecial_inv | apply keeps_next | apply inv_foldl | apply inv_foldl_fst)
    | with_reducible intro _
    | (with_reducible first | apply Memory.wf_writeBytes | apply Memory.wf_writeCells | apply Memory.wf_write | apply Memory.wf_clear)
    | split
    | (with_reducible refine wf_of ?_)
    | assumption
    | (with_reducible apply inv_of; dsimp only)
    | dsimp only
    | exact State.reset_keeps

theorem execFsin_inv (d : Code) (a : Code) (s : State) (h_s : Inv s) :
    Keeps (execFsin d a s) := by
  unfold execFsin
  try dsimp only
  repeat' first
    | (with_reducible first | assumption | apply laneSpecial_inv | apply keeps_next | apply inv_foldl | apply inv_foldl_fst)
    | with_reducible intro _
    | (with_reducible first | apply Memory.wf_writeBytes | apply Memory.wf_writeCells | apply Memory.wf_write | apply Memory.wf_clear)
    | split
    | (with_reducible refine wf_of ?_)
    | assumption
    | (with_reducible apply inv_of; dsimp only)
    | dsimp only
    | exact State.reset_keeps

theorem execFcos_inv (d : Code) (a : Code) (s : State) (h_s : Inv s) :
    Keeps (execFcos d a s) := by
  unfold execFcos
  try dsimp only
  repeat' first
    | (with_reducible first | assumption | apply laneSpecial_inv | apply keeps_next | apply inv_foldl | apply inv_foldl_fst)
    | with_reducible intro _
    | (with_reducible first | apply Memory.wf_writeBytes | apply Memory.wf_writeCells | apply Memory.wf_write | apply Memory.wf_clear)
    | split
    | (with_reducible refine wf_of ?_)
    | assumption
    | (with_reducible apply inv_of; dsimp only)
    | dsimp only
    | exact State.reset_keeps

theorem execFdot2_inv (t : Ty) (rm : Rm) (d : Code) (a : Code) (b : Code) (c : Code) (s : State) (h_s : Inv s) :
    Keeps (execFdot2 t rm d a b c s) := by
  unfold execFdot2
  try dsimp only
  repeat' first
    | (with_reducible first | assumption | apply laneAlu_inv | apply keeps_next | apply inv_foldl | apply inv_foldl_fst)
    | with_reducible intro _
    | (with_reducible first | apply Memory.wf_writeBytes | apply Memory.wf_writeCells | apply Memory.wf_write | apply Memory.wf_clear)
    | split
    | (with_reducible refine wf_of ?_)
    | assumption
    | (with_reducible apply inv_of; dsimp only)
    | dsimp only
    | exact State.reset_keeps

theorem execCvt_inv (tgt : Ty) (src : Ty) (rm : Rm) (sat : Bool) (d : Code) (a : Code) (e : Half) (s : State) (h_s : Inv s) :
    Keeps (execCvt tgt src rm sat d a e s) := by
  unfold execCvt
  try dsimp only
  repeat' first
    | (with_reducible first | assumption | apply laneAlu_inv | apply keeps_next | apply inv_foldl | apply inv_foldl_fst)
    | with_reducible intro _
    | (with_reducible first | apply Memory.wf_writeBytes | apply Memory.wf_writeCells | apply Memory.wf_write | apply Memory.wf_clear)
    | split
    | (with_reducible refine wf_of ?_)
    | assumption
    | (with_reducible apply inv_of; dsimp only)
    | dsimp only
    | exact State.reset_keeps

theorem execFsetm_inv (a : Code) (s : State) (h_s : Inv s) :
    Keeps (execFsetm a s) := by
  unfold execFsetm
  try dsimp only
  repeat' first
    | (with_reducible first | assumption | apply laneRun_inv | apply Check.fault_inv | apply State.setGrp_inv | apply State.countBlkErr_inv | apply Check.keeps_stop)
    | refine Check.inv_stop (by with_reducible assumption) ?_
    | exact trivial
    | (with_reducible first | apply keeps_next | apply inv_foldl | apply inv_foldl_fst)
    | with_reducible intro _
    | (with_reducible first | apply Memory.wf_writeBytes | apply Memory.wf_writeCells | apply Memory.wf_write | apply Memory.wf_clear)
    | split
    | (with_reducible refine wf_of ?_)
    | assumption
    | (with_reducible apply inv_of; dsimp only)
    | dsimp only
    | exact State.reset_keeps

theorem execFgetm_inv (d : Code) (s : State) (h_s : Inv s) :
    Keeps (execFgetm d s) := by
  unfold execFgetm
  try dsimp only
  repeat' first
    | (with_reducible first | assumption | apply laneAlu_inv | apply keeps_next | apply inv_foldl | apply inv_foldl_fst)
    | with_reducible intro _
    | (with_reducible first | apply Memory.wf_writeBytes | apply Memory.wf_writeCells | apply Memory.wf_write | apply Memory.wf_clear)
    | split
    | (with_reducible refine wf_of ?_)
    | assumption
    | (with_reducible apply inv_of; dsimp only)
    | dsimp only
    | exact State.reset_keeps

theorem laneMove_inv (s : State) (len : Nat) (d : Code) (a : Code) (extra : List Src) (sel : (Nat → Nat → W64) → LaneMask → Nat → Option Nat) (h_s : Inv s) :
    Keeps (laneMove s len d a extra sel) := by
  unfold laneMove
  try dsimp only
  repeat' first
    | (with_reducible first | assumption | apply laneRun_inv | apply State.writeDest_inv | apply Check.keeps_stop)
    | refine Check.inv_stop (by with_reducible assumption) ?_
    | exact trivial
    | (with_reducible first | apply keeps_next | apply inv_foldl | apply inv_foldl_fst)
    | with_reducible intro _
    | (with_reducible first | apply Memory.wf_writeBytes | apply Memory.wf_writeCells | apply Memory.wf_write | apply Memory.wf_clear)
    | split
    | (with_reducible refine wf_of ?_)
    | assumption
    | (with_reducible apply inv_of; dsimp only)
    | dsimp only
    | exact State.reset_keeps

theorem execShfl_inv (d : Code) (a : Code) (b : Code) (s : State) (h_s : Inv s) :
    Keeps (execShfl d a b s) := by
  unfold execShfl
  try dsimp only
  repeat' first
    | (with_reducible first | assumption | apply laneMove_inv | apply keeps_next | apply inv_foldl | apply inv_foldl_fst)
    | with_reducible intro _
    | (with_reducible first | apply Memory.wf_writeBytes | apply Memory.wf_writeCells | apply Memory.wf_write | apply Memory.wf_clear)
    | split
    | (with_reducible refine wf_of ?_)
    | assumption
    | (with_reducible apply inv_of; dsimp only)
    | dsimp only
    | exact State.reset_keeps

theorem execBcast_inv (d : Code) (a : Code) (b : Code) (s : State) (h_s : Inv s) :
    Keeps (execBcast d a b s) := by
  unfold execBcast
  try dsimp only
  repeat' first
    | (with_reducible first | assumption | apply laneMove_inv | apply keeps_next | apply inv_foldl | apply inv_foldl_fst)
    | with_reducible intro _
    | (with_reducible first | apply Memory.wf_writeBytes | apply Memory.wf_writeCells | apply Memory.wf_write | apply Memory.wf_clear)
    | split
    | (with_reducible refine wf_of ?_)
    | assumption
    | (with_reducible apply inv_of; dsimp only)
    | dsimp only
    | exact State.reset_keeps

theorem execBcastImm_inv (d : Code) (a : Code) (l : BitVec 6) (s : State) (h_s : Inv s) :
    Keeps (execBcastImm d a l s) := by
  unfold execBcastImm
  try dsimp only
  repeat' first
    | (with_reducible first | assumption | apply laneMove_inv | apply keeps_next | apply inv_foldl | apply inv_foldl_fst)
    | with_reducible intro _
    | (with_reducible first | apply Memory.wf_writeBytes | apply Memory.wf_writeCells | apply Memory.wf_write | apply Memory.wf_clear)
    | split
    | (with_reducible refine wf_of ?_)
    | assumption
    | (with_reducible apply inv_of; dsimp only)
    | dsimp only
    | exact State.reset_keeps

theorem laneSlide_inv (s : State) (up : Bool) (d : Code) (a : Code) (b : Code) (h_s : Inv s) :
    Keeps (laneSlide s up d a b) := by
  unfold laneSlide
  try dsimp only
  repeat' first
    | (with_reducible first | assumption | apply laneRun_inv | apply State.writeDest_inv | apply Check.keeps_stop)
    | refine Check.inv_stop (by with_reducible assumption) ?_
    | exact trivial
    | (with_reducible first | apply keeps_next | apply inv_foldl | apply inv_foldl_fst)
    | with_reducible intro _
    | (with_reducible first | apply Memory.wf_writeBytes | apply Memory.wf_writeCells | apply Memory.wf_write | apply Memory.wf_clear)
    | split
    | (with_reducible refine wf_of ?_)
    | assumption
    | (with_reducible apply inv_of; dsimp only)
    | dsimp only
    | exact State.reset_keeps

theorem execSlideup_inv (d : Code) (a : Code) (b : Code) (s : State) (h_s : Inv s) :
    Keeps (execSlideup d a b s) := by
  unfold execSlideup
  try dsimp only
  repeat' first
    | (with_reducible first | assumption | apply laneSlide_inv | apply keeps_next | apply inv_foldl | apply inv_foldl_fst)
    | with_reducible intro _
    | (with_reducible first | apply Memory.wf_writeBytes | apply Memory.wf_writeCells | apply Memory.wf_write | apply Memory.wf_clear)
    | split
    | (with_reducible refine wf_of ?_)
    | assumption
    | (with_reducible apply inv_of; dsimp only)
    | dsimp only
    | exact State.reset_keeps

theorem execSlideupImm_inv (d : Code) (a : Code) (n : BitVec 6) (s : State) (h_s : Inv s) :
    Keeps (execSlideupImm d a n s) := by
  unfold execSlideupImm
  try dsimp only
  repeat' first
    | (with_reducible first | assumption | apply laneMove_inv | apply keeps_next | apply inv_foldl | apply inv_foldl_fst)
    | with_reducible intro _
    | (with_reducible first | apply Memory.wf_writeBytes | apply Memory.wf_writeCells | apply Memory.wf_write | apply Memory.wf_clear)
    | split
    | (with_reducible refine wf_of ?_)
    | assumption
    | (with_reducible apply inv_of; dsimp only)
    | dsimp only
    | exact State.reset_keeps

theorem execSlidedn_inv (d : Code) (a : Code) (b : Code) (s : State) (h_s : Inv s) :
    Keeps (execSlidedn d a b s) := by
  unfold execSlidedn
  try dsimp only
  repeat' first
    | (with_reducible first | assumption | apply laneSlide_inv | apply keeps_next | apply inv_foldl | apply inv_foldl_fst)
    | with_reducible intro _
    | (with_reducible first | apply Memory.wf_writeBytes | apply Memory.wf_writeCells | apply Memory.wf_write | apply Memory.wf_clear)
    | split
    | (with_reducible refine wf_of ?_)
    | assumption
    | (with_reducible apply inv_of; dsimp only)
    | dsimp only
    | exact State.reset_keeps

theorem execSlidednImm_inv (d : Code) (a : Code) (n : BitVec 6) (s : State) (h_s : Inv s) :
    Keeps (execSlidednImm d a n s) := by
  unfold execSlidednImm
  try dsimp only
  repeat' first
    | (with_reducible first | assumption | apply laneMove_inv | apply keeps_next | apply inv_foldl | apply inv_foldl_fst)
    | with_reducible intro _
    | (with_reducible first | apply Memory.wf_writeBytes | apply Memory.wf_writeCells | apply Memory.wf_write | apply Memory.wf_clear)
    | split
    | (with_reducible refine wf_of ?_)
    | assumption
    | (with_reducible apply inv_of; dsimp only)
    | dsimp only
    | exact State.reset_keeps

theorem execQswapH_inv (d : Code) (a : Code) (s : State) (h_s : Inv s) :
    Keeps (execQswapH d a s) := by
  unfold execQswapH
  try dsimp only
  repeat' first
    | (with_reducible first | assumption | apply laneMove_inv | apply keeps_next | apply inv_foldl | apply inv_foldl_fst)
    | with_reducible intro _
    | (with_reducible first | apply Memory.wf_writeBytes | apply Memory.wf_writeCells | apply Memory.wf_write | apply Memory.wf_clear)
    | split
    | (with_reducible refine wf_of ?_)
    | assumption
    | (with_reducible apply inv_of; dsimp only)
    | dsimp only
    | exact State.reset_keeps

theorem execQswapV_inv (d : Code) (a : Code) (s : State) (h_s : Inv s) :
    Keeps (execQswapV d a s) := by
  unfold execQswapV
  try dsimp only
  repeat' first
    | (with_reducible first | assumption | apply laneMove_inv | apply keeps_next | apply inv_foldl | apply inv_foldl_fst)
    | with_reducible intro _
    | (with_reducible first | apply Memory.wf_writeBytes | apply Memory.wf_writeCells | apply Memory.wf_write | apply Memory.wf_clear)
    | split
    | (with_reducible refine wf_of ?_)
    | assumption
    | (with_reducible apply inv_of; dsimp only)
    | dsimp only
    | exact State.reset_keeps

theorem execQswapD_inv (d : Code) (a : Code) (s : State) (h_s : Inv s) :
    Keeps (execQswapD d a s) := by
  unfold execQswapD
  try dsimp only
  repeat' first
    | (with_reducible first | assumption | apply laneMove_inv | apply keeps_next | apply inv_foldl | apply inv_foldl_fst)
    | with_reducible intro _
    | (with_reducible first | apply Memory.wf_writeBytes | apply Memory.wf_writeCells | apply Memory.wf_write | apply Memory.wf_clear)
    | split
    | (with_reducible refine wf_of ?_)
    | assumption
    | (with_reducible apply inv_of; dsimp only)
    | dsimp only
    | exact State.reset_keeps

theorem execQbcast_inv (d : Code) (a : Code) (p : BitVec 2) (s : State) (h_s : Inv s) :
    Keeps (execQbcast d a p s) := by
  unfold execQbcast
  try dsimp only
  repeat' first
    | (with_reducible first | assumption | apply laneMove_inv | apply keeps_next | apply inv_foldl | apply inv_foldl_fst)
    | with_reducible intro _
    | (with_reducible first | apply Memory.wf_writeBytes | apply Memory.wf_writeCells | apply Memory.wf_write | apply Memory.wf_clear)
    | split
    | (with_reducible refine wf_of ?_)
    | assumption
    | (with_reducible apply inv_of; dsimp only)
    | dsimp only
    | exact State.reset_keeps

theorem execCompress_inv (d : Code) (a : Code) (s : State) (h_s : Inv s) :
    Keeps (execCompress d a s) := by
  unfold execCompress
  try dsimp only
  repeat' first
    | (with_reducible first | assumption | apply laneRun_inv | apply State.setGrp_inv | apply State.writeDest_inv | apply Check.keeps_stop)
    | refine Check.inv_stop (by with_reducible assumption) ?_
    | exact trivial
    | (with_reducible first | apply keeps_next | apply inv_foldl | apply inv_foldl_fst)
    | with_reducible intro _
    | (with_reducible first | apply Memory.wf_writeBytes | apply Memory.wf_writeCells | apply Memory.wf_write | apply Memory.wf_clear)
    | split
    | (with_reducible refine wf_of ?_)
    | assumption
    | (with_reducible apply inv_of; dsimp only)
    | dsimp only
    | exact State.reset_keeps

theorem execExpand_inv (d : Code) (a : Code) (s : State) (h_s : Inv s) :
    Keeps (execExpand d a s) := by
  unfold execExpand
  try dsimp only
  repeat' first
    | (with_reducible first | assumption | apply laneMove_inv | apply keeps_next | apply inv_foldl | apply inv_foldl_fst)
    | with_reducible intro _
    | (with_reducible first | apply Memory.wf_writeBytes | apply Memory.wf_writeCells | apply Memory.wf_write | apply Memory.wf_clear)
    | split
    | (with_reducible refine wf_of ?_)
    | assumption
    | (with_reducible apply inv_of; dsimp only)
    | dsimp only
    | exact State.reset_keeps

theorem execGred_inv (op : RedOp) (t : Ty) (a : Code) (s : State) (h_s : Inv s) :
    Keeps (execGred op t a s) := by
  unfold execGred
  try dsimp only
  repeat' first
    | (with_reducible first | assumption | apply laneRun_inv | apply State.pushFbq_inv | apply Check.keeps_stop)
    | refine Check.inv_stop (by with_reducible assumption) ?_
    | exact trivial
    | (with_reducible first | apply keeps_next | apply inv_foldl | apply inv_foldl_fst)
    | with_reducible intro _
    | (with_reducible first | apply Memory.wf_writeBytes | apply Memory.wf_writeCells | apply Memory.wf_write | apply Memory.wf_clear)
    | split
    | (with_reducible refine wf_of ?_)
    | assumption
    | (with_reducible apply inv_of; dsimp only)
    | dsimp only
    | exact State.reset_keeps

theorem execGscan_inv (t : Ty) (a : Code) (s : State) (h_s : Inv s) :
    Keeps (execGscan t a s) := by
  unfold execGscan
  try dsimp only
  repeat' first
    | (with_reducible first | assumption | apply laneRun_inv | apply State.pushFbq_inv | apply State.writeDest_inv | apply Check.keeps_stop)
    | refine Check.inv_stop (by with_reducible assumption) ?_
    | exact trivial
    | (with_reducible first | apply keeps_next | apply inv_foldl | apply inv_foldl_fst)
    | with_reducible intro _
    | (with_reducible first | apply Memory.wf_writeBytes | apply Memory.wf_writeCells | apply Memory.wf_write | apply Memory.wf_clear)
    | split
    | (with_reducible refine wf_of ?_)
    | assumption
    | (with_reducible apply inv_of; dsimp only)
    | dsimp only
    | exact State.reset_keeps

theorem laneMaskOp_inv (s : State) (fields : List Code) (d : Code) (f : Group → LaneMask) (h_s : Inv s) :
    Keeps (laneMaskOp s fields d f) := by
  unfold laneMaskOp
  try dsimp only
  repeat' first
    | (with_reducible first | assumption | apply laneRun_inv | apply State.writeMask_inv | apply Check.keeps_stop)
    | refine Check.inv_stop (by with_reducible assumption) ?_
    | exact trivial
    | (with_reducible first | apply keeps_next | apply inv_foldl | apply inv_foldl_fst)
    | with_reducible intro _
    | (with_reducible first | apply Memory.wf_writeBytes | apply Memory.wf_writeCells | apply Memory.wf_write | apply Memory.wf_clear)
    | split
    | (with_reducible refine wf_of ?_)
    | assumption
    | (with_reducible apply inv_of; dsimp only)
    | dsimp only
    | exact State.reset_keeps

theorem execMand_inv (d : Code) (a : Code) (b : Code) (s : State) (h_s : Inv s) :
    Keeps (execMand d a b s) := by
  unfold execMand
  try dsimp only
  repeat' first
    | (with_reducible first | assumption | apply laneMaskOp_inv | apply keeps_next | apply inv_foldl | apply inv_foldl_fst)
    | with_reducible intro _
    | (with_reducible first | apply Memory.wf_writeBytes | apply Memory.wf_writeCells | apply Memory.wf_write | apply Memory.wf_clear)
    | split
    | (with_reducible refine wf_of ?_)
    | assumption
    | (with_reducible apply inv_of; dsimp only)
    | dsimp only
    | exact State.reset_keeps

theorem execMor_inv (d : Code) (a : Code) (b : Code) (s : State) (h_s : Inv s) :
    Keeps (execMor d a b s) := by
  unfold execMor
  try dsimp only
  repeat' first
    | (with_reducible first | assumption | apply laneMaskOp_inv | apply keeps_next | apply inv_foldl | apply inv_foldl_fst)
    | with_reducible intro _
    | (with_reducible first | apply Memory.wf_writeBytes | apply Memory.wf_writeCells | apply Memory.wf_write | apply Memory.wf_clear)
    | split
    | (with_reducible refine wf_of ?_)
    | assumption
    | (with_reducible apply inv_of; dsimp only)
    | dsimp only
    | exact State.reset_keeps

theorem execMxor_inv (d : Code) (a : Code) (b : Code) (s : State) (h_s : Inv s) :
    Keeps (execMxor d a b s) := by
  unfold execMxor
  try dsimp only
  repeat' first
    | (with_reducible first | assumption | apply laneMaskOp_inv | apply keeps_next | apply inv_foldl | apply inv_foldl_fst)
    | with_reducible intro _
    | (with_reducible first | apply Memory.wf_writeBytes | apply Memory.wf_writeCells | apply Memory.wf_write | apply Memory.wf_clear)
    | split
    | (with_reducible refine wf_of ?_)
    | assumption
    | (with_reducible apply inv_of; dsimp only)
    | dsimp only
    | exact State.reset_keeps

theorem execMnot_inv (d : Code) (a : Code) (s : State) (h_s : Inv s) :
    Keeps (execMnot d a s) := by
  unfold execMnot
  try dsimp only
  repeat' first
    | (with_reducible first | assumption | apply laneMaskOp_inv | apply keeps_next | apply inv_foldl | apply inv_foldl_fst)
    | with_reducible intro _
    | (with_reducible first | apply Memory.wf_writeBytes | apply Memory.wf_writeCells | apply Memory.wf_write | apply Memory.wf_clear)
    | split
    | (with_reducible refine wf_of ?_)
    | assumption
    | (with_reducible apply inv_of; dsimp only)
    | dsimp only
    | exact State.reset_keeps

theorem execMfirst_inv (d : Code) (a : Code) (s : State) (h_s : Inv s) :
    Keeps (execMfirst d a s) := by
  unfold execMfirst
  try dsimp only
  repeat' first
    | (with_reducible first | assumption | apply laneMaskOp_inv | apply keeps_next | apply inv_foldl | apply inv_foldl_fst)
    | with_reducible intro _
    | (with_reducible first | apply Memory.wf_writeBytes | apply Memory.wf_writeCells | apply Memory.wf_write | apply Memory.wf_clear)
    | split
    | (with_reducible refine wf_of ?_)
    | assumption
    | (with_reducible apply inv_of; dsimp only)
    | dsimp only
    | exact State.reset_keeps

theorem execMpopc_inv (d : Code) (a : Code) (s : State) (h_s : Inv s) :
    Keeps (execMpopc d a s) := by
  unfold execMpopc
  try dsimp only
  repeat' first
    | (with_reducible first | assumption | apply laneRun_inv | apply State.writeDest_inv | apply Check.keeps_stop)
    | refine Check.inv_stop (by with_reducible assumption) ?_
    | exact trivial
    | (with_reducible first | apply keeps_next | apply inv_foldl | apply inv_foldl_fst)
    | with_reducible intro _
    | (with_reducible first | apply Memory.wf_writeBytes | apply Memory.wf_writeCells | apply Memory.wf_write | apply Memory.wf_clear)
    | split
    | (with_reducible refine wf_of ?_)
    | assumption
    | (with_reducible apply inv_of; dsimp only)
    | dsimp only
    | exact State.reset_keeps

theorem execMpush_inv (a : Code) (s : State) (h_s : Inv s) :
    Keeps (execMpush a s) := by
  unfold execMpush
  try dsimp only
  repeat' first
    | (with_reducible first | assumption | apply laneRun_inv | apply Check.fault_inv | apply State.setGrp_inv | apply Check.keeps_stop)
    | refine Check.inv_stop (by with_reducible assumption) ?_
    | exact trivial
    | (with_reducible first | apply keeps_next | apply inv_foldl | apply inv_foldl_fst)
    | with_reducible intro _
    | (with_reducible first | apply Memory.wf_writeBytes | apply Memory.wf_writeCells | apply Memory.wf_write | apply Memory.wf_clear)
    | split
    | (with_reducible refine wf_of ?_)
    | assumption
    | (with_reducible apply inv_of; dsimp only)
    | dsimp only
    | exact State.reset_keeps

theorem execMpop_inv (d : Code) (s : State) (h_s : Inv s) :
    Keeps (execMpop d s) := by
  unfold execMpop
  try dsimp only
  repeat' first
    | (with_reducible first | assumption | apply laneRun_inv | apply Check.fault_inv | apply State.setGrp_inv | apply Check.keeps_stop)
    | refine Check.inv_stop (by with_reducible assumption) ?_
    | exact trivial
    | (with_reducible first | apply keeps_next | apply inv_foldl | apply inv_foldl_fst)
    | with_reducible intro _
    | (with_reducible first | apply Memory.wf_writeBytes | apply Memory.wf_writeCells | apply Memory.wf_write | apply Memory.wf_clear)
    | split
    | (with_reducible refine wf_of ?_)
    | assumption
    | (with_reducible apply inv_of; dsimp only)
    | dsimp only
    | exact State.reset_keeps

theorem execMset_inv (d : Code) (a : Code) (s : State) (h_s : Inv s) :
    Keeps (execMset d a s) := by
  unfold execMset
  try dsimp only
  repeat' first
    | (with_reducible first | assumption | apply laneRun_inv | apply State.writeMask_inv | apply Check.keeps_stop)
    | refine Check.inv_stop (by with_reducible assumption) ?_
    | exact trivial
    | (with_reducible first | apply keeps_next | apply inv_foldl | apply inv_foldl_fst)
    | with_reducible intro _
    | (with_reducible first | apply Memory.wf_writeBytes | apply Memory.wf_writeCells | apply Memory.wf_write | apply Memory.wf_clear)
    | split
    | (with_reducible refine wf_of ?_)
    | assumption
    | (with_reducible apply inv_of; dsimp only)
    | dsimp only
    | exact State.reset_keeps

theorem State.sample_inv (s : State) (op : Nat) (n : Nat) (act : LaneMask) (l : List LaneAccess) (posted : Bool) (fault : Bool) (h_s : Inv s) :
    Inv (State.sample s op n act l posted fault) := by
  unfold State.sample
  try dsimp only
  repeat' first
    | (with_reducible first | assumption | apply State.setGrp_inv | apply keeps_next | apply inv_foldl | apply inv_foldl_fst)
    | with_reducible intro _
    | (with_reducible first | apply Memory.wf_writeBytes | apply Memory.wf_writeCells | apply Memory.wf_write | apply Memory.wf_clear)
    | split
    | (with_reducible refine wf_of ?_)
    | assumption
    | (with_reducible apply inv_of; dsimp only)
    | dsimp only
    | exact State.reset_keeps

theorem State.sampleDone_inv (s : State) (k : Nat) (h_s : Inv s) :
    Inv (State.sampleDone s k) := by
  unfold State.sampleDone
  try dsimp only
  repeat' first
    | (with_reducible first | assumption | apply State.trace_inv | apply State.performStore_inv | apply State.writeAs_inv | apply State.setGrpAt_inv | apply keeps_next | apply inv_foldl | apply inv_foldl_fst)
    | with_reducible intro _
    | (with_reducible first | apply Memory.wf_writeBytes | apply Memory.wf_writeCells | apply Memory.wf_write | apply Memory.wf_clear)
    | split
    | (with_reducible refine wf_of ?_)
    | assumption
    | (with_reducible apply inv_of; dsimp only)
    | dsimp only
    | exact State.reset_keeps

theorem State.laneMemFault_inv (s : State) (need : Need) (fs : List (LaneAccess × LaneFailure)) (h_s : Inv s) :
    Inv (State.laneMemFault s need fs) := by
  unfold State.laneMemFault
  try dsimp only
  repeat' first
    | (with_reducible first | assumption | apply State.countAccess_inv | apply State.setGrp_inv | apply State.streamFault_inv | apply keeps_next | apply inv_foldl | apply inv_foldl_fst)
    | with_reducible intro _
    | (with_reducible first | apply Memory.wf_writeBytes | apply Memory.wf_writeCells | apply Memory.wf_write | apply Memory.wf_clear)
    | split
    | (with_reducible refine wf_of ?_)
    | assumption
    | (with_reducible apply inv_of; dsimp only)
    | dsimp only
    | exact State.reset_keeps

theorem State.sampleFault_inv (t : State) (op : Nat) (n : Nat) (act : LaneMask) (l : List LaneAccess) (h_t : Inv t) :
    Inv (State.sampleFault t op n act l) := by
  unfold State.sampleFault
  try dsimp only
  repeat' first
    | (with_reducible first | assumption | apply State.setGrp_inv | apply State.sampleDone_inv | apply State.sample_inv | apply keeps_next | apply inv_foldl | apply inv_foldl_fst)
    | with_reducible intro _
    | (with_reducible first | apply Memory.wf_writeBytes | apply Memory.wf_writeCells | apply Memory.wf_write | apply Memory.wf_clear)
    | split
    | (with_reducible refine wf_of ?_)
    | assumption
    | (with_reducible apply inv_of; dsimp only)
    | dsimp only
    | exact State.reset_keeps

theorem State.addressCheck_inv (s : State) (m : Access) (n : Nat) (l : List LaneAccess) (faulted : State → State) (h_s : Inv s) (h_faulted : ∀ v0, Inv v0 → Inv (faulted v0)) :
    (State.addressCheck s m n l faulted).Keeps := by
  unfold State.addressCheck
  try dsimp only
  repeat' first
    | (with_reducible first | assumption | apply State.laneMemFault_inv | apply h_faulted | apply Check.keeps_stop)
    | refine Check.inv_stop (by with_reducible assumption) ?_
    | exact trivial
    | (with_reducible first | apply keeps_next | apply inv_foldl | apply inv_foldl_fst)
    | with_reducible intro _
    | (with_reducible first | apply Memory.wf_writeBytes | apply Memory.wf_writeCells | apply Memory.wf_write | apply Memory.wf_clear)
    | split
    | (with_reducible refine wf_of ?_)
    | assumption
    | (with_reducible apply inv_of; dsimp only)
    | dsimp only
    | exact State.reset_keeps

theorem State.accessCheck_inv (s : State) (op : Nat) (m : Access) (n : Nat) (act : LaneMask) (l : List LaneAccess) (h_s : Inv s) :
    (State.accessCheck s op m n act l).Keeps := by
  unfold State.accessCheck
  try dsimp only
  repeat' first
    | (with_reducible first | assumption | apply State.addressCheck_inv | apply State.sampleFault_inv | apply Check.keeps_stop)
    | refine Check.inv_stop (by with_reducible assumption) ?_
    | exact trivial
    | (with_reducible first | apply keeps_next | apply inv_foldl | apply inv_foldl_fst)
    | with_reducible intro _
    | (with_reducible first | apply Memory.wf_writeBytes | apply Memory.wf_writeCells | apply Memory.wf_write | apply Memory.wf_clear)
    | split
    | (with_reducible refine wf_of ?_)
    | assumption
    | (with_reducible apply inv_of; dsimp only)
    | dsimp only
    | exact State.reset_keeps

theorem State.laneLoad_inv (s : State) (m : Access) (n : Nat) (x : LaneAccess) (h_s : Inv s) :
    Inv (State.laneLoad s m n x).1 := by
  unfold State.laneLoad
  try dsimp only
  repeat' first
    | (with_reducible first | assumption | apply State.hostTouch_inv | apply State.keepTlb_inv | apply State.meterAt_inv | apply State.l1Fill_inv | apply keeps_next | apply inv_foldl | apply inv_foldl_fst)
    | with_reducible intro _
    | (with_reducible first | apply Memory.wf_writeBytes | apply Memory.wf_writeCells | apply Memory.wf_write | apply Memory.wf_clear)
    | split
    | (with_reducible refine wf_of ?_)
    | assumption
    | (with_reducible apply inv_of; dsimp only)
    | dsimp only
    | exact State.reset_keeps

theorem State.laneLoad_eq {s : State} {m : Access} {n : Nat} {x : LaneAccess} {u : State} {z_ : List Byte} (e : State.laneLoad s m n x = (u, z_)) (h_s : Inv s) : Inv u := by
  have q := State.laneLoad_inv s m n x h_s
  rw [e] at q; exact q

theorem State.laneStore_inv (s : State) (x : LaneAccess) (l : List Byte) (h_s : Inv s) :
    Inv (State.laneStore s x l) := by
  unfold State.laneStore
  try dsimp only
  repeat' first
    | (with_reducible first | assumption | apply State.keepTlb_inv | apply State.l1Update_inv | apply State.performStore_inv | apply State.writeAs_inv | apply State.flushSector_inv | apply State.meter_inv | apply keeps_next | apply inv_foldl | apply inv_foldl_fst)
    | with_reducible intro _
    | (with_reducible first | apply Memory.wf_writeBytes | apply Memory.wf_writeCells | apply Memory.wf_write | apply Memory.wf_clear)
    | split
    | (with_reducible refine wf_of ?_)
    | assumption
    | (with_reducible apply inv_of; dsimp only)
    | dsimp only
    | exact State.reset_keeps

theorem State.laneLoads_inv (s : State) (m : Access) (n : Nat) (l : List LaneAccess) (h_s : Inv s) : Inv (s.laneLoads m n l).1 := by
  induction l generalizing s with
  | nil => exact h_s
  | cons x l ih => exact ih _ (State.laneLoad_inv _ _ _ _ h_s)

theorem State.laneLoads_eq {s : State} {m : Access} {n : Nat} {a : List LaneAccess} {u : State} {z_ : List (Nat × List Byte)} (e : State.laneLoads s m n a = (u, z_)) (h_s : Inv s) : Inv u := by
  have q := State.laneLoads_inv s m n a h_s
  rw [e] at q; exact q

theorem State.laneStores_inv (s : State) (data : Nat → List Byte) (l : List LaneAccess) (h_s : Inv s) : Inv (s.laneStores data l) := by
  induction l generalizing s with
  | nil => exact h_s
  | cons x l ih => exact ih _ (State.laneStore_inv _ _ _ h_s)

theorem State.sendPosts_inv (s : State) (l : List Posting) (h_s : Inv s) : Inv (s.sendPosts l).1 := by
  induction l generalizing s with
  | nil => exact h_s
  | cons x l ih =>
    unfold State.sendPosts
    split
    · exact ih _ (State.post_inv _ _ _ _ h_s)
    · exact h_s

theorem State.sendPosts_eq {s : State} {a : List Posting} {u : State} {z_ : List Posting} (e : State.sendPosts s a = (u, z_)) (h_s : Inv s) : Inv u := by
  have q := State.sendPosts_inv s a h_s
  rw [e] at q; exact q

theorem State.writeLoaded_inv (s : State) (z : Size) (sext : Bool) (d : Code) (act : LaneMask) (r : List (Nat × List Byte)) (h_s : Inv s) :
    Inv (State.writeLoaded s z sext d act r) := by
  unfold State.writeLoaded
  try dsimp only
  repeat' first
    | (with_reducible first | assumption | apply State.writeDest_inv | apply keeps_next | apply inv_foldl | apply inv_foldl_fst)
    | with_reducible intro _
    | (with_reducible first | apply Memory.wf_writeBytes | apply Memory.wf_writeCells | apply Memory.wf_write | apply Memory.wf_clear)
    | split
    | (with_reducible refine wf_of ?_)
    | assumption
    | (with_reducible apply inv_of; dsimp only)
    | dsimp only
    | exact State.reset_keeps

theorem State.busy_inv (s : State) (h_s : Inv s) :
    Inv (State.busy s) := by
  unfold State.busy
  try dsimp only
  repeat' first
    | (with_reducible first | assumption | apply State.setGrp_inv | apply keeps_next | apply inv_foldl | apply inv_foldl_fst)
    | with_reducible intro _
    | (with_reducible first | apply Memory.wf_writeBytes | apply Memory.wf_writeCells | apply Memory.wf_write | apply Memory.wf_clear)
    | split
    | (with_reducible refine wf_of ?_)
    | assumption
    | (with_reducible apply inv_of; dsimp only)
    | dsimp only
    | exact State.reset_keeps

theorem State.laneAcquire_inv (s : State) (sc : Sys2Proof.Scope) (h_s : Inv s) :
    Inv (State.laneAcquire s sc) := by
  unfold State.laneAcquire
  try dsimp only
  repeat' first
    | (with_reducible first | assumption | apply State.l1Clear_inv | apply keeps_next | apply inv_foldl | apply inv_foldl_fst)
    | with_reducible intro _
    | (with_reducible first | apply Memory.wf_writeBytes | apply Memory.wf_writeCells | apply Memory.wf_write | apply Memory.wf_clear)
    | split
    | (with_reducible refine wf_of ?_)
    | assumption
    | (with_reducible apply inv_of; dsimp only)
    | dsimp only
    | exact State.reset_keeps

theorem Check.release_inv (s : State) (rel : Option Sys2Proof.Scope) (k : Check) (h_s : Inv s) (h_k : k.Keeps) :
    (Check.release s rel k).Keeps := by
  unfold Check.release
  try dsimp only
  repeat' first
    | (with_reducible first | assumption | apply State.evictModified_inv | apply State.setGrp_inv | apply Check.keeps_stop)
    | refine Check.inv_stop (by with_reducible assumption) ?_
    | exact trivial
    | (with_reducible first | apply keeps_next | apply inv_foldl | apply inv_foldl_fst)
    | with_reducible intro _
    | (with_reducible first | apply Memory.wf_writeBytes | apply Memory.wf_writeCells | apply Memory.wf_write | apply Memory.wf_clear)
    | split
    | (with_reducible refine wf_of ?_)
    | assumption
    | (with_reducible apply inv_of; dsimp only)
    | dsimp only
    | exact State.reset_keeps

theorem laneLd_inv (s : State) (acq : Option Sys2Proof.Scope) (sp : Space) (z : Size) (sext : Bool) (d : Code) (a : Code) (off : Half) (h_s : Inv s) :
    Keeps (laneLd s acq sp z sext d a off) := by
  unfold laneLd
  try dsimp only
  repeat' first
    | (with_reducible first | assumption | apply laneRun_inv | apply State.accessCheck_inv | apply State.laneLoads_inv | apply State.sample_inv | apply State.busy_inv | apply State.writeLoaded_inv | apply State.laneAcquire_inv)
    | refine State.laneLoads_eq (by with_reducible assumption) ?_
    | with_reducible apply Check.keeps_stop
    | refine Check.inv_stop (by with_reducible assumption) ?_
    | exact trivial
    | (with_reducible first | apply keeps_next | apply inv_foldl | apply inv_foldl_fst)
    | with_reducible intro _
    | (with_reducible first | apply Memory.wf_writeBytes | apply Memory.wf_writeCells | apply Memory.wf_write | apply Memory.wf_clear)
    | split
    | (with_reducible refine wf_of ?_)
    | assumption
    | (with_reducible apply inv_of; dsimp only)
    | dsimp only
    | exact State.reset_keeps

theorem execLd_inv (sp : Space) (z : Size) (sext : Bool) (d : Code) (a : Code) (off : Half) (s : State) (h_s : Inv s) :
    Keeps (execLd sp z sext d a off s) := by
  unfold execLd
  try dsimp only
  repeat' first
    | (with_reducible first | assumption | apply laneLd_inv | apply keeps_next | apply inv_foldl | apply inv_foldl_fst)
    | with_reducible intro _
    | (with_reducible first | apply Memory.wf_writeBytes | apply Memory.wf_writeCells | apply Memory.wf_write | apply Memory.wf_clear)
    | split
    | (with_reducible refine wf_of ?_)
    | assumption
    | (with_reducible apply inv_of; dsimp only)
    | dsimp only
    | exact State.reset_keeps

theorem execLdAcq_inv (scope : Sys2Proof.Scope) (sp : Space) (z : Size) (d : Code) (a : Code) (off : Half) (s : State) (h_s : Inv s) :
    Keeps (execLdAcq scope sp z d a off s) := by
  unfold execLdAcq
  try dsimp only
  repeat' first
    | (with_reducible first | assumption | apply laneLd_inv | apply keeps_next | apply inv_foldl | apply inv_foldl_fst)
    | with_reducible intro _
    | (with_reducible first | apply Memory.wf_writeBytes | apply Memory.wf_writeCells | apply Memory.wf_write | apply Memory.wf_clear)
    | split
    | (with_reducible refine wf_of ?_)
    | assumption
    | (with_reducible apply inv_of; dsimp only)
    | dsimp only
    | exact State.reset_keeps

theorem laneSt_inv (s : State) (rel : Option Sys2Proof.Scope) (sp : Space) (z : Size) (a : Code) (b : Code) (off : Half) (h_s : Inv s) :
    Keeps (laneSt s rel sp z a b off) := by
  unfold laneSt
  try dsimp only
  repeat' first
    | (with_reducible first | assumption | apply laneRun_inv | apply Check.release_inv | apply State.accessCheck_inv | apply State.laneStores_inv | apply State.sample_inv | apply State.sendPosts_inv | apply State.setGrp_inv | apply State.sampleDone_inv)
    | refine State.sendPosts_eq (by with_reducible assumption) ?_
    | with_reducible apply Check.keeps_stop
    | refine Check.inv_stop (by with_reducible assumption) ?_
    | exact trivial
    | (with_reducible first | apply keeps_next | apply inv_foldl | apply inv_foldl_fst)
    | with_reducible intro _
    | (with_reducible first | apply Memory.wf_writeBytes | apply Memory.wf_writeCells | apply Memory.wf_write | apply Memory.wf_clear)
    | split
    | (with_reducible refine wf_of ?_)
    | assumption
    | (with_reducible apply inv_of; dsimp only)
    | dsimp only
    | exact State.reset_keeps

theorem execSt_inv (sp : Space) (z : Size) (a : Code) (b : Code) (off : Half) (s : State) (h_s : Inv s) :
    Keeps (execSt sp z a b off s) := by
  unfold execSt
  try dsimp only
  repeat' first
    | (with_reducible first | assumption | apply laneSt_inv | apply keeps_next | apply inv_foldl | apply inv_foldl_fst)
    | with_reducible intro _
    | (with_reducible first | apply Memory.wf_writeBytes | apply Memory.wf_writeCells | apply Memory.wf_write | apply Memory.wf_clear)
    | split
    | (with_reducible refine wf_of ?_)
    | assumption
    | (with_reducible apply inv_of; dsimp only)
    | dsimp only
    | exact State.reset_keeps

theorem execStRel_inv (scope : Sys2Proof.Scope) (sp : Space) (z : Size) (a : Code) (b : Code) (off : Half) (s : State) (h_s : Inv s) :
    Keeps (execStRel scope sp z a b off s) := by
  unfold execStRel
  try dsimp only
  repeat' first
    | (with_reducible first | assumption | apply laneSt_inv | apply keeps_next | apply inv_foldl | apply inv_foldl_fst)
    | with_reducible intro _
    | (with_reducible first | apply Memory.wf_writeBytes | apply Memory.wf_writeCells | apply Memory.wf_write | apply Memory.wf_clear)
    | split
    | (with_reducible refine wf_of ?_)
    | assumption
    | (with_reducible apply inv_of; dsimp only)
    | dsimp only
    | exact State.reset_keeps

theorem State.laneAtom_inv (s : State) (op : AtomOp) (t : AtomTy) (x : LaneAccess) (b : W64) (c : W64) (h_s : Inv s) :
    Inv (State.laneAtom s op t x b c).1 := by
  unfold State.laneAtom
  try dsimp only
  repeat' first
    | (with_reducible first | assumption | apply State.keepTlb_inv | apply State.l1Drop_inv | apply State.flushSector_inv | apply State.meter_inv | apply State.performStore_inv | apply State.writeAs_inv | apply keeps_next | apply inv_foldl | apply inv_foldl_fst)
    | with_reducible intro _
    | (with_reducible first | apply Memory.wf_writeBytes | apply Memory.wf_writeCells | apply Memory.wf_write | apply Memory.wf_clear)
    | split
    | (with_reducible refine wf_of ?_)
    | assumption
    | (with_reducible apply inv_of; dsimp only)
    | dsimp only
    | exact State.reset_keeps

theorem State.laneAtom_eq {s : State} {op : AtomOp} {t : AtomTy} {x : LaneAccess} {b : W64} {c : W64} {u : State} {z_ : W64} (e : State.laneAtom s op t x b c = (u, z_)) (h_s : Inv s) : Inv u := by
  have q := State.laneAtom_inv s op t x b c h_s
  rw [e] at q; exact q

theorem State.laneAtoms_inv (s : State) (op : AtomOp) (t : AtomTy) (b c : Nat → W64) (l : List LaneAccess) (h_s : Inv s) :
    Inv (s.laneAtoms op t b c l).1 := by
  induction l generalizing s with
  | nil => exact h_s
  | cons x l ih => exact ih _ (State.laneAtom_inv _ _ _ _ _ _ h_s)

theorem State.laneAtoms_eq {s : State} {op : AtomOp} {t : AtomTy} {b : Nat → W64} {c : Nat → W64} {a : List LaneAccess} {u : State} {z_ : List (Nat × W64)} (e : State.laneAtoms s op t b c a = (u, z_)) (h_s : Inv s) : Inv u := by
  have q := State.laneAtoms_inv s op t b c a h_s
  rw [e] at q; exact q

theorem execAtom_inv (op : AtomOp) (t : AtomTy) (sp : Space) (ord : Order) (d : Code) (a : Code) (b : Code) (c : Code) (s : State) (h_s : Inv s) :
    Keeps (execAtom op t sp ord d a b c s) := by
  unfold execAtom
  try dsimp only
  repeat' first
    | (with_reducible first | assumption | apply laneRun_inv | apply Check.release_inv | apply State.accessCheck_inv | apply State.laneAtoms_inv | apply State.sample_inv | apply State.busy_inv | apply State.writeDest_inv | apply State.laneAcquire_inv)
    | refine State.laneAtoms_eq (by with_reducible assumption) ?_
    | with_reducible apply Check.keeps_stop
    | refine Check.inv_stop (by with_reducible assumption) ?_
    | exact trivial
    | (with_reducible first | apply keeps_next | apply inv_foldl | apply inv_foldl_fst)
    | with_reducible intro _
    | (with_reducible first | apply Memory.wf_writeBytes | apply Memory.wf_writeCells | apply Memory.wf_write | apply Memory.wf_clear)
    | split
    | (with_reducible refine wf_of ?_)
    | assumption
    | (with_reducible apply inv_of; dsimp only)
    | dsimp only
    | exact State.reset_keeps

theorem execAtomRadd_inv (sp : Space) (ord : Order) (d : Code) (a : Code) (b : Code) (c : Code) (s : State) (h_s : Inv s) :
    Keeps (execAtomRadd sp ord d a b c s) := by
  unfold execAtomRadd
  try dsimp only
  repeat' first
    | (with_reducible first | assumption | apply laneRun_inv | apply Check.release_inv | apply State.accessCheck_inv | apply State.setGrp_inv | apply State.busy_inv | apply State.sample_inv | apply State.l1Drop_inv | apply State.flushSector_inv | apply State.meterVa_inv | apply State.laneAcquire_inv | apply Check.keeps_stop)
    | refine Check.inv_stop (by with_reducible assumption) ?_
    | exact trivial
    | (with_reducible first | apply keeps_next | apply inv_foldl | apply inv_foldl_fst)
    | with_reducible intro _
    | (with_reducible first | apply Memory.wf_writeBytes | apply Memory.wf_writeCells | apply Memory.wf_write | apply Memory.wf_clear)
    | split
    | (with_reducible refine wf_of ?_)
    | assumption
    | (with_reducible apply inv_of; dsimp only)
    | dsimp only
    | exact State.reset_keeps

theorem execFence_inv (k : FenceKind) (scope : Sys2Proof.Scope) (s : State) (h_s : Inv s) :
    Keeps (execFence k scope s) := by
  unfold execFence
  try dsimp only
  repeat' first
    | (with_reducible first | assumption | apply laneRun_inv | apply Check.release_inv | apply State.laneAcquire_inv | apply Check.keeps_stop)
    | refine Check.inv_stop (by with_reducible assumption) ?_
    | exact trivial
    | (with_reducible first | apply keeps_next | apply inv_foldl | apply inv_foldl_fst)
    | with_reducible intro _
    | (with_reducible first | apply Memory.wf_writeBytes | apply Memory.wf_writeCells | apply Memory.wf_write | apply Memory.wf_clear)
    | split
    | (with_reducible refine wf_of ?_)
    | assumption
    | (with_reducible apply inv_of; dsimp only)
    | dsimp only
    | exact State.reset_keeps

theorem execL1inv_inv (_scope : Sys2Proof.Scope) (s : State) (h_s : Inv s) :
    Keeps (execL1inv _scope s) := by
  unfold execL1inv
  try dsimp only
  repeat' first
    | (with_reducible first | assumption | apply laneRun_inv | apply State.l1Clear_inv | apply Check.keeps_stop)
    | refine Check.inv_stop (by with_reducible assumption) ?_
    | exact trivial
    | (with_reducible first | apply keeps_next | apply inv_foldl | apply inv_foldl_fst)
    | with_reducible intro _
    | (with_reducible first | apply Memory.wf_writeBytes | apply Memory.wf_writeCells | apply Memory.wf_write | apply Memory.wf_clear)
    | split
    | (with_reducible refine wf_of ?_)
    | assumption
    | (with_reducible apply inv_of; dsimp only)
    | dsimp only
    | exact State.reset_keeps

theorem execPrefetch_inv (l2 : Bool) (sp : Space) (a : Code) (off : Half) (s : State) (h_s : Inv s) :
    Keeps (execPrefetch l2 sp a off s) := by
  unfold execPrefetch
  try dsimp only
  repeat' first
    | (with_reducible first | assumption | apply laneRun_inv | apply State.sample_inv | apply State.meter_inv | apply State.keepTlb_inv | apply State.sampleDone_inv | apply State.setCore_inv | apply Check.keeps_stop)
    | refine Check.inv_stop (by with_reducible assumption) ?_
    | exact trivial
    | (with_reducible first | apply keeps_next | apply inv_foldl | apply inv_foldl_fst)
    | with_reducible intro _
    | (with_reducible first | apply Memory.wf_writeBytes | apply Memory.wf_writeCells | apply Memory.wf_write | apply Memory.wf_clear)
    | split
    | (with_reducible refine wf_of ?_)
    | assumption
    | (with_reducible apply inv_of; dsimp only)
    | dsimp only
    | exact State.reset_keeps

theorem execMspill_inv (sp : Space) (a : Code) (off : Half) (s : State) (h_s : Inv s) :
    Keeps (execMspill sp a off s) := by
  unfold execMspill
  try dsimp only
  repeat' first
    | (with_reducible first | assumption | apply State.laneStore_inv | apply laneRun_inv | apply State.addressCheck_inv | apply State.sendPosts_inv | apply State.setGrp_inv)
    | refine State.sendPosts_eq (by with_reducible assumption) ?_
    | with_reducible apply Check.keeps_stop
    | refine Check.inv_stop (by with_reducible assumption) ?_
    | exact trivial
    | (with_reducible first | apply keeps_next | apply inv_foldl | apply inv_foldl_fst)
    | with_reducible intro _
    | (with_reducible first | apply Memory.wf_writeBytes | apply Memory.wf_writeCells | apply Memory.wf_write | apply Memory.wf_clear)
    | split
    | (with_reducible refine wf_of ?_)
    | assumption
    | (with_reducible apply inv_of; dsimp only)
    | dsimp only
    | exact State.reset_keeps

theorem execMfill_inv (sp : Space) (a : Code) (off : Half) (s : State) (h_s : Inv s) :
    Keeps (execMfill sp a off s) := by
  unfold execMfill
  try dsimp only
  repeat' first
    | (with_reducible first | assumption | apply State.laneLoad_inv | apply laneRun_inv | apply State.addressCheck_inv | apply Check.fault_inv | apply State.laneLoads_inv | apply State.setGrp_inv)
    | refine State.laneLoad_eq (by with_reducible assumption) ?_
    | refine State.laneLoads_eq (by with_reducible assumption) ?_
    | with_reducible apply Check.keeps_stop
    | refine Check.inv_stop (by with_reducible assumption) ?_
    | exact trivial
    | (with_reducible first | apply keeps_next | apply inv_foldl | apply inv_foldl_fst)
    | with_reducible intro _
    | (with_reducible first | apply Memory.wf_writeBytes | apply Memory.wf_writeCells | apply Memory.wf_write | apply Memory.wf_clear)
    | split
    | (with_reducible refine wf_of ?_)
    | assumption
    | (with_reducible apply inv_of; dsimp only)
    | dsimp only
    | exact State.reset_keeps

theorem State.writeBackFault_inv (s : State) (f : XFault) (d : DirtySector) (h_s : Inv s) :
    Inv (State.writeBackFault s f d) := by
  unfold State.writeBackFault
  try dsimp only
  repeat' first
    | (with_reducible first | assumption | apply State.trap_inv | apply State.streamFault_inv | apply keeps_next | apply inv_foldl | apply inv_foldl_fst)
    | with_reducible intro _
    | (with_reducible first | apply Memory.wf_writeBytes | apply Memory.wf_writeCells | apply Memory.wf_write | apply Memory.wf_clear)
    | split
    | (with_reducible refine wf_of ?_)
    | assumption
    | (with_reducible apply inv_of; dsimp only)
    | dsimp only
    | exact State.reset_keeps

theorem State.writeBackOwn_inv (s : State) (h_s : Inv s) :
    (State.writeBackOwn s).Keeps := by
  unfold State.writeBackOwn
  try dsimp only
  repeat' first
    | (with_reducible first | assumption | apply State.meterVa_inv | apply State.writeBackFault_inv)
    | refine State.writeBackAll_eq (by with_reducible assumption) ?_
    | with_reducible apply Release.keeps_wait
    | refine Release.inv_wait (by with_reducible assumption) ?_
    | with_reducible apply Release.keeps_fault
    | refine Release.inv_fault (by with_reducible assumption) ?_
    | with_reducible apply Release.keeps_ok
    | refine Release.inv_ok (by with_reducible assumption) ?_
    | exact trivial
    | (with_reducible first | apply keeps_next | apply inv_foldl | apply inv_foldl_fst)
    | with_reducible intro _
    | (with_reducible first | apply Memory.wf_writeBytes | apply Memory.wf_writeCells | apply Memory.wf_write | apply Memory.wf_clear)
    | split
    | (with_reducible refine wf_of ?_)
    | assumption
    | (with_reducible apply inv_of; dsimp only)
    | dsimp only
    | exact State.reset_keeps

theorem State.hartRelease_inv (s : State) (h_s : Inv s) :
    (State.hartRelease s).Keeps := by
  unfold State.hartRelease
  try dsimp only
  repeat' first
    | (with_reducible first | assumption | apply State.writeBackOwn_inv | apply Release.keeps_wait)
    | refine Release.inv_wait (by with_reducible assumption) ?_
    | with_reducible apply Release.keeps_fault
    | refine Release.inv_fault (by with_reducible assumption) ?_
    | with_reducible apply Release.keeps_ok
    | refine Release.inv_ok (by with_reducible assumption) ?_
    | exact trivial
    | (with_reducible first | apply keeps_next | apply inv_foldl | apply inv_foldl_fst)
    | with_reducible intro _
    | (with_reducible first | apply Memory.wf_writeBytes | apply Memory.wf_writeCells | apply Memory.wf_write | apply Memory.wf_clear)
    | split
    | (with_reducible refine wf_of ?_)
    | assumption
    | (with_reducible apply inv_of; dsimp only)
    | dsimp only
    | exact State.reset_keeps

theorem afterRelease_inv (s : State) (k : State → Out) (h_s : Inv s) (h_k : ∀ v0, Inv v0 → Keeps (k v0)) :
    Keeps (afterRelease s k) := by
  unfold afterRelease
  try dsimp only
  repeat' first
    | (with_reducible first | assumption | apply State.hartRelease_inv | apply hartWaits_inv | apply h_k | apply Release.keeps_wait)
    | refine Release.inv_wait (by with_reducible assumption) ?_
    | with_reducible apply Release.keeps_fault
    | refine Release.inv_fault (by with_reducible assumption) ?_
    | with_reducible apply Release.keeps_ok
    | refine Release.inv_ok (by with_reducible assumption) ?_
    | exact trivial
    | (with_reducible first | apply keeps_next | apply inv_foldl | apply inv_foldl_fst)
    | with_reducible intro _
    | (with_reducible first | apply Memory.wf_writeBytes | apply Memory.wf_writeCells | apply Memory.wf_write | apply Memory.wf_clear)
    | split
    | (with_reducible refine wf_of ?_)
    | assumption
    | (with_reducible apply inv_of; dsimp only)
    | dsimp only
    | exact State.reset_keeps

theorem State.hartAcquire_inv (s : State) (h_s : Inv s) :
    Inv (State.hartAcquire s) := by
  unfold State.hartAcquire
  try dsimp only
  repeat' first
    | (with_reducible first | assumption | apply State.l1Clear_inv | apply keeps_next | apply inv_foldl | apply inv_foldl_fst)
    | with_reducible intro _
    | (with_reducible first | apply Memory.wf_writeBytes | apply Memory.wf_writeCells | apply Memory.wf_write | apply Memory.wf_clear)
    | split
    | (with_reducible refine wf_of ?_)
    | assumption
    | (with_reducible apply inv_of; dsimp only)
    | dsimp only
    | exact State.reset_keeps

theorem State.setBar_inv (s : State) (k : Nat) (b : Barrier) (h_s : Inv s) :
    Inv (State.setBar s k b) := by
  unfold State.setBar
  try dsimp only
  repeat' first
    | (with_reducible first | assumption | apply keeps_next | apply inv_foldl | apply inv_foldl_fst)
    | with_reducible intro _
    | (with_reducible first | apply Memory.wf_writeBytes | apply Memory.wf_writeCells | apply Memory.wf_write | apply Memory.wf_clear)
    | split
    | (with_reducible refine wf_of ?_)
    | assumption
    | (with_reducible apply inv_of; dsimp only)
    | dsimp only
    | exact State.reset_keeps

theorem State.resetProgress_inv (s : State) (bar : Nat) (h_s : Inv s) :
    Inv (State.resetProgress s bar) := by
  unfold State.resetProgress
  try dsimp only
  repeat' first
    | (with_reducible first | assumption | apply keeps_next | apply inv_foldl | apply inv_foldl_fst)
    | with_reducible intro _
    | (with_reducible first | apply Memory.wf_writeBytes | apply Memory.wf_writeCells | apply Memory.wf_write | apply Memory.wf_clear)
    | split
    | (with_reducible refine wf_of ?_)
    | assumption
    | (with_reducible apply inv_of; dsimp only)
    | dsimp only
    | exact State.reset_keeps

theorem State.settleBar_inv (s : State) (bar : Nat) (h_s : Inv s) :
    Inv (State.settleBar s bar) := by
  unfold State.settleBar
  try dsimp only
  repeat' first
    | (with_reducible first | assumption | apply State.resetProgress_inv | apply State.setBar_inv | apply keeps_next | apply inv_foldl | apply inv_foldl_fst)
    | with_reducible intro _
    | (with_reducible first | apply Memory.wf_writeBytes | apply Memory.wf_writeCells | apply Memory.wf_write | apply Memory.wf_clear)
    | split
    | (with_reducible refine wf_of ?_)
    | assumption
    | (with_reducible apply inv_of; dsimp only)
    | dsimp only
    | exact State.reset_keeps

theorem State.settleGroup_inv (s : State) (k : Nat) (lane : Bool) (h_s : Inv s) :
    Inv (State.settleGroup s k lane) := by
  unfold State.settleGroup
  try dsimp only
  repeat' first
    | (with_reducible first | assumption | apply State.settleBar_inv | apply keeps_next | apply inv_foldl | apply inv_foldl_fst)
    | with_reducible intro _
    | (with_reducible first | apply Memory.wf_writeBytes | apply Memory.wf_writeCells | apply Memory.wf_write | apply Memory.wf_clear)
    | split
    | (with_reducible refine wf_of ?_)
    | assumption
    | (with_reducible apply inv_of; dsimp only)
    | dsimp only
    | exact State.reset_keeps

theorem State.arrive_inv (s : State) (bar : Nat) (h_s : Inv s) :
    Inv (State.arrive s bar) := by
  unfold State.arrive
  try dsimp only
  repeat' first
    | (with_reducible first | assumption | apply State.settleBar_inv | apply State.setBar_inv | apply State.setGrp_inv | apply keeps_next | apply inv_foldl | apply inv_foldl_fst)
    | with_reducible intro _
    | (with_reducible first | apply Memory.wf_writeBytes | apply Memory.wf_writeCells | apply Memory.wf_write | apply Memory.wf_clear)
    | split
    | (with_reducible refine wf_of ?_)
    | assumption
    | (with_reducible apply inv_of; dsimp only)
    | dsimp only
    | exact State.reset_keeps

theorem State.checkRetiring_inv (s : State) (blk : Nat) (h_s : Inv s) :
    Inv (State.checkRetiring s blk) := by
  unfold State.checkRetiring
  try dsimp only
  repeat' first
    | (with_reducible first | assumption | apply State.setBlkAt_inv | apply keeps_next | apply inv_foldl | apply inv_foldl_fst)
    | with_reducible intro _
    | (with_reducible first | apply Memory.wf_writeBytes | apply Memory.wf_writeCells | apply Memory.wf_write | apply Memory.wf_clear)
    | split
    | (with_reducible refine wf_of ?_)
    | assumption
    | (with_reducible apply inv_of; dsimp only)
    | dsimp only
    | exact State.reset_keeps

theorem State.endGroup_inv (s : State) (k : Nat) (h_s : Inv s) :
    Inv (State.endGroup s k) := by
  unfold State.endGroup
  try dsimp only
  repeat' first
    | (with_reducible first | assumption | apply State.setGrpAt_inv | apply State.settleGroup_inv | apply State.checkRetiring_inv | apply keeps_next | apply inv_foldl | apply inv_foldl_fst)
    | with_reducible intro _
    | (with_reducible first | apply Memory.wf_writeBytes | apply Memory.wf_writeCells | apply Memory.wf_write | apply Memory.wf_clear)
    | split
    | (with_reducible refine wf_of ?_)
    | assumption
    | (with_reducible apply inv_of; dsimp only)
    | dsimp only
    | exact State.reset_keeps

theorem execQmode_inv (p : BitVec 4) (s : State) (h_s : Inv s) :
    Keeps (execQmode p s) := by
  unfold execQmode
  try dsimp only
  repeat' first
    | (with_reducible first | assumption | apply laneControl_inv | apply keeps_next | apply inv_foldl | apply inv_foldl_fst)
    | with_reducible intro _
    | (with_reducible first | apply Memory.wf_writeBytes | apply Memory.wf_writeCells | apply Memory.wf_write | apply Memory.wf_clear)
    | split
    | (with_reducible refine wf_of ?_)
    | assumption
    | (with_reducible apply inv_of; dsimp only)
    | dsimp only
    | exact State.reset_keeps

theorem execCjmp_inv (off : Half) (s : State) (h_s : Inv s) :
    Keeps (execCjmp off s) := by
  unfold execCjmp
  try dsimp only
  repeat' first
    | (with_reducible first | assumption | apply laneControl_inv | apply keeps_next | apply inv_foldl | apply inv_foldl_fst)
    | with_reducible intro _
    | (with_reducible first | apply Memory.wf_writeBytes | apply Memory.wf_writeCells | apply Memory.wf_write | apply Memory.wf_clear)
    | split
    | (with_reducible refine wf_of ?_)
    | assumption
    | (with_reducible apply inv_of; dsimp only)
    | dsimp only
    | exact State.reset_keeps

theorem execCbr_inv (off : Half) (s : State) (h_s : Inv s) :
    Keeps (execCbr off s) := by
  unfold execCbr
  try dsimp only
  repeat' first
    | (with_reducible first | assumption | apply laneRun_inv | apply State.setGrp_inv | apply Check.keeps_stop)
    | refine Check.inv_stop (by with_reducible assumption) ?_
    | exact trivial
    | (with_reducible first | apply keeps_next | apply inv_foldl | apply inv_foldl_fst)
    | with_reducible intro _
    | (with_reducible first | apply Memory.wf_writeBytes | apply Memory.wf_writeCells | apply Memory.wf_write | apply Memory.wf_clear)
    | split
    | (with_reducible refine wf_of ?_)
    | assumption
    | (with_reducible apply inv_of; dsimp only)
    | dsimp only
    | exact State.reset_keeps

theorem frameCheck_inv (s : State) (k : Check) (h_s : Inv s) (h_k : k.Keeps) :
    (frameCheck s k).Keeps := by
  unfold frameCheck
  try dsimp only
  repeat' first
    | (with_reducible first | assumption | apply Check.fault_inv | apply Check.keeps_stop)
    | refine Check.inv_stop (by with_reducible assumption) ?_
    | exact trivial
    | (with_reducible first | apply keeps_next | apply inv_foldl | apply inv_foldl_fst)
    | with_reducible intro _
    | (with_reducible first | apply Memory.wf_writeBytes | apply Memory.wf_writeCells | apply Memory.wf_write | apply Memory.wf_clear)
    | split
    | (with_reducible refine wf_of ?_)
    | assumption
    | (with_reducible apply inv_of; dsimp only)
    | dsimp only
    | exact State.reset_keeps

theorem mismatch_inv (s : State) (h_s : Inv s) :
    (mismatch s).Keeps := by
  unfold mismatch
  try dsimp only
  repeat' first
    | (with_reducible first | assumption | apply Check.fault_inv | apply Check.keeps_stop)
    | refine Check.inv_stop (by with_reducible assumption) ?_
    | exact trivial
    | (with_reducible first | apply keeps_next | apply inv_foldl | apply inv_foldl_fst)
    | with_reducible intro _
    | (with_reducible first | apply Memory.wf_writeBytes | apply Memory.wf_writeCells | apply Memory.wf_write | apply Memory.wf_clear)
    | split
    | (with_reducible refine wf_of ?_)
    | assumption
    | (with_reducible apply inv_of; dsimp only)
    | dsimp only
    | exact State.reset_keeps

theorem execCcall_inv (off : Half) (s : State) (h_s : Inv s) :
    Keeps (execCcall off s) := by
  unfold execCcall
  try dsimp only
  repeat' first
    | (with_reducible first | assumption | apply laneRun_inv | apply frameCheck_inv | apply State.setGrp_inv | apply Check.keeps_stop)
    | refine Check.inv_stop (by with_reducible assumption) ?_
    | exact trivial
    | (with_reducible first | apply keeps_next | apply inv_foldl | apply inv_foldl_fst)
    | with_reducible intro _
    | (with_reducible first | apply Memory.wf_writeBytes | apply Memory.wf_writeCells | apply Memory.wf_write | apply Memory.wf_clear)
    | split
    | (with_reducible refine wf_of ?_)
    | assumption
    | (with_reducible apply inv_of; dsimp only)
    | dsimp only
    | exact State.reset_keeps

theorem execCloop_inv (off : Half) (s : State) (h_s : Inv s) :
    Keeps (execCloop off s) := by
  unfold execCloop
  try dsimp only
  repeat' first
    | (with_reducible first | assumption | apply laneRun_inv | apply frameCheck_inv | apply State.setGrp_inv | apply Check.keeps_stop)
    | refine Check.inv_stop (by with_reducible assumption) ?_
    | exact trivial
    | (with_reducible first | apply keeps_next | apply inv_foldl | apply inv_foldl_fst)
    | with_reducible intro _
    | (with_reducible first | apply Memory.wf_writeBytes | apply Memory.wf_writeCells | apply Memory.wf_write | apply Memory.wf_clear)
    | split
    | (with_reducible refine wf_of ?_)
    | assumption
    | (with_reducible apply inv_of; dsimp only)
    | dsimp only
    | exact State.reset_keeps

theorem execCret_inv (s : State) (h_s : Inv s) :
    Keeps (execCret s) := by
  unfold execCret
  try dsimp only
  repeat' first
    | (with_reducible first | assumption | apply laneRun_inv | apply mismatch_inv | apply State.setGrp_inv | apply Check.keeps_stop)
    | refine Check.inv_stop (by with_reducible assumption) ?_
    | exact trivial
    | (with_reducible first | apply keeps_next | apply inv_foldl | apply inv_foldl_fst)
    | with_reducible intro _
    | (with_reducible first | apply Memory.wf_writeBytes | apply Memory.wf_writeCells | apply Memory.wf_write | apply Memory.wf_clear)
    | split
    | (with_reducible refine wf_of ?_)
    | assumption
    | (with_reducible apply inv_of; dsimp only)
    | dsimp only
    | exact State.reset_keeps

theorem execCnext_inv (s : State) (h_s : Inv s) :
    Keeps (execCnext s) := by
  unfold execCnext
  try dsimp only
  repeat' first
    | (with_reducible first | assumption | apply laneRun_inv | apply mismatch_inv | apply State.setGrp_inv | apply Check.keeps_stop)
    | refine Check.inv_stop (by with_reducible assumption) ?_
    | exact trivial
    | (with_reducible first | apply keeps_next | apply inv_foldl | apply inv_foldl_fst)
    | with_reducible intro _
    | (with_reducible first | apply Memory.wf_writeBytes | apply Memory.wf_writeCells | apply Memory.wf_write | apply Memory.wf_clear)
    | split
    | (with_reducible refine wf_of ?_)
    | assumption
    | (with_reducible apply inv_of; dsimp only)
    | dsimp only
    | exact State.reset_keeps

theorem execCend_inv (s : State) (h_s : Inv s) :
    Keeps (execCend s) := by
  unfold execCend
  try dsimp only
  repeat' first
    | (with_reducible first | assumption | apply laneRun_inv | apply State.setGrp_inv | apply State.endGroup_inv | apply State.settleGroup_inv | apply Check.keeps_stop)
    | refine Check.inv_stop (by with_reducible assumption) ?_
    | exact trivial
    | (with_reducible first | apply keeps_next | apply inv_foldl | apply inv_foldl_fst)
    | with_reducible intro _
    | (with_reducible first | apply Memory.wf_writeBytes | apply Memory.wf_writeCells | apply Memory.wf_write | apply Memory.wf_clear)
    | split
    | (with_reducible refine wf_of ?_)
    | assumption
    | (with_reducible apply inv_of; dsimp only)
    | dsimp only
    | exact State.reset_keeps

theorem execTrap_inv (code : Half) (s : State) (h_s : Inv s) :
    Keeps (execTrap code s) := by
  unfold execTrap
  try dsimp only
  repeat' first
    | (with_reducible first | assumption | apply laneRun_inv | apply Check.fault_inv | apply Check.keeps_stop)
    | refine Check.inv_stop (by with_reducible assumption) ?_
    | exact trivial
    | (with_reducible first | apply keeps_next | apply inv_foldl | apply inv_foldl_fst)
    | with_reducible intro _
    | (with_reducible first | apply Memory.wf_writeBytes | apply Memory.wf_writeCells | apply Memory.wf_write | apply Memory.wf_clear)
    | split
    | (with_reducible refine wf_of ?_)
    | assumption
    | (with_reducible apply inv_of; dsimp only)
    | dsimp only
    | exact State.reset_keeps

theorem execBrk_inv (s : State) (h_s : Inv s) :
    Keeps (execBrk s) := by
  unfold execBrk
  try dsimp only
  repeat' first
    | (with_reducible first | assumption | apply laneRun_inv | apply Check.fault_inv | apply Check.keeps_stop)
    | refine Check.inv_stop (by with_reducible assumption) ?_
    | exact trivial
    | (with_reducible first | apply keeps_next | apply inv_foldl | apply inv_foldl_fst)
    | with_reducible intro _
    | (with_reducible first | apply Memory.wf_writeBytes | apply Memory.wf_writeCells | apply Memory.wf_write | apply Memory.wf_clear)
    | split
    | (with_reducible refine wf_of ?_)
    | assumption
    | (with_reducible apply inv_of; dsimp only)
    | dsimp only
    | exact State.reset_keeps

theorem execJoin_inv (s : State) (h_s : Inv s) :
    Keeps (execJoin s) := by
  unfold execJoin
  try dsimp only
  repeat' first
    | (with_reducible first | assumption | apply laneRun_inv | apply State.setGrp_inv | apply Check.keeps_stop)
    | refine Check.inv_stop (by with_reducible assumption) ?_
    | exact trivial
    | (with_reducible first | apply keeps_next | apply inv_foldl | apply inv_foldl_fst)
    | with_reducible intro _
    | (with_reducible first | apply Memory.wf_writeBytes | apply Memory.wf_writeCells | apply Memory.wf_write | apply Memory.wf_clear)
    | split
    | (with_reducible refine wf_of ?_)
    | assumption
    | (with_reducible apply inv_of; dsimp only)
    | dsimp only
    | exact State.reset_keeps

theorem execFbpush_inv (a : Code) (s : State) (h_s : Inv s) :
    Keeps (execFbpush a s) := by
  unfold execFbpush
  try dsimp only
  repeat' first
    | (with_reducible first | assumption | apply laneRun_inv | apply State.pushFbq_inv | apply Check.keeps_stop)
    | refine Check.inv_stop (by with_reducible assumption) ?_
    | exact trivial
    | (with_reducible first | apply keeps_next | apply inv_foldl | apply inv_foldl_fst)
    | with_reducible intro _
    | (with_reducible first | apply Memory.wf_writeBytes | apply Memory.wf_writeCells | apply Memory.wf_write | apply Memory.wf_clear)
    | split
    | (with_reducible refine wf_of ?_)
    | assumption
    | (with_reducible apply inv_of; dsimp only)
    | dsimp only
    | exact State.reset_keeps

theorem execFbany_inv (a : Code) (s : State) (h_s : Inv s) :
    Keeps (execFbany a s) := by
  unfold execFbany
  try dsimp only
  repeat' first
    | (with_reducible first | assumption | apply laneRun_inv | apply State.pushFbq_inv | apply Check.keeps_stop)
    | refine Check.inv_stop (by with_reducible assumption) ?_
    | exact trivial
    | (with_reducible first | apply keeps_next | apply inv_foldl | apply inv_foldl_fst)
    | with_reducible intro _
    | (with_reducible first | apply Memory.wf_writeBytes | apply Memory.wf_writeCells | apply Memory.wf_write | apply Memory.wf_clear)
    | split
    | (with_reducible refine wf_of ?_)
    | assumption
    | (with_reducible apply inv_of; dsimp only)
    | dsimp only
    | exact State.reset_keeps

theorem execFball_inv (a : Code) (s : State) (h_s : Inv s) :
    Keeps (execFball a s) := by
  unfold execFball
  try dsimp only
  repeat' first
    | (with_reducible first | assumption | apply laneRun_inv | apply State.pushFbq_inv | apply Check.keeps_stop)
    | refine Check.inv_stop (by with_reducible assumption) ?_
    | exact trivial
    | (with_reducible first | apply keeps_next | apply inv_foldl | apply inv_foldl_fst)
    | with_reducible intro _
    | (with_reducible first | apply Memory.wf_writeBytes | apply Memory.wf_writeCells | apply Memory.wf_write | apply Memory.wf_clear)
    | split
    | (with_reducible refine wf_of ?_)
    | assumption
    | (with_reducible apply inv_of; dsimp only)
    | dsimp only
    | exact State.reset_keeps

theorem execFbcnt_inv (a : Code) (s : State) (h_s : Inv s) :
    Keeps (execFbcnt a s) := by
  unfold execFbcnt
  try dsimp only
  repeat' first
    | (with_reducible first | assumption | apply laneRun_inv | apply State.pushFbq_inv | apply Check.keeps_stop)
    | refine Check.inv_stop (by with_reducible assumption) ?_
    | exact trivial
    | (with_reducible first | apply keeps_next | apply inv_foldl | apply inv_foldl_fst)
    | with_reducible intro _
    | (with_reducible first | apply Memory.wf_writeBytes | apply Memory.wf_writeCells | apply Memory.wf_write | apply Memory.wf_clear)
    | split
    | (with_reducible refine wf_of ?_)
    | assumption
    | (with_reducible apply inv_of; dsimp only)
    | dsimp only
    | exact State.reset_keeps

theorem execBbar_inv (s : State) (h_s : Inv s) :
    Keeps (execBbar s) := by
  unfold execBbar
  try dsimp only
  repeat' first
    | (with_reducible first | assumption | apply laneRun_inv | apply Check.release_inv | apply State.arrive_inv | apply State.setGrp_inv | apply State.l1Clear_inv | apply Check.keeps_stop)
    | refine Check.inv_stop (by with_reducible assumption) ?_
    | exact trivial
    | (with_reducible first | apply keeps_next | apply inv_foldl | apply inv_foldl_fst)
    | with_reducible intro _
    | (with_reducible first | apply Memory.wf_writeBytes | apply Memory.wf_writeCells | apply Memory.wf_write | apply Memory.wf_clear)
    | split
    | (with_reducible refine wf_of ?_)
    | assumption
    | (with_reducible apply inv_of; dsimp only)
    | dsimp only
    | exact State.reset_keeps

theorem execCbarArv_inv (s : State) (h_s : Inv s) :
    Keeps (execCbarArv s) := by
  unfold execCbarArv
  try dsimp only
  repeat' first
    | (with_reducible first | assumption | apply laneRun_inv | apply Check.release_inv | apply State.arrive_inv | apply Check.keeps_stop)
    | refine Check.inv_stop (by with_reducible assumption) ?_
    | exact trivial
    | (with_reducible first | apply keeps_next | apply inv_foldl | apply inv_foldl_fst)
    | with_reducible intro _
    | (with_reducible first | apply Memory.wf_writeBytes | apply Memory.wf_writeCells | apply Memory.wf_write | apply Memory.wf_clear)
    | split
    | (with_reducible refine wf_of ?_)
    | assumption
    | (with_reducible apply inv_of; dsimp only)
    | dsimp only
    | exact State.reset_keeps

theorem execCbarWt_inv (s : State) (h_s : Inv s) :
    Keeps (execCbarWt s) := by
  unfold execCbarWt
  try dsimp only
  repeat' first
    | (with_reducible first | assumption | apply laneRun_inv | apply State.l1Clear_inv | apply State.setGrp_inv | apply Check.keeps_stop)
    | refine Check.inv_stop (by with_reducible assumption) ?_
    | exact trivial
    | (with_reducible first | apply keeps_next | apply inv_foldl | apply inv_foldl_fst)
    | with_reducible intro _
    | (with_reducible first | apply Memory.wf_writeBytes | apply Memory.wf_writeCells | apply Memory.wf_write | apply Memory.wf_clear)
    | split
    | (with_reducible refine wf_of ?_)
    | assumption
    | (with_reducible apply inv_of; dsimp only)
    | dsimp only
    | exact State.reset_keeps

theorem State.onMondb_inv (s : State) (k : Nat) (f : Mondb → Mondb) (h_s : Inv s) :
    Inv (State.onMondb s k f) := by
  unfold State.onMondb
  try dsimp only
  repeat' first
    | (with_reducible first | assumption | apply State.setGrpAt_inv | apply keeps_next | apply inv_foldl | apply inv_foldl_fst)
    | with_reducible intro _
    | (with_reducible first | apply Memory.wf_writeBytes | apply Memory.wf_writeCells | apply Memory.wf_write | apply Memory.wf_clear)
    | split
    | (with_reducible refine wf_of ?_)
    | assumption
    | (with_reducible apply inv_of; dsimp only)
    | dsimp only
    | exact State.reset_keeps

theorem State.markP1_inv (s : State) (blk : Nat) (h_s : Inv s) :
    Inv (State.markP1 s blk) := by
  unfold State.markP1
  try dsimp only
  repeat' first
    | (with_reducible first | assumption | apply State.onMondb_inv | apply keeps_next | apply inv_foldl | apply inv_foldl_fst)
    | with_reducible intro _
    | (with_reducible first | apply Memory.wf_writeBytes | apply Memory.wf_writeCells | apply Memory.wf_write | apply Memory.wf_clear)
    | split
    | (with_reducible refine wf_of ?_)
    | assumption
    | (with_reducible apply inv_of; dsimp only)
    | dsimp only
    | exact State.reset_keeps

theorem State.setKil_inv (s : State) (k : Nat) (h_s : Inv s) :
    Inv (State.setKil s k) := by
  unfold State.setKil
  try dsimp only
  repeat' first
    | (with_reducible first | assumption | apply State.setGrpAt_inv | apply State.markP1_inv | apply State.setBlkAt_inv | apply keeps_next | apply inv_foldl | apply inv_foldl_fst)
    | with_reducible intro _
    | (with_reducible first | apply Memory.wf_writeBytes | apply Memory.wf_writeCells | apply Memory.wf_write | apply Memory.wf_clear)
    | split
    | (with_reducible refine wf_of ?_)
    | assumption
    | (with_reducible apply inv_of; dsimp only)
    | dsimp only
    | exact State.reset_keeps

theorem State.die_inv (s : State) (asid : Nat) (cause : Nat) (h_s : Inv s) :
    Inv (State.die s asid cause) := by
  unfold State.die
  try dsimp only
  repeat' first
    | (with_reducible first | assumption | apply keeps_next | apply inv_foldl | apply inv_foldl_fst)
    | with_reducible intro _
    | (with_reducible first | apply Memory.wf_writeBytes | apply Memory.wf_writeCells | apply Memory.wf_write | apply Memory.wf_clear)
    | split
    | (with_reducible refine wf_of ?_)
    | assumption
    | (with_reducible apply inv_of; dsimp only)
    | dsimp only
    | exact State.reset_keeps

theorem State.fatal_inv (s : State) (asid : Nat) (cause : Nat) (k : Nat) (val : W64) (h_s : Inv s) :
    Inv (State.fatal s asid cause k val) := by
  unfold State.fatal
  try dsimp only
  repeat' first
    | (with_reducible first | assumption | apply State.trace_inv | apply State.die_inv | apply State.setKil_inv | apply keeps_next | apply inv_foldl | apply inv_foldl_fst)
    | with_reducible intro _
    | (with_reducible first | apply Memory.wf_writeBytes | apply Memory.wf_writeCells | apply Memory.wf_write | apply Memory.wf_clear)
    | split
    | (with_reducible refine wf_of ?_)
    | assumption
    | (with_reducible apply inv_of; dsimp only)
    | dsimp only
    | exact State.reset_keeps

theorem State.killSlot_inv (s : State) (k : Nat) (h_s : Inv s) :
    Inv (State.killSlot s k) := by
  unfold State.killSlot
  try dsimp only
  repeat' first
    | (with_reducible first | assumption | apply State.setKil_inv | apply State.die_inv | apply keeps_next | apply inv_foldl | apply inv_foldl_fst)
    | with_reducible intro _
    | (with_reducible first | apply Memory.wf_writeBytes | apply Memory.wf_writeCells | apply Memory.wf_write | apply Memory.wf_clear)
    | split
    | (with_reducible refine wf_of ?_)
    | assumption
    | (with_reducible apply inv_of; dsimp only)
    | dsimp only
    | exact State.reset_keeps

theorem State.wakeCounter_inv (s : State) (key : Nat) (v : W32) (h_s : Inv s) :
    Inv (State.wakeCounter s key v) := by
  unfold State.wakeCounter
  try dsimp only
  repeat' first
    | (with_reducible first | assumption | apply keeps_next | apply inv_foldl | apply inv_foldl_fst)
    | with_reducible intro _
    | (with_reducible first | apply Memory.wf_writeBytes | apply Memory.wf_writeCells | apply Memory.wf_write | apply Memory.wf_clear)
    | split
    | (with_reducible refine wf_of ?_)
    | assumption
    | (with_reducible apply inv_of; dsimp only)
    | dsimp only
    | exact State.reset_keeps

theorem State.setCounter_inv (s : State) (c : Nat) (k : Nat) (v : W32) (h_s : Inv s) :
    Inv (State.setCounter s c k v) := by
  unfold State.setCounter
  try dsimp only
  repeat' first
    | (with_reducible first | assumption | apply State.wakeCounter_inv | apply State.setCoreAt_inv | apply keeps_next | apply inv_foldl | apply inv_foldl_fst)
    | with_reducible intro _
    | (with_reducible first | apply Memory.wf_writeBytes | apply Memory.wf_writeCells | apply Memory.wf_write | apply Memory.wf_clear)
    | split
    | (with_reducible refine wf_of ?_)
    | assumption
    | (with_reducible apply inv_of; dsimp only)
    | dsimp only
    | exact State.reset_keeps

theorem State.coreWrite_inv (s : State) (c : Nat) (off : Nat) (v : W64) (mask : W64) (h_s : Inv s) :
    Inv (State.coreWrite s c off v mask) := by
  unfold State.coreWrite
  try dsimp only
  repeat' first
    | (with_reducible first | assumption | apply State.setCoreAt_inv | apply State.onMondb_inv | apply State.countBlkErr_inv | apply State.setGrpAt_inv | apply State.killSlot_inv | apply State.setCounter_inv | apply keeps_next | apply inv_foldl | apply inv_foldl_fst)
    | with_reducible intro _
    | (with_reducible first | apply Memory.wf_writeBytes | apply Memory.wf_writeCells | apply Memory.wf_write | apply Memory.wf_clear)
    | split
    | (with_reducible refine wf_of ?_)
    | assumption
    | (with_reducible apply inv_of; dsimp only)
    | dsimp only
    | exact State.reset_keeps

theorem State.countReg_inv (s : State) (off : Nat) (h_s : Inv s) :
    Inv (State.countReg s off) := by
  unfold State.countReg
  try dsimp only
  repeat' first
    | (with_reducible first | assumption | apply State.countBlkErr_inv | apply keeps_next | apply inv_foldl | apply inv_foldl_fst)
    | with_reducible intro _
    | (with_reducible first | apply Memory.wf_writeBytes | apply Memory.wf_writeCells | apply Memory.wf_write | apply Memory.wf_clear)
    | split
    | (with_reducible refine wf_of ?_)
    | assumption
    | (with_reducible apply inv_of; dsimp only)
    | dsimp only
    | exact State.reset_keeps

theorem State.regRead_inv (s : State) (who : Agent) (off : Nat) (h_s : Inv s) :
    Inv (State.regRead s who off).1 := by
  unfold State.regRead
  try dsimp only
  repeat' first
    | (with_reducible first | assumption | apply State.countBlkErr_inv | apply State.countReg_inv | apply keeps_next | apply inv_foldl | apply inv_foldl_fst)
    | with_reducible intro _
    | (with_reducible first | apply Memory.wf_writeBytes | apply Memory.wf_writeCells | apply Memory.wf_write | apply Memory.wf_clear)
    | split
    | (with_reducible refine wf_of ?_)
    | assumption
    | (with_reducible apply inv_of; dsimp only)
    | dsimp only
    | exact State.reset_keeps

theorem State.regRead_eq {s : State} {who : Agent} {off : Nat} {u : State} {z_ : W64} (e : State.regRead s who off = (u, z_)) (h_s : Inv s) : Inv u := by
  have q := State.regRead_inv s who off h_s
  rw [e] at q; exact q

theorem State.plainWrite_inv (s : State) (off : Nat) (v : W64) (mask : W64) (h_s : Inv s) :
    Inv (State.plainWrite s off v mask) := by
  unfold State.plainWrite
  try dsimp only
  repeat' first
    | (with_reducible first | assumption | apply State.countReg_inv | apply keeps_next | apply inv_foldl | apply inv_foldl_fst)
    | with_reducible intro _
    | (with_reducible first | apply Memory.wf_writeBytes | apply Memory.wf_writeCells | apply Memory.wf_write | apply Memory.wf_clear)
    | split
    | (with_reducible refine wf_of ?_)
    | assumption
    | (with_reducible apply inv_of; dsimp only)
    | dsimp only
    | exact State.reset_keeps

theorem State.coreRegWrite_inv (s : State) (who : Agent) (c : Nat) (off : Nat) (v : W64) (mask : W64) (h_s : Inv s) :
    Inv (State.coreRegWrite s who c off v mask) := by
  unfold State.coreRegWrite
  try dsimp only
  repeat' first
    | (with_reducible first | assumption | apply State.coreWrite_inv | apply State.countBlkErr_inv | apply keeps_next | apply inv_foldl | apply inv_foldl_fst)
    | with_reducible intro _
    | (with_reducible first | apply Memory.wf_writeBytes | apply Memory.wf_writeCells | apply Memory.wf_write | apply Memory.wf_clear)
    | split
    | (with_reducible refine wf_of ?_)
    | assumption
    | (with_reducible apply inv_of; dsimp only)
    | dsimp only
    | exact State.reset_keeps

theorem State.observe_inv (s : State) (reads : List XReg) (writes : List XReg) (h_s : Inv s) :
    Inv (State.observe s reads writes) := by
  unfold State.observe
  try dsimp only
  repeat' first
    | (with_reducible first | assumption | apply State.hartAcquire_inv | apply State.setGrp_inv | apply keeps_next | apply inv_foldl | apply inv_foldl_fst)
    | with_reducible intro _
    | (with_reducible first | apply Memory.wf_writeBytes | apply Memory.wf_writeCells | apply Memory.wf_write | apply Memory.wf_clear)
    | split
    | (with_reducible refine wf_of ?_)
    | assumption
    | (with_reducible apply inv_of; dsimp only)
    | dsimp only
    | exact State.reset_keeps

theorem hartRun_inv (s : State) (reads : List XReg) (writes : List XReg) (k : State → Out) (h_s : Inv s) (h_k : ∀ v0, Inv v0 → Keeps (k v0)) :
    Keeps (hartRun s reads writes k) := by
  unfold hartRun
  try dsimp only
  repeat' first
    | (with_reducible first | assumption | apply hartWaits_inv | apply State.observe_inv | apply h_k | apply keeps_next | apply inv_foldl | apply inv_foldl_fst)
    | with_reducible intro _
    | (with_reducible first | apply Memory.wf_writeBytes | apply Memory.wf_writeCells | apply Memory.wf_write | apply Memory.wf_clear)
    | split
    | (with_reducible refine wf_of ?_)
    | assumption
    | (with_reducible apply inv_of; dsimp only)
    | dsimp only
    | exact State.reset_keeps

theorem State.hartDone_inv (s : State) (rd : XReg) (v : W64) (h_s : Inv s) :
    Inv (State.hartDone s rd v) := by
  unfold State.hartDone
  try dsimp only
  repeat' first
    | (with_reducible first | assumption | apply State.setGrp_inv | apply keeps_next | apply inv_foldl | apply inv_foldl_fst)
    | with_reducible intro _
    | (with_reducible first | apply Memory.wf_writeBytes | apply Memory.wf_writeCells | apply Memory.wf_write | apply Memory.wf_clear)
    | split
    | (with_reducible refine wf_of ?_)
    | assumption
    | (with_reducible apply inv_of; dsimp only)
    | dsimp only
    | exact State.reset_keeps

theorem hartJump_inv (s : State) (rd : XReg) (target : W64) (h_s : Inv s) :
    Keeps (hartJump s rd target) := by
  unfold hartJump
  try dsimp only
  repeat' first
    | (with_reducible first | assumption | apply raise_inv | apply State.setGrp_inv | apply keeps_next | apply inv_foldl | apply inv_foldl_fst)
    | with_reducible intro _
    | (with_reducible first | apply Memory.wf_writeBytes | apply Memory.wf_writeCells | apply Memory.wf_write | apply Memory.wf_clear)
    | split
    | (with_reducible refine wf_of ?_)
    | assumption
    | (with_reducible apply inv_of; dsimp only)
    | dsimp only
    | exact State.reset_keeps

theorem execHartInstruction_inv (op : HartOp) (s : State) (h_s : Inv s) :
    Keeps (execHartInstruction op s) := by
  unfold execHartInstruction
  try dsimp only
  repeat' first
    | (with_reducible first | assumption | apply hartRun_inv | apply State.hartDone_inv | apply hartJump_inv | apply State.setGrp_inv | apply raise_inv | apply keeps_next | apply inv_foldl | apply inv_foldl_fst)
    | with_reducible intro _
    | (with_reducible first | apply Memory.wf_writeBytes | apply Memory.wf_writeCells | apply Memory.wf_write | apply Memory.wf_clear)
    | split
    | (with_reducible refine wf_of ?_)
    | assumption
    | (with_reducible apply inv_of; dsimp only)
    | dsimp only
    | exact State.reset_keeps

theorem State.hartXlate_inv (s : State) (va : Nat) (need : Need) (f : XFault) (load : Bool) (addr : W64) (h_s : Inv s) :
    Inv (State.hartXlate s va need f load addr) := by
  unfold State.hartXlate
  try dsimp only
  repeat' first
    | (with_reducible first | assumption | apply State.trap_inv | apply State.streamFault_inv | apply keeps_next | apply inv_foldl | apply inv_foldl_fst)
    | with_reducible intro _
    | (with_reducible first | apply Memory.wf_writeBytes | apply Memory.wf_writeCells | apply Memory.wf_write | apply Memory.wf_clear)
    | split
    | (with_reducible refine wf_of ?_)
    | assumption
    | (with_reducible apply inv_of; dsimp only)
    | dsimp only
    | exact State.reset_keeps

theorem State.hartReach_inv (s : State) (addr : W64) (n : Nat) (need : Need) (load : Bool) (blockOk : Bool) (h_s : Inv s) :
    (State.hartReach s addr n need load blockOk).Keeps := by
  unfold State.hartReach
  try dsimp only
  repeat' first
    | (with_reducible first | assumption | apply State.trap_inv | apply State.hartXlate_inv | apply State.countAccess_inv | apply HartHit.keeps_fault)
    | refine HartHit.inv_fault (by with_reducible assumption) ?_
    | exact trivial
    | (with_reducible first | apply keeps_next | apply inv_foldl | apply inv_foldl_fst)
    | with_reducible intro _
    | (with_reducible first | apply Memory.wf_writeBytes | apply Memory.wf_writeCells | apply Memory.wf_write | apply Memory.wf_clear)
    | split
    | (with_reducible refine wf_of ?_)
    | assumption
    | (with_reducible apply inv_of; dsimp only)
    | dsimp only
    | exact State.reset_keeps

theorem hartAccess_inv (s : State) (h_ : HartHit) (req : HartReq) (k : Nat → Option TlbEntry → Option Nat → Out) (h_s : Inv s) (h_h_ : h_.Keeps) (h_k : ∀ v0 v1 v2, Keeps (k v0 v1 v2)) :
    Keeps (hartAccess s h_ req k) := by
  unfold hartAccess
  try dsimp only
  repeat' first
    | (with_reducible first | assumption | apply hartWaits_inv | apply State.setGrp_inv | apply h_k | apply HartHit.keeps_fault)
    | refine HartHit.inv_fault (by with_reducible assumption) ?_
    | exact trivial
    | (with_reducible first | apply keeps_next | apply inv_foldl | apply inv_foldl_fst)
    | with_reducible intro _
    | (with_reducible first | apply Memory.wf_writeBytes | apply Memory.wf_writeCells | apply Memory.wf_write | apply Memory.wf_clear)
    | split
    | (with_reducible refine wf_of ?_)
    | assumption
    | (with_reducible apply inv_of; dsimp only)
    | dsimp only
    | exact State.reset_keeps

theorem State.keepTlb?_inv (s : State) (a : Option TlbEntry) (h_s : Inv s) :
    Inv (State.keepTlb? s a) := by
  unfold State.keepTlb?
  try dsimp only
  repeat' first
    | (with_reducible first | assumption | apply State.keepTlb_inv | apply keeps_next | apply inv_foldl | apply inv_foldl_fst)
    | with_reducible intro _
    | (with_reducible first | apply Memory.wf_writeBytes | apply Memory.wf_writeCells | apply Memory.wf_write | apply Memory.wf_clear)
    | split
    | (with_reducible refine wf_of ?_)
    | assumption
    | (with_reducible apply inv_of; dsimp only)
    | dsimp only
    | exact State.reset_keeps

theorem State.touchL1_inv (s : State) (a : Option Nat) (h_s : Inv s) :
    Inv (State.touchL1 s a) := by
  unfold State.touchL1
  try dsimp only
  repeat' first
    | (with_reducible first | assumption | apply State.l1Drop_inv | apply keeps_next | apply inv_foldl | apply inv_foldl_fst)
    | with_reducible intro _
    | (with_reducible first | apply Memory.wf_writeBytes | apply Memory.wf_writeCells | apply Memory.wf_write | apply Memory.wf_clear)
    | split
    | (with_reducible refine wf_of ?_)
    | assumption
    | (with_reducible apply inv_of; dsimp only)
    | dsimp only
    | exact State.reset_keeps

theorem State.hartSeen_inv (s : State) (key : Nat) (n : Nat) (t : Option TlbEntry) (va : Option Nat) (h_s : Inv s) :
    Inv (State.hartSeen s key n t va) := by
  unfold State.hartSeen
  try dsimp only
  repeat' first
    | (with_reducible first | assumption | apply State.touchL1_inv | apply State.hostTouch_inv | apply State.keepTlb?_inv | apply State.meter_inv | apply keeps_next | apply inv_foldl | apply inv_foldl_fst)
    | with_reducible intro _
    | (with_reducible first | apply Memory.wf_writeBytes | apply Memory.wf_writeCells | apply Memory.wf_write | apply Memory.wf_clear)
    | split
    | (with_reducible refine wf_of ?_)
    | assumption
    | (with_reducible apply inv_of; dsimp only)
    | dsimp only
    | exact State.reset_keeps

theorem State.hartPut_inv (s : State) (key : Nat) (t : Option TlbEntry) (va : Option Nat) (l : List Byte) (h_s : Inv s) :
    Inv (State.hartPut s key t va l) := by
  unfold State.hartPut
  try dsimp only
  repeat' first
    | (with_reducible first | assumption | apply State.touchL1_inv | apply State.keepTlb?_inv | apply State.performStore_inv | apply State.writeAs_inv | apply State.meter_inv | apply State.hostTouch_inv | apply State.breakResv_inv | apply keeps_next | apply inv_foldl | apply inv_foldl_fst)
    | with_reducible intro _
    | (with_reducible first | apply Memory.wf_writeBytes | apply Memory.wf_writeCells | apply Memory.wf_write | apply Memory.wf_clear)
    | split
    | (with_reducible refine wf_of ?_)
    | assumption
    | (with_reducible apply inv_of; dsimp only)
    | dsimp only
    | exact State.reset_keeps

theorem State.toHome_inv (s : State) (a : Option Nat) (h_s : Inv s) :
    Inv (State.toHome s a) := by
  unfold State.toHome
  try dsimp only
  repeat' first
    | (with_reducible first | assumption | apply State.flushSector_inv | apply keeps_next | apply inv_foldl | apply inv_foldl_fst)
    | with_reducible intro _
    | (with_reducible first | apply Memory.wf_writeBytes | apply Memory.wf_writeCells | apply Memory.wf_write | apply Memory.wf_clear)
    | split
    | (with_reducible refine wf_of ?_)
    | assumption
    | (with_reducible apply inv_of; dsimp only)
    | dsimp only
    | exact State.reset_keeps

theorem State.loadAt_inv (s : State) (k : LoadKind) (rd : XReg) (key : Nat) (t : Option TlbEntry) (va : Option Nat) (h_s : Inv s) :
    Inv (State.loadAt s k rd key t va) := by
  unfold State.loadAt
  try dsimp only
  repeat' first
    | (with_reducible first | assumption | apply State.hartDone_inv | apply State.hartSeen_inv | apply keeps_next | apply inv_foldl | apply inv_foldl_fst)
    | with_reducible intro _
    | (with_reducible first | apply Memory.wf_writeBytes | apply Memory.wf_writeCells | apply Memory.wf_write | apply Memory.wf_clear)
    | split
    | (with_reducible refine wf_of ?_)
    | assumption
    | (with_reducible apply inv_of; dsimp only)
    | dsimp only
    | exact State.reset_keeps

theorem State.blockRead_inv (s : State) (off : Nat) (n : Nat) (h_s : Inv s) :
    Inv (State.blockRead s off n).1 := by
  unfold State.blockRead
  try dsimp only
  repeat' first
    | (with_reducible first | assumption | apply State.countBlkErr_inv | apply keeps_next | apply inv_foldl | apply inv_foldl_fst)
    | with_reducible intro _
    | (with_reducible first | apply Memory.wf_writeBytes | apply Memory.wf_writeCells | apply Memory.wf_write | apply Memory.wf_clear)
    | split
    | (with_reducible refine wf_of ?_)
    | assumption
    | (with_reducible apply inv_of; dsimp only)
    | dsimp only
    | exact State.reset_keeps

theorem State.blockRead_eq {s : State} {off : Nat} {n : Nat} {u : State} {z_ : Nat} (e : State.blockRead s off n = (u, z_)) (h_s : Inv s) : Inv u := by
  have q := State.blockRead_inv s off n h_s
  rw [e] at q; exact q

theorem execHartLoad_inv (k : LoadKind) (rd : XReg) (rs1 : XReg) (imm : BitVec 12) (s : State) (h_s : Inv s) :
    Keeps (execHartLoad k rd rs1 imm s) := by
  unfold execHartLoad
  try dsimp only
  repeat' first
    | (with_reducible first | assumption | apply hartRun_inv | apply State.hartReach_inv | apply State.blockRead_inv | apply State.hartDone_inv | apply hartAccess_inv | apply State.loadAt_inv)
    | refine State.blockRead_eq (by with_reducible assumption) ?_
    | with_reducible apply HartHit.keeps_fault
    | refine HartHit.inv_fault (by with_reducible assumption) ?_
    | exact trivial
    | (with_reducible first | apply keeps_next | apply inv_foldl | apply inv_foldl_fst)
    | with_reducible intro _
    | (with_reducible first | apply Memory.wf_writeBytes | apply Memory.wf_writeCells | apply Memory.wf_write | apply Memory.wf_clear)
    | split
    | (with_reducible refine wf_of ?_)
    | assumption
    | (with_reducible apply inv_of; dsimp only)
    | dsimp only
    | exact State.reset_keeps

theorem execHartStore_inv (k : StoreKind) (rs1 : XReg) (rs2 : XReg) (imm : BitVec 12) (s : State) (h_s : Inv s) :
    Keeps (execHartStore k rs1 rs2 imm s) := by
  unfold execHartStore
  try dsimp only
  repeat' first
    | (with_reducible first | assumption | apply hartRun_inv | apply State.hartReach_inv | apply State.coreRegWrite_inv | apply State.setGrp_inv | apply State.sendPosts_inv | apply hartWaits_inv | apply State.hartPut_inv)
    | refine State.sendPosts_eq (by with_reducible assumption) ?_
    | with_reducible apply HartHit.keeps_fault
    | refine HartHit.inv_fault (by with_reducible assumption) ?_
    | exact trivial
    | (with_reducible first | apply keeps_next | apply inv_foldl | apply inv_foldl_fst)
    | with_reducible intro _
    | (with_reducible first | apply Memory.wf_writeBytes | apply Memory.wf_writeCells | apply Memory.wf_write | apply Memory.wf_clear)
    | split
    | (with_reducible refine wf_of ?_)
    | assumption
    | (with_reducible apply inv_of; dsimp only)
    | dsimp only
    | exact State.reset_keeps

theorem State.amoAt_inv (s : State) (op : AmoOp) (dbl : Bool) (aq : Bool) (rd : XReg) (val : W64) (key : Nat) (t : Option TlbEntry) (va : Option Nat) (h_s : Inv s) :
    Inv (State.amoAt s op dbl aq rd val key t va) := by
  unfold State.amoAt
  try dsimp only
  repeat' first
    | (with_reducible first | assumption | apply State.toHome_inv | apply State.touchL1_inv | apply State.meterAt_inv | apply State.keepTlb?_inv | apply State.performStore_inv | apply State.writeAs_inv | apply State.hartDone_inv | apply State.hartAcquire_inv | apply keeps_next | apply inv_foldl | apply inv_foldl_fst)
    | with_reducible intro _
    | (with_reducible first | apply Memory.wf_writeBytes | apply Memory.wf_writeCells | apply Memory.wf_write | apply Memory.wf_clear)
    | split
    | (with_reducible refine wf_of ?_)
    | assumption
    | (with_reducible apply inv_of; dsimp only)
    | dsimp only
    | exact State.reset_keeps

theorem execHartAmo_inv (op : AmoOp) (dbl : Bool) (aq : Bool) (rl : Bool) (rd : XReg) (rs1 : XReg) (rs2 : XReg) (s : State) (h_s : Inv s) :
    Keeps (execHartAmo op dbl aq rl rd rs1 rs2 s) := by
  unfold execHartAmo
  try dsimp only
  repeat' first
    | (with_reducible first | assumption | apply hartRun_inv | apply hartAccess_inv | apply State.hartReach_inv | apply State.amoAt_inv | apply afterRelease_inv | apply HartHit.keeps_fault)
    | refine HartHit.inv_fault (by with_reducible assumption) ?_
    | exact trivial
    | (with_reducible first | apply keeps_next | apply inv_foldl | apply inv_foldl_fst)
    | with_reducible intro _
    | (with_reducible first | apply Memory.wf_writeBytes | apply Memory.wf_writeCells | apply Memory.wf_write | apply Memory.wf_clear)
    | split
    | (with_reducible refine wf_of ?_)
    | assumption
    | (with_reducible apply inv_of; dsimp only)
    | dsimp only
    | exact State.reset_keeps

theorem State.lrAt_inv (s : State) (dbl : Bool) (aq : Bool) (rd : XReg) (key : Nat) (t : Option TlbEntry) (va : Option Nat) (h_s : Inv s) :
    Inv (State.lrAt s dbl aq rd key t va) := by
  unfold State.lrAt
  try dsimp only
  repeat' first
    | (with_reducible first | assumption | apply State.hartSeen_inv | apply State.setGrp_inv | apply State.hartDone_inv | apply State.hartAcquire_inv | apply keeps_next | apply inv_foldl | apply inv_foldl_fst)
    | with_reducible intro _
    | (with_reducible first | apply Memory.wf_writeBytes | apply Memory.wf_writeCells | apply Memory.wf_write | apply Memory.wf_clear)
    | split
    | (with_reducible refine wf_of ?_)
    | assumption
    | (with_reducible apply inv_of; dsimp only)
    | dsimp only
    | exact State.reset_keeps

theorem execHartLr_inv (dbl : Bool) (aq : Bool) (rl : Bool) (rd : XReg) (rs1 : XReg) (s : State) (h_s : Inv s) :
    Keeps (execHartLr dbl aq rl rd rs1 s) := by
  unfold execHartLr
  try dsimp only
  repeat' first
    | (with_reducible first | assumption | apply hartRun_inv | apply State.trap_inv | apply State.hartReach_inv | apply hartAccess_inv | apply State.lrAt_inv | apply afterRelease_inv | apply HartHit.keeps_fault)
    | refine HartHit.inv_fault (by with_reducible assumption) ?_
    | exact trivial
    | (with_reducible first | apply keeps_next | apply inv_foldl | apply inv_foldl_fst)
    | with_reducible intro _
    | (with_reducible first | apply Memory.wf_writeBytes | apply Memory.wf_writeCells | apply Memory.wf_write | apply Memory.wf_clear)
    | split
    | (with_reducible refine wf_of ?_)
    | assumption
    | (with_reducible apply inv_of; dsimp only)
    | dsimp only
    | exact State.reset_keeps

theorem State.scAt_inv (s : State) (dbl : Bool) (aq : Bool) (rd : XReg) (val : W64) (key : Nat) (t : Option TlbEntry) (va : Option Nat) (h_s : Inv s) :
    Inv (State.scAt s dbl aq rd val key t va) := by
  unfold State.scAt
  try dsimp only
  repeat' first
    | (with_reducible first | assumption | apply State.hartPut_inv | apply State.setGrp_inv | apply State.hartDone_inv | apply State.hartAcquire_inv | apply keeps_next | apply inv_foldl | apply inv_foldl_fst)
    | with_reducible intro _
    | (with_reducible first | apply Memory.wf_writeBytes | apply Memory.wf_writeCells | apply Memory.wf_write | apply Memory.wf_clear)
    | split
    | (with_reducible refine wf_of ?_)
    | assumption
    | (with_reducible apply inv_of; dsimp only)
    | dsimp only
    | exact State.reset_keeps

theorem execHartSc_inv (dbl : Bool) (aq : Bool) (rl : Bool) (rd : XReg) (rs1 : XReg) (rs2 : XReg) (s : State) (h_s : Inv s) :
    Keeps (execHartSc dbl aq rl rd rs1 rs2 s) := by
  unfold execHartSc
  try dsimp only
  repeat' first
    | (with_reducible first | assumption | apply hartRun_inv | apply State.trap_inv | apply State.hartReach_inv | apply hartAccess_inv | apply State.scAt_inv | apply afterRelease_inv | apply HartHit.keeps_fault)
    | refine HartHit.inv_fault (by with_reducible assumption) ?_
    | exact trivial
    | (with_reducible first | apply keeps_next | apply inv_foldl | apply inv_foldl_fst)
    | with_reducible intro _
    | (with_reducible first | apply Memory.wf_writeBytes | apply Memory.wf_writeCells | apply Memory.wf_write | apply Memory.wf_clear)
    | split
    | (with_reducible refine wf_of ?_)
    | assumption
    | (with_reducible apply inv_of; dsimp only)
    | dsimp only
    | exact State.reset_keeps

theorem hartFenceOf_inv (s : State) (k : FenceKind) (sc : Sys2Proof.Scope) (h_s : Inv s) :
    Keeps (hartFenceOf s k sc) := by
  unfold hartFenceOf
  try dsimp only
  repeat' first
    | (with_reducible first | assumption | apply State.hartAcquire_inv | apply State.setGrp_inv | apply afterRelease_inv | apply hartWaits_inv | apply State.evictModified_inv | apply keeps_next | apply inv_foldl | apply inv_foldl_fst)
    | with_reducible intro _
    | (with_reducible first | apply Memory.wf_writeBytes | apply Memory.wf_writeCells | apply Memory.wf_write | apply Memory.wf_clear)
    | split
    | (with_reducible refine wf_of ?_)
    | assumption
    | (with_reducible apply inv_of; dsimp only)
    | dsimp only
    | exact State.reset_keeps

theorem execZFence_inv (k : FenceKind) (scope : Sys2Proof.Scope) (s : State) (h_s : Inv s) :
    Keeps (execZFence k scope s) := by
  unfold execZFence
  try dsimp only
  repeat' first
    | (with_reducible first | assumption | apply hartFenceOf_inv | apply keeps_next | apply inv_foldl | apply inv_foldl_fst)
    | with_reducible intro _
    | (with_reducible first | apply Memory.wf_writeBytes | apply Memory.wf_writeCells | apply Memory.wf_write | apply Memory.wf_clear)
    | split
    | (with_reducible refine wf_of ?_)
    | assumption
    | (with_reducible apply inv_of; dsimp only)
    | dsimp only
    | exact State.reset_keeps

theorem execHartFence_inv (_fm : BitVec 4) (pred : BitVec 4) (succ : BitVec 4) (_rd : XReg) (_rs1 : XReg) (s : State) (h_s : Inv s) :
    Keeps (execHartFence _fm pred succ _rd _rs1 s) := by
  unfold execHartFence
  try dsimp only
  repeat' first
    | (with_reducible first | assumption | apply State.setGrp_inv | apply hartFenceOf_inv | apply keeps_next | apply inv_foldl | apply inv_foldl_fst)
    | with_reducible intro _
    | (with_reducible first | apply Memory.wf_writeBytes | apply Memory.wf_writeCells | apply Memory.wf_write | apply Memory.wf_clear)
    | split
    | (with_reducible refine wf_of ?_)
    | assumption
    | (with_reducible apply inv_of; dsimp only)
    | dsimp only
    | exact State.reset_keeps

theorem execFenceI_inv (_rd : XReg) (_rs1 : XReg) (_imm : BitVec 12) (s : State) (h_s : Inv s) :
    Keeps (execFenceI _rd _rs1 _imm s) := by
  unfold execFenceI
  try dsimp only
  repeat' first
    | (with_reducible first | assumption | apply State.setGrp_inv | apply State.setCore_inv | apply keeps_next | apply inv_foldl | apply inv_foldl_fst)
    | with_reducible intro _
    | (with_reducible first | apply Memory.wf_writeBytes | apply Memory.wf_writeCells | apply Memory.wf_write | apply Memory.wf_clear)
    | split
    | (with_reducible refine wf_of ?_)
    | assumption
    | (with_reducible apply inv_of; dsimp only)
    | dsimp only
    | exact State.reset_keeps

theorem execZL1wb_inv (rs1 : XReg) (rs2 : XReg) (s : State) (h_s : Inv s) :
    Keeps (execZL1wb rs1 rs2 s) := by
  unfold execZL1wb
  try dsimp only
  repeat' first
    | (with_reducible first | assumption | apply hartRun_inv | apply hartWaits_inv | apply State.setGrp_inv | apply State.writeBackFault_inv)
    | refine State.writeBackAll_eq (by with_reducible assumption) ?_
    | (with_reducible first | apply keeps_next | apply inv_foldl | apply inv_foldl_fst)
    | with_reducible intro _
    | (with_reducible first | apply Memory.wf_writeBytes | apply Memory.wf_writeCells | apply Memory.wf_write | apply Memory.wf_clear)
    | split
    | (with_reducible refine wf_of ?_)
    | assumption
    | (with_reducible apply inv_of; dsimp only)
    | dsimp only
    | exact State.reset_keeps

theorem execEcall_inv (s : State) (h_s : Inv s) :
    Keeps (execEcall s) := by
  unfold execEcall
  try dsimp only
  repeat' first
    | (with_reducible first | assumption | apply raise_inv | apply keeps_next | apply inv_foldl | apply inv_foldl_fst)
    | with_reducible intro _
    | (with_reducible first | apply Memory.wf_writeBytes | apply Memory.wf_writeCells | apply Memory.wf_write | apply Memory.wf_clear)
    | split
    | (with_reducible refine wf_of ?_)
    | assumption
    | (with_reducible apply inv_of; dsimp only)
    | dsimp only
    | exact State.reset_keeps

theorem execEbreak_inv (s : State) (h_s : Inv s) :
    Keeps (execEbreak s) := by
  unfold execEbreak
  try dsimp only
  repeat' first
    | (with_reducible first | assumption | apply raise_inv | apply keeps_next | apply inv_foldl | apply inv_foldl_fst)
    | with_reducible intro _
    | (with_reducible first | apply Memory.wf_writeBytes | apply Memory.wf_writeCells | apply Memory.wf_write | apply Memory.wf_clear)
    | split
    | (with_reducible refine wf_of ?_)
    | assumption
    | (with_reducible apply inv_of; dsimp only)
    | dsimp only
    | exact State.reset_keeps

theorem execMret_inv (s : State) (h_s : Inv s) :
    Keeps (execMret s) := by
  unfold execMret
  try dsimp only
  repeat' first
    | (with_reducible first | assumption | apply illegal_inv | apply raise_inv | apply hartWaits_inv | apply State.setGrp_inv | apply keeps_next | apply inv_foldl | apply inv_foldl_fst)
    | with_reducible intro _
    | (with_reducible first | apply Memory.wf_writeBytes | apply Memory.wf_writeCells | apply Memory.wf_write | apply Memory.wf_clear)
    | split
    | (with_reducible refine wf_of ?_)
    | assumption
    | (with_reducible apply inv_of; dsimp only)
    | dsimp only
    | exact State.reset_keeps

theorem execWfi_inv (s : State) (h_s : Inv s) :
    Keeps (execWfi s) := by
  unfold execWfi
  try dsimp only
  repeat' first
    | (with_reducible first | assumption | apply State.setGrp_inv | apply hartWaits_inv | apply illegal_inv | apply keeps_next | apply inv_foldl | apply inv_foldl_fst)
    | with_reducible intro _
    | (with_reducible first | apply Memory.wf_writeBytes | apply Memory.wf_writeCells | apply Memory.wf_write | apply Memory.wf_clear)
    | split
    | (with_reducible refine wf_of ?_)
    | assumption
    | (with_reducible apply inv_of; dsimp only)
    | dsimp only
    | exact State.reset_keeps

theorem State.csrPut_inv (s : State) (csr : Nat) (v : W64) (h_s : Inv s) :
    Inv (State.csrPut s csr v) := by
  unfold State.csrPut
  try dsimp only
  repeat' first
    | (with_reducible first | assumption | apply State.setGrp_inv | apply keeps_next | apply inv_foldl | apply inv_foldl_fst)
    | with_reducible intro _
    | (with_reducible first | apply Memory.wf_writeBytes | apply Memory.wf_writeCells | apply Memory.wf_write | apply Memory.wf_clear)
    | split
    | (with_reducible refine wf_of ?_)
    | assumption
    | (with_reducible apply inv_of; dsimp only)
    | dsimp only
    | exact State.reset_keeps

theorem csrRun_inv (s : State) (csr : Nat) (op : CsrOp) (rd : XReg) (src : CsrSrc) (put : State → W64 → W64 → State) (h_s : Inv s) (h_put : ∀ v0 v1 v2, Inv v0 → Inv (put v0 v1 v2)) :
    Keeps (csrRun s csr op rd src put) := by
  unfold csrRun
  try dsimp only
  repeat' first
    | (with_reducible first | assumption | apply hartRun_inv | apply illegal_inv | apply State.hartDone_inv | apply h_put | apply keeps_next | apply inv_foldl | apply inv_foldl_fst)
    | with_reducible intro _
    | (with_reducible first | apply Memory.wf_writeBytes | apply Memory.wf_writeCells | apply Memory.wf_write | apply Memory.wf_clear)
    | split
    | (with_reducible refine wf_of ?_)
    | assumption
    | (with_reducible apply inv_of; dsimp only)
    | dsimp only
    | exact State.reset_keeps

theorem execCsrAccess_inv (csr : BitVec 12) (op : CsrOp) (rd : XReg) (src : CsrSrc) (s : State) (h_s : Inv s) :
    Keeps (execCsrAccess csr op rd src s) := by
  unfold execCsrAccess
  try dsimp only
  repeat' first
    | (with_reducible first | assumption | apply csrRun_inv | apply State.csrPut_inv | apply keeps_next | apply inv_foldl | apply inv_foldl_fst)
    | with_reducible intro _
    | (with_reducible first | apply Memory.wf_writeBytes | apply Memory.wf_writeCells | apply Memory.wf_write | apply Memory.wf_clear)
    | split
    | (with_reducible refine wf_of ?_)
    | assumption
    | (with_reducible apply inv_of; dsimp only)
    | dsimp only
    | exact State.reset_keeps

theorem execSlipWrite_inv (op : CsrOp) (rd : XReg) (src : CsrSrc) (s : State) (h_s : Inv s) :
    Keeps (execSlipWrite op rd src s) := by
  unfold execSlipWrite
  try dsimp only
  repeat' first
    | (with_reducible first | assumption | apply csrRun_inv | apply State.setGrp_inv | apply State.countBlkErr_inv | apply keeps_next | apply inv_foldl | apply inv_foldl_fst)
    | with_reducible intro _
    | (with_reducible first | apply Memory.wf_writeBytes | apply Memory.wf_writeCells | apply Memory.wf_write | apply Memory.wf_clear)
    | split
    | (with_reducible refine wf_of ?_)
    | assumption
    | (with_reducible apply inv_of; dsimp only)
    | dsimp only
    | exact State.reset_keeps

theorem execMstatWrite_inv (op : CsrOp) (rd : XReg) (src : CsrSrc) (s : State) (h_s : Inv s) :
    Keeps (execMstatWrite op rd src s) := by
  unfold execMstatWrite
  try dsimp only
  repeat' first
    | (with_reducible first | assumption | apply hartRun_inv | apply State.hartDone_inv | apply illegal_inv | apply State.setGrp_inv | apply State.countBlkErr_inv | apply keeps_next | apply inv_foldl | apply inv_foldl_fst)
    | with_reducible intro _
    | (with_reducible first | apply Memory.wf_writeBytes | apply Memory.wf_writeCells | apply Memory.wf_write | apply Memory.wf_clear)
    | split
    | (with_reducible refine wf_of ?_)
    | assumption
    | (with_reducible apply inv_of; dsimp only)
    | dsimp only
    | exact State.reset_keeps

theorem execMlpcWrite_inv (op : CsrOp) (rd : XReg) (src : CsrSrc) (s : State) (h_s : Inv s) :
    Keeps (execMlpcWrite op rd src s) := by
  unfold execMlpcWrite
  try dsimp only
  repeat' first
    | (with_reducible first | assumption | apply csrRun_inv | apply State.csrPut_inv | apply keeps_next | apply inv_foldl | apply inv_foldl_fst)
    | with_reducible intro _
    | (with_reducible first | apply Memory.wf_writeBytes | apply Memory.wf_writeCells | apply Memory.wf_write | apply Memory.wf_clear)
    | split
    | (with_reducible refine wf_of ?_)
    | assumption
    | (with_reducible apply inv_of; dsimp only)
    | dsimp only
    | exact State.reset_keeps

theorem execCedoneRead_inv (ch : BitVec 3) (op : CsrOp) (rd : XReg) (src : CsrSrc) (s : State) (h_s : Inv s) :
    Keeps (execCedoneRead ch op rd src s) := by
  unfold execCedoneRead
  try dsimp only
  repeat' first
    | (with_reducible first | assumption | apply hartRun_inv | apply illegal_inv | apply State.hartDone_inv | apply State.hartAcquire_inv | apply keeps_next | apply inv_foldl | apply inv_foldl_fst)
    | with_reducible intro _
    | (with_reducible first | apply Memory.wf_writeBytes | apply Memory.wf_writeCells | apply Memory.wf_write | apply Memory.wf_clear)
    | split
    | (with_reducible refine wf_of ?_)
    | assumption
    | (with_reducible apply inv_of; dsimp only)
    | dsimp only
    | exact State.reset_keeps

theorem State.respond_inv (s : State) (addr : W64) (n : Nat) (need : Need) (load : Bool) (k : Nat → State) (h_s : Inv s) (h_k : ∀ v0, Inv (k v0)) :
    Inv (State.respond s addr n need load k) := by
  unfold State.respond
  try dsimp only
  repeat' first
    | (with_reducible first | assumption | apply State.trap_inv | apply State.countAccess_inv | apply h_k | apply keeps_next | apply inv_foldl | apply inv_foldl_fst)
    | with_reducible intro _
    | (with_reducible first | apply Memory.wf_writeBytes | apply Memory.wf_writeCells | apply Memory.wf_write | apply Memory.wf_clear)
    | split
    | (with_reducible refine wf_of ?_)
    | assumption
    | (with_reducible apply inv_of; dsimp only)
    | dsimp only
    | exact State.reset_keeps

theorem State.keepWord_inv (s : State) (hart : Bool) (va : Nat) (w : W32) (h_s : Inv s) :
    Inv (State.keepWord s hart va w) := by
  unfold State.keepWord
  try dsimp only
  repeat' first
    | (with_reducible first | assumption | apply State.meterVa_inv | apply State.setCore_inv | apply keeps_next | apply inv_foldl | apply inv_foldl_fst)
    | with_reducible intro _
    | (with_reducible first | apply Memory.wf_writeBytes | apply Memory.wf_writeCells | apply Memory.wf_write | apply Memory.wf_clear)
    | split
    | (with_reducible refine wf_of ?_)
    | assumption
    | (with_reducible apply inv_of; dsimp only)
    | dsimp only
    | exact State.reset_keeps

theorem State.takeAsync_inv (s : State) (h_s : Inv s) :
    Inv (State.takeAsync s) := by
  unfold State.takeAsync
  try dsimp only
  repeat' first
    | (with_reducible first | assumption | apply State.trap_inv | apply State.setGrp_inv | apply keeps_next | apply inv_foldl | apply inv_foldl_fst)
    | with_reducible intro _
    | (with_reducible first | apply Memory.wf_writeBytes | apply Memory.wf_writeCells | apply Memory.wf_write | apply Memory.wf_clear)
    | split
    | (with_reducible refine wf_of ?_)
    | assumption
    | (with_reducible apply inv_of; dsimp only)
    | dsimp only
    | exact State.reset_keeps

theorem hartFetch_inv (s : State) (h_s : Inv s) :
    (hartFetch s).Keeps := by
  unfold hartFetch
  try dsimp only
  repeat' first
    | (with_reducible first | assumption | apply State.takeAsync_inv | apply State.trap_inv | apply State.streamFault_inv | apply State.keepWord_inv | apply State.keepTlb_inv | apply State.setGrp_inv | apply Fetched.keeps_run)
    | refine Fetched.inv_run (by with_reducible assumption) ?_
    | with_reducible apply Fetched.keeps_stop
    | refine Fetched.inv_stop (by with_reducible assumption) ?_
    | exact trivial
    | (with_reducible first | apply keeps_next | apply inv_foldl | apply inv_foldl_fst)
    | with_reducible intro _
    | (with_reducible first | apply Memory.wf_writeBytes | apply Memory.wf_writeCells | apply Memory.wf_write | apply Memory.wf_clear)
    | split
    | (with_reducible refine wf_of ?_)
    | assumption
    | (with_reducible apply inv_of; dsimp only)
    | dsimp only
    | exact State.reset_keeps

theorem State.laneFetchFault_inv (s : State) (a : W64) (a' : CodeWord) (h_s : Inv s) :
    Inv (State.laneFetchFault s a a') := by
  unfold State.laneFetchFault
  try dsimp only
  repeat' first
    | (with_reducible first | assumption | apply State.streamFault_inv | apply State.countEcc_inv | apply State.setGrp_inv | apply keeps_next | apply inv_foldl | apply inv_foldl_fst)
    | with_reducible intro _
    | (with_reducible first | apply Memory.wf_writeBytes | apply Memory.wf_writeCells | apply Memory.wf_write | apply Memory.wf_clear)
    | split
    | (with_reducible refine wf_of ?_)
    | assumption
    | (with_reducible apply inv_of; dsimp only)
    | dsimp only
    | exact State.reset_keeps

theorem State.fetchWords_inv (s : State) (n : Nat) (a : W64) (h_s : Inv s) :
    (∀ u l, s.fetchWords n a = .ok (u, l) → Inv u) ∧ ∀ u, s.fetchWords n a = .error u → Inv u := by
  induction n generalizing s a with
  | zero => exact ⟨fun u l e => (by cases e; exact h_s), fun u e => (by cases e)⟩
  | succ n ih =>
    unfold State.fetchWords
    split
    · rename_i w t va _
      have q := ih _ (a + 4) (State.keepWord_inv _ false va w (State.keepTlb_inv s t h_s))
      split
      · rename_i e; exact ⟨fun u l e' => (by cases e'; exact q.1 _ _ e), fun u e' => (by cases e')⟩
      · rename_i e; exact ⟨fun u l e' => (by cases e'), fun u e' => (by cases e'; exact q.2 _ e)⟩
    · exact ⟨fun u l e' => (by cases e'), fun u e' => (by cases e'; exact State.laneFetchFault_inv _ _ _ h_s)⟩


theorem State.countStart_inv (s : State) (i : Instr) (h_s : Inv s) :
    Inv (State.countStart s i) := by
  unfold State.countStart
  try dsimp only
  repeat' first
    | (with_reducible first | assumption | apply State.focus_inv | apply State.setGrp_inv | apply State.setCore_inv | apply State.setGrpAt_inv | apply keeps_next | apply inv_foldl | apply inv_foldl_fst)
    | with_reducible intro _
    | (with_reducible first | apply Memory.wf_writeBytes | apply Memory.wf_writeCells | apply Memory.wf_write | apply Memory.wf_clear)
    | split
    | (with_reducible refine wf_of ?_)
    | assumption
    | (with_reducible apply inv_of; dsimp only)
    | dsimp only
    | exact State.reset_keeps

theorem laneFetch_inv (s : State) (h_s : Inv s) : (laneFetch s).Keeps := by
  unfold laneFetch
  dsimp only
  split
  · exact h_s
  split
  · rename_i w t va _
    have q := State.fetchWords_inv _ (laneWords w - 1) (s.grp.lpc + 4)
      (State.keepWord_inv _ false va w (State.keepTlb_inv s t h_s))
    split
    · rename_i e; exact q.2 _ e
    · rename_i u l e
      have hu := q.1 _ _ e
      split
      · exact State.countStart_inv _ _ (State.setGrp_inv _ _ hu)
      · exact State.setGrp_inv _ _ (State.setGrp_inv _ _ hu)
  · exact State.laneFetchFault_inv _ _ _ h_s

theorem State.stamp_inv (s : State) (h_s : Inv s) :
    Inv (State.stamp s) := by
  unfold State.stamp
  try dsimp only
  repeat' first
    | (with_reducible first | assumption | apply State.setGrp_inv | apply State.setBlk_inv | apply keeps_next | apply inv_foldl | apply inv_foldl_fst)
    | with_reducible intro _
    | (with_reducible first | apply Memory.wf_writeBytes | apply Memory.wf_writeCells | apply Memory.wf_write | apply Memory.wf_clear)
    | split
    | (with_reducible refine wf_of ?_)
    | assumption
    | (with_reducible apply inv_of; dsimp only)
    | dsimp only
    | exact State.reset_keeps

theorem State.tick_inv (s : State) (h_s : Inv s) :
    Inv (State.tick s) := by
  unfold State.tick
  try dsimp only
  repeat' first
    | (with_reducible first | assumption | apply State.stamp_inv | apply keeps_next | apply inv_foldl | apply inv_foldl_fst)
    | with_reducible intro _
    | (with_reducible first | apply Memory.wf_writeBytes | apply Memory.wf_writeCells | apply Memory.wf_write | apply Memory.wf_clear)
    | split
    | (with_reducible refine wf_of ?_)
    | assumption
    | (with_reducible apply inv_of; dsimp only)
    | dsimp only
    | exact State.reset_keeps

theorem State.hartFault_inv (s : State) (need : Need) (f : HartFault) (h_s : Inv s) :
    Inv (State.hartFault s need f) := by
  unfold State.hartFault
  try dsimp only
  repeat' first
    | (with_reducible first | assumption | apply State.trap_inv | apply State.streamFault_inv | apply State.countAccess_inv | apply keeps_next | apply inv_foldl | apply inv_foldl_fst)
    | with_reducible intro _
    | (with_reducible first | apply Memory.wf_writeBytes | apply Memory.wf_writeCells | apply Memory.wf_write | apply Memory.wf_clear)
    | split
    | (with_reducible refine wf_of ?_)
    | assumption
    | (with_reducible apply inv_of; dsimp only)
    | dsimp only
    | exact State.reset_keeps

theorem State.readBytes_inv (s : State) (a : W64) (n : Nat) (space : Nat) (data : Nat) (h_s : Inv s) :
    (State.readBytes s a n space data).Keeps := by
  unfold State.readBytes
  try dsimp only
  repeat' first
    | (with_reducible first | assumption | apply State.hartSeen_inv | apply ByteRead.keeps_ok)
    | refine ByteRead.inv_ok (by with_reducible assumption) ?_
    | exact trivial
    | (with_reducible first | apply keeps_next | apply inv_foldl | apply inv_foldl_fst)
    | with_reducible intro _
    | (with_reducible first | apply Memory.wf_writeBytes | apply Memory.wf_writeCells | apply Memory.wf_write | apply Memory.wf_clear)
    | split
    | (with_reducible refine wf_of ?_)
    | assumption
    | (with_reducible apply inv_of; dsimp only)
    | dsimp only
    | exact State.reset_keeps

theorem State.readRecord_inv (s : State) (a : W64) (c0 : Int) (unread : Nat) (bad : optParam (Rec → Bool) fun x => false) (h_s : Inv s) :
    (State.readRecord s a c0 unread bad).Keeps := by
  unfold State.readRecord
  try dsimp only
  repeat' first
    | (with_reducible first | assumption | apply State.readBytes_inv | apply RecRead.keeps_ok)
    | refine RecRead.inv_ok (by with_reducible assumption) ?_
    | with_reducible apply ByteRead.keeps_ok
    | refine ByteRead.inv_ok (by with_reducible assumption) ?_
    | exact trivial
    | (with_reducible first | apply keeps_next | apply inv_foldl | apply inv_foldl_fst)
    | with_reducible intro _
    | (with_reducible first | apply Memory.wf_writeBytes | apply Memory.wf_writeCells | apply Memory.wf_write | apply Memory.wf_clear)
    | split
    | (with_reducible refine wf_of ?_)
    | assumption
    | (with_reducible apply inv_of; dsimp only)
    | dsimp only
    | exact State.reset_keeps

theorem State.seenElem_inv (s : State) (p : Elem × ElemFate) (h_s : Inv s) :
    Inv (State.seenElem s p) := by
  unfold State.seenElem
  try dsimp only
  repeat' first
    | (with_reducible first | assumption | apply State.hartSeen_inv | apply State.countAccess_inv | apply keeps_next | apply inv_foldl | apply inv_foldl_fst)
    | with_reducible intro _
    | (with_reducible first | apply Memory.wf_writeBytes | apply Memory.wf_writeCells | apply Memory.wf_write | apply Memory.wf_clear)
    | split
    | (with_reducible refine wf_of ?_)
    | assumption
    | (with_reducible apply inv_of; dsimp only)
    | dsimp only
    | exact State.reset_keeps

theorem State.gather_inv (s : State) (wide : Bool) (desc : LoadDesc) (l : List Elem) (h_s : Inv s) :
    (s.gather wide desc l).Keeps := by
  unfold State.gather Gather.Keeps
  exact inv_foldl (fun t x ht => State.seenElem_inv _ _ ht) h_s

theorem State.makeLoad_inv (s : State) (d : LoadDesc) (h_s : Inv s) :
    (State.makeLoad s d).Keeps := by
  unfold State.makeLoad
  try dsimp only
  repeat' first
    | (with_reducible first | assumption | apply State.gather_inv | apply State.readRecord_inv | apply RecRead.keeps_ok)
    | refine RecRead.inv_ok (by with_reducible assumption) ?_
    | with_reducible apply Gather.inv
    | exact trivial
    | (with_reducible first | apply keeps_next | apply inv_foldl | apply inv_foldl_fst)
    | with_reducible intro _
    | (with_reducible first | apply Memory.wf_writeBytes | apply Memory.wf_writeCells | apply Memory.wf_write | apply Memory.wf_clear)
    | split
    | (with_reducible refine wf_of ?_)
    | assumption
    | (with_reducible apply inv_of; dsimp only)
    | dsimp only
    | exact State.reset_keeps

theorem queueLoad_inv (s : State) (nf : Bool) (q : Nat) (d : LoadDesc) (h_s : Inv s) :
    Keeps (queueLoad s nf q d) := by
  unfold queueLoad
  try dsimp only
  repeat' first
    | (with_reducible first | assumption | apply hartWaits_inv | apply State.makeLoad_inv | apply State.hartFault_inv | apply State.setGrp_inv | apply Gather.inv)
    | exact trivial
    | (with_reducible first | apply keeps_next | apply inv_foldl | apply inv_foldl_fst)
    | with_reducible intro _
    | (with_reducible first | apply Memory.wf_writeBytes | apply Memory.wf_writeCells | apply Memory.wf_write | apply Memory.wf_clear)
    | split
    | (with_reducible refine wf_of ?_)
    | assumption
    | (with_reducible apply inv_of; dsimp only)
    | dsimp only
    | exact State.reset_keeps

theorem execZLdq_inv (t : LdqTy) (q : BitVec 2) (rs1 : XReg) (rs2 : XReg) (s : State) (h_s : Inv s) :
    Keeps (execZLdq t q rs1 rs2 s) := by
  unfold execZLdq
  try dsimp only
  repeat' first
    | (with_reducible first | assumption | apply hartRun_inv | apply queueLoad_inv | apply keeps_next | apply inv_foldl | apply inv_foldl_fst)
    | with_reducible intro _
    | (with_reducible first | apply Memory.wf_writeBytes | apply Memory.wf_writeCells | apply Memory.wf_write | apply Memory.wf_clear)
    | split
    | (with_reducible refine wf_of ?_)
    | assumption
    | (with_reducible apply inv_of; dsimp only)
    | dsimp only
    | exact State.reset_keeps

theorem execZLdqNf_inv (t : LdqTy) (q : BitVec 2) (rs1 : XReg) (rs2 : XReg) (s : State) (h_s : Inv s) :
    Keeps (execZLdqNf t q rs1 rs2 s) := by
  unfold execZLdqNf
  try dsimp only
  repeat' first
    | (with_reducible first | assumption | apply hartRun_inv | apply queueLoad_inv | apply keeps_next | apply inv_foldl | apply inv_foldl_fst)
    | with_reducible intro _
    | (with_reducible first | apply Memory.wf_writeBytes | apply Memory.wf_writeCells | apply Memory.wf_write | apply Memory.wf_clear)
    | split
    | (with_reducible refine wf_of ?_)
    | assumption
    | (with_reducible apply inv_of; dsimp only)
    | dsimp only
    | exact State.reset_keeps

theorem withPair_inv (s : State) (rs1 : XReg) (rs2 : XReg) (reads : List XReg) (writes : List XReg) (k : State → W64 → W64 → Out) (h_s : Inv s) (h_k : ∀ v0 v1 v2, Inv v0 → Keeps (k v0 v1 v2)) :
    Keeps (withPair s rs1 rs2 reads writes k) := by
  unfold withPair
  try dsimp only
  repeat' first
    | (with_reducible first | assumption | apply illegal_inv | apply hartRun_inv | apply h_k | apply keeps_next | apply inv_foldl | apply inv_foldl_fst)
    | with_reducible intro _
    | (with_reducible first | apply Memory.wf_writeBytes | apply Memory.wf_writeCells | apply Memory.wf_write | apply Memory.wf_clear)
    | split
    | (with_reducible refine wf_of ?_)
    | assumption
    | (with_reducible apply inv_of; dsimp only)
    | dsimp only
    | exact State.reset_keeps

theorem execZLdqt_inv (q : BitVec 2) (rs1 : XReg) (rs2 : XReg) (s : State) (h_s : Inv s) :
    Keeps (execZLdqt q rs1 rs2 s) := by
  unfold execZLdqt
  try dsimp only
  repeat' first
    | (with_reducible first | assumption | apply withPair_inv | apply queueLoad_inv | apply keeps_next | apply inv_foldl | apply inv_foldl_fst)
    | with_reducible intro _
    | (with_reducible first | apply Memory.wf_writeBytes | apply Memory.wf_writeCells | apply Memory.wf_write | apply Memory.wf_clear)
    | split
    | (with_reducible refine wf_of ?_)
    | assumption
    | (with_reducible apply inv_of; dsimp only)
    | dsimp only
    | exact State.reset_keeps

theorem execZLdqtNf_inv (q : BitVec 2) (rs1 : XReg) (rs2 : XReg) (s : State) (h_s : Inv s) :
    Keeps (execZLdqtNf q rs1 rs2 s) := by
  unfold execZLdqtNf
  try dsimp only
  repeat' first
    | (with_reducible first | assumption | apply withPair_inv | apply queueLoad_inv | apply keeps_next | apply inv_foldl | apply inv_foldl_fst)
    | with_reducible intro _
    | (with_reducible first | apply Memory.wf_writeBytes | apply Memory.wf_writeCells | apply Memory.wf_write | apply Memory.wf_clear)
    | split
    | (with_reducible refine wf_of ?_)
    | assumption
    | (with_reducible apply inv_of; dsimp only)
    | dsimp only
    | exact State.reset_keeps

theorem State.putElems_inv (s : State) (n : Nat) (data : Nat → List Byte) (l : List LaneAccess) (h_s : Inv s) :
    Inv (s.putElems n data l) := by
  induction l generalizing s with
  | nil => exact h_s
  | cons x l ih =>
    unfold State.putElems
    split
    · exact ih _ (State.hartPut_inv _ _ _ _ _ h_s)
    · exact ih _ h_s

theorem State.storeFate_inv (s : State) (n : Nat) (l : List LaneAccess) (h_s : Inv s) :
    ∀ o, s.storeFate n l = some o → Keeps o := by
  intro o e
  obtain ⟨x, -, hx⟩ := List.exists_of_findSome?_eq_some e
  split at hx
  · rename_i e'
    cases hx
    exact keeps_next (HartHit.inv_fault e' (State.hartReach_inv _ _ _ _ _ _ h_s))
  · cases hx

theorem State.storeFate_eq {s : State} {n : Nat} {l : List LaneAccess} {u : Out} (e : State.storeFate s n l = some u) (h_s : Inv s) : Keeps u := State.storeFate_inv s n l h_s _ e

theorem queueStore_inv (s : State) (n : Nat) (size : Nat) (e : StqEntry) (addr : Nat → Option W64) (h_s : Inv s) :
    Keeps (queueStore s n size e addr) := by
  unfold queueStore
  try dsimp only
  repeat' first
    | (with_reducible first | assumption | apply State.setGrp_inv | apply State.sendPosts_inv | apply hartWaits_inv | apply State.putElems_inv)
    | refine State.sendPosts_eq (by with_reducible assumption) ?_
    | refine State.storeFate_eq (by with_reducible assumption) ?_
    | (with_reducible first | apply keeps_next | apply inv_foldl | apply inv_foldl_fst)
    | with_reducible intro _
    | (with_reducible first | apply Memory.wf_writeBytes | apply Memory.wf_writeCells | apply Memory.wf_write | apply Memory.wf_clear)
    | split
    | (with_reducible refine wf_of ?_)
    | assumption
    | (with_reducible apply inv_of; dsimp only)
    | dsimp only
    | exact State.reset_keeps

theorem withStq_inv (s : State) (k : StqEntry → Out) (h_s : Inv s) (h_k : ∀ v0, Keeps (k v0)) :
    Keeps (withStq s k) := by
  unfold withStq
  try dsimp only
  repeat' first
    | (with_reducible first | assumption | apply hartWaits_inv | apply h_k | apply keeps_next | apply inv_foldl | apply inv_foldl_fst)
    | with_reducible intro _
    | (with_reducible first | apply Memory.wf_writeBytes | apply Memory.wf_writeCells | apply Memory.wf_write | apply Memory.wf_clear)
    | split
    | (with_reducible refine wf_of ?_)
    | assumption
    | (with_reducible apply inv_of; dsimp only)
    | dsimp only
    | exact State.reset_keeps

theorem execZStq_inv (t : StqTy) (rs1 : XReg) (rs2 : XReg) (s : State) (h_s : Inv s) :
    Keeps (execZStq t rs1 rs2 s) := by
  unfold execZStq
  try dsimp only
  repeat' first
    | (with_reducible first | assumption | apply hartRun_inv | apply withStq_inv | apply queueStore_inv | apply keeps_next | apply inv_foldl | apply inv_foldl_fst)
    | with_reducible intro _
    | (with_reducible first | apply Memory.wf_writeBytes | apply Memory.wf_writeCells | apply Memory.wf_write | apply Memory.wf_clear)
    | split
    | (with_reducible refine wf_of ?_)
    | assumption
    | (with_reducible apply inv_of; dsimp only)
    | dsimp only
    | exact State.reset_keeps

theorem execZStqt_inv (rs1 : XReg) (rs2 : XReg) (s : State) (h_s : Inv s) :
    Keeps (execZStqt rs1 rs2 s) := by
  unfold execZStqt
  try dsimp only
  repeat' first
    | (with_reducible first | assumption | apply withPair_inv | apply withStq_inv | apply State.readRecord_inv | apply hartWaits_inv | apply State.hartFault_inv | apply raise_inv | apply queueStore_inv | apply RecRead.keeps_ok)
    | refine RecRead.inv_ok (by with_reducible assumption) ?_
    | exact trivial
    | (with_reducible first | apply keeps_next | apply inv_foldl | apply inv_foldl_fst)
    | with_reducible intro _
    | (with_reducible first | apply Memory.wf_writeBytes | apply Memory.wf_writeCells | apply Memory.wf_write | apply Memory.wf_clear)
    | split
    | (with_reducible refine wf_of ?_)
    | assumption
    | (with_reducible apply inv_of; dsimp only)
    | dsimp only
    | exact State.reset_keeps

theorem execZScq_inv (rs1 : XReg) (s : State) (h_s : Inv s) :
    Keeps (execZScq rs1 s) := by
  unfold execZScq
  try dsimp only
  repeat' first
    | (with_reducible first | assumption | apply hartRun_inv | apply hartWaits_inv | apply State.setGrp_inv | apply keeps_next | apply inv_foldl | apply inv_foldl_fst)
    | with_reducible intro _
    | (with_reducible first | apply Memory.wf_writeBytes | apply Memory.wf_writeCells | apply Memory.wf_write | apply Memory.wf_clear)
    | split
    | (with_reducible refine wf_of ?_)
    | assumption
    | (with_reducible apply inv_of; dsimp only)
    | dsimp only
    | exact State.reset_keeps

theorem execZCtok_inv (rs1 : XReg) (s : State) (h_s : Inv s) :
    Keeps (execZCtok rs1 s) := by
  unfold execZCtok
  try dsimp only
  repeat' first
    | (with_reducible first | assumption | apply hartRun_inv | apply hartWaits_inv | apply State.setGrp_inv | apply keeps_next | apply inv_foldl | apply inv_foldl_fst)
    | with_reducible intro _
    | (with_reducible first | apply Memory.wf_writeBytes | apply Memory.wf_writeCells | apply Memory.wf_write | apply Memory.wf_clear)
    | split
    | (with_reducible refine wf_of ?_)
    | assumption
    | (with_reducible apply inv_of; dsimp only)
    | dsimp only
    | exact State.reset_keeps

theorem execZFbpop_inv (rd : XReg) (s : State) (h_s : Inv s) :
    Keeps (execZFbpop rd s) := by
  unfold execZFbpop
  try dsimp only
  repeat' first
    | (with_reducible first | assumption | apply hartRun_inv | apply hartWaits_inv | apply State.setGrp_inv | apply keeps_next | apply inv_foldl | apply inv_foldl_fst)
    | with_reducible intro _
    | (with_reducible first | apply Memory.wf_writeBytes | apply Memory.wf_writeCells | apply Memory.wf_write | apply Memory.wf_clear)
    | split
    | (with_reducible refine wf_of ?_)
    | assumption
    | (with_reducible apply inv_of; dsimp only)
    | dsimp only
    | exact State.reset_keeps

theorem execZBfb_inv (rs1 : XReg) (off : BitVec 13) (s : State) (h_s : Inv s) :
    Keeps (execZBfb rs1 off s) := by
  unfold execZBfb
  try dsimp only
  repeat' first
    | (with_reducible first | assumption | apply hartRun_inv | apply raise_inv | apply hartWaits_inv | apply State.setGrp_inv | apply keeps_next | apply inv_foldl | apply inv_foldl_fst)
    | with_reducible intro _
    | (with_reducible first | apply Memory.wf_writeBytes | apply Memory.wf_writeCells | apply Memory.wf_write | apply Memory.wf_clear)
    | split
    | (with_reducible refine wf_of ?_)
    | assumption
    | (with_reducible apply inv_of; dsimp only)
    | dsimp only
    | exact State.reset_keeps

theorem execZJoin_inv (s : State) (h_s : Inv s) :
    Keeps (execZJoin s) := by
  unfold execZJoin
  try dsimp only
  repeat' first
    | (with_reducible first | assumption | apply hartWaits_inv | apply State.writeBackOwn_inv | apply State.setGrp_inv | apply Release.keeps_wait)
    | refine Release.inv_wait (by with_reducible assumption) ?_
    | with_reducible apply Release.keeps_fault
    | refine Release.inv_fault (by with_reducible assumption) ?_
    | with_reducible apply Release.keeps_ok
    | refine Release.inv_ok (by with_reducible assumption) ?_
    | exact trivial
    | (with_reducible first | apply keeps_next | apply inv_foldl | apply inv_foldl_fst)
    | with_reducible intro _
    | (with_reducible first | apply Memory.wf_writeBytes | apply Memory.wf_writeCells | apply Memory.wf_write | apply Memory.wf_clear)
    | split
    | (with_reducible refine wf_of ?_)
    | assumption
    | (with_reducible apply inv_of; dsimp only)
    | dsimp only
    | exact State.reset_keeps

theorem execZQdrop_inv (q : BitVec 2) (n : BitVec 4) (s : State) (h_s : Inv s) :
    Keeps (execZQdrop q n s) := by
  unfold execZQdrop
  try dsimp only
  repeat' first
    | (with_reducible first | assumption | apply hartWaits_inv | apply State.setGrp_inv | apply keeps_next | apply inv_foldl | apply inv_foldl_fst)
    | with_reducible intro _
    | (with_reducible first | apply Memory.wf_writeBytes | apply Memory.wf_writeCells | apply Memory.wf_write | apply Memory.wf_clear)
    | split
    | (with_reducible refine wf_of ?_)
    | assumption
    | (with_reducible apply inv_of; dsimp only)
    | dsimp only
    | exact State.reset_keeps

theorem execZTadr_inv (rd : XReg) (rs1 : XReg) (rs2 : XReg) (s : State) (h_s : Inv s) :
    Keeps (execZTadr rd rs1 rs2 s) := by
  unfold execZTadr
  try dsimp only
  repeat' first
    | (with_reducible first | assumption | apply withPair_inv | apply State.readRecord_inv | apply hartWaits_inv | apply State.hartFault_inv | apply State.hartDone_inv | apply RecRead.keeps_ok)
    | refine RecRead.inv_ok (by with_reducible assumption) ?_
    | exact trivial
    | (with_reducible first | apply keeps_next | apply inv_foldl | apply inv_foldl_fst)
    | with_reducible intro _
    | (with_reducible first | apply Memory.wf_writeBytes | apply Memory.wf_writeCells | apply Memory.wf_write | apply Memory.wf_clear)
    | split
    | (with_reducible refine wf_of ?_)
    | assumption
    | (with_reducible apply inv_of; dsimp only)
    | dsimp only
    | exact State.reset_keeps

theorem execZTadv_inv (rd : XReg) (rs1 : XReg) (rs2 : XReg) (s : State) (h_s : Inv s) :
    Keeps (execZTadv rd rs1 rs2 s) := by
  unfold execZTadv
  try dsimp only
  repeat' first
    | (with_reducible first | assumption | apply hartRun_inv | apply State.hartDone_inv | apply keeps_next | apply inv_foldl | apply inv_foldl_fst)
    | with_reducible intro _
    | (with_reducible first | apply Memory.wf_writeBytes | apply Memory.wf_writeCells | apply Memory.wf_write | apply Memory.wf_clear)
    | split
    | (with_reducible refine wf_of ?_)
    | assumption
    | (with_reducible apply inv_of; dsimp only)
    | dsimp only
    | exact State.reset_keeps

theorem State.issueCopy_inv (s : State) (kind : Nat) (ch : Nat) (rd : XReg) (rec_ : List Byte) (c01 : W64) (c234 : W64) (off : Nat) (h_s : Inv s) :
    Inv (State.issueCopy s kind ch rd rec_ c01 c234 off) := by
  unfold State.issueCopy
  try dsimp only
  repeat' first
    | (with_reducible first | assumption | apply State.setCore_inv | apply State.setGrp_inv | apply keeps_next | apply inv_foldl | apply inv_foldl_fst)
    | with_reducible intro _
    | (with_reducible first | apply Memory.wf_writeBytes | apply Memory.wf_writeCells | apply Memory.wf_write | apply Memory.wf_clear)
    | split
    | (with_reducible refine wf_of ?_)
    | assumption
    | (with_reducible apply inv_of; dsimp only)
    | dsimp only
    | exact State.reset_keeps

theorem copyInstr_inv (s : State) (kind : Nat) (ch : Nat) (rd : XReg) (rs1 : XReg) (rs2 : XReg) (h_s : Inv s) :
    Keeps (copyInstr s kind ch rd rs1 rs2) := by
  unfold copyInstr
  try dsimp only
  repeat' first
    | (with_reducible first | assumption | apply illegal_inv | apply withPair_inv | apply State.readRecord_inv | apply State.readBytes_inv | apply hartWaits_inv | apply State.hartFault_inv | apply raise_inv | apply afterRelease_inv | apply State.issueCopy_inv | apply State.setGrp_inv | apply RecRead.keeps_ok)
    | refine RecRead.inv_ok (by with_reducible assumption) ?_
    | with_reducible apply ByteRead.keeps_ok
    | refine ByteRead.inv_ok (by with_reducible assumption) ?_
    | exact trivial
    | (with_reducible first | apply keeps_next | apply inv_foldl | apply inv_foldl_fst)
    | with_reducible intro _
    | (with_reducible first | apply Memory.wf_writeBytes | apply Memory.wf_writeCells | apply Memory.wf_write | apply Memory.wf_clear)
    | split
    | (with_reducible refine wf_of ?_)
    | assumption
    | (with_reducible apply inv_of; dsimp only)
    | dsimp only
    | exact State.reset_keeps

theorem execZCpyin_inv (ch : BitVec 3) (rd : XReg) (rs1 : XReg) (rs2 : XReg) (s : State) (h_s : Inv s) :
    Keeps (execZCpyin ch rd rs1 rs2 s) := by
  unfold execZCpyin
  try dsimp only
  repeat' first
    | (with_reducible first | assumption | apply copyInstr_inv | apply keeps_next | apply inv_foldl | apply inv_foldl_fst)
    | with_reducible intro _
    | (with_reducible first | apply Memory.wf_writeBytes | apply Memory.wf_writeCells | apply Memory.wf_write | apply Memory.wf_clear)
    | split
    | (with_reducible refine wf_of ?_)
    | assumption
    | (with_reducible apply inv_of; dsimp only)
    | dsimp only
    | exact State.reset_keeps

theorem execZCpyout_inv (ch : BitVec 3) (rd : XReg) (rs1 : XReg) (rs2 : XReg) (s : State) (h_s : Inv s) :
    Keeps (execZCpyout ch rd rs1 rs2 s) := by
  unfold execZCpyout
  try dsimp only
  repeat' first
    | (with_reducible first | assumption | apply copyInstr_inv | apply keeps_next | apply inv_foldl | apply inv_foldl_fst)
    | with_reducible intro _
    | (with_reducible first | apply Memory.wf_writeBytes | apply Memory.wf_writeCells | apply Memory.wf_write | apply Memory.wf_clear)
    | split
    | (with_reducible refine wf_of ?_)
    | assumption
    | (with_reducible apply inv_of; dsimp only)
    | dsimp only
    | exact State.reset_keeps

theorem execZCpyx_inv (ch : BitVec 3) (rd : XReg) (rs1 : XReg) (rs2 : XReg) (s : State) (h_s : Inv s) :
    Keeps (execZCpyx ch rd rs1 rs2 s) := by
  unfold execZCpyx
  try dsimp only
  repeat' first
    | (with_reducible first | assumption | apply copyInstr_inv | apply keeps_next | apply inv_foldl | apply inv_foldl_fst)
    | with_reducible intro _
    | (with_reducible first | apply Memory.wf_writeBytes | apply Memory.wf_writeCells | apply Memory.wf_write | apply Memory.wf_clear)
    | split
    | (with_reducible refine wf_of ?_)
    | assumption
    | (with_reducible apply inv_of; dsimp only)
    | dsimp only
    | exact State.reset_keeps

theorem execZCpywb_inv (ch : BitVec 3) (rd : XReg) (rs1 : XReg) (rs2 : XReg) (s : State) (h_s : Inv s) :
    Keeps (execZCpywb ch rd rs1 rs2 s) := by
  unfold execZCpywb
  try dsimp only
  repeat' first
    | (with_reducible first | assumption | apply copyInstr_inv | apply keeps_next | apply inv_foldl | apply inv_foldl_fst)
    | with_reducible intro _
    | (with_reducible first | apply Memory.wf_writeBytes | apply Memory.wf_writeCells | apply Memory.wf_write | apply Memory.wf_clear)
    | split
    | (with_reducible refine wf_of ?_)
    | assumption
    | (with_reducible apply inv_of; dsimp only)
    | dsimp only
    | exact State.reset_keeps

theorem execZCpywait_inv (ch : BitVec 3) (rd : XReg) (rs1 : XReg) (s : State) (h_s : Inv s) :
    Keeps (execZCpywait ch rd rs1 s) := by
  unfold execZCpywait
  try dsimp only
  repeat' first
    | (with_reducible first | assumption | apply hartRun_inv | apply State.hartDone_inv | apply State.hartAcquire_inv | apply hartWaits_inv | apply keeps_next | apply inv_foldl | apply inv_foldl_fst)
    | with_reducible intro _
    | (with_reducible first | apply Memory.wf_writeBytes | apply Memory.wf_writeCells | apply Memory.wf_write | apply Memory.wf_clear)
    | split
    | (with_reducible refine wf_of ?_)
    | assumption
    | (with_reducible apply inv_of; dsimp only)
    | dsimp only
    | exact State.reset_keeps

theorem withMailbox_inv (s : State) (a : W64) (load : Bool) (posted : Bool) (k : W64 → Nat → Out) (h_s : Inv s) (h_k : ∀ v0 v1, Keeps (k v0 v1)) :
    Keeps (withMailbox s a load posted k) := by
  unfold withMailbox
  try dsimp only
  repeat' first
    | (with_reducible first | assumption | apply raise_inv | apply State.hartXlate_inv | apply h_k | apply keeps_next | apply inv_foldl | apply inv_foldl_fst)
    | with_reducible intro _
    | (with_reducible first | apply Memory.wf_writeBytes | apply Memory.wf_writeCells | apply Memory.wf_write | apply Memory.wf_clear)
    | split
    | (with_reducible refine wf_of ?_)
    | assumption
    | (with_reducible apply inv_of; dsimp only)
    | dsimp only
    | exact State.reset_keeps

theorem execZMbadd_inv (rs1 : XReg) (rs2 : XReg) (s : State) (h_s : Inv s) :
    Keeps (execZMbadd rs1 rs2 s) := by
  unfold execZMbadd
  try dsimp only
  repeat' first
    | (with_reducible first | assumption | apply hartRun_inv | apply withMailbox_inv | apply afterRelease_inv | apply hartWaits_inv | apply State.setCounter_inv | apply State.setGrp_inv | apply State.post_inv | apply keeps_next | apply inv_foldl | apply inv_foldl_fst)
    | with_reducible intro _
    | (with_reducible first | apply Memory.wf_writeBytes | apply Memory.wf_writeCells | apply Memory.wf_write | apply Memory.wf_clear)
    | split
    | (with_reducible refine wf_of ?_)
    | assumption
    | (with_reducible apply inv_of; dsimp only)
    | dsimp only
    | exact State.reset_keeps

theorem execZMbwait_inv (rd : XReg) (rs1 : XReg) (rs2 : XReg) (s : State) (h_s : Inv s) :
    Keeps (execZMbwait rd rs1 rs2 s) := by
  unfold execZMbwait
  try dsimp only
  repeat' first
    | (with_reducible first | assumption | apply hartRun_inv | apply withMailbox_inv | apply State.hartDone_inv | apply State.hartAcquire_inv | apply hartWaits_inv | apply keeps_next | apply inv_foldl | apply inv_foldl_fst)
    | with_reducible intro _
    | (with_reducible first | apply Memory.wf_writeBytes | apply Memory.wf_writeCells | apply Memory.wf_write | apply Memory.wf_clear)
    | split
    | (with_reducible refine wf_of ?_)
    | assumption
    | (with_reducible apply inv_of; dsimp only)
    | dsimp only
    | exact State.reset_keeps

theorem State.ask_inv (s : State) (r : HartReq) (h_s : Inv s) :
    Inv (State.ask s r) := by
  unfold State.ask
  try dsimp only
  repeat' first
    | (with_reducible first | assumption | apply State.setGrp_inv | apply keeps_next | apply inv_foldl | apply inv_foldl_fst)
    | with_reducible intro _
    | (with_reducible first | apply Memory.wf_writeBytes | apply Memory.wf_writeCells | apply Memory.wf_write | apply Memory.wf_clear)
    | split
    | (with_reducible refine wf_of ?_)
    | assumption
    | (with_reducible apply inv_of; dsimp only)
    | dsimp only
    | exact State.reset_keeps

theorem execZMbrd_inv (rd : XReg) (rs1 : XReg) (s : State) (h_s : Inv s) :
    Keeps (execZMbrd rd rs1 s) := by
  unfold execZMbrd
  try dsimp only
  repeat' first
    | (with_reducible first | assumption | apply hartRun_inv | apply withMailbox_inv | apply State.ask_inv | apply hartWaits_inv | apply State.hartDone_inv | apply keeps_next | apply inv_foldl | apply inv_foldl_fst)
    | with_reducible intro _
    | (with_reducible first | apply Memory.wf_writeBytes | apply Memory.wf_writeCells | apply Memory.wf_write | apply Memory.wf_clear)
    | split
    | (with_reducible refine wf_of ?_)
    | assumption
    | (with_reducible apply inv_of; dsimp only)
    | dsimp only
    | exact State.reset_keeps

theorem execZMbset_inv (rs1 : XReg) (rs2 : XReg) (s : State) (h_s : Inv s) :
    Keeps (execZMbset rs1 rs2 s) := by
  unfold execZMbset
  try dsimp only
  repeat' first
    | (with_reducible first | assumption | apply hartRun_inv | apply withMailbox_inv | apply State.ask_inv | apply hartWaits_inv | apply State.setCounter_inv | apply State.setGrp_inv | apply keeps_next | apply inv_foldl | apply inv_foldl_fst)
    | with_reducible intro _
    | (with_reducible first | apply Memory.wf_writeBytes | apply Memory.wf_writeCells | apply Memory.wf_write | apply Memory.wf_clear)
    | split
    | (with_reducible refine wf_of ?_)
    | assumption
    | (with_reducible apply inv_of; dsimp only)
    | dsimp only
    | exact State.reset_keeps

theorem State.setRing_inv (s : State) (core : Nat) (r : Nat) (v : Ring) (h_s : Inv s) :
    Inv (State.setRing s core r v) := by
  unfold State.setRing
  try dsimp only
  repeat' first
    | (with_reducible first | assumption | apply State.setCoreAt_inv | apply keeps_next | apply inv_foldl | apply inv_foldl_fst)
    | with_reducible intro _
    | (with_reducible first | apply Memory.wf_writeBytes | apply Memory.wf_writeCells | apply Memory.wf_write | apply Memory.wf_clear)
    | split
    | (with_reducible refine wf_of ?_)
    | assumption
    | (with_reducible apply inv_of; dsimp only)
    | dsimp only
    | exact State.reset_keeps

theorem execZSend_inv (rd : XReg) (rs1 : XReg) (rs2 : XReg) (s : State) (h_s : Inv s) :
    Keeps (execZSend rd rs1 rs2 s) := by
  unfold execZSend
  try dsimp only
  repeat' first
    | (with_reducible first | assumption | apply hartRun_inv | apply raise_inv | apply State.hartXlate_inv | apply afterRelease_inv | apply State.ask_inv | apply keeps_next | apply inv_foldl | apply inv_foldl_fst)
    | with_reducible intro _
    | (with_reducible first | apply Memory.wf_writeBytes | apply Memory.wf_writeCells | apply Memory.wf_write | apply Memory.wf_clear)
    | split
    | (with_reducible refine wf_of ?_)
    | assumption
    | (with_reducible apply inv_of; dsimp only)
    | dsimp only
    | exact State.reset_keeps

theorem withRing_inv (s : State) (v : W64) (cause : Nat) (k : Ring → Out) (h_s : Inv s) (h_k : ∀ v0, Keeps (k v0)) :
    Keeps (withRing s v cause k) := by
  unfold withRing
  try dsimp only
  repeat' first
    | (with_reducible first | assumption | apply raise_inv | apply h_k | apply keeps_next | apply inv_foldl | apply inv_foldl_fst)
    | with_reducible intro _
    | (with_reducible first | apply Memory.wf_writeBytes | apply Memory.wf_writeCells | apply Memory.wf_write | apply Memory.wf_clear)
    | split
    | (with_reducible refine wf_of ?_)
    | assumption
    | (with_reducible apply inv_of; dsimp only)
    | dsimp only
    | exact State.reset_keeps

theorem execZRecv_inv (rd : XReg) (rs1 : XReg) (s : State) (h_s : Inv s) :
    Keeps (execZRecv rd rs1 s) := by
  unfold execZRecv
  try dsimp only
  repeat' first
    | (with_reducible first | assumption | apply hartRun_inv | apply withRing_inv | apply hartWaits_inv | apply State.hartDone_inv | apply State.hartAcquire_inv | apply keeps_next | apply inv_foldl | apply inv_foldl_fst)
    | with_reducible intro _
    | (with_reducible first | apply Memory.wf_writeBytes | apply Memory.wf_writeCells | apply Memory.wf_write | apply Memory.wf_clear)
    | split
    | (with_reducible refine wf_of ?_)
    | assumption
    | (with_reducible apply inv_of; dsimp only)
    | dsimp only
    | exact State.reset_keeps

theorem execZRdone_inv (rs1 : XReg) (s : State) (h_s : Inv s) :
    Keeps (execZRdone rs1 s) := by
  unfold execZRdone
  try dsimp only
  repeat' first
    | (with_reducible first | assumption | apply hartRun_inv | apply withRing_inv | apply raise_inv | apply afterRelease_inv | apply State.setRing_inv | apply State.setGrp_inv | apply keeps_next | apply inv_foldl | apply inv_foldl_fst)
    | with_reducible intro _
    | (with_reducible first | apply Memory.wf_writeBytes | apply Memory.wf_writeCells | apply Memory.wf_write | apply Memory.wf_clear)
    | split
    | (with_reducible refine wf_of ?_)
    | assumption
    | (with_reducible apply inv_of; dsimp only)
    | dsimp only
    | exact State.reset_keeps

theorem hartBarWait_inv (s : State) (bar : Nat) (w : HartWait) (h_s : Inv s) :
    Keeps (hartBarWait s bar w) := by
  unfold hartBarWait
  try dsimp only
  repeat' first
    | (with_reducible first | assumption | apply hartWaits_inv | apply State.hartAcquire_inv | apply State.setGrp_inv | apply keeps_next | apply inv_foldl | apply inv_foldl_fst)
    | with_reducible intro _
    | (with_reducible first | apply Memory.wf_writeBytes | apply Memory.wf_writeCells | apply Memory.wf_write | apply Memory.wf_clear)
    | split
    | (with_reducible refine wf_of ?_)
    | assumption
    | (with_reducible apply inv_of; dsimp only)
    | dsimp only
    | exact State.reset_keeps

theorem hartBarArrive_inv (s : State) (bar : Nat) (w : HartWait) (k : State → Out) (h_s : Inv s) (h_k : ∀ v0, Inv v0 → Keeps (k v0)) :
    Keeps (hartBarArrive s bar w k) := by
  unfold hartBarArrive
  try dsimp only
  repeat' first
    | (with_reducible first | assumption | apply hartWaits_inv | apply afterRelease_inv | apply State.arrive_inv | apply h_k | apply keeps_next | apply inv_foldl | apply inv_foldl_fst)
    | with_reducible intro _
    | (with_reducible first | apply Memory.wf_writeBytes | apply Memory.wf_writeCells | apply Memory.wf_write | apply Memory.wf_clear)
    | split
    | (with_reducible refine wf_of ?_)
    | assumption
    | (with_reducible apply inv_of; dsimp only)
    | dsimp only
    | exact State.reset_keeps

theorem execZBbar_inv (s : State) (h_s : Inv s) :
    Keeps (execZBbar s) := by
  unfold execZBbar
  try dsimp only
  repeat' first
    | (with_reducible first | assumption | apply hartBarWait_inv | apply hartBarArrive_inv | apply State.setGrp_inv | apply keeps_next | apply inv_foldl | apply inv_foldl_fst)
    | with_reducible intro _
    | (with_reducible first | apply Memory.wf_writeBytes | apply Memory.wf_writeCells | apply Memory.wf_write | apply Memory.wf_clear)
    | split
    | (with_reducible refine wf_of ?_)
    | assumption
    | (with_reducible apply inv_of; dsimp only)
    | dsimp only
    | exact State.reset_keeps

theorem execZBbarArv_inv (s : State) (h_s : Inv s) :
    Keeps (execZBbarArv s) := by
  unfold execZBbarArv
  try dsimp only
  repeat' first
    | (with_reducible first | assumption | apply hartBarArrive_inv | apply State.setGrp_inv | apply keeps_next | apply inv_foldl | apply inv_foldl_fst)
    | with_reducible intro _
    | (with_reducible first | apply Memory.wf_writeBytes | apply Memory.wf_writeCells | apply Memory.wf_write | apply Memory.wf_clear)
    | split
    | (with_reducible refine wf_of ?_)
    | assumption
    | (with_reducible apply inv_of; dsimp only)
    | dsimp only
    | exact State.reset_keeps

theorem execZBbarWt_inv (s : State) (h_s : Inv s) :
    Keeps (execZBbarWt s) := by
  unfold execZBbarWt
  try dsimp only
  repeat' first
    | (with_reducible first | assumption | apply hartBarWait_inv | apply keeps_next | apply inv_foldl | apply inv_foldl_fst)
    | with_reducible intro _
    | (with_reducible first | apply Memory.wf_writeBytes | apply Memory.wf_writeCells | apply Memory.wf_write | apply Memory.wf_clear)
    | split
    | (with_reducible refine wf_of ?_)
    | assumption
    | (with_reducible apply inv_of; dsimp only)
    | dsimp only
    | exact State.reset_keeps

theorem execZCbarArv_inv (s : State) (h_s : Inv s) :
    Keeps (execZCbarArv s) := by
  unfold execZCbarArv
  try dsimp only
  repeat' first
    | (with_reducible first | assumption | apply hartBarArrive_inv | apply State.setGrp_inv | apply keeps_next | apply inv_foldl | apply inv_foldl_fst)
    | with_reducible intro _
    | (with_reducible first | apply Memory.wf_writeBytes | apply Memory.wf_writeCells | apply Memory.wf_write | apply Memory.wf_clear)
    | split
    | (with_reducible refine wf_of ?_)
    | assumption
    | (with_reducible apply inv_of; dsimp only)
    | dsimp only
    | exact State.reset_keeps

theorem execZCbarWt_inv (s : State) (h_s : Inv s) :
    Keeps (execZCbarWt s) := by
  unfold execZCbarWt
  try dsimp only
  repeat' first
    | (with_reducible first | assumption | apply hartBarWait_inv | apply keeps_next | apply inv_foldl | apply inv_foldl_fst)
    | with_reducible intro _
    | (with_reducible first | apply Memory.wf_writeBytes | apply Memory.wf_writeCells | apply Memory.wf_write | apply Memory.wf_clear)
    | split
    | (with_reducible refine wf_of ?_)
    | assumption
    | (with_reducible apply inv_of; dsimp only)
    | dsimp only
    | exact State.reset_keeps

theorem State.setRed_inv (s : State) (core : Nat) (k : Nat) (v : RedNode) (h_s : Inv s) :
    Inv (State.setRed s core k v) := by
  unfold State.setRed
  try dsimp only
  repeat' first
    | (with_reducible first | assumption | apply State.setCoreAt_inv | apply keeps_next | apply inv_foldl | apply inv_foldl_fst)
    | with_reducible intro _
    | (with_reducible first | apply Memory.wf_writeBytes | apply Memory.wf_writeCells | apply Memory.wf_write | apply Memory.wf_clear)
    | split
    | (with_reducible refine wf_of ?_)
    | assumption
    | (with_reducible apply inv_of; dsimp only)
    | dsimp only
    | exact State.reset_keeps

theorem execRsend_inv (a : Code) (ch : BitVec 4) (s : State) (h_s : Inv s) :
    Keeps (execRsend a ch s) := by
  unfold execRsend
  try dsimp only
  repeat' first
    | (with_reducible first | assumption | apply laneRun_inv | apply State.setRed_inv | apply Check.keeps_stop)
    | refine Check.inv_stop (by with_reducible assumption) ?_
    | exact trivial
    | (with_reducible first | apply keeps_next | apply inv_foldl | apply inv_foldl_fst)
    | with_reducible intro _
    | (with_reducible first | apply Memory.wf_writeBytes | apply Memory.wf_writeCells | apply Memory.wf_write | apply Memory.wf_clear)
    | split
    | (with_reducible refine wf_of ?_)
    | assumption
    | (with_reducible apply inv_of; dsimp only)
    | dsimp only
    | exact State.reset_keeps

theorem execRrecv_inv (d : Code) (ch : BitVec 4) (s : State) (h_s : Inv s) :
    Keeps (execRrecv d ch s) := by
  unfold execRrecv
  try dsimp only
  repeat' first
    | (with_reducible first | assumption | apply laneRun_inv | apply State.writeDest_inv | apply State.setRed_inv | apply Check.keeps_stop)
    | refine Check.inv_stop (by with_reducible assumption) ?_
    | exact trivial
    | (with_reducible first | apply keeps_next | apply inv_foldl | apply inv_foldl_fst)
    | with_reducible intro _
    | (with_reducible first | apply Memory.wf_writeBytes | apply Memory.wf_writeCells | apply Memory.wf_write | apply Memory.wf_clear)
    | split
    | (with_reducible refine wf_of ?_)
    | assumption
    | (with_reducible apply inv_of; dsimp only)
    | dsimp only
    | exact State.reset_keeps

theorem State.openRank_inv (s : State) (key : Nat) (home : Nat) (va : Option Nat) (base : W32) (count : W32) (h_s : Inv s) :
    Inv (State.openRank s key home va base count).1 := by
  unfold State.openRank
  try dsimp only
  repeat' first
    | (with_reducible first | assumption | apply keeps_next | apply inv_foldl | apply inv_foldl_fst)
    | with_reducible intro _
    | (with_reducible first | apply Memory.wf_writeBytes | apply Memory.wf_writeCells | apply Memory.wf_write | apply Memory.wf_clear)
    | split
    | (with_reducible refine wf_of ?_)
    | assumption
    | (with_reducible apply inv_of; dsimp only)
    | dsimp only
    | exact State.reset_keeps

theorem State.openRank_eq {s : State} {key : Nat} {home : Nat} {va : Option Nat} {base : W32} {count : W32} {u : State} {z_ : W64} (e : State.openRank s key home va base count = (u, z_)) (h_s : Inv s) : Inv u := by
  have q := State.openRank_inv s key home va base count h_s
  rw [e] at q; exact q

theorem State.applyRanks_inv (s : State) (key n : Nat) (h_s : Inv s) : Inv (s.applyRanks key n) := by
  induction n generalizing s with
  | zero => exact h_s
  | succ n ih =>
    unfold State.applyRanks
    split
    · exact h_s
    split
    · exact h_s
    dsimp only
    refine ih _ ?_
    exact State.writeAs_inv _ _ _ _ (State.flushHome_inv _ _ h_s)

theorem State.dueRanks_inv (s : State) (blk : Nat) (h_s : Inv s) :
    Inv (State.dueRanks s blk) := by
  unfold State.dueRanks
  try dsimp only
  repeat' first
    | (with_reducible first | assumption | apply State.applyRanks_inv | apply keeps_next | apply inv_foldl | apply inv_foldl_fst)
    | with_reducible intro _
    | (with_reducible first | apply Memory.wf_writeBytes | apply Memory.wf_writeCells | apply Memory.wf_write | apply Memory.wf_clear)
    | split
    | (with_reducible refine wf_of ?_)
    | assumption
    | (with_reducible apply inv_of; dsimp only)
    | dsimp only
    | exact State.reset_keeps

theorem execZRank_inv (rd : XReg) (rs1 : XReg) (rs2 : XReg) (s : State) (h_s : Inv s) :
    Keeps (execZRank rd rs1 rs2 s) := by
  unfold execZRank
  try dsimp only
  repeat' first
    | (with_reducible first | assumption | apply hartRun_inv | apply raise_inv | apply State.hartReach_inv | apply hartAccess_inv | apply State.openRank_inv | apply State.touchL1_inv | apply State.keepTlb?_inv | apply State.hartDone_inv)
    | refine State.openRank_eq (by with_reducible assumption) ?_
    | with_reducible apply HartHit.keeps_fault
    | refine HartHit.inv_fault (by with_reducible assumption) ?_
    | exact trivial
    | (with_reducible first | apply keeps_next | apply inv_foldl | apply inv_foldl_fst)
    | with_reducible intro _
    | (with_reducible first | apply Memory.wf_writeBytes | apply Memory.wf_writeCells | apply Memory.wf_write | apply Memory.wf_clear)
    | split
    | (with_reducible refine wf_of ?_)
    | assumption
    | (with_reducible apply inv_of; dsimp only)
    | dsimp only
    | exact State.reset_keeps

theorem execZTide_inv (rd : XReg) (s : State) (h_s : Inv s) :
    Keeps (execZTide rd s) := by
  unfold execZTide
  try dsimp only
  repeat' first
    | (with_reducible first | assumption | apply hartRun_inv | apply State.hartDone_inv | apply keeps_next | apply inv_foldl | apply inv_foldl_fst)
    | with_reducible intro _
    | (with_reducible first | apply Memory.wf_writeBytes | apply Memory.wf_writeCells | apply Memory.wf_write | apply Memory.wf_clear)
    | split
    | (with_reducible refine wf_of ?_)
    | assumption
    | (with_reducible apply inv_of; dsimp only)
    | dsimp only
    | exact State.reset_keeps

theorem execZTidewait_inv (rd : XReg) (rs1 : XReg) (s : State) (h_s : Inv s) :
    Keeps (execZTidewait rd rs1 s) := by
  unfold execZTidewait
  try dsimp only
  repeat' first
    | (with_reducible first | assumption | apply hartRun_inv | apply State.hartDone_inv | apply hartWaits_inv | apply keeps_next | apply inv_foldl | apply inv_foldl_fst)
    | with_reducible intro _
    | (with_reducible first | apply Memory.wf_writeBytes | apply Memory.wf_writeCells | apply Memory.wf_write | apply Memory.wf_clear)
    | split
    | (with_reducible refine wf_of ?_)
    | assumption
    | (with_reducible apply inv_of; dsimp only)
    | dsimp only
    | exact State.reset_keeps

theorem State.enqueue_inv (s : State) (l : Launch) (pooled : Bool) (h_s : Inv s) :
    Inv (State.enqueue s l pooled) := by
  unfold State.enqueue
  try dsimp only
  repeat' first
    | (with_reducible first | assumption | apply State.setPart_inv | apply keeps_next | apply inv_foldl | apply inv_foldl_fst)
    | with_reducible intro _
    | (with_reducible first | apply Memory.wf_writeBytes | apply Memory.wf_writeCells | apply Memory.wf_write | apply Memory.wf_clear)
    | split
    | (with_reducible refine wf_of ?_)
    | assumption
    | (with_reducible apply inv_of; dsimp only)
    | dsimp only
    | exact State.reset_keeps

theorem State.readWords_inv (s : State) (n : Nat) (a : W64) (h_s : Inv s) : (s.readWords n a).Keeps := by
  induction n generalizing s a with
  | zero => exact h_s
  | succ n ih =>
    unfold State.readWords
    have h1 := State.readBytes_inv s a 8 0 0 h_s
    split
    · rename_i l t e
      rw [e] at h1
      have h2 := ih t (a + 8) h1
      split
      · rename_i e'; rw [e'] at h2; exact h2
      · exact h2
    · exact h1

theorem execZLaunch_inv (rd : XReg) (rs1 : XReg) (s : State) (h_s : Inv s) :
    Keeps (execZLaunch rd rs1 s) := by
  unfold execZLaunch
  try dsimp only
  repeat' first
    | (with_reducible first | assumption | apply hartRun_inv | apply raise_inv | apply afterRelease_inv | apply State.readBytes_inv | apply hartWaits_inv | apply State.hartFault_inv | apply State.hartDone_inv | apply State.enqueue_inv | apply ByteRead.keeps_ok)
    | refine ByteRead.inv_ok (by with_reducible assumption) ?_
    | exact trivial
    | (with_reducible first | apply keeps_next | apply inv_foldl | apply inv_foldl_fst)
    | with_reducible intro _
    | (with_reducible first | apply Memory.wf_writeBytes | apply Memory.wf_writeCells | apply Memory.wf_write | apply Memory.wf_clear)
    | split
    | (with_reducible refine wf_of ?_)
    | assumption
    | (with_reducible apply inv_of; dsimp only)
    | dsimp only
    | exact State.reset_keeps

theorem execZJwait_inv (rd : XReg) (rs1 : XReg) (s : State) (h_s : Inv s) :
    Keeps (execZJwait rd rs1 s) := by
  unfold execZJwait
  try dsimp only
  repeat' first
    | (with_reducible first | assumption | apply hartRun_inv | apply raise_inv | apply State.readBytes_inv | apply hartWaits_inv | apply State.hartFault_inv | apply State.hartDone_inv | apply State.hartAcquire_inv | apply ByteRead.keeps_ok)
    | refine ByteRead.inv_ok (by with_reducible assumption) ?_
    | exact trivial
    | (with_reducible first | apply keeps_next | apply inv_foldl | apply inv_foldl_fst)
    | with_reducible intro _
    | (with_reducible first | apply Memory.wf_writeBytes | apply Memory.wf_writeCells | apply Memory.wf_write | apply Memory.wf_clear)
    | split
    | (with_reducible refine wf_of ?_)
    | assumption
    | (with_reducible apply inv_of; dsimp only)
    | dsimp only
    | exact State.reset_keeps

theorem execZExit_inv (rs1 : XReg) (s : State) (h_s : Inv s) :
    Keeps (execZExit rs1 s) := by
  unfold execZExit
  try dsimp only
  repeat' first
    | (with_reducible first | assumption | apply hartRun_inv | apply State.setGrp_inv | apply State.endGroup_inv | apply State.settleGroup_inv | apply keeps_next | apply inv_foldl | apply inv_foldl_fst)
    | with_reducible intro _
    | (with_reducible first | apply Memory.wf_writeBytes | apply Memory.wf_writeCells | apply Memory.wf_write | apply Memory.wf_clear)
    | split
    | (with_reducible refine wf_of ?_)
    | assumption
    | (with_reducible apply inv_of; dsimp only)
    | dsimp only
    | exact State.reset_keeps

theorem matrixRun_inv (s : State) (srcs : List Src) (ok : Group → Bool) (room : Bool) (pre : Option MxFault) (check : List LaneVec → Option MxFault) (wait : List LaneVec → Bool) (eff : List LaneVec → LaneMask → State → State) (h_s : Inv s) (h_eff : ∀ v0 v1 v2, Inv v2 → Inv (eff v0 v1 v2)) :
    Keeps (matrixRun s srcs ok room pre check wait eff) := by
  unfold matrixRun
  try dsimp only
  repeat' first
    | (with_reducible first | assumption | apply Check.fault_inv | apply laneRun_inv | apply Check.release_inv | apply h_eff | apply Check.keeps_stop)
    | refine Check.inv_stop (by with_reducible assumption) ?_
    | exact trivial
    | (with_reducible first | apply keeps_next | apply inv_foldl | apply inv_foldl_fst)
    | with_reducible intro _
    | (with_reducible first | apply Memory.wf_writeBytes | apply Memory.wf_writeCells | apply Memory.wf_write | apply Memory.wf_clear)
    | split
    | (with_reducible refine wf_of ?_)
    | assumption
    | (with_reducible apply inv_of; dsimp only)
    | dsimp only
    | exact State.reset_keeps

theorem State.accept_inv (s : State) (lookup : Bool) (rows : LaneMask) (w : MatWork) (hand : Nat) (flags : optParam (BitVec 4) 0) (h_s : Inv s) :
    Inv (State.accept s lookup rows w hand flags) := by
  unfold State.accept
  try dsimp only
  repeat' first
    | (with_reducible first | assumption | apply State.setGrp_inv | apply State.setCore_inv | apply keeps_next | apply inv_foldl | apply inv_foldl_fst)
    | with_reducible intro _
    | (with_reducible first | apply Memory.wf_writeBytes | apply Memory.wf_writeCells | apply Memory.wf_write | apply Memory.wf_clear)
    | split
    | (with_reducible refine wf_of ?_)
    | assumption
    | (with_reducible apply inv_of; dsimp only)
    | dsimp only
    | exact State.reset_keeps

theorem State.applyOp_inv (s : State) (o : MatOp) (l : List Nat) (h_s : Inv s) : Inv (s.applyOp o l).1 := by
  unfold State.applyOp
  exact inv_foldl_fst (fun p e hp => Memory.wf_writeBytes _ _ _ hp) h_s

theorem State.applyOp_eq {s : State} {o : MatOp} {l : List Nat} {u : State} {z_ : BitVec 4} (e : State.applyOp s o l = (u, z_)) (h_s : Inv s) : Inv u := by
  have q := State.applyOp_inv s o l h_s
  rw [e] at q; exact q

theorem State.applyOps_inv (s : State) (hit : Nat → Bool) (l : List MatOp) (h_s : Inv s) : Inv (s.applyOps hit l).1 := by
  induction l generalizing s with
  | nil => exact h_s
  | cons x l ih => exact ih _ (State.applyOp_inv _ _ _ h_s)

theorem State.applyOps_eq {s : State} {hit : Nat → Bool} {a : List MatOp} {u : State} {z_ : List MatOp} (e : State.applyOps s hit a = (u, z_)) (h_s : Inv s) : Inv u := by
  have q := State.applyOps_inv s hit a h_s
  rw [e] at q; exact q

theorem execMatrixCompletion_inv (s : State) (h_s : Inv s) :
    Keeps (execMatrixCompletion s) := by
  unfold execMatrixCompletion
  try dsimp only
  repeat' first
    | (with_reducible first | assumption | apply State.applyOps_inv | apply State.setCoreAt_inv | apply State.setFlags_inv)
    | refine State.applyOps_eq (by with_reducible assumption) ?_
    | (with_reducible first | apply keeps_next | apply inv_foldl | apply inv_foldl_fst)
    | with_reducible intro _
    | (with_reducible first | apply Memory.wf_writeBytes | apply Memory.wf_writeCells | apply Memory.wf_write | apply Memory.wf_clear)
    | split
    | (with_reducible refine wf_of ?_)
    | assumption
    | (with_reducible apply inv_of; dsimp only)
    | dsimp only
    | exact State.reset_keeps

theorem execMcfg_inv (a : Code) (s : State) (h_s : Inv s) :
    Keeps (execMcfg a s) := by
  unfold execMcfg
  try dsimp only
  repeat' first
    | (with_reducible first | assumption | apply laneRun_inv | apply State.setGrp_inv | apply State.countBlkErr_inv | apply Check.keeps_stop)
    | refine Check.inv_stop (by with_reducible assumption) ?_
    | exact trivial
    | (with_reducible first | apply keeps_next | apply inv_foldl | apply inv_foldl_fst)
    | with_reducible intro _
    | (with_reducible first | apply Memory.wf_writeBytes | apply Memory.wf_writeCells | apply Memory.wf_write | apply Memory.wf_clear)
    | split
    | (with_reducible refine wf_of ?_)
    | assumption
    | (with_reducible apply inv_of; dsimp only)
    | dsimp only
    | exact State.reset_keeps

theorem execMsc_inv (a : Code) (s : State) (h_s : Inv s) :
    Keeps (execMsc a s) := by
  unfold execMsc
  try dsimp only
  repeat' first
    | (with_reducible first | assumption | apply laneRun_inv | apply Check.fault_inv | apply State.setGrp_inv | apply Check.keeps_stop)
    | refine Check.inv_stop (by with_reducible assumption) ?_
    | exact trivial
    | (with_reducible first | apply keeps_next | apply inv_foldl | apply inv_foldl_fst)
    | with_reducible intro _
    | (with_reducible first | apply Memory.wf_writeBytes | apply Memory.wf_writeCells | apply Memory.wf_write | apply Memory.wf_clear)
    | split
    | (with_reducible refine wf_of ?_)
    | assumption
    | (with_reducible apply inv_of; dsimp only)
    | dsimp only
    | exact State.reset_keeps

theorem laneMma_inv (s : State) (sp : Bool) (scl : Bool) (asrc : Bool) (a : Code) (imm : Half) (h_s : Inv s) :
    Keeps (laneMma s sp scl asrc a imm) := by
  unfold laneMma
  try dsimp only
  repeat' first
    | (with_reducible first | assumption | apply matrixRun_inv | apply State.accept_inv | apply State.setGrp_inv | apply keeps_next | apply inv_foldl | apply inv_foldl_fst)
    | with_reducible intro _
    | (with_reducible first | apply Memory.wf_writeBytes | apply Memory.wf_writeCells | apply Memory.wf_write | apply Memory.wf_clear)
    | split
    | (with_reducible refine wf_of ?_)
    | assumption
    | (with_reducible apply inv_of; dsimp only)
    | dsimp only
    | exact State.reset_keeps

theorem execMma_inv (scl : Bool) (asrc : Bool) (a : Code) (pitch : Half) (s : State) (h_s : Inv s) :
    Keeps (execMma scl asrc a pitch s) := by
  unfold execMma
  try dsimp only
  repeat' first
    | (with_reducible first | assumption | apply laneMma_inv | apply keeps_next | apply inv_foldl | apply inv_foldl_fst)
    | with_reducible intro _
    | (with_reducible first | apply Memory.wf_writeBytes | apply Memory.wf_writeCells | apply Memory.wf_write | apply Memory.wf_clear)
    | split
    | (with_reducible refine wf_of ?_)
    | assumption
    | (with_reducible apply inv_of; dsimp only)
    | dsimp only
    | exact State.reset_keeps

theorem execMmaSp_inv (scl : Bool) (asrc : Bool) (a : Code) (pitch : Half) (s : State) (h_s : Inv s) :
    Keeps (execMmaSp scl asrc a pitch s) := by
  unfold execMmaSp
  try dsimp only
  repeat' first
    | (with_reducible first | assumption | apply laneMma_inv | apply keeps_next | apply inv_foldl | apply inv_foldl_fst)
    | with_reducible intro _
    | (with_reducible first | apply Memory.wf_writeBytes | apply Memory.wf_writeCells | apply Memory.wf_write | apply Memory.wf_clear)
    | split
    | (with_reducible refine wf_of ?_)
    | assumption
    | (with_reducible apply inv_of; dsimp only)
    | dsimp only
    | exact State.reset_keeps

theorem State.setTable_inv (s : State) (k : Nat) (t : Table) (h_s : Inv s) :
    Inv (State.setTable s k t) := by
  unfold State.setTable
  try dsimp only
  repeat' first
    | (with_reducible first | assumption | apply State.setBlk_inv | apply keeps_next | apply inv_foldl | apply inv_foldl_fst)
    | with_reducible intro _
    | (with_reducible first | apply Memory.wf_writeBytes | apply Memory.wf_writeCells | apply Memory.wf_write | apply Memory.wf_clear)
    | split
    | (with_reducible refine wf_of ?_)
    | assumption
    | (with_reducible apply inv_of; dsimp only)
    | dsimp only
    | exact State.reset_keeps

theorem State.dropTag_inv (s : State) (core : Nat) (tag : Nat) (h_s : Inv s) :
    Inv (State.dropTag s core tag) := by
  unfold State.dropTag
  try dsimp only
  repeat' first
    | (with_reducible first | assumption | apply State.setCoreAt_inv | apply keeps_next | apply inv_foldl | apply inv_foldl_fst)
    | with_reducible intro _
    | (with_reducible first | apply Memory.wf_writeBytes | apply Memory.wf_writeCells | apply Memory.wf_write | apply Memory.wf_clear)
    | split
    | (with_reducible refine wf_of ?_)
    | assumption
    | (with_reducible apply inv_of; dsimp only)
    | dsimp only
    | exact State.reset_keeps

theorem State.replaceTable_inv (s : State) (k : Nat) (t : Table) (h_s : Inv s) :
    Inv (State.replaceTable s k t) := by
  unfold State.replaceTable
  try dsimp only
  repeat' first
    | (with_reducible first | assumption | apply State.setTable_inv | apply State.dropTag_inv | apply keeps_next | apply inv_foldl | apply inv_foldl_fst)
    | with_reducible intro _
    | (with_reducible first | apply Memory.wf_writeBytes | apply Memory.wf_writeCells | apply Memory.wf_write | apply Memory.wf_clear)
    | split
    | (with_reducible refine wf_of ?_)
    | assumption
    | (with_reducible apply inv_of; dsimp only)
    | dsimp only
    | exact State.reset_keeps

theorem State.bindTable_inv (s : State) (k : Nat) (src : Track) (t : Table) (h_s : Inv s) :
    Inv (State.bindTable s k src t) := by
  unfold State.bindTable
  try dsimp only
  repeat' first
    | (with_reducible first | assumption | apply State.replaceTable_inv | apply State.setCore_inv | apply State.setTable_inv | apply keeps_next | apply inv_foldl | apply inv_foldl_fst)
    | with_reducible intro _
    | (with_reducible first | apply Memory.wf_writeBytes | apply Memory.wf_writeCells | apply Memory.wf_write | apply Memory.wf_clear)
    | split
    | (with_reducible refine wf_of ?_)
    | assumption
    | (with_reducible apply inv_of; dsimp only)
    | dsimp only
    | exact State.reset_keeps

theorem State.buildInto_inv (t : State) (tb : Nat) (width : Nat) (asrc : Bool) (a : Code) (d : Code) (vs : List LaneVec) (src : Track) (tab : Table) (h_t : Inv t) :
    Inv (State.buildInto t tb width asrc a d vs src tab) := by
  unfold State.buildInto
  try dsimp only
  repeat' first
    | (with_reducible first | assumption | apply State.writeDest_inv | apply State.bindTable_inv | apply keeps_next | apply inv_foldl | apply inv_foldl_fst)
    | with_reducible intro _
    | (with_reducible first | apply Memory.wf_writeBytes | apply Memory.wf_writeCells | apply Memory.wf_write | apply Memory.wf_clear)
    | split
    | (with_reducible refine wf_of ?_)
    | assumption
    | (with_reducible apply inv_of; dsimp only)
    | dsimp only
    | exact State.reset_keeps

theorem execTbldSub_inv (pm : Bool) (asrc : Bool) (tb : BitVec 5) (d : Code) (a : Code) (s : State) (h_s : Inv s) :
    Keeps (execTbldSub pm asrc tb d a s) := by
  unfold execTbldSub
  try dsimp only
  repeat' first
    | (with_reducible first | assumption | apply matrixRun_inv | apply State.accept_inv | apply State.buildInto_inv | apply keeps_next | apply inv_foldl | apply inv_foldl_fst)
    | with_reducible intro _
    | (with_reducible first | apply Memory.wf_writeBytes | apply Memory.wf_writeCells | apply Memory.wf_write | apply Memory.wf_clear)
    | split
    | (with_reducible refine wf_of ?_)
    | assumption
    | (with_reducible apply inv_of; dsimp only)
    | dsimp only
    | exact State.reset_keeps

theorem execTbldProd_inv (asrc : Bool) (tb : BitVec 5) (cb : BitVec 5) (d : Code) (a : Code) (s : State) (h_s : Inv s) :
    Keeps (execTbldProd asrc tb cb d a s) := by
  unfold execTbldProd
  try dsimp only
  repeat' first
    | (with_reducible first | assumption | apply matrixRun_inv | apply State.accept_inv | apply State.buildInto_inv | apply keeps_next | apply inv_foldl | apply inv_foldl_fst)
    | with_reducible intro _
    | (with_reducible first | apply Memory.wf_writeBytes | apply Memory.wf_writeCells | apply Memory.wf_write | apply Memory.wf_clear)
    | split
    | (with_reducible refine wf_of ?_)
    | assumption
    | (with_reducible apply inv_of; dsimp only)
    | dsimp only
    | exact State.reset_keeps

theorem execCbld_inv (tb : BitVec 5) (d : Code) (a : Code) (scale : Byte) (lenm1 : BitVec 4) (s : State) (h_s : Inv s) :
    Keeps (execCbld tb d a scale lenm1 s) := by
  unfold execCbld
  try dsimp only
  repeat' first
    | (with_reducible first | assumption | apply matrixRun_inv | apply State.buildInto_inv | apply keeps_next | apply inv_foldl | apply inv_foldl_fst)
    | with_reducible intro _
    | (with_reducible first | apply Memory.wf_writeBytes | apply Memory.wf_writeCells | apply Memory.wf_write | apply Memory.wf_clear)
    | split
    | (with_reducible refine wf_of ?_)
    | assumption
    | (with_reducible apply inv_of; dsimp only)
    | dsimp only
    | exact State.reset_keeps

theorem execTbinv_inv (tb : BitVec 5) (s : State) (h_s : Inv s) :
    Keeps (execTbinv tb s) := by
  unfold execTbinv
  try dsimp only
  repeat' first
    | (with_reducible first | assumption | apply matrixRun_inv | apply State.replaceTable_inv | apply keeps_next | apply inv_foldl | apply inv_foldl_fst)
    | with_reducible intro _
    | (with_reducible first | apply Memory.wf_writeBytes | apply Memory.wf_writeCells | apply Memory.wf_write | apply Memory.wf_clear)
    | split
    | (with_reducible refine wf_of ?_)
    | assumption
    | (with_reducible apply inv_of; dsimp only)
    | dsimp only
    | exact State.reset_keeps

theorem execTbstat_inv (tb : BitVec 5) (d : Code) (s : State) (h_s : Inv s) :
    Keeps (execTbstat tb d s) := by
  unfold execTbstat
  try dsimp only
  repeat' first
    | (with_reducible first | assumption | apply matrixRun_inv | apply State.writeDest_inv | apply keeps_next | apply inv_foldl | apply inv_foldl_fst)
    | with_reducible intro _
    | (with_reducible first | apply Memory.wf_writeBytes | apply Memory.wf_writeCells | apply Memory.wf_write | apply Memory.wf_clear)
    | split
    | (with_reducible refine wf_of ?_)
    | assumption
    | (with_reducible apply inv_of; dsimp only)
    | dsimp only
    | exact State.reset_keeps

theorem execTbspill_inv (tb : BitVec 5) (a : Code) (s : State) (h_s : Inv s) :
    Keeps (execTbspill tb a s) := by
  unfold execTbspill
  try dsimp only
  repeat' first
    | (with_reducible first | assumption | apply matrixRun_inv | apply State.performStore_inv | apply State.writeAs_inv | apply keeps_next | apply inv_foldl | apply inv_foldl_fst)
    | with_reducible intro _
    | (with_reducible first | apply Memory.wf_writeBytes | apply Memory.wf_writeCells | apply Memory.wf_write | apply Memory.wf_clear)
    | split
    | (with_reducible refine wf_of ?_)
    | assumption
    | (with_reducible apply inv_of; dsimp only)
    | dsimp only
    | exact State.reset_keeps

theorem execTbfill_inv (tb : BitVec 5) (a : Code) (s : State) (h_s : Inv s) :
    Keeps (execTbfill tb a s) := by
  unfold execTbfill
  try dsimp only
  repeat' first
    | (with_reducible first | assumption | apply matrixRun_inv | apply State.replaceTable_inv | apply keeps_next | apply inv_foldl | apply inv_foldl_fst)
    | with_reducible intro _
    | (with_reducible first | apply Memory.wf_writeBytes | apply Memory.wf_writeCells | apply Memory.wf_write | apply Memory.wf_clear)
    | split
    | (with_reducible refine wf_of ?_)
    | assumption
    | (with_reducible apply inv_of; dsimp only)
    | dsimp only
    | exact State.reset_keeps

theorem execMlut_inv (tb : BitVec 5) (s : State) (h_s : Inv s) :
    Keeps (execMlut tb s) := by
  unfold execMlut
  try dsimp only
  repeat' first
    | (with_reducible first | assumption | apply matrixRun_inv | apply State.accept_inv | apply keeps_next | apply inv_foldl | apply inv_foldl_fst)
    | with_reducible intro _
    | (with_reducible first | apply Memory.wf_writeBytes | apply Memory.wf_writeCells | apply Memory.wf_write | apply Memory.wf_clear)
    | split
    | (with_reducible refine wf_of ?_)
    | assumption
    | (with_reducible apply inv_of; dsimp only)
    | dsimp only
    | exact State.reset_keeps

theorem execTsld_inv (d : Code) (a : Code) (nm1 : BitVec 7) (pitch : BitVec 9) (s : State) (h_s : Inv s) :
    Keeps (execTsld d a nm1 pitch s) := by
  unfold execTsld
  try dsimp only
  repeat' first
    | (with_reducible first | assumption | apply matrixRun_inv | apply State.writeDest_inv | apply keeps_next | apply inv_foldl | apply inv_foldl_fst)
    | with_reducible intro _
    | (with_reducible first | apply Memory.wf_writeBytes | apply Memory.wf_writeCells | apply Memory.wf_write | apply Memory.wf_clear)
    | split
    | (with_reducible refine wf_of ?_)
    | assumption
    | (with_reducible apply inv_of; dsimp only)
    | dsimp only
    | exact State.reset_keeps

theorem execTsst_inv (a : Code) (b : Code) (nm1 : BitVec 7) (pitch : BitVec 9) (s : State) (h_s : Inv s) :
    Keeps (execTsst a b nm1 pitch s) := by
  unfold execTsst
  try dsimp only
  repeat' first
    | (with_reducible first | assumption | apply matrixRun_inv | apply keeps_next | apply inv_foldl | apply inv_foldl_fst)
    | with_reducible intro _
    | (with_reducible first | apply Memory.wf_writeBytes | apply Memory.wf_writeCells | apply Memory.wf_write | apply Memory.wf_clear)
    | split
    | (with_reducible refine wf_of ?_)
    | assumption
    | (with_reducible apply inv_of; dsimp only)
    | dsimp only
    | exact State.reset_keeps

theorem execTszero_inv (s : State) (h_s : Inv s) :
    Keeps (execTszero s) := by
  unfold execTszero
  try dsimp only
  repeat' first
    | (with_reducible first | assumption | apply matrixRun_inv | apply keeps_next | apply inv_foldl | apply inv_foldl_fst)
    | with_reducible intro _
    | (with_reducible first | apply Memory.wf_writeBytes | apply Memory.wf_writeCells | apply Memory.wf_write | apply Memory.wf_clear)
    | split
    | (with_reducible refine wf_of ?_)
    | assumption
    | (with_reducible apply inv_of; dsimp only)
    | dsimp only
    | exact State.reset_keeps

theorem execTscvt_inv (d : Code) (tgt : BitVec 5) (s : State) (h_s : Inv s) :
    Keeps (execTscvt d tgt s) := by
  unfold execTscvt
  try dsimp only
  repeat' first
    | (with_reducible first | assumption | apply matrixRun_inv | apply State.writeDest_inv | apply State.setFlags_inv | apply keeps_next | apply inv_foldl | apply inv_foldl_fst)
    | with_reducible intro _
    | (with_reducible first | apply Memory.wf_writeBytes | apply Memory.wf_writeCells | apply Memory.wf_write | apply Memory.wf_clear)
    | split
    | (with_reducible refine wf_of ?_)
    | assumption
    | (with_reducible apply inv_of; dsimp only)
    | dsimp only
    | exact State.reset_keeps

theorem execMfence_inv (s : State) (h_s : Inv s) :
    Keeps (execMfence s) := by
  unfold execMfence
  try dsimp only
  repeat' first
    | (with_reducible first | assumption | apply laneRun_inv | apply State.setGrp_inv | apply Check.keeps_stop)
    | refine Check.inv_stop (by with_reducible assumption) ?_
    | exact trivial
    | (with_reducible first | apply keeps_next | apply inv_foldl | apply inv_foldl_fst)
    | with_reducible intro _
    | (with_reducible first | apply Memory.wf_writeBytes | apply Memory.wf_writeCells | apply Memory.wf_write | apply Memory.wf_clear)
    | split
    | (with_reducible refine wf_of ?_)
    | assumption
    | (with_reducible apply inv_of; dsimp only)
    | dsimp only
    | exact State.reset_keeps

theorem execMwait_inv (n : Byte) (s : State) (h_s : Inv s) :
    Keeps (execMwait n s) := by
  unfold execMwait
  try dsimp only
  repeat' first
    | (with_reducible first | assumption | apply laneRun_inv | apply Check.keeps_stop)
    | refine Check.inv_stop (by with_reducible assumption) ?_
    | exact trivial
    | (with_reducible first | apply keeps_next | apply inv_foldl | apply inv_foldl_fst)
    | with_reducible intro _
    | (with_reducible first | apply Memory.wf_writeBytes | apply Memory.wf_writeCells | apply Memory.wf_write | apply Memory.wf_clear)
    | split
    | (with_reducible refine wf_of ?_)
    | assumption
    | (with_reducible apply inv_of; dsimp only)
    | dsimp only
    | exact State.reset_keeps

theorem execMpoll_inv (d : Code) (s : State) (h_s : Inv s) :
    Keeps (execMpoll d s) := by
  unfold execMpoll
  try dsimp only
  repeat' first
    | (with_reducible first | assumption | apply laneAlu_inv | apply keeps_next | apply inv_foldl | apply inv_foldl_fst)
    | with_reducible intro _
    | (with_reducible first | apply Memory.wf_writeBytes | apply Memory.wf_writeCells | apply Memory.wf_write | apply Memory.wf_clear)
    | split
    | (with_reducible refine wf_of ?_)
    | assumption
    | (with_reducible apply inv_of; dsimp only)
    | dsimp only
    | exact State.reset_keeps

theorem execMdrain_inv (s : State) (h_s : Inv s) :
    Keeps (execMdrain s) := by
  unfold execMdrain
  try dsimp only
  repeat' first
    | (with_reducible first | assumption | apply laneRun_inv | apply Check.keeps_stop)
    | refine Check.inv_stop (by with_reducible assumption) ?_
    | exact trivial
    | (with_reducible first | apply keeps_next | apply inv_foldl | apply inv_foldl_fst)
    | with_reducible intro _
    | (with_reducible first | apply Memory.wf_writeBytes | apply Memory.wf_writeCells | apply Memory.wf_write | apply Memory.wf_clear)
    | split
    | (with_reducible refine wf_of ?_)
    | assumption
    | (with_reducible apply inv_of; dsimp only)
    | dsimp only
    | exact State.reset_keeps

theorem State.restore0_inv (s : State) (k : Nat) (l : List Byte) (h_s : Inv s) :
    Inv (State.restore0 s k l) := by
  unfold State.restore0
  try dsimp only
  repeat' first
    | (with_reducible first | assumption | apply State.setGrpAt_inv | apply keeps_next | apply inv_foldl | apply inv_foldl_fst)
    | with_reducible intro _
    | (with_reducible first | apply Memory.wf_writeBytes | apply Memory.wf_writeCells | apply Memory.wf_write | apply Memory.wf_clear)
    | split
    | (with_reducible refine wf_of ?_)
    | assumption
    | (with_reducible apply inv_of; dsimp only)
    | dsimp only
    | exact State.reset_keeps

theorem State.restoreWide_inv (s : State) (blk : Nat) (l : List Byte) (h_s : Inv s) :
    Inv (State.restoreWide s blk l) := by
  unfold State.restoreWide
  try dsimp only
  repeat' first
    | (with_reducible first | assumption | apply State.setCoreAt_inv | apply keeps_next | apply inv_foldl | apply inv_foldl_fst)
    | with_reducible intro _
    | (with_reducible first | apply Memory.wf_writeBytes | apply Memory.wf_writeCells | apply Memory.wf_write | apply Memory.wf_clear)
    | split
    | (with_reducible refine wf_of ?_)
    | assumption
    | (with_reducible apply inv_of; dsimp only)
    | dsimp only
    | exact State.reset_keeps

theorem State.restoreBar_inv (s : State) (blk : Nat) (bar : Nat) (v : Nat) (h_s : Inv s) :
    Inv (State.restoreBar s blk bar v) := by
  unfold State.restoreBar
  try dsimp only
  repeat' first
    | (with_reducible first | assumption | apply State.setBar_inv | apply State.setGrpAt_inv | apply keeps_next | apply inv_foldl | apply inv_foldl_fst)
    | with_reducible intro _
    | (with_reducible first | apply Memory.wf_writeBytes | apply Memory.wf_writeCells | apply Memory.wf_write | apply Memory.wf_clear)
    | split
    | (with_reducible refine wf_of ?_)
    | assumption
    | (with_reducible apply inv_of; dsimp only)
    | dsimp only
    | exact State.reset_keeps

theorem State.restore1_inv (s : State) (blk : Nat) (l : List Byte) (h_s : Inv s) :
    Inv (State.restore1 s blk l) := by
  unfold State.restore1
  try dsimp only
  repeat' first
    | (with_reducible first | assumption | apply State.restoreWide_inv | apply State.restoreBar_inv | apply State.setBlkAt_inv | apply State.dueRanks_inv | apply State.storeCells_inv | apply keeps_next | apply inv_foldl | apply inv_foldl_fst)
    | with_reducible intro _
    | (with_reducible first | apply Memory.wf_writeBytes | apply Memory.wf_writeCells | apply Memory.wf_write | apply Memory.wf_clear)
    | split
    | (with_reducible refine wf_of ?_)
    | assumption
    | (with_reducible apply inv_of; dsimp only)
    | dsimp only
    | exact State.reset_keeps

theorem State.trySuspend_inv (s : State) (blk : Nat) (h_s : Inv s) :
    Inv (State.trySuspend s blk) := by
  unfold State.trySuspend
  try dsimp only
  repeat' first
    | (with_reducible first | assumption | apply State.setBlkAt_inv | apply State.onMondb_inv | apply State.trace_inv | apply keeps_next | apply inv_foldl | apply inv_foldl_fst)
    | with_reducible intro _
    | (with_reducible first | apply Memory.wf_writeBytes | apply Memory.wf_writeCells | apply Memory.wf_write | apply Memory.wf_clear)
    | split
    | (with_reducible refine wf_of ?_)
    | assumption
    | (with_reducible apply inv_of; dsimp only)
    | dsimp only
    | exact State.reset_keeps

theorem monitor_inv (s : State) (k : Out) (h_s : Inv s) (h_k : Keeps k) :
    Keeps (monitor s k) := by
  unfold monitor
  try dsimp only
  repeat' first
    | (with_reducible first | assumption | apply illegal_inv | apply keeps_next | apply inv_foldl | apply inv_foldl_fst)
    | with_reducible intro _
    | (with_reducible first | apply Memory.wf_writeBytes | apply Memory.wf_writeCells | apply Memory.wf_write | apply Memory.wf_clear)
    | split
    | (with_reducible refine wf_of ?_)
    | assumption
    | (with_reducible apply inv_of; dsimp only)
    | dsimp only
    | exact State.reset_keeps

theorem execZQuiesce_inv (rd : XReg) (s : State) (h_s : Inv s) :
    Keeps (execZQuiesce rd s) := by
  unfold execZQuiesce
  try dsimp only
  repeat' first
    | (with_reducible first | assumption | apply monitor_inv | apply hartRun_inv | apply hartWaits_inv | apply State.setGrp_inv | apply State.hartDone_inv | apply keeps_next | apply inv_foldl | apply inv_foldl_fst)
    | with_reducible intro _
    | (with_reducible first | apply Memory.wf_writeBytes | apply Memory.wf_writeCells | apply Memory.wf_write | apply Memory.wf_clear)
    | split
    | (with_reducible refine wf_of ?_)
    | assumption
    | (with_reducible apply inv_of; dsimp only)
    | dsimp only
    | exact State.reset_keeps

theorem execZCsave_inv (rs1 rs2 : XReg) (s : State) (h_s : Inv s) : Keeps (execZCsave rs1 rs2 s) := by
  unfold execZCsave
  refine monitor_inv _ _ h_s (hartRun_inv _ _ _ _ h_s fun s h_s => ?_)
  dsimp only
  split
  · exact raise_inv _ _ _ h_s
  split
  · exact hartWaits_inv _ _ h_s
  split
  · exact raise_inv _ _ _ h_s
  · exact raise_inv _ _ _ h_s
  rename_i t e _
  have ht : Inv t := State.writeBackAll_eq e h_s
  split
  · exact hartWaits_inv _ _ ht
  split
  · refine keeps_next (State.trySuspend_inv _ _ (State.setGrp_inv _ _ ?_))
    have hv : ∀ (c : Bool) (v w : State), Inv v → Inv w → Inv (if c then v else w) := by
      intro c v w hv hw; cases c <;> assumption
    refine hv _ _ _ (State.trace_inv _ _ _ _ _ ?_) ?_
    all_goals
      split
      · exact State.setGrp_inv _ _ (State.performStore_inv _ _ _ ht)
      · exact State.setBlk_inv _ _ (State.performStore_inv _ _ _ ht)
  · exact raise_inv _ _ _ h_s

theorem execZCrest_inv (rs1 : XReg) (rs2 : XReg) (s : State) (h_s : Inv s) :
    Keeps (execZCrest rs1 rs2 s) := by
  unfold execZCrest
  try dsimp only
  repeat' first
    | (with_reducible first | assumption | apply monitor_inv | apply hartRun_inv | apply raise_inv | apply State.setGrp_inv | apply State.restore0_inv | apply State.restore1_inv | apply keeps_next | apply inv_foldl | apply inv_foldl_fst)
    | with_reducible intro _
    | (with_reducible first | apply Memory.wf_writeBytes | apply Memory.wf_writeCells | apply Memory.wf_write | apply Memory.wf_clear)
    | split
    | (with_reducible refine wf_of ?_)
    | assumption
    | (with_reducible apply inv_of; dsimp only)
    | dsimp only
    | exact State.reset_keeps

theorem execZPjrd_inv (rd : XReg) (rs1 : XReg) (s : State) (h_s : Inv s) :
    Keeps (execZPjrd rd rs1 s) := by
  unfold execZPjrd
  try dsimp only
  repeat' first
    | (with_reducible first | assumption | apply hartRun_inv | apply illegal_inv | apply State.setGrp_inv | apply State.hartDone_inv | apply keeps_next | apply inv_foldl | apply inv_foldl_fst)
    | with_reducible intro _
    | (with_reducible first | apply Memory.wf_writeBytes | apply Memory.wf_writeCells | apply Memory.wf_write | apply Memory.wf_clear)
    | split
    | (with_reducible refine wf_of ?_)
    | assumption
    | (with_reducible apply inv_of; dsimp only)
    | dsimp only
    | exact State.reset_keeps

theorem execZSample_inv (rd : XReg) (rs1 : XReg) (s : State) (h_s : Inv s) :
    Keeps (execZSample rd rs1 s) := by
  unfold execZSample
  try dsimp only
  repeat' first
    | (with_reducible first | assumption | apply hartRun_inv | apply raise_inv | apply State.hartDone_inv | apply State.setGrp_inv | apply keeps_next | apply inv_foldl | apply inv_foldl_fst)
    | with_reducible intro _
    | (with_reducible first | apply Memory.wf_writeBytes | apply Memory.wf_writeCells | apply Memory.wf_write | apply Memory.wf_clear)
    | split
    | (with_reducible refine wf_of ?_)
    | assumption
    | (with_reducible apply inv_of; dsimp only)
    | dsimp only
    | exact State.reset_keeps

theorem State.taken_inv (s : State) (i : Nat) (h_s : Inv s) :
    Inv (State.taken s i) := by
  unfold State.taken
  try dsimp only
  repeat' first
    | (with_reducible first | assumption | apply keeps_next | apply inv_foldl | apply inv_foldl_fst)
    | with_reducible intro _
    | (with_reducible first | apply Memory.wf_writeBytes | apply Memory.wf_writeCells | apply Memory.wf_write | apply Memory.wf_clear)
    | split
    | (with_reducible refine wf_of ?_)
    | assumption
    | (with_reducible apply inv_of; dsimp only)
    | dsimp only
    | exact State.reset_keeps

theorem State.emit_inv (s : State) (src : Nat) (dst : Nat) (b : MsgBody) (h_s : Inv s) :
    Inv (State.emit s src dst b) := by
  unfold State.emit
  try dsimp only
  repeat' first
    | (with_reducible first | assumption | apply keeps_next | apply inv_foldl | apply inv_foldl_fst)
    | with_reducible intro _
    | (with_reducible first | apply Memory.wf_writeBytes | apply Memory.wf_writeCells | apply Memory.wf_write | apply Memory.wf_clear)
    | split
    | (with_reducible refine wf_of ?_)
    | assumption
    | (with_reducible apply inv_of; dsimp only)
    | dsimp only
    | exact State.reset_keeps

theorem State.answer_inv (s : State) (k : Nat) (b : MsgBody) (h_s : Inv s) :
    Inv (State.answer s k b) := by
  unfold State.answer
  try dsimp only
  repeat' first
    | (with_reducible first | assumption | apply State.emit_inv | apply keeps_next | apply inv_foldl | apply inv_foldl_fst)
    | with_reducible intro _
    | (with_reducible first | apply Memory.wf_writeBytes | apply Memory.wf_writeCells | apply Memory.wf_write | apply Memory.wf_clear)
    | split
    | (with_reducible refine wf_of ?_)
    | assumption
    | (with_reducible apply inv_of; dsimp only)
    | dsimp only
    | exact State.reset_keeps

theorem onArrival_inv (s : State) (k : Msg → State → Option State) (h_s : Inv s)
    (h_k : ∀ v0 v1, Inv v1 → ∀ u, k v0 v1 = some u → Inv u) : Keeps (onArrival s k) := by
  unfold onArrival
  split
  · exact keeps_next h_s
  · split
    · rename_i e; exact keeps_next (h_k _ _ (State.taken_inv _ _ h_s) _ e)
    · exact keeps_next h_s

theorem State.pend_inv (s : State) (k : Nat) (cause : Nat) (val : W64) (h_s : Inv s) :
    Inv (State.pend s k cause val) := by
  unfold State.pend
  try dsimp only
  repeat' first
    | (with_reducible first | assumption | apply State.setGrpAt_inv | apply keeps_next | apply inv_foldl | apply inv_foldl_fst)
    | with_reducible intro _
    | (with_reducible first | apply Memory.wf_writeBytes | apply Memory.wf_writeCells | apply Memory.wf_write | apply Memory.wf_clear)
    | split
    | (with_reducible refine wf_of ?_)
    | assumption
    | (with_reducible apply inv_of; dsimp only)
    | dsimp only
    | exact State.reset_keeps

theorem execQueueLoadArrival_inv (s : State) (h_s : Inv s) :
    Keeps (execQueueLoadArrival s) := by
  unfold execQueueLoadArrival
  try dsimp only
  repeat' first
    | (with_reducible first | assumption | apply State.setGrpAt_inv | apply State.focus_inv | apply State.countAccess_inv | apply keeps_next | apply inv_foldl | apply inv_foldl_fst)
    | with_reducible intro _
    | (with_reducible first | apply Memory.wf_writeBytes | apply Memory.wf_writeCells | apply Memory.wf_write | apply Memory.wf_clear)
    | split
    | (with_reducible refine wf_of ?_)
    | assumption
    | (with_reducible apply inv_of; dsimp only)
    | dsimp only
    | exact State.reset_keeps

theorem execReplayArrival_inv (s : State) (h_s : Inv s) :
    Keeps (execReplayArrival s) := by
  unfold execReplayArrival
  try dsimp only
  repeat' first
    | (with_reducible first | assumption | apply State.focus_inv | apply State.makeLoad_inv | apply State.setGrpAt_inv | apply State.streamFault_inv | apply Gather.inv)
    | exact trivial
    | (with_reducible first | apply keeps_next | apply inv_foldl | apply inv_foldl_fst)
    | with_reducible intro _
    | (with_reducible first | apply Memory.wf_writeBytes | apply Memory.wf_writeCells | apply Memory.wf_write | apply Memory.wf_clear)
    | split
    | (with_reducible refine wf_of ?_)
    | assumption
    | (with_reducible apply inv_of; dsimp only)
    | dsimp only
    | exact State.reset_keeps

theorem execLaneAccessComplete_inv (s : State) (h_s : Inv s) :
    Keeps (execLaneAccessComplete s) := by
  unfold execLaneAccessComplete
  try dsimp only
  repeat' first
    | (with_reducible first | assumption | apply State.focus_inv | apply State.sampleDone_inv | apply State.setGrpAt_inv | apply keeps_next | apply inv_foldl | apply inv_foldl_fst)
    | with_reducible intro _
    | (with_reducible first | apply Memory.wf_writeBytes | apply Memory.wf_writeCells | apply Memory.wf_write | apply Memory.wf_clear)
    | split
    | (with_reducible refine wf_of ?_)
    | assumption
    | (with_reducible apply inv_of; dsimp only)
    | dsimp only
    | exact State.reset_keeps

theorem State.atCounter_inv (s : State) (a : W64) (load : Bool) (k : W64 → Nat → State) (h_s : Inv s) (h_k : ∀ v0 v1, Inv (k v0 v1)) :
    Inv (State.atCounter s a load k) := by
  unfold State.atCounter
  try dsimp only
  repeat' first
    | (with_reducible first | assumption | apply State.hartXlate_inv | apply h_k | apply keeps_next | apply inv_foldl | apply inv_foldl_fst)
    | with_reducible intro _
    | (with_reducible first | apply Memory.wf_writeBytes | apply Memory.wf_writeCells | apply Memory.wf_write | apply Memory.wf_clear)
    | split
    | (with_reducible refine wf_of ?_)
    | assumption
    | (with_reducible apply inv_of; dsimp only)
    | dsimp only
    | exact State.reset_keeps

theorem State.performRequest_inv (s : State) (r : HartReq) (h_s : Inv s) :
    Inv (State.performRequest s r) := by
  unfold State.performRequest
  try dsimp only
  repeat' first
    | (with_reducible first | assumption | apply State.respond_inv | apply State.loadAt_inv | apply State.amoAt_inv | apply State.lrAt_inv | apply State.scAt_inv | apply State.atCounter_inv | apply State.hartDone_inv | apply State.setCounter_inv | apply State.setGrp_inv | apply State.openRank_inv)
    | refine State.openRank_eq (by with_reducible assumption) ?_
    | (with_reducible first | apply keeps_next | apply inv_foldl | apply inv_foldl_fst)
    | with_reducible intro _
    | (with_reducible first | apply Memory.wf_writeBytes | apply Memory.wf_writeCells | apply Memory.wf_write | apply Memory.wf_clear)
    | split
    | (with_reducible refine wf_of ?_)
    | assumption
    | (with_reducible apply inv_of; dsimp only)
    | dsimp only
    | exact State.reset_keeps

theorem execHartAccessResponse_inv (s : State) (h_s : Inv s) :
    Keeps (execHartAccessResponse s) := by
  unfold execHartAccessResponse
  try dsimp only
  repeat' first
    | (with_reducible first | assumption | apply State.focus_inv | apply State.taken_inv | apply State.hartDone_inv | apply State.setGrp_inv | apply State.performRequest_inv | apply keeps_next | apply inv_foldl | apply inv_foldl_fst)
    | with_reducible intro _
    | (with_reducible first | apply Memory.wf_writeBytes | apply Memory.wf_writeCells | apply Memory.wf_write | apply Memory.wf_clear)
    | split
    | (with_reducible refine wf_of ?_)
    | assumption
    | (with_reducible apply inv_of; dsimp only)
    | dsimp only
    | exact State.reset_keeps

theorem execPostedWriteArrival_inv (s : State) (h_s : Inv s) :
    Keeps (execPostedWriteArrival s) := by
  unfold execPostedWriteArrival
  try dsimp only
  repeat' first
    | (with_reducible first | assumption | apply onArrival_inv | apply State.answer_inv | apply State.performCells_inv | apply State.countPacket_inv | apply keeps_next | apply inv_foldl | apply inv_foldl_fst)
    | with_reducible intro _
    | (with_reducible first | apply Memory.wf_writeBytes | apply Memory.wf_writeCells | apply Memory.wf_write | apply Memory.wf_clear)
    | split
    | (with_reducible refine wf_of ?_)
    | assumption
    | (with_reducible apply inv_of; dsimp only)
    | dsimp only
    | (rename_i e; cases e; done)
    | (rename_i e; cases e)
    | (rename_i e; dsimp only at e; split at e)
    | (rename_i e; split at e)
    | exact State.reset_keeps

theorem State.setJournal_inv (s : State) (k : Nat) (slot : Nat) (f : JEntry → JEntry) (h_s : Inv s) :
    Inv (State.setJournal s k slot f) := by
  unfold State.setJournal
  try dsimp only
  repeat' first
    | (with_reducible first | assumption | apply State.setGrpAt_inv | apply keeps_next | apply inv_foldl | apply inv_foldl_fst)
    | with_reducible intro _
    | (with_reducible first | apply Memory.wf_writeBytes | apply Memory.wf_writeCells | apply Memory.wf_write | apply Memory.wf_clear)
    | split
    | (with_reducible refine wf_of ?_)
    | assumption
    | (with_reducible apply inv_of; dsimp only)
    | dsimp only
    | exact State.reset_keeps

theorem execJournalAck_inv (s : State) (h_s : Inv s) :
    Keeps (execJournalAck s) := by
  unfold execJournalAck
  try dsimp only
  repeat' first
    | (with_reducible first | assumption | apply onArrival_inv | apply State.sampleDone_inv | apply State.setJournal_inv | apply keeps_next | apply inv_foldl | apply inv_foldl_fst)
    | with_reducible intro _
    | (with_reducible first | apply Memory.wf_writeBytes | apply Memory.wf_writeCells | apply Memory.wf_write | apply Memory.wf_clear)
    | split
    | (with_reducible refine wf_of ?_)
    | assumption
    | (with_reducible apply inv_of; dsimp only)
    | dsimp only
    | (rename_i e; cases e; done)
    | (rename_i e; cases e)
    | (rename_i e; dsimp only at e; split at e)
    | (rename_i e; split at e)
    | exact State.reset_keeps

theorem execJournalRefusal_inv (s : State) (h_s : Inv s) :
    Keeps (execJournalRefusal s) := by
  unfold execJournalRefusal
  try dsimp only
  repeat' first
    | (with_reducible first | assumption | apply onArrival_inv | apply State.sampleDone_inv | apply State.setJournal_inv | apply State.fatal_inv | apply State.pend_inv | apply keeps_next | apply inv_foldl | apply inv_foldl_fst)
    | with_reducible intro _
    | (with_reducible first | apply Memory.wf_writeBytes | apply Memory.wf_writeCells | apply Memory.wf_write | apply Memory.wf_clear)
    | split
    | (with_reducible refine wf_of ?_)
    | assumption
    | (with_reducible apply inv_of; dsimp only)
    | dsimp only
    | (rename_i e; cases e; done)
    | (rename_i e; cases e)
    | (rename_i e; dsimp only at e; split at e)
    | (rename_i e; split at e)
    | exact State.reset_keeps

theorem execMailboxIncrementArrival_inv (s : State) (h_s : Inv s) :
    Keeps (execMailboxIncrementArrival s) := by
  unfold execMailboxIncrementArrival
  try dsimp only
  repeat' first
    | (with_reducible first | assumption | apply onArrival_inv | apply State.setCounter_inv | apply State.answer_inv | apply State.pend_inv | apply keeps_next | apply inv_foldl | apply inv_foldl_fst)
    | with_reducible intro _
    | (with_reducible first | apply Memory.wf_writeBytes | apply Memory.wf_writeCells | apply Memory.wf_write | apply Memory.wf_clear)
    | split
    | (with_reducible refine wf_of ?_)
    | assumption
    | (with_reducible apply inv_of; dsimp only)
    | dsimp only
    | (rename_i e; cases e; done)
    | (rename_i e; cases e)
    | (rename_i e; dsimp only at e; split at e)
    | (rename_i e; split at e)
    | exact State.reset_keeps

theorem execRingMessageArrival_inv (s : State) (h_s : Inv s) :
    Keeps (execRingMessageArrival s) := by
  unfold execRingMessageArrival
  try dsimp only
  repeat' first
    | (with_reducible first | assumption | apply onArrival_inv | apply State.answer_inv | apply State.performStore_inv | apply State.writeAs_inv | apply State.setRing_inv | apply keeps_next | apply inv_foldl | apply inv_foldl_fst)
    | with_reducible intro _
    | (with_reducible first | apply Memory.wf_writeBytes | apply Memory.wf_writeCells | apply Memory.wf_write | apply Memory.wf_clear)
    | split
    | (with_reducible refine wf_of ?_)
    | assumption
    | (with_reducible apply inv_of; dsimp only)
    | dsimp only
    | (rename_i e; cases e; done)
    | (rename_i e; cases e)
    | (rename_i e; dsimp only at e; split at e)
    | (rename_i e; split at e)
    | exact State.reset_keeps

theorem execRankContributionArrival_inv (s : State) (h_s : Inv s) :
    Keeps (execRankContributionArrival s) := by
  unfold execRankContributionArrival
  try dsimp only
  repeat' first
    | (with_reducible first | assumption | apply onArrival_inv | apply State.applyRanks_inv | apply keeps_next | apply inv_foldl | apply inv_foldl_fst)
    | with_reducible intro _
    | (with_reducible first | apply Memory.wf_writeBytes | apply Memory.wf_writeCells | apply Memory.wf_write | apply Memory.wf_clear)
    | split
    | (with_reducible refine wf_of ?_)
    | assumption
    | (with_reducible apply inv_of; dsimp only)
    | dsimp only
    | (rename_i e; cases e; done)
    | (rename_i e; cases e)
    | (rename_i e; dsimp only at e; split at e)
    | (rename_i e; split at e)
    | exact State.reset_keeps

theorem execReductionInputArrival_inv (s : State) (h_s : Inv s) :
    Keeps (execReductionInputArrival s) := by
  unfold execReductionInputArrival
  try dsimp only
  repeat' first
    | (with_reducible first | assumption | apply onArrival_inv | apply State.setRed_inv | apply keeps_next | apply inv_foldl | apply inv_foldl_fst)
    | with_reducible intro _
    | (with_reducible first | apply Memory.wf_writeBytes | apply Memory.wf_writeCells | apply Memory.wf_write | apply Memory.wf_clear)
    | split
    | (with_reducible refine wf_of ?_)
    | assumption
    | (with_reducible apply inv_of; dsimp only)
    | dsimp only
    | (rename_i e; cases e; done)
    | (rename_i e; cases e)
    | (rename_i e; dsimp only at e; split at e)
    | (rename_i e; split at e)
    | exact State.reset_keeps

theorem execRouterFold_inv (s : State) (h_s : Inv s) :
    Keeps (execRouterFold s) := by
  unfold execRouterFold
  try dsimp only
  repeat' first
    | (with_reducible first | assumption | apply State.setRed_inv | apply State.emit_inv | apply keeps_next | apply inv_foldl | apply inv_foldl_fst)
    | with_reducible intro _
    | (with_reducible first | apply Memory.wf_writeBytes | apply Memory.wf_writeCells | apply Memory.wf_write | apply Memory.wf_clear)
    | split
    | (with_reducible refine wf_of ?_)
    | assumption
    | (with_reducible apply inv_of; dsimp only)
    | dsimp only
    | exact State.reset_keeps

theorem execReductionResultLanded_inv (s : State) (h_s : Inv s) :
    Keeps (execReductionResultLanded s) := by
  unfold execReductionResultLanded
  try dsimp only
  repeat' first
    | (with_reducible first | assumption | apply onArrival_inv | apply State.setRed_inv | apply State.performStore_inv | apply State.writeAs_inv | apply State.setCounter_inv | apply keeps_next | apply inv_foldl | apply inv_foldl_fst)
    | with_reducible intro _
    | (with_reducible first | apply Memory.wf_writeBytes | apply Memory.wf_writeCells | apply Memory.wf_write | apply Memory.wf_clear)
    | split
    | (with_reducible refine wf_of ?_)
    | assumption
    | (with_reducible apply inv_of; dsimp only)
    | dsimp only
    | (rename_i e; cases e; done)
    | (rename_i e; cases e)
    | (rename_i e; dsimp only at e; split at e)
    | (rename_i e; split at e)
    | exact State.reset_keeps

theorem State.absence_inv (s : State) (key : Nat) (present : Bool) (h_s : Inv s) :
    Inv (State.absence s key present) := by
  unfold State.absence
  try dsimp only
  repeat' first
    | (with_reducible first | assumption | apply keeps_next | apply inv_foldl | apply inv_foldl_fst)
    | with_reducible intro _
    | (with_reducible first | apply Memory.wf_writeBytes | apply Memory.wf_writeCells | apply Memory.wf_write | apply Memory.wf_clear)
    | split
    | (with_reducible refine wf_of ?_)
    | assumption
    | (with_reducible apply inv_of; dsimp only)
    | dsimp only
    | exact State.reset_keeps

theorem execAbsenceTokenArrival_inv (s : State) (h_s : Inv s) :
    Keeps (execAbsenceTokenArrival s) := by
  unfold execAbsenceTokenArrival
  try dsimp only
  repeat' first
    | (with_reducible first | assumption | apply State.absence_inv | apply onArrival_inv | apply keeps_next | apply inv_foldl | apply inv_foldl_fst)
    | with_reducible intro _
    | (with_reducible first | apply Memory.wf_writeBytes | apply Memory.wf_writeCells | apply Memory.wf_write | apply Memory.wf_clear)
    | split
    | (with_reducible refine wf_of ?_)
    | assumption
    | (with_reducible apply inv_of; dsimp only)
    | dsimp only
    | (rename_i e; cases e; done)
    | (rename_i e; cases e)
    | (rename_i e; dsimp only at e; split at e)
    | (rename_i e; split at e)
    | exact State.reset_keeps

theorem execHartCacheEviction_inv (s : State) (h_s : Inv s) :
    Keeps (execHartCacheEviction s) := by
  unfold execHartCacheEviction
  try dsimp only
  repeat' first
    | (with_reducible first | assumption | apply State.pend_inv | apply State.streamFault_inv)
    | refine State.evictSector_eq (by with_reducible assumption) ?_
    | (with_reducible first | apply keeps_next | apply inv_foldl | apply inv_foldl_fst)
    | with_reducible intro _
    | (with_reducible first | apply Memory.wf_writeBytes | apply Memory.wf_writeCells | apply Memory.wf_write | apply Memory.wf_clear)
    | split
    | (with_reducible refine wf_of ?_)
    | assumption
    | (with_reducible apply inv_of; dsimp only)
    | dsimp only
    | exact State.reset_keeps

theorem execPrefetchFill_inv (s : State) (h_s : Inv s) :
    Keeps (execPrefetchFill s) := by
  unfold execPrefetchFill
  try dsimp only
  repeat' first
    | (with_reducible first | assumption | apply State.setCoreAt_inv | apply State.l1Fill_inv | apply keeps_next | apply inv_foldl | apply inv_foldl_fst)
    | with_reducible intro _
    | (with_reducible first | apply Memory.wf_writeBytes | apply Memory.wf_writeCells | apply Memory.wf_write | apply Memory.wf_clear)
    | split
    | (with_reducible refine wf_of ?_)
    | assumption
    | (with_reducible apply inv_of; dsimp only)
    | dsimp only
    | exact State.reset_keeps

theorem State.copyWrite_inv (s : State) (k : Copy) (cells : List (Nat × Byte)) (h_s : Inv s) : Inv (s.copyWrite k cells) := by
  unfold State.copyWrite
  exact State.performCells_inv _ _ (State.underKey_inv _ _ _ h_s)

theorem State.copySeen_inv (s : State) (k : Copy) (l : List (CopyUnit × CopyFate)) (h_s : Inv s) :
    Inv (State.copySeen s k l) := by
  unfold State.copySeen
  try dsimp only
  repeat' first
    | (with_reducible first | assumption | apply State.hostTouch_inv | apply State.keepTlb?_inv | apply keeps_next | apply inv_foldl | apply inv_foldl_fst)
    | with_reducible intro _
    | (with_reducible first | apply Memory.wf_writeBytes | apply Memory.wf_writeCells | apply Memory.wf_write | apply Memory.wf_clear)
    | split
    | (with_reducible refine wf_of ?_)
    | assumption
    | (with_reducible apply inv_of; dsimp only)
    | dsimp only
    | exact State.reset_keeps

theorem State.finishCopy_inv (s : State) (core : Nat) (ch : Nat) (k : Copy) (failed : Bool) (h_s : Inv s) :
    Inv (State.finishCopy s core ch k failed) := by
  unfold State.finishCopy
  try dsimp only
  repeat' first
    | (with_reducible first | assumption | apply State.setCoreAt_inv | apply State.setGrpAt_inv | apply keeps_next | apply inv_foldl | apply inv_foldl_fst)
    | with_reducible intro _
    | (with_reducible first | apply Memory.wf_writeBytes | apply Memory.wf_writeCells | apply Memory.wf_write | apply Memory.wf_clear)
    | split
    | (with_reducible refine wf_of ?_)
    | assumption
    | (with_reducible apply inv_of; dsimp only)
    | dsimp only
    | exact State.reset_keeps

theorem State.copyIncrement_inv (s : State) (ch : Nat) (k : Copy) (r : Rec) (h_s : Inv s) :
    Inv (State.copyIncrement s ch k r) := by
  unfold State.copyIncrement
  try dsimp only
  repeat' first
    | (with_reducible first | assumption | apply State.emit_inv | apply State.pend_inv | apply keeps_next | apply inv_foldl | apply inv_foldl_fst)
    | with_reducible intro _
    | (with_reducible first | apply Memory.wf_writeBytes | apply Memory.wf_writeCells | apply Memory.wf_write | apply Memory.wf_clear)
    | split
    | (with_reducible refine wf_of ?_)
    | assumption
    | (with_reducible apply inv_of; dsimp only)
    | dsimp only
    | exact State.reset_keeps

theorem State.copyMeter_inv (s : State) (ch : Nat) (k : Copy) (h_s : Inv s) :
    Inv (State.copyMeter s ch k) := by
  unfold State.copyMeter
  try dsimp only
  repeat' first
    | (with_reducible first | assumption | apply State.meterVa_inv | apply State.focus_inv | apply keeps_next | apply inv_foldl | apply inv_foldl_fst)
    | with_reducible intro _
    | (with_reducible first | apply Memory.wf_writeBytes | apply Memory.wf_writeCells | apply Memory.wf_write | apply Memory.wf_clear)
    | split
    | (with_reducible refine wf_of ?_)
    | assumption
    | (with_reducible apply inv_of; dsimp only)
    | dsimp only
    | exact State.reset_keeps

theorem execCopyStart_inv (s : State) (h_s : Inv s) :
    Keeps (execCopyStart s) := by
  unfold execCopyStart
  try dsimp only
  repeat' first
    | (with_reducible first | assumption | apply State.copyMeter_inv | apply State.setCoreAt_inv | apply keeps_next | apply inv_foldl | apply inv_foldl_fst)
    | with_reducible intro _
    | (with_reducible first | apply Memory.wf_writeBytes | apply Memory.wf_writeCells | apply Memory.wf_write | apply Memory.wf_clear)
    | split
    | (with_reducible refine wf_of ?_)
    | assumption
    | (with_reducible apply inv_of; dsimp only)
    | dsimp only
    | exact State.reset_keeps

theorem State.copyParks_inv (s : State) (core : Nat) (ch : Nat) (k : Copy) (va : Nat) (f : XFault) (h_s : Inv s) :
    Inv (State.copyParks s core ch k va f) := by
  unfold State.copyParks
  try dsimp only
  repeat' first
    | (with_reducible first | assumption | apply State.setCoreAt_inv | apply State.pushRecord_inv | apply keeps_next | apply inv_foldl | apply inv_foldl_fst)
    | with_reducible intro _
    | (with_reducible first | apply Memory.wf_writeBytes | apply Memory.wf_writeCells | apply Memory.wf_write | apply Memory.wf_clear)
    | split
    | (with_reducible refine wf_of ?_)
    | assumption
    | (with_reducible apply inv_of; dsimp only)
    | dsimp only
    | exact State.reset_keeps

theorem State.copyBadEntry_inv (s : State) (ch : Nat) (k : Copy) (va : Nat) (f : XFault) (h_s : Inv s) :
    Inv (State.copyBadEntry s ch k va f) := by
  unfold State.copyBadEntry
  try dsimp only
  repeat' first
    | (with_reducible first | assumption | apply State.pushRecord_inv | apply State.onMondb_inv | apply keeps_next | apply inv_foldl | apply inv_foldl_fst)
    | with_reducible intro _
    | (with_reducible first | apply Memory.wf_writeBytes | apply Memory.wf_writeCells | apply Memory.wf_write | apply Memory.wf_clear)
    | split
    | (with_reducible refine wf_of ?_)
    | assumption
    | (with_reducible apply inv_of; dsimp only)
    | dsimp only
    | exact State.reset_keeps

theorem State.checkpoint_inv (s : State) (core : Nat) (ch : Nat) (h_s : Inv s) :
    Inv (State.checkpoint s core ch) := by
  unfold State.checkpoint
  try dsimp only
  repeat' first
    | (with_reducible first | assumption | apply State.copyWrite_inv | apply State.performCells_inv | apply State.copySeen_inv | apply State.setCoreAt_inv | apply keeps_next | apply inv_foldl | apply inv_foldl_fst)
    | with_reducible intro _
    | (with_reducible first | apply Memory.wf_writeBytes | apply Memory.wf_writeCells | apply Memory.wf_write | apply Memory.wf_clear)
    | split
    | (with_reducible refine wf_of ?_)
    | assumption
    | (with_reducible apply inv_of; dsimp only)
    | dsimp only
    | exact State.reset_keeps

theorem execCopyCompletion_inv (s : State) (h_s : Inv s) :
    Keeps (execCopyCompletion s) := by
  unfold execCopyCompletion
  try dsimp only
  repeat' first
    | (with_reducible first | assumption | apply State.focus_inv | apply State.countAccess_inv | apply State.copySeen_inv | apply State.pend_inv | apply State.finishCopy_inv | apply State.copyWrite_inv | apply State.performCells_inv | apply State.copyBadEntry_inv | apply State.copyIncrement_inv | apply State.copyParks_inv | apply State.askLine_inv | apply keeps_next | apply inv_foldl | apply inv_foldl_fst)
    | with_reducible intro _
    | (with_reducible first | apply Memory.wf_writeBytes | apply Memory.wf_writeCells | apply Memory.wf_write | apply Memory.wf_clear)
    | split
    | (with_reducible refine wf_of ?_)
    | assumption
    | (with_reducible apply inv_of; dsimp only)
    | dsimp only
    | exact State.reset_keeps

theorem State.zeroRange_inv (s : State) (lo : Nat) (n : Nat) (h_s : Inv s) :
    Inv (State.zeroRange s lo n) := by
  unfold State.zeroRange
  try dsimp only
  repeat' first
    | (with_reducible first | assumption | apply keeps_next | apply inv_foldl | apply inv_foldl_fst)
    | with_reducible intro _
    | (with_reducible first | apply Memory.wf_writeBytes | apply Memory.wf_writeCells | apply Memory.wf_write | apply Memory.wf_clear)
    | split
    | (with_reducible refine wf_of ?_)
    | assumption
    | (with_reducible apply inv_of; dsimp only)
    | dsimp only
    | exact State.reset_keeps

theorem State.readied_inv (s : State) (n : Nat) (lin : Nat) (rank : Nat) (key : Nat) (keys : List Nat) (h_s : Inv s) :
    Inv (State.readied s n lin rank key keys) := by
  unfold State.readied
  try dsimp only
  repeat' first
    | (with_reducible first | assumption | apply State.zeroRange_inv | apply State.setBlkAt_inv | apply State.setCoreAt_inv | apply keeps_next | apply inv_foldl | apply inv_foldl_fst)
    | with_reducible intro _
    | (with_reducible first | apply Memory.wf_writeBytes | apply Memory.wf_writeCells | apply Memory.wf_write | apply Memory.wf_clear)
    | split
    | (with_reducible refine wf_of ?_)
    | assumption
    | (with_reducible apply inv_of; dsimp only)
    | dsimp only
    | exact State.reset_keeps

theorem State.placeBlock_inv (s : State) (n : Nat) (lin : Nat) (rank : Nat) (key : Nat) (keys : List Nat) (h_s : Inv s) :
    Inv (State.placeBlock s n lin rank key keys) := by
  unfold State.placeBlock
  try dsimp only
  repeat' first
    | (with_reducible first | assumption | apply State.readied_inv | apply State.setGrpAt_inv | apply State.trace_inv | apply keeps_next | apply inv_foldl | apply inv_foldl_fst)
    | with_reducible intro _
    | (with_reducible first | apply Memory.wf_writeBytes | apply Memory.wf_writeCells | apply Memory.wf_write | apply Memory.wf_clear)
    | split
    | (with_reducible refine wf_of ?_)
    | assumption
    | (with_reducible apply inv_of; dsimp only)
    | dsimp only
    | exact State.reset_keeps

theorem State.handedOut_inv (s : State) (p : Nat) (q : Nat) (r : Nat) (n : Nat) (h_s : Inv s) :
    Inv (State.handedOut s p q r n) := by
  unfold State.handedOut
  try dsimp only
  repeat' first
    | (with_reducible first | assumption | apply State.setPart_inv | apply keeps_next | apply inv_foldl | apply inv_foldl_fst)
    | with_reducible intro _
    | (with_reducible first | apply Memory.wf_writeBytes | apply Memory.wf_writeCells | apply Memory.wf_write | apply Memory.wf_clear)
    | split
    | (with_reducible refine wf_of ?_)
    | assumption
    | (with_reducible apply inv_of; dsimp only)
    | dsimp only
    | exact State.reset_keeps

theorem execBlockPlacement_inv (s : State) (h_s : Inv s) :
    Keeps (execBlockPlacement s) := by
  unfold execBlockPlacement
  try dsimp only
  repeat' first
    | (with_reducible first | assumption | apply State.placeBlock_inv | apply State.handedOut_inv | apply keeps_next | apply inv_foldl | apply inv_foldl_fst)
    | with_reducible intro _
    | (with_reducible first | apply Memory.wf_writeBytes | apply Memory.wf_writeCells | apply Memory.wf_write | apply Memory.wf_clear)
    | split
    | (with_reducible refine wf_of ?_)
    | assumption
    | (with_reducible apply inv_of; dsimp only)
    | dsimp only
    | exact State.reset_keeps

theorem State.freeBlock_inv (s : State) (blk : Nat) (h_s : Inv s) :
    Inv (State.freeBlock s blk) := by
  unfold State.freeBlock
  try dsimp only
  repeat' first
    | (with_reducible first | assumption | apply State.dropTag_inv | apply State.setGrpAt_inv | apply State.setCoreAt_inv | apply keeps_next | apply inv_foldl | apply inv_foldl_fst)
    | with_reducible intro _
    | (with_reducible first | apply Memory.wf_writeBytes | apply Memory.wf_writeCells | apply Memory.wf_write | apply Memory.wf_clear)
    | split
    | (with_reducible refine wf_of ?_)
    | assumption
    | (with_reducible apply inv_of; dsimp only)
    | dsimp only
    | exact State.reset_keeps

theorem State.joinEnd_inv (s : State) (l : Launch) (code : Nat) (h_s : Inv s) :
    (∀ u, s.joinEnd l code = some (.ok u) → Inv u) ∧ ∀ u, s.joinEnd l code = some (.error u) → Inv u := by
  unfold State.joinEnd
  split
  · split
    · exact ⟨fun u e => (by cases e), fun u e => (by cases e; exact State.askLine_inv _ _ h_s)⟩
    · refine ⟨fun u e => ?_, fun u e => (by cases e)⟩
      cases e
      exact State.writeAs_inv _ _ _ _ (State.writeAs_inv _ _ _ _ (State.flushHome_inv _ _ (State.flushHome_inv _ _ h_s)))
  · exact ⟨fun u e => (by cases e), fun u e => (by cases e)⟩


theorem execBlockRetirement_inv (s : State) (h_s : Inv s) : Keeps (execBlockRetirement s) := by
  unfold execBlockRetirement
  dsimp only
  split
  · exact keeps_next h_s
  split
  · split
    · exact keeps_next (State.freeBlock_inv _ _ h_s)
    · exact keeps_next h_s
  split
  · exact keeps_next h_s
  split
  · exact keeps_next h_s
  rename_i t e
  have ht : Inv t := State.writeBackAll_eq e h_s
  split
  · exact keeps_next ht
  split
  · exact keeps_next h_s
  · rename_i e'; exact keeps_next ((State.joinEnd_inv _ _ _ ht).2 _ e')
  · rename_i e'; exact keeps_next (State.freeBlock_inv _ _ (State.trace_inv _ _ _ _ _ ((State.joinEnd_inv _ _ _ ht).1 _ e')))

theorem execDecouplingDeadlock_inv (s : State) (h_s : Inv s) :
    Keeps (execDecouplingDeadlock s) := by
  unfold execDecouplingDeadlock
  try dsimp only
  repeat' first
    | (with_reducible first | assumption | apply State.setGrpAt_inv | apply State.trapAt_inv | apply keeps_next | apply inv_foldl | apply inv_foldl_fst)
    | with_reducible intro _
    | (with_reducible first | apply Memory.wf_writeBytes | apply Memory.wf_writeCells | apply Memory.wf_write | apply Memory.wf_clear)
    | split
    | (with_reducible refine wf_of ?_)
    | assumption
    | (with_reducible apply inv_of; dsimp only)
    | dsimp only
    | exact State.reset_keeps

theorem execWatchdogExpiry_inv (s : State) (h_s : Inv s) :
    Keeps (execWatchdogExpiry s) := by
  unfold execWatchdogExpiry
  try dsimp only
  repeat' first
    | (with_reducible first | assumption | apply State.fatal_inv | apply keeps_next | apply inv_foldl | apply inv_foldl_fst)
    | with_reducible intro _
    | (with_reducible first | apply Memory.wf_writeBytes | apply Memory.wf_writeCells | apply Memory.wf_write | apply Memory.wf_clear)
    | split
    | (with_reducible refine wf_of ?_)
    | assumption
    | (with_reducible apply inv_of; dsimp only)
    | dsimp only
    | exact State.reset_keeps

theorem execRemoteWaitTimeout_inv (s : State) (h_s : Inv s) :
    Keeps (execRemoteWaitTimeout s) := by
  unfold execRemoteWaitTimeout
  try dsimp only
  repeat' first
    | (with_reducible first | assumption | apply State.fatal_inv | apply keeps_next | apply inv_foldl | apply inv_foldl_fst)
    | with_reducible intro _
    | (with_reducible first | apply Memory.wf_writeBytes | apply Memory.wf_writeCells | apply Memory.wf_write | apply Memory.wf_clear)
    | split
    | (with_reducible refine wf_of ?_)
    | assumption
    | (with_reducible apply inv_of; dsimp only)
    | dsimp only
    | exact State.reset_keeps

theorem execAsyncTrapTaken_inv (s : State) (h_s : Inv s) :
    Keeps (execAsyncTrapTaken s) := by
  unfold execAsyncTrapTaken
  try dsimp only
  repeat' first
    | (with_reducible first | assumption | apply State.takeAsync_inv | apply State.focus_inv | apply keeps_next | apply inv_foldl | apply inv_foldl_fst)
    | with_reducible intro _
    | (with_reducible first | apply Memory.wf_writeBytes | apply Memory.wf_writeCells | apply Memory.wf_write | apply Memory.wf_clear)
    | split
    | (with_reducible refine wf_of ?_)
    | assumption
    | (with_reducible apply inv_of; dsimp only)
    | dsimp only
    | exact State.reset_keeps

theorem State.abandon_inv (s : State) (k : Nat) (h_s : Inv s) :
    ∀ u, State.abandon s k = some u → Inv u := by
  unfold State.abandon
  try dsimp only
  repeat' first
    | (with_reducible first | assumption | apply State.setGrpAt_inv | apply keeps_next | apply inv_foldl | apply inv_foldl_fst)
    | with_reducible intro _
    | (with_reducible first | apply Memory.wf_writeBytes | apply Memory.wf_writeCells | apply Memory.wf_write | apply Memory.wf_clear)
    | split
    | (with_reducible refine wf_of ?_)
    | assumption
    | (with_reducible apply inv_of; dsimp only)
    | dsimp only
    | (rename_i e; cases e; done)
    | (rename_i e; cases e)
    | (rename_i e; dsimp only at e; split at e)
    | (rename_i e; split at e)
    | exact State.reset_keeps

theorem State.abandon_eq {s : State} {k : Nat} {u : State} (e : State.abandon s k = some u) (h_s : Inv s) : Inv u := State.abandon_inv s k h_s _ e

theorem execExternalInterrupt_inv (s : State) (h_s : Inv s) :
    Keeps (execExternalInterrupt s) := by
  unfold execExternalInterrupt
  try dsimp only
  repeat' first
    | (with_reducible first | assumption | apply State.trapAt_inv)
    | refine State.abandon_eq (by with_reducible assumption) ?_
    | (with_reducible first | apply keeps_next | apply inv_foldl | apply inv_foldl_fst)
    | with_reducible intro _
    | (with_reducible first | apply Memory.wf_writeBytes | apply Memory.wf_writeCells | apply Memory.wf_write | apply Memory.wf_clear)
    | split
    | (with_reducible refine wf_of ?_)
    | assumption
    | (with_reducible apply inv_of; dsimp only)
    | dsimp only
    | exact State.reset_keeps

theorem execTidewaitReached_inv (s : State) (h_s : Inv s) :
    Keeps (execTidewaitReached s) := by
  unfold execTidewaitReached
  try dsimp only
  repeat' first
    | (with_reducible first | assumption | apply State.setGrpAt_inv | apply keeps_next | apply inv_foldl | apply inv_foldl_fst)
    | with_reducible intro _
    | (with_reducible first | apply Memory.wf_writeBytes | apply Memory.wf_writeCells | apply Memory.wf_write | apply Memory.wf_clear)
    | split
    | (with_reducible refine wf_of ?_)
    | assumption
    | (with_reducible apply inv_of; dsimp only)
    | dsimp only
    | exact State.reset_keeps

theorem State.gangReserved_inv (s : State) (off : Nat) (h_s : Inv s) :
    Inv (State.gangReserved s off) := by
  unfold State.gangReserved
  try dsimp only
  repeat' first
    | (with_reducible first | assumption | apply State.countReg_inv | apply keeps_next | apply inv_foldl | apply inv_foldl_fst)
    | with_reducible intro _
    | (with_reducible first | apply Memory.wf_writeBytes | apply Memory.wf_writeCells | apply Memory.wf_write | apply Memory.wf_clear)
    | split
    | (with_reducible refine wf_of ?_)
    | assumption
    | (with_reducible apply inv_of; dsimp only)
    | dsimp only
    | exact State.reset_keeps

theorem execGangSuspend_inv (s : State) (h_s : Inv s) :
    Keeps (execGangSuspend s) := by
  unfold execGangSuspend
  try dsimp only
  repeat' first
    | (with_reducible first | assumption | apply State.setPart_inv | apply State.gangReserved_inv | apply State.countReg_inv | apply keeps_next | apply inv_foldl | apply inv_foldl_fst)
    | with_reducible intro _
    | (with_reducible first | apply Memory.wf_writeBytes | apply Memory.wf_writeCells | apply Memory.wf_write | apply Memory.wf_clear)
    | split
    | (with_reducible refine wf_of ?_)
    | assumption
    | (with_reducible apply inv_of; dsimp only)
    | dsimp only
    | exact State.reset_keeps

theorem State.strike_inv (s : State) (blk : Nat) (h_s : Inv s) :
    Inv (State.strike s blk) := by
  unfold State.strike
  try dsimp only
  repeat' first
    | (with_reducible first | assumption | apply State.setGrpAt_inv | apply State.markP1_inv | apply State.setBlkAt_inv | apply keeps_next | apply inv_foldl | apply inv_foldl_fst)
    | with_reducible intro _
    | (with_reducible first | apply Memory.wf_writeBytes | apply Memory.wf_writeCells | apply Memory.wf_write | apply Memory.wf_clear)
    | split
    | (with_reducible refine wf_of ?_)
    | assumption
    | (with_reducible apply inv_of; dsimp only)
    | dsimp only
    | exact State.reset_keeps

theorem execGangStrike_inv (s : State) (h_s : Inv s) :
    Keeps (execGangStrike s) := by
  unfold execGangStrike
  try dsimp only
  repeat' first
    | (with_reducible first | assumption | apply State.checkpoint_inv | apply State.strike_inv | apply State.letThrough_inv | apply keeps_next | apply inv_foldl | apply inv_foldl_fst)
    | with_reducible intro _
    | (with_reducible first | apply Memory.wf_writeBytes | apply Memory.wf_writeCells | apply Memory.wf_write | apply Memory.wf_clear)
    | split
    | (with_reducible refine wf_of ?_)
    | assumption
    | (with_reducible apply inv_of; dsimp only)
    | dsimp only
    | exact State.reset_keeps

theorem State.resumeBlock_inv (s : State) (blk : Nat) (h_s : Inv s) :
    Inv (State.resumeBlock s blk) := by
  unfold State.resumeBlock
  try dsimp only
  repeat' first
    | (with_reducible first | assumption | apply State.setBlkAt_inv | apply State.setCoreAt_inv | apply State.setGrpAt_inv | apply State.trace_inv | apply keeps_next | apply inv_foldl | apply inv_foldl_fst)
    | with_reducible intro _
    | (with_reducible first | apply Memory.wf_writeBytes | apply Memory.wf_writeCells | apply Memory.wf_write | apply Memory.wf_clear)
    | split
    | (with_reducible refine wf_of ?_)
    | assumption
    | (with_reducible apply inv_of; dsimp only)
    | dsimp only
    | exact State.reset_keeps

theorem execGangResume_inv (s : State) (h_s : Inv s) :
    Keeps (execGangResume s) := by
  unfold execGangResume
  try dsimp only
  repeat' first
    | (with_reducible first | assumption | apply State.setPart_inv | apply State.gangReserved_inv | apply State.resumeBlock_inv | apply State.countReg_inv | apply keeps_next | apply inv_foldl | apply inv_foldl_fst)
    | with_reducible intro _
    | (with_reducible first | apply Memory.wf_writeBytes | apply Memory.wf_writeCells | apply Memory.wf_write | apply Memory.wf_clear)
    | split
    | (with_reducible refine wf_of ?_)
    | assumption
    | (with_reducible apply inv_of; dsimp only)
    | dsimp only
    | exact State.reset_keeps

theorem State.setJetty_inv (s : State) (j : Nat) (v : Jetty) (h_s : Inv s) :
    Inv (State.setJetty s j v) := by
  unfold State.setJetty
  try dsimp only
  repeat' first
    | (with_reducible first | assumption | apply keeps_next | apply inv_foldl | apply inv_foldl_fst)
    | with_reducible intro _
    | (with_reducible first | apply Memory.wf_writeBytes | apply Memory.wf_writeCells | apply Memory.wf_write | apply Memory.wf_clear)
    | split
    | (with_reducible refine wf_of ?_)
    | assumption
    | (with_reducible apply inv_of; dsimp only)
    | dsimp only
    | exact State.reset_keeps

theorem State.wake_inv (s : State) (n : Notice) (h_s : Inv s) :
    Inv (State.wake s n) := by
  unfold State.wake
  try dsimp only
  repeat' first
    | (with_reducible first | assumption | apply State.l1Clear_inv | apply State.setBlkAt_inv | apply State.setJetty_inv | apply State.setGrpAt_inv | apply State.setCoreAt_inv | apply State.fatal_inv | apply keeps_next | apply inv_foldl | apply inv_foldl_fst)
    | with_reducible intro _
    | (with_reducible first | apply Memory.wf_writeBytes | apply Memory.wf_writeCells | apply Memory.wf_write | apply Memory.wf_clear)
    | split
    | (with_reducible refine wf_of ?_)
    | assumption
    | (with_reducible apply inv_of; dsimp only)
    | dsimp only
    | exact State.reset_keeps

theorem State.setPagerQueue_inv (s : State) (p : Nat) (q : Nat) (v : PagerQueue) (h_s : Inv s) :
    Inv (State.setPagerQueue s p q v) := by
  unfold State.setPagerQueue
  try dsimp only
  repeat' first
    | (with_reducible first | assumption | apply State.setPart_inv | apply keeps_next | apply inv_foldl | apply inv_foldl_fst)
    | with_reducible intro _
    | (with_reducible first | apply Memory.wf_writeBytes | apply Memory.wf_writeCells | apply Memory.wf_write | apply Memory.wf_clear)
    | split
    | (with_reducible refine wf_of ?_)
    | assumption
    | (with_reducible apply inv_of; dsimp only)
    | dsimp only
    | exact State.reset_keeps

theorem execNoticeWrite_inv (s : State) (h_s : Inv s) :
    Keeps (execNoticeWrite s) := by
  unfold execNoticeWrite
  try dsimp only
  repeat' first
    | (with_reducible first | assumption | apply State.setPagerQueue_inv | apply State.wake_inv | apply keeps_next | apply inv_foldl | apply inv_foldl_fst)
    | with_reducible intro _
    | (with_reducible first | apply Memory.wf_writeBytes | apply Memory.wf_writeCells | apply Memory.wf_write | apply Memory.wf_clear)
    | split
    | (with_reducible refine wf_of ?_)
    | assumption
    | (with_reducible apply inv_of; dsimp only)
    | dsimp only
    | exact State.reset_keeps

theorem State.shootDirty_inv (s : State) (l : List DirtySector) (h_s : Inv s) : Inv (s.shootDirty l) := by
  induction l generalizing s with
  | nil => exact h_s
  | cons x l ih => exact ih _ (State.hostEvict_inv _ _ _ (State.sectorHome_inv _ _ _ h_s))

theorem State.shootdown_inv (s : State) (r : Shoot) (h_s : Inv s) :
    Inv (State.shootdown s r) := by
  unfold State.shootdown
  try dsimp only
  repeat' first
    | (with_reducible first | assumption | apply State.shootDirty_inv | apply keeps_next | apply inv_foldl | apply inv_foldl_fst)
    | with_reducible intro _
    | (with_reducible first | apply Memory.wf_writeBytes | apply Memory.wf_writeCells | apply Memory.wf_write | apply Memory.wf_clear)
    | split
    | (with_reducible refine wf_of ?_)
    | assumption
    | (with_reducible apply inv_of; dsimp only)
    | dsimp only
    | exact State.reset_keeps

theorem execShootdownRequest_inv (s : State) (h_s : Inv s) :
    Keeps (execShootdownRequest s) := by
  unfold execShootdownRequest
  try dsimp only
  repeat' first
    | (with_reducible first | assumption | apply State.countReg_inv | apply keeps_next | apply inv_foldl | apply inv_foldl_fst)
    | with_reducible intro _
    | (with_reducible first | apply Memory.wf_writeBytes | apply Memory.wf_writeCells | apply Memory.wf_write | apply Memory.wf_clear)
    | split
    | (with_reducible refine wf_of ?_)
    | assumption
    | (with_reducible apply inv_of; dsimp only)
    | dsimp only
    | exact State.reset_keeps

theorem State.setHq_inv (s : State) (p : Nat) (h_ : Nat) (v : HostQueue) (h_s : Inv s) :
    Inv (State.setHq s p h_ v) := by
  unfold State.setHq
  try dsimp only
  repeat' first
    | (with_reducible first | assumption | apply State.setPart_inv | apply keeps_next | apply inv_foldl | apply inv_foldl_fst)
    | with_reducible intro _
    | (with_reducible first | apply Memory.wf_writeBytes | apply Memory.wf_writeCells | apply Memory.wf_write | apply Memory.wf_clear)
    | split
    | (with_reducible refine wf_of ?_)
    | assumption
    | (with_reducible apply inv_of; dsimp only)
    | dsimp only
    | exact State.reset_keeps

theorem State.raiseIrq_inv (s : State) (p : Nat) (h_ : Nat) (h_s : Inv s) :
    Inv (State.raiseIrq s p h_) := by
  unfold State.raiseIrq
  try dsimp only
  repeat' first
    | (with_reducible first | assumption | apply keeps_next | apply inv_foldl | apply inv_foldl_fst)
    | with_reducible intro _
    | (with_reducible first | apply Memory.wf_writeBytes | apply Memory.wf_writeCells | apply Memory.wf_write | apply Memory.wf_clear)
    | split
    | (with_reducible refine wf_of ?_)
    | assumption
    | (with_reducible apply inv_of; dsimp only)
    | dsimp only
    | exact State.reset_keeps

theorem State.complete_inv (s : State) (p : Nat) (h_ : Nat) (pos : Nat) (status : Nat) (h_s : Inv s) :
    Inv (State.complete s p h_ pos status) := by
  unfold State.complete
  try dsimp only
  repeat' first
    | (with_reducible first | assumption | apply State.raiseIrq_inv | apply State.setHq_inv | apply State.performStore_inv | apply State.writeAs_inv | apply keeps_next | apply inv_foldl | apply inv_foldl_fst)
    | with_reducible intro _
    | (with_reducible first | apply Memory.wf_writeBytes | apply Memory.wf_writeCells | apply Memory.wf_write | apply Memory.wf_clear)
    | split
    | (with_reducible refine wf_of ?_)
    | assumption
    | (with_reducible apply inv_of; dsimp only)
    | dsimp only
    | exact State.reset_keeps

theorem whenLines_inv (s : State) (l : List (Nat × Nat)) (k : Out) (h_s : Inv s) (h_k : Keeps k) :
    Keeps (whenLines s l k) := by
  unfold whenLines
  try dsimp only
  repeat' first
    | (with_reducible first | assumption | apply State.askLine_inv | apply keeps_next | apply inv_foldl | apply inv_foldl_fst)
    | with_reducible intro _
    | (with_reducible first | apply Memory.wf_writeBytes | apply Memory.wf_writeCells | apply Memory.wf_write | apply Memory.wf_clear)
    | split
    | (with_reducible refine wf_of ?_)
    | assumption
    | (with_reducible apply inv_of; dsimp only)
    | dsimp only
    | exact State.reset_keeps

theorem State.setOwn_inv (s : State) (a : Nat × Nat) (own : Nat) (h_s : Inv s) :
    Inv (State.setOwn s a own) := by
  unfold State.setOwn
  try dsimp only
  repeat' first
    | (with_reducible first | assumption | apply State.performStore_inv | apply State.writeAs_inv | apply keeps_next | apply inv_foldl | apply inv_foldl_fst)
    | with_reducible intro _
    | (with_reducible first | apply Memory.wf_writeBytes | apply Memory.wf_writeCells | apply Memory.wf_write | apply Memory.wf_clear)
    | split
    | (with_reducible refine wf_of ?_)
    | assumption
    | (with_reducible apply inv_of; dsimp only)
    | dsimp only
    | exact State.reset_keeps

theorem State.endShoot_inv (s : State) (st : Nat) (r : Shoot) (h_s : Inv s) :
    Inv (State.endShoot s st r) := by
  unfold State.endShoot
  try dsimp only
  repeat' first
    | (with_reducible first | assumption | apply State.performStore_inv | apply State.writeAs_inv | apply State.complete_inv | apply State.setOwn_inv | apply keeps_next | apply inv_foldl | apply inv_foldl_fst)
    | with_reducible intro _
    | (with_reducible first | apply Memory.wf_writeBytes | apply Memory.wf_writeCells | apply Memory.wf_write | apply Memory.wf_clear)
    | split
    | (with_reducible refine wf_of ?_)
    | assumption
    | (with_reducible apply inv_of; dsimp only)
    | dsimp only
    | exact State.reset_keeps

theorem execShootdownDone_inv (s : State) (h_s : Inv s) :
    Keeps (execShootdownDone s) := by
  unfold execShootdownDone
  try dsimp only
  repeat' first
    | (with_reducible first | assumption | apply whenLines_inv | apply State.endShoot_inv | apply State.shootdown_inv | apply keeps_next | apply inv_foldl | apply inv_foldl_fst)
    | with_reducible intro _
    | (with_reducible first | apply Memory.wf_writeBytes | apply Memory.wf_writeCells | apply Memory.wf_write | apply Memory.wf_clear)
    | split
    | (with_reducible refine wf_of ?_)
    | assumption
    | (with_reducible apply inv_of; dsimp only)
    | dsimp only
    | exact State.reset_keeps

theorem State.refillGroup_inv (s : State) (p n : Nat) (h_s : Inv s) : Inv (s.refillGroup p n) := by
  unfold State.refillGroup
  exact State.setPart_inv _ _ _ (inv_regs _ (inv_foldl (fun t c ht => inv_ite ht (State.setCoreAt_inv _ _ _ ht)) h_s))

theorem execBreakwaterRefill_inv (s : State) (h_s : Inv s) :
    Keeps (execBreakwaterRefill s) := by
  unfold execBreakwaterRefill
  try dsimp only
  repeat' first
    | (with_reducible first | assumption | apply State.letThrough_inv | apply State.setPart_inv | apply State.refillGroup_inv | apply keeps_next | apply inv_foldl | apply inv_foldl_fst)
    | with_reducible intro _
    | (with_reducible first | apply Memory.wf_writeBytes | apply Memory.wf_writeCells | apply Memory.wf_write | apply Memory.wf_clear)
    | split
    | (with_reducible refine wf_of ?_)
    | assumption
    | (with_reducible apply inv_of; dsimp only)
    | dsimp only
    | exact State.reset_keeps

theorem execBreakwaterPass_inv (s : State) (h_s : Inv s) :
    Keeps (execBreakwaterPass s) := by
  unfold execBreakwaterPass
  try dsimp only
  repeat' first
    | (with_reducible first | assumption | apply State.setCoreAt_inv | apply keeps_next | apply inv_foldl | apply inv_foldl_fst)
    | with_reducible intro _
    | (with_reducible first | apply Memory.wf_writeBytes | apply Memory.wf_writeCells | apply Memory.wf_write | apply Memory.wf_clear)
    | split
    | (with_reducible refine wf_of ?_)
    | assumption
    | (with_reducible apply inv_of; dsimp only)
    | dsimp only
    | exact State.reset_keeps

theorem State.countBlockEcc_inv (s : State) (off : Nat) (bad : Bool) (h_s : Inv s) :
    Inv (State.countBlockEcc s off bad) := by
  unfold State.countBlockEcc
  try dsimp only
  repeat' first
    | (with_reducible first | assumption | apply keeps_next | apply inv_foldl | apply inv_foldl_fst)
    | with_reducible intro _
    | (with_reducible first | apply Memory.wf_writeBytes | apply Memory.wf_writeCells | apply Memory.wf_write | apply Memory.wf_clear)
    | split
    | (with_reducible refine wf_of ?_)
    | assumption
    | (with_reducible apply inv_of; dsimp only)
    | dsimp only
    | exact State.reset_keeps

theorem State.countUnit_inv (s : State) (key : Nat) (die : Nat) (bad : Bool) (h_s : Inv s) :
    Inv (State.countUnit s key die bad) := by
  unfold State.countUnit
  try dsimp only
  repeat' first
    | (with_reducible first | assumption | apply State.countBlockEcc_inv | apply State.countEcc_inv | apply keeps_next | apply inv_foldl | apply inv_foldl_fst)
    | with_reducible intro _
    | (with_reducible first | apply Memory.wf_writeBytes | apply Memory.wf_writeCells | apply Memory.wf_write | apply Memory.wf_clear)
    | split
    | (with_reducible refine wf_of ?_)
    | assumption
    | (with_reducible apply inv_of; dsimp only)
    | dsimp only
    | exact State.reset_keeps

theorem State.addPoison_inv (s : State) (key : Nat) (h_s : Inv s) :
    Inv (State.addPoison s key) := by
  unfold State.addPoison
  try dsimp only
  repeat' first
    | (with_reducible first | assumption | apply keeps_next | apply inv_foldl | apply inv_foldl_fst)
    | with_reducible intro _
    | (with_reducible first | apply Memory.wf_writeBytes | apply Memory.wf_writeCells | apply Memory.wf_write | apply Memory.wf_clear)
    | split
    | (with_reducible refine wf_of ?_)
    | assumption
    | (with_reducible apply inv_of; dsimp only)
    | dsimp only
    | exact State.reset_keeps

theorem State.storageFatal_inv (s : State) (blk : Nat) (k : Nat) (h_s : Inv s) :
    Inv (State.storageFatal s blk k) := by
  unfold State.storageFatal
  try dsimp only
  repeat' first
    | (with_reducible first | assumption | apply State.fatal_inv | apply keeps_next | apply inv_foldl | apply inv_foldl_fst)
    | with_reducible intro _
    | (with_reducible first | apply Memory.wf_writeBytes | apply Memory.wf_writeCells | apply Memory.wf_write | apply Memory.wf_clear)
    | split
    | (with_reducible refine wf_of ?_)
    | assumption
    | (with_reducible apply inv_of; dsimp only)
    | dsimp only
    | exact State.reset_keeps

theorem State.haltWorld_inv (s : State) (w : Nat) (h_s : Inv s) :
    Inv (State.haltWorld s w) := by
  unfold State.haltWorld
  try dsimp only
  repeat' first
    | (with_reducible first | assumption | apply State.fatal_inv | apply keeps_next | apply inv_foldl | apply inv_foldl_fst)
    | with_reducible intro _
    | (with_reducible first | apply Memory.wf_writeBytes | apply Memory.wf_writeCells | apply Memory.wf_write | apply Memory.wf_clear)
    | split
    | (with_reducible refine wf_of ?_)
    | assumption
    | (with_reducible apply inv_of; dsimp only)
    | dsimp only
    | exact State.reset_keeps

theorem State.eccFate_inv (s : State) (a : EccSite) (h_s : Inv s) :
    Inv (State.eccFate s a) := by
  unfold State.eccFate
  try dsimp only
  repeat' first
    | (with_reducible first | assumption | apply State.storageFatal_inv | apply State.addPoison_inv | apply State.setCoreAt_inv | apply State.haltWorld_inv | apply keeps_next | apply inv_foldl | apply inv_foldl_fst)
    | with_reducible intro _
    | (with_reducible first | apply Memory.wf_writeBytes | apply Memory.wf_writeCells | apply Memory.wf_write | apply Memory.wf_clear)
    | split
    | (with_reducible refine wf_of ?_)
    | assumption
    | (with_reducible apply inv_of; dsimp only)
    | dsimp only
    | exact State.reset_keeps

theorem State.eccCount_inv (s : State) (die : Nat) (bad : Bool) (a : EccSite) (h_s : Inv s) :
    Inv (State.eccCount s die bad a) := by
  unfold State.eccCount
  try dsimp only
  repeat' first
    | (with_reducible first | assumption | apply State.countUnit_inv | apply State.countEcc_inv | apply keeps_next | apply inv_foldl | apply inv_foldl_fst)
    | with_reducible intro _
    | (with_reducible first | apply Memory.wf_writeBytes | apply Memory.wf_writeCells | apply Memory.wf_write | apply Memory.wf_clear)
    | split
    | (with_reducible refine wf_of ?_)
    | assumption
    | (with_reducible apply inv_of; dsimp only)
    | dsimp only
    | exact State.reset_keeps

theorem execEccError_inv (s : State) (h_s : Inv s) :
    Keeps (execEccError s) := by
  unfold execEccError
  try dsimp only
  repeat' first
    | (with_reducible first | assumption | apply State.setCoreAt_inv | apply State.eccCount_inv | apply State.eccFate_inv | apply keeps_next | apply inv_foldl | apply inv_foldl_fst)
    | with_reducible intro _
    | (with_reducible first | apply Memory.wf_writeBytes | apply Memory.wf_writeCells | apply Memory.wf_write | apply Memory.wf_clear)
    | split
    | (with_reducible refine wf_of ?_)
    | assumption
    | (with_reducible apply inv_of; dsimp only)
    | dsimp only
    | exact State.reset_keeps

theorem execKilsetWrite_inv (s : State) (h_s : Inv s) :
    Keeps (execKilsetWrite s) := by
  unfold execKilsetWrite
  try dsimp only
  repeat' first
    | (with_reducible first | assumption | apply State.coreRegWrite_inv | apply keeps_next | apply inv_foldl | apply inv_foldl_fst)
    | with_reducible intro _
    | (with_reducible first | apply Memory.wf_writeBytes | apply Memory.wf_writeCells | apply Memory.wf_write | apply Memory.wf_clear)
    | split
    | (with_reducible refine wf_of ?_)
    | assumption
    | (with_reducible apply inv_of; dsimp only)
    | dsimp only
    | exact State.reset_keeps

theorem execMondbClear_inv (s : State) (h_s : Inv s) :
    Keeps (execMondbClear s) := by
  unfold execMondbClear
  try dsimp only
  repeat' first
    | (with_reducible first | assumption | apply State.coreRegWrite_inv | apply keeps_next | apply inv_foldl | apply inv_foldl_fst)
    | with_reducible intro _
    | (with_reducible first | apply Memory.wf_writeBytes | apply Memory.wf_writeCells | apply Memory.wf_write | apply Memory.wf_clear)
    | split
    | (with_reducible refine wf_of ?_)
    | assumption
    | (with_reducible apply inv_of; dsimp only)
    | dsimp only
    | exact State.reset_keeps

theorem execMbctrWrite_inv (s : State) (h_s : Inv s) :
    Keeps (execMbctrWrite s) := by
  unfold execMbctrWrite
  try dsimp only
  repeat' first
    | (with_reducible first | assumption | apply State.coreRegWrite_inv | apply keeps_next | apply inv_foldl | apply inv_foldl_fst)
    | with_reducible intro _
    | (with_reducible first | apply Memory.wf_writeBytes | apply Memory.wf_writeCells | apply Memory.wf_write | apply Memory.wf_clear)
    | split
    | (with_reducible refine wf_of ?_)
    | assumption
    | (with_reducible apply inv_of; dsimp only)
    | dsimp only
    | exact State.reset_keeps

theorem execBlkerrWrite_inv (s : State) (h_s : Inv s) :
    Keeps (execBlkerrWrite s) := by
  unfold execBlkerrWrite
  try dsimp only
  repeat' first
    | (with_reducible first | assumption | apply State.coreRegWrite_inv | apply State.countReg_inv | apply keeps_next | apply inv_foldl | apply inv_foldl_fst)
    | with_reducible intro _
    | (with_reducible first | apply Memory.wf_writeBytes | apply Memory.wf_writeCells | apply Memory.wf_write | apply Memory.wf_clear)
    | split
    | (with_reducible refine wf_of ?_)
    | assumption
    | (with_reducible apply inv_of; dsimp only)
    | dsimp only
    | exact State.reset_keeps

theorem execPartdieWrite_inv (s : State) (h_s : Inv s) :
    Keeps (execPartdieWrite s) := by
  unfold execPartdieWrite
  try dsimp only
  repeat' first
    | (with_reducible first | assumption | apply State.countReg_inv | apply keeps_next | apply inv_foldl | apply inv_foldl_fst)
    | with_reducible intro _
    | (with_reducible first | apply Memory.wf_writeBytes | apply Memory.wf_writeCells | apply Memory.wf_write | apply Memory.wf_clear)
    | split
    | (with_reducible refine wf_of ?_)
    | assumption
    | (with_reducible apply inv_of; dsimp only)
    | dsimp only
    | exact State.reset_keeps

theorem State.commit_inv (s : State) (h_s : Inv s) :
    Inv (State.commit s) := by
  unfold State.commit
  try dsimp only
  repeat' first
    | (with_reducible first | assumption | apply keeps_next | apply inv_foldl | apply inv_foldl_fst)
    | with_reducible intro _
    | (with_reducible first | apply Memory.wf_writeBytes | apply Memory.wf_writeCells | apply Memory.wf_write | apply Memory.wf_clear)
    | split
    | (with_reducible refine wf_of ?_)
    | assumption
    | (with_reducible apply inv_of; dsimp only)
    | dsimp only
    | exact State.reset_keeps

theorem execBootstStageWrite_inv (s : State) (h_s : Inv s) :
    Keeps (execBootstStageWrite s) := by
  unfold execBootstStageWrite
  try dsimp only
  repeat' first
    | (with_reducible first | assumption | apply State.commit_inv | apply State.countReg_inv | apply keeps_next | apply inv_foldl | apply inv_foldl_fst)
    | with_reducible intro _
    | (with_reducible first | apply Memory.wf_writeBytes | apply Memory.wf_writeCells | apply Memory.wf_write | apply Memory.wf_clear)
    | split
    | (with_reducible refine wf_of ?_)
    | assumption
    | (with_reducible apply inv_of; dsimp only)
    | dsimp only
    | exact State.reset_keeps

theorem execBstoreWrite_inv (s : State) (h_s : Inv s) :
    Keeps (execBstoreWrite s) := by
  unfold execBstoreWrite
  try dsimp only
  repeat' first
    | (with_reducible first | assumption | apply State.storeCells_inv | apply State.countReg_inv | apply keeps_next | apply inv_foldl | apply inv_foldl_fst)
    | with_reducible intro _
    | (with_reducible first | apply Memory.wf_writeBytes | apply Memory.wf_writeCells | apply Memory.wf_write | apply Memory.wf_clear)
    | split
    | (with_reducible refine wf_of ?_)
    | assumption
    | (with_reducible apply inv_of; dsimp only)
    | dsimp only
    | exact State.reset_keeps

theorem execHqReset_inv (s : State) (h_s : Inv s) :
    Keeps (execHqReset s) := by
  unfold execHqReset
  try dsimp only
  repeat' first
    | (with_reducible first | assumption | apply State.countReg_inv | apply State.setHq_inv | apply keeps_next | apply inv_foldl | apply inv_foldl_fst)
    | with_reducible intro _
    | (with_reducible first | apply Memory.wf_writeBytes | apply Memory.wf_writeCells | apply Memory.wf_write | apply Memory.wf_clear)
    | split
    | (with_reducible refine wf_of ?_)
    | assumption
    | (with_reducible apply inv_of; dsimp only)
    | dsimp only
    | exact State.reset_keeps

theorem State.drainPager_inv (s : State) (p q n : Nat) (h_s : Inv s) : Inv (s.drainPager p q n) := by
  induction n generalizing s with
  | zero => exact h_s
  | succ n ih =>
    unfold State.drainPager
    dsimp only
    split
    · exact h_s
    split
    · exact h_s
    · exact ih _ (State.homeWrite_inv _ _ _ h_s)

theorem State.pagerWrite_inv (s : State) (p : Nat) (q : Nat) (o : Nat) (v : W64) (h_s : Inv s) :
    Inv (State.pagerWrite s p q o v) := by
  unfold State.pagerWrite
  try dsimp only
  repeat' first
    | (with_reducible first | assumption | apply State.setPart_inv | apply State.drainPager_inv | apply keeps_next | apply inv_foldl | apply inv_foldl_fst)
    | with_reducible intro _
    | (with_reducible first | apply Memory.wf_writeBytes | apply Memory.wf_writeCells | apply Memory.wf_write | apply Memory.wf_clear)
    | split
    | (with_reducible refine wf_of ?_)
    | assumption
    | (with_reducible apply inv_of; dsimp only)
    | dsimp only
    | exact State.reset_keeps

theorem State.hostQueueWrite_inv (s : State) (p : Nat) (h_ : Nat) (o : Nat) (v : W64) (h_s : Inv s) :
    Inv (State.hostQueueWrite s p h_ o v) := by
  unfold State.hostQueueWrite
  try dsimp only
  repeat' first
    | (with_reducible first | assumption | apply State.setHq_inv | apply keeps_next | apply inv_foldl | apply inv_foldl_fst)
    | with_reducible intro _
    | (with_reducible first | apply Memory.wf_writeBytes | apply Memory.wf_writeCells | apply Memory.wf_write | apply Memory.wf_clear)
    | split
    | (with_reducible refine wf_of ?_)
    | assumption
    | (with_reducible apply inv_of; dsimp only)
    | dsimp only
    | exact State.reset_keeps

theorem State.callWrite_inv (s : State) (off : Nat) (v : W64) (h_s : Inv s) :
    Inv (State.callWrite s off v) := by
  unfold State.callWrite
  try dsimp only
  repeat' first
    | (with_reducible first | assumption | apply State.countReg_inv | apply keeps_next | apply inv_foldl | apply inv_foldl_fst)
    | with_reducible intro _
    | (with_reducible first | apply Memory.wf_writeBytes | apply Memory.wf_writeCells | apply Memory.wf_write | apply Memory.wf_clear)
    | split
    | (with_reducible refine wf_of ?_)
    | assumption
    | (with_reducible apply inv_of; dsimp only)
    | dsimp only
    | exact State.reset_keeps

theorem State.spaceWrite_inv (s : State) (off : Nat) (v : W64) (mask : W64) (h_s : Inv s) :
    Inv (State.spaceWrite s off v mask) := by
  unfold State.spaceWrite
  try dsimp only
  repeat' first
    | (with_reducible first | assumption | apply State.countReg_inv | apply State.callWrite_inv | apply State.pagerWrite_inv | apply State.hostQueueWrite_inv | apply State.plainWrite_inv | apply keeps_next | apply inv_foldl | apply inv_foldl_fst)
    | with_reducible intro _
    | (with_reducible first | apply Memory.wf_writeBytes | apply Memory.wf_writeCells | apply Memory.wf_write | apply Memory.wf_clear)
    | split
    | (with_reducible refine wf_of ?_)
    | assumption
    | (with_reducible apply inv_of; dsimp only)
    | dsimp only
    | exact State.reset_keeps

theorem State.dropPosted_inv (s : State) (p : Nat) (h_s : Inv s) :
    Inv (State.dropPosted s p) := by
  unfold State.dropPosted
  try dsimp only
  repeat' first
    | (with_reducible first | assumption | apply keeps_next | apply inv_foldl | apply inv_foldl_fst)
    | with_reducible intro _
    | (with_reducible first | apply Memory.wf_writeBytes | apply Memory.wf_writeCells | apply Memory.wf_write | apply Memory.wf_clear)
    | split
    | (with_reducible refine wf_of ?_)
    | assumption
    | (with_reducible apply inv_of; dsimp only)
    | dsimp only
    | exact State.reset_keeps

theorem execRegisterWrite_inv (s : State) (h_s : Inv s) :
    Keeps (execRegisterWrite s) := by
  unfold execRegisterWrite
  try dsimp only
  repeat' first
    | (with_reducible first | assumption | apply State.dropPosted_inv | apply State.coreRegWrite_inv | apply State.countReg_inv | apply State.spaceWrite_inv | apply keeps_next | apply inv_foldl | apply inv_foldl_fst)
    | with_reducible intro _
    | (with_reducible first | apply Memory.wf_writeBytes | apply Memory.wf_writeCells | apply Memory.wf_write | apply Memory.wf_clear)
    | split
    | (with_reducible refine wf_of ?_)
    | assumption
    | (with_reducible apply inv_of; dsimp only)
    | dsimp only
    | exact State.reset_keeps

theorem execEntropyHealthTestFailure_inv (s : State) (h_s : Inv s) :
    Keeps (execEntropyHealthTestFailure s) := by
  unfold execEntropyHealthTestFailure
  try dsimp only
  repeat' first
    | (with_reducible first | assumption | apply keeps_next | apply inv_foldl | apply inv_foldl_fst)
    | with_reducible intro _
    | (with_reducible first | apply Memory.wf_writeBytes | apply Memory.wf_writeCells | apply Memory.wf_write | apply Memory.wf_clear)
    | split
    | (with_reducible refine wf_of ?_)
    | assumption
    | (with_reducible apply inv_of; dsimp only)
    | dsimp only
    | exact State.reset_keeps

theorem State.applyFuses_inv (s : State) (bank : Nat) (h_s : Inv s) : Inv (s.applyFuses bank) := by
  unfold State.applyFuses
  refine inv_ite h_s ?_
  dsimp only
  cases s.fuseCommand s.boot.fuse0 bank
  · exact h_s
  · exact State.zeroRange_inv _ _ _ h_s

theorem State.bootBank_inv (s : State) (bank : Nat) (fell : Bool) (h_s : Inv s) : Inv (s.bootBank bank fell) := by
  unfold State.bootBank
  exact inv_boot_sec _ _ (State.applyFuses_inv _ _ (inv_boot _ h_s))

theorem State.bootHalt_inv (t : State) (stage : Nat) (cause : Nat) (kind : Nat) (h_t : Inv t) :
    Inv (State.bootHalt t stage cause kind) := by
  unfold State.bootHalt
  try dsimp only
  repeat' first
    | (with_reducible first | assumption | apply keeps_next | apply inv_foldl | apply inv_foldl_fst)
    | with_reducible intro _
    | (with_reducible first | apply Memory.wf_writeBytes | apply Memory.wf_writeCells | apply Memory.wf_write | apply Memory.wf_clear)
    | split
    | (with_reducible refine wf_of ?_)
    | assumption
    | (with_reducible apply inv_of; dsimp only)
    | dsimp only
    | exact State.reset_keeps

theorem State.bootBanks_inv (t : State) (h_t : Inv t) :
    Inv (State.bootBanks t) := by
  unfold State.bootBanks
  try dsimp only
  repeat' first
    | (with_reducible first | assumption | apply State.bootBank_inv | apply State.bootHalt_inv | apply keeps_next | apply inv_foldl | apply inv_foldl_fst)
    | with_reducible intro _
    | (with_reducible first | apply Memory.wf_writeBytes | apply Memory.wf_writeCells | apply Memory.wf_write | apply Memory.wf_clear)
    | split
    | (with_reducible refine wf_of ?_)
    | assumption
    | (with_reducible apply inv_of; dsimp only)
    | dsimp only
    | exact State.reset_keeps

theorem State.bootRun_inv (s : State) (h_s : Inv s) :
    Inv (State.bootRun s) := by
  unfold State.bootRun
  try dsimp only
  repeat' first
    | (with_reducible first | assumption | apply State.bootHalt_inv | apply State.bootBanks_inv | apply keeps_next | apply inv_foldl | apply inv_foldl_fst)
    | with_reducible intro _
    | (with_reducible first | apply Memory.wf_writeBytes | apply Memory.wf_writeCells | apply Memory.wf_write | apply Memory.wf_clear)
    | split
    | (with_reducible refine wf_of ?_)
    | assumption
    | (with_reducible apply inv_of; dsimp only)
    | dsimp only
    | exact State.reset_keeps

theorem State.powerUp_inv (s : State) (h_s : Inv s) :
    Inv (State.powerUp s) := by
  unfold State.powerUp
  try dsimp only
  repeat' first
    | (with_reducible first | assumption | apply keeps_next | apply inv_foldl | apply inv_foldl_fst)
    | with_reducible intro _
    | (with_reducible first | apply Memory.wf_writeBytes | apply Memory.wf_writeCells | apply Memory.wf_write | apply Memory.wf_clear)
    | split
    | (with_reducible refine wf_of ?_)
    | assumption
    | (with_reducible apply inv_of; dsimp only)
    | dsimp only
    | exact State.reset_keeps

theorem execColdReset_inv (s : State) (h_s : Inv s) :
    Keeps (execColdReset s) := by
  unfold execColdReset
  try dsimp only
  repeat' first
    | (with_reducible first | assumption | apply State.powerUp_inv | apply State.bootRun_inv | apply keeps_next | apply inv_foldl | apply inv_foldl_fst)
    | with_reducible intro _
    | (with_reducible first | apply Memory.wf_writeBytes | apply Memory.wf_writeCells | apply Memory.wf_write | apply Memory.wf_clear)
    | split
    | (with_reducible refine wf_of ?_)
    | assumption
    | (with_reducible apply inv_of; dsimp only)
    | dsimp only
    | exact State.reset_keeps

theorem execFailoverTimer_inv (s : State) (h_s : Inv s) :
    Keeps (execFailoverTimer s) := by
  unfold execFailoverTimer
  try dsimp only
  repeat' first
    | (with_reducible first | assumption | apply State.bootRun_inv | apply keeps_next | apply inv_foldl | apply inv_foldl_fst)
    | with_reducible intro _
    | (with_reducible first | apply Memory.wf_writeBytes | apply Memory.wf_writeCells | apply Memory.wf_write | apply Memory.wf_clear)
    | split
    | (with_reducible refine wf_of ?_)
    | assumption
    | (with_reducible apply inv_of; dsimp only)
    | dsimp only
    | exact State.reset_keeps

theorem State.endCall_inv (s : State) (k : Nat) (w : List Nat) (status : Nat) (res2 : Nat) (h_s : Inv s) :
    Inv (State.endCall s k w status res2) := by
  unfold State.endCall
  try dsimp only
  repeat' first
    | (with_reducible first | assumption | apply keeps_next | apply inv_foldl | apply inv_foldl_fst)
    | with_reducible intro _
    | (with_reducible first | apply Memory.wf_writeBytes | apply Memory.wf_writeCells | apply Memory.wf_write | apply Memory.wf_clear)
    | split
    | (with_reducible refine wf_of ?_)
    | assumption
    | (with_reducible apply inv_of; dsimp only)
    | dsimp only
    | exact State.reset_keeps

theorem callOp_inv (s : State) (op : Nat) (f : List Nat → Option (Nat × Nat × State)) (h_s : Inv s) (h_f : ∀ v0, ∀ a b u, f v0 = some (a, b, u) → Inv u) :
    Keeps (callOp s op f) := by
  unfold callOp
  try dsimp only
  repeat' first
    | (with_reducible first | assumption | apply State.endCall_inv | apply h_f | apply keeps_next | apply inv_foldl | apply inv_foldl_fst)
    | with_reducible intro _
    | (with_reducible first | apply Memory.wf_writeBytes | apply Memory.wf_writeCells | apply Memory.wf_write | apply Memory.wf_clear)
    | split
    | (with_reducible refine wf_of ?_)
    | assumption
    | (with_reducible apply inv_of; dsimp only)
    | dsimp only
    | exact State.reset_keeps

theorem failCall_inv (s : State) (status : Nat) (h_s : Inv s) :
    ∀ a b u, failCall s status = some (a, b, u) → Inv u := by
  unfold failCall
  try dsimp only
  repeat' first
    | (with_reducible first | assumption | apply keeps_next | apply inv_foldl | apply inv_foldl_fst)
    | with_reducible intro _
    | (with_reducible first | apply Memory.wf_writeBytes | apply Memory.wf_writeCells | apply Memory.wf_write | apply Memory.wf_clear)
    | split
    | (with_reducible refine wf_of ?_)
    | assumption
    | (with_reducible apply inv_of; dsimp only)
    | dsimp only
    | (rename_i e; cases e; done)
    | (rename_i e; cases e)
    | (rename_i e; dsimp only at e; split at e)
    | (rename_i e; split at e)
    | exact State.reset_keeps

theorem failCall_eq {s : State} {status : Nat} {a_ b_ : Nat} {u : State} (e : failCall s status = some (a_, b_, u)) (h_s : Inv s) : Inv u := failCall_inv s status h_s _ _ _ e

theorem execCtxCreate_inv (s : State) (h_s : Inv s) :
    Keeps (execCtxCreate s) := by
  unfold execCtxCreate
  try dsimp only
  repeat' first
    | (with_reducible first | assumption | apply callOp_inv)
    | refine failCall_eq (by with_reducible assumption) ?_
    | (with_reducible first | apply keeps_next | apply inv_foldl | apply inv_foldl_fst)
    | with_reducible intro _
    | (with_reducible first | apply Memory.wf_writeBytes | apply Memory.wf_writeCells | apply Memory.wf_write | apply Memory.wf_clear)
    | split
    | (with_reducible refine wf_of ?_)
    | assumption
    | (with_reducible apply inv_of; dsimp only)
    | dsimp only
    | (rename_i e; cases e; done)
    | (rename_i e; cases e)
    | (rename_i e; dsimp only at e; split at e)
    | (rename_i e; split at e)
    | exact State.reset_keeps

theorem State.endContext_inv (s : State) (asid : Nat) (h_s : Inv s) :
    Inv (State.endContext s asid) := by
  unfold State.endContext
  try dsimp only
  repeat' first
    | (with_reducible first | assumption | apply keeps_next | apply inv_foldl | apply inv_foldl_fst)
    | with_reducible intro _
    | (with_reducible first | apply Memory.wf_writeBytes | apply Memory.wf_writeCells | apply Memory.wf_write | apply Memory.wf_clear)
    | split
    | (with_reducible refine wf_of ?_)
    | assumption
    | (with_reducible apply inv_of; dsimp only)
    | dsimp only
    | exact State.reset_keeps

theorem execCtxDestroy_inv (s : State) (h_s : Inv s) :
    Keeps (execCtxDestroy s) := by
  unfold execCtxDestroy
  try dsimp only
  repeat' first
    | (with_reducible first | assumption | apply callOp_inv | apply State.endContext_inv)
    | refine failCall_eq (by with_reducible assumption) ?_
    | (with_reducible first | apply keeps_next | apply inv_foldl | apply inv_foldl_fst)
    | with_reducible intro _
    | (with_reducible first | apply Memory.wf_writeBytes | apply Memory.wf_writeCells | apply Memory.wf_write | apply Memory.wf_clear)
    | split
    | (with_reducible refine wf_of ?_)
    | assumption
    | (with_reducible apply inv_of; dsimp only)
    | dsimp only
    | (rename_i e; cases e; done)
    | (rename_i e; cases e)
    | (rename_i e; dsimp only at e; split at e)
    | (rename_i e; split at e)
    | exact State.reset_keeps

theorem State.shootWorld_inv (s : State) (w : Nat) (h_s : Inv s) :
    Inv (State.shootWorld s w) := by
  unfold State.shootWorld
  try dsimp only
  repeat' first
    | (with_reducible first | assumption | apply State.shootdown_inv | apply keeps_next | apply inv_foldl | apply inv_foldl_fst)
    | with_reducible intro _
    | (with_reducible first | apply Memory.wf_writeBytes | apply Memory.wf_writeCells | apply Memory.wf_write | apply Memory.wf_clear)
    | split
    | (with_reducible refine wf_of ?_)
    | assumption
    | (with_reducible apply inv_of; dsimp only)
    | dsimp only
    | exact State.reset_keeps

theorem State.freeKey_inv (s : State) (slot : Nat) (h_s : Inv s) :
    Inv (State.freeKey s slot) := by
  unfold State.freeKey
  try dsimp only
  repeat' first
    | (with_reducible first | assumption | apply keeps_next | apply inv_foldl | apply inv_foldl_fst)
    | with_reducible intro _
    | (with_reducible first | apply Memory.wf_writeBytes | apply Memory.wf_writeCells | apply Memory.wf_write | apply Memory.wf_clear)
    | split
    | (with_reducible refine wf_of ?_)
    | assumption
    | (with_reducible apply inv_of; dsimp only)
    | dsimp only
    | exact State.reset_keeps

theorem execWorldSuspend_inv (s : State) (h_s : Inv s) :
    Keeps (execWorldSuspend s) := by
  unfold execWorldSuspend
  try dsimp only
  repeat' first
    | (with_reducible first | assumption | apply callOp_inv | apply State.shootWorld_inv | apply State.freeKey_inv | apply State.performStore_inv | apply State.writeAs_inv)
    | refine failCall_eq (by with_reducible assumption) ?_
    | (with_reducible first | apply keeps_next | apply inv_foldl | apply inv_foldl_fst)
    | with_reducible intro _
    | (with_reducible first | apply Memory.wf_writeBytes | apply Memory.wf_writeCells | apply Memory.wf_write | apply Memory.wf_clear)
    | split
    | (with_reducible refine wf_of ?_)
    | assumption
    | (with_reducible apply inv_of; dsimp only)
    | dsimp only
    | (rename_i e; cases e; done)
    | (rename_i e; cases e)
    | (rename_i e; dsimp only at e; split at e)
    | (rename_i e; split at e)
    | exact State.reset_keeps

theorem execWorldResume_inv (s : State) (h_s : Inv s) :
    Keeps (execWorldResume s) := by
  unfold execWorldResume
  try dsimp only
  repeat' first
    | (with_reducible first | assumption | apply callOp_inv)
    | refine failCall_eq (by with_reducible assumption) ?_
    | (with_reducible first | apply keeps_next | apply inv_foldl | apply inv_foldl_fst)
    | with_reducible intro _
    | (with_reducible first | apply Memory.wf_writeBytes | apply Memory.wf_writeCells | apply Memory.wf_write | apply Memory.wf_clear)
    | split
    | (with_reducible refine wf_of ?_)
    | assumption
    | (with_reducible apply inv_of; dsimp only)
    | dsimp only
    | (rename_i e; cases e; done)
    | (rename_i e; cases e)
    | (rename_i e; dsimp only at e; split at e)
    | (rename_i e; split at e)
    | exact State.reset_keeps

theorem execWorldDestroy_inv (s : State) (h_s : Inv s) :
    Keeps (execWorldDestroy s) := by
  unfold execWorldDestroy
  try dsimp only
  repeat' first
    | (with_reducible first | assumption | apply callOp_inv | apply State.freeKey_inv)
    | refine failCall_eq (by with_reducible assumption) ?_
    | (with_reducible first | apply keeps_next | apply inv_foldl | apply inv_foldl_fst)
    | with_reducible intro _
    | (with_reducible first | apply Memory.wf_writeBytes | apply Memory.wf_writeCells | apply Memory.wf_write | apply Memory.wf_clear)
    | split
    | (with_reducible refine wf_of ?_)
    | assumption
    | (with_reducible apply inv_of; dsimp only)
    | dsimp only
    | (rename_i e; cases e; done)
    | (rename_i e; cases e)
    | (rename_i e; dsimp only at e; split at e)
    | (rename_i e; split at e)
    | exact State.reset_keeps

theorem execHandleSet_inv (s : State) (h_s : Inv s) :
    Keeps (execHandleSet s) := by
  unfold execHandleSet
  try dsimp only
  repeat' first
    | (with_reducible first | assumption | apply callOp_inv | apply State.setBlkAt_inv)
    | refine failCall_eq (by with_reducible assumption) ?_
    | (with_reducible first | apply keeps_next | apply inv_foldl | apply inv_foldl_fst)
    | with_reducible intro _
    | (with_reducible first | apply Memory.wf_writeBytes | apply Memory.wf_writeCells | apply Memory.wf_write | apply Memory.wf_clear)
    | split
    | (with_reducible refine wf_of ?_)
    | assumption
    | (with_reducible apply inv_of; dsimp only)
    | dsimp only
    | (rename_i e; cases e; done)
    | (rename_i e; cases e)
    | (rename_i e; dsimp only at e; split at e)
    | (rename_i e; split at e)
    | exact State.reset_keeps

theorem execHandleClear_inv (s : State) (h_s : Inv s) :
    Keeps (execHandleClear s) := by
  unfold execHandleClear
  try dsimp only
  repeat' first
    | (with_reducible first | assumption | apply callOp_inv | apply State.setBlkAt_inv)
    | refine failCall_eq (by with_reducible assumption) ?_
    | (with_reducible first | apply keeps_next | apply inv_foldl | apply inv_foldl_fst)
    | with_reducible intro _
    | (with_reducible first | apply Memory.wf_writeBytes | apply Memory.wf_writeCells | apply Memory.wf_write | apply Memory.wf_clear)
    | split
    | (with_reducible refine wf_of ?_)
    | assumption
    | (with_reducible apply inv_of; dsimp only)
    | dsimp only
    | (rename_i e; cases e; done)
    | (rename_i e; cases e)
    | (rename_i e; dsimp only at e; split at e)
    | (rename_i e; split at e)
    | exact State.reset_keeps

theorem execVaultGrant_inv (s : State) (h_s : Inv s) :
    Keeps (execVaultGrant s) := by
  unfold execVaultGrant
  try dsimp only
  repeat' first
    | (with_reducible first | assumption | apply callOp_inv | apply State.shootdown_inv)
    | refine failCall_eq (by with_reducible assumption) ?_
    | (with_reducible first | apply keeps_next | apply inv_foldl | apply inv_foldl_fst)
    | with_reducible intro _
    | (with_reducible first | apply Memory.wf_writeBytes | apply Memory.wf_writeCells | apply Memory.wf_write | apply Memory.wf_clear)
    | split
    | (with_reducible refine wf_of ?_)
    | assumption
    | (with_reducible apply inv_of; dsimp only)
    | dsimp only
    | (rename_i e; cases e; done)
    | (rename_i e; cases e)
    | (rename_i e; dsimp only at e; split at e)
    | (rename_i e; split at e)
    | exact State.reset_keeps

theorem execEntropyRestart_inv (s : State) (h_s : Inv s) :
    Keeps (execEntropyRestart s) := by
  unfold execEntropyRestart
  try dsimp only
  repeat' first
    | (with_reducible first | assumption | apply callOp_inv)
    | refine failCall_eq (by with_reducible assumption) ?_
    | (with_reducible first | apply keeps_next | apply inv_foldl | apply inv_foldl_fst)
    | with_reducible intro _
    | (with_reducible first | apply Memory.wf_writeBytes | apply Memory.wf_writeCells | apply Memory.wf_write | apply Memory.wf_clear)
    | split
    | (with_reducible refine wf_of ?_)
    | assumption
    | (with_reducible apply inv_of; dsimp only)
    | dsimp only
    | (rename_i e; cases e; done)
    | (rename_i e; cases e)
    | (rename_i e; dsimp only at e; split at e)
    | (rename_i e; split at e)
    | exact State.reset_keeps

theorem execBadCall_inv (s : State) (h_s : Inv s) :
    Keeps (execBadCall s) := by
  unfold execBadCall
  try dsimp only
  repeat' first
    | (with_reducible first | assumption | apply State.endCall_inv | apply keeps_next | apply inv_foldl | apply inv_foldl_fst)
    | with_reducible intro _
    | (with_reducible first | apply Memory.wf_writeBytes | apply Memory.wf_writeCells | apply Memory.wf_write | apply Memory.wf_clear)
    | split
    | (with_reducible refine wf_of ?_)
    | assumption
    | (with_reducible apply inv_of; dsimp only)
    | dsimp only
    | exact State.reset_keeps

theorem execHqDoorbell_inv (s : State) (h_s : Inv s) :
    Keeps (execHqDoorbell s) := by
  unfold execHqDoorbell
  try dsimp only
  repeat' first
    | (with_reducible first | assumption | apply State.dropPosted_inv | apply State.setHq_inv | apply State.countReg_inv | apply keeps_next | apply inv_foldl | apply inv_foldl_fst)
    | with_reducible intro _
    | (with_reducible first | apply Memory.wf_writeBytes | apply Memory.wf_writeCells | apply Memory.wf_write | apply Memory.wf_clear)
    | split
    | (with_reducible refine wf_of ?_)
    | assumption
    | (with_reducible apply inv_of; dsimp only)
    | dsimp only
    | exact State.reset_keeps

theorem execHqCompletionHead_inv (s : State) (h_s : Inv s) :
    Keeps (execHqCompletionHead s) := by
  unfold execHqCompletionHead
  try dsimp only
  repeat' first
    | (with_reducible first | assumption | apply State.dropPosted_inv | apply State.setHq_inv | apply keeps_next | apply inv_foldl | apply inv_foldl_fst)
    | with_reducible intro _
    | (with_reducible first | apply Memory.wf_writeBytes | apply Memory.wf_writeCells | apply Memory.wf_write | apply Memory.wf_clear)
    | split
    | (with_reducible refine wf_of ?_)
    | assumption
    | (with_reducible apply inv_of; dsimp only)
    | dsimp only
    | exact State.reset_keeps

theorem State.takeEntry_inv (s : State) (p : Nat) (h_ : Nat) (h_s : Inv s) :
    Inv (State.takeEntry s p h_) := by
  unfold State.takeEntry
  try dsimp only
  repeat' first
    | (with_reducible first | assumption | apply State.setHq_inv | apply keeps_next | apply inv_foldl | apply inv_foldl_fst)
    | with_reducible intro _
    | (with_reducible first | apply Memory.wf_writeBytes | apply Memory.wf_writeCells | apply Memory.wf_write | apply Memory.wf_clear)
    | split
    | (with_reducible refine wf_of ?_)
    | assumption
    | (with_reducible apply inv_of; dsimp only)
    | dsimp only
    | exact State.reset_keeps

theorem hostCommand_inv (s : State) (ok : Nat → Bool) (f : Nat → Nat → Nat → List Byte → Out) (h_s : Inv s) (h_f : ∀ v0 v1 v2 v3, Keeps (f v0 v1 v2 v3)) :
    Keeps (hostCommand s ok f) := by
  unfold hostCommand
  try dsimp only
  repeat' first
    | (with_reducible first | assumption | apply State.askLine_inv | apply h_f | apply keeps_next | apply inv_foldl | apply inv_foldl_fst)
    | with_reducible intro _
    | (with_reducible first | apply Memory.wf_writeBytes | apply Memory.wf_writeCells | apply Memory.wf_write | apply Memory.wf_clear)
    | split
    | (with_reducible refine wf_of ?_)
    | assumption
    | (with_reducible apply inv_of; dsimp only)
    | dsimp only
    | exact State.reset_keeps

theorem execHostNop_inv (s : State) (h_s : Inv s) :
    Keeps (execHostNop s) := by
  unfold execHostNop
  try dsimp only
  repeat' first
    | (with_reducible first | assumption | apply hostCommand_inv | apply State.complete_inv | apply State.takeEntry_inv | apply keeps_next | apply inv_foldl | apply inv_foldl_fst)
    | with_reducible intro _
    | (with_reducible first | apply Memory.wf_writeBytes | apply Memory.wf_writeCells | apply Memory.wf_write | apply Memory.wf_clear)
    | split
    | (with_reducible refine wf_of ?_)
    | assumption
    | (with_reducible apply inv_of; dsimp only)
    | dsimp only
    | exact State.reset_keeps

theorem execBadCommand_inv (s : State) (h_s : Inv s) :
    Keeps (execBadCommand s) := by
  unfold execBadCommand
  try dsimp only
  repeat' first
    | (with_reducible first | assumption | apply hostCommand_inv | apply State.complete_inv | apply State.takeEntry_inv | apply keeps_next | apply inv_foldl | apply inv_foldl_fst)
    | with_reducible intro _
    | (with_reducible first | apply Memory.wf_writeBytes | apply Memory.wf_writeCells | apply Memory.wf_write | apply Memory.wf_clear)
    | split
    | (with_reducible refine wf_of ?_)
    | assumption
    | (with_reducible apply inv_of; dsimp only)
    | dsimp only
    | exact State.reset_keeps

theorem execHostShootdown_inv (s : State) (h_s : Inv s) :
    Keeps (execHostShootdown s) := by
  unfold execHostShootdown
  try dsimp only
  repeat' first
    | (with_reducible first | assumption | apply hostCommand_inv | apply State.takeEntry_inv | apply State.complete_inv | apply keeps_next | apply inv_foldl | apply inv_foldl_fst)
    | with_reducible intro _
    | (with_reducible first | apply Memory.wf_writeBytes | apply Memory.wf_writeCells | apply Memory.wf_write | apply Memory.wf_clear)
    | split
    | (with_reducible refine wf_of ?_)
    | assumption
    | (with_reducible apply inv_of; dsimp only)
    | dsimp only
    | exact State.reset_keeps

theorem execPageTake_inv (s : State) (h_s : Inv s) :
    Keeps (execPageTake s) := by
  unfold execPageTake
  try dsimp only
  repeat' first
    | (with_reducible first | assumption | apply hostCommand_inv | apply State.takeEntry_inv | apply State.complete_inv | apply whenLines_inv | apply State.setOwn_inv | apply keeps_next | apply inv_foldl | apply inv_foldl_fst)
    | with_reducible intro _
    | (with_reducible first | apply Memory.wf_writeBytes | apply Memory.wf_writeCells | apply Memory.wf_write | apply Memory.wf_clear)
    | split
    | (with_reducible refine wf_of ?_)
    | assumption
    | (with_reducible apply inv_of; dsimp only)
    | dsimp only
    | exact State.reset_keeps

theorem execPageReturn_inv (s : State) (h_s : Inv s) :
    Keeps (execPageReturn s) := by
  unfold execPageReturn
  try dsimp only
  repeat' first
    | (with_reducible first | assumption | apply hostCommand_inv | apply State.takeEntry_inv | apply State.complete_inv | apply whenLines_inv | apply State.setOwn_inv | apply keeps_next | apply inv_foldl | apply inv_foldl_fst)
    | with_reducible intro _
    | (with_reducible first | apply Memory.wf_writeBytes | apply Memory.wf_writeCells | apply Memory.wf_write | apply Memory.wf_clear)
    | split
    | (with_reducible refine wf_of ?_)
    | assumption
    | (with_reducible apply inv_of; dsimp only)
    | dsimp only
    | exact State.reset_keeps

theorem State.jettyParks_inv (s : State) (p : Nat) (j : Nat) (asid : Nat) (pair : Nat) (va : Nat) (f : XFault) (h_s : Inv s) :
    Inv (State.jettyParks s p j asid pair va f) := by
  unfold State.jettyParks
  try dsimp only
  repeat' first
    | (with_reducible first | assumption | apply State.setJetty_inv | apply State.pushRecord_inv | apply keeps_next | apply inv_foldl | apply inv_foldl_fst)
    | with_reducible intro _
    | (with_reducible first | apply Memory.wf_writeBytes | apply Memory.wf_writeCells | apply Memory.wf_write | apply Memory.wf_clear)
    | split
    | (with_reducible refine wf_of ?_)
    | assumption
    | (with_reducible apply inv_of; dsimp only)
    | dsimp only
    | exact State.reset_keeps

theorem execHostLaunch_inv (s : State) (h_s : Inv s) :
    Keeps (execHostLaunch s) := by
  unfold execHostLaunch
  try dsimp only
  repeat' first
    | (with_reducible first | assumption | apply hostCommand_inv | apply State.takeEntry_inv | apply State.complete_inv | apply State.setJetty_inv | apply State.jettyParks_inv | apply State.askLine_inv | apply State.enqueue_inv | apply keeps_next | apply inv_foldl | apply inv_foldl_fst)
    | with_reducible intro _
    | (with_reducible first | apply Memory.wf_writeBytes | apply Memory.wf_writeCells | apply Memory.wf_write | apply Memory.wf_clear)
    | split
    | (with_reducible refine wf_of ?_)
    | assumption
    | (with_reducible apply inv_of; dsimp only)
    | dsimp only
    | exact State.reset_keeps

theorem State.zeroAll_inv (s : State) (h_s : Inv s) :
    Inv (State.zeroAll s) := by
  unfold State.zeroAll
  try dsimp only
  repeat' first
    | (with_reducible first | assumption | apply State.zeroRange_inv | apply keeps_next | apply inv_foldl | apply inv_foldl_fst)
    | with_reducible intro _
    | (with_reducible first | apply Memory.wf_writeBytes | apply Memory.wf_writeCells | apply Memory.wf_write | apply Memory.wf_clear)
    | split
    | (with_reducible refine wf_of ?_)
    | assumption
    | (with_reducible apply inv_of; dsimp only)
    | dsimp only
    | exact State.reset_keeps

theorem State.interfaceError_inv (s : State) (h_s : Inv s) :
    Inv (State.interfaceError s) := by
  unfold State.interfaceError
  try dsimp only
  repeat' first
    | (with_reducible first | assumption | apply State.fatal_inv | apply State.zeroAll_inv | apply keeps_next | apply inv_foldl | apply inv_foldl_fst)
    | with_reducible intro _
    | (with_reducible first | apply Memory.wf_writeBytes | apply Memory.wf_writeCells | apply Memory.wf_write | apply Memory.wf_clear)
    | split
    | (with_reducible refine wf_of ?_)
    | assumption
    | (with_reducible apply inv_of; dsimp only)
    | dsimp only
    | exact State.reset_keeps

theorem State.tdispAnswer_inv (s : State) (ok : Bool) (h_s : Inv s) :
    Inv (State.tdispAnswer s ok) := by
  unfold State.tdispAnswer
  try dsimp only
  repeat' first
    | (with_reducible first | assumption | apply keeps_next | apply inv_foldl | apply inv_foldl_fst)
    | with_reducible intro _
    | (with_reducible first | apply Memory.wf_writeBytes | apply Memory.wf_writeCells | apply Memory.wf_write | apply Memory.wf_clear)
    | split
    | (with_reducible refine wf_of ?_)
    | assumption
    | (with_reducible apply inv_of; dsimp only)
    | dsimp only
    | exact State.reset_keeps

theorem execLockInterface_inv (s : State) (h_s : Inv s) :
    Keeps (execLockInterface s) := by
  unfold execLockInterface
  try dsimp only
  repeat' first
    | (with_reducible first | assumption | apply State.tdispAnswer_inv | apply keeps_next | apply inv_foldl | apply inv_foldl_fst)
    | with_reducible intro _
    | (with_reducible first | apply Memory.wf_writeBytes | apply Memory.wf_writeCells | apply Memory.wf_write | apply Memory.wf_clear)
    | split
    | (with_reducible refine wf_of ?_)
    | assumption
    | (with_reducible apply inv_of; dsimp only)
    | dsimp only
    | exact State.reset_keeps

theorem execStartInterface_inv (s : State) (h_s : Inv s) :
    Keeps (execStartInterface s) := by
  unfold execStartInterface
  try dsimp only
  repeat' first
    | (with_reducible first | assumption | apply State.tdispAnswer_inv | apply keeps_next | apply inv_foldl | apply inv_foldl_fst)
    | with_reducible intro _
    | (with_reducible first | apply Memory.wf_writeBytes | apply Memory.wf_writeCells | apply Memory.wf_write | apply Memory.wf_clear)
    | split
    | (with_reducible refine wf_of ?_)
    | assumption
    | (with_reducible apply inv_of; dsimp only)
    | dsimp only
    | exact State.reset_keeps

theorem execStopInterface_inv (s : State) (h_s : Inv s) :
    Keeps (execStopInterface s) := by
  unfold execStopInterface
  try dsimp only
  repeat' first
    | (with_reducible first | assumption | apply State.tdispAnswer_inv | apply State.zeroAll_inv | apply keeps_next | apply inv_foldl | apply inv_foldl_fst)
    | with_reducible intro _
    | (with_reducible first | apply Memory.wf_writeBytes | apply Memory.wf_writeCells | apply Memory.wf_write | apply Memory.wf_clear)
    | split
    | (with_reducible refine wf_of ?_)
    | assumption
    | (with_reducible apply inv_of; dsimp only)
    | dsimp only
    | exact State.reset_keeps

theorem State.leaseReserved_inv (s : State) (v : W64) (h_s : Inv s) :
    Inv (State.leaseReserved s v) := by
  unfold State.leaseReserved
  try dsimp only
  repeat' first
    | (with_reducible first | assumption | apply State.countReg_inv | apply keeps_next | apply inv_foldl | apply inv_foldl_fst)
    | with_reducible intro _
    | (with_reducible first | apply Memory.wf_writeBytes | apply Memory.wf_writeCells | apply Memory.wf_write | apply Memory.wf_clear)
    | split
    | (with_reducible refine wf_of ?_)
    | assumption
    | (with_reducible apply inv_of; dsimp only)
    | dsimp only
    | exact State.reset_keeps

theorem execHlreqRenew_inv (s : State) (h_s : Inv s) :
    Keeps (execHlreqRenew s) := by
  unfold execHlreqRenew
  try dsimp only
  repeat' first
    | (with_reducible first | assumption | apply State.leaseReserved_inv | apply keeps_next | apply inv_foldl | apply inv_foldl_fst)
    | with_reducible intro _
    | (with_reducible first | apply Memory.wf_writeBytes | apply Memory.wf_writeCells | apply Memory.wf_write | apply Memory.wf_clear)
    | split
    | (with_reducible refine wf_of ?_)
    | assumption
    | (with_reducible apply inv_of; dsimp only)
    | dsimp only
    | exact State.reset_keeps

theorem execHlreqClaim_inv (s : State) (h_s : Inv s) :
    Keeps (execHlreqClaim s) := by
  unfold execHlreqClaim
  try dsimp only
  repeat' first
    | (with_reducible first | assumption | apply State.leaseReserved_inv | apply State.interfaceError_inv | apply keeps_next | apply inv_foldl | apply inv_foldl_fst)
    | with_reducible intro _
    | (with_reducible first | apply Memory.wf_writeBytes | apply Memory.wf_writeCells | apply Memory.wf_write | apply Memory.wf_clear)
    | split
    | (with_reducible refine wf_of ?_)
    | assumption
    | (with_reducible apply inv_of; dsimp only)
    | dsimp only
    | exact State.reset_keeps

theorem State.fence_inv (s : State) (p : Nat) (h_s : Inv s) :
    Inv (State.fence s p) := by
  unfold State.fence
  try dsimp only
  repeat' first
    | (with_reducible first | assumption | apply State.addPoison_inv | apply State.storeCells_inv | apply keeps_next | apply inv_foldl | apply inv_foldl_fst)
    | with_reducible intro _
    | (with_reducible first | apply Memory.wf_writeBytes | apply Memory.wf_writeCells | apply Memory.wf_write | apply Memory.wf_clear)
    | split
    | (with_reducible refine wf_of ?_)
    | assumption
    | (with_reducible apply inv_of; dsimp only)
    | dsimp only
    | exact State.reset_keeps

theorem execLeaseExpiry_inv (s : State) (h_s : Inv s) :
    Keeps (execLeaseExpiry s) := by
  unfold execLeaseExpiry
  try dsimp only
  repeat' first
    | (with_reducible first | assumption | apply State.fence_inv | apply State.interfaceError_inv | apply keeps_next | apply inv_foldl | apply inv_foldl_fst)
    | with_reducible intro _
    | (with_reducible first | apply Memory.wf_writeBytes | apply Memory.wf_writeCells | apply Memory.wf_write | apply Memory.wf_clear)
    | split
    | (with_reducible refine wf_of ?_)
    | assumption
    | (with_reducible apply inv_of; dsimp only)
    | dsimp only
    | exact State.reset_keeps

theorem State.setLink_inv (s : State) (k : Nat) (l : Link) (h_s : Inv s) :
    Inv (State.setLink s k l) := by
  unfold State.setLink
  try dsimp only
  repeat' first
    | (with_reducible first | assumption | apply keeps_next | apply inv_foldl | apply inv_foldl_fst)
    | with_reducible intro _
    | (with_reducible first | apply Memory.wf_writeBytes | apply Memory.wf_writeCells | apply Memory.wf_write | apply Memory.wf_clear)
    | split
    | (with_reducible refine wf_of ?_)
    | assumption
    | (with_reducible apply inv_of; dsimp only)
    | dsimp only
    | exact State.reset_keeps

theorem State.linkUp_inv (s : State) (b : Nat) (h_s : Inv s) :
    Inv (State.linkUp s b) := by
  unfold State.linkUp
  try dsimp only
  repeat' first
    | (with_reducible first | assumption | apply keeps_next | apply inv_foldl | apply inv_foldl_fst)
    | with_reducible intro _
    | (with_reducible first | apply Memory.wf_writeBytes | apply Memory.wf_writeCells | apply Memory.wf_write | apply Memory.wf_clear)
    | split
    | (with_reducible refine wf_of ?_)
    | assumption
    | (with_reducible apply inv_of; dsimp only)
    | dsimp only
    | exact State.reset_keeps

theorem execLinkTraining_inv (s : State) (h_s : Inv s) :
    Keeps (execLinkTraining s) := by
  unfold execLinkTraining
  try dsimp only
  repeat' first
    | (with_reducible first | assumption | apply State.setLink_inv | apply State.linkUp_inv | apply keeps_next | apply inv_foldl | apply inv_foldl_fst)
    | with_reducible intro _
    | (with_reducible first | apply Memory.wf_writeBytes | apply Memory.wf_writeCells | apply Memory.wf_write | apply Memory.wf_clear)
    | split
    | (with_reducible refine wf_of ?_)
    | assumption
    | (with_reducible apply inv_of; dsimp only)
    | dsimp only
    | exact State.reset_keeps

theorem execLinkDown_inv (s : State) (h_s : Inv s) :
    Keeps (execLinkDown s) := by
  unfold execLinkDown
  try dsimp only
  repeat' first
    | (with_reducible first | assumption | apply State.setLink_inv | apply State.interfaceError_inv | apply keeps_next | apply inv_foldl | apply inv_foldl_fst)
    | with_reducible intro _
    | (with_reducible first | apply Memory.wf_writeBytes | apply Memory.wf_writeCells | apply Memory.wf_write | apply Memory.wf_clear)
    | split
    | (with_reducible refine wf_of ?_)
    | assumption
    | (with_reducible apply inv_of; dsimp only)
    | dsimp only
    | exact State.reset_keeps

theorem execIdeFailure_inv (s : State) (h_s : Inv s) :
    Keeps (execIdeFailure s) := by
  unfold execIdeFailure
  try dsimp only
  repeat' first
    | (with_reducible first | assumption | apply State.setLink_inv | apply State.interfaceError_inv | apply keeps_next | apply inv_foldl | apply inv_foldl_fst)
    | with_reducible intro _
    | (with_reducible first | apply Memory.wf_writeBytes | apply Memory.wf_writeCells | apply Memory.wf_write | apply Memory.wf_clear)
    | split
    | (with_reducible refine wf_of ?_)
    | assumption
    | (with_reducible apply inv_of; dsimp only)
    | dsimp only
    | exact State.reset_keeps

theorem State.toHost_inv (s : State) (l : List Byte) (h_s : Inv s) :
    Inv (State.toHost s l) := by
  unfold State.toHost
  try dsimp only
  repeat' first
    | (with_reducible first | assumption | apply keeps_next | apply inv_foldl | apply inv_foldl_fst)
    | with_reducible intro _
    | (with_reducible first | apply Memory.wf_writeBytes | apply Memory.wf_writeCells | apply Memory.wf_write | apply Memory.wf_clear)
    | split
    | (with_reducible refine wf_of ?_)
    | assumption
    | (with_reducible apply inv_of; dsimp only)
    | dsimp only
    | exact State.reset_keeps

theorem State.snoopSector_inv (s : State) (line : Nat) (h_s : Inv s) :
    Inv (State.snoopSector s line) := by
  unfold State.snoopSector
  try dsimp only
  repeat' first
    | (with_reducible first | assumption | apply State.flushHome_inv | apply keeps_next | apply inv_foldl | apply inv_foldl_fst)
    | with_reducible intro _
    | (with_reducible first | apply Memory.wf_writeBytes | apply Memory.wf_writeCells | apply Memory.wf_write | apply Memory.wf_clear)
    | split
    | (with_reducible refine wf_of ?_)
    | assumption
    | (with_reducible apply inv_of; dsimp only)
    | dsimp only
    | exact State.reset_keeps

theorem snoop_inv (s : State) (toState : Mesi → Mesi) (h_s : Inv s) :
    Keeps (snoop s toState) := by
  unfold snoop
  try dsimp only
  repeat' first
    | (with_reducible first | assumption | apply State.snoopSector_inv | apply State.toHost_inv | apply keeps_next | apply inv_foldl | apply inv_foldl_fst)
    | with_reducible intro _
    | (with_reducible first | apply Memory.wf_writeBytes | apply Memory.wf_writeCells | apply Memory.wf_write | apply Memory.wf_clear)
    | split
    | (with_reducible refine wf_of ?_)
    | assumption
    | (with_reducible apply inv_of; dsimp only)
    | dsimp only
    | exact State.reset_keeps

theorem execSnpData_inv (s : State) (h_s : Inv s) :
    Keeps (execSnpData s) := by
  unfold execSnpData
  try dsimp only
  repeat' first
    | (with_reducible first | assumption | apply snoop_inv | apply keeps_next | apply inv_foldl | apply inv_foldl_fst)
    | with_reducible intro _
    | (with_reducible first | apply Memory.wf_writeBytes | apply Memory.wf_writeCells | apply Memory.wf_write | apply Memory.wf_clear)
    | split
    | (with_reducible refine wf_of ?_)
    | assumption
    | (with_reducible apply inv_of; dsimp only)
    | dsimp only
    | exact State.reset_keeps

theorem execSnpInv_inv (s : State) (h_s : Inv s) :
    Keeps (execSnpInv s) := by
  unfold execSnpInv
  try dsimp only
  repeat' first
    | (with_reducible first | assumption | apply snoop_inv | apply State.breakResv_inv | apply keeps_next | apply inv_foldl | apply inv_foldl_fst)
    | with_reducible intro _
    | (with_reducible first | apply Memory.wf_writeBytes | apply Memory.wf_writeCells | apply Memory.wf_write | apply Memory.wf_clear)
    | split
    | (with_reducible refine wf_of ?_)
    | assumption
    | (with_reducible apply inv_of; dsimp only)
    | dsimp only
    | exact State.reset_keeps

theorem execSnpCur_inv (s : State) (h_s : Inv s) :
    Keeps (execSnpCur s) := by
  unfold execSnpCur
  try dsimp only
  repeat' first
    | (with_reducible first | assumption | apply snoop_inv | apply keeps_next | apply inv_foldl | apply inv_foldl_fst)
    | with_reducible intro _
    | (with_reducible first | apply Memory.wf_writeBytes | apply Memory.wf_writeCells | apply Memory.wf_write | apply Memory.wf_clear)
    | split
    | (with_reducible refine wf_of ?_)
    | assumption
    | (with_reducible apply inv_of; dsimp only)
    | dsimp only
    | exact State.reset_keeps

theorem State.answered_inv (s : State) (l : Nat) (h_s : Inv s) :
    Inv (State.answered s l) := by
  unfold State.answered
  try dsimp only
  repeat' first
    | (with_reducible first | assumption | apply keeps_next | apply inv_foldl | apply inv_foldl_fst)
    | with_reducible intro _
    | (with_reducible first | apply Memory.wf_writeBytes | apply Memory.wf_writeCells | apply Memory.wf_write | apply Memory.wf_clear)
    | split
    | (with_reducible refine wf_of ?_)
    | assumption
    | (with_reducible apply inv_of; dsimp only)
    | dsimp only
    | exact State.reset_keeps

theorem State.fillLine_inv (s : State) (l : Nat) (old : Mesi) (h_s : Inv s) :
    Inv (State.fillLine s l old) := by
  unfold State.fillLine
  try dsimp only
  repeat' first
    | (with_reducible first | assumption | apply State.storeCells_inv | apply keeps_next | apply inv_foldl | apply inv_foldl_fst)
    | with_reducible intro _
    | (with_reducible first | apply Memory.wf_writeBytes | apply Memory.wf_writeCells | apply Memory.wf_write | apply Memory.wf_clear)
    | split
    | (with_reducible refine wf_of ?_)
    | assumption
    | (with_reducible apply inv_of; dsimp only)
    | dsimp only
    | exact State.reset_keeps

theorem execCxlGo_inv (s : State) (h_s : Inv s) :
    Keeps (execCxlGo s) := by
  unfold execCxlGo
  try dsimp only
  repeat' first
    | (with_reducible first | assumption | apply State.fillLine_inv | apply State.answered_inv | apply keeps_next | apply inv_foldl | apply inv_foldl_fst)
    | with_reducible intro _
    | (with_reducible first | apply Memory.wf_writeBytes | apply Memory.wf_writeCells | apply Memory.wf_write | apply Memory.wf_clear)
    | split
    | (with_reducible refine wf_of ?_)
    | assumption
    | (with_reducible apply inv_of; dsimp only)
    | dsimp only
    | exact State.reset_keeps

theorem State.returnLine_inv (s : State) (l : Nat) (st : Mesi) (h_s : Inv s) :
    Inv (State.returnLine s l st) := by
  unfold State.returnLine
  try dsimp only
  repeat' first
    | (with_reducible first | assumption | apply State.performStore_inv | apply State.writeAs_inv | apply keeps_next | apply inv_foldl | apply inv_foldl_fst)
    | with_reducible intro _
    | (with_reducible first | apply Memory.wf_writeBytes | apply Memory.wf_writeCells | apply Memory.wf_write | apply Memory.wf_clear)
    | split
    | (with_reducible refine wf_of ?_)
    | assumption
    | (with_reducible apply inv_of; dsimp only)
    | dsimp only
    | exact State.reset_keeps

theorem execBisnpResponse_inv (s : State) (h_s : Inv s) :
    Keeps (execBisnpResponse s) := by
  unfold execBisnpResponse
  try dsimp only
  repeat' first
    | (with_reducible first | assumption | apply State.returnLine_inv | apply State.answered_inv | apply keeps_next | apply inv_foldl | apply inv_foldl_fst)
    | with_reducible intro _
    | (with_reducible first | apply Memory.wf_writeBytes | apply Memory.wf_writeCells | apply Memory.wf_write | apply Memory.wf_clear)
    | split
    | (with_reducible refine wf_of ?_)
    | assumption
    | (with_reducible apply inv_of; dsimp only)
    | dsimp only
    | exact State.reset_keeps

theorem execHostCxlMemAccess_inv (s : State) (h_s : Inv s) :
    Keeps (execHostCxlMemAccess s) := by
  unfold execHostCxlMemAccess
  try dsimp only
  repeat' first
    | (with_reducible first | assumption | apply State.dropPosted_inv | apply State.performStore_inv | apply State.writeAs_inv | apply State.toHost_inv | apply keeps_next | apply inv_foldl | apply inv_foldl_fst)
    | with_reducible intro _
    | (with_reducible first | apply Memory.wf_writeBytes | apply Memory.wf_writeCells | apply Memory.wf_write | apply Memory.wf_clear)
    | split
    | (with_reducible refine wf_of ?_)
    | assumption
    | (with_reducible apply inv_of; dsimp only)
    | dsimp only
    | exact State.reset_keeps

theorem State.spdmAnswer_inv (s : State) (p : Nat) (code : Nat) (p1 : Nat) (p2 : Nat) (l : List Byte) (h_s : Inv s) :
    Keeps (State.spdmAnswer s p code p1 p2 l) := by
  unfold State.spdmAnswer
  try dsimp only
  repeat' first
    | (with_reducible first | assumption | apply keeps_next | apply inv_foldl | apply inv_foldl_fst)
    | with_reducible intro _
    | (with_reducible first | apply Memory.wf_writeBytes | apply Memory.wf_writeCells | apply Memory.wf_write | apply Memory.wf_clear)
    | split
    | (with_reducible refine wf_of ?_)
    | assumption
    | (with_reducible apply inv_of; dsimp only)
    | dsimp only
    | exact State.reset_keeps

theorem State.spdmError_inv (s : State) (p : Nat) (code : Nat) (h_s : Inv s) :
    Keeps (State.spdmError s p code) := by
  unfold State.spdmError
  try dsimp only
  repeat' first
    | (with_reducible first | assumption | apply State.spdmAnswer_inv | apply keeps_next | apply inv_foldl | apply inv_foldl_fst)
    | with_reducible intro _
    | (with_reducible first | apply Memory.wf_writeBytes | apply Memory.wf_writeCells | apply Memory.wf_write | apply Memory.wf_clear)
    | split
    | (with_reducible refine wf_of ?_)
    | assumption
    | (with_reducible apply inv_of; dsimp only)
    | dsimp only
    | exact State.reset_keeps

theorem State.spdmSigned_inv (s : State) (p : Nat) (code : Nat) (p1 : Nat) (l : List Byte) (h_s : Inv s) :
    Keeps (State.spdmSigned s p code p1 l) := by
  unfold State.spdmSigned
  try dsimp only
  repeat' first
    | (with_reducible first | assumption | apply State.spdmError_inv | apply State.spdmAnswer_inv | apply keeps_next | apply inv_foldl | apply inv_foldl_fst)
    | with_reducible intro _
    | (with_reducible first | apply Memory.wf_writeBytes | apply Memory.wf_writeCells | apply Memory.wf_write | apply Memory.wf_clear)
    | split
    | (with_reducible refine wf_of ?_)
    | assumption
    | (with_reducible apply inv_of; dsimp only)
    | dsimp only
    | exact State.reset_keeps

theorem execGetVersion_inv (s : State) (h_s : Inv s) :
    Keeps (execGetVersion s) := by
  unfold execGetVersion
  try dsimp only
  repeat' first
    | (with_reducible first | assumption | apply State.spdmAnswer_inv | apply keeps_next | apply inv_foldl | apply inv_foldl_fst)
    | with_reducible intro _
    | (with_reducible first | apply Memory.wf_writeBytes | apply Memory.wf_writeCells | apply Memory.wf_write | apply Memory.wf_clear)
    | split
    | (with_reducible refine wf_of ?_)
    | assumption
    | (with_reducible apply inv_of; dsimp only)
    | dsimp only
    | exact State.reset_keeps

theorem execGetCapabilities_inv (s : State) (h_s : Inv s) :
    Keeps (execGetCapabilities s) := by
  unfold execGetCapabilities
  try dsimp only
  repeat' first
    | (with_reducible first | assumption | apply State.spdmAnswer_inv | apply keeps_next | apply inv_foldl | apply inv_foldl_fst)
    | with_reducible intro _
    | (with_reducible first | apply Memory.wf_writeBytes | apply Memory.wf_writeCells | apply Memory.wf_write | apply Memory.wf_clear)
    | split
    | (with_reducible refine wf_of ?_)
    | assumption
    | (with_reducible apply inv_of; dsimp only)
    | dsimp only
    | exact State.reset_keeps

theorem execNegotiateAlgorithms_inv (s : State) (h_s : Inv s) :
    Keeps (execNegotiateAlgorithms s) := by
  unfold execNegotiateAlgorithms
  try dsimp only
  repeat' first
    | (with_reducible first | assumption | apply State.spdmError_inv | apply State.spdmAnswer_inv | apply keeps_next | apply inv_foldl | apply inv_foldl_fst)
    | with_reducible intro _
    | (with_reducible first | apply Memory.wf_writeBytes | apply Memory.wf_writeCells | apply Memory.wf_write | apply Memory.wf_clear)
    | split
    | (with_reducible refine wf_of ?_)
    | assumption
    | (with_reducible apply inv_of; dsimp only)
    | dsimp only
    | exact State.reset_keeps

theorem execGetDigests_inv (s : State) (h_s : Inv s) :
    Keeps (execGetDigests s) := by
  unfold execGetDigests
  try dsimp only
  repeat' first
    | (with_reducible first | assumption | apply State.spdmAnswer_inv | apply keeps_next | apply inv_foldl | apply inv_foldl_fst)
    | with_reducible intro _
    | (with_reducible first | apply Memory.wf_writeBytes | apply Memory.wf_writeCells | apply Memory.wf_write | apply Memory.wf_clear)
    | split
    | (with_reducible refine wf_of ?_)
    | assumption
    | (with_reducible apply inv_of; dsimp only)
    | dsimp only
    | exact State.reset_keeps

theorem execGetCertificate_inv (s : State) (h_s : Inv s) :
    Keeps (execGetCertificate s) := by
  unfold execGetCertificate
  try dsimp only
  repeat' first
    | (with_reducible first | assumption | apply State.spdmAnswer_inv | apply keeps_next | apply inv_foldl | apply inv_foldl_fst)
    | with_reducible intro _
    | (with_reducible first | apply Memory.wf_writeBytes | apply Memory.wf_writeCells | apply Memory.wf_write | apply Memory.wf_clear)
    | split
    | (with_reducible refine wf_of ?_)
    | assumption
    | (with_reducible apply inv_of; dsimp only)
    | dsimp only
    | exact State.reset_keeps

theorem execChallenge_inv (s : State) (h_s : Inv s) :
    Keeps (execChallenge s) := by
  unfold execChallenge
  try dsimp only
  repeat' first
    | (with_reducible first | assumption | apply State.spdmSigned_inv | apply keeps_next | apply inv_foldl | apply inv_foldl_fst)
    | with_reducible intro _
    | (with_reducible first | apply Memory.wf_writeBytes | apply Memory.wf_writeCells | apply Memory.wf_write | apply Memory.wf_clear)
    | split
    | (with_reducible refine wf_of ?_)
    | assumption
    | (with_reducible apply inv_of; dsimp only)
    | dsimp only
    | exact State.reset_keeps

theorem execGetMeasurements_inv (s : State) (h_s : Inv s) :
    Keeps (execGetMeasurements s) := by
  unfold execGetMeasurements
  try dsimp only
  repeat' first
    | (with_reducible first | assumption | apply State.spdmSigned_inv | apply State.spdmAnswer_inv | apply keeps_next | apply inv_foldl | apply inv_foldl_fst)
    | with_reducible intro _
    | (with_reducible first | apply Memory.wf_writeBytes | apply Memory.wf_writeCells | apply Memory.wf_write | apply Memory.wf_clear)
    | split
    | (with_reducible refine wf_of ?_)
    | assumption
    | (with_reducible apply inv_of; dsimp only)
    | dsimp only
    | exact State.reset_keeps

theorem execSpdmUnsupportedRequest_inv (s : State) (h_s : Inv s) :
    Keeps (execSpdmUnsupportedRequest s) := by
  unfold execSpdmUnsupportedRequest
  try dsimp only
  repeat' first
    | (with_reducible first | assumption | apply State.spdmError_inv | apply keeps_next | apply inv_foldl | apply inv_foldl_fst)
    | with_reducible intro _
    | (with_reducible first | apply Memory.wf_writeBytes | apply Memory.wf_writeCells | apply Memory.wf_write | apply Memory.wf_clear)
    | split
    | (with_reducible refine wf_of ?_)
    | assumption
    | (with_reducible apply inv_of; dsimp only)
    | dsimp only
    | exact State.reset_keeps

theorem State.withFetchWord_inv (s : State) (nbits : Nat) (w : Nat) (h_s : Inv s) :
    Inv (State.withFetchWord s nbits w) := by
  unfold State.withFetchWord
  try dsimp only
  repeat' first
    | (with_reducible first | assumption | apply keeps_next | apply inv_foldl | apply inv_foldl_fst)
    | with_reducible intro _
    | (with_reducible first | apply Memory.wf_writeBytes | apply Memory.wf_writeCells | apply Memory.wf_write | apply Memory.wf_clear)
    | split
    | (with_reducible refine wf_of ?_)
    | assumption
    | (with_reducible apply inv_of; dsimp only)
    | dsimp only
    | exact State.reset_keeps

end Sys2Proof.Machine
end

