-- ==== Sys2Proof/Laws/Runs.lean ====
section
/-! SUPPORT. What running an instruction of a hart comes to, and what the small operations of many statements do. -/
namespace Sys2Proof.Machine

/-- Where a step answers one of two states, which it answers. -/
theorem nextIf {P : Prop} [Decidable P] {x : Out} {A B : State} (h : x = .next (if P then A else B)) :
    (P → x = .next A) ∧ (¬P → x = .next B) := ⟨fun p => by rw [h, if_pos p], fun p => by rw [h, if_neg p]⟩

/-- A hart instruction whose registers are free answers what its meaning answers on the settled state, where that is no wait. -/
theorem hartRun_eq {s : State} {o : Out} {reads writes : List XReg} {k : State → Out} (h : s.hartFree (reads ++ writes))
    (hk : k (s.settled reads writes) = o) (hw : Out.waits o = false) : hartRun s reads writes k = o := by
  subst hk; exact hartRun_free k h hw

/-- One that waits has not settled: it answers the wait of its meaning on the state as it stands. -/
theorem hartRun_wait {s : State} {o w : Out} {reads writes : List XReg} {k : State → Out} (h : s.hartFree (reads ++ writes))
    (hk : k (s.settled reads writes) = o) (hw : Out.waits o = true) (hs : k s = w) : hartRun s reads writes k = w := by
  subst hk; rw [hartRun_settled k h, hw]; exact hs

/-- The same, of the settled state. -/
theorem settled_empty (s : State) (r w : List XReg) (h : s.grp.tokens = []) : s.settled r w = s := by
  unfold State.settled; rw [h]; rfl

/-- Without copy tokens nothing settles. -/
theorem hartRun_empty {s : State} {r w : List XReg} {k : State → Out} (h : s.grp.tokens = []) : hartRun s r w k = k s := by
  unfold hartRun; rw [h]; rfl

/-- Settling changes of its core only what the lane L1 holds. -/
theorem settled_core (s : State) (r w : List XReg) : (s.settled r w).core = { s.core with l1 := (s.settled r w).core.l1 } := by
  have h := (settled_spec s r w).2.2.2 s.coreNo
  have hc : (s.settled r w).core = (s.settled r w).coreAt s.coreNo := by
    show State.coreAt _ (State.coreNo _) = _
    unfold State.coreNo; rw [settled_cur]
  rw [hc]; exact h

/-- What is no wait: a trap, a fault, a jump, a step past the instruction, a question to a distant home. -/
theorem waits_trap (s : State) (c : Nat) (v : W64) : Out.waits (.next (s.trap c v)) = false := by
  simp only [Out.waits, (trap_spec s c v).1]; rfl

theorem waits_raise (s : State) (c : Nat) (v : W64) : Out.waits (raise s c v) = false := waits_trap s c v

theorem waits_grp {t : State} (h : t.grp.hartWait = none) : Out.waits (.next t) = false := by simp [Out.waits, h]

theorem waits_jump (s : State) (rd : XReg) (a : W64) : (hartJump s rd a).waits = false := by
  unfold hartJump; split
  · exact waits_raise _ _ _
  · rw [waits_setGrp]; rfl

theorem waits_nextGrp (s u : State) : Out.waits (.next (s.setGrp u.grp.hartNext)) = false := by rw [waits_setGrp]; rfl

/-- A recorded wait is one. -/
theorem waits_hartWaits (s : State) (w : HartWait) : Out.waits (hartWaits s w) = true := by
  unfold hartWaits; dsimp only; rw [waits_setGrp]; rfl

theorem waits_fault (s : State) (n : Need) (f : HartFault) : Out.waits (.next (s.hartFault n f)) = false := by
  unfold State.hartFault; split <;> exact waits_trap _ _ _

theorem waits_ask (s : State) (r : HartReq) : Out.waits (.next (s.ask r)) = false := by
  unfold State.ask; rw [waits_setGrp]; rfl

/-- Writing a counter wakes exactly the groups whose wait it ends. -/
theorem setCounter_groups (u : State) (idx : Nat) (x : W32) : let w := u.setCounter u.coreNo idx x
    w.cur = u.cur ∧ w.mem = u.mem ∧ ∀ k, w.grpAt k = if (u.grpAt k).wakesAt (256 * u.coreNo + idx) x
        then { u.grpAt k with hartWait := some (.woken x) } else u.grpAt k := by
  unfold State.setCounter
  dsimp only
  obtain ⟨h1, h2⟩ := wakeCounter_spec (u.setCoreAt u.coreNo { u.coreAt u.coreNo with counters := (u.coreAt u.coreNo).counters.set idx x }) (256 * u.coreNo + idx) x
  refine ⟨by rw [h1]; rfl, by rw [h1]; rfl, fun k => h2 k⟩

/-- It changes neither memory nor messages. -/
theorem setCounter_memN (s : State) (c i : Nat) (v : W32) : (s.setCounter c i v).mem = s.mem ∧ (s.setCounter c i v).net = s.net := by
  unfold State.setCounter
  dsimp only
  rw [(wakeCounter_spec _ _ _).1]; exact ⟨rfl, rfl⟩

/-- A vault lies outside HBM. -/
theorem reach_vault_far {s : State} {k : Nat} {m : Bool} {a : W64} {n : Nat} {need : Need} {key : Nat} {e : Option TlbEntry}
    (ha : a.toNat / 2 ^ 56 = 0xF2) (h : s.reach k m a n need = .ok key e) : 2 ^ 52 ≤ key := by
  have hp : s.place k m a = if bits a.toNat 55 48 != 0 || bits a.toNat 37 24 != 0 || 12 ≤ bits a.toNat 47 44 then .error .space
      else if s.vaultGranted (s.launchAt (s.blkAt (s.grpAt k).blk).launch).asid (bits a.toNat 47 44 * 64 + bits a.toNat 43 38)
        then .ok (.vault (bits a.toNat 47 44 * 64 + bits a.toNat 43 38) (bits a.toNat 23 0)) else .error .noMap := by
    unfold State.place; dsimp only; rw [ha]; rfl
  unfold State.reach at h
  dsimp only at h
  rw [hp] at h
  by_cases h1 : (bits a.toNat 55 48 != 0 || bits a.toNat 37 24 != 0 || decide (12 ≤ bits a.toNat 47 44)) = true
  · rw [if_pos h1] at h; cases h
  · rw [if_neg h1] at h
    split at h
    all_goals first
      | (rename_i hx; split at hx <;> cases hx)
      | cases h
      | skip
    all_goals (try (split at h <;> first | cases h | skip))
    all_goals first | (cases h; done) | (unfold vaultKey; omega)

/-- A context that dies leaves memory and groups. -/
theorem die_same (s : State) (a c : Nat) : (s.die a c).mem = s.mem ∧ (s.die a c).groups = s.groups := by
  unfold State.die; split <;> exact ⟨rfl, rfl⟩

/-- Killing a slot sets its kil bit, clears none, and leaves memory. -/
theorem killSlot_spec (s : State) (k : Nat) : (s.killSlot k).mem = s.mem
    ∧ ∀ j, (j = k ∨ (s.grpAt j).mondb.kil = true) → ((s.killSlot k).grpAt j).mondb.kil = true := by
  have h : ∃ u : State, s.killSlot k = u.setKil k ∧ u.mem = s.mem ∧ u.groups = s.groups := by
    unfold State.killSlot
    dsimp only
    split
    · exact ⟨s, rfl, rfl, rfl⟩
    · exact ⟨_, rfl, (die_same ..).1, (die_same ..).2⟩
  obtain ⟨u, h1, h2, h3⟩ := h
  rw [h1]
  refine ⟨?_, fun j hj => setKil_kil u k j ?_⟩
  · rw [setKil_groups]; exact h2
  · rcases hj with hj | hj
    · exact .inl hj
    · refine .inr ?_
      unfold State.grpAt; rw [h3]; exact hj

/-- Killing every slot of a list that a test names. -/
theorem killSlots_kil (f : Nat → Bool) (g : Nat → Nat) (l : List Nat) (j : Nat) : ∀ s : State,
    (s.grpAt j).mondb.kil = true ∨ (∃ i ∈ l, f i = true ∧ g i = j) →
    ((l.foldl (fun t i => if f i then t.killSlot (g i) else t) s).grpAt j).mondb.kil = true := by
  induction l with
  | nil => intro s h; exact h.elim id (fun ⟨i, hi, _⟩ => absurd hi List.not_mem_nil)
  | cons a l ih =>
    intro s h
    rw [List.foldl_cons]
    refine ih _ ?_
    rcases h with h | ⟨i, hi, hf, hg⟩
    · left
      split
      · exact (killSlot_spec s _).2 j (.inr h)
      · exact h
    · rcases List.mem_cons.1 hi with hi | hi
      · left; subst hi
        rw [if_pos hf]
        exact (killSlot_spec s _).2 j (.inl hg.symm)
      · exact .inr ⟨i, hi, hf, hg⟩

/-- Which sectors another world has written. -/
theorem foreign_mem (s : State) (asid w : Nat) (h : s.sec.contexts.find asid = some w) (l : List Nat) (k : Nat) :
    k ∈ s.foreign asid l ↔ k ∈ l ∧ k < 2 ^ 48 ∧ ∃ v, s.cipher.find k = some v ∧ v ≠ w := by
  unfold State.foreign
  rw [h]
  dsimp only
  rw [List.mem_filter, Bool.and_eq_true, decide_eq_true_eq]
  cases s.cipher.find k with
  | none => simp
  | some v => simp

theorem busy_mem (s : State) : s.busy.mem = s.mem := rfl

theorem commit_mem (s : State) (o : LaneForm) : (o.commit s).mem = s.mem := rfl

/-- Sampling leaves memory. -/
theorem sample_mem (s : State) (op n : Nat) (act : LaneMask) (l : List LaneAccess) (p f : Bool) : (s.sample op n act l p f).mem = s.mem := by
  unfold State.sample; simp only; split <;> rfl

/-- A compute instruction that is ready and pushes to fbq changes its group only. -/
theorem laneRun_fbq {s : State} {o : LaneForm} {check : List LaneVec → Check} {f : List LaneVec → LaneMask → W64}
    (h : o.starts s) (hc : check (s.grp.vectors o.srcs) = .pass) :
    ∃ t, laneRun s o check (fun vs act u => u.pushFbq (f vs act)) = .next t ∧ OnlyGroup s t
      ∧ t.grp = (s.grp.advanced o).fbqAdded s.cycles (f (s.grp.vectors o.srcs) s.grp.active) := by
  refine ⟨_, laneRun_ready h hc, ?_, ?_⟩
  · unfold State.pushFbq
    rw [State.commit_eq, State.setGrp_setGrp]
    exact OnlyGroup.setGrp s _
  · unfold State.pushFbq Group.fbqAdded
    rw [State.commit_eq, State.grp_setGrp, State.grp_setGrp]
    rfl

end Sys2Proof.Machine
end

