-- ==== Sys2Proof/Tests/Slice0.lean ====
section
/-! SUPPORT. The model's own tests: words written out from the encoding tables, the checks of well-formedness, worked
examples of the spec, and for each statement with hypotheses states and operands that meet them. -/
namespace Sys2Proof.Tests
open Sys2Proof.Machine

/-- One group on slot 0 of core 0, its record changed by `f`. -/
def one (f : Group → Group) : State :=
  let s := State.reset.withFetchWord 32 0
  s.setGrp (f s.grp)

/-- The same with two lanes active. -/
def two (f : Group → Group) : State := one fun g => f { g with em := 3 }

/-- The first GiB of ASID 1 in every translation unit. -/
def everyUnit : List TlbEntry :=
  (List.range 16).map fun u => { asid := 1, va := 0, size := 2 ^ 30, pa := 0, rd := true, wr := true, ex := true, unit := u }

-- Witnesses: the lane instructions.

theorem test_meets_integer : (short2 1 2 3).starts (one id) ∧ (short1 111 119).starts (one fun g => { g with nregs := 112 })
    ∧ (typed1 .i8 0 120).starts (one id) ∧ (typed2 .i64 30 2 4).starts (one id) ∧ (typed3 .n32 116 1 2 31).starts (one id)
    ∧ (laneForm 8 true 4 [src32 1, src32 2, src64 6]).starts (one id)
    ∧ ((laneForm 8 false 4 [src32 1, src32 2]).also ((15 : Code).toNat ≤ 15)).starts (one id) := by
  unfold LaneForm.starts; decide

theorem test_meets_logic : (shift2 .i64 2 4 6).starts (one id) ∧ (laneForm 8 Ty.i32.wide 1 [srcOf .i32 2, src32 3, src32 4]).starts (one id)
    ∧ ((typed1 .n32 119 1).also ((119 : Code).toNat != 116)).starts (one id)
    ∧ ((laneForm 8 false 0 [srcOf .n32 1, src32 117, src32 3]).also ((0 : Code).toNat != 116)).starts (one fun g => { g with scq := [5] })
    ∧ ((typed2 .f32 1 2 3).also (maskOk 16)).starts (one id) ∧ (laneForm 12 false 1 []).starts (one id)
    ∧ (laneForm 4 true 2 []).starts (one id) ∧ ((laneForm 4 false 1 []).also (maskOk 0)).starts (one id) := by
  unfold LaneForm.starts; decide

theorem test_meets_float : (typed2 .f64 2 4 6).starts (one id) ∧ (typed1 .f16x2 1 2).starts (one id) ∧ (long1 1 121).starts (one id)
    ∧ (typed3 .bf16 1 2 3 4).starts (one id) ∧ (shift2 .f32 1 2 3).starts (one id)
    ∧ (laneForm 8 Ty.f64.wide 2 [srcOf .f32 1]).starts (one id) := by
  unfold LaneForm.starts; decide

theorem test_meets_rearrangement : (short2 1 2 3).starts (one id) ∧ (short1 1 2).starts (one id) ∧ (1 : Code).toNat ≠ 116
    ∧ (short1 116 2).starts (one fun g => { g with stq := List.replicate 7 ⟨[], 1⟩ })
    ∧ ((laneForm 8 false 1 [src32 2, src32 117]).also ((117 : Code).toNat == 117)).starts (one fun g => { g with scq := [1] })
    ∧ ({ len := 8, srcs := [srcOf .i64 30], ok := fun _ => (30 : Code).toNat < 112, fbq := true } : LaneForm).starts (one id) := by
  unfold LaneForm.starts; decide

theorem test_meets_compare_mask : (compare2 .i64 16 2 4).starts (one id) ∧ (compare1 .f32 0 1).starts (one id)
    ∧ ({ len := 4, ok := fun _ => [(15 : Code), 16, 0].all maskOk } : LaneForm).starts (one id)
    ∧ ({ len := 4, srcs := [src64 117], ok := fun _ => maskOk 16 && (117 : Code).toNat == 117 } : LaneForm).starts (one fun g => { g with scq := [7] })
    ∧ ({ len := 4, ok := fun _ => maskOk 1 } : LaneForm).starts (one fun g => { g with msp := 15 })
    ∧ (one fun g => { g with msp := 15 }).grp.msp < 16 ∧ (one fun g => { g with msp := 1 }).grp.msp ≠ 0 := by
  unfold LaneForm.starts; decide

/-- Depths 16 and 0 fault; the accesses of a spill and of a fill of depth 16 and of 17 pass. -/
theorem test_meets_mask_stack : ({ len := 4, ok := fun _ => maskOk 16 } : LaneForm).starts (one fun g => { g with msp := 16 })
    ∧ 16 ≤ (one fun g => { g with msp := 16 }).grp.msp ∧ ({ len := 4, ok := fun _ => maskOk 0 } : LaneForm).starts (one id)
    ∧ (one id).grp.msp = 0 := by
  unfold LaneForm.starts; decide

def spillAt : List LaneAccess := stackAccesses .scratch 0
/-- A scratch whose first word is `n`. -/
def depth (n : Byte) : State := let s := one id; { s with mem := Memory.write s.mem (scratchKey 0 0) n }

theorem test_meets_mask_spill : ({ len := 8, srcs := [src64 119] } : LaneForm).starts (one id) ∧ (one id).grp.laneSend = none
    ∧ (one id).addressCheck .store 8 spillAt id = .pass ∧ (∀ x ∈ spillAt, (one id).postedAt x.addr = false) :=
  ⟨⟨rfl, rfl, rfl⟩, rfl, rfl, by decide⟩

theorem test_meets_mask_fill : ({ len := 8, srcs := [src64 119] } : LaneForm).starts (depth 16)
    ∧ (depth 16).addressCheck .load 8 spillAt id = .pass ∧ (depth 17).addressCheck .load 8 spillAt id = .pass
    ∧ leNat ((depth 16).laneLoad .load 8 (spillAt.getD 0 ⟨0, 0, 0⟩)).2 = 16
    ∧ leNat ((depth 17).laneLoad .load 8 (spillAt.getD 0 ⟨0, 0, 0⟩)).2 = 17 :=
  ⟨⟨rfl, rfl, rfl⟩, rfl, rfl, by decide, by decide⟩

theorem test_meets_modes : ({ len := 4 } : LaneForm).starts (one id)
    ∧ ({ len := 4, ok := fun g => 16 * (1 : BitVec 4).toNat + 16 ≤ g.nregs } : LaneForm).starts (one id)
    ∧ ({ len := 4, cover := false, ok := fun _ => (15 : Code).toNat ≤ 15 } : LaneForm).starts (one id)
    ∧ ({ len := 4, srcs := [src64 117] } : LaneForm).starts (one fun g => { g with scq := [0xFFFFFFFF00000004] }) := by
  unfold LaneForm.starts; decide

/-- Rounding code 4 with no reserved bit, code 4 with reserved bit 5, and code 5. -/
theorem test_meets_fsetm : let v := fun (k : W64) => argAt ((one fun g => { g with scq := [k] }).grp.vectors [src64 117]) 0 0
    v 4 = 4 ∧ fmodeValue 4 = 4 ∧ fmodeValue 0x24 ≠ 0x24 ∧ v 0x24 &&& 7 = 4 ∧ 5 ≤ (v 5 &&& 7).toNat := by decide

theorem test_meets_feedback : ({ len := 4, srcs := [src64 2], fbq := true } : LaneForm).starts (one fun g => { g with fbq := List.replicate 7 0 })
    ∧ ({ len := 4, ok := fun _ => [(16 : Code)].all maskOk, fbq := true } : LaneForm).starts (one id)
    ∧ ({ len := 8, srcs := [srcOf .f64 30], fbq := true } : LaneForm).starts (one id) := by
  unfold LaneForm.starts; decide

/-- A token and seven frames; eight frames; a call and a loop frame on top; no frame. -/
theorem test_meets_control : (controlForm 8).starts (one id) ∧ (controlForm 4).starts (one id)
    ∧ (one fun g => { g with ctq := [1] }).grp.ctq ≠ []
    ∧ (one fun g => { g with frames := List.replicate 7 (.call 0) }).grp.frames.length < 8
    ∧ (controlForm 8).starts (one fun g => { g with frames := List.replicate 8 (.call 0) })
    ∧ 8 ≤ (one fun g => { g with frames := List.replicate 8 (.call 0) }).grp.frames.length
    ∧ (one fun g => { g with frames := [.call 8] }).grp.frames = .call 8 :: []
    ∧ (one fun g => { g with frames := [.loop 8 1] }).grp.frames = .loop 8 1 :: [] := by
  unfold LaneForm.starts; decide
theorem test_meets_control_mismatch : (∀ r rest, (one id).grp.frames ≠ .call r :: rest) ∧ ∀ h n rest, (one id).grp.frames ≠ .loop h n :: rest :=
  ⟨fun _ _ h => (by cases h), fun _ _ _ h => (by cases h)⟩

def entry (wide poison : Bool) : LdqEntry :=
  { wide := wide, arrived := true, poison := poison, replay := false, cause := 13, addr := 64, lanes := 1, desc := .plain 0 0 .n32, data := [] }

/-- Under a prefix; a bad operand; an empty ldq; an entry of the wrong width; a poisoned one. -/
theorem test_meets_lane_checks :
    ({ len := 4, cover := false, ok := fun _ => decide ((0 : Code).toNat ≤ 15) } : LaneForm).coverOk (one fun g => { g with pb := { left := 1 } }).grp = false
    ∧ (typed2 .i64 1 2 4).coverOk (one id).grp = true ∧ (typed2 .i64 1 2 4).operandsOk (one id).grp = false
    ∧ (one id).grp.start (short2 1 112 3).srcs false false = .wait (.ldqEmpty 0)
    ∧ (one fun g => { g with ldq := [(0, [entry true false])] }).grp.start (short2 1 112 3).srcs false false = .width 112
    ∧ (one fun g => { g with ldq := [(0, [entry false true])] }).grp.start (short2 1 112 3).srcs false false = .poisoned 0 0
    ∧ (one fun g => { g with ldq := [(0, [entry false true])] }).grp.entry 0 0 = some (entry false true) := by
  decide

theorem test_meets_join : ({ len := 4 } : LaneForm).starts (one fun g => { g with hartWait := some .join })
    ∧ (one fun g => { g with hartWait := some .join }).grp.hartWait = some .join ∧ (one id).grp.hartWait ≠ some .join
    ∧ (controlForm 4).starts (one id) ∧ ({ len := 8 } : LaneForm).starts (one id) ∧ (one id).grp.laneInFlight = false
    ∧ Scope.device ≠ .system ∧ ({ len := 8, srcs := [src64 2] } : LaneForm).starts (one id) ∧ (one id).grp.sampler.armed = false ∧ (one id).grp.sampler.pending = none := by
  unfold LaneForm.starts; decide

/-- No arrival; an arrival at the cluster barrier whose phase is complete; one at the block's; a lone group, whose arrival
completes the phase, and one of two, whose arrival does not. -/
theorem test_meets_lane_barriers : let k := (one id).barKey 0 true true
    let b := (one id).barKey 0 false true
    let s := one fun g => { g with laneArrived := [(k, 0)] }
    let p := { one id with bars := (one id).bars.set k { phase := 1 } }
    let q := { s with bars := s.bars.set k { phase := 1 } }
    p.grp.laneInFlight = false ∧ p.arrivalOpen 0 k = false ∧ (q.grp.arrivalAt k).isSome = true ∧ q.arrivalOpen 0 k = false
    ∧ (one id).grp.arrivalAt k = none
    ∧ (one fun g => { g with laneBar := true }).grp.laneBar = true ∧ (one fun g => { g with laneBar := true }).arrivalOpen 0 b = false
    ∧ (one id).grp.laneBar = false ∧ (one id).arrivalOpen 0 b = false
    ∧ ({ one id with blocks := (one id).blocks.set 0 { (one id).blk with groups := 2, slots := [0, 1] }
                     groups := (one id).groups.set 1 (one id).grp }.arrive b).arrivalOpen 0 b = true := by
  decide

def oneLane : List LaneAccess := accessesOf .scratch 0 1 fun _ => 0
/-- A load, and an acquiring one, by two lanes from the scratch; a store; an atomic. -/
theorem test_meets_lane_accesses : let l := accessesOf .scratch 60 3 fun i => argAt ((two id).grp.vectors [src64 119]) 0 i
    ({ len := 8, srcs := [src64 119], ok := fun g => g.dataOk .b32 true 1 } : LaneForm).starts (two id)
    ∧ (two id).accessCheck 0 .load 4 3 l = .pass ∧ (two id).accessCheck 0 .loadHome 4 3 l = .pass
    ∧ ({ len := 8, srcs := [src64 119, ⟨1, false⟩], ok := fun g => g.dataOk .b32 false 1 } : LaneForm).starts (two id)
    ∧ (two id).grp.laneSend = none ∧ (two id).accessCheck 1 .store 4 3 l = .pass
    ∧ ({ len := 8, srcs := [src64 119, ⟨1, false⟩], ok := fun g => g.dstOk false 2 && (false || (119 : Code).toNat == 119) } : LaneForm).starts (two id)
    ∧ (two id).accessCheck 2 .atomic 4 3 l = .pass :=
  ⟨⟨rfl, rfl, rfl⟩, rfl, rfl, ⟨rfl, rfl, rfl⟩, rfl, rfl, ⟨rfl, rfl, rfl⟩, rfl⟩
theorem test_meets_lane_store_posts : (two id).requests (storeData (two id) .b32 1 []) oneLane = [] := by decide

/-- Ranks 0 and 1, the first and the last, of an open window of two at a scratch address. -/
def ranked : State := { two id with windows := [{ asid := 1, key := scratchKey 0 0, home := 0, base := 0, count := 2, next := 0 }] }
theorem test_meets_atom_radd : let m := accessesOf .scratch 0 3 fun _ => 0
    ({ len := 8, srcs := [src64 119, src32 1, src32 120], ok := fun _ => (119 : Code).toNat == 119 } : LaneForm).starts ranked
    ∧ ranked.accessCheck 2 .atomic 4 3 m = .pass
    ∧ ∀ x ∈ m, ranked.rankFault (fun i => (argAt (ranked.grp.vectors [src64 119, src32 1, src32 120]) 2 i).setWidth 32) m x = false :=
  ⟨⟨rfl, rfl, rfl⟩, rfl, by decide⟩

/-- The last word of the allocation, and a word one beyond it. -/
theorem test_meets_scratch_access : let s := one fun g => { g with em := 1 }
    let addr := fun i => ((argAt (s.grp.vectors [src64 119]) 0 i + (1020 : Half).signExtend 64) &&& 0x00FFFFFFFFFFFFFF).toNat
    ({ len := 8, srcs := [src64 119], ok := fun g => g.dataOk .b32 true 1 } : LaneForm).starts s ∧ Size.b32 ≠ .b128
    ∧ s.grp.sampler.armed = false ∧ s.grp.sampler.pending = none ∧ s.grp.loadsAway = false ∧ (∀ m ∈ s.net, m.src ≠ s.cur) ∧ s.grp.laneSend = none
    ∧ (∀ i, i < 64 → s.grp.active.getLsbD i = true → addr i % 4 = 0 ∧ addr i + 4 ≤ s.blk.scratch
      ∧ s.poisoned (scratchKey s.grp.blk (addr i)) 4 = false ∧ s.fencedKey (scratchKey s.grp.blk (addr i)) = false) := by
  unfold LaneForm.starts; decide
theorem test_meets_memory_form : Sys2Proof.Inv (one fun g => { g with em := 1 }) := rfl

-- Witnesses: the matrix engine.

/-- The same group with a tile configuration. -/
def conf (v : W64) : State := one fun g => { g with mcfg := v }
/-- With 4,224 bytes of scratch, a valid table of each kind and a codebook. -/
def tabled (v : W64) : State :=
  let s := conf v
  { s with blocks := s.blocks.set 0 { s.blk with scratch := 4224, ntables := 2
                                                 tables := [(0, { valid := true, kind := 1 }), (1, { valid := true, kind := 3 })] } }

/-- A scale queue of 15 and of 16 entries; 127 closed batches and 128; a batch done and one not. -/
theorem test_meets_matrix_control : ({ len := 4, srcs := [src64 119] } : LaneForm).starts (conf 0x8000)
    ∧ (argAt ((conf 0).grp.vectors [src64 119]) 0 0 ^^^ (0 : W64)) &&& 0x3F8700 = 0 ∧ (∀ o ∈ (conf 0).core.ops, o.grp ≠ 0 ∨ o.work = .build)
    ∧ argAt ((conf 0).grp.vectors [src64 119]) 0 0 &&& ~~~0x1FF003FFFFF = 0
    ∧ ({ len := 8, srcs := [src32 1] } : LaneForm).starts (one fun g => { g with scaleQ := List.replicate 15 [] })
    ∧ ({ len := 8, srcs := [src32 1] } : LaneForm).starts (one fun g => { g with scaleQ := List.replicate 16 [] })
    ∧ (one fun g => { g with scaleQ := List.replicate 16 [] }).grp.scaleQ.length = 16
    ∧ (controlForm 4).starts (one fun g => { g with batchOpen := 127 })
    ∧ (one fun g => { g with batchOpen := 127 }).grp.batchOpen - (one fun g => { g with batchOpen := 127 }).batchDone 0 ≠ 128
    ∧ ({ len := 8, ok := fun g => 128 ≤ ((0 : Byte) - g.batchOpen).toNat } : LaneForm).starts (one fun g => { g with batchOpen := 1 })
    ∧ ({ len := 8, ok := fun g => 128 ≤ ((0 : Byte) - g.batchOpen).toNat } : LaneForm).starts (one fun g => { g with batchOpen := 128 })
    ∧ ((one fun g => { g with batchOpen := 1 }).batchDone 0 - 0).toNat < 128
    ∧ ({ len := 4 } : LaneForm).starts (one id) ∧ (laneForm 4 false 1 []).starts (one id) := by
  unfold LaneForm.starts; decide

/-- INT4 by INT4 from registers: C of 4,096 bytes is the whole tile store. -/
theorem test_meets_dense_registers : let x := Mx.of 0xBB
    ({ len := 8, srcs := [], ok := fun g => g.srcAny 28 } : LaneForm).starts (conf 0xBB)
    ∧ (conf 0xBB).grp.laneInFlight = false ∧ ((conf 0xBB).core.ops.filter fun p => p.lookupArray == false).length < 4
    ∧ (((conf 0xBB).core.ops.filter fun p => p.lookupArray == false).map fun p => p.hand).sum + x.denseHand ≤ 2048
    ∧ (28 : Code).toNat < 112 ∧ 28 + x.aRegs ≤ 112 ∧ x.afmt ≤ 12 ∧ x.bfmt ≤ 12 ∧ 28 + x.aRegs = (conf 0xBB).grp.nregs
    ∧ x.w0 + x.n * x.colBytes false ≤ (conf 0xBB).blk.wbuf ∧ x.t0 + x.cBytes = (conf 0xBB).blk.tiles
    ∧ (conf 0xBB).grp.scaleQ.length = 0 := by
  unfold LaneForm.starts; decide

/-- Scaled E2M1 by 2:4 E2M1 from scratch, with one scale entry and metadata in order. -/
def sparse : State :=
  let s := one fun g => { g with mcfg := 0x88, scaleQ := [[]] }
  { s with mem := Memory.writeBytes s.mem (wbufKey 0 0) (List.replicate 16 [0, 0, 0, 0, 0, 0, 0, 0, 0x44, 0x44, 0x44, 0x44]).flatten }
theorem test_meets_dense_sparse : let x := Mx.of 0x88
    ({ len := 8, srcs := [src32 119], ok := fun g => g.srcOk (src32 119) } : LaneForm).starts sparse
    ∧ x.denseHand ≤ 2048 ∧ 4 ≤ x.afmt ∧ x.afmt ≤ 8 ∧ 4 ≤ x.bfmt ∧ x.bfmt ≤ 8 ∧ aRange x sparse.blk.scratch 16 0 = none
    ∧ x.w0 + x.n * x.colBytes true ≤ sparse.blk.wbuf ∧ x.k / 32 ≤ sparse.grp.scaleQ.length := by
  unfold LaneForm.starts; decide
theorem test_meets_dense_metadata : sparse.metadata (Mx.of 0x88) = none := by decide +kernel

/-- A vector lookup of INT4 codes in one table; a subset build and a product build from a register and from scratch. -/
theorem test_meets_lookup : let x := Mx.of 0x80BB
    (tabled 0x80BB).grp.laneInFlight = false ∧ (tabled 0x80BB).arrayRoom true x.lutHand = true
    ∧ ({ len := 8, ok := fun _ => (tabled 0x80BB).tbOk 0 } : LaneForm).starts (tabled 0x80BB)
    ∧ (lutKind x.bfmt).isSome = true ∧ (0 : BitVec 5).toNat + x.lutCount ≤ (tabled 0x80BB).blk.ntables
    ∧ (tabled 0x80BB).bcRange x false = none
    ∧ (∀ i, i < x.lutCount → ((tabled 0x80BB).blk.table (0 + i)).valid = true
      ∧ some ((tabled 0x80BB).blk.table (0 + i)).kind = lutKind x.bfmt ∧ ((tabled 0x80BB).blk.table (0 + i)).pm = (x.bfmt == 13)) := by
  unfold LaneForm.starts; decide
theorem test_meets_lookup_codes : let x := Mx.of 0x80BB
    lutCodes x [(tabled 0x80BB).blk.table 0] ((List.range x.n).map fun j => unpack x.wb x.k ((tabled 0x80BB).column x false j)) = none := by
  decide +kernel
theorem test_meets_builds : let s := tabled 4
    ({ len := 8, srcs := buildSrcs 32 false 31, ok := fun g => s.tbOk 1 && (g.srcAny 31 && g.dstAny 119) } : LaneForm).starts s
    ∧ ({ len := 8, srcs := buildSrcs 32 true 119, ok := fun g => s.tbOk 0 && (g.srcOk (src32 119) && (119 : Code).toNat == 119) } : LaneForm).starts s
    ∧ s.arrayRoom true 1 = true
    ∧ buildFmt (Mx.of 4).afmt = true ∧ s.grp.buildOk 32 31 119 = true ∧ s.buildRange 32 true (s.grp.vectors [src32 119]) = none
    ∧ s.buildRange 32 false [] = none
    ∧ ({ len := 8, srcs := buildSrcs 32 false 31, ok := fun g => s.tbOk 0 && s.tbOk 1 && g.buildOk 32 31 119 } : LaneForm).starts s
    ∧ (s.blk.table 1).valid = true ∧ (s.blk.table 1).kind = 3 := by
  unfold LaneForm.starts; decide

theorem test_meets_tables : let s := tabled 0
    s.grp.laneInFlight = false
    ∧ ({ len := 8, srcs := buildSrcs 32 false 31, ok := fun g => s.tbOk 1 && g.buildOk 32 31 119 } : LaneForm).starts s
    ∧ ({ len := 8, ok := fun _ => s.tbOk 1 } : LaneForm).starts s ∧ ({ len := 8, ok := fun g => s.tbOk 1 && g.dstOk true 30 } : LaneForm).starts s
    ∧ ({ len := 8, srcs := [src32 119], ok := fun g => s.tbOk 1 && g.srcOk (src32 119) } : LaneForm).starts s
    ∧ lowBits 32 (argAt (s.grp.vectors [src32 119]) 0 0) % 64 = 0 ∧ lowBits 32 (argAt (s.grp.vectors [src32 119]) 0 0) + 4160 ≤ s.blk.scratch := by
  unfold LaneForm.starts; decide
theorem test_meets_tbfill : imageBad ((tabled 0).bytes (scratchKey 0 0) 4160) = false := by decide +kernel

/-- The last 64 words of the tile store but for the first word's lane, by one register a lane; C over the whole store. -/
theorem test_meets_tiles : let s := conf 0
    Sys2Proof.Inv s ∧ s.grp.laneInFlight = false
    ∧ ({ len := 8, srcs := [src32 119], ok := fun g => g.srcOk (src32 119) && (31 : Code).toNat < 112 && g.rangeOk (31 : Code).toNat 1 } : LaneForm).starts s
    ∧ s.tileWait s.grp.active 16 1 0 = false
    ∧ 60 < s.blk.tiles ∧ (∀ i, i < 64 → s.grp.active.getLsbD i = true → 60 + 4 * (i * 16) + 4 * 1 ≤ s.blk.tiles)
    ∧ ({ len := 8 } : LaneForm).starts s ∧ ({ len := 8, ok := fun g => g.dstAny 24 } : LaneForm).starts s ∧ (Mx.of 0).t0 + (Mx.of 0).cBytes = s.blk.tiles
    ∧ s.tileBusy (meets (Mx.of 0).t0 (Mx.of 0).cBytes) = false ∧ (Mx.of 0).vec = false ∧ 2 ∈ (if (Mx.of 0).ints then [0, 9, 10] else [2, 3, 4, 5, 9])
    ∧ (24 : Code).toNat < 112 ∧ s.grp.rangeOk (24 : Code).toNat ((Mx.of 0).n * mxWidth 2 / 32) = true := by
  unfold LaneForm.starts Sys2Proof.Inv; decide

def op : MatOp := { grp := 0, blk := 0, batch := 1, lookupArray := false, cfg := 0x99, fmode := 0, rows := 1, work := .dense [] [] [] false }
theorem test_meets_completion : let s := (one id).setCoreAt 0 { ops := [op] }
    Sys2Proof.Inv s ∧ (s.coreAt s.input.a).ops = [op] ∧ s.input.b = 0 ∧ op.written = [] ∧ op.work = .dense [] [] [] false
    ∧ (Mx.of op.cfg).ints = true := by
  unfold Sys2Proof.Inv; decide

-- Witnesses: the hart.

/-- The base address of the block's scratch and of its mailboxes. -/
def at0 (f : Group → Group) : State := one fun g => f { g with x := [(1, 0xF000000000000000)] }

theorem test_meets_hart_free : (one id).hartFree [1, 2, 31] ∧ (at0 id).hartFree [1, 0] ∧ (one id).hartFree [] := by
  unfold State.hartFree; decide
/-- x5 waits for a copy. -/
theorem test_meets_token : let s := one fun g => { g with tokens := [(5, { chan := 0, id := 1 })] }
    s.grp.tokens ≠ [] ∧ ∃ r ∈ [(0 : XReg), 5, 6], s.grp.tokenBusy r = true := by decide

/-- Offsets 3 (misaligned for a word), 1020 (the last word of the scratch), and tag 0xFF (no space). -/
theorem test_meets_hart_access : let s := at0 id
    s.hartFree [1, 2] ∧ (s.grp.xr 1 + (3 : BitVec 12).signExtend 64).toNat % 4 ≠ 0
    ∧ (s.grp.xr 1 + (1020 : BitVec 12).signExtend 64).toNat % 4 = 0
    ∧ (s.grp.xr 1 + (1020 : BitVec 12).signExtend 64).toNat / 2 ^ 56 = 0xF0 ∧ 1020 + 4 ≤ s.blk.scratch ∧ (∀ m ∈ s.net, m.src ≠ s.cur) ∧ s.grp.loadsAway = false
    ∧ s.poisoned (scratchKey s.grp.blk 1020) 4 = false ∧ s.fencedKey (scratchKey s.grp.blk 1020) = false ∧ Sys2Proof.Inv s := by
  unfold Sys2Proof.Inv State.hartFree; decide
theorem test_meets_hart_space : let s := at0 id
    (0xFF00000000000000 : W64).toNat % 4 = 0 ∧ (s.settled [1] []).place s.cur s.mmode 0xFF00000000000000 = .error .space := ⟨by decide, rfl⟩
theorem test_meets_hart_home : let s := at0 id
    s.hartReach 0xF000000000000000 4 .read true true = .home (scratchKey 0 0) none none
    ∧ s.hartReach 0xF000000000000000 8 .write false true = .home (scratchKey 0 0) none none
    ∧ s.hartReach 0xF000000000000000 8 .both false false = .home (scratchKey 0 0) none none
    ∧ s.hartReach 0xF000000000000000 4 .both true false = .home (scratchKey 0 0) none none
    ∧ s.hartReach 0xF000000000000000 8 .cond false false = .home (scratchKey 0 0) none none
    ∧ (0xF000000000000000 : W64).toNat / 2 ^ 56 ≠ 0xF1 := ⟨rfl, rfl, rfl, rfl, rfl, by decide⟩
theorem test_meets_reservation : let s := at0 fun g => { g with resv := some (scratchKey 0 0 / 128 * 128, 128) }
    s.grp.resv = some (scratchKey 0 0 / 128 * 128, 128) ∧ (at0 id).grp.resv ≠ some (scratchKey 0 0 / 128 * 128, 128) := by decide

theorem test_meets_hart_fences : (one id).hartClean ∧ (one id).modifiedHost = false ∧ (one id).evictingAny = false
    ∧ (one id).evicting 0 = false ∧ (one id).dirty = [] ∧ (15 : BitVec 4) ≠ 0 ∧ (one id).hartFree [1, 2]
    ∧ (match (one fun g => { g with x := [(1, 0x1000)] }).place 0 false 0x1000 with | .ok (.global va _) => va == 0x1000 | _ => false) = true := by
  unfold State.hartFree State.hartClean; decide

/-- Both modes; a compute stream that holds, and one that has executed `cend`; the doorbell's interrupt pending and not. -/
theorem test_meets_returns : let m := one fun g => { g with mode := .m, held := true }
    m.grp.mode = .m ∧ m.grp.needCrest = [] ∧ m.blk.needPart1 = false ∧ m.noticeWaits 0 = false ∧ m.grp.held = true ∧ m.grp.cendDone = false
    ∧ (one id).grp.mode = .u ∧ m.grp.mip &&& m.grp.mie = 0
    ∧ (let p := one fun g => { g with mode := .m, mie := 0x800, mondb := { g.mondb with pre := true } }
       p.grp.mode = .m ∧ p.grp.mip &&& p.grp.mie ≠ 0)
    ∧ mstatusTw (one id).grp.mstatus = false ∧ mstatusTw (one fun g => { g with mstatus := 0x200000 }).grp.mstatus = true := by decide

/-- `cycle` read from U-mode, `mscratch` written in M-mode; a number that is not assigned and an M-mode number in U-mode. -/
theorem test_meets_csr : let m := one fun g => { g with mode := .m }
    m.hartFree (CsrSrc.regs (.reg 2) ++ [1]) ∧ (m.csrValue 0x340).isSome = true ∧ m.csrOk 0x340 true = true
    ∧ ((one id).csrValue 0xC00).isSome = true ∧ (one id).csrOk 0xC00 false = true ∧ (one id).csrValue 0x8FF = none ∧ (one id).csrOk 0x340 false = false := by
  unfold State.hartFree; decide
theorem test_meets_special_csr : CsrOp.writes .rw (.reg 0) = true ∧ CsrOp.rc ≠ .rs ∧ CsrOp.writes .rs (.reg 0) = false
    ∧ (one fun g => { g with x := [(1, 1)] }).grp.csrSrc (.reg 1) ≠ 0 := by decide

-- Witnesses: queues, engines and the monitor's instructions.

/-- A full scalar queue; a feedback entry; an entry still in flight and one that has arrived. -/
theorem test_meets_queue_scalars : (one fun g => { g with fbq := [7] }).grp.fbq = 7 :: [] ∧ (one id).grp.fbq = []
    ∧ ((one id).grp.pc + (2 : BitVec 13).signExtend 64) % 4 ≠ 0 ∧ ((one id).grp.pc + (4 : BitVec 13).signExtend 64) % 4 = 0
    ∧ (one id).dirtyBy 0 = [] ∧ (one id).evicting 0 = false ∧ (one id).grp.loadsAway = false ∧ (match (one id).writeBackOwn with | .ok t => t == one id | _ => false) = true
    ∧ (let g := (one fun g => { g with laneWait := some .join }).grp
       g.laneWait = some .join ∧ g.held = false ∧ g.holdC = none) ∧ (one id).grp.laneWait ≠ some .join
    ∧ (∃ e ∈ [{ entry false false with arrived := false }].take 1, e.arrived = false) ∧ ∀ e ∈ [entry false false].take 1, e.arrived = true := by
  decide

/-- The 64 bytes of a record of one 32-bit dimension of 64 elements in global memory at 0x1000, with a box of one. -/
def record : List Byte := [0, 0x10, 0, 0, 0, 0, 0, 0, 1] ++ List.replicate 7 0 ++ [64] ++ List.replicate 15 0 ++ [1] ++ List.replicate 31 0
/-- The record at the base of the scratch, which x1 names. -/
def withRecord (f : Group → Group) : State := let s := at0 f; { s with mem := Memory.writeBytes s.mem (scratchKey 0 0) record }

/-- With 31 loads in flight of 32; with 32; every lane at the first word of the scratch. -/
theorem test_meets_queue_loads : (at0 fun g => { g with runAhead := 31 }).grp.runAhead < (at0 id).grp.slip ∧ (at0 id).grp.qlen 0 < 8
    ∧ ((at0 id).makeLoad (.plain 0xF000000000000000 0 .n32)).wait = none ∧ ¬(at0 fun g => { g with runAhead := 32 }).grp.runAhead < (at0 id).grp.slip
    ∧ (2 : XReg) ≠ 31 ∧ (LdqTy.shape .n32).2.1 = 1 ∧ (∀ m ∈ (at0 id).net, m.src ≠ (at0 id).cur)
    ∧ (at0 id).grp.loadsAway = false := by
  decide +kernel
theorem test_meets_queue_load_faults : ((at0 id).makeLoad (.plain 0xF000000000000000 0 .n32)).precise = none
    ∧ (match ((at0 id).makeLoad (.plain 0xF000000000000001 0 .n32)).precise with | some f => f.cause == 4 | none => false) = true := by
  decide +kernel
theorem test_meets_queue_load_lanes : ∀ i, i < 64 → let a := (at0 id).grp.xr 1 + BitVec.ofNat 64 i * (at0 id).grp.xr 2
    a.toNat / 2 ^ 56 = 0xF0 ∧ a.toNat % 4 = 0 ∧ (a &&& 0x00FFFFFFFFFFFFFF).toNat + 4 ≤ (at0 id).blk.scratch
      ∧ (at0 id).poisoned (scratchKey 0 (a &&& 0x00FFFFFFFFFFFFFF).toNat) 4 = false := by decide

/-- One entry with lane 63 active, at the base of the scratch; an empty stq. -/
def queued : State := at0 fun g => { g with stq := [⟨[], 1 <<< 63⟩] }
theorem test_meets_queue_stores : queued.grp.stq = ⟨[], 1 <<< 63⟩ :: [] ∧ queued.grp.hartSend = none ∧ (at0 id).grp.stq = []
    ∧ queued.storeFate 4 [⟨63, 0xF000000000000000, 0xF000000000000000⟩] = none
    ∧ queued.storeWait 4 [⟨63, 0xF000000000000000, 0xF000000000000000⟩] = none
    ∧ queued.requests (fun _ => []) [⟨63, 0xF000000000000000, 0xF000000000000000⟩] = []
    ∧ (∀ m ∈ queued.net, m.src ≠ queued.cur) ∧ queued.grp.loadsAway = false ∧ queued.fencedKey (scratchKey 0 0) = false := by decide
theorem test_meets_queue_store_form : Sys2Proof.Inv queued := rfl

/-- The record passes its checks; one of no dimension does not. -/
theorem test_meets_tensor : (match (withRecord id).readRecord 0xF000000000000000 0 7 with | .ok r _ => r.slices && r.w != 64 && r.sliceSpace | _ => false) = true
    ∧ (match { one id with mem := Memory.writeBytes (withRecord id).mem (scratchKey 0 7) [0xFF] }.readRecord 0xF000000000000000 0 7 with
      | .ok r _ => !r.sliceSpace | _ => false) = true
    ∧ (match (one id).readRecord 0xF000000000000000 0 7 with | .fault f => f.cause == 5 | _ => false) = true
    ∧ (Rec.ofBytes record).ok 0 = true ∧ (Rec.ofBytes (List.replicate 64 0)).ok 0 = false ∧ (0xF000000000000000 : W64).toNat % 64 = 0
    ∧ (0xF000000000000020 : W64).toNat % 64 ≠ 0 ∧ 0 + 64 ≤ (withRecord id).blk.scratch
    ∧ (withRecord id).poisoned (scratchKey 0 0) 64 = false ∧ (∀ m ∈ (withRecord id).net, m.src ≠ 0) ∧ (withRecord id).grp.loadsAway = false := by decide +kernel

/-- A copy that passes; one to an offset that is not a multiple of 16; a full channel. -/
theorem test_meets_copies : let s := withRecord id
    (3 : XReg) ≠ 0 ∧ (2 : XReg) ≠ 31
    ∧ (match s.readRecord 0xF000000000000000 0 5, s.readBytes 0xF000000000000000 64 5 5 with
      | .ok r t, .ok _ _ => copyFault s 0 r 0xF000000000000000 0 == none && (copyFault s 0 r 0xF000000000000000 8).isSome
          && decide ((t.core.chan 0).copies.length < 16) && !t.grp.hartInFlight && !t.grp.loadsAway && t.dirtyBy t.cur == [] && !t.evicting t.coreNo
      | _, _ => false) = true := by decide +kernel
theorem test_meets_copy_slots : let k : Copy := { id := 0, kind := 0, record := [], c01 := 0, c234 := 0, off := 0, grp := 0, blk := 0, token := 1 }
    16 ≤ (((withRecord id).setCoreAt 0 { chans := [(0, { copies := List.replicate 16 k })] }).core.chan 0).copies.length := by decide

/-- A handle on counters 0 to 1 of core 0 in entry 0, one on those of core 1 in entry 1, and a ring of core 0 in entry 2. -/
def granted (f : Group → Group) : State :=
  let s := one f
  { s with blocks := s.blocks.set 0 { s.blk with counters := [0, 1], handles := [(0, 0x1000000005), (1, 0x1000008005), (2, 7)] } }
theorem test_meets_counters : let s := granted id
    s.counterOk (s.mailbox 0xF400000000000000).1 0 = true ∧ grantsCounter (s.mailbox 0xF400000000000001).1 1 = true
    ∧ isPeer (s.mailbox 0xF400000000000000).1 = false ∧ handleCore (s.mailbox 0xF400000000000000).1 = 0
    ∧ grantsCounter (s.mailbox 0xF400010000000000).1 0 = true ∧ handleCore (s.mailbox 0xF400010000000000).1 = 1
    ∧ { s with blocks := s.blocks.set 16 { s.blk with counters := [0], slots := [16] } }.counterOk (s.mailbox 0xF400010000000000).1 0 = true
    ∧ s.hartClean ∧ s.sentTo (some s.coreNo) = false ∧ s.sentTo (some (handleTarget (s.mailbox 0xF400000000000000).1)) = false ∧ s.grp.jcount < 32
    ∧ (0xF400000000000000 : W64).toNat / 2 ^ 56 = 0xF4 ∧ (0xF100000000000000 : W64).toNat / 2 ^ 56 ≠ 0xF4
    ∧ (∀ k ∈ (s.core.chan 0).copies, k.grp ≠ s.cur) ∧ ((s.core.chan 0).cedone - ((0 : W32) + 1)).msb = true := by
  unfold State.hartClean; decide
/-- A counter of 0 that has reached threshold 0 and not 1; a waiter that an update woke. -/
theorem test_meets_counter_waits : let s := granted id
    let v := s.homeCounter (s.mailbox 0xF400000000000000).1 0
    (v - 0).msb = false ∧ (v - 1).msb = true ∧ s.grp.tokens = []
    ∧ s.grp.hartWait = none
    ∧ s.grp.wakesAt 0 5 = false := by decide
theorem test_meets_woken : let s := fun w => granted fun g => { g with hartWait := some w }
    (s (.woken 5)).grp.hartWait = some (.woken 5) ∧ (s (.mailbox 0 5)).grp.wakesAt 0 5 = true := by decide

/-- Scratch offsets 32, 960 (the last line) and 1024; a ring of the block with a message and without; another's ring. -/
theorem test_meets_rings : let s := (granted id).setCoreAt 0 { rings := [(0, { live := true, owner := 0, tail := 1 }), (1, { live := true })] }
    (32 : W64).toNat % 64 ≠ 0 ∧ (960 : W64).toNat % 64 = 0 ∧ (960 : W64).toNat + 64 ≤ s.blk.scratch ∧ s.blk.scratch < (1024 : W64).toNat + 64
    ∧ s.hartClean ∧ handleKind (s.blk.handle 2) = 3 ∧ (0xF100020000000000 : W64).toNat / 2 ^ 56 = 0xF1 ∧ s.poisoned (scratchKey 0 960) 64 = false
    ∧ ((s.core.ring 0).live = true ∧ (s.core.ring 0).owner = s.grp.blk ∧ (s.core.ring 0).head ≠ (s.core.ring 0).tail)
    ∧ ((s.core.ring 1).live = true ∧ (s.core.ring 1).head = (s.core.ring 1).tail) ∧ (s.core.ring 7).live = false := by
  unfold State.hartClean; decide

theorem test_meets_hart_barriers : let k := (one id).barKey 0 false false
    (one fun g => { g with hartArrived := [(k, 0)] }).arrivalOpen 0 k = true ∧ (one id).arrivalOpen 0 k = false
    ∧ (one id).hartClean ∧ (one fun g => { g with hartBar := true }).grp.hartBar = true ∧ (one id).grp.hartBar = false := by
  unfold State.hartClean; decide

/-- A launch with channel 3 of width 4, in which the block is a member and the root. -/
def reducing (n : RedNode) : State :=
  let s := (one id).setCoreAt 0 { red := [(redKey 0 3, n)] }
  { s with launches := s.launches.set 0 { s.launch with chans := [⟨3, true, 4, 0, 0, 0, [(true, true, 0, 0)]⟩] } }
theorem test_meets_reductions : let s := reducing { sent := 1 }
    s.redChan 3 = some (⟨3, true, 4, 0, 0, 0, [(true, true, 0, 0)]⟩, true, true, 0, 0)
    ∧ ({ len := 8, srcs := [src32 1], ok := fun _ => (s.redChan 3).any redMember } : LaneForm).starts s
    ∧ ({ len := 8, ok := fun g => g.dstOk false 1 && (s.redChan 3).any redReceives, stq := (1 : Code).toNat == 116 } : LaneForm).starts s
    ∧ (s.core.redNode (redKey 0 3)).sent - (s.core.redNode (redKey 0 3)).folded < 2
    ∧ 2 ≤ ((reducing { sent := 2 }).core.redNode (redKey 0 3)).sent - ((reducing { sent := 2 }).core.redNode (redKey 0 3)).folded
    ∧ ((reducing { landed := 1 }).core.redNode (redKey 0 3)).consumed < ((reducing { landed := 1 }).core.redNode (redKey 0 3)).landed
    ∧ (s.core.redNode (redKey 0 3)).landed ≤ (s.core.redNode (redKey 0 3)).consumed := by
  unfold LaneForm.starts; decide

/-- A record at 0x2000 that names a kernel at 0x3000 and no grants; addresses 0x2020, and one in scratch; a join word. -/
def launching : State :=
  let s := one id
  { s with mem := Memory.writeBytes s.mem 0x2000 [0, 0x30], tlb := everyUnit }
theorem test_meets_launch : (0x2020 : W64).toNat % 64 ≠ 0 ∧ (0x2000 : W64).toNat % 64 = 0 ∧ (0x2000 : W64).toNat / 2 ^ 56 = 0
    ∧ (0xF000000000000000 : W64).toNat / 2 ^ 56 ≠ 0 ∧ (0xF000000000000000 : W64).toNat / 2 ^ 56 ≠ 0xF3
    ∧ (match launching.readBytes 0x2000 64 5 29 with
      | .ok l t => (match t.tableRead (BitVec.ofNat 64 (leNat l)) 16 with | .some _ => true | _ => false) && bits (leNat l) 447 384 == 0
      | _ => false) = true
    ∧ (match launching.readBytes 0x2000 8 5 29 with | .ok l _ => leNat l == 0x3000 | _ => false) = true
    ∧ (match launching.readBytes 0x2008 8 5 29 with | .ok l _ => leNat l == 0 | _ => false) = true
    ∧ launching.grp.tokens = [] ∧ (0 : W64).toNat ≤ launching.tide.toNat ∧ launching.tide.toNat < (1 : W64).toNat ∧ (0x2004 : W64).toNat % 8 ≠ 0 := by decide +kernel
theorem test_meets_exit : (one fun g => { g with cendDone := true }).grp.cendDone = true ∧ (one id).grp.cendDone = false := by decide
/-- Counts 0, 2^24 and 2^24 + 1 of a window on the last word of the scratch. -/
theorem test_meets_rank : (0xF0000000000003FC : W64).toNat % 4 = 0 ∧ (0xF0000000000003FC : W64).toNat / 2 ^ 56 = 0xF0 ∧ 1020 + 4 ≤ (one id).blk.scratch
    ∧ (one id).fencedKey (scratchKey 0 1020) = false ∧ (one id).grp.loadsAway = false ∧ (∀ m ∈ (one id).net, m.src ≠ (one id).cur) ∧ (0xF000000000000001 : W64).toNat % 4 ≠ 0 ∧ (0xF300000000000000 : W64).toNat / 2 ^ 56 = 0xF3
    ∧ bits (0x0100000000000000 : W64).toNat 63 32 = 2 ^ 24 := by decide

/-- M-mode with the stream held, and vault 0 granted. -/
def monitor : State :=
  let s := one fun g => { g with mode := .m, held := true }
  { s with vaultMask := [(16, 1)] }
/-- An image that fits slot 0: its magic, its size of 64 bytes and its check word. -/
def image : List Byte := leBytes 8 0x4730 ++ leBytes 8 64 ++ leBytes 8 (0x4730 ^^^ 64 ^^^ 0xA5A5A5A5A5A5A5A5) ++ List.replicate 40 0
theorem test_meets_monitor : (one id).grp.mode = .u ∧ monitor.grp.mode = .m ∧ monitor.grp.held = true
    ∧ (0xF200000000001000 : W64).toNat / 2 ^ 56 = 0xF2 ∧ (0xF200000000001000 : W64).toNat % 4096 = 0 ∧ (1 : W64).toNat ≤ 1 ∧ 1 < (2 : W64).toNat
    ∧ (0xF200000000000008 : W64).toNat % 4096 ≠ 0 ∧ monitor.saveWaits 0 = false ∧ monitor.dirtyBy monitor.cur = [] ∧ monitor.evicting monitor.coreNo = false ∧ monitor.atDebugStop = false
    ∧ monitor.blk.saved1 = false
    ∧ (match monitor.reach monitor.cur true 0xF200000000001000 (0x7000 + 256 * 32) .write with | .ok _ _ => true | _ => false) = true := by decide
theorem test_meets_restore : let s := { monitor with mem := Memory.writeBytes monitor.mem (vaultKey 0 4096) image }
    (match s.reach s.cur true 0xF200000000001000 64 .read with
      | .ok k _ => !s.poisoned k 64 && k == vaultKey 0 4096 && !s.poisoned k (s.imageAt k).length && imageFits (s.imageAt k) 0 0 | _ => false) = true
    ∧ imageFits (monitor.imageAt (vaultKey 0 4096)) 0 0 = false := by decide +kernel
/-- A stream at rest; with an access outstanding; holding in the middle of a store. -/
theorem test_meets_quiesce : monitor.hartFree [9] ∧ monitor.grp.laneBusy = false ∧ (∀ o ∈ monitor.core.ops, o.grp ≠ monitor.cur)
    ∧ (∀ q ∈ monitor.grp.ldq, ∀ e ∈ q.2, e.arrived = true) ∧ monitor.grp.laneSend = none ∧ monitor.grp.tokens = []
    ∧ (let s := one fun g => { g with mode := .m, laneBusy := true, laneSend := some [] }
       s.grp.mode = .m ∧ s.grp.laneBusy = true ∧ s.grp.laneSend.isSome = true ∧ s.grp.held = false) := by
  unfold State.hartFree; decide
/-- A block of a killed context with a copy on a channel. -/
theorem test_meets_save_waits : let k : Copy := { id := 0, kind := 0, record := [], c01 := 0, c234 := 0, off := 0, grp := 0, blk := 0, token := 1 }
    let s := monitor.setCoreAt 0 { chans := [(0, { copies := [k] })] }
    (s.setGrp { s.grp with mondb := { s.grp.mondb with kil := true } }).saveWaits 1 = true := by decide

/-- Slots 0 to 31 by half and release bit; offsets 960 (the last of the scratch), 1024 and 32. -/
theorem test_meets_journal : (31 : W64).getLsbD 6 = false ∧ (64 : W64).getLsbD 6 = true ∧ monitor.grp.mode = .m
    ∧ (960 : W64).toNat % 64 = 0 ∧ (960 : W64).toNat + 64 ≤ (one id).blk.scratch ∧ (one id).blk.scratch < (1024 : W64).toNat + 64
    ∧ (32 : W64).toNat % 64 ≠ 0 := by decide

-- Witnesses: arrivals, placement and gangs.

def sent (m : Msg) : State := { one id with net := [m] }
def arrives (m : Msg) : Prop := (sent m).arriving (sent m).input.b = some m
/-- One message of every kind, each alone in the network. -/
theorem test_meets_arrivals : arrives ⟨0, 2 ^ 20, .ack 31⟩ ∧ arrives ⟨0, 2 ^ 20, .refuse 31 2⟩ ∧ arrives ⟨0, 2048, .posted 0 [(5, 1)] 0 0⟩
    ∧ arrives ⟨0, 0, .posted 0 [(1023, 1)] 0 3⟩ ∧ arrives ⟨0, 0, .increment 0 0 9 1 0⟩ ∧ arrives ⟨0, 0, .copyIncrement 0 0 9 0⟩
    ∧ arrives ⟨0, 0, .ring 7 [] 1⟩ ∧ arrives ⟨0, 2 ^ 57, .rank (scratchKey 0 0) 1 5⟩ ∧ arrives ⟨0, 3, .absence 0 true⟩
    ∧ arrives ⟨0, 0, .redInput 0 3 0 8 []⟩ ∧ arrives ⟨0, 0, .redResult 0 3 0 [7]⟩ ∧ (one id).arriving 0 = none := by
  unfold arrives; decide

theorem test_meets_answers : let s := one fun g => { g with laneBusy := true }
    s.grp.sampler.pending = none ∧ s.blk.state ≠ .retiring ∧ s.grp.laneBusy = true ∧ (s.focus 0).portHeld 0 = false ∧ s.grp.hartReq = none
    ∧ s.net.any (fun m => m.rankOf 0) = false
    ∧ s.sentTo (s.requestTarget (.mbread 1 0xF400000000000000)) = false ∧ s.requestHeld (.mbread 1 0xF400000000000000) = false
    ∧ (sent ⟨0, 0, .posted 0 [(5, 1)] 0 0⟩).sentTo (some 0) = true
    ∧ (one fun g => { g with hartReq := some (.send 1 7 []) }).grp.hartReq = some (.send 1 7 [])
    ∧ (sent ⟨0, 0, .ringAnswer 1 0⟩).net = ⟨0, 0, .ringAnswer 1 0⟩ :: []
    ∧ (one fun g => { g with hartReq := some (.mbread 1 0xF400000000000000) }).grp.hartReq = some (.mbread 1 0xF400000000000000)
    ∧ (granted id).counterOk ((granted id).mailbox 0xF400000000000000).1 ((granted id).mailbox 0xF400000000000000).2 = true := by decide
theorem test_meets_answer_kind : ∀ rd h l, HartReq.mbread 1 0 ≠ .send rd h l := fun _ _ _ h => (by cases h)

/-- A posted write inside the scratch, one byte beyond it, and to a block that is gone; a ring that is open, full and closed;
a window that waits for rank 0. -/
theorem test_meets_messages : let s := one id
    (s.fabricHome s.blk 3 1023 1 = .at (scratchKey 0 1023) ∧ s.fabricHome s.blk 3 1024 1 = .refused 1 ∧ s.fabricHome s.blk 0x200003 0 1 = .refused 0)
    ∧ s.dirty = [] ∧ s.ringOpen 0 7 { live := true } = true ∧ s.ringOpen 0 7 {} = false
    ∧ ((2 : W32) - 0).toNat = ({ live := true, tail := 2 } : Ring).slots ∧ s.windowAt (scratchKey 0 0) = none
    ∧ (ranked.windowAt (scratchKey 0 0)).any (fun w => w.heldBy == [] && w.next == 0) = true ∧ (1 : W32) ≠ 0 ∧ s.input.flag2 = false := by decide

/-- A posted write to vault 0 whose flow is open, and one whose flow is not; a write that covers no poison. -/
theorem test_meets_posted : let m : Msg := ⟨0, 2048, .posted 0 [(5, 1)] 0 0⟩
    let s := sent m
    let t := { s with sec := { s.sec with contexts := [(1, 5)], worlds := [(5, { slot := some 0 })], flows := [flowId (patchPort 0) 640 0 0] } }
    m.dst < 2 ^ 16 ∧ 2048 ≤ m.dst ∧ s.postRefused m = none ∧ t.arriving 0 = some m ∧ (t.taken 0).postRefused m = some 640
    ∧ s.postRefused ⟨0, 0, .posted 0 [(1023, 1)] 0 3⟩ = none ∧ s.input.flag = false
    ∧ s.countsHere s.blk 0 9 = false ∧ (granted id).countsHere (granted id).blk 0 0 = true ∧ s.mergesPoison [(vaultKey 0 5, 1)] = false := by decide

/-- A block that is the root of a tree of one, its own contribution present; its result next. -/
theorem test_meets_folds : let s := reducing { inputs := [(0, 8, [some 1])] }
    let u := { s with launches := s.launches.set 0 { s.launch with coreMap := [0] } }
    (u.launchAt 0).chans.find? (fun c => c.ch == 3) = some ⟨3, true, 4, 0, 0, 0, [(true, true, 0, 0)]⟩
    ∧ [(true, true, 0, 0)][(u.launchAt 0).coreMap.idxOf 0]? = some (true, true, 0, 0) ∧ u.coreFrozen 0 = false
    ∧ (∀ p ∈ (⟨3, true, 4, 0, 0, 0, [(true, true, 0, 0)]⟩ : RedChan).ports 0, ((u.core.redNode 3).inputs.find? fun i => i.1 == 0 && i.2.1 == p).isSome = true)
    ∧ (u.core.redNode 3).landed = 0 ∧ 0 < (u.core.redNode 3).consumed + 2
    ∧ ((u.blocksOn 0).find? fun b => b.2.launch == 0).isSome = true := by decide

/-- An entry in flight; a poisoned one to be replayed; a copy not started, one started; a dirty sector; a prefetched one. -/
theorem test_meets_loads_copies : let e := { entry false true with replay := true }
    let s := one fun g => { g with ldq := [(0, [e])], laneWait := some (.replay 0), tokens := [(1, { chan := 0, id := 5 })] }
    let k : Copy := { id := 5, kind := 0, record := record, c01 := 0, c234 := 0, off := 0, grp := 0, blk := 0, token := 1, started := true }
    let c := s.setCoreAt 0 { chans := [(0, { copies := [k] })], fills := [(1, 0, 0, false)] }
    s.grp.entry 0 0 = some e ∧ e.poison = true ∧ e.replay = true ∧ s.grp.laneWait = some (.replay 0) ∧ (s.focus 0).laneReady = true
    ∧ (one id).grp.olderAway { entry false false with arrived := false } = false
    ∧ (one fun g => { g with ldq := [(0, [{ entry false false with arrived := false }])] }).grp.entry 0 0 = some { entry false false with arrived := false }
    ∧ ((c.coreAt 0).chan 0).copies = k :: [] ∧ c.blkFrozen 0 = false ∧ k.ticket = none ∧ (c.focus 0).portHeld 32 = false
    ∧ c.grp.tokens.find 1 = some ⟨0, 5, false⟩ ∧ (c.coreAt 0).fills[0]? = some (1, 0, 0, false)
    ∧ c.poisoned 0 128 = false ∧ (let k' := { k with started := false }
       (((c.setCoreAt 0 { chans := [(0, { copies := [k'] })] }).coreAt 0).chan 0).copies = k' :: [] ∧ k'.started = false) := by decide
/-- A dirty sector of a mapped page. -/
theorem test_meets_eviction : let d : DirtySector := { core := 0, slot := 0, asid := 1, va := 0x1000, pa := 0x1000, glob := false, bytes := List.replicate 128 0 }
    (match ({ one id with dirty := [d] }).evictSector d with | .ok _ => true | _ => false) = true := by decide
theorem test_meets_copy_rest : let k : Copy := { id := 5, kind := 0, record := record, c01 := 0, c234 := 0, off := 0, grp := 0, blk := 0, token := 1, started := true }
    ((one id).copyRest 0 k (Rec.ofBytes record)).all (fun p => match p.2 with | .ok _ _ => true | _ => false) = true := by decide +kernel
theorem test_meets_replay : let r := ((at0 id).focus 0).makeLoad (.plain 0xF000000000000000 0 .n32)
    (r.wait.isNone && r.fault.isNone) = true
    ∧ ((((at0 id).focus 0).makeLoad (.plain 0xFF00000000000000 0 .n32)).fault.any fun f => f.xlate.isNone) = true := by decide +kernel

/-- A launch of one block of two groups at the head of queue 0 of partition 0, on an empty core and on one that it fills. -/
def launched : State := State.reset.enqueue { asid := 1, kernel := { groups := 2, regs := 32, scratch := 262144 }, gx := 1, live := 1 } false
theorem test_meets_placement : launched.nextQueue 0 = some (0, 0, launched.nextLaunch - 1) ∧ launched.partOfCore 0 = 0 ∧ launched.gangSt 0 = 0
    ∧ launched.dead.find 1 = none ∧ (launched.launchAt (launched.nextLaunch - 1)).cores 0 = [0]
    ∧ launched.fits (launched.nextLaunch - 1) 0 0 = true
    ∧ { launched with blocks := [(0, { launch := launched.nextLaunch - 1, scratch := 1 })] }.fits (launched.nextLaunch - 1) 0 0 = false
    ∧ (launched.slotsFor (launched.launchAt (launched.nextLaunch - 1)) 0)[1]? = some 1 ∧ 2 ∉ launched.slotsFor (launched.launchAt (launched.nextLaunch - 1)) 0
    ∧ (launched.reg (subBlock 0 0x3008)).getLsbD 0 = false := by decide +kernel

/-- A drained block that retires, its join words at 0x4000 mapped; one of a dead context with its images saved. -/
def retiring (f : State → State) : State :=
  let s := one id
  f { s with tlb := everyUnit, blocks := s.blocks.set 0 { s.blk with state := .retiring, saved1 := true }, launches := s.launches.set 0 { s.launch with join := 0x4000 } }
theorem test_meets_retirement : (retiring id).blocks.find 0 = some (retiring id).blk ∧ (retiring id).dead.find 1 = none
    ∧ (retiring id).blk.state = .retiring ∧ (retiring id).drained 0 = true ∧ (retiring id).evicting 0 = false
    ∧ (match (retiring id).joinEnd (retiring id).launch 0 with | some (.ok _) => true | _ => false) = true
    ∧ (match (retiring id).writeBackAll ([0].flatMap (retiring id).dirtyBy) with | .ok t => !t.evicting 0 | _ => false) = true
    ∧ (retiring fun s => { s with dead := [(1, 2)] }).dead.find 1 ≠ none ∧ (retiring fun s => { s with dead := [(1, 2)] }).allSaved 1 = true
    ∧ (sent ⟨0, 0, .ack 0⟩).drained 0 = false := by decide +kernel

/-- A pending cause in U-mode and none; the doorbell with the interrupt enabled and not; each wait that a limit ends. -/
theorem test_meets_interrupts : let s := one fun g => { g with asyncs := [⟨24, 0⟩], mie := 0x800, mondb := { g.mondb with pre := true } }
    s.running 0 = true ∧ s.grp.nextAsync = some ⟨24, 0⟩ ∧ s.grp.mode = .u ∧ s.grp.hartReq = none ∧ s.grp.mip &&& s.grp.mie ≠ 0
    ∧ (one id).grp.nextAsync = none ∧ (one id).grp.mip &&& (one id).grp.mie = 0
    ∧ (one fun g => { g with mode := .m, mstatus := 0 }).grp.mode = .m ∧ mstatusMie (one fun g => { g with mode := .m, mstatus := 0 }).grp.mstatus = false
    ∧ (one fun g => { g with hartWait := some .tide }).grp.hartWait = some .tide
    ∧ (let d := one fun g => { g with hartWait := some .fbqEmpty, laneWait := some .scqEmpty }
       d.running 0 = true ∧ d.parked 0 = false ∧ d.grp.held = false ∧ d.grp.faultWait = false ∧ d.grp.hartCross = true ∧ d.grp.laneCross = true)
    ∧ ((one id).blocks.find 0).isSome = true ∧ (one id).blk.state = .running ∧ (one id).parked 0 = false ∧ (one id).dead.find 1 = none := by decide
/-- A context whose watchdog and remote limits are 1, at Tide 5, and one without limits. -/
def limited (f : Group → Group) : State :=
  let s := one f
  { s with tide := 5, mem := Memory.writeBytes s.mem (512 + 256) [1, 0, 0, 0, 0, 0, 0, 0, 1] }
theorem test_meets_limits : let s := limited id
    s.le (s.ctxEntry 1 + 256) 8 = 1 ∧ s.le (s.ctxEntry 1 + 264) 8 = 1 ∧ s.blk.idleSince + 1 ≤ s.tide.toNat ∧ s.grp.hartTide + 1 < s.tide.toNat
    ∧ (one id).le ((one id).ctxEntry 1 + 256) 8 = 0 ∧ (one id).le ((one id).ctxEntry 1 + 264) 8 = 0
    ∧ (limited fun g => { g with x := [(1, 4)], hartWait := some .tide, hword := 0x8000 }).tide.toNat ≥ 4 ∧ (one id).running 0 = true := by decide +kernel
/-- A hart that waits on a counter of a peer; one with a request to a distant home. -/
theorem test_meets_gangs : let s := one fun g => { g with hartWait := some (.mailbox (256 * 2 ^ 16) 1) }
    let p := s.setPart 0 { s.part 0 with gangSt := 1 }
    let r := one fun g => { g with hartReq := some (.mbread 1 0xF400000000000000) }
    s.grp.hartWait = some (.mailbox (256 * 2 ^ 16) 1) ∧ Map.get 0 s.absent (256 * 2 ^ 16) = 0 ∧ s.gangSt 0 ≠ 2 ∧ s.gangSt 0 = 0
    ∧ r.grp.hartReq = some (.mbread 1 0xF400000000000000) ∧ s.mayReach (.hostPort 0) (subBlock 0 0) = false
    ∧ (s.setPart 0 { s.part 0 with gangSt := 2 }).gangSt 0 = 2 ∧ { s with input := { s.input with who := .sysCore 0 } }.mayReach (.sysCore 0) (subBlock 0 0) = true
    ∧ (p.part 0).gangSt = 1 ∧ ((p.blocksOn 0).filter fun b => b.2.state == .running && b.2.slots.all fun j => !(p.grpAt j).mondb.pre) ≠ []
    ∧ p.tide.ult (p.reg (subBlock 0 8)) = false ∧ s.blk.slots.Nodup ∧ 0 ∈ s.blk.slots := by decide

-- Witnesses: device, boot and host.

/-- A notice of the access stream of slot 0 with ticket 0, and one with ticket 1. -/
def noticeA : W64 := 0x40000
theorem test_meets_notices : let s := one fun g => { g with holdA := true }
    let q := s.setPagerQueue 0 0 { s.pagerQueue 0 0 with held := [noticeA] }
    s.noticeHeld (noticeOf noticeA) = false ∧ s.noticeFits (noticeOf noticeA) = true ∧ s.noticeFits (noticeOf (noticeA + 0x100000)) = false
    ∧ (s.pagerQueue 0 0).held = [] ∧ (q.pagerQueue 0 0).held = noticeA :: []
    ∧ { s with blocks := s.blocks.set 0 { s.blk with state := .suspended } }.noticeHeld (noticeOf noticeA) = true
    ∧ (noticeOf noticeA).grp / 16 < 1984 ∧ (noticeOf noticeA).src ≠ 2 ∧ s.shoots[0]? = none := by decide
def shootAll : Shoot := { asid := 1, all := true, glob := false, va := 0, len := 0, ending := .word 0 }
theorem test_meets_shootdown : { one id with shoots := [shootAll] }.shoots[0]? = some shootAll
    ∧ ((one id).endKeys shootAll.ending).findSome? (fun x => (one id).lineWait x.1 x.2 true) = none
    ∧ shootAll.bad = false ∧ shootAll.ending.taken? = false ∧ (one id).shootWaits shootAll = false
    ∧ (∀ d ∈ (one id).dirty, shootAll.hits d.asid d.glob d.va 128 = false)
    ∧ shootAll.hits 2 false 0 4096 = false := by decide
/-- A shootdown that waits for a contribution to its range, a bad one, and one whose page is taken. -/
theorem test_meets_shootdown_ends :
    { one id with net := [⟨0, 2 ^ 57, .rank 64 0 5⟩], windows := [{ asid := 1, key := 64, home := 0, base := 0, count := 2, next := 0, va := some 64 }] }.shootWaits shootAll = true
    ∧ ({ shootAll with bad := true } : Shoot).bad = true
    ∧ ({ shootAll with ending := .taken 0 0 0 1 0 } : Shoot).ending.taken? = true
    ∧ (one id).mayReach (.sysCore 0) (subBlock 0 0x20) = true ∧ (one id).mayReach (.hostPort 0) (subBlock 0 0x20) = false := by decide

/-- Periods 0 and 1 with the breakwater off and on; a held request with a token and without; each site. -/
theorem test_meets_breakwater : let s := { one id with cycles := 1024 }
    let on := { s with regs := s.regs.set (subBlock 0 0x2000) 1 }
    let held := fun n => s.setCoreAt 0 { heldPort := [⟨16, 2⟩], buckets := [(2, n)] }
    (one id).cycles / 1024 ≤ ((one id).part 0).period ∧ (s.part 0).period < s.cycles / 1024 ∧ (s.reg (subBlock 0 0x2000)).getLsbD 0 = false
    ∧ (on.reg (subBlock 0 0x2000)).getLsbD 0 = true ∧ s.partOfCore 1535 ≠ 1 ∧ s.partOfCore 1535 = 0
    ∧ ((held 1).coreAt 0).heldPort[0]? = some ⟨16, 2⟩ ∧ Map.get 0 ((held 1).coreAt 0).buckets 2 ≠ 0 ∧ Map.get 0 ((held 0).coreAt 0).buckets 2 = 0
    ∧ (⟨16, 2⟩ : Metered) ∉ ((held 1).coreAt 0).heldPort.take 0 := by decide
theorem test_meets_ecc : ({ site := .memUnit 4096, flag := true } : EventInput).site = .memUnit 4096 ∧ 4096 < 2 ^ 53
    ∧ ({ site := .groupState 0 1 } : EventInput).site = .groupState 0 1 ∧ ({ site := .code 0 true, flag2 := true } : EventInput).site = .code 0 true := by decide

/-- Each agent that may write and one that may not; offsets in a core's block and outside. -/
theorem test_meets_registers : let s := one id
    (∀ n, Agent.harbourmaster ≠ .sysCore n) ∧ coreAtOffset 0 = some 0 ∧ coreAtOffset (pd0 0x100) = none
    ∧ s.mayReach (.sysCore 0) (pd0 0x100) = true ∧ s.mayReach (.hartM 0) (pd0 0x100) = false
    ∧ bits (0 : W64).toNat 1 0 = bits (s.reg (pd0 0x100)).toNat 1 0 ∧ bits (1 : W64).toNat 1 0 ≠ bits (s.reg (pd0 0x100)).toNat 1 0
    ∧ (∀ p, Agent.sysCore 0 = .hostPort p → s.portOpen p = true) ∧ s.portOpen 1 = true
    ∧ { s with host := { s.host with fenced := [1] } }.portOpen 1 = false
    ∧ s.coreMayReach (.sysCore 0) 0 8 = true ∧ s.coreMayReach (.hostPort 0) 0 8 = false
    ∧ (one fun g => { g with mode := .m }).grp.mode = .m ∧ s.grp.mode = .u
    ∧ ownStep (pd0 0x100) = true ∧ ownStep (subBlock 0 8) = false ∧ quaysideOnly (subBlock 0 8) = false ∧ gangOff (subBlock 0 0) = true :=
  ⟨fun _ h => (by cases h), by decide, by decide, by decide, by decide, by decide, by decide, fun _ h => (by cases h), by decide, by decide, by decide, by decide, by decide, by decide, by decide, by decide, by decide, by decide⟩
theorem test_meets_boot_writes : bits (5 : W64).toNat 2 0 = 5 ∧ bits ({ one id with boot := { (one id).boot with bootst := 4 } }).boot.bootst.toNat 2 0 = 4
    ∧ bits (one id).boot.banksel.toNat 0 0 ≠ 1 ∧ (5 : W64) >>> 13 = 0 ∧ (0x2005 : W64) >>> 13 ≠ 0
    ∧ (Agent.sysCore 0).quayside = true ∧ (Agent.hostPort 0).quayside = false
    ∧ ((one id).setHq 0 0 { (one id).hq 0 0 with broken := true }).hq 0 0 = { (one id).hq 0 0 with broken := true } := by decide

/-- Samples that pass both tests, and samples that do not; fuse banks that agree, and that do not; the least version. -/
def noise : List Byte := (List.range 1024).map fun i => BitVec.ofNat 8 (i * 37)
theorem test_meets_boot_noise : blockOk (noise.take 1024) = true ∧ blockOk (([] : List Byte).take 1024) = false := by decide +kernel
theorem test_meets_boot : (one id).boot.fuse0 = (one id).boot.fuse1
    ∧ { (one id).boot with fuse1 := { (one id).boot.fuse1 with arb := 1 } }.fuse0 ≠ { (one id).boot with fuse1 := { (one id).boot.fuse1 with arb := 1 } }.fuse1
    ∧ least (one id).boot.secvers ≤ fusedCounter (one id).boot.fuse0.arb
    ∧ fusedCounter (one id).boot.fuse0.arb < least { (one id).boot with secvers := [1, 2, 1, 1, 1] }.secvers := by decide

/-- Slot 0 calls with these words, in this state of the Harbourmaster. -/
def calling (l : List Nat) (f : Security → Security) : State :=
  let s := one id
  { s with sec := f { s.sec with order := [0], calls := [(0, { record := l.flatMap (leBytes 8 ·), busy := true })] } }
def words (l : List Nat) : List Nat := l ++ List.replicate (8 - l.length) 0
/-- A call of every op, with the arguments at the ends of their ranges. -/
theorem test_meets_calls : ∀ l ∈ [[0], [10], [1, 65535, 0xFFF], [1, 1, 0x10001], [2, 65535], [3, 4095, 0], [4, 1, 0], [5, 4095], [6, 0, 9], [7, 0],
      [8, 1, 11, 7], [9]], (calling l id).nextCall = some (0, words l) ∧ (bits (callWord (words l) 0) 7 0 < 8 →
        strayBits (words l) (if [1, 3, 4, 6].contains (bits (callWord (words l) 0) 7 0) then 2 else 1) = false) := by decide +kernel
theorem test_meets_contexts : let s := calling [1, 1, 0x10001] id
    let c := calling [2, 1] fun x => { x with contexts := [(1, 5)], worlds := [(5, { slot := some 0 }), (6, {})] }
    s.sec.contexts.find 1 = none ∧ s.worldLocked 1 = false ∧ s.sec.worlds.find 1 = none ∧ s.sec.worlds.length < 4095 ∧ s.sec.freeSlot.isSome = true
    ∧ s.sec.locked = false ∧ c.sec.contexts.find 1 = some 5 ∧ c.sec.worlds.find 5 = some { slot := some 0 } ∧ c.sec.worlds.find 6 = some {}
    ∧ c.contextBusy 1 = true ∧ c.contextBusy 2 = false ∧ (c.contextsOf 5).any c.contextBusy = true ∧ c.contextsOf 6 = [] ∧ c.blobOk 0 = true
    ∧ { s with host := { s.host with tdisp := .run, guest := [1] } }.worldLocked 2 = true := by decide
theorem test_meets_key_generation : (Security.generate {} 96 ((noise ++ noise) ++ List.replicate 6144 0)).2.isSome = true := by decide +kernel
theorem test_meets_handle_calls : (granted id).blocks.find 0 = some (granted id).blk ∧ handleArgs (words [6, 0, 9]) = (0, 0) ∧ 0 < 2 ^ 23
    ∧ isPeer (BitVec.ofNat 64 (9 % 2 ^ 44)) = true ∧ ((granted id).blk.handle 0).getLsbD 0 = true ∧ ((granted id).blk.handle 9).getLsbD 0 = false
    ∧ (granted id).handleInUse 0 0 = false
    ∧ (granted fun g => { g with hartReq := some (.mbread 1 0xF400000000000000) }).handleInUse 0 0 = true
    ∧ (∀ m ∈ (granted id).net, 2048 ≤ m.dst → m.dst < 2816 → (m.dst - 2048) / 64 = 11 → ((granted id).launchAt ((granted id).blkAt ((granted id).grpAt m.src).blk).launch).asid ≠ 1) := by
  decide

/-- Page tables of ASID 1 that map its first GiB to the bottom of memory, with own `own`, and leave its third to pager queue 0. -/
def mapped (own : Nat) : State :=
  let s := one id
  let table : List (Nat × Nat) := [(8, 0x100001), (0x10000, 0x110001), (0x11000, 0x120001), (0x12000, 0x1F + 64 * own), (0x12010, 2 ^ 57), (512, 0x800000)]
  { s with mem := table.foldl (fun m x => Memory.writeBytes m x.1 (leBytes 8 x.2)) s.mem }
/-- Pair 0 of ASID 1, enabled, with rings of 16 entries at 0x20000, whose first entry is `l`. -/
def paired (l : List Byte) (f : HostQueue → HostQueue) : State :=
  let s := mapped 0
  let q : HostQueue := { ctl := 0x400041, sub := 0x20000, comp := 0x30000, subTail := 1 }
  { s.setPart 0 { s.part 0 with hqs := [(0, f q)] } with mem := Memory.writeBytes s.mem 0x20000 l }
theorem test_meets_host_queues : ∀ op ∈ [0, 1, 2, 3, 4, 5], ((paired [BitVec.ofNat 8 op] id).hostEntry 0 0).map (fun e => fieldAt e.2 0 1) = some op := by
  decide +kernel
theorem test_meets_host_entries : (paired [3, 0, 0, 0, 0, 0, 0, 0, 1] id).hostEntry 0 0 ≠ none ∧ (one id).hostEntry 0 0 = none
    ∧ ((paired [] id).hq 0 0).asid = 1 ∧ (paired [] id).portOpen 0 = true ∧ ((paired [] id).hq 0 0).size < ((17 : Half) - 0).toNat
    ∧ ¬((paired [] id).hq 0 0).size < ((16 : Half) - 0).toNat ∧ (mapped 0).leafOf 1 0 = some (0x12000, 1) ∧ (mapped 0).leafOf 2 0 = none ∧ (mapped 0).lineWait 0x12000 8 true = none
    ∧ (match walk (mapped 0) 1 0 with | .leaf _ own _ _ => own == 0 | _ => false) = true
    ∧ (match walk (mapped 2) 1 0 with | .leaf _ own _ _ => own == 2 | _ => false) = true := by decide +kernel
/-- Another port holds the line at `a`. -/
def away (a : Nat) (s : State) : State :=
  { s with host := { s.host with filter := [(a / 64, (1, .m))], links := [(8, { mode := .cxl31 })] } }
theorem test_meets_host_launch : let s := paired [1] id
    (s.jetty 0).held = none ∧ (s.jetty 0).failed.contains 0 = false ∧ ((s.setJetty 0 { held := some 0 }).jetty 0).held.isSome = true
    ∧ ((s.setJetty 0 { failed := [0] }).jetty 0).failed.contains 0 = true ∧ s.pairLine 0 0 0 = none
    ∧ ((away 0x20000 s).pairLine 0 0 0).isSome = true ∧ ((away 0x20000 s).hostEntry 0 0).isSome = true := by decide
theorem test_meets_launch_reads : (match (mapped 0).readLaunch 0 1 0x40000 with | .ok (some _) => true | _ => false) = true
    ∧ (match (mapped 0).readLaunch 0 1 0x40001 with | .ok none => true | _ => false) = true
    ∧ (match (mapped 0).readLaunch 0 1 0x80000000 with | .error (.page _ _) => true | _ => false) = true
    ∧ (match (away 0x40000 (mapped 0)).readLaunch 0 1 0x40000 with | .error (.line _) => true | _ => false) = true := by decide +kernel

/-- A lease that runs and is renewed, one that is over and claimed, and each expiry. -/
def leased (f : Lease → Lease) : State := let s := one id; { s with host := { s.host with lease := f { st := 1, exp := 5, epoch := 1 } } }
theorem test_meets_lease : (leased id).leaseResult 0 false 0x6400010000 = 0 ∧ (leased id).leaseResult 1 false 0x6400010000 = 1
    ∧ (leased fun l => { l with st := 2 }).leaseResult 1 true 0x100020000 = 0 ∧ (leased id).leaseResult 1 true 0x100020000 ≠ 0
    ∧ (leased id).host.tdisp ≠ .run ∧ (leased id).tide.toNat < (leased id).host.lease.exp.toNat
    ∧ (leased fun l => { l with exp := 0 }).host.lease.exp.toNat ≤ (leased id).tide.toNat := by decide
theorem test_meets_links : (Map.get {} (one id).host.links 0 : Link).mode = .down ∧ LinkMode.cxl31 ≠ .down ∧ LinkMode.cxl20 ≠ .cxl31
    ∧ (Map.get {} [(0, { mode := .cxl31, ideIo := true, ideCxl := true })] 0 : Link).mode ≠ .down
    ∧ (Map.get {} [(0, { mode := .cxl31, ideIo := true, ideCxl := true })] 0 : Link).ideIo = true := by decide
/-- A state of the interface at port 0. -/
def tdisp (t : Tdisp) : State :=
  let s := leased id
  { s with host := { s.host with tdisp := t, port := 0, links := [(0, { mode := .cxl31, ideIo := true, ideCxl := true })] } }
theorem test_meets_interface : ((tdisp .unlocked).host.lease.st = 1 ∧ (tdisp .unlocked).host.lease.holder = 0 ∧ (tdisp .unlocked).host.tdisp = .unlocked)
    ∧ (tdisp .locked).host.tdisp = .locked ∧ (tdisp .locked).host.port = 0 ∧ (tdisp .run).host.tdisp ≠ .unlocked
    ∧ Sys2Proof.Inv (tdisp .run) := by
  unfold Sys2Proof.Inv; decide

/-- A line of host memory of port 0, M, and one that a hart waits for; a line of HBM that port 1 holds. -/
def hosted (x : Mesi) (f : State → State) : State :=
  let s := tdisp .unlocked
  f { s with host := { s.host with lines := [(2 ^ 45, x)] } }
theorem test_meets_coherence : (hosted .m id).cachedHost (64 * 2 ^ 45) = true ∧ Map.get .i (hosted .m id).host.lines (2 ^ 45) ≠ .i
    ∧ (hosted .m id).cachedHost 0 = false ∧ Map.get .i (hosted .i id).host.lines (2 ^ 45) = .i
    ∧ (hosted .s fun s => s.setGrp { s.grp with hartWait := some (.hostLine (2 ^ 45) true) }).lineWanted (2 ^ 45) true = true
    ∧ (hosted .i fun s => { s with host := { s.host with asked := [(2 ^ 45, false)] } }).lineWanted (2 ^ 45) false = true
    ∧ (∀ e ∈ (hosted .i id).host.evicts, e.2 ≠ 2 ^ 45) ∧ (hosted .i id).host.filter.find 3 = none
    ∧ (hosted .i fun s => { s with host := { s.host with filter := [(3, (1, .m))] } }).host.filter.find 3 = some (1, .m)
    ∧ (hosted .i fun s => { s with host := { s.host with filter := [(3, (1, .m))], asked := [(3, true)] } }).lineWanted 3 true = true
    ∧ (Map.get {} (hosted .i id).host.links 0 : Link).mode = .cxl31 ∧ (hosted .i id).portOpen 0 = true ∧ hbmSize - 1 < hbmSize := by decide

-- Words.

/-- What the decoders answer. -/
def lane (w0 w1 w2 : W32) : Option Instr := (decodeLane w0 w1 w2).toOption
def hart (w : W32) : Option Instr := (decodeHart w).toOption

/-- 04 Table 4-1: the short form, field by field. -/
theorem test_word_short : lane (5#7 ++ 4#7 ++ 3#7 ++ 0x001#10 ++ 0#1) 0 0 = some (.addI32 3 4 5)
    ∧ lane (119#7 ++ 119#7 ++ 119#7 ++ 0#10 ++ 0#1) 0 0 = some .nop
    ∧ lane (117#7 ++ 6#7 ++ 5#7 ++ 0x001#10 ++ 0#1) 0 0 = some (.addI32 5 6 117) := by decide
/-- The long form: word 0 of b, a, d, major and 01; word 1 of imm16, modifiers and c. -/
theorem test_word_long : lane (112#7 ++ 1#7 ++ 4#7 ++ 0x043#9 ++ 1#2) (0#16 ++ 0x009#9 ++ 3#7) 0 = some (.ffma .f32 .mode 4 1 112 3)
    ∧ lane (6#7 ++ 2#7 ++ 4#7 ++ 0x000#9 ++ 1#2) (0#16 ++ 3#9 ++ 119#7) 0 = some (.add .i64 false 4 2 6) := by decide
/-- The literal form. -/
theorem test_word_literal : lane (119#7 ++ 119#7 ++ 7#7 ++ 0x000#9 ++ 3#2) (0#16 ++ 2#9 ++ 119#7) 0x12345678 = some (.li .i32 7 0x12345678) := by decide
/-- 04 Table 4-6 and RV64I: funct7, rs2, rs1, funct3, rd and the opcode; imm12; a branch's scattered offset. -/
theorem test_word_hart : hart (2#7 ++ 0#5 ++ 0#5 ++ 4#3 ++ 5#5 ++ 0x0B#7) = some (.zFbpop 5)
    ∧ hart (0x20#7 ++ 3#5 ++ 2#5 ++ 0#3 ++ 1#5 ++ 0x33#7) = some (.hartInstruction (.alu .sub 1 2 3))
    ∧ hart (0x7FF#12 ++ 2#5 ++ 0#3 ++ 1#5 ++ 0x13#7) = some (.hartInstruction (.aluImm .addi 1 2 0x7FF))
    ∧ hart (1#1 ++ 0x3F#6 ++ 2#5 ++ 1#5 ++ 0#3 ++ 0xE#4 ++ 1#1 ++ 0x63#7) = some (.hartInstruction (.branch .eq 1 2 0x1FFC)) := by decide

/-- The words that 04, 05, 06 and 07 write out. -/
theorem test_spec_words : lane 0x00A81832 0 0 = some (.pb 3 2 5) ∧ lane 0xE004210D 0x00001483 0 = some (.ffma .f32 .rne 4 1 112 3)
    ∧ lane 0xEE0BB870 0 0 = some (.fbpush 2) ∧ lane 0xEE0FB872 0 0 = some (.fbany 3) ∧ lane 0x1834 0 0 = some (.qmode 3)
    ∧ lane 0xEFDC18BD 0xFFFF0177 0 = some (.movi .i32 3 0xFFFF) ∧ lane 0xEFDC3803 0x177 0x12345678 = some (.li .i32 7 0x12345678)
    ∧ lane 0x1830 0 0 = some (.lwin 3) ∧ lane 0x04041121 0x24F7 0 = some (.fcmp .lt .f32 2 1 2)
    ∧ lane 0xEE143159 0x00036589 0 = some (.cvt .bf16 .f32 .sr false 6 5 3) ∧ lane 0xEE0BB836 0 0 = some (.fsetm 2)
    ∧ lane 0xEFDC2038 0 0 = some (.fgetm 4) ∧ lane 0xEFDFB882 0 0 = some .cret ∧ lane 0xEFDFBA0D 0x00080077 0 = some (.cloop 8) := by decide
/-- The words of 08. -/
theorem test_spec_words_masks : lane 0x06080860 0 0 = some (.shfl 1 2 3) ∧ lane 0xEE142062 0 0 = some (.compress 4 5)
    ∧ lane 0xEE080866 0 0 = some (.qswapH 1 2) ∧ lane 0xEE080985 0x00050077 0 = some (.bcastImm 1 2 5)
    ∧ lane 0xEA080991 0x77 0 = some (.slidedn 1 2 117) ∧ lane 0xEE080999 0x00030077 0 = some (.qbcast 1 2 3)
    ∧ lane 0xEE17B99D 0x4F7 0 = some (.gred .add .f32 5) ∧ lane 0xEE17B9A1 0x4F7 0 = some (.gscan .f32 5)
    ∧ lane 0x02048042 0 0 = some (.mor 16 1 1) ∧ lane 0x08102044 0 0 = some (.mxor 4 4 4) ∧ lane 0xEE041846 0 0 = some (.mnot 3 1)
    ∧ lane 0xEE043048 0 0 = some (.mpopc 6 1) ∧ lane 0xEE40104A 0 0 = some (.mfirst 2 16) ∧ lane 0xEE43B84C 0 0 = some (.mpush 16)
    ∧ lane 0xEFDC804E 0 0 = some (.mpop 16) ∧ lane 0xEFD48050 0 0 = some (.mset 16 117) ∧ lane 0xEE23B9D9 0x1F7 0 = some (.mspill .generic 8 0) := by
  decide
/-- The words of 09, 10 and 12. -/
theorem test_spec_words_memory : lane 0x080819C9 0x877 0 = some (.atom .add .n32 .generic .relaxed 3 2 4 119)
    ∧ hart 0x0262A3DB = some (.zRank 7 5 6) ∧ lane 0xEFDFB9CD 0x8177 0 = some (.fence .rel .device)
    ∧ hart 0x00C0105B = some (.zFence .acq .device) ∧ hart 0x0662862B = some (.zCpyin 3 12 5 6) ∧ hart 0x0036102B = some (.zCpywait 3 0 12)
    ∧ hart 0x0062A02B = some (.zMbadd 5 6) ∧ hart 0x0402A3AB = some (.zMbrd 7 5) ∧ hart 0x0062B3AB = some (.zSend 7 5 6)
    ∧ hart 0x0402B02B = some (.zRdone 5) ∧ lane 0xEE23BA21 0x00020077 0 = some (.rsend 8 2) ∧ lane 0xEFDC5225 0x00020077 0 = some (.rrecv 10 2)
    ∧ hart 0x000352AB = some (.zLaunch 5 6) ∧ hart 0x0400502B = some (.zExit 0) ∧ hart 0x02B5007B = some (.zCsave 10 11)
    ∧ hart 0x080302FB = some (.zSample 5 6) ∧ lane 0xEFDFBA11 0x00050077 0 = some (.trap 5) ∧ lane 0xEFDFB888 0 0 = some .brk := by decide
/-- The words of 11. -/
theorem test_spec_words_matrix : lane 0xEE0BB83A 0 0 = some (.mcfg 2) ∧ lane 0xEE43BA81 0x77 0 = some (.mma false false 16 0)
    ∧ lane 0xEE43BA81 0x2077 0 = some (.mma true false 16 0) ∧ lane 0xEE1BBA89 0x77 0 = some (.msc 6) ∧ lane 0xEFDFBA8D 0xF7 0 = some (.mlut 1)
    ∧ lane 0xEFDFBABD 0x00010077 0 = some (.mwait 1) ∧ lane 0xEFDC1892 0 0 = some (.mpoll 3) ∧ lane 0xEE13BA99 0x03300077 0 = some (.cbld 0 119 4 0x30 3)
    ∧ lane 0xEE07BA95 0xF7 0 = some (.tbldProd false 1 0 119 1) ∧ lane 0xEFDFBAB5 0x77 0 = some .tszero := by decide
/-- 04 R74, R83: the word of zeros is no instruction; a reserved type and an unused field that is used are rejected. -/
theorem test_words_rejected : decodeLane 0 0 0 = .error .unusedField ∧ decodeLane 0x0000003C 0 0 = .ok (.unassignedLaneOpcode 0x0000003C)
    ∧ decodeLane (6#7 ++ 2#7 ++ 4#7 ++ 0x000#9 ++ 1#2) (0#16 ++ 20#9 ++ 119#7) 0 = .error .modifier
    ∧ decodeLane (6#7 ++ 2#7 ++ 4#7 ++ 0x000#9 ++ 1#2) (0#16 ++ 3#9 ++ 118#7) 0 = .error .unusedField := ⟨rfl, rfl, rfl, rfl⟩

-- A word of every remaining row, its fields placed by the layouts of 04 (Tables 4-1, 4-2, 4-4, 4-5 and 4-6).

def short (b a d : Code) (op : BitVec 10) : Option Instr := lane (b ++ a ++ d ++ op ++ 0#1) 0 0
def long (maj : BitVec 9) (d a b : Code) (mods : BitVec 9) (c : Code) (imm : Half) : Option Instr :=
  lane (b ++ a ++ d ++ maj ++ 1#2) (imm ++ mods ++ c) 0
def xr (f7 : BitVec 7) (t s : XReg) (f3 : BitVec 3) (d : XReg) (op : BitVec 7) : Option Instr := hart (f7 ++ t ++ s ++ f3 ++ d ++ op)
def xi (i : BitVec 12) (s : XReg) (f3 : BitVec 3) (d : XReg) (op : BitVec 7) : Option Instr := hart (i ++ s ++ f3 ++ d ++ op)
/-- Whether each word reads as the instruction beside it. -/
def reads (l : List (Option Instr × Instr)) : Bool := l.all fun p => p.1 == some p.2

/-- 04 Table 4-4, 0x001-0x017. -/
theorem test_words_short_integer : reads [
    (short 5 4 3 0x1, .addI32 3 4 5), (short 5 4 3 0x2, .subI32 3 4 5), (short 5 4 3 0x3, .mulLoI32 3 4 5),
    (short 5 4 3 0x4, .andL32 3 4 5), (short 5 4 3 0x5, .orL32 3 4 5), (short 5 4 3 0x6, .xorL32 3 4 5),
    (short 5 4 3 0x7, .andnL32 3 4 5), (short 5 4 3 0x8, .shlL32 3 4 5), (short 5 4 3 0x9, .shrL32 3 4 5),
    (short 5 4 3 0xa, .sraL32 3 4 5), (short 5 4 3 0xb, .rotlL32 3 4 5), (short 5 4 3 0xc, .minI32 3 4 5),
    (short 5 4 3 0xd, .minN32 3 4 5), (short 5 4 3 0xe, .maxI32 3 4 5), (short 5 4 3 0xf, .maxN32 3 4 5),
    (short 119 4 3 0x10, .mov 3 4), (short 119 4 3 0x11, .not 3 4), (short 119 4 3 0x12, .negI32 3 4),
    (short 119 4 3 0x13, .absI32 3 4), (short 119 4 3 0x14, .popc 3 4), (short 119 4 3 0x15, .clz 3 4),
    (short 119 4 3 0x16, .ctz 3 4), (short 119 4 3 0x17, .brev 3 4)] = true := by decide +kernel

/-- 04 Table 4-4, 0x018-0x052. -/
theorem test_words_short_rest : reads [
    (short 5 4 3 0x20, .mand 3 4 5), (short 5 4 3 0x21, .mor 3 4 5), (short 5 4 3 0x22, .mxor 3 4 5),
    (short 5 4 3 0x30, .shfl 3 4 5), (short 119 4 3 0x23, .mnot 3 4), (short 119 4 3 0x24, .mpopc 3 4),
    (short 119 4 3 0x25, .mfirst 3 4), (short 119 4 3 0x31, .compress 3 4), (short 119 4 3 0x32, .expand 3 4),
    (short 119 4 3 0x33, .qswapH 3 4), (short 119 4 3 0x34, .qswapV 3 4), (short 119 4 3 0x35, .qswapD 3 4),
    (short 119 4 119 0x1b, .fsetm 4), (short 119 4 119 0x1d, .mcfg 4), (short 119 4 119 0x26, .mpush 4),
    (short 119 4 119 0x38, .fbpush 4), (short 119 4 119 0x39, .fbany 4), (short 119 4 119 0x3a, .fball 4),
    (short 119 4 119 0x3b, .fbcnt 4), (short 119 119 3 0x1c, .fgetm 3), (short 119 119 3 0x27, .mpop 3),
    (short 119 119 3 0x49, .mpoll 3), (short 119 117 3 0x28, .mset 3 117), (short 119 119 119 0x0, .nop),
    (short 119 119 119 0x40, .join), (short 119 119 119 0x41, .cret), (short 119 119 119 0x42, .cnext),
    (short 119 119 119 0x43, .cend), (short 119 119 119 0x44, .brk), (short 119 119 119 0x48, .mfence),
    (short 119 119 119 0x4a, .mdrain), (short 119 119 119 0x50, .bbar), (short 119 119 119 0x51, .cbarArv),
    (short 119 119 119 0x52, .cbarWt)] = true := by decide +kernel

/-- 04 Table 4-5, 0x000-0x02F. -/
theorem test_words_long_integer : reads [
    (long 0x0 3 4 5 0x102 119 0x0, .add .i32 true 3 4 5), (long 0x1 3 4 119 0x6 119 0x1234, .addImm .n32 false 3 4 0x1234),
    (long 0x2 3 4 5 0x102 119 0x0, .sub .i32 true 3 4 5), (long 0x3 3 4 119 0x6 119 0x1234, .subImm .n32 false 3 4 0x1234),
    (long 0x4 3 4 5 0x102 119 0x0, .mulLo .i32 true 3 4 5),
    (long 0x5 3 4 119 0x6 119 0x1234, .mulLoImm .n32 false 3 4 0x1234), (long 0x6 3 4 5 0x6 119 0x0, .mulHi .n32 3 4 5),
    (long 0x7 3 4 119 0x2 119 0x8001, .mulHiImm .i32 3 4 0x8001), (long 0x8 3 4 5 0x2 6 0x0, .mad .i32 false 3 4 5 6),
    (long 0x9 3 4 119 0x2 6 0x7, .madImm .i32 false 3 4 6 7), (long 0xa 2 4 5 0x6 6 0x0, .madWide .n32 2 4 5 6),
    (long 0xc 3 4 5 0x6 119 0x0, .div .n32 3 4 5), (long 0xd 3 4 119 0x2 119 0x1234, .divImm .i32 3 4 0x1234),
    (long 0xe 3 4 5 0x6 119 0x0, .rem .n32 3 4 5), (long 0xf 3 4 119 0x2 119 0x1234, .remImm .i32 3 4 0x1234),
    (long 0x10 3 4 5 0x6 119 0x0, .min .n32 3 4 5), (long 0x11 3 4 119 0x2 119 0x1234, .minImm .i32 3 4 0x1234),
    (long 0x12 3 4 5 0x6 119 0x0, .max .n32 3 4 5), (long 0x13 3 4 119 0x2 119 0x1234, .maxImm .i32 3 4 0x1234),
    (long 0x14 3 4 5 0x6 119 0x0, .and .n32 3 4 5), (long 0x15 3 4 119 0x2 119 0x1234, .andImm .i32 3 4 0x1234),
    (long 0x16 3 4 5 0x6 119 0x0, .or .n32 3 4 5), (long 0x17 3 4 119 0x2 119 0x1234, .orImm .i32 3 4 0x1234),
    (long 0x18 3 4 5 0x6 119 0x0, .xor .n32 3 4 5), (long 0x19 3 4 119 0x2 119 0x1234, .xorImm .i32 3 4 0x1234),
    (long 0x1a 3 4 5 0x6 119 0x0, .andn .n32 3 4 5), (long 0x1b 3 4 119 0x2 119 0x1234, .andnImm .i32 3 4 0x1234),
    (long 0x1c 3 4 5 0x6 119 0x0, .shl .n32 3 4 5), (long 0x1d 3 4 119 0x2 119 0x21, .shlImm .i32 3 4 33),
    (long 0x1e 3 4 5 0x6 119 0x0, .shr .n32 3 4 5), (long 0x1f 3 4 119 0x2 119 0x21, .shrImm .i32 3 4 33),
    (long 0x20 3 4 5 0x6 119 0x0, .sra .n32 3 4 5), (long 0x21 3 4 119 0x2 119 0x21, .sraImm .i32 3 4 33),
    (long 0x22 3 4 5 0x6 119 0x0, .rotl .n32 3 4 5), (long 0x23 3 4 119 0x2 119 0x21, .rotlImm .i32 3 4 33),
    (long 0x24 3 4 5 0x2 6 0x0, .addc .i32 3 4 5 6), (long 0x26 3 4 5 0x6 7 0x0, .subb .n32 3 4 5 7),
    (long 0x28 3 4 5 0x2 6 0x0, .bfx .i32 3 4 5 6), (long 0x29 3 4 119 0x2 119 0x408, .bfxImm .i32 3 4 8 4),
    (long 0x2a 3 4 5 0x2 6 0x0, .bfi .i32 3 4 5 6), (long 0x2b 3 4 119 0x6 119 0x408, .bfiImm .n32 3 4 8 4),
    (long 0x2c 3 4 5 0x62 119 0x0, .cmp .le .i32 3 4 5), (long 0x2d 3 4 119 0xa6 119 0x9, .cmpImm .ge .n32 3 4 9),
    (long 0x2e 3 4 5 0x2 6 0x0, .sel .i32 3 4 5 6), (long 0x2f 3 119 119 0x6 119 0xffff, .movi .n32 3 0xffff)] = true := by decide +kernel

/-- 04 Table 4-5, 0x040-0x068. -/
theorem test_words_long_floating : reads [
    (long 0x40 3 4 5 0x49 119 0x0, .fadd .f32 .rtz 3 4 5), (long 0x41 3 4 5 0x49 119 0x0, .fsub .f32 .rtz 3 4 5),
    (long 0x42 3 4 5 0x49 119 0x0, .fmul .f32 .rtz 3 4 5), (long 0x4d 3 4 5 0x49 119 0x0, .fdiv .f32 .rtz 3 4 5),
    (long 0x4b 3 4 5 0x49 119 0x0, .fscale .f32 .rtz 3 4 5), (long 0x43 3 4 5 0x2c 6 0x0, .ffma .f16 .rne 3 4 5 6),
    (long 0x44 3 4 5 0xb 119 0x0, .fmin .bf16 3 4 5), (long 0x45 3 4 5 0xb 119 0x0, .fmax .bf16 3 4 5),
    (long 0x46 3 4 5 0xb 119 0x0, .fminnum .bf16 3 4 5), (long 0x47 3 4 5 0xb 119 0x0, .fmaxnum .bf16 3 4 5),
    (long 0x57 3 4 5 0xb 119 0x0, .fmaxabs .bf16 3 4 5), (long 0x58 3 4 5 0xb 119 0x0, .fcopysign .bf16 3 4 5),
    (long 0x48 3 4 5 0xe9 119 0x0, .fcmp .or .f32 3 4 5), (long 0x49 3 4 119 0x9 119 0x0, .fclass .f32 3 4),
    (long 0x4a 3 4 5 0x9 6 0x0, .fsel .f32 3 4 5 6), (long 0x4c 3 4 119 0x69 119 0x0, .frnd .f32 .rdn 3 4),
    (long 0x4e 3 4 119 0x89 119 0x0, .fsqrt .f32 .rup 3 4), (long 0x4f 3 4 119 0x9 119 0x0, .frcp 3 4),
    (long 0x50 3 4 119 0x9 119 0x0, .frsq 3 4), (long 0x51 3 4 119 0x9 119 0x0, .fexp2 3 4),
    (long 0x52 3 4 119 0x9 119 0x0, .flog2 3 4), (long 0x53 3 4 119 0x9 119 0x0, .fsin 3 4),
    (long 0x54 3 4 119 0x9 119 0x0, .fcos 3 4), (long 0x55 3 4 5 0xb2 6 0x0, .fdot2 .bf16x2 .rmm 3 4 5 6),
    (long 0x56 3 4 119 0x102 9 0x0, .cvt .i32 .f32 .mode true 3 4 0), (long 0x60 3 4 5 0x0 119 0x0, .bcast 3 4 5),
    (long 0x61 3 4 119 0x0 119 0x3f, .bcastImm 3 4 63), (long 0x62 3 4 117 0x0 119 0x0, .slideup 3 4 117),
    (long 0x63 3 4 119 0x0 119 0x3f, .slideupImm 3 4 63), (long 0x64 3 4 117 0x0 119 0x0, .slidedn 3 4 117),
    (long 0x65 3 4 119 0x0 119 0x3f, .slidednImm 3 4 63), (long 0x66 3 4 119 0x0 119 0x2, .qbcast 3 4 2),
    (long 0x67 119 4 119 0x22 119 0x0, .gred .min .i32 4), (long 0x68 119 4 119 0x2 119 0x0, .gscan .i32 4)] = true := by decide +kernel

/-- 04 Table 4-5, 0x070-0x089. -/
theorem test_words_long_memory : reads [
    (long 0x70 3 4 119 0x19 119 0xfffe, .ld .scratch .b16 true 3 4 0xfffe),
    (long 0x70 3 4 119 0xc2 119 0x8, .ldAcq .cluster .generic .b32 3 4 8),
    (long 0x71 119 4 5 0x32 119 0x8, .st .fabric .b32 4 5 8),
    (long 0x71 119 4 5 0x142 119 0x8, .stRel .system .generic .b32 4 5 8),
    (long 0x72 3 4 5 0x112 119 0xc, .atom .max .n32 .vault (.acquire .device) 3 4 5 119),
    (long 0x72 3 4 5 0x7 6 0x19, .atom .cas .i32 .generic (.acqrel .group) 3 4 5 6),
    (long 0x72 3 4 5 0xc9 6 0x12, .atomRadd .scratch (.release .block) 3 4 5 6),
    (long 0x73 119 119 119 0x83 119 0x0, .fence .acqrel .block), (long 0x75 119 119 119 0x100 119 0x0, .l1inv .device),
    (long 0x74 119 4 119 0x1 119 0x8, .prefetch true .generic 4 8), (long 0x76 119 4 119 0x3 119 0x8, .mspill .generic 4 8),
    (long 0x77 119 4 119 0x3 119 0x8, .mfill .generic 4 8), (long 0x80 119 119 119 0x0 119 0xfff0, .cbr 0xfff0),
    (long 0x81 119 119 119 0x0 119 0xfff0, .cjmp 0xfff0), (long 0x82 119 119 119 0x0 119 0xfff0, .ccall 0xfff0),
    (long 0x83 119 119 119 0x0 119 0xfff0, .cloop 0xfff0), (long 0x84 119 119 119 0x0 119 0xfff0, .trap 0xfff0),
    (long 0x88 119 4 119 0x0 119 0x7, .rsend 4 7), (long 0x89 3 119 119 0x0 119 0x7, .rrecv 3 7)] = true := by decide +kernel

/-- 11 Table 11-4 and 04 Table 4-5, 0x0A0-0x0AF. -/
theorem test_words_long_matrix : reads [
    (long 0xa0 119 4 119 0x60 119 0x3, .mma true true 4 3), (long 0xa1 119 4 119 0x40 119 0x0, .mmaSp true false 4 0),
    (long 0xa2 119 4 119 0x0 119 0x0, .msc 4), (long 0xa3 119 119 119 0x5 119 0x0, .mlut 5),
    (long 0xa4 3 4 119 0x85 119 0x0, .tbldSub true false 5 3 4), (long 0xa5 3 4 119 0x5 119 0x6, .tbldProd false 5 6 3 4),
    (long 0xa6 3 4 119 0x5 119 0x338, .cbld 5 3 4 0x38 3), (long 0xa7 119 4 119 0x5 119 0x0, .tbspill 5 4),
    (long 0xa8 119 4 119 0x5 119 0x0, .tbfill 5 4), (long 0xa9 119 119 119 0x5 119 0x0, .tbinv 5),
    (long 0xaa 2 119 119 0x5 119 0x0, .tbstat 5 2), (long 0xab 3 4 119 0x0 119 0x2003, .tsld 3 4 3 64),
    (long 0xac 119 4 5 0x0 119 0x2003, .tsst 4 5 3 64), (long 0xad 119 119 119 0x0 119 0x0, .tszero),
    (long 0xae 3 119 119 0x0 119 0x9, .tscvt 3 9), (long 0xaf 119 119 119 0x0 119 0xc8, .mwait 200)] = true := by decide +kernel

/-- 04 Table 4-6. -/
theorem test_words_vendor : reads [
    (xr 0x9 6 5 0 0 0xb, .zLdq .n32 1 5 6), (xr 0x56 6 5 0 0 0xb, .zLdqNf .i16 2 5 6), (xr 0x3 6 5 1 0 0xb, .zLdqt 3 5 6),
    (xr 0x7 6 5 1 0 0xb, .zLdqtNf 3 5 6), (xr 0x2 6 5 2 0 0xb, .zStq .n32 5 6), (xr 0x0 6 5 3 0 0xb, .zStqt 5 6),
    (xr 0x0 0 5 4 0 0xb, .zScq 5), (xr 0x1 0 5 4 0 0xb, .zCtok 5), (xr 0x2 0 0 4 7 0xb, .zFbpop 7),
    (xr 0x3 0 0 4 0 0xb, .zJoin), (xi 0x1A 0 5 0 0xb, .zQdrop 2 3),
    (hart (1#1 ++ 0x3f#6 ++ 0#5 ++ 5#5 ++ 6#3 ++ 0xe#4 ++ 1#1 ++ 0xb#7), .zBfb 5 0x1ffc),
    (xr 0x5 6 5 0 7 0x2b, .zCpyin 5 7 5 6), (xr 0xd 6 5 0 7 0x2b, .zCpyout 5 7 5 6), (xr 0x15 6 5 0 7 0x2b, .zCpyx 5 7 5 6),
    (xr 0x1d 6 5 0 7 0x2b, .zCpywb 5 7 5 6), (xi 5 5 1 7 0x2b, .zCpywait 5 7 5), (xr 0x0 6 5 2 0 0x2b, .zMbadd 5 6),
    (xr 0x1 6 5 2 7 0x2b, .zMbwait 7 5 6), (xr 0x2 0 5 2 7 0x2b, .zMbrd 7 5), (xr 0x3 6 5 2 0 0x2b, .zMbset 5 6),
    (xr 0x0 6 5 3 7 0x2b, .zSend 7 5 6), (xr 0x1 0 5 3 7 0x2b, .zRecv 7 5), (xr 0x2 0 5 3 0 0x2b, .zRdone 5),
    (xr 0x0 0 0 4 0 0x2b, .zBbar), (xr 0x1 0 0 4 0 0x2b, .zBbarArv), (xr 0x2 0 0 4 0 0x2b, .zBbarWt),
    (xr 0x3 0 0 4 0 0x2b, .zCbarArv), (xr 0x4 0 0 4 0 0x2b, .zCbarWt), (xr 0x0 0 5 5 7 0x2b, .zLaunch 7 5),
    (xr 0x1 0 5 5 7 0x2b, .zJwait 7 5), (xr 0x2 0 5 5 0 0x2b, .zExit 5), (xr 0x0 6 5 0 7 0x5b, .zTadr 7 5 6),
    (xr 0x1 6 5 0 7 0x5b, .zTadv 7 5 6), (xi 0x1C 0 1 0 0x5b, .zFence .acqrel .device), (xr 0x0 6 5 2 0 0x5b, .zL1wb 5 6),
    (xr 0x1 6 5 2 7 0x5b, .zRank 7 5 6), (xr 0x0 0 0 3 7 0x5b, .zTide 7), (xr 0x1 0 5 3 7 0x5b, .zTidewait 7 5),
    (xr 0x0 0 0 0 7 0x7b, .zQuiesce 7), (xr 0x1 6 5 0 0 0x7b, .zCsave 5 6), (xr 0x2 6 5 0 0 0x7b, .zCrest 5 6),
    (xr 0x3 0 5 0 7 0x7b, .zPjrd 7 5), (xr 0x4 0 5 0 7 0x7b, .zSample 7 5)] = true := by decide +kernel

/-- 04 R87 and the RISC-V base: loads, stores, AMOs, fences, system instructions and CSRs. -/
theorem test_words_standard : reads [
    (xi 0xffe 5 0 7 0x3, .hartLoad .lb 7 5 0xffe), (xi 0xffe 5 1 7 0x3, .hartLoad .lh 7 5 0xffe),
    (xi 0xffe 5 2 7 0x3, .hartLoad .lw 7 5 0xffe), (xi 0xffe 5 3 7 0x3, .hartLoad .ld 7 5 0xffe),
    (xi 0xffe 5 4 7 0x3, .hartLoad .lbu 7 5 0xffe), (xi 0xffe 5 5 7 0x3, .hartLoad .lhu 7 5 0xffe),
    (xi 0xffe 5 6 7 0x3, .hartLoad .lwu 7 5 0xffe), (xr 0x7f 6 5 0 30 0x23, .hartStore .sb 5 6 0xffe),
    (xr 0x7f 6 5 1 30 0x23, .hartStore .sh 5 6 0xffe), (xr 0x7f 6 5 2 30 0x23, .hartStore .sw 5 6 0xffe),
    (xr 0x7f 6 5 3 30 0x23, .hartStore .sd 5 6 0xffe), (xr 0x2 6 5 2 7 0x2f, .hartAmo .add false true false 7 5 6),
    (xr 0x6 6 5 2 7 0x2f, .hartAmo .swap false true false 7 5 6),
    (xr 0x12 6 5 2 7 0x2f, .hartAmo .xor false true false 7 5 6),
    (xr 0x22 6 5 2 7 0x2f, .hartAmo .or false true false 7 5 6),
    (xr 0x32 6 5 2 7 0x2f, .hartAmo .and false true false 7 5 6),
    (xr 0x42 6 5 2 7 0x2f, .hartAmo .min false true false 7 5 6),
    (xr 0x52 6 5 2 7 0x2f, .hartAmo .max false true false 7 5 6),
    (xr 0x62 6 5 2 7 0x2f, .hartAmo .minu false true false 7 5 6),
    (xr 0x72 6 5 2 7 0x2f, .hartAmo .maxu false true false 7 5 6),
    (xr 0x1 6 5 3 7 0x2f, .hartAmo .add true false true 7 5 6), (xr 0x8 0 5 2 7 0x2f, .hartLr false false false 7 5),
    (xr 0xd 6 5 3 7 0x2f, .hartSc true false true 7 5 6), (xi 0x033 0 0 0 0xf, .hartFence 0 3 3 0 0),
    (xi 0 0 1 0 0xf, .fenceI 0 0 0), (xi 0x0 0 0 0 0x73, .ecall), (xi 0x1 0 0 0 0x73, .ebreak), (xi 0x302 0 0 0 0x73, .mret),
    (xi 0x105 0 0 0 0x73, .wfi), (xi 0x340 5 1 7 0x73, .csrAccess 0x340 .rw 7 (.reg 5)),
    (xi 0x340 5 2 7 0x73, .csrAccess 0x340 .rs 7 (.reg 5)), (xi 0x340 5 3 7 0x73, .csrAccess 0x340 .rc 7 (.reg 5)),
    (xi 0x340 5 5 7 0x73, .csrAccess 0x340 .rw 7 (.imm 5)), (xi 0x800 5 1 0 0x73, .slipWrite .rw 0 (.reg 5)),
    (xi 0x801 5 2 7 0x73, .mstatWrite .rs 7 (.reg 5)), (xi 0x7c0 5 1 0 0x73, .mlpcWrite .rw 0 (.reg 5)),
    (xi 0xccb 0 2 7 0x73, .cedoneRead 3 .rs 7 (.reg 0))] = true := by decide +kernel

/-- RV64I, M, Zba, Zbb and Zicond, two registers. -/
theorem test_words_registers : reads [
    (xr 0x0 6 5 0 7 0x33, .hartInstruction (.alu .add 7 5 6)), (xr 0x20 6 5 0 7 0x33, .hartInstruction (.alu .sub 7 5 6)),
    (xr 0x0 6 5 1 7 0x33, .hartInstruction (.alu .sll 7 5 6)), (xr 0x0 6 5 2 7 0x33, .hartInstruction (.alu .slt 7 5 6)),
    (xr 0x0 6 5 3 7 0x33, .hartInstruction (.alu .sltu 7 5 6)), (xr 0x0 6 5 4 7 0x33, .hartInstruction (.alu .xor 7 5 6)),
    (xr 0x0 6 5 5 7 0x33, .hartInstruction (.alu .srl 7 5 6)), (xr 0x20 6 5 5 7 0x33, .hartInstruction (.alu .sra 7 5 6)),
    (xr 0x0 6 5 6 7 0x33, .hartInstruction (.alu .or 7 5 6)), (xr 0x0 6 5 7 7 0x33, .hartInstruction (.alu .and 7 5 6)),
    (xr 0x1 6 5 0 7 0x33, .hartInstruction (.alu .mul 7 5 6)), (xr 0x1 6 5 1 7 0x33, .hartInstruction (.alu .mulh 7 5 6)),
    (xr 0x1 6 5 2 7 0x33, .hartInstruction (.alu .mulhsu 7 5 6)),
    (xr 0x1 6 5 3 7 0x33, .hartInstruction (.alu .mulhu 7 5 6)), (xr 0x1 6 5 4 7 0x33, .hartInstruction (.alu .div 7 5 6)),
    (xr 0x1 6 5 5 7 0x33, .hartInstruction (.alu .divu 7 5 6)), (xr 0x1 6 5 6 7 0x33, .hartInstruction (.alu .rem 7 5 6)),
    (xr 0x1 6 5 7 7 0x33, .hartInstruction (.alu .remu 7 5 6)),
    (xr 0x10 6 5 2 7 0x33, .hartInstruction (.alu .sh1add 7 5 6)),
    (xr 0x10 6 5 4 7 0x33, .hartInstruction (.alu .sh2add 7 5 6)),
    (xr 0x10 6 5 6 7 0x33, .hartInstruction (.alu .sh3add 7 5 6)),
    (xr 0x20 6 5 7 7 0x33, .hartInstruction (.alu .andn 7 5 6)), (xr 0x20 6 5 6 7 0x33, .hartInstruction (.alu .orn 7 5 6)),
    (xr 0x20 6 5 4 7 0x33, .hartInstruction (.alu .xnor 7 5 6)), (xr 0x5 6 5 4 7 0x33, .hartInstruction (.alu .min 7 5 6)),
    (xr 0x5 6 5 5 7 0x33, .hartInstruction (.alu .minu 7 5 6)), (xr 0x5 6 5 6 7 0x33, .hartInstruction (.alu .max 7 5 6)),
    (xr 0x5 6 5 7 7 0x33, .hartInstruction (.alu .maxu 7 5 6)), (xr 0x30 6 5 1 7 0x33, .hartInstruction (.alu .rol 7 5 6)),
    (xr 0x30 6 5 5 7 0x33, .hartInstruction (.alu .ror 7 5 6)),
    (xr 0x7 6 5 5 7 0x33, .hartInstruction (.alu .czeroeqz 7 5 6)),
    (xr 0x7 6 5 7 7 0x33, .hartInstruction (.alu .czeronez 7 5 6)),
    (xr 0x0 6 5 0 7 0x3b, .hartInstruction (.alu .addw 7 5 6)), (xr 0x20 6 5 0 7 0x3b, .hartInstruction (.alu .subw 7 5 6)),
    (xr 0x0 6 5 1 7 0x3b, .hartInstruction (.alu .sllw 7 5 6)), (xr 0x0 6 5 5 7 0x3b, .hartInstruction (.alu .srlw 7 5 6)),
    (xr 0x20 6 5 5 7 0x3b, .hartInstruction (.alu .sraw 7 5 6)), (xr 0x1 6 5 0 7 0x3b, .hartInstruction (.alu .mulw 7 5 6)),
    (xr 0x1 6 5 4 7 0x3b, .hartInstruction (.alu .divw 7 5 6)), (xr 0x1 6 5 5 7 0x3b, .hartInstruction (.alu .divuw 7 5 6)),
    (xr 0x1 6 5 6 7 0x3b, .hartInstruction (.alu .remw 7 5 6)), (xr 0x1 6 5 7 7 0x3b, .hartInstruction (.alu .remuw 7 5 6)),
    (xr 0x4 6 5 0 7 0x3b, .hartInstruction (.alu .adduw 7 5 6)),
    (xr 0x10 6 5 2 7 0x3b, .hartInstruction (.alu .sh1adduw 7 5 6)),
    (xr 0x10 6 5 4 7 0x3b, .hartInstruction (.alu .sh2adduw 7 5 6)),
    (xr 0x10 6 5 6 7 0x3b, .hartInstruction (.alu .sh3adduw 7 5 6)),
    (xr 0x30 6 5 1 7 0x3b, .hartInstruction (.alu .rolw 7 5 6)), (xr 0x30 6 5 5 7 0x3b, .hartInstruction (.alu .rorw 7 5 6))] = true := by decide +kernel

/-- RV64I, Zba and Zbb: immediates, one register, jumps and branches. -/
theorem test_words_immediates : reads [
    (xi 0x801 5 0 7 0x13, .hartInstruction (.aluImm .addi 7 5 0x801)),
    (xi 0x801 5 2 7 0x13, .hartInstruction (.aluImm .slti 7 5 0x801)),
    (xi 0x801 5 3 7 0x13, .hartInstruction (.aluImm .sltiu 7 5 0x801)),
    (xi 0x801 5 4 7 0x13, .hartInstruction (.aluImm .xori 7 5 0x801)),
    (xi 0x801 5 6 7 0x13, .hartInstruction (.aluImm .ori 7 5 0x801)),
    (xi 0x801 5 7 7 0x13, .hartInstruction (.aluImm .andi 7 5 0x801)),
    (xi 0x3f 5 1 7 0x13, .hartInstruction (.aluImm .slli 7 5 0x3f)),
    (xi 0x3f 5 5 7 0x13, .hartInstruction (.aluImm .srli 7 5 0x3f)),
    (xi 0x43f 5 5 7 0x13, .hartInstruction (.aluImm .srai 7 5 0x3f)),
    (xi 0x801 5 0 7 0x1b, .hartInstruction (.aluImm .addiw 7 5 0x801)),
    (xi 0x1f 5 1 7 0x1b, .hartInstruction (.aluImm .slliw 7 5 0x1f)),
    (xi 0x1f 5 5 7 0x1b, .hartInstruction (.aluImm .srliw 7 5 0x1f)),
    (xi 0x41f 5 5 7 0x1b, .hartInstruction (.aluImm .sraiw 7 5 0x1f)),
    (xi 0xbf 5 1 7 0x1b, .hartInstruction (.aluImm .slliuw 7 5 0x3f)),
    (xi 0x63f 5 5 7 0x13, .hartInstruction (.aluImm .rori 7 5 0x3f)),
    (xi 0x61f 5 5 7 0x1b, .hartInstruction (.aluImm .roriw 7 5 0x1f)),
    (xi 0x600 5 1 7 0x13, .hartInstruction (.unary .clz 7 5)), (xi 0x601 5 1 7 0x13, .hartInstruction (.unary .ctz 7 5)),
    (xi 0x602 5 1 7 0x13, .hartInstruction (.unary .cpop 7 5)), (xi 0x604 5 1 7 0x13, .hartInstruction (.unary .sextb 7 5)),
    (xi 0x605 5 1 7 0x13, .hartInstruction (.unary .sexth 7 5)), (xi 0x600 5 1 7 0x1b, .hartInstruction (.unary .clzw 7 5)),
    (xi 0x601 5 1 7 0x1b, .hartInstruction (.unary .ctzw 7 5)), (xi 0x602 5 1 7 0x1b, .hartInstruction (.unary .cpopw 7 5)),
    (xi 0x80 5 4 7 0x3b, .hartInstruction (.unary .zexth 7 5)), (xi 0x287 5 5 7 0x13, .hartInstruction (.unary .orcb 7 5)),
    (xi 0x6b8 5 5 7 0x13, .hartInstruction (.unary .rev8 7 5)),
    (hart (0x12345#20 ++ 7#5 ++ 0x37#7), .hartInstruction (.lui 7 0x12345)),
    (hart (0x12345#20 ++ 7#5 ++ 0x17#7), .hartInstruction (.auipc 7 0x12345)),
    (hart (1#1 ++ 0x3fe#10 ++ 1#1 ++ 0xff#8 ++ 1#5 ++ 0x6f#7), .hartInstruction (.jal 1 0x1ffffc)),
    (xi 0xffc 5 0 1 0x67, .hartInstruction (.jalr 1 5 0xffc)),
    (hart (0#1 ++ 0#6 ++ 6#5 ++ 5#5 ++ 0#3 ++ 4#4 ++ 0#1 ++ 0x63#7), .hartInstruction (.branch .eq 5 6 8)),
    (hart (0#1 ++ 0#6 ++ 6#5 ++ 5#5 ++ 1#3 ++ 4#4 ++ 0#1 ++ 0x63#7), .hartInstruction (.branch .ne 5 6 8)),
    (hart (0#1 ++ 0#6 ++ 6#5 ++ 5#5 ++ 4#3 ++ 4#4 ++ 0#1 ++ 0x63#7), .hartInstruction (.branch .lt 5 6 8)),
    (hart (0#1 ++ 0#6 ++ 6#5 ++ 5#5 ++ 5#3 ++ 4#4 ++ 0#1 ++ 0x63#7), .hartInstruction (.branch .ge 5 6 8)),
    (hart (0#1 ++ 0#6 ++ 6#5 ++ 5#5 ++ 6#3 ++ 4#4 ++ 0#1 ++ 0x63#7), .hartInstruction (.branch .ltu 5 6 8)),
    (hart (0#1 ++ 0#6 ++ 6#5 ++ 5#5 ++ 7#3 ++ 4#4 ++ 0#1 ++ 0x63#7), .hartInstruction (.branch .geu 5 6 8))] = true := by decide +kernel

-- Values that the spec works out.

/-- Lane 0 alone, with `a`, `b` and `c` in w1, w2 and w3 and 7 in w4. -/
def with3 (a b c : W32) : State := one fun g => { g with em := 1, win := [(1, [a]), (2, [b]), (3, [c]), (4, [7])] }
def after (i : Instr) (s : State) : State :=
  match exec i s with
  | .next t => t
  | _ => s
/-- What `i` leaves in w4 of lane 0. -/
def w4 (i : Instr) (a b c : W32) : W64 := (after i (with3 a b c)).grp.window false 4 0

/-- 06 R114, R116. -/
theorem test_integer : w4 (.add .i8 true 4 1 2) 0x64 0x50 0 = 0x7F ∧ w4 (.add .i8 false 4 1 2) 0x64 0x50 0 &&& 0xFF = 0xB4
    ∧ w4 (.sub .n32 true 4 1 2) 3 5 0 = 0 ∧ w4 (.mulLo .i32 true 4 1 2) 0x10000 0x10000 0 = 0x7FFFFFFF
    ∧ w4 (.mulHi .n32 4 1 2) 0x10000 0x10000 0 = 1 ∧ w4 (.div .i32 4 1 2) 0xFFFFFFF9 2 0 = 0xFFFFFFFD
    ∧ w4 (.rem .i32 4 1 2) 0xFFFFFFF9 2 0 = 0xFFFFFFFF ∧ w4 (.div .n32 4 1 2) 7 0 0 = 0xFFFFFFFF ∧ w4 (.rem .n32 4 1 2) 7 0 0 = 7 := by
  decide +kernel
/-- 06 R117-R120. -/
theorem test_shifts_fields : w4 (.shlImm .i32 4 1 40) 5 0 0 = 0 ∧ w4 (.sraImm .i32 4 1 40) 0x80000000 0 0 = 0xFFFFFFFF
    ∧ w4 (.rotlImm .i32 4 1 40) 1 0 0 = 0x100 ∧ w4 (.absI32 4 1) 0x80000000 0 0 = 0x80000000
    ∧ w4 (.bfx .i32 4 1 2 3) 0xF00 8 4 = 0xFFFFFFFF ∧ w4 (.bfx .n32 4 1 2 3) 0xF00 8 4 = 0xF
    ∧ w4 (.bfi .n32 4 1 2 3) 0xA 30 4 = 0x80000007 ∧ w4 (.clz 4 1) 0 0 0 = 32 ∧ w4 (.ctz 4 1) 8 0 0 = 3 ∧ w4 (.popc 4 1) 0xFF 0 0 = 8
    ∧ w4 (.brev 4 1) 1 0 0 = 0x80000000 := by decide +kernel
/-- 07 R128-R131. -/
theorem test_float : w4 (.fdot2 .bf16x2 .mode 4 1 2 3) 0xC0003FC0 0x40404080 0x3F800000 = 0x3F800000
    ∧ w4 (.fmin .f32 4 1 2) 0 0x80000000 0 = 0x80000000 ∧ w4 (.fmin .f32 4 1 2) 0x7FC01234 0x3F800000 0 = 0x7FC00000
    ∧ w4 (.fminnum .f32 4 1 2) 0x7FC01234 0x3F800000 0 = 0x3F800000 ∧ w4 (.fmaxabs .f32 4 1 2) 0xC0400000 0x40000000 0 = 0x40400000
    ∧ w4 (.frnd .f32 .rne 4 1) 0xBECCCCCD 0 0 = 0x80000000 ∧ w4 (.frnd .f32 .rdn 4 1) 0xBF000000 0 0 = 0xBF800000
    ∧ w4 (.fdiv .f32 .rne 4 1 2) 0x3F800000 0x40400000 0 = 0x3EAAAAAB ∧ w4 (.fdiv .f32 .rtz 4 1 2) 0x3F800000 0x40400000 0 = 0x3EAAAAAA := by
  decide +kernel
/-- 07 Table 7-4. -/
theorem test_cvt : w4 (.cvt .i32 .f32 .rne false 4 1 0) 0x40600000 0 0 = 4 ∧ w4 (.cvt .i32 .f32 .rtz false 4 1 0) 0xC0600000 0 0 = 0xFFFFFFFD
    ∧ w4 (.cvt .i32 .f32 .mode false 4 1 0) 0x7FC00000 0 0 = 0 ∧ w4 (.cvt .f16 .f32 .rne false 4 1 0) 0x477FF000 0 0 = 0x7C00
    ∧ w4 (.cvt .f16 .f32 .rtz false 4 1 0) 0x477FF000 0 0 = 0x7BFF ∧ w4 (.cvt .bf16 .f32 .rmm false 4 1 0) 0x3F808000 0 0 = 0x3F81
    ∧ w4 (.cvt .tf19 .f32 .rne false 4 1 0) 0x3F801000 0 0 = 0x1FC00 ∧ w4 (.cvt .tf19 .f32 .rup false 4 1 0) 0x3F801000 0 0 = 0x1FC01
    ∧ w4 (.cvt .e2m1 .f32 .rup false 4 1 0) 0x3E800000 0 0 = 1 ∧ w4 (.cvt .f32 .e5m2 .rne false 4 1 0) 0x7C 0 0 = 0x7F800000
    ∧ w4 (.cvt .e5m2 .f32 .rne true 4 1 0) 0x7F800000 0 0 = 0x7B ∧ w4 (.cvt .i8 .i32 .rne true 4 1 0) 300 0 0 = 0x7F
    ∧ w4 (.cvt .f32 .i32 .rne false 4 1 0) 0x1000001 0 0 = 0x4B800000 ∧ w4 (.cvt .f32 .i32 .rup false 4 1 0) 0x1000001 0 0 = 0x4B800001 := by
  decide +kernel
/-- 03 R64: `.sat` clamps a conversion to a narrower integer and leaves a wider or an equally wide one as it is. -/
theorem test_cvt_integers : w4 (.cvt .n32 .i8 .rne true 4 1 0) 0xFF 0 0 = 0xFFFFFFFF ∧ w4 (.cvt .i32 .n32 .rne true 4 1 0) 0x80000000 0 0 = 0x80000000
    ∧ w4 (.cvt .n8 .i32 .rne true 4 1 0) 0xFFFFFFFF 0 0 = 0 := by decide +kernel
/-- 08 R144: under fzres, partial sums of 2^-149 twice and 2^-126 are not flushed; only the root's value could be. -/
theorem test_gred_fzres : (redValue .add .f32 0x10 7 fun i => [1, 1, 0x00800000].getD i 0) = 0x00800002 := by decide +kernel
/-- 14 R254: M = 64, N = 16, K = 32 with FP32 operands, P = 2,048, and with INT4 operands, P = 16,384. -/
theorem test_handshakes : (Mx.of 0).denseHand = 16 ∧ (Mx.of 0xBB).denseHand = 2 := by decide
/-- 08 R143: lanes 4 to 7 hold 10 to 13, lane 6 inactive: `qswap.h` gives 11, 10 and 12, and lane 6 keeps 0. -/
theorem test_qswap : let t := after (.qswapH 1 2) (one fun g => { g with em := 0xB0, win := [(2, [0, 0, 0, 0, 10, 11, 12, 13])] })
    [4, 5, 6, 7].map (t.grp.window false 1) = [11, 10, 0, 12] := by decide
/-- 12 R215: `ecall` in U-mode: the pc saved, cause 8, M-mode at mtvec. -/
theorem test_ecall : let t := after .ecall (one fun g => { g with mtvec := 0x8000 })
    t.grp.mepc = 0x1000 ∧ t.grp.mcause = 8 ∧ t.grp.mode = .m ∧ t.grp.pc = 0x8000 := by decide
/-- RV64I: `addiw` sign-extends its 32-bit sum; x0 stays 0. -/
theorem test_hart_sum : let s := one fun g => { g with x := [(2, 0x7FFFFFFF)] }
    (after (.hartInstruction (.aluImm .addiw 1 2 1)) s).grp.xr 1 = 0xFFFFFFFF80000000
    ∧ (after (.hartInstruction (.aluImm .addi 0 2 1)) s).grp.xr 0 = 0 := by decide

-- Well-formedness: an ill-formed term for each check, and a well-formed one beside it.

theorem test_ill_formed : ∀ i ∈ [Instr.add .f32 false 1 2 3, .mulLo .i8 false 1 2 3, .mulHi .n8 1 2 3, .madWide .i64 1 2 3 4, .div .i16 1 2 3, .min .f16 1 2 3,
      .and .i8 1 2 3, .andImm .n16 1 2 3, .shl .i8 1 2 3, .shlImm .f32 1 2 3, .addc .i64 1 2 3 4, .bfx .i8 1 2 3 4, .cmp .eq .f32 1 2 3, .sel .f32 1 2 3 4,
      .movi .i8 1 2, .li .i64 1 2] , i.wf = false := by decide
theorem test_ill_formed_float : ∀ i ∈ [Instr.fadd .tf19 .rne 1 2 3, .fadd .f32 .sr 1 2 3, .ffma .i32 .rne 1 2 3 4, .ffma .f32 .sr 1 2 3 4, .fmin .e4m3 1 2 3,
      .fdiv .bf16 .rne 1 2 3, .fdiv .f32 .sr 1 2 3, .fsqrt .f16 .rne 1 2, .fsqrt .f64 .sr 1 2, .fscale .bf16x2 .rne 1 2 3, .fscale .f32 .sr 1 2 3,
      .frnd .f16x2 .rne 1 2, .frnd .f32 .mode 1 2, .frnd .f32 .rmm 1 2, .frnd .f32 .sr 1 2, .fcmp .eq .bf16x2 1 2 3, .fclass .i32 1 2, .fsel .bf16 1 2 3 4,
      .fdot2 .f32 .rne 1 2 3 4, .fdot2 .f16x2 .sr 1 2 3 4, .cvt .f16x2 .f32 .rne false 1 2 0, .cvt .f32 .bf16x2 .rne false 1 2 0, .cvt .f32 .f32 .rne false 1 2 0,
      .cvt .i32 .f32 .sr false 1 2 0, .cvt .f16 .f32 .rne false 1 2 1], i.wf = false := by decide
theorem test_ill_formed_rest : ∀ i ∈ [Instr.gred .add .i8 1, .pb 1 0 2, .gscan .i64 1, .ld .generic .b32 true 1 2 0, .ldAcq .device .generic .b16 1 2 0,
      .stRel .device .generic .b128 1 2 0, .atom .fadd .i32 .generic .relaxed 1 2 3 119, .atom .add .f32 .generic .relaxed 1 2 3 119,
      .atom .add .i32 .generic .relaxed 1 2 3 4, .l1inv .group, .mma false false 1 64, .mmaSp true false 1 16, .zQdrop 0 9, .zBfb 1 3,
      .hartInstruction (.jal 1 1), .hartInstruction (.branch .eq 1 2 1), .hartInstruction (.aluImm .slli 1 2 64), .hartInstruction (.aluImm .slliw 1 2 32),
      .csrAccess 0x800 .rw 1 (.reg 2), .csrAccess 0xCC8 .rs 1 (.reg 0), .unassignedLaneOpcode 0, .slipWrite .rs 1 (.reg 0), .mstatWrite .rc 1 (.imm 0),
      .mlpcWrite .rs 1 (.reg 0)], i.wf = false := by decide
/-- The same terms at the nearest values that the checks admit; a witness of the round trip. -/
theorem test_well_formed : ∀ i ∈ [Instr.add .i8 true 1 2 3, .mulLo .n64 false 1 2 3, .madWide .n32 1 2 3 4, .cmp .eq .i8 1 2 3, .fadd .f16x2 .mode 1 2 3, .frnd .f32 .rup 1 2,
      .cvt .e2m1 .f64 .sr false 1 2 9, .cvt .i32 .f32 .rtz true 1 2 0, .pb 1 7 0xFF, .ld .generic .b16 true 1 2 0, .ldAcq .device .generic .b64 1 2 0,
      .atom .cas .i32 .generic .relaxed 1 2 3 4, .l1inv .system, .mma false true 1 64, .zQdrop 0 8, .hartInstruction (.aluImm .slli 1 2 63),
      .csrAccess 0x800 .rs 1 (.reg 0), .unassignedLaneOpcode 0x3C, .mlpcWrite .rw 1 (.reg 0)], i.wf = true := by decide

-- Witnesses: fetch, decoding, memory, reset.

theorem test_meets_memory : Memory.wf [(3, 5), (4, 1)] = true ∧ Memory.wf [(4, 1), (3, 5)] = false ∧ Memory.wf [(3, 0)] = false := by decide
theorem test_meets_decoders : (decodeLane 0xEFDFB800 0 0).toOption.isSome = true ∧ (decodeHart 0x013).toOption.isSome = true
    ∧ laneUnassigned 0x3C = true ∧ (5 : Code) ≠ unusedCode ∧ 20 ≤ ((0x014 : BitVec 9).extractLsb' 0 5).toNat ∧ (0x0001 : W32).extractLsb' 0 2 ≠ 3 := by decide
/-- A hart whose next word is `z.fbpop x5`, and a compute stream whose next words are `add.i64 w4, w2, w6`. -/
theorem test_meets_fetch : let s := State.reset.withFetchWord 32 0x0400428B
    let u := s.focus 0
    s.turn = .hart 0 ∧ u.running 0 = true ∧ u.grp.hartReq = none ∧ u.portHeld 16 = false ∧ u.grp.nextAsync = none ∧ u.grp.holdA = false
    ∧ (match u.codeWord true u.grp.pc with | .word w _ _ => hart w == some (.zFbpop 5) | _ => false) = true := by decide
theorem test_meets_lane_fetch : let s := State.reset.withFetchWord 64 0x000001F70C082001
    let u := s.focus 0
    s.turn = .lanes 0 ∧ u.laneReady = true
    ∧ (match u.codeWord false u.grp.lpc with
      | .word w t va => match ((u.keepTlb t).keepWord false va w).fetchWords (laneLength w / 4 - 1) (u.grp.lpc + 4) with
        | .ok (_, l) => lane w (l.getD 0 0) (l.getD 1 0) == some (.add .i64 false 4 2 6)
        | _ => false
      | _ => false) = true := by decide
/-- A fetch at `pc` that meets no cached or dirty copy and no poison. -/
def plainFetch (s : State) (pc : Nat) : Bool :=
  match s.place s.cur false pc with
  | .ok (.global va _) =>
    match s.translate s.asid va .exec with
    | .ok (pa, _) => pa == pc && (s.cachedWord true va).isNone && (s.dirtyOf s.asid va).isNone && !s.poisoned pc 4 && (s.foreign s.asid (sectorsOf pc 4)).isEmpty && !s.grp.stepped
    | _ => false
  | _ => false
theorem test_meets_plain_fetch : plainFetch (State.reset.withFetchWord 32 0x0400428B) 0x1000 = true := by decide
/-- A trap's cause fits its field. -/
theorem test_meets_trap : 30 < 2 ^ 63 ∧ Sys2Proof.Inv (State.reset.withFetchWord 32 0) ∧ Sys2Proof.Inv State.reset := by
  unfold Sys2Proof.Inv; decide
/-- Sectors of a context's own world and of another's, and memory outside HBM (25 R339). -/
theorem test_meets_worlds : let s := { State.reset with sec := { State.reset.sec with contexts := [(5, 2)] }, cipher := [(4096, 3), (8192, 2)] }
    Sys2Proof.Inv s ∧ s.sec.contexts.find 5 = some 2 ∧ s.foreign 5 [4096, 8192] = [4096] ∧ s.foreign 5 (sectorsOf 8192 4) = []
    ∧ s.cipher.find 4096 = some 3 ∧ (∀ k ∈ sectorsOf 8192 128, s.cipher.find k = some 2) ∧ (s.underKey 5 [4096]).cipher = [(4096, 2), (8192, 2)] := by
  unfold Sys2Proof.Inv; decide
/-- A debug stop (28 R368): a debugger attached to ASID 0, a monitor entered for `ebreak`; a group that is killed is none. -/
theorem test_debug_stop : let s := { State.reset with regs := [(subBlock 0 0x3100, 1)] }
    let at_ := fun (g : Group) => (s.setGrp g).atDebugStop
    at_ { mcause := 3 } = true ∧ at_ { mcause := 24, mlcause := 23 } = true ∧ at_ { mcause := 24, mlcause := 15 } = false
    ∧ at_ { mcause := 3, mondb := { kil := true } } = false := by decide
/-- BWCTL holds from a refill to the next (27 R360); what is held passes when metering ends. -/
theorem test_breakwater_off : let s := { State.reset with cycles := 1024, parts := [(0, { metering := true })], cores := [(0, { heldPort := [⟨16, 2⟩] })] }
    let t := s.letThrough 0
    s.meterOff = false ∧ State.reset.meterOff = true ∧ (t.coreAt 0).heldPort = [] ∧ (t.coreAt 0).bwSent = 1 ∧ (t.coreAt 0).bwHeld = 1024 := by decide
end Sys2Proof.Tests
end

/-! The statements of the machine model: every step goes on and keeps memory's form (01 R23, 12 R215-R217), and the
placement and retirement of blocks (01 R17-R22). -/
namespace Sys2Proof.Machine

-- Every step goes on.

/-- Every arm of `exec` answers a next state that keeps the invariant: the table of the dispatch again, with the law of
each meaning in the meaning's place. -/
theorem exec_keeps (i : Instr) (s : State) (h : Inv s) : Keeps (exec i s) :=
  match i with
  | .nop => execNop_inv s h
  | .addI32 d a b => execAddI32_inv d a b s h
  | .subI32 d a b => execSubI32_inv d a b s h
  | .mulLoI32 d a b => execMulLoI32_inv d a b s h
  | .andL32 d a b => execAndL32_inv d a b s h
  | .orL32 d a b => execOrL32_inv d a b s h
  | .xorL32 d a b => execXorL32_inv d a b s h
  | .andnL32 d a b => execAndnL32_inv d a b s h
  | .shlL32 d a b => execShlL32_inv d a b s h
  | .shrL32 d a b => execShrL32_inv d a b s h
  | .sraL32 d a b => execSraL32_inv d a b s h
  | .rotlL32 d a b => execRotlL32_inv d a b s h
  | .minI32 d a b => execMinI32_inv d a b s h
  | .minN32 d a b => execMinN32_inv d a b s h
  | .maxI32 d a b => execMaxI32_inv d a b s h
  | .maxN32 d a b => execMaxN32_inv d a b s h
  | .mov d a => execMov_inv d a s h
  | .not d a => execNot_inv d a s h
  | .negI32 d a => execNegI32_inv d a s h
  | .absI32 d a => execAbsI32_inv d a s h
  | .popc d a => execPopc_inv d a s h
  | .clz d a => execClz_inv d a s h
  | .ctz d a => execCtz_inv d a s h
  | .brev d a => execBrev_inv d a s h
  | .lwin k => execLwin_inv k s h
  | .pb m n pat => execPb_inv m n pat s h
  | .qmode p => execQmode_inv p s h
  | .fsetm a => execFsetm_inv a s h
  | .fgetm d => execFgetm_inv d s h
  | .mcfg a => execMcfg_inv a s h
  | .mand d a b => execMand_inv d a b s h
  | .mor d a b => execMor_inv d a b s h
  | .mxor d a b => execMxor_inv d a b s h
  | .mnot d a => execMnot_inv d a s h
  | .mpopc d a => execMpopc_inv d a s h
  | .mfirst d a => execMfirst_inv d a s h
  | .mpush a => execMpush_inv a s h
  | .mpop d => execMpop_inv d s h
  | .mset d a => execMset_inv d a s h
  | .shfl d a b => execShfl_inv d a b s h
  | .compress d a => execCompress_inv d a s h
  | .expand d a => execExpand_inv d a s h
  | .qswapH d a => execQswapH_inv d a s h
  | .qswapV d a => execQswapV_inv d a s h
  | .qswapD d a => execQswapD_inv d a s h
  | .fbpush a => execFbpush_inv a s h
  | .fbany a => execFbany_inv a s h
  | .fball a => execFball_inv a s h
  | .fbcnt a => execFbcnt_inv a s h
  | .join => execJoin_inv s h
  | .cret => execCret_inv s h
  | .cnext => execCnext_inv s h
  | .cend => execCend_inv s h
  | .brk => execBrk_inv s h
  | .mfence => execMfence_inv s h
  | .mpoll d => execMpoll_inv d s h
  | .mdrain => execMdrain_inv s h
  | .bbar => execBbar_inv s h
  | .cbarArv => execCbarArv_inv s h
  | .cbarWt => execCbarWt_inv s h
  | .add t sat d a b => execAdd_inv t sat d a b s h
  | .addImm t sat d a imm => execAddImm_inv t sat d a imm s h
  | .sub t sat d a b => execSub_inv t sat d a b s h
  | .subImm t sat d a imm => execSubImm_inv t sat d a imm s h
  | .mulLo t sat d a b => execMulLo_inv t sat d a b s h
  | .mulLoImm t sat d a imm => execMulLoImm_inv t sat d a imm s h
  | .mulHi t d a b => execMulHi_inv t d a b s h
  | .mulHiImm t d a imm => execMulHiImm_inv t d a imm s h
  | .mad t sat d a b c => execMad_inv t sat d a b c s h
  | .madImm t sat d a c imm => execMadImm_inv t sat d a c imm s h
  | .madWide t d a b c => execMadWide_inv t d a b c s h
  | .div t d a b => execDiv_inv t d a b s h
  | .divImm t d a imm => execDivImm_inv t d a imm s h
  | .rem t d a b => execRem_inv t d a b s h
  | .remImm t d a imm => execRemImm_inv t d a imm s h
  | .min t d a b => execMin_inv t d a b s h
  | .minImm t d a imm => execMinImm_inv t d a imm s h
  | .max t d a b => execMax_inv t d a b s h
  | .maxImm t d a imm => execMaxImm_inv t d a imm s h
  | .and t d a b => execAnd_inv t d a b s h
  | .andImm t d a imm => execAndImm_inv t d a imm s h
  | .or t d a b => execOr_inv t d a b s h
  | .orImm t d a imm => execOrImm_inv t d a imm s h
  | .xor t d a b => execXor_inv t d a b s h
  | .xorImm t d a imm => execXorImm_inv t d a imm s h
  | .andn t d a b => execAndn_inv t d a b s h
  | .andnImm t d a imm => execAndnImm_inv t d a imm s h
  | .shl t d a b => execShl_inv t d a b s h
  | .shlImm t d a sh => execShlImm_inv t d a sh s h
  | .shr t d a b => execShr_inv t d a b s h
  | .shrImm t d a sh => execShrImm_inv t d a sh s h
  | .sra t d a b => execSra_inv t d a b s h
  | .sraImm t d a sh => execSraImm_inv t d a sh s h
  | .rotl t d a b => execRotl_inv t d a b s h
  | .rotlImm t d a sh => execRotlImm_inv t d a sh s h
  | .addc t d a b c => execAddc_inv t d a b c s h
  | .subb t d a b c => execSubb_inv t d a b c s h
  | .bfx t d a b c => execBfx_inv t d a b c s h
  | .bfxImm t d a pos len => execBfxImm_inv t d a pos len s h
  | .bfi t d a b c => execBfi_inv t d a b c s h
  | .bfiImm t d a pos len => execBfiImm_inv t d a pos len s h
  | .cmp k t d a b => execCmp_inv k t d a b s h
  | .cmpImm k t d a imm => execCmpImm_inv k t d a imm s h
  | .sel t d a b c => execSel_inv t d a b c s h
  | .movi t d imm => execMovi_inv t d imm s h
  | .li t d lit => execLi_inv t d lit s h
  | .fadd t rm d a b => execFadd_inv t rm d a b s h
  | .fsub t rm d a b => execFsub_inv t rm d a b s h
  | .fmul t rm d a b => execFmul_inv t rm d a b s h
  | .ffma t rm d a b c => execFfma_inv t rm d a b c s h
  | .fmin t d a b => execFmin_inv t d a b s h
  | .fmax t d a b => execFmax_inv t d a b s h
  | .fminnum t d a b => execFminnum_inv t d a b s h
  | .fmaxnum t d a b => execFmaxnum_inv t d a b s h
  | .fmaxabs t d a b => execFmaxabs_inv t d a b s h
  | .fcopysign t d a b => execFcopysign_inv t d a b s h
  | .fdiv t rm d a b => execFdiv_inv t rm d a b s h
  | .fsqrt t rm d a => execFsqrt_inv t rm d a s h
  | .fscale t rm d a b => execFscale_inv t rm d a b s h
  | .frnd t rm d a => execFrnd_inv t rm d a s h
  | .fcmp k t d a b => execFcmp_inv k t d a b s h
  | .fclass t d a => execFclass_inv t d a s h
  | .fsel t d a b c => execFsel_inv t d a b c s h
  | .frcp d a => execFrcp_inv d a s h
  | .frsq d a => execFrsq_inv d a s h
  | .fexp2 d a => execFexp2_inv d a s h
  | .flog2 d a => execFlog2_inv d a s h
  | .fsin d a => execFsin_inv d a s h
  | .fcos d a => execFcos_inv d a s h
  | .fdot2 t rm d a b c => execFdot2_inv t rm d a b c s h
  | .cvt tgt src rm sat d a e => execCvt_inv tgt src rm sat d a e s h
  | .bcast d a b => execBcast_inv d a b s h
  | .bcastImm d a n => execBcastImm_inv d a n s h
  | .slideup d a b => execSlideup_inv d a b s h
  | .slideupImm d a n => execSlideupImm_inv d a n s h
  | .slidedn d a b => execSlidedn_inv d a b s h
  | .slidednImm d a n => execSlidednImm_inv d a n s h
  | .qbcast d a p => execQbcast_inv d a p s h
  | .gred op t a => execGred_inv op t a s h
  | .gscan t a => execGscan_inv t a s h
  | .ld sp z sext d a off => execLd_inv sp z sext d a off s h
  | .ldAcq scope sp z d a off => execLdAcq_inv scope sp z d a off s h
  | .st sp z a b off => execSt_inv sp z a b off s h
  | .stRel scope sp z a b off => execStRel_inv scope sp z a b off s h
  | .atom op t sp ord d a b c => execAtom_inv op t sp ord d a b c s h
  | .atomRadd sp ord d a b c => execAtomRadd_inv sp ord d a b c s h
  | .fence k scope => execFence_inv k scope s h
  | .l1inv scope => execL1inv_inv scope s h
  | .prefetch l2 sp a off => execPrefetch_inv l2 sp a off s h
  | .mspill sp a off => execMspill_inv sp a off s h
  | .mfill sp a off => execMfill_inv sp a off s h
  | .cbr off => execCbr_inv off s h
  | .cjmp off => execCjmp_inv off s h
  | .ccall off => execCcall_inv off s h
  | .cloop off => execCloop_inv off s h
  | .trap code => execTrap_inv code s h
  | .rsend a ch => execRsend_inv a ch s h
  | .rrecv d ch => execRrecv_inv d ch s h
  | .mma scl asrc a pitch => execMma_inv scl asrc a pitch s h
  | .mmaSp scl asrc a pitch => execMmaSp_inv scl asrc a pitch s h
  | .msc a => execMsc_inv a s h
  | .mlut tb => execMlut_inv tb s h
  | .tbldSub pm asrc tb d a => execTbldSub_inv pm asrc tb d a s h
  | .tbldProd asrc tb cb d a => execTbldProd_inv asrc tb cb d a s h
  | .cbld tb d a scale lenm1 => execCbld_inv tb d a scale lenm1 s h
  | .tbspill tb a => execTbspill_inv tb a s h
  | .tbfill tb a => execTbfill_inv tb a s h
  | .tbinv tb => execTbinv_inv tb s h
  | .tbstat tb d => execTbstat_inv tb d s h
  | .tsld d a nm1 pitch => execTsld_inv d a nm1 pitch s h
  | .tsst a b nm1 pitch => execTsst_inv a b nm1 pitch s h
  | .tszero => execTszero_inv s h
  | .tscvt d tgt => execTscvt_inv d tgt s h
  | .mwait n => execMwait_inv n s h
  | .zLdq t q rs1 rs2 => execZLdq_inv t q rs1 rs2 s h
  | .zLdqNf t q rs1 rs2 => execZLdqNf_inv t q rs1 rs2 s h
  | .zLdqt q rs1 rs2 => execZLdqt_inv q rs1 rs2 s h
  | .zLdqtNf q rs1 rs2 => execZLdqtNf_inv q rs1 rs2 s h
  | .zStq t rs1 rs2 => execZStq_inv t rs1 rs2 s h
  | .zStqt rs1 rs2 => execZStqt_inv rs1 rs2 s h
  | .zScq rs1 => execZScq_inv rs1 s h
  | .zCtok rs1 => execZCtok_inv rs1 s h
  | .zFbpop rd => execZFbpop_inv rd s h
  | .zJoin => execZJoin_inv s h
  | .zQdrop q n => execZQdrop_inv q n s h
  | .zBfb rs1 off => execZBfb_inv rs1 off s h
  | .zCpyin ch rd rs1 rs2 => execZCpyin_inv ch rd rs1 rs2 s h
  | .zCpyout ch rd rs1 rs2 => execZCpyout_inv ch rd rs1 rs2 s h
  | .zCpyx ch rd rs1 rs2 => execZCpyx_inv ch rd rs1 rs2 s h
  | .zCpywb ch rd rs1 rs2 => execZCpywb_inv ch rd rs1 rs2 s h
  | .zCpywait ch rd rs1 => execZCpywait_inv ch rd rs1 s h
  | .zMbadd rs1 rs2 => execZMbadd_inv rs1 rs2 s h
  | .zMbwait rd rs1 rs2 => execZMbwait_inv rd rs1 rs2 s h
  | .zMbrd rd rs1 => execZMbrd_inv rd rs1 s h
  | .zMbset rs1 rs2 => execZMbset_inv rs1 rs2 s h
  | .zSend rd rs1 rs2 => execZSend_inv rd rs1 rs2 s h
  | .zRecv rd rs1 => execZRecv_inv rd rs1 s h
  | .zRdone rs1 => execZRdone_inv rs1 s h
  | .zBbar => execZBbar_inv s h
  | .zBbarArv => execZBbarArv_inv s h
  | .zBbarWt => execZBbarWt_inv s h
  | .zCbarArv => execZCbarArv_inv s h
  | .zCbarWt => execZCbarWt_inv s h
  | .zLaunch rd rs1 => execZLaunch_inv rd rs1 s h
  | .zJwait rd rs1 => execZJwait_inv rd rs1 s h
  | .zExit rs1 => execZExit_inv rs1 s h
  | .zTadr rd rs1 rs2 => execZTadr_inv rd rs1 rs2 s h
  | .zTadv rd rs1 rs2 => execZTadv_inv rd rs1 rs2 s h
  | .zFence k scope => execZFence_inv k scope s h
  | .zL1wb rs1 rs2 => execZL1wb_inv rs1 rs2 s h
  | .zRank rd rs1 rs2 => execZRank_inv rd rs1 rs2 s h
  | .zTide rd => execZTide_inv rd s h
  | .zTidewait rd rs1 => execZTidewait_inv rd rs1 s h
  | .zQuiesce rd => execZQuiesce_inv rd s h
  | .zCsave rs1 rs2 => execZCsave_inv rs1 rs2 s h
  | .zCrest rs1 rs2 => execZCrest_inv rs1 rs2 s h
  | .zPjrd rd rs1 => execZPjrd_inv rd rs1 s h
  | .zSample rd rs1 => execZSample_inv rd rs1 s h
  | .hartLoad k rd rs1 imm => execHartLoad_inv k rd rs1 imm s h
  | .hartStore k rs1 rs2 imm => execHartStore_inv k rs1 rs2 imm s h
  | .hartAmo op dbl aq rl rd rs1 rs2 => execHartAmo_inv op dbl aq rl rd rs1 rs2 s h
  | .hartLr dbl aq rl rd rs1 => execHartLr_inv dbl aq rl rd rs1 s h
  | .hartSc dbl aq rl rd rs1 rs2 => execHartSc_inv dbl aq rl rd rs1 rs2 s h
  | .hartFence fm pred succ rd rs1 => execHartFence_inv fm pred succ rd rs1 s h
  | .fenceI rd rs1 imm => execFenceI_inv rd rs1 imm s h
  | .ecall => execEcall_inv s h
  | .ebreak => execEbreak_inv s h
  | .mret => execMret_inv s h
  | .wfi => execWfi_inv s h
  | .csrAccess csr op rd src => execCsrAccess_inv csr op rd src s h
  | .hartInstruction op => execHartInstruction_inv op s h
  | .slipWrite op rd src => execSlipWrite_inv op rd src s h
  | .mstatWrite op rd src => execMstatWrite_inv op rd src s h
  | .mlpcWrite op rd src => execMlpcWrite_inv op rd src s h
  | .cedoneRead ch op rd src => execCedoneRead_inv ch op rd src s h
  | .unassignedLaneOpcode w => execUnassignedLaneOpcode_inv w s h
  | .blockPlacement => execBlockPlacement_inv s h
  | .blockRetirement => execBlockRetirement_inv s h
  | .matrixCompletion => execMatrixCompletion_inv s h
  | .copyStart => execCopyStart_inv s h
  | .copyCompletion => execCopyCompletion_inv s h
  | .queueLoadArrival => execQueueLoadArrival_inv s h
  | .replayArrival => execReplayArrival_inv s h
  | .laneAccessComplete => execLaneAccessComplete_inv s h
  | .hartAccessResponse => execHartAccessResponse_inv s h
  | .postedWriteArrival => execPostedWriteArrival_inv s h
  | .journalAck => execJournalAck_inv s h
  | .journalRefusal => execJournalRefusal_inv s h
  | .mailboxIncrementArrival => execMailboxIncrementArrival_inv s h
  | .ringMessageArrival => execRingMessageArrival_inv s h
  | .rankContributionArrival => execRankContributionArrival_inv s h
  | .reductionInputArrival => execReductionInputArrival_inv s h
  | .routerFold => execRouterFold_inv s h
  | .reductionResultLanded => execReductionResultLanded_inv s h
  | .absenceTokenArrival => execAbsenceTokenArrival_inv s h
  | .hartCacheEviction => execHartCacheEviction_inv s h
  | .asyncTrapTaken => execAsyncTrapTaken_inv s h
  | .externalInterrupt => execExternalInterrupt_inv s h
  | .decouplingDeadlock => execDecouplingDeadlock_inv s h
  | .watchdogExpiry => execWatchdogExpiry_inv s h
  | .remoteWaitTimeout => execRemoteWaitTimeout_inv s h
  | .tidewaitReached => execTidewaitReached_inv s h
  | .gangStrike => execGangStrike_inv s h
  | .gangSuspend => execGangSuspend_inv s h
  | .gangResume => execGangResume_inv s h
  | .noticeWrite => execNoticeWrite_inv s h
  | .shootdownRequest => execShootdownRequest_inv s h
  | .shootdownDone => execShootdownDone_inv s h
  | .breakwaterRefill => execBreakwaterRefill_inv s h
  | .breakwaterPass => execBreakwaterPass_inv s h
  | .eccError => execEccError_inv s h
  | .kilsetWrite => execKilsetWrite_inv s h
  | .mondbClear => execMondbClear_inv s h
  | .mbctrWrite => execMbctrWrite_inv s h
  | .blkerrWrite => execBlkerrWrite_inv s h
  | .partdieWrite => execPartdieWrite_inv s h
  | .bootstStageWrite => execBootstStageWrite_inv s h
  | .bstoreWrite => execBstoreWrite_inv s h
  | .hqReset => execHqReset_inv s h
  | .registerWrite => execRegisterWrite_inv s h
  | .coldReset => execColdReset_inv s h
  | .failoverTimer => execFailoverTimer_inv s h
  | .ctxCreate => execCtxCreate_inv s h
  | .ctxDestroy => execCtxDestroy_inv s h
  | .worldSuspend => execWorldSuspend_inv s h
  | .worldResume => execWorldResume_inv s h
  | .worldDestroy => execWorldDestroy_inv s h
  | .handleSet => execHandleSet_inv s h
  | .handleClear => execHandleClear_inv s h
  | .vaultGrant => execVaultGrant_inv s h
  | .entropyRestart => execEntropyRestart_inv s h
  | .badCall => execBadCall_inv s h
  | .hqDoorbell => execHqDoorbell_inv s h
  | .hqCompletionHead => execHqCompletionHead_inv s h
  | .hostNop => execHostNop_inv s h
  | .hostLaunch => execHostLaunch_inv s h
  | .hostShootdown => execHostShootdown_inv s h
  | .pageTake => execPageTake_inv s h
  | .pageReturn => execPageReturn_inv s h
  | .badCommand => execBadCommand_inv s h
  | .hlreqRenew => execHlreqRenew_inv s h
  | .hlreqClaim => execHlreqClaim_inv s h
  | .leaseExpiry => execLeaseExpiry_inv s h
  | .linkTraining => execLinkTraining_inv s h
  | .linkDown => execLinkDown_inv s h
  | .ideFailure => execIdeFailure_inv s h
  | .lockInterface => execLockInterface_inv s h
  | .startInterface => execStartInterface_inv s h
  | .stopInterface => execStopInterface_inv s h
  | .snpData => execSnpData_inv s h
  | .snpInv => execSnpInv_inv s h
  | .snpCur => execSnpCur_inv s h
  | .cxlGo => execCxlGo_inv s h
  | .bisnpResponse => execBisnpResponse_inv s h
  | .hostCxlMemAccess => execHostCxlMemAccess_inv s h
  | .getVersion => execGetVersion_inv s h
  | .getCapabilities => execGetCapabilities_inv s h
  | .negotiateAlgorithms => execNegotiateAlgorithms_inv s h
  | .getDigests => execGetDigests_inv s h
  | .getCertificate => execGetCertificate_inv s h
  | .challenge => execChallenge_inv s h
  | .getMeasurements => execGetMeasurements_inv s h
  | .spdmUnsupportedRequest => execSpdmUnsupportedRequest_inv s h
  | .prefetchFill => execPrefetchFill_inv s h
  | .entropyHealthTestFailure => execEntropyHealthTestFailure_inv s h

/-- What a fetch hands on to `exec`, or stops with, keeps the invariant. -/
theorem keeps_of_fetched {x : Fetched} {o : Out} (hx : x.Keeps) (hstop : ∀ t, x = .stop t → o = .next t)
    (hrun : ∀ i t, x = .run i t → o = exec i t) : Keeps o := by
  cases x with
  | stop t => rw [hstop t rfl]; exact keeps_next hx
  | run i t => rw [hrun i t rfl]; exact exec_keeps i t hx

/-- The move of each of the three kinds of agent, a hart, a compute stream or another one. -/
theorem act_keeps (s : State) (h : Inv s) : Keeps (act s) := by
  cases ht : s.turn with
  | hart k =>
    exact keeps_of_fetched (hartFetch_inv _ (State.focus_inv s k h))
      (fun t e => by simp only [act, ht, e]) (fun i t e => by simp only [act, ht, e])
  | lanes k =>
    exact keeps_of_fetched (laneFetch_inv _ (State.focus_inv s k h))
      (fun t e => by simp only [act, ht, e]) (fun i t e => by simp only [act, ht, e])
  | event i => simp only [act, ht]; exact exec_keeps i s h

/-- A step is the mover's move, and the passing of time after it keeps the invariant. -/
theorem step_keeps (s : State) (h : Inv s) : Keeps (step s) := by
  obtain ⟨t, ht, hi⟩ := act_keeps s h
  exact ⟨t.tick, by simp only [step, ht], State.tick_inv t hi⟩

/-- Settles O8: the law of each meaning, collected over the dispatch, then over the turns of `act`. -/
theorem everyStepGoesOnAndKeepsInvariant : Obligations.EveryStepGoesOnAndKeepsInvariant :=
  ⟨exec_keeps, step_keeps⟩

-- Placement and retirement.

/-- A removal takes no other key's value. -/
theorem Map.find_erase_ne_none {α : Type} {m : Map α} {k j : Nat} {v : α} (hk : j ≠ k) (h : m.find j = some v) :
    (m.erase k).find j ≠ none := by
  rw [Map.find_erase_other m (Ne.symm hk), h]
  exact Option.some_ne_none v

/-- The blocks, by linear index, that a launch hands out next: a cluster's, or the single one that its core map places. -/
def Launch.nextBlocks (l : Launch) : List Nat := if l.coreMap.isEmpty then l.members l.next else [l.next]

/-- The block keys that a placement on these cores would take: the lowest free slot of each (log 26). -/
def State.freeKeys (s : State) (cores : List Nat) : List Nat := cores.map fun c => (s.freeSlots c).headD 0

/-- The state with every block of a cluster in its place. -/
def State.placeCluster (s : State) (n : Nat) (lins keys : List Nat) : State :=
  ((List.range lins.length).zip lins).foldl (fun t x => t.placeBlock n x.2 x.1 (keys.getD x.1 0) keys) s

section
variable {s : State} {q r n : Nat} (hq : s.nextQueue (s.partOfCore s.input.a) = some (q, r, n))
include hq

/-- A placement with a head launch hands its next blocks out, or waits where the gang, the context or a core forbids it. -/
theorem execBlockPlacement_head : execBlockPlacement s =
    let l := s.launchAt n
    let cores := l.cores s.input.a
    let p := s.partOfCore s.input.a
    if s.gangSt p != 0 || (s.dead.find l.asid).isSome || !cores.contains s.input.a
      || !((l.nextBlocks.zip cores).all fun x => s.fits n x.1 x.2) then .next s
    else .next ((s.placeCluster n l.nextBlocks (s.freeKeys cores)).handedOut p q r n) := by
  unfold execBlockPlacement
  dsimp only
  rw [hq]
  rfl

theorem execBlockPlacement_places (hg : s.gangSt (s.partOfCore s.input.a) = 0) (hd : s.dead.find (s.launchAt n).asid = none)
    (ha : s.input.a ∈ (s.launchAt n).cores s.input.a)
    (hf : ∀ x ∈ (s.launchAt n).nextBlocks.zip ((s.launchAt n).cores s.input.a), s.fits n x.1 x.2 = true) :
    execBlockPlacement s = .next ((s.placeCluster n (s.launchAt n).nextBlocks
      (s.freeKeys ((s.launchAt n).cores s.input.a))).handedOut (s.partOfCore s.input.a) q r n) := by
  have hall := List.all_eq_true.mpr hf
  rw [execBlockPlacement_head hq]
  simp [hg, hd, ha, hall]

theorem execBlockPlacement_full
    (hf : ∃ x ∈ (s.launchAt n).nextBlocks.zip ((s.launchAt n).cores s.input.a), s.fits n x.1 x.2 = false) :
    execBlockPlacement s = .next s := by
  rw [execBlockPlacement_head hq]
  simp only [not_fits_any _ _ hf, Bool.or_true, if_true]
end

section
variable {s : State} {b : Block} (hb : s.blocks.find s.input.a = some b)
include hb

/-- The retirement of a drained block of a live context: its dirty sectors go home, the launch's words take its end, its
trace record is written, and it is freed. -/
theorem execBlockRetirement_live (hd : s.dead.find (s.launchAt b.launch).asid = none) (hr : b.state = .retiring)
    (hdr : s.drained s.input.a = true) {t u : State} (hw : s.writeBackAll (b.slots.flatMap s.dirtyBy) = .ok t)
    (he : t.evicting (s.input.a / 16) = false)
    (hj : t.joinEnd (s.launchAt b.launch) (b.slots.foldl (fun acc k => acc ||| (s.grpAt k).exitCode.toNat) 0) = some (.ok u)) :
    execBlockRetirement s = .next ((u.trace s.input.a 3 (s.launchAt b.launch).asid
      (b.lin + 2 ^ 64 * (s.launchAt b.launch).join)).freeBlock s.input.a) := by
  unfold execBlockRetirement
  simp [hb, hd, hr, hdr, hw, he, hj]

theorem execBlockRetirement_dead (hd : s.dead.find (s.launchAt b.launch).asid ≠ none)
    (hs : s.allSaved (s.launchAt b.launch).asid = true) (hdr : s.drained s.input.a = true) :
    execBlockRetirement s = .next (s.freeBlock s.input.a) := by
  unfold execBlockRetirement
  simp [hb, some_of_ne hd, hs, hdr]

theorem execBlockRetirement_undrained (hdr : s.drained s.input.a = false) : execBlockRetirement s = .next s := by
  unfold execBlockRetirement
  simp [hb, hdr]
end

/-- Settles O49: placement and retirement by their cases, and what placing and freeing a block do by their own laws. -/
theorem blocksPlacedAndRetired : Obligations.BlocksPlacedAndRetired := by
  intro s a
  refine ⟨?placement, placeBlock_spec s, ?retirement, ?freed⟩
  case placement =>
    intro q r n p l cores lins hq
    exact ⟨execBlockPlacement_places hq, execBlockPlacement_full hq⟩
  case retirement =>
    intro b hb l
    exact ⟨fun hd hr hdr _ _ hw he hj => execBlockRetirement_live hb hd hr hdr hw he hj, execBlockRetirement_dead hb,
      execBlockRetirement_undrained hb⟩
  case freed =>
    intro blk
    obtain ⟨hblocks, hmem, hlaunches, hslots⟩ := freeBlock_spec s blk
    refine ⟨?gone, hmem, ?others, ?live, hslots⟩
    case gone => rw [hblocks]; exact Map.find_erase_same _ _
    case others => intro c hc b hb; rw [hblocks]; exact Map.find_erase_ne_none hc hb
    case live => rw [State.launchAt, hlaunches, Map.get_set_same]

end Sys2Proof.Machine

/-! The statement of the hart's arithmetic, jumps and branches (04 R87), and of the registers that wait for a copy
(02 R34, R52; 10 R174). -/
namespace Sys2Proof.Machine

-- Running an instruction of the hart: its result, its jump, its wait.

theorem exec_hartInstruction (op : HartOp) (s : State) : exec (.hartInstruction op) s = execHartInstruction op s := rfl

/-- An instruction with free registers whose result on the settled state is `v` completes with `v` in rd. -/
theorem hartRun_result {s : State} {reads : List XReg} {rd : XReg} {f : State → W64} {v : W64}
    (h : s.hartFree (reads ++ [rd])) (hf : f (s.settled reads [rd]) = v) :
    hartRun s reads [rd] (fun t => .next (t.hartDone rd (f t))) =
      .next ((s.settled reads [rd]).setGrp ((s.settled reads [rd]).grp.setX rd v).hartNext) := by
  subst hf
  exact hartRun_eq h rfl (waits_hartDone _ rd _)

theorem hartJump_aligned (s : State) (rd : XReg) {a : W64} (ha : a % 4 = 0) :
    hartJump s rd a = .next (s.setGrp ((s.grp.setX rd (s.grp.pc + 4)).hartGoto a)) := by
  simp only [hartJump, low2, ha, decide_true, Bool.not_true, Bool.false_eq_true, if_false]

theorem hartJump_misaligned (s : State) (rd : XReg) {a : W64} (ha : a % 4 ≠ 0) : hartJump s rd a = .next (s.trap 0 a) := by
  simp only [hartJump, low2, ha, decide_false, Bool.not_false, if_true, raise]

/-- A jump with free registers whose target on the settled state is `a` links and goes there, or traps and links
nothing. -/
theorem hartRun_jump {s : State} {reads : List XReg} {rd : XReg} {f : State → W64} {a : W64}
    (h : s.hartFree (reads ++ [rd])) (hf : f (s.settled reads [rd]) = a) :
    let u := s.settled reads [rd]
    (a % 4 = 0 → hartRun s reads [rd] (fun t => hartJump t rd (f t)) =
      .next (u.setGrp ((u.grp.setX rd (s.grp.pc + 4)).hartGoto a)))
    ∧ (a % 4 ≠ 0 → hartRun s reads [rd] (fun t => hartJump t rd (f t)) = .next (u.trap 0 a)) := by
  intro u
  subst hf
  have hrun : hartRun s reads [rd] (fun t => hartJump t rd (f t)) = hartJump u rd (f u) :=
    hartRun_eq h rfl (waits_jump u rd (f u))
  have hpc : u.grp.pc = s.grp.pc := settled_pc s reads [rd]
  rw [hrun, ← hpc]
  exact ⟨hartJump_aligned u rd, hartJump_misaligned u rd⟩

/-- A branch with free registers falls through, goes to its target, or traps on a taken target that is not a multiple of
4; an untaken branch does not look at its target (log 19). -/
theorem exec_branch_free {s : State} {rs1 rs2 : XReg} (h : s.hartFree [rs1, rs2]) (c : BrCond) (off : BitVec 13) :
    let u := s.settled [rs1, rs2] []
    let a := s.grp.pc + off.signExtend 64
    exec (.hartInstruction (.branch c rs1 rs2 off)) s = .next (
      if branchTaken c (s.grp.xr rs1) (s.grp.xr rs2) then
        if a % 4 = 0 then u.setGrp (u.grp.hartGoto a) else u.trap 0 a
      else u.setGrp u.grp.hartNext) := by
  intro u a
  simp only [exec_hartInstruction, execHartInstruction]
  refine hartRun_eq (reads := [rs1, rs2]) (writes := []) h ?meaning ?goesOn
  case meaning =>
    simp only [settled_pc, settled_xr, low2, raise]
    cases branchTaken c (s.grp.xr rs1) (s.grp.xr rs2) with
    | false => rfl
    | true =>
      by_cases ha : (s.grp.pc + off.signExtend 64) % 4 = 0
      · simp only [a, ha]; rfl
      · simp only [a, ha]; rfl
  case goesOn =>
    split
    · split
      · exact waits_setGrp _ _
      · exact waits_trap _ _ _
    · exact waits_setGrp _ _

/-- A named register that waits for a copy holds the instruction back, whatever the instruction means. -/
theorem hartRun_busy {s : State} {reads writes : List XReg} (k : State → Out) (ht : s.grp.tokens ≠ [])
    (hb : ∃ r ∈ reads ++ writes, s.grp.tokenBusy r = true) : hartRun s reads writes k = hartWaits s .token := by
  have hany : (reads ++ writes).any s.grp.tokenBusy = true := List.any_eq_true.mpr hb
  simp [hartRun, ht, hany]

/-- The record of a wait keeps the time at which the same wait began. -/
theorem hartWaits_eq (s : State) (w : HartWait) : hartWaits s w = .next (s.setGrp { s.grp with
    hartWait := some w, hartSince := if s.grp.hartWait = some w then s.grp.hartSince else s.cycles
    hartTide := if s.grp.hartWait = some w then s.grp.hartTide else s.tide.toNat }) := by
  simp only [hartWaits, beq_iff_eq]

-- Each arithmetic instruction with free registers, and the settling of their tokens.

theorem exec_alu_free {s : State} {rd rs1 rs2 : XReg} (h : s.hartFree [rs1, rs2, rd]) (op : AluOp) :
    let u := s.settled [rs1, rs2] [rd]
    exec (.hartInstruction (.alu op rd rs1 rs2)) s =
      .next (u.setGrp (u.grp.setX rd (aluOp op (s.grp.xr rs1) (s.grp.xr rs2))).hartNext) := by
  simp only [exec_hartInstruction, execHartInstruction]
  exact hartRun_result (reads := [rs1, rs2]) h (by rw [settled_xr, settled_xr])

theorem exec_aluImm_free {s : State} {rd rs1 : XReg} (h : s.hartFree [rs1, rd]) (op : AluImmOp) (imm : BitVec 12) :
    let u := s.settled [rs1] [rd]
    exec (.hartInstruction (.aluImm op rd rs1 imm)) s =
      .next (u.setGrp (u.grp.setX rd (aluImmOp op (s.grp.xr rs1) imm)).hartNext) := by
  simp only [exec_hartInstruction, execHartInstruction]
  exact hartRun_result (reads := [rs1]) h (by rw [settled_xr])

theorem exec_unary_free {s : State} {rd rs1 : XReg} (h : s.hartFree [rs1, rd]) (op : UnOp) :
    let u := s.settled [rs1] [rd]
    exec (.hartInstruction (.unary op rd rs1)) s = .next (u.setGrp (u.grp.setX rd (unOp op (s.grp.xr rs1))).hartNext) := by
  simp only [exec_hartInstruction, execHartInstruction]
  exact hartRun_result (reads := [rs1]) h (by rw [settled_xr])

theorem exec_lui_free {s : State} {rd : XReg} (h : s.hartFree [rd]) (up : BitVec 20) :
    let u := s.settled [] [rd]
    exec (.hartInstruction (.lui rd up)) s = .next (u.setGrp (u.grp.setX rd ((up ++ 0#12).signExtend 64)).hartNext) := by
  simp only [exec_hartInstruction, execHartInstruction]
  exact hartRun_result (reads := []) h rfl

theorem exec_auipc_free {s : State} {rd : XReg} (h : s.hartFree [rd]) (up : BitVec 20) :
    let u := s.settled [] [rd]
    exec (.hartInstruction (.auipc rd up)) s =
      .next (u.setGrp (u.grp.setX rd (s.grp.pc + (up ++ 0#12).signExtend 64)).hartNext) := by
  simp only [exec_hartInstruction, execHartInstruction]
  exact hartRun_result (reads := []) h (by rw [settled_pc])

/-- Settling tokens changes the acting group's tokens and the lane L1 of its core, nothing else. -/
theorem settled_frame (s : State) (reads writes : List XReg) :
    let t := s.settled reads writes
    t.grp = { s.grp with tokens := t.grp.tokens } ∧ t = { s with groups := t.groups, cores := t.cores }
    ∧ (∀ k, k ≠ s.cur → t.grpAt k = s.grpAt k) ∧ (∀ c, t.coreAt c = { s.coreAt c with l1 := (t.coreAt c).l1 })
    ∧ ∀ a, Memory.read t.mem a = Memory.read s.mem a := by
  obtain ⟨hgrp, hrest, hothers, hcores⟩ := settled_spec s reads writes
  exact ⟨hgrp, hrest, hothers, hcores, fun a => by rw [settled_mem]⟩

/-- Settles O28: each instruction is a `hartRun` whose meaning on the settled state is a result, a jump or a branch, and
which a waiting register holds back before any meaning. -/
theorem hartArithmeticAndTransfersComplete : Obligations.HartArithmeticAndTransfersComplete := by
  refine ⟨?arithmetic, ?transfers, ?tokens⟩
  case arithmetic =>
    intro op opi un rd rs1 rs2 imm up s
    exact ⟨fun h => exec_alu_free h op, fun h => ⟨exec_aluImm_free h opi imm, exec_unary_free h un⟩,
      fun h => ⟨exec_lui_free h up, exec_auipc_free h up⟩⟩
  case transfers =>
    intro c rd rs1 rs2 off imm boff s
    refine ⟨fun h => ?jal, fun h => ?jalr, fun h => ?branch⟩
    case jal =>
      simp only [exec_hartInstruction, execHartInstruction]
      exact hartRun_jump (reads := []) h (by rw [settled_pc])
    case jalr =>
      simp only [exec_hartInstruction, execHartInstruction]
      exact hartRun_jump (reads := [rs1]) h (by rw [settled_xr])
    case branch =>
      obtain ⟨htaken, huntaken⟩ := nextIf (exec_branch_free h c boff)
      exact ⟨fun hc => huntaken (by simp [hc]), fun hc => nextIf (htaken hc)⟩
  case tokens =>
    intro op rd rs1 rs2 s
    refine ⟨fun ht hb => ?held, settled_frame s⟩
    case held =>
      simp only [exec_hartInstruction, execHartInstruction, ← hartWaits_eq]
      exact hartRun_busy (reads := [rs1, rs2]) _ ht hb

end Sys2Proof.Machine

/-! The statements of the encodings: the round trip through the encoder, what the decoders answer and what they reject
(04 R74-R88). -/
namespace Sys2Proof.Laws

-- Encoding, then decoding.

/-- The round trip of every constructor, collected: the steps of the other agents have no words. -/
theorem decodesTo_encode (i : Instr) : Enc.Statement i :=
  match i with
  | .nop => Enc.nop
  | .addI32 d a b => Enc.addI32 d a b
  | .subI32 d a b => Enc.subI32 d a b
  | .mulLoI32 d a b => Enc.mulLoI32 d a b
  | .andL32 d a b => Enc.andL32 d a b
  | .orL32 d a b => Enc.orL32 d a b
  | .xorL32 d a b => Enc.xorL32 d a b
  | .andnL32 d a b => Enc.andnL32 d a b
  | .shlL32 d a b => Enc.shlL32 d a b
  | .shrL32 d a b => Enc.shrL32 d a b
  | .sraL32 d a b => Enc.sraL32 d a b
  | .rotlL32 d a b => Enc.rotlL32 d a b
  | .minI32 d a b => Enc.minI32 d a b
  | .minN32 d a b => Enc.minN32 d a b
  | .maxI32 d a b => Enc.maxI32 d a b
  | .maxN32 d a b => Enc.maxN32 d a b
  | .mov d a => Enc.mov d a
  | .not d a => Enc.not d a
  | .negI32 d a => Enc.negI32 d a
  | .absI32 d a => Enc.absI32 d a
  | .popc d a => Enc.popc d a
  | .clz d a => Enc.clz d a
  | .ctz d a => Enc.ctz d a
  | .brev d a => Enc.brev d a
  | .lwin k => Enc.lwin k
  | .pb m n pat => Enc.pb m n pat
  | .qmode p => Enc.qmode p
  | .fsetm a => Enc.fsetm a
  | .fgetm d => Enc.fgetm d
  | .mcfg a => Enc.mcfg a
  | .mand d a b => Enc.mand d a b
  | .mor d a b => Enc.mor d a b
  | .mxor d a b => Enc.mxor d a b
  | .mnot d a => Enc.mnot d a
  | .mpopc d a => Enc.mpopc d a
  | .mfirst d a => Enc.mfirst d a
  | .mpush a => Enc.mpush a
  | .mpop d => Enc.mpop d
  | .mset d a => Enc.mset d a
  | .shfl d a b => Enc.shfl d a b
  | .compress d a => Enc.compress d a
  | .expand d a => Enc.expand d a
  | .qswapH d a => Enc.qswapH d a
  | .qswapV d a => Enc.qswapV d a
  | .qswapD d a => Enc.qswapD d a
  | .fbpush a => Enc.fbpush a
  | .fbany a => Enc.fbany a
  | .fball a => Enc.fball a
  | .fbcnt a => Enc.fbcnt a
  | .join => Enc.join
  | .cret => Enc.cret
  | .cnext => Enc.cnext
  | .cend => Enc.cend
  | .brk => Enc.brk
  | .mfence => Enc.mfence
  | .mpoll d => Enc.mpoll d
  | .mdrain => Enc.mdrain
  | .bbar => Enc.bbar
  | .cbarArv => Enc.cbarArv
  | .cbarWt => Enc.cbarWt
  | .add t sat d a b => Enc.add t sat d a b
  | .addImm t sat d a imm => Enc.addImm t sat d a imm
  | .sub t sat d a b => Enc.sub t sat d a b
  | .subImm t sat d a imm => Enc.subImm t sat d a imm
  | .mulLo t sat d a b => Enc.mulLo t sat d a b
  | .mulLoImm t sat d a imm => Enc.mulLoImm t sat d a imm
  | .mulHi t d a b => Enc.mulHi t d a b
  | .mulHiImm t d a imm => Enc.mulHiImm t d a imm
  | .mad t sat d a b c => Enc.mad t sat d a b c
  | .madImm t sat d a c imm => Enc.madImm t sat d a c imm
  | .madWide t d a b c => Enc.madWide t d a b c
  | .div t d a b => Enc.div t d a b
  | .divImm t d a imm => Enc.divImm t d a imm
  | .rem t d a b => Enc.rem t d a b
  | .remImm t d a imm => Enc.remImm t d a imm
  | .min t d a b => Enc.min t d a b
  | .minImm t d a imm => Enc.minImm t d a imm
  | .max t d a b => Enc.max t d a b
  | .maxImm t d a imm => Enc.maxImm t d a imm
  | .and t d a b => Enc.and t d a b
  | .andImm t d a imm => Enc.andImm t d a imm
  | .or t d a b => Enc.or t d a b
  | .orImm t d a imm => Enc.orImm t d a imm
  | .xor t d a b => Enc.xor t d a b
  | .xorImm t d a imm => Enc.xorImm t d a imm
  | .andn t d a b => Enc.andn t d a b
  | .andnImm t d a imm => Enc.andnImm t d a imm
  | .shl t d a b => Enc.shl t d a b
  | .shlImm t d a sh => Enc.shlImm t d a sh
  | .shr t d a b => Enc.shr t d a b
  | .shrImm t d a sh => Enc.shrImm t d a sh
  | .sra t d a b => Enc.sra t d a b
  | .sraImm t d a sh => Enc.sraImm t d a sh
  | .rotl t d a b => Enc.rotl t d a b
  | .rotlImm t d a sh => Enc.rotlImm t d a sh
  | .addc t d a b c => Enc.addc t d a b c
  | .subb t d a b c => Enc.subb t d a b c
  | .bfx t d a b c => Enc.bfx t d a b c
  | .bfxImm t d a pos len => Enc.bfxImm t d a pos len
  | .bfi t d a b c => Enc.bfi t d a b c
  | .bfiImm t d a pos len => Enc.bfiImm t d a pos len
  | .cmp k t d a b => Enc.cmp k t d a b
  | .cmpImm k t d a imm => Enc.cmpImm k t d a imm
  | .sel t d a b c => Enc.sel t d a b c
  | .movi t d imm => Enc.movi t d imm
  | .li t d lit => Enc.li t d lit
  | .fadd t rm d a b => Enc.fadd t rm d a b
  | .fsub t rm d a b => Enc.fsub t rm d a b
  | .fmul t rm d a b => Enc.fmul t rm d a b
  | .ffma t rm d a b c => Enc.ffma t rm d a b c
  | .fmin t d a b => Enc.fmin t d a b
  | .fmax t d a b => Enc.fmax t d a b
  | .fminnum t d a b => Enc.fminnum t d a b
  | .fmaxnum t d a b => Enc.fmaxnum t d a b
  | .fmaxabs t d a b => Enc.fmaxabs t d a b
  | .fcopysign t d a b => Enc.fcopysign t d a b
  | .fdiv t rm d a b => Enc.fdiv t rm d a b
  | .fsqrt t rm d a => Enc.fsqrt t rm d a
  | .fscale t rm d a b => Enc.fscale t rm d a b
  | .frnd t rm d a => Enc.frnd t rm d a
  | .fcmp k t d a b => Enc.fcmp k t d a b
  | .fclass t d a => Enc.fclass t d a
  | .fsel t d a b c => Enc.fsel t d a b c
  | .frcp d a => Enc.frcp d a
  | .frsq d a => Enc.frsq d a
  | .fexp2 d a => Enc.fexp2 d a
  | .flog2 d a => Enc.flog2 d a
  | .fsin d a => Enc.fsin d a
  | .fcos d a => Enc.fcos d a
  | .fdot2 t rm d a b c => Enc.fdot2 t rm d a b c
  | .cvt tgt src rm sat d a e => Enc.cvt tgt src rm sat d a e
  | .bcast d a b => Enc.bcast d a b
  | .bcastImm d a n => Enc.bcastImm d a n
  | .slideup d a b => Enc.slideup d a b
  | .slideupImm d a n => Enc.slideupImm d a n
  | .slidedn d a b => Enc.slidedn d a b
  | .slidednImm d a n => Enc.slidednImm d a n
  | .qbcast d a p => Enc.qbcast d a p
  | .gred op t a => Enc.gred op t a
  | .gscan t a => Enc.gscan t a
  | .ld sp z sext d a off => Enc.ld sp z sext d a off
  | .ldAcq scope sp z d a off => Enc.ldAcq scope sp z d a off
  | .st sp z a b off => Enc.st sp z a b off
  | .stRel scope sp z a b off => Enc.stRel scope sp z a b off
  | .atom op t sp ord d a b c => Enc.atom op t sp ord d a b c
  | .atomRadd sp ord d a b c => Enc.atomRadd sp ord d a b c
  | .fence k scope => Enc.fence k scope
  | .l1inv scope => Enc.l1inv scope
  | .prefetch l2 sp a off => Enc.prefetch l2 sp a off
  | .mspill sp a off => Enc.mspill sp a off
  | .mfill sp a off => Enc.mfill sp a off
  | .cbr off => Enc.cbr off
  | .cjmp off => Enc.cjmp off
  | .ccall off => Enc.ccall off
  | .cloop off => Enc.cloop off
  | .trap code => Enc.trap code
  | .rsend a ch => Enc.rsend a ch
  | .rrecv d ch => Enc.rrecv d ch
  | .mma scl asrc a pitch => Enc.mma scl asrc a pitch
  | .mmaSp scl asrc a pitch => Enc.mmaSp scl asrc a pitch
  | .msc a => Enc.msc a
  | .mlut tb => Enc.mlut tb
  | .tbldSub pm asrc tb d a => Enc.tbldSub pm asrc tb d a
  | .tbldProd asrc tb cb d a => Enc.tbldProd asrc tb cb d a
  | .cbld tb d a scale lenm1 => Enc.cbld tb d a scale lenm1
  | .tbspill tb a => Enc.tbspill tb a
  | .tbfill tb a => Enc.tbfill tb a
  | .tbinv tb => Enc.tbinv tb
  | .tbstat tb d => Enc.tbstat tb d
  | .tsld d a nm1 pitch => Enc.tsld d a nm1 pitch
  | .tsst a b nm1 pitch => Enc.tsst a b nm1 pitch
  | .tszero => Enc.tszero
  | .tscvt d tgt => Enc.tscvt d tgt
  | .mwait n => Enc.mwait n
  | .zLdq t q rs1 rs2 => Enc.zLdq t q rs1 rs2
  | .zLdqNf t q rs1 rs2 => Enc.zLdqNf t q rs1 rs2
  | .zLdqt q rs1 rs2 => Enc.zLdqt q rs1 rs2
  | .zLdqtNf q rs1 rs2 => Enc.zLdqtNf q rs1 rs2
  | .zStq t rs1 rs2 => Enc.zStq t rs1 rs2
  | .zStqt rs1 rs2 => Enc.zStqt rs1 rs2
  | .zScq rs1 => Enc.zScq rs1
  | .zCtok rs1 => Enc.zCtok rs1
  | .zFbpop rd => Enc.zFbpop rd
  | .zJoin => Enc.zJoin
  | .zQdrop q n => Enc.zQdrop q n
  | .zBfb rs1 off => Enc.zBfb rs1 off
  | .zCpyin ch rd rs1 rs2 => Enc.zCpyin ch rd rs1 rs2
  | .zCpyout ch rd rs1 rs2 => Enc.zCpyout ch rd rs1 rs2
  | .zCpyx ch rd rs1 rs2 => Enc.zCpyx ch rd rs1 rs2
  | .zCpywb ch rd rs1 rs2 => Enc.zCpywb ch rd rs1 rs2
  | .zCpywait ch rd rs1 => Enc.zCpywait ch rd rs1
  | .zMbadd rs1 rs2 => Enc.zMbadd rs1 rs2
  | .zMbwait rd rs1 rs2 => Enc.zMbwait rd rs1 rs2
  | .zMbrd rd rs1 => Enc.zMbrd rd rs1
  | .zMbset rs1 rs2 => Enc.zMbset rs1 rs2
  | .zSend rd rs1 rs2 => Enc.zSend rd rs1 rs2
  | .zRecv rd rs1 => Enc.zRecv rd rs1
  | .zRdone rs1 => Enc.zRdone rs1
  | .zBbar => Enc.zBbar
  | .zBbarArv => Enc.zBbarArv
  | .zBbarWt => Enc.zBbarWt
  | .zCbarArv => Enc.zCbarArv
  | .zCbarWt => Enc.zCbarWt
  | .zLaunch rd rs1 => Enc.zLaunch rd rs1
  | .zJwait rd rs1 => Enc.zJwait rd rs1
  | .zExit rs1 => Enc.zExit rs1
  | .zTadr rd rs1 rs2 => Enc.zTadr rd rs1 rs2
  | .zTadv rd rs1 rs2 => Enc.zTadv rd rs1 rs2
  | .zFence k scope => Enc.zFence k scope
  | .zL1wb rs1 rs2 => Enc.zL1wb rs1 rs2
  | .zRank rd rs1 rs2 => Enc.zRank rd rs1 rs2
  | .zTide rd => Enc.zTide rd
  | .zTidewait rd rs1 => Enc.zTidewait rd rs1
  | .zQuiesce rd => Enc.zQuiesce rd
  | .zCsave rs1 rs2 => Enc.zCsave rs1 rs2
  | .zCrest rs1 rs2 => Enc.zCrest rs1 rs2
  | .zPjrd rd rs1 => Enc.zPjrd rd rs1
  | .zSample rd rs1 => Enc.zSample rd rs1
  | .hartLoad k rd rs1 imm => Enc.hartLoad k rd rs1 imm
  | .hartStore k rs1 rs2 imm => Enc.hartStore k rs1 rs2 imm
  | .hartAmo op dbl aq rl rd rs1 rs2 => Enc.hartAmo op dbl aq rl rd rs1 rs2
  | .hartLr dbl aq rl rd rs1 => Enc.hartLr dbl aq rl rd rs1
  | .hartSc dbl aq rl rd rs1 rs2 => Enc.hartSc dbl aq rl rd rs1 rs2
  | .hartFence fm pred succ rd rs1 => Enc.hartFence fm pred succ rd rs1
  | .fenceI rd rs1 imm => Enc.fenceI rd rs1 imm
  | .ecall => Enc.ecall
  | .ebreak => Enc.ebreak
  | .mret => Enc.mret
  | .wfi => Enc.wfi
  | .csrAccess csr op rd src => Enc.csrAccess csr op rd src
  | .hartInstruction op => Enc.hartInstruction op
  | .slipWrite op rd src => Enc.slipWrite op rd src
  | .mstatWrite op rd src => Enc.mstatWrite op rd src
  | .mlpcWrite op rd src => Enc.mlpcWrite op rd src
  | .cedoneRead ch op rd src => Enc.cedoneRead ch op rd src
  | .unassignedLaneOpcode w => Enc.unassignedLaneOpcode w
  | .blockPlacement | .blockRetirement | .matrixCompletion | .copyStart | .copyCompletion | .queueLoadArrival
  | .replayArrival | .laneAccessComplete | .hartAccessResponse | .postedWriteArrival | .journalAck
  | .journalRefusal | .mailboxIncrementArrival | .ringMessageArrival | .rankContributionArrival
  | .reductionInputArrival | .routerFold | .reductionResultLanded | .absenceTokenArrival | .hartCacheEviction
  | .asyncTrapTaken | .externalInterrupt | .decouplingDeadlock | .watchdogExpiry | .remoteWaitTimeout
  | .tidewaitReached | .gangStrike | .gangSuspend | .gangResume | .noticeWrite | .shootdownRequest
  | .shootdownDone | .breakwaterRefill | .breakwaterPass | .eccError | .kilsetWrite | .mondbClear | .mbctrWrite
  | .blkerrWrite | .partdieWrite | .bootstStageWrite | .bstoreWrite | .hqReset | .registerWrite | .coldReset
  | .failoverTimer | .ctxCreate | .ctxDestroy | .worldSuspend | .worldResume | .worldDestroy | .handleSet
  | .handleClear | .vaultGrant | .entropyRestart | .badCall | .hqDoorbell | .hqCompletionHead | .hostNop
  | .hostLaunch | .hostShootdown | .pageTake | .pageReturn | .badCommand | .hlreqRenew | .hlreqClaim
  | .leaseExpiry | .linkTraining | .linkDown | .ideFailure | .lockInterface | .startInterface | .stopInterface
  | .snpData | .snpInv | .snpCur | .cxlGo | .bisnpResponse | .hostCxlMemAccess | .getVersion | .getCapabilities
  | .negotiateAlgorithms | .getDigests | .getCertificate | .challenge | .getMeasurements
  | .spdmUnsupportedRequest | .prefetchFill | .entropyHealthTestFailure => fun _ => rfl

/-- Settles O2: the round trip of each constructor, collected over the instructions. -/
theorem decodeOfEncode : Obligations.DecodeOfEncode := decodesTo_encode

-- Words that the encoder gives, read as they stand.

/-- 04 R87: the low bits of a word of the hart are 11. -/
theorem decodeHart_compressed {w : W32} (h : w.extractLsb' 0 2 ≠ 3) : decodeHart w = .error .compressed :=
  if_pos (bne_iff_ne.mpr h)

section
variable {i : Instr} {w0 w1 w2 : W32} (hwf : i.wf = true)
include hwf

theorem decodeLane_of_encode_one (he : encode i = [w0]) (hlow : w0.extractLsb' 0 2 ≠ 3) (w1 w2 : W32) :
    decodeLane w0 w1 w2 = .ok i := by
  have h : DecodesTo [w0] i := he ▸ decodesTo_encode i hwf
  rcases h with hhart | ⟨-, hlane⟩
  · rw [decodeHart_compressed hlow] at hhart; cases hhart
  · exact hlane w1 w2

theorem decodeLane_of_encode_two (he : encode i = [w0, w1]) (w2 : W32) : decodeLane w0 w1 w2 = .ok i :=
  have h : DecodesTo [w0, w1] i := he ▸ decodesTo_encode i hwf
  h.2 w2

theorem decodeLane_of_encode_three (he : encode i = [w0, w1, w2]) : decodeLane w0 w1 w2 = .ok i :=
  have h : DecodesTo [w0, w1, w2] i := he ▸ decodesTo_encode i hwf
  h.2

theorem decodeHart_of_encode (he : encode i = [w0]) (hlen : laneLength w0 ≠ 4) (hu : i ≠ .unassignedLaneOpcode w0) :
    decodeHart w0 = .ok i := by
  have h : DecodesTo [w0] i := he ▸ decodesTo_encode i hwf
  exact h.resolve_right fun hlane => hlane.1.elim hlen hu
end

/-- Settles O1: each word is the encoder's for its instruction, so it is read back as that instruction. -/
theorem writtenWordsDecode : Obligations.WrittenWordsDecode := by
  refine ⟨fun w1 w2 => ?short, fun w2 => ?long, ?literal, ?hart⟩
  case short => refine ⟨?_, ?_, ?_⟩ <;> exact decodeLane_of_encode_one rfl (by decide) (by decide) w1 w2
  case long => refine ⟨?_, ?_, ?_, ?_, ?_⟩ <;> exact decodeLane_of_encode_two rfl (by decide) w2
  case literal => exact decodeLane_of_encode_three rfl (by decide)
  case hart => refine ⟨?_, ?_, ?_, ?_, ?_, ?_⟩ <;> exact decodeHart_of_encode rfl (by decide) (by decide) (by decide)

-- What the decoders answer.

/-- Settles O3: an assigned lane word and a hart word by the soundness of their decoders, an unassigned lane word by its
own answer. -/
theorem decodedInstructionsAreWellFormed : Obligations.DecodedInstructionsAreWellFormed := by
  refine ⟨fun w0 w1 w2 i h => ?lane, sound_hart⟩
  cases hu : laneUnassigned w0 with
  | false =>
    obtain ⟨hwf, hevent, hassigned⟩ := sound_lane w0 w1 w2 hu i h
    exact ⟨hwf, hevent, fun w hw => absurd hw (hassigned w)⟩
  | true =>
    rw [Enc.unassigned_decodes w0 w1 w2 hu] at h
    cases h
    exact ⟨hu, rfl, fun w hw => by cases hw; exact ⟨rfl, rfl⟩⟩

-- What the decoders reject.

theorem unused1_of_ne {x : Code} (h : x ≠ unusedCode) (r : Decoded) : unused1 x r = .error .unusedField :=
  if_neg (by simpa using h)

/-- Table 4-3: type codes 20-31 name no type. -/
theorem modTy_reserved {m : BitVec 9} (h : 20 ≤ (m.extractLsb' 0 5).toNat) (k : Ty → Decoded) :
    modTy m k = .error .modifier := by
  have hnone : Ty.ofCode (m.extractLsb' 0 5) = none := List.getElem?_eq_none h
  unfold modTy withCode
  rw [hnone]

/-- A word of layout L32 is its entry on its fields. -/
theorem decodeLane_short (op : BitVec 10) (b a d : Code) (w1 w2 : W32) :
    decodeLane (b ++ a ++ d ++ op ++ 0#1) w1 w2 = decodeShort (b ++ a ++ d ++ op ++ 0#1) op.toNat d a b := by
  rw [Enc.lane32, decodeL32, Enc.op32, Enc.d32, Enc.a32, Enc.b32]

/-- Words of layout L64 are their entry on their fields. -/
theorem decodeLane_long (maj : BitVec 9) (b a d c : Code) (imm : Half) (m : BitVec 9) (w2 : W32) :
    decodeLane (b ++ a ++ d ++ maj ++ 1#2) (imm ++ m ++ c) w2
      = decodeMajor (b ++ a ++ d ++ maj ++ 1#2) maj.toNat d a b c m imm := by
  rw [Enc.lane64, decodeL64, Enc.maj64, Enc.d64, Enc.a64, Enc.b64, Enc.c64, Enc.m64, Enc.imm64]

/-- Settles O4: each entry checks its reserved field before those that the statement does not fix, and a word of no
entry is answered as it stands. -/
theorem reservedEncodingsRejected : Obligations.ReservedEncodingsRejected := by
  refine ⟨?short, ?long, ?types, fun w w1 w2 => Enc.unassigned_decodes w w1 w2, fun w => decodeHart_compressed⟩
  case short =>
    intro d a b w1 w2 hb w hw
    simp only [l32, List.mem_append, List.mem_singleton, or_assoc] at hw
    rcases hw with rfl | rfl | rfl <;> rw [decodeLane_short] <;> exact unused1_of_ne hb _
  case long =>
    intro b a d c imm m w2 hc maj hmaj
    rw [decodeLane_long]
    simp only [List.mem_cons, List.not_mem_nil, or_false] at hmaj
    rcases hmaj with rfl | rfl | rfl | rfl | rfl <;> exact unused1_of_ne hc _
  case types =>
    intro b a d m w2 hm maj hmaj
    rw [decodeLane_long]
    simp only [List.mem_cons, List.not_mem_nil, or_false] at hmaj
    rcases hmaj with rfl | rfl | rfl <;> exact modTy_reserved hm _

end Sys2Proof.Laws

/-! The statements of fetch (04 R75; 01 R23) and of the checks that come before a lane instruction's effect (04 R77,
R78). -/
namespace Sys2Proof.Machine

-- The course of a lane instruction that does not start.

section
variable {s : State} {o : LaneForm} (check : List LaneVec → Check) (eff : List LaneVec → LaneMask → State → State)

theorem laneRun_uncovered (hc : o.coverOk s.grp = false) : laneRun s o check eff = laneIllegal s 3 := by
  simp [laneRun, hc]

theorem laneRun_badOperand (hc : o.coverOk s.grp = true) (ho : o.operandsOk s.grp = false) :
    laneRun s o check eff = laneIllegal s 2 := by
  simp [laneRun, hc, ho]

/-- Where the instruction may stand and its operands pass, how its start turns out decides. -/
theorem laneRun_operandsOk (hc : o.coverOk s.grp = true) (ho : o.operandsOk s.grp = true) :
    (∀ w, s.grp.start o.srcs o.stq o.fbq = .wait w → laneRun s o check eff = laneWaits s w)
    ∧ (∀ x, s.grp.start o.srcs o.stq o.fbq = .width x → laneRun s o check eff = laneRaise s 4 0 s.grp.active (x.setWidth 64))
    ∧ ∀ q j, s.grp.start o.srcs o.stq o.fbq = .poisoned q j → laneRun s o check eff = .next (s.poisonedPop q j) := by
  refine ⟨fun w h => ?_, fun x h => ?_, fun q j h => ?_⟩ <;> simp [laneRun, hc, ho, h]
end

/-- The record of a wait keeps the time at which the same wait began. -/
theorem laneWaits_eq (s : State) (w : LaneWait) : laneWaits s w = .next (s.setGrp { s.grp with
    laneWait := some w, laneSince := if s.grp.laneWait = some w then s.grp.laneSince else s.cycles }) := by
  simp only [laneWaits, beq_iff_eq]

theorem State.poisonedPop_entry {s : State} {q k : Nat} {e : LdqEntry} (h : s.grp.entry q k = some e) :
    s.poisonedPop q k = s.setGrp ((s.grp.markReplay q k).laneFault 5 e.cause e.lanes e.addr) := by
  simp only [State.poisonedPop, h]

/-- The whole meaning of an instruction, in a state, is the course of a lane instruction of this form. -/
def RunsAs (i : Instr) (o : LaneForm) (s : State) : Prop := ∃ check eff, exec i s = laneRun s o check eff

/-- An instruction runs as its meaning does. -/
theorem runsAs_of_exec {i : Instr} {o : LaneForm} {s : State} {r : Out} (hexec : exec i s = r)
    (hr : ∃ check eff, r = laneRun s o check eff) : RunsAs i o s := by
  subst hexec
  exact hr

/-- One value in each active lane is the course of its form. -/
theorem laneAlu_course (s : State) (len : Nat) (dw : Bool) (d : Code) (srcs : List Src) (f : (Nat → W64) → Nat → W64) :
    ∃ check eff, laneAlu s len dw d srcs f = laneRun s (laneForm len dw d srcs) check eff := ⟨_, _, rfl⟩

section
variable (s : State) (t : Ty) (d a b c : Code)

theorem add_runsAs (sat : Bool) : RunsAs (.add t sat d a b) (typed2 t d a b) s := by
  refine runsAs_of_exec (r := execAdd t sat d a b s) rfl ?_
  simp only [execAdd, laneInt2]
  exact laneAlu_course ..

theorem addImm_runsAs (sat : Bool) (imm : Half) : RunsAs (.addImm t sat d a imm) (typed1 t d a) s := by
  refine runsAs_of_exec (r := execAddImm t sat d a imm s) rfl ?_
  simp only [execAddImm, laneIntImm]
  exact laneAlu_course ..

theorem ffma_runsAs (rm : Rm) : RunsAs (.ffma t rm d a b c) (typed3 t d a b c) s := by
  refine runsAs_of_exec (r := execFfma t rm d a b c s) rfl ?_
  simp only [execFfma, laneFloat]
  exact laneAlu_course ..

theorem mov_runsAs : RunsAs (.mov d a) (short1 d a) s := by
  refine runsAs_of_exec (r := execMov d a s) rfl ?_
  simp only [execMov, laneUnary]
  exact laneAlu_course ..

theorem shfl_runsAs : RunsAs (.shfl d a b) (short2 d a b) s := by
  refine runsAs_of_exec (r := execShfl d a b s) rfl ?_
  simp only [execShfl, laneMove]
  exact ⟨_, _, rfl⟩

theorem cmp_runsAs (k : Cond) : RunsAs (.cmp k t d a b) (compare2 t d a b) s := by
  refine runsAs_of_exec (r := execCmp k t d a b s) rfl ?_
  simp only [execCmp, laneCompare]
  exact ⟨_, _, rfl⟩

theorem pb_runsAs (n : BitVec 3) (pat : BitVec 8) :
    RunsAs (.pb a n pat) { len := 4, cover := false, ok := fun _ => decide (a.toNat ≤ 15) } s := by
  refine runsAs_of_exec (r := execPb a n pat s) rfl ?_
  simp only [execPb, laneControl]
  exact ⟨_, _, rfl⟩

theorem mset_runsAs : RunsAs (.mset d a) { len := 4, srcs := [src64 a], ok := fun _ => maskOk d && a.toNat == 117 } s :=
  runsAs_of_exec (r := execMset d a s) rfl ⟨_, _, rfl⟩

theorem fbpush_runsAs : RunsAs (.fbpush a) { len := 4, srcs := [src64 a], fbq := true } s :=
  runsAs_of_exec (r := execFbpush a s) rfl ⟨_, _, rfl⟩

theorem prefetch_runsAs (l2 : Bool) (sp : Space) (off : Half) :
    RunsAs (.prefetch l2 sp a off) { len := 8, srcs := [src64 a] } s :=
  runsAs_of_exec (r := execPrefetch l2 sp a off s) rfl ⟨_, _, rfl⟩
end

/-- Settles O18: each of the instructions runs as its form says, and the course of a form stops at the first stage that
fails. -/
theorem laneChecksBeforeEffect : Obligations.LaneChecksBeforeEffect := by
  intro t sat rm k d a b c imm n pat s p hp
  have hruns : RunsAs p.1 p.2 s := by
    simp only [List.mem_cons, List.not_mem_nil, or_false] at hp
    obtain rfl | rfl | rfl | rfl | rfl | rfl | rfl | rfl | rfl | rfl := hp
    · exact add_runsAs ..
    · exact addImm_runsAs ..
    · exact ffma_runsAs ..
    · exact mov_runsAs ..
    · exact shfl_runsAs ..
    · exact cmp_runsAs ..
    · exact pb_runsAs ..
    · exact mset_runsAs ..
    · exact fbpush_runsAs ..
    · exact prefetch_runsAs ..
  obtain ⟨check, eff, hexec⟩ := hruns
  rw [hexec]
  refine ⟨laneRun_uncovered check eff, laneRun_badOperand check eff, fun hc ho => ?started⟩
  obtain ⟨hwait, hwidth, hpoisoned⟩ := laneRun_operandsOk check eff hc ho
  exact ⟨fun w hw => (hwait w hw).trans (laneWaits_eq s w), hwidth,
    fun q j e hq he => by rw [hpoisoned q j hq, State.poisonedPop_entry he]⟩

-- Fetch.

/-- Bytes and words of a lane instruction (04 R74). -/
theorem laneLength_div (w : W32) : laneLength w / 4 = laneWords w := by
  unfold laneLength laneWords
  split
  · rfl
  · split <;> rfl

/-- A hart that runs, waits for no far access and takes no pending cause fetches its word's instruction. -/
theorem hartFetch_run {s : State} {w : W32} {t : TlbEntry} {va : Nat} {i : Instr} (hrun : s.running s.cur = true)
    (hreq : s.grp.hartReq = none) (hport : s.portHeld (16 + s.cur % 16) = false)
    (hasync : s.grp.mode = .u → s.grp.nextAsync = none ∧ s.grp.holdA = false)
    (hword : s.codeWord true s.grp.pc = .word w t va) (hdec : decodeHart w = .ok i) :
    let u := (s.keepTlb t).keepWord true va w
    hartFetch s = .run i (u.setGrp { u.grp with hword := w }) := by
  by_cases hu : s.grp.mode = .u
  · obtain ⟨hnone, hhold⟩ := hasync hu
    simp [hartFetch, hrun, hreq, hport, hnone, hhold, hword, hdec]
  · simp [hartFetch, hrun, hreq, hport, hu, hword, hdec]

/-- A compute stream that may issue fetches its words' instruction, and its start is counted. -/
theorem laneFetch_run {s v : State} {w : W32} {t : TlbEntry} {va : Nat} {l : List W32} {i : Instr}
    (hready : s.laneReady = true) (hword : s.codeWord false s.grp.lpc = .word w t va)
    (hrest : ((s.keepTlb t).keepWord false va w).fetchWords (laneLength w / 4 - 1) (s.grp.lpc + 4) = .ok (v, l))
    (hdec : decodeLane w (l.getD 0 0) (l.getD 1 0) = .ok i) :
    laneFetch s = .run i ((v.setGrp { v.grp with lword := w }).countStart i) := by
  rw [laneLength_div] at hrest
  simp only [laneFetch, hready, hword, hrest, hdec, Bool.not_true, Bool.false_eq_true, if_false]

theorem act_of_hartFetch {s t : State} {k : Nat} {i : Instr} (hturn : s.turn = .hart k)
    (h : hartFetch (s.focus k) = .run i t) : act s = exec i t := by
  simp only [act, hturn, h]

theorem act_of_laneFetch {s t : State} {k : Nat} {i : Instr} (hturn : s.turn = .lanes k)
    (h : laneFetch (s.focus k) = .run i t) : act s = exec i t := by
  simp only [act, hturn, h]

/-- Where no dirty sector holds the word and no other world has written there, a fetch reads the memory's bytes. -/
theorem hartBytes_own {s : State} {pa n va : Nat} (hart : Bool) (hdirty : s.dirtyOf s.asid va = none)
    (hworld : s.foreign s.asid (sectorsOf pa n) = []) :
    s.hartBytes pa n (if hart then some va else none) = Memory.bytes s.mem pa n := by
  have hown : s.worldBytes s.asid pa n = Memory.bytes s.mem pa n := worldBytes_own s s.asid pa n hworld
  cases hart <;> simp [State.hartBytes, hdirty, hown]

/-- A word of which no cache holds a copy is the memory's. -/
theorem codeWord_memory {s : State} {a : W64} {va pa : Nat} {priv : Bool} {t : TlbEntry} (hart : Bool)
    (hplace : s.place s.cur false a = .ok (.global va priv)) (htrans : s.translate s.asid va .exec = .ok (pa, t))
    (hcached : s.cachedWord hart va = none) (hdirty : s.dirtyOf s.asid va = none) (hpoison : s.poisoned pa 4 = false)
    (hworld : s.foreign s.asid (sectorsOf pa 4) = []) :
    s.codeWord hart a = .word (BitVec.ofNat 32 (leNat (Memory.bytes s.mem pa 4))) t va := by
  simp only [State.codeWord, hplace, htrans, hcached, hpoison, hartBytes_own hart hdirty hworld, Bool.and_false,
    Bool.false_eq_true, if_false]

theorem State.stamp_of_not_stepped {s : State} (h : s.grp.stepped = false) : s.stamp = s := by
  simp [State.stamp, h]

/-- The passing of time changes no memory, group, block, core or register, and leaves the acting group. -/
theorem State.tick_frame {s : State} (h : s.grp.stepped = false) : s.tick.mem = s.mem ∧ s.tick.groups = s.groups
    ∧ s.tick.blocks = s.blocks ∧ s.tick.cores = s.cores ∧ s.tick.regs = s.regs ∧ s.tick.cur = s.cur := by
  simp only [State.tick, State.stamp_of_not_stepped h, and_self]

/-- Settles O6: the two fetches and the word they read by their own laws, a step and its time by definition. -/
theorem stepRunsTheDecodedInstruction : Obligations.StepRunsTheDecodedInstruction := by
  refine ⟨fun s => rfl, ?event, ?hart, ?lanes,
    fun s hart a va priv pa t => codeWord_memory hart, fun s => State.tick_frame⟩
  case event =>
    intro s i hturn
    simp only [act, hturn]
  case hart =>
    intro s k w t va i hturn u hrun hreq hport hasync hword hdec v
    exact act_of_hartFetch hturn (hartFetch_run hrun hreq hport hasync hword hdec)
  case lanes =>
    intro s k w t va v l i hturn u hready hword hrest hdec
    exact act_of_laneFetch hturn (laneFetch_run hready hword hrest hdec)

end Sys2Proof.Machine

/-! The statements of the compute stream's feedback and control (05 R106, R107; 08 R144), and of where it meets the hart
and the other groups: joins, group end, barriers, fences (05 R109; 09 R162-R164; 10 R180). -/
namespace Sys2Proof.Machine

-- Feedback.

/-- A feedback instruction without checks of its values appends one entry to fbq. -/
theorem pushFbq_gives {i : Instr} {o : LaneForm} (f : State → (Nat → Nat → W64) → LaneMask → W64)
    (hexec : ∀ s, exec i s = laneRun s o (fun _ => .pass) fun vs act t => t.pushFbq (f s (fun k n => argAt vs k n) act)) :
    GroupGives i o (fun _ _ => True) fun s x g => g.fbqAdded s.cycles (f s x s.grp.active) := by
  intro s hstart _
  rw [hexec s]
  exact laneRun_fbq hstart rfl

/-- Settles O16: each instruction pushes one value of its active lanes. -/
theorem feedbackInstructionsComplete : Obligations.FeedbackInstructionsComplete := by
  intro a r t
  refine ⟨?fbpush, ?fbany, ?fball, ?fbcnt, ?gred⟩
  case fbpush =>
    exact pushFbq_gives (fun _ x act => match lowestLane act with
      | some i => x 0 i
      | none => 0) fun _ => rfl
  case fbany => exact pushFbq_gives (fun s _ act => if s.grp.mask a &&& act != 0 then 1 else 0) fun _ => rfl
  case fball => exact pushFbq_gives (fun s _ act => if s.grp.mask a &&& act == act then 1 else 0) fun _ => rfl
  case fbcnt => exact pushFbq_gives (fun s _ act => BitVec.ofNat 64 (popCount (s.grp.mask a &&& act))) fun _ => rfl
  case gred => exact pushFbq_gives (fun s x act => redValue r t s.grp.fmode act fun i => x 0 i) fun _ => rfl

-- Control transfers and frames.

/-- A lane instruction that starts and whose checks pass answers what its effect makes of the committed state. -/
theorem laneRun_commits {s t : State} {o : LaneForm} {check : List LaneVec → Check}
    {eff : List LaneVec → LaneMask → State → State} (h : o.starts s) (hc : check (s.grp.vectors o.srcs) = .pass)
    (he : eff (s.grp.vectors o.srcs) s.grp.active (s.setGrp (s.grp.advanced o)) = t) :
    laneRun s o check eff = .next t := by
  subst he
  exact laneRun_ready h hc

/-- A lane instruction that starts, whose checks pass, and whose effect sets its group's record to `g`. -/
theorem laneRun_setsGroup {s : State} {o : LaneForm} {check : List LaneVec → Check}
    {eff : List LaneVec → LaneMask → State → State} {g : Group} (h : o.starts s)
    (hc : check (s.grp.vectors o.srcs) = .pass)
    (he : eff (s.grp.vectors o.srcs) s.grp.active (s.setGrp (s.grp.advanced o)) = s.setGrp g) :
    ∃ t, laneRun s o check eff = .next t ∧ OnlyGroup s t ∧ t.grp = g :=
  ⟨s.setGrp g, laneRun_commits h hc he, OnlyGroup.setGrp s g, State.grp_setGrp s g⟩

theorem frameCheck_room {s : State} (h : s.grp.frames.length < 8) (k : Check) : frameCheck s k = k :=
  if_neg (Nat.not_le.mpr h)

theorem frameCheck_full {s : State} (h : 8 ≤ s.grp.frames.length) (k : Check) : frameCheck s k =
    .stop (s.setGrp (s.grp.laneFault 8 0 s.grp.active (BitVec.ofNat 64 s.grp.frames.length))) := if_pos h

theorem not_isEmpty {α : Type} {l : List α} (h : l ≠ []) : l.isEmpty = false := by
  simpa using h

theorem cjmp_gives (off : Half) : GroupGives (.cjmp off) (controlForm 8) (fun _ _ => True)
    fun s _ g => { g with lpc := s.grp.lpc + (off.signExtend 64 <<< 2) } := by
  intro s hstart _
  change ∃ t, execCjmp off s = .next t ∧ _
  unfold execCjmp laneControl
  refine laneRun_setsGroup hstart rfl ?_
  rw [State.grp_setGrp, State.setGrp_setGrp]
  rfl

theorem cbr_gives (off : Half) : GroupGives (.cbr off) (controlForm 8) (fun s _ => s.grp.ctq ≠ [])
    fun s _ g => { g with
      ctq := s.grp.ctq.drop 1
      lpc := if s.grp.ctq.getD 0 0 = 0 then s.grp.lpc + 8 else s.grp.lpc + (off.signExtend 64 <<< 2) } := by
  intro s hstart htoken
  change ∃ t, execCbr off s = .next t ∧ _
  unfold execCbr
  obtain ⟨hlpc, hctq, -⟩ := s.grp.advanced_spec (controlForm 8)
  refine laneRun_setsGroup hstart (by simp only [not_isEmpty htoken]; rfl) ?_
  simp only [State.grp_setGrp, State.setGrp_setGrp, laneTarget, Group.laneGoto, hctq, beq_iff_eq]
  by_cases hn : s.grp.ctq.getD 0 0 = 0
  · simp only [hn, if_true]
    rw [← show (s.grp.advanced (controlForm 8)).lpc = s.grp.lpc + 8 from hlpc]
  · simp only [hn, if_false]

theorem ccall_gives (off : Half) : GroupGives (.ccall off) (controlForm 8) (fun s _ => s.grp.frames.length < 8)
    fun s _ g => { g with
      frames := .call (s.grp.lpc + 8) :: s.grp.frames, lpc := s.grp.lpc + (off.signExtend 64 <<< 2) } := by
  intro s hstart hroom
  change ∃ t, execCcall off s = .next t ∧ _
  unfold execCcall
  obtain ⟨hlpc, -, hframes, -⟩ := s.grp.advanced_spec (controlForm 8)
  refine laneRun_setsGroup hstart (frameCheck_room hroom _) ?_
  simp only [State.grp_setGrp, State.setGrp_setGrp, laneTarget, Group.laneGoto, hframes, hlpc]
  rfl

theorem cloop_gives (off : Half) :
    GroupGives (.cloop off) (controlForm 8) (fun s _ => s.grp.frames.length < 8 ∧ s.grp.ctq ≠ [])
      fun s _ g =>
        if s.grp.ctq.getD 0 0 = 0 then { g with ctq := s.grp.ctq.drop 1, lpc := s.grp.lpc + (off.signExtend 64 <<< 2) }
        else { g with ctq := s.grp.ctq.drop 1, frames := .loop (s.grp.lpc + 8) (s.grp.ctq.getD 0 0) :: s.grp.frames } := by
  rintro s hstart ⟨hroom, htoken⟩
  change ∃ t, execCloop off s = .next t ∧ _
  unfold execCloop
  obtain ⟨hlpc, hctq, hframes, -⟩ := s.grp.advanced_spec (controlForm 8)
  refine laneRun_setsGroup hstart ?check ?effect
  case check =>
    simp only [frameCheck_room hroom, not_isEmpty htoken]
    rfl
  case effect =>
    simp only [State.grp_setGrp, State.setGrp_setGrp, laneTarget, Group.laneGoto, hctq, hframes, hlpc, beq_iff_eq]
    rfl

/-- The checks of `cret` and `cnext`: the newest frame is of their kind, or they raise the mismatch fault. -/
def cretCheck (s : State) : Check :=
  match s.grp.frames with
  | .call _ :: _ => .pass
  | _ => mismatch s
def cnextCheck (s : State) : Check :=
  match s.grp.frames with
  | .loop _ _ :: _ => .pass
  | _ => mismatch s

theorem cretCheck_call {s : State} {r : W64} {rest : List Frame} (h : s.grp.frames = .call r :: rest) :
    cretCheck s = .pass := by
  simp only [cretCheck, h]

theorem cretCheck_other {s : State} (h : ∀ r rest, s.grp.frames ≠ .call r :: rest) : cretCheck s = mismatch s := by
  unfold cretCheck
  split
  · next r rest hr => exact absurd hr (h r rest)
  · rfl

theorem cnextCheck_loop {s : State} {h : W64} {n : W32} {rest : List Frame} (hf : s.grp.frames = .loop h n :: rest) :
    cnextCheck s = .pass := by
  simp only [cnextCheck, hf]

theorem cnextCheck_other {s : State} (hf : ∀ h n rest, s.grp.frames ≠ .loop h n :: rest) : cnextCheck s = mismatch s := by
  unfold cnextCheck
  split
  · next h n rest hr => exact absurd hr (hf h n rest)
  · rfl

theorem cret_gives (r : W64) (rest : List Frame) :
    GroupGives .cret (controlForm 4) (fun s _ => s.grp.frames = .call r :: rest)
      fun _ _ g => { g with frames := rest, lpc := r } := by
  intro s hstart hframes
  change ∃ t, execCret s = .next t ∧ _
  unfold execCret
  obtain ⟨-, -, hadv, -⟩ := s.grp.advanced_spec (controlForm 4)
  refine laneRun_setsGroup (check := fun _ => cretCheck s) hstart (cretCheck_call hframes) ?_
  simp only [State.grp_setGrp, State.setGrp_setGrp, Group.laneGoto, hadv, hframes]

theorem cnext_gives (h : W64) (n : W32) (rest : List Frame) :
    GroupGives .cnext (controlForm 4) (fun s _ => s.grp.frames = .loop h n :: rest)
      fun _ _ g => if n - 1 = 0 then { g with frames := rest } else { g with frames := .loop h (n - 1) :: rest, lpc := h } := by
  intro s hstart hframes
  change ∃ t, execCnext s = .next t ∧ _
  unfold execCnext
  obtain ⟨-, -, hadv, -⟩ := s.grp.advanced_spec (controlForm 4)
  refine laneRun_setsGroup (check := fun _ => cnextCheck s) hstart (cnextCheck_loop hframes) ?_
  simp only [State.grp_setGrp, State.setGrp_setGrp, Group.laneGoto, hadv, hframes, beq_iff_eq]
  split <;> rfl

section
variable {s : State}

theorem execCcall_full {off : Half} (hstart : (controlForm 8).starts s) (hfull : 8 ≤ s.grp.frames.length) :
    execCcall off s = .next (s.setGrp (s.grp.laneFault 8 0 s.grp.active (BitVec.ofNat 64 s.grp.frames.length))) := by
  unfold execCcall
  exact laneRun_stop hstart (frameCheck_full hfull _) _

theorem execCloop_full {off : Half} (hstart : (controlForm 8).starts s) (hfull : 8 ≤ s.grp.frames.length) :
    execCloop off s = .next (s.setGrp (s.grp.laneFault 8 0 s.grp.active (BitVec.ofNat 64 s.grp.frames.length))) := by
  unfold execCloop
  exact laneRun_stop hstart (frameCheck_full hfull _) _

theorem execCret_mismatch (hstart : (controlForm 4).starts s) (h : ∀ r rest, s.grp.frames ≠ .call r :: rest) :
    execCret s = .next (s.setGrp (s.grp.laneFault 9 0 s.grp.active (BitVec.ofNat 64 s.grp.frames.length))) := by
  unfold execCret
  exact laneRun_stop hstart (cretCheck_other h) _

theorem execCnext_mismatch (hstart : (controlForm 4).starts s) (hf : ∀ h n rest, s.grp.frames ≠ .loop h n :: rest) :
    execCnext s = .next (s.setGrp (s.grp.laneFault 9 0 s.grp.active (BitVec.ofNat 64 s.grp.frames.length))) := by
  unfold execCnext
  exact laneRun_stop hstart (cnextCheck_other hf) _
end

/-- Settles O17: the transfers by their effects on the committed record, the faults by the checks before them. -/
theorem controlInstructions : Obligations.ControlInstructions := by
  refine ⟨fun off => ⟨cjmp_gives off, cbr_gives off, ccall_gives off, cloop_gives off⟩,
    fun r h n rest => ⟨cret_gives r rest, cnext_gives h n rest⟩,
    fun off s => ⟨?overflow, execCret_mismatch, execCnext_mismatch⟩⟩
  case overflow =>
    intro hstart hfull i hi
    simp only [List.mem_cons, List.not_mem_nil, or_false] at hi
    obtain rfl | rfl := hi
    · exact execCcall_full hstart hfull
    · exact execCloop_full hstart hfull

-- Joins, group end, barriers and fences of the compute stream.

section
variable {s : State} (hstart : ({ len := 4 } : LaneForm).starts s)
include hstart

theorem execJoin_meets (hw : s.grp.hartWait = some .join) :
    execJoin s = .next (s.setGrp (s.grp.advanced { len := 4 }).hartNext) := by
  unfold execJoin
  refine laneRun_commits hstart ?_ ?_
  · simp only [hw, beq_self_eq_true, if_true]
  · rw [State.grp_setGrp, State.setGrp_setGrp]

theorem execJoin_waits (hw : s.grp.hartWait ≠ some .join) : execJoin s = laneWaits s .join := by
  unfold execJoin
  exact laneRun_wait hstart (if_neg (by simpa using hw)) _

theorem execCbarArv_arrives (hflight : s.grp.laneInFlight = false)
    (hopen : s.arrivalOpen s.cur (s.barKey s.cur true true) = false) :
    execCbarArv s = .next ((s.setGrp (s.grp.advanced { len := 4 })).arrive (s.barKey s.cur true true)) := by
  unfold execCbarArv
  refine laneRun_commits hstart ?_ rfl
  rw [release_ready s .cluster _ hflight (by decide), hopen]
  rfl

/-- `cbar.wt` whose arrival, if it has one, is in a complete phase. -/
theorem execCbarWt_closed (hopen : s.arrivalOpen s.cur (s.barKey s.cur true true) = false) :
    let u := s.setGrp (s.grp.advanced { len := 4 })
    let c := s.barKey s.cur true true
    execCbarWt s = .next (if (s.grp.arrivalAt c).isSome then (u.setGrp (u.grp.setArrival c none)).l1Clear u.coreNo
      else u) := by
  intro u c
  unfold execCbarWt
  refine laneRun_commits hstart ?_ rfl
  rw [hopen]
  rfl

/-- `bbar` whose arrival is made, its phase complete. -/
theorem execBbar_arrived (hbar : s.grp.laneBar = true)
    (hopen : s.arrivalOpen s.cur (s.barKey s.cur false true) = false) :
    let u := s.setGrp (s.grp.advanced { len := 4 })
    execBbar s = .next ((u.setGrp ({ u.grp with progC := s.grp.progC, laneBar := false }.setArrival
      (s.barKey s.cur false true) none)).l1Clear u.coreNo) := by
  unfold execBbar
  refine laneRun_commits hstart ?check ?effect
  case check => simp [hbar, hopen, release_none]
  case effect => simp [hbar, State.setGrp_setGrp]

end

/-- The state in which `bbar` has arrived: its count has risen, and the arrival is its own (14 R246). -/
def State.bbarMade (s : State) : State :=
  let v := (s.setGrp { s.grp with progC := countUp s.grp.progC }).arrive (s.barKey s.cur false true)
  v.setGrp { v.grp with laneBar := true }

theorem bbarMade_notUnmade (s : State) : ¬(!s.bbarMade.grp.laneBar) = true := by
  unfold State.bbarMade
  rw [State.grp_setGrp]
  exact Bool.false_ne_true

/-- The same state, with the wait of the stream recorded. -/
theorem bbarMade_waiting (s : State) :
    let v := (s.setGrp { s.grp with progC := countUp s.grp.progC }).arrive (s.barKey s.cur false true)
    s.bbarMade.setGrp { s.bbarMade.grp with laneWait := some .blockBarrier } =
      v.setGrp { v.grp with laneBar := true, laneWait := some .blockBarrier } := by
  unfold State.bbarMade
  rw [State.grp_setGrp, State.setGrp_setGrp]

section
variable {s : State} (hstart : ({ len := 4 } : LaneForm).starts s) (hbar : s.grp.laneBar = false)
  (hflight : s.grp.laneInFlight = false) (hopen : s.arrivalOpen s.cur (s.barKey s.cur false true) = false)
include hstart hbar hflight hopen

/-- `bbar` that arrives while its phase stays incomplete. -/
theorem execBbar_waits (hwait : s.bbarMade.arrivalOpen s.cur (s.barKey s.cur false true) = true) :
    execBbar s = .next (s.bbarMade.setGrp { s.bbarMade.grp with laneWait := some .blockBarrier }) := by
  unfold execBbar
  refine laneRun_stop hstart ?_ _
  simp only [if_neg (Bool.not_eq_true _ ▸ hbar), if_neg (Bool.not_eq_true _ ▸ hopen)]
  rw [release_ready s .block _ hflight (by decide)]
  exact (if_neg (bbarMade_notUnmade s)).trans (if_pos hwait)

/-- `bbar` whose arrival completes its phase. -/
theorem execBbar_completes (hdone : s.bbarMade.arrivalOpen s.cur (s.barKey s.cur false true) = false) :
    let w := (s.setGrp (s.grp.advanced { len := 4 })).arrive (s.barKey s.cur false true)
    execBbar s = .next ((w.setGrp ({ w.grp with laneBar := false }.setArrival (s.barKey s.cur false true)
      none)).l1Clear w.coreNo) := by
  intro w
  unfold execBbar
  refine laneRun_commits hstart ?check ?effect
  case check =>
    simp only [if_neg (Bool.not_eq_true _ ▸ hbar), if_neg (Bool.not_eq_true _ ▸ hopen)]
    rw [release_ready s .block _ hflight (by decide)]
    exact (if_neg (bbarMade_notUnmade s)).trans (if_neg (Bool.not_eq_true _ ▸ hdone))
  case effect => simp only [hbar, Bool.false_eq_true, if_false, w]

end

/-- An arrival that is not outstanding is in no incomplete phase. -/
theorem arrivalOpen_none {s : State} {k bar : Nat} (h : (s.grpAt k).arrivalAt bar = none) : s.arrivalOpen k bar = false := by
  simp only [State.arrivalOpen, h]

theorem execCend_ends {s : State} (hstart : (controlForm 4).starts s) :
    let u := s.setGrp { s.grp.advanced (controlForm 4) with
      cendDone := true, frames := [], lpc := s.grp.lpc, laneWait := some .cend, laneSince := s.cycles }
    execCend s = .next (if s.grp.hartWait = some .exit then u.endGroup s.cur else u.settleGroup s.cur true) := by
  intro u
  unfold execCend
  refine laneRun_commits hstart rfl ?_
  simp only [u, State.grp_setGrp, State.setGrp_setGrp, State.setGrp_cur, beq_iff_eq]

theorem execFence_completes {k : FenceKind} {sc : Scope} {s : State} (hstart : ({ len := 8 } : LaneForm).starts s)
    (hrel : FenceKind.rel k = true → s.grp.laneInFlight = false ∧ sc ≠ .system) :
    execFence k sc s = .next (if FenceKind.acquires k then (s.setGrp (s.grp.advanced { len := 8 })).laneAcquire sc
      else s.setGrp (s.grp.advanced { len := 8 })) := by
  unfold execFence
  refine laneRun_commits hstart ?_ rfl
  cases hk : FenceKind.rel k with
  | false => rfl
  | true =>
    obtain ⟨hflight, hscope⟩ := hrel hk
    exact release_ready s sc .pass hflight hscope

/-- What a prefetch does for one fill: it keeps the translation and meters the request. -/
def State.seenFill (s : State) (f : (Nat × Nat × Nat × Bool) × TlbEntry) : State :=
  (s.keepTlb f.2).meter (s.cur % 16) f.1.2.1 128 (some f.2)

theorem keepTlb_grp (s : State) (t : TlbEntry) : (s.keepTlb t).grp = s.grp ∧ (s.keepTlb t).cur = s.cur := by
  obtain ⟨a, b, h⟩ := s.keepTlb_spec t
  rw [h]
  exact ⟨rfl, rfl⟩

theorem meter_cur (s : State) (src va n : Nat) (t : Option TlbEntry) : (s.meter src va n t).cur = s.cur := by
  unfold State.meter
  dsimp only
  split <;> rfl

/-- The acting group, its record and memory stand in another state as they stand in this one. -/
def State.SameGroup (s t : State) : Prop := t.grp = s.grp ∧ t.mem = s.mem ∧ t.cur = s.cur

theorem seenFill_same (s : State) (f : (Nat × Nat × Nat × Bool) × TlbEntry) : s.SameGroup (s.seenFill f) :=
  ⟨(meter_grp ..).trans (keepTlb_grp s f.2).1, (State.meter_mem ..).trans (s.keepTlb_mem f.2),
    (meter_cur ..).trans (keepTlb_grp s f.2).2⟩

theorem seenFills_same (l : List ((Nat × Nat × Nat × Bool) × TlbEntry)) : ∀ s : State,
    s.SameGroup (l.foldl State.seenFill s) := by
  induction l with
  | nil => exact fun s => ⟨rfl, rfl, rfl⟩
  | cons f l ih =>
    intro s
    obtain ⟨hgrp, hmem, hcur⟩ := ih (s.seenFill f)
    obtain ⟨hgrp', hmem', hcur'⟩ := seenFill_same s f
    exact ⟨hgrp.trans hgrp', hmem.trans hmem', hcur.trans hcur'⟩

/-- The state in which a prefetch has started its fills. -/
def State.prefetched (s : State) (fills : List ((Nat × Nat × Nat × Bool) × TlbEntry)) : State :=
  let v := fills.foldl State.seenFill s
  let c := v.core
  if fills.isEmpty then v else v.setCore { c with fills := c.fills ++ fills.map fun f => f.1 }

theorem prefetched_same (s : State) (fills : List ((Nat × Nat × Nat × Bool) × TlbEntry)) :
    s.SameGroup (s.prefetched fills) := by
  unfold State.prefetched
  dsimp only
  split
  · exact seenFills_same fills s
  · exact seenFills_same fills s

theorem execPrefetch_starts {l2 : Bool} {sp : Space} {a : Code} {off : Half} {s : State}
    (hstart : ({ len := 8, srcs := [src64 a] } : LaneForm).starts s) : let o : LaneForm := { len := 8, srcs := [src64 a] }
    let l := accessesOf sp off s.grp.active fun i => argAt (s.grp.vectors o.srcs) 0 i
    let fills := (l.filterMap fun x => s.prefetchFill x l2).eraseDups
    let u := (s.setGrp (s.grp.advanced o)).sample 3 1 s.grp.active l false false
    execPrefetch l2 sp a off s = .next ((u.prefetched fills).sampleDone (fills.foldl State.seenFill u).cur) := by
  intro o l fills u
  unfold execPrefetch
  exact laneRun_commits hstart rfl rfl

theorem execPrefetch_completes {l2 : Bool} {sp : Space} {a : Code} {off : Half} {s : State}
    (hstart : ({ len := 8, srcs := [src64 a] } : LaneForm).starts s) (harmed : s.grp.sampler.armed = false)
    (hpending : s.grp.sampler.pending = none) :
    ∃ t, execPrefetch l2 sp a off s = .next t ∧ t.grp = s.grp.advanced { len := 8, srcs := [src64 a] }
      ∧ ∀ key, Memory.read t.mem key = Memory.read s.mem key := by
  refine ⟨_, execPrefetch_starts hstart, ?_⟩
  obtain ⟨hsampler, -⟩ := s.grp.advanced_sampler { len := 8, srcs := [src64 a] }
  generalize (List.filterMap (fun x => s.prefetchFill x l2) _).eraseDups = fills
  generalize s.grp.advanced { len := 8, srcs := [src64 a] } = g at hsampler ⊢
  rw [State.sample_unarmed _ _ _ _ _ _ _ (by rw [State.grp_setGrp, hsampler, harmed])]
  obtain ⟨hgrp, hmem, hcur⟩ := prefetched_same (s.setGrp g) fills
  have hidle : (((s.setGrp g).prefetched fills).grpAt ((s.setGrp g).prefetched fills).cur).sampler.pending = none := by
    rw [← State.grp, hgrp, State.grp_setGrp, hsampler, hpending]
  rw [(seenFills_same fills _).2.2, ← hcur, sampleDone_none _ _ hidle]
  exact ⟨hgrp.trans (State.grp_setGrp s g), fun key => by rw [hmem]; rfl⟩

/-- Settles O20: each instruction is the course of its form, whose checks pass, wait or stop as its case says. -/
theorem joinEndBarriersAndFences : Obligations.JoinEndBarriersAndFences := by
  refine ⟨fun s => ⟨execJoin_meets, ?joinWaits, execCend_ends⟩, fun s hstart => ⟨execCbarArv_arrives hstart, ?waitArrived,
    ?waitNone, execBbar_arrived hstart, fun hbar hflight hopen => ⟨?waits, execBbar_completes hstart hbar hflight hopen⟩⟩,
    fun k sc l2 sp a off s => ⟨execFence_completes, ?l1inv, execPrefetch_completes⟩⟩
  case joinWaits =>
    intro hstart hw
    exact (execJoin_waits hstart hw).trans (laneWaits_eq s .join)
  case waitArrived =>
    intro harrived hopen
    exact (execCbarWt_closed hstart hopen).trans (congrArg _ (if_pos harrived))
  case waitNone =>
    intro hnone
    refine (execCbarWt_closed hstart (arrivalOpen_none hnone)).trans (congrArg _ (if_neg ?_))
    rw [hnone]
    exact Bool.false_ne_true
  case waits =>
    intro hwait
    exact (execBbar_waits hstart hbar hflight hopen hwait).trans (congrArg _ (bbarMade_waiting s))
  case l1inv =>
    intro hstart
    exact laneRun_commits (check := fun _ => .pass) (eff := fun _ _ t => t.l1Clear t.coreNo) hstart rfl rfl

end Sys2Proof.Machine

/-! The statements of the hart's scalar, token and feedback queue instructions, its join and its drop (05 R91, R101, R103,
R109), and of tensor addresses (05 R104, R105; 10 R169, R170). -/
namespace Sys2Proof.Machine

-- Running an instruction of the hart that may wait.

/-- A record that differs from the acting group's in its copy tokens only. -/
def State.SettlesTo (s t : State) : Prop := t.grp = { s.grp with tokens := t.grp.tokens }

theorem settlesTo_refl (s : State) : s.SettlesTo s := rfl

theorem settlesTo_settled (s : State) (reads writes : List XReg) : s.SettlesTo (s.settled reads writes) :=
  (settled_spec s reads writes).1

/-- An instruction whose meaning waits whatever tokens settle records the wait on the state as it stands. -/
theorem hartRun_held {s : State} {reads writes : List XReg} {k : State → Out} {w : HartWait}
    (h : s.hartFree (reads ++ writes)) (hk : ∀ t, s.SettlesTo t → k t = hartWaits t w) :
    hartRun s reads writes k = hartWaits s w :=
  hartRun_wait h (hk _ (settlesTo_settled s reads writes)) (waits_hartWaits _ w) (hk s (settlesTo_refl s))

section
variable {s t : State} (h : s.SettlesTo t)
include h

theorem State.SettlesTo.scq : t.grp.scq = s.grp.scq := by rw [h]
theorem State.SettlesTo.ctq : t.grp.ctq = s.grp.ctq := by rw [h]
theorem State.SettlesTo.fbq : t.grp.fbq = s.grp.fbq := by rw [h]
theorem State.SettlesTo.stq : t.grp.stq = s.grp.stq := by rw [h]
theorem State.SettlesTo.pc : t.grp.pc = s.grp.pc := by rw [h]
theorem State.SettlesTo.xr (r : XReg) : t.grp.xr r = s.grp.xr r := by rw [h]; rfl
end

theorem waits_nextRecord (s : State) (g : Group) : Out.waits (.next (s.setGrp g.hartNext)) = false := waits_setGrp s _

-- Scalars and tokens.

section
variable {s : State} {rs1 : XReg} (hfree : s.hartFree [rs1])
include hfree

theorem execZScq_room (hroom : s.grp.scq.length < 16) : let u := s.settled [rs1] []
    execZScq rs1 s = .next (u.setGrp { u.grp with scq := s.grp.scq ++ [s.grp.xr rs1] }.hartNext) := by
  intro u
  have hu : s.SettlesTo u := settlesTo_settled s [rs1] []
  unfold execZScq
  refine hartRun_eq hfree ?_ (waits_nextRecord _ _)
  simp only [u, hu.scq, hu.xr, if_neg (Nat.not_le.mpr hroom)]

theorem execZScq_full (hfull : 16 ≤ s.grp.scq.length) : execZScq rs1 s = hartWaits s .scqFull := by
  unfold execZScq
  exact hartRun_held hfree fun t ht => if_pos (by rw [ht.scq]; exact hfull)

theorem execZCtok_room (hroom : s.grp.ctq.length < 16) : let u := s.settled [rs1] []
    execZCtok rs1 s = .next (u.setGrp { u.grp with ctq := s.grp.ctq ++ [(s.grp.xr rs1).setWidth 32] }.hartNext) := by
  intro u
  have hu : s.SettlesTo u := settlesTo_settled s [rs1] []
  unfold execZCtok
  refine hartRun_eq hfree ?_ (waits_nextRecord _ _)
  simp only [u, hu.ctq, hu.xr, if_neg (Nat.not_le.mpr hroom)]

theorem execZCtok_full (hfull : 16 ≤ s.grp.ctq.length) : execZCtok rs1 s = hartWaits s .ctqFull := by
  unfold execZCtok
  exact hartRun_held hfree fun t ht => if_pos (by rw [ht.ctq]; exact hfull)

end

-- Feedback.

theorem settled_cycles (s : State) (reads writes : List XReg) : (s.settled reads writes).cycles = s.cycles :=
  (settled_same s reads writes).2.2

theorem execZFbpop_entry {s : State} {rd : XReg} {v : W64} {rest : List W64} (hfree : s.hartFree [rd])
    (hq : s.grp.fbq = v :: rest) : let u := s.settled [] [rd]
    execZFbpop rd s = .next (u.setGrp ({ u.grp.fbqReady s.cycles with fbq := rest }.setX rd v).hartNext) := by
  intro u
  have hu : u.grp.fbq = v :: rest := (settlesTo_settled s [] [rd]).fbq.trans hq
  unfold execZFbpop
  refine hartRun_eq hfree ?_ (waits_nextRecord _ _)
  simp only [u] at hu ⊢
  simp only [hu, settled_cycles]

theorem execZFbpop_empty {s : State} {rd : XReg} (hfree : s.hartFree [rd]) (hq : s.grp.fbq = []) :
    execZFbpop rd s = hartWaits s .fbqEmpty := by
  unfold execZFbpop
  exact hartRun_held hfree fun t ht => by simp only [ht.fbq, hq]

/-- The record of `z.bfb`: the entry is taken into rs1, and the pc falls through or goes to the target. -/
def Group.branched (g : Group) (cycles : Nat) (rs1 : XReg) (v a : W64) (rest : List W64) : Group :=
  let h := { g.fbqReady cycles with fbq := rest }.setX rs1 v
  if v = 0 then h.hartNext else h.hartGoto a

theorem fbqReady_pc (g : Group) (cycles : Nat) : (g.fbqReady cycles).pc = g.pc := by
  unfold Group.fbqReady Group.stallEnd
  split <;> rfl

theorem branched_spec (g : Group) (cycles : Nat) (rs1 : XReg) (v a : W64) (rest : List W64) :
    let h := g.branched cycles rs1 v a rest
    h.fbq = rest ∧ h.pc = (if v = 0 then g.pc + 4 else a) ∧ (rs1 ≠ 0 → h.xr rs1 = v) ∧ h.hartWait = none := by
  have hfbq := setX_fbq { g.fbqReady cycles with fbq := rest } rs1 v
  have hpc : ({ g.fbqReady cycles with fbq := rest }.setX rs1 v).pc = g.pc :=
    (setX_fields _ rs1 v).1.trans (fbqReady_pc g cycles)
  have hx := xr_setX_same { g.fbqReady cycles with fbq := rest } rs1 v
  by_cases hv : v = 0
  · simp only [Group.branched, hv, if_true] at *
    exact ⟨hfbq, congrArg (· + 4) hpc, hx, rfl⟩
  · simp only [Group.branched, hv, if_false] at *
    exact ⟨hfbq, rfl, hx, rfl⟩

section
variable {s : State} {rs1 : XReg} {off : BitVec 13} (hfree : s.hartFree [rs1])
include hfree

theorem execZBfb_misaligned (ha : (s.grp.pc + off.signExtend 64) % 4 ≠ 0) :
    execZBfb rs1 off s = .next ((s.settled [] [rs1]).trap 0 (s.grp.pc + off.signExtend 64)) := by
  unfold execZBfb
  refine hartRun_eq hfree ?_ (waits_trap _ _ _)
  simp only [settled_pc, low2, ha, decide_false, Bool.not_false, if_true, raise]

theorem execZBfb_empty (ha : (s.grp.pc + off.signExtend 64) % 4 = 0) (hq : s.grp.fbq = []) :
    execZBfb rs1 off s = hartWaits s .fbqEmpty := by
  unfold execZBfb
  exact hartRun_held hfree fun t ht => by
    simp only [ht.pc, ht.fbq, low2, ha, hq, decide_true, Bool.not_true, Bool.false_eq_true, if_false]

theorem execZBfb_entry {v : W64} {rest : List W64} (ha : (s.grp.pc + off.signExtend 64) % 4 = 0)
    (hq : s.grp.fbq = v :: rest) : let u := s.settled [] [rs1]
    execZBfb rs1 off s = .next (u.setGrp (u.grp.branched u.cycles rs1 v (s.grp.pc + off.signExtend 64) rest)) := by
  intro u
  have hu : u.grp.fbq = v :: rest := (settlesTo_settled s [] [rs1]).fbq.trans hq
  unfold execZBfb
  refine hartRun_eq hfree ?meaning ?goesOn
  case meaning =>
    simp only [u] at hu ⊢
    simp only [settled_pc, low2, ha, hu, decide_true, Bool.not_true, Bool.false_eq_true, if_false, beq_iff_eq,
      Group.branched]
  case goesOn =>
    rw [waits_setGrp, (branched_spec u.grp u.cycles rs1 v _ rest).2.2.2]
    rfl

end

-- The join and the drop.

/-- `z.join` whose release has passed completes with a compute stream that waits at `join`, else waits. -/
theorem execZJoin_released {s t : State} (haway : s.grp.loadsAway = false) (hwb : s.writeBackOwn = .ok t) :
    let meets := t.grp.laneWait = some .join ∧ t.grp.held = false ∧ t.grp.holdC = none
    (meets → execZJoin s = .next (t.setGrp (t.grp.laneNext 4).hartNext))
    ∧ (¬meets → execZJoin s = hartWaits t .join) := by
  intro meets
  have hexec : execZJoin s = if meets then .next (t.setGrp (t.grp.laneNext 4).hartNext) else hartWaits t .join := by
    simp only [execZJoin, haway, hwb, Bool.false_eq_true, if_false, Bool.and_eq_true, beq_iff_eq, Bool.not_eq_true',
      Option.isNone_iff_eq_none, and_assoc, meets]
  exact ⟨fun h => hexec.trans (if_pos h), fun h => hexec.trans (if_neg h)⟩

theorem writeBackOwn_clean {s : State} (hdirty : s.dirtyBy s.cur = []) (hevict : s.evicting s.coreNo = false) :
    s.writeBackOwn = .ok s := by
  simp [State.writeBackOwn, State.writeBackAll, hdirty, hevict]

/-- The entries that `z.qdrop` names: so many from the head, all of them for 0. -/
def Group.dropped (g : Group) (q : BitVec 2) (n : BitVec 4) : List LdqEntry :=
  let l := Map.get [] g.ldq q.toNat
  l.take (if n = 0 then l.length else n.toNat)

theorem execZQdrop_waits {s : State} {q : BitVec 2} {n : BitVec 4} (h : ∃ e ∈ s.grp.dropped q n, e.arrived = false) :
    execZQdrop q n s = hartWaits s .dropArrival := by
  have hany : (s.grp.dropped q n).any (fun e => !e.arrived) = true := by simpa [List.any_eq_true] using h
  simp only [Group.dropped] at hany
  simp only [execZQdrop, beq_iff_eq, hany, if_true]

theorem execZQdrop_drops {s : State} {q : BitVec 2} {n : BitVec 4} (h : ∀ e ∈ s.grp.dropped q n, e.arrived = true) :
    let l := Map.get [] s.grp.ldq q.toNat
    let k := if n = 0 then l.length else n.toNat
    execZQdrop q n s = .next (s.setGrp { s.grp with
      ldq := s.grp.ldq.set q.toNat (l.drop k), runAhead := s.grp.runAhead - (l.take k).length }.hartNext) := by
  intro l k
  have hany : (s.grp.dropped q n).any (fun e => !e.arrived) = false := by simpa [List.any_eq_false] using h
  simp only [Group.dropped] at hany
  simp only [execZQdrop, beq_iff_eq, hany, Bool.false_eq_true, if_false, l, k]

/-- Settles O35: each instruction by its queue's room or entry, on the settled state. -/
theorem hartQueueScalars : Obligations.HartQueueScalars := by
  intro rd rs1 off q n s
  refine ⟨fun h => ?push, fun h => ?fbpop, fun h => ?bfb, fun t => execZJoin_released, writeBackOwn_clean,
    execZQdrop_waits, execZQdrop_drops⟩
  case push => exact ⟨execZScq_room h, execZScq_full h, execZCtok_room h, execZCtok_full h⟩
  case fbpop => exact ⟨fun v rest => execZFbpop_entry h, execZFbpop_empty h⟩
  case bfb =>
    refine ⟨execZBfb_misaligned h, execZBfb_empty h, fun v rest ha hq => ⟨_, execZBfb_entry h ha hq, OnlyGroup.setGrp _ _, ?_⟩⟩
    obtain ⟨hfbq, hpc, hx, -⟩ := branched_spec (s.settled [] [rs1]).grp (s.settled [] [rs1]).cycles rs1 v
      (s.grp.pc + off.signExtend 64) rest
    rw [settled_pc] at hpc
    rw [State.grp_setGrp]
    exact ⟨hfbq, hpc, hx⟩

-- Tensor addresses.

/-- A hart fault without a translation, of no uncorrectable word, is its trap. -/
theorem hartFault_trap (s : State) (need : Need) {cause : Nat} (val : W64) (h : cause ≠ 29) :
    s.hartFault need ⟨cause, val, none⟩ = s.trap cause val := by
  simp [State.hartFault, h]

theorem readRecord_misaligned {s : State} {a : W64} (c : Int) (unread : Nat) (bad : Rec → Bool) (h : a.toNat % 64 ≠ 0) :
    s.readRecord a c unread bad = .fault ⟨5, a, none⟩ := by
  simp [State.readRecord, h]

/-- A record in the block's own scratch, off poisoned words, is read there and checked. -/
theorem readRecord_scratch {s : State} {a : W64} (c : Int) (unread : Nat) (h : a.toNat / 2 ^ 56 = 0xF0)
    (hal : a.toNat % 64 = 0) (hb : (a &&& 0x00FFFFFFFFFFFFFF).toNat + 64 ≤ s.blk.scratch)
    (hnet : ∀ m ∈ s.net, m.src ≠ s.cur) (hl : s.grp.loadsAway = false)
    (hp : s.poisoned (scratchKey s.grp.blk (a &&& 0x00FFFFFFFFFFFFFF).toNat) 64 = false) :
    let key := scratchKey s.grp.blk (a &&& 0x00FFFFFFFFFFFFFF).toNat
    let r := Rec.ofBytes (s.bytes key 64)
    s.readRecord a c unread = if r.ok c then .ok r (s.hartSeen key 64 none none) else .fault ⟨5, a, none⟩ := by
  intro key r
  have hspace : recSpace a = true := by unfold recSpace; rw [h]; decide
  simp only [State.readRecord, hal, hspace, bne_self_eq_false, Bool.not_true, Bool.false_eq_true, if_false,
    readBytes_scratch s a 64 unread unread (by omega) h hb hnet hp hl, r, key]

/-- The instructions that name a coordinate pair run, where the pair is one, as any other. -/
theorem withPair_eq {s : State} {rs1 rs2 : XReg} {reads writes : List XReg} {k : State → W64 → W64 → Out} (h : rs2 ≠ 31) :
    withPair s rs1 rs2 reads writes k =
      hartRun s (rs1 :: rs2 :: (rs2 + 1) :: reads) writes fun t => k t (t.grp.xr rs2) (t.grp.xr (rs2 + 1)) :=
  if_neg (by simpa using h)

theorem withPair_illegal {s : State} {rs1 rs2 : XReg} {reads writes : List XReg} {k : State → W64 → W64 → Out}
    (h : rs2 = 31) : withPair s rs1 rs2 reads writes k = illegal s := if_pos (by simpa using h)

theorem execZTadr_eq {rd rs1 rs2 : XReg} (s : State) (h : rs2 ≠ 31) :
    execZTadr rd rs1 rs2 s = hartRun s [rs1, rs2, rs2 + 1] [rd] fun t =>
      let c := coordsOf (t.grp.xr rs2) (t.grp.xr (rs2 + 1))
      match t.readRecord (t.grp.xr rs1) (c.getD 0 0) 5 with
      | .wait w => hartWaits t w
      | .fault f => .next (t.hartFault .read f)
      | .ok r v => .next (v.hartDone rd (r.address c)) := by
  unfold execZTadr
  exact withPair_eq h

theorem execZTadr_illegal {rd rs1 rs2 : XReg} {s : State} (h : rs2 = 31) : execZTadr rd rs1 rs2 s = illegal s := by
  unfold execZTadr
  exact withPair_illegal h

section
variable {s : State} {rd rs1 rs2 : XReg} (hpair : rs2 ≠ 31) (hfree : s.hartFree [rs1, rs2, rs2 + 1, rd])
include hpair hfree

theorem execZTadr_ok {r : Rec} {t : State} : let u := s.settled [rs1, rs2, rs2 + 1] [rd]
    let c := coordsOf (s.grp.xr rs2) (s.grp.xr (rs2 + 1))
    u.readRecord (s.grp.xr rs1) (c.getD 0 0) 5 = .ok r t →
    execZTadr rd rs1 rs2 s = .next (t.hartDone rd (r.address c)) := by
  intro u c hr
  rw [execZTadr_eq s hpair]
  refine hartRun_eq (reads := [rs1, rs2, rs2 + 1]) (writes := [rd]) hfree ?_ (waits_hartDone _ _ _)
  simp only [settled_xr]
  rw [hr]

theorem execZTadr_fault {f : HartFault} : let u := s.settled [rs1, rs2, rs2 + 1] [rd]
    let c := coordsOf (s.grp.xr rs2) (s.grp.xr (rs2 + 1))
    u.readRecord (s.grp.xr rs1) (c.getD 0 0) 5 = .fault f →
    execZTadr rd rs1 rs2 s = .next (u.hartFault .read f) := by
  intro u c hr
  rw [execZTadr_eq s hpair]
  refine hartRun_eq (reads := [rs1, rs2, rs2 + 1]) (writes := [rd]) hfree ?_ (waits_fault _ _ _)
  simp only [settled_xr]
  rw [hr]
end

theorem settled_loadsAway (s : State) (reads writes : List XReg) :
    (s.settled reads writes).grp.loadsAway = s.grp.loadsAway := by
  rw [(settled_spec s reads writes).1]
  rfl

/-- The read of a record in scratch by the settled state is that of the state itself. -/
theorem settled_readRecord_scratch {s : State} {a : W64} (reads writes : List XReg) (c : Int) (unread : Nat)
    (h : a.toNat / 2 ^ 56 = 0xF0) (hal : a.toNat % 64 = 0) (hb : (a &&& 0x00FFFFFFFFFFFFFF).toNat + 64 ≤ s.blk.scratch)
    (hnet : ∀ m ∈ s.net, m.src ≠ s.cur) (hl : s.grp.loadsAway = false)
    (hp : s.poisoned (scratchKey s.grp.blk (a &&& 0x00FFFFFFFFFFFFFF).toNat) 64 = false) :
    let u := s.settled reads writes
    let key := scratchKey s.grp.blk (a &&& 0x00FFFFFFFFFFFFFF).toNat
    let r := Rec.ofBytes (s.bytes key 64)
    u.readRecord a c unread = if r.ok c then .ok r (u.hartSeen key 64 none none) else .fault ⟨5, a, none⟩ := by
  intro u key r
  obtain ⟨hblk, hgblk⟩ := settled_blk s reads writes
  have hbytes : u.bytes key 64 = s.bytes key 64 := congrArg (Memory.bytes · key 64) (settled_mem s reads writes)
  have hread := readRecord_scratch (s := u) c unread h hal (by rw [hblk]; exact hb)
    (by rw [settled_net, settled_cur]; exact hnet) ((settled_loadsAway s reads writes).trans hl)
    (by rw [hgblk, (settled_poison s reads writes _ _).1]; exact hp)
  rw [hgblk] at hread
  rw [hread, hbytes]

/-- c0 wraps where the extent is not 0 and c0 has reached it (05 R105). -/
theorem wraps_iff (e0 c0 : W32) : (e0 != 0 && !c0.slt e0) = decide (e0 ≠ 0 ∧ e0.toInt ≤ c0.toInt) := by
  rw [Bool.eq_iff_iff]
  simp [BitVec.slt]

theorem execZTadv_advances {s : State} {rd rs1 rs2 : XReg} (hfree : s.hartFree [rs1, rs2, rd]) :
    let a := s.grp.xr rs1
    let b := s.grp.xr rs2
    let c0 : W32 := a.setWidth 32 + (b.extractLsb' 0 16).signExtend 32
    let c1 : W32 := a.extractLsb' 32 32
    let e0 : W32 := (b.extractLsb' 16 16).setWidth 32
    execZTadv rd rs1 rs2 s = .next ((s.settled [rs1, rs2] [rd]).hartDone rd
      (if e0 ≠ 0 ∧ e0.toInt ≤ c0.toInt then (c1 + (b.extractLsb' 32 16).signExtend 32) ++ (c0 - e0) else c1 ++ c0)) := by
  intro a b c0 c1 e0
  unfold execZTadv
  refine hartRun_eq (reads := [rs1, rs2]) hfree ?_ (waits_hartDone _ _ _)
  simp only [settled_xr, wraps_iff, decide_eq_true_eq, a, b, c0, c1, e0]
  split <;> rfl

/-- Settles O37: the record's read decides between its trap and its address; the advance is a result. -/
theorem tensorAddressesComplete : Obligations.TensorAddressesComplete := by
  intro rd rs1 rs2 s
  refine ⟨execZTadr_illegal, fun hpair hfree => ⟨fun r t => execZTadr_ok hpair hfree, ?misaligned, ?scratch⟩, execZTadv_advances⟩
  case misaligned =>
    intro ha
    exact (execZTadr_fault hpair hfree (readRecord_misaligned _ _ _ ha)).trans
      (congrArg _ (hartFault_trap _ _ _ (by decide)))
  case scratch =>
    intro hspace hal hb hnet hl hp
    have hread := settled_readRecord_scratch [rs1, rs2, rs2 + 1] [rd]
      ((coordsOf (s.grp.xr rs2) (s.grp.xr (rs2 + 1))).getD 0 0) 5 hspace hal hb hnet hl hp
    refine ⟨fun hbad => ?_, fun hok => ?_⟩
    · have hfault := hread.trans (if_neg (Bool.not_eq_true _ ▸ hbad))
      exact (execZTadr_fault hpair hfree hfault).trans (congrArg _ (hartFault_trap _ _ _ (by decide)))
    · have hread := hread.trans (if_pos hok)
      refine ⟨_, execZTadr_ok hpair hfree hread, ?_, fun b => ?_⟩
      · rw [(hartDone_spec _ _ _).2.2, (hartSeen_spec ..).1]
      · rw [(hartDone_spec _ _ _).1.2.2, (hartSeen_spec ..).2, settled_mem]

end Sys2Proof.Machine

/-! The statement of the hart's queue loads and stores (05 R90-R100; 14 R251). -/
namespace Sys2Proof.Machine

-- Queue loads: room, the wait, the fault, the entry.

/-- Whether a queue load may be issued (05 R90). -/
def Group.queueRoom (g : Group) (q : Nat) : Prop := g.runAhead < g.slip ∧ g.qlen q < 8

/-- The state in which a gathered load has put its entry into its queue. -/
def Gather.pushed (g : Gather) (nf : Bool) (q : Nat) : State :=
  g.state.setGrp (g.state.grp.pushLdq q { g.entry with arrived := !nf && g.global && g.entry.wants.isEmpty }).hartNext

section
variable {s : State} {q : Nat} {d : LoadDesc} (hroom : s.grp.queueRoom q) (hwait : (s.makeLoad d).wait = none)
include hroom hwait

theorem queueLoad_nf : queueLoad s true q d = .next ((s.makeLoad d).pushed true q) := by
  rw [queueLoad_room hroom hwait]
  rfl

theorem queueLoad_ordinary (hfault : (s.makeLoad d).precise = none) :
    queueLoad s false q d = .next ((s.makeLoad d).pushed false q) := by
  rw [queueLoad_room hroom hwait]
  simp only [hfault, Bool.false_eq_true, if_false]
  rfl

theorem queueLoad_fault {f : HartFault} (hfault : (s.makeLoad d).precise = some f) :
    queueLoad s false q d = .next (s.hartFault .read f) := by
  rw [queueLoad_room hroom hwait]
  simp only [hfault, Bool.false_eq_true, if_false]
end

theorem State.SettlesTo.queueRoom {s t : State} (h : s.SettlesTo t) (q : Nat) :
    t.grp.queueRoom q ↔ s.grp.queueRoom q := by
  rw [h]
  rfl

/-- What an ordinary queue load and its `.nf` form, with their registers free, answer of the load `d`. -/
theorem hartRun_queueLoad {s : State} {reads : List XReg} {q : Nat} {d : LoadDesc} {desc : State → LoadDesc}
    (hfree : s.hartFree (reads ++ [])) (hdesc : ∀ t, s.SettlesTo t → desc t = d) :
    let u := s.settled reads []
    let run := fun nf => hartRun s reads [] fun t => queueLoad t nf q (desc t)
    (s.grp.queueRoom q → (u.makeLoad d).wait = none → run true = .next ((u.makeLoad d).pushed true q)
      ∧ ((u.makeLoad d).precise = none → run false = .next ((u.makeLoad d).pushed false q))
      ∧ ∀ f, (u.makeLoad d).precise = some f → run false = .next (u.hartFault .read f))
    ∧ (¬s.grp.queueRoom q → run false = hartWaits s (.queueLoad q) ∧ run true = hartWaits s (.queueLoad q)) := by
  intro u run
  have hsettles : s.SettlesTo u := settlesTo_settled s reads []
  have hd : desc u = d := hdesc u hsettles
  refine ⟨fun hroom hwait => ?room, fun hroom => ?full⟩
  case room =>
    have hroom : u.grp.queueRoom q := (hsettles.queueRoom q).mpr hroom
    refine ⟨?nf, fun hfault => ?ordinary, fun f hfault => ?fault⟩
    case nf => exact hartRun_eq hfree (by rw [hd]; exact queueLoad_nf hroom hwait) (waits_nextRecord _ _)
    case ordinary => exact hartRun_eq hfree (by rw [hd]; exact queueLoad_ordinary hroom hwait hfault) (waits_nextRecord _ _)
    case fault => exact hartRun_eq hfree (by rw [hd]; exact queueLoad_fault hroom hwait hfault) (waits_fault _ _ _)
  case full =>
    have hheld : ∀ nf, run nf = hartWaits s (.queueLoad q) := fun nf =>
      hartRun_held hfree fun t ht => queueLoad_full fun h => hroom ((ht.queueRoom q).mp h)
    exact ⟨hheld false, hheld true⟩

/-- A load makes its entry without changing the acting group's record or a byte of memory. -/
theorem makeLoad_settled (s : State) (reads : List XReg) (d : LoadDesc) : let u := s.settled reads []
    (u.makeLoad d).state.grp = u.grp ∧ ∀ a, Memory.read (u.makeLoad d).state.mem a = Memory.read s.mem a := by
  intro u
  obtain ⟨hgrp, hmem⟩ := makeLoad_state u d
  exact ⟨hgrp, fun a => by rw [hmem, settled_mem]⟩

/-- What the queue loads of a tensor answer where their coordinates are a pair. -/
theorem execZLdqt_eq {q : BitVec 2} {rs1 rs2 : XReg} (s : State) (h : rs2 ≠ 31) :
    let run := fun nf => hartRun s [rs1, rs2, rs2 + 1] [] fun t =>
      queueLoad t nf q.toNat (.tensor (t.grp.xr rs1) (t.grp.xr rs2) (t.grp.xr (rs2 + 1)))
    execZLdqt q rs1 rs2 s = run false ∧ execZLdqtNf q rs1 rs2 s = run true := by
  unfold execZLdqt execZLdqtNf
  exact ⟨withPair_eq h, withPair_eq h⟩

theorem execZLdqt_illegal {q : BitVec 2} {rs1 rs2 : XReg} {s : State} (h : rs2 = 31) :
    execZLdqt q rs1 rs2 s = illegal s ∧ execZLdqtNf q rs1 rs2 s = illegal s := by
  unfold execZLdqt execZLdqtNf
  exact ⟨withPair_illegal h, withPair_illegal h⟩

-- A queue load from the block's own scratch.

/-- The address of lane `i` of a strided load or store, and its key in scratch. -/
def Group.strideAt (g : Group) (rs1 rs2 : XReg) (i : Nat) : W64 := g.xr rs1 + BitVec.ofNat 64 i * g.xr rs2
def Group.scratchAt (g : Group) (a : W64) : Nat := scratchKey g.blk (a &&& 0x00FFFFFFFFFFFFFF).toNat

/-- The value of an element that lies in scratch. -/
def State.scratchValue (s : State) (e : Elem) : Nat :=
  match e.at? with
  | .ok a => laneValue e.n e.sext (leNat (s.bytes (s.grp.scratchAt a) e.n))
  | .error v => v

/-- Whether `n` bytes at an address lie aligned in the acting block's own scratch, off poisoned words. -/
def State.inScratch (s : State) (a : W64) (n : Nat) : Prop :=
  a.toNat / 2 ^ 56 = 0xF0 ∧ a.toNat % n = 0 ∧ (a &&& 0x00FFFFFFFFFFFFFF).toNat + n ≤ s.blk.scratch
    ∧ s.poisoned (s.grp.scratchAt a) n = false

theorem inScratch_settled {s : State} {a : W64} {n : Nat} (reads writes : List XReg) (h : s.inScratch a n) :
    (s.settled reads writes).inScratch a n := by
  obtain ⟨hspace, hal, hb, hp⟩ := h
  obtain ⟨hblk, hgblk⟩ := settled_blk s reads writes
  refine ⟨hspace, hal, by rw [hblk]; exact hb, ?_⟩
  rw [Group.scratchAt, hgblk, (settled_poison s reads writes _ _).1]
  exact hp

/-- The elements of a strided load in scratch, one to a lane: their values, and nothing waited for, wanted or poisoned. -/
theorem makeLoad_scratch {s : State} {ty : LdqTy} {a b : W64} (hone : (LdqTy.shape ty).2.1 = 1)
    (hnet : ∀ m ∈ s.net, m.src ≠ s.cur) (hl : s.grp.loadsAway = false)
    (hin : ∀ i, i < 64 → s.inScratch (a + BitVec.ofNat 64 i * b) (LdqTy.shape ty).1) :
    let g := s.makeLoad (.plain a b ty)
    g.wait = none ∧ g.precise = none ∧ g.entry.poison = false ∧ g.entry.wants = []
    ∧ ∀ i, i < 64 → g.entry.data.getD i 0 = BitVec.ofNat 64 (laneValue (LdqTy.shape ty).1 (LdqTy.shape ty).2.2.1
        (leNat (s.bytes (s.grp.scratchAt (a + BitVec.ofNat 64 i * b)) (LdqTy.shape ty).1))) := by
  have hvalue : ∀ e ∈ stridedElems ty a b, ∃ k, s.elemFate e = .value (s.scratchValue e) k := by
    rw [stridedElems_one ty a b hone]
    intro e he
    obtain ⟨i, hi, rfl⟩ := List.mem_map.mp he
    obtain ⟨hspace, hal, hb, hp⟩ := hin i (List.mem_range.mp hi)
    exact elemFate_scratch s _ _ rfl (ldq_pos ty) hspace hal hb hnet hp hl
  obtain ⟨hwait, hprecise, hpoison, hwants, hdata⟩ :=
    gather_values s (LdqTy.shape ty).2.2.2 (.plain a b ty) (stridedElems ty a b) s.scratchValue hvalue
  refine ⟨hwait, hprecise, hpoison, hwants, fun i hi => ?_⟩
  change (s.gather (LdqTy.shape ty).2.2.2 (.plain a b ty) (stridedElems ty a b)).entry.data.getD i 0 = _
  rw [hdata, lanes_getD _ _ _ hi, stridedElems_one ty a b hone, List.foldl_map]
  refine (foldl_one i 64 hi (fun k acc => acc ||| BitVec.ofNat 64 (s.scratchValue
    ⟨k, 0, .ok (a + BitVec.ofNat 64 k * b), (LdqTy.shape ty).1, (LdqTy.shape ty).2.2.1⟩ * 2 ^ 0)) 0).trans ?_
  simp [State.scratchValue]

/-- The same of the entry that a strided load of the state `s` makes, once its registers are settled. -/
theorem makeLoad_settled_scratch {s : State} {ty : LdqTy} {rs1 rs2 : XReg} (hone : (LdqTy.shape ty).2.1 = 1)
    (hnet : ∀ m ∈ s.net, m.src ≠ s.cur) (hl : s.grp.loadsAway = false)
    (hin : ∀ i, i < 64 → s.inScratch (s.grp.strideAt rs1 rs2 i) (LdqTy.shape ty).1) :
    let g := (s.settled [rs1, rs2] []).makeLoad (.plain (s.grp.xr rs1) (s.grp.xr rs2) ty)
    g.wait = none ∧ g.precise = none ∧ g.entry.poison = false ∧ g.entry.wants = []
    ∧ ∀ i, i < 64 → g.entry.data.getD i 0 = BitVec.ofNat 64 (laneValue (LdqTy.shape ty).1 (LdqTy.shape ty).2.2.1
        (leNat (s.bytes (s.grp.scratchAt (s.grp.strideAt rs1 rs2 i)) (LdqTy.shape ty).1))) := by
  have hnet' : ∀ m ∈ (s.settled [rs1, rs2] []).net, m.src ≠ (s.settled [rs1, rs2] []).cur := by
    rw [settled_net, settled_cur]; exact hnet
  obtain ⟨hwait, hprecise, hpoison, hwants, hdata⟩ := makeLoad_scratch hone hnet'
    ((settled_loadsAway s [rs1, rs2] []).trans hl) fun i hlt => inScratch_settled _ _ (hin i hlt)
  refine ⟨hwait, hprecise, hpoison, hwants, fun i hlt => (hdata i hlt).trans ?_⟩
  rw [State.bytes, settled_mem, Group.scratchAt, (settled_blk s [rs1, rs2] []).2]
  rfl

-- Queue stores.

/-- The accesses of a queue store of an entry, by lane. -/
def StqEntry.accesses (e : StqEntry) (addr : Nat → Option W64) : List LaneAccess :=
  (activeLanes e.mask).filterMap fun i => (addr i).map fun a => ⟨i, a, a⟩

/-- The bytes that lane `i` of an entry stores. -/
def StqEntry.bytesOf (e : StqEntry) (n i : Nat) : List Byte := leBytes n (e.data.getD i 0).toNat

/-- The near stores of an entry performed and its posted requests sent, as far as the journal takes them. -/
def State.storeEntry (s : State) (e : StqEntry) (n size : Nat) (l : List LaneAccess) : State × List Posting :=
  (s.putElems n (e.bytesOf n) (l.filter fun x => !s.postedAt x.addr)).sendPosts
    ((s.requests (e.bytesOf n) l).map fun r => r.posting size 1 false)

/-- The state past a queue store: its entry has left stq. -/
def State.stqTaken (s : State) : State := s.setGrp { s.grp with stq := s.grp.stq.drop 1, hartSend := none }.hartNext

theorem queueStore_taken {s : State} {n size : Nat} {e : StqEntry} {addr : Nat → Option W64} (h0 : s.grp.hartSend = none)
    (hfate : s.storeFate n (e.accesses addr) = none) (hwait : s.storeWait n (e.accesses addr) = none)
    (hsent : (s.storeEntry e n size (e.accesses addr)).2 = []) :
    queueStore s n size e addr = .next (s.storeEntry e n size (e.accesses addr)).1.stqTaken :=
  queueStore_goes s n size e addr h0 hfate hwait hsent

/-- The log2 of an element's bytes. -/
def StqTy.log : StqTy → Nat
  | .n8 => 0
  | .n16 => 1
  | .n32 => 2

theorem execZStq_eq (ty : StqTy) (rs1 rs2 : XReg) (s : State) : execZStq ty rs1 rs2 s =
    hartRun s [rs1, rs2] [] fun t => withStq t fun e =>
      queueStore t (2 ^ StqTy.log ty) (StqTy.log ty) e fun i => some (t.grp.strideAt rs1 rs2 i) := by
  cases ty <;> rfl

theorem State.SettlesTo.strideAt {s t : State} (h : s.SettlesTo t) (rs1 rs2 : XReg) :
    t.grp.strideAt rs1 rs2 = s.grp.strideAt rs1 rs2 := by
  rw [h]
  rfl

theorem State.SettlesTo.hartSend {s t : State} (h : s.SettlesTo t) : t.grp.hartSend = s.grp.hartSend := by rw [h]

theorem execZStq_empty {ty : StqTy} {rs1 rs2 : XReg} {s : State} (hfree : s.hartFree [rs1, rs2]) (hq : s.grp.stq = []) :
    execZStq ty rs1 rs2 s = hartWaits s .stqEmpty := by
  rw [execZStq_eq]
  exact hartRun_held hfree fun t ht => by simp only [withStq, ht.stq, hq]

theorem execZStq_stores {ty : StqTy} {rs1 rs2 : XReg} {s : State} {e : StqEntry} {rest : List StqEntry}
    (hfree : s.hartFree [rs1, rs2]) (hsend : s.grp.hartSend = none) (hq : s.grp.stq = e :: rest) :
    let u := s.settled [rs1, rs2] []
    let n := 2 ^ StqTy.log ty
    let l := e.accesses fun i => some (s.grp.strideAt rs1 rs2 i)
    u.storeFate n l = none → u.storeWait n l = none → (u.storeEntry e n (StqTy.log ty) l).2 = [] →
    execZStq ty rs1 rs2 s = .next (u.storeEntry e n (StqTy.log ty) l).1.stqTaken := by
  intro u n l hfate hwait hsent
  have hu : s.SettlesTo u := settlesTo_settled s [rs1, rs2] []
  rw [execZStq_eq]
  refine hartRun_eq hfree ?_ (waits_nextRecord _ _)
  rw [withStq_cons (hu.stq.trans hq), hu.strideAt]
  exact queueStore_taken (hu.hartSend.trans hsend) hfate hwait hsent

/-- A record that a queue store of a slice rejects (05 R100). -/
def stqtBad (r : Rec) : Bool := r.fmt < 25 && (!r.slices || r.w == 64)

/-- The log2 of the bytes of a slice's element. -/
def Rec.log (r : Rec) : Nat := if r.w = 8 then 0 else if r.w = 16 then 1 else 2

/-- The address of lane `i` of a slice, none outside the tensor. -/
def Rec.sliceAt (r : Rec) (c : List Int) (i : Nat) : Option W64 :=
  if r.inside (sliceCoords r c i) then some (r.address (sliceCoords r c i)) else none

/-- What a queue store of a slice does with the head of stq. -/
def stqtDoes (s : State) (rs1 rs2 : XReg) (e : StqEntry) : Out :=
  let c := coordsOf (s.grp.xr rs2) (s.grp.xr (rs2 + 1))
  match s.readRecord (s.grp.xr rs1) (c.getD 0 0) 7 stqtBad with
  | .wait w => hartWaits s w
  | .fault f => .next (s.hartFault .read f)
  | .ok r t =>
    if !r.sliceSpace then raise s 5 (s.grp.xr rs1)
    else queueStore t (r.w / 8) r.log e (r.sliceAt c)

theorem execZStqt_eq {rs1 rs2 : XReg} (s : State) (h : rs2 ≠ 31) : execZStqt rs1 rs2 s =
    hartRun s [rs1, rs2, rs2 + 1] [] fun t => withStq t (stqtDoes t rs1 rs2) := by
  unfold execZStqt
  rw [withPair_eq h]
  simp only [beq_iff_eq]
  rfl

theorem execZStqt_illegal {rs1 rs2 : XReg} {s : State} (h : rs2 = 31) : execZStqt rs1 rs2 s = illegal s := by
  unfold execZStqt
  exact withPair_illegal h

section
variable {s : State} {rs1 rs2 : XReg} {e : StqEntry} {rest : List StqEntry} (hpair : rs2 ≠ 31)
  (hfree : s.hartFree [rs1, rs2, rs2 + 1]) (hq : s.grp.stq = e :: rest)
include hpair hfree hq

theorem execZStqt_head {o : Out} (hdo : stqtDoes (s.settled [rs1, rs2, rs2 + 1] []) rs1 rs2 e = o)
    (hw : Out.waits o = false) : execZStqt rs1 rs2 s = o := by
  rw [execZStqt_eq s hpair]
  refine hartRun_eq hfree ?_ hw
  rw [withStq_cons ((settlesTo_settled s _ _).stq.trans hq)]
  exact hdo

theorem execZStqt_fault {f : HartFault} : let u := s.settled [rs1, rs2, rs2 + 1] []
    let c := coordsOf (s.grp.xr rs2) (s.grp.xr (rs2 + 1))
    u.readRecord (s.grp.xr rs1) (c.getD 0 0) 7 stqtBad = .fault f → execZStqt rs1 rs2 s = .next (u.hartFault .read f) := by
  intro u c hr
  refine execZStqt_head hpair hfree hq ?_ (waits_fault _ _ _)
  simp only [stqtDoes, settled_xr]
  rw [hr]

section
variable {r : Rec} {t : State} (hr : (s.settled [rs1, rs2, rs2 + 1] []).readRecord (s.grp.xr rs1)
  ((coordsOf (s.grp.xr rs2) (s.grp.xr (rs2 + 1))).getD 0 0) 7 stqtBad = .ok r t)
include hr

theorem execZStqt_space (hspace : r.sliceSpace = false) :
    execZStqt rs1 rs2 s = .next ((s.settled [rs1, rs2, rs2 + 1] []).trap 5 (s.grp.xr rs1)) := by
  refine execZStqt_head hpair hfree hq ?_ (waits_trap _ _ _)
  simp only [stqtDoes, settled_xr]
  rw [hr]
  simp only [hspace, Bool.not_false, if_true, raise]

theorem execZStqt_stores (hsend : s.grp.hartSend = none) (hspace : r.sliceSpace = true) :
    let l := e.accesses (r.sliceAt (coordsOf (s.grp.xr rs2) (s.grp.xr (rs2 + 1))))
    t.storeFate (r.w / 8) l = none → t.storeWait (r.w / 8) l = none → (t.storeEntry e (r.w / 8) r.log l).2 = [] →
    execZStqt rs1 rs2 s = .next (t.storeEntry e (r.w / 8) r.log l).1.stqTaken := by
  intro l hfate hwait hsent
  have hsend : t.grp.hartSend = none := by
    rw [(readRecord_state hr).1, (settlesTo_settled s _ _).hartSend, hsend]
  refine execZStqt_head hpair hfree hq ?_ (waits_nextRecord _ _)
  simp only [stqtDoes, settled_xr]
  rw [hr]
  simp only [hspace, Bool.not_true, Bool.false_eq_true, if_false]
  exact queueStore_taken hsend hfate hwait hsent
end
end

-- A queue store to the block's own scratch.

/-- Whether `n` bytes at an address may be stored in the acting block's own scratch. -/
def State.storesInScratch (s : State) (a : W64) (n : Nat) : Prop :=
  a.toNat / 2 ^ 56 = 0xF0 ∧ a.toNat % n = 0 ∧ (a &&& 0x00FFFFFFFFFFFFFF).toNat + n ≤ s.blk.scratch
    ∧ s.fencedKey (s.grp.scratchAt a) = false

theorem storesInScratch_settled {s : State} {a : W64} {n : Nat} (reads writes : List XReg) (h : s.storesInScratch a n) :
    (s.settled reads writes).storesInScratch a n := by
  obtain ⟨hspace, hal, hb, hf⟩ := h
  obtain ⟨hblk, hgblk⟩ := settled_blk s reads writes
  refine ⟨hspace, hal, by rw [hblk]; exact hb, ?_⟩
  rw [Group.scratchAt, hgblk, (settled_poison s reads writes _ n).2]
  exact hf

section
variable {s : State} {n : Nat} {l : List LaneAccess} (hn : 0 < n) (hnet : ∀ m ∈ s.net, m.src ≠ s.cur)
  (hl : s.grp.loadsAway = false) (hin : ∀ x ∈ l, s.storesInScratch x.addr n)
include hn hnet hl hin

theorem hartReach_store {x : LaneAccess} (hx : x ∈ l) :
    s.hartReach x.addr n .write false false = .home (s.grp.scratchAt x.addr) none none := by
  obtain ⟨hspace, hal, hb, hf⟩ := hin x hx
  exact hartReach_scratch s x.addr n .write false false hn hspace hal hb hnet hf (fun h => absurd rfl h) hl

theorem storeFate_scratch : s.storeFate n l = none := by
  unfold State.storeFate
  rw [List.findSome?_eq_none_iff]
  intro x hx
  rw [hartReach_store hn hnet hl hin hx]

theorem storeWait_scratch : s.storeWait n l = none := by
  unfold State.storeWait
  rw [hl, Bool.false_and, if_neg Bool.false_ne_true, List.findSome?_eq_none_iff]
  intro x hx
  rw [hartReach_store hn hnet hl hin hx]

omit hn hnet hl in
theorem notPosted_scratch (hn : 0 < n) : ∀ x ∈ l, s.postedAt x.addr = false := by
  intro x hx
  obtain ⟨hspace, -, hb, -⟩ := hin x hx
  exact posted_scratch s x.addr hspace (by omega)

omit hnet hl in
theorem storeEntry_scratch (e : StqEntry) (size : Nat) :
    s.storeEntry e n size l = (s.putElems n (e.bytesOf n) l, []) := by
  have hnear := notPosted_scratch hin hn
  unfold State.storeEntry
  rw [requests_none s _ _ hnear, List.filter_eq_self.mpr fun x hx => by rw [hnear x hx]; rfl]
  rfl

/-- Stores to scratch leave every byte that none of them names. -/
theorem putElems_read (e : StqEntry) (hi : Inv s) : Kept s (s.putElems n (e.bytesOf n) l)
    ∧ ∀ b, (∀ x ∈ l, b < s.grp.scratchAt x.addr ∨ s.grp.scratchAt x.addr + n ≤ b) →
      Memory.read (s.putElems n (e.bytesOf n) l).mem b = Memory.read s.mem b := by
  have hlen : ∀ i, (e.bytesOf n i).length = n := fun i => leBytes_length n _
  obtain ⟨hkept, hmem⟩ := putElems_scratch n (e.bytesOf n) hn hlen l s hnet hl hin
  refine ⟨hkept, fun b hb => ?_⟩
  rw [hmem]
  exact (read_folds n (fun x : LaneAccess => s.grp.scratchAt x.addr) (fun x => e.bytesOf n x.lane) (fun x => hlen x.lane) l
    s.mem hi).2 b hb
end

theorem mem_accesses {e : StqEntry} {at_ : Nat → W64} {x : LaneAccess} (h : x ∈ e.accesses fun i => some (at_ i)) :
    ∃ i, i < 64 ∧ e.mask.getLsbD i = true ∧ x.addr = at_ i := by
  obtain ⟨i, hi, hx⟩ := List.mem_filterMap.mp h
  obtain ⟨hlt, hact⟩ := (mem_active e.mask i).mp hi
  refine ⟨i, hlt, hact, ?_⟩
  rw [← Option.some.inj hx]

theorem settled_inv {s : State} (reads writes : List XReg) (h : Inv s) : Inv (s.settled reads writes) := by
  unfold Inv
  rw [settled_mem]
  exact h

/-- A strided queue store of which every active lane lies in the block's own scratch. -/
theorem execZStq_scratch {ty : StqTy} {rs1 rs2 : XReg} {s : State} {e : StqEntry} {rest : List StqEntry} (hi : Inv s)
    (hfree : s.hartFree [rs1, rs2]) (hsend : s.grp.hartSend = none) (hq : s.grp.stq = e :: rest)
    (hnet : ∀ m ∈ s.net, m.src ≠ s.cur) (hl : s.grp.loadsAway = false)
    (hin : ∀ i, i < 64 → e.mask.getLsbD i = true → s.storesInScratch (s.grp.strideAt rs1 rs2 i) (2 ^ StqTy.log ty)) :
    ∃ t, execZStq ty rs1 rs2 s = .next t ∧ t.grp.stq = rest ∧ t.grp.pc = s.grp.pc + 4 ∧ t.grp.x = s.grp.x
      ∧ ∀ b, (∀ i, i < 64 → e.mask.getLsbD i = true → b < s.grp.scratchAt (s.grp.strideAt rs1 rs2 i)
          ∨ s.grp.scratchAt (s.grp.strideAt rs1 rs2 i) + 2 ^ StqTy.log ty ≤ b) →
        Memory.read t.mem b = Memory.read s.mem b := by
  have hn : 0 < 2 ^ StqTy.log ty := Nat.two_pow_pos _
  have hu := settlesTo_settled s [rs1, rs2] []
  have hgblk := (settled_blk s [rs1, rs2] []).2
  have hmem := settled_mem s [rs1, rs2] []
  have hnet' : ∀ m ∈ (s.settled [rs1, rs2] []).net, m.src ≠ (s.settled [rs1, rs2] []).cur := by
    rw [settled_net, settled_cur]; exact hnet
  have hl' := (settled_loadsAway s [rs1, rs2] []).trans hl
  have hin' : ∀ x ∈ e.accesses fun i => some (s.grp.strideAt rs1 rs2 i),
      (s.settled [rs1, rs2] []).storesInScratch x.addr (2 ^ StqTy.log ty) := by
    intro x hx
    obtain ⟨i, hlt, hact, haddr⟩ := mem_accesses hx
    rw [haddr]
    exact storesInScratch_settled _ _ (hin i hlt hact)
  have hstored := storeEntry_scratch hn hin' e (StqTy.log ty)
  obtain ⟨hkept, hread⟩ := putElems_read hn hnet' hl' hin' e (settled_inv _ _ hi)
  refine ⟨_, execZStq_stores hfree hsend hq (storeFate_scratch hn hnet' hl' hin') (storeWait_scratch hn hnet' hl' hin')
    (by rw [hstored]), ?_⟩
  rw [hstored]
  have hgrp := hkept.grpFields
  dsimp only [State.stqTaken]
  rw [State.grp_setGrp]
  refine ⟨?stq, ?pc, ?regs, fun b hb => ?bytes⟩
  case stq =>
    show List.drop 1 (State.grp _).stq = rest
    rw [hgrp, hu]
    exact congrArg (List.drop 1) hq
  case pc =>
    show (State.grp _).pc + 4 = _
    rw [hgrp, hu]
  case regs =>
    show (State.grp _).x = _
    rw [hgrp, hu]
  case bytes =>
    refine (hread b fun x hx => ?_).trans (by rw [hmem])
    obtain ⟨i, hlt, hact, haddr⟩ := mem_accesses hx
    rw [Group.scratchAt, hgblk, haddr]
    exact hb i hlt hact

/-- Settles O36: the loads and the stores by their course on the settled state, those in scratch by what their elements'
homes are. -/
theorem queueLoadsAndStoresComplete : Obligations.QueueLoadsAndStoresComplete := by
  refine ⟨fun ty q rs1 rs2 s => ?loads, fun ty rs1 rs2 s e rest => ?stores⟩
  case loads =>
    refine ⟨fun hfree => ?plain, fun hpair hfree => ?tensor, execZLdqt_illegal,
      fun hone hnet hl hin => ?scratch⟩
    case plain =>
      obtain ⟨hroom, hfull⟩ := hartRun_queueLoad (reads := [rs1, rs2]) (q := q.toNat)
        (desc := fun t => .plain (t.grp.xr rs1) (t.grp.xr rs2) ty) hfree fun t ht => by rw [ht.xr, ht.xr]
      exact ⟨hroom, hfull, makeLoad_settled s [rs1, rs2] _⟩
    case tensor =>
      obtain ⟨hroom, hfull⟩ := hartRun_queueLoad (reads := [rs1, rs2, rs2 + 1]) (q := q.toNat)
        (desc := fun t => .tensor (t.grp.xr rs1) (t.grp.xr rs2) (t.grp.xr (rs2 + 1))) hfree
        fun t ht => by rw [ht.xr, ht.xr, ht.xr]
      obtain ⟨hordinary, hnf⟩ := execZLdqt_eq (q := q) (rs1 := rs1) s hpair
      rw [← hordinary, ← hnf] at hroom hfull
      exact ⟨hroom, hfull, makeLoad_settled s [rs1, rs2, rs2 + 1] _⟩
    case scratch => exact makeLoad_settled_scratch hone hnet hl hin
  case stores =>
    refine ⟨execZStq_empty, execZStq_stores, execZStqt_illegal, fun hpair hfree hsend hq => ?slices, ?scratch⟩
    case slices =>
      exact ⟨fun f => execZStqt_fault hpair hfree hq, fun r t hr => ⟨execZStqt_space hpair hfree hq hr,
        execZStqt_stores hpair hfree hq hr hsend⟩⟩
    case scratch =>
      exact execZStq_scratch

end Sys2Proof.Machine

/-! The statement of the arrivals of queue loads, copies, evictions and fills (05 R93-R95; 10 R172-R174; 09 R164, R166). -/
namespace Sys2Proof.Machine

-- Queue loads.

theorem execQueueLoadArrival_arrives {s : State} {e : LdqEntry}
    (he : (s.grpAt s.input.a).entry s.input.b s.input.c = some e) (hnew : e.arrived = false)
    (holder : (s.grpAt s.input.a).olderAway e = false) :
    execQueueLoadArrival s = .next (e.wants.foldl (fun u w => u.countAccess s.input.a w.addr .read)
      (s.setGrpAt s.input.a ((s.grpAt s.input.a).putEntry s.input.b s.input.c ((s.focus s.input.a).arrivedEntry e)))) := by
  unfold execQueueLoadArrival
  simp only [he, hnew, holder, Bool.or_false, Bool.false_eq_true, if_false]

/-- An entry that wants no element arrives with the data it has. -/
theorem arrivedEntry_complete {s : State} {e : LdqEntry} (h : e.wants = []) :
    (s.arrivedEntry e).arrived = true ∧ (s.arrivedEntry e).data = (if e.poison then [] else e.data)
      ∧ (s.arrivedEntry e).poison = e.poison := by
  unfold State.arrivedEntry
  rw [h]
  exact ⟨rfl, rfl, rfl⟩

/-- What a replayed entry does with the load that it makes again, where that load need not wait. -/
theorem execReplayArrival_loads {s : State} {e : LdqEntry} (he : (s.grpAt s.input.a).entry s.input.b s.input.c = some e)
    (hpoison : e.poison = true) (hreplay : e.replay = true) (hwaits : (s.grpAt s.input.a).laneWait = some (.replay s.input.b))
    (hready : (s.focus s.input.a).laneReady = true) : let k := s.input.a
    let r := (s.focus k).makeLoad e.desc
    let put := fun x => (r.state.grpAt k).putEntry s.input.b s.input.c x
    r.wait = none → (r.fault = none →
        execReplayArrival s = .next (r.state.setGrpAt k (put { r.entry with arrived := r.entry.wants.isEmpty })))
      ∧ ∀ f, r.fault = some f → f.xlate = none → let x := r.state.arrivedEntry r.entry
        execReplayArrival s = .next (r.state.setGrpAt k
          ((put { x with wide := e.wide, replay := true }).laneFault 5 x.cause x.lanes x.addr)) := by
  intro k r put hwait
  have hgo : ¬(!(e.poison && e.replay) || (s.grpAt k).laneWait != some (.replay s.input.b) || !(s.focus k).laneReady) = true := by
    simp [hpoison, hreplay, hwaits, hready, k]
  unfold execReplayArrival
  simp only [he]
  rw [if_neg hgo]
  refine ⟨fun hfault => ?loaded, fun f hfault hxlate => ?faults⟩
  case loaded => simp only [hwait, hfault, r, k, put]
  case faults => simp only [hwait, hfault, hxlate, r, k, put]

-- Copies.

theorem execCopyStart_starts {s : State} {k : Copy} {rest : List Copy}
    (hk : ((s.coreAt s.input.a).chan s.input.b).copies = k :: rest) (hfree : s.blkFrozen k.blk = false)
    (hnew : k.started = false) : ∃ t, execCopyStart s = .next t ∧ t.mem = s.mem
      ∧ ((t.coreAt s.input.a).chan s.input.b).copies = { k with started := true } :: rest := by
  unfold execCopyStart
  simp only [hk, hnew, hfree, Bool.or_false, Bool.false_eq_true, if_false]
  refine ⟨_, rfl, (copyMeter_spec s s.input.b k).1, ?_⟩
  rw [chan_setChan]

/-- Where every element is taken, none follows those taken. -/
theorem getElem?_takeWhile_all {α : Type} {p : α → Bool} {l : List α} (h : ∀ x ∈ l, p x = true) :
    l[(l.takeWhile p).length]? = none := by
  induction l with
  | nil => rfl
  | cons x l ih =>
    rw [List.takeWhile_cons_of_pos (h x List.mem_cons_self), List.length_cons, List.getElem?_cons_succ]
    exact ih fun y hy => h y (List.mem_cons_of_mem x hy)

theorem execCopyCompletion_performs {s : State} {k : Copy} {rest : List Copy}
    (hk : ((s.coreAt s.input.a).chan s.input.b).copies = k :: rest) (hfree : s.blkFrozen k.blk = false)
    (hstarted : k.started = true) (hticket : k.ticket = none) (hport : (s.focus k.grp).portHeld (32 + s.input.b) = false) :
    let r := Rec.ofBytes k.record
    let l := s.copyRest s.input.b k r
    (∀ p ∈ l, ∃ key t, p.2 = .ok key t) → execCopyCompletion s = .next
      ((((s.copySeen k l).copyWrite k (s.copyCells k l)).finishCopy s.input.a s.input.b k false).copyIncrement s.input.b k r) := by
  intro r l hl
  unfold execCopyCompletion
  simp only [hk, hstarted, hticket, hfree, hport, Bool.not_true, Option.isSome_none, Bool.false_and, Bool.or_false,
    Bool.false_eq_true, if_false]
  rw [getElem?_takeWhile_all fun p hp => ?_]
  obtain ⟨key, entry, hok⟩ := hl p hp
  rw [hok]

/-- A channel of a core with other copies. -/
def State.setCopies (s : State) (core ch : Nat) (l : List Copy) : State :=
  s.setCoreAt core { s.coreAt core with chans := (s.coreAt core).chans.set ch { (s.coreAt core).chan ch with copies := l } }

/-- A group whose token register holds the id and the status of a completed copy (R172). -/
def Group.tokenDone (g : Group) (ch : Nat) (k : Copy) (failed : Bool) : Group :=
  { g.setX (BitVec.ofNat 5 k.token) (BitVec.ofNat 64 (k.id.toNat + if failed then 2 ^ 63 else 0)) with
    tokens := g.tokens.set k.token ⟨ch, k.id, true⟩ }

/-- A completed copy leaves its channel, and its token register is ready with its id and status. -/
theorem finishCopy_completes {t : State} {core ch : Nat} {k : Copy} {rest : List Copy} (failed : Bool)
    (hk : ((t.coreAt core).chan ch).copies = k :: rest) (htok : (t.grpAt k.grp).tokens.find k.token = some ⟨ch, k.id, false⟩)
    (hpos : 0 < k.token) (hlt : k.token < 32) : let u := t.finishCopy core ch k failed
    ((u.coreAt core).chan ch).copies = rest ∧ (u.grpAt k.grp).tokens.find k.token = some ⟨ch, k.id, true⟩
    ∧ (u.grpAt k.grp).xr (BitVec.ofNat 5 k.token) = BitVec.ofNat 64 (k.id.toNat + if failed then 2 ^ 63 else 0)
    ∧ u.mem = t.mem := by
  have hreg : BitVec.ofNat 5 k.token ≠ 0 := by
    intro h
    have := congrArg BitVec.toNat h
    rw [BitVec.toNat_ofNat, Nat.mod_eq_of_lt hlt] at this
    exact absurd this (by simp; omega)
  intro u
  have hu : u = (t.setCopies core ch rest).setGrpAt k.grp ((t.grpAt k.grp).tokenDone ch k failed) := by
    show t.finishCopy core ch k failed = _
    unfold State.finishCopy
    simp only [hk, State.grpAt_setCoreAt, htok, beq_self_eq_true, Bool.and_self, if_true, List.drop_one, List.tail_cons]
    rfl
  rw [hu]
  refine ⟨?left, ?token, ?register, rfl⟩
  case left => rw [State.coreAt_setGrpAt, State.setCopies, chan_setChan]
  case token =>
    rw [State.grpAt_setGrpAt, if_pos rfl]
    exact (Map.find_set ..).trans (if_pos rfl)
  case register =>
    rw [State.grpAt_setGrpAt, if_pos rfl]
    exact xr_setX_same _ _ _ hreg

-- The data caches.

theorem execHartCacheEviction_writes {s t : State} {d : DirtySector} (hd : s.dirty[s.input.a]? = some d) (ht : s.evictSector d = .ok t) :
    execHartCacheEviction s = .next t := by
  unfold execHartCacheEviction
  simp only [hd, ht]

/-- A prefetched sector leaves its core's list, and goes to the lane L1 unless it is poisoned or for L2 alone. -/
theorem execPrefetchFill_fills {s : State} {asid va pa : Nat} {l2 : Bool}
    (h : (s.coreAt s.input.a).fills[s.input.b]? = some (asid, va, pa, l2)) : let core := s.input.a
    let t := s.setCoreAt core { s.coreAt core with fills := (s.coreAt core).fills.eraseIdx s.input.b }
    (l2 = false → s.poisoned pa 128 = false → execPrefetchFill s = .next (t.l1Fill core asid va pa (asid == 0)))
    ∧ (l2 = true ∨ s.poisoned pa 128 = true → execPrefetchFill s = .next t) := by
  intro core t
  have hpoison : t.poisoned pa 128 = s.poisoned pa 128 := rfl
  unfold execPrefetchFill
  simp only [h]
  refine ⟨fun hl2 hclean => ?l1, fun hnone => ?none⟩
  case l1 => rw [if_neg (by rw [hpoison, hl2, hclean]; exact Bool.false_ne_true)]
  case none => rw [if_pos (by rw [hpoison]; simpa using hnone)]

/-- Settles O48: each clause is its event's course where the conditions that the clause names hold. -/
theorem loadsAndCopiesArrive : Obligations.LoadsAndCopiesArrive := by
  intro s
  refine ⟨fun e => execQueueLoadArrival_arrives, fun e => arrivedEntry_complete, fun e => execReplayArrival_loads,
    fun k rest hk hfree => ⟨execCopyStart_starts hk hfree, execCopyCompletion_performs hk hfree⟩,
    fun t k rest failed => finishCopy_completes failed, fun d t => execHartCacheEviction_writes,
    fun asid va pa l2 => execPrefetchFill_fills⟩

end Sys2Proof.Machine

/-! The statement of the asynchronous events at a group and of gang suspension (05 R110; 12 R216, R220; 20 R299; 21 R303-R311). -/
namespace Sys2Proof.Machine

section
variable (s : State)

-- Traps and interrupts at a group.

theorem execAsyncTrapTaken_takes : let k := s.input.a
    let g := s.grpAt k
    ∀ p, s.running k = true → g.nextAsync = some p → g.mode = .u → g.hartReq = none →
      execAsyncTrapTaken s = .next (((s.focus k).setGrp { g with asyncs := g.asyncs.erase p }).trapAt k p.cause false p.val) := by
  intro k g p hrun hp hmode hreq
  have htake : (s.focus k).takeAsync = ((s.focus k).setGrp { g with asyncs := g.asyncs.erase p }).trapAt k p.cause false p.val := by
    unfold State.takeAsync
    dsimp only
    rw [show (s.focus k).grp = g from rfl, hp]
    exact if_pos (by rw [hmode, hreq]; rfl)
  unfold execAsyncTrapTaken
  rw [if_pos (by rw [hrun, hp]; rfl), htake]

theorem execAsyncTrapTaken_none (h : s.running s.input.a = false ∨ (s.grpAt s.input.a).nextAsync = none) :
    execAsyncTrapTaken s = .next s := by
  refine if_neg ?_
  rcases h with h | h
  · rw [h]; exact Bool.false_ne_true
  · rw [h, Option.isSome_none, Bool.and_false]; exact Bool.false_ne_true

/-- The doorbell interrupt is enabled at a group (12 R220). -/
def Group.doorbell (g : Group) : Prop := g.mip &&& g.mie ≠ 0 ∧ (g.mode = .u ∨ mstatusMie g.mstatus = true)

theorem execExternalInterrupt_enters {t : State} (ht : s.abandon s.input.a = some t) (hrun : s.running s.input.a = true)
    (hon : (s.grpAt s.input.a).doorbell) : execExternalInterrupt s = .next (t.trapAt s.input.a 11 true 0) := by
  obtain ⟨hpend, hmode⟩ := hon
  unfold execExternalInterrupt
  dsimp only
  rw [if_pos (by simpa [hrun] using And.intro hpend hmode), ht]

theorem execExternalInterrupt_off (h : ¬(s.grpAt s.input.a).doorbell) : execExternalInterrupt s = .next s := by
  refine if_neg fun hon => h ?_
  simp only [Bool.and_eq_true, Bool.or_eq_true, bne_iff_ne, beq_iff_eq] at hon
  exact ⟨hon.1.2, hon.2⟩

theorem abandon_none {k : Nat} (h : (s.grpAt k).hartReq = none) : s.abandon k = some s := by
  unfold State.abandon
  dsimp only
  rw [h]

theorem abandon_request {k : Nat} {r : HartReq} (h : (s.grpAt k).hartReq = some r) (hr : ∀ rd n l, r ≠ .send rd n l) :
    s.abandon k = some (s.setGrpAt k { s.grpAt k with hartReq := none }) := by
  unfold State.abandon
  dsimp only
  rw [h]
  cases r with
  | send rd n l => exact absurd rfl (hr rd n l)
  | _ => rfl

theorem execTidewaitReached_wait (h : (s.grpAt s.input.a).hartWait = some .tide) : let k := s.input.a
    let g := s.grpAt k
    let due := (g.xr (g.hword.extractLsb' 15 5)).toNat ≤ s.tide.toNat
    (due → execTidewaitReached s = .next (s.setGrpAt k { g with hartWait := none })) ∧ (¬due → execTidewaitReached s = .next s) := by
  intro k g due
  have hdue : ((g.hartWait == some .tide && (g.xr (g.hword.extractLsb' 15 5)).ule s.tide) = true) ↔ due := by
    simp [g, k, h, due, BitVec.ule_eq_decide]
  exact ⟨fun hd => if_pos (hdue.mpr hd), fun hd => if_neg fun hc => hd (hdue.mp hc)⟩

-- Deadlocks and watchdogs.

theorem execDecouplingDeadlock_waits : let k := s.input.a
    let g := s.grpAt k
    s.running k = true → s.parked g.blk = false → (g.held = false ∨ g.cendDone = true) → g.faultWait = false →
      g.hartCross = true → g.laneCross = true →
    (max g.hartSince g.laneSince + 65536 ≤ s.cycles → execDecouplingDeadlock s = .next ((s.setGrpAt k
      { g with held := true, laneWait := none, mlpc := g.lpc, mlcause := 24, mlmask := 0, mlval := 0 }).trapAt k 25 false g.qocc))
    ∧ (s.cycles < max g.hartSince g.laneSince + 65536 → execDecouplingDeadlock s = .next s) := by
  intro k g hrun hparked hheld hfault hhart hlane
  have hstreams : (g.held && !g.cendDone) = false := by
    rcases hheld with h | h <;> simp [h]
  unfold execDecouplingDeadlock
  simp only [show s.running s.input.a = true from hrun, show s.parked (s.grpAt s.input.a).blk = false from hparked,
    show ((s.grpAt s.input.a).held && !(s.grpAt s.input.a).cendDone) = false from hstreams,
    show (s.grpAt s.input.a).faultWait = false from hfault, show (s.grpAt s.input.a).hartCross = true from hhart,
    show (s.grpAt s.input.a).laneCross = true from hlane, Bool.not_true, Bool.or_false, Bool.false_or, decide_eq_true_eq]
  exact ⟨fun h => if_neg (Nat.not_lt.mpr h), fun h => if_pos h⟩

theorem execWatchdogExpiry_block {b : Block} (hb : s.blocks.find s.input.a = some b) (hrun : b.state = .running)
    (hparked : s.parked s.input.a = false) : let k := s.input.a
    let asid := (s.launchAt b.launch).asid
    let limit := s.le (s.ctxEntry asid + 256) 8
    (limit ≠ 0 → b.idleSince + limit ≤ s.tide.toNat → execWatchdogExpiry s = .next (s.fatal asid watchdogCause k 0))
    ∧ (limit = 0 ∨ s.tide.toNat < b.idleSince + limit → execWatchdogExpiry s = .next s) := by
  intro k asid limit
  unfold execWatchdogExpiry
  simp only [hb, hrun, hparked, bne_self_eq_false, Bool.or_false, Bool.false_or, Bool.or_eq_true, beq_iff_eq, decide_eq_true_eq]
  exact ⟨fun hlimit hidle => if_neg fun h => h.elim hlimit (Nat.not_lt.mpr hidle), fun h => if_pos h⟩

theorem execRemoteWaitTimeout_waits : let k := s.input.a
    let g := s.grpAt k
    ∀ key n, let asid := (s.launchAt (s.blkAt g.blk).launch).asid
    let limit := s.le (s.ctxEntry asid + 264) 8
    s.running k = true → g.hartWait = some (.mailbox key n) → 256 * 2 ^ 16 ≤ key → Map.get 0 s.absent key = 0 →
    (limit ≠ 0 → g.hartTide + limit < s.tide.toNat →
      execRemoteWaitTimeout s = .next (s.fatal asid remoteCause k (g.xr (g.hword.extractLsb' 15 5))))
    ∧ (limit = 0 ∨ s.tide.toNat ≤ g.hartTide + limit → execRemoteWaitTimeout s = .next s) := by
  intro k g key n asid limit hrun hwait hkey htokens
  have hgo : (!s.running k || key < 256 * 2 ^ 16 || limit == 0 || Map.get 0 s.absent key != 0
      || s.tide.toNat ≤ g.hartTide + limit) = true ↔ limit = 0 ∨ s.tide.toNat ≤ g.hartTide + limit := by
    simp [hrun, htokens]
    omega
  unfold execRemoteWaitTimeout
  dsimp only
  rw [show (s.grpAt s.input.a).hartWait = some (.mailbox key n) from hwait]
  refine ⟨fun hlimit hlate => if_neg fun h => ?_, fun h => if_pos (hgo.mpr h)⟩
  exact (hgo.mp h).elim hlimit (Nat.not_le.mpr hlate)

/-- A fatal error kills its context once. -/
theorem fatal_dead (asid cause j : Nat) (v : W64) : (s.dead.find asid ≠ none → s.fatal asid cause j v = s)
    ∧ (s.dead.find asid = none → (s.fatal asid cause j v).dead.find asid = some cause
      ∧ ((s.reg (subBlock (s.partOfCore (j / 16)) 0x3008)).getLsbD 0 = false → (s.fatal asid cause j v).mem = s.mem)) := by
  obtain ⟨hdead, hlive⟩ := fatal_spec s asid cause j v
  refine ⟨fun h => hdead (some_of_ne h), fun h => ?_⟩
  obtain ⟨hset, -, hmem⟩ := hlive (by rw [h]; rfl)
  exact ⟨by rw [hset, Map.find_set, if_pos rfl], hmem⟩

-- Gang suspension.

/-- A gang command in the state that it wants, from a writer that may make it. -/
theorem gangCommand_iff (p n : Nat) : ((s.gangSt p == n && s.mayReach s.input.who (subBlock p 0)) = true) ↔
    s.gangSt p = n ∧ s.mayReach s.input.who (subBlock p 0) = true := by
  rw [Bool.and_eq_true, beq_iff_eq]

theorem gangCommand_not {p n : Nat} (h : s.gangSt p ≠ n ∨ s.mayReach s.input.who (subBlock p 0) = false) :
    ¬(s.gangSt p == n && s.mayReach s.input.who (subBlock p 0)) = true := by
  rw [gangCommand_iff]
  exact fun ⟨hst, hmay⟩ => h.elim (fun h => h hst) fun h => Bool.false_ne_true (h.symm.trans hmay)

theorem execGang_commands : let p := s.input.a % 4
    (s.gangSt p = 0 → s.mayReach s.input.who (subBlock p 0) = true →
      execGangSuspend s = .next ((s.gangReserved (subBlock p 0)).setPart p { s.part p with gangSt := 1 }))
    ∧ (s.gangSt p ≠ 0 ∨ s.mayReach s.input.who (subBlock p 0) = false → execGangSuspend s = .next (s.countReg (subBlock p 0)))
    ∧ (s.gangSt p ≠ 2 ∨ s.mayReach s.input.who (subBlock p 0) = false → execGangResume s = .next (s.countReg (subBlock p 0)))
    ∧ (s.gangSt p = 2 → s.mayReach s.input.who (subBlock p 0) = true →
      execGangResume s = .next (((s.blocksOf p).filter fun b => b.2.state == .suspended).foldl (fun u b => u.resumeBlock b.1)
        ((s.gangReserved (subBlock p 0)).setPart p { s.part p with gangSt := 3 }))) :=
  ⟨fun hst hmay => if_pos ((gangCommand_iff s _ _).mpr ⟨hst, hmay⟩), fun h => if_neg (gangCommand_not s h),
    fun h => if_neg (gangCommand_not s h), fun hst hmay => if_pos ((gangCommand_iff s _ _).mpr ⟨hst, hmay⟩)⟩

theorem execGangStrike_strikes : let k := s.input.a
    let p := s.partOfCore k
    let hit := (s.blocksOn k).filter fun b => b.2.state == .running && b.2.slots.all fun j => !(s.grpAt j).mondb.pre
    (s.part p).gangSt = 1 → hit ≠ [] → s.tide.ult (s.reg (subBlock p 8)) = false →
      let u := hit.foldl (fun u b => u.strike b.1) ((List.range 8).foldl (fun u ch => u.checkpoint k ch) s)
      execGangStrike s = .next (u.letThrough k) ∧ ((u.letThrough k).coreAt k).heldPort = []
        ∧ ((u.letThrough k).coreAt k).bwSent = (u.coreAt k).bwSent + BitVec.ofNat 64 (u.coreAt k).heldPort.length := by
  intro k p hit hst hhit htide u
  obtain ⟨-, -, hport, -, hsent⟩ := letThrough_spec u k
  refine ⟨if_neg ?_, hport, hsent⟩
  rw [hst, htide, List.isEmpty_eq_false_iff.mpr hhit]
  exact Bool.false_ne_true

end

/-- A group resumes in M-mode at the monitor. -/
theorem resumed_fields (h : Group) (entry : W64) : (h.resumed entry).mode = .m ∧ (h.resumed entry).pc = entry
    ∧ (h.resumed entry).mcause = 0x800000000000000B ∧ (h.resumed entry).held = true ∧ (h.resumed entry).mondb.res = true
    ∧ (h.resumed entry).x = h.x := ⟨rfl, rfl, rfl, rfl, rfl, rfl⟩

/-- Settles O50: the events at a group by their guards, the fatal errors and the strike by what their operations do. -/
theorem groupsInterruptedAndGangs : Obligations.GroupsInterruptedAndGangs := by
  intro s
  refine ⟨execAsyncTrapTaken_takes s, execAsyncTrapTaken_none s,
    fun t ht hrun hpend hmode => execExternalInterrupt_enters s ht hrun ⟨hpend, hmode⟩, abandon_none s,
    fun r => abandon_request s, fun h => execExternalInterrupt_off s ?off, execTidewaitReached_wait s,
    execDecouplingDeadlock_waits s, fun b => execWatchdogExpiry_block s, execRemoteWaitTimeout_waits s, fatal_dead s,
    execGang_commands s, execGangStrike_strikes s, resumed_fields, fun blk j => strike_groups s blk j⟩
  case off =>
    rintro ⟨hpend, hmode⟩
    rcases h with h | ⟨hm, hoff⟩
    · exact hpend h
    · rcases hmode with hu | hon
      · exact absurd (hm.symm.trans hu) (by decide)
      · exact Bool.false_ne_true (hoff.symm.trans hon)

end Sys2Proof.Machine

/-! The statements of lane integer arithmetic, logic, moves and selection (06 R111-R122; 07 R130, R137; 08 R146), of
comparisons and mask instructions (06 R121; 07 R132; 08 R146), and of the modes (04 R81, R82; 05 R108; 06 R122, R123;
07 R137). -/
namespace Sys2Proof.Machine

-- What an instruction of each shape gives.

section
variable {i : Instr}

/-- An instruction without checks of its values, whose effect is one write of its destination. -/
theorem laneGives_of_write {o : LaneForm} {wide : Bool} {d : Code} {v : State → (Nat → Nat → W64) → Nat → W64}
    (hexec : ∀ s, exec i s = laneRun s o (fun _ => .pass) fun vs act u => u.writeDest wide d act (v s (argAt vs))) :
    LaneGives i o wide d v := by
  intro s hstart
  rw [hexec s]
  exact laneRun_writes hstart rfl

/-- Only what a lane holds of the result is given. -/
theorem LaneGives.congr {o : LaneForm} {wide : Bool} {d : Code} {v w : State → (Nat → Nat → W64) → Nat → W64}
    (h : LaneGives i o wide d v) (hvw : ∀ s x n, heldValue wide (v s x n) = heldValue wide (w s x n)) :
    LaneGives i o wide d w := by
  intro s hstart
  obtain ⟨t, hexec, hwrites⟩ := h s hstart
  exact ⟨t, hexec, hwrites.congr (hvw s _)⟩

/-- An instruction without checks of its values, whose effect is one write of a mask. -/
theorem maskGives_of_write {o : LaneForm} {m : Code} (v : State → (Nat → Nat → W64) → LaneMask → LaneMask)
    (hexec : ∀ s, exec i s = laneRun s o (fun _ => .pass) fun vs act u => u.writeMask m (v s (argAt vs) act)) :
    MaskGives i o m fun s x => v s x s.grp.active := by
  intro s hstart
  rw [hexec s]
  exact laneRun_group (check := fun _ => .pass) (f := fun vs act g => g.setMask m (v s (argAt vs) act)) hstart rfl

/-- An instruction whose effect changes its group's record, and whose checks pass where `ok` holds. -/
theorem groupGives_of_setGrp {o : LaneForm} {ok : State → (Nat → Nat → W64) → Prop}
    {check : State → List LaneVec → Check} {f : State → (Nat → Nat → W64) → Group → Group}
    (hexec : ∀ s, exec i s = laneRun s o (check s) fun vs _ u => u.setGrp (f s (argAt vs) u.grp))
    (hcheck : ∀ s vs, ok s (argAt vs) → check s vs = .pass) : GroupGives i o ok f := by
  intro s hstart hok
  rw [hexec s]
  exact laneRun_group hstart (hcheck s _ hok)

theorem laneControl_gives {o : LaneForm} {f : Group → Group} (hexec : ∀ s, exec i s = laneControl s o f) :
    GroupGives i o (fun _ _ => True) fun _ _ g => f g :=
  groupGives_of_setGrp (check := fun _ _ => .pass) hexec fun _ _ _ => rfl
end

section
variable {i : Instr} {d a b c : Code} {len : Nat} {sat : Bool} {imm : Half} {sh : BitVec 6} (t : Ty)

theorem laneInt2_gives (f : Int → Int → Int) (hexec : ∀ s, exec i s = laneInt2 s len t sat d a b f) :
    LaneGives i (laneForm len t.wide d [srcOf t a, srcOf t b]) t.wide d
      fun _ x n => intResult t sat (f (intArg t (x 0 n)) (intArg t (x 1 n))) :=
  laneGives_of_write hexec

theorem laneIntImm_gives (f : Int → Int → Int) (hexec : ∀ s, exec i s = laneIntImm s t sat d a imm f) :
    LaneGives i (typed1 t d a) t.wide d fun _ x n => intResult t sat (f (intArg t (x 0 n)) (intArg t (immOf t imm))) :=
  laneGives_of_write hexec

theorem laneLogic_gives (f : W64 → W64 → W64) (hexec : ∀ s, exec i s = laneLogic s len t d a b f) :
    LaneGives i (laneForm len t.wide d [srcOf t a, srcOf t b]) t.wide d fun _ x n => f (x 0 n) (x 1 n) :=
  laneGives_of_write hexec

theorem laneLogicImm_gives (f : W64 → W64 → W64) (hexec : ∀ s, exec i s = laneLogicImm s t d a imm f) :
    LaneGives i (typed1 t d a) t.wide d fun _ x n => f (x 0 n) (immOf t imm) :=
  laneGives_of_write hexec

theorem laneShift_gives (f : Nat → Nat → Nat → Nat) (hexec : ∀ s, exec i s = laneShift s len t d a b f) :
    LaneGives i (laneForm len t.wide d [srcOf t a, src32 b]) t.wide d
      fun _ x n => BitVec.ofNat 64 (f t.intWidth (lowBits t.intWidth (x 0 n)) (lowBits 32 (x 1 n))) :=
  laneGives_of_write hexec

theorem laneShiftImm_gives (f : Nat → Nat → Nat → Nat) (hexec : ∀ s, exec i s = laneShiftImm s t d a sh f) :
    LaneGives i (typed1 t d a) t.wide d
      fun _ x n => BitVec.ofNat 64 (f t.intWidth (lowBits t.intWidth (x 0 n)) sh.toNat) :=
  laneGives_of_write hexec

theorem laneSelect_gives (hexec : ∀ s, exec i s = laneSelect s t d a b c) :
    LaneGives i ((typed2 t d a b).also (maskOk c)) t.wide d
      fun s x n => if (s.grp.mask c).getLsbD n then x 0 n else x 1 n :=
  laneGives_of_write hexec
end

section
variable {i : Instr} {d a : Code}

theorem laneUnary_gives (f : W32 → W32) (hexec : ∀ s, exec i s = laneUnary s d a f) :
    LaneGives i (short1 d a) false d fun _ x n => (f ((x 0 n).setWidth 32)).setWidth 64 :=
  laneGives_of_write hexec

theorem laneCompare_gives {srcs : List Src} (f : State → (Nat → W64) → Bool)
    (hexec : ∀ s, exec i s = laneCompare s d srcs (f s)) :
    MaskGives i { len := 8, srcs := srcs, ok := fun _ => maskOk d } d
      fun s x => s.grp.active &&& maskOf fun n => f s fun k => x k n :=
  maskGives_of_write (fun s x act => act &&& maskOf fun n => f s fun k => x k n) hexec

theorem laneMaskOp_gives {fields : List Code} (f : Group → LaneMask)
    (hexec : ∀ s, exec i s = laneMaskOp s fields d f) :
    MaskGives i { len := 4, ok := fun _ => fields.all maskOk } d fun s _ => f s.grp :=
  maskGives_of_write (fun s _ _ => f s.grp) hexec
end

-- Integer arithmetic.

/-- The form of `addc` and `subb`: em may not stand as the carry mask. -/
def carryForm (d a b c : Code) : LaneForm := (laneForm 8 false d [src32 a, src32 b]).also (c.toNat ≤ 15)

/-- What they read: a 32-bit operand, and the carry mask's bit of a lane as a number. -/
def low32At (vs : List LaneVec) (k n : Nat) : Nat := (argAt vs k n).toNat % 2 ^ 32
def Group.carryIn (g : Group) (c : Code) (n : Nat) : Nat := if (g.mask c).getLsbD n then 1 else 0

/-- The carry mask afterwards: `out` in the active lanes, the other lanes as they were. -/
def Group.carryMask (g : Group) (c : Code) (out : Nat → Bool) : LaneMask :=
  (g.mask c &&& ~~~g.active) ||| (g.active &&& maskOf out)

/-- A carry operation writes the low 32 bits of its value `v`, then its carries out into the mask. -/
theorem laneCarry_gives {s : State} {d a b c : Code} {v : Nat → Nat → Nat → Nat} {out : Nat → Nat → Nat → Bool}
    (hstart : (carryForm d a b c).starts s) :
    let x := low32At (s.grp.vectors (carryForm d a b c).srcs)
    let cin := s.grp.carryIn c
    ∃ u, LaneWrites s (carryForm d a b c) false d s.grp.active (fun n => BitVec.ofNat 64 (v (x 0 n) (x 1 n) (cin n))) u
      ∧ laneCarry s d a b c (fun x y k => (v x y k % 2 ^ 32, out x y k))
        = .next (u.setGrp (u.grp.setMask c (s.grp.carryMask c fun n => out (x 0 n) (x 1 n) (cin n)))) :=
  ⟨_, (State.writeDest_spec s _ false d _ _).congr fun _ => held_mod _, laneRun_ready hstart rfl⟩

/-- Settles O9: each instruction writes one value of its sources; of the 32-bit forms a lane holds the low bits, and the
carry forms write their mask as well. -/
theorem integerInstructionsComplete : Obligations.IntegerInstructionsComplete := by
  refine ⟨fun d a b => ?short, fun t sat d a b c imm => ?typed, fun t d a b c s hstart => ?carry⟩
  case short =>
    exact ⟨(laneInt2_gives .i32 (· + ·) fun _ => rfl).congr fun _ _ _ => held_add32 _ _,
      (laneInt2_gives .i32 (· - ·) fun _ => rfl).congr fun _ _ _ => held_sub32 _ _,
      (laneInt2_gives .i32 (· * ·) fun _ => rfl).congr fun _ _ _ => held_mul32 _ _,
      laneLogic_gives .n32 (· &&& ·) fun _ => rfl,
      laneLogic_gives .n32 (· ||| ·) fun _ => rfl,
      laneLogic_gives .n32 (· ^^^ ·) fun _ => rfl,
      laneLogic_gives .n32 (fun x y => x &&& ~~~y) fun _ => rfl,
      laneShift_gives .n32 shiftLeft fun _ => rfl,
      laneShift_gives .n32 shiftRight fun _ => rfl,
      laneShift_gives .n32 shiftArith fun _ => rfl,
      laneShift_gives .n32 rotateLeft fun _ => rfl,
      laneInt2_gives .i32 minInt fun _ => rfl,
      laneInt2_gives .n32 minInt fun _ => rfl,
      laneInt2_gives .i32 maxInt fun _ => rfl,
      laneInt2_gives .n32 maxInt fun _ => rfl,
      (laneUnary_gives id fun _ => rfl).congr fun _ _ _ => held_low _,
      (laneUnary_gives (~~~ ·) fun _ => rfl).congr fun _ _ _ => held_not32 _,
      (laneUnary_gives (0 - ·) fun _ => rfl).congr fun _ _ _ => held_neg32 _,
      (laneUnary_gives (fun v => if v.msb then 0 - v else v) fun _ => rfl).congr fun _ _ _ => held_abs32 _,
      laneUnary_gives (fun v => BitVec.ofNat 32 (popc32 v)) fun _ => rfl,
      laneUnary_gives (fun v => BitVec.ofNat 32 (clz32 v)) fun _ => rfl,
      laneUnary_gives (fun v => BitVec.ofNat 32 (ctz32 v)) fun _ => rfl,
      laneUnary_gives BitVec.reverse fun _ => rfl⟩
  case typed =>
    refine ⟨laneInt2_gives t (· + ·) fun _ => rfl, laneIntImm_gives t (· + ·) fun _ => rfl,
      laneInt2_gives t (· - ·) fun _ => rfl, laneIntImm_gives t (· - ·) fun _ => rfl,
      laneInt2_gives t (· * ·) fun _ => rfl, laneIntImm_gives t (· * ·) fun _ => rfl,
      ?mad, ?madImm, ?madWide,
      laneInt2_gives t (mulHigh t) fun _ => rfl, laneIntImm_gives t (mulHigh t) fun _ => rfl,
      laneInt2_gives t (divInt t) fun _ => rfl, laneIntImm_gives t (divInt t) fun _ => rfl,
      laneInt2_gives t (remInt t) fun _ => rfl, laneIntImm_gives t (remInt t) fun _ => rfl,
      laneInt2_gives t minInt fun _ => rfl, laneIntImm_gives t minInt fun _ => rfl,
      laneInt2_gives t maxInt fun _ => rfl, laneIntImm_gives t maxInt fun _ => rfl⟩
    all_goals exact laneGives_of_write fun _ => rfl
  case carry =>
    exact ⟨laneCarry_gives (v := fun x y k => x + y + k) (out := fun x y k => 2 ^ 32 ≤ x + y + k) hstart,
      laneCarry_gives (v := fun x y k => x + 2 ^ 33 - y - k) (out := fun x y k => x < y + k) hstart⟩

-- Logic, shifts, fields, moves and selections.

/-- Settles O10: each instruction writes one value of its sources and, for an insertion, of its old destination. -/
theorem logicMoveSelectInstructionsComplete : Obligations.LogicMoveSelectInstructionsComplete := by
  refine ⟨fun t d a b c imm p n => ?logic, fun t d a b c imm lit => ?moves⟩
  case logic =>
    refine ⟨laneLogic_gives t (· &&& ·) fun _ => rfl, laneLogicImm_gives t (· &&& ·) fun _ => rfl,
      laneLogic_gives t (· ||| ·) fun _ => rfl, laneLogicImm_gives t (· ||| ·) fun _ => rfl,
      laneLogic_gives t (· ^^^ ·) fun _ => rfl, laneLogicImm_gives t (· ^^^ ·) fun _ => rfl,
      laneLogic_gives t (fun x y => x &&& ~~~y) fun _ => rfl, laneLogicImm_gives t (fun x y => x &&& ~~~y) fun _ => rfl,
      laneShift_gives t shiftLeft fun _ => rfl, laneShiftImm_gives t shiftLeft fun _ => rfl,
      laneShift_gives t shiftRight fun _ => rfl, laneShiftImm_gives t shiftRight fun _ => rfl,
      laneShift_gives t shiftArith fun _ => rfl, laneShiftImm_gives t shiftArith fun _ => rfl,
      laneShift_gives t rotateLeft fun _ => rfl, laneShiftImm_gives t rotateLeft fun _ => rfl,
      ?bfx, ?bfxImm, ?bfi, ?bfiImm⟩
    all_goals exact laneGives_of_write fun _ => rfl
  case moves =>
    refine ⟨?movi, ?li, laneSelect_gives t fun _ => rfl, laneSelect_gives t fun _ => rfl, ?fgetm, ?mpopc⟩
    all_goals exact laneGives_of_write fun _ => rfl

-- Comparisons and mask instructions.

theorem mpush_gives (a : Code) : GroupGives (.mpush a) { len := 4, ok := fun _ => maskOk a } (fun s _ => s.grp.msp < 16)
    fun s _ g => { g with mstack := g.mstack.set s.grp.msp (s.grp.mask a), msp := s.grp.msp + 1 } :=
  groupGives_of_setGrp (check := fun s _ =>
      if 16 ≤ s.grp.msp then .fault s 6 s.grp.active (BitVec.ofNat 64 s.grp.msp) else .pass)
    (fun _ => rfl) fun _ _ hroom => if_neg (Nat.not_le.mpr hroom)

theorem mpop_gives (d : Code) : GroupGives (.mpop d) { len := 4, ok := fun _ => maskOk d } (fun s _ => s.grp.msp ≠ 0)
    fun s _ g => { g with msp := s.grp.msp - 1 }.setMask d (Map.get 0 s.grp.mstack (s.grp.msp - 1)) :=
  groupGives_of_setGrp (check := fun s _ => if s.grp.msp == 0 then .fault s 7 s.grp.active 0 else .pass)
    (fun _ => rfl) fun _ _ hentry => if_neg (mt eq_of_beq hentry)

/-- Settles O13: the comparisons and mask operations by the mask they write, the stack's two by their checks. -/
theorem compareAndMaskInstructionsComplete : Obligations.CompareAndMaskInstructionsComplete := by
  refine ⟨fun k f t m a b imm => ⟨?cmp, ?cmpImm, ?fcmp⟩,
    fun d a b => ⟨?mand, ?mor, ?mxor, ?mnot, ?mfirst, ?mset, mpush_gives a, mpop_gives d⟩⟩
  case cmp => exact laneCompare_gives (fun _ v => condHolds k (intArg t (v 0)) (intArg t (v 1))) fun _ => rfl
  case cmpImm => exact laneCompare_gives (fun _ v => condHolds k (intArg t (v 0)) (intArg t (immOf t imm))) fun _ => rfl
  case fcmp =>
    exact laneCompare_gives (fun s v =>
      fcondHolds f (fpArg t s.grp.fmode (v 0).toNat) (fpArg t s.grp.fmode (v 1).toNat)) fun _ => rfl
  case mand => exact laneMaskOp_gives (fun g => g.mask a &&& g.mask b) fun _ => rfl
  case mor => exact laneMaskOp_gives (fun g => g.mask a ||| g.mask b) fun _ => rfl
  case mxor => exact laneMaskOp_gives (fun g => g.mask a ^^^ g.mask b) fun _ => rfl
  case mnot => exact laneMaskOp_gives (fun g => ~~~(g.mask a)) fun _ => rfl
  case mfirst =>
    exact laneMaskOp_gives (fun g => match lowestLane (g.mask a) with
      | some i => BitVec.twoPow 64 i
      | none => 0) fun _ => rfl
  case mset => exact maskGives_of_write (fun _ x _ => x 0 0) fun _ => rfl

-- Modes.

/-- The advance of a lane instruction leaves every mask. -/
@[simp] theorem Group.mask_advanced (g : Group) (o : LaneForm) (m : Code) : (g.advanced o).mask m = g.mask m := by
  unfold Group.advanced Group.laneNext Group.pop
  dsimp only
  split <;> rfl

theorem pb_gives (m : Code) (n : BitVec 3) (pat : BitVec 8) :
    GroupGives (.pb m n pat) { len := 4, cover := false, ok := fun _ => m.toNat ≤ 15 } (fun _ _ => True)
      fun s _ g => { g with pb := { mask := s.grp.mask m, left := n.toNat + 1, n := n.toNat + 1, pat := pat } } := by
  intro s hstart _
  change ∃ t, execPb m n pat s = .next t ∧ _
  unfold execPb laneControl
  refine laneRun_setsGroup hstart rfl ?_
  simp only [State.grp_setGrp, State.setGrp_setGrp, Group.mask_advanced]

section
variable {s : State} {a : Code}

/-- The form of `fsetm`, and its check of the rounding code in lane 0 of its source. -/
def fsetmForm (a : Code) : LaneForm := { len := 4, srcs := [src64 a] }
def fsetmCheck (s : State) (vs : List LaneVec) : Check :=
  if 5 ≤ (argAt vs 0 0 &&& 7).toNat then .fault s 2 s.grp.active (s.grp.lword.setWidth 64) else .pass

theorem fsetmCheck_pass {vs : List LaneVec} (h : (argAt vs 0 0 &&& 7).toNat < 5) : fsetmCheck s vs = .pass :=
  if_neg (Nat.not_le.mpr h)

/-- Under a rounding code of 0-4 `fsetm` takes its value without the reserved bits, and counts them where one is set. -/
theorem execFsetm_value (hstart : (fsetmForm a).starts s)
    (hround : (argAt (s.grp.vectors [src64 a]) 0 0 &&& 7).toNat < 5) :
    let v := argAt (s.grp.vectors [src64 a]) 0 0
    let u := s.setGrp { s.grp.advanced (fsetmForm a) with fmode := fmodeValue v }
    execFsetm a s = .next (if v = fmodeValue v then u else u.countBlkErr s.coreNo) := by
  refine laneRun_commits (check := fsetmCheck s) hstart (fsetmCheck_pass hround) ?_
  simp only [State.grp_setGrp, State.setGrp_setGrp, beq_iff_eq]
  rfl

theorem execFsetm_illegal (hstart : (fsetmForm a).starts s)
    (hround : 5 ≤ (argAt (s.grp.vectors [src64 a]) 0 0 &&& 7).toNat) :
    execFsetm a s = .next (s.setGrp (s.grp.laneFault 2 0 s.grp.active (s.grp.lword.setWidth 64))) :=
  laneRun_stop (check := fsetmCheck s) hstart (if_pos hround) _
end

theorem fsetm_gives (a : Code) :
    GroupGives (.fsetm a) (fsetmForm a) (fun _ x => (x 0 0 &&& 7).toNat < 5 ∧ x 0 0 = fmodeValue (x 0 0))
      fun _ x g => { g with fmode := x 0 0 } := by
  rintro s hstart ⟨hround, hclean⟩
  refine ⟨_, (execFsetm_value hstart hround).trans (congrArg _ (if_pos hclean)), OnlyGroup.setGrp s _, ?_⟩
  rw [State.grp_setGrp]
  exact congrArg (fun m => { s.grp.advanced (fsetmForm a) with fmode := m }) hclean.symm

/-- Settles O15: the control instructions by their one field, `fsetm` by the value and the rounding code it reads. -/
theorem modeInstructionsComplete : Obligations.ModeInstructionsComplete := by
  refine ⟨fun m a k p n pat => ⟨laneControl_gives fun _ => rfl, laneControl_gives fun _ => rfl, pb_gives m n pat,
    laneControl_gives fun _ => rfl, fsetm_gives a⟩, fun a s hstart => ⟨fun hround hreserved => ?reserved,
    execFsetm_illegal hstart⟩⟩
  case reserved => exact (execFsetm_value hstart hround).trans (congrArg _ (if_neg hreserved))

end Sys2Proof.Machine

/-! The statement of lane floating point, its special functions and conversions (07 R125-R136). -/
namespace Sys2Proof.Machine

section
variable {i : Instr} {d : Code}

/-- A floating operation with its rounding gives, per element, `f` of the exact operands rounded once. -/
theorem laneFloat_gives {srcs : List Src} (t : Ty) (rm : Rm) (f : Round → (Nat → FVal) → FVal)
    (hexec : ∀ s, exec i s = laneFloat s t rm d srcs f) :
    LaneGives i (laneForm 8 t.wide d srcs) t.wide d fun s x n =>
      perElement t (fun e => fpResult t s.grp.fmode (rmRound rm s.grp.fmode 0)
        (f (rmRound rm s.grp.fmode 0) fun k => fpArg t s.grp.fmode (e k))) fun k => x k n :=
  laneGives_of_write hexec

/-- A special function gives `f` of the exact FP32 operand rounded once to nearest even. -/
theorem laneSpecial_gives {a : Code} (f : FVal → FVal) (hexec : ∀ s, exec i s = laneSpecial s d a f) :
    LaneGives i (long1 d a) false d fun s x n =>
      BitVec.ofNat 64 (fpResult .f32 s.grp.fmode .rne (f (fpArg .f32 s.grp.fmode (x 0 n).toNat))) :=
  laneGives_of_write hexec
end

/-- Settles O11: the arithmetic forms by the operation on exact values that they round, the special functions by the
function they round; scaling, copied signs, classes, dot products and conversions write one value of their own. -/
theorem floatInstructionsComplete : Obligations.FloatInstructionsComplete := by
  refine ⟨fun t rm d a b c => ?arithmetic, fun t u rm sat d a b c e => ?others⟩
  case arithmetic =>
    exact ⟨laneFloat_gives t rm (fun r v => (v 0).add r (v 1)) fun _ => rfl,
      laneFloat_gives t rm (fun r v => (v 0).add r (v 1).neg) fun _ => rfl,
      laneFloat_gives t rm (fun _ v => (v 0).mul (v 1)) fun _ => rfl,
      laneFloat_gives t rm (fun r v => ((v 0).mul (v 1)).add r (v 2)) fun _ => rfl,
      laneFloat_gives t rm (fun _ v => (v 0).div (v 1)) fun _ => rfl,
      laneFloat_gives t rm (fun _ v => (v 0).sqrt) fun _ => rfl,
      laneFloat_gives t rm (fun r v => (v 0).toIntegral r) fun _ => rfl,
      laneFloat_gives t .rne (fun _ v => fpMin (v 0) (v 1)) fun _ => rfl,
      laneFloat_gives t .rne (fun _ v => fpMax (v 0) (v 1)) fun _ => rfl,
      laneFloat_gives t .rne (fun _ v => fpMinNum (v 0) (v 1)) fun _ => rfl,
      laneFloat_gives t .rne (fun _ v => fpMaxNum (v 0) (v 1)) fun _ => rfl,
      laneFloat_gives t .rne (fun _ v => fpMaxAbs (v 0) (v 1)) fun _ => rfl⟩
  case others =>
    refine ⟨laneSpecial_gives exactRcp fun _ => rfl, laneSpecial_gives exactRsq fun _ => rfl,
      laneSpecial_gives exactExp2 fun _ => rfl, laneSpecial_gives exactLog2 fun _ => rfl,
      laneSpecial_gives exactSin fun _ => rfl, laneSpecial_gives exactCos fun _ => rfl,
      ?fscale, ?fcopysign, ?fclass, ?fdot2, ?cvt⟩
    all_goals exact laneGives_of_write fun _ => rfl

end Sys2Proof.Machine

/-! The statements of rearrangement, packing and scans (08 R140-R143, R145), and of the mask stack, its faults, spill and
fill (08 R146, R147). -/
namespace Sys2Proof.Machine

-- Rearrangement.

section
variable {i : Instr} {d a b : Code}

/-- A rearrangement gives each active lane the lane of a that its rule selects, or 0. -/
theorem laneMove_gives {len : Nat} {extra : List Src} (sel : (Nat → Nat → W64) → LaneMask → Nat → Option Nat)
    (hexec : ∀ s, exec i s = laneMove s len d a extra sel) :
    LaneGives i (laneForm len false d (src32 a :: extra)) false d fun s x n =>
      match sel x s.grp.active n with
      | some j => x 0 j
      | none => 0 := by
  intro s hstart
  rw [hexec s]
  exact laneRun_gives (check := fun _ => .pass) hstart rfl fun _ => rfl

/-- Where a rule always selects a lane, that lane is the value. -/
theorem laneMove_gives_lane {len : Nat} {extra : List Src} (lane : (Nat → Nat → W64) → LaneMask → Nat → Nat)
    (hexec : ∀ s, exec i s = laneMove s len d a extra fun x act n => some (lane x act n)) :
    LaneGives i (laneForm len false d (src32 a :: extra)) false d fun s x n => x 0 (lane x s.grp.active n) :=
  laneMove_gives _ hexec

/-- The slides by an immediate. -/
theorem slideupImm_gives (n : BitVec 6) : LaneGives (.slideupImm d a n) (long1 d a) false d
    fun _ x k => if n.toNat ≤ k then x 0 (k - n.toNat) else 0 :=
  (laneMove_gives (fun _ _ k => slideFrom true n.toNat k) fun _ => rfl).congr
    fun _ x k => congrArg (heldValue false) (slide_up (x 0) n.toNat k)

theorem slidednImm_gives (n : BitVec 6) : LaneGives (.slidednImm d a n) (long1 d a) false d
    fun _ x k => if k + n.toNat ≤ 63 then x 0 (k + n.toNat) else 0 :=
  (laneMove_gives (fun _ _ k => slideFrom false n.toNat k) fun _ => rfl).congr
    fun _ x k => congrArg (heldValue false) (slide_down (x 0) n.toNat k)

/-- The form of the slides by scq (04 R80). -/
def slideForm (d a b : Code) : LaneForm := (laneForm 8 false d [src32 a, src32 b]).also (b.toNat == 117)

theorem laneSlide_gives (up : Bool) (hexec : ∀ s, exec i s = laneSlide s up d a b) :
    LaneGives i (slideForm d a b) false d fun _ x n =>
      match slideFrom up (lowBits 32 (x 1 n)) n with
      | some j => x 0 j
      | none => 0 :=
  laneGives_of_write hexec

theorem slideup_gives : LaneGives (.slideup d a b) (slideForm d a b) false d
    fun _ x k => if lowBits 32 (x 1 k) ≤ k then x 0 (k - lowBits 32 (x 1 k)) else 0 :=
  (laneSlide_gives true fun _ => rfl).congr
    fun _ x k => congrArg (heldValue false) (slide_up (x 0) (lowBits 32 (x 1 k)) k)

theorem slidedn_gives : LaneGives (.slidedn d a b) (slideForm d a b) false d
    fun _ x k => if k + lowBits 32 (x 1 k) ≤ 63 then x 0 (k + lowBits 32 (x 1 k)) else 0 :=
  (laneSlide_gives false fun _ => rfl).congr
    fun _ x k => congrArg (heldValue false) (slide_down (x 0) (lowBits 32 (x 1 k)) k)
end

-- Packing and scans.

section
variable {s : State} {d a : Code}

/-- What `compress` puts in a lane of its destination: that active lane's value, counted from the lowest (08 R141). -/
def packedValue (g : Group) (a : Code) (i : Nat) : W64 :=
  match (activeLanes g.active)[i]? with
  | some j => argAt (g.vectors [src32 a]) 0 j
  | none => 0

theorem execCompress_window (hstart : (short1 d a).starts s) (hd : d.toNat ≠ 116) :
    ∃ u, execCompress d a s = .next u
      ∧ LaneWrites s (short1 d a) false d (lowLanes (activeLanes s.grp.active).length) (packedValue s.grp a) u := by
  unfold execCompress
  exact ⟨_, laneRun_commits hstart rfl (if_neg (mt eq_of_beq hd)), State.writeDest_spec s _ false d _ _⟩

theorem execCompress_stq (hstart : (short1 d a).starts s) (hd : d.toNat = 116) :
    execCompress d a s = .next (s.setGrp { s.grp.advanced (short1 d a) with
      stq := s.grp.stq ++ [⟨lanes fun i => (packedValue s.grp a i).setWidth 32, s.grp.active⟩] }) := by
  obtain ⟨-, -, -, -, hstq⟩ := s.grp.advanced_spec (short1 d a)
  unfold execCompress
  refine laneRun_commits hstart rfl ((if_pos (beq_iff_eq.mpr hd)).trans ?_)
  rw [State.grp_setGrp, State.setGrp_setGrp, ← hstq]
  rfl

/-- The form of `gscan`, and the running sums it makes of its source (08 R145). -/
def scanForm (t : Ty) (a : Code) : LaneForm := { len := 8, srcs := [srcOf t a], ok := fun _ => a.toNat < 112, fbq := true }
def runningSums (g : Group) (t : Ty) (a : Code) : List (Nat × W64) :=
  scanEntries t g.fmode g.active fun i => argAt (g.vectors [srcOf t a]) 0 i

theorem execGscan_gives {t : Ty} (hstart : (scanForm t a).starts s) :
    ∃ u, LaneWrites s (scanForm t a) false a s.grp.active (Map.get 0 (runningSums s.grp t a)) u
      ∧ execGscan t a s = .next
        (u.setGrp (u.grp.fbqAdded u.cycles (((runningSums s.grp t a).getLast?.map fun p => p.2).getD 0))) := by
  unfold execGscan
  exact ⟨_, State.writeDest_spec s _ false a _ _, laneRun_commits hstart rfl rfl⟩
end

/-- Settles O12: the rearrangements by the lane that each selects, `compress` by its two destinations, `gscan` by the
write of its sums and the push after it. -/
theorem rearrangementInstructionsComplete : Obligations.RearrangementInstructionsComplete := by
  refine ⟨fun d a b n q => ?moves, fun t d a s => ⟨execCompress_window, execCompress_stq, execGscan_gives⟩⟩
  case moves =>
    exact ⟨laneMove_gives_lane (fun x _ k => lowBits 6 (x 1 k)) fun _ => rfl,
      laneMove_gives_lane (fun x act _ => lowBits 6 (x 1 ((lowestLane act).getD 0))) fun _ => rfl,
      laneMove_gives_lane (fun _ _ _ => n.toNat) fun _ => rfl,
      slideup_gives, slideupImm_gives n, slidedn_gives, slidednImm_gives n,
      laneMove_gives_lane (fun _ _ k => k ^^^ 1) fun _ => rfl,
      laneMove_gives_lane (fun _ _ k => k ^^^ 2) fun _ => rfl,
      laneMove_gives_lane (fun _ _ k => k ^^^ 3) fun _ => rfl,
      laneMove_gives_lane (fun _ _ k => 4 * (k / 4) + q.toNat) fun _ => rfl,
      laneMove_gives_lane (fun _ act k => ((activeLanes act).filter (· < k)).length) fun _ => rfl⟩

-- The mask stack: its faults.

section
variable {s : State} {a : Code}

theorem execMpush_full (hstart : ({ len := 4, ok := fun _ => maskOk a } : LaneForm).starts s) (hfull : 16 ≤ s.grp.msp) :
    execMpush a s = .next (s.setGrp (s.grp.laneFault 6 0 s.grp.active (BitVec.ofNat 64 s.grp.msp))) :=
  laneRun_stop hstart (if_pos hfull) _

theorem execMpop_empty (hstart : ({ len := 4, ok := fun _ => maskOk a } : LaneForm).starts s) (hempty : s.grp.msp = 0) :
    execMpop a s = .next (s.setGrp (s.grp.laneFault 7 0 s.grp.active 0)) :=
  laneRun_stop hstart (if_pos (beq_iff_eq.mpr hempty)) _
end

-- The mask stack: spill and fill.

/-- The form of `mspill` and `mfill`, and the accesses they make from the address in lane 0 of their source. -/
def stackForm (a : Code) : LaneForm := { len := 8, srcs := [src64 a] }
def Group.stackAt (g : Group) (sp : Space) (a : Code) (off : Half) : List LaneAccess :=
  stackAccesses sp (argAt (g.vectors [src64 a]) 0 0 + off.signExtend 64)

/-- The bytes that `mspill` stores by one of its accesses: that word of the stack's image (08 R147). -/
def Group.spillBytes (g : Group) (l : List LaneAccess) (x : LaneAccess) : List Byte :=
  leBytes 8 (g.stackWord (stackIndex l x)).toNat

/-- The stores of a spill that are performed at its step, on `t`: those at places that are not posted. -/
def State.spillStores (s : State) (l : List LaneAccess) (t : State) : State :=
  l.foldl (fun u x =>
    match s.place s.cur false x.addr with
    | .ok p => if p.posted s.coreNo then u else u.laneStore x (s.grp.spillBytes l x)
    | .error _ => u) t

/-- The requests of a spill's posted stores. -/
def State.spillRequests (s : State) (l : List LaneAccess) : List Request :=
  (l.map fun x => s.requests (fun _ => s.grp.spillBytes l x) [x]).flatten

theorem spillRequests_nil {s : State} {l : List LaneAccess} (h : ∀ x ∈ l, s.postedAt x.addr = false) :
    s.spillRequests l = [] := by
  rw [State.spillRequests, List.flatten_eq_nil_iff, List.forall_mem_map]
  exact fun x hx => requests_one s _ x (h x hx)

section
variable {s : State} {sp : Space} {a : Code} {off : Half}

/-- A spill of which nothing is posted performs its stores and empties the stack. -/
theorem execMspill_unposted (hstart : (stackForm a).starts s) (hsend : s.grp.laneSend = none)
    (hcheck : s.addressCheck .store 8 (s.grp.stackAt sp a off) id = .pass)
    (hplain : ∀ x ∈ s.grp.stackAt sp a off, s.postedAt x.addr = false) :
    let v := s.spillStores (s.grp.stackAt sp a off) (s.setGrp (s.grp.advanced (stackForm a)))
    execMspill sp a off s = .next (v.setGrp { v.grp with laneSend := none, msp := 0, mstack := [] }) := by
  have hreq := spillRequests_nil hplain
  unfold State.spillRequests Group.spillBytes Group.stackAt at hreq
  unfold Group.stackAt at hcheck
  unfold execMspill
  refine laneRun_commits hstart ?check ?effect
  case check =>
    simp only [hsend, Option.isNone_none, if_true, hcheck, hreq, List.foldl_nil, List.map_nil, State.sendPosts,
      List.isEmpty_nil]
  case effect =>
    simp only [hsend, Option.isNone_none, if_true, hreq, List.foldl_nil, List.map_nil, State.sendPosts]
    rfl

/-- The words that `mfill` reads: the stored depth, then the entries. -/
def State.stackWords (s : State) (l : List LaneAccess) : List W64 :=
  l.map fun x => BitVec.ofNat 64 (leNat (s.laneLoad .load 8 x).2)

/-- The depth of a stack that is read, and a record that holds the stack. -/
def storedDepth (w : List W64) : Nat := (w.getD 0 0).toNat
def Group.refilled (g : Group) (w : List W64) : Group :=
  { g with msp := storedDepth w, mstack := (List.range (storedDepth w)).map fun k => (k, w.getD (k + 1) 0) }

/-- A fill of a depth up to 16 takes the stack it reads. -/
theorem execMfill_value (hstart : (stackForm a).starts s)
    (hcheck : s.addressCheck .load 8 (s.grp.stackAt sp a off) id = .pass)
    (hdepth : storedDepth (s.stackWords (s.grp.stackAt sp a off)) ≤ 16) :
    let u := ((s.setGrp (s.grp.advanced (stackForm a))).laneLoads .load 8 (s.grp.stackAt sp a off)).1
    execMfill sp a off s = .next (u.setGrp (u.grp.refilled (s.stackWords (s.grp.stackAt sp a off)))) := by
  unfold execMfill
  refine laneRun_commits hstart ?check rfl
  case check =>
    unfold Group.stackAt at hcheck
    simp only [hcheck]
    exact if_neg (Nat.not_lt.mpr hdepth)

/-- A greater depth is the overflow fault (08 R147). -/
theorem execMfill_overflow (hstart : (stackForm a).starts s)
    (hcheck : s.addressCheck .load 8 (s.grp.stackAt sp a off) id = .pass)
    (hdepth : 16 < storedDepth (s.stackWords (s.grp.stackAt sp a off))) :
    execMfill sp a off s = .next (s.setGrp (s.grp.laneFault 6 0 s.grp.active (BitVec.ofNat 64 s.grp.msp))) := by
  unfold stackForm at hstart
  unfold Group.stackAt at hcheck
  unfold execMfill
  refine laneRun_stop hstart ?_ _
  simp only [hcheck]
  exact if_pos hdepth
end

/-- Settles O14: overflow and underflow by the checks before the stack's instructions, spill and fill by the records they
leave. -/
theorem maskStackInstructions : Obligations.MaskStackInstructions := by
  refine ⟨fun a s hstart => ⟨execMpush_full hstart, execMpop_empty hstart⟩,
    fun sp a off s hstart => ⟨fun hsend hcheck hplain => ?spill, fun hcheck hdepth => ?fill, execMfill_overflow hstart⟩⟩
  case spill =>
    refine ⟨_, execMspill_unposted hstart hsend hcheck hplain, ?_⟩
    rw [State.grp_setGrp]
    exact ⟨rfl, rfl, rfl⟩
  case fill =>
    refine ⟨_, execMfill_value hstart hcheck hdepth, ?_⟩
    rw [State.grp_setGrp]
    exact ⟨rfl, rfl⟩

end Sys2Proof.Machine

/-! The statements of the compute stream's memory accesses: loads and stores, those to the block's own scratch, and
atomics (09 R152-R161). -/
namespace Sys2Proof.Machine

-- Loads.

/-- The form of a lane load of size `z`. -/
def loadForm (z : Size) (d a : Code) : LaneForm :=
  { len := 8, srcs := [src64 a], ok := fun g => g.dataOk z true d, stq := d.toNat == 116 }

/-- The accesses that the active lanes make, at the addresses of the first of the sources `srcs`. -/
def State.accesses (s : State) (sp : Space) (off : Half) (srcs : List Src) : List LaneAccess :=
  accessesOf sp off s.grp.active fun i => argAt (s.grp.vectors srcs) 0 i

/-- The state in which the accesses `l` have been read into their destination and are outstanding. -/
def State.laneLoaded (s : State) (m : Access) (z : Size) (sext : Bool) (d : Code) (act : LaneMask) (l : List LaneAccess) :
    State :=
  let r := (s.sample 0 (Size.bytes z) act l false false).laneLoads m (Size.bytes z) l
  (r.1.writeLoaded z sext d act r.2).busy

theorem laneLoaded_mem (s : State) (m : Access) (z : Size) (sext : Bool) (d : Code) (act : LaneMask) (l : List LaneAccess) :
    (s.laneLoaded m z sext d act l).mem = s.mem := by
  unfold State.laneLoaded
  rw [busy_mem, State.writeLoaded_mem, State.laneLoads_mem, State.sample_mem]

section
variable {sc : Scope} {sp : Space} {z : Size} {sext : Bool} {d a : Code} {off : Half} {s : State}
  (hstart : (loadForm z d a).starts s)
include hstart

theorem execLd_completes
    (hcheck : s.accessCheck 0 .load (Size.bytes z) s.grp.active (s.accesses sp off [src64 a]) = .pass) :
    execLd sp z sext d a off s = .next
      (((loadForm z d a).commit s).laneLoaded .load z sext d s.grp.active (s.accesses sp off [src64 a])) := by
  unfold execLd laneLd
  exact laneRun_commits hstart hcheck rfl

theorem execLdAcq_completes
    (hcheck : s.accessCheck 0 .loadHome (Size.bytes z) s.grp.active (s.accesses sp off [src64 a]) = .pass) :
    execLdAcq sc sp z d a off s = .next
      ((((loadForm z d a).commit s).laneLoaded .loadHome z false d s.grp.active
        (s.accesses sp off [src64 a])).laneAcquire sc) := by
  unfold execLdAcq laneLd
  exact laneRun_commits hstart hcheck rfl
end

-- Stores.

/-- The sources of a lane store: data of 128 bits are registers that the form names itself. -/
def storeSrcs (z : Size) (a b : Code) : List Src := if z == .b128 then [src64 a] else [src64 a, ⟨b, z == .b64⟩]

/-- The form of a lane store of size `z`. -/
def storeForm (z : Size) (a b : Code) : LaneForm :=
  { len := 8, srcs := storeSrcs z a b, ok := fun g => g.dataOk z false b }

/-- The accesses of a list that are not posted. -/
def State.unposted (s : State) (l : List LaneAccess) : List LaneAccess :=
  l.filter fun x => match s.place s.cur false x.addr with
    | .ok p => !p.posted s.coreNo
    | .error _ => false

/-- The accesses `plain` of a store performed, and its postings sent as far as the journal takes them. -/
def State.storesPut (s : State) (n : Nat) (act : LaneMask) (data : Nat → List Byte) (l plain : List LaneAccess)
    (posts : List Posting) : State × List Posting :=
  ((s.sample 1 n act l (!posts.isEmpty) false).laneStores data plain).sendPosts posts

/-- The state past a store: what is not posted is outstanding. -/
def State.storeDone (s : State) (plain : List LaneAccess) : State :=
  if plain.isEmpty then (s.setGrp { s.grp with laneSend := none }).sampleDone s.cur
  else s.setGrp { s.grp with laneSend := none, laneBusy := true }

/-- What the active lanes of a store hold for memory. -/
def State.laneData (s : State) (z : Size) (a b : Code) : Nat → List Byte :=
  storeData s z b (s.grp.vectors (storeSrcs z a b))

/-- A store that has sent nothing yet has all its requests to post. -/
theorem pendingPosts_first {s : State} (hsend : s.grp.laneSend = none) (size : Nat) (data : Nat → List Byte)
    (l : List LaneAccess) : s.pendingPosts size data l = (s.requests data l).map fun r => r.posting size 0 true := by
  unfold State.pendingPosts
  rw [hsend]

/-- A store whose release, if it is one, has passed, and whose postings the journal takes. -/
theorem laneSt_completes {rel : Option Scope} {sp : Space} {z : Size} {a b : Code} {off : Half} {s : State}
    {l plain : List LaneAccess} {posts : List Posting} (hstart : (storeForm z a b).starts s) (hsend : s.grp.laneSend = none)
    (hrel : ∀ k, Check.release s rel k = k) (hl : s.accesses sp off (storeSrcs z a b) = l) (hplain : s.unposted l = plain)
    (hposts : ((s.requests (s.laneData z a b) l).map fun r => r.posting (Size.code z) 0 true) = posts)
    (hcheck : s.accessCheck 1 .store (Size.bytes z) s.grp.active l = .pass)
    (hput : (s.storesPut (Size.bytes z) s.grp.active (s.laneData z a b) l plain posts).2 = []) :
    laneSt s rel sp z a b off = .next ((((storeForm z a b).commit s).storesPut (Size.bytes z) s.grp.active
      (s.laneData z a b) l plain posts).1.storeDone plain) := by
  subst hl hplain hposts
  have hfirst : s.grp.laneSend.isNone = true := by rw [hsend]; rfl
  have hpending := pendingPosts_first hsend (Size.code z) (s.laneData z a b) (s.accesses sp off (storeSrcs z a b))
  unfold laneSt
  refine laneRun_commits hstart ?check ?effect
  case check =>
    rw [hfirst, if_pos rfl, if_pos rfl, hrel]
    rw [show s.accessCheck 1 .store (Size.bytes z) s.grp.active (accessesOf sp off s.grp.active fun i =>
      argAt (s.grp.vectors (if z == .b128 then [src64 a] else [src64 a, ⟨b, z == .b64⟩])) 0 i) = .pass from hcheck]
    refine if_pos ?_
    rw [if_pos rfl]
    exact (congrArg (fun posts => List.isEmpty (s.storesPut _ _ _ _ _ posts).2) hpending).trans (congrArg List.isEmpty hput)
  case effect =>
    show State.storeDone (State.sendPosts (if s.grp.laneSend.isNone then _ else _) _).1 _ = _
    rw [hfirst, if_pos rfl]
    exact congrArg (fun posts => (State.storesPut _ _ _ _ _ _ posts).1.storeDone _) hpending

/-- Settles O21: a load and a store whose checks pass take the effects of their forms; a sample taken or not, reading
leaves memory. -/
theorem laneLoadsAndStoresComplete : Obligations.LaneLoadsAndStoresComplete := by
  refine ⟨fun sc sp z sext d a off s => ?loads, fun sc sp z a b off s => ?stores⟩
  case loads =>
    intro o hstart l r
    refine ⟨fun hcheck => ⟨_, execLd_completes hstart hcheck, rfl, fun _ k => ?_⟩, execLdAcq_completes hstart⟩
    rw [laneLoaded_mem, commit_mem]
  case stores =>
    intro srcs o hstart hsend vs l data plain posts put hcheck hput v t
    refine ⟨laneSt_completes (rel := none) hstart hsend (fun _ => rfl) rfl rfl rfl hcheck hput, fun hflight hscope => ?_⟩
    exact laneSt_completes (rel := some sc) hstart hsend (fun k => release_ready s sc k hflight hscope) rfl rfl rfl hcheck hput

-- Loads from the block's own scratch.

theorem fenced_of_poisoned {s : State} {key n : Nat} (h : s.poisoned key n = false) : s.fencedKey key = false :=
  (Bool.or_eq_false_iff.mp h).1

theorem commit_blk (s : State) (o : LaneForm) : (o.commit s).grp.blk = s.grp.blk ∧ (o.commit s).blk = s.blk := by
  have hgrp : (o.commit s).grp.blk = s.grp.blk := by
    rw [State.commit_eq, State.grp_setGrp]
    exact (s.grp.advanced_sampler o).2
  refine ⟨hgrp, ?_⟩
  unfold State.blk
  rw [hgrp]
  rfl

theorem commit_unarmed {s : State} (o : LaneForm) (h : s.grp.sampler.armed = false) :
    (o.commit s).grp.sampler.armed = false := by
  rw [State.commit_eq, State.grp_setGrp, (s.grp.advanced_sampler o).1, h]

theorem writeLoaded_narrow {z : Size} (hz : z ≠ .b128) (s : State) (sext : Bool) (d : Code) (act : LaneMask)
    (r : List (Nat × List Byte)) :
    s.writeLoaded z sext d act r = s.writeDest (z == .b64) d act fun i => loadValue z sext (Map.get [] r i) := by
  cases z with
  | b128 => exact absurd rfl hz
  | b8 | b16 | b32 | b64 => rfl

/-- What lanes read at the addresses `v` in scratch. -/
def State.scratchBytes (s : State) (v : Nat → W64) (n i : Nat) : List Byte := s.bytes (s.grp.scratchAt (v i)) n

/-- The accesses of the active lanes in scratch read, none of them sampled. -/
theorem laneLoaded_scratch {z : Size} (hz : z ≠ .b128) {s : State} {sext : Bool} {d : Code} {v : Nat → W64}
    (o : LaneForm) (harmed : s.grp.sampler.armed = false) (hin : ∀ i, i < 64 → s.grp.active.getLsbD i = true →
      (v i &&& 0x00FFFFFFFFFFFFFF).toNat + Size.bytes z ≤ s.blk.scratch) :
    (o.commit s).laneLoaded .load z sext d s.grp.active (scr (activeLanes s.grp.active) v) =
      ((o.commit s).writeDest (z == .b64) d s.grp.active fun i => loadValue z sext (Map.get []
        ((activeLanes s.grp.active).map fun i => (i, s.scratchBytes v (Size.bytes z) i)) i)).busy := by
  obtain ⟨hgblk, hblk⟩ := commit_blk s o
  have hread := laneLoads_scratch (o.commit s) (Size.bytes z) v (bytes_pos z) (activeLanes s.grp.active) fun i hi => by
    obtain ⟨hlt, hact⟩ := (mem_active _ _).mp hi
    rw [hblk]
    exact hin i hlt hact
  unfold State.laneLoaded
  rw [State.sample_unarmed _ _ _ _ _ _ _ (commit_unarmed o harmed), hread, hgblk]
  dsimp only
  rw [writeLoaded_narrow hz]
  rfl

/-- A plain load of which every active lane lies in the block's own scratch. -/
theorem execLd_scratch {z : Size} {sext : Bool} {d a : Code} {off : Half} {s : State} (hstart : (loadForm z d a).starts s)
    (hz : z ≠ .b128) (harmed : s.grp.sampler.armed = false) (hnet : ∀ m ∈ s.net, m.src ≠ s.cur) :
    let v := fun i => argAt (s.grp.vectors [src64 a]) 0 i + off.signExtend 64
    (∀ i, i < 64 → s.grp.active.getLsbD i = true → (v i &&& 0x00FFFFFFFFFFFFFF).toNat % Size.bytes z = 0
      ∧ (v i &&& 0x00FFFFFFFFFFFFFF).toNat + Size.bytes z ≤ s.blk.scratch
      ∧ s.poisoned (s.grp.scratchAt (v i)) (Size.bytes z) = false) →
    ∃ u, execLd .scratch z sext d a off s = .next u.busy ∧ LaneWrites s (loadForm z d a) (z == .b64) d s.grp.active
      (fun i => loadValue z sext (s.scratchBytes v (Size.bytes z) i)) u := by
  intro v hin
  have hcheck : s.accessCheck 0 .load (Size.bytes z) s.grp.active (s.accesses .scratch off [src64 a]) = .pass :=
    accessCheck_scratch s 0 .load (Size.bytes z) s.grp.active v (bytes_mem z hz) (.inl rfl) hnet fun i hlt hact => by
      obtain ⟨hal, hb, hp⟩ := hin i hlt hact
      exact ⟨hb, hal, fenced_of_poisoned hp, fun _ => hp⟩
  refine ⟨_, (execLd_completes hstart hcheck).trans (congrArg _ (laneLoaded_scratch hz _ harmed fun i hlt hact =>
    (hin i hlt hact).2.1)), (State.writeDest_spec ..).congrActive fun i hlt hact => ?_⟩
  rw [map_get_map _ _ _ _ ((mem_active _ _).mpr ⟨hlt, hact⟩)]

-- Stores to the block's own scratch.

section
variable {s : State} {v : Nat → W64} {n : Nat} (hn : 0 < n)
  (hin : ∀ i, i < 64 → s.grp.active.getLsbD i = true → (v i &&& 0x00FFFFFFFFFFFFFF).toNat + n ≤ s.blk.scratch)
include hn hin

theorem place_scr : ∀ x ∈ scr (activeLanes s.grp.active) v, ∃ off, s.place s.cur false x.addr = .ok (.scratch off) := by
  intro x hx
  obtain ⟨i, hi, rfl⟩ := List.mem_map.mp hx
  obtain ⟨hlt, hact⟩ := (mem_active _ _).mp hi
  exact ⟨_, place_scratch s s.cur (v i) (Nat.lt_of_lt_of_le (Nat.lt_add_of_pos_right hn) (hin i hlt hact))⟩

theorem unposted_scr : s.unposted (scr (activeLanes s.grp.active) v) = scr (activeLanes s.grp.active) v := by
  refine List.filter_eq_self.mpr fun x hx => ?_
  obtain ⟨off, hplace⟩ := place_scr hn hin x hx
  rw [hplace]
  rfl

theorem requests_scr (data : Nat → List Byte) : s.requests data (scr (activeLanes s.grp.active) v) = [] := by
  refine requests_none s data _ fun x hx => ?_
  obtain ⟨off, hplace⟩ := place_scr hn hin x hx
  unfold State.postedAt
  rw [hplace]
  rfl
end

/-- Without postings and without a sample, a store is its accesses performed. -/
theorem storesPut_unposted {s : State} (harmed : s.grp.sampler.armed = false) (n : Nat) (act : LaneMask)
    (data : Nat → List Byte) (l plain : List LaneAccess) :
    s.storesPut n act data l plain [] = (s.laneStores data plain, []) := by
  unfold State.storesPut
  rw [State.sample_unarmed _ _ _ _ _ _ _ harmed]
  rfl

/-- Two records with the same registers and masks, and the same place in the compute stream. -/
def Group.SameRegisters (g h : Group) : Prop :=
  h.win = g.win ∧ h.x = g.x ∧ h.masks = g.masks ∧ h.em = g.em ∧ h.lpc = g.lpc

theorem Group.SameRegisters.trans {g h k : Group} (hgh : g.SameRegisters h) (hhk : h.SameRegisters k) : g.SameRegisters k := by
  obtain ⟨hwin, hx, hmasks, hem, hlpc⟩ := hgh
  obtain ⟨kwin, kx, kmasks, kem, klpc⟩ := hhk
  exact ⟨kwin.trans hwin, kx.trans hx, kmasks.trans hmasks, kem.trans hem, klpc.trans hlpc⟩

theorem Kept.sameRegisters {s t : State} (h : Kept s t) : s.grp.SameRegisters t.grp := by
  unfold Group.SameRegisters
  rw [h.grpFields]
  exact ⟨rfl, rfl, rfl, rfl, rfl⟩

/-- What the end of a store, with no sample to finish, leaves. -/
theorem storeDone_spec {s : State} (plain : List LaneAccess) (h : s.grp.sampler.pending = none) :
    (s.storeDone plain).mem = s.mem ∧ s.grp.SameRegisters (s.storeDone plain).grp := by
  unfold State.storeDone
  split
  · have hpending : ((s.setGrp { s.grp with laneSend := none }).grpAt s.cur).sampler.pending = none := by
      rw [State.grpAt_setGrp, if_pos rfl]
      exact h
    rw [sampleDone_none _ _ hpending, State.grp_setGrp]
    exact ⟨rfl, rfl, rfl, rfl, rfl, rfl⟩
  · rw [State.grp_setGrp]
    exact ⟨rfl, rfl, rfl, rfl, rfl, rfl⟩

/-- The advance of a lane instruction leaves the registers and masks of both streams. -/
theorem advanced_registers (g : Group) (o : LaneForm) : (g.advanced o).win = g.win ∧ (g.advanced o).x = g.x
    ∧ (g.advanced o).masks = g.masks ∧ (g.advanced o).em = g.em := by
  unfold Group.advanced Group.laneNext Group.pop
  dsimp only
  split <;> exact ⟨rfl, rfl, rfl, rfl⟩

theorem storeSrcs_narrow {z : Size} (hz : z ≠ .b128) (a b : Code) : storeSrcs z a b = [src64 a, ⟨b, z == .b64⟩] :=
  if_neg (mt beq_iff_eq.mp hz)

theorem storeData_narrow {z : Size} (hz : z ≠ .b128) (s : State) (b : Code) (vs : List LaneVec) (i : Nat) :
    storeData s z b vs i = leBytes (Size.bytes z) (argAt vs 1 i).toNat := by
  cases z with
  | b128 => exact absurd rfl hz
  | b8 | b16 | b32 | b64 => rfl

theorem laneData_length {z : Size} (hz : z ≠ .b128) (s : State) (a b : Code) (i : Nat) :
    (s.laneData z a b i).length = Size.bytes z := by
  rw [State.laneData, storeData_narrow hz, leBytes_length]

/-- Whether the active lanes may store `n` bytes each at the addresses `v` in the block's own scratch. -/
def State.lanesStoreInScratch (s : State) (v : Nat → W64) (n : Nat) : Prop :=
  ∀ i, i < 64 → s.grp.active.getLsbD i = true → (v i &&& 0x00FFFFFFFFFFFFFF).toNat % n = 0
    ∧ (v i &&& 0x00FFFFFFFFFFFFFF).toNat + n ≤ s.blk.scratch ∧ s.fencedKey (s.grp.scratchAt (v i)) = false

/-- A plain store of which every active lane lies in the block's own scratch is its writes in lane order. -/
theorem execSt_scratch {z : Size} {a b : Code} {off : Half} {s : State} (hstart : (storeForm z a b).starts s)
    (hz : z ≠ .b128) (harmed : s.grp.sampler.armed = false) (hnet : ∀ m ∈ s.net, m.src ≠ s.cur)
    (hsend : s.grp.laneSend = none) (hl : s.grp.loadsAway = false) :
    let v := fun i => argAt (s.grp.vectors (storeSrcs z a b)) 0 i + off.signExtend 64
    let l := scr (activeLanes s.grp.active) v
    s.lanesStoreInScratch v (Size.bytes z) → execSt .scratch z a b off s = .next
      ((((storeForm z a b).commit s).laneStores (s.laneData z a b) l).storeDone l) := by
  intro v l hin
  have hn := bytes_pos z
  have hbound := fun i hlt hact => (hin i hlt hact).2.1
  have hcheck : s.accessCheck 1 .store (Size.bytes z) s.grp.active l = .pass :=
    accessCheck_scratch s 1 .store (Size.bytes z) s.grp.active v (bytes_mem z hz) (.inr ⟨rfl, hl⟩) hnet
      fun i hlt hact => by
        obtain ⟨hal, hb, hf⟩ := hin i hlt hact
        exact ⟨hb, hal, hf, fun h => nomatch h⟩
  have hdone := laneSt_completes (rel := none) (posts := []) hstart hsend (fun _ => rfl) (l := l) rfl
    (unposted_scr hn hbound) (by rw [requests_scr hn hbound]; rfl) hcheck (by rw [storesPut_unposted harmed])
  rw [storesPut_unposted (commit_unarmed _ harmed)] at hdone
  exact hdone

/-- What those writes leave of the group, with no sample to finish, and of memory. -/
theorem storedScratch_spec {z : Size} {a b : Code} {s : State} {v : Nat → W64} (hz : z ≠ .b128)
    (hpending : s.grp.sampler.pending = none) (hin : s.lanesStoreInScratch v (Size.bytes z)) :
    let l := scr (activeLanes s.grp.active) v
    let t := (((storeForm z a b).commit s).laneStores (s.laneData z a b) l).storeDone l
    (s.grp.advanced (storeForm z a b)).SameRegisters t.grp ∧ t.mem = (activeLanes s.grp.active).foldl
      (fun m i => Memory.writeCells m (cellsOf (s.grp.scratchAt (v i)) (s.laneData z a b i))) s.mem := by
  intro l t
  obtain ⟨hgblk, hblk⟩ := commit_blk s (storeForm z a b)
  have hcommit : ((storeForm z a b).commit s).grp = s.grp.advanced (storeForm z a b) := State.grp_setGrp ..
  obtain ⟨hkept, hmem⟩ := laneStores_scratch (Size.bytes z) v (s.laneData z a b) (bytes_pos z) (laneData_length hz s a b)
    (activeLanes s.grp.active) ((storeForm z a b).commit s) fun i hi => by
      obtain ⟨hlt, hact⟩ := (mem_active _ _).mp hi
      rw [hblk]
      exact (hin i hlt hact).2.1
  rw [hgblk] at hmem
  have hidle : (((storeForm z a b).commit s).laneStores (s.laneData z a b) l).grp.sampler.pending = none := by
    rw [hkept.grpFields]
    show ((storeForm z a b).commit s).grp.sampler.pending = none
    rw [hcommit, (s.grp.advanced_sampler _).1, hpending]
  obtain ⟨hdmem, hdone⟩ := storeDone_spec l hidle
  exact ⟨hcommit ▸ hkept.sameRegisters.trans hdone, hdmem.trans hmem⟩

/-- Settles O22: the bytes that the lanes read are their values; the writes of the lanes in order leave the bytes outside
them, and of a byte the highest lane's. -/
theorem scratchLoadsAndStores : Obligations.ScratchLoadsAndStores := by
  refine ⟨fun z sext d a off s => ?load, fun z a b off s => ?store⟩
  case load =>
    intro o addr hstart hz harmed hnet hin
    exact execLd_scratch hstart hz harmed hnet hin
  case store =>
    intro srcs o addr n hi hstart hz harmed hpending hnet hsend hl hin
    have hsrcs := storeSrcs_narrow hz a b
    have hform : o = storeForm z a b := by unfold storeForm; rw [hsrcs]
    rw [hform] at hstart
    have hexec := execSt_scratch (off := off) hstart hz harmed hnet hsend hl
    rw [hsrcs] at hexec
    obtain ⟨⟨hwin, hx, hmasks, hem, hlpc⟩, hmem⟩ := storedScratch_spec (a := a) (b := b) hz hpending hin
    obtain ⟨awin, ax, amasks, aem⟩ := advanced_registers s.grp (storeForm z a b)
    have alpc := (s.grp.advanced_spec (storeForm z a b)).1
    refine ⟨_, hexec hin, hwin.trans awin, hx.trans ax, hmasks.trans amasks, hem.trans aem, hlpc.trans alpc,
      fun k hk => ?outside, fun i hlt hact hlater k hk => ?inside⟩
    case outside =>
      rw [hmem]
      refine (read_folds n (fun i => scratchKey s.grp.blk (addr i)) _ (laneData_length hz s a b) _ s.mem hi).2 k fun i hi => ?_
      obtain ⟨hlt, hact⟩ := (mem_active _ _).mp hi
      exact hk i hlt hact
    case inside =>
      obtain ⟨l1, l2, hsplit, hl2⟩ := active_split s.grp.active i hlt hact
      have hdata : s.laneData z a b i = leBytes n (argAt (s.grp.vectors srcs) 1 i).toNat := by
        rw [State.laneData, storeData_narrow hz, hsrcs]
      rw [hmem, hsplit, ← hdata]
      refine read_folds_last n (fun i => scratchKey s.grp.blk (addr i)) _ (laneData_length hz s a b) l1 l2 i s.mem hi
        (fun j hj => ?_) k hk
      obtain ⟨hij, hjlt, hjact⟩ := hl2 j hj
      have hdisjoint := hlater j hij hjlt hjact
      simp only [scratchKey]
      omega

-- Atomics.

/-- The sources and the form of a lane atomic. -/
def atomSrcs (op : AtomOp) (ty : AtomTy) (a b c : Code) : List Src :=
  if op == .cas then [src64 a, ⟨b, AtomTy.wide ty⟩, ⟨c, AtomTy.wide ty⟩] else [src64 a, ⟨b, AtomTy.wide ty⟩]
def atomForm (op : AtomOp) (ty : AtomTy) (d a b c : Code) : LaneForm :=
  { len := 8, srcs := atomSrcs op ty a b c, stq := d.toNat == 116
    ok := fun g => g.dstOk (AtomTy.wide ty) d && (op == .cas || c.toNat == 119) }

/-- The state in which the read-modify-writes `l` have been made in order, their old values written, and are outstanding. -/
def State.atomsDone (s : State) (op : AtomOp) (ty : AtomTy) (d : Code) (act : LaneMask) (vs : List LaneVec)
    (l : List LaneAccess) : State :=
  let r := (s.sample 2 (AtomTy.bytes ty) act l false false).laneAtoms op ty (fun i => argAt vs 1 i) (fun i => argAt vs 2 i) l
  (r.1.writeDest (AtomTy.wide ty) d act fun i => Map.get 0 r.2 i).busy

/-- An atomic that releases nothing. -/
theorem execAtom_completes {op : AtomOp} {ty : AtomTy} {sp : Space} {ord : Order} {d a b c : Code} {s : State}
    (hstart : (atomForm op ty d a b c).starts s) (hrel : Order.releases ord = none)
    (hcheck : s.accessCheck 2 .atomic (AtomTy.bytes ty) s.grp.active (s.accesses sp 0 (atomSrcs op ty a b c)) = .pass) :
    let v := ((atomForm op ty d a b c).commit s).atomsDone op ty d s.grp.active (s.grp.vectors (atomSrcs op ty a b c))
      (s.accesses sp 0 (atomSrcs op ty a b c))
    execAtom op ty sp ord d a b c s = .next (match Order.acquires ord with
      | some sc => v.laneAcquire sc
      | none => v) := by
  unfold execAtom
  refine laneRun_commits hstart ?_ rfl
  rw [hrel, release_none]
  exact hcheck

/-- What the accesses of ranked contributions do to the caches on their way. -/
def State.raddSeen (s : State) (x : LaneAccess) : State :=
  match s.globalVa s.cur x.addr with
  | some va => ((s.meterVa (s.cur % 16) va 4).flushSector s.asid va).l1Drop s.coreNo s.asid va
  | none => s

theorem raddSeen_net (s : State) (x : LaneAccess) : (s.raddSeen x).net = s.net := by
  unfold State.raddSeen
  split
  · rw [l1Drop_net, flushSector_net]
    exact meter_net ..
  · rfl

theorem raddSeens_net (l : List LaneAccess) : ∀ s : State, (l.foldl State.raddSeen s).net = s.net := by
  induction l with
  | nil => exact fun s => rfl
  | cons x l ih => exact fun s => (ih (s.raddSeen x)).trans (raddSeen_net s x)

/-- The form of a ranked addition, and the contributions that the accesses `l` send. -/
def raddForm (d a b c : Code) : LaneForm :=
  { len := 8, srcs := [src64 a, src32 b, src32 c], ok := fun _ => d.toNat == 119 }
def State.contributions (s : State) (vs : List LaneVec) (l : List LaneAccess) : List Msg :=
  l.filterMap fun x => (s.rankKey x).map fun key =>
    ⟨s.cur, s.rankTarget x key, .rank key ((argAt vs 2 x.lane).setWidth 32) ((argAt vs 1 x.lane).setWidth 32)⟩

/-- A ranked addition of which every contribution has its place. -/
theorem execAtomRadd_completes {sp : Space} {d a b c : Code} {s : State} (hstart : (raddForm d a b c).starts s) :
    let l := s.accesses sp 0 [src64 a, src32 b, src32 c]
    let vs := s.grp.vectors [src64 a, src32 b, src32 c]
    let v := (((raddForm d a b c).commit s).sample 2 4 s.grp.active l false false).busy
    s.accessCheck 2 .atomic 4 s.grp.active l = .pass →
    (∀ x ∈ l, s.rankFault (fun i => (argAt vs 2 i).setWidth 32) l x = false) →
    execAtomRadd sp .relaxed d a b c s =
      .next (l.foldl State.raddSeen { v with net := v.net ++ s.contributions vs l }) := by
  intro l vs v hcheck hrank
  have hplaces : l.filter (s.rankFault (fun i => (argAt vs 2 i).setWidth 32) l) = [] :=
    List.filter_eq_nil_iff.mpr fun x hx => Bool.not_eq_true _ ▸ hrank x hx
  unfold execAtomRadd
  refine laneRun_commits hstart ?check rfl
  case check =>
    refine (release_none s _).trans ?_
    simp only [l, vs, State.accesses] at hcheck hplaces
    simp only [hcheck, hplaces]

/-- Settles O23: an atomic takes the effect of its form; the messages of a ranked addition are all that its accesses leave on
the network. -/
theorem laneAtomicsComplete : Obligations.LaneAtomicsComplete := by
  intro op ty sp d a b c s srcs o vs l
  refine ⟨fun hstart hcheck => ⟨execAtom_completes hstart rfl hcheck, fun sc => execAtom_completes hstart rfl hcheck⟩, ?radd⟩
  case radd =>
    intro p ws m rank hstart hcheck hrank
    refine ⟨_, execAtomRadd_completes hstart hcheck hrank, ?_⟩
    rw [raddSeens_net]
    refine congrArg (· ++ _) ?_
    exact sample_net ..

end Sys2Proof.Machine

/-! The statements of the hart's memory accesses: loads and stores, atomics, fences and write-back (09 R165-R168; 13
R242). -/
namespace Sys2Proof.Machine

-- Accesses of the settled state.

/-- An access of the settled state that lies in the block's own scratch. -/
theorem settled_hartReach_scratch {s : State} (reads writes : List XReg) {a : W64} {n : Nat} (need : Need)
    (load blockOk : Bool) (hn : 0 < n) (h : a.toNat / 2 ^ 56 = 0xF0) (hal : a.toNat % n = 0)
    (hb : (a &&& 0x00FFFFFFFFFFFFFF).toNat + n ≤ s.blk.scratch) (hnet : ∀ m ∈ s.net, m.src ≠ s.cur)
    (hl : s.grp.loadsAway = false) (hf : s.fencedKey (s.grp.scratchAt a) = false)
    (hp : need ≠ .write → s.poisoned (s.grp.scratchAt a) n = false) :
    (s.settled reads writes).hartReach a n need load blockOk = .home (s.grp.scratchAt a) none none := by
  obtain ⟨hblk, hgblk⟩ := settled_blk s reads writes
  have hreach := hartReach_scratch (s.settled reads writes) a n need load blockOk hn h hal (by rw [hblk]; exact hb)
    (by rw [settled_net, settled_cur]; exact hnet) (by rw [hgblk, (settled_poison s reads writes _ n).2]; exact hf)
    (fun hw => by rw [hgblk, (settled_poison s reads writes _ n).1]; exact hp hw)
    ((settled_loadsAway s reads writes).trans hl)
  rw [hgblk] at hreach
  exact hreach

theorem scratchAt_far (g : Group) (a : W64) : 2 ^ 52 ≤ g.scratchAt a := scratchKey_far _ _

/-- A read of scratch by the settled state gives the bytes that stand there. -/
theorem settled_hartBytes_scratch (s : State) (reads writes : List XReg) (a : W64) (n : Nat) :
    (s.settled reads writes).hartBytes (s.grp.scratchAt a) n none = s.bytes (s.grp.scratchAt a) n := by
  show (s.settled reads writes).worldBytes _ _ _ = _
  rw [worldBytes_far _ _ _ _ (scratchAt_far _ _), State.bytes, settled_mem]
  rfl

-- Loads.

section
variable {k : LoadKind} {rd rs1 : XReg} {imm : BitVec 12} {s : State} (hfree : s.hartFree [rs1, rd])
include hfree

theorem execHartLoad_home {key : Nat} {t : Option TlbEntry} {va : Option Nat} : let u := s.settled [rs1] [rd]
    u.hartReach (s.grp.xr rs1 + imm.signExtend 64) (LoadKind.bytes k) .read true true = .home key t va →
    execHartLoad k rd rs1 imm s = .next (u.loadAt k rd key t va) := by
  intro u hreach
  unfold execHartLoad
  refine hartRun_eq (reads := [rs1]) hfree ?_ (waits_hartDone _ _ _)
  simp only [settled_xr]
  rw [hreach]
  rfl

theorem execHartLoad_trap {c : Nat} {v : W64} : let u := s.settled [rs1] [rd]
    u.hartReach (s.grp.xr rs1 + imm.signExtend 64) (LoadKind.bytes k) .read true true = .fault (u.trap c v) →
    execHartLoad k rd rs1 imm s = .next (u.trap c v) := by
  intro u hreach
  unfold execHartLoad
  refine hartRun_eq (reads := [rs1]) hfree ?_ (waits_trap _ _ _)
  simp only [settled_xr]
  rw [hreach]
  rfl
end

theorem loadAt_spec (s : State) (k : LoadKind) (rd : XReg) (key : Nat) (t : Option TlbEntry) (va : Option Nat) :
    (s.loadAt k rd key t va).grp =
      (s.grp.setX rd (LoadKind.value k (leNat (s.hartBytes key (LoadKind.bytes k) va)))).hartNext
    ∧ ∀ b, Memory.read (s.loadAt k rd key t va).mem b = Memory.read s.mem b := by
  obtain ⟨hgrp, hmem⟩ := hartSeen_spec s key (LoadKind.bytes k) t va
  obtain ⟨honly, -, hdone⟩ := hartDone_spec (s.hartSeen key (LoadKind.bytes k) t va) rd
    (LoadKind.value k (leNat (s.hartBytes key (LoadKind.bytes k) va)))
  unfold State.loadAt
  exact ⟨by rw [hdone, hgrp], fun b => by rw [honly.2.2, hmem]⟩

-- Stores.

section
variable {k : StoreKind} {rs1 rs2 : XReg} {imm : BitVec 12} {s : State} (hfree : s.hartFree [rs1, rs2])
include hfree

theorem execHartStore_home {key : Nat} {t : Option TlbEntry} {va : Option Nat} : let u := s.settled [rs1, rs2] []
    let w := u.hartPut key t va (leBytes (StoreKind.bytes k) (s.grp.xr rs2).toNat)
    u.hartReach (s.grp.xr rs1 + imm.signExtend 64) (StoreKind.bytes k) .write false true = .home key t va →
    execHartStore k rs1 rs2 imm s = .next (w.setGrp w.grp.hartNext) := by
  intro u w hreach
  unfold execHartStore
  refine hartRun_eq (reads := [rs1, rs2]) hfree ?_ (waits_nextRecord _ _)
  simp only [settled_xr]
  rw [hreach]

theorem execHartStore_trap {c : Nat} {v : W64} : let u := s.settled [rs1, rs2] []
    u.hartReach (s.grp.xr rs1 + imm.signExtend 64) (StoreKind.bytes k) .write false true = .fault (u.trap c v) →
    execHartStore k rs1 rs2 imm s = .next (u.trap c v) := by
  intro u hreach
  unfold execHartStore
  refine hartRun_eq (reads := [rs1, rs2]) hfree ?_ (waits_trap _ _ _)
  simp only [settled_xr]
  rw [hreach]
end

theorem hartPut_plain (s : State) (key : Nat) (l : List Byte) : s.hartPut key none none l = s.performStore key l := rfl

theorem settled_standard (s : State) (reads writes : List XReg) : (s.settled reads writes).grp.x = s.grp.x
    ∧ (s.settled reads writes).grp.pc = s.grp.pc ∧ (s.settled reads writes).grp.mstatus = s.grp.mstatus := by
  rw [settlesTo_settled s reads writes]
  exact ⟨rfl, rfl, rfl⟩

theorem next_standard (w : State) : let t := w.setGrp w.grp.hartNext
    t.grp.x = w.grp.x ∧ t.grp.pc = w.grp.pc + 4 ∧ t.grp.mstatus = w.grp.mstatus ∧ t.mem = w.mem := by
  intro t
  rw [show t.grp = _ from State.grp_setGrp ..]
  exact ⟨rfl, rfl, rfl, rfl⟩

/-- A store to scratch of the settled state: the registers, the pc, and the bytes. -/
theorem settled_store_scratch {s : State} (hi : Inv s) (reads writes : List XReg) (a : W64) (l : List Byte) :
    let w := (s.settled reads writes).hartPut (s.grp.scratchAt a) none none l
    let t := w.setGrp w.grp.hartNext
    t.grp.x = s.grp.x ∧ t.grp.pc = s.grp.pc + 4 ∧ t.grp.mstatus = s.grp.mstatus
    ∧ (∀ i, i < l.length → Memory.read t.mem (s.grp.scratchAt a + i) = l.getD i 0)
    ∧ ∀ b, b < s.grp.scratchAt a ∨ s.grp.scratchAt a + l.length ≤ b → Memory.read t.mem b = Memory.read s.mem b := by
  intro w t
  have hput : w.grp = _ := (hartPut_kept (s.settled reads writes) (s.grp.scratchAt a) none none l).2
  obtain ⟨hx, hpc, hstatus⟩ := settled_standard s reads writes
  obtain ⟨nx, npc, nstatus, nmem⟩ := next_standard w
  have hmem : t.mem = Memory.writeBytes s.mem (s.grp.scratchAt a) l := by
    rw [nmem, show w = _ from hartPut_plain .., performStore_mem _ _ _ (scratchAt_far _ _), writeCells_cellsOf, settled_mem]
  refine ⟨nx.trans (by rw [hput, ← hx]), npc.trans (by rw [hput, ← hpc]), nstatus.trans (by rw [hput, ← hstatus]),
    fun i hlt => ?_, fun b hb => ?_⟩
  · rw [hmem]
    exact Memory.read_writeBytes_inside _ _ _ _ hi hlt
  · rw [hmem]
    exact Memory.read_writeBytes_outside _ _ _ _ hi hb

/-- Settles O29: each access by how its address fares, one in scratch at its home there. -/
theorem hartLoadsAndStoresComplete : Obligations.HartLoadsAndStoresComplete := by
  refine ⟨fun k rd rs1 imm s hfree => ?loads, fun k rs1 rs2 imm s hfree => ?stores⟩
  case loads =>
    intro u a n off
    refine ⟨fun hal => execHartLoad_trap hfree (hartReach_misaligned _ _ _ _ _ _ hal),
      fun hal hspace => execHartLoad_trap hfree (hartReach_space _ _ _ _ _ _ hal hspace),
      fun key t va => execHartLoad_home hfree, fun hspace hal hb hnet hl hp => ?_⟩
    have hreach := settled_hartReach_scratch [rs1] [rd] .read true true (loadKind_pos k) hspace hal hb hnet hl
      (fenced_of_poisoned hp) fun _ => hp
    obtain ⟨hgrp, hmem⟩ := loadAt_spec u k rd (s.grp.scratchAt a) none none
    refine ⟨_, execHartLoad_home hfree hreach, ?_, fun b => ?_⟩
    · rw [hgrp, settled_hartBytes_scratch]
      rfl
    · rw [hmem, settled_mem]
  case stores =>
    intro u a n off key
    refine ⟨fun hal => execHartStore_trap hfree (hartReach_misaligned _ _ _ _ _ _ hal),
      fun hal hspace => execHartStore_trap hfree (hartReach_space _ _ _ _ _ _ hal hspace),
      fun key t va => execHartStore_home hfree, fun hi hspace hal hb hnet hl hf => ?_⟩
    have hreach := settled_hartReach_scratch [rs1, rs2] [] .write false true (storeKind_pos k) hspace hal hb hnet hl hf
      fun hw => absurd rfl hw
    obtain ⟨hx, hpc, hstatus, hinside, houtside⟩ :=
      settled_store_scratch hi [rs1, rs2] [] a (leBytes n (s.grp.xr rs2).toNat)
    rw [leBytes_length] at hinside houtside
    exact ⟨_, execHartStore_home hfree hreach, hx, hpc, hstatus, hinside, houtside⟩


-- Atomics.

theorem execHartAmo_home {op : AmoOp} {dbl aq : Bool} {rd rs1 rs2 : XReg} {s : State} (hfree : s.hartFree [rs1, rs2, rd])
    {key : Nat} {t : Option TlbEntry} {va : Option Nat} : let u := s.settled [rs1, rs2] [rd]
    u.hartReach (s.grp.xr rs1) (if dbl then 8 else 4) .both false false = .home key t va →
    execHartAmo op dbl aq false rd rs1 rs2 s = .next (u.amoAt op dbl aq rd (s.grp.xr rs2) key t va) := by
  intro u hreach
  unfold execHartAmo
  refine hartRun_eq (reads := [rs1, rs2]) hfree ?_ (waits_hartDone _ _ _)
  simp only [settled_xr, Bool.false_eq_true, if_false]
  rw [hreach]
  rfl

theorem execHartLr_home {dbl aq : Bool} {rd rs1 : XReg} {s : State} (hfree : s.hartFree [rs1, rd]) {key : Nat}
    {t : Option TlbEntry} {va : Option Nat} (hfabric : (s.grp.xr rs1).toNat / 2 ^ 56 ≠ 0xF1) : let u := s.settled [rs1] [rd]
    u.hartReach (s.grp.xr rs1) (if dbl then 8 else 4) .both true false = .home key t va →
    execHartLr dbl aq false rd rs1 s = .next (u.lrAt dbl aq rd key t va) := by
  intro u hreach
  unfold execHartLr
  refine hartRun_eq (reads := [rs1]) hfree ?_ (waits_hartDone _ _ _)
  simp only [settled_xr, notFabric _ hfabric, Bool.false_and, Bool.false_eq_true, if_false]
  rw [hreach]
  rfl

theorem execHartSc_home {dbl aq : Bool} {rd rs1 rs2 : XReg} {s : State} (hfree : s.hartFree [rs1, rs2, rd]) {key : Nat}
    {t : Option TlbEntry} {va : Option Nat} (hfabric : (s.grp.xr rs1).toNat / 2 ^ 56 ≠ 0xF1) :
    let u := s.settled [rs1, rs2] [rd]
    u.hartReach (s.grp.xr rs1) (if dbl then 8 else 4) .cond false false = .home key t va →
    execHartSc dbl aq false rd rs1 rs2 s = .next (u.scAt dbl aq rd (s.grp.xr rs2) key t va) := by
  intro u hreach
  unfold execHartSc
  refine hartRun_eq (reads := [rs1, rs2]) hfree ?_ (waits_hartDone _ _ _)
  simp only [settled_xr, notFabric _ hfabric, Bool.false_and, Bool.false_eq_true, if_false]
  rw [hreach]
  rfl

/-- The completion of an instruction that sets the reservation to `r`, with an acquire or without. -/
def State.resvDone (s : State) (r : Option (Nat × Nat)) (aq : Bool) (rd : XReg) (v : W64) : State :=
  let w := s.setGrp { s.grp with resv := r }
  (if aq then w.hartAcquire else w).hartDone rd v

theorem resvDone_spec (s : State) (r : Option (Nat × Nat)) (aq : Bool) (rd : XReg) (v : W64) :
    let x := s.resvDone r aq rd v
    x.grp.resv = r ∧ x.grp.pc = s.grp.pc + 4 ∧ (rd ≠ 0 → x.grp.xr rd = v)
    ∧ ∀ b, Memory.read x.mem b = Memory.read s.mem b := by
  intro x
  let w := s.setGrp { s.grp with resv := r }
  obtain ⟨hgrp, hmem⟩ : (if aq then w.hartAcquire else w).grp = { s.grp with resv := r }
      ∧ (if aq then w.hartAcquire else w).mem = s.mem := by
    cases aq with
    | false => exact ⟨State.grp_setGrp .., rfl⟩
    | true =>
      obtain ⟨hgrp, hmem⟩ := grp_l1Clear w w.coreNo
      exact ⟨hgrp.trans (State.grp_setGrp ..), hmem⟩
  obtain ⟨honly, hx, hdone⟩ := hartDone_spec (if aq then w.hartAcquire else w) rd v
  obtain ⟨hpc, hresv, -⟩ := setX_fields (if aq then w.hartAcquire else w).grp rd v
  rw [hgrp] at hpc hresv
  have hxgrp := hdone.trans (congrArg (fun g => (Group.setX g rd v).hartNext) hgrp)
  exact ⟨(congrArg Group.resv hxgrp).trans hresv, (congrArg Group.pc hxgrp).trans (congrArg (· + 4) hpc), hx,
    fun b => (honly.2.2 b).trans (by rw [hmem])⟩

/-- An LR of the settled state: its reservation, its value, and memory as it was. -/
theorem lrAt_spec (s : State) (dbl aq : Bool) (rd : XReg) (key : Nat) (t : Option TlbEntry) (va : Option Nat) :
    let w := s.lrAt dbl aq rd key t va
    let v := leNat (s.hartBytes key (if dbl then 8 else 4) va)
    w.grp.resv = some (key / 128 * 128, 128) ∧ w.grp.pc = s.grp.pc + 4
    ∧ (rd ≠ 0 → w.grp.xr rd = if dbl then BitVec.ofNat 64 v else (BitVec.ofNat 32 v).signExtend 64)
    ∧ ∀ b, Memory.read w.mem b = Memory.read s.mem b := by
  intro w v
  obtain ⟨hgrp, hmem⟩ := hartSeen_spec s key (if dbl then 8 else 4) t va
  obtain ⟨hresv, hpc, hx, hread⟩ := resvDone_spec (s.hartSeen key (if dbl then 8 else 4) t va)
    (some (key / 128 * 128, 128)) aq rd (if dbl then BitVec.ofNat 64 v else (BitVec.ofNat 32 v).signExtend 64)
  exact ⟨hresv, hpc.trans (by rw [hgrp]), hx, fun b => (hread b).trans (by rw [hmem])⟩

/-- An SC where its reservation stands, and where it does not. -/
theorem scAt_stands {s : State} {key : Nat} (h : s.grp.resv = some (key / 128 * 128, 128)) (dbl aq : Bool) (rd : XReg)
    (val : W64) (t : Option TlbEntry) (va : Option Nat) : s.scAt dbl aq rd val key t va =
      (s.hartPut key t va (leBytes (if dbl then 8 else 4) val.toNat)).resvDone none aq rd 0 := by
  show State.resvDone (if s.grp.resv == some (key / 128 * 128, 128) then _ else s) none aq rd (if _ then 0 else 1) = _
  rw [beq_iff_eq.mpr h, if_pos rfl, if_pos rfl]

theorem scAt_fails {s : State} {key : Nat} (h : s.grp.resv ≠ some (key / 128 * 128, 128)) (dbl aq : Bool) (rd : XReg)
    (val : W64) (t : Option TlbEntry) (va : Option Nat) : s.scAt dbl aq rd val key t va = s.resvDone none aq rd 1 := by
  show State.resvDone (if s.grp.resv == some (key / 128 * 128, 128) then _ else s) none aq rd (if _ then 0 else 1) = _
  rw [beq_eq_false_iff_ne.mpr h, if_neg Bool.false_ne_true, if_neg Bool.false_ne_true]

/-- An SC: the reservation ends, the result says whether it stood, and without it memory stays. -/
theorem scAt_spec (s : State) (dbl aq : Bool) (rd : XReg) (val : W64) (key : Nat) (t : Option TlbEntry) (va : Option Nat) :
    let w := s.scAt dbl aq rd val key t va
    w.grp.resv = none ∧ w.grp.pc = s.grp.pc + 4
    ∧ (rd ≠ 0 → w.grp.xr rd = if s.grp.resv = some (key / 128 * 128, 128) then 0 else 1)
    ∧ (s.grp.resv ≠ some (key / 128 * 128, 128) → ∀ b, Memory.read w.mem b = Memory.read s.mem b) := by
  by_cases hstands : s.grp.resv = some (key / 128 * 128, 128)
  · rw [scAt_stands hstands, if_pos hstands]
    have hgrp := (hartPut_kept s key t va (leBytes (if dbl then 8 else 4) val.toNat)).2
    obtain ⟨hresv, hpc, hx, -⟩ :=
      resvDone_spec (s.hartPut key t va (leBytes (if dbl then 8 else 4) val.toNat)) none aq rd 0
    exact ⟨hresv, hpc.trans (by rw [hgrp]), hx, fun h => absurd hstands h⟩
  · rw [scAt_fails hstands, if_neg hstands]
    obtain ⟨hresv, hpc, hx, hread⟩ := resvDone_spec s none aq rd 1
    exact ⟨hresv, hpc, hx, fun _ => hread⟩

/-- Settles O30: each instruction performs its access at the home that it reaches. -/
theorem hartAtomicsComplete : Obligations.HartAtomicsComplete := by
  intro op dbl aq rd rs1 rs2 s key t va n a acq
  refine ⟨?amo, ?lr, ?sc⟩
  case amo =>
    intro hfree u hreach
    exact execHartAmo_home hfree hreach
  case lr =>
    intro hfree u hreach hfabric
    obtain ⟨hresv, hpc, hx, hread⟩ := lrAt_spec u dbl aq rd key t va
    exact ⟨_, execHartLr_home hfree hfabric hreach, hresv, hpc.trans (by rw [settled_pc]), hx,
      fun b => (hread b).trans (by rw [settled_mem])⟩
  case sc =>
    intro hfree u hreach hfabric
    have hheld : u.grp.resv = s.grp.resv := by rw [settlesTo_settled s [rs1, rs2] [rd]]
    obtain ⟨hresv, hpc, hx, hread⟩ := scAt_spec u dbl aq rd (s.grp.xr rs2) key t va
    rw [hheld] at hx hread
    exact ⟨_, execHartSc_home hfree hfabric hreach, hresv, hpc.trans (by rw [settled_pc]), hx,
      fun h b => (hread h b).trans (by rw [settled_mem])⟩

-- Fences and write-back.

/-- The completion of a fence: an acquiring one empties the lane L1. -/
def State.fenceDone (s : State) (acq : Bool) : State :=
  (if acq then s.l1Clear s.coreNo else s).setGrp s.grp.hartNext

theorem hartFenceOf_completes {s : State} {k : FenceKind} {sc : Scope} (h : FenceKind.rel k = true →
    s.hartClean ∧ (sc = .system → s.modifiedHost = false ∧ s.evictingAny = false)) :
    hartFenceOf s k sc = .next (s.fenceDone (FenceKind.acquires k && Scope.empties sc)) := by
  have hdone : ∀ c : Bool, (if c then s.hartAcquire else s).setGrp (if c then s.hartAcquire else s).grp.hartNext =
      s.fenceDone c := fun c => by
    cases c with
    | false => rfl
    | true => exact congrArg (fun g => State.setGrp _ (Group.hartNext g)) (grp_l1Clear s s.coreNo).1
  unfold hartFenceOf
  cases hk : FenceKind.rel k with
  | false => exact congrArg _ (hdone _)
  | true =>
    obtain ⟨⟨hflight, hdirty, hevict, haway⟩, hsystem⟩ := h hk
    rw [if_pos rfl, afterRelease_clean _ _ hflight hdirty hevict haway]
    by_cases hsc : sc = .system
    · obtain ⟨hmodified, hany⟩ := hsystem hsc
      simp only [hmodified, hany, Bool.and_false, Bool.false_eq_true, if_false, hdone]
    · simp only [beq_eq_false_iff_ne.mpr hsc, Bool.false_and, Bool.false_eq_true, if_false, hdone]

theorem execHartFence_empty {fm p q : BitVec 4} {rd rs1 : XReg} {s : State} (h : p = 0 ∨ q = 0) :
    execHartFence fm p q rd rs1 s = .next (s.fenceDone false) := by
  unfold execHartFence
  exact if_pos (by simpa only [Bool.or_eq_true, beq_iff_eq] using h)

theorem execHartFence_sets {fm p q : BitVec 4} {rd rs1 : XReg} {s : State} (hp : p ≠ 0) (hq : q ≠ 0) (hclean : s.hartClean) :
    execHartFence fm p q rd rs1 s = .next (s.fenceDone true) := by
  unfold execHartFence
  rw [if_neg (by simpa only [Bool.or_eq_true, beq_iff_eq, not_or] using And.intro hp hq)]
  exact hartFenceOf_completes fun _ => ⟨hclean, fun h => nomatch h⟩

theorem settled_evicting (s : State) (reads writes : List XReg) :
    (s.settled reads writes).evicting (s.settled reads writes).coreNo = s.evicting s.coreNo := by
  rw [settled_hartClean_cur, (settled_spec s reads writes).2.1]
  rfl

/-- A write-back of no byte: done at once. -/
theorem execZL1wb_none {rs1 rs2 : XReg} {s : State} (hfree : s.hartFree [rs1, rs2]) (hlen : (s.grp.xr rs2).toNat = 0)
    (hevict : s.evicting s.coreNo = false) : let u := s.settled [rs1, rs2] []
    execZL1wb rs1 rs2 s = .next (u.setGrp u.grp.hartNext) := by
  intro u
  unfold execZL1wb
  refine hartRun_eq (reads := [rs1, rs2]) hfree ?_ (waits_nextRecord _ _)
  simp only [settled_xr, hlen, beq_self_eq_true, if_true, State.writeBackAll]
  exact if_neg (by rw [settled_evicting, hevict]; exact Bool.false_ne_true)

/-- A write-back of a range: done with the dirty sectors of the core that meet it. -/
theorem execZL1wb_range {rs1 rs2 : XReg} {s t : State} (hfree : s.hartFree [rs1, rs2]) {va : Nat} {glob : Bool} :
    let u := s.settled [rs1, rs2] []
    let len := (s.grp.xr rs2).toNat
    len ≠ 0 → u.place u.cur u.mmode (s.grp.xr rs1) = .ok (.global va glob) →
    u.writeBackAll (u.dirty.filter fun d =>
      d.core == u.coreNo && (d.asid == u.asid || d.glob) && d.va < va + len && va < d.va + 128) = .ok t →
    t.evicting t.coreNo = false → execZL1wb rs1 rs2 s = .next (t.setGrp t.grp.hartNext) := by
  intro u len hlen hplace hwb hevict
  unfold execZL1wb
  refine hartRun_eq (reads := [rs1, rs2]) hfree ?_ (waits_nextRecord _ _)
  simp only [settled_xr]
  rw [hplace, if_neg (mt beq_iff_eq.mp hlen), hwb]
  exact if_neg (by rw [hevict]; exact Bool.false_ne_true)

/-- Settles O31: each fence by what it drains, a write-back by the length of its range. -/
theorem hartFencesComplete : Obligations.HartFencesComplete := by
  intro k sc fm p q rd rs1 rs2 imm s next emptied
  refine ⟨fun h => ?fence, execHartFence_empty (fm := fm) (rd := rd) (rs1 := rs1),
    execHartFence_sets (fm := fm) (rd := rd) (rs1 := rs1), rfl, ?writeBack⟩
  case fence =>
    refine (hartFenceOf_completes h).trans (congrArg Host.Outcome.next ?_)
    simp only [State.fenceDone, Bool.and_eq_true]
    split <;> rfl
  case writeBack =>
    intro hfree u len
    exact ⟨execZL1wb_none hfree, fun va glob t => execZL1wb_range hfree⟩

end Sys2Proof.Machine

/-! The statement of the messages that their homes perform: posted writes, increments, ring messages, rank contributions
and absence tokens (09 R156, R161; 10 R173, R176-R179; 13 R235, R243; 21 R308). -/
namespace Sys2Proof.Machine

@[simp] theorem answer_net (t : State) (k : Nat) (b : MsgBody) : (t.answer k b).net = t.net ++ [⟨k, 2 ^ 20 + k, b⟩] := rfl

-- Posted writes.

/-- A posted write performed at its home, and its acknowledgement. -/
def State.writeLanded (t : State) (src slot base : Nat) (ws : List (Nat × Byte)) : State :=
  (t.performCells (ws.map fun w => (base + w.1, w.2))).answer src (.ack slot)

theorem writeLanded_spec {t : State} (src slot base : Nat) (ws : List (Nat × Byte)) (hdirty : t.dirty = []) :
    (t.writeLanded src slot base ws).net = t.net ++ [⟨src, 2 ^ 20 + src, .ack slot⟩]
    ∧ (t.writeLanded src slot base ws).mem = Memory.writeCells t.mem (ws.map fun w => (base + w.1, w.2)) := by
  obtain ⟨hmem, hnet⟩ := performCells_spec t (ws.map fun w => (base + w.1, w.2)) hdirty
  exact ⟨(answer_net ..).trans (by rw [hnet]), hmem⟩

section
variable {s : State} {m : Msg} (harr : s.arriving s.input.b = some m)
include harr

section
variable {slot : Nat} {ws : List (Nat × Byte)} {a : W64} {h : Nat} (hbody : m.body = .posted slot ws a h)
include hbody

/-- A write whose flow is broken is counted and refused. -/
theorem execPostedWriteArrival_broken {port : Nat} : let t := s.taken s.input.b
    t.postRefused m = some port →
    execPostedWriteArrival s = .next ((t.countPacket m.src port).answer m.src (.refuse slot 2)) := by
  intro t hport
  refine onArrival_some harr ?_
  simp only [hbody]
  rw [hport]

/-- A write to a vault. -/
theorem execPostedWriteArrival_vault (hdst : m.dst < 2 ^ 16) (hvault : 2048 ≤ m.dst) : let t := s.taken s.input.b
    let base := vaultKey (m.dst - 2048) 0
    t.postRefused m = none → (s.input.flag && t.mergesPoison (ws.map fun w => (base + w.1, w.2))) = false →
    execPostedWriteArrival s = .next (t.writeLanded m.src slot base ws) := by
  intro t base hport hkept
  refine onArrival_some harr ?_
  simp only [hbody]
  rw [hport]
  simp only [if_neg (Nat.not_le.mpr hdst), if_pos hvault]
  rw [hkept]
  rfl

/-- A write to a block that no longer takes it. -/
theorem execPostedWriteArrival_gone {why : Nat} (hdst : m.dst < 2048) : let t := s.taken s.input.b
    t.postRefused m = none →
    t.fabricHome (t.blkAt (t.grpAt m.src).blk) (BitVec.ofNat 64 h) ((ws.map fun w => w.1).foldl Nat.max 0) 1 = .refused why →
    execPostedWriteArrival s = .next (t.answer m.src (.refuse slot why)) := by
  intro t hport hhome
  refine onArrival_some harr ?_
  simp only [hbody]
  rw [hport]
  simp only [if_neg (show ¬ 2 ^ 16 ≤ m.dst by omega), if_neg (Nat.not_le.mpr hdst)]
  rw [hhome]

/-- A write to a block that takes it. -/
theorem execPostedWriteArrival_block {k : Nat} (hdst : m.dst < 2048) : let t := s.taken s.input.b
    let base := scratchKey (handleBlock (BitVec.ofNat 64 h)) 0
    t.postRefused m = none →
    t.fabricHome (t.blkAt (t.grpAt m.src).blk) (BitVec.ofNat 64 h) ((ws.map fun w => w.1).foldl Nat.max 0) 1 = .at k →
    (s.input.flag && t.mergesPoison (ws.map fun w => (base + w.1, w.2))) = false →
    execPostedWriteArrival s = .next (t.writeLanded m.src slot base ws) := by
  intro t base hport hhome hkept
  refine onArrival_some harr ?_
  simp only [hbody]
  rw [hport]
  simp only [if_neg (show ¬ 2 ^ 16 ≤ m.dst by omega), if_neg (Nat.not_le.mpr hdst)]
  rw [hhome]
  dsimp only
  rw [hkept]
  rfl
end

-- Increments.

/-- An increment of a counter: added and acknowledged where its home takes it, else refused. -/
theorem execMailboxIncrementArrival_own {slot core idx : Nat} {n : W32} {a : W64} (hbody : m.body = .increment slot core idx n a)
    (hdst : m.dst < 2 ^ 16) : let t := s.taken s.input.b
    execMailboxIncrementArrival s = .next (if t.countsHere (t.blkAt (t.grpAt m.src).blk) core idx
      then (t.setCounter core idx (t.counter core idx + n)).answer m.src (.ack slot)
      else t.answer m.src (.refuse slot 0)) := by
  intro t
  refine onArrival_some harr ?_
  simp only [hbody, if_neg (Nat.not_le.mpr hdst)]
  rfl

/-- A copy's increment of a counter: added where its home takes it, else cause 27 becomes pending. -/
theorem execMailboxIncrementArrival_copy {k core idx : Nat} {a : W64} (hbody : m.body = .copyIncrement k core idx a)
    (hdst : m.dst < 2 ^ 16) : let t := s.taken s.input.b
    execMailboxIncrementArrival s = .next (if t.countsHere (t.blkAt (t.grpAt k).blk) core idx
      then t.setCounter core idx (t.counter core idx + 1) else t.pend k 27 a) := by
  intro t
  refine onArrival_some harr ?_
  simp only [hbody, if_neg (Nat.not_le.mpr hdst)]
  rfl

-- Ring messages.

section
variable {h : Nat} {l : List Byte} {rd : XReg} (hbody : m.body = .ring h l rd)
include hbody

/-- A ring message by its ring: closed, full, or with room at the tail. -/
theorem execRingMessageArrival_ring : let t := s.taken s.input.b
    let e : W64 := BitVec.ofNat 64 h
    let core := handleCore e
    let n := bits h 27 25
    let r := (t.coreAt core).ring n
    execRingMessageArrival s = .next (
      if !t.ringOpen m.src e r then t.answer m.src (.ringAnswer rd 2)
      else if (r.tail - r.head).toNat == r.slots then t.answer m.src (.ringAnswer rd 1)
      else ((t.performStore (scratchKey r.owner (r.base + 64 * (r.tail.toNat % r.slots))) l).setRing core n
        { r with tail := r.tail + 1 }).answer m.src (.ringAnswer rd 0)) := by
  intro t e core n r
  refine onArrival_some harr ?_
  simp only [hbody]
  rfl
end
end

-- Ranked contributions.

/-- The windows after a contribution has been held at the window `w` of its key. -/
def State.holdRank (t : State) (key : Nat) (w : RankWindow) (c : W32 × W32 × Nat) : State :=
  { t with windows := t.windows.map fun x => if x.key == key then { w with heldBy := w.heldBy ++ [c] } else x }

theorem windowAt_holdRank {t : State} {key : Nat} {w : RankWindow} (c : W32 × W32 × Nat) (hw : t.windowAt key = some w) :
    (t.holdRank key w c).windowAt key = some { w with heldBy := w.heldBy ++ [c] } := by
  have hkey : (w.key == key) = true := List.find?_some (p := fun x : RankWindow => x.key == key) hw
  have hold : ∀ x : RankWindow, ((if x.key == key then { w with heldBy := w.heldBy ++ [c] } else x).key == key) =
      (x.key == key) := fun x => by
    split
    · next hx => exact hkey.trans hx.symm
    · rfl
  show List.find? _ (List.map _ t.windows) = _
  rw [List.find?_map]
  simp only [Function.comp_def, hold]
  rw [show List.find? (fun x => x.key == key) t.windows = some w from hw]
  simp only [Option.map_some, hkey, if_true]

/-- Nothing is applied at a window that holds one contribution, of another rank than the next. -/
theorem applyRanks_notDue {t : State} {key : Nat} {w : RankWindow} {c : W32 × W32 × Nat} (hw : t.windowAt key = some w)
    (hheld : w.heldBy = [c]) (hc : c.1 ≠ w.next) (n : Nat) : t.applyRanks key n = t := by
  cases n with
  | zero => rfl
  | succ n =>
    have hnone : (w.heldBy.find? fun h => h.1 == w.next) = none := List.find?_eq_none.mpr fun x hx => by
      rw [hheld] at hx
      rw [List.mem_singleton.mp hx]
      exact mt beq_iff_eq.mp hc
    simp only [State.applyRanks, hw, hnone]

theorem execRankContributionArrival_dropped {s : State} {m : Msg} {key : Nat} {r v : W32}
    (harr : s.arriving s.input.b = some m) (hbody : m.body = .rank key r v) : let t := s.taken s.input.b
    t.windowAt key = none → execRankContributionArrival s = .next t := by
  intro t hw
  refine onArrival_some harr ?_
  simp only [hbody]
  rw [hw]

theorem execRankContributionArrival_held {s : State} {m : Msg} {key : Nat} {r v : W32} {w : RankWindow}
    (harr : s.arriving s.input.b = some m) (hbody : m.body = .rank key r v) (hempty : w.heldBy = []) (hr : r ≠ w.next) :
    let t := s.taken s.input.b
    t.windowAt key = some w → execRankContributionArrival s = .next (t.holdRank key w (r, v, m.src)) := by
  intro t hw
  have hwait : ∀ n, (t.holdRank key w (r, v, m.src)).applyRanks key n = t.holdRank key w (r, v, m.src) :=
    applyRanks_notDue (windowAt_holdRank _ hw) (by rw [hempty]; rfl) hr
  refine onArrival_some harr ?_
  simp only [hbody]
  rw [hw]
  show some (if t.windowFrozen key then t.holdRank key w (r, v, m.src)
    else (t.holdRank key w (r, v, m.src)).applyRanks key _) = _
  rw [hwait, ite_self]

-- Absence tokens.

/-- A token changes its own counter's count of tokens by one, and no memory. -/
theorem absence_spec (t : State) (key : Nat) (present : Bool) :
    (t.absence key present).mem = t.mem
    ∧ (t.absence key present).absent =
      t.absent.set key (if present then Map.get 0 t.absent key - 1 else Map.get 0 t.absent key + 1) := by
  unfold State.absence
  exact ⟨(apply_ite State.mem _ _ _).trans (ite_self _), (apply_ite State.absent _ _ _).trans (ite_self _)⟩

theorem execAbsenceTokenArrival_here {s : State} {m : Msg} {idx : Nat} {present : Bool} (harr : s.arriving s.input.b = some m)
    (hbody : m.body = .absence idx present) (hhere : s.input.flag2 = false) :
    execAbsenceTokenArrival s = .next ((s.taken s.input.b).absence (256 * m.dst + idx) present) := by
  unfold execAbsenceTokenArrival
  rw [if_neg (by rw [hhere]; exact Bool.false_ne_true)]
  refine onArrival_some harr ?_
  rw [hbody]

/-- What a kept write's home does not refuse for poison. -/
theorem not_refused_of_kept {flag merges : Bool} (h : flag = false ∨ merges = false) : (flag && merges) = false :=
  Bool.and_eq_false_iff.mpr h

/-- Settles O47: each message at its home, by what its home answers. -/
theorem messagesPerformed : Obligations.MessagesPerformed := by
  intro s m harr t kept
  refine ⟨?broken, ?vault, ?block, ?increment, ?copyIncrement, ?ring, ?rank, ?absence⟩
  case broken =>
    intro slot ws a h port hbody hport
    exact execPostedWriteArrival_broken harr hbody hport
  case vault =>
    intro slot ws a h hbody hdst hvault hport hkept hdirty
    exact ⟨_, execPostedWriteArrival_vault harr hbody hdst hvault hport (not_refused_of_kept hkept),
      writeLanded_spec _ _ _ _ hdirty⟩
  case block =>
    intro slot ws a h hbody hdst hport e home
    refine ⟨fun why hhome => execPostedWriteArrival_gone harr hbody hdst hport hhome, fun k hhome hkept hdirty => ?_⟩
    exact ⟨_, execPostedWriteArrival_block harr hbody hdst hport hhome (not_refused_of_kept hkept),
      writeLanded_spec _ _ _ _ hdirty⟩
  case increment =>
    intro slot core idx n a hbody hdst
    refine ⟨_, execMailboxIncrementArrival_own harr hbody hdst, ?_⟩
    by_cases hhere : t.countsHere (t.blkAt (t.grpAt m.src).blk) core idx = true
    · rw [if_pos hhere, if_pos hhere]
      obtain ⟨hmem, hnet⟩ := setCounter_memN t core idx (t.counter core idx + n)
      exact ⟨hmem, ⟨(counter_setCounter t core idx _ core idx).trans (if_pos rfl), (answer_net ..).trans (by rw [hnet])⟩,
        fun c k => counter_setCounter' t core idx _ c k⟩
    · rw [if_neg hhere, if_neg hhere]
      exact ⟨rfl, ⟨rfl, rfl⟩, fun _ _ _ => rfl⟩
  case copyIncrement =>
    intro k core idx a hbody hdst
    exact execMailboxIncrementArrival_copy harr hbody hdst
  case ring =>
    intro h l rd hbody e core n r say
    have hring := execRingMessageArrival_ring harr hbody
    refine ⟨fun hclosed => hring.trans (congrArg _ (if_pos (by rw [hclosed]; rfl))), fun hopen => ?_⟩
    replace hring := hring.trans (congrArg _ (if_neg (by rw [hopen]; exact Bool.false_ne_true)))
    exact ⟨fun hfull => hring.trans (congrArg _ (if_pos (beq_iff_eq.mpr hfull))),
      fun hroom => hring.trans (congrArg _ (if_neg (mt beq_iff_eq.mp hroom)))⟩
  case rank =>
    intro key r v hbody
    refine ⟨execRankContributionArrival_dropped harr hbody, fun w hw hempty hr => ?_⟩
    rw [show exec .rankContributionArrival s = _ from execRankContributionArrival_held harr hbody hempty hr hw, State.holdRank,
      hempty, List.nil_append]
  case absence =>
    intro idx present hbody hhere key
    obtain ⟨hmem, habsent⟩ := absence_spec t key present
    refine ⟨_, execAbsenceTokenArrival_here harr hbody hhere, hmem, ?_, fun d hd => ?_⟩
    · rw [habsent]
      exact Map.get_set_same ..
    · rw [habsent]
      exact Map.get_set_other _ _ _ (Ne.symm hd)

end Sys2Proof.Machine

/-! The statement of coherence with the hosts: snoops, grants, back-invalidations and accesses of HBM (09 R165; 23 R318,
R319; 24 R327, R328). -/
namespace Sys2Proof.Machine

-- Snoops.

/-- The state after a snoop of the line `l`, held in `old`, that leaves it in `new`. -/
def State.snooped (s : State) (l : Nat) (old new : Mesi) : State :=
  let t := s.flushHome (64 * l)
  let u := if old = .m then t.toHost (t.bytes (64 * l) 64) else t
  { u with host := { u.host with lines := u.host.lines.set l new } }

/-- The end of reservations, which an invalidating snoop begins with, leaves memory, the host and the input. -/
theorem breakResv_mem_host_input (s : State) (k n : Nat) :
    (s.breakResv k n).mem = s.mem ∧ (s.breakResv k n).host = s.host ∧ (s.breakResv k n).input = s.input := by
  rw [breakResv_only]
  exact ⟨rfl, rfl, rfl⟩

theorem execSnpInv_held {s : State} (hcached : s.cachedHost (64 * s.input.a) = true)
    (hheld : Map.get .i s.host.lines s.input.a ≠ .i) :
    execSnpInv s =
      .next ((s.breakResv (64 * s.input.a) 64).snooped s.input.a (Map.get .i s.host.lines s.input.a) .i) := by
  obtain ⟨-, hhost, hinput⟩ := breakResv_mem_host_input s (64 * s.input.a) 64
  have h := snoop_hit (s.breakResv (64 * s.input.a) 64) (fun _ => .i)
  rw [hinput, hhost, cachedHost_of _ _ hhost] at h
  exact h hcached hheld

theorem execSnpInv_notHeld {s : State}
    (h : s.cachedHost (64 * s.input.a) = false ∨ Map.get .i s.host.lines s.input.a = .i) :
    execSnpInv s = .next (s.breakResv (64 * s.input.a) 64) := by
  obtain ⟨-, hhost, hinput⟩ := breakResv_mem_host_input s (64 * s.input.a) 64
  refine snoop_miss _ _ ?_
  rw [hinput, hhost, cachedHost_of _ _ hhost]
  exact h

-- Grants.

theorem execCxlGo_pull {s : State} (h : s.input.flag = true) :
    execCxlGo s = .next { s with host := { s.host with evicts := s.host.evicts.erase (s.input.b, s.input.a) } } :=
  if_pos h

/-- The state after a grant of the line `l`, held in `old`, to `new`. -/
def State.granted (s : State) (l : Nat) (old new : Mesi) : State :=
  let t := s.fillLine l old
  ({ t with host := { t.host with lines := t.host.lines.set l new } } : State).answered l

/-- A grant that a party waits for, of a line that is not being evicted and that it improves. -/
theorem execCxlGo_grant {s : State} (hflag : s.input.flag = false) : let l := s.input.a
    let old := Map.get .i s.host.lines l
    let new : Mesi := if s.input.flag2 = true ∨ s.input.mesi = .e then .e else .s
    s.cachedHost (64 * l) = true → s.lineWanted l s.input.flag2 = true → (∀ e ∈ s.host.evicts, e.2 ≠ l) →
    (old = .i ∨ (s.input.flag2 = true ∧ old = .s)) → execCxlGo s = .next (s.granted l old new) := by
  intro l old new hcached hwanted hevict hold
  have hstays : (s.host.evicts.any fun e => e.2 == l) = false :=
    List.any_eq_false.mpr fun e he => mt beq_iff_eq.mp (hevict e he)
  have hbetter : (old == .i || (s.input.flag2 && old == .s)) = true := by
    simpa only [Bool.or_eq_true, Bool.and_eq_true, beq_iff_eq] using hold
  have hnew : (if s.input.flag2 || s.input.mesi == .e then Mesi.e else .s) = new := by
    simp only [new, Bool.or_eq_true, beq_iff_eq]
  unfold execCxlGo
  dsimp only
  rw [if_neg (by rw [hflag]; exact Bool.false_ne_true),
    if_neg (by rw [hcached, hwanted, hstays, hbetter]; exact Bool.false_ne_true), hnew]
  rfl

theorem granted_spec (s : State) (l : Nat) (old new : Mesi) : let t := s.granted l old new
    Map.get .i t.host.lines l = new ∧ t.groups = s.groups
    ∧ (∀ k, k ≠ l → Map.get .i t.host.lines k = Map.get .i s.host.lines k)
    ∧ (∀ d, old = .i → s.input.data = some d → t.mem = Memory.writeBytes s.mem (64 * l) (padded 64 d))
    ∧ (old ≠ .i ∨ s.input.data = none → t.mem = s.mem) := by
  intro t
  obtain ⟨hhost, hgroups, hfilled, hkept⟩ := fillLine_spec s l old
  refine ⟨Map.get_set_same .., hgroups, fun k hk => ?_, hfilled, hkept⟩
  show Map.get .i ((s.fillLine l old).host.lines.set l new) k = _
  rw [hhost, Map.get_set_other _ _ _ (Ne.symm hk)]

-- Back-invalidations.

/-- The state after the host's answer for the line `l`, which the filter has in `st` at port `p`: given up or kept in S. -/
def State.yielded (s : State) (l p : Nat) (st : Mesi) (gone : Bool) : State :=
  let t := s.returnLine l st
  let f := if gone then t.host.filter.erase l else t.host.filter.set l (p, .s)
  ({ t with host := { t.host with filter := f } } : State).answered l

theorem execBisnpResponse_none {s : State} (h : s.host.filter.find s.input.a = none) : execBisnpResponse s = .next s := by
  unfold execBisnpResponse
  dsimp only
  rw [h]

theorem execBisnpResponse_held {s : State} {p : Nat} {st : Mesi} (hfind : s.host.filter.find s.input.a = some (p, st))
    (hwanted : s.lineWanted s.input.a s.input.flag = true) :
    execBisnpResponse s = .next (s.yielded s.input.a p st s.input.flag) := by
  unfold execBisnpResponse
  dsimp only
  rw [hfind]
  exact if_neg (by rw [hwanted]; exact Bool.false_ne_true)

theorem find_yielded (s : State) (l p : Nat) (st : Mesi) (gone : Bool) :
    (s.yielded l p st gone).host.filter.find l = if gone then none else some (p, .s) := by
  cases gone with
  | true => exact Map.find_erase_same ..
  | false => exact (Map.find_set ..).trans (if_pos rfl)

-- Accesses of HBM by a host.

/-- Whether a port other than `p` has the line in a way that an access of `p`, with ownership or without, has to end. -/
def State.otherHolds (s : State) (p l : Nat) (own : Bool) : Bool :=
  match s.host.filter.find l with
  | some (q, st) => q != p && (own || st == Mesi.m)
  | none => false

theorem otherHolds_iff (s : State) (p l : Nat) (own : Bool) : s.otherHolds p l own = true ↔
    ∃ q st, s.host.filter.find l = some (q, st) ∧ q ≠ p ∧ (own = true ∨ st = .m) := by
  unfold State.otherHolds
  cases s.host.filter.find l with
  | none => exact ⟨fun h => absurd h Bool.false_ne_true, fun ⟨_, _, h, _⟩ => nomatch h⟩
  | some x =>
    obtain ⟨q, st⟩ := x
    have hends : (q != p && (own || st == Mesi.m)) = true ↔ q ≠ p ∧ (own = true ∨ st = .m) := by
      rw [Bool.and_eq_true, bne_iff_ne, Bool.or_eq_true, beq_iff_eq]
    refine ⟨fun h => ⟨q, st, rfl, hends.mp h⟩, fun ⟨q', st', hx, h⟩ => ?_⟩
    cases hx
    exact hends.mpr h

/-- Whether the access that a host makes asks for ownership. -/
def State.hostOwns (s : State) : Bool := s.input.flag || s.input.mesi != .s

theorem hostOwns_iff (s : State) : s.hostOwns = true ↔ s.input.flag = true ∨ s.input.mesi ≠ .s := by
  rw [State.hostOwns, Bool.or_eq_true, bne_iff_ne]

theorem mem_askLine (s : State) (x : Nat × Bool) : x ∈ (s.askLine x).host.asked := by
  unfold State.askLine
  dsimp only
  split
  · next h => exact List.contains_iff_mem.mp h
  · exact List.mem_append_right _ (List.mem_singleton.mpr rfl)

/-- The host's read or write of HBM, before its filter entry. -/
def State.hostMoves (s : State) : State :=
  let n := min (s.input.b % 65) (64 - s.input.a % 64)
  if s.input.flag then s.performStore s.input.a (padded n s.input.bytes)
  else s.toHost (if s.poisoned s.input.a n then [] else s.bytes s.input.a n)

/-- The filter entry that a host's access asks for, under CXL 3.1. -/
def State.hostKeeps (t : State) (p l : Nat) (st : Mesi) (mode : LinkMode) : State :=
  let f := if st == .i then t.host.filter.erase l else t.host.filter.set l (p, st)
  if mode == .cxl31 then { t with host := { t.host with filter := f } } else t

theorem hostKeeps_kept (t : State) (p l : Nat) (st : Mesi) (mode : LinkMode) : let u := t.hostKeeps p l st mode
    u.mem = t.mem ∧ u.groups = t.groups ∧ u.host.reads = t.host.reads := by
  intro u
  simp only [u, State.hostKeeps]
  split <;> exact ⟨rfl, rfl, rfl⟩

theorem find_hostKeeps (t : State) (p l : Nat) {st : Mesi} {mode : LinkMode} (hmode : mode = .cxl31) (hst : st ≠ .i) :
    (t.hostKeeps p l st mode).host.filter.find l = some (p, st) := by
  unfold State.hostKeeps
  rw [if_pos (beq_iff_eq.mpr hmode), if_neg (mt beq_iff_eq.mp hst)]
  exact (Map.find_set ..).trans (if_pos rfl)

theorem execHostCxlMemAccess_shut {s : State} (h : s.portOpen s.input.c = false) :
    execHostCxlMemAccess s = .next (if s.input.flag then s.dropPosted s.input.c else s) :=
  if_pos (by rw [h]; rfl)

section
variable {s : State} (hopen : s.portOpen s.input.c = true)
include hopen

theorem execHostCxlMemAccess_nothing
    (h : (Map.get {} s.host.links (8 * s.input.c)).mode = .down ∨ hbmSize ≤ s.input.a) : execHostCxlMemAccess s = .next s := by
  unfold execHostCxlMemAccess
  dsimp only
  rw [if_neg (by rw [hopen]; exact Bool.false_ne_true)]
  exact if_pos (by simpa only [Bool.or_eq_true, beq_iff_eq, decide_eq_true_iff] using h)

variable (hmode : (Map.get {} s.host.links (8 * s.input.c)).mode ≠ .down) (ha : s.input.a < hbmSize)
include hmode ha

/-- An access of HBM through a port in use: the line is asked back, or the bytes move. -/
theorem execHostCxlMemAccess_hbm : execHostCxlMemAccess s =
    if s.otherHolds s.input.c (s.input.a / 64) s.hostOwns then .next (s.askLine (s.input.a / 64, s.hostOwns))
    else .next (s.hostMoves.hostKeeps s.input.c (s.input.a / 64) s.input.mesi (Map.get {} s.host.links (8 * s.input.c)).mode) := by
  unfold execHostCxlMemAccess
  dsimp only
  rw [if_neg (by rw [hopen]; exact Bool.false_ne_true),
    if_neg (by simpa only [Bool.or_eq_true, beq_iff_eq, decide_eq_true_iff, not_or, Nat.not_le] using And.intro hmode ha)]
  rfl

theorem execHostCxlMemAccess_moves (hfree : s.otherHolds s.input.c (s.input.a / 64) s.hostOwns = false) :
    execHostCxlMemAccess s = .next
      (s.hostMoves.hostKeeps s.input.c (s.input.a / 64) s.input.mesi (Map.get {} s.host.links (8 * s.input.c)).mode) :=
  (execHostCxlMemAccess_hbm hopen hmode ha).trans (ite_f hfree)

theorem execHostCxlMemAccess_asks (hother : s.otherHolds s.input.c (s.input.a / 64) s.hostOwns = true) :
    execHostCxlMemAccess s = .next (s.askLine (s.input.a / 64, s.hostOwns)) :=
  (execHostCxlMemAccess_hbm hopen hmode ha).trans (ite_t hother)
end

/-- Settles O58: each transaction of a host by the state of its line. -/
theorem hostCoherence : Obligations.HostCoherence := by
  intro s i l
  refine ⟨?snoops, execCxlGo_pull, ?grant, execBisnpResponse_none, ?answer, ?access⟩
  case snoops =>
    intro old went
    refine ⟨fun hcached hheld => ⟨snoop_hit s (fun _ => .s) hcached hheld, snoop_hit s id hcached hheld⟩,
      fun h => ⟨snoop_miss s (fun _ => .s) h, snoop_miss s id h⟩, ?_, fun new => Map.get_set_same ..⟩
    obtain ⟨hmem, hhost, -⟩ := breakResv_mem_host_input s (64 * l) 64
    exact ⟨hmem, hhost, execSnpInv_held, execSnpInv_notHeld⟩
  case grant =>
    intro old hflag hcached hwanted hevict hold new
    exact ⟨_, execCxlGo_grant hflag hcached hwanted hevict hold, granted_spec s l old new⟩
  case answer =>
    intro p st hfind hwanted
    obtain ⟨hback, hkept⟩ := returnLine_spec s l st
    exact ⟨_, execBisnpResponse_held hfind hwanted, hback, hkept, find_yielded s l p st i.flag⟩
  case access =>
    intro p line n mode
    refine ⟨execHostCxlMemAccess_shut, execHostCxlMemAccess_nothing, fun hopen hmode ha hfree => ?_,
      fun hopen hmode ha q st hfind hq hown => ?_⟩
    · have hnone : s.otherHolds p line s.hostOwns = false := by
        refine Bool.eq_false_iff.mpr fun h => ?_
        obtain ⟨q, st, hfind, hq, hown⟩ := (otherHolds_iff ..).mp h
        rw [hostOwns_iff] at hown
        obtain rfl | ⟨hflag, hmesi, hst⟩ := hfree q st hfind
        · exact hq rfl
        · rcases hown with (h | h) | h
          · exact Bool.false_ne_true (hflag.symm.trans h)
          · exact h hmesi
          · exact hst h
      have hmoves := execHostCxlMemAccess_moves hopen hmode ha hnone
      obtain ⟨hmem, hgroups, hreads⟩ := hostKeeps_kept s.hostMoves p line i.mesi mode
      refine ⟨fun hflag => ⟨_, hmoves, ?_, ?_, ?_, find_hostKeeps _ p line⟩,
        fun hflag => ⟨_, hmoves, ?_, find_hostKeeps _ p line⟩⟩
      · rw [hmem, State.hostMoves, ite_f hflag]
        rfl
      · rw [hgroups, State.hostMoves, ite_f hflag]
        rfl
      · rw [hreads, State.hostMoves, ite_f hflag]
        rfl
      · rw [hmem, State.hostMoves, ite_t hflag]
    · have hother : s.otherHolds p line s.hostOwns = true :=
        (otherHolds_iff ..).mpr ⟨q, st, hfind, hq, by rw [hostOwns_iff, or_assoc]; exact hown⟩
      have hasked : decide (i.flag = true ∨ i.mesi ≠ .s) = s.hostOwns :=
        Bool.eq_iff_iff.mpr (decide_eq_true_iff.trans (hostOwns_iff s).symm)
      refine ⟨_, execHostCxlMemAccess_asks hopen hmode ha hother, rfl, rfl, ?_⟩
      rw [hasked]
      exact mem_askLine s (line, s.hostOwns)

end Sys2Proof.Machine

/-! The statements of copies, of mailbox counters and of receive rings at the hart (10 R171-R179; 13 R243; 21 R306). -/
namespace Sys2Proof.Machine

/-- With nothing to release, a release is done at once. -/
theorem afterRelease_hartClean {s : State} (h : s.hartClean) (k : State → Out) : afterRelease s k = k s := by
  obtain ⟨hflight, hdirty, hevict, haway⟩ := h
  exact afterRelease_clean s k hflight hdirty hevict haway

-- Copies.

section
variable {s : State} {kind ch : Nat} {rd rs1 rs2 : XReg}

theorem copyInstr_illegal (h : rd = 0 ∨ rs2 = 31) : copyInstr s kind ch rd rs1 rs2 = illegal s := by
  unfold copyInstr
  rcases h with h | h
  · exact if_pos (beq_iff_eq.mpr h)
  · exact (congrArg (ite _ _) (withPair_illegal h)).trans (ite_self _)

section
variable (htoken : rd ≠ 0) (hpair : rs2 ≠ 31) (hfree : s.hartFree [rs1, rs2, rs2 + 1, rd])
include htoken hpair hfree

/-- A copy instruction that does not wait answers what its meaning answers of the settled state. -/
theorem copyInstr_settled {o : Out} (hdoes : copyDoes kind ch rd rs1 rs2 (s.settled [rs1, rs2, rs2 + 1, rd] [rd]) = o)
    (hgoes : Out.waits o = false) : copyInstr s kind ch rd rs1 rs2 = o := by
  have hfree' : s.hartFree ([rs1, rs2, rs2 + 1, rd] ++ [rd]) := fun r hr => hfree r (by
    rcases List.mem_append.mp hr with hr | hr
    · exact hr
    · rw [List.mem_singleton.mp hr]
      simp)
  rw [copyInstr_eq s kind ch rd rs1 rs2 htoken hpair]
  exact hartRun_eq hfree' hdoes hgoes

theorem copyInstr_misaligned (hal : (s.grp.xr rs1).toNat % 64 ≠ 0) :
    copyInstr s kind ch rd rs1 rs2 = .next ((s.settled [rs1, rs2, rs2 + 1, rd] [rd]).trap 5 (s.grp.xr rs1)) := by
  refine copyInstr_settled htoken hpair hfree ?_ (waits_trap _ _ _)
  unfold copyDoes
  simp only [settled_xr, readRecord_misaligned _ _ _ hal]
  rw [hartFault_trap _ _ _ (by decide)]

section
variable {r : Rec} {t : State} {l : List Byte} {v : State}
  (hrec : (s.settled [rs1, rs2, rs2 + 1, rd] [rd]).readRecord (s.grp.xr rs1)
    ((coordsOf (s.grp.xr rs2) (s.grp.xr (rs2 + 1))).getD 0 0) 5 = .ok r t)
include hrec

theorem copyInstr_checks {cause : Nat} {val : W64} : let u := s.settled [rs1, rs2, rs2 + 1, rd] [rd]
    copyFault u kind r (s.grp.xr rs1) (s.grp.xr rd) = some (cause, val) →
    copyInstr s kind ch rd rs1 rs2 = .next (u.trap cause val) := by
  intro u hfault
  refine copyInstr_settled htoken hpair hfree ?_ (waits_trap _ _ _)
  unfold copyDoes
  simp only [settled_xr, hrec]
  rw [hfault]
  rfl

omit hfree in
theorem copyInstr_full : let u := s.settled [rs1, rs2, rs2 + 1, rd] [rd]
    copyFault u kind r (s.grp.xr rs1) (s.grp.xr rd) = none → 16 ≤ (t.core.chan ch).copies.length → s.grp.tokens = [] →
    copyInstr s kind ch rd rs1 rs2 = hartWaits s (.copySlots ch) := by
  intro u hfault hfull htokens
  have hu : u = s := settled_empty s _ _ htokens
  rw [show s.settled _ _ = s from hu] at hrec
  rw [hu] at hfault
  rw [copyInstr_eq s kind ch rd rs1 rs2 htoken hpair, hartRun_empty htokens]
  unfold copyDoes
  simp only [hrec, hfault, if_pos hfull]

theorem copyInstr_issues (hread : (s.settled [rs1, rs2, rs2 + 1, rd] [rd]).readBytes (s.grp.xr rs1) 64 5 5 = .ok l v) :
    let u := s.settled [rs1, rs2, rs2 + 1, rd] [rd]
    let w := t.issueCopy kind ch rd l (s.grp.xr rs2) (s.grp.xr (rs2 + 1)) (s.grp.xr rd).toNat
    copyFault u kind r (s.grp.xr rs1) (s.grp.xr rd) = none → (t.core.chan ch).copies.length < 16 → t.hartClean →
    copyInstr s kind ch rd rs1 rs2 = .next (w.setGrp w.grp.hartNext) := by
  intro u w hfault hroom hclean
  refine copyInstr_settled htoken hpair hfree ?_ (waits_nextRecord _ _)
  unfold copyDoes
  simp only [settled_xr, hrec, hread]
  rw [hfault]
  simp only [if_neg (Nat.not_le.mpr hroom), afterRelease_hartClean hclean]
  rfl

omit htoken hpair hfree in
/-- What an issued copy changes: its channel, its token and the pc. -/
theorem issued_spec (l : List Byte) (off : Nat) :
    let w := t.issueCopy kind ch rd l (s.grp.xr rs2) (s.grp.xr (rs2 + 1)) off
    let x := w.setGrp w.grp.hartNext
    (x.core.chan ch).next = (t.core.chan ch).next + 1
    ∧ (x.core.chan ch).copies = (t.core.chan ch).copies ++ [{
        id := (t.core.chan ch).next, kind := kind, record := l, c01 := s.grp.xr rs2, c234 := s.grp.xr (rs2 + 1)
        off := off, grp := s.cur, blk := s.grp.blk, token := rd.toNat }]
    ∧ (∀ j, j ≠ ch → x.core.chan j = t.core.chan j)
    ∧ x.grp = { (s.settled [rs1, rs2, rs2 + 1, rd] [rd]).grp with tokens := x.grp.tokens }.hartNext
    ∧ x.grp.tokens.find rd.toNat = some ⟨ch, (t.core.chan ch).next, false⟩
    ∧ ∀ b, Memory.read x.mem b = Memory.read s.mem b := by
  intro w x
  obtain ⟨hgrp, hmem, hcur⟩ := readRecord_state hrec
  obtain ⟨hnext, hcopies, hother, hwgrp, hwmem⟩ :=
    issueCopy_spec t kind ch rd l (s.grp.xr rs2) (s.grp.xr (rs2 + 1)) off
  rw [hcur, hgrp, settled_cur, (settled_blk s _ _).2] at hcopies
  have hx : x.grp = w.grp.hartNext := State.grp_setGrp ..
  rw [hgrp] at hwgrp
  refine ⟨hnext, hcopies, hother, ?_, ?_, fun b => ?_⟩
  · rw [hx, show w.grp = _ from hwgrp]
    rfl
  · rw [hx, show w.grp = _ from hwgrp]
    exact (Map.find_set ..).trans (if_pos rfl)
  · show Memory.read w.mem b = _
    rw [show w.mem = _ from hwmem, hmem, settled_mem]
end
end
end

/-- Settles O38: the four instructions are one meaning, whose checks, wait and issue follow one another. -/
theorem copiesIssue : Obligations.CopiesIssue := by
  intro ch rd rs1 rs2 s p hp
  have hexec : exec p.2 s = copyInstr s p.1 ch.toNat rd rs1 rs2 := by
    simp only [List.mem_cons, List.not_mem_nil, or_false] at hp
    rcases hp with rfl | rfl | rfl | rfl <;> rfl
  rw [hexec]
  refine ⟨copyInstr_illegal, fun htoken hpair hfree => ⟨copyInstr_misaligned htoken hpair hfree, ?_⟩⟩
  intro r t l v hrec hread
  refine ⟨fun cause val => copyInstr_checks htoken hpair hfree hrec, copyInstr_full htoken hpair hrec, ?_⟩
  intro hfault hroom hclean
  exact ⟨_, copyInstr_issues htoken hpair hfree hrec hread hfault hroom hclean, issued_spec hrec _ _⟩

-- Waits for copies.

theorem State.SettlesTo.hartWait {s t : State} (h : s.SettlesTo t) : t.grp.hartWait = s.grp.hartWait := by rw [h]

theorem settled_chan (s : State) (reads writes : List XReg) (c : Nat) :
    (s.settled reads writes).core.chan c = s.core.chan c := by
  rw [settled_core]
  rfl

/-- An instruction that waits, of the settled state and of the state as it stands, records the wait on the latter. -/
theorem hartRun_waits {s : State} {reads writes : List XReg} {k : State → Out} {w : HartWait}
    (h : s.hartFree (reads ++ writes)) (hsettled : k (s.settled reads writes) = hartWaits (s.settled reads writes) w)
    (hk : k s = hartWaits s w) : hartRun s reads writes k = hartWaits s w :=
  hartRun_wait h hsettled (waits_hartWaits _ w) hk

/-- Whether `z.cpywait` completes (R174): no copy of the group is left on the channel, or the id of rs1 is done. -/
def State.copiesDone (s : State) (ch : Nat) (rs1 : XReg) : Prop :=
  let n := s.core.chan ch
  if rs1 = 0 then (∀ k ∈ n.copies, k.grp ≠ s.cur) else (n.cedone - ((s.grp.xr rs1).setWidth 32 + 1)).msb = false

theorem copiesDone_iff (s : State) (ch : Nat) (rs1 : XReg) : s.copiesDone ch rs1 ↔ (if rs1 == 0
    then !((s.core.chan ch).copies.any fun c => c.grp == s.cur)
    else reached32 (s.core.chan ch).cedone (lo32 (s.grp.xr rs1) + 1)) = true := by
  unfold State.copiesDone
  by_cases h : rs1 = 0
  · simp [h]
  · simp only [h, beq_iff_eq, if_false, reached32_eq]
    rfl

theorem settled_copiesDone (s : State) (reads writes : List XReg) (ch : Nat) (rs1 : XReg) :
    (s.settled reads writes).copiesDone ch rs1 ↔ s.copiesDone ch rs1 := by
  unfold State.copiesDone
  rw [settled_chan, settled_xr, settled_cur]

section
variable {ch : BitVec 3} {rd rs1 : XReg} {s : State} (hfree : s.hartFree [rs1, rd])
include hfree

theorem execZCpywait_done (hdone : s.copiesDone ch.toNat rs1) : let u := s.settled [rs1] [rd]
    execZCpywait ch rd rs1 s =
      .next ((u.l1Clear u.coreNo).hartDone rd ((s.core.chan ch.toNat).cedone.setWidth 64)) := by
  intro u
  have hu := (copiesDone_iff u ch.toNat rs1).mp ((settled_copiesDone s [rs1] [rd] ch.toNat rs1).mpr hdone)
  unfold execZCpywait
  refine hartRun_eq (reads := [rs1]) hfree ((if_pos hu).trans ?_) (waits_hartDone _ _ _)
  rw [settled_chan]
  rfl

theorem execZCpywait_waits (hleft : ¬s.copiesDone ch.toNat rs1) :
    execZCpywait ch rd rs1 s = hartWaits s (.copies ch.toNat) := by
  unfold execZCpywait
  refine hartRun_waits (reads := [rs1]) hfree (if_neg fun h => ?_) (if_neg fun h => ?_)
  · exact hleft ((settled_copiesDone ..).mp ((copiesDone_iff ..).mpr h))
  · exact hleft ((copiesDone_iff ..).mpr h)
end

-- Mailbox counters.

section
variable {s : State} {a : W64} {load posted : Bool} {k : W64 → Nat → Out}

theorem withMailbox_space (h : a.toNat / 2 ^ 56 ≠ 0xF4) : withMailbox s a load posted k = raise s (spaceCause load) a :=
  if_pos (bne_iff_ne.mpr h)

/-- A tagged address goes on where its access takes the handle's entry: by the grant alone where the home decides the
rest (13 R243), else by what the entry stands for. -/
theorem withMailbox_tagged (h : a.toNat / 2 ^ 56 = 0xF4)
    (hok : (if posted && handleCore (s.mailbox a).1 != s.coreNo then grantsCounter (s.mailbox a).1 (s.mailbox a).2
      else s.counterOk (s.mailbox a).1 (s.mailbox a).2) = true) :
    withMailbox s a load posted k = k (s.mailbox a).1 (s.mailbox a).2 :=
  (if_neg fun hne => bne_iff_ne.mp hne h).trans (if_pos hok)

theorem withMailbox_stands (h : a.toNat / 2 ^ 56 = 0xF4) (hok : s.counterOk (s.mailbox a).1 (s.mailbox a).2 = true) :
    withMailbox s a load false k = k (s.mailbox a).1 (s.mailbox a).2 := withMailbox_tagged h hok

theorem withMailbox_posted_near (h : a.toNat / 2 ^ 56 = 0xF4) (hnear : handleCore (s.mailbox a).1 = s.coreNo)
    (hok : s.counterOk (s.mailbox a).1 (s.mailbox a).2 = true) :
    withMailbox s a load true k = k (s.mailbox a).1 (s.mailbox a).2 :=
  withMailbox_tagged h (by simpa [hnear] using hok)

theorem withMailbox_posted_far (h : a.toNat / 2 ^ 56 = 0xF4)
    (hfar : ¬(isPeer (s.mailbox a).1 = false ∧ handleCore (s.mailbox a).1 = s.coreNo))
    (hgrant : grantsCounter (s.mailbox a).1 (s.mailbox a).2 = true) :
    withMailbox s a load true k = k (s.mailbox a).1 (s.mailbox a).2 := by
  refine withMailbox_tagged h ?_
  by_cases hcore : handleCore (s.mailbox a).1 = s.coreNo
  · have hpeer : isPeer (s.mailbox a).1 = true := by simpa [hcore] using hfar
    simp [hcore, State.counterOk, hgrant, hpeer]
  · simpa [hcore] using hgrant
end

/-- The test by which an access tells its own core's counter from a distant one. -/
theorem near_iff {e : W64} {core : Nat} : (!isPeer e && handleCore e == core) = true ↔
    isPeer e = false ∧ handleCore e = core := by
  rw [Bool.and_eq_true, Bool.not_eq_true', beq_iff_eq]

/-- The same test the other way round. -/
theorem far_iff {e : W64} {core : Nat} : (isPeer e || handleCore e != core) = true ↔
    ¬(isPeer e = false ∧ handleCore e = core) := by
  cases isPeer e with
  | true => exact ⟨fun _ h => (nomatch h.1), fun _ => rfl⟩
  | false =>
    rw [Bool.false_or, bne_iff_ne]
    exact ⟨fun hne h => hne h.2, fun h heq => h ⟨rfl, heq⟩⟩

/-- A counter of the acting core set, the hart past its instruction: the waiters whose threshold it has reached wake. -/
theorem setCounter_completes (u : State) (idx : Nat) (x : W32) : let v := u.setCounter u.coreNo idx x
    let w := v.setGrp v.grp.hartNext
    w.counter u.coreNo idx = x ∧ (∀ c k, (c, k) ≠ (u.coreNo, idx) → w.counter c k = u.counter c k)
    ∧ w.grp = u.grp.hartNext ∧ w.mem = u.mem
    ∧ ∀ k, k ≠ u.cur → w.grpAt k = if (u.grpAt k).wakesAt (256 * u.coreNo + idx) x
        then { u.grpAt k with hartWait := some (.woken x) } else u.grpAt k := by
  intro v w
  obtain ⟨hcur, hmem, hgroups⟩ := setCounter_groups u idx x
  have hcounter := counter_setCounter u u.coreNo idx x
  refine ⟨(hcounter _ _).trans (if_pos rfl), fun c k hne => (hcounter c k).trans (if_neg hne), ?own, hmem,
    fun k hk => ?others⟩
  case own =>
    have hv : v.grp =
        if u.grp.wakesAt (256 * u.coreNo + idx) x then { u.grp with hartWait := some (.woken x) } else u.grp := by
      unfold State.grp
      rw [hcur]
      exact hgroups u.cur
    rw [show w.grp = v.grp.hartNext from State.grp_setGrp .., hv]
    split <;> rfl
  case others =>
    rw [show w = v.setGrp v.grp.hartNext from rfl, State.grpAt_setGrp, if_neg (by rw [hcur]; exact Ne.symm hk)]
    exact hgroups k

section
variable {rs1 rs2 : XReg} {s : State} (hfree : s.hartFree [rs1, rs2])
include hfree

theorem execZMbadd_space (htag : (s.grp.xr rs1).toNat / 2 ^ 56 ≠ 0xF4) :
    execZMbadd rs1 rs2 s = .next ((s.settled [rs1, rs2] []).trap 7 (s.grp.xr rs1)) := by
  unfold execZMbadd
  refine hartRun_eq (reads := [rs1, rs2]) hfree ?_ (waits_trap _ _ _)
  simp only [settled_xr]
  exact withMailbox_space htag

theorem execZMbset_space (htag : (s.grp.xr rs1).toNat / 2 ^ 56 ≠ 0xF4) :
    execZMbset rs1 rs2 s = .next ((s.settled [rs1, rs2] []).trap 7 (s.grp.xr rs1)) := by
  unfold execZMbset
  refine hartRun_eq (reads := [rs1, rs2]) hfree ?_ (waits_trap _ _ _)
  simp only [settled_xr]
  exact withMailbox_space htag

section
variable (htag : (s.grp.xr rs1).toNat / 2 ^ 56 = 0xF4)
include htag

theorem execZMbadd_near : let u := s.settled [rs1, rs2] []
    let e := (u.mailbox (s.grp.xr rs1)).1
    let idx := (u.mailbox (s.grp.xr rs1)).2
    let v := u.setCounter u.coreNo idx (u.counter u.coreNo idx + (s.grp.xr rs2).setWidth 32)
    (isPeer e = false ∧ handleCore e = u.coreNo) → u.counterOk e idx = true → u.hartClean →
    u.sentTo (some u.coreNo) = false → execZMbadd rs1 rs2 s = .next (v.setGrp v.grp.hartNext) := by
  intro u e idx v hnear hok hclean hsent
  unfold execZMbadd
  refine hartRun_eq (reads := [rs1, rs2]) hfree ?_ (waits_nextRecord _ _)
  simp only [settled_xr]
  rw [withMailbox_posted_near htag hnear.2 hok, afterRelease_hartClean hclean,
    if_pos (near_iff.mpr hnear), hnear.2, if_neg (ne_true_of_eq_false hsent)]
  rfl

theorem execZMbadd_far : let u := s.settled [rs1, rs2] []
    let e := (u.mailbox (s.grp.xr rs1)).1
    let idx := (u.mailbox (s.grp.xr rs1)).2
    let v := u.post { addr := s.grp.xr rs1, size := 2, kind := 2 } (handleTarget e) fun slot =>
      .increment slot (handleCore e) idx ((s.grp.xr rs2).setWidth 32) (s.grp.xr rs1)
    ¬(isPeer e = false ∧ handleCore e = u.coreNo) → grantsCounter e idx = true → u.hartClean → u.grp.jcount < 32 →
    execZMbadd rs1 rs2 s = .next (v.setGrp v.grp.hartNext) := by
  intro u e idx v hfar hgrant hclean hroom
  unfold execZMbadd
  refine hartRun_eq (reads := [rs1, rs2]) hfree ?_ (waits_nextRecord _ _)
  simp only [settled_xr]
  rw [withMailbox_posted_far htag hfar hgrant, afterRelease_hartClean hclean,
    if_neg (mt near_iff.mp hfar), if_pos hroom]
  rfl

theorem execZMbset_near : let u := s.settled [rs1, rs2] []
    let e := (u.mailbox (s.grp.xr rs1)).1
    let idx := (u.mailbox (s.grp.xr rs1)).2
    let v := u.setCounter u.coreNo idx ((s.grp.xr rs2).setWidth 32)
    (isPeer e = false ∧ handleCore e = u.coreNo) → u.counterOk e idx = true → u.sentTo (some u.coreNo) = false →
    execZMbset rs1 rs2 s = .next (v.setGrp v.grp.hartNext) := by
  intro u e idx v hnear hok hsent
  unfold execZMbset
  refine hartRun_eq (reads := [rs1, rs2]) hfree ?_ (waits_nextRecord _ _)
  simp only [settled_xr]
  rw [withMailbox_stands htag hok, if_neg (fun h => far_iff.mp h hnear), if_neg (ne_true_of_eq_false hsent)]
  rfl

theorem execZMbset_far : let u := s.settled [rs1, rs2] []
    let e := (u.mailbox (s.grp.xr rs1)).1
    let idx := (u.mailbox (s.grp.xr rs1)).2
    ¬(isPeer e = false ∧ handleCore e = u.coreNo) → u.counterOk e idx = true →
    execZMbset rs1 rs2 s = .next (u.ask (.mbset (s.grp.xr rs1) ((s.grp.xr rs2).setWidth 32))) := by
  intro u e idx hfar hok
  unfold execZMbset
  refine hartRun_eq (reads := [rs1, rs2]) hfree ?_ (waits_ask _ _)
  simp only [settled_xr]
  rw [withMailbox_stands htag hok, if_pos (far_iff.mpr hfar)]
  rfl
end
end

/-- Whether a value is short of a threshold modulo 2^32. -/
theorem short_iff {v n : W32} : (!reached32 v n) = true ↔ (v - n).msb = true := by simp [reached32]

/-- The increment sent to a distant counter: its message, its journal entry, and the pc. -/
theorem post_completes (u : State) (e : JEntry) (dst : Nat) (body : Nat → MsgBody) : let v := u.post e dst body
    let w := v.setGrp v.grp.hartNext
    w.net = u.net ++ [⟨u.cur, dst, body u.grp.jnext⟩] ∧ w.grp = (u.grp.journalAdd e).hartNext ∧ w.mem = u.mem := by
  intro v w
  have hv : v.grp = u.grp.journalAdd e := State.grp_setGrp u _
  exact ⟨rfl, (State.grp_setGrp ..).trans (by rw [hv]), rfl⟩

section
variable {rd rs1 rs2 : XReg} {s : State} (hfree : s.hartFree [rs1, rs2, rd])
  (htag : (s.grp.xr rs1).toNat / 2 ^ 56 = 0xF4)

section
variable (hok : (s.settled [rs1, rs2] [rd]).counterOk ((s.settled [rs1, rs2] [rd]).mailbox (s.grp.xr rs1)).1
  ((s.settled [rs1, rs2] [rd]).mailbox (s.grp.xr rs1)).2 = true)
include hfree htag hok

theorem execZMbwait_woken {x : W32} (hwoken : s.grp.hartWait = some (.woken x)) : let u := s.settled [rs1, rs2] [rd]
    execZMbwait rd rs1 rs2 s = .next ((u.l1Clear u.coreNo).hartDone rd (x.setWidth 64)) := by
  intro u
  have hu : u.grp.hartWait = some (.woken x) := (settlesTo_settled s [rs1, rs2] [rd]).hartWait.trans hwoken
  unfold execZMbwait
  refine hartRun_eq (reads := [rs1, rs2]) hfree ?_ (waits_hartDone _ _ _)
  simp only [settled_xr]
  rw [withMailbox_stands htag hok, hu]
  rfl

section
variable (hunwoken : ∀ x, s.grp.hartWait ≠ some (.woken x))
include hunwoken

theorem execZMbwait_reached : let u := s.settled [rs1, rs2] [rd]
    let e := (u.mailbox (s.grp.xr rs1)).1
    let v := u.homeCounter e (u.mailbox (s.grp.xr rs1)).2
    u.sentTo (some (handleTarget e)) = false → (v - (s.grp.xr rs2).setWidth 32).msb = false →
    execZMbwait rd rs1 rs2 s = .next ((u.l1Clear u.coreNo).hartDone rd (v.setWidth 64)) := by
  intro u e v hsent hreached
  unfold execZMbwait
  refine hartRun_eq (reads := [rs1, rs2]) hfree ?_ (waits_hartDone _ _ _)
  simp only [settled_xr]
  rw [withMailbox_stands htag hok]
  split
  · next x hx => exact absurd ((settlesTo_settled s [rs1, rs2] [rd]).hartWait.symm.trans hx) (hunwoken x)
  · exact (if_neg (ne_true_of_eq_false hsent)).trans (if_neg (mt short_iff.mp (ne_true_of_eq_false hreached)))

omit hfree in
/-- Without copy tokens a wait is recorded on the state as it stands. -/
theorem execZMbwait_waits (htokens : s.grp.tokens = []) : let u := s.settled [rs1, rs2] [rd]
    let e := (u.mailbox (s.grp.xr rs1)).1
    let idx := (u.mailbox (s.grp.xr rs1)).2
    let n : W32 := (s.grp.xr rs2).setWidth 32
    (u.sentTo (some (handleTarget e)) = true → execZMbwait rd rs1 rs2 s = hartWaits s .drain)
    ∧ (u.sentTo (some (handleTarget e)) = false → (u.homeCounter e idx - n).msb = true →
      execZMbwait rd rs1 rs2 s = hartWaits s (.mailbox (256 * handleTarget e + idx) n)) := by
  rw [settled_empty s _ _ htokens] at hok ⊢
  unfold execZMbwait
  rw [hartRun_empty htokens, withMailbox_stands htag hok]
  split
  · next x hx => exact absurd hx (hunwoken x)
  · exact ⟨fun hsent => if_pos hsent,
      fun hsent hshort => (if_neg (ne_true_of_eq_false hsent)).trans (if_pos (short_iff.mpr hshort))⟩
end
end
end

section
variable {rd rs1 : XReg} {s : State} (hfree : s.hartFree [rs1, rd])
include hfree

theorem execZMbrd_space (htag : (s.grp.xr rs1).toNat / 2 ^ 56 ≠ 0xF4) :
    execZMbrd rd rs1 s = .next ((s.settled [rs1] [rd]).trap 5 (s.grp.xr rs1)) := by
  unfold execZMbrd
  refine hartRun_eq (reads := [rs1]) hfree ?_ (waits_trap _ _ _)
  simp only [settled_xr]
  exact withMailbox_space htag

section
variable (htag : (s.grp.xr rs1).toNat / 2 ^ 56 = 0xF4)
include htag

theorem execZMbrd_near : let u := s.settled [rs1] [rd]
    let e := (u.mailbox (s.grp.xr rs1)).1
    let idx := (u.mailbox (s.grp.xr rs1)).2
    u.counterOk e idx = true → (isPeer e = false ∧ handleCore e = u.coreNo) → u.sentTo (some u.coreNo) = false →
    execZMbrd rd rs1 s = .next (u.hartDone rd ((u.counter u.coreNo idx).setWidth 64)) := by
  intro u e idx hok hnear hsent
  unfold execZMbrd
  refine hartRun_eq (reads := [rs1]) hfree ?_ (waits_hartDone _ _ _)
  simp only [settled_xr]
  rw [withMailbox_stands htag hok, if_neg (fun h => far_iff.mp h hnear), if_neg (ne_true_of_eq_false hsent)]

theorem execZMbrd_far : let u := s.settled [rs1] [rd]
    let e := (u.mailbox (s.grp.xr rs1)).1
    u.counterOk e (u.mailbox (s.grp.xr rs1)).2 = true → ¬(isPeer e = false ∧ handleCore e = u.coreNo) →
    execZMbrd rd rs1 s = .next (u.ask (.mbread rd (s.grp.xr rs1))) := by
  intro u e hok hfar
  unfold execZMbrd
  refine hartRun_eq (reads := [rs1]) hfree ?_ (waits_ask _ _)
  simp only [settled_xr]
  rw [withMailbox_stands htag hok, if_pos (far_iff.mpr hfar)]
end
end

/-- Settles O39: each instruction by its counter's place, or by whether the wait's condition holds. -/
theorem countersComplete : Obligations.CountersComplete := by
  intro ch rd rs1 rs2 s
  refine ⟨fun hfree => ⟨execZCpywait_done hfree, execZCpywait_waits hfree⟩, ?update, ?wait, ?read⟩
  case update =>
    intro hfree u a v e idx near set
    have hset : ∀ x, let w := u.setCounter u.coreNo idx x; set (w.setGrp w.grp.hartNext) x := fun x => by
      obtain ⟨hown, hother, hgrp, hmem, hwakes⟩ := setCounter_completes u idx x
      exact ⟨hown, hother, hgrp, hmem.trans (settled_mem s _ _), fun k hk => hwakes k (by rwa [settled_cur])⟩
    refine ⟨fun htag => ⟨execZMbadd_space hfree htag, execZMbset_space hfree htag⟩,
      fun htag => ⟨?addNear, ?addFar, ?setNear, ?setFar⟩⟩
    case addNear =>
      intro hnear hok hclean hsent
      exact ⟨_, execZMbadd_near hfree htag hnear hok hclean hsent, hset _⟩
    case addFar =>
      intro hfar hgrant hclean hroom
      obtain ⟨hnet, hgrp, hmem⟩ := post_completes u { addr := a, size := 2, kind := 2 } (handleTarget e) fun slot =>
        .increment slot (handleCore e) idx v a
      exact ⟨_, execZMbadd_far hfree htag hfar hgrant hclean hroom, hnet, hgrp, hmem.trans (settled_mem s _ _)⟩
    case setNear =>
      intro hnear hok hsent
      exact ⟨_, execZMbset_near hfree htag hnear hok hsent, hset _⟩
    case setFar => exact execZMbset_far hfree htag
  case wait =>
    intro hfree u a e idx n htag hok v
    refine ⟨fun x => execZMbwait_woken hfree htag hok, fun hunwoken =>
      ⟨execZMbwait_reached hfree htag hok hunwoken, ?_⟩⟩
    exact ⟨fun htokens => (execZMbwait_waits htag hok hunwoken htokens).1,
      fun htokens => (execZMbwait_waits htag hok hunwoken htokens).2⟩
  case read =>
    intro hfree u a e idx near
    exact ⟨execZMbrd_space hfree, fun htag hok => ⟨execZMbrd_near hfree htag hok, execZMbrd_far hfree htag hok⟩⟩

-- Receive rings.

theorem settled_ring (s : State) (reads writes : List XReg) (n : Nat) :
    (s.settled reads writes).core.ring n = s.core.ring n := by
  rw [settled_core]
  rfl

/-- A send of 64 bytes to a ring of the handle's core: the hart waits for the ring's answer. -/
def State.ringSent (u : State) (e : W64) (l : List Byte) (rd : XReg) : State :=
  let t := u.ask (.send rd e.toNat l)
  { t with net := t.net ++ [⟨t.cur, handleCore e, .ring e.toNat l rd⟩] }

theorem ringSent_grp (u : State) (e : W64) (l : List Byte) (rd : XReg) :
    (u.ringSent e l rd).grp = { u.grp with hartReq := some (.send rd e.toNat l), hartWait := none } :=
  State.grp_setGrp u _

section
variable {rd rs1 rs2 : XReg} {s : State} (hfree : s.hartFree [rs1, rs2, rd])
include hfree

theorem execZSend_misaligned (hal : (s.grp.xr rs2).toNat % 64 ≠ 0) :
    execZSend rd rs1 rs2 s = .next ((s.settled [rs1, rs2] [rd]).trap 4 (s.grp.xr rs2)) := by
  unfold execZSend
  refine hartRun_eq (reads := [rs1, rs2]) hfree ?_ (waits_trap _ _ _)
  simp only [settled_xr]
  exact if_pos (bne_iff_ne.mpr hal)

section
variable (hal : (s.grp.xr rs2).toNat % 64 = 0)
include hal

theorem execZSend_outside (hout : s.blk.scratch < (s.grp.xr rs2).toNat + 64) :
    execZSend rd rs1 rs2 s = .next ((s.settled [rs1, rs2] [rd]).trap 5 (s.grp.xr rs2)) := by
  unfold execZSend
  refine hartRun_eq (reads := [rs1, rs2]) hfree ?_ (waits_trap _ _ _)
  simp only [settled_xr, (settled_blk s [rs1, rs2] [rd]).1]
  exact (if_neg fun h => bne_iff_ne.mp h hal).trans (if_pos hout)

section
variable (hin : (s.grp.xr rs2).toNat + 64 ≤ s.blk.scratch)
include hin

theorem execZSend_space (htag : (s.grp.xr rs1).toNat / 2 ^ 56 ≠ 0xF1) :
    execZSend rd rs1 rs2 s = .next ((s.settled [rs1, rs2] [rd]).trap 7 (s.grp.xr rs1)) := by
  unfold execZSend
  refine hartRun_eq (reads := [rs1, rs2]) hfree ?_ (waits_trap _ _ _)
  simp only [settled_xr, (settled_blk s [rs1, rs2] [rd]).1]
  exact (if_neg fun h => bne_iff_ne.mp h hal).trans ((if_neg (Nat.not_lt.mpr hin)).trans (if_pos (bne_iff_ne.mpr htag)))

theorem execZSend_sends (htag : (s.grp.xr rs1).toNat / 2 ^ 56 = 0xF1) : let u := s.settled [rs1, rs2] [rd]
    let e := u.blk.handle (bits (s.grp.xr rs1).toNat 47 40)
    let key := scratchKey s.grp.blk (s.grp.xr rs2).toNat
    handleKind e = 3 → u.hartClean → s.poisoned key 64 = false →
    execZSend rd rs1 rs2 s = .next (u.ringSent e (s.bytes key 64) rd) := by
  intro u e key hkind hclean hpoison
  obtain ⟨hblk, hgblk⟩ := settled_blk s [rs1, rs2] [rd]
  have hbytes : u.bytes key 64 = s.bytes key 64 := congrArg (Memory.bytes · key 64) (settled_mem s [rs1, rs2] [rd])
  have hsound : u.poisoned key 64 = false := (settled_poison s [rs1, rs2] [rd] key 64).1.trans hpoison
  unfold execZSend
  refine hartRun_eq (reads := [rs1, rs2]) hfree ?_ (waits_ask u _)
  simp only [settled_xr]
  rw [if_neg fun h => bne_iff_ne.mp h hal, if_neg (by rw [hblk]; exact Nat.not_lt.mpr hin),
    if_neg fun h => bne_iff_ne.mp h htag, if_neg fun h => bne_iff_ne.mp h hkind,
    afterRelease_hartClean hclean, hgblk, if_neg (ne_true_of_eq_false hsound), hbytes]
  rfl
end
end
end

/-- Whether a register names a ring of the acting group's own block. -/
def State.ownRing (s : State) (v : W64) : Prop :=
  v.toNat < 8 ∧ (s.core.ring (v.toNat % 8)).live = true ∧ (s.core.ring (v.toNat % 8)).owner = s.grp.blk

theorem settled_ownRing (s : State) (reads writes : List XReg) (v : W64) :
    (s.settled reads writes).ownRing v ↔ s.ownRing v := by
  unfold State.ownRing
  rw [settled_ring, (settled_blk s reads writes).2]

section
variable {rd rs1 : XReg} {s : State} (hfree : s.hartFree [rs1, rd])
include hfree

theorem execZRecv_other (hother : ¬s.ownRing (s.grp.xr rs1)) :
    execZRecv rd rs1 s = .next ((s.settled [rs1] [rd]).trap 5 (s.grp.xr rs1)) := by
  unfold execZRecv
  refine hartRun_eq (reads := [rs1]) hfree ?_ (waits_trap _ _ _)
  simp only [settled_xr]
  exact withRing_bad _ _ _ _ (mt (settled_ownRing s _ _ _).mp hother)

section
variable (hown : s.ownRing (s.grp.xr rs1))
include hown

theorem execZRecv_oldest : let u := s.settled [rs1] [rd]
    let r := s.core.ring ((s.grp.xr rs1).toNat % 8)
    r.head ≠ r.tail → execZRecv rd rs1 s =
      .next ((u.l1Clear u.coreNo).hartDone rd (BitVec.ofNat 64 (r.base + 64 * (r.head.toNat % r.slots)))) := by
  intro u r hfull
  unfold execZRecv
  refine hartRun_eq (reads := [rs1]) hfree ?_ (waits_hartDone _ _ _)
  simp only [settled_xr]
  rw [withRing_own _ _ _ _ ((settled_ownRing s _ _ _).mpr hown), settled_ring]
  exact if_neg fun h => hfull (beq_iff_eq.mp h).symm

theorem execZRecv_empty : let r := s.core.ring ((s.grp.xr rs1).toNat % 8)
    r.head = r.tail → execZRecv rd rs1 s = hartWaits s .ring := by
  intro r hempty
  have hwait : (r.tail == r.head) = true := beq_iff_eq.mpr hempty.symm
  unfold execZRecv
  refine hartRun_waits (reads := [rs1]) hfree ?settled ?asItStands
  case settled =>
    simp only [settled_xr]
    rw [withRing_own _ _ _ _ ((settled_ownRing s _ _ _).mpr hown), settled_ring]
    exact if_pos hwait
  case asItStands =>
    rw [withRing_own _ _ _ _ hown]
    exact if_pos hwait
end
end

section
variable {rs1 : XReg} {s : State} (hfree : s.hartFree [rs1])
include hfree

theorem execZRdone_other (hother : ¬s.ownRing (s.grp.xr rs1)) :
    execZRdone rs1 s = .next ((s.settled [rs1] []).trap 7 (s.grp.xr rs1)) := by
  unfold execZRdone
  refine hartRun_eq (reads := [rs1]) hfree ?_ (waits_trap _ _ _)
  simp only [settled_xr]
  exact withRing_bad _ _ _ _ (mt (settled_ownRing s _ _ _).mp hother)

section
variable (hown : s.ownRing (s.grp.xr rs1))
include hown

theorem execZRdone_empty : let r := s.core.ring ((s.grp.xr rs1).toNat % 8)
    r.head = r.tail → execZRdone rs1 s = .next ((s.settled [rs1] []).trap 7 (s.grp.xr rs1)) := by
  intro r hempty
  unfold execZRdone
  refine hartRun_eq (reads := [rs1]) hfree ?_ (waits_trap _ _ _)
  simp only [settled_xr]
  rw [withRing_own _ _ _ _ ((settled_ownRing s _ _ _).mpr hown), settled_ring]
  exact if_pos (beq_iff_eq.mpr hempty.symm)

theorem execZRdone_frees : let u := s.settled [rs1] []
    let n := (s.grp.xr rs1).toNat % 8
    let r := s.core.ring n
    let w := u.setRing u.coreNo n { r with head := r.head + 1 }
    r.head ≠ r.tail → u.hartClean → execZRdone rs1 s = .next (w.setGrp w.grp.hartNext) := by
  intro u n r w hfull hclean
  unfold execZRdone
  refine hartRun_eq (reads := [rs1]) hfree ?_ (waits_nextRecord _ _)
  simp only [settled_xr]
  rw [withRing_own _ _ _ _ ((settled_ownRing s _ _ _).mpr hown), settled_ring,
    if_neg (fun h => hfull (beq_iff_eq.mp h).symm), afterRelease_hartClean hclean]
end
end

/-- What the end of a message changes: its ring, and the pc. -/
theorem setRing_completes (u : State) (n : Nat) (r : Ring) : let v := u.setRing u.coreNo n r
    let w := v.setGrp v.grp.hartNext
    w.core.ring n = r ∧ (∀ k, k ≠ n → w.core.ring k = u.core.ring k) ∧ w.grp = u.grp.hartNext ∧ w.mem = u.mem := by
  intro v w
  have hring : ∀ k, w.core.ring k = if n = k then r else u.core.ring k := fun k => ring_setRing u n k r
  exact ⟨(hring n).trans (if_pos rfl), fun k hk => (hring k).trans (if_neg (Ne.symm hk)), State.grp_setGrp .., rfl⟩

/-- Settles O40: a send by its checks in their order, a receive and its end by the ring's owner and its messages. -/
theorem ringsComplete : Obligations.RingsComplete := by
  intro rd rs1 rs2 s
  refine ⟨fun hfree => ?send, fun hfree => ?recv, fun hfree => ?rdone⟩
  case send =>
    intro u a off e key
    refine ⟨execZSend_misaligned hfree, execZSend_outside hfree, fun hal hin => ⟨execZSend_space hfree hal hin, ?_⟩⟩
    intro htag hkind hclean hpoison
    exact ⟨_, execZSend_sends hfree hal hin htag hkind hclean hpoison, rfl, ringSent_grp .., settled_mem ..⟩
  case recv => exact ⟨execZRecv_oldest hfree, execZRecv_empty hfree, execZRecv_other hfree⟩
  case rdone =>
    intro u v r own
    have hr : r = s.core.ring (v.toNat % 8) := settled_ring ..
    have hown : own ↔ s.ownRing v := by
      unfold State.ownRing
      rw [← hr]
    refine ⟨fun h hfull hclean => ?_, fun h hempty => ?_, fun h => execZRdone_other hfree (mt hown.mpr h)⟩
    · rw [hr] at hfull ⊢
      obtain ⟨hset, hother, hgrp, hmem⟩ := setRing_completes u (v.toNat % 8) _
      exact ⟨_, execZRdone_frees hfree (hown.mp h) hfull hclean, hset, hother, hgrp, hmem.trans (settled_mem ..)⟩
    · rw [hr] at hempty
      exact execZRdone_empty hfree (hown.mp h) hempty

end Sys2Proof.Machine

/-! The statements of the barriers of the hart and of fabric reductions (03 R71; 10 R180-R183; 16 R280; 21 R305). -/
namespace Sys2Proof.Machine

-- Barriers of the hart.

/-- The state after a hart's wait at a barrier: with an arrival it is an acquire, with none it orders nothing. -/
def State.barWaited (u : State) (bar : Nat) : State :=
  let v := if (u.grp.arrivalAt bar).isSome then (u.setGrp (u.grp.setArrival bar none)).l1Clear u.coreNo else u
  v.setGrp { v.grp.hartNext with hartBar := false }

section
variable {s : State} {bar : Nat} {w : HartWait}

theorem hartBarWait_open (h : s.arrivalOpen s.cur bar = true) : hartBarWait s bar w = hartWaits s w := if_pos h

theorem hartBarWait_closed (h : s.arrivalOpen s.cur bar = false) : hartBarWait s bar w = .next (s.barWaited bar) :=
  if_neg (ne_true_of_eq_false h)

theorem hartBarArrive_open {k : State → Out} (h : s.arrivalOpen s.cur bar = true) :
    hartBarArrive s bar w k = hartWaits s w := if_pos h

theorem hartBarArrive_closed {k : State → Out} (h : s.arrivalOpen s.cur bar = false) (hclean : s.hartClean) :
    hartBarArrive s bar w k = k (s.arrive bar) := by
  exact (if_neg (ne_true_of_eq_false h)).trans (afterRelease_hartClean hclean _)

theorem hartBarArrive_completes (h : s.arrivalOpen s.cur bar = false) (hclean : s.hartClean) :
    hartBarArrive s bar w (fun t => .next (t.setGrp t.grp.hartNext)) =
      .next ((s.arrive bar).setGrp (s.arrive bar).grp.hartNext) := hartBarArrive_closed h hclean
end

/-- `z.bbar` of a hart that has arrived waits only. -/
theorem execZBbar_arrived {s : State} (h : s.grp.hartBar = true) :
    execZBbar s = hartBarWait s (s.barKey s.cur false false) .blockBarrier := if_pos h

/-- `z.bbar` of a hart that has not arrived records the arrival and waits. -/
theorem execZBbar_arrives {s : State} : let b := s.barKey s.cur false false
    let t := (s.arrive b).setGrp { (s.arrive b).grp with hartBar := true }
    s.grp.hartBar = false → s.arrivalOpen s.cur b = false → s.hartClean →
    execZBbar s = hartBarWait t b .blockBarrier := by
  intro b t hbar hopen hclean
  exact (if_neg (ne_true_of_eq_false hbar)).trans (hartBarArrive_closed hopen hclean)

/-- Settles O41: the arrival and the wait, once each; the five instructions are made of them. -/
theorem hartBarriersComplete : Obligations.HartBarriersComplete := by
  intro s waited arv wt b c
  refine ⟨⟨fun h => ?bbarOpen, fun h hclean => ?bbarArrives⟩, ⟨fun h => ?cbarOpen, fun h hclean => ?cbarArrives⟩,
    ⟨hartBarWait_closed, hartBarWait_open⟩, ⟨hartBarWait_closed, hartBarWait_open⟩, fun hbar => ?arrived,
    fun hbar hopen hclean => ?arrives, arrive_spec s⟩
  case bbarOpen => exact (show execZBbarArv s = _ from hartBarArrive_open h)
  case bbarArrives => exact (show execZBbarArv s = _ from hartBarArrive_completes h hclean)
  case cbarOpen => exact (show execZCbarArv s = _ from hartBarArrive_open h)
  case cbarArrives => exact (show execZCbarArv s = _ from hartBarArrive_completes h hclean)
  case arrived =>
    have hexec : exec .zBbar s = _ := execZBbar_arrived hbar
    exact ⟨fun h => hexec.trans (hartBarWait_closed h), fun h => hexec.trans (hartBarWait_open h)⟩
  case arrives =>
    have hexec : exec .zBbar s = _ := execZBbar_arrives hbar hopen hclean
    exact ⟨fun h => hexec.trans (hartBarWait_closed h), fun h => hexec.trans (hartBarWait_open h)⟩

-- Reductions: a node's state at a core's router.

/-- What a new state of a node changes: that node, and nothing of the group or memory. -/
theorem setRed_spec (s : State) (k : Nat) (n : RedNode) : let t := s.setRed s.coreNo k n
    t.grp = s.grp ∧ t.mem = s.mem ∧ t.core.redNode k = n ∧ ∀ j, j ≠ k → t.core.redNode j = s.core.redNode j :=
  ⟨rfl, rfl, (redNode_setRed s k k n).trans (if_pos rfl),
    fun j hj => (redNode_setRed s k j n).trans (if_neg (Ne.symm hj))⟩

theorem redNode_same {s t : State} (h : t.cores = s.cores) (c k : Nat) :
    (t.coreAt c).redNode k = (s.coreAt c).redNode k := by
  unfold State.coreAt
  rw [h]

theorem counter_setRed (s : State) (core k : Nat) (n : RedNode) (c i : Nat) :
    (s.setRed core k n).counter c i = s.counter c i := by
  show Map.get 0 ((s.setCoreAt core { s.coreAt core with red := (s.coreAt core).red.set k n }).coreAt c).counters i = _
  rw [State.coreAt_setCoreAt]
  split
  · next h => rw [← h]; rfl
  · rfl

-- Contributions and results at the compute stream.

/-- The form of `rsend`: its core takes part in the channel. -/
def rsendForm (s : State) (x : Code) (ch : BitVec 4) : LaneForm :=
  { len := 8, srcs := [src32 x], ok := fun _ => (s.redChan ch.toNat).any redMember }

/-- The form of `rrecv`: its core receives the channel's results. -/
def rrecvForm (s : State) (x : Code) (ch : BitVec 4) : LaneForm :=
  { len := 8, ok := fun g => g.dstOk false x && (s.redChan ch.toNat).any redReceives, stq := x.toNat == 116 }

/-- A contribution: the value of each active lane up to the channel's width. -/
def Group.contributes (g : Group) (x : Code) (width : Nat) : List (Option W32) :=
  (List.range width).map fun i =>
    if g.active.getLsbD i then some ((argAt (g.vectors [src32 x]) 0 i).setWidth 32) else none

section
variable {s : State} {x : Code} {ch : BitVec 4} {c : RedChan × Bool × Bool × Nat × Nat}
  (hc : s.redChan ch.toNat = some c)

section
variable (hstart : (rsendForm s x ch).starts s)
include hstart

theorem execRsend_waits : let n := s.core.redNode (redKey s.blk.launch ch.toNat)
    2 ≤ n.sent - n.folded → execRsend x ch s = laneWaits s .rsend := by
  intro n hfull
  unfold execRsend
  exact laneRun_wait hstart (if_pos hfull) _

include hc in
theorem execRsend_sends : let k := redKey s.blk.launch ch.toNat
    let n := s.core.redNode k
    let u := (rsendForm s x ch).commit s
    n.sent - n.folded < 2 → execRsend x ch s = .next (u.setRed u.coreNo k
      { n with inputs := n.inputs ++ [(n.sent, 8, s.grp.contributes x c.1.width)], sent := n.sent + 1 }) := by
  intro k n u hroom
  unfold execRsend
  refine laneRun_commits hstart (if_neg (Nat.not_le.mpr hroom)) ?_
  simp only [hc]
  rfl
end

section
variable (hstart : (rrecvForm s x ch).starts s)
include hstart

theorem execRrecv_waits : let n := s.core.redNode (redKey s.blk.launch ch.toNat)
    n.landed ≤ n.consumed → execRrecv x ch s = laneWaits s .rrecv := by
  intro n hempty
  unfold execRrecv
  exact laneRun_wait hstart (if_pos hempty) _

/-- The lanes of the result that the block's buffer holds at a key: 0 past the channel's width. -/
def State.landedLane (s : State) (width key i : Nat) : W64 :=
  if i < width then BitVec.ofNat 64 (leNat (s.bytes (key + 4 * i) 4)) else 0

include hc in
theorem execRrecv_receives : let k := redKey s.blk.launch ch.toNat
    let n := s.core.redNode k
    let key := scratchKey s.grp.blk (c.1.off + 256 * (n.consumed % 2))
    let u := ((rrecvForm s x ch).commit s).writeDest false x s.grp.active (s.landedLane c.1.width key)
    n.consumed < n.landed →
    execRrecv x ch s = .next (u.setRed u.coreNo k { n with consumed := n.consumed + 1 }) := by
  intro k n key u hlanded
  unfold execRrecv
  refine (laneRun_ready hstart (if_neg (Nat.not_le.mpr hlanded))).trans ?_
  simp only [hc, show ((rrecvForm s x ch).commit s).grp.blk = s.grp.blk from (commit_blk s _).1]
  rfl
end
end

/-- A node of the state after a destination's write is that before. -/
theorem LaneWrites.redNode {s t : State} {o : LaneForm} {wide : Bool} {d : Code} {act : LaneMask} {v : Nat → W64}
    (h : LaneWrites s o wide d act v t) (j : Nat) : t.core.redNode j = s.core.redNode j := by
  obtain ⟨⟨hstate, -, hcores, -⟩, -⟩ := h
  have hcore : t.core = t.coreAt s.coreNo := by
    show t.coreAt (t.cur / 16) = _
    rw [show t.cur = s.cur by rw [hstate]]
    rfl
  rw [hcore, hcores]
  rfl

-- Partial sums and results at the routers.

section
variable {s : State} {m : Msg} (harr : s.arriving s.input.b = some m)
include harr

theorem execReductionInputArrival_joins {core k round port : Nat} {vals : List (Option W32)}
    (hbody : m.body = .redInput core k round port vals) : let t := s.taken s.input.b
    let n := (t.coreAt core).redNode k
    execReductionInputArrival s = .next (t.setRed core k { n with inputs := n.inputs ++ [(round, port, vals)] }) := by
  intro t n
  refine onArrival_some harr ?_
  simp only [hbody]
  rfl

/-- A result that lands in the next round of its node is written to the block's buffer and counted. -/
theorem execReductionResultLanded_writes {core k round : Nat} {vals : List W32} {c : RedChan} {b : Nat × Block}
    (hbody : m.body = .redResult core k round vals) : let t := s.taken s.input.b
    let n := (t.coreAt core).redNode k
    let u := t.setRed core k { n with landed := n.landed + 1 }
    let v := u.performStore (scratchKey b.1 (c.off + 256 * (round % 2))) (vals.flatMap fun x => leBytes 4 x.toNat)
    n.landed = round → round < n.consumed + 2 → (t.launchAt (k / 16)).chans.find? (fun c => c.ch == k % 16) = some c →
    (u.blocksOn core).find? (fun b => b.2.launch == k / 16) = some b →
    execReductionResultLanded s = .next (v.setCounter core c.k (v.counter core c.k + 1)) := by
  intro t n u v hround hroom hchan hblk
  have hgo : ¬(n.landed != round || decide (n.consumed + 2 ≤ round)) = true := by
    simp [hround, hroom]
  refine onArrival_some harr ?_
  simp only [hbody]
  rw [if_neg hgo]
  simp only [hchan, u, n, t] at hblk ⊢
  rw [hblk]
end

/-- A result written to a block's buffer: the counter rises, and memory holds the result's bytes. -/
theorem landed_spec (s : State) (core i blk off : Nat) (l : List Byte) : let v := s.performStore (scratchKey blk off) l
    let w := v.setCounter core i (v.counter core i + 1)
    w.counter core i = s.counter core i + 1 ∧ w.mem = Memory.writeBytes s.mem (scratchKey blk off) l := by
  intro v w
  refine ⟨?_, ?_⟩
  · rw [counter_setCounter, if_pos rfl, performStore_counter]
  · rw [(setCounter_memN ..).1, performStore_mem _ _ _ (scratchKey_far _ _), writeCells_cellsOf]

/-- The sum that a router's fold makes of its inputs, in port order, an absent contribution adding nothing. -/
def foldedSum (width : Nat) (ins : List (Option (List (Option W32)))) : List (Option W32) :=
  (List.range width).map fun e => ins.foldl (fun acc i => addOptional acc ((i.getD []).getD e none)) none

/-- The inputs of a node's next round, one for each port. -/
def RedNode.portInputs (n : RedNode) (ports : List Nat) : List (Option (List (Option W32))) :=
  ports.map fun p => (n.inputs.find? fun i => i.1 == n.folded && i.2.1 == p).map fun i => i.2.2

/-- A router whose ports have all answered folds: the round counts, and the sum goes to its parent, or from the root to
every receiving member. -/
theorem execRouterFold_folds {s : State} {c : RedChan} {place : Bool × Bool × Nat × Nat} : let core := s.input.a
    let k := s.input.b
    let l := s.launchAt (k / 16)
    let n := (s.coreAt core).redNode k
    let ins := n.portInputs (c.ports (l.coreMap.idxOf core))
    let sum := foldedSum c.width ins
    let u := s.setRed core k { n with inputs := n.inputs.filter fun i => i.1 != n.folded, folded := n.folded + 1 }
    l.chans.find? (fun c => c.ch == k % 16) = some c → c.tree[l.coreMap.idxOf core]? = some place →
    s.coreFrozen core = false → (∀ i ∈ ins, i.isSome = true) →
    execRouterFold s = .next (if place.2.1
      then c.receivers.foldl (fun w i => w.emit (2 ^ 21 + core) (l.coreMap.getD i 0)
        (.redResult (l.coreMap.getD i 0) k n.folded (sum.map fun v => v.getD 0))) u
      else u.emit (2 ^ 21 + core) (l.coreMap.getD place.2.2.1 0)
        (.redInput (l.coreMap.getD place.2.2.1 0) k n.folded place.2.2.2 sum)) := by
  intro core k l n ins sum u hchan hplace hfrozen hall
  have hgo : ¬(s.coreFrozen core || !ins.all Option.isSome) = true := by
    rw [hfrozen, List.all_eq_true.mpr hall]
    exact Bool.false_ne_true
  obtain ⟨member, root, parent, port⟩ := place
  unfold execRouterFold
  simp only [l, k, core] at hchan hplace
  simp only [hchan, hplace]
  refine (if_neg hgo).trans ?_
  cases root <;> rfl

/-- What a fold's message or messages change: the network. -/
theorem folded_spec (u : State) (src : Nat) (root : Bool) (dests : List Nat) (dst : Nat → Nat) (result : Nat → MsgBody)
    (parent : Nat) (input : MsgBody) :
    let t := if root then dests.foldl (fun w i => w.emit src (dst i) (result i)) u else u.emit src parent input
    t.net = u.net ++ (if root then dests.map fun i => ⟨src, dst i, result i⟩ else [⟨src, parent, input⟩])
    ∧ t.mem = u.mem ∧ t.cores = u.cores := by
  cases root with
  | false => exact ⟨rfl, rfl, rfl⟩
  | true => exact emits_spec src dst result dests u

/-- Settles O42: the two lane instructions by their node's counts, the three arrivals by what each does to its node. -/
theorem reductionsComplete : Obligations.ReductionsComplete := by
  refine ⟨fun ch x s => ?stream, fun s => ⟨?input, ?fold, ?landed⟩⟩
  case stream =>
    intro k n o p
    refine ⟨fun c hc hstart => ⟨fun hroom => ?_, execRsend_waits hstart⟩,
      fun c hc hstart => ⟨fun hlanded => ?_, execRrecv_waits hstart⟩⟩
    · obtain ⟨hgrp, hmem, hnode, hother⟩ := setRed_spec (o.commit s) k
        { n with inputs := n.inputs ++ [(n.sent, 8, s.grp.contributes x c.1.width)], sent := n.sent + 1 }
      exact ⟨_, execRsend_sends hc hstart hroom, hgrp.trans (State.grp_setGrp ..), hmem, hnode, hother⟩
    · have hwrites := State.writeDest_spec s p false x s.grp.active
        (s.landedLane c.1.width (scratchKey s.grp.blk (c.1.off + 256 * (n.consumed % 2))))
      obtain ⟨hgrp, hmem, hnode, hother⟩ := setRed_spec _ k { n with consumed := n.consumed + 1 }
      exact ⟨_, _, execRrecv_receives hc hstart hlanded, hwrites, hgrp, hmem.trans (State.writeDest_mem ..), hnode,
        fun j hj => (hother j hj).trans (hwrites.redNode j)⟩
  case input =>
    intro m core k round port vals harr hbody
    exact execReductionInputArrival_joins harr hbody
  case fold =>
    intro c place core k l n hchan hplace hfrozen ins hall sum
    obtain ⟨hnet, hmem, hcores⟩ := folded_spec (s.setRed core k _) (2 ^ 21 + core) place.2.1 c.receivers
      (fun i => l.coreMap.getD i 0) (fun i => .redResult (l.coreMap.getD i 0) k n.folded (sum.map fun v => v.getD 0))
      (l.coreMap.getD place.2.2.1 0) (.redInput (l.coreMap.getD place.2.2.1 0) k n.folded place.2.2.2 sum)
    exact ⟨_, execRouterFold_folds hchan hplace hfrozen hall, hmem,
      (redNode_same hcores core k).trans (redNode_setRedAt s core k _), hnet⟩
  case landed =>
    intro m core k round vals c b harr hbody t n u hround hroom hchan hblk
    obtain ⟨hcounter, hmem⟩ := landed_spec u core c.k b.1 (c.off + 256 * (round % 2))
      (vals.flatMap fun x => leBytes 4 x.toNat)
    exact ⟨_, execReductionResultLanded_writes harr hbody hround hroom hchan hblk,
      hcounter.trans (congrArg (· + 1) (counter_setRed t core k _ core c.k)), hmem⟩

end Sys2Proof.Machine

/-! The statement of launches, join waits, group end, rank windows and the Tide (01 R14; 09 R160; 10 R184-R186; 12 R220; 16
R274, R275). -/
namespace Sys2Proof.Machine

-- Launches.

/-- What a launch has read: its record, its descriptor, no grants, and no reduction table where its address is 0. -/
def ungrantedRead (l d : List Byte) : LaunchRead :=
  ⟨l, some d, some [], if bits (leNat l) 511 448 = 0 then some ([], []) else none⟩

/-- The answer of a launch whose tables have been read: its status in rd, and for status 0 its place in its queue. -/
def State.launched (t : State) (rd : XReg) (l d : List Byte) : State :=
  let o := t.launchStatus (ungrantedRead l d) t.launch.part t.asid (t.launch.depth + 1) true
  (if o.1 = 0 then t.enqueue o.2 true else t).hartDone rd (BitVec.ofNat 64 o.1)

section
variable {rd rs1 : XReg} {s : State} (hfree : s.hartFree [rs1, rd])
include hfree

theorem execZLaunch_misaligned (hal : (s.grp.xr rs1).toNat % 64 ≠ 0) :
    execZLaunch rd rs1 s = .next ((s.settled [rs1] [rd]).trap 4 (s.grp.xr rs1)) := by
  unfold execZLaunch
  refine hartRun_eq (reads := [rs1]) hfree ?_ (waits_trap _ _ _)
  simp only [settled_xr]
  exact if_pos (bne_iff_ne.mpr hal)

section
variable (hal : (s.grp.xr rs1).toNat % 64 = 0)
include hal

theorem execZLaunch_space (h0 : (s.grp.xr rs1).toNat / 2 ^ 56 ≠ 0) (hp : (s.grp.xr rs1).toNat / 2 ^ 56 ≠ 0xF3) :
    execZLaunch rd rs1 s = .next ((s.settled [rs1] [rd]).trap 5 (s.grp.xr rs1)) := by
  unfold execZLaunch
  refine hartRun_eq (reads := [rs1]) hfree ?_ (waits_trap _ _ _)
  simp only [settled_xr]
  exact (if_neg fun h => bne_iff_ne.mp h hal).trans
    (if_pos (Bool.and_eq_true_iff.mpr ⟨bne_iff_ne.mpr h0, bne_iff_ne.mpr hp⟩))

theorem execZLaunch_answers (hspace : (s.grp.xr rs1).toNat / 2 ^ 56 = 0 ∨ (s.grp.xr rs1).toNat / 2 ^ 56 = 0xF3)
    (hclean : (s.settled [rs1] [rd]).hartClean) {l d : List Byte} {t : State}
    (hread : (s.settled [rs1] [rd]).readBytes (s.grp.xr rs1) 64 5 29 = .ok l t)
    (hdesc : t.tableRead (BitVec.ofNat 64 (leNat l)) 16 = .some d)
    (hgrants : BitVec.ofNat 64 (bits (leNat l) 447 384) = (0 : W64)) :
    execZLaunch rd rs1 s = .next (t.launched rd l d) := by
  have hin : ¬((s.grp.xr rs1).toNat / 2 ^ 56 != 0 && (s.grp.xr rs1).toNat / 2 ^ 56 != 0xF3) = true := by
    rw [Bool.and_eq_true_iff, bne_iff_ne, bne_iff_ne]
    exact fun h => hspace.elim h.1 h.2
  unfold execZLaunch
  refine hartRun_eq (reads := [rs1]) hfree ?_ (waits_hartDone _ _ _)
  simp only [settled_xr]
  rw [if_neg fun h => bne_iff_ne.mp h hal, if_neg hin, afterRelease_hartClean hclean, hread]
  simp only [hdesc, hgrants, beq_self_eq_true, if_true, beq_iff_eq]
  rfl
end

-- The wait for a join word.

theorem execZJwait_misaligned (hal : (s.grp.xr rs1).toNat % 8 ≠ 0) :
    execZJwait rd rs1 s = .next ((s.settled [rs1] [rd]).trap 4 (s.grp.xr rs1)) := by
  unfold execZJwait
  refine hartRun_eq (reads := [rs1]) hfree ?_ (waits_trap _ _ _)
  simp only [settled_xr]
  exact if_pos (bne_iff_ne.mpr hal)

section
variable (hal : (s.grp.xr rs1).toNat % 8 = 0)
include hal

theorem execZJwait_space (hspace : (s.grp.xr rs1).toNat / 2 ^ 56 ≠ 0) :
    execZJwait rd rs1 s = .next ((s.settled [rs1] [rd]).trap 5 (s.grp.xr rs1)) := by
  unfold execZJwait
  refine hartRun_eq (reads := [rs1]) hfree ?_ (waits_trap _ _ _)
  simp only [settled_xr]
  exact (if_neg fun h => bne_iff_ne.mp h hal).trans (if_pos (bne_iff_ne.mpr hspace))

section
variable (hspace : (s.grp.xr rs1).toNat / 2 ^ 56 = 0) {l : List Byte} {t : State}
  (hread : (s.settled [rs1] [rd]).readBytes (s.grp.xr rs1) 8 5 29 = .ok l t)
include hspace hread

theorem execZJwait_joined (hv : (BitVec.ofNat 64 (leNat l) : W64).toInt ≤ 0) :
    execZJwait rd rs1 s = .next ((t.l1Clear t.coreNo).hartDone rd (BitVec.ofNat 64 (leNat l))) := by
  unfold execZJwait
  refine hartRun_eq (reads := [rs1]) hfree ?_ (waits_hartDone _ _ _)
  simp only [settled_xr]
  rw [if_neg fun h => bne_iff_ne.mp h hal, if_neg fun h => bne_iff_ne.mp h hspace, hread]
  exact if_pos ((toInt_nonpos _).mpr hv)

omit hfree in
theorem execZJwait_waits (hv : 0 < (BitVec.ofNat 64 (leNat l) : W64).toInt) (htokens : s.grp.tokens = []) :
    execZJwait rd rs1 s = hartWaits t .jwait := by
  rw [settled_empty s _ _ htokens] at hread
  unfold execZJwait
  rw [hartRun_empty htokens, if_neg fun h => bne_iff_ne.mp h hal, if_neg fun h => bne_iff_ne.mp h hspace, hread]
  exact if_neg (mt (toInt_nonpos _).mp (Int.not_le.mpr hv))
end
end

-- The Tide.

theorem execZTidewait_reached (h : (s.grp.xr rs1).toNat ≤ s.tide.toNat) :
    execZTidewait rd rs1 s = .next ((s.settled [rs1] [rd]).hartDone rd s.tide) := by
  unfold execZTidewait
  refine hartRun_eq (reads := [rs1]) hfree ?_ (waits_hartDone _ _ _)
  simp only [settled_xr, (settled_same s [rs1] [rd]).2.1]
  exact if_pos (BitVec.ule_iff_toNat_le.mpr h)

theorem execZTidewait_waits (h : s.tide.toNat < (s.grp.xr rs1).toNat) : execZTidewait rd rs1 s = hartWaits s .tide := by
  have hshort : ¬(s.grp.xr rs1).ule s.tide = true := mt BitVec.ule_iff_toNat_le.mp (Nat.not_le.mpr h)
  unfold execZTidewait
  refine hartRun_waits (reads := [rs1]) hfree ?_ (if_neg hshort)
  simp only [settled_xr, (settled_same s [rs1] [rd]).2.1]
  exact if_neg hshort
end

theorem execZTide_reads {rd : XReg} {s : State} (hfree : s.hartFree [rd]) :
    execZTide rd s = .next ((s.settled [] [rd]).hartDone rd s.tide) := by
  unfold execZTide
  refine hartRun_eq (reads := []) hfree ?_ (waits_hartDone _ _ _)
  simp only [(settled_same s [] [rd]).2.1]

-- The end of a group.

theorem checkRetiring_grpAt (s : State) (blk k : Nat) : (s.checkRetiring blk).grpAt k = s.grpAt k := by
  unfold State.checkRetiring
  dsimp only
  split <;> rfl

theorem endGroup_hartWait (s : State) (k : Nat) : ((s.endGroup k).grpAt k).hartWait = none := by
  unfold State.endGroup
  dsimp only
  rw [(settleGroup_spec ..).2.2, (settleGroup_spec ..).2.2, checkRetiring_grpAt, State.grpAt_setGrpAt, if_pos rfl]

/-- A hart that waits at `z.exit` for its compute stream: its barriers count it as arrived. -/
def State.exitWaits (t : State) : State :=
  let u := t.setGrp { t.grp with hartWait := some .exit
                                 hartSince := if t.grp.hartWait == some .exit then t.grp.hartSince else t.cycles }
  u.settleGroup u.cur false

theorem exitWaits_spec (t : State) : t.exitWaits.grp.hartWait = some .exit ∧ t.exitWaits.grp.exitCode = t.grp.exitCode
    ∧ t.exitWaits.grp.pc = t.grp.pc ∧ t.exitWaits.mem = t.mem := by
  obtain ⟨hmem, hcur, hgroups⟩ := settleGroup_spec (t.setGrp { t.grp with
    hartWait := some .exit
    hartSince := if t.grp.hartWait == some .exit then t.grp.hartSince else t.cycles }) t.cur false
  have hgrp := hgroups t.cur
  rw [State.grpAt_setGrp, if_pos rfl] at hgrp
  have hown : t.exitWaits.grp = t.exitWaits.grpAt t.cur := congrArg t.exitWaits.grpAt hcur
  rw [hown, show t.exitWaits.grpAt t.cur = _ from hgrp]
  exact ⟨rfl, rfl, rfl, hmem⟩

section
variable {rs1 : XReg} {s : State} (hfree : s.hartFree [rs1])
include hfree

theorem execZExit_ends (hdone : s.grp.cendDone = true) : let u := s.settled [rs1] []
    let t := u.setGrp { u.grp with exitCode := (s.grp.xr rs1).setWidth 32 }
    execZExit rs1 s = .next (t.endGroup s.cur) := by
  intro u t
  have hdone' : t.grp.cendDone = true := by
    rw [show t.grp = _ from State.grp_setGrp .., show u.grp = _ from (settled_spec s [rs1] []).1]
    exact hdone
  have hcur : t.cur = s.cur := settled_cur s [rs1] []
  unfold execZExit
  refine hartRun_eq (reads := [rs1]) hfree ?_ (waits_grp ?_)
  · simp only [settled_xr]
    exact (if_pos hdone').trans (by rw [← hcur]; rfl)
  · unfold State.grp
    rw [(endGroup_spec t s.cur).2.2.2, hcur]
    exact endGroup_hartWait t s.cur

theorem execZExit_waits (hrun : s.grp.cendDone = false) : execZExit rs1 s =
    .next (s.setGrp { s.grp with exitCode := (s.grp.xr rs1).setWidth 32 }).exitWaits := by
  have hmeaning : ∀ t : State, t.grp.cendDone = false →
      (let w := t.setGrp { t.grp with exitCode := lo32 (t.grp.xr rs1) }
       if w.grp.cendDone then Host.Outcome.next (w.endGroup w.cur) else .next w.exitWaits) =
        (.next (t.setGrp { t.grp with exitCode := lo32 (t.grp.xr rs1) }).exitWaits : Out) := fun t ht => by
    refine if_neg ?_
    rw [State.grp_setGrp]
    exact ne_true_of_eq_false ht
  have hsettled : (s.settled [rs1] []).grp.cendDone = false := by
    rw [(settled_spec s [rs1] []).1]
    exact hrun
  unfold execZExit
  refine hartRun_wait (reads := [rs1]) hfree (hmeaning _ hsettled) ?_ (hmeaning s hrun)
  exact congrArg Option.isSome (exitWaits_spec _).1
end

-- Rank windows.

/-- The count of a window request is out of range as a word where it is as a number. -/
theorem rankCount_bad {n : Nat} (h : n < 2 ^ 32) :
    ((BitVec.ofNat 32 n : W32) == 0 || decide (2 ^ 24 < (BitVec.ofNat 32 n : W32).toNat)) = true ↔
      n = 0 ∨ 2 ^ 24 < n := by
  have hn : (BitVec.ofNat 32 n : W32).toNat = n := Nat.mod_eq_of_lt h
  rw [Bool.or_eq_true, beq_iff_eq, decide_eq_true_iff, hn, ← BitVec.toNat_inj, hn]
  rfl

/-- A request for a window: its status, the windows after it, and what it leaves. -/
theorem openRank_spec (s : State) (key home : Nat) (va : Option Nat) (base : W32) {n : Nat} (hn : n < 2 ^ 32) :
    let r := s.openRank key home va base (BitVec.ofNat 32 n)
    let full := 64 ≤ (s.windows.filter fun w => w.home == home).length
    r.1.grp = s.grp ∧ r.1.mem = s.mem
    ∧ r.2 = (if n = 0 ∨ 2 ^ 24 < n then 3 else if (s.windowAt key).isSome then 2 else if full then 1 else 0)
    ∧ r.1.windows = if n = 0 ∨ 2 ^ 24 < n ∨ (s.windowAt key).isSome = true ∨ full then s.windows
        else s.windows ++ [⟨s.asid, key, home, base, BitVec.ofNat 32 n, base, [], va⟩] := by
  intro r full
  have hr : r = if n = 0 ∨ 2 ^ 24 < n then (s, 3) else if (s.windowAt key).isSome then (s, 2) else if full then (s, 1)
      else ({ s with windows := s.windows ++ [⟨s.asid, key, home, base, BitVec.ofNat 32 n, base, [], va⟩] }, 0) := by
    simp only [r, State.openRank, rankCount_bad hn, full]
  rw [hr]
  simp only [← or_assoc]
  by_cases hbad : n = 0 ∨ 2 ^ 24 < n
  · simp only [hbad, true_or, if_true, and_self]
  by_cases hopen : (s.windowAt key).isSome = true
  · simp only [hbad, hopen, true_or, or_true, if_true, if_false, and_self]
  by_cases hfull : full
  · simp only [hbad, hopen, hfull, or_true, if_true, if_false, Bool.false_eq_true, and_self]
  · simp only [hbad, hopen, hfull, or_false, if_false, Bool.false_eq_true, and_true]
    rfl

section
variable {rd rs1 rs2 : XReg} {s : State} (hfree : s.hartFree [rs1, rs2, rd])
include hfree

theorem execZRank_misaligned (hal : (s.grp.xr rs1).toNat % 4 ≠ 0) :
    execZRank rd rs1 rs2 s = .next ((s.settled [rs1, rs2] [rd]).trap 6 (s.grp.xr rs1)) := by
  unfold execZRank
  refine hartRun_eq (reads := [rs1, rs2]) hfree ?_ (waits_trap _ _ _)
  simp only [settled_xr]
  exact if_pos (bne_iff_ne.mpr hal)

section
variable (hal : (s.grp.xr rs1).toNat % 4 = 0)
include hal

theorem execZRank_unranked (hspace : (s.grp.xr rs1).toNat / 2 ^ 56 = 0xF3) :
    execZRank rd rs1 rs2 s = .next ((s.settled [rs1, rs2] [rd]).trap 7 (s.grp.xr rs1)) := by
  unfold execZRank
  refine hartRun_eq (reads := [rs1, rs2]) hfree ?_ (waits_trap _ _ _)
  simp only [settled_xr]
  exact (if_neg fun h => bne_iff_ne.mp h hal).trans (if_pos (beq_iff_eq.mpr hspace))

/-- A window asked for on a word of the block's own scratch. -/
theorem execZRank_scratch (hspace : (s.grp.xr rs1).toNat / 2 ^ 56 = 0xF0)
    (hb : (s.grp.xr rs1 &&& 0x00FFFFFFFFFFFFFF).toNat + 4 ≤ s.blk.scratch) (hnet : ∀ m ∈ s.net, m.src ≠ s.cur)
    (hl : s.grp.loadsAway = false) (hf : s.fencedKey (s.grp.scratchAt (s.grp.xr rs1)) = false) :
    let u := s.settled [rs1, rs2] [rd]
    let r := u.openRank (s.grp.scratchAt (s.grp.xr rs1)) (1024 + s.coreNo) none ((s.grp.xr rs2).setWidth 32)
      (BitVec.ofNat 32 (bits (s.grp.xr rs2).toNat 63 32))
    execZRank rd rs1 rs2 s = .next (r.1.hartDone rd r.2) := by
  intro u r
  have hreach := settled_hartReach_scratch [rs1, rs2] [rd] .write false false (by decide) hspace hal hb hnet hl hf
    fun h => absurd rfl h
  have hplace := place_hart u u.cur u.mmode (s.grp.xr rs1) hspace (by
    show _ < u.blk.scratch
    rw [(settled_blk s _ _).1]
    omega)
  unfold execZRank
  refine hartRun_eq (reads := [rs1, rs2]) hfree ?_ (waits_hartDone _ _ _)
  simp only [settled_xr]
  rw [if_neg fun h => bne_iff_ne.mp h hal, if_neg (by rw [hspace]; decide), hreach, lo32_shift, settled_hartClean_cur]
  simp only [hartAccess]
  rw [hplace]
  rfl
end
end

theorem bits_lt (v hi lo : Nat) : bits v hi lo < 2 ^ (hi + 1 - lo) := Nat.mod_lt _ (Nat.two_pow_pos _)

/-- Settles O43: each instruction by its address's checks and by what it waits for. -/
theorem launchAndTimeComplete : Obligations.LaunchAndTimeComplete := by
  intro rd rs1 rs2 s
  refine ⟨fun hfree => ?waits, execZTide_reads, enqueue_spec, fun hfree => ?exit, fun hfree => ?rank⟩
  case waits =>
    intro u a
    refine ⟨execZLaunch_misaligned hfree, execZLaunch_space hfree,
      fun hal hspace hclean l t d hread hdesc hgrants => ?_,
      execZJwait_misaligned hfree, execZJwait_space hfree, fun l t hal hspace hread => ?_, execZTidewait_reached hfree,
      execZTidewait_waits hfree⟩
    · exact execZLaunch_answers hfree hal hspace hclean hread hdesc hgrants
    · exact ⟨execZJwait_joined hfree hal hspace hread, execZJwait_waits hal hspace hread⟩
  case exit =>
    intro u t
    have ht : t.grp = { u.grp with exitCode := (s.grp.xr rs1).setWidth 32 } := State.grp_setGrp ..
    have hcur : t.cur = s.cur := settled_cur s [rs1] []
    refine ⟨fun hdone => ?_, fun hrun => ?_⟩
    · obtain ⟨hstatus, hcode, hmem, hendcur⟩ := endGroup_spec t s.cur
      have hown : (t.endGroup s.cur).grp = (t.endGroup s.cur).grpAt s.cur := by
        unfold State.grp
        rw [hendcur, hcur]
      rw [hown]
      refine ⟨execZExit_ends hfree hdone, hstatus, hcode.trans ?_, hmem.trans (settled_mem s [rs1] [])⟩
      rw [← hcur]
      exact congrArg Group.exitCode ht
    · obtain ⟨hwait, hcode, hpc, hmem⟩ :=
        exitWaits_spec (s.setGrp { s.grp with exitCode := (s.grp.xr rs1).setWidth 32 })
      rw [State.grp_setGrp] at hcode hpc
      exact ⟨_, execZExit_waits hfree hrun, hwait, hcode, hpc, hmem⟩
  case rank =>
    intro u a off key count win
    refine ⟨execZRank_misaligned hfree, execZRank_unranked hfree, fun hal hspace hb hnet hl hf => ?_⟩
    let r := u.openRank key (1024 + s.coreNo) none ((s.grp.xr rs2).setWidth 32) (BitVec.ofNat 32 count)
    obtain ⟨hgrp, hmem, hstatus, hwindows⟩ :=
      openRank_spec u key (1024 + s.coreNo) none ((s.grp.xr rs2).setWidth 32) (bits_lt (s.grp.xr rs2).toNat 63 32)
    have hsame : u.windows = s.windows := (settled_same s [rs1, rs2] [rd]).1
    rw [hsame] at hstatus hwindows
    obtain ⟨-, hx, hdone⟩ := hartDone_spec r.1 rd r.2
    have hpc : r.1.grp.pc = s.grp.pc := (congrArg Group.pc hgrp).trans (settled_pc s [rs1, rs2] [rd])
    refine ⟨_, execZRank_scratch hfree hal hspace hb hnet hl hf, hmem.trans (settled_mem s [rs1, rs2] [rd]),
      ?pc, ?status, hwindows⟩
    case pc => exact (congrArg Group.pc hdone).trans (congrArg (· + 4) ((setX_fields r.1.grp rd r.2).1.trans hpc))
    case status => exact fun hrd => (hx hrd).trans hstatus

end Sys2Proof.Machine

/-! The statement of the answers that arrive: of the journal, of lane accesses, of rings, of distant requests (01 R20; 09
R154, R165; 10 R178, R187, R188). -/
namespace Sys2Proof.Machine

-- Answers of the journal.

/-- A group's record written: no other group, no message and nothing of memory changes. -/
theorem setGrpAt_spec (t : State) (k : Nat) (g : Group) : let w := t.setGrpAt k g
    w.net = t.net ∧ w.mem = t.mem ∧ w.grpAt k = g ∧ ∀ j, j ≠ k → w.grpAt j = t.grpAt j :=
  ⟨rfl, rfl, (State.grpAt_setGrpAt ..).trans (if_pos rfl),
    fun _ hj => (State.grpAt_setGrpAt ..).trans (if_neg (Ne.symm hj))⟩

theorem setJournal_spec (t : State) (k slot : Nat) (f : JEntry → JEntry) : let w := t.setJournal k slot f
    let g := t.grpAt k
    w.net = t.net ∧ w.mem = t.mem ∧ w.grpAt k = { g with journal := g.journal.set slot (f (g.jslot slot)) }
    ∧ ∀ j, j ≠ k → w.grpAt j = t.grpAt j := setGrpAt_spec ..

theorem pend_spec (t : State) (k cause : Nat) (val : W64) : let w := t.pend k cause val
    w.net = t.net ∧ w.mem = t.mem
    ∧ w.grpAt k = { t.grpAt k with asyncs := (t.grpAt k).asyncs ++ [⟨cause, val⟩] }
    ∧ ∀ j, j ≠ k → w.grpAt j = t.grpAt j := setGrpAt_spec ..

/-- An answer of the journal completes no sample where none is pending. -/
theorem sampleDone_setJournal {t : State} {k : Nat} (h : (t.grpAt k).sampler.pending = none) (slot : Nat)
    (f : JEntry → JEntry) : (t.setJournal k slot f).sampleDone k = t.setJournal k slot f := by
  refine sampleDone_none _ _ ?_
  obtain ⟨-, -, hgrp, -⟩ := setJournal_spec t k slot f
  rw [hgrp]
  exact h

section
variable {s : State} {m : Msg} {slot : Nat} (harr : s.arriving s.input.b = some m)
  (hsampler : (s.grpAt m.src).sampler.pending = none)
include harr hsampler

/-- An acknowledgement frees its slot. -/
theorem execJournalAck_frees (hbody : m.body = .ack slot) :
    execJournalAck s =
      .next ((s.taken s.input.b).setJournal m.src slot fun e => { e with held := false, state := 1 }) := by
  refine onArrival_some harr ?_
  simp only [hbody]
  exact congrArg some (sampleDone_setJournal (t := s.taken s.input.b) hsampler slot _)

/-- A refusal of a block that is not retiring marks its entry and makes cause 26 pending. -/
theorem execJournalRefusal_marks {why : Nat} (hbody : m.body = .refuse slot why)
    (hlive : (s.blkAt (s.grpAt m.src).blk).state ≠ .retiring) :
    execJournalRefusal s =
      .next (((s.taken s.input.b).setJournal m.src slot fun e => { e with state := 2, why := why }).pend
        m.src 26 (((s.grpAt m.src).jslot slot).seq.setWidth 64)) := by
  refine onArrival_some harr ?_
  simp only [hbody]
  rw [sampleDone_setJournal (t := s.taken s.input.b) hsampler]
  exact congrArg some (if_neg fun h => hlive (beq_iff_eq.mp h))
end

-- Accesses of the two streams.

theorem execLaneAccessComplete_ends {s : State} (hbusy : (s.grpAt s.input.a).laneBusy = true)
    (hport : (s.focus s.input.a).portHeld (s.input.a % 16) = false)
    (hsampler : (s.grpAt s.input.a).sampler.pending = none) (hranks : s.net.any (fun m => m.rankOf s.input.a) = false) :
    execLaneAccessComplete s = .next (s.setGrpAt s.input.a { s.grpAt s.input.a with laneBusy := false }) := by
  unfold execLaneAccessComplete
  simp only [hbusy, hport, hranks, Bool.not_false, Bool.and_self, if_true]
  rw [sampleDone_none]
  obtain ⟨-, -, hgrp, -⟩ := setGrpAt_spec s s.input.a { s.grpAt s.input.a with laneBusy := false }
  rw [hgrp]
  exact hsampler

theorem execHartAccessResponse_none {s : State} (h : (s.grpAt s.input.a).hartReq = none) :
    execHartAccessResponse s = .next s := by
  unfold execHartAccessResponse
  simp only [h]

/-- The first message of the network, where it is the answer of the ring, ends the send. -/
theorem execHartAccessResponse_ring {s : State} {rd rd' : XReg} {h st dst : Nat} {l : List Byte} {rest : List Msg}
    (hreq : (s.grpAt s.input.a).hartReq = some (.send rd' h l))
    (hnet : s.net = ⟨s.input.a, dst, .ringAnswer rd st⟩ :: rest) : let u := { s with net := rest }.focus s.input.a
    execHartAccessResponse s =
      .next ((u.setGrp { u.grp with hartReq := none }).hartDone rd (BitVec.ofNat 64 st)) := by
  intro u
  have hfirst : (s.net.findIdx fun m => m.answersRing s.input.a) = 0 := by
    rw [hnet, List.findIdx_cons]
    simp [Msg.answersRing]
  have htaken : s.taken 0 = { s with net := rest } := by
    unfold State.taken
    rw [hnet]
    rfl
  unfold execHartAccessResponse
  simp only [hreq, hfirst, htaken]
  rw [hnet]
  rfl

section
variable {s : State} {r : HartReq} (hreq : (s.grpAt s.input.a).hartReq = some r)
  (hsend : ∀ rd h l, r ≠ .send rd h l)
include hreq hsend

/-- A request other than a send is performed, unless something of its pair is before it or its home is stopped. -/
theorem execHartAccessResponse_request : let u := (s.focus s.input.a).setGrp { s.grpAt s.input.a with hartReq := none }
    execHartAccessResponse s =
      if u.sentTo (u.requestTarget r) || u.requestHeld r then .next s else .next (u.performRequest r) := by
  intro u
  unfold execHartAccessResponse
  simp only [hreq]
  cases r with
  | send rd h l => exact absurd rfl (hsend rd h l)
  | _ => rfl
end

theorem performRequest_mbread {u : State} {rd : XReg} {a : W64}
    (hok : u.counterOk (u.mailbox a).1 (u.mailbox a).2 = true) : u.performRequest (.mbread rd a) =
      u.hartDone rd ((u.homeCounter (u.mailbox a).1 (u.mailbox a).2).setWidth 64) := if_pos hok

/-- Settles O46: each answer by its condition, and the request of the hart by what is before it. -/
theorem answersArrive : Obligations.AnswersArrive := by
  intro s i
  refine ⟨fun hnone => ?nothing, fun m slot harr hsampler => ⟨fun hbody => ?ack, fun why hbody hlive => ?refusal⟩,
    execLaneAccessComplete_ends, execHartAccessResponse_none,
    fun rd h l st rest dst hreq hnet => execHartAccessResponse_ring hreq hnet, fun r hreq hsend => ?request⟩
  case nothing =>
    have hidle : ∀ k, onArrival s k = .next s := fun k => onArrival_none s k hnone
    exact ⟨(hidle _ : execJournalAck s = _), (hidle _ : execJournalRefusal s = _),
      (hidle _ : execPostedWriteArrival s = _),
      (hidle _ : execMailboxIncrementArrival s = _), (hidle _ : execRingMessageArrival s = _),
      (hidle _ : execRankContributionArrival s = _), (hidle _ : execReductionInputArrival s = _),
      (hidle _ : execReductionResultLanded s = _)⟩
  case ack => exact ⟨_, execJournalAck_frees harr hsampler hbody, setJournal_spec ..⟩
  case refusal =>
    let t := (s.taken i.b).setJournal m.src slot fun e => { e with state := 2, why := why }
    obtain ⟨hnet, hmem, hown, hother⟩ := setJournal_spec (s.taken i.b) m.src slot fun e => { e with state := 2, why := why }
    obtain ⟨hnet', hmem', hown', hother'⟩ := pend_spec t m.src 26 (((s.grpAt m.src).jslot slot).seq.setWidth 64)
    refine ⟨_, execJournalRefusal_marks harr hsampler hbody hlive, hnet'.trans hnet, hmem'.trans hmem, ?_,
      fun k hk => (hother' k hk).trans (hother k hk)⟩
    rw [hown] at hown'
    exact hown'
  case request =>
    intro u
    have hexec : exec .hartAccessResponse s = _ := execHartAccessResponse_request hreq hsend
    refine ⟨fun hsent hheld => hexec.trans (if_neg ?_), fun hbefore => hexec.trans (if_pos ?_), fun rd a hr hok => ?_⟩
    · rw [hsent, hheld]
      exact Bool.false_ne_true
    · exact Bool.or_eq_true_iff.mpr hbefore
    · rw [hr]
      exact performRequest_mbread hok

end Sys2Proof.Machine

/-! The statements of the matrix engines: control and tables, acceptance, tile-store instructions, and the completion of
integer operations (11 R189-R214). -/
namespace Sys2Proof.Machine

-- The course of a matrix, table or tile instruction (11 R189, R191, R213).

/-- A matrix instruction that starts, with no posted store in flight and room in its array, and whose checks pass, answers
what its effect makes of the committed state. -/
theorem matrixRun_commits {s t : State} {srcs : List Src} {ok : Group → Bool} {room : Bool} {pre : Option MxFault}
    {check : List LaneVec → Option MxFault} {wait : List LaneVec → Bool} {eff : List LaneVec → LaneMask → State → State}
    (h : ({ len := 8, srcs := srcs, ok := ok } : LaneForm).starts s) (hf : s.grp.laneInFlight = false) (hr : room = true)
    (hp : pre = none) (hc : check (s.grp.vectors srcs) = none) (hw : wait (s.grp.vectors srcs) = false)
    (he : eff (s.grp.vectors srcs) s.grp.active
      (s.setGrp (s.grp.advanced { len := 8, srcs := srcs, ok := ok })) = t) :
    matrixRun s srcs ok room pre check wait eff = .next t := by
  subst he
  exact matrixRun_ready h hf hr hp hc hw

theorem faultIf_false {b : Bool} {f : MxFault} (h : b = false) : faultIf b f = none := by
  rw [h]
  rfl

/-- The first failing check of a list whose first check passes is that of the others. -/
theorem firstFault_cons {f : Option MxFault} {l : List (Option MxFault)} (h : f = none) :
    firstFault (f :: l) = firstFault l := by
  rw [h]
  exact firstFault_cons_none l

@[simp] theorem Group.scaleQ_advanced (g : Group) (o : LaneForm) : (g.advanced o).scaleQ = g.scaleQ := by
  unfold Group.advanced Group.laneNext Group.pop
  dsimp only
  split <;> rfl

@[simp] theorem Group.batchOpen_advanced (g : Group) (o : LaneForm) : (g.advanced o).batchOpen = g.batchOpen :=
  (advanced_same g o).2.1

@[simp] theorem firstFault_nil : firstFault [] = none := rfl

-- Configuration, scales and batches (11 R193, R200, R212).

section
variable {s : State} {a : Code}

/-- Whether an `mcfg` whose source holds `v` waits for nothing: cbase, vec and nblk stay, or no accepted operation of the
group that writes the tile store is left. -/
def State.mcfgFree (s : State) (v : W64) : Prop :=
  (v ^^^ s.grp.mcfg) &&& mcfgShape = 0 ∨ ∀ o ∈ s.core.ops, o.grp ≠ s.cur ∨ o.work = .build

/-- The form of `mcfg`, and its check of the shape in its source. -/
def mcfgForm (a : Code) : LaneForm := { len := 4, srcs := [src64 a] }
def mcfgCheck (s : State) (vs : List LaneVec) : Check :=
  if (argAt vs 0 0 ^^^ s.grp.mcfg) &&& mcfgShape != 0 && s.tileBusy (fun _ _ => true) then .wait .drain else .pass

theorem tileBusy_none (h : ∀ o ∈ s.core.ops, o.grp ≠ s.cur ∨ o.work = .build) (hit : Nat → Nat → Bool) :
    s.tileBusy hit = false := by
  refine List.any_eq_false.mpr fun o ho => ?_
  rcases h o ho with hgrp | hbuild
  · simp [hgrp]
  · simp [MatOp.writesTiles, hbuild]

theorem mcfgCheck_pass {vs : List LaneVec} (h : s.mcfgFree (argAt vs 0 0)) : mcfgCheck s vs = .pass := by
  refine if_neg ?_
  rcases h with hshape | hidle
  · simp [hshape]
  · simp [tileBusy_none hidle]

/-- `mcfg` takes its value without the reserved bits, and counts them where one is set. -/
theorem execMcfg_value (hstart : (mcfgForm a).starts s) (hfree : s.mcfgFree (argAt (s.grp.vectors [src64 a]) 0 0)) :
    let v := argAt (s.grp.vectors [src64 a]) 0 0
    let u := s.setGrp { s.grp.advanced (mcfgForm a) with mcfg := v &&& mcfgKept }
    execMcfg a s = .next (if v &&& mcfgKept = v then u else u.countBlkErr s.coreNo) := by
  refine laneRun_commits (check := mcfgCheck s) hstart (mcfgCheck_pass hfree) ?_
  simp only [State.grp_setGrp, State.setGrp_setGrp, beq_iff_eq]
  rfl

/-- A value without bits outside a mask is what the mask leaves of it. -/
theorem and_eq_self_of_and_not {v m : W64} (h : v &&& ~~~m = 0) : v &&& m = v := by
  calc v &&& m = (v &&& m) ||| (v &&& ~~~m) := by rw [h]; exact BitVec.or_zero.symm
    _ = v := by rw [← BitVec.and_or_distrib_left, BitVec.or_not_self, BitVec.and_allOnes]

theorem mcfg_completes (hstart : (mcfgForm a).starts s) (hfree : s.mcfgFree (argAt (s.grp.vectors [src64 a]) 0 0)) :
    let v := argAt (s.grp.vectors [src64 a]) 0 0
    (v &&& ~~~mcfgKept = 0 → execMcfg a s = .next (s.setGrp { s.grp.advanced (mcfgForm a) with mcfg := v }))
    ∧ ∃ t, execMcfg a s = .next t ∧ t.grp = { s.grp.advanced (mcfgForm a) with mcfg := v &&& mcfgKept } := by
  intro v
  have hexec := execMcfg_value hstart hfree
  refine ⟨fun hclean => ?_, _, hexec, ?_⟩
  · have hkept : v &&& mcfgKept = v := and_eq_self_of_and_not hclean
    rw [hexec, if_pos hkept, hkept]
  · split
    · exact State.grp_setGrp ..
    · exact (countBlkErr_grp _ _).1.trans (State.grp_setGrp ..)

/-- The form of `msc`, and its check of the scale queue. -/
def mscForm (a : Code) : LaneForm := { len := 8, srcs := [src32 a] }
def mscCheck (s : State) : Check :=
  if 16 ≤ s.grp.scaleQ.length then .fault s 20 s.grp.active (mxDesync s.grp).val else .pass

theorem execMsc_room (hstart : (mscForm a).starts s) (hroom : s.grp.scaleQ.length < 16) :
    execMsc a s = .next (s.setGrp { s.grp.advanced (mscForm a) with
      scaleQ := s.grp.scaleQ ++ [lanes fun i => (argAt (s.grp.vectors [src32 a]) 0 i).setWidth 32] }) := by
  refine laneRun_commits (check := fun _ => mscCheck s) hstart (if_neg (Nat.not_le.mpr hroom)) ?_
  rw [State.grp_setGrp, State.setGrp_setGrp, Group.scaleQ_advanced]
  rfl

theorem execMsc_full (hstart : (mscForm a).starts s) (hfull : s.grp.scaleQ.length = 16) :
    execMsc a s = .next (s.setGrp (s.grp.laneFault 20 0 s.grp.active 16)) := by
  refine (laneRun_stop (check := fun _ => mscCheck s) hstart (if_pos (Nat.le_of_eq hfull.symm)) _).trans ?_
  unfold mxDesync
  rw [hfull]
  rfl

theorem execMfence_next (hstart : (controlForm 4).starts s) (hroom : s.grp.batchOpen - s.batchDone s.cur ≠ 128) :
    ∃ t, execMfence s = .next t ∧ OnlyGroup s t ∧ t.grp = { s.grp.advanced (controlForm 4) with
      batchOpen := s.grp.batchOpen + 1, batchOcc := false, batchSeen := s.batchDone s.cur } := by
  unfold execMfence
  refine laneRun_setsGroup hstart ?check ?effect
  case check => exact if_neg (by simpa using hroom)
  case effect =>
    rw [State.grp_setGrp, State.setGrp_setGrp, Group.batchOpen_advanced]
    rfl

/-- The form of `mwait`: its batch is closed. -/
def mwaitForm (n : Byte) : LaneForm := { len := 8, ok := fun g => 128 ≤ (n - g.batchOpen).toNat }

theorem execMwait_complete {n : Byte} (hstart : (mwaitForm n).starts s) (h : (s.batchDone s.cur - n).toNat < 128) :
    execMwait n s = .next (s.setGrp (s.grp.advanced (mwaitForm n))) :=
  laneRun_commits hstart (if_pos (decide_eq_true h)) rfl

theorem execMwait_waits {n : Byte} (hstart : (mwaitForm n).starts s) (h : 128 ≤ (s.batchDone s.cur - n).toNat) :
    execMwait n s = .next (s.setGrp { s.grp with
      laneWait := some .mwait, laneSince := if s.grp.laneWait = some .mwait then s.grp.laneSince else s.cycles }) := by
  refine (laneRun_wait (w := .mwait) hstart (if_neg ?_) _).trans ?_
  · simpa [batchComplete] using h
  · simp only [laneWaits, beq_iff_eq]

theorem execMdrain_idle (hstart : ({ len := 4 } : LaneForm).starts s) (hidle : ∀ o ∈ s.core.ops, o.grp ≠ s.cur) :
    execMdrain s = .next (s.setGrp (s.grp.advanced { len := 4 })) :=
  laneRun_commits hstart (if_neg (by simpa using hidle)) rfl
end

-- Tables (11 R202, R204-R206).

theorem imageRange_none {s : State} {vs : List LaneVec} (halign : offset0 vs % 64 = 0) (hin : offset0 vs + 4160 ≤ s.blk.scratch) :
    s.imageRange vs = none := by
  refine (firstFault_cons (faultIf_false ?_)).trans (firstFault_cons (inRegion_none _ _ _ _ hin))
  rw [halign]
  rfl

theorem tableImage_length (t : Table) (e : Track) : (tableImage t e).length = 4160 := by
  unfold tableImage
  simp only [List.length_append, leBytes_length, List.length_flatMap, List.map_const', List.length_range,
    List.sum_replicate_nat]

section
variable {s : State} {tb : BitVec 5} {d a : Code} (hf : s.grp.laneInFlight = false)
include hf

/-- The form of a codebook build. -/
def State.cbldForm (s : State) (tb : BitVec 5) (d a : Code) : LaneForm :=
  { len := 8, srcs := buildSrcs 32 false a, ok := fun g => s.tbOk tb && g.buildOk 32 a d }

theorem execCbld_next {scale : Byte} {lenm1 : BitVec 4} (hstart : (s.cbldForm tb d a).starts s) :
    let vs := s.grp.vectors (buildSrcs 32 false a)
    execCbld tb d a scale lenm1 s = .next ((s.setGrp (s.grp.advanced (s.cbldForm tb d a))).buildInto tb.toNat 32 false a d vs
      (s.buildTrack 32 false a d vs) (codebookTable scale (lenm1.toNat + 1) fun e => s.buildSource 32 false a vs e)) := by
  unfold execCbld
  exact matrixRun_commits hstart hf rfl rfl rfl rfl rfl

/-- The form of `tbinv`. -/
def State.tableForm (s : State) (tb : BitVec 5) : LaneForm := { len := 8, ok := fun _ => s.tbOk tb }

theorem execTbinv_empties (hstart : (s.tableForm tb).starts s) : ∃ t, execTbinv tb s = .next t
    ∧ t.grp = s.grp.advanced { len := 8 } ∧ (t.blk.table tb.toNat).word = 0
    ∧ (∀ k, k ≠ tb.toNat → t.blk.table k = s.blk.table k) ∧ ∀ k, Memory.read t.mem k = Memory.read s.mem k := by
  let u := s.setGrp (s.grp.advanced (s.tableForm tb))
  let empty : Table := { u.blk.table tb.toNat with valid := false, kind := 0, tag := 0, fmt := 0 }
  obtain ⟨htable, hgrp, hmem⟩ := replaceTable_spec u tb.toNat empty
  have hexec : execTbinv tb s = .next (u.replaceTable tb.toNat empty) := by
    unfold execTbinv
    exact matrixRun_commits hstart hf rfl rfl rfl rfl rfl
  have hblk : u.blk = s.blk := (commit_blk s _).2
  refine ⟨_, hexec, hgrp.trans (State.grp_setGrp ..), ?_, fun k hk => ?_, fun k => congrArg (Memory.read · k) hmem⟩
  · rw [htable, if_pos rfl]
    rfl
  · rw [htable, if_neg (Ne.symm hk), hblk]

theorem tbstat_writes (hstart : ({ len := 8, ok := fun g => s.tbOk tb && g.dstOk true d } : LaneForm).starts s) :
    ∃ t, execTbstat tb d s = .next t
      ∧ LaneWrites s { len := 8, ok := fun g => s.tbOk tb && g.dstOk true d } true d s.grp.active
          (fun _ => BitVec.ofNat 64 (s.blk.table tb.toNat).word) t := by
  unfold execTbstat
  exact ⟨_, matrixRun_commits hstart hf rfl rfl rfl rfl rfl, State.writeDest_spec ..⟩

/-- The form of `tbspill` and `tbfill`, and the image that they name. -/
def State.imageForm (s : State) (tb : BitVec 5) (a : Code) : LaneForm :=
  { len := 8, srcs := [src32 a], ok := fun g => s.tbOk tb && g.srcOk (src32 a) }
def Group.imageKey (g : Group) (a : Code) : Nat := scratchKey g.blk (lowBits 32 (argAt (g.vectors [src32 a]) 0 0))

section
variable (hstart : (s.imageForm tb a).starts s)
  (halign : lowBits 32 (argAt (s.grp.vectors [src32 a]) 0 0) % 64 = 0)
  (hin : lowBits 32 (argAt (s.grp.vectors [src32 a]) 0 0) + 4160 ≤ s.blk.scratch)
include hstart halign hin

/-- `tbspill` writes the image of its table, and no other byte. -/
theorem execTbspill_writes (hs : Inv s) : ∃ t, execTbspill tb a s = .next t
    ∧ t.bytes (s.grp.imageKey a) 4160 = tableImage (s.blk.table tb.toNat) (s.core.track (s.blk.table tb.toNat).tag)
    ∧ ∀ k, k < s.grp.imageKey a ∨ s.grp.imageKey a + 4160 ≤ k → Memory.read t.mem k = Memory.read s.mem k := by
  let image := tableImage (s.blk.table tb.toNat) (s.core.track (s.blk.table tb.toNat).tag)
  let u := s.setGrp (s.grp.advanced (s.imageForm tb a))
  have hfar : 2 ^ 52 ≤ s.grp.imageKey a := scratchKey_far _ _
  have hexec : execTbspill tb a s = .next (u.performStore (s.grp.imageKey a) image) := by
    unfold execTbspill
    exact matrixRun_commits hstart hf rfl rfl (imageRange_none halign hin) rfl rfl
  refine ⟨_, hexec, bytes_writeBytes u image _ _ hs (tableImage_length _ _) hfar, fun k hk => ?_⟩
  rw [performStore_mem _ _ _ hfar, writeCells_cellsOf]
  exact Memory.read_writeBytes_outside _ _ _ _ hs (by rwa [tableImage_length])

theorem execTbfill_next (himage : imageBad (s.bytes (s.grp.imageKey a) 4160) = false) :
    execTbfill tb a s = .next ((s.setGrp (s.grp.advanced (s.imageForm tb a))).replaceTable tb.toNat
      (imageTable s.core s.grp.blk (s.bytes (s.grp.imageKey a) 4160))) := by
  unfold execTbfill
  exact matrixRun_commits hstart hf rfl rfl
    ((firstFault_cons (imageRange_none halign hin)).trans (firstFault_cons (faultIf_false himage))) rfl rfl
end
end

/-- Settles O24: the control instructions by the one record that they set, report or wait for, the table instructions by
the table or image that they leave. -/
theorem matrixControlAndTablesComplete : Obligations.MatrixControlAndTablesComplete := by
  refine ⟨fun a d n s => ⟨fun hstart hfree => mcfg_completes hstart hfree,
      fun hstart => ⟨execMsc_room hstart, execMsc_full hstart⟩, fun hstart => execMfence_next hstart,
      fun hstart => ⟨execMwait_complete hstart, execMwait_waits hstart⟩, fun hstart => execMdrain_idle hstart,
      laneGives_of_write fun _ => rfl⟩,
    fun tb d a scale lenm1 s => ?tables⟩
  case tables =>
    intro g hf
    refine ⟨execCbld_next hf, execTbinv_empties hf, tbstat_writes hf, ?image⟩
    case image =>
      intro o off image hstart halign hin
      exact ⟨execTbspill_writes hf hstart halign hin, execTbfill_next hf hstart halign hin⟩

-- Acceptance (11 R189, R190, R213).

section
variable {s : State} {x : Mx}

theorem arrayRoom_true {lookup : Bool} {hand : Nat}
    (hcount : (s.core.ops.filter fun p => p.lookupArray == lookup).length < 4)
    (hhand : ((s.core.ops.filter fun p => p.lookupArray == lookup).map fun p => p.hand).sum + hand ≤ 2048) :
    s.arrayRoom lookup hand = true := by
  unfold State.arrayRoom
  dsimp only
  rw [← List.sum_eq_foldl]
  exact Bool.and_eq_true_iff.mpr ⟨decide_eq_true hcount, decide_eq_true hhand⟩

/-- The operation that an instruction of group `k` becomes when it is accepted. -/
def Group.accepted (g : Group) (k : Nat) (lookup : Bool) (rows : LaneMask) (w : MatWork) (hand : Nat) : MatOp :=
  { grp := k, blk := g.blk, batch := g.batchOpen, lookupArray := lookup, cfg := g.mcfg, fmode := g.fmode, rows := rows
    work := w, hand := hand }

theorem Group.accepted_advanced (g : Group) (o : LaneForm) (k : Nat) (lookup : Bool) (rows : LaneMask) (w : MatWork)
    (hand : Nat) : (g.advanced o).accepted k lookup rows w hand = g.accepted k lookup rows w hand := by
  obtain ⟨hblk, hbatch, hmcfg, hfmode⟩ := advanced_same g o
  unfold Group.accepted
  rw [hblk, hbatch, hmcfg, hfmode]

/-- Acceptance after the commit of an instruction. -/
theorem accept_commit (s : State) (o : LaneForm) (lookup : Bool) (rows : LaneMask) (w : MatWork) (hand : Nat) :
    (s.setGrp (s.grp.advanced o)).accept lookup rows w hand =
      (s.setGrp { s.grp.advanced o with batchOcc := true }).setCoreAt s.coreNo
        { s.core with ops := s.core.ops ++ [s.grp.accepted s.cur lookup rows w hand] } := by
  rw [accept_eq, ← s.grp.accepted_advanced o]
  rfl

/-- The acting group's record set after its core's. -/
theorem State.setGrp_setCoreAt (s : State) (k : Nat) (c : Core) (g h : Group) :
    ((s.setGrp g).setCoreAt k c).setGrp h = (s.setGrp h).setCoreAt k c :=
  congrArg (State.setCoreAt · k c) (s.setGrp_setGrp g h)

theorem Mx.rows_eq (x : Mx) (act : LaneMask) : x.rows act = if x.vec then (if act = 0 then 0 else 1) else act := by
  simp only [Mx.rows, beq_iff_eq]

theorem bcRange_none {sp : Bool} (hb : x.w0 + x.n * x.colBytes sp ≤ s.blk.wbuf) (hc : x.t0 + x.cBytes ≤ s.blk.tiles) :
    s.bcRange x sp = none :=
  (firstFault_cons (inRegion_none _ _ _ _ hb)).trans (firstFault_cons (inRegion_none _ _ _ _ hc))

-- Dense operations (11 R195-R200).

/-- The form of a dense operation. -/
def denseForm (asrc : Bool) (a : Code) : LaneForm :=
  { len := 8, srcs := if asrc then [src32 a] else [], ok := fun g => if asrc then g.srcOk (src32 a) else g.srcAny a }

/-- The dense operation that is accepted, its A in scratch at `off` or in registers from `a`. -/
def State.denseOp (s : State) (sp scl asrc : Bool) (a : Code) (pitch : Half) (off : Nat) : MatOp :=
  let x := Mx.of s.grp.mcfg
  s.grp.accepted s.cur false (x.rows s.grp.active)
    (.dense (s.aMatrix x asrc a pitch off) ((List.range x.n).map fun j => x.bColumn sp (s.column x sp j))
      (s.grp.scaleQ.take (x.scaleCount scl)) scl) x.denseHand

/-- The formats that a dense operation takes. -/
def Mx.denseFormats (x : Mx) (scl : Bool) : Prop :=
  if scl then 4 ≤ x.afmt ∧ x.afmt ≤ 8 ∧ 4 ≤ x.bfmt ∧ x.bfmt ≤ 8 else x.afmt ≤ 12 ∧ x.bfmt ≤ 12

/-- Whether A's registers lie in the window and among the group's registers. -/
def Group.aInWindow (g : Group) (x : Mx) (a : Code) : Prop :=
  a.toNat < 112 ∧ a.toNat + x.aRegs ≤ 112 ∧ g.wbase + a.toNat + x.aRegs ≤ g.nregs

theorem laneMma_accepted {sp scl asrc : Bool} {a : Code} {pitch : Half} (hstart : (denseForm asrc a).starts s)
    (hf : s.grp.laneInFlight = false) (hroom : s.arrayRoom false (Mx.of s.grp.mcfg).denseHand = true)
    (hformats : (Mx.of s.grp.mcfg).denseFormats scl) (hwindow : asrc = false → s.grp.aInWindow (Mx.of s.grp.mcfg) a) :
    let g := s.grp
    let x := Mx.of g.mcfg
    let off := lowBits 32 (argAt (g.vectors (denseForm asrc a).srcs) 0 0)
    (asrc = true → aRange x s.blk.scratch pitch off = none) → s.bcRange x sp = none →
    (if scl then x.scaleCount scl ≤ g.scaleQ.length else g.scaleQ.length = 0) → (sp = true → s.metadata x = none) →
    laneMma s sp scl asrc a pitch =
      .next ((s.setGrp { g.advanced (denseForm asrc a) with
        batchOcc := true, scaleQ := g.scaleQ.drop (x.scaleCount scl) }).setCoreAt s.coreNo
          { s.core with ops := s.core.ops ++ [s.denseOp sp scl asrc a pitch off] }) := by
  intro g x off hscratch hbc hscales hmeta
  unfold laneMma
  refine matrixRun_commits hstart hf hroom ?pre ?check rfl ?accept
  case pre =>
    refine (firstFault_cons (faultIf_false ?formats)).trans (firstFault_cons (faultIf_false ?window))
    case formats =>
      unfold Mx.denseFormats at hformats
      cases scl
      · simpa using hformats
      · obtain ⟨ha, ha8, hb, hb8⟩ := hformats
        have ha12 : (Mx.of s.grp.mcfg).afmt ≤ 12 := by omega
        have hb12 : (Mx.of s.grp.mcfg).bfmt ≤ 12 := by omega
        simp [ha, ha8, hb, hb8, ha12, hb12]
    case window =>
      cases asrc
      · obtain ⟨h1, h2, h3⟩ := hwindow rfl
        simp [h1, h2, h3]
      · rfl
  case check =>
    refine (firstFault_cons ?scratch).trans ((firstFault_cons hbc).trans
      ((firstFault_cons (faultIf_false ?scales)).trans (firstFault_cons ?metadata)))
    case scratch =>
      cases asrc
      · rfl
      · exact hscratch rfl
    case scales => cases scl <;> simpa using hscales
    case metadata =>
      cases sp
      · rfl
      · exact hmeta rfl
  case accept =>
    dsimp only
    rw [accept_commit, State.setGrp_setCoreAt, State.grp_setCoreAt, State.grp_setGrp]
    rfl

theorem exec_mma (sp scl asrc : Bool) (a : Code) (pitch : Half) (s : State) :
    exec (if sp then .mmaSp scl asrc a pitch else .mma scl asrc a pitch) s = laneMma s sp scl asrc a pitch := by
  cases sp <;> rfl

-- Lookups and builds (11 R201-R203, R207).

theorem execMlut_accepted {tb : BitVec 5} (hstart : ({ len := 8, ok := fun _ => s.tbOk tb } : LaneForm).starts s)
    (hf : s.grp.laneInFlight = false) :
    let g := s.grp
    let x := Mx.of g.mcfg
    let n := x.lutCount
    let tables := (List.range n).map fun i => s.blk.table (tb.toNat + i)
    let codes := (List.range x.n).map fun j => unpack x.wb x.k (s.column x false j)
    s.arrayRoom true x.lutHand = true → (lutKind x.bfmt).isSome = true → tb.toNat + n ≤ s.blk.ntables →
    s.bcRange x false = none →
    (∀ i, i < n → (s.blk.table (tb.toNat + i)).valid = true ∧ some (s.blk.table (tb.toNat + i)).kind = lutKind x.bfmt
      ∧ (x.bfmt ≠ 15 → (s.blk.table (tb.toNat + i)).pm = (x.bfmt == 13))) → lutCodes x tables codes = none →
    execMlut tb s = .next ((s.setGrp { g.advanced { len := 8 } with batchOcc := true }).setCoreAt s.coreNo
      { s.core with ops := s.core.ops ++ [s.grp.accepted s.cur true (x.rows g.active) (.lookup tables codes) x.lutHand] }) := by
  intro g x n tables codes hroom hkind hcount hbc htables hcodes
  have hvalid : ((List.range n).findSome? fun i => faultIf (!(tables.getD i {}).valid) (mxStale (tb.toNat + i))) = none := by
    refine List.findSome?_eq_none_iff.mpr fun i hi => faultIf_false ?_
    have hlt := List.mem_range.mp hi
    simp [tables, hlt, (htables i hlt).1]
  have hkinds : (tables.any fun t => some t.kind != lutKind x.bfmt || (x.bfmt != 15 && t.pm != (x.bfmt == 13))) = false := by
    refine List.any_eq_false.mpr fun t ht => ?_
    obtain ⟨i, hi, rfl⟩ := List.mem_map.mp ht
    obtain ⟨-, hk, hpm⟩ := htables i (List.mem_range.mp hi)
    by_cases h15 : x.bfmt = 15
    · simp [hk, h15]
    · simp [hk, hpm h15]
  unfold execMlut
  refine matrixRun_commits hstart hf hroom ?pre ?check rfl (accept_commit ..)
  case pre =>
    refine (firstFault_cons (faultIf_false ?_)).trans (firstFault_cons (faultIf_false ?_))
    · simpa using hkind
    · exact decide_eq_false (Nat.not_lt.mpr hcount)
  case check =>
    exact (firstFault_cons hbc).trans ((firstFault_cons hvalid).trans ((firstFault_cons (faultIf_false hkinds)).trans
      (firstFault_cons hcodes)))

section
variable {pm asrc : Bool} {tb cb : BitVec 5} {d a : Code}

/-- The form of `tbld.sub`, its activations in records of `w` bits. -/
def State.subForm (s : State) (w : Nat) (asrc : Bool) (tb : BitVec 5) (d a : Code) : LaneForm :=
  { len := 8, srcs := buildSrcs w asrc a
    ok := fun g => s.tbOk tb && (if asrc then g.srcOk (src32 a) && d.toNat == 119 else g.srcAny a && g.dstAny d) }

/-- The activations of a subset table's rows. -/
def State.subRows (s : State) (asrc : Bool) (a : Code) (vs : List LaneVec) : List (List FVal) :=
  let x := Mx.of s.grp.mcfg
  lanes fun i => (unpack x.wa 4 (s.buildSource (4 * x.wa) asrc a vs i)).map fun v => mxVal x.afmt (fzin s.grp.fmode) v

theorem execTbldSub_accepted :
    let g := s.grp
    let x := Mx.of g.mcfg
    let w := 4 * x.wa
    let o := s.subForm w asrc tb d a
    let vs := g.vectors o.srcs
    let rows := s.subRows asrc a vs
    o.starts s → g.laneInFlight = false → s.arrayRoom true 1 = true → buildFmt x.afmt = true →
    (asrc = true ∨ g.buildOk w a d = true) → s.buildRange w asrc vs = none →
    execTbldSub pm asrc tb d a s = .next (((s.setGrp (g.advanced o)).buildInto tb.toNat w asrc a d vs
      (s.buildTrack w asrc a d vs) (subsetTable g.fmode x.afmt pm rows)).accept true 0 .build 1
        (entryFlags (fzres g.fmode) (rows.flatMap fun a => (List.range 16).map (subsetExact pm a)))) := by
  intro g x w o vs rows hstart hf hroom hfmt hsource hrange
  unfold execTbldSub
  refine matrixRun_commits hstart hf hroom ?pre hrange rfl rfl
  case pre =>
    refine (firstFault_cons (faultIf_false ?_)).trans (firstFault_cons (faultIf_false ?_))
    · rw [hfmt]
      rfl
    · rcases hsource with hscratch | hregs
      · rw [hscratch]
        rfl
      · rw [hregs]
        exact Bool.and_false _

/-- The form of `tbld.prod`. -/
def State.prodForm (s : State) (asrc : Bool) (tb cb : BitVec 5) (d a : Code) : LaneForm :=
  { len := 8, srcs := buildSrcs 32 asrc a
    ok := fun g => s.tbOk tb && s.tbOk cb && (if asrc then g.srcOk (src32 a) && d.toNat == 119 else g.buildOk 32 a d) }

/-- The activation of each of a product table's rows. -/
def State.prodRows (s : State) (asrc : Bool) (a : Code) (vs : List LaneVec) : List (List FVal) :=
  let x := Mx.of s.grp.mcfg
  lanes fun i => [mxVal x.afmt (fzin s.grp.fmode) (bits (s.buildSource 32 asrc a vs i) (x.wa - 1) 0)]

theorem execTbldProd_accepted :
    let g := s.grp
    let x := Mx.of g.mcfg
    let book := s.blk.table cb.toNat
    let o := s.prodForm asrc tb cb d a
    let vs := g.vectors o.srcs
    let rows := s.prodRows asrc a vs
    o.starts s → g.laneInFlight = false → s.arrayRoom true 1 = true → buildFmt x.afmt = true → book.valid = true →
    book.kind = 3 → s.buildRange 32 asrc vs = none →
    execTbldProd asrc tb cb d a s = .next (((s.setGrp (g.advanced o)).buildInto tb.toNat 32 asrc a d vs
      (s.buildTrack 32 asrc a d vs) (productTable g.fmode x.afmt book rows)).accept true 0 .build 1
        (entryFlags (fzres g.fmode) (rows.flatMap fun a =>
          (List.range 16).map (productExact (fzin g.fmode) (a.getD 0 (.fin false 0 0)) book)))) := by
  intro g x book o vs rows hstart hf hroom hfmt hvalid hkind hrange
  unfold execTbldProd
  refine matrixRun_commits hstart hf hroom (faultIf_false (congrArg not hfmt)) ?check rfl rfl
  case check =>
    exact (firstFault_cons hrange).trans ((firstFault_cons (faultIf_false (congrArg not hvalid))).trans
      (firstFault_cons (faultIf_false (bne_eq_false_iff_eq.mpr hkind))))
end
end

/-- Settles O25: each operation by the checks of its form, formats, operands and tables, and by what its acceptance
captures. -/
theorem matrixOperationsAccepted : Obligations.MatrixOperationsAccepted := by
  refine ⟨fun sp scl asrc a pitch s => ?dense, fun tb cb pm asrc d a s => ?lookup⟩
  case dense =>
    intro g x o off n hstart hf hcount hhand hformats hwindow hscratch hb hc hscales hmeta
    rw [exec_mma, ← Mx.rows_eq]
    exact laneMma_accepted hstart hf (arrayRoom_true hcount hhand) hformats hwindow hscratch (bcRange_none hb hc) hscales hmeta
  case lookup =>
    intro g x hf
    refine ⟨?mlut, ?sub, ?prod⟩
    case mlut =>
      intro hstart hroom n tables codes hkind hcount hbc htables hcodes
      rw [← Mx.rows_eq]
      exact execMlut_accepted hstart hf hroom hkind hcount hbc htables hcodes
    case sub =>
      intro w o vs rows hstart
      exact execTbldSub_accepted hstart hf
    case prod =>
      intro book o vs rows hstart
      exact execTbldProd_accepted hstart hf

-- Tile-store instructions (11 R208-R211).

/-- A row of `n` window registers from `d` written in the lanes of `act`. -/
def State.setRow (s : State) (d : Code) (act : LaneMask) (n : Nat) (f : Nat → Nat → W64) : State :=
  (List.range n).foldl (fun u m => u.writeDest false (d + BitVec.ofNat 7 m) act (f m)) s

/-- After the commit of a lane instruction the written registers hold the row in the active lanes, and nothing else of the
group's registers, of its sticky flags or of memory changes. -/
theorem writeRow_commit (s : State) (o : LaneForm) {d : Code} {act : LaneMask} {n : Nat} (f : Nat → Nat → W64)
    (hd : d.toNat + n ≤ 112) :
    let t := (s.setGrp (s.grp.advanced o)).setRow d act n f
    (∀ i m, i < 64 → m < n → t.grp.reg (s.grp.wbase + d.toNat + m) i =
        if act.getLsbD i then (f m i).setWidth 32 else s.grp.reg (s.grp.wbase + d.toNat + m) i)
    ∧ (∀ q i, q < s.grp.wbase + d.toNat ∨ s.grp.wbase + d.toNat + n ≤ q → t.grp.reg q i = s.grp.reg q i)
    ∧ t.grp.mstat = s.grp.mstat ∧ t.mem = s.mem := by
  obtain ⟨hwbase, hwin⟩ := advanced_regs s.grp o
  have hreg : ∀ q i, (s.grp.advanced o).reg q i = s.grp.reg q i := fun q i => congrArg (fun w => (Map.get [] w q).getD i 0) hwin
  have hmstat : (s.grp.advanced o).mstat = s.grp.mstat := by
    unfold Group.advanced Group.laneNext Group.pop
    dsimp only
    split <;> rfl
  obtain ⟨-, hmem, hgrp, hin, hout⟩ := writeRow d act f (s.setGrp (s.grp.advanced o)) n hd
  simp only [State.grp_setGrp, hwbase, hreg, State.setGrp_mem] at hmem hgrp hin hout
  exact ⟨hin, hout, (congrArg Group.mstat hgrp).trans hmstat, hmem⟩

section
variable {s : State} {d a : Code} {nm1 : BitVec 7} {p : BitVec 9}

theorem tileCheck_none {act : LaneMask} {p n o : Nat} (halign : o % 4 = 0) (hlo : o < s.blk.tiles)
    (hin : ∀ i, i < 64 → act.getLsbD i = true → o + 4 * (i * p) + 4 * n ≤ s.blk.tiles) :
    s.tileCheck act p n o = none := by
  refine (firstFault_cons (faultIf_false ?_)).trans (firstFault_all _ fun x hx => ?_)
  · simp [halign, hlo]
  · obtain ⟨i, hi, rfl⟩ := List.mem_map.mp hx
    obtain ⟨hlt, hact⟩ := (mem_active act i).mp hi
    exact inRegion_none _ _ _ _ (hin i hlt hact)

/-- The form of `tsld` and `tsst`: a source for the offset, and `n` registers from `d`. -/
def tileForm (d a : Code) (n : Nat) : LaneForm :=
  { len := 8, srcs := [src32 a], ok := fun g => g.srcOk (src32 a) && d.toNat < 112 && g.rangeOk d.toNat n }

/-- The offset in lane 0 of their source. -/
def Group.tileOffset (g : Group) (a : Code) : Nat := lowBits 32 (argAt (g.vectors [src32 a]) 0 0)

/-- The word of the tile store that a lane's `m`-th register is loaded from or stored to. -/
def Group.tileWord (g : Group) (a : Code) (p i m : Nat) : Nat := tileKey g.blk (g.tileOffset a + 4 * (i * p + m))

theorem rangeOk_window {g : Group} {r n : Nat} (h : g.rangeOk r n = true) : r + n ≤ 112 := by
  simp only [Group.rangeOk, Bool.and_eq_true, decide_eq_true_eq] at h
  exact h.1

theorem tileForm_window {n : Nat} (h : (tileForm d a n).starts s) : d.toNat + n ≤ 112 := by
  obtain ⟨-, hok, -⟩ := h
  simp only [LaneForm.operandsOk, tileForm, Bool.and_eq_true] at hok
  exact rangeOk_window hok.2.2

theorem execTsld_next (hstart : (tileForm d a (nm1.toNat + 1)).starts s) (hf : s.grp.laneInFlight = false)
    (hc : s.tileCheck s.grp.active p.toNat (nm1.toNat + 1) (s.grp.tileOffset a) = none)
    (hw : s.tileWait s.grp.active p.toNat (nm1.toNat + 1) (s.grp.tileOffset a) = false) :
    execTsld d a nm1 p s = .next ((s.setGrp (s.grp.advanced (tileForm d a (nm1.toNat + 1)))).setRow d s.grp.active
      (nm1.toNat + 1) fun m i => BitVec.ofNat 64 (s.le (s.grp.tileWord a p.toNat i m) 4)) := by
  unfold execTsld
  exact matrixRun_commits hstart hf rfl rfl hc hw rfl

-- The order of the words that `tsst` stores.

/-- The words that the lanes of `act` store, by lane and register, in the order of their writes. -/
def storedWords (act : LaneMask) (n : Nat) : List (Nat × Nat) :=
  (activeLanes act).flatMap fun i => (List.range n).map fun m => (i, m)

theorem mem_storedWords {act : LaneMask} {n : Nat} {w : Nat × Nat} :
    w ∈ storedWords act n ↔ (w.1 < 64 ∧ act.getLsbD w.1 = true) ∧ w.2 < n := by
  obtain ⟨i, m⟩ := w
  simp only [storedWords, List.mem_flatMap, List.mem_map, List.mem_range, mem_active, Prod.mk.injEq]
  constructor
  · rintro ⟨j, hj, q, hq, rfl, rfl⟩
    exact ⟨hj, hq⟩
  · exact fun ⟨hi, hm⟩ => ⟨i, hi, m, hm, rfl, rfl⟩

/-- They are written lane by lane, and within a lane upward. -/
theorem storedWords_sorted (act : LaneMask) (n : Nat) :
    (storedWords act n).Pairwise fun v w => v.1 < w.1 ∨ v.1 = w.1 ∧ v.2 < w.2 := by
  unfold storedWords
  rw [List.pairwise_flatMap]
  refine ⟨fun i _ => List.pairwise_map.mpr (List.pairwise_lt_range.imp fun h => .inr ⟨rfl, h⟩), ?_⟩
  have hlanes : (activeLanes act).Pairwise (· < ·) := List.pairwise_lt_range.filter _
  refine hlanes.imp fun hij v hv w hw => ?_
  obtain ⟨_, -, rfl⟩ := List.mem_map.mp hv
  obtain ⟨_, -, rfl⟩ := List.mem_map.mp hw
  exact .inl hij

/-- The words written after a given one are those of later lanes and the later ones of its own. -/
theorem storedWords_split {act : LaneMask} {n : Nat} {w : Nat × Nat} (h : w ∈ storedWords act n) :
    ∃ l1 l2, storedWords act n = l1 ++ w :: l2
      ∧ ∀ v ∈ l2, v ∈ storedWords act n ∧ (w.1 < v.1 ∨ w.1 = v.1 ∧ w.2 < v.2) := by
  obtain ⟨l1, l2, hl⟩ := List.append_of_mem h
  have hsorted := storedWords_sorted act n
  rw [hl, List.pairwise_append, List.pairwise_cons] at hsorted
  refine ⟨l1, l2, hl, fun v hv => ⟨?_, hsorted.2.1.1 v hv⟩⟩
  rw [hl]
  exact List.mem_append_right _ (List.mem_cons_of_mem _ hv)

/-- The bytes of a word that a lane stores. -/
def Group.tileData (g : Group) (d : Code) (i m : Nat) : List Byte := leBytes 4 (g.reg (g.wbase + d.toNat + m) i).toNat

/-- The memory after the words of the active lanes are written in order. -/
def Group.storeWords (g : Group) (d a : Code) (n p : Nat) (mem : List Host.Cell) : List Host.Cell :=
  (storedWords g.active n).foldl
    (fun mem w => Memory.writeCells mem (cellsOf (g.tileWord a p w.1 w.2) (g.tileData d w.1 w.2))) mem

theorem execTsst_next (hstart : (tileForm d a (nm1.toNat + 1)).starts s) (hf : s.grp.laneInFlight = false)
    (hc : s.tileCheck s.grp.active p.toNat (nm1.toNat + 1) (s.grp.tileOffset a) = none)
    (hw : s.tileWait s.grp.active p.toNat (nm1.toNat + 1) (s.grp.tileOffset a) = false) :
    execTsst a d nm1 p s = .next { s.setGrp (s.grp.advanced (tileForm d a (nm1.toNat + 1))) with
      mem := s.grp.storeWords d a (nm1.toNat + 1) p.toNat s.mem } := by
  unfold execTsst
  refine matrixRun_commits hstart hf rfl rfl hc hw ?_
  unfold Group.storeWords storedWords
  rw [← writeCells_flatMap, List.flatMap_assoc]
  simp only [List.flatMap_map]
  rfl

section
variable {mem : List Host.Cell} {g : Group} {n p : Nat} (hm : Memory.wf mem = true)

theorem tileWord_eq (i m : Nat) : g.tileWord a p i m = g.tileWord a p 0 0 + 4 * (i * p + m) := by
  unfold Group.tileWord tileKey
  omega

/-- Different words of the tile store are apart. -/
theorem tileWords_apart {i m j q : Nat} (h : g.tileWord a p j q ≠ g.tileWord a p i m) :
    g.tileWord a p j q + 4 ≤ g.tileWord a p i m ∨ g.tileWord a p i m + 4 ≤ g.tileWord a p j q := by
  rw [tileWord_eq i m, tileWord_eq j q] at h ⊢
  omega

/-- The words of one lane differ. -/
theorem tileWord_lane_ne {i m q : Nat} (h : m < q) : g.tileWord a p i q ≠ g.tileWord a p i m := by
  rw [tileWord_eq i m, tileWord_eq i q]
  omega

include hm

/-- A byte that no active lane stores to stays. -/
theorem storeWords_outside {k : Nat} (hk : ∀ i m, i < 64 → m < n → g.active.getLsbD i = true →
    k < g.tileWord a p i m ∨ g.tileWord a p i m + 4 ≤ k) :
    Memory.read (g.storeWords d a n p mem) k = Memory.read mem k := by
  refine (read_folds 4 (fun w : Nat × Nat => g.tileWord a p w.1 w.2) (fun w => g.tileData d w.1 w.2)
    (fun _ => leBytes_length ..) _ mem hm).2 k fun w hw => ?_
  obtain ⟨⟨hi, hact⟩, hlt⟩ := mem_storedWords.mp hw
  exact hk _ _ hi hlt hact

/-- A word that no higher lane stores to holds its lane's register. -/
theorem storeWords_word {i m b : Nat} (hi : i < 64) (hlt : m < n) (hact : g.active.getLsbD i = true)
    (hlast : ∀ j q, i < j → j < 64 → q < n → g.active.getLsbD j = true → g.tileWord a p j q ≠ g.tileWord a p i m)
    (hb : b < 4) :
    Memory.read (g.storeWords d a n p mem) (g.tileWord a p i m + b) = (g.tileData d i m).getD b 0 := by
  obtain ⟨l1, l2, hsplit, hlater⟩ := storedWords_split (w := (i, m)) (mem_storedWords.mpr ⟨⟨hi, hact⟩, hlt⟩)
  unfold Group.storeWords
  rw [hsplit]
  refine read_folds_last 4 (fun w : Nat × Nat => g.tileWord a p w.1 w.2) (fun w => g.tileData d w.1 w.2)
    (fun _ => leBytes_length ..) l1 l2 (i, m) mem hm (fun w hw => tileWords_apart ?_) b hb
  obtain ⟨hmem, horder⟩ := hlater w hw
  obtain ⟨⟨hj, hjact⟩, hq⟩ := mem_storedWords.mp hmem
  rcases horder with hlane | ⟨hsame, hup⟩
  · exact hlast _ _ hlane hj hq hjact
  · rw [← hsame]
    exact tileWord_lane_ne hup
end

-- `tszero` and `tscvt`.

theorem execTszero_next (hstart : ({ len := 8 } : LaneForm).starts s) (hf : s.grp.laneInFlight = false) :
    let x := Mx.of s.grp.mcfg
    x.t0 + x.cBytes ≤ s.blk.tiles → s.tileBusy (meets x.t0 x.cBytes) = false →
    execTszero s = .next { s.setGrp (s.grp.advanced { len := 8 }) with
      mem := Memory.writeBytes s.mem (tileKey s.grp.blk x.t0) (List.replicate x.cBytes 0) } := by
  intro x hin hbusy
  unfold execTszero
  exact matrixRun_commits hstart hf rfl rfl (inRegion_none _ _ _ _ hin) hbusy rfl

theorem read_writeBytes_zero {m : List Host.Cell} (h : Memory.wf m = true) (lo n k : Nat) :
    Memory.read (Memory.writeBytes m lo (List.replicate n 0)) k = if lo ≤ k ∧ k < lo + n then 0 else Memory.read m k := by
  split
  case isTrue hk =>
    obtain ⟨i, rfl⟩ := Nat.exists_eq_add_of_le hk.1
    have hi : i < n := by omega
    rw [Memory.read_writeBytes_inside _ _ _ _ h (by rwa [List.length_replicate])]
    simp [List.getD, hi]
  case isFalse hk => exact Memory.read_writeBytes_outside _ _ _ _ h (by rw [List.length_replicate]; omega)

/-- The conversion of element (i, j) of C to the format `tgt`. -/
def State.converted (s : State) (tgt i j : Nat) : Nat × Bool :=
  let x := Mx.of s.grp.mcfg
  tileConvert s.grp.fmode x.ints tgt (s.le (tileKey s.grp.blk (x.t0 + 4 * (i * x.n + j))) 4)

/-- The conversions that a register of `tscvt` holds, packed from its low end. -/
def State.packed (s : State) (tgt i m : Nat) : Nat :=
  let w := mxWidth tgt
  (List.range (32 / w)).foldl (fun acc e => acc + (s.converted tgt i (m * (32 / w) + e)).1 * 2 ^ (w * e)) 0

/-- Whether a conversion of an active lane clamped. -/
def State.clamps (s : State) (tgt : Nat) : Bool :=
  (activeLanes s.grp.active).any fun i => (List.range (Mx.of s.grp.mcfg).n).any fun j => (s.converted tgt i j).2

/-- The form of `tscvt`. -/
def tscvtForm (d : Code) : LaneForm := { len := 8, ok := fun g => g.dstAny d }

theorem execTscvt_next {tgt : BitVec 5} (hstart : (tscvtForm d).starts s) (hf : s.grp.laneInFlight = false) :
    let x := Mx.of s.grp.mcfg
    let n := x.n * mxWidth tgt.toNat / 32
    x.t0 + x.cBytes ≤ s.blk.tiles → s.tileBusy (meets x.t0 x.cBytes) = false → x.vec = false →
    tgt.toNat ∈ (if x.ints then [0, 9, 10] else [2, 3, 4, 5, 9]) → d.toNat < 112 ∧ s.grp.rangeOk d.toNat n = true →
    let u := (s.setGrp (s.grp.advanced (tscvtForm d))).setRow d s.grp.active n
      fun m i => BitVec.ofNat 64 (s.packed tgt.toNat i m)
    execTscvt d tgt s = .next (if s.clamps tgt.toNat then u.setFlags u.cur msatFlag else u) := by
  intro x n hin hbusy hvec htgt ⟨hd, hrange⟩ u
  unfold execTscvt
  refine matrixRun_commits hstart hf rfl ?_ (inRegion_none _ _ _ _ hin) hbusy rfl
  refine (firstFault_cons (faultIf_false ?_)).trans (firstFault_cons (faultIf_false ?_))
  · simp only [Bool.or_eq_false_iff, Bool.not_eq_false', List.contains_iff_mem]
    exact ⟨hvec, htgt⟩
  · rw [decide_eq_true hd, show s.grp.rangeOk d.toNat (x.n * mxWidth tgt.toNat / 32) = true from hrange]
    rfl

/-- A sticky flag of the acting group set where a condition holds changes that alone. -/
theorem setFlagsIf_spec (u : State) (c : Bool) (f : BitVec 4) :
    let v := if c then u.setFlags u.cur f else u
    (∀ q i, v.grp.reg q i = u.grp.reg q i) ∧ v.grp.mstat = (if c then u.grp.mstat ||| f else u.grp.mstat) ∧ v.mem = u.mem := by
  have hgrp : (u.setFlags u.cur f).grp = { u.grp with mstat := u.grp.mstat ||| f } := State.grp_setGrp ..
  cases c
  · exact ⟨fun _ _ => rfl, rfl, rfl⟩
  · exact ⟨fun q i => (congrArg (Group.reg · q i) hgrp :), congrArg Group.mstat hgrp, rfl⟩
end

/-- Settles O26: the loads and conversions by the row of registers they write, the stores by the order of their words. -/
theorem tileInstructionsComplete : Obligations.TileInstructionsComplete := by
  intro d a nm1 p tgt s hs hf g x n off o word
  refine ⟨fun hstart halign hlo hwait hin => ⟨?tsld, ?tsst⟩, fun hstart hin hbusy => ?tszero,
    fun hstart hin hbusy hvec htgt => ?tscvt⟩
  case tsld =>
    refine ⟨_, execTsld_next hstart hf (tileCheck_none halign hlo hin) hwait, ?_⟩
    obtain ⟨hrow, hout, -, hmem⟩ := writeRow_commit s o
      (fun m i => BitVec.ofNat 64 (s.le (word i m) 4)) (tileForm_window hstart)
    refine ⟨fun i m hi hm => (hrow i m hi hm).trans ?_, hout, fun k => congrArg (Memory.read · k) hmem⟩
    rw [BitVec.setWidth_ofNat_of_le (by decide)]
  case tsst =>
    exact ⟨_, execTsst_next hstart hf (tileCheck_none halign hlo hin) hwait, State.grp_setGrp ..,
      fun k hk => storeWords_outside hs hk, fun i m hi hm hact hlast b hb => storeWords_word hs hi hm hact hlast hb⟩
  case tszero =>
    exact ⟨_, execTszero_next hstart hf hin hbusy, State.grp_setGrp .., read_writeBytes_zero hs _ _⟩
  case tscvt =>
    intro w cv hd
    refine ⟨_, execTscvt_next hstart hf hin hbusy hvec htgt hd, ?_⟩
    obtain ⟨hrow, hout, hmstat, hmem⟩ := writeRow_commit s (tscvtForm d)
      (fun m i => BitVec.ofNat 64 (s.packed tgt.toNat i m)) (act := g.active) (rangeOk_window hd.2)
    obtain ⟨hreg, hflag, hfmem⟩ := setFlagsIf_spec ((s.setGrp (g.advanced (tscvtForm d))).setRow d g.active (x.n * w / 32)
      fun m i => BitVec.ofNat 64 (s.packed tgt.toNat i m)) (s.clamps tgt.toNat) msatFlag
    refine ⟨fun i m hi hm => (hreg _ i).trans ((hrow i m hi hm).trans ?_), fun q i hq => (hreg q i).trans (hout q i hq),
      ?_, fun k => congrArg (Memory.read · k) (hfmem.trans hmem)⟩
    · rw [BitVec.setWidth_ofNat_of_le (by decide)]
      rfl
    · exact hflag.trans (by rw [hmstat]; rfl)

-- The completion of an operation (11 R190, R192).

section
variable (o : MatOp)

theorem MatOp.key_eq (e : Nat) : o.key e = tileKey o.blk ((Mx.of o.cfg).t0) + 4 * e := by
  unfold MatOp.key tileKey
  omega

/-- Elements of C numbered apart have their words apart. -/
theorem MatOp.keys_apart {e f : Nat} (h : e ≠ f) : o.key e + 4 ≤ o.key f ∨ o.key f + 4 ≤ o.key e := by
  rw [o.key_eq, o.key_eq]
  omega

theorem Mx.n_pos (v : W64) : 0 < (Mx.of v).n := Nat.mul_pos (by decide) (Nat.succ_pos _)

/-- The row and the column of an element of C. -/
theorem Mx.row_of (v : W64) (r : Nat) {j : Nat} (hj : j < (Mx.of v).n) : (r * (Mx.of v).n + j) / (Mx.of v).n = r := by
  rw [Nat.mul_comm, Nat.mul_add_div (Mx.n_pos v), Nat.div_eq_of_lt hj, Nat.add_zero]

theorem Mx.column_of (v : W64) (r : Nat) {j : Nat} (hj : j < (Mx.of v).n) : (r * (Mx.of v).n + j) % (Mx.of v).n = j := by
  rw [Nat.mul_add_mod_self_right, Nat.mod_eq_of_lt hj]

/-- The elements that an operation updates: those of its rows. -/
theorem MatOp.mem_elements (h : o.writesTiles = true) (e : Nat) : e ∈ o.elements ↔
    ∃ r, (r < (Mx.of o.cfg).m ∧ o.rows.getLsbD r = true) ∧ ∃ j, j < (Mx.of o.cfg).n ∧ r * (Mx.of o.cfg).n + j = e := by
  unfold MatOp.elements
  dsimp only
  rw [if_pos h]
  simp only [List.mem_flatMap, List.mem_filter, List.mem_map, List.mem_range]

/-- Each element is listed once. -/
theorem MatOp.elements_nodup : o.elements.Nodup := by
  unfold MatOp.elements
  dsimp only
  split
  · refine List.pairwise_flatMap.mpr ⟨fun r _ => List.pairwise_map.mpr ?_, ?_⟩
    · exact List.pairwise_lt_range.imp fun hlt heq => Nat.ne_of_lt hlt (Nat.add_left_cancel heq)
    · refine (List.pairwise_lt_range.filter _).imp fun {r q} hlt e he f hf heq => Nat.ne_of_lt hlt ?_
      obtain ⟨j, hj, rfl⟩ := List.mem_map.mp he
      obtain ⟨k, hk, rfl⟩ := List.mem_map.mp hf
      rw [← Mx.row_of o.cfg r (List.mem_range.mp hj), heq, Mx.row_of o.cfg q (List.mem_range.mp hk)]
  · exact List.nodup_nil

theorem MatOp.due_nodup (hit : Nat → Bool) : (o.due hit).Nodup := o.elements_nodup.filter _

theorem MatOp.mem_due {hit : Nat → Bool} (hw : o.written = []) (e : Nat) :
    e ∈ o.due hit ↔ e ∈ o.elements ∧ hit (o.key e) = true := by
  simp [MatOp.due, hw]

/-- An element that is due lies in a row that the operation updates. -/
theorem MatOp.row_of_mem_due {hit : Nat → Bool} {r j : Nat} (h : o.writesTiles = true) (hw : o.written = [])
    (hj : j < (Mx.of o.cfg).n) (he : r * (Mx.of o.cfg).n + j ∈ o.due hit) : o.rows.getLsbD r = true := by
  obtain ⟨q, ⟨-, hrow⟩, k, hk, hqk⟩ := (o.mem_elements h _).mp ((o.mem_due hw _).mp he).1
  rwa [← Mx.row_of o.cfg r hj, ← hqk, Mx.row_of o.cfg q hk]

/-- An operation covers every element of its C. -/
theorem MatOp.covers_element {r j : Nat} (h : o.writesTiles = true) (hr : r < (Mx.of o.cfg).m) (hj : j < (Mx.of o.cfg).n) :
    o.covers (o.key (r * (Mx.of o.cfg).n + j)) = true := by
  have hrow : r * (Mx.of o.cfg).n + (Mx.of o.cfg).n ≤ (Mx.of o.cfg).m * (Mx.of o.cfg).n := by
    rw [← Nat.succ_mul]
    exact Nat.mul_le_mul_right _ hr
  have hsize : (Mx.of o.cfg).cBytes = 4 * ((Mx.of o.cfg).m * (Mx.of o.cfg).n) := Nat.mul_assoc ..
  unfold MatOp.covers
  simp only [h, o.key_eq, hsize, Bool.true_and, Bool.and_eq_true, decide_eq_true_eq]
  omega

section
variable {s : State} (hs : Memory.wf s.mem = true) {l : List Nat} (hl : l.Nodup)
include hs hl

/-- Updating elements, each once, leaves every byte outside their words. -/
theorem applyOp_outside {k : Nat} (hk : ∀ e ∈ l, k < o.key e ∨ o.key e + 4 ≤ k) :
    Memory.read (s.applyOp o l).1.mem k = Memory.read s.mem k := by
  obtain ⟨-, -, hout, -⟩ := updWords o.key (fun e acc => o.element (e / (Mx.of o.cfg).n) (e % (Mx.of o.cfg).n) acc) l
    (s, 0) hs (hl.imp o.keys_apart)
  exact hout k hk

/-- The word of an element that is updated takes its new value. -/
theorem applyOp_word {e : Nat} (he : e ∈ l) : (s.applyOp o l).1.le (o.key e) 4 =
    (o.element (e / (Mx.of o.cfg).n) (e % (Mx.of o.cfg).n) (s.le (o.key e) 4)).1 % 2 ^ 32 := by
  obtain ⟨-, -, -, hin⟩ := updWords o.key (fun e acc => o.element (e / (Mx.of o.cfg).n) (e % (Mx.of o.cfg).n) acc) l
    (s, 0) hs (hl.imp o.keys_apart)
  exact hin e he

/-- The word of an element that is not updated stays. -/
theorem applyOp_word_other {e : Nat} (he : e ∉ l) : (s.applyOp o l).1.le (o.key e) 4 = s.le (o.key e) 4 := by
  refine congrArg leNat (bytes_congr _ _ _ _ fun i hi => applyOp_outside o hs hl fun f hf => ?_)
  have hapart := o.keys_apart (ne_of_mem_of_not_mem hf he)
  omega
end
end

/-- The completion of a core's oldest operation, or the update of one of its elements, is made of that operation's updates
alone. -/
theorem execMatrixCompletion_oldest {s : State} {o : MatOp} {rest : List MatOp}
    (hops : (s.coreAt s.input.a).ops = o :: rest) (hb : s.input.b = 0) :
    (s.input.flag = true →
      let l := o.due fun key => key == o.key s.input.c
      let u := s.applyOp o l
      execMatrixCompletion s = .next (u.1.setCoreAt s.input.a { u.1.coreAt s.input.a with
        ops := { o with written := l ++ o.written, flags := o.flags ||| u.2 } :: rest }))
    ∧ (s.input.flag = false →
      let u := s.applyOp o (o.due fun key => o.covers key)
      execMatrixCompletion s = .next ((u.1.setCoreAt s.input.a { u.1.coreAt s.input.a with ops := rest }).setFlags o.grp
        (o.flags ||| u.2))) := by
  unfold execMatrixCompletion
  dsimp only
  rw [hops, hb]
  refine ⟨fun hflag => ?_, fun hflag => ?_⟩ <;>
  · rw [hflag]
    rfl

/-- The new value of an element of an integer operation is its old one plus its row and column's products. -/
theorem element_int {o : MatOp} {a : List (List Nat)} {b : List (List (Option Nat))} {sc : List (List W32)} {w : Bool}
    (hwork : o.work = .dense a b sc w) (hints : (Mx.of o.cfg).ints = true) (r j acc : Nat) :
    Int.ofNat ((o.element r j acc).1 % 2 ^ 32) = (Int.ofNat acc + (((a.getD r []).zip (b.getD j [])).map fun p =>
      match p.2 with
      | some v => mxInt (Mx.of o.cfg).afmt p.1 * mxInt (Mx.of o.cfg).bfmt v
      | none => 0).sum) % 2 ^ 32 := by
  have he : o.element r j acc =
      denseElement (Mx.of o.cfg) o.fmode (mxScale sc w r j) (a.getD r []) (b.getD j []) acc := by
    unfold MatOp.element
    rw [hwork]
  obtain ⟨hval, hlt, -⟩ := denseInt (Mx.of o.cfg) hints o.fmode (mxScale sc w r j) (a.getD r []) (b.getD j []) acc
  rw [he, Nat.mod_eq_of_lt hlt]
  exact hval

/-- Settles O27: the completion is its operation's updates, whose words are apart. -/
theorem matrixCompletionAddsProducts : Obligations.MatrixCompletionAddsProducts := by
  intro o rest a b sc w s hs hops hb hwritten hwork x key product
  obtain ⟨hone, hall⟩ := execMatrixCompletion_oldest hops hb
  have htiles : o.writesTiles = true := by
    unfold MatOp.writesTiles
    rw [hwork]
  have hkey : ∀ r j, o.key (r * x.n + j) = key r j := fun _ _ => rfl
  refine ⟨fun hflag => ⟨_, hone hflag, ?oneOps, ?oneMem⟩, fun hflag hints => ⟨_, hall hflag, ?ops, ?words, ?mem⟩⟩
  case oneOps => rw [State.coreAt_setCoreAt, if_pos rfl]; rfl
  case oneMem =>
    intro k hk
    refine applyOp_outside o hs (o.due_nodup _) fun e he => ?_
    rw [eq_of_beq ((o.mem_due hwritten e).mp he).2]
    exact hk
  case ops =>
    show ((State.setCoreAt _ _ _).coreAt s.input.a).ops = rest
    rw [State.coreAt_setCoreAt, if_pos rfl]
  case words =>
    intro r j hr hj
    show Int.ofNat (State.le (s.applyOp o _).1 (key r j) 4) = _
    by_cases hrow : o.rows.getLsbD r = true
    · have hmem : r * x.n + j ∈ o.due fun key => o.covers key :=
        (o.mem_due hwritten _).mpr ⟨(o.mem_elements htiles _).mpr ⟨r, ⟨hr, hrow⟩, j, hj, rfl⟩, o.covers_element htiles hr hj⟩
      rw [if_pos hrow, ← hkey, applyOp_word o hs (o.due_nodup _) hmem, Mx.row_of o.cfg r hj, Mx.column_of o.cfg r hj]
      exact element_int hwork hints r j _
    · rw [if_neg hrow, ← hkey, applyOp_word_other o hs (o.due_nodup _) fun he =>
        hrow (o.row_of_mem_due htiles hwritten hj he)]
  case mem =>
    intro k hk
    refine applyOp_outside o hs (o.due_nodup _) fun e he => ?_
    obtain ⟨r, ⟨hr, -⟩, j, hj, rfl⟩ := (o.mem_elements htiles e).mp ((o.mem_due hwritten e).mp he).1
    exact hk r j hr hj

end Sys2Proof.Machine

/-! The statements of taking a trap, of the record of a compute-stream fault, and of the return from a trap and the wait
for an interrupt (12 R215-R219; 21 R299, R311). -/
namespace Sys2Proof.Machine

-- Taking a trap.

/-- The interrupt bit of mcause stands above every cause. -/
theorem trap_mcause (g : Group) {cause : Nat} (irq : Bool) (val : W64) (h : cause < 2 ^ 63) :
    (g.trap cause irq val).mcause.toNat = cause + if irq then 2 ^ 63 else 0 := by
  have hcause : (BitVec.ofNat 64 cause).toNat = cause := by
    rw [BitVec.toNat_ofNat, Nat.mod_eq_of_lt (by omega)]
  have htop : cause ||| 2 ^ 63 = cause + 2 ^ 63 := by
    rw [Nat.or_comm, Nat.add_comm]
    simpa using (Nat.two_pow_add_eq_or_of_lt h 1).symm
  simp only [Group.trap, BitVec.toNat_or, hcause]
  cases irq with
  | false => exact Nat.or_zero cause
  | true => exact htop

/-- With tracing off in the core's partition a trap writes its group's record and no more. -/
theorem trap_traceOff {s : State} (h : (s.reg (subBlock (s.partOfCore (s.cur / 16)) 0x3008)).toNat % 2 = 0) (cause : Nat)
    (val : W64) : s.trap cause val = s.setGrp ((s.grp.stallEnd s.cycles).trap cause false val) := by
  have hbit : (s.reg (subBlock (s.partOfCore (s.cur / 16)) 0x3008)).getLsbD 0 = false := by
    simp [BitVec.getLsbD, Nat.testBit_zero, h]
  unfold State.trap State.trapAt
  exact trace_off (s.setGrp _) s.cur 1 _ _ hbit

theorem execEcall_raises (s : State) : execEcall s = .next (s.trap (if s.grp.mode = .m then 11 else 8) 0) := by
  simp only [execEcall, raise, State.mmode, beq_iff_eq]

/-- Settles O32: the record of the entry is `Group.trap`; what else a trap of the machine changes is its trace record. -/
theorem trapEntry : Obligations.TrapEntry := by
  refine ⟨fun g cause irq val hcause => ?record, fun s => ⟨execEcall_raises s, rfl, fun cause val => ?machine⟩⟩
  case record =>
    obtain ⟨hmie, hmpie, hmpp, htw⟩ := mstatusOf_fields false (mstatusMie g.mstatus) (g.mode == .m) (mstatusTw g.mstatus)
    exact ⟨rfl, trap_mcause g irq val hcause, rfl, hmie, hmpie, hmpp, htw, rfl, rfl, rfl, rfl, rfl⟩
  case machine =>
    obtain ⟨hgrp, hrest, hothers, hcores⟩ := trap_spec s cause val
    exact ⟨hgrp, hothers, hcores, hrest, fun hoff => trap_traceOff hoff cause val⟩

-- Compute-stream faults.

/-- mlcause holds the code in its low byte and the original cause in the next. -/
theorem laneFault_mlcause (g : Group) {code : Nat} (cause : Nat) (mask : LaneMask) (val : W64) (hcode : code < 256) :
    (g.laneFault code cause mask val).mlcause % 256 = BitVec.ofNat 64 code
    ∧ (cause < 256 → (g.laneFault code cause mask val).mlcause / 256 = BitVec.ofNat 64 cause) := by
  show BitVec.ofNat 64 (code + 256 * cause) % 256 = BitVec.ofNat 64 code
    ∧ (cause < 256 → BitVec.ofNat 64 (code + 256 * cause) / 256 = BitVec.ofNat 64 cause)
  refine ⟨?_, fun hcause => ?_⟩ <;>
  · apply BitVec.eq_of_toNat_eq
    simp
    omega

theorem execTrap_faults {s : State} (code : Half) (h : (controlForm 8).starts s) :
    execTrap code s = .next (s.setGrp (s.grp.laneFault 22 0 s.grp.em (code.setWidth 64))) := laneRun_stop h rfl _

theorem execBrk_faults {s : State} (h : (controlForm 4).starts s) :
    execBrk s = .next (s.setGrp (s.grp.laneFault 23 0 s.grp.em 0)) := laneRun_stop h rfl _

/-- Settles O19: the record is `Group.laneFault`, and each of the three instructions answers it. -/
theorem laneFaults : Obligations.LaneFaults := by
  refine ⟨fun g code cause mask val => ?record, fun code w s => ⟨execTrap_faults code, execBrk_faults, rfl⟩⟩
  case record =>
    have hmlcause := laneFault_mlcause g cause mask val (code := code)
    exact ⟨rfl, rfl, rfl, fun hcode => (hmlcause hcode).1, fun hcode => (hmlcause hcode).2, rfl, rfl, rfl, rfl⟩

-- Returns and waits.

/-- A stream that holds and has not ended goes on at mlpc; any other stays. -/
theorem restart_spec (g : Group) : if g.held = true ∧ g.cendDone = false
    then g.restart.held = false ∧ g.restart.lpc = g.mlpc ∧ g.restart.mlcause = 0
    else g.restart.held = g.held ∧ g.restart.lpc = g.lpc ∧ g.restart.mlcause = g.mlcause := by
  by_cases h : g.held = true ∧ g.cendDone = false
  · simp [Group.restart, h]
  · have hstays : (g.held && !g.cendDone) = false := by simpa using h
    simp [Group.restart, h, hstays]

theorem execMret_returns {s : State} (hmode : s.grp.mode = .m) (hcrest : s.grp.needCrest = [])
    (hpart : s.blk.needPart1 = false) (hnotice : s.noticeWaits s.cur = false) :
    execMret s = .next (s.setGrp s.grp.trapReturn) := by
  simp [execMret, mmode_m hmode, hcrest, hpart, hnotice]

theorem execMret_illegal {s : State} (hmode : s.grp.mode = .u) : execMret s = illegal s := by
  simp [execMret, mmode_u hmode]

theorem execWfi_enabled {s : State} (hmode : s.grp.mode = .m) (h : s.grp.mip &&& s.grp.mie ≠ 0) :
    execWfi s = .next (s.setGrp s.grp.hartNext) := by
  simp only [execWfi, mmode_m hmode, if_true, bne_iff_ne.mpr h]

theorem execWfi_waits {s : State} (hmode : s.grp.mode = .m) (h : s.grp.mip &&& s.grp.mie = 0) :
    execWfi s = hartWaits s .wfi := by
  simp [execWfi, mmode_m hmode, h]

theorem execWfi_user {s : State} (hmode : s.grp.mode = .u) :
    execWfi s = if mstatusTw s.grp.mstatus then illegal s else .next (s.setGrp s.grp.hartNext) := by
  simp [execWfi, mmode_u hmode]

/-- Settles O33: the record of a return is `Group.trapReturn`, on which the restart of the stream stands. -/
theorem returnsAndWaits : Obligations.ReturnsAndWaits := by
  intro s
  refine ⟨fun hmode hcrest hpart hnotice => ⟨_, execMret_returns hmode hcrest hpart hnotice, OnlyGroup.setGrp _ _, ?returns⟩,
    execMret_illegal, execWfi_enabled, fun hmode h => (execWfi_waits hmode h).trans (hartWaits_eq s .wfi),
    fun hmode => ⟨fun htw => ?illegal, fun htw => ?completes⟩⟩
  case returns =>
    rw [State.grp_setGrp]
    obtain ⟨hmie, hmpie, hmpp, htw⟩ := mstatusOf_fields (mstatusMpie s.grp.mstatus) true false (mstatusTw s.grp.mstatus)
    exact ⟨rfl, rfl, hmie, hmpie, hmpp, htw, restart_spec s.grp⟩
  case illegal => exact (execWfi_user hmode).trans (if_pos htw)
  case completes => exact (execWfi_user hmode).trans (if_neg (by simp [htw]))

end Sys2Proof.Machine

/-! The statement of the monitor's instructions: quiesce, save and restore (12 R219; 21 R303-R311). -/
namespace Sys2Proof.Machine

-- The monitor's instructions: the modes and the stopped stream.

theorem monitor_user {s : State} (hmode : s.grp.mode = .u) (k : Out) : monitor s k = illegal s := by
  simp only [monitor, mmode_u hmode, Bool.false_eq_true, if_false]

theorem monitor_machine {s : State} (hmode : s.grp.mode = .m) (k : Out) : monitor s k = k := by
  simp only [monitor, mmode_m hmode, if_true]

/-- The record of a compute stream that `z.quiesce` holds: one that holds already stays, and one held on a ticket keeps
its mlpc (R219; 22 R314). -/
def Group.quiesced (g : Group) (ticket : Bool) : Group :=
  if g.held then g else { g with held := true, mlpc := if ticket then g.mlpc else g.lpc, laneWait := none }

theorem quiesced_engines (g : Group) (ticket : Bool) :
    (g.quiesced ticket).laneBusy = g.laneBusy ∧ (g.quiesced ticket).ldq = g.ldq := by
  unfold Group.quiesced
  split <;> exact ⟨rfl, rfl⟩

theorem State.SettlesTo.stream {s t : State} (h : s.SettlesTo t) : t.grp.held = s.grp.held ∧ t.grp.cendDone = s.grp.cendDone
    ∧ t.grp.laneSend = s.grp.laneSend ∧ t.grp.lpc = s.grp.lpc ∧ t.grp.holdC = s.grp.holdC := by
  rw [h]
  exact ⟨rfl, rfl, rfl, rfl, rfl⟩

/-- No lane access, engine operation or queue load of the acting group is outstanding (R219). -/
def State.atRest (s : State) : Prop :=
  s.grp.laneBusy = false ∧ (∀ o ∈ s.core.ops, o.grp ≠ s.cur) ∧ ∀ q ∈ s.grp.ldq, ∀ e ∈ q.2, e.arrived = true

/-- Neither settled tokens nor the hold of the stream is an outstanding access. -/
theorem quiet_quiesced (s : State) (reads writes : List XReg) (ticket : Bool) : let t := s.settled reads writes
    (t.setGrp (t.grp.quiesced ticket)).quiet t.cur = true ↔ s.atRest := by
  intro t
  have hrest : t.atRest ↔ s.atRest := by
    have hgrp : t.grp = { s.grp with tokens := t.grp.tokens } := (settled_spec s reads writes).1
    have hops : t.core.ops = s.core.ops := settled_ops s reads writes
    have hcur : t.cur = s.cur := settled_cur s reads writes
    simp only [State.atRest, hops, hcur]
    rw [hgrp]
  obtain ⟨hbusy, hldq⟩ := quiesced_engines t.grp ticket
  rw [← hrest]
  refine (quiet_iff (t.setGrp (t.grp.quiesced ticket))).trans ?_
  rw [State.grp_setGrp, hbusy, hldq]
  rfl

section
variable {s : State} (hmode : s.grp.mode = .m)
include hmode

section
variable {rd : XReg} (hfree : s.hartFree [rd])
include hfree

theorem execZQuiesce_storing (hsend : s.grp.laneSend.isSome = true ∧ s.grp.held = false) :
    execZQuiesce rd s = hartWaits s .quiesce := by
  unfold execZQuiesce
  rw [monitor_machine hmode]
  refine hartRun_held (reads := []) hfree fun t ht => if_pos ?_
  obtain ⟨hheld, -, hposts, -, -⟩ := ht.stream
  rw [hheld, hposts, hsend.1, hsend.2]
  rfl

variable (hboundary : ¬(s.grp.laneSend.isSome = true ∧ s.grp.held = false))
include hboundary

theorem execZQuiesce_completes (hrest : s.atRest) : let u := s.settled [] [rd]
    let h := u.grp.quiesced s.grp.holdC.isSome
    let pc := if s.grp.cendDone then s.grp.lpc else h.mlpc
    execZQuiesce rd s = .next (((u.setGrp h).setGrp { h with mlpc := pc }).hartDone rd pc) := by
  intro u h pc
  obtain ⟨hheld, hended, hposts, hlpc, hticket⟩ := (settlesTo_settled s [] [rd]).stream
  have hgoes : ¬(u.grp.laneSend.isSome && !u.grp.held) = true := by simpa [u, hheld, hposts] using hboundary
  have hquiet : ¬(!(u.setGrp (u.grp.quiesced u.grp.holdC.isSome)).quiet u.cur) = true := by
    simp [(quiet_quiesced s [] [rd] _).mpr hrest, u]
  unfold execZQuiesce
  rw [monitor_machine hmode]
  refine hartRun_eq (reads := []) hfree ((if_neg hgoes).trans ((if_neg hquiet).trans ?_)) (waits_hartDone _ rd _)
  simp only [h, pc, ← hticket, ← hended, ← hlpc]
  rfl

omit hfree in
theorem execZQuiesce_waits (hrest : ¬s.atRest) (htokens : s.grp.tokens = []) : let u := s.settled [] [rd]
    execZQuiesce rd s = hartWaits (u.setGrp (u.grp.quiesced s.grp.holdC.isSome)) .quiesce := by
  intro u
  have hu : u = s := settled_empty s [] [rd] htokens
  have hgoes : ¬(s.grp.laneSend.isSome && !s.grp.held) = true := by simpa using hboundary
  have hbusy : (!(u.setGrp (u.grp.quiesced s.grp.holdC.isSome)).quiet u.cur) = true := by
    simpa using fun h => hrest ((quiet_quiesced s [] [rd] _).mp h)
  rw [hu] at hbusy ⊢
  unfold execZQuiesce
  rw [monitor_machine hmode, hartRun_empty htokens]
  exact (if_neg hgoes).trans (if_pos hbusy)

end

-- Saving and restoring: the faults and waits that change nothing.

section
variable {rs1 rs2 : XReg} (hfree : s.hartFree [rs1, rs2])
include hfree

theorem execZCsave_badArea (hbad : (s.settled [rs1, rs2] []).areaBad (s.grp.xr rs1) (s.grp.xr rs2) = true) :
    execZCsave rs1 rs2 s = .next ((s.settled [rs1, rs2] []).trap 30 (s.grp.xr rs1)) := by
  unfold execZCsave
  rw [monitor_machine hmode]
  refine hartRun_eq (writes := []) hfree ?_ (waits_trap _ _ _)
  simp only [settled_xr, hbad, if_true, raise]

theorem execZCrest_badArea (hbad : (s.settled [rs1, rs2] []).areaBad (s.grp.xr rs1) (s.grp.xr rs2) = true) :
    execZCrest rs1 rs2 s = .next ((s.settled [rs1, rs2] []).trap 30 (s.grp.xr rs1)) := by
  unfold execZCrest
  rw [monitor_machine hmode]
  refine hartRun_eq (writes := []) hfree ?_ (waits_trap _ _ _)
  simp only [settled_xr, hbad, if_true, raise]

end

theorem execZCsave_waits {rs1 rs2 : XReg} (htokens : s.grp.tokens = [])
    (hgood : s.areaBad (s.grp.xr rs1) (s.grp.xr rs2) = false) (hwaits : s.saveWaits (s.grp.xr rs2) = true) :
    execZCsave rs1 rs2 s = hartWaits s .saves := by
  unfold execZCsave
  rw [monitor_machine hmode, hartRun_empty htokens]
  simp only [hgood, hwaits, Bool.false_eq_true, if_false, if_true]

end

-- Part 0 saved.

/-- The state once part 0 stands at its area: the part is marked for a pre-emption or a kill, and a debug stop adds its
trace record (log 32). -/
def State.part0Stored (u : State) (key : Nat) (image : List Byte) : State :=
  let p := u.performStore key image
  let v := p.setGrp { p.grp with saved0 := p.grp.mondb.pre || p.grp.mondb.kil }
  if u.atDebugStop then v.traceStop else v

/-- Storing part 0 changes of the group's record the mark and at most its reservation, and marks no part 1. -/
theorem part0Stored_spec (u : State) (key : Nat) (image : List Byte) : let w := u.part0Stored key image
    w.grp = { u.grp with saved0 := u.grp.mondb.pre || u.grp.mondb.kil, resv := w.grp.resv }
    ∧ ∀ b, (w.blkAt b).saved1 = (u.blkAt b).saved1 := by
  intro w
  have hp : Kept u (u.performStore key image) := performStore_kept u key image
  have hw : Kept ((u.performStore key image).setGrp { (u.performStore key image).grp with
      saved0 := (u.performStore key image).grp.mondb.pre || (u.performStore key image).grp.mondb.kil }) w := by
    unfold w State.part0Stored
    dsimp only
    split
    · exact trace_kept ..
    · exact Kept.refl _
  refine ⟨?_, fun b => (hw.saved1 b).trans (hp.saved1 b)⟩
  rw [hw.grpFields, State.grp_setGrp, hp.grpFields]

/-- Away from a debug stop the image's bytes are all that a save writes; a vault holds no dirty sector. -/
theorem part0Stored_mem {u : State} {key : Nat} (image : List Byte) (hfar : 2 ^ 52 ≤ key) (hstop : u.atDebugStop = false) :
    (u.part0Stored key image).mem = Memory.writeBytes u.mem key image := by
  rw [← writeCells_cellsOf, ← performStore_mem u key image hfar]
  simp only [State.part0Stored, hstop, Bool.false_eq_true, if_false, State.setGrp_mem]

section
variable {s : State} (hmode : s.grp.mode = .m) {rs1 rs2 : XReg} (hfree : s.hartFree [rs1, rs2])
include hmode hfree

/-- A save of part 0 that need not wait, of a group with nothing to write back, whose block's part 1 is unsaved. -/
theorem execZCsave_part0 {key : Nat} {e : Option TlbEntry} (hpart : s.grp.xr rs2 = 0) : let u := s.settled [rs1, rs2] []
    let image := imageBytes (0x7000 + 256 * u.grp.nregs) (u.part0 u.cur)
    u.areaBad (s.grp.xr rs1) 0 = false → u.saveWaits 0 = false → u.dirtyBy u.cur = [] → u.evicting u.coreNo = false →
    u.blk.saved1 = false → u.reach u.cur true (s.grp.xr rs1) image.length .write = .ok key e →
    execZCsave rs1 rs2 s = .next ((u.part0Stored key image).setGrp (u.part0Stored key image).grp.hartNext) := by
  intro u image hgood hwaits hdirty hevict hsaved hreach
  obtain ⟨hgrp, hblocks⟩ := part0Stored_spec u key image
  have hsaved1 : (((u.part0Stored key image).setGrp (u.part0Stored key image).grp.hartNext).blkAt
      (u.part0Stored key image).grp.blk).saved1 = false := by
    rw [State.blkAt_setGrp, hblocks, hgrp]
    exact hsaved
  unfold execZCsave
  rw [monitor_machine hmode]
  refine hartRun_eq (writes := []) hfree ?_ (waits_nextRecord _ _)
  rw [← trySuspend_unsaved _ _ hsaved1]
  have hback : u.writeBackAll (u.dirtyBy u.cur) = .ok u := by rw [hdirty]; rfl
  simp only [u, image] at hgood hwaits hback hevict hreach ⊢
  simp only [settled_xr, hpart, hgood, hwaits, hback, hevict, beq_self_eq_true, Bool.false_eq_true, if_false, if_true,
    hreach, Bool.true_and, State.part0Stored]

-- Part 0 restored.

/-- The state once the group is restored from an image and past the instruction: its restore is no longer due. -/
def State.part0Restored (u : State) (part : W64) (l : List Byte) : State :=
  let t := u.setGrp { u.grp with needCrest := u.grp.needCrest.erase part.toNat }
  let r := t.restore0 t.cur l
  r.setGrp r.grp.hartNext

section
variable {key : Nat} {e : Option TlbEntry} (hgood : (s.settled [rs1, rs2] []).areaBad (s.grp.xr rs1) (s.grp.xr rs2) = false)
  (hreach : (s.settled [rs1, rs2] []).reach (s.settled [rs1, rs2] []).cur true (s.grp.xr rs1) 64 .read = .ok key e)
  (hhead : s.poisoned key 64 = false)
  (himage : s.poisoned key ((s.settled [rs1, rs2] []).imageAt key).length = false)
include hgood hreach hhead himage

theorem execZCrest_unfit
    (hfits : imageFits ((s.settled [rs1, rs2] []).imageAt key) (s.grp.xr rs2).toNat (s.cur % 16) = false) :
    execZCrest rs1 rs2 s = .next ((s.settled [rs1, rs2] []).trap 30 (s.grp.xr rs1)) := by
  unfold execZCrest
  rw [monitor_machine hmode]
  refine hartRun_eq (writes := []) hfree ?_ (waits_trap _ _ _)
  rw [← settled_cur s [rs1, rs2] []] at hfits
  simp only [settled_xr, hgood, hreach, (settled_poison s _ _ _ _).1, hhead, himage, hfits, Bool.not_false,
    Bool.false_eq_true, if_false, if_true, raise]

theorem execZCrest_part0 (hpart : s.grp.xr rs2 = 0)
    (hfits : imageFits ((s.settled [rs1, rs2] []).imageAt key) (s.grp.xr rs2).toNat (s.cur % 16) = true) :
    execZCrest rs1 rs2 s = .next ((s.settled [rs1, rs2] []).part0Restored 0 ((s.settled [rs1, rs2] []).imageAt key)) := by
  unfold execZCrest
  rw [monitor_machine hmode]
  refine hartRun_eq (writes := []) hfree ?_ (waits_nextRecord _ _)
  rw [← settled_cur s [rs1, rs2] []] at hfits
  rw [hpart] at hgood hfits
  simp only [settled_xr, hpart, hgood, hreach, (settled_poison s _ _ _ _).1, hhead, himage, hfits, Bool.not_true,
    Bool.false_eq_true, if_false, beq_self_eq_true, if_true, State.part0Restored]

end

end

/-- Settles O44: a save stores at a vault, which no cache holds, and a restore writes the group's record alone. -/
theorem monitorInstructionsComplete : Obligations.MonitorInstructionsComplete := by
  intro rd rs1 rs2 s
  refine ⟨fun hmode => ⟨monitor_user hmode _, monitor_user hmode _, monitor_user hmode _⟩,
    fun hmode hfree => ⟨execZQuiesce_completes hmode hfree, execZQuiesce_waits hmode, execZQuiesce_storing hmode hfree⟩,
    fun hmode hfree => ?areas⟩
  intro u a part
  have hbad : u.areaBad a part = true ↔
      s.grp.held = false ∨ a.toNat / 2 ^ 56 ≠ 0xF2 ∨ a.toNat % 4096 ≠ 0 ∨ 1 < part.toNat := by
    rw [areaBad_iff, (settlesTo_settled s [rs1, rs2] []).stream.1]
  refine ⟨fun h => ⟨execZCsave_badArea hmode hfree (hbad.mpr h), execZCrest_badArea hmode hfree (hbad.mpr h)⟩,
    fun hheld hvault hpage hle => ?good⟩
  have hgood : u.areaBad a part = false := by
    rw [← Bool.not_eq_true, hbad]
    simpa only [hheld, hvault, hpage, ne_eq, not_true_eq_false, false_or, Bool.true_eq_false, Nat.not_lt] using hle
  refine ⟨fun hwaits htokens => ?waits, ?saves, fun key e hreach hhead himage =>
    ⟨execZCrest_unfit hmode hfree hgood hreach hhead himage, fun hfits hpart =>
      ⟨_, execZCrest_part0 hmode hfree hgood hreach hhead himage hpart hfits, ?restores⟩⟩⟩
  case waits =>
    have hu : u = s := settled_empty s _ _ htokens
    rw [hu] at hgood hwaits
    exact execZCsave_waits hmode htokens hgood hwaits
  case saves =>
    intro hinv hpart hwaits hdirty hevict hsaved key e l hreach
    have hsaved1 : u.blk.saved1 = false := by rw [(settled_blk s _ _).1]; exact hsaved
    rw [hpart] at hgood hwaits
    obtain ⟨hgrp, -⟩ := part0Stored_spec u key l
    refine ⟨_, execZCsave_part0 hmode hfree hpart hgood hwaits hdirty hevict hsaved1 hreach, ?pc, ?mark, fun hstop => ?image⟩
    case pc =>
      rw [State.grp_setGrp, hgrp]
      exact congrArg (· + 4) (settled_pc s _ _)
    case mark =>
      rw [State.grp_setGrp, hgrp]
      rfl
    case image =>
      rw [State.setGrp_mem, part0Stored_mem l (reach_vault_far hvault hreach) hstop, settled_mem]
      exact ⟨fun i hi => Memory.read_writeBytes_inside _ _ _ _ hinv hi,
        fun b hb => Memory.read_writeBytes_outside _ _ _ _ hinv hb⟩
  case restores =>
    obtain ⟨hmem, hlpc, hem, hmepc, hregs⟩ := restore0_spec
      (u.setGrp { u.grp with needCrest := u.grp.needCrest.erase 0 }) (u.imageAt key)
    refine ⟨hmem.trans (settled_mem s _ _), ?_⟩
    unfold State.part0Restored
    rw [State.grp_setGrp]
    exact ⟨hlpc, hem, hmepc, hregs⟩

end Sys2Proof.Machine

/-! The statement of the journal reads and of the sampler (12 R221, R222; 10 R187; 28 R366). -/
namespace Sys2Proof.Machine

-- The journal.

theorem settled_jslot (s : State) (reads writes : List XReg) (n : Nat) :
    (s.settled reads writes).grp.jslot n = s.grp.jslot n := by
  rw [(settled_spec s reads writes).1]
  rfl

/-- A group's record after the release of a journal slot: a refused entry is freed, any other stays (R221; log 38). -/
def Group.releaseSlot (g : Group) (n : Nat) : Group :=
  if (g.jslot n).held && (g.jslot n).state == 2
    then { g with journal := g.journal.set n { g.jslot n with held := false, state := 1 } } else g

theorem jslot_releaseSlot_same (g : Group) (n : Nat) : (g.releaseSlot n).jslot n =
    if (g.jslot n).held = true ∧ (g.jslot n).state = 2 then { g.jslot n with held := false, state := 1 } else g.jslot n := by
  unfold Group.releaseSlot
  simp only [Bool.and_eq_true, beq_iff_eq]
  split
  · exact (find_jslot ..).trans (if_pos rfl)
  · rfl

theorem jslot_releaseSlot_other (g : Group) {n k : Nat} (hk : k ≠ n) : (g.releaseSlot n).jslot k = g.jslot k := by
  unfold Group.releaseSlot
  split
  · exact (find_jslot ..).trans (if_neg (Ne.symm hk))
  · rfl

theorem releaseSlot_pc (g : Group) (n : Nat) : (g.releaseSlot n).pc = g.pc := by
  unfold Group.releaseSlot
  split <;> rfl

theorem hartDone_setGrp (u : State) (g : Group) (rd : XReg) (v : W64) :
    (u.setGrp g).hartDone rd v = u.setGrp (g.setX rd v).hartNext := by
  rw [State.hartDone, State.grp_setGrp, State.setGrp_setGrp]

/-- The half of an entry's value that `z.pjrd` reads. -/
def JEntry.half (e : JEntry) (high : Bool) : W64 := BitVec.ofNat 64 (if high then e.value / 2 ^ 64 else e.value)

section
variable {rd rs1 : XReg} {s : State} (hfree : s.hartFree [rs1, rd])
include hfree

theorem execZPjrd_reads (hkeep : (s.grp.xr rs1).getLsbD 6 = false) : execZPjrd rd rs1 s = .next ((s.settled [rs1] [rd]).hartDone
    rd ((s.grp.jslot ((s.grp.xr rs1).toNat % 32)).half ((s.grp.xr rs1).getLsbD 5))) := by
  unfold execZPjrd
  refine hartRun_eq (reads := [rs1]) hfree ?_ (waits_hartDone _ rd _)
  simp only [settled_xr, settled_jslot, hkeep, Bool.false_and, Bool.false_eq_true, if_false, JEntry.half]

theorem execZPjrd_illegal (hrelease : (s.grp.xr rs1).getLsbD 6 = true) (hmode : s.grp.mode = .u) :
    execZPjrd rd rs1 s = illegal (s.settled [rs1] [rd]) := by
  unfold execZPjrd
  refine hartRun_eq (reads := [rs1]) hfree ?_ (waits_raise _ _ _)
  simp only [settled_xr, hrelease, mmode_settled, mmode_u hmode, Bool.not_false, Bool.and_true, if_true]

theorem execZPjrd_releases (hrelease : (s.grp.xr rs1).getLsbD 6 = true) (hmode : s.grp.mode = .m) :
    let u := s.settled [rs1] [rd]
    let n := (s.grp.xr rs1).toNat % 32
    execZPjrd rd rs1 s =
      .next (u.setGrp ((u.grp.releaseSlot n).setX rd ((s.grp.jslot n).half ((s.grp.xr rs1).getLsbD 5))).hartNext) := by
  intro u n
  unfold execZPjrd
  refine hartRun_eq (reads := [rs1]) hfree ?_ (waits_nextRecord _ _)
  simp only [settled_xr, settled_jslot, hrelease, mmode_settled, mmode_m hmode, Bool.not_true, Bool.and_false,
    Bool.false_eq_true, if_false, Bool.true_and, Group.releaseSlot, u]
  split
  · rw [hartDone_setGrp]
    rfl
  · rfl

end

-- The sampler.

section
variable {rd rs1 : XReg} {s : State} (hfree : s.hartFree [rs1, rd])
include hfree

theorem execZSample_traps (hbad : (s.grp.xr rs1).toNat % 64 ≠ 0 ∨ s.blk.scratch < (s.grp.xr rs1).toNat + 64) :
    execZSample rd rs1 s = .next ((s.settled [rs1] [rd]).trap 7 (s.grp.xr rs1)) := by
  unfold execZSample
  refine hartRun_eq (reads := [rs1]) hfree ?_ (waits_trap _ _ _)
  simp only [settled_xr, (settled_blk _ _ _).1, bne_iff_ne, Bool.or_eq_true, decide_eq_true_eq, hbad, if_true, raise]

variable (hal : (s.grp.xr rs1).toNat % 64 = 0) (hin : (s.grp.xr rs1).toNat + 64 ≤ s.blk.scratch)
include hal hin

theorem execZSample_busy (harmed : s.grp.sampler.armed = true) :
    execZSample rd rs1 s = .next ((s.settled [rs1] [rd]).hartDone rd 1) := by
  have hsampler : (s.settled [rs1] [rd]).grp.sampler.armed = true := by rwa [(settled_spec s [rs1] [rd]).1]
  unfold execZSample
  refine hartRun_eq (reads := [rs1]) hfree ?_ (waits_hartDone _ rd _)
  simp [settled_xr, (settled_blk _ _ _).1, hal, Nat.not_lt.mpr hin, hsampler]

theorem execZSample_arms (harmed : s.grp.sampler.armed = false) : let u := s.settled [rs1] [rd]
    execZSample rd rs1 s =
      .next ((u.setGrp { u.grp with sampler := { armed := true, off := (s.grp.xr rs1).toNat } }).hartDone rd 0) := by
  have hsampler : (s.settled [rs1] [rd]).grp.sampler.armed = false := by rwa [(settled_spec s [rs1] [rd]).1]
  unfold execZSample
  refine hartRun_eq (reads := [rs1]) hfree ?_ (waits_hartDone _ rd _)
  simp [settled_xr, (settled_blk _ _ _).1, hal, Nat.not_lt.mpr hin, hsampler]

end

/-- Settles O45: a release sets the slot of its group's record, which the result's register does not touch. -/
theorem journalAndSamplerComplete : Obligations.JournalAndSamplerComplete := by
  intro rd rs1 s hfree u v e half
  refine ⟨execZPjrd_reads hfree, execZPjrd_illegal hfree,
    fun hrelease hmode => ⟨_, execZPjrd_releases hfree hrelease hmode, OnlyGroup.setGrp _ _, ?result, ?pc, ?slot, ?others⟩,
    execZSample_traps hfree, fun hal hin => ⟨execZSample_busy hfree hal hin, execZSample_arms hfree hal hin⟩⟩
  case result =>
    intro hrd
    rw [State.grp_setGrp]
    exact xr_setX_same _ rd half hrd
  case pc =>
    rw [State.grp_setGrp]
    show (Group.setX _ rd _).pc + 4 = _
    rw [(setX_fields _ rd _).1, releaseSlot_pc, settled_pc]
  case slot =>
    rw [State.grp_setGrp, jslot_setX, jslot_releaseSlot_same, settled_jslot]
  case others =>
    intro k hk
    rw [State.grp_setGrp, jslot_setX, jslot_releaseSlot_other _ hk, settled_jslot]

end Sys2Proof.Machine

/-! The statements of memory (13 R226, R232), of the state at reset (21 R300; 23 R323; 26 R344), and of the worlds' keys
(25 R339). -/
namespace Sys2Proof.Machine

/-- Settles O5: a write inside its bytes, outside them, and the canonical form. -/
theorem memoryReadAfterWrite : Obligations.MemoryReadAfterWrite := by
  intro m k l hwf
  exact ⟨fun i => Memory.read_writeBytes_inside l m k i hwf, fun b => Memory.read_writeBytes_outside l m k b hwf,
    Memory.wf_writeBytes l m k hwf, fun n hn heq => Memory.ext_of_wf n m hn hwf heq⟩

/-- Settles O7: each field of the reset state as it is written there, and the invariant by its own law. -/
theorem resetStateAndInvariant : Obligations.ResetStateAndInvariant :=
  ⟨⟨rfl, rfl, rfl, rfl, rfl, fun _ => ⟨rfl, rfl⟩⟩, State.reset_keeps⟩

-- The worlds' keys.

/-- After the sectors of a list came under a world's key, those of the list are under it, and any that were before. -/
theorem find_foldl_set_world (w : Nat) (l : List Nat) : ∀ (m : Map Nat) (k : Nat), k < 2 ^ 48 →
    k ∈ l ∨ m.find k = some w → (l.foldl (fun m k => if k < 2 ^ 48 then m.set k w else m) m).find k = some w := by
  induction l with
  | nil => exact fun m k _ h => h.resolve_left List.not_mem_nil
  | cons j l ih =>
    intro m k hk h
    rw [List.foldl_cons]
    refine ih _ k hk ?_
    by_cases hj : k = j
    · subst hj
      rw [if_pos hk, Map.find_set, if_pos rfl]
      exact .inr rfl
    · refine h.imp (fun h => (List.mem_cons.mp h).resolve_left hj) fun h => ?_
      split
      · rwa [Map.find_set, if_neg (Ne.symm hj)]
      · exact h

section
variable {s : State} {asid w : Nat} (hw : s.sec.contexts.find asid = some w)
include hw

theorem find_cipherAs {l : List Nat} {k : Nat} (hk : k < 2 ^ 48) (hmem : k ∈ l) : (s.cipherAs asid l).find k = some w := by
  unfold State.cipherAs
  rw [hw]
  exact find_foldl_set_world w l s.cipher k hk (.inl hmem)

theorem find_underKey_cipher {l : List Nat} {k : Nat} (hmem : k ∈ l) (hk : k < 2 ^ 48) :
    (s.underKey asid l).cipher.find k = some w := by
  have hsec : ((l.foldl State.flushHome s).decrypt asid l).sec = s.sec := by
    rw [decrypt_spec, (flushAll_spec l s).1]
  exact find_cipherAs (by rw [hsec]; exact hw) hk hmem
end

/-- The cells of the sectors of a list with free bytes. -/
def State.freeCells (s : State) (l : List Nat) : List (Nat × Byte) :=
  l.flatMap fun k => (List.range 128).map fun i => (k + i, Config.freeByte s.moves (k + i))

theorem mem_freeCells {s : State} {l : List Nat} {c : Nat × Byte} :
    c ∈ s.freeCells l ↔ (∃ k ∈ l, k ≤ c.1 ∧ c.1 < k + 128) ∧ c.2 = Config.freeByte s.moves c.1 := by
  obtain ⟨a, b⟩ := c
  simp only [State.freeCells, List.mem_flatMap, List.mem_map, List.mem_range, Prod.mk.injEq]
  constructor
  · rintro ⟨k, hk, i, hi, rfl, rfl⟩
    exact ⟨⟨k, hk, Nat.le_add_right .., Nat.add_lt_add_left hi k⟩, rfl⟩
  · rintro ⟨⟨k, hk, hle, hlt⟩, rfl⟩
    have ha : k + (a - k) = a := by omega
    exact ⟨k, hk, a - k, by omega, ha, by rw [ha]⟩

/-- A decryption under another key puts free bytes into the sectors of other worlds. -/
theorem decrypt_mem (s : State) (asid : Nat) (l : List Nat) :
    (s.decrypt asid l).mem = Memory.writeCells s.mem (s.freeCells (s.foreign asid l)) := by
  cases h : s.foreign asid l with
  | nil => rw [decrypt_own s asid l h]; rfl
  | cons k f => unfold State.decrypt State.freeCells; rw [h]

theorem read_decrypt_foreign {s : State} {asid k b : Nat} {l : List Nat} (hwf : Inv s) (hk : k ∈ s.foreign asid l)
    (hle : k ≤ b) (hlt : b < k + 128) : Memory.read (s.decrypt asid l).mem b = Config.freeByte s.moves b := by
  rw [decrypt_mem]
  refine Memory.read_writeCells_fun _ _ _ b hwf (fun c hc => (mem_freeCells.mp hc).2) (.inl ?_)
  exact ⟨(b, Config.freeByte s.moves b), mem_freeCells.mpr ⟨⟨k, hk, hle, hlt⟩, rfl⟩, rfl⟩

theorem read_decrypt_other {s : State} {asid b : Nat} {l : List Nat} (hwf : Inv s)
    (h : ∀ k ∈ s.foreign asid l, b < k ∨ k + 128 ≤ b) : Memory.read (s.decrypt asid l).mem b = Memory.read s.mem b := by
  rw [decrypt_mem]
  refine Memory.read_writeCells_outside _ _ b hwf fun c hc hb => ?_
  obtain ⟨⟨k, hk, hle, hlt⟩, -⟩ := mem_freeCells.mp hc
  have := h k hk
  omega

/-- Settles O60: a write keys its sectors, and a decryption changes the sectors of other worlds and nothing else. -/
theorem worldKeysSeparateMemory : Obligations.WorldKeysSeparateMemory := by
  intro s asid w hwf hw
  refine ⟨fun l k => find_underKey_cipher hw, fun key n hown => worldBytes_own s asid key n ?own,
    worldBytes_far s asid, fun l k v i hmem hk hv hne hi => ?foreign, fun l b h => read_decrypt_other hwf ?other⟩
  case own =>
    refine List.eq_nil_iff_forall_not_mem.mpr fun k hk => ?_
    obtain ⟨hmem, hlt, v, hv, hne⟩ := (foreign_mem s asid w hw _ k).mp hk
    exact hne (hown k hmem hlt v hv)
  case foreign =>
    exact read_decrypt_foreign hwf ((foreign_mem s asid w hw l k).mpr ⟨hmem, hk, v, hv, hne⟩) (Nat.le_add_right ..)
      (Nat.add_lt_add_left hi k)
  case other =>
    intro k hk
    obtain ⟨hmem, hlt, hv⟩ := (foreign_mem s asid w hw _ k).mp hk
    exact h k hmem hlt hv

end Sys2Proof.Machine

/-! The statements of notices and shootdowns (13 R241; 20 R293, R296; 21 R301), of the breakwater (27 R355-R360) and of
storage errors (28 R361-R364). -/
namespace Sys2Proof.Machine

-- Notices.

/-- A notice that comes to the port of a pager queue (R296). -/
theorem execNoticeWrite_port {s : State} (h : s.input.flag = false) : let p := s.input.a % 4
    let q := s.input.b % 64
    let pq := s.pagerQueue p q
    let n := noticeOf s.input.val
    execNoticeWrite s = if s.noticeHeld n then .next (s.setPagerQueue p q { pq with held := pq.held ++ [s.input.val] })
      else if s.noticeFits n then .next (s.wake n)
      else .next (s.setPagerQueue p q { pq with stale := pq.stale + 1 }) :=
  if_neg (by rw [h]; exact Bool.false_ne_true)

/-- The delivery of a notice that its queue holds. -/
theorem execNoticeWrite_queued {s : State} (h : s.input.flag = true) : let p := s.input.a % 4
    let q := s.input.b % 64
    let pq := s.pagerQueue p q
    let rest := pq.held.eraseIdx s.input.c
    (pq.held[s.input.c]? = none → execNoticeWrite s = .next s)
    ∧ ∀ v, pq.held[s.input.c]? = some v → execNoticeWrite s = if s.noticeHeld (noticeOf v) then .next s
      else if s.noticeFits (noticeOf v) then .next ((s.setPagerQueue p q { pq with held := rest }).wake (noticeOf v))
      else .next (s.setPagerQueue p q { pq with held := rest, stale := pq.stale + 1 }) := by
  intro p q pq rest
  refine ⟨fun hnone => ?_, fun v hv => ?_⟩
  · simp only [pq, p, q] at hnone
    simp only [execNoticeWrite, h, if_true, hnone]
  · simp only [pq, p, q] at hv
    simp only [execNoticeWrite, h, if_true, hv]
    rfl

-- Shootdowns.

/-- Writes at homes of which no host holds a line go on. -/
theorem whenLines_free {s : State} {l : List (Nat × Nat)} {k : Out}
    (h : (l.findSome? fun x => s.lineWait x.1 x.2 true) = none) : whenLines s l k = k := by
  unfold whenLines
  rw [h]

theorem execShootdownDone_none {s : State} (h : s.shoots[s.input.a]? = none) : execShootdownDone s = .next s := by
  unfold execShootdownDone
  rw [h]

theorem execShootdownDone_ends {s : State} {r : Shoot} (h : s.shoots[s.input.a]? = some r) :
    let t : State := { s with shoots := s.shoots.eraseIdx s.input.a }
    ((s.endKeys r.ending).findSome? fun x => s.lineWait x.1 x.2 true) = none →
    execShootdownDone s = if r.bad then .next (t.endShoot 2 r)
      else if r.ending.taken? then .next (t.endShoot 1 r)
      else if s.shootWaits r then .next s
      else .next ((t.shootdown r).endShoot 1 r) := by
  intro t hlines
  unfold execShootdownDone
  rw [h]
  exact whenLines_free hlines

/-- Settles O51: notices by where they go, shootdowns by their requests, and what both do by their laws. -/
theorem noticesAndShootdowns : Obligations.NoticesAndShootdowns := by
  intro s i
  refine ⟨⟨fun hport => ?port, fun hqueue => (execNoticeWrite_queued hqueue).1, fun hqueue v hv => ?queue⟩,
    fun n hcore hsrc => wake_spec s n hcore hsrc, fun hmay => if_pos hmay, fun hmay => ite_f hmay,
    execShootdownDone_none, fun r hr hlines => ?done, shootdown_spec s⟩
  case port =>
    have hexec := execNoticeWrite_port hport
    exact ⟨fun hheld => hexec.trans (ite_t hheld), fun hheld hfits => hexec.trans ((ite_f hheld).trans (ite_t hfits)),
      fun hheld hfits => hexec.trans ((ite_f hheld).trans (ite_f hfits))⟩
  case queue =>
    have hexec := (execNoticeWrite_queued hqueue).2 v hv
    exact ⟨fun hheld => hexec.trans (ite_t hheld), fun hheld hfits => hexec.trans ((ite_f hheld).trans (ite_t hfits)),
      fun hheld hfits => hexec.trans ((ite_f hheld).trans (ite_f hfits))⟩
  case done =>
    have hexec := execShootdownDone_ends hr hlines
    exact ⟨fun hbad => hexec.trans (ite_t hbad),
      fun hbad htaken hfree => hexec.trans ((ite_f hbad).trans ((ite_f htaken).trans (ite_f hfree))),
      fun hbad htaken hwaits => hexec.trans ((ite_f hbad).trans ((ite_f htaken).trans (ite_t hwaits))),
      fun hbad htaken => hexec.trans ((ite_f hbad).trans (ite_t htaken))⟩

-- The breakwater.

theorem mem_coresOf {s : State} {p c : Nat} : c ∈ s.coresOf p ↔ c < 1536 ∧ s.partOfCore c = p := by
  rw [State.coresOf, List.mem_filter, List.mem_range, beq_iff_eq]

/-- The state of partition `p` when a period starts with the breakwater off. -/
def State.meteringEnds (s : State) (p : Nat) : State :=
  (s.coresOf p).foldl State.letThrough
    (s.setPart p { s.part p with period := (s.part p).period + 1, metering := false, demand := [] })

theorem meteringEnds_spec (s : State) (p : Nat) : let t := s.meteringEnds p
    t.mem = s.mem ∧ t.groups = s.groups ∧ (t.part p).period = (s.part p).period + 1 ∧ (t.part p).metering = false
    ∧ (∀ c, (t.coreAt c).buckets = (s.coreAt c).buckets) ∧ (∀ c, s.partOfCore c ≠ p → t.coreAt c = s.coreAt c)
    ∧ ∀ c, c < 1536 → s.partOfCore c = p → (t.coreAt c).heldPort = []
      ∧ (t.coreAt c).bwSent = (s.coreAt c).bwSent + BitVec.ofNat 64 (s.coreAt c).heldPort.length := by
  intro t
  obtain ⟨honly, hothers, hheld, hbuckets, hsent⟩ := letThrough_fold (s.coresOf p)
    (s.setPart p { s.part p with period := (s.part p).period + 1, metering := false, demand := [] })
  have hparts : t.parts = s.parts.set p { s.part p with period := (s.part p).period + 1, metering := false, demand := [] } := by
    show State.parts (List.foldl _ _ _) = _
    rw [honly]
    rfl
  have hpart : t.part p = { s.part p with period := (s.part p).period + 1, metering := false, demand := [] } := by
    rw [State.part, hparts, Map.get_set_same]
  refine ⟨?mem, ?groups, by rw [hpart], by rw [hpart], hbuckets, fun c hc => ?other, fun c hlt hp => ?own⟩
  case mem =>
    show State.mem (List.foldl _ _ _) = _
    rw [honly]
    rfl
  case groups =>
    show State.groups (List.foldl _ _ _) = _
    rw [honly]
    rfl
  case other => exact hothers c fun h => hc (mem_coresOf.mp h).2
  case own =>
    have hmem : c ∈ s.coresOf p := mem_coresOf.mpr ⟨hlt, hp⟩
    exact ⟨hheld c (.inl hmem), hsent c (.inl hmem)⟩

theorem execBreakwaterRefill_early {s : State} (h : s.cycles / 1024 ≤ (s.part (s.input.a % 4)).period) :
    execBreakwaterRefill s = .next s := if_pos h

/-- The buckets of the twelve groups of a partition are refilled. -/
def State.refilled (s : State) (p : Nat) : State := (List.range 12).foldl (fun t n => t.refillGroup p n) s

theorem refilled_spec (s : State) (p : Nat) : let t := s.refilled p
    t.mem = s.mem ∧ t.groups = s.groups ∧ (t.part p).period = (s.part p).period
    ∧ ∀ c, s.partOfCore c ≠ p → t.coreAt c = s.coreAt c := by
  obtain ⟨hmem, hgroups, hperiod, -, hcores⟩ := refill_fold p (List.range 12) (fun n hn => List.mem_range.mp hn) s
  exact ⟨hmem, hgroups, hperiod, hcores⟩

section
variable {s : State} (hdue : (s.part (s.input.a % 4)).period < s.cycles / 1024)
include hdue

theorem execBreakwaterRefill_off (hoff : (s.reg (subBlock (s.input.a % 4) 0x2000)).getLsbD 0 = false) :
    execBreakwaterRefill s = .next (s.meteringEnds (s.input.a % 4)) :=
  (if_neg (Nat.not_le.mpr hdue)).trans (if_pos (beq_iff_eq.mpr hoff))

/-- With the breakwater on, the period is counted and metering goes on. -/
theorem execBreakwaterRefill_on (hon : (s.reg (subBlock (s.input.a % 4) 0x2000)).getLsbD 0 = true) : let p := s.input.a % 4
    let u := s.refilled p
    ∃ l, execBreakwaterRefill s =
      .next (u.setPart p { u.part p with period := (u.part p).period + 1, metering := true, demand := l }) :=
  ⟨_, (if_neg (Nat.not_le.mpr hdue)).trans (if_neg (by rw [hon]; decide))⟩
end

theorem execBreakwaterPass_stays {s : State} {r : Metered} (hr : (s.coreAt s.input.a).heldPort[s.input.b]? = some r)
    (h : Map.get 0 (s.coreAt s.input.a).buckets r.die = 0 ∨ r ∈ (s.coreAt s.input.a).heldPort.take s.input.b) :
    execBreakwaterPass s = .next s := by
  unfold execBreakwaterPass
  simp only [hr]
  exact if_pos (by simpa using h)

/-- A core whose held request at a place has passed on a token of its group. -/
def Core.passed (c : Core) (place cycles : Nat) (r : Metered) : Core :=
  let rest := c.heldPort.eraseIdx place
  { c with
    heldPort := rest, buckets := c.buckets.set r.die (Map.get 0 c.buckets r.die - 1), bwSent := c.bwSent + 1
    bwHeld := if rest.isEmpty then c.bwHeld + BitVec.ofNat 64 (cycles - c.heldSince) else c.bwHeld }

theorem execBreakwaterPass_passes {s : State} {r : Metered} (hr : (s.coreAt s.input.a).heldPort[s.input.b]? = some r)
    (htoken : Map.get 0 (s.coreAt s.input.a).buckets r.die ≠ 0)
    (hfirst : r ∉ (s.coreAt s.input.a).heldPort.take s.input.b) :
    execBreakwaterPass s = .next (s.setCoreAt s.input.a ((s.coreAt s.input.a).passed s.input.b s.cycles r)) := by
  unfold execBreakwaterPass
  simp only [hr]
  exact if_neg (by simpa using And.intro htoken hfirst)

-- Storage errors.

theorem execEccError_latent {s : State} {core : Nat} {hart : Bool} (hsite : s.input.site = .code core hart)
    (hlatent : s.input.flag2 = true) : let c := s.coreAt core
    let n := if hart then 1 else 0
    execEccError s = .next (s.setCoreAt core { c with latent := c.latent.set n (upTo32 (Map.get 0 c.latent n)) }) := by
  unfold execEccError
  simp only [hsite, hlatent, if_true]

theorem execEccError_site {s : State} {site : EccSite} (hsite : s.input.site = site)
    (hcode : ∀ core hart, site ≠ .code core hart) : execEccError s = .next (if s.input.flag then (s.eccCount s.input.a s.input.flag site).eccFate site
      else s.eccCount s.input.a s.input.flag site) := by
  subst hsite
  unfold execEccError
  dsimp only
  split
  · next core hart h => exact absurd h (hcode core hart)
  · rfl

theorem mem_addPoison (s : State) (key u : Nat) : u ∈ (s.addPoison key).poison ↔ u = unitOf key ∨ u ∈ s.poison := by
  unfold State.addPoison
  split
  · next h =>
    have hmem : unitOf key ∈ s.poison := List.contains_iff_mem.mp h
    exact ⟨.inr, fun hu => hu.elim (fun e => e ▸ hmem) id⟩
  · exact List.mem_cons

theorem addPoison_mem (s : State) (key : Nat) : (s.addPoison key).mem = s.mem := by
  unfold State.addPoison
  split <;> rfl

/-- A unit of memory outside the tile stores and the weight buffers is poisoned. -/
theorem eccFate_memUnit {s : State} {key : Nat} (h : key < 2 ^ 53 ∨ 2 ^ 55 ≤ key) :
    s.eccFate (.memUnit key) = s.addPoison key :=
  if_neg (by simp only [Bool.and_eq_true, decide_eq_true_eq]; omega)

/-- An error of a group's own state: a fatal error of its context, where it is uncorrectable. -/
theorem execEccError_groupState {s : State} {k n : Nat} (hsite : s.input.site = .groupState k n) :
    let asid := (s.launchAt (s.blkAt (s.grpAt k).blk).launch).asid
    ∃ t, execEccError s = .next t
      ∧ t.dead.find asid = if s.input.flag = true ∧ s.dead.find asid = none then some storageCause
        else s.dead.find asid := by
  intro asid
  refine ⟨_, execEccError_site hsite nofun, ?_⟩
  generalize hu : s.eccCount s.input.a s.input.flag (.groupState k n) = u
  have hkept := eccCount_kept s s.input.a s.input.flag (.groupState k n)
  rw [hu] at hkept
  have hdead : u.dead = s.dead := by rw [hkept]
  have hasid : (u.launchAt (u.blkAt (u.grpAt k).blk).launch).asid = asid := by rw [hkept]; rfl
  have hfate : u.eccFate (.groupState k n) = u.fatal asid storageCause k 0 := by rw [← hasid]; rfl
  obtain ⟨hstays, hdies⟩ := fatal_dead u asid storageCause k 0
  rw [hdead] at hstays hdies
  cases hflag : s.input.flag with
  | false => rw [if_neg Bool.false_ne_true, if_neg (fun h => Bool.false_ne_true h.1), hdead]
  | true =>
    rw [if_pos rfl, hfate]
    by_cases hlive : s.dead.find asid = none
    · rw [if_pos ⟨rfl, hlive⟩]
      exact (hdies hlive).1
    · rw [if_neg (fun h => hlive h.2), hstays hlive, hdead]

/-- Settles O52: the refill and the pass by their conditions, an error by its site. -/
theorem breakwaterAndStorageErrors : Obligations.BreakwaterAndStorageErrors := by
  intro s i
  refine ⟨⟨execBreakwaterRefill_early, fun hdue hoff => ⟨_, execBreakwaterRefill_off hdue hoff, meteringEnds_spec s _⟩,
      fun hdue hon => ?refill⟩, fun p n => ?bucket, fun r hr => ⟨execBreakwaterPass_stays hr, fun htoken hfirst => ?pass⟩,
    fun key hsite => ?unit, fun k n hsite => execEccError_groupState hsite, fun core hart => execEccError_latent⟩
  case refill =>
    obtain ⟨l, hexec⟩ := execBreakwaterRefill_on hdue hon
    obtain ⟨hmem, hgroups, hperiod, hcores⟩ := refilled_spec s (i.a % 4)
    generalize s.refilled (i.a % 4) = u at hexec hmem hgroups hperiod hcores
    refine ⟨_, hexec, hmem, hgroups, ?_, ?_, hcores⟩
    · rw [State.part_setPart, if_pos rfl, ← hperiod]
    · rw [State.part_setPart, if_pos rfl]
  case bucket =>
    obtain ⟨-, -, -, hgrants, hothers, -, hrecord⟩ := refillGroup_spec s p n
    exact ⟨hgrants, hothers, hrecord⟩
  case pass =>
    refine ⟨_, execBreakwaterPass_passes hr htoken hfirst, rfl, rfl, ?_, ?_, ?_,
      fun k hk => (State.coreAt_setCoreAt ..).trans (if_neg (Ne.symm hk))⟩
    all_goals rw [State.coreAt_setCoreAt, if_pos rfl]
    · rfl
    · exact Map.get_set_same ..
    · rfl
  case unit =>
    have hexec := execEccError_site hsite nofun
    have hkept := eccCount_kept s i.a i.flag (.memUnit key)
    refine ⟨fun hcorrected => ?_, fun hbad hkey => ?_⟩
    · rw [ite_f hcorrected] at hexec
      exact ⟨_, hexec, by rw [hkept], by rw [hkept], by rw [hkept]⟩
    · rw [ite_t hbad, eccFate_memUnit hkey] at hexec
      refine ⟨_, hexec, ?_, fun u => ?_⟩
      · rw [addPoison_mem, hkept]
      · rw [mem_addPoison, hkept]

end Sys2Proof.Machine

/-! The statement of writes to registers (02 R53; 21 R300, R303; 23 R320; 26 R347-R351; 28 R364). -/
namespace Sys2Proof.Machine

-- Core blocks.

theorem coreRegWrite_counted {s : State} {who : Agent} {c off : Nat} {v mask : W64} (h : s.coreMayReach who c off = false) :
    s.coreRegWrite who c off v mask = s.countBlkErr c := ite_f h

/-- The registers that only the system cores write: KILSET and the counters. -/
theorem coreMayReach_system {s : State} {who : Agent} {c off : Nat} (h : off = 0x300 ∨ (0xC00 ≤ off ∧ off < 0x1000)) :
    s.coreMayReach who c off = who.quayside := by
  unfold State.coreMayReach
  dsimp only
  rw [if_neg (by simp; omega), if_pos (by simpa using h)]
  cases who <;> rfl

theorem quayside_iff (who : Agent) : who.quayside = true ↔ ∃ n, who = .sysCore n := by
  cases who <;> simp [Agent.quayside]

theorem quayside_sysCore {who : Agent} {n : Nat} (h : who = .sysCore n) : who.quayside = true := by
  rw [h]
  rfl

theorem quayside_other {who : Agent} (h : ∀ n, who ≠ .sysCore n) : who.quayside = false :=
  Bool.eq_false_iff.mpr fun hq => ((quayside_iff who).mp hq).elim h

/-- A KILSET write kills the slots whose bits are set (R303). -/
theorem coreWrite_kilset (s : State) (c : Nat) (v : W64) : let t := s.coreWrite c 0x300 v fullMask
    t.mem = s.mem ∧ ∀ j, j < 16 → v.getLsbD j = true → (t.grpAt (c * 16 + j)).mondb.kil = true := by
  intro t
  let u := (List.range 16).foldl (fun t i => if (v &&& fullMask).getLsbD i then t.killSlot (c * 16 + i) else t) s
  have ht : t = if v &&& fullMask &&& coreReservedBits 0x300 == 0 then u else u.countBlkErr c := rfl
  have hmem : ∀ (l : List Nat) (w : State),
      (l.foldl (fun t i => if (v &&& fullMask).getLsbD i then t.killSlot (c * 16 + i) else t) w).mem = w.mem := by
    intro l
    induction l with
    | nil => exact fun _ => rfl
    | cons i l ih =>
      intro w
      rw [List.foldl_cons, ih]
      split
      · exact (killSlot_spec w _).1
      · rfl
  have hkil : ∀ j, j < 16 → v.getLsbD j = true → (u.grpAt (c * 16 + j)).mondb.kil = true := fun j hj hset =>
    killSlots_kil (fun i => (v &&& fullMask).getLsbD i) (fun i => c * 16 + i) (List.range 16) (c * 16 + j) s
      (.inr ⟨j, List.mem_range.mpr hj, by rw [full_and]; exact hset, rfl⟩)
  rw [ht]
  split
  · exact ⟨hmem _ s, hkil⟩
  · exact ⟨hmem _ s, hkil⟩

theorem execKilsetWrite_kills {s : State} {n : Nat} (h : s.input.who = .sysCore n) :
    ∃ t, execKilsetWrite s = .next t ∧ t.mem = s.mem
      ∧ ∀ j, j < 16 → s.input.val.getLsbD j = true → (t.grpAt (s.input.a * 16 + j)).mondb.kil = true := by
  have hmay : s.coreMayReach s.input.who s.input.a 0x300 = true :=
    (coreMayReach_system (.inl rfl)).trans (quayside_sysCore h)
  exact ⟨_, congrArg Host.Outcome.next (ite_t hmay), coreWrite_kilset s s.input.a s.input.val⟩

theorem execKilsetWrite_counted {s : State} (h : ∀ n, s.input.who ≠ .sysCore n) :
    execKilsetWrite s = .next (s.countBlkErr s.input.a) :=
  congrArg Host.Outcome.next (coreRegWrite_counted ((coreMayReach_system (.inl rfl)).trans (quayside_other h)))

/-- The doubleword of a counter lies among the counters. -/
theorem mbctr_register (k : Nat) (hk : k < 256) : 0xC00 ≤ 0xC00 + 4 * k / 8 * 8 ∧ 0xC00 + 4 * k / 8 * 8 < 0x1000 := by omega

theorem execMbctrWrite_writes {s : State} {n : Nat} (h : s.input.who = .sysCore n) : let k := s.input.b % 256
    ∃ t, execMbctrWrite s = .next t ∧ t.mem = s.mem ∧ t.counter s.input.a k = s.input.val.setWidth 32
      ∧ ∀ c j, (c, j) ≠ (s.input.a, k) → t.counter c j = s.counter c j := by
  intro k
  have hk : k < 256 := Nat.mod_lt _ (by decide)
  have hmay : s.coreMayReach s.input.who s.input.a (0xC00 + 4 * k / 8 * 8) = true :=
    (coreMayReach_system (.inr (mbctr_register k hk))).trans (quayside_sysCore h)
  have hexec : execMbctrWrite s = .next (s.setCounter s.input.a k (s.input.val.setWidth 32)) :=
    congrArg Host.Outcome.next ((ite_t hmay).trans (mbctr_lane k hk s.input.val s s.input.a))
  refine ⟨_, hexec, (setCounter_memN ..).1, ?_, fun c j hne => counter_setCounter' s _ _ _ c j hne⟩
  rw [counter_setCounter, if_pos rfl]

theorem execMbctrWrite_counted {s : State} (h : ∀ n, s.input.who ≠ .sysCore n) :
    execMbctrWrite s = .next (s.countBlkErr s.input.a) :=
  congrArg Host.Outcome.next (coreRegWrite_counted
    ((coreMayReach_system (.inr (mbctr_register _ (Nat.mod_lt _ (by decide))))).trans (quayside_other h)))

/-- The doorbell of a slot is reached by the slot's own hart, in M-mode (21 R300). -/
theorem coreMayReach_mondb (s : State) (who : Agent) (c j : Nat) (hj : j < 16) :
    s.coreMayReach who c (0x100 + 16 * j) = true ↔ who = .hartM (c * 16 + j) ∧ (s.grpAt (c * 16 + j)).mode = .m := by
  have hslot : (0x100 + 16 * j - 0x100) / 16 = j := by omega
  have hcore : (c * 16 + j) / 16 = c := by omega
  unfold State.coreMayReach
  dsimp only
  rw [if_pos (by simp; omega), hslot, Bool.and_eq_true, ownSlot, beq_iff_eq]
  constructor
  · rintro ⟨hagent, rfl⟩
    simp only [State.coreAgent, Bool.and_eq_true, beq_iff_eq] at hagent
    exact ⟨rfl, hagent.2⟩
  · rintro ⟨rfl, hmode⟩
    simp [State.coreAgent, hcore, hmode]

theorem coreWrite_mondb (s : State) (c j : Nat) (hj : j < 16) (v : W64) : let k := c * 16 + j
    let t := s.coreWrite c (0x100 + 16 * j) v fullMask
    t.mem = s.mem ∧ t.grpAt k = { s.grpAt k with mondb := (s.grpAt k).mondb.clear v }
      ∧ ∀ i, i ≠ k → t.grpAt i = s.grpAt i := by
  intro k t
  have hslot : (0x100 + 16 * j - 0x100) / 16 = j := by omega
  let u := s.onMondb k fun m => m.clear v
  have ht : t = if v &&& 0xFFFFFFFFFFFE0000 == 0 then u else u.countBlkErr c := by
    show s.coreWrite _ _ _ _ = _
    unfold State.coreWrite
    dsimp only
    rw [if_neg (by simp; omega), if_pos (by simp; omega), if_pos (by simp), hslot, full_and]
  have hu : u.grpAt k = { s.grpAt k with mondb := (s.grpAt k).mondb.clear v } ∧ ∀ i, i ≠ k → u.grpAt i = s.grpAt i :=
    ⟨(State.grpAt_setGrpAt ..).trans (if_pos rfl), fun i hi => (State.grpAt_setGrpAt ..).trans (if_neg (Ne.symm hi))⟩
  rw [ht]
  split
  · exact ⟨rfl, hu⟩
  · exact ⟨rfl, hu⟩

theorem execMondbClear_counted {s : State} : let k := s.input.a * 16 + s.input.b % 16
    s.input.who ≠ .hartM k ∨ (s.grpAt k).mode = .u → execMondbClear s = .next (s.countBlkErr s.input.a) := by
  intro k h
  refine congrArg Host.Outcome.next (coreRegWrite_counted (Bool.eq_false_iff.mpr fun hmay => ?_))
  obtain ⟨hwho, hmode⟩ := (coreMayReach_mondb s _ _ _ (Nat.mod_lt _ (by decide))).mp hmay
  exact h.elim (fun h => h hwho) fun h => absurd (h.symm.trans hmode) (by decide)

theorem execMondbClear_clears {s : State} : let k := s.input.a * 16 + s.input.b % 16
    s.input.who = .hartM k → (s.grpAt k).mode = .m → ∃ t, execMondbClear s = .next t ∧ t.mem = s.mem
      ∧ t.grpAt k = { s.grpAt k with mondb := (s.grpAt k).mondb.clear s.input.val }
      ∧ ∀ j, j ≠ k → t.grpAt j = s.grpAt j := by
  intro k hwho hmode
  have hj : s.input.b % 16 < 16 := Nat.mod_lt _ (by decide)
  have hmay := (coreMayReach_mondb s s.input.who s.input.a _ hj).mpr ⟨hwho, hmode⟩
  exact ⟨_, congrArg Host.Outcome.next (ite_t hmay), coreWrite_mondb s _ _ hj _⟩

-- Registers with a step of their own outside the core blocks.

theorem execBlkerrWrite_core {s : State} {c : Nat} (h : coreAtOffset (s.input.a % 2 ^ 28 / 8 * 8) = some c) :
    execBlkerrWrite s = .next (s.coreRegWrite s.input.who c 8 s.input.val fullMask) := by
  unfold execBlkerrWrite
  simp only [h]

theorem execBlkerrWrite_block {s : State} : let off := s.input.a % 2 ^ 28 / 8 * 8
    coreAtOffset off = none → execBlkerrWrite s = if s.mayReach s.input.who (blockOf off).1
      then .next { s with regs := s.regs.set (blockOf off).1 0 } else .next (s.countReg off) := by
  intro off h
  unfold execBlkerrWrite
  simp only [show coreAtOffset (s.input.a % 2 ^ 28 / 8 * 8) = none from h]
  rfl

/-- Whether a die that holds a block would move under the partitions `v`. -/
def State.dieMoves (s : State) (v : W64) : Prop := ∃ b ∈ s.blocks, let n := dieOfCore (b.1 / 16)
  bits v.toNat (2 * n + 1) (2 * n) ≠ bits (s.reg (pd0 0x100)).toNat (2 * n + 1) (2 * n)

theorem execPartdieWrite_refused_iff (s : State) : (!s.mayReach s.input.who (pd0 0x100) || s.blocks.any fun b =>
      let n := dieOfCore (b.1 / 16)
      bits s.input.val.toNat (2 * n + 1) (2 * n) != bits (s.reg (pd0 0x100)).toNat (2 * n + 1) (2 * n)) = true
    ↔ s.mayReach s.input.who (pd0 0x100) = false ∨ s.dieMoves s.input.val := by
  simp only [Bool.or_eq_true, Bool.not_eq_true', List.any_eq_true, bne_iff_ne]
  rfl

theorem execPartdieWrite_counted {s : State} (h : s.mayReach s.input.who (pd0 0x100) = false ∨ s.dieMoves s.input.val) :
    execPartdieWrite s = .next (s.countReg (pd0 0x100)) :=
  if_pos ((execPartdieWrite_refused_iff s).mpr h)

/-- A counted access changes no register but the error counter of its block (00 R5). -/
theorem reg_countReg_other {s : State} {off r : Nat} (h : coreAtOffset off = none → (blockOf off).1 ≠ r) :
    (s.countReg off).reg r = s.reg r := by
  unfold State.countReg
  split
  · rfl
  · next hnone => exact Map.get_set_other _ _ _ (h hnone)

theorem execPartdieWrite_moves {s : State} (hmay : s.mayReach s.input.who (pd0 0x100) = true)
    (hstay : ¬s.dieMoves s.input.val) : ∃ t, execPartdieWrite s = .next t
      ∧ t.reg (pd0 0x100) = s.input.val &&& 0xFFFFFF ∧ t.mem = s.mem ∧ t.groups = s.groups := by
  let u : State := { s with regs := s.regs.set (pd0 0x100) (s.input.val &&& 0xFFFFFF) }
  have hexec : execPartdieWrite s = .next (if s.input.val >>> 24 == 0 then u else u.countReg (pd0 0x100)) :=
    if_neg (mt (execPartdieWrite_refused_iff s).mp fun h => h.elim (fun h => Bool.false_ne_true (h.symm.trans hmay)) hstay)
  have hu : u.reg (pd0 0x100) = s.input.val &&& 0xFFFFFF := Map.get_set_same ..
  refine ⟨_, hexec, ?_⟩
  split
  · exact ⟨hu, rfl, rfl⟩
  · refine ⟨?_, by rw [countReg_kept], by rw [countReg_kept]⟩
    rw [reg_countReg_other fun _ => by decide, hu]

/-- A write of 5 to BOOTST by a system core at stage 4 (R347). -/
theorem execBootstStageWrite_ok_iff (s : State) : (match s.input.who with
      | .sysCore _ => bits s.input.val.toNat 2 0 == 5 && bits s.boot.bootst.toNat 2 0 == 4
      | _ => false) = true
    ↔ (∃ n, s.input.who = .sysCore n) ∧ bits s.input.val.toNat 2 0 = 5 ∧ bits s.boot.bootst.toNat 2 0 = 4 := by
  cases s.input.who <;> simp

theorem execBootstStageWrite_cases (s : State) :
    let ok := (∃ n, s.input.who = .sysCore n) ∧ bits s.input.val.toNat 2 0 = 5 ∧ bits s.boot.bootst.toNat 2 0 = 4
    let t := ({ s with boot := { s.boot with bootst := (s.boot.bootst &&& ~~~7) ||| 5 } } : State).commit
    (ok → s.input.val >>> 13 = 0 → execBootstStageWrite s = .next t)
    ∧ (ok → s.input.val >>> 13 ≠ 0 → execBootstStageWrite s = .next (t.countReg (pd0 0x120)))
    ∧ (¬ok → execBootstStageWrite s = .next (s.countReg (pd0 0x120))) := by
  intro ok t
  have htaken : ok → execBootstStageWrite s = .next (if s.input.val >>> 13 == 0 then t else t.countReg (pd0 0x120)) :=
    fun hok => if_pos ((execBootstStageWrite_ok_iff s).mpr hok)
  refine ⟨fun hok hz => (htaken hok).trans ?_, fun hok hz => (htaken hok).trans ?_,
    fun hno => if_neg (mt (execBootstStageWrite_ok_iff s).mp hno)⟩
  · rw [if_pos (beq_iff_eq.mpr hz)]
  · rw [if_neg (mt beq_iff_eq.mp hz)]

theorem execBstoreWrite_cases (s : State) : let bank := s.input.a % 2
    let ok := (∃ n, s.input.who = .sysCore n) ∧ bits s.boot.banksel.toNat 0 0 ≠ bank
    (ok → execBstoreWrite s =
      .next (s.storeCells (cellsOf (bootKey bank (s.input.b % 8) (s.input.c % 2 ^ 27)) s.input.bytes)))
    ∧ (¬ok → execBstoreWrite s = .next (s.countReg 0xE008100)) := by
  intro bank ok
  have hok : (match s.input.who with
      | .sysCore _ => bits s.boot.banksel.toNat 0 0 != bank
      | _ => false) = true ↔ ok := by
    simp only [ok]
    cases s.input.who <;> simp
  exact ⟨fun h => if_pos (hok.mpr h), fun h => if_neg (mt hok.mp h)⟩

theorem execHqReset_cases (s : State) : let p := s.input.a % 4
    let h := s.input.b % 32
    (s.input.who.quayside = true → (s.hq p h).broken = true → execHqReset s =
      .next (s.setHq p h { s.hq p h with broken := false, subHead := 0, subTail := 0, compHead := 0, compTail := 0 }))
    ∧ (s.input.who.quayside = true → (s.hq p h).broken = false → execHqReset s = .next s)
    ∧ (s.input.who.quayside = false → execHqReset s = .next (s.countReg (subBlock p (0x1400 + 64 * h)))) := by
  intro p h
  have hquay : s.input.who.quayside = true → (!s.input.who.quayside) = false := fun hq => by rw [hq]; rfl
  exact ⟨fun hq hbroken => (ite_f (hquay hq)).trans (ite_t hbroken), fun hq hwhole => (ite_f (hquay hq)).trans (ite_f hwhole),
    fun hq => ite_t (by rw [hq]; rfl)⟩

-- Any other register.

theorem shutPort_iff (s : State) (who : Agent) (p : Nat) :
    s.shutPort who = some p ↔ who = .hostPort p ∧ s.portOpen p = false := by
  cases who with
  | hostPort q =>
    cases hopen : s.portOpen q <;> simp [State.shutPort, hopen]
    · rintro rfl; exact hopen
    · rintro rfl; exact hopen
  | _ => simp [State.shutPort]

theorem execRegisterWrite_dropped {s : State} {p : Nat} (hwho : s.input.who = .hostPort p) (hshut : s.portOpen p = false) :
    execRegisterWrite s = .next (s.dropPosted p) := by
  unfold execRegisterWrite
  simp only [(shutPort_iff s _ p).mpr ⟨hwho, hshut⟩]

section
variable {s : State} (hopen : ∀ p, s.input.who = .hostPort p → s.portOpen p = true)
include hopen

theorem shutPort_none : s.shutPort s.input.who = none := by
  refine Option.eq_none_iff_forall_ne_some.mpr fun p hp => ?_
  obtain ⟨hwho, hshut⟩ := (shutPort_iff s _ p).mp hp
  exact Bool.false_ne_true (hshut.symm.trans (hopen p hwho))

theorem execRegisterWrite_core {c : Nat} : let n := 2 ^ (s.input.b % 4)
    let a := s.input.a % 2 ^ 28 / n * n
    let off := a / 8 * 8
    let r := regLane a n s.input.val
    coreAtOffset off = some c → execRegisterWrite s = .next (s.coreRegWrite s.input.who c (off % 0x10000) r.1 r.2) := by
  intro n a off r hcore
  simp only [off, a, n] at hcore
  unfold execRegisterWrite
  simp only [shutPort_none hopen, hcore]
  rfl

/-- A write outside the core blocks is refused, does nothing, has a step of its own, or is the space's. -/
theorem execRegisterWrite_space : let n := 2 ^ (s.input.b % 4)
    let a := s.input.a % 2 ^ 28 / n * n
    let off := a / 8 * 8
    let r := regLane a n s.input.val
    let cmd := bits (r.1 &&& r.2).toNat 1 0
    coreAtOffset off = none → execRegisterWrite s =
      if !s.mayReach s.input.who off || (quaysideOnly off && !s.input.who.quayside) then .next (s.countReg off)
      else if gangOff off && (cmd == 0 || cmd == 3) then .next (s.countReg off)
      else if ownStep off then .next s
      else .next (s.spaceWrite off r.1 r.2) := by
  intro n a off r cmd hcore
  simp only [off, a, n] at hcore
  unfold execRegisterWrite
  simp only [shutPort_none hopen, hcore]
  rfl

theorem execRegisterWrite_space_cases : let n := 2 ^ (s.input.b % 4)
    let a := s.input.a % 2 ^ 28 / n * n
    let off := a / 8 * 8
    let r := regLane a n s.input.val
    let cmd := bits (r.1 &&& r.2).toNat 1 0
    let may := s.mayReach s.input.who off = true ∧ (quaysideOnly off = true → s.input.who.quayside = true)
    let idle := gangOff off = true ∧ (cmd = 0 ∨ cmd = 3)
    coreAtOffset off = none → (¬may ∨ idle → execRegisterWrite s = .next (s.countReg off))
      ∧ (may → ¬idle → ownStep off = false → execRegisterWrite s = .next (s.spaceWrite off r.1 r.2))
      ∧ (may → ¬idle → ownStep off = true → execRegisterWrite s = .next s) := by
  intro n a off r cmd may idle hcore
  have hmay : (!s.mayReach s.input.who off || (quaysideOnly off && !s.input.who.quayside)) = true ↔ ¬may := by
    simp only [may, Bool.or_eq_true, Bool.and_eq_true, Bool.not_eq_true', not_and_or, Bool.not_eq_true, Classical.not_imp]
  have hidle : (gangOff off && (cmd == 0 || cmd == 3)) = true ↔ idle := by
    simp only [idle, Bool.and_eq_true, Bool.or_eq_true, beq_iff_eq]
  have hexec := execRegisterWrite_space hopen hcore
  have hgoes : may → ¬idle → execRegisterWrite s = if ownStep off then .next s else .next (s.spaceWrite off r.1 r.2) :=
    fun h hni => hexec.trans ((if_neg fun hc => hmay.mp hc h).trans (if_neg (mt hidle.mp hni)))
  refine ⟨fun h => hexec.trans ?_, fun h hni hstep => (hgoes h hni).trans (ite_f hstep),
    fun h hni hstep => (hgoes h hni).trans (ite_t hstep)⟩
  by_cases hm : may
  · exact (if_neg fun hc => hmay.mp hc hm).trans (if_pos (hidle.mpr (h.resolve_left fun hn => hn hm)))
  · exact if_pos (hmay.mpr hm)
end

/-- Settles O53: each register by who may write it, and what its write does. -/
theorem registerWritesComplete : Obligations.RegisterWritesComplete := by
  intro s i
  obtain ⟨hstage, hstageReserved, hstageNot⟩ := execBootstStageWrite_cases s
  obtain ⟨hstore, hstoreNot⟩ := execBstoreWrite_cases s
  refine ⟨fun n hwho => ⟨execKilsetWrite_kills hwho, execMbctrWrite_writes hwho⟩,
      fun hwho => ⟨execKilsetWrite_counted hwho, execMbctrWrite_counted hwho⟩,
      ⟨execMondbClear_counted, execMondbClear_clears⟩,
      ⟨fun c hcore => ⟨fun hmay => ?coreErr, fun hmay => ?coreErrNot⟩,
        fun hcore => ⟨fun hmay => (execBlkerrWrite_block hcore).trans (ite_t hmay),
          fun hmay => (execBlkerrWrite_block hcore).trans (ite_f hmay)⟩⟩,
      ⟨execPartdieWrite_counted, execPartdieWrite_moves⟩, ⟨hstage, hstageReserved, hstageNot⟩,
      ⟨fun hok => ⟨hstore hok, writeCells_cellsOf ..⟩, hstoreNot⟩, execHqReset_cases s,
      ⟨fun p => execRegisterWrite_dropped, fun hopen => ⟨fun c => execRegisterWrite_core hopen,
        execRegisterWrite_space_cases hopen⟩⟩, plainWrite_spec s⟩
  case coreErr => exact (execBlkerrWrite_core hcore).trans (congrArg Host.Outcome.next (ite_t hmay))
  case coreErrNot => exact (execBlkerrWrite_core hcore).trans (congrArg Host.Outcome.next (coreRegWrite_counted hmay))

end Sys2Proof.Machine

/-! The statements of the cold reset and the boot stages (25 R340-R342; 26 R344-R347), and of the Harbourmaster's calls
(13 R241; 16 R275; 25 R329-R336, R341). -/
namespace Sys2Proof.Machine

-- The boot.

theorem execColdReset_runs {s : State} (hflag : s.input.flag = false) (hflag2 : s.input.flag2 = false) :
    execColdReset s = .next s.powerUp.bootRun :=
  if_neg (by rw [hflag, hflag2]; exact Bool.false_ne_true)

theorem execColdReset_stuck {s : State} (h : s.input.flag = true ∨ s.input.flag2 = true) :
    execColdReset s = .next { s.powerUp with boot := { s.powerUp.boot with bootst := 1, failed := s.input.flag } } :=
  if_pos (by rwa [Bool.or_eq_true])

theorem execFailoverTimer_cases (s : State) :
    let due := s.boot.standby = false ∧ bits s.boot.bootst.toNat 2 0 < 2
      ∧ (s.boot.failed = true ∨ 500000000 ≤ s.tide.toNat)
    (due → execFailoverTimer s = .next ({ s with boot := { s.boot with standby := true } } : State).bootRun)
    ∧ (¬due → execFailoverTimer s = .next s) := by
  intro due
  have hstays : (s.boot.standby || decide (2 ≤ bits s.boot.bootst.toNat 2 0)
      || !(s.boot.failed || decide (500000000 ≤ s.tide.toNat))) = true ↔ ¬due := by
    simp only [due, Bool.or_eq_true, Bool.not_eq_true', Bool.or_eq_false_iff, decide_eq_true_eq, decide_eq_false_iff_not,
      not_and_or, not_or, Bool.not_eq_false, Bool.not_eq_true, Nat.not_lt, or_assoc]
  exact ⟨fun hdue => if_neg fun h => hstays.mp h hdue, fun hnot => if_pos (hstays.mpr hnot)⟩

/-- The commit raises the anti-rollback fuses of both banks where the running security versions are above them (R347). -/
theorem commit_spec (s : State) : let v := least s.boot.secvers
    s.commit.mem = s.mem ∧ s.commit.boot.bootst = s.boot.bootst
    ∧ (v ≤ fusedCounter s.boot.fuse0.arb → s.commit = s)
    ∧ (fusedCounter s.boot.fuse0.arb < v →
      s.commit.boot.fuse0.arb = thermometer v ∧ s.commit.boot.fuse1.arb = thermometer v) := by
  intro v
  unfold State.commit
  dsimp only
  split
  · next h => exact ⟨rfl, rfl, fun _ => rfl, fun hlt => absurd h (Nat.not_le.mpr hlt)⟩
  · next h => exact ⟨rfl, rfl, fun hle => absurd hle h, fun _ => ⟨rfl, rfl⟩⟩

/-- What comes of two banks, of which each may have a first bad image. -/
theorem either_bank {x y : Option Nat} {P Q : Prop} {R : Nat → Prop}
    (h : (x = none → P) ∧ (x ≠ none → y = none → Q) ∧ ∀ k, x = some k → y ≠ none → R k) :
    if x = none then P else if y = none then Q else R (x.getD 0) := by
  obtain ⟨hfirst, hsecond, hneither⟩ := h
  cases x with
  | none => exact hfirst rfl
  | some k =>
    rw [if_neg nofun]
    split
    · next hy => exact hsecond nofun hy
    · next hy => exact hneither k rfl hy

/-- Settles O54: the reset and the timer by their conditions, the stages and the commit by their laws. -/
theorem bootStages : Obligations.BootStages := by
  intro s
  refine ⟨⟨rfl, rfl, rfl, rfl, rfl, rfl, rfl, rfl, rfl, rfl, rfl, powerUp_read s, execColdReset_runs, execColdReset_stuck⟩,
    execFailoverTimer_cases s, ?stages, commit_spec s, rfl⟩
  case stages =>
    intro t b off
    have hrun := bootRun_spec s
    -- The checks of the images stay opaque: which bank is bad is all that the stages ask.
    generalize s.badImage s.boot.fuse0 = bad at hrun ⊢
    obtain ⟨hfuses, hsamples, hbanks⟩ := hrun
    exact ⟨hfuses, hsamples, fun hsame hok =>
      either_bank (R := fun k => t.boot.bootst = bootstOf 2 true 2 k ∧ t.mem = s.mem) (hbanks hsame hok)⟩

-- Calls of the Harbourmaster.

/-- A key's slot takes the key, and its packet flows start again. -/
theorem install_spec (x : Security) (slot : Nat) (key : List Byte) : (x.install slot key).keys = x.keys.set slot key
    ∧ ∀ f, f ∈ (x.install slot key).flows ↔ f ∈ x.flows ∧ f / 2 ^ 24 % 64 ≠ slot :=
  ⟨rfl, fun f => by rw [Security.install, List.mem_filter, bne_iff_ne]⟩

section
variable {s : State} {k : Nat} {w : List Nat} (hcall : s.nextCall = some (k, w))
include hcall

theorem execBadCall_ends (hop : bits (callWord w 0) 7 0 = 0 ∨ 9 < bits (callWord w 0) 7 0) :
    execBadCall s = .next (s.endCall k w 1 0) := by
  unfold execBadCall
  rw [hcall]
  exact if_neg (by simp only [Bool.and_eq_true, decide_eq_true_eq]; omega)

-- CTX_CREATE.

section
variable (hop : bits (callWord w 0) 7 0 = 1)
  (hfields : (strayBits w 2 || callWord w 1 == 0 || decide (65535 < callWord w 1) || bits (callWord w 2) 15 12 != 0
    || callWord w 2 / 2 ^ 17 != 0 || bits (callWord w 2) 11 0 == 0) = false)
include hop hfields

theorem execCtxCreate_known (hctx : s.sec.contexts.find (callWord w 1) ≠ none) :
    execCtxCreate s = .next (s.endCall k w 3 0) :=
  callOp_at hcall hop ((ite_f hfields).trans (ite_t (some_of_ne hctx)))

variable (hctx : s.sec.contexts.find (callWord w 1) = none)
include hctx

theorem execCtxCreate_locked (hlocked : s.worldLocked (bits (callWord w 2) 11 0) = true) :
    execCtxCreate s = .next (s.endCall k w 16 0) :=
  callOp_at hcall hop ((ite_f hfields).trans ((ite_f (by rw [hctx]; rfl)).trans (ite_t hlocked)))

variable (hfree : s.worldLocked (bits (callWord w 2) 11 0) = false)
include hfree

/-- A context for a world that is there. -/
theorem execCtxCreate_joins (hold : bits (callWord w 2) 16 16 = 0) : let world := bits (callWord w 2) 11 0
    (s.sec.worlds.find world = none → execCtxCreate s = .next (s.endCall k w 6 0))
    ∧ ∀ x, s.sec.worlds.find world = some x → (x.slot = none → execCtxCreate s = .next (s.endCall k w 8 0))
      ∧ (x.slot ≠ none → execCtxCreate s = .next
        (({ s with sec := { s.sec with contexts := s.sec.contexts.set (callWord w 1) world } } : State).endCall k w 0 0)) := by
  intro world
  have hjoins : (!(bits (callWord w 2) 16 16 == 1)) = true := by rw [hold]; rfl
  let full := ((s.sec.worlds.find world).map fun (o : World) => o.slot).join
  have hgoes : ∀ {st r2 : Nat} {t : State}, (if (s.sec.worlds.find world).isNone then failCall s 6
      else if full.isNone then failCall s 8
      else some (0, 0, { s with sec := { s.sec with contexts := s.sec.contexts.set (callWord w 1) world } })) = some (st, r2, t) →
      execCtxCreate s = .next (t.endCall k w st r2) := fun h =>
    callOp_at hcall hop ((ite_f hfields).trans ((ite_f (by rw [hctx]; rfl)).trans ((ite_f hfree).trans ((ite_t hjoins).trans h))))
  refine ⟨fun hnone => hgoes (ite_t (by rw [hnone]; rfl)), fun x hx => ?some⟩
  case some =>
    have hthere : (s.sec.worlds.find world).isNone = false := by rw [hx]; rfl
    have hslot : full = x.slot := by simp only [full, hx]; rfl
    exact ⟨fun hnone => hgoes ((ite_f hthere).trans (ite_t (by rw [hslot, hnone]; rfl))),
      fun hsome => hgoes ((ite_f hthere).trans
        (ite_f (by rw [hslot]; exact Option.isNone_eq_false_iff.mpr (some_of_ne hsome))))⟩

/-- A context that makes its world, with a fresh key. -/
theorem execCtxCreate_makes (hnew : bits (callWord w 2) 16 16 = 1) : let world := bits (callWord w 2) 11 0
    s.sec.worlds.find world = none → s.sec.worlds.length < 4095 → ∀ slot, s.sec.freeSlot = some slot → s.sec.locked = false →
    ∀ x key, s.sec.generate 96 s.input.bytes = (x, some key) →
    execCtxCreate s = .next (({ s with sec := { x.install slot key with
      contexts := x.contexts.set (callWord w 1) world
      worlds := x.worlds.set world { gen := 0, slot := some slot } } } : State).endCall k w 0 slot) := by
  intro world hnone hroom slot hslot hopen x key hkey
  have hmakes : (!(bits (callWord w 2) 16 16 == 1)) = false := by rw [hnew]; rfl
  refine callOp_at hcall hop ((ite_f hfields).trans ((ite_f (by rw [hctx]; rfl)).trans ((ite_f hfree).trans
    ((ite_f hmakes).trans ((ite_f (by rw [hnone]; rfl)).trans ((if_neg (Nat.not_le.mpr hroom)).trans ?_))))))
  simp only [hslot, hopen, hkey, Bool.false_eq_true, if_false]
  rfl

end

-- CTX_DESTROY.

theorem execCtxDestroy_cases (hop : bits (callWord w 0) 7 0 = 2) (hstray : strayBits w 1 = false)
    (hhigh : callWord w 1 ≤ 65535) : let a := callWord w 1
    (s.sec.contexts.find a = none → execCtxDestroy s = .next (s.endCall k w 4 0))
    ∧ (s.sec.contexts.find a ≠ none → (s.contextBusy a = true → execCtxDestroy s = .next (s.endCall k w 5 0))
      ∧ (s.contextBusy a = false → execCtxDestroy s = .next ((s.endContext a).endCall k w 0 0))) := by
  intro a
  have hfields : (strayBits w 1 || decide (65535 < callWord w 1)) = false := by simp [hstray, hhigh]
  refine ⟨fun hnone => callOp_at hcall hop ((ite_f hfields).trans (ite_t (by rw [hnone]; rfl))), fun hsome => ?_⟩
  have hthere : (s.sec.contexts.find a).isNone = false := Option.isNone_eq_false_iff.mpr (some_of_ne hsome)
  exact ⟨fun hbusy => callOp_at hcall hop ((ite_f hfields).trans ((ite_f hthere).trans (ite_t hbusy))),
    fun hidle => callOp_at hcall hop ((ite_f hfields).trans ((ite_f hthere).trans (ite_f hidle)))⟩

-- WORLD_SUSPEND, WORLD_RESUME, WORLD_DESTROY.

/-- The state after a world with its key in a slot has been suspended into the blob at `b` (25 Table 25-4). -/
def State.worldSuspended (s : State) (a b slot : Nat) (gen : W32) : State :=
  let t := s.shootWorld a
  let head := blobHead a gen
  let blob := head ++ keyWrap t.sec.wrapKey (head ++ padded 96 (Map.get [] t.sec.keys slot)) ++ leBytes 8 0
  let u := (t.performStore b blob).freeKey slot
  { u with sec := { u.sec with worlds := u.sec.worlds.set a { gen := gen, slot := none } } }

section
variable (hstray : strayBits w 2 = false) (hworld : callWord w 1 ≤ 4095) (hblob : s.blobOk (callWord w 2) = true)
include hstray hworld hblob

omit hcall in
theorem blobCall_fields : (strayBits w 2 || decide (4095 < callWord w 1) || !s.blobOk (callWord w 2)) = false := by
  simp [hstray, hworld, hblob]

theorem execWorldSuspend_cases (hop : bits (callWord w 0) 7 0 = 3) : let a := callWord w 1
    (s.sec.worlds.find a = none → execWorldSuspend s = .next (s.endCall k w 6 0))
    ∧ ∀ x, s.sec.worlds.find a = some x → (x.slot = none → execWorldSuspend s = .next (s.endCall k w 8 0))
      ∧ ∀ slot, x.slot = some slot →
        ((s.contextsOf a).any s.contextBusy = true → execWorldSuspend s = .next (s.endCall k w 7 0))
        ∧ ((s.contextsOf a).any s.contextBusy = false →
          execWorldSuspend s = .next ((s.worldSuspended a (callWord w 2) slot (x.gen + 1)).endCall k w 0 0)) := by
  intro a
  have hfields := blobCall_fields hstray hworld hblob
  refine ⟨fun hnone => callOp_at hcall hop ((ite_f hfields).trans (by rw [hnone]; rfl)),
    fun x hx => ⟨fun hslot => callOp_at hcall hop ((ite_f hfields).trans (by rw [hx]; dsimp only; rw [hslot]; rfl)),
      fun slot hslot => ⟨fun hbusy => ?_, fun hidle => ?_⟩⟩⟩
  · refine callOp_at hcall hop ((ite_f hfields).trans ?_)
    rw [hx]
    dsimp only
    rw [hslot]
    exact ite_t hbusy
  · refine callOp_at hcall hop ((ite_f hfields).trans ?_)
    rw [hx]
    dsimp only
    rw [hslot]
    exact ite_f hidle

end

/-- Whether the bytes `l` of a blob hold the wrapped key `p` of the world `a`, unpoisoned (R333). -/
def State.blobSound (s : State) (a b : Nat) : Prop :=
  let l := s.bytes b 128
  let p := keyUnwrap s.sec.wrapKey ((l.drop 8).take 112)
  fieldAt l 0 2 = 0x5742 ∧ bits (fieldAt l 0 8) 27 16 = a ∧ p.take 8 = l.take 8
    ∧ keyWrap s.sec.wrapKey p = (l.drop 8).take 112 ∧ s.poisoned b 128 = false

omit hcall in
theorem blobSound_iff (s : State) (a b : Nat) : (let l := s.bytes b 128
    let p := keyUnwrap s.sec.wrapKey ((l.drop 8).take 112)
    fieldAt l 0 2 == 0x5742 && bits (fieldAt l 0 8) 27 16 == a && p.take 8 == l.take 8
      && keyWrap s.sec.wrapKey p == (l.drop 8).take 112 && !s.poisoned b 128) = true ↔ s.blobSound a b := by
  simp only [State.blobSound, Bool.and_eq_true, beq_iff_eq, Bool.not_eq_true', and_assoc]

section
variable (hop : bits (callWord w 0) 7 0 = 4) (hstray : strayBits w 2 = false) (hworld : callWord w 1 ≤ 4095)
  (hblob : s.blobOk (callWord w 2) = true) {x : World} (hx : s.sec.worlds.find (callWord w 1) = some x)
include hop hstray hworld hblob hx

theorem execWorldResume_placed (hslot : x.slot ≠ none) : execWorldResume s = .next (s.endCall k w 2 0) := by
  refine callOp_at hcall hop ((ite_f (blobCall_fields hstray hworld hblob)).trans ?_)
  rw [hx]
  exact ite_t (some_of_ne hslot)

variable (hslot : x.slot = none)
include hslot

theorem execWorldResume_unsound (hbad : ¬s.blobSound (callWord w 1) (callWord w 2)) :
    execWorldResume s = .next (s.endCall k w 13 0) := by
  refine callOp_at hcall hop ((ite_f (blobCall_fields hstray hworld hblob)).trans ?_)
  rw [hx]
  refine (ite_f (by rw [hslot]; rfl)).trans (ite_t ?_)
  rw [Bool.not_eq_true', Bool.eq_false_iff]
  exact mt (blobSound_iff s _ _).mp hbad

/-- A sound blob is of the world's generation, and gives its key back to a free slot. -/
theorem execWorldResume_sound (hgood : s.blobSound (callWord w 1) (callWord w 2)) : let l := s.bytes (callWord w 2) 128
    let p := keyUnwrap s.sec.wrapKey ((l.drop 8).take 112)
    (fieldAt l 4 4 ≠ x.gen.toNat → execWorldResume s = .next (s.endCall k w 14 0))
    ∧ (fieldAt l 4 4 = x.gen.toNat → (s.sec.freeSlot = none → execWorldResume s = .next (s.endCall k w 10 0))
      ∧ ∀ slot, s.sec.freeSlot = some slot → execWorldResume s =
        .next (({ s with sec := { s.sec.install slot (p.drop 8) with
          worlds := s.sec.worlds.set (callWord w 1) { x with slot := some slot } } } : State).endCall k w 0 0)) := by
  intro l p
  have hfields := blobCall_fields hstray hworld hblob
  have hplaced : x.slot.isSome = false := by rw [hslot]; rfl
  have hsound := (Bool.not_eq_false' ..).mpr ((blobSound_iff s (callWord w 1) (callWord w 2)).mpr hgood)
  refine ⟨fun hgen => ?_, fun hgen => ⟨fun hfull => ?_, fun slot hfree => ?_⟩⟩
  · refine callOp_at hcall hop ((ite_f hfields).trans ?_)
    rw [hx]
    exact (ite_f hplaced).trans ((ite_f hsound).trans (ite_t (bne_iff_ne.mpr hgen)))
  · refine callOp_at hcall hop ((ite_f hfields).trans ?_)
    rw [hx]
    refine (ite_f hplaced).trans ((ite_f hsound).trans ((ite_f (bne_eq_false_iff_eq.mpr hgen)).trans ?_))
    rw [hfull]
    rfl
  · refine callOp_at hcall hop ((ite_f hfields).trans ?_)
    rw [hx]
    refine (ite_f hplaced).trans ((ite_f hsound).trans ((ite_f (bne_eq_false_iff_eq.mpr hgen)).trans ?_))
    rw [hfree]

end

/-- The state after a world is forgotten: its key, its name, and the sectors under its key (25 R339). -/
def State.worldForgotten (s : State) (a : Nat) (x : World) : State :=
  let t := match x.slot with
    | some slot => s.freeKey slot
    | none => s
  { t with
    cipher := t.cipher.map fun c => (c.1, if c.2 == a then noWorld else c.2)
    sec := { t.sec with worlds := t.sec.worlds.erase a, halted := t.sec.halted.filter fun h => h != a } }

omit hcall in
theorem worldForgotten_spec (s : State) {a : Nat} (ha : a ≤ 4095) (x : World) : let t := s.worldForgotten a x
    t.mem = s.mem ∧ t.sec.worlds.find a = none ∧ (∀ c, c ≠ a → t.sec.worlds.find c = s.sec.worlds.find c)
    ∧ (∀ slot, x.slot = some slot → t.sec.keys.find slot = none) ∧ ∀ c ∈ t.cipher, c.2 ≠ a := by
  intro t
  have hkeyed : ∀ (m : Map Nat), ∀ c ∈ m.map fun c => (c.1, if c.2 == a then noWorld else c.2), c.2 ≠ a := by
    intro m c hc
    obtain ⟨d, -, rfl⟩ := List.mem_map.mp hc
    dsimp only
    split
    · unfold noWorld; omega
    · next h => exact fun e => h (beq_iff_eq.mpr e)
  have ht : t = s.worldForgotten a x := rfl
  unfold State.worldForgotten at ht
  cases hslot : x.slot with
  | none =>
    rw [hslot] at ht
    rw [ht]
    exact ⟨rfl, Map.find_erase_same _ _, fun c hc => Map.find_erase_other _ (Ne.symm hc), nofun, hkeyed _⟩
  | some slot =>
    rw [hslot] at ht
    rw [ht]
    refine ⟨rfl, Map.find_erase_same _ _, fun c hc => Map.find_erase_other _ (Ne.symm hc), fun j hj => ?_, hkeyed _⟩
    cases hj
    exact Map.find_erase_same _ _

theorem execWorldDestroy_cases (hop : bits (callWord w 0) 7 0 = 5) (hstray : strayBits w 1 = false)
    (hworld : callWord w 1 ≤ 4095) : let a := callWord w 1
    (s.sec.worlds.find a = none → execWorldDestroy s = .next (s.endCall k w 6 0))
    ∧ ∀ x, s.sec.worlds.find a = some x → (s.contextsOf a ≠ [] → execWorldDestroy s = .next (s.endCall k w 7 0))
      ∧ (s.contextsOf a = [] → execWorldDestroy s = .next ((s.worldForgotten a x).endCall k w 0 0)) := by
  intro a
  have hfields : (strayBits w 1 || decide (4095 < callWord w 1)) = false := by simp [hstray, hworld]
  refine ⟨fun hnone => callOp_at hcall hop ((ite_f hfields).trans (by rw [hnone]; rfl)),
    fun x hx => ⟨fun hlive => ?_, fun hempty => ?_⟩⟩
  · refine callOp_at hcall hop ((ite_f hfields).trans ?_)
    rw [hx]
    exact ite_t (by simpa using hlive)
  · refine callOp_at hcall hop ((ite_f hfields).trans ?_)
    rw [hx]
    exact ite_f (by rw [show s.contextsOf (callWord w 1) = [] from hempty]; rfl)

-- HANDLE_SET, HANDLE_CLEAR.

section
variable {b : Block} (hb : s.blocks.find (handleArgs w).1 = some b) (hblock : callWord w 1 < 2 ^ 23)
include hb hblock

theorem execHandleSet_cases (hop : bits (callWord w 0) 7 0 = 6) (hstray : strayBits w 2 = false)
    (hpeer : isPeer (BitVec.ofNat 64 (callWord w 2 % 2 ^ 44)) = true) : let p := handleArgs w
    ((b.handle p.2).getLsbD 0 = true → execHandleSet s = .next (s.endCall k w 15 0))
    ∧ ((b.handle p.2).getLsbD 0 = false → execHandleSet s = .next
      ((s.setBlkAt p.1 { b with handles := b.handles.set p.2 (BitVec.ofNat 64 (callWord w 2 % 2 ^ 44)) }).endCall k w 0 0)) := by
  intro p
  have hfields : (strayBits w 2 || decide (2 ^ 23 ≤ callWord w 1) || !isPeer (BitVec.ofNat 64 (callWord w 2 % 2 ^ 44))) = false := by
    rw [hstray, hpeer, decide_eq_false (Nat.not_le.mpr hblock)]
    rfl
  refine ⟨fun hset => callOp_at hcall hop ?_, fun hclear => callOp_at hcall hop ?_⟩
  · dsimp only
    rw [hb]
    exact (ite_f hfields).trans (ite_t hset)
  · dsimp only
    rw [hb]
    exact (ite_f hfields).trans (ite_f hclear)

theorem execHandleClear_cases (hop : bits (callWord w 0) 7 0 = 7) (hstray : strayBits w 1 = false) : let p := handleArgs w
    ((b.handle p.2).getLsbD 0 = false → execHandleClear s = .next (s.endCall k w 4 0))
    ∧ ((b.handle p.2).getLsbD 0 = true → (s.handleInUse p.1 p.2 = true → execHandleClear s = .next s)
      ∧ (s.handleInUse p.1 p.2 = false → execHandleClear s = .next
        ((s.setBlkAt p.1 { b with handles := b.handles.set p.2 0 }).endCall k w 0 0))) := by
  intro p
  have hfields : (strayBits w 1 || decide (2 ^ 23 ≤ callWord w 1)) = false := by
    rw [hstray, decide_eq_false (Nat.not_le.mpr hblock)]
    rfl
  have hthere : (b.handle p.2).getLsbD 0 = true → (!(b.handle p.2).getLsbD 0) = false := fun h => by rw [h]; rfl
  refine ⟨fun hclear => callOp_at hcall hop ?_,
    fun hset => ⟨fun hused => callOp_wait hcall hop ?_, fun hfree => callOp_at hcall hop ?_⟩⟩
  · dsimp only
    rw [hb]
    exact (ite_f hfields).trans (ite_t (by rw [Bool.not_eq_true']; exact hclear))
  · dsimp only
    rw [hb]
    exact (ite_f hfields).trans ((ite_f (hthere hset)).trans (ite_t hused))
  · dsimp only
    rw [hb]
    exact (ite_f hfields).trans ((ite_f (hthere hset)).trans (ite_f hfree))

end

-- VAULT_GRANT, ENTROPY_RESTART.

theorem execVaultGrant_cases (hop : bits (callWord w 0) 7 0 = 8) : let a := callWord w 1
    let b := callWord w 2
    (s.sec.contexts.find a = none → execVaultGrant s = .next (s.endCall k w 4 0))
    ∧ (s.sec.contexts.find a ≠ none → strayBits w 3 = false → b ≤ 11 →
      (∀ m ∈ s.net, 2048 ≤ m.dst → m.dst < 2816 → (m.dst - 2048) / 64 = b →
        (s.launchAt (s.blkAt (s.grpAt m.src).blk).launch).asid ≠ a) →
      let t := s.shootdown { asid := a, all := true, glob := false, va := 0, len := 0, ending := .word 0 }
      execVaultGrant s = .next
        (({ t with vaultMask := t.vaultMask.set (a * 16 + b) (BitVec.ofNat 64 (callWord w 3)) } : State).endCall k w 0 0)) := by
  intro a b
  refine ⟨fun hnone => callOp_at hcall hop (ite_t (by rw [hnone]; rfl)), fun hsome hstray hdie hsent => ?_⟩
  have hthere : (s.sec.contexts.find a).isNone = false := Option.isNone_eq_false_iff.mpr (some_of_ne hsome)
  have hfields : (strayBits w 3 || decide (11 < callWord w 2)) = false := by
    rw [hstray, decide_eq_false (Nat.not_lt.mpr hdie)]
    rfl
  refine callOp_at hcall hop ((ite_f hthere).trans ((ite_f hfields).trans (ite_f (List.any_eq_false.mpr fun m hm => ?_))))
  simp only [Bool.and_eq_true, decide_eq_true_eq, beq_iff_eq]
  rintro ⟨⟨⟨hlow, hhigh⟩, hat⟩, hasid⟩
  exact hsent m hm hlow hhigh hat hasid

theorem execEntropyRestart_cases (hop : bits (callWord w 0) 7 0 = 9) (hstray : strayBits w 0 = false) :
    let l := s.input.bytes.take 1024
    (blockOk l = true → execEntropyRestart s =
      .next (({ s with sec := { s.sec with drbg := drbgReseed s.sec.drbg l, locked := false } } : State).endCall k w 0 0))
    ∧ (blockOk l = false → execEntropyRestart s =
      .next (({ s with sec := { s.sec with trap31 := s.sec.trap31 + 1 } } : State).endCall k w 11 0)) :=
  ⟨fun hok => callOp_at hcall hop ((ite_f hstray).trans (ite_t hok)),
    fun hbad => callOp_at hcall hop ((ite_f hstray).trans (ite_f hbad))⟩

end

/-- Settles O55: each call by its fields, then by its own conditions in their order. -/
theorem harbourmasterCallsComplete : Obligations.HarbourmasterCallsComplete := by
  intro s k w hcall op a b fails
  refine ⟨endCall_spec s k w, install_spec, execBadCall_ends hcall, ?create, ?destroy, ?suspend, ?resume, ?forget, ?handles,
    execVaultGrant_cases hcall, execEntropyRestart_cases hcall⟩
  case create =>
    intro hop hstray hlow hhigh hzero hword hworld world
    have hfields : (strayBits w 2 || callWord w 1 == 0 || decide (65535 < callWord w 1) || bits (callWord w 2) 15 12 != 0
        || callWord w 2 / 2 ^ 17 != 0 || bits (callWord w 2) 11 0 == 0) = false := by
      rw [show callWord w 2 / 2 ^ 17 = 0 from Nat.div_eq_of_lt hword]
      simp [hstray, show callWord w 1 ≠ 0 from hlow, show callWord w 1 ≤ 65535 from hhigh,
        show bits (callWord w 2) 15 12 = 0 from hzero, show bits (callWord w 2) 11 0 ≠ 0 from hworld]
    refine ⟨execCtxCreate_known hcall hop hfields, execCtxCreate_locked hcall hop hfields, fun hctx hfree =>
      ⟨execCtxCreate_joins hcall hop hfields hctx hfree, fun hnew hnone hroom slot hslot => ?_⟩⟩
    exact execCtxCreate_makes hcall hop hfields hctx hfree hnew hnone hroom slot hslot
  case destroy =>
    intro hop hstray hhigh
    obtain ⟨hnone, hthere⟩ := execCtxDestroy_cases hcall hop hstray hhigh
    refine ⟨hnone, fun hsome => ?_⟩
    obtain ⟨hbusy, hends⟩ := hthere hsome
    exact ⟨hbusy, fun hidle => ⟨hends hidle, endContext_spec s a⟩⟩
  case suspend => exact fun hop hstray hworld hblob => execWorldSuspend_cases hcall hstray hworld hblob hop
  case resume =>
    intro hop hstray hworld hblob x hx
    refine ⟨execWorldResume_placed hcall hop hstray hworld hblob hx, fun hslot => ?_⟩
    by_cases hsound : s.blobSound a b
    · exact (if_pos hsound).mpr (execWorldResume_sound hcall hop hstray hworld hblob hx hslot hsound)
    · exact (if_neg hsound).mpr (execWorldResume_unsound hcall hop hstray hworld hblob hx hslot hsound)
  case forget =>
    intro hop hstray hworld
    obtain ⟨hnone, hthere⟩ := execWorldDestroy_cases hcall hop hstray hworld
    refine ⟨hnone, fun x hx => ?_⟩
    obtain ⟨hlive, hempty⟩ := hthere x hx
    exact ⟨hlive, fun h => ⟨_, hempty h, worldForgotten_spec s hworld x⟩⟩
  case handles =>
    intro p blk hblk hblock
    exact ⟨fun hop hstray hpeer => execHandleSet_cases hcall hblk hblock hop hstray hpeer,
      fun hop hstray => execHandleClear_cases hcall hblk hblock hop hstray⟩

end Sys2Proof.Machine

/-! The statement of the host queue pairs and their commands (16 R273, R279; 20 R293, R298; 23 R320, R322, R326). -/
namespace Sys2Proof.Machine

-- Doorbells and heads.

theorem hostQueueWrites_shut {s : State} (h : s.portOpen s.input.c = false) :
    execHqDoorbell s = .next (s.dropPosted s.input.c) ∧ execHqCompletionHead s = .next (s.dropPosted s.input.c) := by
  have hshut : (!s.portOpen s.input.c) = true := by rw [h]; rfl
  exact ⟨ite_t hshut, ite_t hshut⟩

section
variable {s : State} (hopen : s.portOpen s.input.c = true)
include hopen

theorem portOpen_not : (!s.portOpen s.input.c) = false := by rw [hopen]; rfl

theorem execHqCompletionHead_open : let p := s.input.a % 4
    let h := s.input.b % 32
    execHqCompletionHead s = .next (s.setHq p h { s.hq p h with compHead := s.input.val.setWidth 16 }) :=
  ite_f (portOpen_not hopen)

theorem execHqDoorbell_open : let p := s.input.a % 4
    let h := s.input.b % 32
    let q := s.hq p h
    let v : Half := s.input.val.setWidth 16
    ((v - q.subHead).toNat ≤ q.size → execHqDoorbell s = .next (s.setHq p h { q with subTail := v }))
    ∧ (q.size < (v - q.subHead).toNat → execHqDoorbell s =
      .next ((s.countReg (subBlock p (0x1400 + 64 * h))).setHq p h { q with broken := true })) :=
  ⟨fun hfits => (ite_f (portOpen_not hopen)).trans (if_neg (Nat.not_lt.mpr hfits)),
    fun hover => (ite_f (portOpen_not hopen)).trans (if_pos hover)⟩
end

-- The next entry of a pair.

section
variable {s : State}

theorem hostCommands_none (h : s.hostEntry (s.input.a % 4) (s.input.b % 32) = none) : execHostNop s = .next s
    ∧ execHostLaunch s = .next s ∧ execHostShootdown s = .next s ∧ execPageTake s = .next s ∧ execPageReturn s = .next s
    ∧ execBadCommand s = .next s :=
  ⟨hostCommand_none h, hostCommand_none h, hostCommand_none h, hostCommand_none h, hostCommand_none h, hostCommand_none h⟩

theorem hostCommands_line {pos : Nat} {l : List Byte} {line : Nat × Bool}
    (hentry : s.hostEntry (s.input.a % 4) (s.input.b % 32) = some (pos, l))
    (hline : s.pairLine (s.input.a % 4) (s.input.b % 32) pos = some line) :
    execHostNop s = .next (s.askLine line) ∧ execHostLaunch s = .next (s.askLine line)
    ∧ execHostShootdown s = .next (s.askLine line) ∧ execPageTake s = .next (s.askLine line)
    ∧ execPageReturn s = .next (s.askLine line) ∧ execBadCommand s = .next (s.askLine line) :=
  ⟨hostCommand_line hentry hline, hostCommand_line hentry hline, hostCommand_line hentry hline,
    hostCommand_line hentry hline, hostCommand_line hentry hline, hostCommand_line hentry hline⟩
end

section
variable {s : State} {pos : Nat} {l : List Byte} (hentry : s.hostEntry (s.input.a % 4) (s.input.b % 32) = some (pos, l))
  (hline : s.pairLine (s.input.a % 4) (s.input.b % 32) pos = none)
include hentry hline

theorem execHostNop_completes (hop : fieldAt l 0 1 = 0) :
    execHostNop s = .next ((s.takeEntry (s.input.a % 4) (s.input.b % 32)).complete (s.input.a % 4) (s.input.b % 32) pos 0) :=
  hostCommand_some hentry hline (beq_iff_eq.mpr hop)

theorem execBadCommand_completes (hop : 4 < fieldAt l 0 1) : execBadCommand s =
    .next ((s.takeEntry (s.input.a % 4) (s.input.b % 32)).complete (s.input.a % 4) (s.input.b % 32) pos 0x100) :=
  hostCommand_some hentry hline (decide_eq_true hop)

theorem execHostShootdown_cases (hop : fieldAt l 0 1 = 2) : let p := s.input.a % 4
    let h := s.input.b % 32
    let t := s.takeEntry p h
    let v : BitVec 256 := BitVec.ofNat 256 (fieldAt l 8 32)
    (bits v.toNat 15 0 ≠ (s.hq p h).asid → execHostShootdown s = .next (t.complete p h pos 0x101))
    ∧ (bits v.toNat 15 0 = (s.hq p h).asid →
      execHostShootdown s = .next { t with shoots := t.shoots ++ [shootOf v (.command p h pos)] }) := by
  intro p h t v
  have hexec : execHostShootdown s = _ := hostCommand_some hentry hline (beq_iff_eq.mpr hop)
  exact ⟨fun hother => hexec.trans (ite_t (bne_iff_ne.mpr hother)),
    fun hown => hexec.trans (ite_f (bne_eq_false_iff_eq.mpr hown))⟩

-- Pages (20 R298).

theorem execPageTake_cases (hop : fieldAt l 0 1 = 3) : let p := s.input.a % 4
    let h := s.input.b % 32
    let t := s.takeEntry p h
    let asid := fieldAt l 8 2
    let va := fieldAt l 16 8 % 2 ^ 57
    (asid ≠ (s.hq p h).asid → execPageTake s = .next (t.complete p h pos 0x101))
    ∧ (asid = (s.hq p h).asid → (s.leafOf asid va = none → execPageTake s = .next (t.complete p h pos (freeStatus s)))
      ∧ ∀ a e own w x, s.leafOf asid va = some a → walk s asid va = .leaf e own w x →
        (own = 2 → execPageTake s = .next (t.complete p h pos 0))
        ∧ (own ≠ 2 → s.lineWait a.1 (8 * a.2) true = none → let u := t.setOwn a 1
          execPageTake s = .next { u with shoots := u.shoots ++ [{ asid := asid, all := false, glob := e.asid == 0, va := e.va
                                                                   len := e.size, ending := .take p h pos asid va }] })) := by
  dsimp only
  have hexec : execPageTake s = _ := hostCommand_some hentry hline (beq_iff_eq.mpr hop)
  refine ⟨fun hother => hexec.trans (ite_t (bne_iff_ne.mpr hother)), fun hown => ?_⟩
  have howned := hexec.trans (ite_f (bne_eq_false_iff_eq.mpr hown))
  refine ⟨fun hnone => howned.trans ?_,
    fun a e own w x hleaf hwalk => ⟨fun htaken => howned.trans ?_, fun hfree hidle => howned.trans ?_⟩⟩
  · rw [hnone]
  · rw [hleaf, hwalk]
    exact ite_t (beq_iff_eq.mpr htaken)
  · rw [hleaf, hwalk]
    refine (ite_f (beq_eq_false_iff_ne.mpr hfree)).trans (whenLines_free ?_)
    rw [List.findSome?_cons, hidle]
    rfl

theorem execPageReturn_cases (hop : fieldAt l 0 1 = 4) : let p := s.input.a % 4
    let h := s.input.b % 32
    let t := s.takeEntry p h
    let asid := fieldAt l 8 2
    let va := fieldAt l 16 8 % 2 ^ 57
    (asid ≠ (s.hq p h).asid → execPageReturn s = .next (t.complete p h pos 0x101))
    ∧ (asid = (s.hq p h).asid → (s.leafOf asid va = none → execPageReturn s = .next (t.complete p h pos (freeStatus s)))
      ∧ ∀ a, s.leafOf asid va = some a → s.lineWait a.1 (8 * a.2) true = none →
        execPageReturn s = .next ((t.setOwn a 0).complete p h pos 0)) := by
  dsimp only
  have hexec : execPageReturn s = _ := hostCommand_some hentry hline (beq_iff_eq.mpr hop)
  refine ⟨fun hother => hexec.trans (ite_t (bne_iff_ne.mpr hother)), fun hown => ?_⟩
  have howned := hexec.trans (ite_f (bne_eq_false_iff_eq.mpr hown))
  refine ⟨fun hnone => howned.trans ?_, fun a hleaf hidle => howned.trans ?_⟩
  · rw [hnone]
  · rw [hleaf]
    refine whenLines_free ?_
    rw [List.findSome?_cons, hidle]
    rfl

-- Launches (16 R273).

theorem execHostLaunch_cases (hop : fieldAt l 0 1 = 1) : let p := s.input.a % 4
    let h := s.input.b % 32
    let q := s.hq p h
    let t := s.takeEntry p h
    let j := bits q.ctl.toNat 5 1
    let n := s.jetty j
    let me := 32 * p + h
    (n.held.isSome = true → execHostLaunch s = .next s)
    ∧ (n.held = none → n.failed.contains me = true →
      execHostLaunch s = .next ((t.setJetty j { n with failed := n.failed.erase me }).complete p h pos 1))
    ∧ (n.held = none → n.failed.contains me = false →
      (∀ va f, s.readLaunch p q.asid (fieldAt l 8 8) = .error (.page va f) →
        execHostLaunch s = .next (s.jettyParks p j q.asid me va f))
      ∧ (∀ w, s.readLaunch p q.asid (fieldAt l 8 8) = .error (.line w) → execHostLaunch s = .next (s.askLine w))
      ∧ (s.readLaunch p q.asid (fieldAt l 8 8) = .ok none → execHostLaunch s = .next (t.complete p h pos 1))
      ∧ ∀ r, s.readLaunch p q.asid (fieldAt l 8 8) = .ok (some r) → let o := s.launchStatus r p q.asid 0 false
        execHostLaunch s = .next ((if o.1 = 0 then t.enqueue o.2 false else t).complete p h pos o.1)) := by
  dsimp only
  have hexec : execHostLaunch s = _ := hostCommand_some hentry hline (beq_iff_eq.mpr hop)
  refine ⟨fun hheld => hexec.trans (ite_t hheld),
    fun hnone hfailed => hexec.trans ((ite_f (by rw [hnone]; rfl)).trans (ite_t hfailed)), fun hnone hwhole => ?_⟩
  have hreads := hexec.trans ((ite_f (by rw [hnone]; rfl)).trans (ite_f hwhole))
  refine ⟨fun va f hread => hreads.trans ?_, fun w hread => hreads.trans ?_, fun hread => hreads.trans ?_,
    fun r hread => hreads.trans ?_⟩
  · rw [hread]
  · rw [hread]
  · rw [hread]
  · rw [hread]
    simp only [beq_iff_eq]
end

/-- Settles O56: writes of a pair by their port, commands by their entry, a completion by its law. -/
theorem hostQueuesServed : Obligations.HostQueuesServed := by
  intro s i p h q
  refine ⟨⟨hostQueueWrites_shut, fun hopen => ⟨execHqCompletionHead_open hopen, execHqDoorbell_open hopen⟩⟩,
    hostCommands_none, fun pos l line hentry hline => ?line, ?commands, fun p h pos st => ?completion⟩
  case line =>
    obtain ⟨hnop, hlaunch, hshoot, htake, hreturn, hbad⟩ := hostCommands_line hentry hline
    simp only [List.forall_mem_cons]
    exact ⟨hnop, hlaunch, hshoot, htake, hreturn, hbad, List.forall_mem_nil _⟩
  case commands =>
    intro pos l hentry hline
    exact ⟨execHostNop_completes hentry hline, execBadCommand_completes hentry hline, execHostShootdown_cases hentry hline,
      execPageTake_cases hentry hline, execPageReturn_cases hentry hline, execHostLaunch_cases hentry hline⟩
  case completion =>
    obtain ⟨hpair, hwrites⟩ := complete_spec s p h pos st
    refine ⟨hpair, fun hwf => ?_⟩
    obtain ⟨-, hentry, hothers⟩ := hwrites hwf
    exact ⟨hentry, hothers⟩

end Sys2Proof.Machine

/-! The statement of the port lease, of link training and of the TDISP interface (23 R315, R321-R323, R326). -/
namespace Sys2Proof.Machine

-- The lease.

/-- The count of a request's reserved bits leaves memory, groups and the hosts' side. -/
theorem leaseReserved_kept (s : State) (v : W64) :
    (s.leaseReserved v).mem = s.mem ∧ (s.leaseReserved v).groups = s.groups ∧ (s.leaseReserved v).host = s.host := by
  unfold State.leaseReserved
  split
  · exact ⟨rfl, rfl, rfl⟩
  · rw [countReg_kept]
    exact ⟨rfl, rfl, rfl⟩

theorem leaseReserved_eq (s : State) (v : W64) :
    s.leaseReserved v = if v &&& 0xFFFE00000000FFFE = 0 then s else s.countReg (pd0 0x408) := by
  simp only [State.leaseReserved, beq_iff_eq]

/-- The state with the lease `m`, its request's reserved bits counted. -/
def State.leased (s : State) (m : Lease) : State :=
  ({ s with host := { s.host with lease := m } } : State).leaseReserved s.input.val

theorem execHlreqRenew_eq (s : State) : let l := s.host.lease
    let p := s.input.a % 2
    let r := s.leaseResult p false s.input.val
    execHlreqRenew s = .next (s.leased
      { l with res := l.res.set p r, exp := if r = 0 then s.leaseEnd s.input.val else l.exp }) := by
  intro l p r
  unfold execHlreqRenew State.leased
  dsimp only
  by_cases h : r = 0
  · rw [if_pos (beq_iff_eq.mpr h), if_pos h]
  · rw [if_neg (mt beq_iff_eq.mp h), if_neg h]

theorem execHlreqClaim_refused {s : State} : let l := s.host.lease
    let p := s.input.a % 2
    let c := s.leaseResult p true s.input.val
    c ≠ 0 → execHlreqClaim s = .next (s.leased { l with res := l.res.set p c }) :=
  fun h => if_pos (bne_iff_ne.mpr h)

/-- The hosts' side after an accepted claim of the port `p`. -/
def State.claimed (s : State) (p : Nat) : State :=
  let l := s.host.lease
  let m := { l with res := l.res.set p 0, holder := p, st := 1, epoch := l.epoch + 1, exp := s.leaseEnd s.input.val }
  { s with host := { s.host with
    lease := m, fenced := s.host.fenced.filter fun x => x != p, irqs := [], sent := s.host.sent ++ s.host.irqs } }

theorem execHlreqClaim_accepted {s : State} (hc : s.leaseResult (s.input.a % 2) true s.input.val = 0)
    (hrun : s.host.tdisp ≠ .run) :
    execHlreqClaim s = .next ((s.claimed (s.input.a % 2)).leaseReserved s.input.val) := by
  have hstays : (s.claimed (s.input.a % 2)).interfaceError = s.claimed (s.input.a % 2) := (interfaceError_spec _).2 hrun
  unfold execHlreqClaim
  dsimp only
  rw [hc, if_neg (by decide)]
  exact congrArg (fun t : State => Host.Outcome.next (t.leaseReserved s.input.val)) hstays

theorem claimed_spec {s : State} (p : Nat) : let t := (s.claimed p).leaseReserved s.input.val
    let l := s.host.lease
    t.mem = s.mem ∧ t.groups = s.groups
    ∧ t.host.lease = { l with res := l.res.set p 0, holder := p, st := 1, epoch := l.epoch + 1, exp := s.leaseEnd s.input.val }
    ∧ t.host.irqs = [] ∧ t.host.sent = s.host.sent ++ s.host.irqs
    ∧ ∀ x, x ∈ t.host.fenced ↔ x ∈ s.host.fenced ∧ x ≠ p := by
  intro t l
  obtain ⟨hmem, hgroups, hhost⟩ := leaseReserved_kept (s.claimed p) s.input.val
  refine ⟨hmem, hgroups, ?_⟩
  rw [hhost]
  refine ⟨rfl, rfl, rfl, fun x => ?_⟩
  show x ∈ s.host.fenced.filter _ ↔ _
  rw [List.mem_filter, bne_iff_ne]

theorem execLeaseExpiry_stays {s : State} (h : s.host.lease.st ≠ 1 ∨ s.tide.toNat < s.host.lease.exp.toNat) :
    execLeaseExpiry s = .next s :=
  if_pos (by simpa using h)

theorem execLeaseExpiry_ends {s : State} (hst : s.host.lease.st = 1) (hexp : s.host.lease.exp.toNat ≤ s.tide.toNat) :
    let t := s.fence s.host.lease.holder
    execLeaseExpiry s =
      .next (({ t with host := { t.host with lease := { t.host.lease with st := 2 } } } : State)).interfaceError :=
  if_neg (by simp [hst, hexp])

-- Links.

/-- A link trains from down only, and at a pier port only to CXL 3.1 at ×16 (R315). -/
theorem execLinkTraining_cases (s : State) : let i := s.input
    let b := i.b % 6
    let k := 8 * (i.a % 2) + b
    let cxl := i.link = .cxl31 ∨ i.link = .cxl20
    let old : Link := Map.get {} s.host.links k
    let up : Link :=
      { mode := i.link, x8 := i.flag, ideIo := i.val.getLsbD 0, ideCxl := decide (cxl ∧ i.val.getLsbD 1 = true) }
    (old.mode ≠ .down → execLinkTraining s = .next s)
    ∧ (old.mode = .down → i.link ≠ .down → (b = 0 ∨ (i.link = .cxl31 ∧ i.flag = false)) →
      execLinkTraining s = .next ((s.linkUp b).setLink k up))
    ∧ (old.mode = .down → i.link = .down ∨ (b ≠ 0 ∧ (i.link ≠ .cxl31 ∨ i.flag = true)) →
      execLinkTraining s = .next (s.setLink k {})) := by
  intro i b k cxl old up
  have hfails : (i.link == .down || (b != 0 && (i.link != .cxl31 || i.flag))) = true ↔
      i.link = .down ∨ (b ≠ 0 ∧ (i.link ≠ .cxl31 ∨ i.flag = true)) := by simp
  have hcxl : ((i.link == .cxl31 || i.link == .cxl20) && i.val.getLsbD 1) = decide (cxl ∧ i.val.getLsbD 1 = true) := by
    simp [cxl, i, beq_eq_decide]
  have hexec : execLinkTraining s = if old.mode != .down then .next s
      else if i.link == .down || (b != 0 && (i.link != .cxl31 || i.flag)) then .next (s.setLink k {})
      else .next ((s.linkUp b).setLink k up) := by
    simp only [up, ← hcxl]
    rfl
  rw [hexec]
  refine ⟨fun hup => if_pos (bne_iff_ne.mpr hup), fun hdown hlink hport => ?trains, fun hdown hbad => ?falls⟩
  case trains =>
    rw [if_neg (by rw [hdown]; decide), if_neg]
    rw [hfails]
    rintro (h | ⟨hb, h⟩)
    · exact hlink h
    · rcases hport with h0 | ⟨h31, hwide⟩
      · exact hb h0
      · exact h.elim (fun h => h h31) fun h => Bool.false_ne_true (hwide.symm.trans h)
  case falls => rw [if_neg (by rw [hdown]; decide), if_pos (hfails.mpr hbad)]

-- The TDISP interface.

theorem execLockInterface_locks {s : State}
    (h : s.host.lease.st = 1 ∧ s.host.lease.holder = s.input.a ∧ s.host.tdisp = .unlocked) : execLockInterface s =
      .next { s with host := { s.host with tdispOk := true, tdisp := .locked, port := s.input.a, guest := [s.input.b] } } := by
  obtain ⟨hst, hholder, htdisp⟩ := h
  simp only [execLockInterface, hst, hholder, htdisp, beq_self_eq_true, Bool.and_self, if_true, State.tdispAnswer]

theorem execLockInterface_refused {s : State}
    (h : ¬(s.host.lease.st = 1 ∧ s.host.lease.holder = s.input.a ∧ s.host.tdisp = .unlocked)) :
    execLockInterface s = .next (s.tdispAnswer false) := by
  have hno : (s.host.lease.st == 1 && s.host.lease.holder == s.input.a && s.host.tdisp == .unlocked) = false := by
    rw [Bool.eq_false_iff]
    simpa only [ne_eq, Bool.and_eq_true, beq_iff_eq, and_assoc] using h
  simp only [execLockInterface, hno, Bool.false_eq_true, if_false]

theorem execStartInterface_cases (s : State) : let k : Link := Map.get {} s.host.links (8 * s.input.a)
    let ok := s.host.tdisp = .locked ∧ s.host.port = s.input.a ∧ k.ideIo = true ∧ k.ideCxl = true
    (ok → execStartInterface s = .next { s with host := { s.host with tdispOk := true, tdisp := .run } })
    ∧ (¬ok → execStartInterface s = .next (s.tdispAnswer false)) := by
  intro k ok
  have hok : (s.host.tdisp == .locked && s.host.port == s.input.a && k.ideIo && k.ideCxl) = true ↔ ok := by
    simp only [ok, Bool.and_eq_true, beq_iff_eq, and_assoc]
  refine ⟨fun h => ?_, fun h => ?_⟩
  · have hyes := hok.mpr h
    simp only [k] at hyes
    simp only [execStartInterface, hyes, if_true, State.tdispAnswer]
  · have hno := Bool.eq_false_iff.mpr (mt hok.mp h)
    simp only [k] at hno
    simp only [execStartInterface, hno, Bool.false_eq_true, if_false]

/-- A zeroing of the module: HBM, then vaults, scratch, tile stores and weight buffers (log 12). -/
theorem read_zeroAll {s : State} (hwf : Inv s) (a : Nat) : Memory.read s.zeroAll.mem a =
    if a < hbmSize ∨ (2 ^ 52 ≤ a ∧ a < 2 ^ 56) then 0 else Memory.read s.mem a := by
  show Memory.read ((s.zeroRange 0 hbmSize).zeroRange (2 ^ 52) (2 ^ 56 - 2 ^ 52)).mem a = _
  rw [read_zeroRange _ _ _ a (inv_zeroRange s 0 hbmSize hwf), read_zeroRange s _ _ a hwf]
  have hhigh : (2 ^ 52 ≤ a ∧ a < 2 ^ 52 + (2 ^ 56 - 2 ^ 52)) ↔ 2 ^ 52 ≤ a ∧ a < 2 ^ 56 := by omega
  have hlow : (0 ≤ a ∧ a < 0 + hbmSize) ↔ a < hbmSize := by omega
  simp only [hhigh, hlow]
  by_cases hb : a < hbmSize
  · simp [hb]
  · simp only [hb, false_or, if_false]

/-- The interface after STOP: the module is zeroed first. -/
def State.stopped (s : State) : State :=
  let u := (s.tdispAnswer true).zeroAll
  { u with host := { u.host with tdisp := .unlocked, guest := [] } }

theorem execStopInterface_cases (s : State) : let ok := s.host.tdisp ≠ .unlocked ∧ s.host.port = s.input.a
    (ok → execStopInterface s = .next s.stopped) ∧ (¬ok → execStopInterface s = .next (s.tdispAnswer false)) := by
  intro ok
  have hok : (s.host.tdisp != .unlocked && s.host.port == s.input.a) = true ↔ ok := by
    simp only [ok, Bool.and_eq_true, beq_iff_eq, bne_iff_ne]
  refine ⟨fun h => ?_, fun h => ?_⟩
  · simp only [execStopInterface, hok.mpr h, if_true]
    rfl
  · simp only [execStopInterface, Bool.eq_false_iff.mpr (mt hok.mp h), Bool.false_eq_true, if_false]

/-- Settles O57: requests of the lease by their result codes, links by what they train to, the interface by its states. -/
theorem leaseLinksAndInterface : Obligations.LeaseLinksAndInterface := by
  intro s i l
  obtain ⟨hstart, hnoStart⟩ := execStartInterface_cases s
  obtain ⟨hstop, hnoStop⟩ := execStopInterface_cases s
  obtain ⟨hup, htrains, hfalls⟩ := execLinkTraining_cases s
  obtain ⟨herror, hsame⟩ := interfaceError_spec s
  refine ⟨⟨execHlreqRenew_eq s, execHlreqClaim_refused, fun t => leaseReserved_eq t i.val,
      fun hc hrun => ⟨_, execHlreqClaim_accepted hc hrun, claimed_spec (i.a % 2)⟩⟩,
    execLeaseExpiry_stays, execLeaseExpiry_ends, fence_spec s, fun d => leaseResult_spec s d i.val,
    ⟨hup, htrains, hfalls, rfl, rfl⟩, ⟨execLockInterface_locks, execLockInterface_refused⟩, ⟨hstart, hnoStart⟩,
    ⟨fun hok => ⟨_, hstop hok, rfl, rfl, rfl, rfl, fun hwf => read_zeroAll hwf⟩, hnoStop⟩, herror, hsame⟩

end Sys2Proof.Machine

/-! The statement of attestation (25 R342, R343). -/
namespace Sys2Proof.Machine

/-- An outcome in which the port `p` holds the response `l`, and nothing else of memory, groups and ports has changed. -/
def State.Answers (s : State) (p : Nat) (o : Out) (l : List Byte) : Prop :=
  ∃ t, o = .next t ∧ (Map.get {} t.host.spdm p : Spdm).response = l ∧ t.mem = s.mem ∧ t.groups = s.groups
    ∧ ∀ q, q ≠ p → (Map.get {} t.host.spdm q : Spdm) = Map.get {} s.host.spdm q

/-- The header of a message: its version, its code and its two parameters. -/
def spdmHead (code p1 p2 : Nat) : List Byte := leBytes 4 (0x13 + 2 ^ 8 * code + 2 ^ 16 * p1 + 2 ^ 24 * p2)

/-- A port that has selected algorithms. -/
def State.spdmSelected (s : State) (p : Nat) : State :=
  { s with host := { s.host with spdm := s.host.spdm.set p { (Map.get {} s.host.spdm p : Spdm) with selected := true } } }

section
variable {s : State} {p : Nat} (hopen : s.portOpen p = true)
include hopen

theorem spdmAnswer_answers (code p1 p2 : Nat) (l : List Byte) :
    s.Answers p (s.spdmAnswer p code p1 p2 l) (spdmHead code p1 p2 ++ l) := spdmAnswer_spec s p code p1 p2 l hopen

theorem spdmError_answers (code : Nat) : s.Answers p (s.spdmError p code) (spdmHead 0x7F code 0) := by
  have h := spdmAnswer_answers hopen 0x7F code 0 []
  rwa [List.append_nil] at h

/-- A signature needs the entropy state (R342). -/
theorem spdmSigned_answers (code p1 : Nat) (l : List Byte) : s.Answers p (s.spdmSigned p code p1 l)
    (if s.sec.locked then spdmHead 0x7F 3 0 else spdmHead code p1 0 ++ (l ++ falconSign (s.input.bytes ++ l))) := by
  unfold State.spdmSigned
  split
  · exact spdmError_answers hopen 3
  · exact spdmAnswer_answers hopen code p1 0 _

theorem spdmSelected_answers (code p1 p2 : Nat) (l : List Byte) :
    s.Answers p ((s.spdmSelected p).spdmAnswer p code p1 p2 l) (spdmHead code p1 p2 ++ l) := by
  obtain ⟨t, ht, hresponse, hmem, hgroups, hothers⟩ := spdmAnswer_spec (s.spdmSelected p) p code p1 p2 l hopen
  exact ⟨t, ht, hresponse, hmem, hgroups, fun q hq => (hothers q hq).trans (Map.get_set_other _ _ _ (Ne.symm hq))⟩
end

/-- What an offer of algorithms comes to: one that selects neither is refused. -/
theorem execNegotiateAlgorithms_offer {s : State} (h : s.input.flag = true ∨ s.input.flag2 = true) :
    execNegotiateAlgorithms s = (if s.portOpen s.input.a then s.spdmSelected s.input.a else s).spdmAnswer s.input.a 0x63 0 0
      [if s.input.flag then 1 else 0, if s.input.flag2 then 1 else 0] := by
  refine if_neg ?_
  rcases h with h | h <;> simp [h]

theorem execNegotiateAlgorithms_neither {s : State} (hflag : s.input.flag = false) (hflag2 : s.input.flag2 = false) :
    execNegotiateAlgorithms s = s.spdmError s.input.a 1 :=
  if_pos (by rw [hflag, hflag2]; rfl)

theorem execGetMeasurements_answers {s : State} (hopen : s.portOpen s.input.a = true) : let i := s.input
    let m := if i.b = 0xFF then [1, 2, 3, 4, 5, 6, 7, 8, 9].flatMap fun k => BitVec.ofNat 8 k :: s.measurement k
      else BitVec.ofNat 8 i.b :: s.measurement i.b
    s.Answers i.a (execGetMeasurements s) (if i.flag = false then spdmHead 0x60 0 0 ++ m
      else if s.sec.locked then spdmHead 0x7F 3 0 else spdmHead 0x60 0 0 ++ (m ++ falconSign (i.bytes ++ m))) := by
  intro i m
  have hexec : execGetMeasurements s = if i.flag then s.spdmSigned i.a 0x60 0 m else s.spdmAnswer i.a 0x60 0 0 m := by
    unfold execGetMeasurements
    simp only [beq_iff_eq]
    rfl
  rw [hexec]
  cases i.flag with
  | false => exact spdmAnswer_answers hopen 0x60 0 0 m
  | true => exact spdmSigned_answers hopen 0x60 0 m

/-- A port that is kept out gets no answer. -/
theorem attestation_shut {s : State} (hshut : s.portOpen s.input.a = false) :
    ∀ x ∈ [Instr.getVersion, .getCapabilities, .negotiateAlgorithms, .getDigests, .getCertificate, .challenge,
      .getMeasurements, .spdmUnsupportedRequest], exec x s = .next s := by
  have hanswer := fun code p1 p2 l => spdmAnswer_shut s s.input.a code p1 p2 l hshut
  have hsigned : ∀ code p1 l, s.spdmSigned s.input.a code p1 l = .next s := by
    intro code p1 l
    unfold State.spdmSigned
    split
    · exact hanswer ..
    · exact hanswer ..
  have hnegotiate : execNegotiateAlgorithms s = .next s := by
    unfold execNegotiateAlgorithms
    dsimp only
    split
    · exact hanswer ..
    · rw [if_neg (by rw [hshut]; exact Bool.false_ne_true)]
      exact hanswer ..
  have hmeasure : execGetMeasurements s = .next s := by
    unfold execGetMeasurements
    dsimp only
    split
    · exact hsigned ..
    · exact hanswer ..
  simp only [List.forall_mem_cons]
  exact ⟨hanswer .., hanswer .., hnegotiate, hanswer .., hanswer .., hsigned .., hmeasure, hanswer .., List.forall_mem_nil _⟩

/-- Settles O59: each request is an answer, an error or a signed answer of its port. -/
theorem attestationAnswers : Obligations.AttestationAnswers := by
  intro s i p answers head m
  refine ⟨fun hopen => ⟨spdmAnswer_answers hopen 0x04 0 0 _, spdmAnswer_answers hopen 0x61 0 0 _, fun hoffer => ?offer,
    fun hflag hflag2 => ?neither, spdmAnswer_answers hopen 0x01 0 1 _, spdmAnswer_answers hopen 0x02 0 0 _,
    spdmSigned_answers hopen 0x03 0 _, execGetMeasurements_answers hopen, spdmError_answers hopen 7⟩, attestation_shut⟩
  case offer =>
    show s.Answers p (execNegotiateAlgorithms s) _
    rw [execNegotiateAlgorithms_offer hoffer, if_pos hopen]
    exact spdmSelected_answers hopen 0x63 0 0 _
  case neither =>
    show s.Answers p (execNegotiateAlgorithms s) _
    rw [execNegotiateAlgorithms_neither hflag hflag2]
    exact spdmError_answers hopen 1

end Sys2Proof.Machine
